-- ==== Sys2Proof/Word.lean ====
section
/-!
DEFINITION. The word types of Saong: bytes, 32-bit words, 64-bit words and 128-bit buffer records (R4, R171, R273).
-/

namespace Sys2Proof

/-- One byte of memory. -/
abbrev Byte := BitVec 8
/-- A v register, an instruction word or a literal word (R273). -/
abbrev Word := BitVec 32
/-- A uniform register or a 64-bit control register. -/
abbrev DWord := BitVec 64
/-- A buffer record (R171). -/
abbrev RecBits := BitVec 128

end Sys2Proof
end

