-- ==== Sys2Proof/Config.lean ====
section
/-!
DEFINITION. What an implementation fixes and the free values. A free value is an opaque constant: nothing can evaluate it, so a
claim about it holds whatever it is. Each is applied to the counter `fresh` of State, which the step that uses it advances, or
to the operands it depends on. The log entries named here say which opening of the manual each stands for.
-/

namespace Sys2Proof.Config

/-- Reference ticks that pass before the n-th step (LE 2). -/
opaque elapsed : Nat → Nat

/-- A byte of memory that passed to another key and was not written since (R40, LE 9): drawing and address. -/
opaque rekeyed : Nat → Nat → BitVec 8

/-- The way, of those allowed, whose line the device replaces (R183, LE 8). -/
opaque victim : Nat → Nat

/-- Which candidate H waves a G claim takes (R117, LE 8). -/
opaque claimPick : Nat → Nat

/-- A memory, identity or hypervisor key drawn by Kettle's random number generator (R40, R46, LE 10). -/
opaque key : Nat → Nat

/-- The bytes verify against the key that the rule names: a signature, a certificate chain, a serial number (R35, R36, R39, R45,
R46, LE 10). -/
opaque verifies : Nat → List (BitVec 8) → Bool

/-- The bytes staged so far end an image (R36, LE 10). -/
opaque imageEnds : List (BitVec 8) → Bool

/-- The security version of an image (R35, LE 10). -/
opaque imageVersion : List (BitVec 8) → Nat

/-- The image that confirms asks for the fused counter to advance (R36, LE 10). -/
opaque advances : Nat → Bool

/-- A signature that Kettle makes with its identity key (R41, R46, LE 10). -/
opaque signature : Nat → Nat

/-- A digest (R41, LE 10). -/
opaque hash : List (BitVec 8) → Nat

/-- The contents of the boot ROM (R41): the spec gives none (LE 10). -/
opaque bootRom : List (BitVec 8)

/-- Ticks until a step whose moment the manual leaves open (R400, LE 1). -/
opaque delay : Nat → Nat

/-- The operand-grant ceiling that Kettle sets, and how far beyond the least distance it puts a flip tick (R21, R31, LE 15). -/
opaque kettleChoice : Nat → Nat

/-- Whether a unit fails at its flip tick (R32, LE 15). -/
opaque flipFails : Nat → Nat → Bool

/-- The line of a failed pseudo-channel could not be read (R38, LE 15): drawing and line. -/
opaque unread : Nat → Nat → Bool

/-- The state that a signed test-mode request asks for (R45, LE 10). -/
opaque wantsTest : List (BitVec 8) → Bool

/-- The chips of the domain (R49): system software gives them their ids; no register lists them. -/
opaque members : List Nat

/-- The two computations of a protected array step differ (R347): the drawing. The spec gives the comparison and what follows a
difference, not when the hardware errs (LE 79). -/
opaque upset : Nat → Bool

/-- A word that the spec leaves open: drawing and index (LE 13). -/
opaque freeWord : Nat → Nat → BitVec 64

end Sys2Proof.Config
end

