-- ==== Sys2Proof/Syntax.lean ====
section
/-!
DEFINITION. The syntax of Saong: the operand types and the one inductive of the rows of the opcode table. A row that is an
instruction word carries its operands (R276 to R284); a row that is a step of the device carries what its trigger brings:
the unit it happens to, the value a host writes, the packet that arrives, or a choice the manual leaves to an agent.
-/

namespace Sys2Proof

/-- A v register (R278). -/
abbrev VReg := Fin 128
/-- A predicate (R278); p127 is always true. -/
abbrev PReg := Fin 128
/-- A uniform register (R278). -/
abbrev SReg := Fin 64
/-- A buffer-record register (R278). -/
abbrev BReg := Fin 16
/-- An accumulator tile name (R345). -/
abbrev AReg := Fin 16
/-- A format slot (R255). -/
abbrev FSlot := Fin 8
/-- A copy tag (R185). -/
abbrev Tag := Fin 64

/-- The vb operand: a register or the literal word (R274, R276). -/
inductive VOp where
  | reg (r : VReg)
  | lit (w : Word)
  deriving DecidableEq, Repr

/-- The sb operand: a register or the literal word (R277, R361). -/
inductive SOp where
  | reg (r : SReg)
  | lit (w : Word)
  deriving DecidableEq, Repr

/-- The integer types of the t field (R279). -/
inductive IType where
  | i32 | n32 | i64 | n64 | i16x2 | n16x2 | i32s | n32s
  deriving DecidableEq, Repr

/-- The float types of the t field (R279). -/
inductive FType where
  | f32 | f64 | f32x2 | bf16x2 | f16x2 | f16
  deriving DecidableEq, Repr

/-- Access widths (R282). -/
inductive Width where
  | b8 | b16 | b32 | b64 | b128
  deriving DecidableEq, Repr

/-- Scopes (R201). -/
inductive Scope where
  | wave | team | cluster | die | device | system
  deriving DecidableEq, Repr

/-- ICMP and SCMP conditions (R281). -/
inductive ICond where
  | eq | ne | lt | le | gt | ge | ltu | geu
  deriving DecidableEq, Repr

/-- FCMP conditions (R281). -/
inductive FCond where
  | eq | ne | lt | le | gt | ge | un | ord
  deriving DecidableEq, Repr

/-- BRU conditions (R284). -/
inductive UCond where
  | always | eqz | nez | ltz | gez
  deriving DecidableEq, Repr

/-- WAITV conditions (R329). -/
inductive WCond where
  | eq | ne | geu | ltu
  deriving DecidableEq, Repr

/-- Rounding codes of FRND and CVT (R281): the mode of sr.fmode or a mode of the instruction. -/
inductive RoundCode where
  | fmode | rne | rz | rd | ru
  deriving DecidableEq, Repr

/-- The CVT codes of numbers that lie in registers without a slot (R308). -/
inductive NumFmt where
  | f32 | f64 | bf16 | f16 | i32 | n32 | i64 | n64
  deriving DecidableEq, Repr

/-- The forms of CVT (R308): code 8 on neither side, on the destination side, or on the source side. -/
inductive CvtKind where
  | plain (dst src : NumFmt) (r : RoundCode)
  | toSlot (f : FSlot) (src : NumFmt)
  | fromSlot (dst : NumFmt) (f : FSlot)
  deriving DecidableEq, Repr

/-- Element formats of PACK and UNPK, codes 1 to 7 (R313). -/
inductive ElemCode where
  | bf16 | f16 | e4m3 | e5m2 | e2m3 | e3m2 | e2m1
  deriving DecidableEq, Repr

/-- SHFL modes (R315). -/
inductive ShflMode where
  | idx | up | down | bfly
  deriving DecidableEq, Repr

/-- ATOM operations (R282). -/
inductive AtomOp where
  | add | min | max | and | or | xor | xchg
  deriving DecidableEq, Repr

/-- AFADD types (R282). -/
inductive AddType where
  | f32 | f64 | f16x2 | bf16x2
  deriving DecidableEq, Repr

/-- XACC addend types (R282). -/
inductive CellType where
  | f32 | f64 | bf16
  deriving DecidableEq, Repr

/-- Matrix step shapes (R342). -/
inductive Shape where
  | m32 | m16
  deriving DecidableEq, Repr

/-- MLDA element types (R359). -/
inductive TileType where
  | f32 | bf16 | f16
  deriving DecidableEq, Repr

/-- The two classes of work (R1). -/
inductive Cls where
  | g | h
  deriving DecidableEq, Repr

/-- A host function: the physical function or a virtual function (R77). -/
inductive HostFn where
  | pf
  | vf (k : Fin 32)
  deriving DecidableEq, Repr

/-- Throttle causes (R22); PROCHOT_N has a row of its own. -/
inductive ThrCause where
  | temperature | power | input
  deriving DecidableEq, Repr

/-- Alarm sensors (R42). -/
inductive AlarmSrc where
  | volt | clock | temp | mesh
  deriving DecidableEq, Repr

/-- Units that are fenced out (R38). -/
inductive FenceUnit where
  | core (c : Nat)
  | hob (h : Nat)
  | pseudoChannel (stack pc : Nat)
  | plane (p : Nat)
  deriving DecidableEq, Repr

/-- Units that a layout change affects (R29). -/
inductive FlipUnit where
  | cluster (c : Nat)
  | slice (n : Nat)
  | sieve (stack : Nat)
  | port (plane : Nat)
  | encryption
  deriving DecidableEq, Repr

/-- The rights of an access (R194, R57). -/
inductive Right where
  | read | write | atomic
  deriving DecidableEq, Repr

/-- The rights of an exported page (R57). -/
structure Rights where
  read : Bool
  write : Bool
  atomic : Bool
  deriving DecidableEq, Repr

/-- An entry of the export table (R57): the local page, none while it is not present, its rights, its 16-bit generation and the partitions (chip, partition)
to which it is exported. -/
structure ExportEntry where
  pa : Option Nat
  rights : Rights
  gen : Nat
  dests : List (Nat × Nat)
  deriving DecidableEq, Repr

/-- A read-modify-write as it is performed at the home (R326). -/
inductive RmwOp where
  | atom (op : AtomOp) (pair : Bool) (arg : DWord)
  | cas (pair : Bool) (comparand new : DWord)
  | fadd (t : AddType) (arg : DWord)
  deriving DecidableEq, Repr

/-- The header of a READ, WRITE or ATOMIC packet (R51, R55, R60): source chip, plane, sequence number, request number, export
page (none for a mirror duplicate, R72), generation, partition, class and target physical address. -/
structure FabReq where
  src : Nat
  plane : Fin 8
  seq : Nat
  id : Nat
  page : Option Nat
  gen : Nat
  part : Nat
  cls : Cls
  pa : Nat
  deriving DecidableEq, Repr

/-- The partition and the class that the header of a packet names, to which it is charged (R51, R62). -/
structure Charge where
  part : Nat
  cls : Cls
  deriving DecidableEq, Repr

/-- What a MARKER names besides its source and its plane (R51, R56). -/
structure MarkerTag where
  id : Nat
  of_ : Charge
  deriving DecidableEq, Repr

/-- What a STOP names besides its generation: the master that sends it, the dead planes, the buckets that a planned map moves (R65, R69). -/
structure StopMsg where
  src : Nat
  planes : BitVec 8
  moved : List (Fin 64)
  deriving DecidableEq, Repr

/-- A RECALL or RECALL_ACK: the chip that sends it and the generation of the change that it belongs to (R59, LE 67). -/
structure RecallMsg where
  chip : Nat
  gen : Nat
  deriving DecidableEq, Repr

/-- A STOPPED: the chip that answers and the generation that it reports (R65, R68). -/
structure StoppedMsg where
  chip : Nat
  gen : Nat
  deriving DecidableEq, Repr

/-- What a RESPONSE packet carries (R51, R55, R56, R57, R60); `poisoned` and `atomicPoisoned` are data that is marked poisoned (R246, LE 32). -/
inductive FabResp where
  | data (id : Nat) (bytes : List Byte)
  | poisoned (id : Nat)
  | atomicPoisoned (chip seq : Nat)
  | writeAck (chip seq : Nat)
  | atomicDone (chip seq : Nat) (old : DWord)
  | markerAck (chip id : Nat) (plane : Fin 8)
  | leaseDenied (id : Nat)
  | notPresent (id : Nat)
  | rejectedRead (id : Nat)
  | rejectedSeq (chip seq : Nat)
  deriving DecidableEq, Repr

/-- What a RoCE v2 packet brings (R74, R75, R332): data of a remote write, with the immediate that its last packet may carry; data of an
RDMA READ answer; an acknowledgement of so many bytes of a job; an RDMA READ request for bytes of this chip; a packet of a SEND message;
a priority flow control frame that stops or restarts a traffic class of the port. `post` is no packet: system software gives the queue
pair its next receive buffer. -/
inductive RocePkt where
  | place (pa : Nat) (bytes : List Byte) (imm : Option Nat)
  | readData (job : Nat) (bytes : List Byte)
  | ack (job bytes : Nat)
  | readReq (id pa len : Nat)
  | send (bytes : List Byte) (last : Bool)
  | pause (tc : Fin 8) (stopped : Bool)
  | post (pa len : Nat)
  deriving DecidableEq, Repr

/-- An SPDM request to Kettle (R41): its versions, its certificate chain, a challenge with a nonce, or a measurement block. -/
inductive SpdmReq where
  | version
  | certificate
  | challenge (nonce : Nat)
  | measurement (index : Nat)
  deriving DecidableEq, Repr

/-- The rows of spec/opcode_table.json, one constructor each: first the rows that bring something with them, then those that bring nothing (within each, in the table order). -/
inductive Instr where
  /-- THROTTLE_CAUSE (R22). -/
  | throttleCause (c : ThrCause) (h : Fin 64)
  /-- THROTTLE_STEP_DOWN (R21). -/
  | throttleStepDown (h : Fin 64)
  /-- THROTTLE_RELEASE (R22). -/
  | throttleRelease (h : Fin 64)
  /-- BACKSTOP_CEILING (R28). -/
  | backstopCeiling (h : Fin 64)
  /-- RELOCK_END (R14). -/
  | relockEnd (h : Fin 64)
  /-- BOOST_EXHAUSTED (R20). -/
  | boostExhausted (h : Fin 64)
  /-- ROW_REPAIR (R37). -/
  | rowRepair (stack : Fin 8) (bank row : Nat)
  /-- ROW_REPAIR_DONE (R37). -/
  | rowRepairDone (stack : Fin 8)
  /-- UNIT_FENCE (R38). -/
  | unitFence (u : FenceUnit)
  /-- ALARM (R44). -/
  | alarm (src : AlarmSrc)
  /-- ALARM_POLICY_WRITE (R43). -/
  | alarmPolicyWrite (v : Word)
  /-- DEV_HEALTH_CLEAR (R39). -/
  | devHealthClear (v : Word)
  /-- PTP_MESSAGE (R17). -/
  | ptpMessage (t : Nat) (ppm : Int)
  /-- REGISTER_WRITE (R80). -/
  | registerWrite (fn : HostFn) (bar : Fin 6) (off : Nat) (wide : Bool) (v : DWord)
  /-- PKG_PWR_LIMIT_WRITE (R80). -/
  | pkgPwrLimitWrite (v : Word)
  /-- LEASE_MAX_WRITE (R80). -/
  | leaseMaxWrite (v : Word)
  /-- FAB_ID_WRITE (R49). -/
  | fabIdWrite (v : Word) (trained : BitVec 8)
  /-- MIRROR_BROKEN_CLEAR (R71). -/
  | mirrorBrokenClear (p : Fin 8) (v : Word)
  /-- MIRROR_ACK_TIMEOUT (R73). -/
  | mirrorAckTimeout (p : Fin 8)
  /-- FABRIC_READ (R55). -/
  | fabricRead (r : FabReq) (len : Nat)
  /-- FABRIC_WRITE (R55). -/
  | fabricWrite (r : FabReq) (data : List Byte)
  /-- FABRIC_ATOMIC (R55). -/
  | fabricAtomic (r : FabReq) (op : RmwOp)
  /-- MARKER (R56). -/
  | marker (src : Nat) (plane : Fin 8) (m : MarkerTag)
  /-- RESPONSE (R52). -/
  | response (r : FabResp)
  /-- LEASE (R57). -/
  | lease (src : Nat) (of_ : Charge) (page : Nat) (right : Right) (id : Nat)
  /-- LEASE_GRANT (R57). -/
  | leaseGrant (die : Fin 2) (part chip page pa : Nat) (rights : Rights) (gen expiry : Nat)
  /-- LEASE_EXPIRY (R58). -/
  | leaseExpiry (die : Fin 2) (part chip page : Nat)
  /-- EXPORT_CHANGE (R59). -/
  | exportChange (page : Nat) (entry : ExportEntry)
  /-- EXPORT_CHANGE_TIMEOUT (R59). -/
  | exportChangeTimeout (page : Nat)
  /-- RECALL (R59). -/
  | recall (m : RecallMsg) (page : Nat)
  /-- RECALL_ACK (R59). -/
  | recallAck (m : RecallMsg) (page : Nat) (plane : Fin 8)
  /-- LINK_RETRY (R63). -/
  | linkRetry (plane : Fin 8)
  /-- LINK_RETRY_LIMIT (R64). -/
  | linkRetryLimit (plane : Fin 8)
  /-- LINK_DOWN (R64). -/
  | linkDown (plane : Fin 8)
  /-- FABRIC_REQUEST_TIMEOUT (R64). -/
  | fabricRequestTimeout (plane : Fin 8)
  /-- PLANE_FAIL (R64). -/
  | planeFail (plane : Fin 8)
  /-- DEAD_REPORT (R65). -/
  | deadReport (chip : Nat) (plane : Fin 8) (gen : Nat)
  /-- STOP (R65). -/
  | stop (m : StopMsg) (gen : Nat)
  /-- STOPPED (R65). -/
  | stopped (m : StoppedMsg)
  /-- QUIESCE_FENCE (R65). -/
  | quiesceFence (gen : Nat)
  /-- FENCED (R65). -/
  | fenced (chip : Nat)
  /-- MAP (R65). -/
  | map (gen : Nat) (planes : List (Fin 8))
  /-- RETRIED (R65). -/
  | retried (chip : Nat)
  /-- RESUME (R65). -/
  | resume (gen : Nat)
  /-- CHIP_STEP_TIMEOUT (R68). -/
  | chipStepTimeout (chip : Nat)
  /-- HOST_APERTURE_WRITE (R81). -/
  | hostApertureWrite (fn : HostFn) (off : Nat) (data : List Byte)
  /-- HOST_APERTURE_READ (R81). -/
  | hostApertureRead (fn : HostFn) (off len : Nat)
  /-- HOST_WINDOW_TIMEOUT (R401). -/
  | hostWindowTimeout (core slot : Nat)
  /-- VD_ENABLE (R84). -/
  | vdEnable (vf : Fin 32) (v : DWord)
  /-- VD_DISABLE (R84). -/
  | vdDisable (vf : Fin 32) (v : DWord)
  /-- QUEUE_ENABLE (R86). -/
  | queueEnable (vf : Fin 32) (q : Nat) (v : Word)
  /-- QUEUE_PAUSE (R87). -/
  | queuePause (vf : Fin 32) (q : Nat) (v : Word)
  /-- QUEUE_PAUSE_DRAINED (R87). -/
  | queuePauseDrained (hq : Nat)
  /-- QUEUE_RESET (R99). -/
  | queueReset (vf : Fin 32) (q : Nat) (v : Word)
  /-- QUEUE_RESET_DONE (R99). -/
  | queueResetDone (hq : Nat)
  /-- QUEUE_TAIL_WRITE (R88). -/
  | queueTailWrite (vf : Fin 32) (q : Nat) (v : Word)
  /-- RECORD_FETCH (R88). -/
  | recordFetch (hq : Nat)
  /-- NODE_START (R90). -/
  | nodeStart (hq slot : Nat)
  /-- NODE_COMPLETE (R91). -/
  | nodeComplete (hq slot : Nat)
  /-- WAIT_POLL (R92). -/
  | waitPoll (hq slot : Nat)
  /-- COND_RANGE_IDLE (R93). -/
  | condRangeIdle (hq slot : Nat)
  /-- HOSTPOST_APPEND (R95). -/
  | hostpostAppend (hq slot : Nat)
  /-- RING_TIMER (R96). -/
  | ringTimer (vf : Fin 32) (k : Fin 16)
  /-- RING_ENABLE (R94). -/
  | ringEnable (vf : Fin 32) (k : Fin 16) (v : Word)
  /-- RING_CONS_WRITE (R94). -/
  | ringConsWrite (vf : Fin 32) (k : Fin 16) (v : Word)
  /-- MSIX_UNMASK (R96). -/
  | msixUnmask (fn : HostFn) (vec : Nat)
  /-- LAUNCH_COMPLETE (R103). -/
  | launchComplete (grid : Nat)
  /-- TEAM_PLACEMENT (R116). -/
  | teamPlacement (cluster : Fin 8)
  /-- CLAIM_COMPLETE (R117). -/
  | claimComplete (core : Nat) (side : Fin 2)
  /-- SPILL_COPY_DONE (R118). -/
  | spillCopyDone (core : Nat) (side : Fin 2)
  /-- READMISSION (R119). -/
  | readmission (core slot : Nat)
  /-- SLAB_LEND (R121). -/
  | slabLend (core : Nat) (side : Fin 2)
  /-- LEND_RECLAIM (R121). -/
  | lendReclaim (core slot : Nat)
  /-- SLICE_BOUNDARY (R108). -/
  | sliceBoundary (p : Fin 8)
  /-- YIELD_REQUEST (R124). -/
  | yieldRequest (p : Fin 8)
  /-- SLICE_END (R125). -/
  | sliceEnd (cluster : Fin 8)
  /-- DRAIN_DEADLINE (R125). -/
  | drainDeadline (cluster : Fin 8)
  /-- SHADOW_EXCHANGE (R127). -/
  | shadowExchange (cluster : Fin 8)
  /-- SWITCH_COMPLETE (R128). -/
  | switchComplete (p : Fin 8)
  /-- THERMAL_MIGRATION (R131). -/
  | thermalMigration (team target : Nat)
  /-- MIGRATION_COMPLETE (R131). -/
  | migrationComplete (team : Nat)
  /-- FORWARDING_EXPIRY (R132). -/
  | forwardingExpiry (core : Nat)
  /-- TLB_INV (R193). -/
  | tlbInv (p : Fin 8) (v : DWord)
  /-- TLB_INV_DONE (R193). -/
  | tlbInvDone (p : Fin 8)
  /-- FQ_ENABLE (R198). -/
  | fqEnable (p : Fin 8) (v : Word)
  /-- FQ_RESOLVE (R199). -/
  | fqResolve (p : Fin 8) (v : DWord)
  /-- SQ_ENABLE (R228). -/
  | sqEnable (p : Fin 8) (v : Word)
  /-- WAVE_REENTER (R229). -/
  | waveReenter (p : Fin 8) (v : DWord)
  /-- WAVE_RESUME (R229). -/
  | waveResume (p : Fin 8) (v : DWord)
  /-- WAVE_KILL (R229). -/
  | waveKill (p : Fin 8) (v : DWord)
  /-- ASYNC_CAUSE_DELIVERY (R222). -/
  | asyncCauseDelivery (core slot : Nat)
  /-- LAUNCH_REPLAY (R247). -/
  | launchReplay (grid : Nat)
  /-- GATE_TIMEOUT (R239). -/
  | gateTimeout (core slot : Nat)
  /-- GATE_ABORT_TIMEOUT (R240). -/
  | gateAbortTimeout (core slot : Nat)
  /-- WAITV_WAKE (R329). -/
  | waitvWake (core slot : Nat)
  /-- SLEEP_WAKE (R381). -/
  | sleepWake (core slot : Nat)
  /-- CHILD_GRID_RETIRE (R151). -/
  | childGridRetire (grid : Nat)
  /-- SCHEDULE_ENTRY_ISSUE (R188). -/
  | scheduleEntryIssue (team : Nat)
  /-- COPY_CHUNK_WRITTEN (R186). -/
  | copyChunkWritten (job : Nat)
  /-- COPY_JOB_COMPLETE (R334). -/
  | copyJobComplete (job : Nat)
  /-- MATRIX_STEP (R352). -/
  | matrixStep (job : Nat)
  /-- MATRIX_JOB_COMPLETE (R355). -/
  | matrixJobComplete (job : Nat)
  /-- COLL_ROUND_COMPLETE (R339). -/
  | collRoundComplete (job : Nat) (agree : Bool) (sends : List (List Byte))
  /-- COLLW_RELEASE (R340). -/
  | collwRelease (p : Fin 8) (group : Fin 256)
  /-- IADD (R296). -/
  | iadd (t : IType) (d a : VReg) (b : VOp)
  /-- ISUB (R296). -/
  | isub (t : IType) (d a : VReg) (b : VOp)
  /-- IMUL (R296). -/
  | imul (t : IType) (d a : VReg) (b : VOp)
  /-- IMULH (R296). -/
  | imulh (t : IType) (d a : VReg) (b : VOp)
  /-- IMAD (R296). -/
  | imad (t : IType) (d a : VReg) (b : VOp)
  /-- IMIN (R296). -/
  | imin (t : IType) (d a : VReg) (b : VOp)
  /-- IMAX (R296). -/
  | imax (t : IType) (d a : VReg) (b : VOp)
  /-- AND (R296). -/
  | and (t : IType) (d a : VReg) (b : VOp)
  /-- OR (R296). -/
  | or (t : IType) (d a : VReg) (b : VOp)
  /-- XOR (R296). -/
  | xor (t : IType) (d a : VReg) (b : VOp)
  /-- ANDN (R296). -/
  | andn (t : IType) (d a : VReg) (b : VOp)
  /-- SHL (R297). -/
  | shl (t : IType) (d a : VReg) (b : VOp)
  /-- SHR (R297). -/
  | shr (t : IType) (d a : VReg) (b : VOp)
  /-- SAR (R297). -/
  | sar (t : IType) (d a : VReg) (b : VOp)
  /-- ROT (R297). -/
  | rot (t : IType) (d a : VReg) (b : VOp)
  /-- LEA (R301). -/
  | lea (d : VReg) (n : BReg) (o : VReg)
  /-- SEL (R298). -/
  | sel (p : Fin 8) (d a : VReg) (b : VOp)
  /-- MOV (R298). -/
  | mov (t : IType) (d : VReg) (b : VOp)
  /-- POPC (R299). -/
  | popc (pair : Bool) (d a : VReg)
  /-- CLZ (R299). -/
  | clz (pair : Bool) (d a : VReg)
  /-- BREV (R299). -/
  | brev (pair : Bool) (d a : VReg)
  /-- BFX (R300). -/
  | bfx (t : IType) (d a : VReg) (b : VOp)
  /-- BFI (R300). -/
  | bfi (t : IType) (d a : VReg) (b : VOp)
  /-- ICMP (R302). -/
  | icmp (cc : ICond) (d : PReg) (a : VReg) (b : VOp)
  /-- FADD (R303). -/
  | fadd (t : FType) (d a : VReg) (b : VOp)
  /-- FSUB (R303). -/
  | fsub (t : FType) (d a : VReg) (b : VOp)
  /-- FMUL (R303). -/
  | fmul (t : FType) (d a : VReg) (b : VOp)
  /-- FFMA (R303). -/
  | ffma (t : FType) (d a : VReg) (b : VOp)
  /-- FMIN (R304). -/
  | fmin (t : FType) (d a : VReg) (b : VOp)
  /-- FMAX (R304). -/
  | fmax (t : FType) (d a : VReg) (b : VOp)
  /-- FCMP (R305). -/
  | fcmp (cc : FCond) (pair : Bool) (d : PReg) (a b : VReg)
  /-- FRND (R307). -/
  | frnd (t : FType) (r : RoundCode) (d a : VReg)
  /-- FCLASS (R307). -/
  | fclass (t : FType) (d a : VReg)
  /-- FRCP (R306). -/
  | frcp (t : FType) (d a : VReg)
  /-- FRSQ (R306). -/
  | frsq (t : FType) (d a : VReg)
  /-- FSQRT (R306). -/
  | fsqrt (t : FType) (d a : VReg)
  /-- FEXP2 (R306). -/
  | fexp2 (t : FType) (d a : VReg)
  /-- FLOG2 (R306). -/
  | flog2 (t : FType) (d a : VReg)
  /-- FSINP (R306). -/
  | fsinp (t : FType) (d a : VReg)
  /-- FCOSP (R306). -/
  | fcosp (t : FType) (d a : VReg)
  /-- FNEG (R307). -/
  | fneg (t : FType) (d a : VReg)
  /-- FABS (R307). -/
  | fabs (t : FType) (d a : VReg)
  /-- CVT (R309). -/
  | cvt (c : CvtKind) (d a : VReg)
  /-- QBLK (R310). -/
  | qblk (f : FSlot) (d a : VReg)
  /-- CBDEC (R311). -/
  | cbdec (f : FSlot) (d a : VReg)
  /-- CBENC (R312). -/
  | cbenc (f : FSlot) (d a : VReg)
  /-- PACK (R313). -/
  | pack (e : ElemCode) (d a : VReg)
  /-- UNPK (R313). -/
  | unpk (e : ElemCode) (d a : VReg)
  /-- SHFL (R315). -/
  | shfl (m : ShflMode) (d a : VReg) (b : VOp)
  /-- MOVU (R298). -/
  | movu (pair : Bool) (d : VReg) (n : SReg)
  /-- PAND (R316). -/
  | pand (neg : Bool) (d a b : PReg)
  /-- POR (R316). -/
  | por (neg : Bool) (d a b : PReg)
  /-- PXOR (R316). -/
  | pxor (neg : Bool) (d a b : PReg)
  /-- PNOT (R316). -/
  | pnot (d a : PReg)
  /-- PMOV (R316). -/
  | pmov (d a : PReg)
  /-- GSEL (R317). -/
  | gsel (neg : Bool) (a : PReg)
  /-- BRA (R318). -/
  | bra (neg : Bool) (p : PReg) (off : BitVec 17)
  /-- CALL (R318). -/
  | call (neg : Bool) (p : PReg) (off : BitVec 17)
  /-- BRX (R319). -/
  | brx (a : VReg)
  /-- RNG (R320). -/
  | rng (d a : VReg)
  /-- LD (R323). -/
  | ld (w : Width) (hint : Fin 4) (d : VReg) (n : BReg) (o : VReg)
  /-- ST (R323). -/
  | st (w : Width) (hint : Fin 4) (v : VReg) (n : BReg) (o : VReg)
  /-- LDQ (R324). -/
  | ldq (pair acq : Bool) (sc : Scope) (d : VReg) (n : BReg) (o : VReg)
  /-- STQ (R324). -/
  | stq (pair rel : Bool) (sc : Scope) (v : VReg) (n : BReg) (o : VReg)
  /-- LDS (R323). -/
  | lds (w : Width) (d : VReg) (n : BReg) (o : VReg)
  /-- STS (R323). -/
  | sts (w : Width) (v : VReg) (n : BReg) (o : VReg)
  /-- LDC (R323). -/
  | ldc (w : Width) (d : VReg) (n : BReg) (o : VReg)
  /-- STC (R323). -/
  | stc (w : Width) (v : VReg) (n : BReg) (o : VReg)
  /-- PRF (R325). -/
  | prf (l2 : Bool) (n : BReg) (o : VReg)
  /-- ATOM (R326). -/
  | atom (op : AtomOp) (pair : Bool) (sc : Scope) (d : VReg) (n : BReg) (o : VReg)
  /-- ACAS (R326). -/
  | acas (pair : Bool) (sc : Scope) (d : VReg) (n : BReg) (o : VReg)
  /-- AFADD (R326). -/
  | afadd (t : AddType) (sc : Scope) (d : VReg) (n : BReg) (o : VReg)
  /-- XACC (R327). -/
  | xacc (t : CellType) (v : VReg) (n : BReg) (o : VReg)
  /-- XRD (R327). -/
  | xrd (pair clr : Bool) (d : VReg) (n : BReg) (o : VReg)
  /-- SADD (R362). -/
  | sadd (narrow : Bool) (d a : SReg) (b : SOp)
  /-- SSUB (R362). -/
  | ssub (narrow : Bool) (d a : SReg) (b : SOp)
  /-- SMUL (R362). -/
  | smul (narrow : Bool) (d a : SReg) (b : SOp)
  /-- SAND (R362). -/
  | sand (narrow : Bool) (d a : SReg) (b : SOp)
  /-- SOR (R362). -/
  | sor (narrow : Bool) (d a : SReg) (b : SOp)
  /-- SXOR (R362). -/
  | sxor (narrow : Bool) (d a : SReg) (b : SOp)
  /-- SSHL (R362). -/
  | sshl (narrow : Bool) (d a : SReg) (b : SOp)
  /-- SSHR (R362). -/
  | sshr (narrow : Bool) (d a : SReg) (b : SOp)
  /-- SSAR (R362). -/
  | ssar (narrow : Bool) (d a : SReg) (b : SOp)
  /-- SCMP (R363). -/
  | scmp (cc : ICond) (d a : SReg) (b : SOp)
  /-- SSEL (R363). -/
  | ssel (c : SReg) (d a : SReg) (b : SOp)
  /-- SMOV (R363). -/
  | smov (d a : SReg)
  /-- SMOV_LIT (R284). -/
  | smovLit (d : SReg) (w : Word)
  /-- SMOV_SX (R284). -/
  | smovSx (d : SReg) (w : Word)
  /-- SMOV_D (R284). -/
  | smovD (d : SReg) (lo hi : Word)
  /-- SADDI (R364). -/
  | saddi (d a : SReg) (imm : BitVec 13)
  /-- SLEA (R364). -/
  | slea (d a : SReg) (c : Fin 8) (off : BitVec 10)
  /-- VOTE_ANY (R365). -/
  | voteAny (d : SReg) (p : PReg)
  /-- VOTE_ALL (R365). -/
  | voteAll (d : SReg) (p : PReg)
  /-- VOTE_BALLOT (R365). -/
  | voteBallot (d : SReg) (p : PReg)
  /-- RDLN (R366). -/
  | rdln (d : SReg) (v : VReg) (lane : Fin 32)
  /-- RDLN_REG (R366). -/
  | rdlnReg (d : SReg) (v : VReg) (a : SReg)
  /-- BRU (R367). -/
  | bru (cc : UCond) (a : SReg) (off : BitVec 16)
  /-- BREC (R328). -/
  | brec (d : BReg) (a : SReg)
  /-- CBAR (R369). -/
  | cbar (id : Fin 16) (a : SReg)
  /-- WAITV (R329). -/
  | waitv (n : BReg) (sc : Scope) (cc : WCond) (pair : Bool) (d a : SReg)
  /-- FENCE_ACQ (R330). -/
  | fenceAcq (e : Bool) (sc : Scope)
  /-- FENCE_REL (R330). -/
  | fenceRel (e : Bool) (sc : Scope)
  /-- FENCE_FULL (R330). -/
  | fenceFull (e : Bool) (sc : Scope)
  /-- CPY (R331). -/
  | cpy (tag : Tag) (a : SReg)
  /-- CPYM (R331). -/
  | cpym (tag : Tag) (a : SReg)
  /-- TWAIT_ALL (R335). -/
  | twaitAll (a : SReg)
  /-- TWAIT_ANY (R335). -/
  | twaitAny (a : SReg)
  /-- TFIRST (R335). -/
  | tfirst (d a : SReg)
  /-- TCLR (R335). -/
  | tclr (a : SReg)
  /-- CHWAIT_ALL (R335). -/
  | chwaitAll (tag : Tag) (w : Fin 16) (d a : SReg)
  /-- CHWAIT_ANY (R335). -/
  | chwaitAny (tag : Tag) (w : Fin 16) (d a : SReg)
  /-- SCHADV (R336). -/
  | schadv (k : BitVec 13)
  /-- COLL (R338). -/
  | coll (tag : Tag) (a : SReg)
  /-- COLLW (R340). -/
  | collw (g : Fin 256)
  /-- MMA (R348). -/
  | mma (sh : Shape) (d : AReg) (a b : SReg) (fa fb : FSlot)
  /-- MML (R350). -/
  | mml (tag : Tag) (a : SReg)
  /-- MMCK (R350). -/
  | mmck (tag : Tag) (a : SReg)
  /-- MZERO (R359). -/
  | mzero (d : AReg)
  /-- MLDA (R359). -/
  | mlda (sh : Shape) (t : TileType) (d : AReg) (a : SReg)
  /-- MSTA (R359). -/
  | msta (sh : Shape) (f : FSlot) (d : AReg) (a : SReg)
  /-- MSCL (R359). -/
  | mscl (sh : Shape) (d : AReg) (a : SReg)
  /-- MWAIT (R354). -/
  | mwait (tag : Tag) (a : SReg)
  /-- RGNE (R230). -/
  | rgne (a : SReg)
  /-- GCALL (R235). -/
  | gcall (g : Fin 4096)
  /-- LCHILD (R373). -/
  | lchild (d a : SReg)
  /-- PERFQ (R375). -/
  | perfq (d a : SReg)
  /-- THRM (R376). -/
  | thrm (arm : Bool)
  /-- TRAP (R377). -/
  | trap (imm : Fin 128)
  /-- SRD (R378). -/
  | srd (n : Fin 512) (hi : Bool) (d : SReg)
  /-- SWR (R378). -/
  | swr (n : Fin 512) (a : SReg)
  /-- IPF (R379). -/
  | ipf (l2 : Bool) (lines : Fin 4096) (a : SReg)
  /-- IPIN (R379). -/
  | ipin (l2 : Bool) (lines : Fin 4096) (a : SReg)
  /-- IUNP (R379). -/
  | iunp (l2 : Bool) (lines : Fin 4096) (a : SReg)
  /-- SLEEP (R381). -/
  | sleep (a : SReg)
  /-- SPDM_REQUEST (R41). -/
  | spdmRequest (r : SpdmReq) (viaI3c : Bool)
  /-- CONGESTION_NOTIFICATION_PACKET (R75). -/
  | congestionNotificationPacket (port : Fin 2) (qp : Fin 16384)
  /-- RATE_RECOVERY (R75). -/
  | rateRecovery (port : Fin 2) (qp : Fin 16384)
  /-- ROCE_PACKET (R332). -/
  | rocePacket (port : Fin 2) (qp : Fin 16384) (pk : RocePkt)
  /-- ETHERNET_PORT_DOWN (R334). -/
  | ethernetPortDown (port : Fin 2)
  /-- QUEUE_PAIR_ERROR (R334). -/
  | queuePairError (port : Fin 2) (qp : Fin 16384)
  /-- POWER_ON (R27). -/
  | powerOn
  /-- PACKAGE_RESET (R34). -/
  | packageReset
  /-- BROWN_OUT (R24). -/
  | brownOut
  /-- INPUT_UNDERVOLTAGE (R24). -/
  | inputUndervoltage
  /-- INPUT_OVERVOLTAGE_WARNING (R24). -/
  | inputOvervoltageWarning
  /-- OVER_VOLTAGE_SHUTDOWN (R24). -/
  | overVoltageShutdown
  /-- THERMAL_TRIP (R25). -/
  | thermalTrip
  /-- PROCHOT_ASSERT (R22). -/
  | prochotAssert
  /-- BOOST_WINDOW (R20). -/
  | boostWindow
  /-- KETTLE_WATCHDOG_EXPIRY (R28). -/
  | kettleWatchdogExpiry
  /-- KETTLE_BOOT (R35). -/
  | kettleBoot
  /-- CONFIRM (R36). -/
  | confirm
  /-- CONFIRM_TIMEOUT (R36). -/
  | confirmTimeout
  /-- LAYOUT_SUBMIT (R30). -/
  | layoutSubmit
  /-- LAYOUT_LATE (R31). -/
  | layoutLate
  /-- LAYOUT_FLIP (R31). -/
  | layoutFlip
  /-- LAYOUT_COMMIT (R31). -/
  | layoutCommit
  /-- LAYOUT_QUERY (R30). -/
  | layoutQuery
  /-- PLAN (R69). -/
  | plan
  /-- FW_STAGE (R36). -/
  | fwStage
  /-- SERVICE_RETURN (R39). -/
  | serviceReturn
  /-- PARTITION_STOP (R399). -/
  | partitionStop
  /-- PARTITION_STOP_DONE (R399). -/
  | partitionStopDone
  /-- PARTITION_START (R399). -/
  | partitionStart
  /-- TEST_MODE (R45). -/
  | testMode
  /-- PROVISION_GENERATE (R46). -/
  | provisionGenerate
  /-- PROVISION_INSTALL (R46). -/
  | provisionInstall
  /-- BAD_CMD (R83). -/
  | badCmd
  /-- PPS_PULSE (R17). -/
  | ppsPulse
  /-- MASTER_TIMEOUT (R68). -/
  | masterTimeout
  /-- FAB_WINDOW (R62). -/
  | fabWindow
  /-- GSEL_NONE (R317). -/
  | gselNone
  /-- NOP (R319). -/
  | nop
  /-- RET (R319). -/
  | ret
  /-- EXIT (R319). -/
  | exit
  /-- BAR_ARRIVE (R368). -/
  | barArrive
  /-- BAR_WAIT (R368). -/
  | barWait
  /-- BAR_SYNC (R368). -/
  | barSync
  /-- RGNL (R230). -/
  | rgnl
  /-- GRET (R238). -/
  | gret
  /-- LJOIN (R374). -/
  | ljoin
  /-- RTE (R224). -/
  | rte
  /-- YIELD (R380). -/
  | yield
  /-- BKPT (R377). -/
  | bkpt
  /-- HALT (R382). -/
  | halt
  /-- PPS_ABSENT (R80). -/
  | ppsAbsent
  /-- ILLEGAL_OP (R285). -/
  | illegalOp
  /-- FETCH_FAULT (R189). -/
  | fetchFault
  deriving DecidableEq, Repr

end Sys2Proof
end

