-- ==== Sys2Proof/WellFormed.lean ====
section
/-!
DEFINITION. Which terms of the syntax an instruction word can hold (R278, R279, R281, R282, R284 and the descriptions of
chapters 13 to 16): the type codes an instruction accepts and the alignment of register pairs and blocks. The fields'
ranges are in the types of Syntax. A row that is a step of the device is always well formed.
-/

namespace Sys2Proof

/-- The type takes an even register pair (R294). -/
def IType.pair : IType → Bool
  | .i64 | .n64 => true
  | _ => false

/-- The type takes an even register pair (R294). -/
def FType.pair : FType → Bool
  | .f64 | .f32x2 => true
  | _ => false

/-- The number takes an even register pair (R294, R308). -/
def NumFmt.pair : NumFmt → Bool
  | .f64 | .i64 | .n64 => true
  | _ => false

/-- Types 0 to 5: every type but the saturating ones (R296, R297). -/
def IType.noSat : IType → Bool
  | .i32s | .n32s => false
  | _ => true

/-- Types 0 to 3 (R296, R298, R300). -/
def IType.plain : IType → Bool
  | .i32 | .n32 | .i64 | .n64 => true
  | _ => false

/-- A block of `n` registers starts at a multiple of `n` (R278, R311, R313, R320, R322). -/
def blockOk (n : Nat) (r : VReg) : Bool := r.val % n == 0

/-- A pair operand names an even register (R278). -/
def pairOk (pair : Bool) (r : VReg) : Bool := !pair || blockOk 2 r

/-- A pair operand that may be a literal (R274, R278). -/
def pairOpOk (pair : Bool) : VOp → Bool
  | .reg r => pairOk pair r
  | .lit _ => true

/-- An even uniform register (R278). -/
def evenS (r : SReg) : Bool := r.val % 2 == 0

/-- The number of registers an access of this width takes (R322). -/
def Width.regs : Width → Nat
  | .b64 => 2
  | .b128 => 4
  | _ => 1

/-- Elements of one packed register (R313). -/
def ElemCode.count : ElemCode → Nat
  | .bf16 | .f16 => 2
  | .e4m3 | .e5m2 | .e2m3 | .e3m2 => 4
  | .e2m1 => 8

def CvtKind.wf (d a : VReg) : CvtKind → Bool
  | .plain dst src _ => pairOk dst.pair d && pairOk src.pair a
  | .toSlot _ src => pairOk src.pair a
  | .fromSlot dst _ => pairOk dst.pair d

/-- The well-formedness of an instruction. -/
def Instr.wf : Instr → Bool
  | .iadd t d a b | .isub t d a b | .imul t d a b | .imad t d a b => pairOk t.pair d && pairOk t.pair a && pairOpOk t.pair b
  | .imulh t d a b | .imin t d a b | .imax t d a b =>
    t.noSat && pairOk t.pair d && pairOk t.pair a && pairOpOk t.pair b
  | .and t d a b | .or t d a b | .xor t d a b | .andn t d a b =>
    t.plain && pairOk t.pair d && pairOk t.pair a && pairOpOk t.pair b
  | .shl t d a _ | .shr t d a _ | .sar t d a _ | .rot t d a _ => t.noSat && pairOk t.pair d && pairOk t.pair a
  | .lea d _ _ => blockOk 2 d
  | .mov t d b => t.plain && pairOk t.pair d && pairOpOk t.pair b
  | .popc pr _ a | .clz pr _ a => pairOk pr a
  | .brev pr d a => pairOk pr d && pairOk pr a
  | .bfx t d a _ | .bfi t d a _ => t.plain && pairOk t.pair d && pairOk t.pair a
  | .fadd t d a b | .fsub t d a b | .fmul t d a b | .ffma t d a b | .fmin t d a b | .fmax t d a b =>
    pairOk t.pair d && pairOk t.pair a && pairOpOk t.pair b
  | .fcmp _ pr _ a b => pairOk pr a && pairOk pr b
  | .frnd t _ d a | .frcp t d a | .frsq t d a | .fsqrt t d a | .fexp2 t d a | .flog2 t d a | .fsinp t d a | .fcosp t d a
  | .fneg t d a | .fabs t d a => pairOk t.pair d && pairOk t.pair a
  | .fclass t _ a => (t == .f32 || t == .f64 || t == .f16) && pairOk t.pair a
  | .cvt c d a => c.wf d a
  | .qblk _ d _ => blockOk 2 d
  | .cbdec _ d _ => blockOk 4 d
  | .cbenc _ _ a => blockOk 4 a
  | .pack e _ a => blockOk e.count a
  | .unpk e d _ => blockOk e.count d
  | .movu pr d _ => pairOk pr d
  | .brx a => blockOk 2 a
  | .rng d a => blockOk 4 d && blockOk 4 a
  | .ld w _ d _ _ | .st w _ d _ _ | .lds w d _ _ | .sts w d _ _ | .ldc w d _ _ | .stc w d _ _ => blockOk w.regs d
  | .ldq pr _ _ d _ _ | .stq pr _ _ d _ _ | .atom _ pr _ d _ _ | .xrd pr _ d _ _ => pairOk pr d
  | .acas pr _ d _ _ => blockOk (if pr then 4 else 2) d
  | .afadd t _ d _ _ => pairOk (t == .f64) d
  | .xacc t v _ _ => pairOk (t == .f64) v
  | .bru cc a _ => cc != .always || a.val == 0
  | .brec _ a | .rgne a => evenS a
  | .mma _ _ a b _ _ => evenS a && evenS b
  | .srd n hi _ => !hi || n.val == 0
  | _ => true

end Sys2Proof
end

