-- ==== Sys2Proof/Decode.lean ====
section
/-!
DEFINITION. Decoding (R273 to R285) and, after it, the encoder. A word is read as a number whose bit 0 is its least significant
bit; literal words follow it (R274). Decoding is total: a word that is not an instruction is rejected by name (R285).
-/

namespace Sys2Proof

/-- Why a word is not an instruction (R285). -/
inductive Reject where
  /-- All zero, or a major marked illegal, unassigned or reserved (R280, R283). -/
  | noMajor
  /-- A reserved fn, op, cc, t, sz or m code, or a scope of 6 or 7 (R279, R281, R282, R284). -/
  | reservedCode
  /-- A non-zero field or bit that the instruction leaves unused. -/
  | unusedField
  /-- A type that the instruction does not accept, or a pair or block at a wrong register (R278). -/
  | operand
  /-- The bytes end before the word or its literal words do. -/
  | truncated
  deriving DecidableEq, Repr

/-- The outcome of decoding. -/
abbrev Dec := Except Reject

/-- `n` bits of `w` from bit `lo` upward. -/
def fld (w lo n : Nat) : Nat := w / 2 ^ lo % 2 ^ n

/-- The field of 7 bits at `lo` as a register. -/
def vreg (w lo : Nat) : VReg := Fin.ofNat 128 (w / 2 ^ lo)

/-- The field of 6 bits at `lo` as a uniform register. -/
def sreg (w lo : Nat) : SReg := Fin.ofNat 64 (w / 2 ^ lo)

/-- A bit. -/
def bitAt (w lo : Nat) : Bool := w / 2 ^ lo % 2 == 1

def need (c : Bool) (r : Reject) (i : Dec Instr) : Dec Instr := if c then i else .error r

/-- The t code of an integer type (R279). -/
def IType.code : IType → Nat
  | .i32 => 0
  | .n32 => 1
  | .i64 => 2
  | .n64 => 3
  | .i16x2 => 4
  | .n16x2 => 5
  | .i32s => 6
  | .n32s => 7

/-- The inverse of `IType.code`; other codes are refused. -/
def IType.ofCode : Nat → Dec IType
  | 0 => .ok .i32
  | 1 => .ok .n32
  | 2 => .ok .i64
  | 3 => .ok .n64
  | 4 => .ok .i16x2
  | 5 => .ok .n16x2
  | 6 => .ok .i32s
  | 7 => .ok .n32s
  | _ => .error .reservedCode

/-- The t code of a float type (R279). -/
def FType.code : FType → Nat
  | .f32 => 0
  | .f64 => 1
  | .f32x2 => 2
  | .bf16x2 => 3
  | .f16x2 => 4
  | .f16 => 5

/-- The inverse of `FType.code`; other codes are refused. -/
def FType.ofCode : Nat → Dec FType
  | 0 => .ok .f32
  | 1 => .ok .f64
  | 2 => .ok .f32x2
  | 3 => .ok .bf16x2
  | 4 => .ok .f16x2
  | 5 => .ok .f16
  | _ => .error .reservedCode

/-- The sz code of a width (R282). -/
def Width.code : Width → Nat
  | .b8 => 0
  | .b16 => 1
  | .b32 => 2
  | .b64 => 3
  | .b128 => 4

/-- The inverse of `Width.code`; other codes are refused. -/
def Width.ofCode : Nat → Dec Width
  | 0 => .ok .b8
  | 1 => .ok .b16
  | 2 => .ok .b32
  | 3 => .ok .b64
  | 4 => .ok .b128
  | _ => .error .reservedCode

/-- The scope code (R201). -/
def Scope.code : Scope → Nat
  | .wave => 0
  | .team => 1
  | .cluster => 2
  | .die => 3
  | .device => 4
  | .system => 5

/-- The inverse of `Scope.code`; other codes are refused. -/
def Scope.ofCode : Nat → Dec Scope
  | 0 => .ok .wave
  | 1 => .ok .team
  | 2 => .ok .cluster
  | 3 => .ok .die
  | 4 => .ok .device
  | 5 => .ok .system
  | _ => .error .reservedCode

/-- The cc code of ICMP and SCMP (R281). -/
def ICond.code : ICond → Nat
  | .eq => 0
  | .ne => 1
  | .lt => 2
  | .le => 3
  | .gt => 4
  | .ge => 5
  | .ltu => 6
  | .geu => 7

/-- The inverse of `ICond.code`; other codes are refused. -/
def ICond.ofCode : Nat → Dec ICond
  | 0 => .ok .eq
  | 1 => .ok .ne
  | 2 => .ok .lt
  | 3 => .ok .le
  | 4 => .ok .gt
  | 5 => .ok .ge
  | 6 => .ok .ltu
  | 7 => .ok .geu
  | _ => .error .reservedCode

/-- The cc code of FCMP (R281). -/
def FCond.code : FCond → Nat
  | .eq => 0
  | .ne => 1
  | .lt => 2
  | .le => 3
  | .gt => 4
  | .ge => 5
  | .un => 6
  | .ord => 7

/-- The inverse of `FCond.code`; other codes are refused. -/
def FCond.ofCode : Nat → Dec FCond
  | 0 => .ok .eq
  | 1 => .ok .ne
  | 2 => .ok .lt
  | 3 => .ok .le
  | 4 => .ok .gt
  | 5 => .ok .ge
  | 6 => .ok .un
  | 7 => .ok .ord
  | _ => .error .reservedCode

/-- The cc code of BRU (R284). -/
def UCond.code : UCond → Nat
  | .always => 0
  | .eqz => 1
  | .nez => 2
  | .ltz => 3
  | .gez => 4

/-- The inverse of `UCond.code`; other codes are refused. -/
def UCond.ofCode : Nat → Dec UCond
  | 0 => .ok .always
  | 1 => .ok .eqz
  | 2 => .ok .nez
  | 3 => .ok .ltz
  | 4 => .ok .gez
  | _ => .error .reservedCode

/-- The cc code of WAITV (R329). -/
def WCond.code : WCond → Nat
  | .eq => 0
  | .ne => 1
  | .geu => 2
  | .ltu => 3

/-- The inverse of `WCond.code`; other codes are refused. -/
def WCond.ofCode : Nat → Dec WCond
  | 0 => .ok .eq
  | 1 => .ok .ne
  | 2 => .ok .geu
  | 3 => .ok .ltu
  | _ => .error .reservedCode

/-- The rounding code of FRND and CVT (R281). -/
def RoundCode.code : RoundCode → Nat
  | .fmode => 0
  | .rne => 1
  | .rz => 2
  | .rd => 3
  | .ru => 4

/-- The inverse of `RoundCode.code`; other codes are refused. -/
def RoundCode.ofCode : Nat → Dec RoundCode
  | 0 => .ok .fmode
  | 1 => .ok .rne
  | 2 => .ok .rz
  | 3 => .ok .rd
  | 4 => .ok .ru
  | _ => .error .reservedCode

/-- The CVT code of a number without a slot (R281). -/
def NumFmt.code : NumFmt → Nat
  | .f32 => 0
  | .f64 => 1
  | .bf16 => 2
  | .f16 => 3
  | .i32 => 4
  | .n32 => 5
  | .i64 => 6
  | .n64 => 7

/-- The inverse of `NumFmt.code`; other codes are refused. -/
def NumFmt.ofCode : Nat → Dec NumFmt
  | 0 => .ok .f32
  | 1 => .ok .f64
  | 2 => .ok .bf16
  | 3 => .ok .f16
  | 4 => .ok .i32
  | 5 => .ok .n32
  | 6 => .ok .i64
  | 7 => .ok .n64
  | _ => .error .reservedCode

/-- The element format code of PACK and UNPK (R281). -/
def ElemCode.code : ElemCode → Nat
  | .bf16 => 1
  | .f16 => 2
  | .e4m3 => 3
  | .e5m2 => 4
  | .e2m3 => 5
  | .e3m2 => 6
  | .e2m1 => 7

/-- The inverse of `ElemCode.code`; other codes are refused. -/
def ElemCode.ofCode : Nat → Dec ElemCode
  | 1 => .ok .bf16
  | 2 => .ok .f16
  | 3 => .ok .e4m3
  | 4 => .ok .e5m2
  | 5 => .ok .e2m3
  | 6 => .ok .e3m2
  | 7 => .ok .e2m1
  | _ => .error .reservedCode

/-- The mode of SHFL (R281). -/
def ShflMode.code : ShflMode → Nat
  | .idx => 0
  | .up => 1
  | .down => 2
  | .bfly => 3

/-- The inverse of `ShflMode.code`; other codes are refused. -/
def ShflMode.ofCode : Nat → Dec ShflMode
  | 0 => .ok .idx
  | 1 => .ok .up
  | 2 => .ok .down
  | 3 => .ok .bfly
  | _ => .error .reservedCode

/-- The operation code of ATOM (R282). -/
def AtomOp.code : AtomOp → Nat
  | .add => 0
  | .min => 1
  | .max => 2
  | .and => 3
  | .or => 4
  | .xor => 5
  | .xchg => 6

/-- The inverse of `AtomOp.code`; other codes are refused. -/
def AtomOp.ofCode : Nat → Dec AtomOp
  | 0 => .ok .add
  | 1 => .ok .min
  | 2 => .ok .max
  | 3 => .ok .and
  | 4 => .ok .or
  | 5 => .ok .xor
  | 6 => .ok .xchg
  | _ => .error .reservedCode

/-- The type code of AFADD (R282). -/
def AddType.code : AddType → Nat
  | .f32 => 0
  | .f64 => 1
  | .f16x2 => 2
  | .bf16x2 => 3

/-- The inverse of `AddType.code`; other codes are refused. -/
def AddType.ofCode : Nat → Dec AddType
  | 0 => .ok .f32
  | 1 => .ok .f64
  | 2 => .ok .f16x2
  | 3 => .ok .bf16x2
  | _ => .error .reservedCode

/-- The type code of XACC (R282). -/
def CellType.code : CellType → Nat
  | .f32 => 0
  | .f64 => 1
  | .bf16 => 2

/-- The inverse of `CellType.code`; other codes are refused. -/
def CellType.ofCode : Nat → Dec CellType
  | 0 => .ok .f32
  | 1 => .ok .f64
  | 2 => .ok .bf16
  | _ => .error .reservedCode

/-- The shape code (R342). -/
def Shape.code : Shape → Nat
  | .m32 => 0
  | .m16 => 1

/-- The inverse of `Shape.code`; other codes are refused. -/
def Shape.ofCode : Nat → Dec Shape
  | 0 => .ok .m32
  | 1 => .ok .m16
  | _ => .error .reservedCode

/-- The type code of MLDA (R359). -/
def TileType.code : TileType → Nat
  | .f32 => 0
  | .bf16 => 1
  | .f16 => 2

/-- The inverse of `TileType.code`; other codes are refused. -/
def TileType.ofCode : Nat → Dec TileType
  | 0 => .ok .f32
  | 1 => .ok .bf16
  | 2 => .ok .f16
  | _ => .error .reservedCode

/-- The vb operand: [10:4], or the literal with [10:4] zero when x = 1 (R276, R285). -/
def vop (w l : Nat) : Dec VOp :=
  if bitAt w 0 then if fld w 4 7 = 0 then .ok (.lit (.ofNat 32 l)) else .error .unusedField
  else .ok (.reg (vreg w 4))

/-- The sb operand: [12:7], or the literal with [12:7] zero when x = 1 (R277, R285). -/
def sop (w l : Nat) : Dec SOp :=
  if bitAt w 0 then if fld w 7 6 = 0 then .ok (.lit (.ofNat 32 l)) else .error .unusedField
  else .ok (.reg (sreg w 7))

/-- VRR with an integer type. -/
def vrrI (mk : IType → VReg → VReg → VOp → Instr) (w l : Nat) : Dec Instr := do
  let t ← IType.ofCode (fld w 1 3)
  let b ← vop w l
  .ok (mk t (vreg w 18) (vreg w 11) b)

/-- VRR with a float type. -/
def vrrF (mk : FType → VReg → VReg → VOp → Instr) (w l : Nat) : Dec Instr := do
  let t ← FType.ofCode (fld w 1 3)
  let b ← vop w l
  .ok (mk t (vreg w 18) (vreg w 11) b)

/-- BITU (R299): fn[10:3] are zero. -/
def decBitu (w : Nat) : Dec Instr :=
  need (fld w 3 8 == 0) .unusedField <|
  match fld w 0 2 with
  | 0 => .ok (.popc (bitAt w 2) (vreg w 18) (vreg w 11))
  | 1 => .ok (.clz (bitAt w 2) (vreg w 18) (vreg w 11))
  | 2 => .ok (.brev (bitAt w 2) (vreg w 18) (vreg w 11))
  | _ => .error .reservedCode

/-- FUNA (R306): fn[9:7] is the rounding of FRND and zero for the others, fn[10] is zero. -/
def decFuna (w : Nat) : Dec Instr :=
  need (fld w 10 1 == 0) .unusedField <| do
  let t ← FType.ofCode (fld w 4 3)
  let r ← RoundCode.ofCode (fld w 7 3)
  let un (mk : FType → VReg → VReg → Instr) : Dec Instr :=
    need (fld w 7 3 == 0) .unusedField (.ok (mk t (vreg w 18) (vreg w 11)))
  match fld w 0 4 with
  | 0 => .ok (.frnd t r (vreg w 18) (vreg w 11))
  | 1 => un .fclass
  | 2 => un .frcp
  | 3 => un .frsq
  | 4 => un .fsqrt
  | 5 => un .fexp2
  | 6 => un .flog2
  | 7 => un .fsinp
  | 8 => un .fcosp
  | 9 => un .fneg
  | 10 => un .fabs
  | _ => .error .reservedCode

/-- CVT (R308): destination fn[3:0], source fn[7:4], slot or rounding fn[10:8]. -/
def decCvt (w : Nat) : Dec Instr :=
  let d := vreg w 18
  let a := vreg w 11
  let f : FSlot := Fin.ofNat 8 (w / 2 ^ 8)
  if fld w 0 4 = 8 then do
    let s ← NumFmt.ofCode (fld w 4 4)
    .ok (.cvt (.toSlot f s) d a)
  else if fld w 4 4 = 8 then do
    let t ← NumFmt.ofCode (fld w 0 4)
    .ok (.cvt (.fromSlot t f) d a)
  else do
    let t ← NumFmt.ofCode (fld w 0 4)
    let s ← NumFmt.ofCode (fld w 4 4)
    let r ← RoundCode.ofCode (fld w 8 3)
    .ok (.cvt (.plain t s r) d a)

/-- CTLR (R319): vd is zero. -/
def decCtlr (w : Nat) : Dec Instr :=
  need (fld w 18 7 == 0) .unusedField <|
  match fld w 0 11 with
  | 0 => need (fld w 11 7 == 0) .unusedField (.ok .nop)
  | 1 => .ok (.brx (vreg w 11))
  | 2 => need (fld w 11 7 == 0) .unusedField (.ok .ret)
  | 3 => need (fld w 11 7 == 0) .unusedField (.ok .exit)
  | _ => .error .reservedCode

/-- POP (R316). -/
def decPop (w : Nat) : Dec Instr :=
  let d := vreg w 18
  let a := vreg w 11
  match fld w 1 3 with
  | 0 => .ok (.pand (bitAt w 0) d a (vreg w 4))
  | 1 => .ok (.por (bitAt w 0) d a (vreg w 4))
  | 2 => .ok (.pxor (bitAt w 0) d a (vreg w 4))
  | 3 => need (fld w 4 7 == 0 && fld w 0 1 == 0) .unusedField (.ok (.pnot d a))
  | 4 => need (fld w 4 7 == 0 && fld w 0 1 == 0) .unusedField (.ok (.pmov d a))
  | _ => .error .reservedCode

/-- GSEL (R317): pd and pb are zero. -/
def decGsel (w : Nat) : Dec Instr :=
  need (fld w 18 7 == 0 && fld w 4 7 == 0) .unusedField <|
  match fld w 1 3 with
  | 0 => .ok (.gsel (bitAt w 0) (vreg w 11))
  | 1 => need (fld w 11 7 == 0 && fld w 0 1 == 0) .unusedField (.ok .gselNone)
  | _ => .error .reservedCode

/-- VM (R276): register block, record, index register. -/
def vm (w : Nat) (mk : VReg → BReg → VReg → Instr) : Instr := mk (vreg w 18) (Fin.ofNat 16 (w / 2 ^ 14)) (vreg w 7)

/-- VM with a width in sz and m zero (R282). -/
def vmWidth (w : Nat) (mk : Width → VReg → BReg → VReg → Instr) : Dec Instr := do
  let z ← Width.ofCode (fld w 4 3)
  need (fld w 0 4 == 0) .unusedField (.ok (vm w (mk z)))

/-- LD and ST (R176, R282): width in sz, hint in m. -/
def vmHint (w : Nat) (mk : Width → Fin 4 → VReg → BReg → VReg → Instr) : Dec Instr := do
  let z ← Width.ofCode (fld w 4 3)
  need (fld w 0 4 < 4) .reservedCode (.ok (vm w (mk z (Fin.ofNat 4 w))))

/-- LDQ and STQ (R282, R324): sz 2 or 3, scope in m[3:1], order in m[0]. -/
def vmStrong (w : Nat) (mk : Bool → Bool → Scope → VReg → BReg → VReg → Instr) : Dec Instr := do
  let sc ← Scope.ofCode (fld w 1 3)
  match fld w 4 3 with
  | 2 => .ok (vm w (mk false (bitAt w 0) sc))
  | 3 => .ok (vm w (mk true (bitAt w 0) sc))
  | _ => .error .reservedCode

/-- PRF (R325). -/
def decPrf (w : Nat) : Dec Instr :=
  need (fld w 18 7 == 0 && fld w 4 3 == 0) .unusedField <|
  need (fld w 0 4 < 2) .reservedCode <|
  .ok (.prf (bitAt w 0) (Fin.ofNat 16 (w / 2 ^ 14)) (vreg w 7))

/-- ATOM (R282): operation in m[2:0], 64 bits in m[3]. -/
def decAtom (w : Nat) : Dec Instr := do
  let sc ← Scope.ofCode (fld w 4 3)
  let op ← AtomOp.ofCode (fld w 0 3)
  .ok (vm w (.atom op (bitAt w 3) sc))

/-- ACAS (R282): 64 bits in m[3], m[2:0] zero. -/
def decAcas (w : Nat) : Dec Instr := do
  let sc ← Scope.ofCode (fld w 4 3)
  need (fld w 0 3 == 0) .unusedField (.ok (vm w (.acas (bitAt w 3) sc)))

/-- AFADD (R282). -/
def decAfadd (w : Nat) : Dec Instr := do
  let sc ← Scope.ofCode (fld w 4 3)
  let t ← AddType.ofCode (fld w 0 4)
  .ok (vm w (.afadd t sc))

/-- XACC (R282): sz zero. -/
def decXacc (w : Nat) : Dec Instr :=
  need (fld w 4 3 == 0) .unusedField <| do
  let t ← CellType.ofCode (fld w 0 4)
  .ok (vm w (.xacc t))

/-- XRD (R282): sz and m[3:2] zero. -/
def decXrd (w : Nat) : Dec Instr :=
  need (fld w 4 3 == 0 && fld w 2 2 == 0) .unusedField <|
  .ok (vm w (.xrd (bitAt w 0) (bitAt w 1)))

/-- The lane majors (R280). `l` is the literal word. -/
def decodeLane (w l : Nat) : Dec Instr :=
  match fld w 25 6 with
  | 1 => vrrI .iadd w l
  | 2 => vrrI .isub w l
  | 3 => vrrI .imul w l
  | 4 => vrrI .imulh w l
  | 5 => vrrI .imad w l
  | 6 => vrrI .imin w l
  | 7 => vrrI .imax w l
  | 8 => vrrI .and w l
  | 9 => vrrI .or w l
  | 10 => vrrI .xor w l
  | 11 => vrrI .andn w l
  | 12 => vrrI .shl w l
  | 13 => vrrI .shr w l
  | 14 => vrrI .sar w l
  | 15 => vrrI .rot w l
  | 16 => need (fld w 0 7 == 0) .unusedField (.ok (vm w .lea))
  | 17 => do let b ← vop w l; .ok (.sel (Fin.ofNat 8 (w / 2 ^ 1)) (vreg w 18) (vreg w 11) b)
  | 18 => need (fld w 11 7 == 0) .unusedField (vrrI (fun t d _ b => .mov t d b) w l)
  | 19 => decBitu w
  | 20 => vrrI .bfx w l
  | 21 => vrrI .bfi w l
  | 22 => do let c ← ICond.ofCode (fld w 1 3); let b ← vop w l; .ok (.icmp c (vreg w 18) (vreg w 11) b)
  | 23 => vrrF .fadd w l
  | 24 => vrrF .fsub w l
  | 25 => vrrF .fmul w l
  | 26 => vrrF .ffma w l
  | 27 => vrrF .fmin w l
  | 28 => vrrF .fmax w l
  | 29 => do let c ← FCond.ofCode (fld w 1 3); .ok (.fcmp c (bitAt w 0) (vreg w 18) (vreg w 11) (vreg w 4))
  | 30 => decFuna w
  | 31 => decCvt w
  | 32 => need (fld w 3 8 == 0) .unusedField (.ok (.qblk (Fin.ofNat 8 w) (vreg w 18) (vreg w 11)))
  | 33 => need (fld w 4 7 == 0) .unusedField (.ok ((if bitAt w 0 then Instr.cbenc else Instr.cbdec) (Fin.ofNat 8 (w / 2 ^ 1)) (vreg w 18) (vreg w 11)))
  | 34 => need (fld w 5 6 == 0) .unusedField (do let e ← ElemCode.ofCode (fld w 1 4); .ok ((if bitAt w 0 then Instr.unpk else Instr.pack) e (vreg w 18) (vreg w 11)))
  | 35 => do let m ← ShflMode.ofCode (fld w 1 3); let b ← vop w l; .ok (.shfl m (vreg w 18) (vreg w 11) b)
  | 36 => need (fld w 11 7 == 0 && fld w 7 4 == 0) .unusedField (.ok (.movu (bitAt w 6) (vreg w 18) (sreg w 0)))
  | 37 => decPop w
  | 38 => decGsel w
  | 39 => .ok (.bra (bitAt w 17) (vreg w 18) (.ofNat 17 w))
  | 40 => .ok (.call (bitAt w 17) (vreg w 18) (.ofNat 17 w))
  | 41 => decCtlr w
  | 42 => need (fld w 0 11 == 0) .unusedField (.ok (.rng (vreg w 18) (vreg w 11)))
  | 43 => vmHint w .ld
  | 44 => vmHint w .st
  | 45 => vmStrong w .ldq
  | 46 => vmStrong w .stq
  | 47 => vmWidth w .lds
  | 48 => vmWidth w .sts
  | 49 => vmWidth w .ldc
  | 50 => vmWidth w .stc
  | 51 => decPrf w
  | 52 => decAtom w
  | 53 => decAcas w
  | 54 => decAfadd w
  | 55 => decXacc w
  | 56 => decXrd w
  | _ => .error .noMajor

/-- SRR with fn 0 or 1 (R284). -/
def srr (mk : Bool → SReg → SReg → SOp → Instr) (w l : Nat) : Dec Instr := do
  let b ← sop w l
  need (fld w 1 6 < 2) .reservedCode (.ok (mk (bitAt w 1) (sreg w 19) (sreg w 13) b))

/-- SMOV (R284): fn 0 copies or takes a literal, fn 1 sign-extends a literal, fn 2 takes two. -/
def decSmov (w l h : Nat) : Dec Instr :=
  let d := sreg w 19
  if bitAt w 0 then
    need (fld w 13 6 == 0 && fld w 7 6 == 0) .unusedField <|
    match fld w 1 6 with
    | 0 => .ok (.smovLit d (.ofNat 32 l))
    | 1 => .ok (.smovSx d (.ofNat 32 l))
    | 2 => .ok (.smovD d (.ofNat 32 l) (.ofNat 32 h))
    | _ => .error .reservedCode
  else
    need (fld w 1 6 == 0) .reservedCode <|
    need (fld w 7 6 == 0) .unusedField (.ok (.smov d (sreg w 13)))

/-- VOTE (R365). -/
def decVote (w : Nat) : Dec Instr :=
  need (fld w 9 10 == 0) .unusedField <|
  match fld w 7 2 with
  | 0 => .ok (.voteAny (sreg w 19) (vreg w 0))
  | 1 => .ok (.voteAll (sreg w 19) (vreg w 0))
  | 2 => .ok (.voteBallot (sreg w 19) (vreg w 0))
  | _ => .error .reservedCode

/-- RDLN (R366): immediate lane, or lane in s(sa). -/
def decRdln (w : Nat) : Dec Instr :=
  if bitAt w 12 then need (fld w 7 5 == 0) .unusedField (.ok (.rdlnReg (sreg w 19) (vreg w 0) (sreg w 13)))
  else need (fld w 13 6 == 0) .unusedField (.ok (.rdln (sreg w 19) (vreg w 0) (Fin.ofNat 32 (w / 2 ^ 7))))

/-- BAR (R368). -/
def decBar (w : Nat) : Dec Instr :=
  need (fld w 2 23 == 0) .unusedField <|
  match fld w 0 2 with
  | 0 => .ok .barArrive
  | 1 => .ok .barWait
  | 2 => .ok .barSync
  | _ => .error .reservedCode

/-- WAITV (R329). -/
def decWaitv (w : Nat) : Dec Instr :=
  need (fld w 10 3 == 0) .unusedField <| do
  let sc ← Scope.ofCode (fld w 4 3)
  let cc ← WCond.ofCode (fld w 7 2)
  .ok (.waitv (Fin.ofNat 16 w) sc cc (bitAt w 9) (sreg w 19) (sreg w 13))

/-- FENCE (R330). -/
def decFence (w : Nat) : Dec Instr :=
  need (fld w 6 19 == 0) .unusedField <| do
  let sc ← Scope.ofCode (fld w 0 3)
  match fld w 3 2 with
  | 0 => .ok (.fenceAcq (bitAt w 5) sc)
  | 1 => .ok (.fenceRel (bitAt w 5) sc)
  | 2 => .ok (.fenceFull (bitAt w 5) sc)
  | _ => .error .reservedCode

/-- SE with fn zero (R331, R338, R350). -/
def se (mk : Tag → SReg → Instr) (w : Nat) : Dec Instr :=
  need (fld w 0 13 == 0) .unusedField (.ok (mk (sreg w 19) (sreg w 13)))

/-- TWAIT (R335). -/
def decTwait (w : Nat) : Dec Instr :=
  need (fld w 1 12 == 0 && fld w 19 6 == 0) .unusedField <|
  .ok ((if bitAt w 0 then Instr.twaitAny else Instr.twaitAll) (sreg w 13))

/-- CHWAIT (R335). -/
def decChwait (w : Nat) : Dec Instr :=
  need (fld w 11 2 == 0) .unusedField <|
  .ok ((if bitAt w 10 then Instr.chwaitAny else Instr.chwaitAll) (sreg w 0) (Fin.ofNat 16 (w / 2 ^ 6)) (sreg w 19) (sreg w 13))

/-- MLDA (R359): sd[5:4] and imm[12:3] zero. -/
def decMlda (w : Nat) : Dec Instr :=
  need (fld w 23 2 == 0 && fld w 3 10 == 0) .unusedField <| do
  let sh ← Shape.ofCode (fld w 0 1)
  let t ← TileType.ofCode (fld w 1 2)
  .ok (.mlda sh t (Fin.ofNat 16 (w / 2 ^ 19)) (sreg w 13))

/-- MSTA (R359): sd[5:4] and imm[12:4] zero. -/
def decMsta (w : Nat) : Dec Instr :=
  need (fld w 23 2 == 0 && fld w 4 9 == 0) .unusedField <| do
  let sh ← Shape.ofCode (fld w 0 1)
  .ok (.msta sh (Fin.ofNat 8 (w / 2 ^ 1)) (Fin.ofNat 16 (w / 2 ^ 19)) (sreg w 13))

/-- MSCL (R359): sd[5:4] and imm[12:1] zero. -/
def decMscl (w : Nat) : Dec Instr :=
  need (fld w 23 2 == 0 && fld w 1 12 == 0) .unusedField <| do
  let sh ← Shape.ofCode (fld w 0 1)
  .ok (.mscl sh (Fin.ofNat 16 (w / 2 ^ 19)) (sreg w 13))

/-- MMA (R348). -/
def decMma (w : Nat) : Dec Instr := do
  let sh ← Shape.ofCode (fld w 0 3)
  .ok (.mma sh (Fin.ofNat 16 (w / 2 ^ 21)) (sreg w 15) (sreg w 9) (Fin.ofNat 8 (w / 2 ^ 6)) (Fin.ofNat 8 (w / 2 ^ 3)))

/-- IPF, IPIN and IUNP (R379): sd zero. -/
def decLines (mk : Bool → Fin 4096 → SReg → Instr) (w : Nat) : Dec Instr :=
  need (fld w 19 6 == 0) .unusedField (.ok (mk (bitAt w 0) (Fin.ofNat 4096 (w / 2 ^ 1)) (sreg w 13)))

/-- An instruction whose fields are all zero (R284). -/
def bare (i : Instr) (w : Nat) : Dec Instr := need (fld w 0 25 == 0) .unusedField (.ok i)

/-- SY with sa alone. -/
def syA (mk : SReg → Instr) (w : Nat) : Dec Instr :=
  need (fld w 0 13 == 0 && fld w 19 6 == 0) .unusedField (.ok (mk (sreg w 13)))

/-- SY with sd and sa. -/
def syDA (mk : SReg → SReg → Instr) (w : Nat) : Dec Instr :=
  need (fld w 0 13 == 0) .unusedField (.ok (mk (sreg w 19) (sreg w 13)))

/-- The uniform majors (R283). `l` and `h` are the literal words. -/
def decodeUniform (w l h : Nat) : Dec Instr :=
  match fld w 25 6 with
  | 1 => srr .sadd w l
  | 2 => srr .ssub w l
  | 3 => srr .smul w l
  | 4 => srr .sand w l
  | 5 => srr .sor w l
  | 6 => srr .sxor w l
  | 7 => srr .sshl w l
  | 8 => srr .sshr w l
  | 9 => srr .ssar w l
  | 10 => do let b ← sop w l; need (fld w 4 3 == 0) .unusedField (do let c ← ICond.ofCode (fld w 1 3); .ok (.scmp c (sreg w 19) (sreg w 13) b))
  | 11 => do let b ← sop w l; .ok (.ssel (sreg w 1) (sreg w 19) (sreg w 13) b)
  | 12 => decSmov w l h
  | 13 => .ok (.saddi (sreg w 19) (sreg w 13) (.ofNat 13 w))
  | 14 => .ok (.slea (sreg w 19) (sreg w 13) (Fin.ofNat 8 w) (.ofNat 10 (w / 2 ^ 3)))
  | 15 => decVote w
  | 16 => decRdln w
  | 17 => do let c ← UCond.ofCode (fld w 22 3); .ok (.bru c (sreg w 16) (.ofNat 16 w))
  | 18 => need (fld w 23 2 == 0 && fld w 0 13 == 0) .unusedField (.ok (.brec (Fin.ofNat 16 (w / 2 ^ 19)) (sreg w 13)))
  | 19 => decBar w
  | 20 => need (fld w 4 9 == 0 && fld w 19 6 == 0) .unusedField (.ok (.cbar (Fin.ofNat 16 w) (sreg w 13)))
  | 21 => decWaitv w
  | 22 => decFence w
  | 23 => se .cpy w
  | 24 => se .cpym w
  | 25 => decTwait w
  | 26 => syDA .tfirst w
  | 27 => syA .tclr w
  | 28 => decChwait w
  | 31 => need (fld w 13 12 == 0) .unusedField (.ok (.schadv (.ofNat 13 w)))
  | 32 => se .coll w
  | 33 => need (fld w 8 17 == 0) .unusedField (.ok (.collw (Fin.ofNat 256 w)))
  | 34 => decMma w
  | 35 => se .mml w
  | 36 => se .mmck w
  | 37 => need (fld w 23 2 == 0 && fld w 0 19 == 0) .unusedField (.ok (.mzero (Fin.ofNat 16 (w / 2 ^ 19))))
  | 38 => decMlda w
  | 39 => decMsta w
  | 40 => decMscl w
  | 41 => need (fld w 19 6 == 0 && fld w 6 7 == 0) .unusedField (.ok (.mwait (sreg w 0) (sreg w 13)))
  | 42 => syA .rgne w
  | 43 => bare .rgnl w
  | 44 => need (fld w 12 13 == 0) .unusedField (.ok (.gcall (Fin.ofNat 4096 w)))
  | 45 => bare .gret w
  | 46 => syDA .lchild w
  | 47 => bare .ljoin w
  | 48 => syDA .perfq w
  | 49 => need (fld w 1 24 == 0) .unusedField (.ok (.thrm (bitAt w 0)))
  | 50 => need (fld w 7 18 == 0) .unusedField (.ok (.trap (Fin.ofNat 128 w)))
  | 51 => bare .rte w
  | 52 => need (fld w 13 6 == 0 && fld w 10 3 == 0) .unusedField (.ok (.srd (Fin.ofNat 512 w) (bitAt w 9) (sreg w 19)))
  | 53 => need (fld w 19 6 == 0 && fld w 9 4 == 0) .unusedField (.ok (.swr (Fin.ofNat 512 w) (sreg w 13)))
  | 54 => decLines .ipf w
  | 55 => decLines .ipin w
  | 56 => decLines .iunp w
  | 57 => bare .yield w
  | 58 => syA .sleep w
  | 59 => bare .bkpt w
  | 60 => bare .halt w
  | _ => .error .noMajor

/-- A uniform word has bit 31 set (R273). -/
def isUniformWord (w : Nat) : Bool := bitAt w 31

/-- SHFL (major 0x23) is a lane instruction that converges (R314). -/
def isShflWord (w : Nat) : Bool := !bitAt w 31 && fld w 25 6 == 0x23

/-- The majors of the formats VRR and VPC whose bit 0 says that a literal follows (R276, R280; FCMP takes none). -/
def laneHasX (m : Nat) : Bool :=
  (1 ≤ m && m ≤ 0x0F) || m == 0x11 || m == 0x12 || m == 0x14 || m == 0x15 || m == 0x16 || (0x17 ≤ m && m ≤ 0x1C) || m == 0x23

/-- How many literal words follow the word `w` (R274, R284). -/
def litCount (w : Nat) : Nat :=
  let m := fld w 25 6
  if bitAt w 0 then
    if isUniformWord w then
      if m == 0x0C then (if fld w 1 6 == 2 then 2 else 1) else if 1 ≤ m && m ≤ 0x0C then 1 else 0
    else if laneHasX m then 1 else 0
  else 0

/-- The instruction that the word `w` and its literal words stand for. -/
def decodeWords (w l h : Nat) : Dec Instr := do
  let i ← if isUniformWord w then decodeUniform w l h else decodeLane w l
  if i.wf then .ok i else .error .operand

/-- A little-endian number (R4). -/
def leNat : List Byte → Nat
  | [] => 0
  | b :: bs => b.toNat + 256 * leNat bs

/-- `n` little-endian bytes of a number (R4). -/
def leBytes : Nat → Nat → List Byte
  | 0, _ => []
  | n + 1, x => BitVec.ofNat 8 x :: leBytes n (x / 256)

/-- Decodes the instruction at the head of `bs`; answers it and its length in bytes. Total on any bytes. -/
def decodeBytes (bs : List Byte) : Dec (Instr × Nat) :=
  if bs.length < 4 then .error .truncated
  else
    let w := leNat (bs.take 4)
    let k := litCount w
    if bs.length < 4 + 4 * k then .error .truncated
    else do
      let i ← decodeWords w (leNat ((bs.drop 4).take 4)) (leNat ((bs.drop 8).take 4))
      .ok (i, 4 + 4 * k)

/-- The host's table word: `nbits` bits of the row, the bits above them zero, laid out as three little-endian words (R273). -/
def decodeTableWord (nbits w : Nat) : Option Instr :=
  match decodeBytes (leBytes 12 (w % 2 ^ nbits)) with
  | .ok (i, _) => some i
  | .error _ => none

/-- A bit's value. -/
def bitVal (b : Bool) : Nat := if b then 1 else 0

/-- The x bit, the [10:4] field and the literal words of a vb operand. -/
def VOp.enc : VOp → Nat × List Nat
  | .reg r => (r.val * 2 ^ 4, [])
  | .lit w => (1, [w.toNat])

/-- The x bit, the [12:7] field and the literal words of an sb operand. -/
def SOp.enc : SOp → Nat × List Nat
  | .reg r => (r.val * 2 ^ 7, [])
  | .lit w => (1, [w.toNat])

/-- A lane word from its major, the fields at [24:18] and [17:11] and the rest (R276). -/
def laneWord (m d a rest : Nat) : Nat := m * 2 ^ 25 + d * 2 ^ 18 + a * 2 ^ 11 + rest

/-- VRR and VPC words. -/
def encVrr (m t : Nat) (d a : VReg) (b : VOp) : List Nat := (laneWord m d.val a.val (b.enc.1 + t * 2)) :: b.enc.2

/-- VRF words. -/
def encVrf (m : Nat) (d a : VReg) (fn : Nat) : List Nat := [laneWord m d.val a.val fn]

/-- VM words. -/
def encVm (m : Nat) (d : VReg) (n : BReg) (o : VReg) (sz mm : Nat) : List Nat :=
  [m * 2 ^ 25 + d.val * 2 ^ 18 + n.val * 2 ^ 14 + o.val * 2 ^ 7 + sz * 2 ^ 4 + mm]

/-- VB words. -/
def encVb (m : Nat) (neg : Bool) (p : PReg) (off : BitVec 17) : List Nat :=
  [m * 2 ^ 25 + p.val * 2 ^ 18 + bitVal neg * 2 ^ 17 + off.toNat]

/-- A uniform word from its major and the fields at [24:19], [18:13] and [12:0] (R277). -/
def uniWord (m d a rest : Nat) : Nat := 2 ^ 31 + m * 2 ^ 25 + d * 2 ^ 19 + a * 2 ^ 13 + rest

/-- SRR words. -/
def encSrr (m fn : Nat) (d a : SReg) (b : SOp) : List Nat := (uniWord m d.val a.val (b.enc.1 + fn * 2)) :: b.enc.2

/-- The words of a well-formed instruction, each below 2^32; no word for a row that is a step of the device. -/
def encode : Instr → List Nat
  | .iadd t d a b => encVrr 1 t.code d a b
  | .isub t d a b => encVrr 2 t.code d a b
  | .imul t d a b => encVrr 3 t.code d a b
  | .imulh t d a b => encVrr 4 t.code d a b
  | .imad t d a b => encVrr 5 t.code d a b
  | .imin t d a b => encVrr 6 t.code d a b
  | .imax t d a b => encVrr 7 t.code d a b
  | .and t d a b => encVrr 8 t.code d a b
  | .or t d a b => encVrr 9 t.code d a b
  | .xor t d a b => encVrr 10 t.code d a b
  | .andn t d a b => encVrr 11 t.code d a b
  | .shl t d a b => encVrr 12 t.code d a b
  | .shr t d a b => encVrr 13 t.code d a b
  | .sar t d a b => encVrr 14 t.code d a b
  | .rot t d a b => encVrr 15 t.code d a b
  | .bfx t d a b => encVrr 20 t.code d a b
  | .bfi t d a b => encVrr 21 t.code d a b
  | .fadd t d a b => encVrr 23 t.code d a b
  | .fsub t d a b => encVrr 24 t.code d a b
  | .fmul t d a b => encVrr 25 t.code d a b
  | .ffma t d a b => encVrr 26 t.code d a b
  | .fmin t d a b => encVrr 27 t.code d a b
  | .fmax t d a b => encVrr 28 t.code d a b
  | .lea d n o => encVm 0x10 d n o 0 0
  | .sel p d a b => encVrr 0x11 p.val d a b
  | .mov t d b => encVrr 0x12 t.code d 0 b
  | .popc w d a => encVrf 0x13 d a (bitVal w * 4)
  | .clz w d a => encVrf 0x13 d a (bitVal w * 4 + 1)
  | .brev w d a => encVrf 0x13 d a (bitVal w * 4 + 2)
  | .icmp c d a b => encVrr 0x16 c.code d a b
  | .fcmp c pr d a b => [laneWord 0x1D d.val a.val (b.val * 2 ^ 4 + c.code * 2 + bitVal pr)]
  | .frnd t r d a => encVrf 0x1E d a (r.code * 2 ^ 7 + t.code * 2 ^ 4)
  | .fclass t d a => encVrf 0x1E d a (t.code * 2 ^ 4 + 1)
  | .frcp t d a => encVrf 0x1E d a (t.code * 2 ^ 4 + 2)
  | .frsq t d a => encVrf 0x1E d a (t.code * 2 ^ 4 + 3)
  | .fsqrt t d a => encVrf 0x1E d a (t.code * 2 ^ 4 + 4)
  | .fexp2 t d a => encVrf 0x1E d a (t.code * 2 ^ 4 + 5)
  | .flog2 t d a => encVrf 0x1E d a (t.code * 2 ^ 4 + 6)
  | .fsinp t d a => encVrf 0x1E d a (t.code * 2 ^ 4 + 7)
  | .fcosp t d a => encVrf 0x1E d a (t.code * 2 ^ 4 + 8)
  | .fneg t d a => encVrf 0x1E d a (t.code * 2 ^ 4 + 9)
  | .fabs t d a => encVrf 0x1E d a (t.code * 2 ^ 4 + 10)
  | .cvt (.plain t s r) d a => encVrf 0x1F d a (r.code * 2 ^ 8 + s.code * 2 ^ 4 + t.code)
  | .cvt (.toSlot f s) d a => encVrf 0x1F d a (f.val * 2 ^ 8 + s.code * 2 ^ 4 + 8)
  | .cvt (.fromSlot t f) d a => encVrf 0x1F d a (f.val * 2 ^ 8 + 8 * 2 ^ 4 + t.code)
  | .qblk f d a => encVrf 0x20 d a f.val
  | .cbdec f d a => encVrf 0x21 d a (f.val * 2)
  | .cbenc f d a => encVrf 0x21 d a (f.val * 2 + 1)
  | .pack e d a => encVrf 0x22 d a (e.code * 2)
  | .unpk e d a => encVrf 0x22 d a (e.code * 2 + 1)
  | .shfl m d a b => encVrr 0x23 m.code d a b
  | .movu pr d n => encVrf 0x24 d 0 (bitVal pr * 2 ^ 6 + n.val)
  | .pand ng d a b => encVrf 0x25 d a (b.val * 2 ^ 4 + bitVal ng)
  | .por ng d a b => encVrf 0x25 d a (b.val * 2 ^ 4 + 2 + bitVal ng)
  | .pxor ng d a b => encVrf 0x25 d a (b.val * 2 ^ 4 + 4 + bitVal ng)
  | .pnot d a => encVrf 0x25 d a 6
  | .pmov d a => encVrf 0x25 d a 8
  | .gsel ng a => encVrf 0x26 0 a (bitVal ng)
  | .gselNone => encVrf 0x26 0 0 2
  | .bra ng p off => encVb 0x27 ng p off
  | .call ng p off => encVb 0x28 ng p off
  | .nop => encVrf 0x29 0 0 0
  | .brx a => encVrf 0x29 0 a 1
  | .ret => encVrf 0x29 0 0 2
  | .exit => encVrf 0x29 0 0 3
  | .rng d a => encVrf 0x2A d a 0
  | .ld z h d n o => encVm 0x2B d n o z.code h.val
  | .st z h d n o => encVm 0x2C d n o z.code h.val
  | .ldq pr q sc d n o => encVm 0x2D d n o (2 + bitVal pr) (sc.code * 2 + bitVal q)
  | .stq pr q sc d n o => encVm 0x2E d n o (2 + bitVal pr) (sc.code * 2 + bitVal q)
  | .lds z d n o => encVm 0x2F d n o z.code 0
  | .sts z d n o => encVm 0x30 d n o z.code 0
  | .ldc z d n o => encVm 0x31 d n o z.code 0
  | .stc z d n o => encVm 0x32 d n o z.code 0
  | .prf l n o => encVm 0x33 0 n o 0 (bitVal l)
  | .atom op pr sc d n o => encVm 0x34 d n o sc.code (bitVal pr * 8 + op.code)
  | .acas pr sc d n o => encVm 0x35 d n o sc.code (bitVal pr * 8)
  | .afadd t sc d n o => encVm 0x36 d n o sc.code t.code
  | .xacc t v n o => encVm 0x37 v n o 0 t.code
  | .xrd pr clr d n o => encVm 0x38 d n o 0 (bitVal clr * 2 + bitVal pr)
  | .sadd nw d a b => encSrr 1 (bitVal nw) d a b
  | .ssub nw d a b => encSrr 2 (bitVal nw) d a b
  | .smul nw d a b => encSrr 3 (bitVal nw) d a b
  | .sand nw d a b => encSrr 4 (bitVal nw) d a b
  | .sor nw d a b => encSrr 5 (bitVal nw) d a b
  | .sxor nw d a b => encSrr 6 (bitVal nw) d a b
  | .sshl nw d a b => encSrr 7 (bitVal nw) d a b
  | .sshr nw d a b => encSrr 8 (bitVal nw) d a b
  | .ssar nw d a b => encSrr 9 (bitVal nw) d a b
  | .scmp c d a b => encSrr 0x0A c.code d a b
  | .ssel c d a b => encSrr 0x0B c.val d a b
  | .smov d a => [uniWord 0x0C d.val a.val 0]
  | .smovLit d w => [uniWord 0x0C d.val 0 1, w.toNat]
  | .smovSx d w => [uniWord 0x0C d.val 0 3, w.toNat]
  | .smovD d lo hi => [uniWord 0x0C d.val 0 5, lo.toNat, hi.toNat]
  | .saddi d a imm => [uniWord 0x0D d.val a.val imm.toNat]
  | .slea d a c off => [uniWord 0x0E d.val a.val (off.toNat * 8 + c.val)]
  | .voteAny d p => [uniWord 0x0F d.val 0 p.val]
  | .voteAll d p => [uniWord 0x0F d.val 0 (2 ^ 7 + p.val)]
  | .voteBallot d p => [uniWord 0x0F d.val 0 (2 * 2 ^ 7 + p.val)]
  | .rdln d v lane => [uniWord 0x10 d.val 0 (lane.val * 2 ^ 7 + v.val)]
  | .rdlnReg d v a => [uniWord 0x10 d.val a.val (2 ^ 12 + v.val)]
  | .bru c a off => [2 ^ 31 + 0x11 * 2 ^ 25 + c.code * 2 ^ 22 + a.val * 2 ^ 16 + off.toNat]
  | .brec d a => [uniWord 0x12 d.val a.val 0]
  | .barArrive => [uniWord 0x13 0 0 0]
  | .barWait => [uniWord 0x13 0 0 1]
  | .barSync => [uniWord 0x13 0 0 2]
  | .cbar id a => [uniWord 0x14 0 a.val id.val]
  | .waitv n sc cc pr d a => [uniWord 0x15 d.val a.val (bitVal pr * 2 ^ 9 + cc.code * 2 ^ 7 + sc.code * 2 ^ 4 + n.val)]
  | .fenceAcq e sc => [uniWord 0x16 0 0 (bitVal e * 2 ^ 5 + sc.code)]
  | .fenceRel e sc => [uniWord 0x16 0 0 (bitVal e * 2 ^ 5 + 8 + sc.code)]
  | .fenceFull e sc => [uniWord 0x16 0 0 (bitVal e * 2 ^ 5 + 16 + sc.code)]
  | .cpy t a => [uniWord 0x17 t.val a.val 0]
  | .cpym t a => [uniWord 0x18 t.val a.val 0]
  | .twaitAll a => [uniWord 0x19 0 a.val 0]
  | .twaitAny a => [uniWord 0x19 0 a.val 1]
  | .tfirst d a => [uniWord 0x1A d.val a.val 0]
  | .tclr a => [uniWord 0x1B 0 a.val 0]
  | .chwaitAll t w d a => [uniWord 0x1C d.val a.val (w.val * 2 ^ 6 + t.val)]
  | .chwaitAny t w d a => [uniWord 0x1C d.val a.val (2 ^ 10 + w.val * 2 ^ 6 + t.val)]
  | .schadv k => [uniWord 0x1F 0 0 k.toNat]
  | .coll t a => [uniWord 0x20 t.val a.val 0]
  | .collw g => [uniWord 0x21 0 0 g.val]
  | .mma sh d a b fa fb =>
    [2 ^ 31 + 0x22 * 2 ^ 25 + d.val * 2 ^ 21 + a.val * 2 ^ 15 + b.val * 2 ^ 9 + fa.val * 2 ^ 6 + fb.val * 2 ^ 3 + sh.code]
  | .mml t a => [uniWord 0x23 t.val a.val 0]
  | .mmck t a => [uniWord 0x24 t.val a.val 0]
  | .mzero d => [uniWord 0x25 d.val 0 0]
  | .mlda sh t d a => [uniWord 0x26 d.val a.val (t.code * 2 + sh.code)]
  | .msta sh f d a => [uniWord 0x27 d.val a.val (f.val * 2 + sh.code)]
  | .mscl sh d a => [uniWord 0x28 d.val a.val sh.code]
  | .mwait t a => [uniWord 0x29 0 a.val t.val]
  | .rgne a => [uniWord 0x2A 0 a.val 0]
  | .rgnl => [uniWord 0x2B 0 0 0]
  | .gcall g => [uniWord 0x2C 0 0 g.val]
  | .gret => [uniWord 0x2D 0 0 0]
  | .lchild d a => [uniWord 0x2E d.val a.val 0]
  | .ljoin => [uniWord 0x2F 0 0 0]
  | .perfq d a => [uniWord 0x30 d.val a.val 0]
  | .thrm e => [uniWord 0x31 0 0 (bitVal e)]
  | .trap imm => [uniWord 0x32 0 0 imm.val]
  | .rte => [uniWord 0x33 0 0 0]
  | .srd n hi d => [uniWord 0x34 d.val 0 (bitVal hi * 2 ^ 9 + n.val)]
  | .swr n a => [uniWord 0x35 0 a.val n.val]
  | .ipf l n a => [uniWord 0x36 0 a.val (n.val * 2 + bitVal l)]
  | .ipin l n a => [uniWord 0x37 0 a.val (n.val * 2 + bitVal l)]
  | .iunp l n a => [uniWord 0x38 0 a.val (n.val * 2 + bitVal l)]
  | .yield => [uniWord 0x39 0 0 0]
  | .sleep a => [uniWord 0x3A 0 a.val 0]
  | .bkpt => [uniWord 0x3B 0 0 0]
  | .halt => [uniWord 0x3C 0 0 0]
  | .powerOn => []
  | .packageReset => []
  | .brownOut => []
  | .inputUndervoltage => []
  | .inputOvervoltageWarning => []
  | .overVoltageShutdown => []
  | .thermalTrip => []
  | .prochotAssert => []
  | .throttleCause _ _ => []
  | .throttleStepDown _ => []
  | .throttleRelease _ => []
  | .backstopCeiling _ => []
  | .relockEnd _ => []
  | .boostExhausted _ => []
  | .boostWindow => []
  | .kettleWatchdogExpiry => []
  | .kettleBoot => []
  | .confirm => []
  | .confirmTimeout => []
  | .layoutSubmit => []
  | .layoutLate => []
  | .layoutFlip => []
  | .layoutCommit => []
  | .layoutQuery => []
  | .plan => []
  | .fwStage => []
  | .serviceReturn => []
  | .partitionStop => []
  | .partitionStopDone => []
  | .partitionStart => []
  | .testMode => []
  | .provisionGenerate => []
  | .provisionInstall => []
  | .badCmd => []
  | .rowRepair _ _ _ => []
  | .rowRepairDone _ => []
  | .unitFence _ => []
  | .alarm _ => []
  | .alarmPolicyWrite _ => []
  | .devHealthClear _ => []
  | .ppsPulse => []
  | .ptpMessage _ _ => []
  | .registerWrite _ _ _ _ _ => []
  | .pkgPwrLimitWrite _ => []
  | .leaseMaxWrite _ => []
  | .fabIdWrite _ _ => []
  | .mirrorBrokenClear _ _ => []
  | .mirrorAckTimeout _ => []
  | .fabricRead _ _ => []
  | .fabricWrite _ _ => []
  | .fabricAtomic _ _ => []
  | .marker _ _ _ => []
  | .response _ => []
  | .lease _ _ _ _ _ => []
  | .leaseGrant _ _ _ _ _ _ _ _ => []
  | .leaseExpiry _ _ _ _ => []
  | .exportChange _ _ => []
  | .exportChangeTimeout _ => []
  | .recall _ _ => []
  | .recallAck _ _ _ => []
  | .linkRetry _ => []
  | .linkRetryLimit _ => []
  | .linkDown _ => []
  | .fabricRequestTimeout _ => []
  | .planeFail _ => []
  | .deadReport _ _ _ => []
  | .stop _ _ => []
  | .stopped _ => []
  | .quiesceFence _ => []
  | .fenced _ => []
  | .map _ _ => []
  | .retried _ => []
  | .resume _ => []
  | .masterTimeout => []
  | .chipStepTimeout _ => []
  | .fabWindow => []
  | .hostApertureWrite _ _ _ => []
  | .hostApertureRead _ _ _ => []
  | .hostWindowTimeout _ _ => []
  | .vdEnable _ _ => []
  | .vdDisable _ _ => []
  | .queueEnable _ _ _ => []
  | .queuePause _ _ _ => []
  | .queuePauseDrained _ => []
  | .queueReset _ _ _ => []
  | .queueResetDone _ => []
  | .queueTailWrite _ _ _ => []
  | .recordFetch _ => []
  | .nodeStart _ _ => []
  | .nodeComplete _ _ => []
  | .waitPoll _ _ => []
  | .condRangeIdle _ _ => []
  | .hostpostAppend _ _ => []
  | .ringTimer _ _ => []
  | .ringEnable _ _ _ => []
  | .ringConsWrite _ _ _ => []
  | .msixUnmask _ _ => []
  | .launchComplete _ => []
  | .teamPlacement _ => []
  | .claimComplete _ _ => []
  | .spillCopyDone _ _ => []
  | .readmission _ _ => []
  | .slabLend _ _ => []
  | .lendReclaim _ _ => []
  | .sliceBoundary _ => []
  | .yieldRequest _ => []
  | .sliceEnd _ => []
  | .drainDeadline _ => []
  | .shadowExchange _ => []
  | .switchComplete _ => []
  | .thermalMigration _ _ => []
  | .migrationComplete _ => []
  | .forwardingExpiry _ => []
  | .tlbInv _ _ => []
  | .tlbInvDone _ => []
  | .fqEnable _ _ => []
  | .fqResolve _ _ => []
  | .sqEnable _ _ => []
  | .waveReenter _ _ => []
  | .waveResume _ _ => []
  | .waveKill _ _ => []
  | .asyncCauseDelivery _ _ => []
  | .launchReplay _ => []
  | .gateTimeout _ _ => []
  | .gateAbortTimeout _ _ => []
  | .waitvWake _ _ => []
  | .sleepWake _ _ => []
  | .childGridRetire _ => []
  | .scheduleEntryIssue _ => []
  | .copyChunkWritten _ => []
  | .copyJobComplete _ => []
  | .matrixStep _ => []
  | .matrixJobComplete _ => []
  | .collRoundComplete _ _ _ => []
  | .collwRelease _ _ => []
  | .spdmRequest _ _ => []
  | .congestionNotificationPacket _ _ => []
  | .rateRecovery _ _ => []
  | .rocePacket _ _ _ => []
  | .ethernetPortDown _ => []
  | .queuePairError _ _ => []
  | .ppsAbsent => []
  | .illegalOp => []
  | .fetchFault => []

/-- The row has an instruction word. -/
def Instr.hasWord (i : Instr) : Bool := !(encode i).isEmpty

/-- The length in bytes of the instruction with its literal words. -/
def Instr.size (i : Instr) : Nat := 4 * (encode i).length

/-- The bytes of an instruction as they lie in memory (R273). -/
def encodeBytes (i : Instr) : List Byte := (encode i).flatMap (leBytes 4)

end Sys2Proof
end

