-- ==== Sys2Proof/Machine/State.lean ====
section
/-!
DEFINITION. The state of the machine: the package, its 384 cores and all that stands around them, as plain data, and the state
right after reset. A table (`Tbl`) is a list of key and value pairs in rising key order; a key that it does not list stands
for a default that the reader of the table names. Memories and register files are sparse: a value equal to the default is not
listed, so equal contents are equal lists.
-/

namespace Sys2Proof.Machine

/-- A table: keys in rising order. -/
abbrev Tbl (α : Type) := List (Nat × α)

/-! ## Package, clocks, pools -/

/-- The supply of the package (R24, R25, R27). -/
inductive Power where
  | off | on | shutDown
  deriving DecidableEq, Repr

/-- The recorded cause of a shutdown (R24, R25). -/
inductive TripCause where
  | none | brownOut | overVoltage | thermal
  deriving DecidableEq, Repr

/-- Supervisory state of the package (R22, R24 to R27, R44). -/
structure Pkg where
  power : Power
  inputOk : Bool
  coresHeld : Bool
  halted : Bool
  thermTripN : Bool
  alertN : Bool
  trip : TripCause
  prochot : Bool
  underVolt : Bool
  overTemp : Bool
  overPower : Bool
  deriving DecidableEq, Repr

/-- TIME_STATUS and the discipline of the reference timer (R17, R80): its rate correction, and the millionths of a tick that corrected
time has not made up. -/
structure TimeSt where
  ppsPresent : Bool
  reftSync : Bool
  lastPps : Option Nat
  ratePpm : Int
  frac : Nat
  deriving DecidableEq, Repr

/-- One hob (R13, R14, R20 to R23, R169, R170). `ceil` counts grants; `clkn` counts 1/65,536 of a nominal cycle; `phase` is the
part of a core cycle gone by, in tenths. `releaseAt` is the tick at which Kettle releases its next step (R22). -/
structure Hob where
  pool : Nat
  ceil : Nat
  step : Nat
  opStep : Nat
  relockEnd : Option Nat
  throttle : Option Nat
  throttled : Bool
  again : Bool
  clk : Nat
  clkn : Nat
  phase : Nat
  charge : Nat
  exhausted : Bool
  lastLower : Option Nat
  lastRelease : Option Nat
  releaseAt : Option Nat
  fenced : Bool
  deriving DecidableEq, Repr

/-- Who holds a request for an operating class (R19, R102, R375). -/
inductive ReqOwner where
  | grid (g : Nat)
  | team (t : Nat)
  deriving DecidableEq, Repr

/-- One pool (R18, R19); `waits` says that a resolution waits for the end of a relock. -/
structure Pool where
  cls : Nat
  reqs : List (ReqOwner × Nat)
  waits : Bool
  deriving DecidableEq, Repr

/-! ## Kettle, device registers -/

/-- The state of an image slot (R35). -/
inductive SlotSt where
  | empty | active | inactive | trial | testing | failed
  deriving DecidableEq, Repr

/-- An image slot (R35). -/
structure ImgSlot where
  st : SlotSt
  image : List Byte
  deriving DecidableEq, Repr

/-- The layout journal (R31). -/
inductive Journal where
  | idle | writing | prepared | committed
  deriving DecidableEq, Repr

/-- A row repair (R37). -/
structure Repair where
  stack : Nat
  bank : Nat
  row : Nat
  copying : Bool
  permanent : Bool
  deriving DecidableEq, Repr

/-- A corrected ECC error that Kettle counts (R37): stack, bank, row, tick. -/
structure RowErr where
  stack : Nat
  bank : Nat
  row : Nat
  at_ : Nat
  deriving DecidableEq, Repr

/-- A pseudo-channel that is fenced out (R38): the stack's spare one has taken over its range, with the drawing that says which of its
lines could not be read, or it has not. -/
structure PcFence where
  stack : Nat
  pc : Nat
  draw : Option Nat
  deriving DecidableEq, Repr

/-- Kettle (R28 to R46, R399). `arms` is the armed generation and tick of the affected units, `missed` the units that did not
flip, `fenced` those that were fenced out for it and stay out of service (R32, R399), `stopping` the mask of a PARTITION_STOP under way, `lastRepair` the tick of each stack's last repair, `healed` the
lines of spared pseudo-channels that were written since, `chain` the certificate chain of the identity key in the package flash (R41,
R46), `rowErrs` the corrected errors of the last 24 h, `repairDue` the rows whose repair waits for its stack's 10 ms (R37). -/
structure Kettle where
  running : Bool
  journal : Journal
  jGen : Nat
  jTick : Nat
  jMask : Nat
  shadow : List Byte
  arms : Option (Nat × Nat)
  missed : List FlipUnit
  fenced : List FlipUnit
  activeGen : Nat
  layout : List Byte
  lastOutcome : Nat
  lastMask : Nat
  slotA : ImgSlot
  slotB : ImgSlot
  current : Option Bool
  confirmAt : Option Nat
  fused : Nat
  staging : List Byte
  identity : Option Nat
  newIdentity : Option Nat
  hvKey : Option Nat
  repairs : List Repair
  lastRepair : Tbl Nat
  stopping : Nat
  fencedPc : List PcFence
  healed : List Nat
  chain : Option (List Byte)
  rowErrs : List RowErr
  repairDue : List (Nat × Nat × Nat)
  deriving DecidableEq, Repr

/-- The management mailbox (R83). -/
structure Mailbox where
  cmd : Word
  status : Nat
  buf : List Host.Cell
  deriving DecidableEq, Repr

/-- The registers of the device management window that are held as such (R39, R43, R49, R53, R70, R79, R80); the map holds the
plane of each bucket. -/
structure Dev where
  health : Word
  alarmPolicy : Word
  pwrLimit : Word
  layoutGo : Word
  leaseMax : Word
  ethTcG : Word
  ethTcH : Word
  apertureBase : DWord
  fabId : Word
  fabMap : List Nat
  fabMapGen : Word
  live : BitVec 8
  fencedPlanes : BitVec 8
  qstate : Nat
  masterAct : Bool
  domainDown : Bool
  testMode : Bool
  deriving DecidableEq, Repr

/-- What an event-log record says (R24, R32, R38, R44, R68, R73, R79, R108, R129). -/
inductive LogKind where
  | inputLow | inputHigh | alarm (s : AlarmSrc) | fence (u : FenceUnit) | flipFault (u : FlipUnit) | chipUnreachable (c : Nat) | mirror (p : Nat)
  | hostAbort | frames (vf : Nat) | overrun (part vf ticks : Nat) (late : List Nat)
  deriving DecidableEq, Repr

/-- What the members of a collective group exchange over the fabric (R337, R339, R340): bytes of a rank's contribution to a round, with their
place in it; an arrival in a COLLW. -/
inductive CollMsg where
  | data (group round rank off : Nat)
  | arrive (group : Nat)
  deriving DecidableEq, Repr

/-- What the device sends out of the package: packets of the fabric and of the Ethernet ports, interrupts, completions of host
reads, SPDM answers. A fabric packet names its destination (a CONTROL packet of the master goes to every chip), its plane, and, but for
CONTROL packets, its partition and class (R51, R62). -/
inductive Out where
  | read (chip : Nat) (plane : Nat) (id : Nat) (page : Option Nat) (gen part : Nat) (cls : Cls) (pa len : Nat)
  | write (chip : Nat) (plane : Nat) (seq : Nat) (page : Option Nat) (gen part : Nat) (cls : Cls) (pa : Nat) (data : List Byte)
  | atomic (chip : Nat) (plane : Nat) (seq : Nat) (page : Option Nat) (gen part : Nat) (cls : Cls) (pa : Nat) (op : RmwOp)
  | marker (chip plane id part : Nat) (cls : Cls)
  | response (chip plane part : Nat) (cls : Cls) (r : FabResp)
  | lease (chip plane part : Nat) (cls : Cls) (page : Nat) (right : Right) (id : Nat)
  | leaseGrant (chip plane part : Nat) (cls : Cls) (page pa : Nat) (rights : Rights) (gen expiry : Nat)
  | recall (chip plane part : Nat) (cls : Cls) (page gen : Nat)
  | recallAck (chip plane part : Nat) (cls : Cls) (page gen : Nat)
  | deadReport (via plane gen : Nat)
  | stop (via : Nat) (planes : BitVec 8) (moved : List Nat) (gen : Nat)
  | stopped (via gen : Nat)
  | fence (via gen : Nat)
  | fenced (via : Nat)
  | map (via gen : Nat) (planes : List Nat)
  | retried (via : Nat)
  | resume (via gen : Nat)
  | unreachable (via chip : Nat)
  | roceWrite (port qp rkey va : Nat) (data : List Byte) (imm : Option Nat) (tc : Nat)
  | roceRead (port qp rkey va len job tc : Nat)
  | roceSend (port qp : Nat) (data : List Byte) (last : Bool) (tc : Nat)
  | roceData (port qp id : Nat) (data : List Byte) (tc : Nat)
  | roceAck (port qp bytes : Nat)
  | collWrite (chip plane seq part : Nat) (cls : Cls) (msg : CollMsg) (data : List Byte)
  | collEth (port chip part group round rank off : Nat) (data : List Byte) (tc : Nat)
  | collArrive (port chip part : Nat) (cls : Cls) (group : Nat)
  | irq (fn : HostFn) (vec : Nat)
  | hostData (fn : HostFn) (data : List Byte)
  | hostAbort (fn : HostFn)
  | spdm (viaI3c : Bool) (index value : Nat) (sig : Option Nat)
  | spdmVersion (viaI3c : Bool) (versions : List Nat)
  | spdmChain (viaI3c : Bool) (chain : List Byte)
  | spdmChallenge (viaI3c : Bool) (value : Nat) (sig : Option Nat)
  | ptp (via time : Nat)
  | planMap (planes : List Nat)
  | mboxKey (pubKey sig : Nat)
  deriving DecidableEq, Repr

/-! ## Partitions, virtual devices, queues -/

/-- A record ring in HBM: the fault queue and the system queue (R198, R228). -/
structure RecQueue where
  base : DWord
  ctl : Word
  tail : Word
  head : Word
  lost : Word
  deriving DecidableEq, Repr

/-- What a cluster does with the outgoing teams (R125). -/
inductive Choice where
  | drain | save | discard | overrun
  deriving DecidableEq, Repr

/-- The slice of a partition (R107, R108, R124 to R129): the virtual device that holds it, its start and end, whether yield
requests stand, and a switch under way with each cluster's choice, the clusters that have exchanged and those of them that were late. -/
structure Slice where
  cur : Option Nat
  start : Nat
  stop : Nat
  yielding : Bool
  switching : Bool
  next : Option Nat
  choices : List (Nat × Choice)
  exchanged : List Nat
  late : List Nat
  deriving DecidableEq, Repr

/-- A cluster barrier (R369). -/
structure Cbar where
  n : Nat
  arrived : Nat
  phase : Nat
  deriving DecidableEq, Repr

/-- One partition and its registers (R34, R399 and the rules that define them). `waysOld` holds the way
masks of the L2 slices that missed the last flip (R32); `cbars` is keyed by virtual device, cluster and
number; `rounds` counts the rounds of each group, `freeRounds` are those (group, round) that a cancelled COLL left (R339), and `collw`
counts the arrivals of each group's members. -/
structure Part where
  present : Bool
  stopped : Bool
  hbmBase : DWord
  hbmSize : DWord
  power : DWord
  mirror : Word
  fabAllow : List Word
  sched : DWord
  schedNow : DWord
  share : DWord
  ctx : DWord
  sieve : List DWord
  l2ways : DWord
  waysOld : Tbl DWord
  asidTable : DWord
  domTable : DWord
  gateTable : DWord
  cbTable : DWord
  collTable : DWord
  tlbInv : Option DWord
  fq : RecQueue
  sq : RecQueue
  waveBusy : Bool
  key : Option Nat
  slice : Slice
  ptrG : Nat
  ptrH : Nat
  cbars : Tbl Cbar
  rounds : Tbl Nat
  freeRounds : List (Nat × Nat)
  collw : Tbl Nat
  deriving DecidableEq, Repr

/-- An MSI-X table and its pending bits (R78, R96): words of the table, vectors pending. -/
structure Msix where
  tab : Tbl Word
  pend : List Nat
  deriving DecidableEq, Repr

/-- One virtual device (R79, R84, R107, R110, R129). -/
structure Vd where
  cfg : DWord
  slice : DWord
  sliceNow : DWord
  apVa : DWord
  apAsid : Word
  weights : Tbl Nat
  charge : Nat
  framesLogged : Bool
  msix : Msix
  deriving DecidableEq, Repr

/-- One hardware queue (R85, R86, R111). -/
structure Queue where
  owner : DWord
  base : DWord
  ctl : Word
  tail : Word
  head : Word
  status : Word
  deficit : Nat
  deriving DecidableEq, Repr

/-- The state of a node slot (R90). -/
inductive NodeSt where
  | free | pending | ready | running | done
  deriving DecidableEq, Repr

/-- What a RUNNING node is doing (R92, R93, R98): nothing noted, a grid, a job, records posted by a HOSTPOST, a WAIT that reads
again, a COND that waits for its range, a node whose work has ended and that is to complete, a node that failed. -/
inductive NodeRun where
  | none | grid (g : Nat) | job (j : Nat) | posted (n : Nat) | waiting | condWait | ended | failed
  deriving DecidableEq, Repr

/-- A node slot (R89, R90); `order` is the place in the order in which nodes became READY, `runs` the runs of a launch (R247), `hq`
the queue whose record it holds, `fence` the place among the requests to other chips at which a release of the node began (R91, R92), `stamp` the
stamps of the completions that decremented it and of the launch that it ran (R213). -/
structure Slot where
  st : NodeSt
  ctr : Nat
  node : List Byte
  run : NodeRun
  order : Nat
  runs : Nat
  hq : Nat
  fence : Option Nat
  stamp : Nat × Nat
  deriving DecidableEq, Repr

/-- A host ring (R94 to R96) with the records that no interrupt has told of, and the tick of the first of them. -/
structure Ring where
  base : DWord
  paddr : DWord
  ctl : Word
  cons : Word
  prod : Word
  pend : Nat
  t0 : Nat
  deriving DecidableEq, Repr

/-! ## Grids, teams, waves -/

/-- A launch record (R100). -/
structure LaunchRec where
  entry : Nat
  gx : Nat
  gy : Nat
  gz : Nat
  tagCount : Nat
  tagBase : Nat
  acc : Nat
  slabs : Nat
  waves : Nat
  carve : Nat
  bytes : Nat
  cscope : Nat
  restartable : Bool
  replay : Bool
  prot : Bool
  opclass : Nat
  cls : Cls
  args : DWord
  sched : Nat
  cword : Nat
  cvalue : DWord
  fslots : List DWord
  schedN : Nat
  snap : Nat
  snapPages : Nat
  deriving DecidableEq, Repr

/-- A grid: a launch of a queue, or a child (R100 to R105, R146, R150, R245, R247). `next` is the next team index never placed,
`returned` the indices of discarded teams, `times` the run times of the last 16 retired teams, `snaps` the pages copied (their
PA, the PA of the copy), `fence` the place among the requests to other chips at which the release of its completion began (R103), `stamp` what its waves acquire as they start and `did` the stamps of the releases of its teams and child grids (R213), `event` the core, the issue count, the wave slot, sr.epc and sr.cause of the event that killed it (R228). -/
structure Grid where
  hq : Nat
  slot : Nat
  parent : Option Nat
  root : Nat
  depth : Nat
  lrec : LaunchRec
  vf : Nat
  part : Nat
  domain : Nat
  asid : Nat
  sched : List (List Byte)
  next : Nat
  returned : List Nat
  retired : Nat
  times : List Nat
  children : Nat
  snaps : List (Nat × Nat × Bool)
  unreplayable : Bool
  killed : Bool
  event : Nat × Nat × Nat × DWord × Word
  childFail : Bool
  fence : Option Nat
  stamp : Nat × Nat
  did : Nat × Nat
  deriving DecidableEq, Repr

/-- The state of a copy tag (R185). -/
inductive TagSt where
  | clear | busy | set
  deriving DecidableEq, Repr

/-- Where a team is (R125, R127, R131). -/
inductive Where where
  | resident | saved | moving (target : Nat)
  deriving DecidableEq, Repr

/-- An entry of the PC table (R152): team, program counter, age. -/
structure PcEntry where
  team : Nat
  pc : Nat
  age : Nat
  deriving DecidableEq, Repr

/-- A team (R113, R115, R146, R178, R188, R345, R368, R373, R375, R376). `ready` is false while the claim of its dispatch is
under way; `tags` and `chunks` are the copy tags of its window and their chunk maps (R185, R186); `tileSave` holds its tiles while they are
not in the live array, `pcSave` the entries of the PC tables that went with it (side, place, entry; R166). Of a saved team, `tilesAway` says
that its tiles lie in the eviction area of its frame (R112), `gone` names the physical tiles whose contents lie there (R118, R119), `inShadow` that the shadow array has read its slabs and tiles from the frame
(R127). `joinStamp` gathers the stamps of the child grids that have retired (R213). -/
structure Team where
  grid : Nat
  index : Nat
  core : Nat
  slot : Nat
  start : Nat
  hwm : Nat
  tiles : List Nat
  loc : Where
  ready : Bool
  since : Nat
  clk0 : Nat
  runTime : Nat
  stage : Nat
  schedPos : Nat
  stageBy : List (Nat × Nat)
  phase : Nat
  children : List Nat
  perf : Option Nat
  armed : Bool
  tags : Tbl TagSt
  chunks : Tbl Nat
  yieldBy : Option Nat
  tileSave : Option (Tbl Word)
  tilesAway : Bool
  gone : List Nat
  inShadow : Bool
  pcSave : List (Nat × Nat × PcEntry)
  joinStamp : Nat × Nat
  deriving DecidableEq, Repr

/-- A thread: program counter, guard (predicate, inverted), whether it exited, and what a trap saved (R149, R160, R223). -/
structure Thread where
  pc : Nat
  guard : Option (PReg × Bool)
  exited : Bool
  tpc : Nat
  tguard : Option (PReg × Bool)
  deriving DecidableEq, Repr

/-- An open region (R230), with the gate depth at which it was opened (R240). -/
structure Region where
  depth : Nat
  pc : Nat
  mask : BitVec 128
  guards : List (Option (PReg × Bool))
  threads : List Bool
  deriving DecidableEq, Repr

/-- The call state of a gate call with the caller's hidden registers (R234 to R238). `budget` and
`abort_` are those of the caller's own call, which run on (R239); `frame` is the address of its frame in the gate stack, in ASID `fasid`, and
`owned` the slabs whose hidden registers the callee owns, and whether their copies went to the frame (R236). -/
structure Gate where
  g : Nat
  pc : Nat
  domain : Nat
  asid : Nat
  b0 : RecBits
  b1 : RecBits
  guards : List (Option (PReg × Bool))
  budget : Option (Nat × Nat)
  abort_ : Option (Nat × Nat)
  frame : Nat
  fasid : Nat
  owned : List (Nat × Bool)
  vwin : Nat
  s : Tbl DWord
  p : Tbl Bool
  b : Tbl RecBits
  v : Tbl Word
  deriving DecidableEq, Repr

/-- What the instruction at which a wave stands waits for, where the wave's own turn finds out. -/
inductive Wait where
  /-- Nothing in particular: the instruction is tried again (a full side log, R196). -/
  | retry
  /-- Room in the fault queue: the whole wave waits as for a page (R195, R197, R198). -/
  | faultQueue
  /-- TWAIT (R335). -/
  | tags (all : Bool) (mask : Nat)
  /-- CHWAIT (R335). -/
  | chunks (all : Bool) (tag word mask : Nat)
  /-- A busy tag (R185). -/
  | busyTag (tag : Nat)
  /-- MWAIT (R354). -/
  | consumed (tag n : Nat)
  /-- RGNL, and FENCE with E: jobs of the wave, those issued since its RGNE or all (R217, R230). -/
  | jobs (region : Bool)
  /-- A release (R212). -/
  | release
  /-- LCHILD at the limit of child grids (R373). -/
  | children
  /-- BAR.arrive while an arrival of the wave stands (R368). -/
  | barrier
  /-- A busy tile (R345). -/
  | tile (t : Nat)
  /-- A slab or tile that still holds another wave's contents (R118). -/
  | spill
  /-- An earlier access to a page waits in the side log (R196). -/
  | logged (asid page : Nat)
  /-- The trap that the instruction takes waits for accesses of other groups of the wave that have issued (R223). -/
  | trap
  /-- The instruction is held in another wave of its group, and performs nothing in any (R175, R196). -/
  | beside (wid pc : Nat)
  deriving DecidableEq, Repr

/-- Why a wave is parked (R123, R225). -/
inductive Park where
  /-- Not parked. -/
  | no
  /-- WAITV: the word it watches (`wordKey`). -/
  | waitv (key : Nat)
  /-- SLEEP until a tick. -/
  | sleep (till : Nat)
  /-- A barrier wait for a phase of the team. -/
  | bar
  /-- A cluster barrier. -/
  | cbar
  /-- LJOIN. -/
  | ljoin
  /-- COLLW. -/
  | collw
  /-- A wait that the wave's own turn finds out about. -/
  | poll (w : Wait)
  /-- Stopped at YIELD. -/
  | yielded
  deriving DecidableEq, Repr

/-- A page that an access waits for (R195, R199): ASID, page number, the lowest lane that touches it, that lane's address, the KIND and the
count of its record (R197), whether it is reached through the peer window, and whether it was resolved with FAIL. -/
structure PageWait where
  asid : Nat
  page : Nat
  lane : Nat
  va : Nat
  kind : Nat
  id : Nat
  peer : Bool
  failed : Bool
  deriving DecidableEq, Repr

/-- A line of another chip that has come for an access: chip, line, bytes; `keep` is false once the core or the die must not keep it as a
copy: a write to it was made, an acquire dropped its copies, or a later value of it came (R177, R184, R204). `bad` says that the data is marked
poisoned (R246). -/
structure Got where
  chip : Nat
  line : Nat
  bytes : List Byte
  keep : Bool
  bad : Bool
  deriving DecidableEq, Repr

/-- An access that waits (R57, R195, R401): the address of its instruction, the wait of its whole instruction, the pages, leases (chip, export page) and
requests it waits for, the lanes that have asked for host memory; what has come back: lines of other chips, old values per lane; the
export pages that are not present or denied; and the bytes that scratchpads of other cores have answered, per lane. A request is a READ's
number, or the chip and sequence number of an ATOMIC. `again` says that the access has begun, so that its release is over; `id` is the issue count that its acceptance took (R197), `lvl` the gate depth, doubled, with one in the handler, at which it was accepted.
`hold` is what the instruction waits for before it begins, `fence` the chips to which its release has sent markers, with the place among the
requests at which it did (R56). -/
structure Pend where
  pc : Nat
  lvl : Nat
  id : Nat
  hold : Option Wait
  fence : List (Nat × Nat)
  again : Bool
  pages : List PageWait
  leases : List (Nat × Nat × Right)
  reqs : List (Option Nat × Nat)
  host : List Nat
  lines : List Got
  olds : List (Nat × DWord)
  absent : List (Nat × Nat)
  denied : List (Nat × Nat)
  scr : List (Nat × List Byte)
  deriving DecidableEq, Repr

/-- A cause that is taken at the wave's next boundary (R221): its code, the address for sr.faddr, the deepest gate depth at which
it is taken (R241), for the cause of a copy-schedule entry the number of the SCHADV that made the entry issuable (R188), and the issue count
of the instruction or job that raised it (R228). -/
structure Deferred where
  code : Nat
  addr : Option Nat
  depth : Nat
  adv : Option Nat
  id : Option Nat
  deriving DecidableEq, Repr

/-- An arrival of a wave at a cluster barrier whose phase is not complete (R225, R369): the barrier, its phase, the address of the CBAR and the level at which
it executed (gate depth, doubled, with one in the handler). -/
structure CbarMark where
  key : Nat
  phase : Nat
  pc : Nat
  lvl : Nat
  deriving DecidableEq, Repr

/-- A wave (R146, R167, R213, R221, R223, R230, R235). `v` is keyed by lane × 128 + register, `p` likewise; `hown` lists the slabs
that still hold the contents of another wave (R118), `away` those whose own contents lie in the eviction area of the frame (R118, R119), `evicted` the order of its eviction, `lent` says that what it holds is lent (R121),
`parkClk` is the core cycle since which it is parked at rest, `budget` the core cycles left of a
gate call and `abortAt` those until it aborts, each with the core cycle from which they count; `async` lists the asynchronous causes,
GATE_TIMEOUT with the depth of its call, `checks` the issue counts of the jobs and accesses whose MACHINE_CHECK is among them (R228); `barPc` is the BAR.sync that made the standing arrival, `cbarAt` lists the standing arrivals at cluster barriers,
`collwAt` is the group of a COLLW, its round and the COLLW, `tcollw` what this was as the handler was
entered (R225); `pend` the access of the instruction that it issued last, `pends` those of other
threads that wait at other addresses (R153, R161); `fstamp` the stamp of its last FENCE release or full at device scope or wider (R207,
R213); `ready` is the address of an instruction of the uniform pipe for which it has been ready, and the core cycles (R157); `refill` lists the
slabs that a gate call copied and that wait for their copy back: slab, highest passed register, ASID and address of the copy (R238). -/
structure Wave where
  team : Nat
  w : Nat
  slot : Nat
  slabs : List Nat
  hown : List Nat
  away : List Nat
  s : Tbl DWord
  b : Tbl RecBits
  v : Tbl Word
  p : Tbl Bool
  threads : List Thread
  cause : Word
  epc : DWord
  faddr : DWord
  rngkey : DWord
  fmode : Word
  tb15 : RecBits
  epc0 : DWord
  domain : Nat
  asid : Nat
  seen : Nat × Nat
  rstamp : Nat × Nat
  region : Option Region
  gates : List Gate
  budget : Option (Nat × Nat)
  abortAt : Option (Nat × Nat)
  park : Park
  frozen : Bool
  halted : Bool
  evicted : Option Nat
  lent : Bool
  parkClk : Option Nat
  async : List (Nat × Nat)
  checks : List Nat
  deferred : List Deferred
  pend : Pend
  pends : List Pend
  fstamp : Option (Nat × Nat)
  arrived : Option Nat
  barPc : Option Nat
  cbarAt : List CbarMark
  collwAt : Option (Nat × Nat × Nat)
  tcollw : Option (Nat × Nat × Nat)
  issueId : Nat
  ready : Nat × Nat
  refill : List (Nat × Nat × Nat × Nat)
  deriving DecidableEq, Repr

/-! ## Cores -/

/-- A line held in a cache: where it comes from (chip, none for this one; PA of the line), its bytes and its stamp (R177, R184,
R213). -/
structure Line where
  chip : Option Nat
  pa : Nat
  bytes : List Byte
  stamp : Nat × Nat
  part : Nat
  deriving DecidableEq, Repr

/-- A line of the instruction cache, with the grids that pin it (R189, R190). -/
structure ILine where
  asid : Nat
  part : Nat
  line : Nat
  pa : Nat
  bytes : List Byte
  pins : List Nat
  deriving DecidableEq, Repr

/-- A lane of a side-log entry (R196): a store of bytes, with the stamp of a release (R213) and its cache hint (R176), or an addition to an exact
cell. -/
inductive LogOp where
  | store (va : Nat) (bytes : List Byte) (stamp : Option (Nat × Nat)) (hint : Nat)
  | xacc (va : Nat) (t : CellType) (x : DWord)
  deriving DecidableEq, Repr

/-- A side-log entry (R196): wave, ASID, page, peer window, the lane and the address reported, the gate depth, the issue count, whether
its page has been resolved, the lease it waits for, and the lanes. `rel` marks a release store whose release is under way while its wave
runs on (R212), with the chips to which it has sent markers: it faulted on no page, and takes none of the 64 entries. -/
structure SideEntry where
  wid : Nat
  asid : Nat
  page : Nat
  peer : Bool
  lane : Nat
  va : Nat
  depth : Nat
  id : Nat
  resolved : Bool
  lease : Option (Nat × Nat)
  rel : Option Scope
  fence : List (Nat × Nat)
  ops : List LogOp
  deriving DecidableEq, Repr

/-- A translation in a TLB (R191): partition, ASID, 64 KiB page, and its leaf with the physical address of the page. -/
structure TlbEntry where
  part : Nat
  asid : Nat
  page : Nat
  pa : Nat
  x : Bool
  at_ : Bool
  wr : Bool
  mirror : Bool
  peer : Option (Nat × Nat)
  deriving DecidableEq, Repr

/-- A line that is allocated in the L2 of a die (R176, R181 to R184): its way, the chip it comes from (none for this one), its number, whether it
is the first to evict, whether it is modified. The contents of a home line are those of its home; those of a copy stand in `peerWays`. -/
structure L2Tag where
  die : Nat
  way : Nat
  chip : Option Nat
  line : Nat
  first : Bool
  dirty : Bool
  deriving DecidableEq, Repr

/-- The issue logic of a side (R152, R155, R157): 64 entries, the pairs of team and program counter that wait for an entry
(longest first), the team served last, the counters of the H floors of both pipes, and the core cycles up to which each pipe has counted
them and the ages. -/
structure Side where
  table : List (Option PcEntry)
  waiting : List (Nat × Nat)
  lastTeam : Nat
  hWait : Nat
  uWait : Nat
  clk : Nat
  uClk : Nat
  deriving DecidableEq, Repr

/-- A forwarding entry (R132): core offsets from `lo` up to but not `hi`, the target core, the last tick. -/
structure Forward where
  lo : Nat
  hi : Nat
  target : Nat
  till : Nat
  deriving DecidableEq, Repr

/-- A copy queued at Ladle (R118, R119, R236, R238): out of a slab of a wave (by its index) or a physical tile that still holds another wave's
contents, out of a slab into the frame of the gate call at a depth, and back from it; back from the eviction area into a slab and into a tile. -/
inductive Spill where
  | slab (wid : Nat) (k : Nat)
  | tile (team : Nat) (t : Nat)
  | gate (wid : Nat) (k d : Nat)
  | back (wid : Nat) (k : Nat)
  | home (wid : Nat) (k : Nat)
  | tileHome (team : Nat) (t : Nat)
  deriving DecidableEq, Repr

/-- The answer to a request for a lease (R57). -/
inductive LeaseAnswer where
  | granted | denied | absent
  deriving DecidableEq, Repr

/-- A packet that waits for the relock of the hob it is addressed to (R15): bytes written to the scratchpad by a wave or a job; a load and a read-modify-write of a lane of another core, with the request's number; the answer to one; a job whose
reads wait; a RESPONSE of the fabric; a packet of a RoCE queue pair; to the engine of a job, that its writes are acknowledged, and a refusal
with its code and address; the end of a phase of a cluster barrier, of a round of a COLLW and of a team's child grids; what becomes of a lease,
for rights of an export page; the end of a READ or an ATOMIC without a result; a cause that a wave takes at its next boundary, and MACHINE_CHECK of
one of its accesses; that nothing comes any more of some READs and from some chips; the dispatch of a team; that a page is resolved (R199). -/
inductive Packet where
  | store (off : Nat) (bytes : List Byte) (wid job : Option Nat)
  | load (wid lane id off n : Nat)
  | rmw (wid lane id off : Nat) (op : RmwOp)
  | answer (wid lane id : Nat) (bytes : List Byte)
  | go (job : Nat)
  | response (r : FabResp)
  | roce (port : Fin 2) (qp : Fin 16384) (pk : RocePkt)
  | written (job : Nat)
  | cause (job code : Nat) (addr : Option Nat)
  | cbar (key phase wid : Nat)
  | collw (part group n wid : Nat)
  | ljoin (wid : Nat) (stamp : Nat × Nat)
  | lease (part chip page : Nat) (rights : List Right) (why : LeaseAnswer)
  | unask (wid : Nat) (q : Option Nat × Nat) (chip page : Nat) (why : LeaseAnswer)
  | refuse (wid : Nat) (d : Deferred)
  | check (wid id : Nat)
  | cut (wid : Nat) (ids chips : List Nat)
  | start (team : Nat)
  | resolve (part asid page : Nat) (fail : Bool)
  deriving DecidableEq, Repr

/-- A choice of things of one kind: those taken, and among them those claimed, with their holder. -/
abbrev Pick := List Nat × List (Nat × Nat)

/-- How a team fits a core (R115): its scratchpad offset, its tiles, and for each side its slabs and places. -/
structure Fit where
  start : Nat
  tiles : Pick
  slabs : List Pick
  places : List Pick
  deriving DecidableEq, Repr

/-- What a wave that has retired leaves on its side, until its place or one of its slabs holds another wave: its v registers, keyed as in `Wave`,
and its sr.fmode (R149, R398). -/
structure Left where
  slot : Nat
  slabs : List Nat
  v : Tbl Word
  fmode : Word
  deriving DecidableEq, Repr

/-- A core (R115, R118, R132, R177 to R197, R345, R358). `scratch` is keyed by core offset, `scrBad` lists its 128-byte lines that hold poisoned
data (R246), `tiles` by tile × 1,024 + element;
`tileH` lists the tiles that still hold an evicted team's contents; `spills` the copies queued on each side; `inbound` the packets that
wait for the end of the hob's relock in arrival order, of which the first 64 are in the core's inbound FIFO and the others are held
at their sources (R15). `outstanding` lists the chips of the outstanding set with the place of the core's last request to each and
whether one of them was no mirror duplicate (R56, R73); `preload` is the virtual device whose context the shadow array holds (R127): that
context stands in the records of its teams and waves; `incoming` lists the teams that are moving to the core, with what they will hold
there (R131); `left` what retired waves have left, `tagsLeft` the states in which retired teams have left copy tags, until another team has them (R185). -/
structure Core where
  carve : Nat
  scratch : List Host.Cell
  scrBad : List Nat
  tiles : Tbl Word
  tileH : List Nat
  l1 : List Line
  tlb : List TlbEntry
  icache : List ILine
  sideLog : List SideEntry
  issued : BitVec 55
  outstanding : Tbl (Nat × Bool)
  inject : DWord
  side0 : Side
  side1 : Side
  forwards : List Forward
  fenced : Bool
  spills : List (Nat × Spill)
  inbound : List Packet
  preload : Option Nat
  incoming : List (Nat × Fit)
  left : List Left
  tagsLeft : Tbl TagSt
  deriving DecidableEq, Repr

/-- A claim (R117): core, side, the team that claims, its tick, and the waves and the teams (by their tiles) that it evicts, and the
tiles that it takes, once a move on the core (R133) or a relock of its hob (R135) is over; whether it has begun. -/
structure Claim where
  core : Nat
  side : Nat
  team : Nat
  at_ : Nat
  waves : List Nat
  teams : List Nat
  tiles : List Nat
  begun : Bool
  deriving DecidableEq, Repr

/-! ## Jobs -/

/-- What a job waits for (R195, R57, R332): a page, named by an address on it; a lease; the data of READs; the Ethernet side; a core whose
hob relocks (R15). -/
inductive JobWait where
  | no | page (asid va : Nat) | lease (chip page : Nat) (right : Right) (va : Nat) | peer (ids : List Nat) | roce | fifo
  deriving DecidableEq, Repr

/-- An engine job, of a team or of a node (R185, R186, R214, R215, R331 to R339, R350 to R355). `pos` counts the bytes sent of a
copy job and the steps applied of a matrix job, `acked` the bytes written, `read` the steps read, `order` its place in team job
order, `chk` the check tile that the checksum unit has formed, `lines` the lines of other chips that came back (chip, line,
bytes), `absent` the export pages that are not present, `inData` the data of an RDMA READ that has come and is not written. A job without a card is a copy-schedule entry whose card is being read
(R188). -/
structure Job where
  team : Option Nat
  wid : Option Nat
  node : Option (Nat × Nat)
  sched : Bool
  card : List Byte
  tag : Nat
  core : Nat
  cls : Cls
  part : Nat
  asid : Nat
  grid : Option Nat
  order : Nat
  issueId : Nat
  pos : Nat
  read : Nat
  wait : JobWait
  paused : Bool
  inRegion : Bool
  round : Nat
  acked : Nat
  chk : List Word
  lines : List (Nat × Nat × List Byte)
  absent : List (Nat × Nat)
  inData : List Byte
  deriving DecidableEq, Repr

/-! ## Fabric and Ethernet -/

/-- The access that a request to another chip stems from: its ASID and virtual address, and what a record of it names: lane, issue count; and
the gate depth of the instruction (R197, R241). -/
structure Origin where
  asid : Nat
  va : Nat
  lane : Nat
  id : Nat
  depth : Nat
  deriving DecidableEq, Repr

/-- A WRITE or ATOMIC that the target has not acknowledged (R55, R56, R72); `ord` is its place among the requests of the chip. It is held at the source, or waits for a new lease once it is rejected; `again` says that it
was rejected before, `faulted` that the export page was found not present and the fault is recorded (R57, R60), `passed` that its die has written
bytes of an ATOMIC again since (R184). One without a page is a mirror
duplicate (R72), or a message of a collective (`coll`). -/
structure Unacked where
  chip : Nat
  seq : Nat
  plane : Nat
  bucket : Nat
  page : Option Nat
  gen : Nat
  part : Nat
  cls : Cls
  pa : Nat
  data : List Byte
  coll : Option CollMsg
  op : Option RmwOp
  core : Nat
  wid : Option (Nat × Nat)
  job : Option Nat
  held : Bool
  rejected : Bool
  again : Bool
  faulted : Bool
  passed : Bool
  at_ : Origin
  since : Nat
  ord : Nat
  deriving DecidableEq, Repr

/-- The request is a mirror duplicate (R72). -/
def Unacked.mirror (u : Unacked) : Bool := u.page.isNone && u.coll.isNone

/-- A READ that waits for its data (R51, R55); its number `id` is its place among the requests of the chip.
A request is held at the source, or waits for a new lease once it is rejected; `va` is the address of the access, `keep` says that its line may be kept
as a copy (R204), `pre` that it is a prefetch, for which nothing waits (R325). -/
structure ReadReq where
  id : Nat
  chip : Nat
  plane : Nat
  bucket : Nat
  page : Nat
  gen : Nat
  part : Nat
  cls : Cls
  pa : Nat
  len : Nat
  wid : Option (Nat × Nat)
  job : Option Nat
  va : Nat
  held : Bool
  rejected : Bool
  keep : Bool
  pre : Bool
  since : Nat
  deriving DecidableEq, Repr

/-- A prefetch of a line of another chip that waits for a lease (R57, R325): the wave and lane, the level, the chip, page and place in it, the
address. -/
structure PrfReq where
  wid : Nat
  lane : Nat
  l1 : Bool
  chip : Nat
  page : Nat
  off : Nat
  va : Nat
  deriving DecidableEq, Repr

/-- The window a target keeps of one source (R55). -/
structure SrcWin where
  recent : List Nat
  results : List (Nat × DWord)
  deriving DecidableEq, Repr

/-- An entry of a peer translation cache (R57), with the class of the access whose lease it is (R62). -/
structure PtcEntry where
  die : Nat
  part : Nat
  cls : Cls
  chip : Nat
  page : Nat
  pa : Nat
  rights : Rights
  gen : Nat
  expiry : Nat
  deriving DecidableEq, Repr

/-- A lease requested and not answered (R57). -/
structure LeaseReq where
  id : Nat
  die : Nat
  part : Nat
  cls : Cls
  chip : Nat
  page : Nat
  right : Right
  plane : Nat
  since : Nat
  deriving DecidableEq, Repr

/-- An entry of the export table with its holders (chip, expiry, partition and class of the LEASE) and a change under way with the acknowledgements that are
missing (R57, R59). -/
structure Export where
  entry : ExportEntry
  holders : List (Nat × Nat × Nat × Cls)
  change : Option ExportEntry
  missing : List (Nat × Nat)
  deriving DecidableEq, Repr

/-- A MARKER that a fence, or a quiesce (core 384), waits for (R56, R65): number, chip, plane, partition, class, core, wave, tick. -/
structure MarkerReq where
  id : Nat
  chip : Nat
  plane : Nat
  part : Nat
  cls : Cls
  core : Nat
  wid : Nat
  since : Nat
  deriving DecidableEq, Repr

/-- The fabric interface (R49 to R73). Of a quiesce: the planes that are down, the buckets whose requests are held, the markers and
re-sent requests whose acknowledgements it waits for. Of the master's run: its step, the planes it moves, the chips that have
answered the step and when it began, the map and generation it started from, the new map, whether it was planned (R69); and the chips
marked unreachable; `takeover` says that the standby began the run (R68). `runSrc` is the chip whose STOP is being followed, `fencing` says
that its FENCE has come. `retry` are the ticks of link
retry events with their plane, `flits` the flits sent per port, partition and class, and of CONTROL packets, in this window, `mirrorWait` the
mirror duplicates (partition, chip, number, tick) that releases wait for, `recalled` the last RECALL of a page that was followed (chip, page,
generation; R59), `prefetches` the lines that a prefetch waits for a lease to fetch (R57, R325). -/
structure Fabric where
  seqOut : Tbl Nat
  unacked : List Unacked
  reads : List ReadReq
  windows : Tbl SrcWin
  ptc : List PtcEntry
  leases : List LeaseReq
  exports_ : Tbl Export
  markers : List MarkerReq
  downPlanes : BitVec 8
  heldBuckets : List Nat
  waitAcks : List Nat
  phase : Nat
  runPlanes : BitVec 8
  answers : List Nat
  stepAt : Nat
  baseMap : List Nat
  baseGen : Nat
  newMap : List Nat
  plan : Bool
  takeover : Bool
  unreachable : List Nat
  runSrc : Nat
  fencing : Bool
  retry : List (Nat × Nat)
  flits : Tbl Nat
  mirrorWait : List (Nat × Nat × Nat × Nat)
  recalled : List (Nat × Nat × Nat)
  prefetches : List PrfReq
  deriving DecidableEq, Repr

/-- A queue pair (R74, R75, R332, R334): its send rate is `num` / 2 ^ `shift` sixteenths of line rate; error; the receive buffers that are
posted (address, bytes), the bytes of the first that are filled, and the messages and immediates delivered. -/
structure Qp where
  num : Nat
  shift : Nat
  err : Bool
  recv : List (Nat × Nat)
  filled : Nat
  delivered : List (Option Nat)
  deriving DecidableEq, Repr

/-- The Ethernet ports (R74 to R76); `paused` are the traffic classes (port, class) that priority flow control has stopped (R75), `answers` the
answers to READ requests that wait for that: port, queue pair, request, address, length. -/
structure Eth where
  down : List Nat
  qps : Tbl Qp
  paused : List (Nat × Nat)
  answers : List (Nat × Nat × Nat × Nat × Nat)
  deriving DecidableEq, Repr

/-! ## The whole -/

/-- The issue group (R154): the core, and its members as wave and physical lane in ascending wave number; for a uniform
instruction, every non-exited thread of one wave. `pc` is the address of the instruction. -/
structure Group where
  core : Nat
  side : Nat
  pc : Nat
  mem : List (Nat × Nat)
  deriving DecidableEq, Repr

/-- Which pipe issues next. -/
structure Cursor where
  core : Nat
  side : Nat
  uniform : Bool
  deriving DecidableEq, Repr

/-- A range of HBM whose key changed: addresses from `lo` up to but not `hi` (R40). -/
structure Stale where
  lo : Nat
  hi : Nat
  draw : Nat
  deriving DecidableEq, Repr

/-- The state of the machine. `l2` are the lines allocated in the L2 of the dies, `ctlb` the TLBs of the clusters (R191). `placed` holds the tick of each cluster placer's last commitment (R116), `fresh` counts the free values
that have been drawn (LE 13). -/
structure State where
  pkg : Pkg
  reft : Nat
  time : TimeSt
  hobs : Tbl Hob
  pools : Tbl Pool
  kettle : Kettle
  mbox : Mailbox
  dev : Dev
  log : List (Nat × LogKind)
  outbox : List Out
  clusterOwner : Tbl Nat
  parts : Tbl Part
  vds : Tbl Vd
  pfMsix : Msix
  queues : Tbl Queue
  rings : Tbl Ring
  slots : Tbl Slot
  grids : Tbl Grid
  teams : Tbl Team
  waves : Tbl Wave
  cores : Tbl Core
  claims : List Claim
  placed : Tbl Nat
  mem : List Host.Cell
  stale : List Stale
  poison : List Nat
  stamps : Tbl (Nat × Nat)
  sliceStamps : Tbl (Nat × Nat)
  sent : Nat × Nat
  applied : Nat × Nat
  peerWays : List (Nat × Line)
  l2 : List L2Tag
  ctlb : Tbl (List TlbEntry)
  l2pins : List (Nat × Nat)
  hostMem : List Host.Cell
  jobs : Tbl Job
  fab : Fabric
  eth : Eth
  nextId : Nat
  agenda : List (Nat × Instr)
  cursor : Cursor
  cur : Option Group
  fresh : Nat
  deriving DecidableEq, Repr

/-- Why the machine stops. -/
inductive Fault where
  /-- Raised by the meaning of an instruction word when no wave issues it: the word was not fetched by a step. Safe: a step of
  the machine never does this. -/
  | noWave
  deriving DecidableEq, Repr

/-- Why a row has no meaning. -/
inductive Refusal where
  /-- Raised by an arm of `exec` for a row whose meaning is not written. Safe: nothing is claimed about the row. -/
  | notModelled (mnemonic : String)
  deriving DecidableEq, Repr

/-! ## Reset -/

/-- A hob after power-on (R23, R27). -/
def Hob.reset : Hob where
  pool := 0
  ceil := 8
  step := 12
  opStep := 12
  relockEnd := none
  throttle := none
  throttled := false
  again := false
  clk := 0
  clkn := 0
  phase := 0
  charge := 0
  exhausted := false
  lastLower := none
  lastRelease := none
  releaseAt := none
  fenced := false

/-- A pool after power-on (R27, R34). -/
def Pool.reset : Pool := ⟨2, [], false⟩

/-- A record queue after reset (R198, R228; base, head and tail DESIGN CHOICE 0, LE 4). -/
def RecQueue.reset : RecQueue := ⟨0, 0, 0, 0, 0⟩

def Slice.reset : Slice := ⟨none, 0, 0, false, false, none, [], [], []⟩

/-- A partition that the active layout does not define (R34, R109, R399). -/
def Part.reset : Part where
  present := false
  stopped := true
  hbmBase := 0
  hbmSize := 0
  power := 0
  mirror := 0
  fabAllow := List.replicate 8 0
  sched := 0x80320014
  schedNow := 0x80320014
  share := 0
  ctx := 0
  sieve := List.replicate 8 0
  l2ways := 0
  waysOld := []
  asidTable := 0
  domTable := 0
  gateTable := 0
  cbTable := 0
  collTable := 0
  tlbInv := none
  fq := .reset
  sq := .reset
  waveBusy := false
  key := none
  slice := .reset
  ptrG := 0
  ptrH := 0
  cbars := []
  rounds := []
  freeRounds := []
  collw := []

/-- MSI-X after reset: every vector masked (PRESUMED, LE 5). -/
def Msix.reset : Msix := ⟨[], []⟩

def Vd.reset : Vd where
  cfg := 0
  slice := 0
  sliceNow := 0
  apVa := 0
  apAsid := 0
  weights := []
  charge := 0
  framesLogged := false
  msix := .reset

def Queue.reset : Queue := ⟨0, 0, 0, 0, 0, 0, 0⟩

def Slot.reset : Slot := ⟨.free, 0, [], .none, 0, 0, 0, none, (0, 0)⟩

def Ring.reset : Ring := ⟨0, 0, 0, 0, 0, 0, 0⟩

/-- The issue logic after reset: slot 0 counts as the team served last (DESIGN CHOICE, LE 81). -/
def Side.reset : Side := ⟨List.replicate 64 none, [], 0, 0, 0, 0, 0⟩

/-- A core after reset; the tiles hold +0 (DESIGN CHOICE, LE 4). -/
def Core.reset : Core where
  carve := 0
  scratch := []
  scrBad := []
  tiles := []
  tileH := []
  l1 := []
  tlb := []
  icache := []
  sideLog := []
  issued := 0
  outstanding := []
  inject := 0
  side0 := .reset
  side1 := .reset
  forwards := []
  fenced := false
  spills := []
  inbound := []
  preload := none
  incoming := []
  left := []
  tagsLeft := []

def Pend.none : Pend := ⟨0, 0, 0, Option.none, [], false, [], [], [], [], [], [], [], [], []⟩

/-- Kettle runs the image of slot A and holds an empty certificate chain (DESIGN CHOICE, LE 4); the layout is generation 0 (R34). -/
def Kettle.reset : Kettle where
  running := true
  journal := .idle
  jGen := 0
  jTick := 0
  jMask := 0
  shadow := []
  arms := none
  missed := []
  fenced := []
  activeGen := 0
  layout := []
  lastOutcome := 0
  lastMask := 0
  slotA := ⟨.active, []⟩
  slotB := ⟨.empty, []⟩
  current := some false
  confirmAt := none
  fused := 0
  staging := []
  identity := some 0
  newIdentity := none
  hvKey := some 0
  repairs := []
  lastRepair := []
  stopping := 0
  fencedPc := []
  healed := []
  chain := some []
  rowErrs := []
  repairDue := []

/-- The device registers at their reset values (R39, R43, R49, R53, R70, R79, R80). -/
def Dev.reset : Dev where
  health := 0
  alarmPolicy := 0x55
  pwrLimit := 2300
  layoutGo := 0
  leaseMax := 10
  ethTcG := 5
  ethTcH := 1
  apertureBase := 0
  fabId := 0
  fabMap := (List.range 64).map (· % 8)
  fabMapGen := 0
  live := 0
  fencedPlanes := 0
  qstate := 0
  masterAct := false
  domainDown := false
  testMode := false

def Fabric.reset : Fabric where
  seqOut := []
  unacked := []
  reads := []
  windows := []
  ptc := []
  leases := []
  exports_ := []
  markers := []
  downPlanes := 0
  heldBuckets := []
  waitAcks := []
  phase := 0
  runPlanes := 0
  answers := []
  stepAt := 0
  baseMap := []
  baseGen := 0
  newMap := []
  plan := false
  takeover := false
  unreachable := []
  runSrc := 0
  fencing := false
  retry := []
  flits := []
  mirrorWait := []
  recalled := []
  prefetches := []

/-- The package right after power-on (R27): supplied, RESET_N released. -/
def Pkg.reset : Pkg where
  power := .on
  inputOk := true
  coresHeld := false
  halted := false
  thermTripN := false
  alertN := false
  trip := .none
  prochot := false
  underVolt := false
  overTemp := false
  overPower := false

/-- The machine right after power-on and the release of RESET_N: layout generation 0 defines no partition, no work exists, HBM
and host memory list nothing (LE 3, LE 4, LE 12). -/
def State.reset : State where
  pkg := .reset
  reft := 0
  time := ⟨false, false, none, 0, 0⟩
  hobs := []
  pools := []
  kettle := .reset
  mbox := ⟨0, 0, []⟩
  dev := .reset
  log := []
  outbox := []
  clusterOwner := []
  parts := []
  vds := []
  pfMsix := .reset
  queues := []
  rings := []
  slots := []
  grids := []
  teams := []
  waves := []
  cores := []
  claims := []
  placed := []
  mem := []
  stale := []
  poison := []
  stamps := []
  sliceStamps := []
  sent := (0, 0)
  applied := (0, 0)
  peerWays := []
  l2 := []
  ctlb := []
  l2pins := []
  hostMem := []
  jobs := []
  fab := .reset
  eth := ⟨[], [], [], []⟩
  nextId := 1
  agenda := []
  cursor := ⟨0, 0, false⟩
  cur := none
  fresh := 0

end Sys2Proof.Machine
end

