-- ==== Sys2Proof/Machine/Tables.lean ====
section
/-!
DEFINITION. Access to the state: tables, the numbers of the units, access to each part of the state, the agenda,
what goes out of the package, bytes of HBM and of the scratchpads, bit fields. Every reader and writer of memory goes through
the operations of this file.
-/

namespace Sys2Proof

/-- The width of an AFADD in bytes. -/
def AddType.bytes : AddType → Nat
  | .f64 => 8
  | _ => 4

end Sys2Proof

namespace Sys2Proof.Machine

/-- The width of a read-modify-write in bytes. -/
def rmwBytes : RmwOp → Nat
  | .atom _ pair _ => if pair then 8 else 4
  | .cas pair _ _ => if pair then 8 else 4
  | .fadd t _ => t.bytes

/-! ## Tables -/

/-- The value of a key. -/
def Tbl.find {α : Type} : Tbl α → Nat → Option α
  | [], _ => none
  | (j, x) :: t, k => if j = k then some x else Tbl.find t k

/-- The value of a key, or the default. -/
def Tbl.getD {α : Type} (t : Tbl α) (k : Nat) (d : α) : α := (Tbl.find t k).getD d

/-- Sets a key, in rising order. -/
def Tbl.put {α : Type} : Tbl α → Nat → α → Tbl α
  | [], k, v => [(k, v)]
  | (j, x) :: t, k, v => if j = k then (k, v) :: t else if k < j then (k, v) :: (j, x) :: t else (j, x) :: Tbl.put t k v

/-- Removes a key. -/
def Tbl.del {α : Type} (t : Tbl α) (k : Nat) : Tbl α := t.filter (fun e => e.1 != k)

/-- Sets a key of a sparse table: the default is not listed. -/
def Tbl.putS {α : Type} [DecidableEq α] (d : α) (t : Tbl α) (k : Nat) (v : α) : Tbl α :=
  if v = d then Tbl.del t k else Tbl.put t k v

/-- Changes the value of a key that is listed. -/
def Tbl.upd {α : Type} (t : Tbl α) (k : Nat) (f : α → α) : Tbl α :=
  match Tbl.find t k with
  | none => t
  | some x => Tbl.put t k (f x)

/-- Changes the value of a key, listed or standing for the default. -/
def Tbl.updD {α : Type} (t : Tbl α) (k : Nat) (d : α) (f : α → α) : Tbl α := Tbl.put t k (f (Tbl.getD t k d))

/-! ## Memories -/

/-- The canonical form of a memory: addresses strictly rising, no byte equal to what an unlisted address reads as (LE 3). -/
def Memory.wf : List Host.Cell → Bool
  | [] => true
  | (a, b) :: t => b != 0 && t.all (fun e => a < e.1) && Memory.wf t

/-- The byte at an address; an unlisted address reads as 0 (LE 3). -/
def Memory.get (m : List Host.Cell) (a : Nat) : Byte := Tbl.getD m a 0

/-- Writes the byte at an address. -/
def Memory.put (m : List Host.Cell) (a : Nat) (b : Byte) : List Host.Cell := Tbl.putS 0 m a b

/-- `n` bytes from an address. -/
def Memory.read (m : List Host.Cell) (a : Nat) : Nat → List Byte
  | 0 => []
  | n + 1 => Memory.get m a :: Memory.read m (a + 1) n

/-- Writes bytes from an address on. -/
def Memory.write (m : List Host.Cell) (a : Nat) : List Byte → List Host.Cell
  | [] => m
  | b :: bs => Memory.write (Memory.put m a b) (a + 1) bs

/-- Removes the bytes of a range, which then read as 0. -/
def Memory.clear (m : List Host.Cell) (lo hi : Nat) : List Host.Cell := m.filter (fun e => e.1 < lo || hi ≤ e.1)

/-- The number that little-endian bytes hold (R4). -/
def bytesNat : List Byte → Nat
  | [] => 0
  | b :: bs => b.toNat + 256 * bytesNat bs

/-- `n` little-endian bytes of a number (R4). -/
def natBytes : Nat → Nat → List Byte
  | 0, _ => []
  | n + 1, x => BitVec.ofNat 8 x :: natBytes n (x / 256)

/-- A field of a list of bytes: `n` bytes at an offset, as a number. -/
def fieldAt (bs : List Byte) (off n : Nat) : Nat := bytesNat ((bs.drop off).take n)

/-- Bits [hi:lo] of a number. -/
def bitsOf (x hi lo : Nat) : Nat := x / 2 ^ lo % 2 ^ (hi + 1 - lo)

/-- Bit `i` of a number. -/
def bitOf (x i : Nat) : Bool := x / 2 ^ i % 2 == 1

/-- Bits [hi:lo] of a register. -/
def fieldOf {w : Nat} (x : BitVec w) (hi lo : Nat) : Nat := bitsOf x.toNat hi lo

/-- A register with bits [hi:lo] replaced. -/
def setField {w : Nat} (x : BitVec w) (hi lo v : Nat) : BitVec w :=
  BitVec.ofNat w (x.toNat - bitsOf x.toNat hi lo * 2 ^ lo + v % 2 ^ (hi + 1 - lo) * 2 ^ lo)

/-- A number read as two's complement of `w` bits. -/
def signedOf (w x : Nat) : Int := if x % 2 ^ w < 2 ^ (w - 1) then (x % 2 ^ w : Nat) else ((x % 2 ^ w : Nat) : Int) - 2 ^ w

/-- An integer as the `w` bits of its two's complement. -/
def wrapInt (w : Nat) (x : Int) : Nat := (x % (2 ^ w : Nat)).toNat

/-- 1 for true. -/
def bnat (b : Bool) : Nat := if b then 1 else 0

/-- The least element by a key, the first of equals. -/
def leastBy {α : Type} (key : α → Nat) : List α → Option α
  | [] => none
  | x :: xs =>
    match leastBy key xs with
    | none => some x
    | some y => if key x ≤ key y then some x else some y

/-- Inserts in rising order of a key, after equals. -/
def insertBy {α : Type} (key : α → Nat) (a : α) : List α → List α
  | [] => [a]
  | x :: xs => if key x ≤ key a then x :: insertBy key a xs else a :: x :: xs

/-- Sorts by a key, keeping the order of equals. -/
def sortBy {α : Type} (key : α → Nat) (l : List α) : List α := l.foldl (fun acc a => insertBy key a acc) []

/-- The elements without repeats, first occurrences first. -/
def dedup {α : Type} [DecidableEq α] (l : List α) : List α := l.foldl (fun acc a => if acc.contains a then acc else acc ++ [a]) []

/-! ## Units (R10, R11) -/

def clusterOf (core : Nat) : Nat := core / 48
def dieOf (core : Nat) : Nat := core / 192
def hobOf (core : Nat) : Nat := core / 48 * 8 + core % 48 / 6

/-- The die that homes a physical address (R11). -/
def homeDie (pa : Nat) : Nat := if pa < 0x3000000000 then 0 else 1

/-- The end of HBM (R11). -/
def hbmEnd : Nat := 0x6000000000

/-- What lies at a physical address (R82). -/
inductive PaKind where
  | hbm | regs | host | unused
  deriving DecidableEq, Repr

def paKind (pa : Nat) : PaKind :=
  if pa < hbmEnd then .hbm
  else if 0x400000000000 ≤ pa && pa < 0x400000100000 then .regs
  else if 0x800000000000 ≤ pa && pa < 0x1000000000000 then .host
  else .unused

/-- The name of an 8-byte word that a WAITV watches (R329): of HBM, of a scratchpad, of another chip. -/
def wordKey (pa : Nat) : Nat := pa / 8
def scratchKey (c off : Nat) : Nat := 2 ^ 60 + (c * 2 ^ 19 + off) / 8
def peerKey (chip pa : Nat) : Nat := 2 ^ 61 + chip * 2 ^ 48 + pa / 8

/-! ## Parts of the state -/

/-- The lines of a scratchpad that lie wholly within [lo, hi) are written: they hold no poison any more (R246, LE 32). -/
def Core.healScratch (k : Core) (lo hi : Nat) : Core := { k with scrBad := k.scrBad.filter (fun l => !(lo ≤ l * 128 && l * 128 + 128 ≤ hi)) }

/-- Writes bytes of a scratchpad. -/
def Core.writeScratch (k : Core) (off : Nat) (bs : List Byte) : Core :=
  { k.healScratch off (off + bs.length) with scratch := Memory.write k.scratch off bs }

/-- Clears the bytes [lo, hi) of a scratchpad. -/
def Core.clearScratch (k : Core) (lo hi : Nat) : Core := { k.healScratch lo hi with scratch := Memory.clear k.scratch lo hi }

/-- The poisoned lines of a scratchpad that touch [lo, hi). -/
def Core.badLines (k : Core) (lo hi : Nat) : List Nat := k.scrBad.filter (fun l => l * 128 < hi && lo < l * 128 + 128)

namespace State

def hob (s : State) (h : Nat) : Hob := Tbl.getD s.hobs h .reset
def updHob (s : State) (h : Nat) (f : Hob → Hob) : State := { s with hobs := Tbl.updD s.hobs h .reset f }
def pool (s : State) (p : Nat) : Pool := Tbl.getD s.pools p .reset
def updPool (s : State) (p : Nat) (f : Pool → Pool) : State := { s with pools := Tbl.updD s.pools p .reset f }
def part (s : State) (p : Nat) : Part := Tbl.getD s.parts p .reset
def updPart (s : State) (p : Nat) (f : Part → Part) : State := { s with parts := Tbl.updD s.parts p .reset f }
def vd (s : State) (v : Nat) : Vd := Tbl.getD s.vds v .reset
def updVd (s : State) (v : Nat) (f : Vd → Vd) : State := { s with vds := Tbl.updD s.vds v .reset f }
def queue (s : State) (q : Nat) : Queue := Tbl.getD s.queues q .reset
def updQueue (s : State) (q : Nat) (f : Queue → Queue) : State := { s with queues := Tbl.updD s.queues q .reset f }
def ring (s : State) (vf k : Nat) : Ring := Tbl.getD s.rings (vf * 16 + k) .reset
def updRing (s : State) (vf k : Nat) (f : Ring → Ring) : State := { s with rings := Tbl.updD s.rings (vf * 16 + k) .reset f }
def slot (s : State) (k : Nat) : Slot := Tbl.getD s.slots k .reset
def updSlot (s : State) (k : Nat) (f : Slot → Slot) : State := { s with slots := Tbl.putS .reset s.slots k (f (s.slot k)) }
def core (s : State) (c : Nat) : Core := Tbl.getD s.cores c .reset
def updCore (s : State) (c : Nat) (f : Core → Core) : State := { s with cores := Tbl.updD s.cores c .reset f }
def updGrid (s : State) (g : Nat) (f : Grid → Grid) : State := { s with grids := Tbl.upd s.grids g f }
def updTeam (s : State) (t : Nat) (f : Team → Team) : State := { s with teams := Tbl.upd s.teams t f }
def updWave (s : State) (w : Nat) (f : Wave → Wave) : State := { s with waves := Tbl.upd s.waves w f }
def updJob (s : State) (j : Nat) (f : Job → Job) : State := { s with jobs := Tbl.upd s.jobs j f }

/-- A fresh number of the model: the next free value is drawn for it, or the next grid, team or job is called by it. -/
def drawn (s : State) : State := { s with fresh := s.fresh + 1 }

/-- The agenda with a step that may run from a tick on, after those of the same tick (LE 1). -/
def atTick (s : State) (t : Nat) (i : Instr) : State :=
  { s with agenda := insertBy (fun e => e.1) (t, i) s.agenda }

/-- A step that runs some ticks from now. -/
def after (s : State) (dt : Nat) (i : Instr) : State := s.atTick (s.reft + dt) i

/-- A step that runs at a moment the manual leaves open (R400, LE 1). -/
def soon (s : State) (i : Instr) : State := (s.after (Config.delay s.fresh) i).drawn

/-- Withdraws a step from the agenda. -/
def withdraw (s : State) (i : Instr) : State := { s with agenda := s.agenda.filter (fun e => e.2 != i) }

/-- The agenda holds a step. -/
def due (s : State) (i : Instr) : Bool := s.agenda.any (fun e => e.2 == i)

/-- The next number is none that sr.gridid, of 32 bits, shows of a live grid (R167). -/
def freshId (s : State) : State :=
  match (List.range (s.grids.length + 1)).find? (fun i => !(s.grids.any (fun e => e.1 % 2 ^ 32 == (s.nextId + i) % 2 ^ 32))) with
  | none => s
  | some i => { s with nextId := s.nextId + i }

/-- `soon`, unless the agenda holds the step. -/
def soonOnce (s : State) (i : Instr) : State := if s.due i then s else s.soon i

/-- Something goes out of the package. -/
def emit (s : State) (o : Out) : State := { s with outbox := s.outbox ++ [o] }

/-- An event-log record. -/
def logged (s : State) (k : LogKind) : State := { s with log := s.log ++ [(s.reft, k)] }

/-- ALERT_N is asserted (R26). -/
def alerted (s : State) : State := { s with pkg := { s.pkg with alertN := true } }

def setHealth (s : State) (bit : Nat) : State := { s with dev := { s.dev with health := setField s.dev.health bit bit 1 } }
def clearHealth (s : State) (bit : Nat) : State := { s with dev := { s.dev with health := setField s.dev.health bit bit 0 } }

/-- The chip id of this chip (R49). -/
def chipId (s : State) : Nat := fieldOf s.dev.fabId 9 0

/-- The chip has joined a domain (R49). -/
def fabEnabled (s : State) : Bool := fieldOf s.dev.fabId 31 31 == 1

/-- The partition that owns a cluster (R30). -/
def ownerOf (s : State) (cl : Nat) : Option Nat := Tbl.find s.clusterOwner cl

/-- The clusters of a partition, ascending. -/
def clustersOf (s : State) (p : Nat) : List Nat := (List.range 8).filter (fun c => s.ownerOf c == some p)

/-- The cores of a partition, ascending. -/
def coresOf (s : State) (p : Nat) : List Nat := (s.clustersOf p).flatMap (fun c => (List.range 48).map (c * 48 + ·))

/-! ## Interrupts (R96) -/

/-- The MSI-X state of a function. -/
def msix (s : State) : HostFn → Msix
  | .pf => s.pfMsix
  | .vf k => (s.vd k.val).msix

def setMsix (s : State) (fn : HostFn) (m : Msix) : State :=
  match fn with
  | .pf => { s with pfMsix := m }
  | .vf k => s.updVd k.val (fun v => { v with msix := m })

/-- The vector is masked: bit 0 of the fourth word of its entry, set after reset (PRESUMED, LE 5). -/
def masked (s : State) (fn : HostFn) (vec : Nat) : Bool := fieldOf (Tbl.getD (s.msix fn).tab (4 * vec + 3) 1) 0 0 == 1

/-- An interrupt: delivered, or its pending bit set while the vector is masked (R96). -/
def raiseIrq (s : State) (fn : HostFn) (vec : Nat) : State :=
  if s.masked fn vec then
    let m := s.msix fn
    s.setMsix fn { m with pend := if m.pend.contains vec then m.pend else m.pend ++ [vec] }
  else s.emit (.irq fn vec)

/-! ## HBM -/

/-- The ranges of changed keys without a range. -/
def cutStale (l : List Stale) (lo hi : Nat) : List Stale :=
  l.flatMap (fun r =>
    (if r.lo < min r.hi lo then [{ r with hi := min r.hi lo }] else []) ++ (if max r.lo hi < r.hi then [{ r with lo := max r.lo hi }] else []))

/-- The key of a range changes: what it holds reads as unpredictable values until it is written (R40, LE 9). -/
def rekey (s : State) (lo hi : Nat) : State :=
  if lo < hi then { s with mem := Memory.clear s.mem lo hi, stale := ⟨lo, hi, s.fresh⟩ :: cutStale s.stale lo hi, fresh := s.fresh + 1 } else s

/-- The range of rewritten keys that covers an address (R40). -/
def staleAt (s : State) (pa : Nat) : Option Stale := s.stale.find? (fun r => r.lo ≤ pa && pa < r.hi)

/-- The byte of HBM at a physical address: a free value where the key has changed and nothing was written since (R40, LE 9). -/
def byteAt (s : State) (pa : Nat) : Byte :=
  match s.staleAt pa with
  | some r => Config.rekeyed r.draw pa
  | none => Memory.get s.mem pa

/-- Bytes of HBM. -/
def bytesAt (s : State) (pa : Nat) : Nat → List Byte
  | 0 => []
  | n + 1 => s.byteAt pa :: s.bytesAt (pa + 1) n

/-- A little-endian number in HBM. -/
def natAt (s : State) (pa n : Nat) : Nat := bytesNat (s.bytesAt pa n)

/-- The ranges of changed keys without one address. -/
def unstale (l : List Stale) (pa : Nat) : List Stale :=
  l.flatMap (fun r => if r.lo ≤ pa && pa < r.hi then
    (if r.lo < pa then [{ r with hi := pa }] else []) ++ (if pa + 1 < r.hi then [{ r with lo := pa + 1 }] else []) else [r])

/-- Writes one byte of HBM. -/
def putByte (s : State) (pa : Nat) (b : Byte) : State :=
  { s with mem := Memory.put s.mem pa b, stale := unstale s.stale pa }

/-- Writes bytes of HBM. -/
def putBytes (s : State) (pa : Nat) : List Byte → State
  | [] => s
  | b :: bs => (s.putByte pa b).putBytes (pa + 1) bs

/-! ## Scratchpads -/

/-- Bytes of a scratchpad hold poison (R246). -/
def scratchPoisoned (s : State) (c off n : Nat) : Bool := (s.core c).scrBad.any (fun l => l * 128 < off + n && off < l * 128 + 128)

/-- The cluster-scratch address of a byte of a scratchpad (R179). -/
def scratchVa (c off : Nat) : Nat := c % 48 * 2 ^ 19 + off

/-- A byte of a scratchpad by core and core offset (R178). -/
def scratchByte (s : State) (c off : Nat) : Byte := Memory.get (s.core c).scratch off

/-- Bytes of a scratchpad. -/
def scratchBytes (s : State) (c off n : Nat) : List Byte := Memory.read (s.core c).scratch off n

/-- The teams whose allocation is on a core. -/
def teamsOn (s : State) (c : Nat) : List (Nat × Team) := s.teams.filter (fun e => e.2.core == c && e.2.loc != .saved)

/-- A team, or a job of it, writes the bytes [off, off + n) of its own allocation: the high-water mark rises over them, and the bytes that
it passes become zero (R113). -/
def raiseHwm (s : State) (by_ : Option Nat) (c off n : Nat) : State :=
  match by_.bind (fun t => (Tbl.find s.teams t).map (fun k => (t, k))) with
  | none => s
  | some (t, k) =>
    match Tbl.find s.grids k.grid with
    | none => s
    | some g =>
      let new := (off + n - k.start + 255) / 256 * 256
      if k.core == c && k.loc != .saved && k.start ≤ off && off < k.start + g.lrec.bytes && k.hwm < new then
        (s.updTeam t (fun t => { t with hwm := new })).updCore c (fun x => x.clearScratch (k.start + k.hwm) (k.start + new))
      else s

/-- Writes bytes of a scratchpad, for a team where one is named. -/
def putScratch (s : State) (by_ : Option Nat) (c off : Nat) (bs : List Byte) : State :=
  (s.raiseHwm by_ c off bs.length).updCore c (fun k => k.writeScratch off bs)

/-- A move of a team from or to a core is under way (R133). -/
def moveAt (s : State) (c : Nat) : Bool :=
  s.teams.any (fun e => match e.2.loc with | .moving d => d == c || e.2.core == c | _ => false)

/-- The slot of the core that a wave of a team has, with the core. -/
def placeOf (s : State) (w : Wave) : Nat × Nat := (((Tbl.find s.teams w.team).map (fun t => t.core)).getD 0, w.slot)

/-- The core of a wave. -/
def coreOf (s : State) (wid : Nat) : Nat :=
  match Tbl.find s.waves wid with
  | none => 0
  | some w => (s.placeOf w).1

/-- Every WAITV that watches a word reads it again within 2 µs (R329). -/
def wake (s : State) (key : Nat) : State :=
  s.waves.foldl (fun s e => if e.2.park == .waitv key then
    (s.after (Config.delay s.fresh % 2001) (.waitvWake (s.placeOf e.2).1 e.2.slot)).drawn else s) s

/-- The stack and the pseudo-channel of a line of HBM (R11, R181). -/
def pcOf (l : Nat) : Nat × Nat := (l / 1610612736 * 4 + l / 2 % 4, (l / 8 % 64) ^^^ (l / 512 % 64))

/-- A line lies in a fenced pseudo-channel, so that it reads as poisoned (R38, R181): one that no spare has taken over, or one whose
line could not be read and was not written since. -/
def lineLost (s : State) (l : Nat) : Bool :=
  s.kettle.fencedPc.any (fun f => pcOf l == (f.stack, f.pc) && (match f.draw with
    | none => true
    | some d => Config.unread d l && !s.kettle.healed.contains l))

/-- The whole lines of a range are written: their poison ends (R246), those of a spared pseudo-channel among them (R38). -/
def healLines (s : State) (pa n : Nat) : State :=
  let s := { s with poison := s.poison.filter (fun l => !(pa ≤ l * 128 && l * 128 + 128 ≤ pa + n)) }
  if s.kettle.fencedPc.isEmpty then s
  else
    let ls := (List.range ((pa + n) / 128 - (pa + 127) / 128)).map ((pa + 127) / 128 + ·)
    { s with kettle := { s.kettle with healed := s.kettle.healed ++ ls.filter (fun l =>
        !s.kettle.healed.contains l && s.kettle.fencedPc.any (fun f => pcOf l == (f.stack, f.pc))) } }

/-- A write performed at the home: the bytes, and the waits on its words. A write that sets a whole line ends its poison
(R246); a write beyond HBM has no home. -/
def storeHome (s : State) (pa : Nat) (bs : List Byte) : State :=
  if pa + bs.length ≤ hbmEnd then
    let s := (s.putBytes pa bs).healLines pa bs.length
    (List.range ((pa + bs.length + 7) / 8 - pa / 8)).foldl (fun s i => s.wake (wordKey pa + i)) s
  else s

/-- A write performed in a scratchpad, for a team where one is named. -/
def storeScratch (s : State) (by_ : Option Nat) (c off : Nat) (bs : List Byte) : State :=
  (List.range ((off + bs.length + 7) / 8 - off / 8)).foldl (fun s i => s.wake (scratchKey c off + i)) (s.putScratch by_ c off bs)

/-! ## Clock-crossing FIFOs (R15) -/

/-- The clock generator of a core's hob relocks, so that the FIFOs of the core stall (R14, R15). -/
def asleep (s : State) (c : Nat) : Bool := (s.hob (hobOf c)).relockEnd.isSome

/-- The device runs: supplied, not held in reset, not halted by an alarm (R24, R26, R44). -/
def running (s : State) : Bool :=
  s.pkg.power == .on && !s.pkg.coresHeld && !s.pkg.halted

/-- The core issues: its hob does not relock and it is not fenced (R14, R38). -/
def coreRuns (s : State) (c : Nat) : Bool :=
  s.running && (s.hob (hobOf c)).relockEnd.isNone && !(s.hob (hobOf c)).fenced && !(s.core c).fenced

/-- A row of a core runs again at the end of its hob's relock. -/
def atRelockEnd (s : State) (c : Nat) (i : Instr) : State :=
  if s.due i then s else s.atTick (max s.reft ((s.hob (hobOf c)).relockEnd.getD 0)) i

/-- A packet joins those that wait for a core whose hob relocks. -/
def toFifo (s : State) (c : Nat) (p : Packet) : State := s.updCore c (fun k => { k with inbound := k.inbound ++ [p] })

/-- What comes for a core through the cluster network: while its hob relocks it waits in the core's FIFO. -/
def comes (s : State) (c : Nat) (p : Packet) (f : State → State) : State := if s.asleep c then s.toFifo c p else f s

/-- The team of a wave. -/
def teamOfWave (s : State) (wid : Nat) : Option Nat := (Tbl.find s.waves wid).map (fun w => w.team)

/-- The team of a job. -/
def teamOfJob (s : State) (j : Nat) : Option Nat := (Tbl.find s.jobs j).bind (fun k => k.team)

/-- A store of a wave or a job to a scratchpad: performed, or waiting in the FIFO of a relocking core (R15). -/
def sendScratch (s : State) (wid job : Option Nat) (c off : Nat) (bs : List Byte) : State :=
  if s.asleep c then s.toFifo c (.store off bs wid job)
  else s.storeScratch ((wid.bind s.teamOfWave).or (job.bind s.teamOfJob)) c off bs

/-- A store of a wave waits in the FIFO of a relocking core. -/
def storeQueued (s : State) (wid : Nat) : Bool :=
  s.cores.any (fun e => e.2.inbound.any (fun p => match p with | .store _ _ (some w) _ => w == wid | _ => false))

/-! ## Host memory (R82, R94) -/

def hostBytes (s : State) (a n : Nat) : List Byte := Memory.read s.hostMem a n
/-- The host's memory is one, under whatever requester id an address is translated (R82; LE 12). -/
def putHost (s : State) (a : Nat) (bs : List Byte) : State := { s with hostMem := Memory.write s.hostMem a bs }

end State

end Sys2Proof.Machine
end

