-- ==== Sys2Proof/Machine/Clock.lean ====
section
/-!
DEFINITION. Clocks, pools and throttling (R13 to R23, R169, R170): the time that passes, relocks, the resolution of a pool's
class, the throttled state of a hob and the causes it raises (R376).
-/

namespace Sys2Proof.Machine

/-- The step of an operating class (R18); class 3 falls back to step 12 once the boost allowance is used up. -/
def classStep (cls : Nat) (exhausted : Bool) : Nat :=
  match cls with
  | 0 => 6
  | 1 => 9
  | 2 => 12
  | _ => if exhausted then 12 else 15

/-- The increment of sr.clkn at a step, in 1/65,536 of a nominal cycle: round_ne(1,179,648 / (6 + n)) (R170). -/
def clknInc (n : Nat) : Nat :=
  let d := 6 + n
  let q := 1179648 / d
  let r := 1179648 % d
  if 2 * r < d then q else if d < 2 * r then q + 1 else if q % 2 == 0 then q else q + 1

namespace State

/-- The hobs of a pool (R18); the pool goes on without those that were fenced out (R38). -/
def hobsOf (s : State) (p : Nat) : List Nat := (List.range 64).filter (fun h => (s.hob h).pool == p && !(s.hob h).fenced)

/-- The partition to which a pool is bound: that of the clusters of its hobs (R18). -/
def poolPart (s : State) (p : Nat) : Option Nat := (s.hobsOf p).findSome? (fun h => s.ownerOf (h / 8))

/-- The waves of a team, by rising wave number. -/
def wavesOf (s : State) (t : Nat) : List (Nat × Wave) := s.waves.filter (fun e => e.2.team == t)

/-- A pending asynchronous cause, after those that arose earlier (R222). -/
def pendAsync (s : State) (wid code : Nat) : State := s.updWave wid (fun w => { w with async := w.async ++ [(code, 0)] })

/-- MACHINE_CHECK of a job or of an access in a wave: its record of the system queue, if any, names that (R228, R246). -/
def pendCheck (s : State) (wid id : Nat) : State :=
  s.comes (s.coreOf wid) (.check wid id) (fun s => s.updWave wid (fun w => { w with async := w.async ++ [(0x01, 0)], checks := w.checks ++ [id] }))

/-- A cause of a job that is taken at the wave's next instruction boundary, with the address for sr.faddr (R221). -/
def pendDeferred (s : State) (wid code : Nat) (addr : Option Nat) (id : Nat) : State :=
  s.updWave wid (fun w => { w with deferred := w.deferred ++ [⟨code, addr, 3, none, some id⟩] })

end State

/-- A wave has retired: all its threads have exited (R149). -/
def Wave.retired (w : Wave) : Bool := w.threads.all (fun t => t.exited)

namespace State

/-- The team's elected wave: its lowest-numbered non-retired one (R376). -/
def elected (s : State) (t : Nat) : Option Nat := ((s.wavesOf t).find? (fun e => !e.2.retired)).map (fun e => e.1)

/-- THROTTLE_BEGIN or THROTTLE_END for an armed team: its elected wave holds the cause until it can take it (R376). -/
def throttleCause (s : State) (t : Nat) (begun : Bool) : State :=
  match s.elected t with
  | none => s
  | some w => s.pendAsync w (if begun then 0x70 else 0x71)

/-- THROTTLE_BEGIN or THROTTLE_END for every armed team of a hob, wherever its context stands (R376). -/
def raiseThrottle (s : State) (h : Nat) (begun : Bool) : State :=
  s.teams.foldl (fun s e => if e.2.armed && hobOf e.2.core == h then s.throttleCause e.1 begun else s) s

/-- An armed team that has come to a hob in another throttled state than its last one receives the cause of that state (R376). -/
def throttleMoved (s : State) (t old new : Nat) : State :=
  let now := (s.hob (hobOf new)).throttled
  match Tbl.find s.teams t with
  | none => s
  | some k => if k.armed && (s.hob (hobOf old)).throttled != now then s.throttleCause t now else s

/-- The hob is below its operating point in step or in ceiling (R21, R23). -/
def below (s : State) (h : Nat) : Bool :=
  let k := s.hob h
  k.ceil < 8 || (match k.throttle with | none => false | some t => t < k.opStep)

/-- Brings THROTTLED and the throttle causes in line with the hob's step and ceiling (R21). -/
def noteThrottle (s : State) (h : Nat) : State :=
  let now := s.below h
  if now == (s.hob h).throttled then s
  else (s.updHob h (fun k => { k with throttled := now })).raiseThrottle h now

/-- The step a hob is to run at: the lower of its operating point and the throttle step (R21). -/
def targetStep (s : State) (h : Nat) : Nat :=
  let k := s.hob h
  match k.throttle with
  | none => k.opStep
  | some t => min t k.opStep

/-- A relock to a step: 600 reference ticks during which the hob's cores issue nothing (R14). -/
def relock (s : State) (h step : Nat) : State :=
  (s.updHob h (fun k => { k with step := step, relockEnd := some (s.reft + 600) })).after 600 (.relockEnd (Fin.ofNat 64 h))

/-- Relocks a hob whose step is not the one it is to run at; during a relock this waits for its end (R14, R19). -/
def settle (s : State) (h : Nat) : State :=
  let k := s.hob h
  if s.targetStep h == k.step then s
  else if k.relockEnd.isSome then s.updHob h (fun k => { k with again := true })
  else s.relock h (s.targetStep h)

/-- The boost allowance of a hob's partition in ticks (R20, R80). -/
def allowance (s : State) (h : Nat) : Nat :=
  match s.ownerOf (h / 8) with
  | none => 0
  | some p => fieldOf (s.part p).power 6 0 * 1000000

/-- The hob's boost allowance of this window is used up (R20). -/
def spent (s : State) (h : Nat) : Bool := (s.hob h).exhausted || s.allowance h ≤ (s.hob h).charge

/-- Gives a hob the operating point of a class (R18). -/
def setOp (s : State) (h cls : Nat) : State :=
  ((s.updHob h (fun k => { k with opStep := classStep cls (s.spent h) })).noteThrottle h).settle h

/-- The class ceiling of a pool's partition (R18, R80); a pool of no partition has none. -/
def ceilingOf (s : State) (p : Nat) : Nat :=
  match s.poolPart p with
  | none => 3
  | some q => fieldOf (s.part q).power 9 8

/-- The class that a resolution gives a pool: the greatest of the requests, or the current class, clamped (R19). -/
def resolvedClass (s : State) (p : Nat) : Nat :=
  let k := s.pool p
  let want := match k.reqs with
    | [] => k.cls
    | _ => k.reqs.foldl (fun m r => max m r.2) 0
  min want (s.ceilingOf p)

/-- A hob of a pool whose class changes takes its operating point and relocks, at whatever step it is to run (R19). -/
def adoptOp (s : State) (h cls : Nat) : State :=
  let s := (s.updHob h (fun k => { k with opStep := classStep cls (s.spent h) })).noteThrottle h
  s.relock h (s.targetStep h)

/-- Resolves a pool's requests (R19). While a hob of the pool relocks, for whatever cause, the resolution waits for the end of the
relock (LE 76). -/
def resolvePool (s : State) (p : Nat) : State :=
  let hs := s.hobsOf p
  if hs.any (fun h => (s.hob h).relockEnd.isSome) then s.updPool p (fun k => { k with waits := true })
  else
    let c := s.resolvedClass p
    let s := s.updPool p (fun k => { k with waits := false })
    if c == (s.pool p).cls then s
    else hs.foldl (fun s h => s.adoptOp h c) (s.updPool p (fun k => { k with cls := c }))

/-- A team boundary or pre-emption point on a core (R19, R123). -/
def boundary (s : State) (c : Nat) : State := s.resolvePool (s.hob (hobOf c)).pool

/-- Files a request for a pool's class; the owner's earlier request is replaced (R19, R375). -/
def fileReq (s : State) (p : Nat) (o : ReqOwner) (cls : Nat) : State :=
  s.updPool p (fun k => { k with reqs := k.reqs.filter (fun r => r.1 != o) ++ [(o, cls)] })

/-- Withdraws every request of an owner. -/
def dropReqs (s : State) (o : ReqOwner) : State :=
  { s with pools := s.pools.map (fun e => (e.1, { e.2 with reqs := e.2.reqs.filter (fun r => r.1 != o) })) }

end State

/-- `n` nanoseconds of the oscillator pass for a hob, in which the reference timer counts `ticks` (R13, R14, R20, R169, R170): its core
cycles and nominal cycles advance but during a relock, and a hob above step 12 is charged the ticks. A nanosecond is 6 + step tenths
of a core cycle. -/
def Hob.elapse (n ticks : Nat) (k : Hob) : Hob :=
  let k := if 12 < k.step && k.relockEnd.isNone then { k with charge := k.charge + ticks } else k
  if k.relockEnd.isSome then k
  else
    let x := k.phase + n * (6 + k.step)
    { k with clk := k.clk + x / 10, clkn := k.clkn + x / 10 * clknInc k.step, phase := x % 10 }

namespace State

/-- The millionths of a tick by which the reference timer advances in `n` nanoseconds of the oscillator, under the correction of its
rate (R17). -/
def corrected (s : State) (n : Nat) : Nat := n * (1000000 + s.time.ratePpm).toNat + s.time.frac

/-- `n` nanoseconds of the oscillator pass: the reference timer advances at its corrected rate (R16, R17). A hob that is not listed has
the state of reset, so every hob is listed from then on. -/
def elapse (s : State) (n : Nat) : State :=
  let x := s.corrected n
  { s with reft := s.reft + x / 1000000, time := { s.time with frac := x % 1000000 }
           hobs := (List.range 64).map (fun h => (h, (s.hob h).elapse n (x / 1000000))) }

end State

end Sys2Proof.Machine
end

