-- ==== Sys2Proof/Machine/Teams.lean ====
section
/-!
DEFINITION. What ends or sets aside work: records of the fault and system queues (R197, R198, R228), queue errors (R97, R98), the
cancellation of jobs, the removal, saving and resumption of teams, launch kills (R227), pre-emption points (R123).
-/

namespace Sys2Proof.Machine

namespace RecQueue

/-- The ring is enabled (R198, R228). -/
def enabled (q : RecQueue) : Bool := fieldOf q.ctl 31 31 == 1
/-- The number of records the ring holds. -/
def size (q : RecQueue) : Nat := 128 * 2 ^ fieldOf q.ctl 30 27
/-- The records that wait to be read. -/
def used (q : RecQueue) : Nat := (q.tail - q.head).toNat
/-- Records still free. -/
def room (q : RecQueue) : Nat := q.size - q.used
/-- The address of the next record. -/
def slotPa (q : RecQueue) : Nat := q.base.toNat / 4096 * 4096 + 32 * (q.tail.toNat % q.size)

end RecQueue

/-- The side of a wave (R115, R146). -/
def Wave.side (w : Wave) : Nat := w.w % 2

/-- sr.cause.INH: the wave is in its handler (R221). -/
def Wave.inh (w : Wave) : Bool := fieldOf w.cause 16 16 == 1

/-- The gate depth (R235). -/
def Wave.depth (w : Wave) : Nat := w.gates.length

/-- The number of teams of a grid (R100, R104). -/
def LaunchRec.teams (r : LaunchRec) : Nat := r.gx * r.gy * r.gz

/-- The queue's STATE field (R86). -/
def Queue.state (q : Queue) : Nat := fieldOf q.status 31 30
def Queue.enabled (q : Queue) : Bool := fieldOf q.ctl 31 31 == 1
def Queue.valid (q : Queue) : Bool := fieldOf q.owner 63 63 == 1
def Queue.vf (q : Queue) : Nat := fieldOf q.owner 57 53
/-- The local index of the queue in its VF (R85). -/
def Queue.loc (q : Queue) : Nat := fieldOf q.owner 15 5 * 32 + fieldOf q.owner 52 48
def Queue.whisk (q : Queue) : Nat := fieldOf q.owner 47 47
/-- The first slot of the queue among those of both Whisks. -/
def Queue.slotBase (q : Queue) : Nat := q.whisk * 32768 + fieldOf q.owner 46 32
def Queue.slotCount (q : Queue) : Nat := fieldOf q.owner 31 16
def Queue.cls (q : Queue) : Cls := if fieldOf q.ctl 28 28 == 1 then .h else .g
def Queue.asid (q : Queue) : Nat := fieldOf q.ctl 11 0
def Queue.ringSize (q : Queue) : Nat := 16 * 2 ^ fieldOf q.ctl 27 24
def Queue.setState (q : Queue) (n : Nat) : Queue := { q with status := setField q.status 31 30 n }

/-- The class of a grid (R1, R105). -/
def Grid.cls (g : Grid) : Cls := g.lrec.cls

/-- A fault record (R197). -/
structure FaultRec where
  core : Nat
  id : Nat
  va : Nat
  asid : Nat
  lane : Nat
  slot : Nat
  kind : Nat
  level : Nat
  peer : Option Nat
  deriving DecidableEq, Repr

/-- The bytes of a fault record (R197). -/
def FaultRec.bytes (r : FaultRec) : List Byte :=
  natBytes 8 (r.core * 2 ^ 55 + r.id) ++ natBytes 8 r.va ++ natBytes 2 r.asid ++ [BitVec.ofNat 8 r.lane] ++ [BitVec.ofNat 8 r.slot]
    ++ [BitVec.ofNat 8 r.kind] ++ [BitVec.ofNat 8 r.level]
    ++ natBytes 2 (match r.peer with | none => 0 | some c => 0x8000 + c) ++ natBytes 8 0

namespace State

/-- The partition of a virtual device (R84). -/
def vdPart (s : State) (vf : Nat) : Nat := fieldOf (s.vd vf).cfg 2 0
def vdEnabled (s : State) (vf : Nat) : Bool := fieldOf (s.vd vf).cfg 31 31 == 1

def gridOf (s : State) (t : Team) : Option Grid := Tbl.find s.grids t.grid

/-- The class of a team (R1). -/
def teamCls (s : State) (t : Nat) : Cls :=
  match Tbl.find s.teams t with
  | none => .h
  | some k => match Tbl.find s.grids k.grid with
    | none => .h
    | some g => g.cls

/-- The number of entries of a PC table that a class holds (R152). -/
def heldBy (s : State) (tab : List (Option PcEntry)) (cls : Cls) : Nat :=
  (tab.filter (fun e => match e with | none => false | some x => s.teamCls x.team == cls)).length

/-- The issue count of a core advances (R197). -/
def counted (s : State) (c : Nat) : State := s.updCore c (fun k => { k with issued := k.issued + 1 })

/-! ## Record queues -/

/-- One record of the system queue (R228): counted in SQ_LOST while the queue is off or full. -/
def sqRecord (s : State) (p kind core issueId slot hq : Nat) (epc : DWord) (cause : Word) : State :=
  let q := (s.part p).sq
  if q.enabled && 0 < q.room then
    let bytes := natBytes 8 (core * 2 ^ 55 + issueId) ++ natBytes 8 epc.toNat ++ natBytes 4 cause.toNat ++ [BitVec.ofNat 8 kind]
      ++ [BitVec.ofNat 8 slot] ++ natBytes 2 hq ++ natBytes 8 0
    let s := s.storeHome q.slotPa bytes
    (s.updPart p (fun x => { x with sq := { x.sq with tail := x.sq.tail + 1 } })).raiseIrq .pf (fieldOf q.ctl 26 20)
  else s.updPart p (fun x => { x with sq := { x.sq with lost := x.sq.lost + 1 } })

/-- The system-queue record of an event of a wave (R228). -/
def sqWave (s : State) (kind wid : Nat) : State :=
  match Tbl.find s.waves wid with
  | none => s
  | some w =>
    match Tbl.find s.teams w.team with
    | none => s
    | some t =>
      match Tbl.find s.grids t.grid with
      | none => s
      | some g => s.sqRecord g.part kind t.core w.issueId w.slot g.hq w.epc w.cause

/-- What a system-queue record names of a wave: core, issue count, slot, sr.epc, sr.cause (R228). -/
def eventOf (s : State) (wid : Nat) : Nat × Nat × Nat × DWord × Word :=
  match Tbl.find s.waves wid with
  | none => (0, 0, 0, 0, 0)
  | some w => ((s.placeOf w).1, w.issueId, w.slot, w.epc, w.cause)

/-- A record of the system queue of an event that a launch meets after its kill: it names what killed it (R228). -/
def sqGrid (s : State) (kind : Nat) (g : Grid) : State :=
  s.sqRecord g.part kind g.event.1 g.event.2.1 g.event.2.2.1 g.hq g.event.2.2.2.1 g.event.2.2.2.2

/-- The fault queue takes so many records (R197, R198). -/
def fqRoom (s : State) (p n : Nat) : Bool := (s.part p).fq.enabled && n ≤ (s.part p).fq.room

/-- Writes a group of fault records and raises the queue's vector once (R198). -/
def fqRecords (s : State) (p : Nat) (rs : List FaultRec) : State :=
  let s := rs.foldl (fun s r =>
    (s.storeHome (s.part p).fq.slotPa r.bytes).updPart p (fun x => { x with fq := { x.fq with tail := x.fq.tail + 1 } })) s
  if rs.isEmpty then s else s.raiseIrq .pf (fieldOf (s.part p).fq.ctl 26 20)

/-! ## Queue errors -/

/-- A queue enters ERROR: CODE and SLOT of the first error, ERR_VEC once (R98). A queue that is resetting takes no error. -/
def queueError (s : State) (hq code slot : Nat) : State :=
  let q := s.queue hq
  if q.state == 2 || q.state == 3 then s
  else
    let st := setField (setField (setField q.status 31 30 2) 23 16 code) 14 0 slot
    (s.updQueue hq (fun q => { q with status := st })).raiseIrq (.vf (Fin.ofNat 32 q.vf)) (fieldOf q.ctl 23 18)

/-- The node in a slot fails (R98): it does not complete. -/
def nodeFail (s : State) (hq slot code : Nat) : State :=
  (s.updSlot slot (fun k => if k.st == .running then { k with run := .failed } else k)).queueError hq code
    (slot - (s.queue hq).slotBase)

/-! ## Jobs -/

def tagOf (s : State) (t tag : Nat) : TagSt :=
  match Tbl.find s.teams t with
  | none => .clear
  | some k => Tbl.getD k.tags tag .clear

/-- Sets a tag of a team (R185); a clear tag has an empty chunk map. -/
def setTag (s : State) (t tag : Nat) (st : TagSt) : State :=
  s.updTeam t (fun k => { k with
    tags := Tbl.putS .clear k.tags tag st,
    chunks := if st == .set then k.chunks else Tbl.putS 0 k.chunks tag 0 })

/-- A job is gone, and its requests to other chips are forgotten. -/
def forgetJob (s : State) (j : Nat) : State :=
  { s with jobs := Tbl.del s.jobs j, fab := { s.fab with reads := s.fab.reads.filter (fun r => r.job != some j) } }

/-- A COLL that is cancelled does not use up its round: the next of its group joins it (R339). -/
def unround (s : State) (j : Job) : State :=
  if fieldAt j.card 0 1 == 5 then s.updPart j.part (fun p => { p with freeRounds := p.freeRounds ++ [(fieldAt j.card 8 2, j.round)] })
  else s

/-- A job is gone before its end. -/
def dropJob (s : State) (j : Nat) : State :=
  match Tbl.find s.jobs j with
  | none => s
  | some k => (s.unround k).forgetJob j

/-- A job ends and leaves its tag in a state (R334). -/
def endJob (s : State) (j : Nat) (st : TagSt) : State :=
  match Tbl.find s.jobs j with
  | none => s
  | some k =>
    match k.team with
    | none => s.forgetJob j
    | some t => (s.setTag t k.tag st).forgetJob j

/-- A job is cancelled at its step or chunk boundary: its tag is left clear (R120, R126, R99). -/
def cancelJob (s : State) (j : Nat) : State :=
  match Tbl.find s.jobs j with
  | none => s
  | some k => (s.unround k).endJob j .clear

/-- The jobs of a team. -/
def jobsOf (s : State) (t : Nat) : List (Nat × Job) := s.jobs.filter (fun e => e.2.team == some t)

/-! ## Teams -/

/-- Withdraws the carve-out to the highest CARVE of the teams on a core when no allocation lies above it (R115). -/
def lowerCarve (s : State) (c : Nat) : State :=
  let ts := s.teamsOn c
  let want := ts.foldl (fun m e => match Tbl.find s.grids e.2.grid with | none => m | some g => max m g.lrec.carve) 0
  let top := ts.foldl (fun m e => match Tbl.find s.grids e.2.grid with | none => m | some g => max m (e.2.start + g.lrec.bytes)) 0
  let top := (s.core c).forwards.foldl (fun m f => max m f.hi) top
  if want < (s.core c).carve && top ≤ want * 65536 then s.updCore c (fun k => { k with carve := want }) else s

/-- Something became free on a core: evicted waves may be re-admitted and teams placed (R116, R119). -/
def freed (s : State) (c : Nat) : State :=
  let s := s.waves.foldl (fun s e =>
    if e.2.evicted.isSome && (s.placeOf e.2).1 == c then s.soonOnce (.readmission c e.2.slot) else s) s
  s.soonOnce (.teamPlacement (Fin.ofNat 8 (clusterOf c)))

/-- The slabs of a side may be lent now that fewer waves run there (R121). -/
def lendLater (s : State) (c : Nat) : State :=
  if s.waves.any (fun e => e.2.evicted.isSome && (s.placeOf e.2).1 == c) then
    (s.soonOnce (.slabLend c 0)).soonOnce (.slabLend c 1)
  else s

/-- Every launch of a grid's tree is complete as to its teams: asks for the grid's completion (R103, R151). -/
def gridCheck (s : State) (g : Nat) : State :=
  match Tbl.find s.grids g with
  | none => s
  | some k =>
    if !k.killed && k.lrec.teams ≤ k.next && k.returned.isEmpty && k.children == 0
        && !(s.teams.any (fun e => e.2.grid == g)) then
      match k.parent with
      | none => s.soonOnce (.launchComplete g)
      | some _ => s.soonOnce (.childGridRetire g)
    else s

/-- A queue that is pausing may have drained (R87). -/
def kickDrain (s : State) (hq : Nat) : State :=
  let q := s.queue hq
  if !q.enabled && q.state == 1 then s.soonOnce (.queuePauseDrained hq) else s

/-- A team of a grid has left its core: its queue may have drained. -/
def drainOf (s : State) (g : Nat) : State :=
  match Tbl.find s.grids g with
  | none => s
  | some k => s.kickDrain k.hq

/-- A team moves to a core no more: what it would have held there is free (R131). -/
def notComing (s : State) (c t : Nat) : State := s.updCore c (fun k => { k with incoming := k.incoming.filter (fun e => e.1 != t) })

end State

/-- A wave takes its place and its slabs: what others left there is gone. -/
def Core.takenBy (c : Core) (w : Wave) : Core :=
  { c with left := c.left.filter (fun x => !(x.slot == w.slot || (x.slot / 16 == w.slot / 16 && x.slabs.any w.slabs.contains))) }

/-- A wave leaves its place and its slabs with what they hold. -/
def Core.leftBy (c : Core) (w : Wave) : Core :=
  let c := c.takenBy w
  if w.evicted.isSome || w.lent then c else { c with left := c.left ++ [⟨w.slot, w.slabs, w.v, w.fmode⟩] }

/-- A team has the copy tags of a window: what others left of them is gone (R185). -/
def Core.tagsTaken (c : Core) (r : LaunchRec) : Core :=
  { c with tagsLeft := c.tagsLeft.filter (fun e => !(r.tagBase ≤ e.1 && e.1 < r.tagBase + r.tagCount)) }

/-- A team leaves the copy tags of its window in the states that they have (R185); those of jobs that ended with it are clear. -/
def Core.tagsLeftBy (c : Core) (r : LaunchRec) (tags : Tbl TagSt) : Core :=
  { c.tagsTaken r with tagsLeft := (tags.filter (fun e => e.2 == .set)).foldl (fun (m : Tbl TagSt) e => Tbl.put m e.1 e.2) (c.tagsTaken r).tagsLeft }

namespace State

/-- Removes a team with its waves and jobs and frees what it held (R126, R149, R227). Its tiles and its copy tags keep what they hold. -/
def removeTeam (s : State) (t : Nat) : State :=
  match Tbl.find s.teams t with
  | none => s
  | some k =>
    let s := (s.jobsOf t).foldl (fun s e => s.dropJob e.1) s
    let gone := s.wavesOf t
    let ws := gone.map (fun e => e.1)
    let s := { s with
      waves := s.waves.filter (fun e => e.2.team != t)
      teams := Tbl.del s.teams t
      claims := s.claims.filter (fun c => c.team != t)
      fab := { s.fab with markers := s.fab.markers.filter (fun m => !ws.contains m.wid)
                          reads := s.fab.reads.filter (fun r => match r.wid with | none => true | some w => !ws.contains w.1)
                          prefetches := s.fab.prefetches.filter (fun x => !ws.contains x.wid) } }
    let s := s.dropReqs (.team t)
    let s := s.updCore k.core (fun c => { c with
      sideLog := c.sideLog.filter (fun e => !ws.contains e.wid)
      tileH := if k.loc == .saved then c.tileH else c.tileH.filter (fun x => !k.tiles.contains x)
      spills := c.spills.filter (fun e => match e.2 with
        | .slab w _ | .gate w _ _ | .back w _ | .home w _ => !ws.contains w
        | .tile u _ | .tileHome u _ => u != t) })
    let s := match k.loc with
      | .moving target => s.notComing target t
      | _ => s
    let s := match Tbl.find s.grids k.grid with
      | none => s
      | some g => if k.loc == .saved then s else s.updCore k.core (fun c => c.tagsLeftBy g.lrec k.tags)
    if k.loc == .saved then s
    else ((((s.updCore k.core (fun c => gone.foldl (fun c e => c.leftBy e.2) c)).lowerCarve k.core).freed k.core).lendLater k.core).drainOf k.grid

/-- The grids of a launch: the root and every grid below it. -/
def tree (s : State) (root : Nat) : List (Nat × Grid) := s.grids.filter (fun e => e.2.root == root)

/-- Removes every team of a launch. -/
def removeTeams (s : State) (root : Nat) : State :=
  (s.teams.filter (fun e => match Tbl.find s.grids e.2.grid with | none => false | some g => g.root == root)).foldl
    (fun s e => s.removeTeam e.1) s

/-- Forgets a launch: its teams, its child grids, its requests, its pins. -/
def forgetGrid (s : State) (g : Nat) : State :=
  let s := s.dropReqs (.grid g);
  { s with
    grids := Tbl.del s.grids g
    l2pins := s.l2pins.filter (fun e => e.1 != g)
    cores := s.cores.map (fun e => (e.1, { e.2 with icache := e.2.icache.map (fun l => { l with pins := l.pins.filter (· != g) }) })) }

/-- The end of a killed launch: replayed under REPLAY, else its node fails with LAUNCH_FAULT (R227, R247). -/
def afterKill (s : State) (root : Nat) : State :=
  match Tbl.find s.grids root with
  | none => s
  | some g =>
    if g.lrec.replay then s.soonOnce (.launchReplay root)
    else (s.nodeFail g.hq g.slot 0x06).forgetGrid root

/-- A launch kill (R227): every team and child grid of the launch is stopped, its jobs are cancelled and one record of the
system queue is written, which names the wave. -/
def killLaunch (s : State) (wid : Nat) : State :=
  match Tbl.find s.waves wid with
  | none => s
  | some w =>
    match Tbl.find s.teams w.team with
    | none => s
    | some t =>
      match Tbl.find s.grids t.grid with
      | none => s
      | some g =>
        let s := s.sqWave 1 wid
        let ev := s.eventOf wid
        let s := s.updGrid g.root (fun k => { k with killed := true, children := 0, event := ev })
        let s := s.removeTeams g.root
        let s := (s.tree g.root).foldl (fun s e => if e.1 == g.root then s else s.forgetGrid e.1) s
        s.afterKill g.root

/-- A launch kill that an engine job causes: the record carries the job's issue count (R228). -/
def killFor (s : State) (wid id : Nat) : State := (s.updWave wid (fun w => { w with issueId := id })).killLaunch wid

/-- What the records of a kill that no wave takes name (R228): the core and the issue count of the job, where there is one, and the code; what
the spec does not state of an event without a wave is free (LE 13). -/
def eventFree (s : State) (core id : Option Nat) (code : Nat) : Nat × Nat × Nat × DWord × Word :=
  let free := Config.freeWord s.fresh
  (core.getD ((free 0).toNat % 384), id.getD ((free 1).toNat % 2 ^ 55), (free 2).toNat % 32, free 3, setField ((free 4).setWidth 32) 7 0 code)

/-- A launch kill that no wave of the launch takes (R38, R244, R246): the records, of the kinds given, name what is known of the event. -/
def killGrid (s : State) (root : Nat) (kinds : List Nat) (ev : Nat × Nat × Nat × DWord × Word) : State :=
  match Tbl.find s.grids root with
  | none => s
  | some g =>
    let s := kinds.foldl (fun s k => s.sqGrid k { g with event := ev }) s.drawn
    let s := s.updGrid root (fun k => { k with killed := true, children := 0, event := ev })
    let s := s.removeTeams root
    let s := (s.tree root).foldl (fun s e => if e.1 == root then s else s.forgetGrid e.1) s
    s.afterKill root

/-- A launch kill with MACHINE_CHECK of a team (R38). -/
def killTeam (s : State) (t : Nat) : State :=
  match Tbl.find s.teams t with
  | none => s
  | some k =>
    match s.elected t with
    | some w => (s.updWave w (fun w => { w with cause := setField w.cause 7 0 0x01 })).killLaunch w
    | none => match Tbl.find s.grids k.grid with
      | none => s
      | some g => s.killGrid g.root [1] (s.eventFree (some k.core) none 0x01)

/-! ## Saving and resuming (R124, R127, R218) -/

end State

/-- Changes the clocks of every gate call of a wave: the budget, and the core cycles to the abort, which R239 does not name where it exempts the time
that a wave is evicted, saved or moving; both stand still in it (LE 82). -/
def Wave.mapClocks (w : Wave) (f : Nat × Nat → Nat × Nat) : Wave :=
  { w with budget := w.budget.map f, abortAt := w.abortAt.map f
           gates := w.gates.map (fun g => { g with budget := g.budget.map f, abort_ := g.abort_.map f }) }

/-- The clocks of the wave's gate calls stop: what is left of them is kept (R120, R239). -/
def Wave.pauseClock (w : Wave) (clk : Nat) : Wave := w.mapClocks (fun b => (b.1 - (clk - b.2), clk))

/-- They run on from a core cycle. -/
def Wave.resumeClock (w : Wave) (clk : Nat) : Wave := w.mapClocks (fun b => (b.1, clk))

namespace State

/-- The elements of the physical tiles that a team names, keyed by its names (R345). -/
def tilesOut (s : State) (c : Nat) (tiles : List Nat) : Tbl Word :=
  ((List.range tiles.length).flatMap (fun i =>
    ((s.core c).tiles.filter (fun e => some (e.1 / 1024) == tiles[i]?)).map (fun e => (i * 1024 + e.1 % 1024, e.2))))

/-- A map of tile elements with one more element of a named tile. -/
def tilePut (tiles : List Nat) (m : Tbl Word) (e : Nat × Word) : Tbl Word :=
  match tiles[e.1 / 1024]? with
  | none => m
  | some p => Tbl.putS 0 m (p * 1024 + e.1 % 1024) e.2

/-- Puts saved elements into physical tiles. -/
def tilesIn (s : State) (c : Nat) (tiles : List Nat) (v : Tbl Word) : State :=
  s.updCore c (fun k => { k with tiles := v.foldl (tilePut tiles) (k.tiles.filter (fun e => !tiles.contains (e.1 / 1024))) })

/-- The core cycles a team has run in its present stay (R125). -/
def ran (s : State) (t : Team) : Nat := t.runTime + ((s.hob (hobOf t.core)).clk - t.clk0)

/-! ### Frames (R112) -/

/-- The address of the frame of a virtual device on a core of its partition (R112), in the context slot that took effect at the last slice
boundary (R107). -/
def framePa (s : State) (p vf c : Nat) : Nat :=
  let cores := s.coresOf p
  fieldOf (s.part p).ctx 63 37 * 2 ^ 21 + (fieldOf (s.vd vf).sliceNow 28 24 * cores.length + (cores.takeWhile (· != c)).length) * 2 ^ 21

/-- Ladle writes bytes of a frame (R112). -/
def toFrame (s : State) (p vf c off : Nat) (bs : List Byte) : State := s.storeHome (s.framePa p vf c + off) bs

/-- A part of a frame whose contents the spec names and does not lay out: the bytes that stand there are free values, but for those that Ladle writes next
(LE 16). -/
def frameOpen (s : State) (p vf c off n : Nat) : State :=
  let a := s.framePa p vf c + off
  if a + n ≤ hbmEnd then (s.rekey a (a + n)).healLines a n else s

end State

/-- Which level of a gate call chain a v register of the live slabs belongs to: 0 is the running code, n + 1 the caller of the call with index
n from the innermost. A call hides from its callee the registers above its pass window until the callee owns their slab (R236). -/
def ownerLevel (r : Nat) : List Gate → Nat → Nat → Nat
  | [], _, lv => lv
  | f :: fs, i, lv =>
    if f.vwin < r then (if f.owned.any (fun k => k.1 == r / 64) then lv else ownerLevel r fs (i + 1) (i + 1)) else ownerLevel r fs (i + 1) lv

/-- What stands in a register of the wave's live slabs, whoever owns it. -/
def Wave.physV (w : Wave) (l r : Nat) : Word :=
  match ownerLevel r w.gates 0 0 with
  | 0 => Tbl.getD w.v (l * 128 + r) 0
  | n + 1 => Tbl.getD (((w.gates[n]?).map (fun f => f.v)).getD []) (l * 128 + r) 0

/-- Puts a value into a register of the wave's live slabs, for whoever owns it. -/
def Wave.putPhysV (w : Wave) (l r : Nat) (x : Word) : Wave :=
  match ownerLevel r w.gates 0 0 with
  | 0 => { w with v := Tbl.putS 0 w.v (l * 128 + r) x }
  | n + 1 => { w with gates := w.gates.modify n (fun f => { f with v := Tbl.putS 0 f.v (l * 128 + r) x }) }

/-- The bytes of a slab, register by register, lane by lane (LE 16). -/
def slabBytesOf (v : Nat → Nat → Word) (k : Nat) : List Byte :=
  (List.range 64).flatMap (fun r => (List.range 32).flatMap (fun l => natBytes 4 (v l (64 * k + r)).toNat))

/-- The bytes of a live slab of a wave. -/
def slabBytes (w : Wave) (k : Nat) : List Byte := slabBytesOf w.physV k

/-- The registers of a slab of a wave as its bytes have them. -/
def slabFrom (w : Wave) (k : Nat) (bs : List Byte) : Wave :=
  (List.range 64).foldl (fun w r => (List.range 32).foldl (fun (w : Wave) l =>
    w.putPhysV l (64 * k + r) (BitVec.ofNat 32 (fieldAt bs (128 * r + 4 * l) 4))) w) w

/-- The offset in its frame of a slab of a wave: in the eviction area while the wave is evicted or what it holds is lent (R112, R118, R121). -/
def slabOff (w : Wave) (i : Nat) : Nat := (if w.evicted.isSome || w.lent then 0x100000 else 0) + (16 * w.side + w.slabs.getD i 0) * 8192

/-- The bytes of a tile in a map of elements (R345). -/
def tileBytes (v : Tbl Word) (i : Nat) : List Byte := (List.range 1024).flatMap (fun e => natBytes 4 (Tbl.getD v (i * 1024 + e) 0).toNat)

/-! ### Per-wave state in a frame (R112), in a layout that the spec does not give (LE 16) -/

/-- A guard selection as 2 bytes, and what such bytes say. -/
def guardBits (x : Option (PReg × Bool)) : Nat := match x with | none => 0 | some (p, n) => 256 + 128 * bnat n + p.val
def guardFrom (x : Nat) : Option (PReg × Bool) := if bitOf x 8 then some (Fin.ofNat 128 (x % 128), bitOf x 7) else none

/-- The lanes of a predicate as a word. -/
def predBits (p : Tbl Bool) (r : Nat) : Nat := (List.range 32).foldl (fun n l => n + bnat (Tbl.getD p (l * 128 + r) false) * 2 ^ l) 0

/-- The predicates from `lo` on, `n` of them, that words at an offset say. -/
def predsFrom (bs : List Byte) (off lo n : Nat) : Tbl Bool :=
  (List.range 32).foldl (fun m l => (List.range n).foldl (fun m i => Tbl.putS false m (l * 128 + lo + i) (bitOf (fieldAt bs (off + 4 * i) 4) l)) m) []

/-- A clock of a gate call as 16 bytes, and what such bytes say. -/
def clockBytes (b : Option (Nat × Nat)) : List Byte := match b with
  | none => natBytes 16 0
  | some (n, c) => natBytes 8 (2 ^ 63 + n % 2 ^ 63) ++ natBytes 8 c
def clockFrom (bs : List Byte) (off : Nat) : Option (Nat × Nat) :=
  if bitOf (fieldAt bs off 8) 63 then some (fieldAt bs off 8 % 2 ^ 63, fieldAt bs (off + 8) 8) else none

/-- What the context says of a gate call that is not in its gate frame. -/
def Gate.contextBytes (f : Gate) : List Byte :=
  natBytes 8 f.frame ++ natBytes 8 f.fasid ++ natBytes 8 f.vwin
    ++ natBytes 8 (f.owned.foldl (fun n k => n + (1 + 2 * bnat k.2) * 4 ^ k.1) 0) ++ clockBytes f.budget ++ clockBytes f.abort_
def Gate.ofContext (f : Gate) (bs : List Byte) : Gate :=
  { f with
    frame := fieldAt bs 0 8
    fasid := fieldAt bs 8 8
    vwin := fieldAt bs 0x10 8
    owned := ((List.range 2).filter (fun k => bitOf (fieldAt bs 0x18 8) (2 * k))).map (fun k => (k, bitOf (fieldAt bs 0x18 8) (2 * k + 1)))
    budget := clockFrom bs 0x20
    abort_ := clockFrom bs 0x30 }

/-- An open region as 108 bytes. -/
def regionBytes : Option Region → List Byte
  | none => natBytes 108 0
  | some r => natBytes 8 1 ++ natBytes 8 r.depth ++ natBytes 8 r.pc ++ natBytes 16 r.mask.toNat
      ++ (List.range 32).flatMap (fun i => natBytes 2 (guardBits (r.guards.getD i none)))
      ++ natBytes 4 ((List.range 32).foldl (fun n i => n + bnat (r.threads.getD i false) * 2 ^ i) 0)
def regionFrom (bs : List Byte) : Option Region :=
  if fieldAt bs 0 8 == 0 then none
  else some ⟨fieldAt bs 8 8, fieldAt bs 0x10 8, BitVec.ofNat 128 (fieldAt bs 0x18 16),
    (List.range 32).map (fun i => guardFrom (fieldAt bs (0x28 + 2 * i) 2)), (List.range 32).map (fun i => bitOf (fieldAt bs 0x68 4) i)⟩

/-- The entries of a team in the PC tables (side, place, entry) at whose PC a thread of the wave stands (R112, R152). -/
def Wave.pcsOf (w : Wave) (es : List (Nat × Nat × PcEntry)) : List (Nat × PcEntry) :=
  (es.filter (fun e => e.1 == w.side && w.threads.any (fun t => !t.exited && t.pc == e.2.2.pc))).map (fun e => e.2)

/-- PC-table entries as 776 bytes: their number, then place, PC and age of each. A wave of 32 threads has no more than 32. -/
def pcBytes (es : List (Nat × PcEntry)) : List Byte :=
  let bs := es.flatMap (fun e => natBytes 8 e.1 ++ natBytes 8 e.2.pc ++ natBytes 8 e.2.age)
  natBytes 8 es.length ++ bs ++ natBytes (768 - bs.length) 0
def pcsFrom (t : Nat) (bs : List Byte) : List (Nat × PcEntry) :=
  (List.range (min 32 (fieldAt bs 0 8))).map (fun i =>
    (fieldAt bs (8 + 24 * i) 8, ⟨t, fieldAt bs (16 + 24 * i) 8, fieldAt bs (24 + 24 * i) 8⟩))

/-- The state of a wave in its place of the frame: predicates, uniform registers, buffer records; the PCs, trap PCs, guards (with bit 9 where the thread
has exited) and saved guards of its threads; its cause, mode, epc, faddr and random key; its stamps; its region; its PC-table entries; its gate calls. -/
def Wave.placeBytes (w : Wave) (es : List (Nat × Nat × PcEntry)) : List Byte :=
  let each := fun (n : Nat) (f : Thread → Nat) => (List.range 32).flatMap (fun i => natBytes n (f (w.threads.getD i ⟨0, none, true, 0, none⟩)))
  (List.range 128).flatMap (fun r => natBytes 4 (predBits w.p r))
    ++ (List.range 64).flatMap (fun i => natBytes 8 (Tbl.getD w.s i 0).toNat)
    ++ (List.range 16).flatMap (fun i => natBytes 16 (Tbl.getD w.b i 0).toNat)
    ++ each 8 (fun t => t.pc) ++ each 8 (fun t => t.tpc) ++ each 2 (fun t => guardBits t.guard + 512 * bnat t.exited) ++ each 2 (fun t => guardBits t.tguard)
    ++ natBytes 4 w.cause.toNat ++ natBytes 4 w.fmode.toNat ++ natBytes 8 w.epc.toNat ++ natBytes 8 w.faddr.toNat ++ natBytes 8 w.rngkey.toNat
    ++ natBytes 8 w.seen.1 ++ natBytes 8 w.seen.2 ++ natBytes 8 w.rstamp.1 ++ natBytes 8 w.rstamp.2
    ++ regionBytes w.region ++ natBytes 4 0
    ++ natBytes 8 w.domain ++ natBytes 8 w.asid ++ clockBytes w.budget ++ clockBytes w.abortAt ++ pcBytes (w.pcsOf es) ++ w.gates.flatMap Gate.contextBytes

/-- A wave with what its place of the frame says. -/
def Wave.ofPlace (w : Wave) (bs : List Byte) : Wave :=
  { w with
    p := predsFrom bs 0 0 128
    s := (List.range 64).foldl (fun m i => Tbl.putS 0 m i (BitVec.ofNat 64 (fieldAt bs (0x200 + 8 * i) 8))) []
    b := (List.range 16).foldl (fun m i => Tbl.putS 0 m i (BitVec.ofNat 128 (fieldAt bs (0x400 + 16 * i) 16))) []
    threads := (List.range w.threads.length).map (fun i =>
      ⟨fieldAt bs (0x500 + 8 * i) 8, guardFrom (fieldAt bs (0x700 + 2 * i) 2), bitOf (fieldAt bs (0x700 + 2 * i) 2) 9,
        fieldAt bs (0x600 + 8 * i) 8, guardFrom (fieldAt bs (0x740 + 2 * i) 2)⟩)
    cause := BitVec.ofNat 32 (fieldAt bs 0x780 4)
    fmode := BitVec.ofNat 32 (fieldAt bs 0x784 4)
    epc := BitVec.ofNat 64 (fieldAt bs 0x788 8)
    faddr := BitVec.ofNat 64 (fieldAt bs 0x790 8)
    rngkey := BitVec.ofNat 64 (fieldAt bs 0x798 8)
    seen := (fieldAt bs 0x7A0 8, fieldAt bs 0x7A8 8)
    rstamp := (fieldAt bs 0x7B0 8, fieldAt bs 0x7B8 8)
    region := regionFrom (bs.drop 0x7C0)
    domain := fieldAt bs 0x830 8
    asid := fieldAt bs 0x838 8
    budget := clockFrom bs 0x840
    abortAt := clockFrom bs 0x850
    gates := (List.range w.gates.length).filterMap (fun i => (w.gates[i]?).map (fun f => f.ofContext (bs.drop (0xB68 + 64 * i)))) }

/-- The control block of a team in its frame (R112, R113): its stage, phase, run time, high-water mark, filed class and perf arming; its launch, its
index, its core, its residency start tick; its allocation, which is its start in the scratchpad, its tiles as a map of the core's, and the slabs of its waves as
one map for each side. -/
def Team.blockBytes (k : Team) (ws : List Wave) : List Byte :=
  let slabs := fun (side : Nat) => dedup ((ws.filter (fun w => !w.retired && w.side == side)).flatMap (fun w => w.slabs))
  let map := fun (l : List Nat) => (dedup l).foldl (fun n x => n + 2 ^ (x % 16)) 0
  natBytes 8 k.stage ++ natBytes 8 k.phase ++ natBytes 8 k.runTime ++ natBytes 8 k.hwm
    ++ natBytes 8 (match k.perf with | none => 0 | some c => c + 1) ++ natBytes 8 (bnat k.armed)
    ++ natBytes 8 k.grid ++ natBytes 8 k.index ++ natBytes 8 k.core ++ natBytes 8 k.since
    ++ natBytes 8 k.start ++ natBytes 2 (map k.tiles) ++ natBytes 2 (map (slabs 0)) ++ natBytes 2 (map (slabs 1)) ++ natBytes 2 0

/-- A team with what its control block says. Which team it is (its launch and its core) and what it holds (R115) the record has: they find the block. -/
def Team.ofBlock (k : Team) (bs : List Byte) : Team :=
  { k with
    stage := fieldAt bs 0 8
    phase := fieldAt bs 8 8
    runTime := fieldAt bs 0x10 8
    hwm := fieldAt bs 0x18 8
    perf := if fieldAt bs 0x20 8 == 0 then none else some (fieldAt bs 0x20 8 - 1)
    armed := fieldAt bs 0x28 8 != 0
    index := fieldAt bs 0x38 8
    since := fieldAt bs 0x48 8 }

/-- A paused job in its frame, at the place of its tag: its card, how far it has come, the chunk map of its tag. What other chips have acknowledged
while its team was saved counts beside what the frame says. -/
def Job.pausedBytes (j : Job) (chunks : Nat) : List Byte :=
  j.card.take 64 ++ natBytes (64 - j.card.length) 0 ++ natBytes 8 j.pos ++ natBytes 8 j.read ++ natBytes 8 j.acked ++ natBytes 128 chunks
def Job.ofPaused (j : Job) (bs : List Byte) : Job :=
  { j with card := bs.take 64, pos := fieldAt bs 0x40 8, read := fieldAt bs 0x48 8, acked := max j.acked (fieldAt bs 0x50 8) }

/-- The places of a frame: of a wave's state, of a team's block, of a paused job by its tag, of a team's copy-schedule position (R112). The state of a wave
whose place is claimed or lent lies behind the eviction area, so that it stands beside that of the wave which has the place (R130); R112 names no bytes for
it (LE 16). -/
def wavePlace (w : Wave) : Nat := (if w.evicted.isSome || w.lent then 0x150000 else 0x50000) + w.slot % 32 * 4096
def teamBlock (slot : Nat) : Nat := 0x70000 + slot % 32 * 256
def jobPlace (tag : Nat) : Nat := 0x72000 + tag % 64 * 368
def schedPlace (slot : Nat) : Nat := 0x77C00 + slot % 32 * 8

namespace State

/-- The wave whose contents a slab of a side of a core holds: they lie neither in the eviction area nor behind those of another wave (R118, R121). -/
def occupant (s : State) (c side x : Nat) : Option (Nat × Wave) :=
  s.waves.find? (fun e => !e.2.retired && e.2.side == side && (Tbl.find s.teams e.2.team).any (fun t => t.core == c && t.loc != .saved)
    && (List.range e.2.slabs.length).any (fun i => e.2.slabs[i]? == some x && !e.2.hown.contains i && !e.2.away.contains i))

/-- Where a slab and a tile lie in the eviction area of a frame (R112). -/
def slabAway (side x : Nat) : Nat := 0x100000 + (16 * side + x) * 8192
def tileAway (x : Nat) : Nat := 0x140000 + x * 4096

/-- The contents of another wave that a claimed slab still holds go to the eviction area of their frame (R112, R118). -/
def spillSlab (s : State) (wid k : Nat) : State :=
  match Tbl.find s.waves wid with
  | none => s
  | some w =>
    let c := (s.placeOf w).1
    match w.slabs[k]? with
    | none => s
    | some x => match s.occupant c w.side x with
      | none => s
      | some e => match (Tbl.find s.teams e.2.team).bind s.gridOf with
        | none => s
        | some g =>
          let i := (e.2.slabs.takeWhile (· != x)).length
          (s.toFrame g.part g.vf c (slabAway w.side x) (slabBytes e.2 i)).updWave e.1 (fun y => { y with away := y.away ++ [i] })

/-- A slab of a wave is refilled from the eviction area (R119). -/
def homeSlab (s : State) (wid k : Nat) : State :=
  match Tbl.find s.waves wid with
  | none => s
  | some w => match (Tbl.find s.teams w.team).bind s.gridOf with
    | none => s
    | some g =>
      let at_ := s.framePa g.part g.vf (s.placeOf w).1 + slabAway w.side (w.slabs.getD k 0)
      s.updWave wid (fun w => { slabFrom w k (s.bytesAt at_ 8192) with away := w.away.filter (· != k) })

/-- A result that arrives for an evicted wave is written into the copy of its slab in the eviction area, where that has been made (R118). -/
def copyBack (s : State) (wid l r : Nat) (x : Word) : State :=
  match Tbl.find s.waves wid with
  | none => s
  | some w =>
    if w.evicted.isNone || !w.away.contains (r / 64) then s
    else match (Tbl.find s.teams w.team).bind s.gridOf with
      | none => s
      | some g => s.toFrame g.part g.vf (s.placeOf w).1 (slabAway w.side (w.slabs.getD (r / 64) 0) + 128 * (r % 64) + 4 * l) (natBytes 4 x.toNat)

/-- The team whose contents a physical tile of a core holds while another team has it. -/
def tileOccupant (s : State) (c tile : Nat) : Option (Nat × Team) :=
  s.teams.find? (fun e => e.2.core == c && e.2.loc != .saved && e.2.tileSave.isSome && e.2.tiles.contains tile && !e.2.gone.contains tile)

/-- The contents of another team that a claimed tile still holds go to the eviction area of their frame (R112, R118). -/
def spillTile (s : State) (c tile : Nat) : State :=
  match s.tileOccupant c tile with
  | none => s
  | some e =>
    match s.gridOf e.2 with
    | none => s
    | some g => (s.toFrame g.part g.vf c (tileAway tile) (tileBytes (e.2.tileSave.getD []) (e.2.tiles.takeWhile (· != tile)).length)).updTeam e.1
        (fun k => { k with gone := k.gone ++ [tile] })

/-- The offset in its frame of the tiles of a team: in the eviction area while they are not in the live array (R112). -/
def tileOff (away : Bool) (tile : Nat) : Nat := (if away then 0x140000 else 0x40000) + tile * 4096

/-- The entries of a core's PC tables that belong to a team: side, place, entry. -/
def pcEntries (s : State) (c t : Nat) : List (Nat × Nat × PcEntry) :=
  let of := fun (side : Nat) (x : Side) => (List.range x.table.length).filterMap (fun i => match x.table.getD i none with
    | some e => if e.team == t then some (side, i, e) else none
    | none => none)
  of 0 (s.core c).side0 ++ of 1 (s.core c).side1

/-- Ladle writes the state of a wave, with the PC-table entries of its team, to its place in its frame; the rest of the place holds free values (LE 16). -/
def drainPlace (s : State) (p vf c : Nat) (w : Wave) (es : List (Nat × Nat × PcEntry)) : State :=
  (s.frameOpen p vf c (wavePlace w) 4096).toFrame p vf c (wavePlace w) (w.placeBytes es)

/-- Ladle writes a team into its frames (R112, R124, R127): its slabs, its tiles, its scratchpad range, the state of its waves, its control block, its
paused jobs and the position in its copy schedule. Where another team of its virtual device that was saved on the core has had the same slabs, tiles, places
or range, its bytes there are overwritten: the rules free what a yielded team held and give a virtual device one frame for a core (R112, R124), and
do not say what becomes of the first team (LE 82). -/
def drainFrame (s : State) (t : Nat) (k : Team) (tv : Tbl Word) : State :=
  match s.gridOf k with
  | none => s
  | some g =>
    let put := fun (s : State) off bs => s.toFrame g.part g.vf k.core off bs
    let s := (s.wavesOf t).foldl (fun s e =>
      if e.2.retired then s
      else
        let s := ((List.range e.2.slabs.length).filter (fun i => !e.2.away.contains i)).foldl (fun s i => put s (slabOff e.2 i) (slabBytes e.2 i)) s
        s.drainPlace g.part g.vf k.core e.2 (s.pcEntries k.core t)) s
    let s := ((List.range k.tiles.length).filter (fun i => !k.gone.contains (k.tiles.getD i 0))).foldl (fun s i =>
      put s (tileOff k.tileSave.isSome (k.tiles.getD i 0)) (tileBytes tv i)) s
    let s := (s.frameOpen g.part g.vf k.core (teamBlock k.slot) 256).frameOpen g.part g.vf k.core (schedPlace k.slot) 8
    let s := put (put s (teamBlock k.slot) (k.blockBytes ((s.wavesOf t).map (fun e => e.2)))) (schedPlace k.slot) (natBytes 8 k.schedPos)
    let s := (s.jobsOf t).foldl (fun s e => put s (jobPlace e.2.tag) (e.2.pausedBytes (Tbl.getD k.chunks e.2.tag 0))) s
    let bad := (s.core k.core).badLines k.start (k.start + k.hwm)
    let s := put s (0x78000 + k.start) (s.scratchBytes k.core k.start k.hwm)
    { s with poison := s.poison ++ bad.map (fun l => (s.framePa g.part g.vf k.core + 0x78000) / 128 + l) }

/-- A wave of a saved team whose state has changed: Ladle writes it to its frame again, unless the shadow array holds it. -/
def redrain (s : State) (wid : Nat) : State :=
  match Tbl.find s.waves wid with
  | none => s
  | some w => match Tbl.find s.teams w.team with
    | none => s
    | some k => match s.gridOf k with
      | none => s
      | some g => if k.loc != .saved || k.inShadow then s else s.drainPlace g.part g.vf k.core w k.pcSave

/-- The elements of tiles that a frame holds, keyed by their names in the team (R345). -/
def tilesFrom (s : State) (at_ : Nat) (away : Bool) (tiles : List Nat) : Tbl Word :=
  (List.range tiles.length).foldl (fun m i =>
    let bs := s.bytesAt (at_ + tileOff away (tiles.getD i 0)) 4096
    (List.range 1024).foldl (fun m e => Tbl.putS 0 m (i * 1024 + e) (BitVec.ofNat 32 (fieldAt bs (4 * e) 4))) m) []

/-- A saved team is read from its frame (R112, R127), unless the shadow array holds it already: the state of its waves with their PC-table entries and their
slabs, its tiles, its control block, its paused jobs and the position in its copy schedule. What lies in the eviction area comes back at its first access (R119). -/
def loadFrame (s : State) (t : Nat) : State :=
  match Tbl.find s.teams t with
  | none => s
  | some k =>
    match s.gridOf k with
    | none => s
    | some g =>
      if k.loc != .saved || k.inShadow then s
      else
        let at_ := s.framePa g.part g.vf k.core
        let s := (s.wavesOf t).foldl (fun s e => s.updWave e.1 (fun w =>
          if w.retired then w
          else ((List.range w.slabs.length).filter (fun i => !w.away.contains i)).foldl (fun x i => slabFrom x i (s.bytesAt (at_ + slabOff e.2 i) 8192))
            (w.ofPlace (s.bytesAt (at_ + wavePlace w) 0xC28)))) s
        let pcs := dedup ((s.wavesOf t).flatMap (fun e => if e.2.retired then [] else
          (pcsFrom t (s.bytesAt (at_ + wavePlace e.2 + 0x860) 776)).map (fun x => (e.2.side, x))))
        let job := fun (j : Job) => s.bytesAt (at_ + jobPlace j.tag) 368
        let s := (s.jobsOf t).foldl (fun s e => if e.2.card.isEmpty then s else
          (s.updJob e.1 (fun j => j.ofPaused (job j))).updTeam t (fun k => { k with
            chunks := Tbl.put k.chunks e.2.tag (Tbl.getD k.chunks e.2.tag 0 ||| fieldAt (job e.2) 0x58 128) })) s
        s.updTeam t (fun k => { k.ofBlock (s.bytesAt (at_ + teamBlock k.slot) 256) with
          inShadow := true, pcSave := pcs, tileSave := if k.tilesAway then k.tileSave else some (s.tilesFrom at_ false k.tiles), schedPos := fieldAt (s.bytesAt (at_ + schedPlace k.slot) 8) 0 8 })

/-- The scratchpad range of a team as its frame holds it, at its offset (R112, R127). -/
def scratchFrom (s : State) (k : Team) : List Byte :=
  match s.gridOf k with
  | none => []
  | some g => s.bytesAt (s.framePa g.part g.vf k.core + 0x78000 + k.start) k.hwm

/-- The lines of a team's scratchpad range that its frame holds as poisoned. -/
def scratchBad (s : State) (k : Team) : List Nat :=
  match s.gridOf k with
  | none => []
  | some g => ((List.range ((k.start + k.hwm + 127) / 128 - k.start / 128)).map (k.start / 128 + ·)).filter (fun l =>
      s.poison.contains ((s.framePa g.part g.vf k.core + 0x78000) / 128 + l))

/-- A physical tile of a team is refilled from the eviction area (R119). -/
def homeTile (s : State) (t tile : Nat) : State :=
  match Tbl.find s.teams t with
  | none => s
  | some k => match s.gridOf k with
    | none => s
    | some g => (s.tilesIn k.core [tile] (s.tilesFrom (s.framePa g.part g.vf k.core) true [tile])).updTeam t (fun k =>
        { k with gone := k.gone.filter (· != tile) })

/-- Everything of a team that still lies in the eviction area comes back, but for the slabs of evicted and lent waves and for tiles that the team does
not have now (R119). -/
def homeAll (s : State) (t : Nat) : State :=
  let s := (s.wavesOf t).foldl (fun s e => if e.2.evicted.isSome || e.2.lent then s else e.2.away.foldl (fun s k => s.homeSlab e.1 k) s) s
  match Tbl.find s.teams t with
  | none => s
  | some k => if k.tileSave.isSome then s else k.gone.foldl (fun s x => s.homeTile t x) s

/-- What a team has claimed and not yet written is written out with the contents that it still holds (R118). -/
def spillAll (s : State) (t : Nat) (k : Team) : State :=
  let s := (s.wavesOf t).foldl (fun s e => (e.2.hown.foldl (fun s i => s.spillSlab e.1 i) s).updWave e.1 (fun w => { w with hown := [] })) s
  let mine := (s.core k.core).tileH.filter (fun x => k.tiles.contains x && k.tileSave.isNone)
  (mine.foldl (fun s x => s.spillTile k.core x) s).updCore k.core (fun c => { c with tileH := c.tileH.filter (fun x => !mine.contains x) })

/-! ### The PC tables (R166) -/

end State

/-- Takes a team out of the issue logic of a side. -/
def Side.without (x : Side) (t : Nat) : Side :=
  { x with table := x.table.map (fun e => if e.any (fun y => y.team == t) then none else e), waiting := x.waiting.filter (fun p => p.1 != t) }

/-- Puts an entry back into its place, or into the lowest free one (R152, R166). -/
def Side.withEntry (x : Side) (i : Nat) (e : PcEntry) : Side :=
  let at_ := if x.table.getD i (some e) == none then i else (x.table.takeWhile (fun y => y.isSome)).length
  { x with table := x.table.modify at_ (fun _ => some e) }

namespace State

/-- The entries of a team leave the PC tables of its core and go with it (R166). -/
def takePcs (s : State) (t : Nat) (k : Team) : State :=
  let es := s.pcEntries k.core t
  (s.updTeam t (fun k => { k with pcSave := es })).updCore k.core (fun c => { c with side0 := c.side0.without t, side1 := c.side1.without t })

/-- An entry comes back to a side, unless the side is full or its class holds 56 entries: then its pair waits for one (R152). -/
def entryBack (s : State) (x : Side) (i : Nat) (e : PcEntry) : Side :=
  if x.table.all (fun y => y.isSome) || 56 ≤ s.heldBy x.table (s.teamCls e.team) then { x with waiting := x.waiting ++ [(e.team, e.pc)] }
  else x.withEntry i e

/-- The entries of a team are in the PC tables of its core again (R166). -/
def givePcs (s : State) (t : Nat) : State :=
  match Tbl.find s.teams t with
  | none => s
  | some k =>
    (s.updTeam t (fun k => { k with pcSave := [] })).updCore k.core (fun c => k.pcSave.foldl (fun (c : Core) e =>
      if e.1 == 0 then { c with side0 := s.entryBack c.side0 e.2.1 e.2.2 } else { c with side1 := s.entryBack c.side1 e.2.1 e.2.2 }) c)

/-- Saves a team (R124, R127): what it is goes to its frame; its tiles, its scratchpad range [0, HWM) and its PC table entries leave the core, its jobs
pause. A device that is halted keeps its state (R44). -/
def saveTeam (s : State) (t : Nat) : State :=
  match Tbl.find s.teams t with
  | none => s
  | some k =>
    if k.loc != .resident || !s.running then s
    else
      let clk := (s.hob (hobOf k.core)).clk
      let run := s.ran k
      let s := (s.spillAll t k).homeAll t
      let tv := k.tileSave.getD (s.tilesOut k.core k.tiles)
      let s := (s.wavesOf t).foldl (fun s e => if e.2.evicted.isSome then s else s.updWave e.1 (fun w => w.pauseClock clk)) s
      let s := (s.drainFrame t { k with runTime := run, gone := if k.tileSave.isSome then k.gone else [] } tv).takePcs t k
      let s := s.updTeam t (fun k => { k with
        loc := .saved, tilesAway := k.tileSave.isSome, gone := if k.tileSave.isSome then k.tiles else [], inShadow := false, tileSave := some tv, runTime := run })
      let s := (s.jobsOf t).foldl (fun s e => s.updJob e.1 (fun j => { j with paused := true })) s
      let s := s.dropReqs (.team t)
      let s := (s.wavesOf t).foldl (fun s e => s.updWave e.1 (fun w => { w with
        away := if w.evicted.isSome || w.lent then List.range w.slabs.length else []
        parkClk := none
        park := if w.park == .yielded then .no else w.park })) s
      (((s.lowerCarve k.core).freed k.core).lendLater k.core).drainOf k.grid

/-! ## Pre-emption points (R123) -/

end State

/-- The wave is parked in a barrier wait, WAITV, SLEEP or LJOIN, or stopped at YIELD (R123). -/
def Wave.atRest (w : Wave) : Bool :=
  match w.park with
  | .waitv _ | .sleep _ | .bar | .cbar | .ljoin | .yielded => w.evicted.isNone
  | .no | .collw | .poll _ => false

namespace State

/-- The team is at a pre-emption point: every non-exited wave is at rest (R123). -/
def preemptible (s : State) (t : Nat) : Bool :=
  match Tbl.find s.teams t with
  | none => false
  | some k => k.loc == .resident && (s.wavesOf t).all (fun e => e.2.retired || e.2.atRest)

/-- Notes since when the waves of a team are at rest; while slabs may be lent, this is looked at 4,096 core cycles later (R121). -/
def noteRest (s : State) (t : Nat) (k : Team) : State :=
  let h := s.hob (hobOf k.core)
  (s.wavesOf t).foldl (fun s e => if e.2.atRest && e.2.parkClk.isNone && !e.2.retired then
    (s.updWave e.1 (fun w => { w with parkClk := some h.clk })).after ((4096 * 10 + 5 + h.step) / (6 + h.step))
      (.slabLend k.core (Fin.ofNat 2 e.2.side)) else s) s

/-- A wave has come to rest: at a pre-emption point the pool is resolved, and a team that has yielded is saved at once (R19,
R124). -/
def rested (s : State) (t : Nat) : State :=
  match Tbl.find s.teams t with
  | none => s
  | some k =>
    let s := s.noteRest t k
    if s.preemptible t then
      let s := s.boundary k.core
      if k.yieldBy.isSome && (s.wavesOf t).any (fun e => e.2.park == .yielded) then s.saveTeam t else s
    else s

end State

end Sys2Proof.Machine
end

