-- ==== Sys2Proof/Machine/Ops.lean ====
section
/-!
DEFINITION. The named operations that the meanings share: buffer records and lane addresses (R171, R172), translation (R191,
R192), protection domains (R219, R220), taking a trap and returning from it (R223 to R226), the end of a gate call (R238, R240),
accesses at the home and through the caches (R177, R184, R205, R213, R245), and what acquires and releases do (R212, R213).
-/

namespace Sys2Proof.Machine

/-! ## Buffer records (R171) -/

namespace Rcd

def tagged (b : RecBits) : Bool := fieldOf b 125 125 == 1
def tag (b : RecBits) : Nat := fieldOf b 124 113
def oob (b : RecBits) : Bool := fieldOf b 112 112 == 1
def space (b : RecBits) : Nat := fieldOf b 111 110
def atomic (b : RecBits) : Bool := fieldOf b 109 109 == 1
def write (b : RecBits) : Bool := fieldOf b 108 108 == 1
def read (b : RecBits) : Bool := fieldOf b 107 107 == 1
def swizzle (b : RecBits) : Nat := fieldOf b 106 103
def esize (b : RecBits) : Nat := 2 ^ fieldOf b 102 100
def stride (b : RecBits) : Nat := if fieldOf b 99 84 == 0 then esize b else fieldOf b 99 84
def extent (b : RecBits) : Nat := fieldOf b 83 52
def base (b : RecBits) : Nat := fieldOf b 51 0

end Rcd

/-- What a lane's index gives (R172): an address, nothing (out of bounds and dropped), or a cause. -/
inductive LaneAddr where
  | at_ (a : Nat)
  | dropped
  | trap (code : Nat)
  deriving DecidableEq, Repr

/-- lane_address of R172, with the policy of an index out of bounds. -/
def laneAddress (b : RecBits) (i w : Nat) : LaneAddr :=
  let e := Rcd.esize b
  let st := Rcd.stride b
  let n := max 1 (w / e)
  if Rcd.extent b ≤ i + n - 1 then (if Rcd.oob b then .dropped else .trap 0x30)
  else if e < w && st != e then .trap 0x31
  else
    let o := i * st
    let z := Rcd.swizzle b
    if z != 0 && Rcd.base b % 128 != 0 then .trap 0x31
    else
      let o := if z == 0 then o
        else o - bitsOf o 6 4 * 16 + (bitsOf o 6 4 ^^^ bitsOf o (z + 8) (z + 6)) * 16
      let a := Rcd.base b + o
      if a % w != 0 then .trap 0x31 else .at_ a

/-- cell_address of R327. -/
def cellAddress (b : RecBits) (i : Nat) : LaneAddr :=
  if Rcd.extent b ≤ i then (if Rcd.oob b then .dropped else .trap 0x30)
  else if Rcd.swizzle b != 0 then .trap 0x31
  else
    let a := Rcd.base b + i * Rcd.stride b
    if a % 64 != 0 then .trap 0x31 else .at_ a

/-! ## Translation (R191, R192) -/

/-- A leaf as it covers one address: the physical address, the rights, the mirror attribute, and for a peer entry the target chip
and the export page. -/
structure Leaf where
  pa : Nat
  x : Bool
  at_ : Bool
  wr : Bool
  mirror : Bool
  peer : Option (Nat × Nat)
  deriving DecidableEq, Repr

/-- The result of a walk: a leaf, an entry with V = 0 at a level, a root entry with V = 0, or an address at or beyond 2^52. -/
inductive Walk where
  | leaf (l : Leaf)
  | fault (level : Nat)
  | noRoot
  deriving DecidableEq, Repr

/-- An entry is a leaf at its level (R191). -/
def pteLeaf (level e : Nat) : Bool := level == 0 || (level == 1 && bitOf e 6)

/-- An entry meets the zero and alignment rules of its level (R191). -/
def pteOk (level e : Nat) : Bool :=
  bitOf e 0 && bitsOf e 63 58 == 0 && !bitOf e 7 && (level == 1 || !bitOf e 6)
  && (if pteLeaf level e then
        (bitOf e 5 || bitsOf e 57 48 == 0) && bitsOf e 15 8 == 0 && (level == 0 || bitsOf e 20 16 == 0)
      else bitsOf e 57 48 == 0 && bitsOf e 5 1 == 0 && (level == 1 || bitsOf e 11 8 == 0))

/-- The index of a virtual address at a level (R191). -/
def pteIndex (level va : Nat) : Nat :=
  match level with
  | 0 => bitsOf va 20 16
  | 1 => bitsOf va 29 21
  | 2 => bitsOf va 38 30
  | 3 => bitsOf va 47 39
  | _ => bitsOf va 51 48

/-- The leaf of an entry for an address. -/
def pteLeafAt (level e va : Nat) : Leaf :=
  let base := bitsOf e 47 8 * 256
  let off := if level == 1 then va % 2 ^ 21 else va % 2 ^ 16
  { pa := base + off, x := bitOf e 3, at_ := bitOf e 2, wr := bitOf e 1, mirror := bitOf e 4
    peer := if bitOf e 5 then some (bitsOf e 57 48, (base + off) / 65536) else none }

namespace State

/-- Walks the table at a physical address from a level down; `fuel` is the level. -/
def walkFrom (s : State) (va : Nat) : Nat → Nat → Walk
  | 0, table =>
    let e := s.natAt (table + 8 * pteIndex 0 va) 8
    if pteOk 0 e then .leaf (pteLeafAt 0 e va) else .fault 0
  | l + 1, table =>
    let e := s.natAt (table + 8 * pteIndex (l + 1) va) 8
    if !pteOk (l + 1) e then .fault (l + 1)
    else if pteLeaf (l + 1) e then .leaf (pteLeafAt (l + 1) e va)
    else s.walkFrom va l (bitsOf e 47 8 * 256)

/-- The translation of an address of an ASID of a partition (R191, R192). -/
def walk (s : State) (p asid va : Nat) : Walk :=
  if 2 ^ 52 ≤ va then .noRoot
  else
    let root := s.natAt (fieldOf (s.part p).asidTable 47 15 * 2 ^ 15 + 8 * asid) 8
    if bitOf root 0 then s.walkFrom va 4 (bitsOf root 47 8 * 256) else .noRoot

/-! ## TLBs (R191, R193) -/

end State

/-- The leaf that a TLB entry holds, for an address of its page. -/
def TlbEntry.leaf (e : TlbEntry) (va : Nat) : Leaf := ⟨e.pa + va % 65536, e.x, e.at_, e.wr, e.mirror, e.peer⟩

/-- The entry of a TLB for an address. -/
def tlbFind (l : List TlbEntry) (p asid va : Nat) : Option TlbEntry :=
  l.find? (fun e => e.part == p && e.asid == asid && e.page == va / 65536)

namespace State

/-- The translation of an address for an access of a core: from the core's TLB or its cluster's, which keep it until TLB_INV (R193), else
by a walk; an access of no core walks. -/
def translate (s : State) (c : Option Nat) (p asid va : Nat) : Walk :=
  match c with
  | none => s.walk p asid va
  | some c =>
    match (tlbFind (s.core c).tlb p asid va).or (tlbFind (Tbl.getD s.ctlb (clusterOf c) []) p asid va) with
    | some e => .leaf (e.leaf va)
    | none => s.walk p asid va

/-- A TLB of `n` entries with one more, in place of one that the device chooses where it is full (LE 8). -/
def tlbPut (s : State) (l : List TlbEntry) (n : Nat) (e : TlbEntry) : List TlbEntry :=
  if l.any (fun x => x.part == e.part && x.asid == e.asid && x.page == e.page) then l
  else if l.length < n then l ++ [e]
  else match l[Config.victim s.fresh % l.length]? with
    | none => l
    | some v => l.erase v ++ [e]

/-- An invalidation covers a translation: ALL, or 2 ^ SPAN pages of an ASID from VA on (R193). -/
def tlbCovers (p : Nat) (v : DWord) (e : TlbEntry) : Bool :=
  e.part == p && (fieldOf v 62 62 == 1
    || (e.asid == fieldOf v 11 0 && fieldOf v 51 16 ≤ e.page && e.page < fieldOf v 51 16 + 2 ^ fieldOf v 61 56))

/-- Drops translations from every TLB. -/
def dropTlb (s : State) (f : TlbEntry → Bool) : State :=
  { s with cores := s.cores.map (fun e => (e.1, { e.2 with tlb := e.2.tlb.filter (fun x => !f x) }))
           ctlb := s.ctlb.map (fun e => (e.1, e.2.filter (fun x => !f x))) }

/-! ## Domains (R219, R220) -/

end State

/-- A domain entry (R219); `v` is false for an entry that breaks a rule. -/
structure Domain where
  vec : Nat
  area : Nat
  asid : Nat
  v : Bool
  sys : Bool
  deriving DecidableEq, Repr

/-- Reads a domain entry (R219). -/
def domainOfBytes (bs : List Byte) : Domain :=
  let vec := fieldAt bs 0 8
  let area := fieldAt bs 8 8
  let asid := fieldAt bs 16 2
  let fl := fieldAt bs 18 1
  let ok := vec < 2 ^ 52 && vec % 4 == 0 && area < 2 ^ 52 && area % 65536 == 0 && asid < 4096 && fl < 4 && fieldAt bs 19 13 == 0
  { vec := vec, area := area, asid := asid, v := ok && bitOf fl 0, sys := bitOf fl 1 }

namespace State

def domainEntry (s : State) (p d : Nat) : Domain :=
  domainOfBytes (s.bytesAt (fieldOf (s.part p).domTable 47 13 * 8192 + 32 * d) 32)

/-- The domain of the waves of a queue launch: the lowest valid one of the ASID, else 0 (R220). -/
def domainFor (s : State) (p asid : Nat) : Nat :=
  ((List.range 256).find? (fun d => (s.domainEntry p d).v && (s.domainEntry p d).asid == asid)).getD 0

/-- The partition, core and grid of a wave. -/
def partOf (s : State) (wid : Nat) : Nat :=
  match Tbl.find s.waves wid with
  | none => 0
  | some w => match Tbl.find s.teams w.team with
    | none => 0
    | some t => match Tbl.find s.grids t.grid with
      | none => 0
      | some g => g.part

def gridIdOf (s : State) (wid : Nat) : Nat :=
  match Tbl.find s.waves wid with
  | none => 0
  | some w => match Tbl.find s.teams w.team with
    | none => 0
    | some t => t.grid

def clsOf (s : State) (wid : Nat) : Cls :=
  match Tbl.find s.grids (s.gridIdOf wid) with
  | none => .h
  | some g => g.cls

/-- The wave in a slot of a core: of a team that is on the core, neither retired nor evicted, and not one whose slot is lent (R121). -/
def waveAt (s : State) (c slot : Nat) : Option (Nat × Wave) :=
  s.waves.find? (fun e => !e.2.retired && e.2.evicted.isNone && !e.2.lent && e.2.slot == slot && (match Tbl.find s.teams e.2.team with
    | none => false
    | some t => t.core == c && t.loc == .resident))

/-- Parks a wave. -/
def parked (s : State) (wid : Nat) (p : Park) : State := s.updWave wid (fun w => { w with park := p })

/-- The wave runs in a system domain (R220): its entry has V and SYSTEM. With V = 0 the entry makes nobody privileged, domain 0 included (LE 82). -/
def privileged (s : State) (wid : Nat) : Bool :=
  match Tbl.find s.waves wid with
  | none => false
  | some w => (s.domainEntry (s.partOf wid) w.domain).v && (s.domainEntry (s.partOf wid) w.domain).sys

end State

/-! ## Gate calls: the end of a call (R238, R240) -/

/-- Pops the innermost call: what the callee owns is dropped, the caller's hidden registers, records, guards, domain, ASID and
budget return, the wave leaves its handler, a GATE_TIMEOUT of the call goes with it, and the wave's threads stand after the GCALL
(R238). A slab that was copied to the frame comes back at its first access; the clocks of the caller's own call have run on (R239). -/
def Wave.popGate (w : Wave) : Wave :=
  match w.gates with
  | [] => w
  | f :: fs =>
    { w with
      s := w.s.filter (fun e => e.1 < 16) ++ f.s
      p := sortBy (fun e => e.1) (w.p.filter (fun e => e.1 % 128 < 8) ++ f.p)
      b := [(0, f.b0), (1, f.b1)].filter (fun e => e.2 != 0) ++ f.b
      v := sortBy (fun e => e.1) (w.v.filter (fun e => e.1 % 128 ≤ f.vwin) ++ f.v)
      domain := f.domain
      asid := f.asid
      gates := fs
      budget := f.budget
      abortAt := f.abort_
      refill := (f.owned.filter (fun k => k.2)).map (fun k => (k.1, f.vwin, f.fasid, f.frame + k.1 * 0x2000))
      async := w.async.filter (fun a => a != (0x53, w.gates.length))
      cbarAt := w.cbarAt.filter (fun m => m.lvl < 2 * w.gates.length)
      collwAt := none
      tcollw := none
      cause := setField w.cause 16 16 0
      threads := (List.range w.threads.length).map (fun i =>
        let t := w.threads.getD i ⟨0, none, true, 0, none⟩
        if t.exited then t else { t with pc := f.pc + 4, guard := f.guards.getD i none }) }

namespace State

/-- The core cycles of the hob of a wave's core. -/
def clkOf (s : State) (wid : Nat) : Nat :=
  match Tbl.find s.waves wid with
  | none => 0
  | some w => (s.hob (hobOf (s.placeOf w).1)).clk

/-- Ticks in which a hob at its step ends so many core cycles (R14). -/
def ticksFor (s : State) (h n : Nat) : Nat := (n * 10 + 5 + (s.hob h).step) / (6 + (s.hob h).step)

/-- Sets the clocks of a wave's gate calls going: GATE_TIMEOUT when a budget is used up, the abort at the end of its time (R239). -/
def armGate (s : State) (wid : Nat) : State :=
  match Tbl.find s.waves wid with
  | none => s
  | some w =>
    let c := (s.placeOf w).1
    let arm := fun (s : State) (i : Instr) (bs : List (Option (Nat × Nat))) =>
      match leastBy id (bs.filterMap (fun b => b.map (fun b => s.ticksFor (hobOf c) (b.1 - (s.clkOf wid - b.2))))) with
      | none => s.withdraw i
      | some t => (s.withdraw i).after t i
    arm (arm s (.gateTimeout c w.slot) (w.budget :: w.gates.map (fun g => g.budget))) (.gateAbortTimeout c w.slot)
      (w.abortAt :: w.gates.map (fun g => g.abort_))

/-- A line of the frame of a gate call in the memory of its ASID, where that leads to HBM of this chip (R234). -/
def framePlace (s : State) (p asid va : Nat) : Option (Nat × Bool) :=
  match s.walk p asid (va % 2 ^ 52) with
  | .leaf l => if l.peer.isNone && paKind l.pa == .hbm then some (l.pa, l.mirror) else none
  | _ => none

/-- A slab comes back from the frame of a gate call (R238): its hidden registers take the bytes that stand there, each for whoever owns it, so that
what an outer call hides from the caller stays hidden (R236); where the frame's address no longer leads to memory, free values (LE 16). -/
def refillSlab (s : State) (wid : Nat) (x : Nat × Nat × Nat × Nat) : State :=
  let bs : List Byte := match s.framePlace (s.partOf wid) x.2.2.1 x.2.2.2 with
    | some (pa, _) => s.bytesAt pa 8192
    | none => (List.range 2048).flatMap (fun i => natBytes 4 (Config.freeWord s.fresh i).toNat)
  let regs := (List.range 64).filter (fun r => x.2.1 < 64 * x.1 + r)
  s.drawn.updWave wid (fun w =>
    { regs.foldl (fun w r => (List.range 32).foldl (fun (w : Wave) l =>
        w.putPhysV l (64 * x.1 + r) (BitVec.ofNat 32 (fieldAt bs (128 * r + 4 * l) 4))) w) w with
      refill := w.refill.filter (fun y => y.1 != x.1) })

/-- Every slab of a wave that a gate call copied comes back (R238). -/
def refillAll (s : State) (wid : Nat) : State :=
  match Tbl.find s.waves wid with
  | none => s
  | some w => w.refill.foldl (fun s x => s.refillSlab wid x) s

end State

/-- The call state of a gate call in its frame, at 0x5000 (R234, R235), in a layout that the spec does not give (LE 16); `left` is the budget left. -/
def Gate.callBytes (f : Gate) (left : Nat) : List Byte :=
  natBytes 8 f.pc ++ natBytes 8 f.domain ++ natBytes 8 f.asid ++ natBytes 8 f.g ++ natBytes 16 left ++ natBytes 16 f.b0.toNat ++ natBytes 16 f.b1.toNat
    ++ f.guards.flatMap (fun x => natBytes 2 (guardBits x))

/-- The hidden uniform registers, records and predicates of the caller in the frame, at 0x4000 (R234, R235, LE 16). -/
def Gate.hiddenBytes (f : Gate) : List Byte :=
  (List.range 48).flatMap (fun i => natBytes 8 (Tbl.getD f.s (16 + i) 0).toNat)
    ++ (List.range 14).flatMap (fun i => natBytes 16 (Tbl.getD f.b (2 + i) 0).toNat)
    ++ (List.range 119).flatMap (fun i => natBytes 4 (predBits f.p (8 + i)))

/-- The record of a call with what its frame holds: the bytes at 0x4000 and those at 0x5000. -/
def Gate.ofFrame (f : Gate) (hid call : List Byte) : Gate :=
  { f with
    pc := fieldAt call 0 8
    domain := fieldAt call 8 8 % 256
    asid := fieldAt call 0x10 8 % 4096
    b0 := BitVec.ofNat 128 (fieldAt call 0x30 16)
    b1 := BitVec.ofNat 128 (fieldAt call 0x40 16)
    guards := (List.range f.guards.length).map (fun i => guardFrom (fieldAt call (0x50 + 2 * i) 2))
    s := (List.range 48).foldl (fun m i => Tbl.putS 0 m (16 + i) (BitVec.ofNat 64 (fieldAt hid (8 * i) 8))) []
    b := (List.range 14).foldl (fun m i => Tbl.putS 0 m (2 + i) (BitVec.ofNat 128 (fieldAt hid (0x180 + 16 * i) 16))) []
    p := predsFrom hid 0x260 8 119 }

namespace State

/-- The innermost call of a wave as its frame holds it (R238); where the frame leads to no memory of this chip, as its record does (LE 16). -/
def frameBack (s : State) (p : Nat) (f : Gate) : Gate :=
  match s.framePlace p f.fasid (f.frame + 0x4000) with
  | none => f
  | some (pa, _) => f.ofFrame (s.bytesAt pa 0x43C) (s.bytesAt (pa + 0x1000) 0x90)

/-- The state that a call keeps in its frame is read back, as the call ends (R238). -/
def gateBack (s : State) (wid : Nat) : State :=
  s.updWave wid (fun w => { w with gates := w.gates.modifyHead (s.frameBack (s.partOf wid)) })

/-- The innermost call aborts with a cause (R240): its region state is discarded and the wave goes on after the GCALL with
s0 = 2^63 + code. -/
def abortGate (s : State) (wid code : Nat) : State :=
  let s := ((s.refillAll wid).gateBack wid).sqWave 4 wid
  (s.updWave wid (fun w =>
    let r := match w.region with
      | none => none
      | some r => if r.depth == w.gates.length then none else some r
    let d := 2 * w.gates.length
    let w := w.popGate
    { w with
      s := Tbl.putS 0 w.s 0 (BitVec.ofNat 64 (2 ^ 63 + code))
      park := .no
      pend := .none
      pends := w.pends.filter (fun p => p.lvl < d)
      region := r })).armGate wid

/-! ## Traps (R222 to R226) -/

/-- A wave freezes: SECOND takes the new code, and a record is written (R226). -/
def freeze (s : State) (wid second : Nat) : State :=
  (s.updWave wid (fun w => { w with frozen := true, park := .no, cause := setField w.cause 15 8 second })).sqWave 0 wid

end State

/-- The lowest program counter of the non-exited threads. -/
def Wave.lowestPc (w : Wave) : Nat :=
  match (w.threads.filter (fun t => !t.exited)).map (fun t => t.pc) with
  | [] => 0
  | p :: ps => ps.foldl min p

/-- The record of the trap area that a handler finds in b15 (R223). -/
def trapRecord (area asid core slot : Nat) : RecBits :=
  BitVec.ofNat 128 (2 ^ 125 + asid * 2 ^ 113 + 2 ^ 108 + 2 ^ 107 + 2 * 2 ^ 100 + 1024 * 2 ^ 52 + (area + (core * 32 + slot) * 4096) % 2 ^ 52)

/-- An access that must not be begun again: a read-modify-write of it is under way or has been performed (R55). -/
def Pend.atomic (p : Pend) : Bool := !p.olds.isEmpty || !p.scr.isEmpty || p.reqs.any (fun q => q.1.isSome)

/-- The level at which a wave runs: its gate depth, doubled, with one in the handler. -/
def Wave.lvl (w : Wave) : Nat := 2 * w.depth + bnat w.inh

/-- The access that waits at an address, if any: an empty one else. -/
def Wave.pendFor (w : Wave) (pc : Nat) : Pend :=
  ((w.pend :: w.pends).find? (fun p => p.pc == pc && p.lvl == w.lvl)).getD { Pend.none with pc := pc, lvl := w.lvl }

/-- Changes every access of a wave that waits. -/
def Wave.mapPends (w : Wave) (f : Pend → Pend) : Wave := { w with pend := f w.pend, pends := w.pends.map f }

/-- Something of an access waits or has come. -/
def Pend.live (p : Pend) : Bool := p.again || p.hold.isSome

/-- The wave takes up the access at an address: the access of another address that it issued last stays with the others. -/
def Wave.takeUp (w : Wave) (pc : Nat) : Wave :=
  if w.pend.pc == pc && w.pend.lvl == w.lvl then w
  else { w with
    pend := w.pendFor pc
    pends := (if w.pend.live then [w.pend] else []) ++ w.pends.filter (fun p => !(p.pc == pc && p.lvl == w.lvl)) }

/-- The state of a wave that has entered a handler (R223): every thread keeps its trap PC and its guard, b15 its record. The arrivals that
its CBAR or COLLW has made are kept for it (R225). A fence that waited begins again (R330); of the accesses that waited, other threads' read-modify-writes go on, and the others begin again. -/
def Wave.enter (w : Wave) (code lane epc vec : Nat) (async : Bool) (b15 : RecBits) : Wave :=
  { w with
    threads := w.threads.map (fun t => if t.exited then t else { t with tpc := t.pc, tguard := t.guard, guard := none, pc := vec })
    epc := BitVec.ofNat 64 epc
    epc0 := BitVec.ofNat 64 epc
    cause := BitVec.ofNat 32 (lane % 256 * 2 ^ 24 + bnat async * 2 ^ 18 + bnat (w.depth != 0) * 2 ^ 17 + 2 ^ 16 +
      fieldOf w.cause 15 8 * 256 + code % 256)
    tb15 := Tbl.getD w.b 15 0
    b := Tbl.putS 0 w.b 15 b15
    collwAt := none
    tcollw := w.collwAt
    park := .no
    pend := .none
    pends := ((if w.pend.pc != epc then [w.pend] else []) ++ w.pends).filter Pend.atomic
    ready := (0, 0) }

namespace State

/-- A trap of a wave (R223), taken with every thread at its trap PC. `epc` is the trap PC of the trapping group, none for a cause
of the wave as a whole, which takes the lowest. SHADOW_MISMATCH kills the launch (R244); a cause in a handler freezes the wave
(R226); a domain without a handler kills the launch; inside a gate call both abort the call (R240). -/
def takeTrap (s : State) (wid code lane : Nat) (async : Bool) (epc faddr : Option Nat) : State :=
  match Tbl.find s.waves wid with
  | none => s
  | some w =>
    let pc := epc.getD w.lowestPc
    let s := match faddr with
      | none => s
      | some a => s.updWave wid (fun w => { w with faddr := BitVec.ofNat 64 a })
    let d := s.domainEntry (s.partOf wid) w.domain
    let core := s.coreOf wid
    let note := fun (w : Wave) => { w with epc := BitVec.ofNat 64 pc, cause := setField (setField w.cause 31 24 lane) 7 0 code }
    if code == 0x03 then ((s.updWave wid note).sqWave 5 wid).killLaunch wid
    else if w.inh then (if w.depth != 0 then s.abortGate wid code else s.freeze wid code)
    else if !d.v || d.vec == 0 then
      (if w.depth != 0 then s.abortGate wid code else (s.updWave wid note).killLaunch wid)
    else s.updWave wid (fun w => w.enter code lane pc d.vec async (trapRecord d.area d.asid core w.slot))

end State

/-- A wave is no longer in its handler: b15 is what it was as it entered it (R224), and so is the COLLW at which it waited; arrivals at cluster barriers made
before stand while their phases are incomplete (R225, R369). -/
def Wave.endHandler (w : Wave) : Wave :=
  { w with
    b := Tbl.putS 0 w.b 15 w.tb15
    cause := setField w.cause 16 16 0
    cbarAt := w.cbarAt.filter (fun m => m.lvl ≤ 2 * w.depth)
    collwAt := w.tcollw
    tcollw := none }

/-- The state of a wave that returns from its handler (R224). The arrival of a CBAR stays with the wave wherever it returns to (R225, R369), that of
a COLLW where the wave returns to it. -/
def Wave.leave (w : Wave) : Wave :=
  let x : Wave := { w.endHandler with
    threads := w.threads.map (fun (t : Thread) => if t.exited then t else
      { t with pc := if t.tpc == w.epc0.toNat then w.epc.toNat else t.tpc, guard := t.tguard }) }
  { x with collwAt := x.collwAt.filter (fun a => a.2.2 == x.lowestPc) }

/-- The asynchronous cause that a boundary of the wave takes next, if any (R222): the lowest code, but the two throttle causes in
the order in which they arose; inside a gate call only MACHINE_CHECK and GATE_TIMEOUT; in a handler none. -/
def Wave.nextAsync (w : Wave) : Option (Nat × Nat) :=
  if w.inh then none
  else
    let l := if w.depth == 0 then w.async else w.async.filter (fun a => a.1 == 0x01 || a.1 == 0x53)
    leastBy (fun a => if a.1 == 0x71 then 0x70 else a.1) l

/-- The deferred cause that the next boundary takes (R188, R199, R216, R221): the lowest code, of those that the gate depth admits
(R241). While the wave is in its handler it waits (LE 17). -/
def Wave.nextDeferred (w : Wave) : Option Deferred :=
  if w.inh then none else leastBy (fun a => a.code) (w.deferred.filter (fun a => w.gates.length ≤ a.depth))

/-! ## Accesses at the home -/

/-- Who makes an access: the core, the die, the partition, the class, the wave, the grid. -/
structure Agent where
  core : Option Nat
  die : Nat
  part : Nat
  cls : Cls
  wid : Option Nat
  grid : Option Nat
  deriving DecidableEq, Repr

/-- The elementwise maximum of two stamps (R213). -/
def stampMax (a b : Nat × Nat) : Nat × Nat := (max a.1 b.1, max a.2 b.2)

/-- The bytes of a line after a write to it. -/
def Line.patched (l : Line) (chip : Option Nat) (pa : Nat) (bs : List Byte) : Line :=
  if l.chip == chip && l.pa / 128 == pa / 128 then
    { l with bytes := (List.range l.bytes.length).map (fun i =>
        if pa % 128 ≤ i && i < pa % 128 + bs.length then bs.getD (i - pa % 128) 0 else l.bytes.getD i 0) }
  else l

namespace State

/-- The agent that a wave is. -/
def agentOf (s : State) (wid : Nat) : Agent :=
  { core := some (s.coreOf wid), die := dieOf (s.coreOf wid), part := s.partOf wid, cls := s.clsOf wid, wid := some wid
    grid := some (s.gridIdOf wid) }

/-- The lines on the way to a die, or arrived there and not yet read, of which some condition holds, must not be kept as copies: a value
that a copy would hold is older than one that the core or the die has met (R177, R184, R204, R206). -/
def noKeep (s : State) (f : Nat → Nat → Nat → Bool) : State :=
  let g := fun (w : Wave) (p : Pend) =>
    { p with lines := p.lines.map (fun l => if f (s.placeOf w).1 l.chip l.line then { l with keep := false } else l) }
  if s.fab.reads.isEmpty && s.waves.all (fun e => e.2.pend.lines.isEmpty && e.2.pends.isEmpty) then s
  else { s with
    waves := s.waves.map (fun e => (e.1, e.2.mapPends (g e.2)))
    fab := { s.fab with reads := s.fab.reads.map (fun r => match r.wid.bind (fun x => Tbl.find s.waves x.1) with
      | none => r
      | some w => if f (s.placeOf w).1 r.chip (r.pa / 128) then { r with keep := false } else r) } }

/-- Updates the copies that a write of an agent passes: the L1 of its core, the peer ways of its die (R177, R184); a line of another chip
that is on its way is not kept. -/
def patchCopies (s : State) (ag : Agent) (chip : Option Nat) (pa : Nat) (bs : List Byte) : State :=
  let s := match chip with
    | none => s
    | some ch => s.noKeep (fun c x l => dieOf c == ag.die && x == ch && l == pa / 128)
  let s := match ag.core with
    | none => s
    | some c => s.updCore c (fun k => { k with l1 := k.l1.map (fun (l : Line) => l.patched chip pa bs) })
  { s with peerWays := s.peerWays.map (fun (e : Nat × Line) => if e.1 == ag.die then (e.1, e.2.patched chip pa bs) else e) }

/-! ## The L2 (R181 to R184) -/

/-- Two lines lie in one set of one slice (R181). -/
def sameSet (a b : Nat) : Bool := a % 49152 == b % 49152

/-- A copy in the peer ways of a die is gone. -/
def dropCopy (s : State) (die : Nat) (chip : Option Nat) (line : Nat) : State :=
  { s with peerWays := s.peerWays.filter (fun e => !(e.1 == die && e.2.chip == chip && e.2.pa / 128 == line)) }

/-- A line leaves the L2: a home line that was stamped leaves its stamp in the slice's high-water stamp (R213), a copy is gone. -/
def l2Evict (s : State) (t : L2Tag) : State :=
  let s := { s with l2 := s.l2.erase t }
  if t.chip.isSome || homeDie (t.line * 128) != t.die then s.dropCopy t.die t.chip t.line
  else match Tbl.find s.stamps t.line with
    | none => s
    | some st =>
      let k := t.die * 48 + t.line % 48
      let old := Tbl.getD s.sliceStamps k (0, 0)
      { s with stamps := Tbl.del s.stamps t.line, sliceStamps := Tbl.put s.sliceStamps k (max old.1 st.1, max old.2 st.2) }

/-- A request looks up a line in the L2 of a die (R183): a line that is there stays in its way; else it is allocated within the mask, in
place of a line that the device chooses within it, one that is first to evict where there is one; under an empty mask or hint 3 it is not
allocated. Pinned lines stay (R189). A hit marks the line as first to evict, or not, by its own hint: R183 says what the hint does to an allocation
(LE 82). -/
def l2Touch (s : State) (die : Nat) (chip : Option Nat) (line mask hint : Nat) (dirty : Bool) : State :=
  match s.l2.find? (fun t => t.die == die && t.chip == chip && t.line == line) with
  | some t => { s with l2 := s.l2.map (fun x => if x == t then { x with first := hint == 2, dirty := x.dirty || dirty } else x) }
  | none =>
    if mask == 0 || hint == 3 then s
    else
      let set := s.l2.filter (fun t => t.die == die && sameSet t.line line)
      match ((List.range 16).filter (bitOf mask)).find? (fun w => !(set.any (fun t => t.way == w))) with
      | some w => { s with l2 := s.l2 ++ [⟨die, w, chip, line, hint == 2, dirty⟩] }
      | none =>
        let mine := set.filter (fun t => bitOf mask t.way && !(t.chip.isNone && homeDie (t.line * 128) == t.die && s.l2pins.any (fun e => e.2 == t.line)))
        let firsts := mine.filter (fun t => t.first)
        let from_ := if firsts.isEmpty then mine else firsts
        match from_[Config.victim s.fresh % from_.length]? with
        | none => s
        | some v =>
          let s := (s.l2Evict v).drawn
          { s with l2 := s.l2 ++ [⟨die, v.way, chip, line, hint == 2, dirty⟩] }

/-- The way masks of a partition in the slice of a line of a die (R181, R182): a slice that missed the last flip keeps what it had, and one that is
fenced out for it holds no line (R32, R399; LE 60). -/
def waysAt (s : State) (p die line : Nat) : DWord :=
  let n := die * 48 + line % 48
  if s.kettle.fenced.contains (.slice n) then 0
  else (Tbl.find (s.part p).waysOld n).getD (s.part p).l2ways

/-- The ways in which requests of a class of a partition may allocate the home line of an address (R182). -/
def classWays (s : State) (p : Nat) (cls : Cls) (pa : Nat) : Nat :=
  let m := s.waysAt p (homeDie pa) (pa / 128)
  if cls == .g then fieldOf m 15 0 else fieldOf m 31 16

/-- A request of an agent reaches the home L2 of a line of this chip. -/
def l2Home (s : State) (ag : Agent) (pa hint : Nat) (dirty : Bool) : State :=
  s.l2Touch (homeDie pa) none (pa / 128) (s.classWays ag.part ag.cls pa) hint dirty

/-- The physical addresses of the entries that a walk reads from the table at a physical address down. -/
def walkPlaces (s : State) (va : Nat) : Nat → Nat → List Nat
  | 0, table => [table + 8 * pteIndex 0 va]
  | l + 1, table =>
    let a := table + 8 * pteIndex (l + 1) va
    let e := s.natAt a 8
    if !pteOk (l + 1) e || pteLeaf (l + 1) e then [a] else a :: s.walkPlaces va l (bitsOf e 47 8 * 256)

/-- The physical addresses of the entries that the walk of an address of an ASID reads, that of the ASID table first (R191, R192). -/
def walkReads (s : State) (p asid va : Nat) : List Nat :=
  if 2 ^ 52 ≤ va then []
  else
    let a := fieldOf (s.part p).asidTable 47 15 * 2 ^ 15 + 8 * asid
    let root := s.natAt a 8
    a :: (if bitOf root 0 then s.walkPlaces va 4 (bitsOf root 47 8 * 256) else [])

/-- The walker reads the entries at the home L2 (R191), as requests of the class of the access that it walks for (R1, R183; LE 83). -/
def walked (s : State) (p : Nat) (cls : Cls) (asid va : Nat) : State :=
  ((s.walkReads p asid va).filter (fun a => a < hbmEnd)).foldl
    (fun s a => s.l2Home { core := none, die := homeDie a, part := p, cls := cls, wid := none, grid := none } a 0 false) s

/-- A core's access of a class has used the translation of an address: its TLB and its cluster's keep it, of 384 and 8,192 entries; where neither
holds it, it was walked for (R191). -/
def keepTlb (s : State) (c p : Nat) (cls : Cls) (asid va : Nat) : State :=
  let cl := Tbl.getD s.ctlb (clusterOf c) []
  let s' := if ((tlbFind (s.core c).tlb p asid va).or (tlbFind cl p asid va)).isSome then s else s.walked p cls asid va
  match s.translate (some c) p asid va with
  | .leaf l =>
    let e : TlbEntry := ⟨p, asid, va / 65536, l.pa / 65536 * 65536, l.x, l.at_, l.wr, l.mirror, l.peer⟩
    if (s.core c).tlb.contains e && cl.contains e then s'
    else { (s'.updCore c (fun k => { k with tlb := s'.tlbPut k.tlb 384 e })).drawn with ctlb := Tbl.put s'.ctlb (clusterOf c) (s'.tlbPut cl 8192 e) }
  | _ => s'

/-- The stamp that a read of a line of HBM returns (R213). -/
def stampAt (s : State) (pa : Nat) : Nat × Nat :=
  match Tbl.find s.stamps (pa / 128) with
  | some st => st
  | none => Tbl.getD s.sliceStamps (homeDie pa * 48 + pa / 128 % 48) (0, 0)

/-- A write crosses the bridge: it is counted by the sender, and by the receiver as it is performed (R213). -/
def crossed (s : State) (die home : Nat) : State :=
  if die == home then s
  else if die == 0 then { s with sent := (s.sent.1 + 1, s.sent.2), applied := (s.applied.1, s.applied.2 + 1) }
  else { s with sent := (s.sent.1, s.sent.2 + 1), applied := (s.applied.1 + 1, s.applied.2) }

/-- Copies a range of HBM of whole lines; the copy of a poisoned line is poisoned. -/
def copyRange (s : State) (src dst n : Nat) : State :=
  let cells := (s.mem.filter (fun e => src ≤ e.1 && e.1 < src + n)).map (fun e => (e.1 - src + dst, e.2))
  let st := (s.stale.filter (fun r => r.lo < src + n && src < r.hi)).map
    (fun r => { r with lo := max r.lo src - src + dst, hi := min r.hi (src + n) - src + dst })
  let bad := (s.poison.filter (fun l => src / 128 ≤ l && l < (src + n) / 128))
    ++ (if s.kettle.fencedPc.isEmpty then [] else ((List.range (n / 128)).map (src / 128 + ·)).filter s.lineLost)
  { s with mem := cells.foldl (fun m e => Memory.put m e.1 e.2) (Memory.clear s.mem dst (dst + n))
           stale := st ++ State.cutStale s.stale dst (dst + n)
           poison := s.poison.filter (fun l => l < dst / 128 || (dst + n) / 128 ≤ l) ++ bad.map (fun l => l - src / 128 + dst / 128)
           kettle := (s.healLines dst n).kettle }

end State

/-- bucket_of of R52. -/
def bucketOf (chip pa : Nat) : Nat :=
  let key := chip % 1024 * 2 ^ 40 + bitsOf pa 47 8
  (List.range 9).foldl (fun b i => b ^^^ bitsOf key (6 * i + 5) (6 * i)) 0

namespace State

/-- plane_of of R52. -/
def planeOf (s : State) (chip pa : Nat) : Nat := s.dev.fabMap.getD (bucketOf chip pa) 0

/-- The flits of a packet with so many bytes (R51): its payload is one of 0, 64, 128 or 256 bytes. -/
def flitsOf (n : Nat) : Nat := if n == 0 then 1 else if n ≤ 64 then 2 else if n ≤ 128 then 3 else 5

/-- Counts flits on a plane under an index of this window: 0 to 15 are the partitions' classes, 16 the CONTROL packets (R62). -/
def noteFlits (s : State) (plane index n : Nat) : State :=
  let s := { s with fab := { s.fab with flits := Tbl.updD s.fab.flits (plane * 17 + index) 0 (· + n) } }
  if s.due .fabWindow then s else s.atTick ((s.reft / 1000 + 1) * 1000) .fabWindow

/-- Counts the flits of a request packet against its partition and class (R62). -/
def countFlits (s : State) (plane part : Nat) (cls : Cls) (n : Nat) : State :=
  s.noteFlits plane (part % 8 * 2 + (if cls == .g then 0 else 1)) n

/-- Sends a CONTROL packet on a plane: it is charged to no partition and no class (R62); each fills one flit, but a map two. -/
def control (s : State) (plane : Nat) (o : Out) : State :=
  (s.noteFlits plane 16 (match o with | .map _ _ _ => 2 | _ => 1)).emit o

/-- The live planes (R70). -/
def livePlanes (s : State) : List Nat := (List.range 8).filter (fun p => s.dev.live.getLsbD p)

/-- Sends a CONTROL packet on every live plane (R65). -/
def broadcast (s : State) (o : Nat → Out) : State := s.livePlanes.foldl (fun s p => s.control p (o p)) s

/-- The chip takes part in a domain, so that its ports are enabled (R49). -/
def joined (s : State) : Bool := s.pkg.power == .on && s.fabEnabled

/-- A bucket's requests are held during a quiesce of its plane (R65). -/
def heldBucket (s : State) (chip pa : Nat) : Bool := s.fab.heldBuckets.contains (bucketOf chip pa)

/-- Watches for requests of a plane that stay unanswered (R64). -/
def watch (s : State) (plane : Nat) : State :=
  if s.due (.fabricRequestTimeout (Fin.ofNat 8 plane)) then s else s.after 100000 (.fabricRequestTimeout (Fin.ofNat 8 plane))

/-- A further WRITE or ATOMIC to a chip waits at the source (R55): earlier ones to it wait, or 4,096 requests or 64 ATOMICs to it are
not acknowledged. -/
def sourceFull (s : State) (chip : Nat) (atomic : Bool) : Bool :=
  let l := s.fab.unacked.filter (fun u => u.chip == chip)
  4096 ≤ l.length || (atomic && 64 ≤ (l.filter (fun u => u.op.isSome)).length) || l.any (fun u => u.held && !s.heldBucket u.chip u.pa)

/-- A READ of a bucket waits at the source: while the ports are not enabled (R49), during a quiesce of its plane, and behind requests of its
bucket that wait (R54, R65). -/
def heldRead (s : State) (chip pa : Nat) : Bool :=
  !s.joined || s.heldBucket chip pa || s.fab.unacked.any (fun u => u.held && u.chip == chip && u.bucket == bucketOf chip pa)

/-- A WRITE or an ATOMIC follows one of its page that left under another generation or was rejected, and is not acknowledged: it waits at the
source, so that the earlier one, sent again, is performed first (R54, R60, R204). `ord` is its place. -/
def behindOld (s : State) (chip : Nat) (page : Option Nat) (gen ord : Nat) : Bool :=
  page.isSome && s.fab.unacked.any (fun u => u.chip == chip && u.page == page && u.ord < ord && (u.rejected || u.gen != gen))

/-- What a WRITE or an ATOMIC looks like on the fabric. -/
def packetOf (u : Unacked) : Out :=
  match u.op, u.coll with
  | some o, _ => .atomic u.chip u.plane u.seq u.page u.gen u.part u.cls u.pa o
  | none, none => .write u.chip u.plane u.seq u.page u.gen u.part u.cls u.pa u.data
  | none, some m => .collWrite u.chip u.plane u.seq u.part u.cls m u.data

/-- The die that made a request: 384 and 385 stand for the Whisks of the two dies, whose nodes have the position of their die (R201). -/
def dieOfReq (c : Nat) : Nat := if c < 384 then dieOf c else c - 384

/-- The bytes of its page that a WRITE or an ATOMIC writes: the first, and the one after the last. -/
def reqSpan (u : Unacked) : Nat × Nat := (u.pa % 65536, u.pa % 65536 + (match u.op with | some o => rmwBytes o | none => u.data.length))

/-- A request of a die writes bytes that an ATOMIC of the die, which is not answered, writes too: the answer of that is then no news of them. -/
def overtakes (u x : Unacked) : Bool :=
  x.op.isSome && u.page.isSome && x.chip == u.chip && x.page == u.page && dieOfReq x.core == dieOfReq u.core
    && (reqSpan u).1 < (reqSpan x).2 && (reqSpan x).1 < (reqSpan u).2

/-- A WRITE or an ATOMIC leaves on its plane. -/
def emitUnacked (s : State) (u : Unacked) : State :=
  ((s.countFlits u.plane u.part u.cls (flitsOf u.data.length)).watch u.plane).emit (packetOf u)

/-- Sends a WRITE or an ATOMIC to another chip (R55, R56): it takes the next sequence number for that chip, joins the core's
outstanding set and the unacknowledged requests, and leaves on its plane unless the quiesce holds its bucket or the ports are not enabled
(R49). The spec states no payload of an ATOMIC: it fills one flit (LE 76). -/
def postWrite (s : State) (ag : Agent) (chip : Nat) (page : Option Nat) (gen pa : Nat) (data : List Byte) (coll : Option CollMsg)
    (op : Option RmwOp) (wid : Option (Nat × Nat)) (job : Option Nat) (at_ : Origin) : State :=
  let held := !s.joined || s.heldBucket chip pa || s.sourceFull chip op.isSome || s.behindOld chip page gen s.nextId
  let u : Unacked := {
    chip := chip, seq := Tbl.getD s.fab.seqOut chip 0 % 2 ^ 32, plane := s.planeOf chip pa, bucket := bucketOf chip pa
    page := page, gen := gen, part := ag.part, cls := ag.cls, pa := pa, data := data, coll := coll, op := op
    core := ag.core.getD (384 + ag.die), wid := wid, job := job, held := held, rejected := false, again := false, faulted := false, passed := false
    at_ := at_, since := s.reft, ord := s.nextId }
  let s := { s with nextId := s.nextId + 1, fab := { s.fab with seqOut := Tbl.put s.fab.seqOut chip (u.seq + 1), unacked := s.fab.unacked.map (fun x => if overtakes u x then { x with passed := true } else x) ++ [u] } }
  let s := match ag.core with
    | none => s
    | some c =>
      let real := !u.mirror || (Tbl.getD (s.core c).outstanding chip (0, false)).2
      s.updCore c (fun k => { k with outstanding := Tbl.put k.outstanding chip (u.ord, real) })
  let s := if u.mirror then
      ({ s with fab := { s.fab with mirrorWait := s.fab.mirrorWait ++ [(ag.part, chip, u.seq, s.reft)] } }).after 1000000
        (.mirrorAckTimeout (Fin.ofNat 8 ag.part))
    else s
  if held then s else s.emitUnacked u

/-- Posts a WRITE of an access, a copy or a mirror duplicate, or an ATOMIC. -/
def sendWrite (s : State) (ag : Agent) (chip : Nat) (page : Option Nat) (gen pa : Nat) (data : List Byte) (op : Option RmwOp)
    (wid : Option (Nat × Nat)) (job : Option Nat) (at_ : Origin) : State :=
  s.postWrite ag chip page gen pa data none op wid job at_

/-- Posts a message of a collective: a WRITE of its agent (R51, R337), numbered, watched and acknowledged like every other (R55, R64). -/
def sendMember (s : State) (ag : Agent) (chip pa : Nat) (data : List Byte) (m : CollMsg) : State :=
  s.postWrite ag chip none 0 pa data (some m) none none none ⟨0, 0, 0, 0, 0⟩


/-- A chip that no request reaches: it was marked unreachable, or the domain is down (R68). -/
def cutOff (s : State) (chip : Nat) : Bool := s.dev.domainDown || s.fab.unreachable.contains chip

/-- Writes of a partition to mirrored pages are duplicated: ENABLE is 1 and mirroring has not failed (R72, R73). -/
def mirrorOn (s : State) (p : Nat) : Bool := fieldOf (s.part p).mirror 31 31 == 1 && fieldOf (s.part p).mirror 30 30 == 0

/-- The mirror duplicate of a write to a mirrored page (R72), unless mirroring is off or broken (R73). No packet goes to a partner that is not
reached (R68): its acknowledgement is missed. -/
def duplicate (s : State) (ag : Agent) (mirror : Bool) (pa : Nat) (bs : List Byte) : State :=
  let m := (s.part ag.part).mirror
  if mirror && s.mirrorOn ag.part then
    if s.cutOff (fieldOf m 9 0) then
      ({ s with fab := { s.fab with mirrorWait := s.fab.mirrorWait ++ [(ag.part, fieldOf m 9 0, 2 ^ 32, s.reft)] } }).after 1000000
        (.mirrorAckTimeout (Fin.ofNat 8 ag.part))
    else s.sendWrite ag (fieldOf m 9 0) none 0 pa bs none none none ⟨0, 0, 0, 0, 0⟩
  else s

/-- A page that is copied or restored as a whole is a write to its mirror too (R72). -/
def duplicatePage (s : State) (ag : Agent) (pa : Nat) : State :=
  (List.range 512).foldl (fun s i => s.duplicate ag true (pa + 128 * i) (s.bytesAt (pa + 128 * i) 128)) s

/-- A page of this chip lies in the snapshot area of a launch. -/
def inSnapArea (s : State) (g : Grid) (page : Nat) : Bool :=
  (List.range g.lrec.snapPages).any (fun i => match s.walk g.part g.asid (g.lrec.snap + 65536 * i) with
    | .leaf l => l.pa / 65536 == page
    | _ => false)

/-- The snapshot of a replay launch (R245): before the first write of one of its agents to a page, the page is copied into the
next free page of the snapshot area. A write to the area itself is not copied; with no free page, the launch is unreplayable. A copy into a mirrored page is
duplicated like every write to it (R72). Only pages of HBM of this chip are copied: a first write through the peer or the host window neither is nor makes the
launch unreplayable, and a page of the area is taken at its leaf's address as HBM of this chip (LE 83). A free page whose translation is not valid holds no copy, so that the launch is unreplayable too
(the spec is silent: LE 81). -/
def snapshot (s : State) (ag : Agent) (mirror : Bool) (pa : Nat) : State :=
  match ag.grid.bind (fun g => Tbl.find s.grids g) with
  | none => s
  | some g0 =>
    match Tbl.find s.grids g0.root with
    | none => s
    | some g =>
      let page := pa / 65536
      if !g.lrec.replay || g.unreplayable then s
      else if g.snaps.any (fun e => e.1 == page) then
        (if mirror then s.updGrid g0.root (fun k => { k with snaps := k.snaps.map (fun e => if e.1 == page then (e.1, e.2.1, true) else e) }) else s)
      else if s.inSnapArea g page then s
      else if g.lrec.snapPages ≤ g.snaps.length then s.updGrid g0.root (fun k => { k with unreplayable := true })
      else
        match s.walk g.part g.asid (g.lrec.snap + 65536 * g.snaps.length) with
        | .leaf l =>
          let to_ := l.pa / 65536 * 65536
          let s := (s.copyRange (page * 65536) to_ 65536).updGrid g0.root (fun k => { k with snaps := k.snaps ++ [(page, to_, mirror)] })
          if l.mirror then s.duplicatePage ag to_ else s
        | _ => s.updGrid g0.root (fun k => { k with unreplayable := true })

/-- A write of an agent performed at its home on this chip (R177, R184, R204, R213, R245), with its mirror duplicate. -/
def writeHome (s : State) (ag : Agent) (mirror : Bool) (pa : Nat) (bs : List Byte) : State :=
  let s := s.snapshot ag mirror pa
  let s := s.crossed ag.die (homeDie pa)
  let s := s.storeHome pa bs
  let s := s.patchCopies ag none pa bs
  s.duplicate ag mirror pa bs

/-- A release write leaves a stamp with its line; in a release sequence the greater of both stays. A line that the L2 does not hold is written
to HBM at once, so that its stamp goes to the slice's high-water stamp (R213). -/
def stampLine (s : State) (pa : Nat) (st : Nat × Nat) (rmw : Bool) : State :=
  let new := if rmw then stampMax st (s.stampAt pa) else st
  if s.l2.any (fun t => t.die == homeDie pa && t.chip.isNone && t.line == pa / 128) then { s with stamps := Tbl.put s.stamps (pa / 128) new }
  else
    let k := homeDie pa * 48 + pa / 128 % 48
    { s with stamps := Tbl.del s.stamps (pa / 128), sliceStamps := Tbl.put s.sliceStamps k (stampMax new (Tbl.getD s.sliceStamps k (0, 0))) }

/-- The line holds poisoned data (R38, R246). -/
def poisoned (s : State) (pa n : Nat) : Bool :=
  s.poison.any (fun l => l * 128 < pa + n && pa < l * 128 + 128)
  || (!s.kettle.fencedPc.isEmpty && (List.range ((pa + n + 127) / 128 - pa / 128)).any (fun i => s.lineLost (pa / 128 + i)))

/-- The ways of the L1 (R115, R177). -/
def l1Ways (s : State) (c : Nat) : Nat := 8 - (s.core c).carve

/-- Puts a line into a core's L1, in one of its 512 sets; where the set is full, a line that the device chooses leaves (R177,
LE 8). -/
def fillL1 (s : State) (c : Nat) (l : Line) : State :=
  let set := (s.core c).l1.filter (fun x => x.pa / 128 % 512 == l.pa / 128 % 512)
  if s.l1Ways c ≤ set.length then
    match set[Config.victim s.fresh % set.length]? with
    | none => s
    | some v => (s.updCore c (fun k => { k with l1 := k.l1.filter (· != v) ++ [l] })).drawn
  else s.updCore c (fun k => { k with l1 := k.l1 ++ [l] })

/-- The copy of a line in a list of lines. -/
def lineIn (ls : List Line) (chip : Option Nat) (pa : Nat) : Option Line := ls.find? (fun l => l.chip == chip && l.pa / 128 == pa / 128)

/-- The copy in the peer ways of a die. -/
def peerCopy (s : State) (die : Nat) (chip : Option Nat) (pa : Nat) : Option Line :=
  lineIn ((s.peerWays.filter (fun e => e.1 == die)).map (fun e => e.2)) chip pa

/-- The line of HBM that an ordinary load of an agent reads: the copy in its core's L1, the copy in the peer ways of its die, or the home
(R177, R184). -/
def lineFor (s : State) (ag : Agent) (pa : Nat) : Line :=
  match ag.core.bind (fun c => lineIn (s.core c).l1 none pa) with
  | some l => l
  | none =>
    match (if homeDie pa == ag.die then none else s.peerCopy ag.die none pa) with
    | some l => l
    | none => ⟨none, pa / 128 * 128, s.bytesAt (pa / 128 * 128) 128, s.stampAt pa, ag.part⟩

/-- A line of the other die or of another chip stays in the peer ways of a die, where the partition has peer ways and the hint allows it
(R176, R184). -/
def keepCopy (s : State) (ag : Agent) (hint : Nat) (l : Line) : State :=
  let mask := fieldOf (s.waysAt ag.part ag.die (l.pa / 128)) 47 32
  if mask == 0 || hint == 3 || (s.peerCopy ag.die l.chip l.pa).isSome then s
  else
    let s := s.l2Touch ag.die l.chip (l.pa / 128) mask hint false
    if s.l2.any (fun t => t.die == ag.die && t.chip == l.chip && t.line == l.pa / 128) then { s with peerWays := s.peerWays ++ [(ag.die, l)] } else s

/-- An ordinary load of a line of HBM leaves it where its hint says: in the home L2, in the peer ways, in the core's L1 (R176, R177, R184). -/
def keepHbm (s : State) (ag : Agent) (hint pa : Nat) : State :=
  match ag.core with
  | none => s
  | some c =>
    if (lineIn (s.core c).l1 none pa).isSome then s
    else
      let l := s.lineFor ag pa
      let s := if homeDie pa != ag.die && (s.peerCopy ag.die none pa).isSome then s else s.l2Home ag pa hint false
      let s := if homeDie pa == ag.die then s else s.keepCopy ag hint l
      if hint == 0 then s.fillL1 c l else s

/-- A strong read of a core has met a later value of a line than its copies may hold: they go (R204). -/
def forgetLine (s : State) (ag : Agent) (chip : Option Nat) (pa : Nat) : State :=
  let s := match ag.core with
    | none => s
    | some c => if (lineIn (s.core c).l1 chip pa).isNone then s
        else s.updCore c (fun k => { k with l1 := k.l1.filter (fun l => !(l.chip == chip && l.pa / 128 == pa / 128)) })
  if (s.peerCopy ag.die chip pa).isNone then s
  else
    let s := { s with l2 := s.l2.filter (fun t => !(t.die == ag.die && t.chip == chip && t.line == pa / 128)) }
    s.dropCopy ag.die chip (pa / 128)

/-- Notes the stamp of a value that a wave has read (R213, R330). -/
def readStamp (s : State) (wid : Option Nat) (st : Nat × Nat) : State :=
  match wid with
  | none => s
  | some w => s.updWave w (fun x => { x with rstamp := stampMax x.rstamp st })

/-- An ordinary load of bytes within one line of HBM on this chip. -/
def loadHbm (s : State) (ag : Agent) (pa n : Nat) : List Byte × State :=
  let l := s.lineFor ag pa
  ((l.bytes.drop (pa % 128)).take n, s.readStamp ag.wid l.stamp)

/-! ## Acquires and releases (R212, R213) -/

/-- Invalidates the L1 of a core (R177). -/
def dropL1 (s : State) (c : Nat) : State := s.updCore c (fun k => { k with l1 := [] })

/-- Drops copies from the peer ways. -/
def dropCopies (s : State) (f : Nat × Line → Bool) : State :=
  let gone := s.peerWays.filter f
  { s with peerWays := s.peerWays.filter (fun e => !f e)
           l2 := s.l2.filter (fun t => !(gone.any (fun e => e.1 == t.die && e.2.chip == t.chip && e.2.pa / 128 == t.line))) }

/-- What an acquire at a scope does for a wave beyond the read itself: at cluster scope or wider the core's L1 is invalidated, at
device scope the die's copies of the other die's lines are dropped too, and at that scope already those of other chips, which R212 asks for at
system scope: a write to another chip that happened before, through links of whatever scopes, is read then (R208, R209, LE 7). A lookup hits a line
whichever partition it was read for (R183), so the copies of every partition go (R209, LE 7). At device scope
or wider the wave has seen the stamp. The wait of R213 is over at once, for every write is performed as it is sent (LE 7). -/
def acquire (s : State) (wid : Nat) (sc : Scope) (st : Nat × Nat) : State :=
  let c := s.coreOf wid
  let d := dieOf c
  let s := if 2 ≤ sc.code then (s.dropL1 c).noKeep (fun x _ _ => x == c || (4 ≤ sc.code && dieOf x == d)) else s
  let s := if 4 ≤ sc.code then s.dropCopies (fun e => e.1 == d) else s
  if 4 ≤ sc.code then s.updWave wid (fun w => { w with seen := stampMax w.seen st, rstamp := (0, 0) }) else s

/-- The stamp of a release of a wave at device scope or wider (R213). -/
def releaseStamp (s : State) (wid : Nat) : Nat × Nat :=
  match Tbl.find s.waves wid with
  | none => (0, 0)
  | some w => if dieOf (s.coreOf wid) == 0 then (s.sent.1, w.seen.2) else (w.seen.1, s.sent.2)

/-- A wave has entries in the side log (R196). -/
def logPending (s : State) (wid : Nat) : Bool := (s.core (s.coreOf wid)).sideLog.any (fun e => e.wid == wid)

/-- The markers that a system-scope fence sends: to every chip of the core's outstanding set, with the place at which it does (R56). -/
def markersTo (s : State) (wid : Nat) : List (Nat × Nat) := (s.core (s.coreOf wid)).outstanding.map (fun e => (e.1, s.nextId))

/-- Sends the markers of a system-scope fence to every chip of the core's outstanding set (R56). -/
def sendMarkers (s : State) (wid : Nat) : State :=
  let c := s.coreOf wid
  let p := s.partOf wid
  let cls := s.clsOf wid
  let to_ := (s.core c).outstanding.map (fun e => e.1)
  to_.foldl (fun s ch => s.livePlanes.foldl (fun s k =>
    let id := s.nextId
    let s := { s with nextId := id + 1, fab := { s.fab with markers := s.fab.markers ++ [MarkerReq.mk id ch k p cls c wid s.reft] } }
    ((s.countFlits k p cls 1).watch k).emit (.marker ch k id p cls)) s) s

/-- No mirror duplicate of the wave's partition waits for its partner (R73). -/
def mirrorQuiet (s : State) (wid : Nat) : Bool :=
  !(s.fab.mirrorWait.any (fun m => m.1 == s.partOf wid && fieldOf (s.part m.1).mirror 30 30 == 0))

/-- A request that a core made before its fence was rejected and is not acknowledged since, so that it is not performed (R56, R60). -/
def rejectedBefore (s : State) (c : Nat) (to_ : List (Nat × Nat)) : Bool :=
  s.fab.unacked.any (fun u => u.core == c && (u.rejected || u.again) && to_.any (fun t => t.1 == u.chip && u.ord < t.2))

/-- What a system-scope release of a wave waits for is over: its markers, a quiesce up to the end of its fourth step (R67), mirror duplicates
(R73), the requests before it that were rejected (R60). -/
def fabricQuiet (s : State) (wid : Nat) (to_ : List (Nat × Nat)) : Bool :=
  (s.dev.qstate == 0 || s.dev.qstate == 4) && !(s.fab.markers.any (fun m => m.wid == wid)) && s.mirrorQuiet wid
    && !(s.rejectedBefore (s.coreOf wid) to_)

/-- A request of the core is held at the source (R55, R65). -/
def heldOut (s : State) (c : Nat) : Bool := s.fab.unacked.any (fun u => u.held && u.core == c)

/-- A WRITE or an ATOMIC of an access of a core to another chip, made before a place among the requests, is not performed at its home yet. -/
def peerOpen (s : State) (c n : Nat) : Bool := s.fab.unacked.any (fun u => u.core == c && u.page.isSome && u.ord < n)

/-- The mark of a release below system scope in place of the chips to which a wider one sends markers: no chip has this number. -/
def noChip : Nat := 1024

/-- What a release that has begun waits for is over. Below system scope that is that the core's earlier writes to other chips are performed at
their homes, where every agent of this chip reads them (R206, R212). -/
def releaseQuiet (s : State) (wid : Nat) (to_ : List (Nat × Nat)) : Bool :=
  if to_.any (fun t => t.1 == noChip) then s.mirrorQuiet wid && !(to_.any (fun t => s.peerOpen (s.coreOf wid) t.2)) else s.fabricQuiet wid to_

/-- What a release at a scope waits for beyond the wave's own side log and the FIFOs: from cluster scope on the core's writes to other chips; at
system scope the markers, which follow every request
of the core, must be acknowledged, and the chips to which the core sent nothing after them leave the outstanding set (R56). `to_` are the
markers that it has sent, or the place at which a narrower release began; it answers whether the release is over, what it waits for from now
on, and the state. -/
def releaseFabric (s : State) (wid : Nat) (sc : Scope) (to_ : List (Nat × Nat)) : Bool × List (Nat × Nat) × State :=
  let c := s.coreOf wid
  if sc.code < 2 then (s.mirrorQuiet wid, [], s)
  else if sc.code < 5 then
    let to_ := if to_.isEmpty then [(noChip, s.nextId)] else to_
    (s.releaseQuiet wid to_, (if s.releaseQuiet wid to_ then [] else to_), s)
  else if to_.isEmpty then
    (if (s.core c).outstanding.isEmpty then (s.fabricQuiet wid [], [], s)
      else if s.heldOut c then (false, [], s) else (false, s.markersTo wid, s.sendMarkers wid))
  else if s.fabricQuiet wid to_ then
    let gone := (to_.filter (fun t => (Tbl.getD (s.core c).outstanding t.1 (0, false)).1 < t.2)).map (fun t => t.1)
    (true, [], s.updCore c (fun k => { k with outstanding := k.outstanding.filter (fun x => !gone.contains x.1) }))
  else (false, to_, s)

/-- A release of the access that a wave has taken up, at a scope (R212): whether it can complete now, and the state. At team scope or wider
the wave's side log must be empty and its stores to relocking cores must have arrived. -/
def release (s : State) (wid : Nat) (sc : Scope) : Bool × State :=
  if sc.code == 0 then (true, s)
  else if s.logPending wid || s.storeQueued wid then (false, s)
  else match Tbl.find s.waves wid with
    | none => (true, s)
    | some w =>
      let r := s.releaseFabric wid sc w.pend.fence
      (r.1, r.2.2.updWave wid (fun w => { w with pend := { w.pend with fence := r.2.1 } }))

end State

end Sys2Proof.Machine
end

