-- ==== Sys2Proof/Machine/Issue.lean ====
section
/-!
DEFINITION. Which instruction runs next: instruction fetch (R189, R190), the PC table (R152), readiness (R153, R156, R314), the
selection of lane groups and uniform instructions (R154, R155, R157), convergence faults (R158), and the plan of one step: the
agenda, or the visit of one issue pipe (LE 1).
-/

namespace Sys2Proof.Machine

/-! ## Fetch -/

/-- The line of the instruction cache that holds an address of an ASID, as it is translated. -/
def Core.iline (k : Core) (p asid pc pa : Nat) : Option ILine :=
  k.icache.find? (fun l => l.part == p && l.asid == asid && l.line == pc / 128 && l.pa == pa / 128 * 128)

namespace State

/-- Fetches one line into its home L2 slice, within the class mask (R183, R379). -/
def fetchL2 (s : State) (p : Nat) (cls : Cls) (pa : Nat) : State :=
  s.l2Touch (homeDie pa) none (pa / 128) (s.classWays p cls pa) 0 false

/-- The physical address of an instruction byte for a core, if its translation is valid and has X (R189). A peer entry and an address that
is not HBM are no place to fetch from (LE 18). -/
def fetchPa (s : State) (c p asid pc : Nat) : Option Nat :=
  match s.translate (some c) p asid pc with
  | .leaf l => if l.x && l.peer.isNone && l.pa < hbmEnd then some l.pa else none
  | _ => none

/-- The line of an instruction byte at a physical address is poisoned, and the instruction cache does not hold it (R246). -/
def badLine (s : State) (c p asid pc pa : Nat) : Bool := ((s.core c).iline p asid pc pa).isNone && s.poisoned pa 1

/-- The fetch of an address meets poison (R246). -/
def fetchPoisoned (s : State) (c p asid pc : Nat) : Bool := (s.fetchPa c p asid pc).any (s.badLine c p asid pc)

/-- Four instruction bytes at an aligned address (R273): from the instruction cache, else from memory; none where they are poisoned. -/
def fetchWord (s : State) (c p asid pc : Nat) : Option (List Byte) :=
  (s.fetchPa c p asid pc).bind (fun pa => match (s.core c).iline p asid pc pa with
    | some l => some ((l.bytes.drop (pc % 128)).take 4)
    | none => if s.poisoned pa 1 then none else some (s.bytesAt pa 4))

/-- Brings the line of an address into the instruction cache for a class of work, and into its home L2 (R183); where the 512 lines of the cache
are full, an unpinned one that the device chooses leaves (R189, LE 8). A poisoned line does not come. -/
def fillI (s : State) (c p : Nat) (cls : Cls) (asid pc : Nat) : State :=
  match s.fetchPa c p asid pc with
  | none => s
  | some pa =>
    if ((s.core c).iline p asid pc pa).isSome || s.poisoned pa 1 then s
    else
    let s := s.fetchL2 p cls pa
    let l : ILine := ⟨asid, p, pc / 128, pa / 128 * 128, s.bytesAt (pa / 128 * 128) 128, []⟩
    let free := (s.core c).icache.filter (fun l => l.pins.isEmpty)
    if (s.core c).icache.length < 512 then s.updCore c (fun k => { k with icache := k.icache ++ [l] })
    else match free[Config.victim s.fresh % free.length]? with
      | none => s
      | some v => (s.updCore c (fun k => { k with icache := k.icache.filter (· != v) ++ [l] })).drawn

/-- The words of the instruction at an address: the word and the literal words it needs. `none` where a byte cannot be fetched or
the address is not a place for an instruction (R189, R275, R285). -/
def fetchInstr (s : State) (c p asid pc : Nat) : Option (List Byte) :=
  if pc % 4 != 0 || 2 ^ 52 ≤ pc then none
  else match s.fetchWord c p asid pc with
    | none => none
    | some w =>
      match litCount (bytesNat w) with
      | 0 => some w
      | 1 => (s.fetchWord c p asid (pc + 4)).map (fun l => w ++ l)
      | _ => match s.fetchWord c p asid (pc + 4), s.fetchWord c p asid (pc + 8) with
        | some l, some h => some (w ++ l ++ h)
        | _, _ => none

/-- The fetch of an instruction leaves its lines in the instruction cache and their translations in the TLBs (R189, R191). -/
def fetched (s : State) (c p : Nat) (cls : Cls) (asid pc n : Nat) : State :=
  let s := (s.keepTlb c p cls asid pc).fillI c p cls asid pc
  if (pc + n - 1) / 128 != pc / 128 then (s.keepTlb c p cls asid (pc + n - 1)).fillI c p cls asid (pc + n - 1) else s

end State

/-- What stands at a thread's program counter: a lane instruction (a fetch fault is met in the lane pipe), a SHFL, which waits for
the whole wave (R314), or a uniform instruction. -/
inductive Stand where
  | lane | shfl | uniform
  deriving DecidableEq, Repr

namespace State

def standAt (s : State) (c p asid pc : Nat) : Stand :=
  if pc % 4 != 0 || 2 ^ 52 ≤ pc then .lane
  else match s.fetchWord c p asid pc with
    | none => .lane
    | some w => if isUniformWord (bytesNat w) then .uniform else if isShflWord (bytesNat w) then .shfl else .lane

/-! ## Readiness -/

/-- The wait of a wave for something of its own is over (R185, R212, R217, R230, R335, R354). -/
def waitEnds (s : State) (wid : Nat) (w : Wave) : Wait → Bool
  | .retry => true
  | .faultQueue => s.fqRoom (s.partOf wid) 1
  | .tags all mask =>
    let ts := (List.range 64).filter (bitOf mask)
    let busy := ts.any (fun t => s.tagOf w.team t == .busy)
    if all then !busy else !busy || ts.any (fun t => s.tagOf w.team t == .set)
  | .chunks all tag word mask =>
    let bits := match Tbl.find s.teams w.team with
      | none => 0
      | some t => bitsOf (Tbl.getD t.chunks tag 0) (64 * word + 63) (64 * word)
    s.tagOf w.team tag != .busy || (if all then bits &&& mask == mask else mask == 0 || bits &&& mask != 0)
  | .busyTag tag => s.tagOf w.team tag != .busy
  | .consumed tag n =>
    s.tagOf w.team tag != .busy || s.jobs.any (fun e => e.2.team == some w.team && e.2.tag == tag && (match fieldAt e.2.card 0 1 with
      | 1 | 2 => true
      | 3 | 4 => n ≤ e.2.read
      | _ => false))
  | .jobs region => !(s.jobs.any (fun e => e.2.wid == some wid && !e.2.sched && (!region || e.2.inRegion)))
  | .release => !s.logPending wid && !s.storeQueued wid && (w.pend.fence.isEmpty || s.releaseQuiet wid w.pend.fence)
  | .children => match Tbl.find s.teams w.team with
    | none => true
    | some t => t.children.length < 256
  | .barrier => w.arrived.isNone
  | .tile t => !(s.jobs.any (fun e => e.2.team == some w.team && !e.2.paused &&
      ((fieldAt e.2.card 0 1 == 3 && bitsOf (fieldAt e.2.card 2 2) 10 7 == t) ||
       (fieldAt e.2.card 0 1 == 4 && (bitsOf (fieldAt e.2.card 2 2) 10 7 == t || bitsOf (fieldAt e.2.card 2 2) 10 7 + 1 == t)))))
  | .spill => !((s.core (s.coreOf wid)).spills.any (fun e => match e.2 with
      | .slab x _ | .gate x _ _ | .back x _ | .home x _ => x == wid
      | .tile t _ | .tileHome t _ => t == w.team))
  | .logged asid page => !((s.core (s.coreOf wid)).sideLog.any (fun e => e.wid == wid && e.asid == asid && e.page == page))
  | .trap | .beside _ _ => true

/-- The wave stands on its core: it is resident, neither evicted nor frozen (R153). -/
def stands (s : State) (w : Wave) : Bool :=
  match Tbl.find s.teams w.team with
  | none => false
  | some t => t.loc == .resident && t.ready && !w.frozen && w.evicted.isNone && !w.lent && !w.retired

/-- The wait of a wave is over: its own, or that of another wave of the group whose instruction is held, while that wave stands at it (R175, R196). -/
def waitOver (s : State) (wid : Nat) (w : Wave) : Wait → Bool
  | .beside v pc => match Tbl.find s.waves v with
    | none => true
    | some x => !s.stands x || x.park != .no || (match (x.pendFor pc).hold with
      | none => true
      | some y => s.waitEnds v { x with pend := x.pendFor pc } y)
  | y => s.waitEnds wid w y

end State

/-- Nothing that an access waits for is outstanding: a page that was resolved with FAIL ends the wait for the others (R199). -/
def Pend.over (p : Pend) : Bool :=
  p.reqs.isEmpty && ((p.pages.isEmpty && p.leases.isEmpty) || p.pages.any (fun x => x.failed))

/-- A load, an atomic or a uniform read of the wave waits for a page (R195). -/
def Wave.pageWaits (w : Wave) : Bool := (w.pend :: w.pends).any (fun p => p.lvl == w.lvl && !p.pages.isEmpty && !(p.pages.any (fun x => x.failed)))

/-- An access of the wave at another address waits for room in the fault queue (R195, R197). -/
def Wave.recordWaits (w : Wave) (pc : Nat) : Bool := (w.pend :: w.pends).any (fun p => p.lvl == w.lvl && p.pc != pc && p.hold == some .faultQueue)

namespace State

/-- An access that a wave has issued at its level is not complete (R223): something of it waits, or has come and is not written yet. One that has found
that it traps completes no more: it performs nothing. -/
def unfinished (w : Wave) (p : Pend) : Bool := !p.over || (p.again && p.lvl == w.lvl && p.hold != some .trap)

/-- The wave can take an instruction boundary: it stands on its core, and every access that it has issued is complete (R223). -/
def atBoundary (s : State) (w : Wave) : Bool := s.stands w && !((w.pend :: w.pends).any (unfinished w))

/-- A claim is under way on the wave's side, and the wave is not of another team of the claiming class: it has stopped (R117, R121). A claim
that waits for the end of a move stops only the team that claims (R133). -/
def claimedSide (s : State) (wid : Nat) (w : Wave) : Bool :=
  s.claims.any (fun c => c.core == s.coreOf wid && c.side == w.side
    && (c.team == w.team || (s.teamCls c.team != s.clsOf wid && !s.moveAt c.core)))

/-- An access that a wave had issued before its eviction and whose answers have come completes (R117, R118). -/
def finishes (s : State) (w : Wave) (pc : Nat) : Bool :=
  let p := w.pendFor pc
  w.evicted.isSome && s.stands { w with evicted := none } && p.again && p.over && p.hold.isNone
    && !(p.lines.isEmpty && p.scr.isEmpty && p.olds.isEmpty)

/-- The wave issues: it stands on its core and is not parked, or what it waits for is over (R153, R156). -/
def issues (s : State) (wid : Nat) (w : Wave) : Bool :=
  s.stands w && !s.claimedSide wid w && (match w.park with
    | .no => true
    | .poll x => s.waitOver wid w x
    | _ => false)

/-- No access of a wave's threads at an address waits: threads at other addresses are not held by it (R153, R161), unless it waits for a page or to
tell of its fault, as the whole wave then does (R195). Threads that come to the address meanwhile are held with it (LE 74). -/
def freeAt (s : State) (wid : Nat) (w : Wave) (pc : Nat) : Bool :=
  let p := w.pendFor pc
  p.over && !w.pageWaits && !w.recordWaits pc && (match p.hold with
    | none => true
    | some x => s.waitOver wid { w with pend := p } x)

/-- The waves on a side of a core, in rising order of team and wave number. -/
def sideWaves (s : State) (c side : Nat) : List (Nat × Wave) :=
  s.waves.filter (fun e => e.2.side == side && (match Tbl.find s.teams e.2.team with
    | none => false
    | some t => t.core == c && t.loc == .resident))

end State

/-- The physical lanes of a wave's non-exited threads. -/
def Wave.lanes (w : Wave) : List Nat :=
  (List.range w.threads.length).filter (fun i => match w.threads[i]? with | none => false | some t => !t.exited)

/-- The program counter of a lane. -/
def Wave.pcOf (w : Wave) (lane : Nat) : Nat := (w.threads.getD lane ⟨0, none, true, 0, none⟩).pc

namespace State

/-! ## The PC table (R152) -/

def side (s : State) (c side : Nat) : Side := if side == 0 then (s.core c).side0 else (s.core c).side1

def setSide (s : State) (c side : Nat) (x : Side) : State :=
  s.updCore c (fun k => if side == 0 then { k with side0 := x } else { k with side1 := x })

/-- Gives the lowest free entry to a pair. -/
def allot (tab : List (Option PcEntry)) (t pc : Nat) : List (Option PcEntry) :=
  match tab with
  | [] => []
  | none :: r => some ⟨t, pc, 0⟩ :: r
  | some x :: r => some x :: allot r t pc

/-- Allocates free entries to waiting pairs: the longest waiting first, G ahead of H, at most 56 entries to a class (R152). -/
def allotAll (s : State) : Nat → List (Option PcEntry) → List (Nat × Nat) → List (Option PcEntry) × List (Nat × Nat)
  | 0, tab, ws => (tab, ws)
  | n + 1, tab, ws =>
    if tab.all (fun e => e.isSome) then (tab, ws)
    else
      let okG := s.heldBy tab .g < 56
      let okH := s.heldBy tab .h < 56
      match (if okG then ws.find? (fun p => s.teamCls p.1 == .g) else none) with
      | some p => s.allotAll n (allot tab p.1 p.2) (ws.filter (· != p))
      | none => match (if okH then ws.find? (fun p => s.teamCls p.1 == .h) else none) with
        | some p => s.allotAll n (allot tab p.1 p.2) (ws.filter (· != p))
        | none => (tab, ws)

/-- The waves on a side of a core with those of a team that is moving away from it: the team's entries go with it (R166). -/
def listedWaves (s : State) (c side : Nat) : List (Nat × Wave) :=
  s.waves.filter (fun e => e.2.side == side && (match Tbl.find s.teams e.2.team with
    | none => false
    | some t => t.core == c && t.loc != .saved))

/-- Brings a side's PC table in line with its threads (R152): entries at which no thread stands are freed, then waiting pairs are
listed. Of several pairs that arise in one cycle the lower wave's is taken first, and of one wave the lower lane's (LE 81). -/
def listed (s : State) (c side : Nat) : Side :=
  let x := s.side c side
  let pairs := dedup ((s.listedWaves c side).flatMap (fun e => e.2.lanes.map (fun l => (e.2.team, e.2.pcOf l))))
  let tab := x.table.map (fun e => match e with
    | none => none
    | some y => if pairs.contains (y.team, y.pc) then some y else none)
  let has := fun (p : Nat × Nat) => tab.any (fun e => match e with | none => false | some y => y.team == p.1 && y.pc == p.2)
  let old := x.waiting.filter (fun p => pairs.contains p && !has p)
  let new := pairs.filter (fun p => !has p && !old.contains p)
  let r := s.allotAll 64 tab (old ++ new)
  { x with table := r.1, waiting := r.2 }

/-! ## Lane groups (R153 to R155, R314) -/

/-- The wave is whole at one address: every non-exited thread stands there. -/
def wholeAt (w : Wave) (pc : Nat) : Bool := w.threads.all (fun t => t.exited || t.pc == pc)

/-- The ready lanes of a wave for the lane pipe: those at a lane instruction, and those at a SHFL at which the whole wave stands, where no
access waits; of an evicted wave, those at an access whose answers have come. -/
def readyLanes (s : State) (c p : Nat) (e : Nat × Wave) : List Nat :=
  if s.issues e.1 e.2 then
    e.2.lanes.filter (fun l => s.freeAt e.1 e.2 (e.2.pcOf l) &&
      match s.standAt c p e.2.asid (e.2.pcOf l) with
      | .lane => true
      | .shfl => wholeAt e.2 (e.2.pcOf l)
      | .uniform => false)
  else e.2.lanes.filter (fun l => s.finishes e.2 (e.2.pcOf l) && s.standAt c p e.2.asid (e.2.pcOf l) == .lane)

/-- The ready threads of a side: wave, lane, team, program counter. -/
def readyThreads (s : State) (c side : Nat) : List (Nat × Nat × Nat × Nat) :=
  (s.sideWaves c side).flatMap (fun e => (s.readyLanes c (s.partOf e.1) e).map (fun l => (e.1, l, e.2.team, e.2.pcOf l)))

/-- The ready group of an entry: its waves in ascending order, each lane taken once (R154). A SHFL's group is the threads of one
wave (R314), and waves whose words at the address are of different address spaces form no group (R161, R235). -/
def groupOf (s : State) (c side : Nat) (ready : List (Nat × Nat × Nat × Nat)) (e : PcEntry) : Group :=
  let at_ := ready.filter (fun r => r.2.2.1 == e.team && r.2.2.2 == e.pc)
  let first := (at_.head?.map (fun r => r.1)).getD 0
  let shfl := match Tbl.find s.waves first with
    | none => false
    | some w => s.standAt c (s.partOf first) w.asid e.pc == .shfl
  let asid := fun (wid : Nat) => (Tbl.find s.waves wid).map (fun w => w.asid)
  let mem := at_.foldl (fun acc r =>
    if (shfl && r.1 != first) || asid r.1 != asid first || acc.any (fun m => m.2 == r.2.1) then acc else acc ++ [(r.1, r.2.1)]) []
  ⟨c, side, e.pc, mem⟩

/-- The entry of a side that is selected, and whether it is promoted by its age (R155). -/
def pickEntry (s : State) (x : Side) (cand : List (Nat × PcEntry)) : Option ((Nat × PcEntry) × Bool) :=
  let hs := cand.filter (fun e => s.teamCls e.2.team == .h)
  let gs := cand.filter (fun e => s.teamCls e.2.team == .g)
  let pool := if 255 ≤ x.hWait && !hs.isEmpty then hs else if !gs.isEmpty then gs else cand
  let prom := pool.filter (fun e => 1024 ≤ e.2.age)
  let slotOf := fun (t : Nat) => match Tbl.find s.teams t with | none => 0 | some k => k.slot
  if !prom.isEmpty then (leastBy (fun e => 2 ^ 64 - e.2.age) prom).map (fun e => (e, true))
  else (leastBy (fun e => ((slotOf e.2.team + 64 - (x.lastTeam + 1)) % 64) * 2 ^ 64 + e.2.pc) pool).map (fun e => (e, false))

/-- The core cycles since a pipe counted last, at least the one of its visit (R155, LE 27). -/
def sinceClk (s : State) (c clk : Nat) : Nat := max 1 ((s.hob (hobOf c)).clk - clk)

/-- The lane group that a side issues, and the side's issue logic after the choice (R155). -/
def selectLane (s : State) (c side : Nat) : Option Group × Side :=
  let x := s.listed c side
  let d := s.sinceClk c x.clk
  let x := { x with clk := (s.hob (hobOf c)).clk }
  let ready := s.readyThreads c side
  let cand := (List.range 64).filterMap (fun i => match x.table[i]? with
    | some (some e) => if ready.any (fun r => r.2.2.1 == e.team && r.2.2.2 == e.pc) then some (i, e) else none
    | _ => none)
  let anyH := cand.any (fun e => s.teamCls e.2.team == .h)
  match s.pickEntry x cand with
  | none => (none, { x with hWait := 0 })
  | some ((i, e), prom) =>
    let isH := s.teamCls e.team == .h
    let tab := (List.range 64).map (fun j => match x.table[j]? with
      | some (some y) => if j == i then some { y with age := 0 } else if cand.any (fun z => z.1 == j) then some { y with age := y.age + d } else some y
      | _ => none)
    let slot := match Tbl.find s.teams e.team with | none => 0 | some k => k.slot
    (some (s.groupOf c side ready e), { x with
      table := tab
      lastTeam := if prom then x.lastTeam else slot
      hWait := if isH || !anyH then 0 else x.hWait + d })

/-! ## Uniform instructions (R156 to R158) -/

/-- The wave's uniform instruction is issuable: every non-exited thread waits at it (R156). -/
def uniformReady (s : State) (c p : Nat) (e : Nat × Wave) : Bool :=
  s.issues e.1 e.2 && (match e.2.lanes with
    | [] => false
    | l :: _ => wholeAt e.2 (e.2.pcOf l) && s.freeAt e.1 e.2 (e.2.pcOf l) && s.standAt c p e.2.asid (e.2.pcOf l) == .uniform)

/-- Every non-exited thread waits at a uniform instruction or a SHFL, but not all at the same address (R158). -/
def split (s : State) (c p : Nat) (w : Wave) : Bool :=
  s.atBoundary w && w.park == .no && (match w.lanes with
    | [] => false
    | l :: ls => !wholeAt w (w.pcOf l) && (l :: ls).all (fun i => s.standAt c p w.asid (w.pcOf i) != .lane))

/-- Takes UNIFORM_SPLIT for every wave of a side that it meets (R158). -/
def splitTraps (s : State) (c side : Nat) : State :=
  (s.sideWaves c side).foldl (fun s e => if s.split c (s.partOf e.1) e.2 then s.takeTrap e.1 0x12 0xFF false none none else s) s

/-- The wave whose uniform instruction a side issues, and the issue logic after the choice (R157): G before H but for the H floor,
the longest issuable first. -/
def selectUniform (s : State) (c side : Nat) : Option (Nat × Wave) × Side :=
  let x := s.side c side
  let d := s.sinceClk c x.uClk
  let x := { x with uClk := (s.hob (hobOf c)).clk }
  let cand := (s.sideWaves c side).filter (fun e => s.uniformReady c (s.partOf e.1) e)
  let hs := cand.filter (fun e => s.clsOf e.1 == .h)
  let gs := cand.filter (fun e => s.clsOf e.1 == .g)
  let pool := if 255 ≤ x.uWait && !hs.isEmpty then hs else if !gs.isEmpty then gs else cand
  match leastBy (fun (e : Nat × Wave) => (2 ^ 64 - (if e.2.ready.1 == e.2.lowestPc then e.2.ready.2 else 0)) * 64 + e.2.slot) pool with
  | none => (none, { x with uWait := 0 })
  | some e => (some e, { x with uWait := if s.clsOf e.1 == .h || hs.isEmpty then 0 else x.uWait + d })

/-- The uniform instructions that stay issuable wait `d` core cycles more; a wave that stands at no issuable one begins anew (R157). -/
def ageUniform (s : State) (c side d : Nat) (chosen : Option Nat) : State :=
  (s.sideWaves c side).foldl (fun s e =>
    let pc := e.2.lowestPc
    if some e.1 != chosen && s.uniformReady c (s.partOf e.1) e then
      s.updWave e.1 (fun w => { w with ready := (pc, (if w.ready.1 == pc then w.ready.2 else 0) + d) })
    else if e.2.ready == (0, 0) then s
    else s.updWave e.1 (fun w => { w with ready := (0, 0) })) s

/-! ## Causes that wait for a boundary (R222) -/

/-- A wave is to take UNIFORM_SPLIT, and no cause that waits has a lower code (R222). -/
def splitFirst (s : State) (c p : Nat) (w : Wave) : Bool :=
  s.split c p w && (w.nextAsync.map (fun a => a.1)).all (0x12 < ·) && (w.nextDeferred.map (fun d => d.code)).all (0x12 < ·)

/-- A wave of a side takes a cause that waits (R222): a deferred cause at once; an asynchronous cause at once where the wave has
no instruction to issue, else as `overtaken` says. A wave stopped at YIELD takes no asynchronous cause (R225). -/
def deliverable (s : State) (c side : Nat) : Option (Nat × Nat) :=
  ((s.sideWaves c side).find? (fun e =>
    s.atBoundary e.2 && !s.splitFirst c (s.partOf e.1) e.2 && (e.2.nextDeferred.isSome ||
      (e.2.nextAsync.isSome && e.2.park != .yielded && !(s.uniformReady c (s.partOf e.1) e)
        && (s.readyLanes c (s.partOf e.1) e).isEmpty)))).map (fun e => (c, e.2.slot))

/-- A wave whose things are lent has become ready, as after the end of its SLEEP (R121). -/
def lentReady (s : State) (w : Wave) : Bool :=
  !w.frozen && (w.nextDeferred.isSome || w.nextAsync.isSome || (match w.park with
    | .no => true
    | .sleep t => decide (t ≤ s.reft)
    | _ => false))

/-- A wave of a side whose things are lent and that has become ready: it claims them back (R121). -/
def reclaimable (s : State) (c side : Nat) : Option (Nat × Nat) :=
  if s.moveAt c then none
  else ((s.sideWaves c side).find? (fun e => e.2.lent && !e.2.retired && s.lentReady e.2)).map (fun e => (c, e.2.slot))

/-! ## The plan of a step -/

end State

/-- The pipe after this one: the pipes of a side, the sides of a core, the cores in turn (LE 1). -/
def Cursor.next (k : Cursor) : Cursor :=
  if !k.uniform then { k with uniform := true }
  else if k.side == 0 then ⟨k.core, 1, false⟩
  else ⟨if k.core + 1 < 384 then k.core + 1 else 0, 0, false⟩

namespace State

/-- An instruction of a wave that waits is tried again: the core has accepted it before. -/
def retried (w : Wave) (pc : Nat) : Bool :=
  (match w.park with | .poll _ => true | _ => false) || (w.pendFor pc).live

/-- The group is accepted: the core counts it when it accepts it first, and its waves carry that count (R197). -/
def accept (s : State) (g : Group) : State :=
  let ws := dedup (g.mem.map (fun m => m.1))
  let s := if ws.all (fun w => (Tbl.find s.waves w).any (fun x => retried x g.pc)) then s else s.counted g.core
  let n := (s.core g.core).issued.toNat
  ws.foldl (fun s w => s.updWave w (fun x =>
    let id := if retried x g.pc then (x.pendFor g.pc).id else n
    let y := x.takeUp g.pc
    { y with
      pend := { y.pend with id := id, hold := none }
      issueId := id
      parkClk := none
      park := match x.park with | .poll _ => .no | p => p })) { s with cur := some g }

/-- The instruction at the head of a group, fetched and decoded; a word that is not an instruction is ILLEGAL_OP, a byte that
cannot be fetched FETCH_FAULT (R285). -/
def instrAt (s : State) (c p asid pc : Nat) : Instr × Nat :=
  match s.fetchInstr c p asid pc with
  | none => (.fetchFault, 0)
  | some bs => match decodeBytes bs with
    | .ok (i, n) => (i, n)
    | .error _ => (.illegalOp, 4)

/-- The instruction of a group, and the state in which it runs. -/
def dispatch (s : State) (g : Group) : Option Instr × State :=
  match g.mem with
  | [] => (none, s)
  | m :: _ =>
    match Tbl.find s.waves m.1 with
    | none => (none, s)
    | some w =>
      let r := s.instrAt g.core (s.partOf m.1) w.asid g.pc
      (some r.1, (s.fetched g.core (s.partOf m.1) (s.clsOf m.1) w.asid g.pc r.2).accept g)

/-- The visit of a lane pipe. -/
def visitLane (s : State) (c side : Nat) : Option Instr × State :=
  let r := s.selectLane c side
  let s := s.setSide c side r.2
  match r.1 with
  | none => (none, s)
  | some g => s.dispatch g

/-- The visit of a uniform pipe. -/
def visitUniform (s : State) (c side : Nat) : Option Instr × State :=
  let s := s.splitTraps c side
  let d := s.sinceClk c (s.side c side).uClk
  let r := s.selectUniform c side
  let s := (s.setSide c side r.2).ageUniform c side d (r.1.map (fun e => e.1))
  match r.1 with
  | none => (none, s)
  | some e =>
    match e.2.lanes with
    | [] => (none, s)
    | l :: ls => s.dispatch ⟨c, side, e.2.pcOf l, (l :: ls).map (fun i => (e.1, i))⟩

/-- The visit of the pipe under the cursor, which moves on: time passes (LE 2), then a waiting cause or an instruction. -/
def visit (s : State) : Option Instr × State :=
  let k := s.cursor
  let s := { (s.elapse (Config.elapsed s.fresh)).drawn with cursor := k.next, cur := none }
  if !s.coreRuns k.core then (none, s)
  else match s.deliverable k.core k.side with
    | some d => (some (.asyncCauseDelivery d.1 d.2), s)
    | none => match s.reclaimable k.core k.side with
      | some d => (some (.lendReclaim d.1 d.2), s)
      | none => if k.uniform then s.visitUniform k.core k.side else s.visitLane k.core k.side

/-- What the next step runs, and in which state: the head of the agenda once its tick has come, else what the visit of the pipe
under the cursor finds (LE 1). -/
def plan (s : State) : Option Instr × State :=
  match s.agenda with
  | (t, i) :: rest => if t ≤ s.reft then (some i, { s with agenda := rest, cur := none }) else s.visit
  | [] => s.visit

/-- The launch of a wave that stood in `s` is killed in `t` (R227). -/
def killedIn (s t : State) (w : Wave) : Bool :=
  match (Tbl.find s.teams w.team).bind (fun k => Tbl.find s.grids k.grid) with
  | none => false
  | some g => match Tbl.find t.grids g.root with
    | none => true
    | some k => k.killed

/-- The cause code of a kill of a wave's launch, as its record of the system queue tells (R228); 0 for a kill that no trap led to, which happens
at once (R246), and where no record is written. -/
def killCode (s t : State) (wid : Nat) (w : Wave) : Nat :=
  let q := (s.part (s.partOf wid)).sq
  let c := fieldAt (t.bytesAt q.slotPa 32) 0x10 4
  if q.enabled && 0 < q.room && c != w.cause.toNat then c % 256 else 0

/-- An instruction took a cause of a lower code for a wave: the launch is killed, the wave is in its handler, or its call has aborted. A wave that
has retired took none. -/
def tookLower (s t : State) (wid : Nat) (w : Wave) (code : Nat) : Bool :=
  match Tbl.find t.waves wid with
  | none => s.killedIn t w && s.killCode t wid w < code
  | some x => (x.inh && fieldOf x.cause 7 0 < code)
      || (x.depth < w.depth && 2 ^ 63 ≤ (Tbl.getD x.s 0 0).toNat && (Tbl.getD x.s 0 0).toNat % 2 ^ 63 < code)

/-- The asynchronous cause that is taken in place of what a group's instruction did (R222): one of a wave of the group that is
due at this boundary, unless the instruction took a cause of a lower code for that wave. -/
def overtaken (s : State) (r : Host.Outcome State Fault Refusal) : Option (Nat × Nat) :=
  match s.cur, r with
  | some g, .next t =>
    ((dedup (g.mem.map (fun m => m.1))).findSome? (fun wid =>
      match Tbl.find s.waves wid with
      | none => none
      | some w => match w.nextAsync with
        | none => none
        | some a =>
          if s.tookLower t wid w a.1 || !s.atBoundary w then none else some (g.core, w.slot)))
  | _, _ => none

/-- An instruction made a wave take a trap: the wave has entered its handler, or froze in it, or its call has aborted. -/
def trapped (w x : Wave) : Bool :=
  (x.inh && !w.inh) || (x.frozen && !w.frozen)
    || (x.depth < w.depth && 2 ^ 63 ≤ (Tbl.getD x.s 0 0).toNat)

/-- An instruction would make a wave of its group take a trap while accesses of the wave's other groups, which have issued, are not complete:
these complete first (R223). -/
def trapsEarly (s : State) (r : Host.Outcome State Fault Refusal) : Bool :=
  match s.cur, r with
  | some g, .next t => g.mem.any (fun m => match Tbl.find s.waves m.1, Tbl.find t.waves m.1 with
    | some w, some x => w.pends.any (unfinished w) && trapped w x
    | _, _ => false)
  | _, _ => false

/-- The instruction of the group is tried again, having performed nothing; in the waves that it makes take a trap only that is left of it. -/
def tryAgain (s : State) (r : Host.Outcome State Fault Refusal) : State :=
  let traps := fun (wid : Nat) (w : Wave) => match r with
    | .next t => (Tbl.find t.waves wid).any (trapped w)
    | _ => false
  match s.cur with
  | none => s
  | some g => (dedup (g.mem.map (fun m => m.1))).foldl (fun s wid => s.updWave wid (fun w =>
      { w with pend := { w.pend with hold := some (if traps wid w then .trap else .retry) } })) s

end State

end Sys2Proof.Machine
end

