-- ==== Sys2Proof/Machine/Flags.lean ====
section
/-!
DEFINITION. Rounding modes and the arithmetic flags (R258, R259): a set of flags is a number whose bits are in the order of
sr.fmode.FLAGS.
-/

namespace Sys2Proof.Machine

/-- Rounding modes: the four of sr.fmode, and stochastic rounding with its random operand (R258, R264). -/
inductive Rnd where
  | rne | rz | rd | ru
  | sr (u : Nat)
  deriving DecidableEq, Repr

/-- The flags of R258 as bits: invalid, divide by zero, overflow, underflow, inexact. -/
def flInvalid : Nat := 1
def flDivZero : Nat := 2
def flOverflow : Nat := 4
def flUnderflow : Nat := 8
def flInexact : Nat := 16

/-- sr.fmode.RMODE (R258). -/
def rmodeOf (fmode : Word) : Rnd :=
  match fieldOf fmode 2 0 with
  | 1 => .rz
  | 2 => .rd
  | 3 => .ru
  | _ => .rne

/-- The mode that a rounding code of FRND or CVT names (R281). -/
def Rnd.ofCode (fmode : Word) : RoundCode → Rnd
  | .fmode => rmodeOf fmode
  | .rne => .rne
  | .rz => .rz
  | .rd => .rd
  | .ru => .ru

/-- sr.fmode after flags are raised (R259). -/
def raiseFlags (fmode : Word) (fl : Nat) : Word := setField fmode 20 16 (fieldOf fmode 20 16 ||| fl)

/-- One of the flags is enabled in sr.fmode.TRAPEN (R259). -/
def flagsTrap (fmode : Word) (fl : Nat) : Bool := fieldOf fmode 12 8 &&& fl != 0

end Sys2Proof.Machine
end

