-- ==== Sys2Proof/Machine/Float.lean ====
section
/-!
DEFINITION. Number formats (R248 to R252): decoding, rounding to a format with its flags (R260, R262, R264), and the exact
operations of lane arithmetic (R303 to R307). A magnitude is a dyadic number m × 2^e. An irrational or non-dyadic result is
first brought to a dyadic number of far more bits than any format keeps, whose lowest bit says that more follows; rounding that
number gives the same bits and flags as rounding the exact result.
-/

namespace Sys2Proof.Machine

/-- Which special values a format has (R248). -/
inductive FKind where
  | ieee | e4m3 | finite
  deriving DecidableEq, Repr

/-- A format: exponent bits, fraction bits, special values. The bias is 2^(eb − 1) − 1 for every format of R248. -/
structure FFmt where
  eb : Nat
  mb : Nat
  kind : FKind
  deriving DecidableEq, Repr

namespace FFmt
def f64 : FFmt := ⟨11, 52, .ieee⟩
def f32 : FFmt := ⟨8, 23, .ieee⟩
def bf16 : FFmt := ⟨8, 7, .ieee⟩
def f16 : FFmt := ⟨5, 10, .ieee⟩
def e4m3 : FFmt := ⟨4, 3, .e4m3⟩
def e5m2 : FFmt := ⟨5, 2, .ieee⟩
def e2m3 : FFmt := ⟨2, 3, .finite⟩
def e3m2 : FFmt := ⟨3, 2, .finite⟩
def e2m1 : FFmt := ⟨2, 1, .finite⟩

/-- The format of an element code of R248; code 8 is no floating-point format. -/
def ofCode : Nat → FFmt
  | 0 => f32
  | 1 => bf16
  | 2 => f16
  | 3 => e4m3
  | 4 => e5m2
  | 5 => e2m3
  | 6 => e3m2
  | _ => e2m1

def bias (f : FFmt) : Nat := 2 ^ (f.eb - 1) - 1
def bits (f : FFmt) : Nat := f.eb + f.mb + 1
/-- The exponent of the smallest normal. -/
def emin (f : FFmt) : Int := 1 - (f.bias : Int)

/-- The bits of the largest finite magnitude (R249). -/
def maxBits (f : FFmt) : Nat :=
  match f.kind with
  | .ieee => (2 ^ f.eb - 1) * 2 ^ f.mb - 1
  | .e4m3 => 2 ^ (f.eb + f.mb) - 2
  | .finite => 2 ^ (f.eb + f.mb) - 1

/-- The bits of +∞, where the format has it. -/
def infBits (f : FFmt) : Nat := (2 ^ f.eb - 1) * 2 ^ f.mb

/-- The canonical NaN (R251); a format without NaN has none, and its conversions give +0 (R262). -/
def nanBits (f : FFmt) : Nat :=
  match f.kind with
  | .ieee => (2 ^ f.eb - 1) * 2 ^ f.mb + 2 ^ (f.mb - 1)
  | .e4m3 => 2 ^ (f.eb + f.mb) - 1
  | .finite => 0

/-- The sign bit. -/
def signBit (f : FFmt) (neg : Bool) : Nat := if neg then 2 ^ (f.eb + f.mb) else 0
end FFmt

/-- A decoded value: a NaN (signalling or not), an infinity, or ± m × 2^e. -/
inductive FVal where
  | nan (signalling : Bool)
  | inf (neg : Bool)
  | fin (neg : Bool) (m : Nat) (e : Int)
  deriving DecidableEq, Repr

/-- Decodes an encoding (R248, R251). -/
def FFmt.decode (f : FFmt) (x : Nat) : FVal :=
  let neg := bitOf x (f.eb + f.mb)
  let e := x / 2 ^ f.mb % 2 ^ f.eb
  let m := x % 2 ^ f.mb
  let top := e == 2 ^ f.eb - 1
  if f.kind == .ieee && top then
    (if m == 0 then .inf neg else .nan (!bitOf m (f.mb - 1)))
  else if f.kind == .e4m3 && top && m == 2 ^ f.mb - 1 then .nan false
  else if e == 0 then .fin neg m (f.emin - f.mb)
  else .fin neg (2 ^ f.mb + m) ((e : Int) - f.bias - f.mb)

/-- The value is a signalling NaN. -/
def FVal.snan : FVal → Bool
  | .nan sg => sg
  | _ => false

/-- The value is a NaN. -/
def FVal.isNan : FVal → Bool
  | .nan _ => true
  | _ => false

/-- The invalid flag of signalling operands (R251, R259). -/
def snanFlag (l : List FVal) : Nat := if l.any FVal.snan then flInvalid else 0

/-- Whether a magnitude q + rem / 2^sh is rounded up to q + 1. -/
def roundsUp (mode : Rnd) (neg : Bool) (q rem sh : Nat) : Bool :=
  match mode with
  | .rne => 2 ^ sh < 2 * rem || (2 * rem == 2 ^ sh && q % 2 == 1)
  | .rz => false
  | .rd => neg && rem != 0
  | .ru => !neg && rem != 0
  | .sr u => u < rem * 2 ^ 32 / 2 ^ sh

/-- m × 2^e rounded to a multiple of 2^u: the multiple, and whether it is inexact. -/
def roundAt (mode : Rnd) (neg : Bool) (m : Nat) (e u : Int) : Nat × Bool :=
  if u ≤ e then (m * 2 ^ (e - u).toNat, false)
  else
    let sh := (u - e).toNat
    let q := m / 2 ^ sh
    let rem := m % 2 ^ sh
    (if roundsUp mode neg q rem sh then q + 1 else q, rem != 0)

/-- The outcome of an overflow (R260, R262). -/
def FFmt.overflow (f : FFmt) (mode : Rnd) (sat neg : Bool) : Nat × Nat :=
  let fl := flOverflow ||| flInexact
  let big := f.signBit neg + f.maxBits
  let inf := f.signBit neg + f.infBits
  match f.kind with
  | .finite => (big, fl)
  | .e4m3 => if sat then (big, fl) else (f.nanBits, fl ||| flInvalid)
  | .ieee =>
    if sat then (big, fl)
    else match mode with
      | .rne => (inf, fl)
      | .rz => (big, fl)
      | .rd => (if neg then inf else big, fl)
      | .ru => (if neg then big else inf, fl)
      | .sr _ => (inf, fl)

/-- ± m × 2^e rounded once to a format: its bits and the flags raised (R259, R260, R262, R264). -/
def FFmt.round (f : FFmt) (mode : Rnd) (sat neg : Bool) (m : Nat) (e : Int) : Nat × Nat :=
  if m == 0 then (f.signBit neg, 0)
  else
    let top : Int := (m.log2 : Int) + e
    let u := max top f.emin - f.mb
    let r := roundAt mode neg m e u
    let mag := ((u + f.mb + f.bias - 1).toNat) * 2 ^ f.mb + r.1
    if f.maxBits < mag then f.overflow mode sat neg
    else
      let free := roundAt mode neg m e (top - f.mb)
      let tiny := top < f.emin && !(top == f.emin - 1 && free.1 == 2 ^ (f.mb + 1))
      (f.signBit neg + mag, (if r.2 then flInexact else 0) ||| (if r.2 && tiny then flUnderflow else 0))

/-- Any value to a format (R262): the bits and flags; a signalling NaN raises invalid besides. -/
def FFmt.ofVal (f : FFmt) (mode : Rnd) (sat : Bool) : FVal → Nat × Nat
  | .nan sg => (f.nanBits, (if sg then flInvalid else 0) ||| (if f.kind == .finite then flInvalid else 0))
  | .inf neg =>
    match f.kind with
    | .ieee => (f.signBit neg + f.infBits, 0)
    | .e4m3 => (if sat then f.signBit neg + f.maxBits else f.nanBits, flInvalid)
    | .finite => (f.signBit neg + f.maxBits, flInvalid)
  | .fin neg m e => f.round mode sat neg m e

/-- The canonical NaN with the flags of an invalid operation. -/
def FFmt.invalid (f : FFmt) : Nat × Nat := (f.nanBits, flInvalid)

/-! ## Sums and products -/

/-- The signed numerator of ± m × 2^e in units of 2^u, for u ≤ e. -/
def unitsOf (neg : Bool) (m : Nat) (e u : Int) : Int :=
  let x : Int := (m * 2 ^ (e - u).toNat : Nat)
  if neg then -x else x

/-- An exact sum of two finite values: sign, magnitude and exponent. The sign of an exact zero is that of both operands where they
agree, else + but under rounding down (PRESUMED: IEEE 754-2019, LE 20). -/
def addVal (mode : Rnd) (n1 : Bool) (m1 : Nat) (e1 : Int) (n2 : Bool) (m2 : Nat) (e2 : Int) : Bool × Nat × Int :=
  let u := min e1 e2
  let x := unitsOf n1 m1 e1 u + unitsOf n2 m2 e2 u
  if x == 0 then (if n1 == n2 && m1 == 0 && m2 == 0 then n1 else mode == .rd, 0, u)
  else (x < 0, x.natAbs, u)

/-- a + b (R260, R303). -/
def FFmt.add (f : FFmt) (mode : Rnd) (a b : FVal) : Nat × Nat :=
  match a, b with
  | .fin n1 m1 e1, .fin n2 m2 e2 =>
    let r := addVal mode n1 m1 e1 n2 m2 e2
    f.round mode false r.1 r.2.1 r.2.2
  | .inf n1, .inf n2 => if n1 == n2 then (f.signBit n1 + f.infBits, 0) else f.invalid
  | .inf n, .fin _ _ _ => (f.signBit n + f.infBits, 0)
  | .fin _ _ _, .inf n => (f.signBit n + f.infBits, 0)
  | _, _ => (f.nanBits, snanFlag [a, b])

/-- The value with the other sign. -/
def FVal.neg : FVal → FVal
  | .nan sg => .nan sg
  | .inf n => .inf (!n)
  | .fin n m e => .fin (!n) m e

/-- The sign of a number. -/
def FVal.isNeg : FVal → Bool
  | .nan _ => false
  | .inf n => n
  | .fin n _ _ => n

/-- The value is a zero. -/
def FVal.isZero : FVal → Bool
  | .fin _ m _ => m == 0
  | _ => false

/-- The value is an infinity. -/
def FVal.isInf : FVal → Bool
  | .inf _ => true
  | _ => false

/-- ∞ × 0 or 0 × ∞. -/
def badProduct (a b : FVal) : Bool := (a.isInf && b.isZero) || (a.isZero && b.isInf)

/-- An exact product; ∞ × 0 is a NaN. -/
def FVal.mul (a b : FVal) : FVal :=
  match a, b with
  | .fin n1 m1 e1, .fin n2 m2 e2 => .fin (n1 != n2) (m1 * m2) (e1 + e2)
  | .nan sg, _ => .nan sg
  | _, .nan sg => .nan sg
  | a, b => if badProduct a b then .nan false else .inf (a.isNeg != b.isNeg)

/-- a × b (R260, R303). -/
def FFmt.mul (f : FFmt) (mode : Rnd) (a b : FVal) : Nat × Nat :=
  if a.isNan || b.isNan then (f.nanBits, snanFlag [a, b])
  else if badProduct a b then f.invalid
  else f.ofVal mode false (a.mul b)

/-- a × b + d with one rounding; ∞ × 0 raises invalid whatever d is (R303). -/
def FFmt.fma (f : FFmt) (mode : Rnd) (a b d : FVal) : Nat × Nat :=
  if badProduct a b then f.invalid
  else if a.isNan || b.isNan || d.isNan then (f.nanBits, snanFlag [a, b, d])
  else f.add mode (a.mul b) d

/-! ## Comparison, minimum, maximum -/

/-- The order of two values that are not NaN, as −1, 0, 1; the zeros are equal. -/
def FVal.cmp (a b : FVal) : Int :=
  match a, b with
  | .inf n, .inf k => if n == k then 0 else if n then -1 else 1
  | .inf n, _ => if n then -1 else 1
  | _, .inf n => if n then 1 else -1
  | .fin n1 m1 e1, .fin n2 m2 e2 => Int.sign (unitsOf n1 m1 e1 (min e1 e2) - unitsOf n2 m2 e2 (min e1 e2))
  | _, _ => 0

/-- minimumNumber or maximumNumber on encodings (R304): the result is one of the operands. −0 counts as less than +0. -/
def FFmt.minMax (f : FFmt) (wantMax : Bool) (x y : Nat) : Nat × Nat :=
  let a := f.decode x
  let b := f.decode y
  let fl := snanFlag [a, b]
  if a.isNan && b.isNan then (f.nanBits, fl)
  else if a.isNan then (y, fl)
  else if b.isNan then (x, fl)
  else
    let c := a.cmp b
    let aLess := c < 0 || (c == 0 && a.isNeg && !b.isNeg)
    (if aLess == wantMax then y else x, fl)

/-- An FCMP condition (R305) and the invalid flag. -/
def fcmpVal (cc : FCond) (a b : FVal) : Bool × Nat :=
  let un := a.isNan || b.isNan
  let sg := snanFlag [a, b]
  let any := if un then flInvalid else 0
  match cc with
  | .eq => (!un && a.cmp b == 0, sg)
  | .ne => (un || a.cmp b != 0, sg)
  | .lt => (!un && a.cmp b < 0, any)
  | .le => (!un && a.cmp b ≤ 0, any)
  | .gt => (!un && 0 < a.cmp b, any)
  | .ge => (!un && 0 ≤ a.cmp b, any)
  | .un => (un, sg)
  | .ord => (!un, sg)

/-! ## Unary functions but the transcendentals -/

/-- FRND (R307): an integral value of the format, the sign kept, no inexact. -/
def FFmt.rint (f : FFmt) (mode : Rnd) (x : Nat) : Nat × Nat :=
  match f.decode x with
  | .nan sg => (f.nanBits, if sg then flInvalid else 0)
  | .inf _ => (x, 0)
  | .fin n m e => ((f.round .rz false n (roundAt mode n m e 0).1 0).1, 0)

/-- The class mask of FCLASS (R307). -/
def FFmt.classOf (f : FFmt) (x : Nat) : Nat :=
  match f.decode x with
  | .inf true => 1
  | .inf false => 128
  | .nan true => 256
  | .nan false => 512
  | .fin n m _ =>
    if m == 0 then (if n then 8 else 16)
    else if m < 2 ^ f.mb then (if n then 4 else 32)
    else (if n then 2 else 64)

/-- FNEG and FABS (R307): the sign of a number changes; a NaN becomes canonical. -/
def FFmt.setSign (f : FFmt) (abs : Bool) (x : Nat) : Nat × Nat :=
  match f.decode x with
  | .nan sg => (f.nanBits, if sg then flInvalid else 0)
  | v => (x % 2 ^ (f.eb + f.mb) + f.signBit (!abs && !v.isNeg), 0)

/-- The integer square root, bit by bit from 2^n down. -/
def isqrt (x : Nat) : Nat → Nat → Nat
  | 0, r => if (r + 1) * (r + 1) ≤ x then r + 1 else r
  | n + 1, r => isqrt x n (if (r + 2 ^ (n + 1)) * (r + 2 ^ (n + 1)) ≤ x then r + 2 ^ (n + 1) else r)

/-- The floor of the square root of a number. -/
def sqrtFloor (x : Nat) : Nat := isqrt x (x.log2 / 2 + 1) 0

/-- A number with one more bit below it, which says that it was cut. -/
def sticky (q : Nat) (cut : Bool) : Nat := 2 * q + bnat cut

/-- 1/x (R260, R261). -/
def FFmt.rcp (f : FFmt) (mode : Rnd) (v : FVal) : Nat × Nat :=
  match v with
  | .nan sg => (f.nanBits, if sg then flInvalid else 0)
  | .inf n => (f.signBit n, 0)
  | .fin n m e =>
    if m == 0 then (f.signBit n + f.infBits, flDivZero)
    else
      let k := m.log2 + 130
      f.round mode false n (sticky (2 ^ k / m) (2 ^ k % m != 0)) (-(k : Int) - 1 - e)

/-- A magnitude m × 2^e as m' × 2^(2 j) with m' of at least 2^k; the pair (m', j). -/
def evenExp (k m : Nat) (e : Int) : Nat × Int :=
  let sh := if (e - k) % 2 == 0 then k else k + 1
  (m * 2 ^ sh, (e - sh) / 2)

/-- √x (R260, R261). -/
def FFmt.sqrt (f : FFmt) (mode : Rnd) (v : FVal) : Nat × Nat :=
  match v with
  | .nan sg => (f.nanBits, if sg then flInvalid else 0)
  | .inf n => if n then f.invalid else (f.infBits, 0)
  | .fin n m e =>
    if m == 0 then (f.signBit n, 0)
    else if n then f.invalid
    else
      let p := evenExp 140 m e
      let r := sqrtFloor p.1
      f.round mode false false (sticky r (r * r != p.1)) (p.2 - 1)

/-- 1/√x (R260, R261). -/
def FFmt.rsq (f : FFmt) (mode : Rnd) (v : FVal) : Nat × Nat :=
  match v with
  | .nan sg => (f.nanBits, if sg then flInvalid else 0)
  | .inf n => if n then f.invalid else (0, 0)
  | .fin n m e =>
    if m == 0 then (f.signBit n + f.infBits, flDivZero)
    else if n then f.invalid
    else
      let p := evenExp 0 m e
      let k := p.1.log2 + 140
      let r := sqrtFloor (2 ^ (2 * k) / p.1)
      f.round mode false false (sticky r (r * r * p.1 != 2 ^ (2 * k))) (-(k : Int) - 1 - p.2)

end Sys2Proof.Machine
end

