-- ==== Sys2Proof/Machine/Transcend.lean ====
section
/-!
DEFINITION. The transcendental functions of FUNA, correctly rounded (R260, R261): 2^x, log₂ x, sin(π·x), cos(π·x). A value that is
not exact is irrational; it is enclosed between two numbers of K fractional bits, and K grows until both agree in the 64 leading bits.
-/

namespace Sys2Proof.Machine

/-- An enclosure of a positive real x: lo / 2^K ≤ x < hi / 2^K. -/
structure Encl where
  lo : Nat
  hi : Nat
  deriving DecidableEq, Repr

/-- The bound that is allowed for the errors of a series of K bits, in units of the last bit. -/
def slack (k : Nat) : Nat := 64 * k

/-- The enclosure around an approximation, within known bounds. -/
def Encl.around (k : Nat) (a : Int) (least most : Nat) : Encl :=
  ⟨max least (a - slack k).toNat, min most (a + slack k).toNat⟩

/-- The 65-bit dyadic number, with its last bit set, that rounds as the enclosed real does: m × 2^e. `n` more doublings of K are
tried. -/
def settleReal (f : Nat → Encl) : Nat → Nat → Nat × Int
  | n, k =>
    let c := f k
    let s := c.lo.log2 - 64
    if c.lo / 2 ^ s == (c.hi - 1) / 2 ^ s then (sticky (c.lo / 2 ^ s) true, (s : Int) - k - 1)
    else match n with
      | 0 => (sticky (c.lo / 2 ^ s) true, (s : Int) - k - 1)
      | n + 1 => settleReal f n (2 * k)

/-- Σ p / (2 i + 1) with p divided by d each time, the signs alternating or not: `n` terms from i on. -/
def oddSeries (alt : Bool) (d : Nat) : Nat → Nat → Nat → Int
  | 0, _, _ => 0
  | n + 1, i, p =>
    if p == 0 then 0
    else
      let x : Int := (p / (2 * i + 1) : Nat)
      (if alt && i % 2 == 1 then -x else x) + oddSeries alt d n (i + 1) (p / d)

/-- ln 2 with K fractional bits. -/
def ln2Fix (k : Nat) : Int := oddSeries false 9 k 0 (2 ^ (k + 1) / 3)

/-- π with K fractional bits. -/
def piFix (k : Nat) : Int := 16 * oddSeries true 25 k 0 (2 ^ k / 5) - 4 * oddSeries true 57121 k 0 (2 ^ k / 239)

/-- Σ of terms t, each the last times y over i and 2^K. -/
def expSeries (k y : Nat) : Nat → Nat → Nat → Nat
  | 0, _, _ => 0
  | n + 1, i, t => if t == 0 then 0 else t + expSeries k y n (i + 1) (t * y / 2 ^ k / i)

/-- 2^(num / 2^den) for 0 < num < 2^den. -/
def exp2Encl (num den k : Nat) : Encl :=
  let fr := if den ≤ k then num * 2 ^ (k - den) else num / 2 ^ (den - k)
  .around k (expSeries k (fr * (ln2Fix k).toNat / 2 ^ k) k 1 (2 ^ k)) (2 ^ k) (2 ^ (k + 1))

/-- ln(M / 2^b) / ln 2 as a number of K fractional bits, for M / 2^b near 1. -/
def log2Fix (m b k : Nat) : Int :=
  let z := (if m < 2 ^ b then 2 ^ b - m else m - 2 ^ b) * 2 ^ k / (m + 2 ^ b)
  let ser := fun (n : Nat) => (List.range n).foldl (fun (acc : Nat × Nat) i => (acc.1 + acc.2 / (2 * i + 1), acc.2 * z / 2 ^ k * z / 2 ^ k)) (0, z)
  let x : Int := (2 * (ser (k / 4)).1 * 2 ^ k : Nat) / ln2Fix k
  if m < 2 ^ b then -x else x

/-- |n + log₂(M / 2^b)|. -/
def log2Encl (n : Int) (m b k : Nat) : Encl := .around k (n * 2 ^ k + log2Fix m b k).natAbs 1 (2 ^ (k + 20))

/-- Σ of terms t, alternating, each the last times y² over i (i + 1) and 2^(2K). -/
def trigSeries (k y : Nat) : Nat → Nat → Nat → Int
  | 0, _, _ => 0
  | n + 1, i, t => if t == 0 then 0 else (t : Int) - trigSeries k y n (i + 2) (t * y / 2 ^ k * y / 2 ^ k / (i * (i + 1)))

/-- sin(π r) or cos(π r) for r = num / 2^den between 0 and 1/2. -/
def trigEncl (sine : Bool) (num den k : Nat) : Encl :=
  let big := 2 ^ den < 4 * num
  let num := if big then 2 ^ (den - 1) - num else num
  let fr := if den ≤ k then num * 2 ^ (k - den) else num / 2 ^ (den - k)
  let y := fr * (piFix k).toNat / 2 ^ k
  .around k (if sine != big then trigSeries k y k 2 y else trigSeries k y k 1 (2 ^ k)) 1 (2 ^ k)

/-- The number of doublings of K that are tried. -/
def tries : Nat := 6

/-- 2^x (R260, R261). -/
def FFmt.exp2 (f : FFmt) (mode : Rnd) (v : FVal) : Nat × Nat :=
  match v with
  | .nan sg => (f.nanBits, if sg then flInvalid else 0)
  | .inf n => (if n then 0 else f.infBits, 0)
  | .fin n m e =>
    if m == 0 then f.round mode false false 1 0
    else if 15 ≤ (m.log2 : Int) + e then f.round mode false false 1 (if n then -20000 else 20000)
    else if 0 ≤ e then f.round mode false false 1 ((if n then -1 else 1) * (m * 2 ^ e.toNat : Nat))
    else
      let k := (-e).toNat
      let whole := m / 2 ^ k
      let rest := m % 2 ^ k
      if rest == 0 then f.round mode false false 1 ((if n then -1 else 1) * (whole : Int))
      else
        let fr := if n then 2 ^ k - rest else rest
        let base : Int := if n then -(whole : Int) - 1 else whole
        let r := settleReal (exp2Encl fr k) tries 256
        f.round mode false false r.1 (r.2 + base)

/-- log₂ x (R260, R261). -/
def FFmt.log2 (f : FFmt) (mode : Rnd) (v : FVal) : Nat × Nat :=
  match v with
  | .nan sg => (f.nanBits, if sg then flInvalid else 0)
  | .inf n => if n then f.invalid else (f.infBits, 0)
  | .fin n m e =>
    if m == 0 then (f.signBit true + f.infBits, flDivZero)
    else if n then f.invalid
    else
      let b := m.log2
      let top : Int := (b : Int) + e
      if m == 2 ^ b then f.round mode false (top < 0) top.natAbs 0
      else
        let high := 3 * 2 ^ b ≤ 2 * m
        let ex := if high then top + 1 else top
        let den := if high then b + 1 else b
        let r := settleReal (log2Encl ex m den) tries 256
        f.round mode false (ex < 0 || (ex == 0 && high)) r.1 r.2

/-- sin(π·x) or cos(π·x) (R260, R261). -/
def FFmt.trig (f : FFmt) (mode : Rnd) (sine : Bool) (v : FVal) : Nat × Nat :=
  match v with
  | .nan sg => (f.nanBits, if sg then flInvalid else 0)
  | .inf _ => f.invalid
  | .fin n m e =>
    let k := if e < 0 then (-e).toNat else 1
    let x := if e < 0 then m % 2 ^ (k + 1) else m * 2 ^ (min e 2).toNat * 2 % 4
    let quad := x / 2 ^ (k - 1)
    let rest := x % 2 ^ (k - 1)
    let useSin := (quad % 2 == 0) == sine
    let neg := if sine then n != (2 ≤ quad) else quad == 1 || quad == 2
    if m == 0 then (if sine then (f.signBit n, 0) else f.round mode false false 1 0)
    else if rest == 0 then
      (if useSin then (f.signBit (sine && n), 0) else f.round mode false neg 1 0)
    else
      let extra := k - rest.log2
      let r := settleReal (trigEncl useSin rest k) tries (256 + extra)
      f.round mode false neg r.1 r.2

end Sys2Proof.Machine
end

