-- ==== Sys2Proof/Machine/Operands.lean ====
section
/-!
DEFINITION. Registers and operands (R274, R278, R294), and the frame of every instruction: what a lane instruction does for the
threads of its group (R147, R154, R160, R223, R231, R259, R295), and what a uniform instruction does for its wave (R156, R159).
-/

namespace Sys2Proof.Machine

/-! ## Registers -/

namespace Wave

/-- A v register of a lane. -/
def vreg (w : Wave) (lane r : Nat) : Word := Tbl.getD w.v (lane * 128 + r) 0

/-- A v register pair of a lane, the even register low (R294). -/
def vpair (w : Wave) (lane r : Nat) : DWord := BitVec.ofNat 64 ((w.vreg lane r).toNat + 2 ^ 32 * (w.vreg lane (r + 1)).toNat)

def setV (w : Wave) (lane r : Nat) (x : Word) : Wave := { w with v := Tbl.putS 0 w.v (lane * 128 + r) x }

/-- A predicate of a lane; p127 is always true (R278). -/
def preg (w : Wave) (lane r : Nat) : Bool := r == 127 || Tbl.getD w.p (lane * 128 + r) false

/-- A write of a predicate; a write to p127 is discarded (R278). -/
def setP (w : Wave) (lane r : Nat) (x : Bool) : Wave :=
  if r == 127 then w else { w with p := Tbl.putS false w.p (lane * 128 + r) x }

/-- A uniform register. -/
def sreg (w : Wave) (r : Nat) : DWord := Tbl.getD w.s r 0
def setS (w : Wave) (r : Nat) (x : DWord) : Wave := { w with s := Tbl.putS 0 w.s r x }

/-- A buffer-record register. -/
def breg (w : Wave) (r : Nat) : RecBits := Tbl.getD w.b r 0
def setB (w : Wave) (r : Nat) (x : RecBits) : Wave := { w with b := Tbl.putS 0 w.b r x }

/-- The thread on a lane. -/
def thread (w : Wave) (lane : Nat) : Thread := w.threads.getD lane ⟨0, none, true, 0, none⟩

/-- Changes the thread on a lane. -/
def updThread (w : Wave) (lane : Nat) (f : Thread → Thread) : Wave := { w with threads := w.threads.modify lane f }

/-- The guard of a lane, evaluated (R160). -/
def guardOn (w : Wave) (lane : Nat) : Bool :=
  match (w.thread lane).guard with
  | none => true
  | some (p, n) => w.preg lane p.val != n

/-- The v register is a live-in of the wave's open region (R230). -/
def liveV (w : Wave) (r : Nat) : Bool :=
  match w.region with
  | none => false
  | some g => g.mask.getLsbD r

/-- Region checks apply: a region is open and the wave is not in its handler (R231). -/
def guarded (w : Wave) : Bool := w.region.isSome && !w.inh

end Wave

/-- Writes of v registers of one lane. -/
abbrev VWrites := List (Nat × Word)

/-- A result in one register, or in a pair (R294). -/
def vwrite (pair : Bool) (d x : Nat) : VWrites :=
  if pair then [(d, BitVec.ofNat 32 x), (d + 1, BitVec.ofNat 32 (x / 2 ^ 32))] else [(d, BitVec.ofNat 32 x)]

/-- The registers that an operand of `n` registers names. -/
def block (r n : Nat) : List Nat := (List.range n).map (r + ·)

/-- The registers of an operand in one register or a pair. -/
def regsOf (pair : Bool) (r : VReg) : List Nat := block r.val (if pair then 2 else 1)

end Sys2Proof.Machine

namespace Sys2Proof

/-- The registers that a vb operand names. -/
def VOp.regs (pair : Bool) : VOp → List Nat
  | .reg r => Machine.regsOf pair r
  | .lit _ => []

/-- The size in bytes of an instruction with a vb operand (R274). -/
def VOp.size : VOp → Nat
  | .reg _ => 4
  | .lit _ => 8

/-- The size in bytes of an instruction with an sb operand. -/
def SOp.size : SOp → Nat
  | .reg _ => 4
  | .lit _ => 8

/-- A 32-bit vb operand. -/
def VOp.get (w : Machine.Wave) (lane : Nat) : VOp → Word
  | .reg r => w.vreg lane r.val
  | .lit x => x

end Sys2Proof

namespace Sys2Proof.Machine

/-- The bits of a register operand: 32, or the 64 of a pair. -/
def rawReg (pair : Bool) (w : Wave) (lane : Nat) (r : VReg) : Nat :=
  if pair then (w.vpair lane r.val).toNat else (w.vreg lane r.val).toNat

/-- A binary32 literal as the binary64 that R274 makes of it: a NaN keeps its sign, its fraction and its kind. -/
def litF64 (x : Word) : Nat :=
  match FFmt.f32.decode x.toNat with
  | .nan _ => bnat (bitOf x.toNat 31) * 2 ^ 63 + 2047 * 2 ^ 52 + x.toNat % 2 ^ 23 * 2 ^ 29
  | v => (FFmt.f64.ofVal .rne false v).1

/-! ## What a lane instruction does in one thread -/

/-- The outcome of a lane instruction in one thread whose guard is true. -/
structure LaneRes where
  v : VWrites := []
  p : List (Nat × Bool) := []
  flags : Nat := 0
  target : Option Nat := none
  exits : Bool := false
  cause : Option Nat := none
  faddr : Option Nat := none
  deriving DecidableEq, Repr

/-- The result that writes v registers. -/
def LaneRes.ofV (x : VWrites) : LaneRes := { v := x }
/-- The result that writes v registers and raises flags. -/
def LaneRes.ofF (x : VWrites) (fl : Nat) : LaneRes := { v := x, flags := fl }
/-- The result that writes a predicate. -/
def LaneRes.ofP (d : PReg) (x : Bool) : LaneRes := { p := [(d.val, x)] }
/-- The result that raises a cause. -/
def LaneRes.trap (code : Nat) : LaneRes := { cause := some code }
/-- The result of a thread that reads poison at an address (R246). -/
def LaneRes.poison (a : Nat) : LaneRes := { cause := some 0x01, faddr := some a }

/-- The least cause, with the lowest lane that raises it (R221, R222). -/
def leastCause (l : List (Nat × Nat)) : Option (Nat × Nat) := leastBy (fun e => e.2) (sortBy (fun e => e.1) l)

/-- A thread past an instruction: at its target, or at the next instruction. -/
def Thread.advance (t : Thread) (size : Nat) (r : LaneRes) : Thread :=
  { t with pc := r.target.getD (t.pc + size), exited := t.exited || r.exits }

/-- The wave with the results of one lane written (R295). -/
def Wave.commit (w : Wave) (size lane : Nat) (r : LaneRes) : Wave :=
  let w := r.v.foldl (fun (w : Wave) e => w.setV lane e.1 e.2) w
  let w := r.p.foldl (fun (w : Wave) e => w.setP lane e.1 e.2) w
  let w := { w with fmode := raiseFlags w.fmode r.flags }
  w.updThread lane (fun t => t.advance size r)

/-- The lanes of a wave in a group. -/
def Group.lanesOf (g : Group) (wid : Nat) : List Nat := (g.mem.filter (fun m => m.1 == wid)).map (fun m => m.2)

/-- The waves of a group, ascending. -/
def Group.waves (g : Group) : List Nat := dedup (g.mem.map (fun m => m.1))

/-- What a lane instruction names: the v registers of its operands, and its size. -/
structure LaneOp where
  regs : List Nat
  size : Nat
  deriving DecidableEq, Repr

namespace State

/-- The wave is of a protected launch (R148). -/
def prot (s : State) (wid : Nat) : Bool :=
  match Tbl.find s.grids (s.gridIdOf wid) with
  | none => false
  | some g => g.lrec.prot

/-- The thread index of a lane, which is what a program calls its lane (R148). -/
def laneId (s : State) (wid lane : Nat) : Nat := if s.prot wid then lane / 2 else lane

/-- The launch record of a wave's grid. -/
def lrecOf (s : State) (wid : Nat) : Option LaunchRec := (Tbl.find s.grids (s.gridIdOf wid)).map (fun g => g.lrec)

/-- The wave's launch is replayed after a kill (R245). -/
def replays (s : State) (wid : Nat) : Bool := ((s.lrecOf wid).map (fun r => r.replay)).getD false

/-- A format slot of a wave's grid, as a number (R255). -/
def fslotOf (s : State) (wid : Nat) (f : FSlot) : Nat :=
  match s.lrecOf wid with
  | none => 0
  | some r => (r.fslots.getD f.val 0).toNat

/-- A trap with the trapping group at its program counter (R223): the cause of a lane. -/
def laneTrap (s : State) (wid code lane pc : Nat) (faddr : Option Nat) : State :=
  s.takeTrap wid code (s.laneId wid lane) false (some pc) faddr

/-- A copy that must be made before an instruction accesses a slab is queued, and the instruction waits (R118, R236, R238). -/
def awaitSlab (s : State) (wid : Nat) (w : Wave) (sp : Spill) : State :=
  let c := s.coreOf wid
  let s := if (s.core c).spills.any (fun e => e.2 == sp) then s
    else s.updCore c (fun x => { x with spills := x.spills ++ [(w.side, sp)] })
  (s.soonOnce (.spillCopyDone c (Fin.ofNat 2 w.side))).updWave wid (fun w => { w with pend := { w.pend with hold := some .spill } })

/-- The copy that the first access of a slab waits for: back from the eviction area once what the slab holds of another wave is copied out (R118,
R119, R121), and back from a gate frame after a call (R238). The results of an evicted wave wait for none (R118). -/
def slabBack (wid : Nat) (w : Wave) (regs : List Nat) : Option Spill :=
  if w.evicted.isSome then none
  else match regs.find? (fun r => w.away.contains (r / 64)) with
  | some r => some (if w.hown.contains (r / 64) then .slab wid (r / 64) else .home wid (r / 64))
  | none => (w.refill.find? (fun x => regs.any (fun r => r / 64 == x.1))).map (fun x => .back wid x.1)

/-- The innermost call of a chain that hides a v register, unless its callee owns the slab: the depth of that call (R236). A register that an
inner call passes on may be hidden by an outer one. -/
def hiddenBy (r : Nat) : List Gate → Option Nat
  | [] => none
  | f :: fs => if f.vwin < r then (if f.owned.any (fun k => k.1 == r / 64) then none else some (fs.length + 1)) else hiddenBy r fs

/-- The copy that must be made before some v registers are written: out of a slab that still holds another wave's contents (R118), or out of a
slab whose hidden registers a caller owns (R236). -/
def slabToCopy (wid : Nat) (w : Wave) (dst : List Nat) : Option Spill :=
  if w.evicted.isSome then none
  else match dst.find? (fun r => w.hown.contains (r / 64)) with
  | some r => some (.slab wid (r / 64))
  | none => dst.findSome? (fun r => (hiddenBy r w.gates).map (fun d => .gate wid (r / 64) d))

/-- A register of the operands lies beyond the wave's slabs (R147, R278). -/
def beyondSlabs (w : Wave) (regs : List Nat) : Bool := regs.any (fun r => 64 * w.slabs.length ≤ r)

/-- The causes of a lane instruction in a wave: REG_RANGE whatever the guard (R147, R285); what the lanes raise; REGION_CLOBBER
for the lanes that write a live-in register (R231). -/
def laneCauses (w : Wave) (op : LaneOp) (lanes : List Nat) (res : List (Nat × LaneRes)) : List (Nat × Nat) :=
  (if beyondSlabs w op.regs then lanes.map (fun l => (l, 0x13)) else [])
    ++ res.filterMap (fun e => e.2.cause.map (fun c => (e.1, c)))
    ++ (if w.guarded then (res.filter (fun e => e.2.v.any (fun x => w.liveV x.1))).map (fun e => (e.1, 0x60)) else [])

/-- The registers that the lanes write. -/
def written (res : List (Nat × LaneRes)) : List Nat := res.flatMap (fun e => e.2.v.map (fun x => x.1))

/-- A wave performs a lane instruction that does `f` in its lanes: it waits for no copy of a slab, and no cause arises. -/
def laneGoes (op : LaneOp) (f : Nat → LaneRes) (g : Group) (wid : Nat) (w : Wave) : Bool :=
  let on := (g.lanesOf wid).filter w.guardOn
  let res := on.map (fun l => (l, f l))
  (on.isEmpty || (slabBack wid w op.regs).isNone) && (leastCause (laneCauses w op (g.lanesOf wid) res)).isNone && (slabToCopy wid w (written res)).isNone

/-- A lane instruction in the lanes of one wave. With a cause, the wave performs nothing and traps on the lowest, but poison kills a launch with
REPLAY (R246); else the results
of the lanes whose guard is true are written, every lane moves on, and ARITH follows an enabled flag (R259). -/
def laneWave (op : LaneOp) (f : Wave → Nat → LaneRes) (g : Group) (s : State) (wid : Nat) : State :=
  match Tbl.find s.waves wid with
  | none => s
  | some w =>
    let lanes := g.lanesOf wid
    let on := lanes.filter w.guardOn
    let res := on.map (fun l => (l, f w l))
    match (if on.isEmpty then none else slabBack wid w op.regs), leastCause (laneCauses w op lanes res) with
    | some k, _ => s.awaitSlab wid w k
    | none, some c =>
      if c.2 == 0x01 && s.replays wid then s.killLaunch wid
      else s.laneTrap wid c.2 c.1 g.pc ((res.find? (fun e => e.1 == c.1)).bind (fun e => e.2.faddr))
    | none, none =>
      match slabToCopy wid w (written res) with
      | some k => s.awaitSlab wid w k
      | none =>
        let s := s.updWave wid (fun w =>
          (lanes.filter (fun l => !on.contains l)).foldl (fun (w : Wave) l => w.updThread l (fun t => t.advance op.size {}))
            (res.foldl (fun (w : Wave) e => w.commit op.size e.1 e.2) w))
        match res.find? (fun e => flagsTrap w.fmode e.2.flags) with
        | none => s
        | some e => s.laneTrap wid 0x78 e.1 (g.pc + op.size) none

/-- A lane instruction in every wave of its group. -/
def laneGroup (s : State) (op : LaneOp) (f : Nat → Wave → Nat → LaneRes) (g : Group) : State :=
  g.waves.foldl (fun s wid => laneWave op (f wid) g s wid) s

end State

/-- The frame of a lane instruction. -/
def laneStep (op : LaneOp) (f : Nat → Wave → Nat → LaneRes) (s : State) : Host.Outcome State Fault Refusal :=
  match s.cur with
  | none => .fault .noWave
  | some g => .next (s.laneGroup op f g)

/-! ## Uniform instructions -/

/-- What a uniform instruction does for its wave. -/
inductive UniRes where
  /-- It completes: the state holds its effect, and every waiting thread moves past it. -/
  | done (s : State)
  /-- It completes: the state holds its effect and the program counters. -/
  | placed (s : State)
  /-- It raises a cause and performs nothing; sr.faddr may take an address. -/
  | trap (code : Nat) (faddr : Option Nat)
  /-- It waits: the state holds the reason, and every thread stays at it. -/
  | stay (s : State)

/-- What a uniform instruction names: the uniform registers it writes, the v registers it reads or writes, those it writes, its
size. -/
structure UniOp where
  sdst : List Nat := []
  regs : List Nat := []
  vdst : List Nat := []
  size : Nat := 4
  deriving DecidableEq, Repr

/-- Every non-exited thread moves to an address. -/
def Wave.goAll (w : Wave) (f : Nat → Nat) : Wave :=
  { w with threads := w.threads.map (fun t => if t.exited then t else { t with pc := f t.pc }) }

/-- Every non-exited thread moves past an instruction. -/
def Wave.pass (w : Wave) (size : Nat) : Wave := w.goAll (· + size)

namespace State

/-- A trap of a uniform instruction: a cause of the wave as a whole (R221). -/
def uniTrap (s : State) (wid code pc : Nat) (faddr : Option Nat) : State := s.takeTrap wid code 0xFF false (some pc) faddr

/-- The causes that the operands of a uniform instruction raise before it has any effect (R147, R231). -/
def uniCheck (w : Wave) (op : UniOp) : Option Nat :=
  if beyondSlabs w op.regs then some 0x13
  else if w.guarded && (op.sdst.any (· < 16) || op.vdst.any w.liveV) then some 0x60
  else none

/-- The lower of two causes. -/
def lowerCause (a : Option Nat) (r : UniRes) : UniRes :=
  match a with
  | none => r
  | some c => match r with
    | .trap d x => if d < c then .trap d x else .trap c none
    | _ => .trap c none

/-- The two results of a uniform instruction of a protected wave, or of a step of its matrix array, differ (R242, R347, LE 79). -/
def upset (s : State) (wid : Nat) : Bool := s.prot wid && Config.upset s.fresh

/-- A mismatch: SHADOW_MISMATCH of the wave as a whole (R221, R242, R244, R347). -/
def mismatch (s : State) (wid : Nat) : State := (s.takeTrap wid 0x03 0xFF false none none).drawn

/-- A uniform instruction of a wave. In a protected launch the pipe executes it twice and compares the two results, for an engine command the
card that it reads; where they differ, nothing is performed, whatever cause arises (R242, R244). -/
def uniWave (op : UniOp) (f : State → Nat → Wave → UniRes) (g : Group) (s : State) (wid : Nat) (w : Wave) : State :=
  match slabBack wid w op.regs with
  | some k => s.awaitSlab wid w k
  | none =>
    if s.upset wid then s.mismatch wid
    else match lowerCause (uniCheck w op) (f s wid w) with
    | .trap c a => s.uniTrap wid c g.pc a
    | .stay s' => s'
    | .placed s' => s'
    | .done s' =>
      match slabToCopy wid w op.vdst with
      | some k => s.awaitSlab wid w k
      | none => s'.updWave wid (fun w => w.pass op.size)

end State

/-- The frame of a uniform instruction: its group is the threads of one wave. -/
def uniStep (op : UniOp) (f : State → Nat → Wave → UniRes) (s : State) : Host.Outcome State Fault Refusal :=
  match s.cur with
  | none => .fault .noWave
  | some g =>
    match g.mem with
    | [] => .fault .noWave
    | m :: _ =>
      match Tbl.find s.waves m.1 with
      | none => .fault .noWave
      | some w => .next (s.uniWave op f g m.1 w)

/-- A uniform instruction that changes its wave alone. -/
def uniPure (op : UniOp) (f : Wave → Wave) (s : State) : Host.Outcome State Fault Refusal :=
  uniStep op (fun s wid _ => .done (s.updWave wid f)) s

end Sys2Proof.Machine
end

