-- ==== Sys2Proof/Machine/LaneInt.lean ====
section
/-!
DEFINITION. Lane integer instructions (R296, R297), moves, selects, bit counts and bit fields (R298 to R300), ICMP (R302).
-/

namespace Sys2Proof

/-! ## Types (R279) -/

/-- The element width of an integer type. -/
def IType.width : IType → Nat
  | .i64 | .n64 => 64
  | .i16x2 | .n16x2 => 16
  | _ => 32

/-- The type is signed. -/
def IType.signed : IType → Bool
  | .i32 | .i64 | .i16x2 | .i32s => true
  | _ => false

/-- The number of elements. -/
def IType.elems : IType → Nat
  | .i16x2 | .n16x2 => 2
  | _ => 1

/-- The type saturates. -/
def IType.saturates : IType → Bool
  | .i32s | .n32s => true
  | _ => false

/-- The number of bits an operand of the type takes. -/
def IType.bits (t : IType) : Nat := if t.pair then 64 else 32

end Sys2Proof

namespace Sys2Proof.Machine

/-- The least and the greatest value of a width. -/
def lowest (w : Nat) (sgn : Bool) : Int := if sgn then -(2 ^ (w - 1) : Nat) else 0
def highest (w : Nat) (sgn : Bool) : Int := if sgn then (2 ^ (w - 1) : Nat) - 1 else (2 ^ w : Nat) - 1

/-- An integer within bounds. -/
def clampInt (lo hi x : Int) : Int := max lo (min hi x)

/-- The bits of a vb operand of a type; a literal is extended as R274 says. -/
def intOperand (t : IType) (w : Wave) (lane : Nat) : VOp → Nat
  | .reg r => rawReg t.pair w lane r
  | .lit x => if t.pair && t.signed then wrapInt 64 (signedOf 32 x.toNat) else x.toNat

/-- Element `h` of an operand's bits (R296). -/
def elemOf (w : Nat) (sgn : Bool) (raw h : Nat) : Int :=
  if sgn then signedOf w (raw / 2 ^ (w * h)) else (raw / 2 ^ (w * h) % 2 ^ w : Nat)

/-- The bits of a result from its elements. -/
def packElems (w : Nat) : List Nat → Nat
  | [] => 0
  | x :: xs => x % 2 ^ w + 2 ^ w * packElems w xs

/-- int_op of R296: an operation on unbounded integers, clamped or sliced once. -/
def intOp (op : Nat → Int → Int → Int → Int) (t : IType) (a b d : Nat) : Nat :=
  packElems t.width ((List.range t.elems).map (fun h =>
    let x := op t.width (elemOf t.width t.signed a h) (elemOf t.width t.signed b h) (elemOf t.width t.signed d h)
    let x := if t.saturates then clampInt (lowest t.width t.signed) (highest t.width t.signed) x else x
    wrapInt t.width x))

/-- The operand fields of a VRR instruction of a type; `acc` where vd is a source too (that changes no register named). -/
def vrrOp (pair : Bool) (d a : VReg) (b : VOp) : LaneOp :=
  ⟨regsOf pair d ++ regsOf pair a ++ b.regs pair, b.size⟩

/-- The meaning of an instruction of R296. -/
def intRow (op : Nat → Int → Int → Int → Int) (t : IType) (d a : VReg) (b : VOp) (s : State) : Host.Outcome State Fault Refusal :=
  laneStep (vrrOp t.pair d a b) (fun _ w l => .ofV (vwrite t.pair d.val
    (intOp op t (rawReg t.pair w l a) (intOperand t w l b) (rawReg t.pair w l d)))) s

/-- The meaning of a bitwise instruction (R296): the operation on the whole patterns. -/
def bitRow (op : Nat → Nat → Nat) (t : IType) (d a : VReg) (b : VOp) (s : State) : Host.Outcome State Fault Refusal :=
  laneStep (vrrOp t.pair d a b) (fun _ w l => .ofV (vwrite t.pair d.val (op (rawReg t.pair w l a) (intOperand t w l b)))) s

/-- a AND NOT b. -/
def andNot (a b : Nat) : Nat := a ^^^ (a &&& b)

def execIadd (t : IType) (d a : VReg) (b : VOp) (s : State) : Host.Outcome State Fault Refusal := intRow (fun _ x y _ => x + y) t d a b s
def execIsub (t : IType) (d a : VReg) (b : VOp) (s : State) : Host.Outcome State Fault Refusal := intRow (fun _ x y _ => x - y) t d a b s
def execImul (t : IType) (d a : VReg) (b : VOp) (s : State) : Host.Outcome State Fault Refusal := intRow (fun _ x y _ => x * y) t d a b s
def execImulh (t : IType) (d a : VReg) (b : VOp) (s : State) : Host.Outcome State Fault Refusal :=
  intRow (fun n x y _ => Int.fdiv (x * y) (2 ^ n : Nat)) t d a b s
def execImad (t : IType) (d a : VReg) (b : VOp) (s : State) : Host.Outcome State Fault Refusal := intRow (fun _ x y z => x * y + z) t d a b s
def execImin (t : IType) (d a : VReg) (b : VOp) (s : State) : Host.Outcome State Fault Refusal := intRow (fun _ x y _ => min x y) t d a b s
def execImax (t : IType) (d a : VReg) (b : VOp) (s : State) : Host.Outcome State Fault Refusal := intRow (fun _ x y _ => max x y) t d a b s
def execAnd (t : IType) (d a : VReg) (b : VOp) (s : State) : Host.Outcome State Fault Refusal := bitRow (· &&& ·) t d a b s
def execOr (t : IType) (d a : VReg) (b : VOp) (s : State) : Host.Outcome State Fault Refusal := bitRow (· ||| ·) t d a b s
def execXor (t : IType) (d a : VReg) (b : VOp) (s : State) : Host.Outcome State Fault Refusal := bitRow (· ^^^ ·) t d a b s
def execAndn (t : IType) (d a : VReg) (b : VOp) (s : State) : Host.Outcome State Fault Refusal := bitRow andNot t d a b s

/-! ## Shifts (R297) -/

/-- The shifts of a W-bit element by an unsigned count; a count beyond W acts as one of W. -/
def shlOp (w a c : Nat) : Nat := a * 2 ^ min c w % 2 ^ w
def shrOp (w a c : Nat) : Nat := a / 2 ^ min c w
def sarOp (w a c : Nat) : Nat := wrapInt w (Int.fdiv (signedOf w a) (2 ^ min c w : Nat))
def rotOp (w a c : Nat) : Nat := (a * 2 ^ (c % w) + a / 2 ^ (w - c % w)) % 2 ^ w

/-- shift_op of R297: the count is vb for one element, the half of vb for each of two. -/
def shiftOp (op : Nat → Nat → Nat → Nat) (t : IType) (a c : Nat) : Nat :=
  packElems t.width ((List.range t.elems).map (fun h =>
    op t.width (a / 2 ^ (t.width * h) % 2 ^ t.width) (if t.elems == 1 then c else c / 2 ^ (16 * h) % 2 ^ 16)))

/-- The operand fields of a VRR instruction whose vb is a single register whatever the type. -/
def vrrOp1 (pair : Bool) (d a : VReg) (b : VOp) : LaneOp :=
  ⟨regsOf pair d ++ regsOf pair a ++ b.regs false, b.size⟩

/-- The meaning of a shift (R297). -/
def shiftRow (op : Nat → Nat → Nat → Nat) (t : IType) (d a : VReg) (b : VOp) (s : State) : Host.Outcome State Fault Refusal :=
  laneStep (vrrOp1 t.pair d a b) (fun _ w l => .ofV (vwrite t.pair d.val (shiftOp op t (rawReg t.pair w l a) (b.get w l).toNat))) s

def execShl (t : IType) (d a : VReg) (b : VOp) (s : State) : Host.Outcome State Fault Refusal := shiftRow shlOp t d a b s
def execShr (t : IType) (d a : VReg) (b : VOp) (s : State) : Host.Outcome State Fault Refusal := shiftRow shrOp t d a b s
def execSar (t : IType) (d a : VReg) (b : VOp) (s : State) : Host.Outcome State Fault Refusal := shiftRow sarOp t d a b s
def execRot (t : IType) (d a : VReg) (b : VOp) (s : State) : Host.Outcome State Fault Refusal := shiftRow rotOp t d a b s

/-! ## Moves and selects (R298) -/

def execMov (t : IType) (d : VReg) (b : VOp) (s : State) : Host.Outcome State Fault Refusal :=
  laneStep ⟨regsOf t.pair d ++ b.regs t.pair, b.size⟩
    (fun _ w l => .ofV (vwrite t.pair d.val (intOperand t w l b))) s

def execSel (p : Fin 8) (d a : VReg) (b : VOp) (s : State) : Host.Outcome State Fault Refusal :=
  laneStep (vrrOp false d a b) (fun _ w l => .ofV [(d.val, if w.preg l p.val then w.vreg l a.val else b.get w l)]) s

def execMovu (pair : Bool) (d : VReg) (n : SReg) (s : State) : Host.Outcome State Fault Refusal :=
  laneStep ⟨regsOf pair d, 4⟩ (fun _ w _ => .ofV (vwrite pair d.val (w.sreg n.val).toNat)) s

/-! ## Bit counts and fields (R299, R300) -/

/-- The number of 1 bits below bit `n`. -/
def popCount (x : Nat) : Nat → Nat
  | 0 => 0
  | n + 1 => popCount x n + bnat (bitOf x n)

/-- The number of 0 bits above the highest 1 bit of a W-bit number. -/
def leadingZeros (w x : Nat) : Nat := if x == 0 then w else w - 1 - x.log2

/-- The lowest `n` bits in reverse order. -/
def bitReverse (x : Nat) : Nat → Nat
  | 0 => 0
  | n + 1 => bnat (bitOf x n) + 2 * bitReverse x n

/-- The width of a register or a pair. -/
def widthOf (pair : Bool) : Nat := if pair then 64 else 32

def execPopc (pair : Bool) (d a : VReg) (s : State) : Host.Outcome State Fault Refusal :=
  laneStep ⟨d.val :: regsOf pair a, 4⟩
    (fun _ w l => .ofV [(d.val, BitVec.ofNat 32 (popCount (rawReg pair w l a) (widthOf pair)))]) s

def execClz (pair : Bool) (d a : VReg) (s : State) : Host.Outcome State Fault Refusal :=
  laneStep ⟨d.val :: regsOf pair a, 4⟩
    (fun _ w l => .ofV [(d.val, BitVec.ofNat 32 (leadingZeros (widthOf pair) (rawReg pair w l a)))]) s

def execBrev (pair : Bool) (d a : VReg) (s : State) : Host.Outcome State Fault Refusal :=
  laneStep ⟨regsOf pair d ++ regsOf pair a, 4⟩
    (fun _ w l => .ofV (vwrite pair d.val (bitReverse (rawReg pair w l a) (widthOf pair)))) s

/-- The number of bits of a field that exist (R300). -/
def fieldLen (w desc : Nat) : Nat := if w ≤ bitsOf desc 7 0 then 0 else min (bitsOf desc 15 8) (w - bitsOf desc 7 0)

/-- BFX (R300): the field, sign-extended for signed types. -/
def bfxOp (w : Nat) (sgn : Bool) (a desc : Nat) : Nat :=
  let k := fieldLen w desc
  let f := a / 2 ^ bitsOf desc 7 0 % 2 ^ k
  if sgn && 0 < k && 2 ^ (k - 1) ≤ f then (f + 2 ^ w - 2 ^ k) % 2 ^ w else f

/-- BFI (R300): the low bits of a, inserted into d. -/
def bfiOp (w a d desc : Nat) : Nat :=
  let k := fieldLen w desc
  let pos := bitsOf desc 7 0
  if k == 0 then d else d - d / 2 ^ pos % 2 ^ k * 2 ^ pos + a % 2 ^ k * 2 ^ pos

def execBfx (t : IType) (d a : VReg) (b : VOp) (s : State) : Host.Outcome State Fault Refusal :=
  laneStep (vrrOp1 t.pair d a b)
    (fun _ w l => .ofV (vwrite t.pair d.val (bfxOp t.width t.signed (rawReg t.pair w l a) (b.get w l).toNat))) s

def execBfi (t : IType) (d a : VReg) (b : VOp) (s : State) : Host.Outcome State Fault Refusal :=
  laneStep (vrrOp1 t.pair d a b)
    (fun _ w l => .ofV (vwrite t.pair d.val (bfiOp t.width (rawReg t.pair w l a) (rawReg t.pair w l d) (b.get w l).toNat))) s

/-! ## ICMP (R302) -/

/-- A condition on two values of a width: 0 to 5 signed, 6 and 7 unsigned (R281). -/
def icond (cc : ICond) (w a b : Nat) : Bool :=
  match cc with
  | .eq => a == b
  | .ne => a != b
  | .lt => signedOf w a < signedOf w b
  | .le => signedOf w a ≤ signedOf w b
  | .gt => signedOf w b < signedOf w a
  | .ge => signedOf w b ≤ signedOf w a
  | .ltu => a < b
  | .geu => b ≤ a

def execIcmp (cc : ICond) (d : PReg) (a : VReg) (b : VOp) (s : State) : Host.Outcome State Fault Refusal :=
  laneStep ⟨a.val :: b.regs false, b.size⟩
    (fun _ w l => .ofP d (icond cc 32 (w.vreg l a.val).toNat (b.get w l).toNat)) s

end Sys2Proof.Machine
end

