-- ==== Sys2Proof/Machine/LaneFloat.lean ====
section
/-!
DEFINITION. Lane floating-point instructions (R303 to R307) and conversions without a block or a codebook (R308, R309): FADD to FMAX,
FCMP, FUNA, CVT.
-/

namespace Sys2Proof

/-- The format of the elements of a float type (R279). -/
def FType.fmt : FType → Machine.FFmt
  | .f32 | .f32x2 => .f32
  | .f64 => .f64
  | .bf16x2 => .bf16
  | .f16x2 | .f16 => .f16

/-- The number of elements. -/
def FType.elems : FType → Nat
  | .f32x2 | .bf16x2 | .f16x2 => 2
  | _ => 1

/-- The format of a number of CVT that is a float (R308). -/
def NumFmt.float : NumFmt → Option Machine.FFmt
  | .f32 => some .f32
  | .f64 => some .f64
  | .bf16 => some .bf16
  | .f16 => some .f16
  | _ => none

/-- Width and signedness of a number of CVT that is an integer (R308). -/
def NumFmt.int : NumFmt → Nat × Bool
  | .i32 => (32, true)
  | .n32 => (32, false)
  | .i64 => (64, true)
  | _ => (64, false)

end Sys2Proof

namespace Sys2Proof.Machine

/-- The bits of a vb operand of a float type; a literal is extended as R274 says. -/
def floatOperand (t : FType) (w : Wave) (lane : Nat) : VOp → Nat
  | .reg r => rawReg t.pair w lane r
  | .lit x => match t with
    | .f64 => litF64 x
    | .f32x2 => x.toNat + 2 ^ 32 * x.toNat
    | _ => x.toNat

/-- An element of an operand of a float type. -/
def felem (t : FType) (raw h : Nat) : Nat := raw / 2 ^ (t.fmt.bits * h) % 2 ^ t.fmt.bits

/-- The elements of a float result, with the flags of all of them. -/
def floatElems (t : FType) (f : Nat → Nat × Nat) : Nat × Nat :=
  let rs := (List.range t.elems).map f
  (packElems t.fmt.bits (rs.map (fun r => r.1)), rs.foldl (fun (m : Nat) r => m ||| r.2) 0)

/-- The meaning of a float instruction of two operands and the prior vd: `op` takes the mode and the three encodings. -/
def floatRow (op : FFmt → Rnd → Nat → Nat → Nat → Nat × Nat) (t : FType) (d a : VReg) (b : VOp) (s : State) :
    Host.Outcome State Fault Refusal :=
  laneStep (vrrOp t.pair d a b) (fun _ w l =>
    let r := floatElems t (fun h => op t.fmt (rmodeOf w.fmode) (felem t (rawReg t.pair w l a) h) (felem t (floatOperand t w l b) h)
      (felem t (rawReg t.pair w l d) h))
    .ofF (vwrite t.pair d.val r.1) r.2) s

def execFadd (t : FType) (d a : VReg) (b : VOp) (s : State) : Host.Outcome State Fault Refusal :=
  floatRow (fun f m x y _ => f.add m (f.decode x) (f.decode y)) t d a b s
def execFsub (t : FType) (d a : VReg) (b : VOp) (s : State) : Host.Outcome State Fault Refusal :=
  floatRow (fun f m x y _ => f.add m (f.decode x) (f.decode y).neg) t d a b s
def execFmul (t : FType) (d a : VReg) (b : VOp) (s : State) : Host.Outcome State Fault Refusal :=
  floatRow (fun f m x y _ => f.mul m (f.decode x) (f.decode y)) t d a b s
def execFfma (t : FType) (d a : VReg) (b : VOp) (s : State) : Host.Outcome State Fault Refusal :=
  floatRow (fun f m x y z => f.fma m (f.decode x) (f.decode y) (f.decode z)) t d a b s
def execFmin (t : FType) (d a : VReg) (b : VOp) (s : State) : Host.Outcome State Fault Refusal :=
  floatRow (fun f _ x y _ => f.minMax false x y) t d a b s
def execFmax (t : FType) (d a : VReg) (b : VOp) (s : State) : Host.Outcome State Fault Refusal :=
  floatRow (fun f _ x y _ => f.minMax true x y) t d a b s

/-- FCMP (R305). -/
def execFcmp (cc : FCond) (pair : Bool) (d : PReg) (a b : VReg) (s : State) : Host.Outcome State Fault Refusal :=
  laneStep ⟨regsOf pair a ++ regsOf pair b, 4⟩ (fun _ w l =>
    let f := if pair then FFmt.f64 else FFmt.f32
    let r := fcmpVal cc (f.decode (rawReg pair w l a)) (f.decode (rawReg pair w l b))
    { p := [(d.val, r.1)], flags := r.2 }) s

/-! ## FUNA (R306, R307) -/

/-- The meaning of a unary float function. -/
def funaRow (op : FFmt → Word → Nat → Nat × Nat) (t : FType) (d a : VReg) (s : State) : Host.Outcome State Fault Refusal :=
  laneStep ⟨regsOf t.pair d ++ regsOf t.pair a, 4⟩ (fun _ w l =>
    let r := floatElems t (fun h => op t.fmt w.fmode (felem t (rawReg t.pair w l a) h))
    .ofF (vwrite t.pair d.val r.1) r.2) s

def execFrnd (t : FType) (r : RoundCode) (d a : VReg) (s : State) : Host.Outcome State Fault Refusal :=
  funaRow (fun f m x => f.rint (Rnd.ofCode m r) x) t d a s
def execFrcp (t : FType) (d a : VReg) (s : State) : Host.Outcome State Fault Refusal :=
  funaRow (fun f m x => f.rcp (rmodeOf m) (f.decode x)) t d a s
def execFrsq (t : FType) (d a : VReg) (s : State) : Host.Outcome State Fault Refusal :=
  funaRow (fun f m x => f.rsq (rmodeOf m) (f.decode x)) t d a s
def execFsqrt (t : FType) (d a : VReg) (s : State) : Host.Outcome State Fault Refusal :=
  funaRow (fun f m x => f.sqrt (rmodeOf m) (f.decode x)) t d a s
def execFexp2 (t : FType) (d a : VReg) (s : State) : Host.Outcome State Fault Refusal :=
  funaRow (fun f m x => f.exp2 (rmodeOf m) (f.decode x)) t d a s
def execFlog2 (t : FType) (d a : VReg) (s : State) : Host.Outcome State Fault Refusal :=
  funaRow (fun f m x => f.log2 (rmodeOf m) (f.decode x)) t d a s
def execFsinp (t : FType) (d a : VReg) (s : State) : Host.Outcome State Fault Refusal :=
  funaRow (fun f m x => f.trig (rmodeOf m) true (f.decode x)) t d a s
def execFcosp (t : FType) (d a : VReg) (s : State) : Host.Outcome State Fault Refusal :=
  funaRow (fun f m x => f.trig (rmodeOf m) false (f.decode x)) t d a s
def execFneg (t : FType) (d a : VReg) (s : State) : Host.Outcome State Fault Refusal :=
  funaRow (fun f _ x => f.setSign false x) t d a s
def execFabs (t : FType) (d a : VReg) (s : State) : Host.Outcome State Fault Refusal :=
  funaRow (fun f _ x => f.setSign true x) t d a s

/-- FCLASS (R307): the mask goes to the single register vd and raises nothing. -/
def execFclass (t : FType) (d a : VReg) (s : State) : Host.Outcome State Fault Refusal :=
  laneStep ⟨d.val :: regsOf t.pair a, 4⟩
    (fun _ w l => .ofV [(d.val, BitVec.ofNat 32 (t.fmt.classOf (felem t (rawReg t.pair w l a) 0)))]) s

/-! ## CVT (R262 to R264, R308, R309) -/

/-- An integer as bits of a type with the invalid flag: the nearest limit outside the type (R263, R309). -/
def toIntRange (w : Nat) (sgn : Bool) (x : Int) : Nat × Nat :=
  if x < lowest w sgn || highest w sgn < x then (wrapInt w (clampInt (lowest w sgn) (highest w sgn) x), flInvalid) else (wrapInt w x, 0)

/-- A float to an integer (R263). -/
def floatToInt (mode : Rnd) (w : Nat) (sgn : Bool) : FVal → Nat × Nat
  | .nan _ => (0, flInvalid)
  | .inf neg => (wrapInt w (if neg then lowest w sgn else highest w sgn), flInvalid)
  | .fin neg m e =>
    let r := roundAt mode neg m e 0
    let x := toIntRange w sgn (if neg then -(r.1 : Int) else r.1)
    (x.1, if x.2 == 0 && r.2 then flInexact else x.2)

/-- A number of CVT: a float encoding of a format, or an integer. -/
inductive Num where
  | float (f : FFmt) (x : Nat)
  | int (w : Nat) (sgn : Bool) (x : Int)
  deriving DecidableEq, Repr

/-- A number converted to a float format (R262, R309); to its own format it stays as it is, with a NaN made canonical. -/
def Num.toFloat (mode : Rnd) (sat : Bool) (g : FFmt) : Num → Nat × Nat
  | .int _ _ x => g.round mode sat (x < 0) x.natAbs 0
  | .float f x => if f == g && !(f.decode x).isNan then (x, 0) else g.ofVal mode sat (f.decode x)

/-- A number converted to an integer type (R263, R309). -/
def Num.toInt (mode : Rnd) (w : Nat) (sgn : Bool) : Num → Nat × Nat
  | .int _ _ x => toIntRange w sgn x
  | .float f x => floatToInt mode w sgn (f.decode x)

/-- The number that a register operand of CVT holds: the source bits above the number are ignored (R294, R308). -/
def readNum (n : NumFmt) (raw : Nat) : Num :=
  match n.float with
  | some f => .float f (raw % 2 ^ f.bits)
  | none => .int n.int.1 n.int.2 (if n.int.2 then signedOf n.int.1 raw else (raw % 2 ^ n.int.1 : Nat))

/-- A conversion to a number of CVT. -/
def toNum (mode : Rnd) (n : NumFmt) (x : Num) : Nat × Nat :=
  match n.float with
  | some f => x.toFloat mode false f
  | none => x.toInt mode n.int.1 n.int.2

/-- The element format, SAT and ROUND of a format slot (R255). -/
def slotElem (f : Nat) : Nat := bitsOf f 3 0
def slotSat (f : Nat) : Bool := bitOf f 19
def slotScaled (f : Nat) : Bool := bitsOf f 12 11 == 1
def slotRound (f u : Nat) : Rnd :=
  match bitsOf f 18 16 with
  | 0 => .rne
  | 1 => .rz
  | 2 => .rd
  | 3 => .ru
  | _ => .sr u

/-- CVT without a slot (R309). -/
def cvtPlain (dst src : NumFmt) (r : RoundCode) (d a : VReg) (s : State) : Host.Outcome State Fault Refusal :=
  laneStep ⟨regsOf dst.pair d ++ regsOf src.pair a, 4⟩ (fun _ w l =>
    let x := toNum (Rnd.ofCode w.fmode r) dst (readNum src (rawReg src.pair w l a))
    .ofF (vwrite dst.pair d.val x.1) x.2) s

/-- CVT into a slot's format: the slot's ROUND and SAT; u is vd as it stood (R309). A codebook slot is FORMAT_SLOT. -/
def cvtToSlot (f : FSlot) (src : NumFmt) (d a : VReg) (s : State) : Host.Outcome State Fault Refusal :=
  laneStep ⟨d.val :: regsOf src.pair a, 4⟩ (fun wid w l =>
    let k := s.fslotOf wid f
    if slotElem k == 8 then .trap 0x18
    else
      let x := (readNum src (rawReg src.pair w l a)).toFloat (slotRound k (w.vreg l d.val).toNat) (slotSat k) (.ofCode (slotElem k))
      .ofF (vwrite false d.val x.1) x.2) s

/-- CVT out of a slot's format under sr.fmode (R309). -/
def cvtFromSlot (dst : NumFmt) (f : FSlot) (d a : VReg) (s : State) : Host.Outcome State Fault Refusal :=
  laneStep ⟨regsOf dst.pair d ++ [a.val], 4⟩ (fun wid w l =>
    let k := s.fslotOf wid f
    if slotElem k == 8 then .trap 0x18
    else
      let g := FFmt.ofCode (slotElem k)
      let x := toNum (rmodeOf w.fmode) dst (.float g ((w.vreg l a.val).toNat % 2 ^ g.bits))
      .ofF (vwrite dst.pair d.val x.1) x.2) s

def execCvt (c : CvtKind) (d a : VReg) (s : State) : Host.Outcome State Fault Refusal :=
  match c with
  | .plain dst src r => cvtPlain dst src r d a s
  | .toSlot f src => cvtToSlot f src d a s
  | .fromSlot dst f => cvtFromSlot dst f d a s

end Sys2Proof.Machine
end

