-- ==== Sys2Proof/Machine/Retire.lean ====
section
/-!
DEFINITION. Team barriers (R368) and the end of threads, waves and teams (R149, R376).
-/

namespace Sys2Proof.Machine

namespace State

/-! ## Team barriers (R368) -/

/-- Every non-retired wave of the team has arrived in the current phase; an evicted wave is not counted as arrived (R117). -/
def phaseFull (s : State) (t phase : Nat) : Bool :=
  (s.wavesOf t).all (fun e => e.2.retired || (e.2.evicted.isNone && e.2.arrived == some phase))

/-- Releases a wave at the completion of a phase: its arrival no longer stands, and a WAIT or SYNC that it was parked in is over.
The acquire at team scope does nothing more (R213). -/
def releaseBar (s : State) (wid : Nat) : State :=
  s.updWave wid (fun w =>
    let w := { w with arrived := none, barPc := none }
    if w.park == .bar then { w.pass 4 with park := .no } else w)

/-- Completes the phase of a team's barrier where it is full (R368). -/
def checkPhase (s : State) (t : Nat) : State :=
  match Tbl.find s.teams t with
  | none => s
  | some k =>
    if s.phaseFull t k.phase && (s.wavesOf t).any (fun e => e.2.arrived == some k.phase) then
      (s.wavesOf t).foldl (fun s e => s.releaseBar e.1) (s.updTeam t (fun k => { k with phase := k.phase + 1 }))
    else s

/-! ## Retirement (R149) -/

/-- The throttle causes of a wave that has retired pass to the team's elected wave (R376). -/
def passThrottle (s : State) (t wid : Nat) : State :=
  match Tbl.find s.waves wid, s.elected t with
  | some w, some e =>
    let th := w.async.filter (fun a => a.1 == 0x70 || a.1 == 0x71)
    (s.updWave wid (fun w => { w with async := w.async.filter (fun a => a.1 != 0x70 && a.1 != 0x71) })).updWave e
      (fun w => { w with async := w.async ++ th })
  | _, _ => s

/-- A team retires: all its waves have retired, its engine jobs have ended and no store of its waves waits in the side log (R149,
LE 21). -/
def checkTeam (s : State) (t : Nat) : State :=
  match Tbl.find s.teams t with
  | none => s
  | some k =>
    let ws := s.wavesOf t
    if ws.all (fun e => e.2.retired) && (s.jobsOf t).all (fun e => e.2.card.isEmpty) && !(ws.any (fun e => s.logPending e.1 || s.storeQueued e.1)) && k.loc == .resident then
      let run := s.ran k
      let st := ws.foldl (fun m e => stampMax m (s.releaseStamp e.1)) (0, 0)
      (((s.updGrid k.grid (fun g => { g with retired := g.retired + 1, times := (run :: g.times).take 16, did := stampMax g.did st })).removeTeam t).boundary k.core).gridCheck k.grid
    else s

/-- A wave whose threads have all exited retires: its slabs and place are free, its throttle causes pass on, a barrier phase may
complete, its team may come to rest or retire (R149, R368, R376, R123). -/
def waveRetired (s : State) (wid : Nat) : State :=
  match Tbl.find s.waves wid with
  | none => s
  | some w =>
    if w.retired then
      let c := (s.placeOf w).1
      (((((s.passThrottle w.team wid).checkPhase w.team).freed c).lendLater c).rested w.team).checkTeam w.team
    else s

end State

end Sys2Proof.Machine
end

