-- ==== Sys2Proof/Machine/LaneMisc.lean ====
section
/-!
DEFINITION. LEA (R301), block scales and codebooks (R253, R310 to R312), packing (R313), SHFL (R315), predicates and guard (R316,
R317), lane control flow (R318, R319) and RNG (R271, R320).
-/

namespace Sys2Proof

/-- Bits of one element (R313). -/
def ElemCode.width : ElemCode → Nat
  | .bf16 | .f16 => 16
  | .e4m3 | .e5m2 => 8
  | .e2m3 | .e3m2 => 6
  | .e2m1 => 4

end Sys2Proof

namespace Sys2Proof.Machine

/-! ## LEA (R301) -/

/-- The start of a wave's team in its core's scratchpad. -/
def State.startOf (s : State) (w : Wave) : Nat := ((Tbl.find s.teams w.team).map (fun t => t.start)).getD 0

/-- lea() of R301 for one index. -/
def State.leaOf (s : State) (wid : Nat) (w : Wave) (b : RecBits) (i : Nat) : LaneAddr :=
  match laneAddress b i (Rcd.esize b) with
  | .at_ a => .at_ (if Rcd.space b == 1 then s.coreOf wid % 48 * 2 ^ 19 + s.startOf w + a else a)
  | x => x

def execLea (d : VReg) (n : BReg) (o : VReg) (s : State) : Host.Outcome State Fault Refusal :=
  laneStep ⟨regsOf true d ++ [o.val], 4⟩ (fun wid w l =>
    match s.leaOf wid w (w.breg n.val) (w.vreg l o.val).toNat with
    | .at_ a => .ofV (vwrite true d.val (a % 2 ^ 52))
    | .dropped => .ofV (vwrite true d.val 0)
    | .trap c => .trap c) s

/-! ## QBLK (R310) -/

/-- The exponent of the largest value of an element format (R310). -/
def emaxOf : Nat → Int
  | 3 => 8
  | 4 => 15
  | 6 => 4
  | _ => 2

/-- The E8M0 scale of a block whose largest magnitude is given (R310). -/
def qblkScale (elem : Nat) (m : FVal) : Nat :=
  match m with
  | .fin _ x e => if x == 0 then 127 else (clampInt 0 254 ((x.log2 : Int) + e - emaxOf elem + 127)).toNat
  | _ => 0xFF

/-- The reciprocal of a scale as binary32. -/
def qblkRecip (e : Nat) : Nat := if e == 0xFF then FFmt.f32.nanBits else (FFmt.f32.round .rne false false 1 (127 - e)).1

def execQblk (f : FSlot) (d a : VReg) (s : State) : Host.Outcome State Fault Refusal :=
  laneStep ⟨regsOf true d ++ [a.val], 4⟩ (fun wid w l =>
    let k := s.fslotOf wid f
    if !slotScaled k then .trap 0x18
    else
      let e := qblkScale (slotElem k) (FFmt.f32.decode (w.vreg l a.val).toNat)
      .ofV [(d.val, BitVec.ofNat 32 e), (d.val + 1, BitVec.ofNat 32 (qblkRecip e))]) s

/-! ## The codebook (R253, R254, R311, R312) -/

/-- The codebook table of a slot. -/
def slotTable (f : Nat) : Nat := bitsOf f 23 20

/-- The physical address of entry `i` of a codebook table of a partition (R254). -/
def State.cbAddr (s : State) (p tab i : Nat) : Nat := fieldOf (s.part p).cbTable 47 14 * 2 ^ 14 + 1024 * tab + 4 * i

/-- Entry `i` of a codebook table of a partition (R254). The bytes of a table that lies beyond HBM read as 0 (LE 30). -/
def State.cbEntry (s : State) (p tab i : Nat) : Nat := s.natAt (s.cbAddr p tab i) 4

/-- Entries of a codebook table are read at the home L2, as requests of the class of the agent (R183, R254). Copies that a core may keep of them
are not used (LE 82). -/
def State.cbTouch (s : State) (ag : Agent) (tab : Nat) (is : List Nat) : State :=
  ((dedup (is.map (fun i => s.cbAddr ag.part tab i / 128 * 128))).filter (· < hbmEnd)).foldl (fun s a => s.l2Home ag a 0 false) s

/-- A lane instruction that names the slot `f` reads entries of its codebook table, in the waves that perform it: those of a state `s`, which it has
left as `t`. -/
def State.cbRead (s t : State) (f : FSlot) (op : LaneOp) (e : Nat → Wave → Nat → LaneRes) (is : Wave → Nat → List Nat) : State :=
  match s.cur with
  | none => t
  | some g => g.waves.foldl (fun t wid => match Tbl.find s.waves wid with
    | some w => if State.laneGoes op (e wid w) g wid w
        then t.cbTouch (s.agentOf wid) (slotTable (s.fslotOf wid f)) (((g.lanesOf wid).filter w.guardOn).flatMap (is w)) else t
    | none => t) t

/-- The frame of a lane instruction on the codebook table of a slot. -/
def cbStep (f : FSlot) (op : LaneOp) (e : Nat → Wave → Nat → LaneRes) (is : Wave → Nat → List Nat) (s : State) : Host.Outcome State Fault Refusal :=
  match laneStep op e s with
  | .next t => .next (s.cbRead t f op e is)
  | x => x

/-- The first entry of a codebook table, of those named, that is poisoned: its address, which is physical, as the spec gives a table no other
(R246, LE 30). -/
def State.cbPoison (s : State) (p tab : Nat) (is : List Nat) : Option Nat :=
  if s.poison.isEmpty && s.kettle.fencedPc.isEmpty then none
  else ((is.map (s.cbAddr p tab)).find? (fun a => s.poisoned a 4))

/-- Coordinate `j` of an entry, in half units. -/
def cbCoord (entry j : Nat) : Int := signedOf 4 (entry / 2 ^ (4 * j))

/-- cb2_decode of R253 with a scale of 1, for weight `j`, in half units. -/
def cbWeight (entry idx j : Nat) : Int := if bitOf idx j then -cbCoord entry j else cbCoord entry j

/-- A number of half units as a BF16 encoding. -/
def halfToBf16 (x : Int) : Nat := (FFmt.bf16.round .rne false (x < 0) x.natAbs (-1)).1

def execCbdec (f : FSlot) (d a : VReg) (s : State) : Host.Outcome State Fault Refusal :=
  cbStep f ⟨block d.val 4 ++ [a.val], 4⟩ (fun wid w l =>
    let k := s.fslotOf wid f
    if slotElem k != 8 then .trap 0x18
    else
      let idx := (w.vreg l a.val).toNat % 2 ^ 16
      let e := s.cbEntry (s.partOf wid) (slotTable k) (idx / 256)
      match s.cbPoison (s.partOf wid) (slotTable k) [idx / 256] with
      | some a => .poison a
      | none => .ofV ((List.range 4).map (fun h => (d.val + h,
        BitVec.ofNat 32 (halfToBf16 (cbWeight e idx (2 * h)) + 2 ^ 16 * halfToBf16 (cbWeight e idx (2 * h + 1)))))))
    (fun w l => [(w.vreg l a.val).toNat % 2 ^ 16 / 256]) s

/-- A magnitude of BF16 in units of 2^-133, which all of them are multiples of. -/
def bf16Units : FVal → Int
  | .fin _ m e => (m * 2 ^ (e + 133).toNat : Nat)
  | _ => 0

/-- The squared distance of eight weights to an entry, without their signs (R312). -/
def cbErr (x : List FVal) (entry : Nat) : Nat :=
  ((List.range 8).map (fun j =>
    (bf16Units (x.getD j (.nan false)) - (cbCoord entry j).natAbs * (2 ^ 132 : Nat)).natAbs ^ 2)).sum

/-- The value is below zero; −0 is not. -/
def FVal.below0 : FVal → Bool
  | .fin n m _ => n && m != 0
  | v => v.isNeg

/-- The index whose entry is nearest to eight finite weights, with the sign flips (R312). -/
def cbNearest (tab : List Nat) (x : List FVal) : Nat :=
  let b := ((leastBy (fun (e : Nat × Nat) => e.1) ((List.range tab.length).map (fun i => (cbErr x (tab.getD i 0), i)))).map (fun e => e.2)).getD 0
  let e := tab.getD b 0
  b * 256 + ((List.range 8).map (fun j =>
    if cbCoord e j != 0 && ((decide (cbCoord e j < 0)) != (x.getD j (.nan false)).below0) then 2 ^ j else 0)).sum

/-- Every decoded weight equals the weight that was encoded, as a number: a −0 that decodes as +0 does not differ (R312, LE 25). -/
def cbExact (entry idx : Nat) (x : List FVal) : Bool :=
  (List.range 8).all (fun j => (x.getD j (.nan false)).cmp (.fin (cbWeight entry idx j < 0) (cbWeight entry idx j).natAbs (-1)) == 0)

/-- CBENC of eight weights (R312): the index and the flags. -/
def cbEncode (tab : List Nat) (x : List FVal) : Nat × Nat :=
  if x.any (fun v => v.isNan || v.isInf) then (0, flInvalid)
  else
    let idx := cbNearest tab x
    (idx, if cbExact (tab.getD (idx / 256) 0) idx x then 0 else flInexact)

def execCbenc (f : FSlot) (d a : VReg) (s : State) : Host.Outcome State Fault Refusal :=
  cbStep f ⟨d.val :: block a.val 4, 4⟩ (fun wid w l =>
    let k := s.fslotOf wid f
    if slotElem k != 8 then .trap 0x18
    else
      let x := (List.range 8).map (fun j => FFmt.bf16.decode ((w.vreg l (a.val + j / 2)).toNat / 2 ^ (16 * (j % 2)) % 2 ^ 16))
      let r := cbEncode ((List.range 256).map (s.cbEntry (s.partOf wid) (slotTable k))) x
      match s.cbPoison (s.partOf wid) (slotTable k) (List.range 256) with
      | some a => .poison a
      | none => .ofF [(d.val, BitVec.ofNat 32 r.1)] r.2) (fun _ _ => List.range 256) s

/-! ## PACK and UNPK (R313) -/

def execPack (e : ElemCode) (d a : VReg) (s : State) : Host.Outcome State Fault Refusal :=
  laneStep ⟨d.val :: block a.val e.count, 4⟩ (fun _ w l =>
    .ofV [(d.val, BitVec.ofNat 32 (packElems e.width ((block a.val e.count).map (fun r => (w.vreg l r).toNat))))]) s

def execUnpk (e : ElemCode) (d a : VReg) (s : State) : Host.Outcome State Fault Refusal :=
  laneStep ⟨block d.val e.count ++ [a.val], 4⟩ (fun _ w l =>
    .ofV ((List.range e.count).map (fun i => (d.val + i,
      BitVec.ofNat 32 ((w.vreg l a.val).toNat / 2 ^ (e.width * i) % 2 ^ e.width))))) s

/-! ## SHFL (R314, R315) -/

/-- The source thread of a mode, which may lie outside the wave. -/
def shflSource (m : ShflMode) (i k : Nat) : Int :=
  match m with
  | .idx => k
  | .up => (i : Int) - k
  | .down => (i : Int) + k
  | .bfly => ((i ^^^ k : Nat) : Int)

/-- The lane whose va a lane takes: its own where the source lies outside the wave or has exited. A shadow lane reads a shadow
lane (R148). -/
def shflLane (w : Wave) (prot : Bool) (m : ShflMode) (lane k : Nat) : Nat :=
  let i := if prot then lane / 2 else lane
  let n : Int := if prot then 16 else 32
  let src := shflSource m i k
  let phys := if prot then 2 * src.toNat + lane % 2 else src.toNat
  if src < 0 || n ≤ src || (w.thread phys).exited then lane else phys

def execShfl (m : ShflMode) (d a : VReg) (b : VOp) (s : State) : Host.Outcome State Fault Refusal :=
  laneStep (vrrOp false d a b) (fun wid w l =>
    .ofV [(d.val, w.vreg (shflLane w (s.prot wid) m l ((b.get w l).toNat % 32)) a.val)]) s

/-! ## Predicates and guard (R316, R317) -/

/-- The meaning of a predicate operation. -/
def predRow (op : Bool → Bool → Bool) (neg : Bool) (d a b : PReg) (s : State) : Host.Outcome State Fault Refusal :=
  laneStep ⟨[], 4⟩ (fun _ w l => .ofP d (op (w.preg l a.val) (w.preg l b.val != neg))) s

def execPand (neg : Bool) (d a b : PReg) (s : State) : Host.Outcome State Fault Refusal := predRow (· && ·) neg d a b s
def execPor (neg : Bool) (d a b : PReg) (s : State) : Host.Outcome State Fault Refusal := predRow (· || ·) neg d a b s
def execPxor (neg : Bool) (d a b : PReg) (s : State) : Host.Outcome State Fault Refusal := predRow (· != ·) neg d a b s
def execPnot (d a : PReg) (s : State) : Host.Outcome State Fault Refusal := laneStep ⟨[], 4⟩ (fun _ w l => .ofP d (!w.preg l a.val)) s
def execPmov (d a : PReg) (s : State) : Host.Outcome State Fault Refusal := laneStep ⟨[], 4⟩ (fun _ w l => .ofP d (w.preg l a.val)) s

/-- GSEL in the lanes of one wave: it acts whatever the guard (R160, R317). -/
def gselWave (sel : Option (PReg × Bool)) (g : Group) (s : State) (wid : Nat) : State :=
  s.updWave wid (fun w => (g.lanesOf wid).foldl (fun (w : Wave) l => w.updThread l (fun t => { t with guard := sel, pc := t.pc + 4 })) w)

/-- The meaning of GSEL. -/
def gselStep (sel : Option (PReg × Bool)) (s : State) : Host.Outcome State Fault Refusal :=
  match s.cur with
  | none => .fault .noWave
  | some g => .next (g.waves.foldl (gselWave sel g) s)

def execGsel (neg : Bool) (a : PReg) (s : State) : Host.Outcome State Fault Refusal := gselStep (some (a, neg)) s
def execGselNone (s : State) : Host.Outcome State Fault Refusal := gselStep none s

/-! ## Control flow (R318, R319) -/

/-- The target of a branch with a signed word offset (R275), which bounds computed targets only: a sum below 0 or at 2^52 and beyond stays a
64-bit number, at which the fetch fails (LE 81). -/
def branchTarget (n pc off : Nat) : Nat := wrapInt 64 ((pc : Int) + 4 * signedOf n off)

def execBra (neg : Bool) (p : PReg) (off : BitVec 17) (s : State) : Host.Outcome State Fault Refusal :=
  laneStep ⟨[], 4⟩ (fun _ w l =>
    if w.preg l p.val != neg then { target := some (branchTarget 17 (w.thread l).pc off.toNat) } else {}) s

/-- CALL writes the link pair v126 in the threads that branch; it names the pair whatever the guard (R278, R318). -/
def execCall (neg : Bool) (p : PReg) (off : BitVec 17) (s : State) : Host.Outcome State Fault Refusal :=
  laneStep ⟨[126, 127], 4⟩ (fun _ w l =>
    if w.preg l p.val != neg then
      { v := vwrite true 126 ((w.thread l).pc + 4), target := some (branchTarget 17 (w.thread l).pc off.toNat) }
    else {}) s

def execNop (s : State) : Host.Outcome State Fault Refusal := laneStep ⟨[], 4⟩ (fun _ _ _ => {}) s

def execBrx (a : VReg) (s : State) : Host.Outcome State Fault Refusal :=
  laneStep ⟨regsOf true a, 4⟩ (fun _ w l => { target := some (w.vpair l a.val).toNat }) s

def execRet (s : State) : Host.Outcome State Fault Refusal :=
  laneStep ⟨[126, 127], 4⟩ (fun _ w l => { target := some (w.vpair l 126).toNat }) s

/-- EXIT: the thread exits (R149); in a gate callee it is ILLEGAL_OP (R237). -/
def exitRes (w : Wave) : LaneRes := if w.depth != 0 then .trap 0x10 else { exits := true }

/-- EXIT, with the retirement of the waves whose last threads it ends. -/
def execExit (s : State) : Host.Outcome State Fault Refusal :=
  match s.cur with
  | none => .fault .noWave
  | some g => .next (g.waves.foldl (fun s wid => s.waveRetired wid) (s.laneGroup ⟨[], 4⟩ (fun _ w _ => exitRes w) g))

/-! ## RNG (R271, R320) -/

/-- One round of Philox-4×32. -/
def philoxRound (c : Nat × Nat × Nat × Nat) (k0 k1 : Nat) : Nat × Nat × Nat × Nat :=
  let p := 0xD2511F53 * c.1
  let q := 0xCD9E8D57 * c.2.2.1
  (q / 2 ^ 32 ^^^ c.2.1 ^^^ k0, q % 2 ^ 32, p / 2 ^ 32 ^^^ c.2.2.2 ^^^ k1, p % 2 ^ 32)

/-- The remaining rounds, the keys bumped after each. -/
def philox : Nat → Nat × Nat × Nat × Nat → Nat → Nat → Nat × Nat × Nat × Nat
  | 0, c, _, _ => c
  | n + 1, c, k0, k1 => philox n (philoxRound c k0 k1) ((k0 + 0x9E3779B9) % 2 ^ 32) ((k1 + 0xBB67AE85) % 2 ^ 32)

def execRng (d a : VReg) (s : State) : Host.Outcome State Fault Refusal :=
  laneStep ⟨block d.val 4 ++ block a.val 4, 4⟩ (fun _ w l =>
    let c := fun (i : Nat) => (w.vreg l (a.val + i)).toNat
    let r := philox 10 (c 0, c 1, c 2, c 3) (fieldOf w.rngkey 31 0) (fieldOf w.rngkey 63 32)
    .ofV [(d.val, BitVec.ofNat 32 r.1), (d.val + 1, BitVec.ofNat 32 r.2.1), (d.val + 2, BitVec.ofNat 32 r.2.2.1),
      (d.val + 3, BitVec.ofNat 32 r.2.2.2)]) s

end Sys2Proof.Machine
end

