-- ==== Sys2Proof/Machine/Uniform.lean ====
section
/-!
DEFINITION. Uniform integer instructions (R361 to R364), votes and single-lane reads (R365, R366), BRU (R367).
-/

namespace Sys2Proof

/-- The sb operand: a register, or the literal sign-extended (R361). -/
def SOp.get (w : Machine.Wave) : SOp → Nat
  | .reg r => (w.sreg r.val).toNat
  | .lit x => Machine.wrapInt 64 (Machine.signedOf 32 x.toNat)

end Sys2Proof

namespace Sys2Proof.Machine

/-- sint_op of R362: an operation of a width on the sources, sliced, and sign-extended from 32 bits. -/
def sintOp (op : Nat → Nat → Nat → Int) (narrow : Bool) (a b : Nat) : Nat :=
  let n := if narrow then 32 else 64
  let r := wrapInt n (op n (a % 2 ^ n) (b % 2 ^ n))
  if narrow then wrapInt 64 (signedOf 32 r) else r

/-- The meaning of an instruction of R362. -/
def sintRow (op : Nat → Nat → Nat → Int) (narrow : Bool) (d a : SReg) (b : SOp) (s : State) : Host.Outcome State Fault Refusal :=
  uniPure { sdst := [d.val], size := b.size } (fun w =>
    w.setS d.val (BitVec.ofNat 64 (sintOp op narrow (w.sreg a.val).toNat (b.get w)))) s

def execSadd (narrow : Bool) (d a : SReg) (b : SOp) (s : State) : Host.Outcome State Fault Refusal :=
  sintRow (fun _ x y => (x : Int) + y) narrow d a b s
def execSsub (narrow : Bool) (d a : SReg) (b : SOp) (s : State) : Host.Outcome State Fault Refusal :=
  sintRow (fun _ x y => (x : Int) - y) narrow d a b s
def execSmul (narrow : Bool) (d a : SReg) (b : SOp) (s : State) : Host.Outcome State Fault Refusal :=
  sintRow (fun _ x y => (x : Int) * y) narrow d a b s
def execSand (narrow : Bool) (d a : SReg) (b : SOp) (s : State) : Host.Outcome State Fault Refusal :=
  sintRow (fun _ x y => ((x &&& y : Nat) : Int)) narrow d a b s
def execSor (narrow : Bool) (d a : SReg) (b : SOp) (s : State) : Host.Outcome State Fault Refusal :=
  sintRow (fun _ x y => ((x ||| y : Nat) : Int)) narrow d a b s
def execSxor (narrow : Bool) (d a : SReg) (b : SOp) (s : State) : Host.Outcome State Fault Refusal :=
  sintRow (fun _ x y => ((x ^^^ y : Nat) : Int)) narrow d a b s
def execSshl (narrow : Bool) (d a : SReg) (b : SOp) (s : State) : Host.Outcome State Fault Refusal :=
  sintRow (fun n x c => if n ≤ c then 0 else ((x * 2 ^ c : Nat) : Int)) narrow d a b s
def execSshr (narrow : Bool) (d a : SReg) (b : SOp) (s : State) : Host.Outcome State Fault Refusal :=
  sintRow (fun n x c => if n ≤ c then 0 else ((x / 2 ^ c : Nat) : Int)) narrow d a b s
def execSsar (narrow : Bool) (d a : SReg) (b : SOp) (s : State) : Host.Outcome State Fault Refusal :=
  sintRow (fun n x c => signedOf n x / 2 ^ min c n) narrow d a b s

/-- SCMP (R363). -/
def execScmp (cc : ICond) (d a : SReg) (b : SOp) (s : State) : Host.Outcome State Fault Refusal :=
  uniPure { sdst := [d.val], size := b.size } (fun w =>
    w.setS d.val (BitVec.ofNat 64 (bnat (icond cc 64 (w.sreg a.val).toNat (b.get w))))) s

/-- SSEL (R363). -/
def execSsel (c : SReg) (d a : SReg) (b : SOp) (s : State) : Host.Outcome State Fault Refusal :=
  uniPure { sdst := [d.val], size := b.size } (fun w =>
    w.setS d.val (if w.sreg c.val != 0 then w.sreg a.val else BitVec.ofNat 64 (b.get w))) s

/-- The forms of SMOV (R284, R363). -/
def execSmov (d a : SReg) (s : State) : Host.Outcome State Fault Refusal :=
  uniPure { sdst := [d.val] } (fun w => w.setS d.val (w.sreg a.val)) s
def execSmovLit (d : SReg) (x : Word) (s : State) : Host.Outcome State Fault Refusal :=
  uniPure { sdst := [d.val], size := 8 } (fun w => w.setS d.val (BitVec.ofNat 64 x.toNat)) s
def execSmovSx (d : SReg) (x : Word) (s : State) : Host.Outcome State Fault Refusal :=
  uniPure { sdst := [d.val], size := 8 } (fun w => w.setS d.val (BitVec.ofNat 64 (wrapInt 64 (signedOf 32 x.toNat)))) s
def execSmovD (d : SReg) (lo hi : Word) (s : State) : Host.Outcome State Fault Refusal :=
  uniPure { sdst := [d.val], size := 12 } (fun w => w.setS d.val (BitVec.ofNat 64 (lo.toNat + 2 ^ 32 * hi.toNat))) s

/-- SADDI and SLEA (R364). -/
def execSaddi (d a : SReg) (imm : BitVec 13) (s : State) : Host.Outcome State Fault Refusal :=
  uniPure { sdst := [d.val] } (fun w =>
    w.setS d.val (BitVec.ofNat 64 (wrapInt 64 ((w.sreg a.val).toNat + signedOf 13 imm.toNat)))) s
def execSlea (d a : SReg) (c : Fin 8) (off : BitVec 10) (s : State) : Host.Outcome State Fault Refusal :=
  uniPure { sdst := [d.val] } (fun w =>
    w.setS d.val (BitVec.ofNat 64 (wrapInt 64 ((w.sreg a.val).toNat * 2 ^ c.val + signedOf 10 off.toNat)))) s

/-! ## Votes (R365) -/

/-- The threads of a wave as a program numbers them, with their lanes: in protected launch mode thread t stands on lane 2t, and
its shadow holds the same (R148). -/
def votersOf (prot : Bool) (w : Wave) : List (Nat × Nat) :=
  (w.lanes.filter (fun l => !prot || l % 2 == 0)).map (fun l => (if prot then l / 2 else l, l))

/-- The meaning of a vote: a number from the threads and their predicate. -/
def voteRow (f : List (Nat × Bool) → Nat) (d : SReg) (p : PReg) (s : State) : Host.Outcome State Fault Refusal :=
  uniStep { sdst := [d.val] } (fun s wid w => .done (s.updWave wid (fun x => x.setS d.val (BitVec.ofNat 64
    (f ((votersOf (s.prot wid) w).map (fun t => (t.1, w.preg t.2 p.val)))))))) s

def execVoteAny (d : SReg) (p : PReg) (s : State) : Host.Outcome State Fault Refusal :=
  voteRow (fun l => bnat (l.any (fun t => t.2))) d p s
def execVoteAll (d : SReg) (p : PReg) (s : State) : Host.Outcome State Fault Refusal :=
  voteRow (fun l => bnat (l.all (fun t => t.2))) d p s
def execVoteBallot (d : SReg) (p : PReg) (s : State) : Host.Outcome State Fault Refusal :=
  voteRow (fun l => (l.map (fun t => if t.2 then 2 ^ t.1 else 0)).sum) d p s

/-! ## RDLN (R366) -/

/-- The register of the thread on a lane; a lane beyond the wave's threads reads 0. -/
def rdlnOf (prot : Bool) (w : Wave) (v lane : Nat) : Nat :=
  if prot then (if lane < 16 then (w.vreg (2 * lane) v).toNat else 0) else (w.vreg lane v).toNat

/-- The meaning of RDLN with a lane from the instruction or from a register. -/
def rdlnRow (lane : Wave → Nat) (d : SReg) (v : VReg) (s : State) : Host.Outcome State Fault Refusal :=
  uniStep { sdst := [d.val], regs := [v.val] } (fun s wid w =>
    .done (s.updWave wid (fun x => x.setS d.val (BitVec.ofNat 64 (rdlnOf (s.prot wid) w v.val (lane w)))))) s

def execRdln (d : SReg) (v : VReg) (lane : Fin 32) (s : State) : Host.Outcome State Fault Refusal := rdlnRow (fun _ => lane.val) d v s
def execRdlnReg (d : SReg) (v : VReg) (a : SReg) (s : State) : Host.Outcome State Fault Refusal :=
  rdlnRow (fun w => (w.sreg a.val).toNat % 32) d v s

/-! ## BRU (R367) -/

/-- A BRU condition on a uniform register (R284). -/
def ucondHolds : UCond → DWord → Bool
  | .always, _ => true
  | .eqz, x => x == 0
  | .nez, x => x != 0
  | .ltz, x => x.getLsbD 63
  | .gez, x => !x.getLsbD 63

def execBru (cc : UCond) (a : SReg) (off : BitVec 16) (s : State) : Host.Outcome State Fault Refusal :=
  uniStep {} (fun s wid w => .placed (s.updWave wid (fun x => x.goAll (fun pc =>
    if ucondHolds cc (w.sreg a.val) then branchTarget 16 pc off.toNat else pc + 4)))) s

end Sys2Proof.Machine
end

