-- ==== Sys2Proof/Machine/Sync.lean ====
section
/-!
DEFINITION. Team and cluster barriers (R368 to R370), LJOIN (R374), FENCE (R330), YIELD and SLEEP (R380, R381) with the wake-ups of
SLEEP, operating class and throttle causes (R375, R376).
-/

namespace Sys2Proof.Machine

/-- The instruction waits: every thread stays at it. -/
def UniRes.wait (s : State) (wid : Nat) (x : Wait) : UniRes := .stay (s.parked wid (.poll x))

/-- What follows a release of a wave at a scope, once the release is complete (R212). -/
def UniRes.released (s : State) (wid : Nat) (sc : Scope) (f : State → UniRes) : UniRes :=
  match s.release wid sc with
  | (true, s) => f s
  | (false, s) => .wait s wid .release

/-! ## BAR (R368) -/

/-- The phase of the wave's team. -/
def State.phaseOf (s : State) (w : Wave) : Nat := ((Tbl.find s.teams w.team).map (fun t => t.phase)).getD 0

/-- An arrival of the wave stands in an incomplete phase. -/
def State.standing (s : State) (w : Wave) : Bool := w.arrived == some (s.phaseOf w)

/-- The wave parks in a barrier wait; its team may be at a pre-emption point (R123). -/
def State.barWait (s : State) (wid : Nat) (w : Wave) : State := (s.parked wid .bar).rested w.team

/-- BAR.arrive. -/
def barArriveRes (s : State) (wid : Nat) (w : Wave) : UniRes :=
  if s.standing w then .wait s wid .barrier
  else .released s wid .team (fun s =>
    .placed ((s.updWave wid (fun x => { x.pass 4 with arrived := some (s.phaseOf w) })).checkPhase w.team))

/-- BAR.wait. -/
def barWaitRes (s : State) (wid : Nat) (w : Wave) : UniRes :=
  if s.standing w then .stay (s.barWait wid w) else .done s

/-- BAR.sync: an arrival that this instruction made and that still stands is not repeated (R225, R368). -/
def barSyncRes (pc : Nat) (s : State) (wid : Nat) (w : Wave) : UniRes :=
  if s.standing w then (if w.barPc == some pc then .stay (s.barWait wid w) else .wait s wid .barrier)
  else .released s wid .team (fun s =>
    .stay (((s.updWave wid (fun x => { x with arrived := some (s.phaseOf w), barPc := some pc, park := .bar })).checkPhase w.team).rested
      w.team))

/-- The address of a wave's uniform instruction. -/
def Wave.at_ (w : Wave) : Nat :=
  match w.lanes with
  | [] => 0
  | l :: _ => w.pcOf l

def execBarArrive (s : State) : Host.Outcome State Fault Refusal := uniStep {} (fun s wid w => barArriveRes s wid w) s
def execBarWait (s : State) : Host.Outcome State Fault Refusal := uniStep {} (fun s wid w => barWaitRes s wid w) s
def execBarSync (s : State) : Host.Outcome State Fault Refusal := uniStep {} (fun s wid w => barSyncRes w.at_ s wid w) s

/-! ## CBAR (R369, R370) -/

/-- The name of a cluster barrier: virtual device, cluster, number. -/
def cbarKey (vf cluster id : Nat) : Nat := (vf * 8 + cluster) * 16 + id

/-- The arrivals of a wave in a phase of a cluster barrier stand no longer. -/
def Wave.withoutCbar (w : Wave) (key phase : Nat) : Wave := { w with cbarAt := w.cbarAt.filter (fun m => !(m.key == key && m.phase == phase)) }

/-- The wave is parked in the CBAR that made one of its arrivals in a phase of a cluster barrier. -/
def Wave.inCbar (w : Wave) (key phase : Nat) : Bool := w.park == .cbar && w.cbarAt.contains ⟨key, phase, w.at_, w.lvl⟩

/-- Releases a wave at the completion of a phase of a cluster barrier: a wave that is parked there passes and acquires at cluster
scope; any other has its arrivals no longer standing. -/
def State.releaseCbar (s : State) (key phase : Nat) (wid : Nat) : State :=
  match Tbl.find s.waves wid with
  | none => s
  | some w =>
    if w.inCbar key phase then
      ((s.updWave wid (fun w => { (w.pass 4).withoutCbar key phase with park := .no })).acquire wid .cluster (0, 0)).redrain wid
    else s.updWave wid (fun w => w.withoutCbar key phase)

/-- The completion of a phase reaches a wave whose arrival stood in it (R15). -/
def State.tellCbar (s : State) (key phase wid : Nat) : State :=
  if (Tbl.find s.waves wid).any (fun w => w.cbarAt.any (fun m => m.key == key && m.phase == phase)) then
    s.comes (s.coreOf wid) (.cbar key phase wid) (fun s => s.releaseCbar key phase wid)
  else s

/-- An arrival at a cluster barrier: the first of a phase sets its count, the last completes it (R369). -/
def State.arriveCbar (s : State) (part key n wid pc : Nat) : State :=
  let b := Tbl.getD (s.part part).cbars key ⟨0, 0, 0⟩
  let s := s.updWave wid (fun w => { w with cbarAt := w.cbarAt ++ [⟨key, b.phase, pc, w.lvl⟩], park := .cbar })
  if b.arrived + 1 == n then
    let s := s.updPart part (fun p => { p with cbars := Tbl.put p.cbars key ⟨0, 0, b.phase + 1⟩ })
    s.waves.foldl (fun s e => s.tellCbar key b.phase e.1) s
  else s.updPart part (fun p => { p with cbars := Tbl.put p.cbars key ⟨n, b.arrived + 1, b.phase⟩ })

/-- CBAR. Where the arrival that it made still stands, as after RTE, it only waits (R369). -/
def cbarRes (id count : Nat) (s : State) (wid : Nat) (w : Wave) : UniRes :=
  match Tbl.find s.grids (s.gridIdOf wid) with
  | none => .done s
  | some g =>
    let key := cbarKey g.vf (clusterOf (s.coreOf wid)) id
    let b := Tbl.getD (s.part g.part).cbars key ⟨0, 0, 0⟩
    if w.cbarAt.contains ⟨key, b.phase, w.at_, w.lvl⟩ then .stay ((s.parked wid .cbar).rested w.team)
    else if count == 0 || 1536 < count || (b.arrived != 0 && b.n != count) then .trap 0x32 none
    else .released s wid .cluster (fun s => .stay ((s.arriveCbar g.part key count wid w.at_).rested w.team))

def execCbar (id : Fin 16) (a : SReg) (s : State) : Host.Outcome State Fault Refusal :=
  uniStep {} (fun s wid w => cbarRes id.val (w.sreg a.val).toNat s wid w) s

/-! ## LJOIN (R374) -/

/-- LJOIN: with no child grid of the team left, the return acquires the releases of their retirements. -/
def ljoinRes (s : State) (wid : Nat) (w : Wave) : UniRes :=
  match Tbl.find s.teams w.team with
  | none => .done s
  | some t => if t.children.isEmpty then .done (s.acquire wid .device t.joinStamp) else .stay ((s.parked wid .ljoin).rested w.team)

/-- A wave that is parked in LJOIN passes: the last of its team's child grids has retired. -/
def State.passLjoin (s : State) (wid : Nat) (stamp : Nat × Nat) : State :=
  if (Tbl.find s.waves wid).any (fun w => w.park == .ljoin) then
    ((s.updWave wid (fun w => { w.pass 4 with park := .no })).acquire wid .device stamp).redrain wid
  else s

def execLjoin (s : State) : Host.Outcome State Fault Refusal := uniStep {} (fun s wid w => ljoinRes s wid w) s

/-! ## FENCE (R330) -/

/-- The order of a fence. -/
inductive FenceOrder where
  | acq | rel | full
  deriving DecidableEq, Repr

/-- A FENCE that released at device scope or wider: its stamp stands for the wave's writes from then on (R207, R213). -/
def State.stampFence (s : State) (wid : Nat) (sc : Scope) : State :=
  if 4 ≤ sc.code then s.updWave wid (fun w => { w with fstamp := some (s.releaseStamp wid) }) else s

/-- FENCE: with E, the wave's engine jobs end first; then the release, then the acquire, which takes the stamps of the values that
the wave has read (R213). -/
def fenceRes (o : FenceOrder) (e : Bool) (sc : Scope) (s : State) (wid : Nat) (w : Wave) : UniRes :=
  if e && !s.waitOver wid w (.jobs false) then .wait s wid (.jobs false)
  else
    let acq := fun (s : State) => UniRes.done (if o == .rel then s else s.acquire wid sc w.rstamp)
    if o == .acq then acq s else .released s wid sc (fun s => acq (s.stampFence wid sc))

def execFenceAcq (e : Bool) (sc : Scope) (s : State) : Host.Outcome State Fault Refusal := uniStep {} (fenceRes .acq e sc) s
def execFenceRel (e : Bool) (sc : Scope) (s : State) : Host.Outcome State Fault Refusal := uniStep {} (fenceRes .rel e sc) s
def execFenceFull (e : Bool) (sc : Scope) (s : State) : Host.Outcome State Fault Refusal := uniStep {} (fenceRes .full e sc) s

/-! ## YIELD and SLEEP (R380, R381) -/

/-- YIELD: under a yield request the wave stops at the next instruction, and its team may have yielded (R124). The request stands after its deadline
too, until the team is saved or its virtual device is picked again (R124, R130; LE 82). -/
def yieldRes (s : State) (wid : Nat) (w : Wave) : UniRes :=
  match Tbl.find s.teams w.team with
  | none => .done s
  | some t =>
    if t.yieldBy.isSome then .placed ((s.updWave wid (fun w => { w.pass 4 with park := .yielded })).rested w.team) else .done s

def execYield (s : State) : Host.Outcome State Fault Refusal := uniStep {} yieldRes s

/-- SLEEP: parks until a tick; a count of 0 does not park. -/
def sleepRes (n : Nat) (s : State) (wid : Nat) (w : Wave) : UniRes :=
  if n == 0 then .done s
  else .stay (((s.parked wid (.sleep (s.reft + n))).after n (.sleepWake (s.coreOf wid) w.slot)).rested w.team)

def execSleep (a : SReg) (s : State) : Host.Outcome State Fault Refusal :=
  uniStep {} (fun s wid w => sleepRes ((w.sreg a.val).toNat % 2 ^ 32) s wid w) s

/-- SLEEP_WAKE: the wave in the slot passes its SLEEP once its tick has come; while its hob relocks, at the end of that (R14). A device that does not
run keeps its state (R44). -/
def execSleepWake (core slot : Nat) (s : State) : Host.Outcome State Fault Refusal :=
  match s.waveAt core slot with
  | none => .next s
  | some e =>
    match e.2.park with
    | .sleep t => .next (if !s.running || s.reft < t then s
        else if s.asleep core then s.atRelockEnd core (.sleepWake core slot)
        else s.updWave e.1 (fun w => { w.pass 4 with park := .no }))
    | _ => .next s

/-! ## PERFQ and THRM (R375, R376) -/

/-- PERFQ: the team's request for its pool's class; the class that stands is returned. -/
def perfqRes (d cls : Nat) (s : State) (wid : Nat) (w : Wave) : UniRes :=
  let p := (s.hob (hobOf (s.coreOf wid))).pool
  let s := (s.fileReq p (.team w.team) cls).updTeam w.team (fun t => { t with perf := some cls })
  .done (s.updWave wid (fun w => w.setS d (BitVec.ofNat 64 (s.pool p).cls)))

def execPerfq (d a : SReg) (s : State) : Host.Outcome State Fault Refusal :=
  uniStep { sdst := [d.val] } (fun s wid w => perfqRes d.val ((w.sreg a.val).toNat % 4) s wid w) s

/-- THRM: arming while the hob is throttled raises THROTTLE_BEGIN for the elected wave; disarming withdraws the causes. -/
def thrmRes (arm : Bool) (s : State) (wid : Nat) (w : Wave) : UniRes :=
  let was := ((Tbl.find s.teams w.team).map (fun t => t.armed)).getD false
  let s := s.updTeam w.team (fun t => { t with armed := arm })
  if arm then
    match s.elected w.team with
    | none => .done s
    | some e => .done (if !was && (s.hob (hobOf (s.coreOf wid))).throttled then s.pendAsync e 0x70 else s)
  else .done ((s.wavesOf w.team).foldl (fun s e => s.updWave e.1 (fun x => { x with
    async := x.async.filter (fun a => a.1 != 0x70 && a.1 != 0x71) })) s)

def execThrm (arm : Bool) (s : State) : Host.Outcome State Fault Refusal := uniStep {} (thrmRes arm) s

end Sys2Proof.Machine
end

