-- ==== Sys2Proof/Machine/System.lean ====
section
/-!
DEFINITION. Words that are no instruction (R189, R285), TRAP, BKPT, RTE, HALT (R224, R377, R382), the delivery of causes that wait
(R222), WAVE_CTL (R229), special registers (R167, R168, R378), instruction prefetch and pinning (R379), regions (R230, R371) and gate
calls (R235, R238, R239).
-/

namespace Sys2Proof.Machine

/-! ## Words that are no instruction -/

/-- The first address of an instruction that cannot be fetched (R189). -/
def State.badFetch (s : State) (c p asid pc : Nat) : Nat :=
  if pc % 4 != 0 || 2 ^ 52 ≤ pc || (s.fetchWord c p asid pc).isNone then pc
  else if (s.fetchWord c p asid (pc + 4)).isNone then pc + 4 else pc + 8

/-- The lane that a cause of a whole group names: the lowest for lane instructions, 0xFF for a uniform one (R221). -/
def State.groupLane (s : State) (g : Group) (wid : Nat) (w : Wave) : Nat :=
  if s.standAt g.core (s.partOf wid) w.asid g.pc == .uniform then 0xFF
  else s.laneId wid ((g.lanesOf wid).foldl min 31)

/-- Every wave of a group traps. -/
def trapGroup (f : State → Group → Nat → Wave → State) (s : State) : Host.Outcome State Fault Refusal :=
  match s.cur with
  | none => .fault .noWave
  | some g => .next (g.waves.foldl (fun s wid => match Tbl.find s.waves wid with
    | none => s
    | some w => f s g wid w) s)

/-- ILLEGAL_OP (R285). -/
def execIllegalOp (s : State) : Host.Outcome State Fault Refusal :=
  trapGroup (fun s g wid w => s.takeTrap wid 0x10 (s.groupLane g wid w) false (some g.pc) none) s

/-- FETCH_FAULT (R189); where the first instruction of a handler cannot be fetched the wave freezes with HANDLER_FETCH (R226). A byte that is
not fetched because its line is poisoned is MACHINE_CHECK, or the kill of a launch with REPLAY (R246): met at the first instruction of a handler, it freezes the
wave with SECOND 0x01. In a gate call, s0 gets 0x08 where the first instruction of the callee's handler cannot be fetched (R240; both LE 83). -/
def execFetchFault (s : State) : Host.Outcome State Fault Refusal :=
  trapGroup (fun s g wid w =>
    let bad := s.badFetch g.core (s.partOf wid) w.asid g.pc
    if bad % 4 == 0 && bad < 2 ^ 52 && s.fetchPoisoned g.core (s.partOf wid) w.asid bad then
      (if s.replays wid then s.killLaunch wid else s.takeTrap wid 0x01 (s.groupLane g wid w) false (some g.pc) (some bad))
    else if w.inh && w.depth == 0 && g.pc == (s.domainEntry (s.partOf wid) w.domain).vec then s.freeze wid 0x02
    else s.takeTrap wid 0x08 (s.groupLane g wid w) false (some g.pc) (some (s.badFetch g.core (s.partOf wid) w.asid g.pc))) s

/-! ## TRAP, BKPT, RTE, HALT -/

/-- A trap whose sr.epc is the next instruction (R221, R377). -/
def trapNext (code : Wave → Nat) (s : State) (wid : Nat) (w : Wave) : UniRes :=
  .placed ((s.updWave wid (fun w => w.pass 4)).takeTrap wid (code w) 0xFF false (some (w.at_ + 4)) none)

/-- TRAP; #0x53 in the handler of a gate callee aborts the call with that code (R240, R377). -/
def execTrap (imm : Fin 128) (s : State) : Host.Outcome State Fault Refusal :=
  uniStep {} (trapNext (fun w => if imm.val == 0x53 && w.inh && w.depth != 0 then 0x53 else 0x80 + imm.val)) s

def execBkpt (s : State) : Host.Outcome State Fault Refusal := uniStep {} (trapNext (fun _ => 0x7E)) s

/-- RTE (R224). -/
def execRte (s : State) : Host.Outcome State Fault Refusal :=
  uniStep {} (fun s wid w => if w.inh then .placed (s.updWave wid (fun w => w.leave)) else .trap 0x10 none) s

/-- The state of a wave that HALT freezes (R382): what WAVE_CTL restores is as it stands. -/
def Wave.halt (w : Wave) : Wave :=
  let epc := w.at_ + 4
  { w with
    threads := w.threads.map (fun t => if t.exited then t else { t with pc := epc, tpc := epc, tguard := t.guard })
    epc := BitVec.ofNat 64 epc
    epc0 := BitVec.ofNat 64 epc
    tb15 := Tbl.getD w.b 15 0
    cause := setField w.cause 15 0 0
    frozen := true
    halted := true }

/-- HALT: privileged. -/
def execHalt (s : State) : Host.Outcome State Fault Refusal :=
  uniStep {} (fun s wid _ => if s.privileged wid then .placed ((s.updWave wid (fun w => w.halt)).sqWave 0 wid) else .trap 0x11 none) s

/-! ## Causes that wait for a boundary (R222) -/

/-- The wave as it takes an asynchronous cause: a record of the system queue names the job that raised it (R228). -/
def Wave.noAsync (w : Wave) (a : Nat × Nat) : Wave :=
  if a.1 == 0x01 then { w with async := w.async.erase a, issueId := w.checks.headD w.issueId, checks := w.checks.tail }
  else { w with async := w.async.erase a }

/-- The wave as it takes a deferred cause: a record names the instruction or job that raised it. -/
def Wave.noDeferred (w : Wave) (d : Deferred) : Wave := { w with deferred := w.deferred.erase d, issueId := d.id.getD w.issueId }

/-- Takes an asynchronous cause of a wave. -/
def State.takeAsync (s : State) (wid : Nat) (a : Nat × Nat) : State := (s.updWave wid (fun w => w.noAsync a)).takeTrap wid a.1 0xFF true none none

/-- Takes a deferred cause of a wave. -/
def State.takeDeferred (s : State) (wid : Nat) (d : Deferred) : State :=
  (s.updWave wid (fun w => w.noDeferred d)).takeTrap wid d.code 0xFF false none d.addr

/-- ASYNC_CAUSE_DELIVERY: the lowest of the causes that the wave in a slot takes at this boundary. -/
def execAsyncCauseDelivery (core slot : Nat) (s : State) : Host.Outcome State Fault Refusal :=
  match s.waveAt core slot with
  | none => .next s
  | some e =>
    let a := if e.2.park == .yielded then none else e.2.nextAsync
    match a, e.2.nextDeferred with
    | none, none => .next s
    | some a, none => .next (s.takeAsync e.1 a)
    | none, some d => .next (s.takeDeferred e.1 d)
    | some a, some d => .next (if a.1 < d.code then s.takeAsync e.1 a else s.takeDeferred e.1 d)

/-! ## WAVE_CTL (R229) -/

/-- The wave in a slot of a core that WAVE_CTL acts on: the one that stands there, else a frozen one of a team that is not saved, which a claim has
evicted or which moves (R229). -/
def State.frozenIn (s : State) (c slot : Nat) : Option (Nat × Wave) :=
  match (s.waveAt c slot).filter (fun e => e.2.frozen) with
  | some e => some e
  | none => s.waves.find? (fun e => !e.2.retired && e.2.frozen && e.2.slot == slot && (match Tbl.find s.teams e.2.team with
    | none => false
    | some t => t.core == c && t.loc != .saved))

/-- The frozen wave that a write to WAVE_CTL names. -/
def State.frozenAt (s : State) (p : Nat) (v : DWord) : Option (Nat × Wave) :=
  match s.frozenIn (fieldOf v 40 32) (fieldOf v 4 0) with
  | none => none
  | some e => if e.2.frozen && s.ownerOf (clusterOf (fieldOf v 40 32)) == some p && s.partOf e.1 == p then some e else none

/-- The meaning of a row that is an action on a frozen wave; BUSY is over as the action has taken effect. While the wave's hob relocks it waits for the
end of that (R14), and a device that does not run keeps its state (R44). -/
def waveCtl (i : Instr) (p : Fin 8) (v : DWord) (f : State → Nat → Wave → State) (s : State) : Host.Outcome State Fault Refusal :=
  match s.frozenAt p.val v with
  | none => .next (s.updPart p.val (fun x => { x with waveBusy := false }))
  | some e =>
    if !s.running then .next s
    else if s.asleep (s.coreOf e.1) then .next (s.atRelockEnd (s.coreOf e.1) i)
    else .next (f (s.updPart p.val (fun x => { x with waveBusy := false })) e.1 e.2)

/-- A write to WAVE_CTL: BUSY until the action takes effect. -/
def State.waveWrite (s : State) (p : Nat) (v : DWord) : State :=
  if (s.part p).waveBusy || (s.frozenAt p v).isNone || fieldOf v 62 61 == 0 then s
  else
    let s := s.updPart p (fun x => { x with waveBusy := true })
    s.soon (match fieldOf v 62 61 with
      | 1 => .waveReenter (Fin.ofNat 8 p) v
      | 2 => .waveResume (Fin.ofNat 8 p) v
      | _ => .waveKill (Fin.ofNat 8 p) v)

/-- The wave enters the handler of its CODE again: what the first entry saved stands (R223, R229). -/
def Wave.reenter (w : Wave) (vec : Nat) (b15 : RecBits) : Wave :=
  { w with
    threads := w.threads.map (fun t => if t.exited then t else { t with guard := none, pc := vec })
    cause := setField (setField (setField w.cause 15 8 0) 16 16 1) 17 17 (bnat (w.depth != 0))
    epc := w.epc0
    b := Tbl.putS 0 w.b 15 b15
    frozen := false
    park := .no
    pend := .none
    pends := w.pends.filter (fun p => p.lvl ≤ 2 * w.depth) }

/-- WAVE_REENTER. A halted wave ignores it (R382). -/
def execWaveReenter (p : Fin 8) (v : DWord) (s : State) : Host.Outcome State Fault Refusal :=
  waveCtl (.waveReenter p v) p v (fun s wid w =>
    if w.halted then s
    else
      let d := s.domainEntry (s.partOf wid) w.domain
      let s := s.updWave wid (fun w => { w with cause := setField (setField w.cause 15 8 0) 16 16 0 })
      if !d.v || d.vec == 0 then
        (if w.depth != 0 then (s.updWave wid (fun w => { w with frozen := false })).abortGate wid (fieldOf w.cause 7 0) else s.killLaunch wid)
      else s.updWave wid (fun w => w.reenter d.vec (trapRecord d.area d.asid (s.coreOf wid) w.slot))) s

/-- WAVE_RESUME: as RTE, without its check; what other threads of the handler waited for is of no use any more. -/
def execWaveResume (p : Fin 8) (v : DWord) (s : State) : Host.Outcome State Fault Refusal :=
  waveCtl (.waveResume p v) p v (fun s wid _ => s.updWave wid (fun w => { w.leave with
    cause := setField w.leave.cause 15 8 0, frozen := false, halted := false
    pend := .none, pends := w.pends.filter (fun p => p.lvl ≤ 2 * w.depth) })) s

/-- WAVE_KILL. -/
def execWaveKill (p : Fin 8) (v : DWord) (s : State) : Host.Outcome State Fault Refusal :=
  waveCtl (.waveKill p v) p v (fun s wid _ => s.killLaunch wid) s

/-! ## Special registers (R167, R168, R378) -/

/-- The set tags of a team's window (R167). -/
def State.tagsOf (s : State) (wid : Nat) (w : Wave) : Nat :=
  match s.lrecOf wid with
  | none => 0
  | some r => ((List.range 64).map (fun i =>
      if r.tagBase ≤ i && i < r.tagBase + r.tagCount && s.tagOf w.team i == .set then 2 ^ i else 0)).sum

/-- A team index, or a grid's counts less one, in the layout of sr.teamid. -/
def packDim (x y z : Nat) : Nat := z % 2 ^ 16 * 2 ^ 40 + y % 2 ^ 16 * 2 ^ 24 + x % 2 ^ 24

/-- The special registers that belong to the core and its hob. -/
def State.srCore (s : State) (c n : Nat) : Option Nat :=
  let h := s.hob (hobOf c)
  match n with
  | 0x008 => some c
  | 0x009 => some (clusterOf c)
  | 0x00A => some (dieOf c)
  | 0x00B => some s.chipId
  | 0x010 => some h.clk
  | 0x011 => some (h.clkn / 65536)
  | 0x012 => some s.reft
  | 0x100 => some (bnat h.relockEnd.isSome * 256 + h.opStep * 16 + h.step)
  | 0x101 => some (bnat h.throttled * 256 + (h.throttle.getD 15) * 16 + h.ceil)
  | 0x102 => some ((s.allowance (hobOf c) - h.charge) / 1000)
  | _ => none

/-- The special registers of the team and the grid. -/
def State.srTeam (s : State) (wid : Nat) (w : Wave) (n : Nat) : Option Nat :=
  match Tbl.find s.teams w.team, Tbl.find s.grids (s.gridIdOf wid) with
  | some t, some g =>
    let r := g.lrec
    match n with
    | 0x001 => some w.w
    | 0x002 => some (packDim (t.index % r.gx) (t.index / r.gx % r.gy) (t.index / r.gx / r.gy))
    | 0x003 => some (t.grid % 2 ^ 32)
    | 0x004 => some (packDim (r.gx - 1) (r.gy - 1) (r.gz - 1))
    | 0x005 => some r.waves
    | 0x006 => some g.depth
    | 0x020 => some (s.tagsOf wid w)
    | 0x021 => some t.stage
    | _ => none
  | _, _ => none

/-- The special registers of the wave, and sr.inject of its core in test mode. -/
def State.srWave (s : State) (wid : Nat) (w : Wave) (n : Nat) : Option Nat :=
  match n with
  | 0x018 => some w.cause.toNat
  | 0x019 => some w.epc.toNat
  | 0x01A => some w.faddr.toNat
  | 0x028 => some w.fmode.toNat
  | 0x029 => some w.rngkey.toNat
  | 0x1F0 => if s.dev.testMode then some (s.core (s.coreOf wid)).inject.toNat else none
  | _ => none

/-- What SRD reads from a special register but sr.laneid; `none` for a reserved number. -/
def State.srValue (s : State) (wid : Nat) (w : Wave) (n : Nat) : Option Nat :=
  ((s.srCore (s.coreOf wid) n).or (s.srTeam wid w n)).or (s.srWave wid w n)

/-- The special register is privileged (R167). -/
def srPrivileged (n : Nat) : Bool := n == 0x100 || n == 0x101 || n == 0x102 || n == 0x1F0

/-- SRD of a register of the wave, the team or the core. -/
def srdRes (n d : Nat) (s : State) (wid : Nat) (w : Wave) : UniRes :=
  match s.srValue wid w n with
  | none => .trap 0x10 none
  | some x =>
    if srPrivileged n && !s.privileged wid then .trap 0x11 none
    else .done (s.updWave wid (fun w => w.setS d (BitVec.ofNat 64 x)))

/-- SRD of sr.laneid: into a v register of every non-exited thread. -/
def srdLane (d : Nat) (s : State) (wid : Nat) (w : Wave) : UniRes :=
  .done (s.updWave wid (fun x => w.lanes.foldl (fun (x : Wave) l => x.setV l d (BitVec.ofNat 32 (s.laneId wid l))) x))

def execSrd (n : Fin 512) (hi : Bool) (d : SReg) (s : State) : Host.Outcome State Fault Refusal :=
  if n.val == 0 then
    uniStep { regs := [d.val + 64 * bnat hi], vdst := [d.val + 64 * bnat hi] } (srdLane (d.val + 64 * bnat hi)) s
  else uniStep { sdst := [d.val] } (fun s wid w => if hi then .trap 0x10 none else srdRes n.val d.val s wid w) s

/-- A value that SWR may write to sr.fmode (R258). -/
def fmodeOk (x : DWord) : Bool :=
  fieldOf x 63 21 == 0 && fieldOf x 15 13 == 0 && fieldOf x 7 3 == 0 && fieldOf x 2 0 ≤ 3

/-- sr.cause after a write (R378). -/
def causeWrite (c : Word) (x : DWord) : Word :=
  setField (setField (setField c 31 24 (fieldOf x 31 24)) 15 8 (fieldOf x 15 8)) 7 0 (fieldOf x 7 0)

/-- SWR (R378). -/
def swrRes (n a : Nat) (s : State) (wid : Nat) (w : Wave) : UniRes :=
  let x := w.sreg a
  match n with
  | 0x018 =>
    if fieldOf x 23 19 != 0 || fieldOf x 63 32 != 0 then .trap 0x10 none
    else .done (s.updWave wid (fun w => { w with cause := causeWrite w.cause x }))
  | 0x019 => .done (s.updWave wid (fun w => { w with epc := x }))
  | 0x028 => if fmodeOk x then .done (s.updWave wid (fun w => { w with fmode := BitVec.ofNat 32 x.toNat })) else .trap 0x10 none
  | 0x029 => .done (s.updWave wid (fun w => { w with rngkey := x }))
  | 0x1F0 =>
    if !s.dev.testMode || fieldOf x 62 20 != 0 || fieldOf x 5 5 != 0 then .trap 0x10 none
    else if !s.privileged wid then .trap 0x11 none
    else .done (s.updCore (s.coreOf wid) (fun k => { k with inject := x }))
  | _ => .trap 0x10 none

def execSwr (n : Fin 512) (a : SReg) (s : State) : Host.Outcome State Fault Refusal :=
  uniStep {} (fun s wid w => swrRes n.val a.val s wid w) s

/-! ## Instruction prefetch and pinning (R189, R379) -/

/-- The addresses of the lines of a range, those at or above 2^52 left out. -/
def linesFrom (a lines : Nat) : List Nat :=
  ((List.range lines).map (fun i => (a % 2 ^ 52 / 128 + i) * 128)).filter (· < 2 ^ 52)

/-- The lines of the instruction cache that are pinned. -/
def Core.pinnedLines (k : Core) : Nat := (k.icache.filter (fun l => !l.pins.isEmpty)).length

/-- Pins one line of a core's instruction cache, or prefetches it beyond the limit of 32 KiB. -/
def State.pinI (s : State) (c p : Nat) (cls : Cls) (asid g pc : Nat) : State :=
  let s := s.fillI c p cls asid pc
  match (s.fetchPa c p asid pc).bind (fun pa => (s.core c).iline p asid pc pa) with
  | none => s
  | some l =>
    if l.pins.isEmpty && 256 ≤ (s.core c).pinnedLines then s
    else if l.pins.contains g then s
    else s.updCore c (fun k => { k with icache := k.icache.map (fun x => if x == l then { x with pins := x.pins ++ [g] } else x) })

/-- Fetches one line into the L2 and pins it there, where it lies within the class mask and fewer than two ways of its set hold pinned lines
(R189). -/
def State.pinL2 (s : State) (g p : Nat) (cls : Cls) (pa : Nat) : State :=
  let line := pa / 128
  let s := s.fetchL2 p cls pa
  let held := dedup ((s.l2pins.filter (fun e => homeDie (e.2 * 128) == homeDie pa && State.sameSet e.2 line)).map (fun e => e.2))
  let within := s.l2.any (fun t => t.die == homeDie pa && t.chip.isNone && t.line == line && bitOf (s.classWays p cls pa) t.way)
  if s.l2pins.contains (g, line) || !within then s
  else if held.contains line || held.length < 2 then { s with l2pins := s.l2pins ++ [(g, line)] }
  else s

/-- The meaning of an instruction on a range of lines, for each line whose translation is valid. -/
def rangeRow (l1 l2 : State → Nat → Wave → Nat → State) (isL2 : Bool) (lines : Nat) (a : SReg) (s : State) :
    Host.Outcome State Fault Refusal :=
  uniStep {} (fun s wid w => .done ((linesFrom (w.sreg a.val).toNat lines).foldl (fun s pc =>
    if isL2 then l2 s wid w pc else l1 s wid w pc) s)) s

/-- IPF: lines come into the instruction cache, or into the L2 (R379). -/
def execIpf (l2 : Bool) (lines : Fin 4096) (a : SReg) (s : State) : Host.Outcome State Fault Refusal :=
  rangeRow (fun s wid w pc => s.fillI (s.coreOf wid) (s.partOf wid) (s.clsOf wid) w.asid pc)
    (fun s wid w pc => match s.fetchPa (s.coreOf wid) (s.partOf wid) w.asid pc with
      | none => s
      | some pa => s.fetchL2 (s.partOf wid) (s.clsOf wid) pa) l2 (lines.val + 1) a s

def execIpin (l2 : Bool) (lines : Fin 4096) (a : SReg) (s : State) : Host.Outcome State Fault Refusal :=
  rangeRow (fun s wid w pc => s.pinI (s.coreOf wid) (s.partOf wid) (s.clsOf wid) w.asid (s.gridIdOf wid) pc)
    (fun s wid w pc => match s.fetchPa (s.coreOf wid) (s.partOf wid) w.asid pc with
      | none => s
      | some pa => s.pinL2 (s.gridIdOf wid) (s.partOf wid) (s.clsOf wid) pa) l2 (lines.val + 1) a s

/-- Releases the pin of a grid on a line of a core's instruction cache; a line whose translation is not valid or lacks X is skipped (R379). -/
def State.unpinI (s : State) (c p asid g pc : Nat) : State :=
  if (s.fetchPa c p asid pc).isNone then s
  else s.updCore c (fun k => { k with icache := k.icache.map (fun x =>
    if x.part == p && x.asid == asid && x.line == pc / 128 then { x with pins := x.pins.filter (· != g) } else x) })

def execIunp (l2 : Bool) (lines : Fin 4096) (a : SReg) (s : State) : Host.Outcome State Fault Refusal :=
  rangeRow (fun s wid w pc => s.unpinI (s.coreOf wid) (s.partOf wid) w.asid (s.gridIdOf wid) pc)
    (fun s wid w pc => match s.fetchPa (s.coreOf wid) (s.partOf wid) w.asid pc with
      | none => s
      | some pa => { s with l2pins := s.l2pins.filter (· != (s.gridIdOf wid, pa / 128)) }) l2 (lines.val + 1) a s

/-! ## Regions (R230, R231, R371) -/

/-- RGNE. -/
def rgneRes (a : Nat) (s : State) (wid : Nat) (w : Wave) : UniRes :=
  if w.inh then .trap 0x10 none
  else if w.region.isSome then .trap 0x63 none
  else
    let mask := BitVec.ofNat 128 ((w.sreg a).toNat + 2 ^ 64 * (w.sreg (a + 1)).toNat)
    .done (s.updWave wid (fun w => { w with region := some {
      depth := w.depth
      pc := w.at_
      mask := mask
      guards := w.threads.map (fun t => t.guard)
      threads := w.threads.map (fun t => !t.exited) } }))

def execRgne (a : SReg) (s : State) : Host.Outcome State Fault Refusal := uniStep {} (rgneRes a.val) s

/-- RGNL: the region closes once the jobs that the wave issued in it have ended; they belong to no region any more. -/
def rgnlRes (s : State) (wid : Nat) (w : Wave) : UniRes :=
  if w.region.isNone then .trap 0x63 none
  else if s.waitOver wid w (.jobs true) then .done (s.updWave wid (fun w => { w with region := none }))
  else .wait s wid (.jobs true)

def execRgnl (s : State) : Host.Outcome State Fault Refusal := uniStep {} rgnlRes s

/-! ## Gate calls (R234, R235, R238, R239) -/

/-- A gate entry (R234); `v` is false for an entry that breaks a rule. -/
structure GateEntry where
  entry : Nat
  domain : Nat
  vwin : Nat
  asid : Nat
  v : Bool
  gOk : Bool
  hOk : Bool
  permit : Nat
  budget : Nat
  stack : Nat
  deriving DecidableEq, Repr

/-- Reads a gate entry (R234). -/
def GateEntry.ofBytes (bs : List Byte) : GateEntry :=
  let entry := fieldAt bs 0 8
  let fl := fieldAt bs 0xC 1
  let ok := entry < 2 ^ 52 && entry % 4 == 0 && 15 ≤ fieldAt bs 9 1 && fieldAt bs 9 1 ≤ 31 && fieldAt bs 0xA 2 < 4096 && fl < 8
    && fieldAt bs 0xD 3 == 0 && fieldAt bs 0x34 4 == 0 && fieldAt bs 0x38 8 < 2 ^ 52 && fieldAt bs 0x38 8 % 65536 == 0
  { entry := entry, domain := fieldAt bs 8 1, vwin := fieldAt bs 9 1, asid := fieldAt bs 0xA 2, v := ok && bitOf fl 0
    gOk := bitOf fl 1, hOk := bitOf fl 2, permit := fieldAt bs 0x10 32, budget := fieldAt bs 0x30 4
    stack := fieldAt bs 0x38 8 }

def State.gateEntry (s : State) (p g : Nat) : GateEntry :=
  .ofBytes (s.bytesAt (fieldOf (s.part p).gateTable 47 18 * 2 ^ 18 + 64 * g) 64)

/-- A record that a call passes: tagged with the caller's ASID where it was not tagged (R235). -/
def tagRecord (b : RecBits) (asid : Nat) : RecBits :=
  if Rcd.tagged b then b else setField (setField b 125 125 1) 124 113 asid

/-- The state of a wave of a core in the callee (R235). `clk` is the core cycle from which its budget counts. -/
def Wave.pushGate (w : Wave) (core g clk : Nat) (e : GateEntry) : Wave :=
  let f : Gate := {
    g := g
    pc := w.at_
    domain := w.domain
    asid := w.asid
    b0 := w.breg 0
    b1 := w.breg 1
    guards := w.threads.map (fun t => t.guard)
    budget := w.budget
    abort_ := w.abortAt
    frame := e.stack + (core * 32 + w.slot) * 32768
    fasid := e.asid
    owned := []
    vwin := e.vwin
    s := w.s.filter (fun x => 16 ≤ x.1)
    p := w.p.filter (fun x => 8 ≤ x.1 % 128)
    b := w.b.filter (fun x => 2 ≤ x.1)
    v := w.v.filter (fun x => e.vwin < x.1 % 128) }
  { w with
    s := w.s.filter (fun x => x.1 < 16)
    p := w.p.filter (fun x => x.1 % 128 < 8)
    b := [(0, tagRecord (w.breg 0) w.asid), (1, tagRecord (w.breg 1) w.asid)]
    v := w.v.filter (fun x => x.1 % 128 ≤ e.vwin)
    gates := f :: w.gates
    domain := e.domain
    asid := e.asid
    budget := if e.budget == 0 then none else some (e.budget, clk)
    abortAt := none
    threads := w.threads.map (fun t => if t.exited then t else { t with guard := none, pc := e.entry }) }

/-- Bytes go to the frame of a gate call, line by line; to nowhere where the frame's address leads to no memory of this chip (LE 16). -/
def State.toGateFrame (s : State) (wid asid va : Nat) (bs : List Byte) : State :=
  match s.framePlace (s.partOf wid) asid va with
  | none => s
  | some (pa, m) =>
    (List.range ((bs.length + 127) / 128)).foldl (fun s i =>
      s.writeHome { s.agentOf wid with core := none } m (pa + 128 * i) ((bs.drop (128 * i)).take 128)) s

/-- The innermost call of a wave keeps its caller's hidden s, p and b registers and its call state in its frame (R234, R235). -/
def State.saveCall (s : State) (wid : Nat) : State :=
  match (Tbl.find s.waves wid).bind (fun w => w.gates.head?) with
  | none => s
  | some f =>
    let left := match f.budget with
      | none => 0
      | some (n, at_) => n - (s.clkOf wid - at_)
    (s.toGateFrame wid f.fasid (f.frame + 0x4000) f.hiddenBytes).toGateFrame wid f.fasid (f.frame + 0x5000) (f.callBytes left)

/-- A slab whose hidden registers the callee at a depth writes first goes to the frame of its call, and the callee owns them (R236): the frame holds
the whole slab as it stood for the caller, with what an outer call hides from that one too. The bytes of the pass-window registers are among those of the slab that are written, and none
is read back (LE 83). Where the frame's address leads to no memory of this chip, its contents stay in the record of the call (LE 16). -/
def State.spillGate (s : State) (wid k d : Nat) : State :=
  match Tbl.find s.waves wid with
  | none => s
  | some w =>
    let i := w.gates.length - d
    match w.gates[i]? with
    | none => s
    | some f =>
      let v := fun (l r : Nat) => if f.vwin < r then { w with v := f.v, gates := w.gates.drop (i + 1) }.physV l r else w.physV l r
      match s.framePlace (s.partOf wid) f.fasid (f.frame + k * 0x2000) with
      | none => s.updWave wid (fun w => { w with gates := w.gates.modify i (fun f => { f with owned := f.owned ++ [(k, false)] }) })
      | some _ =>
        let s := s.toGateFrame wid f.fasid (f.frame + k * 0x2000) (slabBytesOf v k)
        s.updWave wid (fun w => { w with gates := w.gates.modify i (fun f =>
          { f with owned := f.owned ++ [(k, true)], v := f.v.filter (fun e => e.1 % 128 / 64 != k) }) })

/-- GCALL: the checks in ascending order of their codes. -/
def gcallRes (g : Nat) (s : State) (wid : Nat) (w : Wave) : UniRes :=
  let p := s.partOf wid
  let e := s.gateEntry p g
  if !e.v || !(s.domainEntry p e.domain).v then .trap 0x50 none
  else if !(if s.clsOf wid == .g then e.gOk else e.hOk) || !bitOf e.permit w.domain then .trap 0x51 none
  else if w.depth == 3 || w.gates.any (fun f => f.g == g) then .trap 0x52 none
  else if w.guarded then .trap 0x63 none
  else
    let s := s.refillAll wid
    let clk := s.clkOf wid
    let core := s.coreOf wid
    .placed (((s.updWave wid (fun w => w.pushGate core g clk e)).saveCall wid).armGate wid)

def execGcall (g : Fin 4096) (s : State) : Host.Outcome State Fault Refusal := uniStep {} (gcallRes g.val) s

/-- GRET. The call's frame gives back what it holds; what an inner call copied comes back first: registers of the pass window may be among it. -/
def gretRes (s : State) (wid : Nat) (w : Wave) : UniRes :=
  if w.depth == 0 then .trap 0x10 none
  else if w.guarded then .trap 0x63 none
  else
    .placed ((((s.refillAll wid).gateBack wid).updWave wid (fun w =>
      let w := w.popGate
      { w with s := Tbl.putS 0 w.s 0 (BitVec.ofNat 64 ((Tbl.getD w.s 0 0).toNat % 2 ^ 63)) })).armGate wid)

def execGret (s : State) : Host.Outcome State Fault Refusal := uniStep {} gretRes s

/-- The budgets that are used up at a core cycle become clocks of an abort (R239): the wave's, of its own call and of the calls around it, and the
depths of the calls. -/
def Wave.timeouts (w : Wave) (clk : Nat) : Wave × List Nat :=
  let out := fun (b : Option (Nat × Nat)) => match b with | none => false | some b => b.1 ≤ clk - b.2
  let gs := (List.range w.gates.length).filter (fun i => (w.gates[i]?).any (fun g => out g.budget))
  ({ w with
      budget := if out w.budget then none else w.budget
      abortAt := if out w.budget then some (4096, clk) else w.abortAt
      gates := w.gates.map (fun g => if out g.budget then { g with budget := none, abort_ := some (4096, clk) } else g) },
    (if out w.budget then [w.depth] else []) ++ gs.map (fun i => w.gates.length - 1 - i))

/-- GATE_TIMEOUT (R239): where the budget of a call of the wave is used up, the cause arises and the time to the abort begins; else the
clock is set again. While the core's hob relocks it waits for the end of that (R14), and a device that does not run keeps its state (R44). -/
def execGateTimeout (core slot : Nat) (s : State) : Host.Outcome State Fault Refusal :=
  match s.waveAt core slot with
  | none => .next s
  | some e =>
    let r := e.2.timeouts (s.clkOf e.1)
    if !s.running then .next s
    else if s.asleep core then .next (s.atRelockEnd core (.gateTimeout core slot))
    else if r.2.isEmpty then .next (s.armGate e.1)
    else .next ((s.updWave e.1 (fun _ => { r.1 with async := r.1.async ++ r.2.map (fun d => (0x53, d)) })).armGate e.1)

/-- GATE_ABORT_TIMEOUT (R239, R240): where the time of a call is over, the innermost call aborts; the call around it, if its own time is over,
aborts next. It waits and is held as GATE_TIMEOUT is. -/
def execGateAbortTimeout (core slot : Nat) (s : State) : Host.Outcome State Fault Refusal :=
  match s.waveAt core slot with
  | none => .next s
  | some e =>
    let clk := s.clkOf e.1
    let ends := (e.2.abortAt :: e.2.gates.map (fun g => g.abort_)).any (fun b => match b with | none => false | some b => b.1 ≤ clk - b.2)
    if !s.running then .next s
    else if s.asleep core then .next (s.atRelockEnd core (.gateAbortTimeout core slot))
    else if ends then .next (s.abortGate e.1 0x53) else .next (s.armGate e.1)

end Sys2Proof.Machine
end

