-- ==== Sys2Proof/Machine/Cells.lean ====
section
/-!
DEFINITION. Exact cells (R267 to R269) and the read-modify-writes of the homes (R326): what they leave and what they return.
-/

namespace Sys2Proof

/-- The element format of an AFADD type, and how many elements it has (R282, R326). -/
def AddType.fmt : AddType → Machine.FFmt
  | .f32 => .f32
  | .f64 => .f64
  | .f16x2 => .f16
  | .bf16x2 => .bf16

def AddType.elems : AddType → Nat
  | .f16x2 | .bf16x2 => 2
  | _ => 1

/-- The format of an XACC addend. -/
def CellType.fmt : CellType → Machine.FFmt
  | .f32 => .f32
  | .f64 => .f64
  | .bf16 => .bf16

end Sys2Proof

namespace Sys2Proof.Machine

/-! ## Exact cells -/

/-- A cell: V modulo 2^320, its flags (bits 40 to 47 of the bytes), and the bytes above. -/
structure Cell where
  v : Nat
  flags : Nat
  rest : Nat
  deriving DecidableEq, Repr

def Cell.ofBytes (bs : List Byte) : Cell := ⟨fieldAt bs 0 40, fieldAt bs 40 8, fieldAt bs 48 16⟩
def Cell.bytes (c : Cell) : List Byte := natBytes 40 c.v ++ natBytes 8 c.flags ++ natBytes 16 c.rest

/-- The flags of a cell as bits. -/
def cellNan : Nat := 1
def cellPinf : Nat := 2
def cellNinf : Nat := 4
def cellRange : Nat := 8
def cellInexact : Nat := 16

/-- A cell with flags set. -/
def Cell.flag (c : Cell) (f : Nat) : Cell := { c with flags := c.flags ||| f }

/-- XACC of an addend (R268). -/
def Cell.add (c : Cell) (x : FVal) : Cell :=
  match x with
  | .nan _ => c.flag cellNan
  | .inf n => c.flag (if n then cellNinf else cellPinf)
  | .fin n m e =>
    if m != 0 && 170 ≤ (m.log2 : Int) + e then c.flag cellRange
    else
      let r := roundAt .rne n m (e + 149) 0
      let c := { c with v := wrapInt 320 ((c.v : Int) + (if n then -(r.1 : Int) else r.1)) }
      if r.2 then c.flag cellInexact else c

/-- The value of a cell rounded to a format (R269). -/
def Cell.read (c : Cell) (f : FFmt) : Nat :=
  let nan := bitOf c.flags 0
  let p := bitOf c.flags 1
  let n := bitOf c.flags 2
  if nan || (p && n) || bitOf c.flags 3 then f.nanBits
  else if p then f.infBits
  else if n then f.signBit true + f.infBits
  else
    let v := signedOf 320 c.v
    if v == 0 then 0 else (f.round .rne false (v < 0) v.natAbs (-149)).1

/-! ## Read-modify-writes (R326) -/

/-- The new value of an ATOM. -/
def atomNew (op : AtomOp) (w old arg : Nat) : Nat :=
  match op with
  | .add => (old + arg) % 2 ^ w
  | .min => min old arg
  | .max => max old arg
  | .and => old &&& arg
  | .or => old ||| arg
  | .xor => old ^^^ arg
  | .xchg => arg

/-- AFADD: each element is rounded to nearest even, subnormals kept, a NaN canonical. -/
def faddNew (t : AddType) (old arg : Nat) : Nat :=
  let f := t.fmt
  packElems f.bits ((List.range t.elems).map (fun i =>
    (f.add .rne (f.decode (old / 2 ^ (f.bits * i) % 2 ^ f.bits)) (f.decode (arg / 2 ^ (f.bits * i) % 2 ^ f.bits))).1))

/-- The value that a read-modify-write leaves where it finds `old`. -/
def rmwNew (op : RmwOp) (old : Nat) : Nat :=
  let w := 8 * rmwBytes op
  match op with
  | .atom o _ arg => atomNew o w old (arg.toNat % 2 ^ w)
  | .cas _ c n => if old == c.toNat % 2 ^ w then n.toNat % 2 ^ w else old
  | .fadd t arg => faddNew t old (arg.toNat % 2 ^ w)

end Sys2Proof.Machine
end

