-- ==== Sys2Proof/Machine/Regs.lean ====
section
/-!
DEFINITION. What the registers of the two device windows read as (R23, R39, R43, R49, R53, R70, R71, R79, R80, R84 to R86, R94, R96,
R107, R109, R110, R193, R198, R228, R229, R399). An offset that is not listed reads 0.
-/

namespace Sys2Proof.Machine

/-- A 32-bit half of a 64-bit register: the low one at an offset of 0, the high one at 4. -/
def halfOf (x r : Nat) : Nat := if r == 0 then x % 2 ^ 32 else x / 2 ^ 32 % 2 ^ 32

namespace State

/-! ## MSI-X -/

/-- A word of an MSI-X table; a vector that was never written is masked (PRESUMED, LE 5). -/
def msixWord (m : Msix) (i : Nat) : Nat := (Tbl.getD m.tab i (if i % 4 == 3 then 1 else 0)).toNat

/-- A word of a pending-bit array. -/
def pbaWord (m : Msix) (i : Nat) : Nat := ((List.range 32).map (fun b => if m.pend.contains (32 * i + b) then 2 ^ b else 0)).sum

/-! ## The window of a virtual device (R79) -/

/-- The hardware queue with a local index in a VF (R85): one that exists, else one that names the VF and the index but is not VALID; block 0 of VF 0
is named by every QUEUE_OWNER of 0, of which the lowest-numbered queue answers (LE 81). -/
def queueAt (s : State) (vf q : Nat) : Option Nat :=
  match s.queues.find? (fun e => e.2.valid && e.2.vf == vf && e.2.loc == q) with
  | some e => some e.1
  | none => match s.queues.find? (fun e => e.2.owner != 0 && e.2.vf == vf && e.2.loc == q) with
    | some e => some e.1
    | none => if vf == 0 && q == 0 then (List.range 1024).find? (fun h => (s.queue h).owner == 0) else none

/-- A word of a queue block (R86). -/
def queueWord (q : Queue) (r : Nat) : Nat :=
  match r with
  | 0x00 => halfOf q.base.toNat 0
  | 0x04 => halfOf q.base.toNat 4
  | 0x08 => q.ctl.toNat
  | 0x10 => q.tail.toNat
  | 0x14 => q.head.toNat
  | 0x18 => q.status.toNat
  | _ => 0

/-- A word of a host ring's block (R94). -/
def ringWord (k : Ring) (r : Nat) : Nat :=
  match r with
  | 0x00 => halfOf k.base.toNat 0
  | 0x04 => halfOf k.base.toNat 4
  | 0x08 => halfOf k.paddr.toNat 0
  | 0x0C => halfOf k.paddr.toNat 4
  | 0x10 => k.ctl.toNat
  | 0x14 => k.cons.toNat
  | 0x18 => k.prod.toNat
  | _ => 0

/-- The aligned 32-bit word of VF BAR0 at an offset. -/
def vfWord (s : State) (vf off : Nat) : Nat :=
  let v := s.vd vf
  if off < 8 then halfOf v.apVa.toNat off
  else if off == 8 then v.apAsid.toNat
  else if 0x1000 ≤ off && off < 0x1100 then Tbl.getD v.weights ((off - 0x1000) / 4) 1
  else if 0x10000 ≤ off && off < 0x20000 then
    match s.queueAt vf ((off - 0x10000) / 0x40) with
    | none => 0
    | some q => queueWord (s.queue q) (off % 0x40)
  else if 0x20000 ≤ off && off < 0x20400 then ringWord (s.ring vf ((off - 0x20000) / 0x40)) (off % 0x40)
  else if 0x30000 ≤ off && off < 0x30400 then msixWord v.msix ((off - 0x30000) / 4)
  else if 0x38000 ≤ off && off < 0x38008 then pbaWord v.msix ((off - 0x38000) / 4)
  else 0

/-- A read of VF BAR0 of 4 or 8 bytes. -/
def vfRead (s : State) (vf off : Nat) (wide : Bool) : Nat :=
  if wide then s.vfWord vf off + 2 ^ 32 * s.vfWord vf (off + 4) else s.vfWord vf off

/-! ## The device management window (R80) -/

/-- HOB_OPSTATE (R23). -/
def hobWord (s : State) (h : Nat) : Nat :=
  let k := s.hob h
  k.pool * 2 ^ 18 + (k.ceil - 1) * 2 ^ 14 + bnat k.throttled * 2 ^ 13 + bnat k.relockEnd.isSome * 2 ^ 12 + k.step * 2 ^ 8
    + k.opStep * 2 ^ 4 + (s.pool k.pool).cls

/-- TIME_STATUS (R80). -/
def timeWord (s : State) : Nat := bnat s.time.ppsPresent * 2 + bnat s.time.reftSync

/-- FAB_STATUS (R70). -/
def fabWord (s : State) : Nat :=
  s.dev.live.toNat * 2 ^ 24 + s.dev.fencedPlanes.toNat * 2 ^ 16 + s.dev.qstate * 2 ^ 10 + bnat s.dev.masterAct * 2 ^ 9
    + bnat s.dev.domainDown * 2 ^ 8

/-- FAB_MAPk (R53). -/
def mapWord (s : State) (k : Nat) : Nat := ((List.range 8).map (fun i => s.dev.fabMap.getD (8 * k + i) 0 * 2 ^ (4 * i))).sum

/-- A word of the fault or system queue block of a partition (R198, R228). -/
def recQueueWord (q : RecQueue) (lost : Bool) (r : Nat) : Nat :=
  match r with
  | 0x00 => halfOf q.base.toNat 0
  | 0x04 => halfOf q.base.toNat 4
  | 0x08 => q.ctl.toNat
  | 0x10 => q.tail.toNat
  | 0x14 => q.head.toNat
  | 0x18 => if lost then q.lost.toNat else 0
  | _ => 0

/-- The 64-bit register of one of the arrays of 8-byte registers per partition, VF or queue, at the start of which an offset stands;
`none` where the offset lies in none of them. -/
def arrayReg (s : State) (off : Nat) : Option DWord :=
  let at_ := fun (base n : Nat) (f : Nat → DWord) => if base ≤ off && off < base + 8 * n then some (f ((off - base) / 8)) else none
  let part := fun (base : Nat) (f : Part → DWord) => at_ base 8 (fun p => f (s.part p))
  [part 0x2000 (·.power),
   at_ 0x1000000 1024 (fun q => (s.queue q).owner),
   at_ 0x1010000 32 (fun v => (s.vd v).cfg),
   at_ 0x1010100 32 (fun v => (s.vd v).slice),
   part 0x1010200 (·.sched),
   part 0x1010300 (·.share),
   part 0x1010400 (·.ctx),
   at_ 0x1010500 64 (fun i => (s.part (i / 8)).sieve.getD (i % 8) 0),
   part 0x1010800 (·.l2ways),
   part 0x1010840 (·.asidTable),
   part 0x1010C00 (·.domTable),
   part 0x1010C40 (·.gateTable),
   part 0x1010F00 (fun x => BitVec.ofNat 64 (bnat x.waveBusy * 2 ^ 63)),
   part 0x1010F80 (·.cbTable),
   part 0x1010FC0 (·.collTable)].findSome? id

/-- The aligned 32-bit word of PF BAR0 at an offset. -/
def pfWord (s : State) (off : Nat) : Nat :=
  match off with
  | 0x00 => s.dev.health.toNat
  | 0x08 => s.dev.alarmPolicy.toNat
  | 0x10 => s.dev.pwrLimit.toNat
  | 0x18 => s.dev.layoutGo.toNat
  | 0x20 => s.timeWord
  | 0x28 => s.dev.fabId.toNat
  | 0x30 => s.dev.fabMapGen.toNat
  | 0x38 => s.fabWord
  | 0x60 => s.dev.leaseMax.toNat
  | 0x68 => s.dev.ethTcG.toNat
  | 0x6C => s.dev.ethTcH.toNat
  | 0x80 => halfOf s.dev.apertureBase.toNat 0
  | 0x84 => halfOf s.dev.apertureBase.toNat 4
  | _ =>
    if 0x40 ≤ off && off < 0x60 then s.mapWord ((off - 0x40) / 4)
    else if 0x1000 ≤ off && off < 0x1100 then s.hobWord ((off - 0x1000) / 4)
    else if 0x2040 ≤ off && off < 0x2080 then (if off % 8 == 0 then (s.part ((off - 0x2040) / 8)).mirror.toNat else 0)
    else if 0x3000 ≤ off && off < 0x3100 then ((s.part ((off - 0x3000) / 32)).fabAllow.getD ((off - 0x3000) / 4 % 8) 0).toNat
    else if 0x1010900 ≤ off && off < 0x1010980 then
      (if off % 16 == 4 then bnat (s.part ((off - 0x1010900) / 16)).tlbInv.isSome * 2 ^ 31 else 0)
    else if 0x1010A00 ≤ off && off < 0x1010C00 then recQueueWord (s.part ((off - 0x1010A00) / 64)).fq false (off % 64)
    else if 0x1010D00 ≤ off && off < 0x1010F00 then recQueueWord (s.part ((off - 0x1010D00) / 64)).sq true (off % 64)
    else if 0x2000000 ≤ off && off < 0x2000800 then msixWord s.pfMsix ((off - 0x2000000) / 4)
    else if 0x2008000 ≤ off && off < 0x2008010 then pbaWord s.pfMsix ((off - 0x2008000) / 4)
    else match s.arrayReg off with
      | none => 0
      | some r => halfOf r.toNat (off % 8)

end State

end Sys2Proof.Machine
end

