-- ==== Sys2Proof/Machine/Reach.lean ====
section
/-!
DEFINITION. Where an address leads (R174, R178, R179, R194, R82), the peer translation cache and leases (R57, R58), peer lines
(R177, R184), and the frame of the lane memory instructions: what each lane reaches, the causes (R173, R203, R231, R242, R246), the
waits (R195 to R199, R205, R212) and the performing of the lanes (R175).
-/

namespace Sys2Proof.Machine

/-! ## Where an address leads -/

/-- Where a translated address leads (R82, R174, R194). -/
inductive Reach where
  | hbm (pa : Nat) (mirror : Bool)
  | regs (off : Nat)
  | host (a : Nat)
  | peer (chip page off : Nat)
  | fault (level : Nat)
  | denied
  deriving DecidableEq, Repr

/-- A leaf gives the right that an access needs. -/
def Leaf.allows (l : Leaf) : Right → Bool
  | .read => true
  | .write => l.wr
  | .atomic => l.at_

/-- A peer entry gives the right that an access needs (R57). -/
def rightsAllow (r : Rights) : Right → Bool
  | .read => r.read
  | .write => r.write
  | .atomic => r.atomic

namespace State

/-- Where an address of an ASID leads for an access that needs a right, of a core or of none, through the global space or the peer window.
The rights of the leaf come first: an access of a wrong width or an XACC to a register-window page whose leaf lacks the right is ACCESS of R194, and
the ALIGN of R82, which is for an access that reaches the window, does not arise (LE 82). The MIRROR bit of a peer leaf says nothing (LE 83). -/
def reach (s : State) (c : Option Nat) (p asid va : Nat) (peerWin : Bool) (right : Right) : Reach :=
  match s.translate c p asid va with
  | .noRoot => .denied
  | .fault l => .fault l
  | .leaf l =>
    if !l.allows right then .denied
    else match l.peer with
      | some c => if peerWin then .peer c.1 c.2 (va % 65536) else .denied
      | none =>
        if peerWin then .denied
        else match paKind l.pa with
          | .hbm => .hbm l.pa l.mirror
          | .regs => .regs (l.pa - 0x400000000000)
          | .host => .host (l.pa - 0x800000000000)
          | .unused => .denied

/-- The core and the core offset of bytes at a cluster-scratch address: a forwarding entry of a team that has moved, or an
allocation of a team of the partition (R132, R179). -/
def clusterTarget (s : State) (c p a n : Nat) : Option (Nat × Nat) :=
  let k := bitsOf a 24 19
  let off := a % 2 ^ 19
  let core := clusterOf c * 48 + k
  if a / 2 ^ 25 != 0 || 47 < k then none
  else match (s.core core).forwards.find? (fun f => f.lo ≤ off && off + n ≤ f.hi && s.reft < f.till) with
    | some f => some (f.target, off)
    | none =>
      if (s.teamsOn core).any (fun e => match Tbl.find s.grids e.2.grid with
          | none => false
          | some g => g.part == p && e.2.start ≤ off && off + n ≤ e.2.start + g.lrec.bytes) then some (core, off)
      else none

/-- The core and the core offset of bytes at a local-scratch offset of a wave's team (R178). -/
def localTarget (s : State) (w : Wave) (a n : Nat) : Option (Nat × Nat) :=
  match Tbl.find s.teams w.team with
  | none => none
  | some t => match Tbl.find s.grids t.grid with
    | none => none
    | some g => if a + n ≤ g.lrec.bytes then some (t.core, t.start + a) else none

/-! ## Leases (R57, R58) -/

/-- The usable entry of a peer translation cache. -/
def ptcFind (s : State) (die p chip page : Nat) : Option PtcEntry :=
  s.fab.ptc.find? (fun e => e.die == die && e.part == p && e.chip == chip && e.page == page && s.reft + 64 < e.expiry)

/-- A LEASE leaves on its plane, charged to the partition and the class of its access (R57, R62). -/
def sendLease (s : State) (l : LeaseReq) : State :=
  ((s.countFlits l.plane l.part l.cls 1).watch l.plane).emit (.lease l.chip l.plane l.part l.cls l.page l.right l.id)

/-- Asks for a lease on the lowest-numbered live plane, unless one for the page is under way; while the ports are not enabled it waits (R49). -/
def requestLease (s : State) (die p : Nat) (cls : Cls) (chip page : Nat) (right : Right) : State :=
  if s.fab.leases.any (fun l => l.die == die && l.part == p && l.chip == chip && l.page == page && l.right == right) then s
  else
    let l := LeaseReq.mk s.nextId die p cls chip page right (s.livePlanes.headD 0) s.reft
    let s := { s with nextId := s.nextId + 1, fab := { s.fab with leases := s.fab.leases ++ [l] } }
    if s.joined then s.sendLease l else s

/-- The use of an entry within 1 ms of its expiry asks for a renewal. -/
def renew (s : State) (e : PtcEntry) (cls : Cls) (right : Right) : State :=
  if e.expiry ≤ s.reft + 1000000 then s.requestLease e.die e.part cls e.chip e.page right else s

end State

/-! ## Lane memory instructions -/

/-- What a lane memory instruction is: the spaces it accepts, the right its record and its leaf must give, its width, whether it
names cells, its scope where it is strong, whether it is a read-modify-write, whether it waits on a fault, the KIND of a fault
record, its L1 use (hint, or none where it goes to the home), the registers it writes and those whose contents it sends, the
scope of a release before it and of an acquire after it, whether a region forbids it, whether it does not accept the host window. -/
structure MemOp where
  spaces : List Nat
  right : Right
  leaf : Right
  width : Nat
  cell : Bool := false
  scope : Option Scope := none
  rmw : Bool := false
  loads : Bool := false
  kind : Nat
  hint : Option Nat := none
  dst : List Nat := []
  src : List Nat := []
  rel : Option Scope := none
  acq : Option Scope := none
  atomic : Bool := false
  noHost : Bool := false
  deriving DecidableEq, Repr

/-- Where a lane of a memory instruction goes. -/
inductive Go where
  | drop
  | hbm (va pa : Nat) (mirror : Bool)
  | scratch (core off : Nat)
  | regs (va off : Nat)
  | host (va a : Nat)
  | peer (va asid : Nat) (e : PtcEntry) (pa : Nat)
  | lease (va chip page : Nat)
  | fault (va level : Nat) (chip : Option Nat)
  | fatal (va : Nat)
  | trap (code : Nat) (faddr : Option Nat)
  deriving DecidableEq, Repr

/-- The virtual address of a lane that is translated. -/
def Go.va : Go → Option Nat
  | .hbm va _ _ | .regs va _ | .host va _ | .peer va _ _ _ | .lease va _ _ | .fault va _ _ | .fatal va => some va
  | .drop | .scratch _ _ | .trap _ _ => none

/-- The lower of the causes of one lane. -/
def lowCode (l : List Nat) : Option Nat := leastBy id l

/-- A number as four-byte registers. -/
def regWords (n : Nat) (bs : List Byte) : List Word := (List.range n).map (fun i => BitVec.ofNat 32 (fieldAt bs (4 * i) 4))

/-- The number of registers that hold an access of a width (R322). -/
def regCount (w : Nat) : Nat := if w ≤ 4 then 1 else w / 4

/-- Bytes into a register block, the rest of a register zero (R322). -/
def loadBlock (d w : Nat) (bs : List Byte) : VWrites :=
  (List.range (regCount w)).map (fun i => (d + i, BitVec.ofNat 32 (fieldAt (bs.take w) (4 * i) 4)))

/-- The bytes of a register block. -/
def Wave.blockBytes (w : Wave) (lane r n : Nat) : List Byte :=
  ((List.range (regCount n)).flatMap (fun i => natBytes 4 (w.vreg lane (r + i)).toNat)).take n

namespace State

/-- The record through which a wave names memory gives the ASID (R171). -/
def asidOf (w : Wave) (b : RecBits) : Nat := if Rcd.tagged b then Rcd.tag b else w.asid

/-- The record gives the right that an instruction needs (R173). -/
def recAllows (b : RecBits) : Right → Bool
  | .read => Rcd.read b
  | .write => Rcd.write b
  | .atomic => Rcd.atomic b

/-- What a strong scope or a read-modify-write makes wrong at a place (R82, R203). -/
def placeCodes (op : MemOp) (r : Reach) : List Nat :=
  match r with
  | .regs _ => (if op.width == 4 || op.width == 8 then [] else [0x31]) ++ (if op.rmw then [0x32] else [])
  | .host _ => (if op.rmw || op.noHost then [0x32] else []) ++ (match op.scope with | none => [] | some sc => if sc.code < 5 then [0x33] else [])
  | .denied => [0x32]
  | _ => []

/-- Where a translated lane goes. -/
def goGlobal (s : State) (op : MemOp) (wid : Nat) (w : Wave) (b : RecBits) (va : Nat) (r : Reach) : Go :=
  let asid := asidOf w b
  if w.pend.pages.any (fun x => x.failed && x.asid == asid && x.page == va / 65536) then .fatal va
  else match r with
    | .hbm pa m => .hbm va pa m
    | .regs off => .regs va off
    | .host a => .host va a
    | .fault l => .fault va l none
    | .denied => .trap 0x32 none
    | .peer chip page off =>
      if s.cutOff chip then .trap 0x01 none
      else if w.pend.denied.contains (chip, page) then .trap 0x32 none
      else if w.pend.absent.contains (chip, page) then .fault va 0 (some chip)
      else match s.ptcFind (dieOf (s.coreOf wid)) (s.partOf wid) chip page with
        | none => .lease va chip page
        | some e => if rightsAllow e.rights op.leaf then .peer va asid e (e.pa / 65536 * 65536 + off) else .trap 0x32 none

/-- Where a lane goes whose index gives an address (R173, R174). -/
def goAt (s : State) (op : MemOp) (wid : Nat) (w : Wave) (bi a : Nat) : Go :=
  let b := w.breg bi
  let sp := Rcd.space b
  let base := (if recAllows b op.right then [] else [0x32])
    ++ (if w.depth != 0 && 2 ≤ bi && (sp == 1 || sp == 2) then [0x32] else [])
  if !op.spaces.contains sp then .trap 0x32 none
  else if sp == 1 || sp == 2 then
    let codes := base ++ (match op.rmw, op.scope with | true, some sc => if 2 < sc.code then [0x33] else [] | _, _ => [])
    let t := if sp == 1 then s.localTarget w a op.width else s.clusterTarget (s.coreOf wid) (s.partOf wid) a op.width
    match lowCode codes, t with
    | some c, some _ => .trap c none
    | some c, none => .trap (min c 0x32) none
    | none, none => .trap 0x32 none
    | none, some x => .scratch x.1 x.2
  else
    let r := s.reach (some (s.coreOf wid)) (s.partOf wid) (asidOf w b) a (sp == 3) op.leaf
    let codes := base ++ (if sp == 3 then (match op.scope with | none => [] | some sc => if sc.code < 5 then [0x33] else []) else [])
      ++ placeCodes op r
    match lowCode codes with
    | some c => .trap c none
    | none => s.goGlobal op wid w b a r

/-- Where a lane goes (R172, R327). -/
def laneGo (s : State) (op : MemOp) (wid : Nat) (w : Wave) (bi idx : Nat) : Go :=
  match if op.cell then cellAddress (w.breg bi) idx else laneAddress (w.breg bi) idx op.width with
  | .dropped => .drop
  | .trap c => .trap c none
  | .at_ a => s.goAt op wid w bi a

/-! ## What an instruction meets before it performs anything -/

/-- Another wave of the group whose instruction a wave has taken up. -/
def sameIssue (s : State) (wid : Nat) (w : Wave) (e : Nat × Wave) : Bool :=
  s.coreOf e.1 == s.coreOf wid && e.2.issueId == w.issueId && e.2.pend.pc == w.pend.pc

/-- The line that came back for a wave. -/
def gotLine (w : Wave) (chip pa : Nat) : Option Got := w.pend.lines.find? (fun x => x.chip == chip && x.line == pa / 128)

/-- The line that came back for a wave, or for another one of its group whose access is not over (R175). -/
def groupLine (s : State) (wid : Nat) (w : Wave) (chip pa : Nat) : Option Got :=
  (gotLine w chip pa).or (s.waves.findSome? (fun e => if s.sameIssue wid w e then gotLine e.2 chip pa else none))

/-- The lane reads poison (R246): of HBM, not of a copy, of a scratchpad, or of another chip, which has marked what it sent. The answer is the
address of the access, for a scratchpad the cluster-scratch one (LE 32). -/
def readsPoison (s : State) (op : MemOp) (wid : Nat) : Go → Option Nat
  | .hbm va pa _ =>
    if !(op.loads || op.rmw) || !s.poisoned pa op.width then none
    else if op.hint.isSome && (lineIn (s.core (s.coreOf wid)).l1 none pa).isSome then none
    else some va
  | .scratch c off => if (op.loads || op.rmw) && s.scratchPoisoned c off op.width then some (scratchVa c off) else none
  | .peer va _ e pa =>
    if (op.loads || op.rmw) && ((Tbl.find s.waves wid).bind (fun w => s.groupLine wid w e.chip pa)).any (fun x => x.bad) then some va else none
  | _ => none

/-- In a protected launch, a thread whose two lanes differ in what they name, send or guard (R242): of a register, the bytes
that the access sends. -/
def mismatched (w : Wave) (op : MemOp) (o : Nat) (on : List Nat) : Option Nat :=
  (on.map (fun l => l / 2 * 2)).find? (fun e =>
    on.contains e != on.contains (e + 1) || w.vreg e o != w.vreg (e + 1) o
      || op.src.any (fun r => (w.vreg e r).toNat % 2 ^ (8 * op.width) != (w.vreg (e + 1) r).toNat % 2 ^ (8 * op.width)))

/-- The causes of a memory instruction in a wave. -/
def memCauses (s : State) (op : MemOp) (regs : List Nat) (wid : Nat) (w : Wave) (lanes : List Nat) (go : List (Nat × Go)) :
    List (Nat × Nat × Option Nat) :=
  (if beyondSlabs w regs then lanes.map (fun l => (l, 0x13, none)) else [])
    ++ go.filterMap (fun e => match e.2 with | .trap c a => some (e.1, c, a) | _ => none)
    ++ (if w.guarded && op.dst.any w.liveV then go.map (fun e => (e.1, 0x60, none)) else [])
    ++ (if w.guarded && op.atomic then go.map (fun e => (e.1, 0x61, none)) else [])
    ++ go.filterMap (fun e => (s.readsPoison op wid e.2).map (fun pa => (e.1, 0x01, some pa)))

/-- A load of another chip's line waits while a store of its core to the line is not acknowledged (R205), under whichever generation of its
export page; and while one of another core of its die is not, for that store stands in the die's copies on its way there (R184) and no read may
meet it before it is performed (R204, R211; LE 68). -/
def storeUnderWay (s : State) (die chip page pa : Nat) : Bool :=
  s.fab.unacked.any (fun u => dieOfReq u.core == die && u.chip == chip && u.page == some page && u.pa % 65536 / 128 == pa % 65536 / 128)

/-- The source's limits of unacknowledged requests to a chip are reached (R55). -/
def windowFull (s : State) (chip : Nat) (atomic : Bool) : Bool :=
  let l := s.fab.unacked.filter (fun u => u.chip == chip)
  4096 ≤ l.length || (atomic && 64 ≤ (l.filter (fun u => u.op.isSome)).length)

/-- A lane holds the instruction back, performing nothing. -/
def holdsBack (s : State) (op : MemOp) (wid : Nat) (w : Wave) (lane : Nat) : Go → Bool
  | .peer _ _ e pa =>
    if op.rmw then !(w.pend.olds.any (fun x => x.1 == lane)) && s.windowFull e.chip true
    else if op.loads then s.storeUnderWay (dieOf (s.coreOf wid)) e.chip e.page pa
    else s.windowFull e.chip false
  | .hbm _ _ m =>
    m && s.mirrorOn (s.partOf wid) && !(op.loads && !op.rmw)
      && s.windowFull (fieldOf (s.part (s.partOf wid)).mirror 9 0) false
  | _ => false

/-- The distinct pages on which lanes fault, in ascending order of the lowest lane, with that lane, its address, the level and the
chip of a peer fault. -/
def faultPages (go : List (Nat × Go)) : List (Nat × Nat × Nat × Option Nat) :=
  go.foldl (fun acc e => match e.2 with
    | .fault va l ch => if acc.any (fun x => x.2.1 / 65536 == va / 65536) then acc else acc ++ [(e.1, va, l, ch)]
    | _ => acc) []

/-- What a wave does with a memory instruction; `part` performs it for the lanes that do not fault, while the others wait for room in the fault
queue, and `full` has only such others (R195, R197). -/
inductive MemPlan where
  | gone
  | mismatch (lane : Nat)
  | kill
  | trap (code lane : Nat) (faddr : Option Nat)
  | hold (x : Wait)
  | slab (k : Spill)
  | go (off : List Nat) (on : List (Nat × Go))
  | part (off : List Nat) (on : List (Nat × Go)) (x : Wait)
  | full (x : Wait)
  deriving DecidableEq, Repr

/-- The entries of a core's side log that belong to waves on the core: those of a saved team are away with it (R196). -/
def liveLog (s : State) (c : Nat) : List SideEntry :=
  (s.core c).sideLog.filter (fun e => match (Tbl.find s.waves e.wid).bind (fun w => Tbl.find s.teams w.team) with
    | none => false
    | some t => t.loc != .saved)

/-- The entries of a team in the side log of a core. -/
def teamLog (s : State) (c t : Nat) : List SideEntry :=
  (s.core c).sideLog.filter (fun e => ((Tbl.find s.waves e.wid).map (fun w => w.team)) == some t)

/-- The entries of a core's side log that are taken: those of teams that move to it keep their places (R131, R196). -/
def logUsed (s : State) (c : Nat) : Nat :=
  (s.liveLog c).length + ((s.core c).incoming.map (fun e => match Tbl.find s.teams e.1 with
    | none => 0
    | some k => (s.teamLog k.core e.1).length)).sum

/-- The address at which a lane of an entry begins. -/
def opVa : LogOp → Nat
  | .store va _ _ _ => va
  | .xacc va _ _ => va

/-- A side-log entry of a wave holds a page of an ASID. -/
def holdsPage (e : SideEntry) (wid asid page : Nat) : Bool :=
  e.wid == wid && e.asid == asid && (e.page == page || e.ops.any (fun o => opVa o / 65536 == page))

/-- The page of memory to which an address of an ASID leads: of this chip, or of another one. -/
def physPage (s : State) (wid asid va : Nat) : Option (Option (Nat × Nat) × Nat) :=
  match s.translate (some (s.coreOf wid)) (s.partOf wid) asid va with
  | .leaf l => some (l.peer, l.pa / 65536)
  | _ => none

/-- A side-log entry of a wave holds the page of memory to which an address leads, under another address or ASID: a thread's own store comes
before its later access to the location (R204). -/
def holdsPhys (s : State) (e : SideEntry) (wid asid va : Nat) : Bool :=
  e.wid == wid && (match s.physPage wid asid va with
    | none => false
    | some x => (e.va :: e.ops.map opVa).any (fun a => s.physPage wid e.asid a == some x))

/-- The entry of the wave's side log that holds the page of an access, by its ASID and page (R196, R204). -/
def loggedPage (s : State) (wid asid : Nat) (vas : List Nat) : Option (Nat × Nat) :=
  vas.findSome? (fun va => ((s.core (s.coreOf wid)).sideLog.find? (fun x => holdsPage x wid asid (va / 65536) || s.holdsPhys x wid asid va)).map
    (fun x => (x.asid, x.page)))

/-- The fault queue takes no records: lanes on mapped pages are performed, the others wait, and the wave of a load with them (R195, R197). -/
def noRoom (op : MemOp) (off : List Nat) (go : List (Nat × Go)) : MemPlan :=
  let on := go.filter (fun e => match e.2 with | .fault _ _ _ => false | _ => true)
  let x : Wait := if op.loads then .faultQueue else .retry
  if on.isEmpty then .full x else .part off on x

/-- The waits of an instruction that raises no cause (R118, R196, R198): `recs` are the records that the fault queue, `used` the entries that
the side log must have room for, in all the waves of the group together. -/
def memWaits (s : State) (op : MemOp) (wid : Nat) (w : Wave) (asid : Nat) (off : List Nat) (go : List (Nat × Go)) (recs used : Nat) : MemPlan :=
  let pages := faultPages go
  match s.loggedPage wid asid (go.filterMap (fun e => e.2.va)) with
  | some p => .hold (.logged p.1 p.2)
  | none =>
    if go.any (fun e => s.holdsBack op wid w e.1 e.2) then .hold .retry
    else if used != 0 && 64 < s.logUsed (s.coreOf wid) + used then .hold .retry
    else match slabToCopy wid w (if go.isEmpty then [] else op.dst) with
      | some k => .slab k
      | none => if pages.isEmpty || s.fqRoom (s.partOf wid) recs then .go off go else noRoom op off go

/-- Where a page of the access was resolved with FAIL, only that and what has come back is left of the access (R199). -/
def ended (w : Wave) (go : List (Nat × Go)) : List (Nat × Go) :=
  if go.any (fun e => match e.2 with | .fatal _ => true | _ => false) then
    go.filter (fun e => (match e.2 with | .fatal _ => true | _ => false) || w.pend.olds.any (fun x => x.1 == e.1))
  else go

/-- The plan of a memory instruction in one wave of its group. -/
def memPlan (s : State) (op : MemOp) (bi o : Nat) (regs : List Nat) (g : Group) (wid recs used : Nat) : MemPlan :=
  match Tbl.find s.waves wid with
  | none => .gone
  | some w =>
    let lanes := sortBy id (g.lanesOf wid)
    let on := lanes.filter w.guardOn
    let go := ended w (on.map (fun l => (l, s.laneGo op wid w bi (w.vreg l o).toNat)))
    let causes := s.memCauses op regs wid w lanes go
    let mis := if s.prot wid && !(op.loads && !op.rmw) then mismatched w op o on else none
    match (if on.isEmpty then none else slabBack wid w regs), mis with
    | some k, _ => .slab k
    | none, some l => .mismatch l
    | none, none =>
      match leastBy (fun (e : Nat × Nat × Option Nat) => e.2.1) (sortBy (fun (e : Nat × Nat × Option Nat) => e.1) causes) with
      | some c => if c.2.1 == 0x01 && c.2.2.isSome && s.replays wid then .kill else .trap c.2.1 c.1 c.2.2
      | none => s.memWaits op wid w (asidOf w (w.breg bi)) (lanes.filter (fun l => !on.contains l)) go recs used

/-! ## Peer lines -/

/-- A READ leaves on its plane (R51, R62). -/
def sendRead (s : State) (r : ReadReq) : State :=
  ((s.countFlits r.plane r.part r.cls 1).watch r.plane).emit (.read r.chip r.plane r.id (some r.page) r.gen r.part r.cls r.pa r.len)

/-- A READ of a line of another chip for a lane of a wave: it leaves, or is held (R51, R54). -/
def postRead (s : State) (ag : Agent) (wid lane : Nat) (keep pre : Bool) (va : Nat) (e : PtcEntry) (pa : Nat) : State :=
  let line := pa / 128 * 128
  let r := ReadReq.mk s.nextId e.chip (s.planeOf e.chip line) (bucketOf e.chip line) e.page e.gen ag.part ag.cls line 128 (some (wid, lane)) none va
    (s.heldRead e.chip line) false keep pre s.reft
  let s := { s with nextId := s.nextId + 1, fab := { s.fab with reads := s.fab.reads ++ [r] } }
  if r.held then s else s.sendRead r

/-- The READ of a line that a lane of the instruction of a wave has asked for: in the wave, or in another one of its group (R175). -/
def askedFor (s : State) (wid : Nat) (w : Wave) (chip line : Nat) : Option ReadReq :=
  s.fab.reads.find? (fun r => r.chip == chip && r.pa == line && !r.pre
    && (w.pend.reqs.contains (none, r.id) || s.waves.any (fun e => s.sameIssue wid w e && e.2.pend.reqs.contains (none, r.id))))

/-- Asks for the line of another chip that a wave loads from, once for its instruction (R51, R175); `keep` says that the line may stay as a
copy. -/
def readPeer (s : State) (ag : Agent) (wid lane : Nat) (keep : Bool) (va : Nat) (e : PtcEntry) (pa : Nat) : State :=
  let line := pa / 128 * 128
  let wants := fun (s : State) (id : Nat) => s.updWave wid (fun w =>
    if w.pend.reqs.contains (none, id) then w else { w with pend := { w.pend with reqs := w.pend.reqs ++ [(none, id)] } })
  match (Tbl.find s.waves wid).bind (fun w => s.askedFor wid w e.chip line) with
  | some r => wants s r.id
  | none => wants (s.postRead ag wid lane keep false va e pa) s.nextId

/-- The copy of another chip's line that an ordinary load may read: the core's L1, the die's peer ways (R177, R184). -/
def peerHit (s : State) (ag : Agent) (chip pa : Nat) : Option Line :=
  match ag.core.bind (fun c => lineIn (s.core c).l1 (some chip) pa) with
  | some l => some l
  | none => s.peerCopy ag.die (some chip) pa

/-- A prefetch of a line of another chip (R325): where the die holds no lease of its page it asks for one, and fetches the line once that has come
(R57). It is dropped while a store of the die to the line is under way (R202, R205). -/
def prfPeer (s : State) (x : PrfReq) : State :=
  let ag := s.agentOf x.wid
  if s.cutOff x.chip then s
  else match s.ptcFind ag.die ag.part x.chip x.page with
    | none =>
      let s := s.requestLease ag.die ag.part ag.cls x.chip x.page .read
      { s with fab := { s.fab with prefetches := s.fab.prefetches ++ [x] } }
    | some e =>
      let pa := e.pa / 65536 * 65536 + x.off
      if !rightsAllow e.rights .read || (s.peerHit ag x.chip pa).isSome || s.storeUnderWay ag.die x.chip x.page pa then s
      else (s.postRead ag x.wid x.lane x.l1 true x.va e pa).renew e ag.cls .read

/-- Bytes that a wave loads from another chip, once they are there; the use of the entry may renew it (R58). -/
def loadPeer (s : State) (ag : Agent) (wid lane : Nat) (hint : Option Nat) (va : Nat) (e : PtcEntry) (pa n : Nat) : Option (List Byte) × State :=
  match (if hint.isNone then none else s.peerHit ag e.chip pa) with
  | some l => (some ((l.bytes.drop (pa % 128)).take n), s.renew e ag.cls .read)
  | none =>
    match (Tbl.find s.waves wid).bind (fun w => s.groupLine wid w e.chip pa) with
    | some x => (some ((x.bytes.drop (pa % 128)).take n), s)
    | none => (none, (s.readPeer ag wid lane hint.isSome va e pa).renew e ag.cls .read)

/-- A load of a line of another chip leaves it where its hint says, unless it must not be kept: in the L1, in the peer ways (R176, R177, R184); a
strong load drops the copies (R204). -/
def keepPeer (s : State) (ag : Agent) (wid : Nat) (hint : Option Nat) (chip pa : Nat) : State :=
  match hint with
  | none => s.forgetLine ag (some chip) pa
  | some h =>
    let got := ((Tbl.find s.waves wid).bind (fun w => gotLine w chip pa)).bind (fun x =>
      if x.keep then some (Line.mk (some chip) (pa / 128 * 128) x.bytes (0, 0) ag.part) else none)
    match (s.peerCopy ag.die (some chip) pa).or got with
    | none => s
    | some l =>
      let s := s.keepCopy ag h l
      match ag.core with
      | none => s
      | some c => if h == 0 && (lineIn (s.core c).l1 l.chip l.pa).isNone then s.fillL1 c l else s

/-! ## Host memory and the register window -/

/-- The VF whose virtual device owns a wave. -/
def vfOf (s : State) (wid : Nat) : Nat :=
  match Tbl.find s.grids (s.gridIdOf wid) with
  | none => 0
  | some g => g.vf

/-- A load of a lane through the host window: first it waits for its PCIe completion, which may come before the timeout (R401, LE 12). -/
def loadHost (s : State) (wid lane a n : Nat) : Option (List Byte) × State :=
  match Tbl.find s.waves wid with
  | none => (none, s)
  | some w =>
    if w.pend.host.contains lane then (some (s.hostBytes a n), s)
    else (none, (s.updWave wid (fun w => { w with pend := { w.pend with host := w.pend.host ++ [lane] } })).soonOnce
      (.hostWindowTimeout (s.coreOf wid) w.slot))

/-! ## Scratchpads of relocking cores (R15) -/

/-- A load or a read-modify-write of a lane waits in the FIFO of a relocking core. -/
def askScratch (s : State) (wid c : Nat) (p : Nat → Packet) : State :=
  let id := s.nextId
  ({ s with nextId := id + 1 }.toFifo c (p id)).updWave wid (fun w => { w with pend := { w.pend with reqs := w.pend.reqs ++ [(none, id)] } })

/-- What the scratchpad of a relocking core has answered to a lane. -/
def scrOf (s : State) (wid lane : Nat) : Option (List Byte) :=
  (Tbl.find s.waves wid).bind (fun w => (w.pend.scr.find? (fun x => x.1 == lane)).map (fun x => x.2))

/-- A store into the register window: the write reaches the register before the next instruction (R82). -/
def storeReg (s : State) (wid off : Nat) (bs : List Byte) : State :=
  s.atTick s.reft (.registerWrite (.vf (Fin.ofNat 32 (s.vfOf wid))) 0 off (bs.length == 8) (BitVec.ofNat 64 (bytesNat bs)))

/-! ## Performing -/

/-- A load performed for a lane: its bytes, unless they have not come back. -/
def loadAt (s : State) (op : MemOp) (wid lane : Nat) (g : Go) : Option (List Byte) × State :=
  let ag := s.agentOf wid
  match g with
  | .hbm _ pa _ =>
    (match op.hint with
      | some _ => (some (s.loadHbm ag pa op.width).1, (s.loadHbm ag pa op.width).2)
      | none => (some (s.bytesAt pa op.width), s.readStamp (some wid) (s.stampAt pa)))
  | .scratch c off =>
    (match s.scrOf wid lane with
      | some bs => (some bs, s)
      | none => if s.asleep c then (none, s.askScratch wid c (fun id => .load wid lane id off op.width))
          else (some (s.scratchBytes c off op.width), s))
  | .regs _ off => (some (natBytes op.width (s.vfRead (s.vfOf wid) off (op.width == 8))), s)
  | .host _ a => s.loadHost wid lane a op.width
  | .peer va _ e pa => s.loadPeer ag wid lane op.hint va e pa op.width
  | .drop => (some (natBytes op.width 0), s)
  | _ => (none, s)

/-- The stamp that a write of a wave leaves: that of its own release, or of its last FENCE (R207, R213). -/
def stampOf (s : State) (wid : Nat) (stamp : Option (Nat × Nat)) : Option (Nat × Nat) :=
  stamp.or ((Tbl.find s.waves wid).bind (fun w => w.fstamp))

/-- The access of a lane of the instruction that a wave issued last. -/
def originOf (s : State) (wid lane asid va : Nat) : Origin :=
  match Tbl.find s.waves wid with
  | none => ⟨asid, va, lane, 0, 0⟩
  | some w => ⟨asid, va, s.laneId wid lane, w.issueId, w.depth⟩

/-- A store performed for a lane (R177, R323, R324), with the stamp that a release leaves (R213). -/
def storeAt (s : State) (wid lane : Nat) (stamp : Option (Nat × Nat)) (g : Go) (bs : List Byte) : State :=
  let ag := s.agentOf wid
  match g with
  | .hbm va pa m =>
    let s := s.writeHome ag m pa bs
    (match s.stampOf wid stamp with
      | none => s
      | some st => s.stampLine pa st false)
  | .scratch c off => s.sendScratch (some wid) none c off bs
  | .regs _ off => s.storeReg wid off bs
  | .host _ a => s.putHost a bs
  | .peer va asid e pa =>
    ((s.sendWrite ag e.chip (some e.page) e.gen pa bs none (some (wid, lane)) none (s.originOf wid lane asid va)).patchCopies ag (some e.chip) pa bs).renew e ag.cls
      .write
  | _ => s

/-- A read-modify-write performed for a lane: the old value, unless it has not come back (R326). -/
def rmwAt (s : State) (wid lane : Nat) (stamp : Option (Nat × Nat)) (o : RmwOp) (g : Go) : Option Nat × State :=
  let ag := s.agentOf wid
  let n := rmwBytes o
  match g with
  | .hbm va pa m =>
    let old := s.natAt pa n
    let s := (s.readStamp (some wid) (s.stampAt pa)).writeHome ag m pa (natBytes n (rmwNew o old))
    (some old, match s.stampOf wid stamp with
      | none => s
      | some st => s.stampLine pa st true)
  | .scratch c off =>
    (match s.scrOf wid lane with
      | some bs => (some (bytesNat bs), s)
      | none =>
        if s.asleep c then (none, s.askScratch wid c (fun id => .rmw wid lane id off o))
        else
          let old := bytesNat (s.scratchBytes c off n)
          (some old, s.storeScratch (s.teamOfWave wid) c off (natBytes n (rmwNew o old))))
  | .peer va asid e pa =>
    match (Tbl.find s.waves wid).bind (fun w => (w.pend.olds.find? (fun x => x.1 == lane)).map (fun x => x.2.toNat)) with
    | some old => (some old, s)
    | none =>
      let seq := Tbl.getD s.fab.seqOut e.chip 0 % 2 ^ 32
      let s := s.sendWrite ag e.chip (some e.page) e.gen pa [] (some o) (some (wid, lane)) none (s.originOf wid lane asid va)
      let s := s.noKeep (fun c x l => dieOf c == ag.die && x == e.chip && l == pa / 128)
      (none, (s.updWave wid (fun w => { w with pend := { w.pend with reqs := w.pend.reqs ++ [(some e.chip, seq)] } })).renew e ag.cls .atomic)
  | .drop => (some 0, s)
  | _ => (none, s)

/-- An exact cell with an addend (R268, R327). -/
def xaccAt (s : State) (wid : Nat) (t : CellType) (x : Nat) (g : Go) : State :=
  match g with
  | .hbm va pa m =>
    let s := (s.readStamp (some wid) (s.stampAt pa)).writeHome (s.agentOf wid) m pa
      ((Cell.ofBytes (s.bytesAt pa 64)).add (t.fmt.decode (x % 2 ^ t.fmt.bits))).bytes
    (match s.stampOf wid none with
      | none => s
      | some st => s.stampLine pa st true)
  | _ => s

/-- Reads an exact cell, and clears it (R269, R327). -/
def xrdAt (s : State) (wid : Nat) (f : FFmt) (clr : Bool) (g : Go) : Option Nat × State :=
  match g with
  | .hbm va pa m =>
    let x := (Cell.ofBytes (s.bytesAt pa 64)).read f
    let s := s.readStamp (some wid) (s.stampAt pa)
    (some x, if clr then
        (let s := s.writeHome (s.agentOf wid) m pa (natBytes 64 0)
        match s.stampOf wid none with
        | none => s
        | some st => s.stampLine pa st true)
      else s)
  | .drop => (some 0, s)
  | _ => (none, s)

/-! ## The frame -/

/-- The lanes for which a read-modify-write or a store is performed: in a protected launch once for each thread (R148, R242). -/
def actors (s : State) (op : MemOp) (wid : Nat) (on : List (Nat × Go)) : List (Nat × Go) :=
  if s.prot wid && !(op.loads && !op.rmw) then on.filter (fun e => e.1 % 2 == 0) else on

/-- The lanes that take the result of a lane. -/
def sharers (s : State) (op : MemOp) (wid lane : Nat) : List Nat :=
  if s.prot wid && !(op.loads && !op.rmw) then [lane, lane + 1] else [lane]

/-- A lane of an instruction performed: with a result, it and its shadow take it and move on; of an evicted wave it goes into the copy of its slab,
where there is one (R118). -/
def memLane (op : MemOp) (act : State → Nat → Wave → Nat → Go → Option VWrites × State) (s : State) (x : Nat × Nat × Go) : State :=
  match Tbl.find s.waves x.1 with
  | none => s
  | some w =>
    let r := act s x.1 w x.2.1 x.2.2
    match r.1 with
    | none => r.2
    | some v =>
      let t := r.2.updWave x.1 (fun w => (s.sharers op x.1 x.2.1).foldl (fun (w : Wave) l => w.commit 4 l (.ofV v)) w)
      (s.sharers op x.1 x.2.1).foldl (fun t l => v.foldl (fun t y => t.copyBack x.1 l y.1 y.2) t) t

/-- A fault record of a page on which an instruction of a wave faults (R197). -/
def faultRec (s : State) (op : MemOp) (wid : Nat) (w : Wave) (asid : Nat) (x : Nat × Nat × Nat × Option Nat) : FaultRec where
  core := s.coreOf wid
  id := w.issueId
  va := x.2.1
  asid := asid
  lane := s.laneId wid x.1
  slot := w.slot
  kind := op.kind
  level := if x.2.2.2.isSome then (Config.freeWord s.fresh 0).toNat % 256 else x.2.2.1
  peer := x.2.2.2

/-- The fault records of an instruction: one for each page, of the lowest lane in whichever of its waves, in ascending order of the lanes
(R197). -/
def faultRecs (s : State) (op : MemOp) (bi : Nat) (work : List (Nat × List Nat × List (Nat × Go))) : List FaultRec :=
  let l := work.flatMap (fun x => match Tbl.find s.waves x.1 with
    | none => []
    | some w => (faultPages x.2.2).map (fun y => (y.1, s.faultRec op x.1 w (asidOf w (w.breg bi)) y)))
  (sortBy (fun e => e.1) l).foldl (fun acc e =>
    if acc.any (fun (r : FaultRec) => r.asid == e.2.asid && r.va / 65536 == e.2.va / 65536) then acc else acc ++ [e.2]) []

/-- Writes the fault records of an instruction together (R197, R198). -/
def recordFaults (s : State) (op : MemOp) (bi : Nat) (work : List (Nat × List Nat × List (Nat × Go))) : State :=
  match s.faultRecs op bi work, work with
  | [], _ => s
  | _, [] => s
  | recs, x :: _ => (s.fqRecords (s.partOf x.1) recs).drawn

/-- The side-log entries of an instruction's faulting lanes, one for each page (R196); every lane that retires into them moves on. -/
def logFaults (s : State) (op : MemOp) (wid : Nat) (w : Wave) (asid : Nat) (peer : Bool) (opOf : State → Nat → Wave → Nat → Nat → LogOp)
    (go : List (Nat × Go)) : State :=
  let es := (faultPages go).map (fun x => {
    wid := wid
    asid := asid
    page := x.2.1 / 65536
    peer := peer
    lane := s.laneId wid x.1
    va := x.2.1
    depth := w.depth
    id := w.issueId
    resolved := false
    lease := none
    rel := none
    fence := []
    ops := (s.actors op wid go).filterMap (fun e => match e.2 with
      | .fault va _ _ => if va / 65536 == x.2.1 / 65536 then some (opOf s wid w e.1 va) else none
      | _ => none) : SideEntry })
  let s := s.updCore (s.coreOf wid) (fun k => { k with sideLog := k.sideLog ++ es })
  s.updWave wid (fun w => go.foldl (fun (w : Wave) e => match e.2 with
    | .fault _ _ _ => w.updThread e.1 (fun t => t.advance 4 {})
    | _ => w) w)

/-- The pages that a waiting access waits for (R195). -/
def waitPages (s : State) (op : MemOp) (wid : Nat) (w : Wave) (asid : Nat) (go : List (Nat × Go)) : List PageWait :=
  (faultPages go).map (fun x => ⟨asid, x.2.1 / 65536, s.laneId wid x.1, x.2.1, op.kind, w.issueId, x.2.2.2.isSome, false⟩)

/-- Asks for the leases that lanes wait for (R57). -/
def askLeases (s : State) (op : MemOp) (wid : Nat) (go : List (Nat × Go)) : State :=
  go.foldl (fun s e => match e.2 with
    | .lease _ chip page =>
      let s := s.requestLease (dieOf (s.coreOf wid)) (s.partOf wid) (s.clsOf wid) chip page op.leaf
      s.updWave wid (fun w => { w with pend := { w.pend with
        leases := if w.pend.leases.contains (chip, page, op.leaf) then w.pend.leases else w.pend.leases ++ [(chip, page, op.leaf)] } })
    | _ => s) s

/-- The end of an instruction in a wave: the lanes that did not act move past it; what faults waits or retires into the
side log; an acquire follows; an access of which nothing is left to wait for is over. -/
def memFinish (op : MemOp) (bi : Nat) (opOf : State → Nat → Wave → Nat → Nat → LogOp) (g : Group) (off : List Nat) (go : List (Nat × Go)) (s : State)
    (wid : Nat) : State :=
  match Tbl.find s.waves wid with
  | none => s
  | some w =>
    let asid := asidOf w (w.breg bi)
    let s := s.updWave wid (fun w => off.foldl (fun (w : Wave) l => w.updThread l (fun t => t.advance 4 {})) w)
    let s := if op.loads then s.updWave wid (fun w => { w with pend := { w.pend with pages := s.waitPages op wid w asid go } })
      else s.logFaults op wid w asid (Rcd.space (w.breg bi) == 3) opOf go
    let s := s.askLeases op wid go
    let s := match op.acq with
      | none => s
      | some sc => s.acquire wid sc w.rstamp
    let left := match Tbl.find s.waves wid with
      | none => false
      | some w => go.any (fun e => (w.thread e.1).pc == g.pc)
    let s := s.updWave wid (fun w => { w with pend := if left then { w.pend with pc := g.pc, again := true } else .none })
    match go.find? (fun e => match e.2 with | .fatal _ => true | _ => false) with
    | some (l, .fatal va) => s.laneTrap wid 0x38 l g.pc (some va)
    | _ => s

/-- Every lane of a store reaches memory, so that its release can be under way while the wave runs on (R212). -/
def runsOn (op : MemOp) (on : List (Nat × Go)) : Bool :=
  !op.loads && !op.rmw && !on.isEmpty && on.all (fun e => match e.2 with | .hbm _ _ _ | .peer _ _ _ _ => true | _ => false)

/-- The distinct pages that lanes reach, with the first lane of each and its address. -/
def lanePages (on : List (Nat × Go)) : List (Nat × Nat) :=
  on.foldl (fun acc e => match e.2.va with
    | none => acc
    | some va => if acc.any (fun x => x.2 / 65536 == va / 65536) then acc else acc ++ [(e.1, va)]) []

/-- A store whose release waits: its lanes go into the side log, an entry for each page, and move on (R212); while the log has no room for them
the wave waits (R196). -/
def logRelease (s : State) (op : MemOp) (bi : Nat) (opOf : State → Nat → Wave → Nat → Nat → LogOp) (wid : Nat) (sc : Scope) (off : List Nat)
    (on : List (Nat × Go)) : State :=
  match Tbl.find s.waves wid with
  | none => s
  | some w =>
    let es := (lanePages on).map (fun x => {
      wid := wid
      asid := asidOf w (w.breg bi)
      page := x.2 / 65536
      peer := Rcd.space (w.breg bi) == 3
      lane := s.laneId wid x.1
      va := x.2
      depth := w.depth
      id := w.issueId
      resolved := false
      lease := none
      rel := some sc
      fence := w.pend.fence
      ops := (s.actors op wid on).filterMap (fun e => match e.2.va with
        | none => none
        | some va => if va / 65536 == x.2 / 65536 then some (opOf s wid w e.1 va) else none) : SideEntry })
    (s.updCore (s.coreOf wid) (fun k => { k with sideLog := k.sideLog ++ es })).updWave wid (fun w =>
      { (off ++ on.map (fun e => e.1)).foldl (fun (w : Wave) l => w.updThread l (fun t => t.advance 4 {})) w with pend := .none })

/-- A wave whose lanes are to be performed: its release comes first (R212). -/
def memGo (op : MemOp) (bi : Nat) (opOf : State → Nat → Wave → Nat → Nat → LogOp) (s : State) (work : List (Nat × List Nat × List (Nat × Go)))
    (wid : Nat) (off : List Nat) (on : List (Nat × Go)) : State × List (Nat × List Nat × List (Nat × Go)) :=
  let again := ((Tbl.find s.waves wid).map (fun w => w.pend.again)).getD true
  match op.rel with
  | none => (s, work ++ [(wid, off, on)])
  | some sc =>
    if again then (s, work ++ [(wid, off, on)])
    else match s.release wid sc with
      | (true, s) => (s, work ++ [(wid, off, on)])
      | (false, s) => (if runsOn op on && s.logUsed (s.coreOf wid) + (lanePages on).length ≤ 64 then s.logRelease op bi opOf wid sc off on
          else s.updWave wid (fun w => { w with pend := { w.pend with hold := some .release } }), work)

/-- What the plan of a wave does before anything is performed; a wave that performs nothing now answers none. -/
def memBegin (op : MemOp) (bi : Nat) (opOf : State → Nat → Wave → Nat → Nat → LogOp) (g : Group) (r : State × List (Nat × List Nat × List (Nat × Go))) (x : Nat × MemPlan) :
    State × List (Nat × List Nat × List (Nat × Go)) :=
  let s := r.1
  match x.2 with
  | .gone => r
  | .mismatch l => (s.laneTrap x.1 0x03 l g.pc none, r.2)
  | .kill => (s.killLaunch x.1, r.2)
  | .trap c l a => (s.laneTrap x.1 c l g.pc a, r.2)
  | .hold y | .full y => (s.updWave x.1 (fun w => { w with pend := { w.pend with hold := some y } }), r.2)
  | .slab k =>
    (match Tbl.find s.waves x.1 with
      | none => r
      | some w => (s.awaitSlab x.1 w k, r.2))
  | .go off on => s.memGo op bi opOf r.2 x.1 off on
  | .part off on _ => s.memGo op bi opOf r.2 x.1 off on

/-- The lanes whose faults cannot be told of yet wait at the instruction, which has begun (R195, R197). -/
def memHeld (g : Group) (work : List (Nat × List Nat × List (Nat × Go))) (s : State) (x : Nat × MemPlan) : State :=
  match x.2 with
  | .part _ _ y =>
    if work.any (fun e => e.1 == x.1) then
      s.updWave x.1 (fun w => { w with pend := { w.pend with pc := g.pc, lvl := w.lvl, id := w.issueId, again := true, hold := some y } })
    else s
  | _ => s

end State

/-- The translations that an instruction used stay in the TLBs (R191). -/
def State.keepTlbs (s : State) (bi : Nat) (wid : Nat) (go : List (Nat × Go)) : State :=
  match Tbl.find s.waves wid with
  | none => s
  | some w => go.foldl (fun s e => match e.2.va with
    | none => s
    | some va => s.keepTlb (s.coreOf wid) (s.partOf wid) (s.clsOf wid) (State.asidOf w (w.breg bi)) va) s

/-- A write of a lane reaches the L2 of its home (R183). -/
def State.touchWrite (op : MemOp) (s : State) (x : Nat × Nat × Go) : State :=
  match x.2.2 with
  | .hbm _ pa _ => if op.loads && !op.rmw then s else s.l2Home (s.agentOf x.1) pa (op.hint.getD 0) true
  | _ => s

/-- A load of a lane leaves its line where its hint says; a strong one drops the copies, and so does the read of an exact cell (R176, R204). -/
def State.touchRead (op : MemOp) (s : State) (x : Nat × Nat × Go) : State :=
  if !op.loads then s
  else if op.rmw then (match x.2.2 with
    | .hbm _ pa _ => if op.cell then s.forgetLine (s.agentOf x.1) none pa else s
    | _ => s)
  else match x.2.2 with
    | .hbm _ pa _ => (match op.hint with
      | some h => s.keepHbm (s.agentOf x.1) h pa
      | none => (s.forgetLine (s.agentOf x.1) none pa).l2Home (s.agentOf x.1) pa 0 false)
    | .peer _ _ e pa => s.keepPeer (s.agentOf x.1) x.1 op.hint e.chip pa
    | _ => s

/-- A plan that performs an instruction in a wave, wholly or for the lanes that do not fault. -/
def State.MemPlan.goes : State.MemPlan → Bool
  | .go _ _ | .part _ _ _ | .full _ => true
  | _ => false

/-- The wave in which an instruction is held, performing nothing. -/
def State.memHeldIn (plans : List (Nat × State.MemPlan)) : Option Nat :=
  (plans.find? (fun x => match x.2 with | .hold _ | .slab _ => true | _ => false)).map (fun x => x.1)

/-- The plans of the waves of a group. An instruction is one in all of them: the fault queue and the side log have room for what all of them need,
or for none (R196, R197); and where one wave is held, the others that begin it perform nothing either, and wait for that wave (R175, R196). -/
def State.memPlans (s : State) (op : MemOp) (bi o : Nat) (regs : List Nat) (g : Group) : List (Nat × State.MemPlan) :=
  let first := g.waves.map (fun wid => (wid, s.memPlan op bi o regs g wid 0 0))
  let pages := first.flatMap (fun x => match x.2, Tbl.find s.waves x.1 with
    | .go _ on, some w | .part _ on _, some w => (State.faultPages on).map (fun y => (State.asidOf w (w.breg bi), y.2.1 / 65536))
    | _, _ => [])
  let plans := g.waves.map (fun wid => (wid, s.memPlan op bi o regs g wid (dedup pages).length (if op.loads then 0 else pages.length)))
  match State.memHeldIn plans with
  | none => plans
  | some h => plans.map (fun x =>
      if x.2.goes && !((Tbl.find s.waves x.1).any (fun w => w.pend.again)) then (x.1, .hold (.beside h g.pc)) else x)

/-- The frame of a lane memory instruction through record `bi` with index register `o`: what each wave of the group meets, then the
lanes of all of them in ascending order, each on the caches as they stand, so that a line is requested once (R175), then the end in each. -/
def memStep (op : MemOp) (bi o : Nat) (regs : List Nat) (opOf : State → Nat → Wave → Nat → Nat → LogOp)
    (act : State → Nat → Wave → Nat → Go → Option VWrites × State) (s : State) : Host.Outcome State Fault Refusal :=
  match s.cur with
  | none => .fault .noWave
  | some g =>
    let plans := s.memPlans op bi o regs g
    let r := plans.foldl (State.memBegin op bi opOf g) (s, [])
    let work := sortBy (fun (e : Nat × Nat × Go) => e.2.1) (r.2.flatMap (fun x => (r.1.actors op x.1 x.2.2).map (fun e => (x.1, e.1, e.2))))
    let s := r.2.foldl (fun s x => s.keepTlbs bi x.1 x.2.2) r.1
    let s := work.foldl (State.touchWrite op) s
    let s := work.foldl (State.memLane op act) s
    let s := (work.foldl (State.touchRead op) s).recordFaults op bi r.2
    let s := r.2.foldl (fun s x => State.memFinish op bi opOf g x.2.1 x.2.2 s x.1) s
    .next (plans.foldl (State.memHeld g r.2) s)

end Sys2Proof.Machine
end

