-- ==== Sys2Proof/Machine/Mem.lean ====
section
/-!
DEFINITION. Lane loads and stores, strong accesses, prefetch, atomics and exact cells (R322 to R327).
-/

namespace Sys2Proof

/-- The width in bytes (R282). -/
def Width.bytes : Width → Nat
  | .b8 => 1
  | .b16 => 2
  | .b32 => 4
  | .b64 => 8
  | .b128 => 16

end Sys2Proof

namespace Sys2Proof.Machine

/-- The registers of the block of an access of a width (R322). -/
def blockOf (r w : Nat) : List Nat := block r (regCount w)

/-- No lane of a waiting instruction retires into the side log. -/
def noLog : State → Nat → Wave → Nat → Nat → LogOp := fun _ _ _ _ va => .store va [] none 0

/-! ## Ordinary loads and stores (R323) -/

/-- The meaning of a load. -/
def loadRow (spaces : List Nat) (w : Width) (hint : Option Nat) (d : VReg) (n : BReg) (o : VReg) (s : State) :
    Host.Outcome State Fault Refusal :=
  let op : MemOp := { spaces := spaces, right := .read, leaf := .read, width := w.bytes, loads := true, kind := 0, hint := hint
                      dst := blockOf d.val w.bytes }
  memStep op n.val o.val (o.val :: blockOf d.val w.bytes) noLog (fun s wid _ l g =>
    let r := s.loadAt op wid l g
    (r.1.map (loadBlock d.val w.bytes), r.2)) s

/-- The meaning of a store. -/
def storeRow (spaces : List Nat) (w : Width) (hint : Option Nat) (v : VReg) (n : BReg) (o : VReg) (s : State) : Host.Outcome State Fault Refusal :=
  let op : MemOp := { spaces := spaces, right := .write, leaf := .write, width := w.bytes, kind := 1, hint := hint
                      src := blockOf v.val w.bytes }
  memStep op n.val o.val (o.val :: blockOf v.val w.bytes) (fun _ _ w' l va => .store va (w'.blockBytes l v.val w.bytes) none (hint.getD 0))
    (fun s wid w' l g => match g with
      | .lease _ _ _ | .fault _ _ _ => (none, s)
      | _ => (some [], s.storeAt wid l none g (w'.blockBytes l v.val w.bytes))) s

def execLd (w : Width) (hint : Fin 4) (d : VReg) (n : BReg) (o : VReg) (s : State) : Host.Outcome State Fault Refusal :=
  loadRow [0, 3] w (some hint.val) d n o s
def execSt (w : Width) (hint : Fin 4) (v : VReg) (n : BReg) (o : VReg) (s : State) : Host.Outcome State Fault Refusal :=
  storeRow [0, 3] w (some hint.val) v n o s
def execLds (w : Width) (d : VReg) (n : BReg) (o : VReg) (s : State) : Host.Outcome State Fault Refusal := loadRow [1] w none d n o s
def execSts (w : Width) (v : VReg) (n : BReg) (o : VReg) (s : State) : Host.Outcome State Fault Refusal := storeRow [1] w none v n o s
def execLdc (w : Width) (d : VReg) (n : BReg) (o : VReg) (s : State) : Host.Outcome State Fault Refusal := loadRow [2] w none d n o s
def execStc (w : Width) (v : VReg) (n : BReg) (o : VReg) (s : State) : Host.Outcome State Fault Refusal := storeRow [2] w none v n o s

/-! ## Strong loads and stores (R324) -/

/-- LDQ. -/
def execLdq (pair acq : Bool) (sc : Scope) (d : VReg) (n : BReg) (o : VReg) (s : State) : Host.Outcome State Fault Refusal :=
  let w := if pair then 8 else 4
  let op : MemOp := { spaces := [0, 3], right := .read, leaf := .read, width := w, loads := true, kind := 0, dst := blockOf d.val w
                      scope := some sc, acq := if acq then some sc else none }
  memStep op n.val o.val (o.val :: blockOf d.val w) noLog (fun s wid _ l g =>
    let r := s.loadAt op wid l g
    (r.1.map (loadBlock d.val w), r.2)) s

/-- The stamp that a release write at a scope leaves (R213). -/
def State.stampFor (s : State) (wid : Nat) (rel : Bool) (sc : Scope) : Option (Nat × Nat) :=
  if rel && 4 ≤ sc.code then some (s.releaseStamp wid) else none

/-- STQ. -/
def execStq (pair rel : Bool) (sc : Scope) (v : VReg) (n : BReg) (o : VReg) (s : State) : Host.Outcome State Fault Refusal :=
  let w := if pair then 8 else 4
  let op : MemOp := { spaces := [0, 3], right := .write, leaf := .write, width := w, kind := 1, src := blockOf v.val w
                      scope := some sc, rel := if rel then some sc else none }
  memStep op n.val o.val (o.val :: blockOf v.val w)
    (fun s wid w' l va => .store va (w'.blockBytes l v.val w) (s.stampFor wid rel sc) 0)
    (fun s wid w' l g => match g with
      | .lease _ _ _ | .fault _ _ _ => (none, s)
      | _ => (some [], s.storeAt wid l (s.stampFor wid rel sc) g (w'.blockBytes l v.val w))) s

/-! ## Prefetch (R325) -/

/-- Where a lane of PRF leads, if the lane is not dropped. -/
def State.prfGo (s : State) (wid : Nat) (w : Wave) (b : RecBits) (i : Nat) : Option (Nat × Reach) :=
  match laneAddress b i 1 with
  | .at_ a =>
    if Rcd.read b && (Rcd.space b == 0 || Rcd.space b == 3) then
      some (a, s.reach (some (s.coreOf wid)) (s.partOf wid) (State.asidOf w b) a (Rcd.space b == 3) .read)
    else none
  | _ => none

/-- PRF of a lane (R325): its line comes into the L1 and the L2, or into its home L2 alone. Nothing waits, and a poisoned line is not kept. -/
def State.prfLane (l2 : Bool) (s : State) (wid : Nat) (w : Wave) (b : RecBits) (lane i : Nat) : State :=
  let ag := s.agentOf wid
  match s.prfGo wid w b i with
  | some (_, .hbm pa _) =>
    if s.poisoned (pa / 128 * 128) 128 then s else if l2 then s.l2Home ag pa 0 false else s.keepHbm ag 0 pa
  | some (va, .peer chip page off) => s.prfPeer ⟨wid, lane, !l2, chip, page, off, va⟩
  | _ => s

/-- PRF in one wave. -/
def State.prfWave (l2 : Bool) (n : BReg) (o : VReg) (g : Group) (s : State) (wid : Nat) : State :=
  match Tbl.find s.waves wid with
  | none => s
  | some w =>
    let on := (g.lanesOf wid).filter w.guardOn
    match (if on.isEmpty then none else State.slabBack wid w [o.val]) with
    | some k => s.awaitSlab wid w k
    | none =>
      let s := on.foldl (fun s l => s.prfLane l2 wid w (w.breg n.val) l (w.vreg l o.val).toNat) s
      s.updWave wid (fun w => (g.lanesOf wid).foldl (fun (w : Wave) l => w.updThread l (fun t => t.advance 4 {})) w)

def execPrf (l2 : Bool) (n : BReg) (o : VReg) (s : State) : Host.Outcome State Fault Refusal :=
  match s.cur with
  | none => .fault .noWave
  | some g => .next (g.waves.foldl (fun s wid => match Tbl.find s.waves wid with
    | none => s
    | some w => if State.beyondSlabs w [o.val] then s.laneTrap wid 0x13 ((g.lanesOf wid).foldl min 31) g.pc none else s.prfWave l2 n o g wid) s)

/-! ## Atomics (R326) -/

/-- The meaning of an atomic: its operation from the lane's registers. -/
def atomicRow (w : Nat) (sc : Scope) (dst src : List Nat) (d : VReg) (n : BReg) (o : VReg) (f : Wave → Nat → RmwOp) (s : State) :
    Host.Outcome State Fault Refusal :=
  let op : MemOp := { spaces := [0, 1, 2, 3], right := .atomic, leaf := .atomic, width := w, rmw := true, loads := true, kind := 2
                      scope := some sc, dst := dst, src := src, rel := some sc, acq := some sc, atomic := true }
  memStep op n.val o.val (o.val :: src) noLog (fun s wid w' l g =>
    let r := s.rmwAt wid l (s.stampFor wid true sc) (f w' l) g
    (r.1.map (fun x => vwrite (w == 8) d.val x), r.2)) s

def execAtom (op : AtomOp) (pair : Bool) (sc : Scope) (d : VReg) (n : BReg) (o : VReg) (s : State) : Host.Outcome State Fault Refusal :=
  atomicRow (if pair then 8 else 4) sc (regsOf pair d) (regsOf pair d) d n o
    (fun w l => .atom op pair (BitVec.ofNat 64 (rawReg pair w l d))) s

/-- ACAS: the comparand and the new value in two registers, or in two pairs. -/
def execAcas (pair : Bool) (sc : Scope) (d : VReg) (n : BReg) (o : VReg) (s : State) : Host.Outcome State Fault Refusal :=
  atomicRow (if pair then 8 else 4) sc (regsOf pair d) (block d.val (if pair then 4 else 2)) d n o
    (fun w l => if pair then .cas true (w.vpair l d.val) (w.vpair l (d.val + 2))
      else .cas false (BitVec.ofNat 64 (w.vreg l d.val).toNat) (BitVec.ofNat 64 (w.vreg l (d.val + 1)).toNat)) s

def execAfadd (t : AddType) (sc : Scope) (d : VReg) (n : BReg) (o : VReg) (s : State) : Host.Outcome State Fault Refusal :=
  atomicRow t.bytes sc (regsOf (t == .f64) d) (regsOf (t == .f64) d) d n o
    (fun w l => .fadd t (BitVec.ofNat 64 (rawReg (t == .f64) w l d))) s

/-! ## Exact cells (R327) -/

/-- XACC. -/
def execXacc (t : CellType) (v : VReg) (n : BReg) (o : VReg) (s : State) : Host.Outcome State Fault Refusal :=
  let src := regsOf (t == .f64) v
  let op : MemOp := { spaces := [0], right := .atomic, leaf := .atomic, width := 64, cell := true, rmw := true, kind := 2, src := src
                      scope := some .device, atomic := true }
  memStep op n.val o.val (o.val :: src) (fun _ _ w l va => .xacc va t (BitVec.ofNat 64 (rawReg (t == .f64) w l v)))
    (fun s wid w l g => match g with
      | .lease _ _ _ | .fault _ _ _ => (none, s)
      | _ => (some [], s.xaccAt wid t (rawReg (t == .f64) w l v) g)) s

/-- XRD. -/
def execXrd (pair clr : Bool) (d : VReg) (n : BReg) (o : VReg) (s : State) : Host.Outcome State Fault Refusal :=
  let dst := regsOf pair d
  let op : MemOp := { spaces := [0], right := if clr then .atomic else .read, leaf := if clr then .atomic else .read, width := 64
                      cell := true, rmw := true, loads := true, kind := if clr then 2 else 0, dst := dst, scope := some .device
                      atomic := clr }
  memStep op n.val o.val (o.val :: dst) noLog (fun s wid _ _ g =>
    let r := s.xrdAt wid (if pair then .f64 else .f32) clr g
    (r.1.map (fun x => vwrite pair d.val x), r.2)) s

/-! ## The end of a host-window load (R401) -/

/-- HOST_WINDOW_TIMEOUT: the load of the wave in the slot ends with MACHINE_CHECK, and the event is logged. While the core's hob relocks that
waits for the end (R14, R15), and a device that does not run keeps its state (R44). -/
def execHostWindowTimeout (core slot : Nat) (s : State) : Host.Outcome State Fault Refusal :=
  match s.waveAt core slot with
  | none => .next s
  | some e =>
    if !s.running then .next s
    else if s.asleep core then .next (s.atRelockEnd core (.hostWindowTimeout core slot))
    else match (e.2.pend :: e.2.pends).find? (fun p => !p.host.isEmpty) with
    | some p => .next ((s.logged .hostAbort).takeTrap e.1 0x01 (s.laneId e.1 (p.host.foldl min 31)) false (some p.pc) none)
    | none => .next s

end Sys2Proof.Machine
end

