-- ==== Sys2Proof/Machine/Cards.lean ====
section
/-!
DEFINITION. Job cards (R286, R287): their fields, the bytes that their regions cover, footprints (R215), and the causes for which a
card is refused (R288, R332, R338, R351).
-/

namespace Sys2Proof.Machine

/-! ## Fields -/

namespace Card

def kind (c : List Byte) : Nat := fieldAt c 0 1
def flags (c : List Byte) : Nat := fieldAt c 2 2
def count (c : List Byte) : Nat := fieldAt c 4 4
def param (c : List Byte) : Nat := fieldAt c 8 8

end Card

/-- A region of a card (R287), with the 96 bits it was read from. -/
structure JobRegion where
  raw : Nat
  stride : Nat
  extent : Nat
  v : Bool
  write : Bool
  space : Nat
  base : Nat
  deriving DecidableEq, Repr

/-- Region `i` of a card. -/
def Card.region (c : List Byte) (i : Nat) : JobRegion :=
  let x := fieldAt c (0x10 + 12 * i) 12
  { raw := x, stride := bitsOf x 95 76, extent := bitsOf x 75 56, v := bitOf x 55, write := bitOf x 54, space := bitsOf x 53 52
    base := bitsOf x 51 0 }

/-- The bytes that a region covers: rows of `extent` bytes at a row distance, repeated at a plane distance. -/
structure Area where
  space : Nat
  write : Bool
  base : Nat
  extent : Nat
  stride : Nat
  count : Nat
  pstride : Nat
  planes : Nat
  deriving DecidableEq, Repr

namespace Area

/-- The first address of a row of a plane. -/
def row (a : Area) (p k : Nat) : Nat := a.base + a.pstride * p + a.stride * k

/-- The address of the byte with a number in plane, row and byte order (R333). -/
def byte (a : Area) (x : Nat) : Nat := a.row (x / (a.count * a.extent)) (x / a.extent % a.count) + x % a.extent

/-- The number of bytes covered. -/
def size (a : Area) : Nat := a.planes * (a.count * a.extent)

/-- One past the highest address covered. -/
def top (a : Area) : Nat := a.row (a.planes - 1) (a.count - 1) + a.extent

/-- Some row meets a condition on its first address. -/
def any (a : Area) (f : Nat → Bool) : Bool := (List.range a.planes).any (fun p => (List.range a.count).any (fun k => f (a.row p k)))

/-- Two areas share a byte (R215, R332). -/
def meets (a b : Area) : Bool := a.space == b.space && a.any (fun x => b.any (fun y => x < y + b.extent && y < x + a.extent))

/-- The area moved to another space and by a distance. -/
def moved (a : Area) (space by_ : Nat) : Area := { a with space := space, base := a.base + by_ }

/-- Local scratch in its cluster-scratch form (R215). -/
def canon (core start : Nat) (a : Area) : Area := if a.space == 1 then a.moved 2 (core % 48 * 2 ^ 19 + start) else a

end Area

/-- The area of a region with one plane. -/
def JobRegion.area (r : JobRegion) (count : Nat) : Area := ⟨r.space, r.write, r.base, r.extent, 16 * r.stride, count, 0, 1⟩

namespace Card

/-- ROUTE of a copy card (R332). -/
def route (c : List Byte) : Nat := if kind c == 1 then bitsOf (flags c) 2 0 else 0

/-- A region of a copy card with its planes (R332). -/
def copyArea (c : List Byte) (i : Nat) : Area :=
  let a := (region c i).area (count c)
  if kind c == 1 && route c == 0 then
    { a with planes := bitsOf (param c) 15 0 + 1, pstride := 16 * bitsOf (param c) (35 + 20 * i) (16 + 20 * i) }
  else a

/-- The core indices that a CPYM card names (R332). -/
def cores (c : List Byte) : List Nat := (List.range 48).filter (bitOf (param c))

/-- A region is the remote side of an Ethernet route (R332). -/
def remote (c : List Byte) (i : Nat) : Bool :=
  kind c == 1 && ((route c == 2 && i == 0) || ((route c == 1 || route c == 3 || route c == 4) && i == 1))

/-- The cluster-scratch area of a CPYM card in one of the cores that it names: its region's offsets, whatever a broken CORE field holds (R332). -/
def toCore (a : Area) (k : Nat) : Area := { a with space := 2, base := a.base - bitsOf a.base 24 19 * 2 ^ 19 + k * 2 ^ 19 }

/-- The areas of a card on this chip: those of its regions in use (R215, R288, R332, R338, R351); a remote side of an Ethernet route is none of
them. -/
def areas (c : List Byte) : List Area :=
  ((List.range 4).filter (fun i => (region c i).v && !remote c i)).flatMap (fun i =>
    if kind c == 2 && i == 1 && (region c 1).space == 2 then (cores c).map (fun k => (toCore (copyArea c 1) k))
    else if i < 2 then [copyArea c i] else [(region c i).area (count c)])

/-- The footprint of a job of a team: its areas in canonical form. -/
def footprint (c : List Byte) (core start : Nat) : List Area := (areas c).map (Area.canon core start)

end Card

/-- Two footprints conflict: a byte is in both, and one of them writes it (R215). -/
def conflict (a b : List Area) : Bool := a.any (fun x => b.any (fun y => (x.write || y.write) && x.meets y))

/-- The read and the write side of one footprint share a byte (R332). -/
def selfMeets (a : List Area) : Bool := a.any (fun x => !x.write && a.any (fun y => y.write && x.meets y))

/-! ## What a card breaks -/

/-- A check that gives FOOTPRINT where it fails. -/
def orFootprint (ok : Bool) : List Nat := if ok then [] else [0x35]

/-- The rules of R286 and R287 that hold for every kind: the spaces that a kind accepts, no zero COUNT or EXTENT, zero fields. -/
def cardForm (c : List Byte) (kind : Nat) (spaces : List Nat) (paramRegion : Option Nat) : List Nat :=
  let rs := (List.range 4).map (Card.region c)
  orFootprint (Card.kind c == kind && fieldAt c 1 1 == 0 && Card.count c != 0
    && rs.all (fun r => !r.v || (r.extent != 0 && spaces.contains r.space))
    && (List.range 4).all (fun i => (Card.region c i).v || paramRegion == some i || (Card.region c i).raw == 0))

/-- The rules of a copy card (R332). -/
def copyForm (c : List Byte) : List Nat :=
  let r0 := Card.region c 0
  let r1 := Card.region c 1
  let r2 := Card.region c 2
  let r3 := Card.region c 3
  let p := Card.param c
  let src := r0.v && !r0.write
  let dst := r1.v && r1.write && r0.extent == r1.extent
  let eth := bitsOf p 63 47 == 0
  orFootprint (!r2.v && !r3.v && (match Card.kind c with
    | 1 => bitsOf (Card.flags c) 15 3 == 0 && (match Card.route c with
      | 0 => src && dst && bitsOf p 63 56 == 0 && r3.raw == 0
      | 1 => src && dst && eth && r1.space == 0 && r3.raw == 0
      | 2 => src && dst && eth && r0.space == 0 && r3.raw == 0
      | 3 => src && dst && eth && r1.space == 0 && bitsOf r3.raw 95 32 == 0
      | 4 => src && r1.raw == 0 && eth && bitsOf p 31 0 == 0 && r3.raw == 0 && Card.count c * r0.extent ≤ 2 ^ 31
      | _ => false)
    | _ => Card.flags c == 0 && src && dst && r1.space == 2 && bitsOf r1.base 24 19 == 0 && bitsOf p 63 48 == 0 && p != 0 && r3.raw == 0))

/-- The causes of a copy card but those of its scratch bytes. -/
def copyCauses (c : List Byte) (kind : Nat) : List Nat :=
  cardForm c kind [0, 1, 2, 3] (if kind == 1 && Card.route c == 3 then some 3 else none) ++ copyForm c

/-! ## Matrix cards (R351) -/

namespace Slotf

def elem (f : Nat) : Nat := bitsOf f 3 0
def scaled (f : Nat) : Bool := bitsOf f 12 11 == 1
def axis (f : Nat) : Bool := bitOf f 15
/-- The elements of a block (R255). -/
def block (f : Nat) : Nat := 16 * 2 ^ bitsOf f 14 13
/-- The bits of an element; a codebook index of 16 bits stands for eight weights. -/
def bits (f : Nat) : Nat :=
  match elem f with
  | 0 => 32
  | 1 | 2 => 16
  | 3 | 4 => 8
  | 5 | 6 => 6
  | 7 => 4
  | _ => 2
/-- K of a step of shape 0 (R342); 0 for FP32, which has none. -/
def k0 (f : Nat) : Nat :=
  match elem f with
  | 0 => 0
  | 1 | 2 => 32
  | 3 | 4 => 64
  | _ => 128

end Slotf

/-- The rows and columns of a shape (R342). -/
def shapeN (sh : Nat) : Nat := if sh == 0 then 32 else 16
/-- K of a step (R342). -/
def stepK (sh f : Nat) : Nat := if sh == 0 then Slotf.k0 f else Slotf.k0 f / 2
/-- The bytes that a step reads of an operand row (R344). -/
def stepBytes (sh f : Nat) : Nat := stepK sh f * Slotf.bits f / 8
/-- The scale bytes that a step reads of a row (R344). -/
def stepScales (sh f : Nat) : Nat := if Slotf.scaled f then stepK sh f / Slotf.block f else 0

/-- The slots of a step are as R343 wants them. -/
def slotsOk (fa fb : Nat) : Bool :=
  Slotf.elem fa != 0 && Slotf.elem fb != 0 && Slotf.k0 fa == Slotf.k0 fb
  && !(Slotf.scaled fa && Slotf.axis fa) && !(Slotf.scaled fb && Slotf.axis fb)

namespace Card

def shape (c : List Byte) : Nat := bitsOf (flags c) 0 0
def tile (c : List Byte) : Nat := bitsOf (flags c) 10 7
def steps (c : List Byte) : Nat := bitsOf (param c) 31 0

end Card

/-- The rules of a region of a matrix card: its extent, its alignment, whether it is there. -/
def matrixRegion (r : JobRegion) (there : Bool) (bytes align : Nat) : List Nat :=
  if there then
    (if r.base % align == 0 then [] else [0x31]) ++ orFootprint (r.v && !r.write && r.extent == bytes)
  else orFootprint (r.raw == 0)

/-- The causes of a matrix card but those of its scratch bytes (R351); `fa` and `fb` are the slots that it names. -/
def matrixCauses (c : List Byte) (kind acc fa fb : Nat) : List Nat :=
  let sh := Card.shape c
  let last := if kind == 4 then Card.tile c + 1 else Card.tile c
  cardForm c kind [1, 2] none
    ++ (if last < acc then [] else [0x13])
    ++ (if slotsOk fa fb then [] else [0x18])
    ++ orFootprint (bitsOf (Card.flags c) 15 12 == 0 && Card.count c == shapeN sh && Card.steps c != 0 && bitsOf (Card.param c) 63 32 == 0)
    ++ matrixRegion (Card.region c 0) true (Card.steps c * stepBytes sh fa) 16
    ++ matrixRegion (Card.region c 1) true (Card.steps c * stepBytes sh fb) 16
    ++ matrixRegion (Card.region c 2) (Slotf.scaled fa) (Card.steps c * stepScales sh fa) 64
    ++ matrixRegion (Card.region c 3) (Slotf.scaled fb) (Card.steps c * stepScales sh fb) 64

/-! ## Collective groups and cards (R337, R338) -/

/-- An entry of the group table (R337); `v` is false for an entry that breaks a rule. -/
structure GroupEntry where
  v : Bool
  eth : Bool
  nranks : Nat
  rank : Nat
  members : Nat
  stage : Nat
  deriving DecidableEq, Repr

def GroupEntry.ofBytes (bs : List Byte) : GroupEntry :=
  let n := fieldAt bs 0 2
  let fl := fieldAt bs 4 1
  let st := fieldAt bs 0x10 8
  let sb := fieldAt bs 0x18 8
  { v := bitOf fl 0 && 1 ≤ n && n ≤ 1024 && fieldAt bs 2 2 < n && fl < 4 && fieldAt bs 5 3 == 0 && st % 65536 == 0 && sb % 65536 == 0
         && 65536 * n ≤ sb
    eth := bitOf fl 1, nranks := n, rank := fieldAt bs 2 2, members := fieldAt bs 8 8, stage := st }

namespace State

/-- The chips of a group, in rank order. -/
def membersOf (s : State) (e : GroupEntry) : List Nat := (List.range e.nranks).map (fun i => s.natAt (e.members + 2 * i) 2)

/-- The group entry of a partition, read at its home; the zero bits of its members are zero (R337). -/
def groupEntry (s : State) (p g : Nat) : GroupEntry :=
  let e := GroupEntry.ofBytes (s.bytesAt (fieldOf (s.part p).collTable 47 13 * 8192 + 32 * g) 32)
  { e with v := e.v && (s.membersOf e).all (· < 1024) }

/-- A member of a group that is not reached (R68, R339, R340): another chip that was marked unreachable, or any other chip of a group on the fabric while
the domain is down. Neither this chip nor a group on the Ethernet ports needs the domain. -/
def memberLost (s : State) (e : GroupEntry) (c : Nat) : Bool :=
  c != s.chipId && (s.fab.unreachable.contains c || (!e.eth && s.dev.domainDown))

end State

/-- The bytes of an element of a DTYPE (R338). -/
def dtypeBytes : Nat → Nat
  | 1 | 5 => 8
  | 2 | 3 => 2
  | _ => 4

namespace Card

def collOp (c : List Byte) : Nat := bitsOf (flags c) 3 0
def collRed (c : List Byte) : Nat := bitsOf (flags c) 7 4
def collType (c : List Byte) : Nat := bitsOf (flags c) 11 8
def collGroup (c : List Byte) : Nat := bitsOf (param c) 15 0
def collRoot (c : List Byte) : Nat := bitsOf (param c) 31 16
def collElems (c : List Byte) : Nat := bitsOf (param c) 63 32

end Card

/-- The elements of a receive buffer (R338). -/
def collRecv (op elems n : Nat) : Nat :=
  match op with
  | 1 => elems / n
  | 2 => elems * n
  | _ => elems

/-- The causes of a COLL card but those of its scratch bytes (R338). -/
def collCauses (c : List Byte) (e : GroupEntry) : List Nat :=
  let r0 := Card.region c 0
  let r1 := Card.region c 1
  let op := Card.collOp c
  let sz := dtypeBytes (Card.collType c)
  let el := Card.collElems c
  cardForm c 5 [0, 1] none ++ orFootprint (
    bitsOf (Card.flags c) 15 12 == 0 && op ≤ 4 && Card.collRed c ≤ 3 && Card.collType c ≤ 5 && Card.collGroup c < 256
    && !(Card.collRed c == 3 && 4 ≤ Card.collType c)
    && r0.v && !r0.write && r1.v && r1.write && !(Card.region c 2).v && !(Card.region c 3).v
    && e.v && (!(op == 3 || op == 4) || Card.collRoot c < e.nranks)
    && (op != 1 || el % e.nranks == 0)
    && Card.count c * r0.extent == el * sz && Card.count c * r1.extent == collRecv op el e.nranks * sz)

/-! ## Scratch bytes (R288) -/

namespace State

/-- Every byte of an area lies where its space has bytes: a team's allocation, or any allocation of the partition or forwarding entry
of the cluster; an area that covers no byte lies nowhere else. -/
def areaInside (s : State) (c p bytes : Nat) (a : Area) : Bool :=
  match a.space with
  | 1 => a.size == 0 || a.top ≤ bytes
  | 2 => !(a.any (fun x => !((List.range a.extent).all (fun i => (s.clusterTarget c p (x + i) 1).isSome))))
  | _ => true

/-- What is wrong with the bytes of a card (R288): scratch bytes outside, a read that meets a write. -/
def areaCauses (s : State) (c p start bytes : Nat) (card : List Byte) : List Nat :=
  (if (Card.areas card).all (s.areaInside c p bytes) then [] else [0x32])
    ++ orFootprint (!(selfMeets (Card.footprint card c start)))

end State

end Sys2Proof.Machine
end

