-- ==== Sys2Proof/Machine/Engine.lean ====
section
/-!
DEFINITION. Engine jobs (R185, R186, R195, R214 to R216, R331 to R334): their acceptance, the order among the jobs of a team, their
accesses to memory, their ends, copy jobs chunk by chunk, and the Ethernet side of a copy (R74 to R76, R332).
-/

namespace Sys2Proof.Machine

namespace State

/-! ## Jobs of a team -/

/-- The start of a job's team in the scratchpad of its core, and the bytes of its allocation. -/
def jobScratch (s : State) (j : Job) : Nat × Nat :=
  match j.team.bind (Tbl.find s.teams) with
  | none => (0, 0)
  | some t => match Tbl.find s.grids t.grid with
    | none => (t.start, 0)
    | some g => (t.start, g.lrec.bytes)

/-- The footprint of a job. -/
def jobFootprint (s : State) (j : Job) : List Area := Card.footprint j.card j.core (s.jobScratch j).1

/-- An earlier job of the team whose footprint conflicts has not ended: the later one waits for it (R215). Jobs name the same
bytes of a global space only under one ASID. -/
def footprintHeld (s : State) (j : Job) : Bool :=
  match j.team with
  | none => false
  | some t => (s.jobsOf t).any (fun e => e.2.order < j.order && !e.2.card.isEmpty &&
      conflict ((s.jobFootprint e.2).filter (fun a => a.space == 2 || e.2.asid == j.asid)) (s.jobFootprint j))

/-- A store that the issuing wave made before the job is still in the side log, or on its way to a relocking core: the job's accesses follow
it (R208, R214). -/
def storeBefore (s : State) (j : Job) : Bool :=
  match j.wid with
  | none => false
  | some w => s.storeQueued w || (s.core j.core).sideLog.any (fun e => e.wid == w && e.id ≤ j.issueId)

/-- The job waits for earlier jobs or stores. -/
def jobHeld (s : State) (j : Job) : Bool := s.footprintHeld j || s.storeBefore j

end State

/-- The destination bytes of a copy card (R186, R332, R333). -/
def copyBytes (c : List Byte) : Nat := if Card.kind c == 1 && Card.route c == 4 then (Card.copyArea c 0).size else (Card.copyArea c 1).size

namespace State

/-- The next row of a job, by its kind and by whether anything of it is left. -/
def jobRow (id : Nat) (j : Job) : Option Instr :=
  if j.card.isEmpty then j.team.map (fun t => .scheduleEntryIssue t)
  else match Card.kind j.card with
    | 1 | 2 => some (if copyBytes j.card ≤ j.acked then .copyJobComplete id else .copyChunkWritten id)
    | 3 | 4 => some (if Card.steps j.card ≤ j.pos then .matrixJobComplete id else .matrixStep id)
    | _ => none

/-- Sets a job going again. -/
def kick (s : State) (id : Nat) : State :=
  match Tbl.find s.jobs id with
  | none => s
  | some j => match jobRow id j with
    | none => s
    | some i => if j.paused then s else s.soonOnce i

/-- Sets the jobs of a team going, and its copy schedule. -/
def kickTeam (s : State) (t : Nat) : State :=
  let s := (s.jobsOf t).foldl (fun s e => if e.2.wait == .no then s.kick e.1 else s) s
  match (Tbl.find s.teams t).bind (fun k => Tbl.find s.grids k.grid) with
  | none => s
  | some g => if g.sched.isEmpty then s else s.soonOnce (.scheduleEntryIssue t)

/-- The engine of a job is a core's whose hob relocks: what is addressed to it waits in the FIFO (R15). -/
def jobAsleep (s : State) (j : Job) : Bool := j.team.isSome && s.asleep j.core

/-- The engines of a job's core go on: the device runs, the job is not paused, and the hob of its core does not relock (R14). -/
def engineRuns (s : State) (j : Job) : Bool := s.running && !j.paused && !s.jobAsleep j

/-- The job may act now: its engines go on, its team is on its core, it waits for nothing. -/
def jobActs (s : State) (j : Job) : Bool :=
  s.engineRuns j && j.wait == .no && (match j.team with
    | none => true
    | some t => match Tbl.find s.teams t with
      | none => false
      | some k => k.loc == .resident)

/-- The wave that takes the cause of a job: the issuing one, or the lowest-numbered live one of the team (R334). -/
def jobWave (s : State) (j : Job) : Option Nat :=
  match j.wid with
  | none => none
  | some w =>
    match Tbl.find s.waves w with
    | none => none
    | some x => if x.retired then j.team.bind s.elected else some w

end State

/-- The chunks of a copy and how many of them a bit of the chunk map covers (R186). -/
def chunksOf (d : Nat) : Nat := (d + 511) / 512
def chunkGroup (d : Nat) : Nat := (chunksOf d + 1023) / 1024

/-- The chunk map of a copy of `d` bytes of which the first `n` are written: bits beyond the copy read 1 (R186). -/
def chunkMap (d n : Nat) : Nat :=
  let g := max 1 (chunkGroup d)
  let used := (chunksOf d + g - 1) / g
  let done := if d ≤ n then used else n / (512 * g)
  2 ^ 1024 - 2 ^ used + (2 ^ done - 1)

namespace State

/-- The chunk map of a copy job's tag. -/
def noteChunks (s : State) (j : Job) (n : Nat) : State :=
  match j.team with
  | none => s
  | some t => s.updTeam t (fun k => { k with chunks := Tbl.putS 0 k.chunks j.tag (chunkMap (copyBytes j.card) n) })

/-- Accepts a job (R185, R197, R331): it is counted, its tag is busy, its chunk map cleared. -/
def acceptJob (s : State) (j : Job) : State :=
  let id := s.nextId
  let s := if j.team.isSome then s.counted j.core else s
  let n := if j.team.isSome then (s.core j.core).issued.toNat else j.issueId
  let j := { j with order := id, issueId := n }
  let s := { s with nextId := id + 1, jobs := Tbl.put s.jobs id j }
  let s := match j.team with
    | none => s
    | some t => s.setTag t j.tag .busy
  let s := if Card.kind j.card == 1 || Card.kind j.card == 2 then s.noteChunks j 0 else s
  s.kick id

/-- A job has ended: what waited for it goes on, and its team may retire (R149, R188, R215). -/
def afterJob (s : State) (j : Job) : State :=
  match j.team with
  | none => s
  | some t => (s.kickTeam t).checkTeam t

/-- A job ends with a cause (R334): its tag is clear and the cause goes to a wave; the node of a node job fails. -/
def jobCause (s : State) (id code : Nat) (addr : Option Nat) : State :=
  match Tbl.find s.jobs id with
  | none => s
  | some j =>
    match j.node with
    | some n => (s.nodeFail n.1 n.2 0x07).forgetJob id
    | none =>
      if s.jobAsleep j then s.toFifo j.core (.cause id code addr)
      else
      let s := match s.jobWave j with
        | none => s
        | some w => if code == 0x01 then s.pendCheck w j.issueId else s.pendDeferred w code addr j.issueId
      (s.endJob id .clear).afterJob j

/-- A job has read poison (R246). -/
def jobPoison (s : State) (id : Nat) : State :=
  match Tbl.find s.jobs id with
  | none => s
  | some j =>
    match j.grid.bind (Tbl.find s.grids) with
    | none => s.jobCause id 0x01 none
    | some g =>
      if g.lrec.replay then
        (match s.jobWave j with
          | none => s.killGrid g.root [1] (s.eventFree (if j.team.isSome then some j.core else none) (some j.issueId) 0x01)
          | some w => s.killFor w j.issueId)
      else s.jobCause id 0x01 none

/-- A job is done: its tag is set, or its node is complete (R334, R92). -/
def jobDone (s : State) (id : Nat) : State :=
  match Tbl.find s.jobs id with
  | none => s
  | some j =>
    match j.node with
    | some n => (s.forgetJob id).soonOnce (.nodeComplete n.1 n.2)
    | none => (s.endJob id .set).afterJob j

/-! ## Accesses of a job -/

/-- The agent that a job is. -/
def jobAgent (j : Job) : Agent :=
  { core := if j.team.isSome then some j.core else none, die := dieOf j.core, part := j.part, cls := j.cls, wid := none, grid := j.grid }

end State

/-- Where a byte of a job lies, or what keeps the job from it. -/
inductive JobGo where
  | hbm (pa : Nat) (mirror : Bool)
  | scratch (core off : Nat)
  | host (a : Nat)
  | peer (e : PtcEntry) (pa : Nat)
  | lease (chip page : Nat)
  | fault (level : Nat) (chip : Option Nat)
  | fifo (core : Nat)
  | fail (code : Nat)
  deriving DecidableEq, Repr

/-- The byte is not to be reached now. -/
def JobGo.stuck : JobGo → Bool
  | .fault _ _ | .lease _ _ | .fifo _ | .fail _ => true
  | _ => false

namespace State

/-- Where a byte of a scratchpad is: a read waits while the core's hob relocks (R15). -/
def jobScr (s : State) (right : Right) (c off : Nat) : JobGo := if right == .read && s.asleep c then .fifo c else .scratch c off

/-- Where an address of a job leads (R82, R178, R179, R191, R194, R57). -/
def jobGo (s : State) (j : Job) (space a : Nat) (right : Right) : JobGo :=
  match space with
  | 1 => if a < (s.jobScratch j).2 then s.jobScr right j.core ((s.jobScratch j).1 + a) else .fail 0x32
  | 2 => match s.clusterTarget j.core j.part a 1 with
    | none => .fail 0x32
    | some x => s.jobScr right x.1 x.2
  | _ =>
    match s.reach (j.team.map (fun _ => j.core)) j.part j.asid a (space == 3) right with
    | .hbm pa m => .hbm pa m
    | .host h => .host h
    | .regs _ => .fail 0x32
    | .denied => .fail 0x32
    | .fault l => .fault l none
    | .peer chip page off =>
      if s.cutOff chip then .fail 0x01
      else if j.absent.contains (chip, page) then .fault 0 (some chip)
      else match s.ptcFind (dieOf j.core) j.part chip page with
        | none => .lease chip page
        | some e => if rightsAllow e.rights right then .peer e (e.pa / 65536 * 65536 + off) else .fail 0x32

/-- The fault record of a job (R197). The spec gives a job no lane, and a job without a wave no slot: free values (LE 13). -/
def jobFault (s : State) (id : Nat) (j : Job) (va kind level : Nat) (chip : Option Nat) : State :=
  if s.fqRoom j.part 1 then
    let free := fun (i : Nat) => (Config.freeWord s.fresh i).toNat
    let r : FaultRec := {
      core := if j.team.isSome then j.core else free 3 % 384
      id := if j.team.isSome then j.issueId else free 4 % 2 ^ 55
      va := va
      asid := j.asid
      lane := free 1 % 256
      slot := match j.wid.bind (Tbl.find s.waves) with | none => free 2 % 32 | some w => w.slot
      kind := kind
      level := if chip.isSome then free 0 % 256 else level
      peer := chip }
    ((s.fqRecords j.part [r]).drawn).updJob id (fun j => { j with wait := .page j.asid va })
  else s.kick id

/-- What a job does at a byte that it cannot reach. -/
def jobStuck (s : State) (id : Nat) (j : Job) (va kind : Nat) (right : Right) : JobGo → State
  | .fault l chip => s.jobFault id j va kind l chip
  | .lease chip page =>
    (s.requestLease (dieOf j.core) j.part j.cls chip page right).updJob id (fun j => { j with wait := .lease chip page right va })
  | .fifo c => (s.toFifo c (.go id)).updJob id (fun j => { j with wait := .fifo })
  | .fail code => s.jobCause id code (some va)
  | _ => s

/-- Asks for a line of another chip for a job (R51). -/
def readForJob (s : State) (id : Nat) (j : Job) (va : Nat) (e : PtcEntry) (pa : Nat) : State :=
  let line := pa / 128 * 128
  let n := s.nextId
  let r := ReadReq.mk n e.chip (s.planeOf e.chip line) (bucketOf e.chip line) e.page e.gen j.part j.cls line 128 none (some id) va
    (s.heldRead e.chip line) false false false s.reft
  let s := { s with nextId := n + 1, fab := { s.fab with reads := s.fab.reads ++ [r] } }
  let s := s.updJob id (fun j => { j with wait := match j.wait with | .peer l => .peer (l ++ [n]) | _ => .peer [n] })
  let s := s.renew e j.cls .read
  if r.held then s else s.sendRead r

/-- Bytes that a job reads at a place within one line. -/
def jobRead (s : State) (j : Job) (n : Nat) : JobGo → List Byte
  | .hbm pa _ => s.bytesAt pa n
  | .scratch c off => s.scratchBytes c off n
  | .host a => s.hostBytes a n
  | .peer e pa => match j.lines.find? (fun x => x.1 == e.chip && x.2.1 == pa / 128) with
    | none => []
    | some x => (x.2.2.drop (pa % 128)).take n
  | _ => []

/-- The bytes of a place, in HBM or in a scratchpad, hold poison (R246). -/
def goPoisoned (s : State) (n : Nat) : JobGo → Bool
  | .hbm pa _ => s.poisoned pa n
  | .scratch c off => s.scratchPoisoned c off n
  | _ => false

/-- An access of a job leaves its translation in the TLBs and its line in the home L2 (R183, R191). -/
def jobTouch (s : State) (j : Job) (space a : Nat) (right : Right) : State :=
  let s := if space != 0 && space != 3 then s
    else if j.team.isSome then s.keepTlb j.core j.part j.cls j.asid a
    else s.walked j.part j.cls j.asid a
  match s.jobGo j space a right with
  | .hbm pa _ => s.l2Home (jobAgent j) pa 0 (right == .write)
  | _ => s

/-- Drops the copies of a line from the L1 of a core (R177). -/
def dropLine (s : State) (c : Nat) (chip : Option Nat) (pa : Nat) : State :=
  s.updCore c (fun k => { k with l1 := k.l1.filter (fun l => !(l.chip == chip && l.pa / 128 == pa / 128)) })

/-- Bytes that a job writes at a place within one line; copies in the L1 of its core go (R177). -/
def jobWrite (s : State) (id : Nat) (j : Job) (va : Nat) (bs : List Byte) : JobGo → State
  | .hbm pa m =>
    let s := s.writeHome (jobAgent j) m pa bs
    if j.team.isSome then s.dropLine j.core none pa else s
  | .scratch c off => s.sendScratch none (some id) c off bs
  | .host a => s.putHost a bs
  | .peer e pa =>
    let s := ((s.sendWrite (jobAgent j) e.chip (some e.page) e.gen pa bs none none (some id) ⟨j.asid, va, 0, j.issueId, 0⟩).patchCopies (jobAgent j) (some e.chip) pa
      bs).renew e j.cls .write
    if j.team.isSome then s.dropLine j.core (some e.chip) pa else s
  | _ => s

/-- A place at which a write has to wait for the window of another chip (R55, R72). -/
def jobFull (s : State) (j : Job) : JobGo → Bool
  | .peer e _ => s.windowFull e.chip false
  | .hbm _ m => m && s.mirrorOn j.part && s.windowFull (fieldOf (s.part j.part).mirror 9 0) false
  | _ => false

/-- A write of a job is not acknowledged, or waits in the FIFO of a relocking core. -/
def jobUnacked (s : State) (id : Nat) : Bool :=
  s.fab.unacked.any (fun u => u.job == some id)
  || s.cores.any (fun e => e.2.inbound.any (fun p => match p with | .store _ _ _ (some k) => k == id | _ => false))

end State

/-! ## Copies (R332 to R334) -/

/-- A piece of a copy: the number of its first byte, the source and the destination address, the bytes. A piece lies in one row and
in one line on both sides. -/
structure Piece where
  src : Nat
  dst : Nat
  n : Nat
  deriving DecidableEq, Repr

/-- The bytes from an address up to the end of its line. -/
def lineLeft (a : Nat) : Nat := 128 - a % 128

/-- The pieces of a copy from byte `x` on, for `n` bytes; `fuel` pieces at most. -/
def piecesFrom (src dst : Area) : Nat → Nat → Nat → List Piece
  | 0, _, _ => []
  | fuel + 1, x, n =>
    if n == 0 then []
    else
      let a := src.byte x
      let b := dst.byte x
      let k := max 1 (min (min n (src.extent - x % src.extent)) (min (lineLeft a) (lineLeft b)))
      ⟨a, b, k⟩ :: piecesFrom src dst fuel (x + k) (n - k)

/-- The source and the destination of a copy card, a remote side standing for the other. -/
def Card.sides (c : List Byte) : Area × Area :=
  match Card.route c with
  | 1 | 3 | 4 => (Card.copyArea c 0, Card.copyArea c 0)
  | 2 => (Card.copyArea c 1, Card.copyArea c 1)
  | _ => (Card.copyArea c 0, Card.copyArea c 1)

/-- The distances from the destination of a card to the copies that are written: one for each core of a CPYM (R333). -/
def Card.shares (c : List Byte) : List Nat := if Card.kind c == 2 then (Card.cores c).map (· * 2 ^ 19) else [0]

namespace State

/-- The queue pair and port of an Ethernet route (R332). -/
def ethKey (c : List Byte) : Nat := bitsOf (Card.param c) 46 46 * 16384 + bitsOf (Card.param c) 45 32

/-- The Ethernet side of a copy card is in order (R334). -/
def ethUp (s : State) (c : List Byte) : Bool :=
  Card.kind c != 1 || Card.route c == 0
    || (!(s.eth.down.contains (bitsOf (Card.param c) 46 46)) && !(((Tbl.find s.eth.qps (ethKey c)).map (fun q => q.err)).getD false))

/-- The traffic class of a class of work (R75). -/
def trafficClass (s : State) (cls : Cls) : Nat := (if cls == .g then s.dev.ethTcG else s.dev.ethTcH).toNat

/-- Notes that the first `n` bytes of a copy job are written. -/
def copyAcked (s : State) (id n : Nat) : State :=
  match Tbl.find s.jobs id with
  | none => s
  | some j =>
    let s := (s.noteChunks j n).updJob id (fun j => { j with acked := n, wait := if copyBytes j.card ≤ n then .no else j.wait })
    if copyBytes j.card ≤ n then s.soonOnce (.copyJobComplete id) else s

/-- Another chip has acknowledged a write of a copy job: with the last of them, what the job has sent is written. -/
def jobWritten (s : State) (id : Nat) : State :=
  match Tbl.find s.jobs id with
  | none => s
  | some j => if s.jobAsleep j then s.toFifo j.core (.written id) else if s.jobUnacked id then s else (s.copyAcked id j.pos).kick id

/-- What keeps a copy from its next bytes: the first piece whose source or destination is not to be reached, with its address, the
KIND of a fault record and the right. -/
def copyStuck (s : State) (j : Job) (ps : List Piece) (reads writes : Bool) : Option (Nat × Nat × Right × JobGo) :=
  let src := (Card.sides j.card).1.space
  let dst := (Card.sides j.card).2.space
  ps.findSome? (fun p =>
    let a := s.jobGo j src p.src .read
    if reads && a.stuck then some (p.src, 3, .read, a)
    else if writes then (Card.shares j.card).findSome? (fun d =>
      let b := s.jobGo j dst (p.dst + d) .write
      if b.stuck then some (p.dst + d, 4, .write, b) else none)
    else none)

/-- The sources on other chips whose lines have not come: the address, the entry, the place. -/
def copyMissing (s : State) (j : Job) (ps : List Piece) : List (Nat × PtcEntry × Nat) :=
  ps.foldl (fun acc p => match s.jobGo j (Card.sides j.card).1.space p.src .read with
    | .peer e pa =>
      if j.lines.any (fun x => x.1 == e.chip && x.2.1 == pa / 128) || acc.any (fun x => x.2.1.chip == e.chip && x.2.2 / 128 == pa / 128) then acc
      else acc ++ [(p.src, e, pa)]
    | _ => acc) []

/-- A source that holds poison (R246). -/
def copyPoisoned (s : State) (j : Job) (ps : List Piece) : Bool :=
  ps.any (fun p => s.goPoisoned p.n (s.jobGo j (Card.sides j.card).1.space p.src .read))

/-- The bytes of the pieces. -/
def copyRead (s : State) (j : Job) (ps : List Piece) : List Byte :=
  ps.flatMap (fun p => s.jobRead j p.n (s.jobGo j (Card.sides j.card).1.space p.src .read))

/-- The reads of the pieces leave their translations and their lines. -/
def copyTouch (s : State) (j : Job) (ps : List Piece) : State :=
  ps.foldl (fun s p => s.jobTouch j (Card.sides j.card).1.space p.src .read) s

/-- Writes bytes to the destinations of the pieces, on every named core (R333). -/
def copyWrite (s : State) (id : Nat) (j : Job) (ps : List Piece) (bs : List Byte) : State :=
  let sp := (Card.sides j.card).2.space
  (ps.foldl (fun (r : State × List Byte) p =>
    ((Card.shares j.card).foldl (fun s d =>
      (s.jobTouch j sp (p.dst + d) .write).jobWrite id j (p.dst + d) (r.2.take p.n) (s.jobGo j sp (p.dst + d) .write)) r.1, r.2.drop p.n)) (s, bs)).1

end State

/-- The packets of a message: the numbers of their first bytes and their lengths, at most 4,096 bytes, none across the end of a row (R74,
R332); `fuel` packets at most. -/
def ethPackets (row : Nat) : Nat → Nat → Nat → List (Nat × Nat)
  | 0, _, _ => []
  | fuel + 1, x, n =>
    if n == 0 then []
    else
      let k := max 1 (min n (min 4096 (row - x % row)))
      (x, k) :: ethPackets row fuel (x + k) (n - k)

namespace State

/-- Sends bytes of a copy to the remote queue pair in packets, the immediate with the last of them (R74, R332). -/
def copySend (s : State) (j : Job) (x : Nat) (bs : List Byte) : State :=
  let c := j.card
  let port := bitsOf (Card.param c) 46 46
  let qp := bitsOf (Card.param c) 45 32
  let tc := s.trafficClass j.cls
  let send := Card.route c == 4
  (ethPackets (if send then copyBytes c else (Card.copyArea c 1).extent) bs.length x bs.length).foldl (fun s p =>
    let data := (bs.drop (p.1 - x)).take p.2
    let last := copyBytes c ≤ p.1 + p.2
    if send then s.emit (.roceSend port qp data last tc)
    else s.emit (.roceWrite port qp (bitsOf (Card.param c) 31 0) ((Card.copyArea c 1).byte p.1) data
      (if Card.route c == 3 && last then some (bitsOf (Card.region c 3).raw 31 0) else none) tc)) s

/-- Priority flow control has stopped the traffic class of a job that uses a port (R75). -/
def ethPaused (s : State) (j : Job) : Bool :=
  Card.kind j.card == 1 && Card.route j.card != 0 && s.eth.paused.contains (bitsOf (Card.param j.card) 46 46, s.trafficClass j.cls)

/-- The bytes that one step of a copy takes: those of a bit of the chunk map; all of them for the one message of a SEND. -/
def copySlice (j : Job) : Nat :=
  let d := copyBytes j.card
  if Card.route j.card == 4 then d - j.pos else min (d - j.pos) (512 * max 1 (chunkGroup d))

/-- A copy from place to place, or the sending side of an Ethernet route. -/
def copyMove (s : State) (id : Nat) (j : Job) : State :=
  let n := copySlice j
  let ps := piecesFrom (Card.sides j.card).1 (Card.sides j.card).2 n j.pos n
  let away := Card.route j.card != 0
  match s.copyStuck j ps true (!away) with
  | some x => s.jobStuck id j x.1 x.2.1 x.2.2.1 x.2.2.2
  | none =>
    if s.copyPoisoned j ps then s.jobPoison id
    else if !away && ps.any (fun p => s.jobFull j (s.jobGo j (Card.sides j.card).2.space p.dst .write)) then s.kick id
    else
      let miss := s.copyMissing j ps
      if miss.any (fun x => j.team.isSome && s.storeUnderWay (dieOf j.core) x.2.1.chip x.2.1.page x.2.2) then s.kick id
      else if !miss.isEmpty then miss.foldl (fun s x => s.readForJob id j x.1 x.2.1 x.2.2) s
      else
        let bs := s.copyRead j ps
        let s := s.copyTouch j ps
        let s := if away then s.copySend j j.pos bs else s.copyWrite id j ps bs
        let s := s.updJob id (fun j => { j with pos := j.pos + n, lines := [], wait := if away && copyBytes j.card ≤ j.pos + n then .roce else .no })
        if away then s.kick id
        else if s.jobUnacked id then s
        else (s.copyAcked id (j.pos + n)).kick id

/-- The fetching side of an RDMA READ: its rows are requested once, and their data comes in packets (R332). -/
def copyFetch (s : State) (id : Nat) (j : Job) : State :=
  let c := j.card
  let s := (List.range (Card.count c)).foldl (fun s k =>
    s.emit (.roceRead (bitsOf (Card.param c) 46 46) (bitsOf (Card.param c) 45 32) (bitsOf (Card.param c) 31 0) ((Card.copyArea c 0).row 0 k)
      (Card.region c 0).extent id (s.trafficClass j.cls))) s
  s.updJob id (fun j => { j with read := copyBytes c, wait := .roce })

/-- Data of an RDMA READ that has come is written at the job's place, in the order in which it came (R76, R333); while the place is not to be
reached the data stays. -/
def copyPlace (s : State) (id : Nat) (j : Job) : State :=
  let n := min j.inData.length (copyBytes j.card - j.pos)
  let ps := piecesFrom (Card.sides j.card).1 (Card.sides j.card).2 n j.pos n
  match s.copyStuck j ps false true with
  | some x => s.jobStuck id j x.1 x.2.1 x.2.2.1 x.2.2.2
  | none =>
    if ps.any (fun p => s.jobFull j (s.jobGo j (Card.sides j.card).2.space p.dst .write)) then s.kick id
    else
      let s := (s.copyWrite id j ps (j.inData.take n)).updJob id (fun j => { j with
        pos := j.pos + n, inData := j.inData.drop n, wait := if copyBytes j.card ≤ j.pos + n then .no else .roce })
      if s.jobUnacked id then s else s.copyAcked id (j.pos + n)

end State

/-- COPY_CHUNK_WRITTEN (R186, R333): the next bytes of a copy job, as many as a bit of its chunk map covers. -/
def execCopyChunkWritten (job : Nat) (s : State) : Host.Outcome State Fault Refusal :=
  match Tbl.find s.jobs job with
  | none => .next s
  | some j =>
    if !s.jobActs j || (Card.kind j.card != 1 && Card.kind j.card != 2) then .next s
    else if !s.ethUp j.card then .next (s.jobCause job 0x01 none)
    else if j.acked < j.pos && Card.route j.card == 0 then .next s
    else if copyBytes j.card ≤ j.pos then .next s
    else if s.jobHeld j then .next s
    else if s.ethPaused j then .next s
    else if Card.route j.card == 2 then .next (if j.read == 0 then s.copyFetch job j else s.copyPlace job j)
    else .next (s.copyMove job j)

/-- COPY_JOB_COMPLETE (R334): every destination byte is written, and the tag becomes set. -/
def execCopyJobComplete (job : Nat) (s : State) : Host.Outcome State Fault Refusal :=
  match Tbl.find s.jobs job with
  | none => .next s
  | some j =>
    if !s.engineRuns j || (Card.kind j.card != 1 && Card.kind j.card != 2) || j.acked < copyBytes j.card then .next s
    else .next (s.jobDone job)

/-! ## Ethernet (R74 to R76, R332, R334) -/

namespace State

/-- A collective over Ethernet that no port other than this one can carry. -/
def collOnly (s : State) (port : Nat) (j : Job) : Bool :=
  Card.kind j.card == 5 && (s.groupEntry j.part (Card.collGroup j.card)).eth && s.eth.down.contains (1 - port)

/-- The jobs that use a port, or one queue pair of it. -/
def ethJobs (s : State) (port : Nat) (qp : Option Nat) : List Nat :=
  (s.jobs.filter (fun e => (Card.kind e.2.card == 1 && Card.route e.2.card != 0 && bitsOf (Card.param e.2.card) 46 46 == port
    && (match qp with | none => true | some q => bitsOf (Card.param e.2.card) 45 32 == q))
    || (qp.isNone && s.collOnly port e.2))).map (fun e => e.1)

end State

/-- The send rate at which a queue pair starts: line rate. -/
def Qp.start : Qp := ⟨16, 0, false, [], 0, []⟩

namespace State

/-- Changes a queue pair. -/
def updQp (s : State) (port qp : Nat) (f : Qp → Qp) : State :=
  { s with eth := { s.eth with qps := Tbl.updD s.eth.qps (port * 16384 + qp) .start f } }

/-- Data or an acknowledgement comes for a job on the core of a team: while the core's hob relocks it waits in its FIFO (R15). -/
def toJob (s : State) (job : Nat) (port : Fin 2) (qp : Fin 16384) (pk : RocePkt) (f : Job → State) : State :=
  match Tbl.find s.jobs job with
  | none => s
  | some j => if j.team.isSome && s.asleep j.core then s.toFifo j.core (.roce port qp pk) else f j

/-- A packet of a SEND message goes into the next receive buffer of the queue pair; with its last packet the message is delivered. Bytes beyond
the buffer are not placed, and a message without a buffer is not acknowledged (LE 76). The acknowledgement has no traffic class and no pause
holds it (LE 82). -/
def roceReceive (s : State) (port qp : Nat) (bs : List Byte) (last : Bool) : State :=
  let q := Tbl.getD s.eth.qps (port * 16384 + qp) .start
  match q.recv with
  | [] => s
  | b :: rest =>
    let s := (s.storeHome (b.1 + q.filled) (bs.take (b.2 - q.filled))).updQp port qp (fun q =>
      if last then { q with recv := rest, filled := 0, delivered := q.delivered ++ [none] } else { q with filled := q.filled + bs.length })
    s.emit (.roceAck port qp bs.length)

/-- The answer to an RDMA READ request, in packets of at most 4,096 bytes (R74); its traffic class is that of G (LE 76), and while that is
stopped the answer waits (R75). -/
def roceAnswer (s : State) (port qp id pa len : Nat) : State :=
  if s.eth.paused.contains (port, s.trafficClass .g) then
    { s with eth := { s.eth with answers := s.eth.answers ++ [(port, qp, id, pa, len)] } }
  else (ethPackets len len 0 len).foldl (fun s p => s.emit (.roceData port qp id (s.bytesAt (pa + p.1) p.2) (s.trafficClass .g))) s

/-- The answers that waited at a port leave. -/
def answersGo (s : State) (port : Nat) : State :=
  let l := s.eth.answers.filter (fun a => a.1 == port)
  l.foldl (fun s a => s.roceAnswer port a.2.1 a.2.2.1 a.2.2.2.1 a.2.2.2.2)
    { s with eth := { s.eth with answers := s.eth.answers.filter (fun a => a.1 != port) } }

/-- What a packet of a queue pair does (R74 to R76, R332). R75 gives the acknowledgement of a WRITE or a SEND no traffic class: the model sends it at
once, whatever class a pause has stopped (LE 82). -/
def rocePk (s : State) (port : Fin 2) (qp : Fin 16384) (pk : RocePkt) : State :=
  match pk with
  | .place pa bs imm =>
    ((s.storeHome pa bs).updQp port.val qp.val (fun q => match imm with
      | none => q
      | some i => { q with delivered := q.delivered ++ [some i] })).emit (.roceAck port.val qp.val bs.length)
  | .readData job bs => s.toJob job port qp pk (fun j =>
      if Card.kind j.card != 1 || Card.route j.card != 2 then s
      else (s.updJob job (fun j => { j with inData := j.inData ++ bs, wait := if j.wait == .roce then .no else j.wait })).kick job)
  | .ack job n => s.toJob job port qp pk (fun j =>
      if Card.kind j.card != 1 || Card.route j.card == 0 || Card.route j.card == 2 then s else s.copyAcked job (min j.pos (max j.acked n)))
  | .readReq id pa len => s.roceAnswer port.val qp.val id pa len
  | .send bs last => s.roceReceive port.val qp.val bs last
  | .pause tc stopped =>
    let s := { s with eth := { s.eth with paused := s.eth.paused.filter (· != (port.val, tc.val)) ++ (if stopped then [(port.val, tc.val)] else []) } }
    if stopped then s else (s.ethJobs port.val none).foldl (fun s j => s.kick j) (s.answersGo port.val)
  | .post pa len => s.updQp port.val qp.val (fun q => { q with recv := q.recv ++ [(pa, len)] })

end State

/-- ROCE_PACKET (R332): nothing comes through a port that is down or a queue pair in error, or to a device that does not run. -/
def execRocePacket (port : Fin 2) (qp : Fin 16384) (pk : RocePkt) (s : State) : Host.Outcome State Fault Refusal :=
  if !s.running || s.eth.down.contains port.val || (Tbl.getD s.eth.qps (port.val * 16384 + qp.val) .start).err then .next s
  else .next (s.rocePk port qp pk)

/-- ETHERNET_PORT_DOWN (R334). -/
def execEthernetPortDown (port : Fin 2) (s : State) : Host.Outcome State Fault Refusal :=
  let s := { s with eth := { s.eth with down := if s.eth.down.contains port.val then s.eth.down else s.eth.down ++ [port.val] } }
  .next ((s.ethJobs port.val none).foldl (fun s j => s.jobCause j 0x01 none) s)

/-- QUEUE_PAIR_ERROR (R334). -/
def execQueuePairError (port : Fin 2) (qp : Fin 16384) (s : State) : Host.Outcome State Fault Refusal :=
  let s := s.updQp port.val qp.val (fun q => { q with err := true })
  .next ((s.ethJobs port.val (some qp.val)).foldl (fun s j => s.jobCause j 0x01 none) s)

/-- CONGESTION_NOTIFICATION_PACKET (R75): the queue pair halves its rate, which recovers from then on. -/
def execCongestionNotificationPacket (port : Fin 2) (qp : Fin 16384) (s : State) : Host.Outcome State Fault Refusal :=
  let s := s.updQp port.val qp.val (fun q => { q with shift := q.shift + 1 })
  .next (if s.due (.rateRecovery port qp) then s else s.after 50000 (.rateRecovery port qp))

/-- One sixteenth of line rate more, up to line rate. -/
def Qp.recover (q : Qp) : Qp :=
  if 16 * 2 ^ q.shift ≤ q.num + 2 ^ q.shift then { q with num := 16, shift := 0 } else { q with num := q.num + 2 ^ q.shift }

/-- RATE_RECOVERY (R75): one sixteenth of line rate every 50 µs. -/
def execRateRecovery (port : Fin 2) (qp : Fin 16384) (s : State) : Host.Outcome State Fault Refusal :=
  let s := s.updQp port.val qp.val Qp.recover
  let q := Tbl.getD s.eth.qps (port.val * 16384 + qp.val) .start
  .next (if q.num < 16 * 2 ^ q.shift then s.after 50000 (.rateRecovery port qp) else s)

/-! ## Answers of scratchpads (R15) -/

namespace State

/-- The answer of a scratchpad comes back to a wave: into the FIFO of its core while that relocks. -/
def answerTo (s : State) (wid lane id : Nat) (bs : List Byte) : State :=
  if s.asleep (s.coreOf wid) then s.toFifo (s.coreOf wid) (.answer wid lane id bs)
  else s.updWave wid (fun w => w.mapPends (fun p =>
    if p.reqs.contains (none, id) then { p with reqs := p.reqs.filter (· != (none, id)), scr := p.scr ++ [(lane, bs)] } else p))

end State

end Sys2Proof.Machine
end

