-- ==== Sys2Proof/Machine/Place.lean ====
section
/-!
DEFINITION. Launch records (R100, R101, R256) and the placement of teams: what a team needs of a core (R115), the order of the
cores (R116), what a G team claims (R117), the start of a team and its waves (R102), eviction and region restart (R117, R120,
R233).
-/

namespace Sys2Proof.Machine

/-! ## Launch records -/

/-- A format slot is valid (R255, R256). -/
def slotValid (f : Nat) : Bool :=
  let elem := bitsOf f 3 0
  let scale := bitsOf f 12 11
  let block := bitsOf f 14 13
  let rnd := bitsOf f 18 16
  bitsOf f 63 24 == 0 && bitsOf f 10 4 == 0 && elem ≤ 8 && rnd ≤ 4 && block ≤ 2 && scale ≤ 1
  && !(elem ≤ 2 && scale == 1) && !(5 ≤ elem && elem ≤ 7 && scale == 0) && !(elem == 8 && (scale != 1 || block != 2))
  && !(3 ≤ elem && elem ≤ 7 && scale == 1 && block == 2)

/-- The fields of a launch record (R100). -/
def LaunchRec.ofBytes (bs : List Byte) : LaunchRec :=
  let team := fieldAt bs 0x14 4
  let scr := fieldAt bs 0x18 4
  let ctl := fieldAt bs 0x1C 4
  { entry := fieldAt bs 0 8
    gx := fieldAt bs 8 4
    gy := fieldAt bs 0xC 4
    gz := fieldAt bs 0x10 4
    tagCount := bitsOf team 25 19
    tagBase := bitsOf team 18 13
    acc := bitsOf team 12 8
    slabs := bitsOf team 7 6
    waves := bitsOf team 5 0
    carve := bitsOf scr 22 20
    bytes := bitsOf scr 19 0
    cscope := bitsOf ctl 8 6
    restartable := bitOf ctl 5
    replay := bitOf ctl 4
    prot := bitOf ctl 3
    opclass := bitsOf ctl 2 1
    cls := if bitOf ctl 0 then .h else .g
    args := BitVec.ofNat 64 (fieldAt bs 0x20 8)
    sched := fieldAt bs 0x28 8
    cword := fieldAt bs 0x30 8
    cvalue := BitVec.ofNat 64 (fieldAt bs 0x38 8)
    fslots := (List.range 8).map (fun i => BitVec.ofNat 64 (fieldAt bs (0x40 + 8 * i) 8))
    schedN := fieldAt bs 0x80 2
    snap := fieldAt bs 0x88 8
    snapPages := fieldAt bs 0x90 4 }

/-- The zero fields of a launch record are zero (R100). -/
def launchZeros (bs : List Byte) : Bool :=
  bitsOf (fieldAt bs 0x14 4) 31 26 == 0 && bitsOf (fieldAt bs 0x18 4) 31 23 == 0 && bitsOf (fieldAt bs 0x1C 4) 31 9 == 0
  && fieldAt bs 0x82 6 == 0 && fieldAt bs 0x94 108 == 0

namespace State

/-- The bytes of SCRATCH_MAX of a partition (R114). -/
def scratchMax (s : State) (p : Nat) : Nat := fieldOf (s.part p).share 6 0 * 4096

/-- The address lies in the host window under an ASID (R82). -/
def inHostWindow (s : State) (p asid va : Nat) : Bool :=
  match s.walk p asid va with
  | .leaf l => l.peer.isNone && paKind l.pa == .host
  | _ => false

/-- A launch record passes the checks of R101 for a partition and an ASID; the class of the queue is checked where there is one
(a child takes CLASS, PROTECTED and REPLAY from its parent, R105). The clauses on RESTARTABLE and SNAP_PAGES are held against a record's own CLASS and
REPLAY, which a child's does not use: a child is not held to them (LE 83). -/
def launchOk (s : State) (bs : List Byte) (p asid : Nat) (qcls : Option Cls) : Bool :=
  let r := LaunchRec.ofBytes bs
  launchZeros bs && r.entry < 2 ^ 52 && r.entry % 4 == 0 && r.sched % 64 == 0 && r.cword % 8 == 0 && r.snap % 65536 == 0
  && r.gx ≤ 2 ^ 24 && r.gy ≤ 2 ^ 16 && r.gz ≤ 2 ^ 16
  && 1 ≤ r.waves && r.waves ≤ 32 && (r.slabs == 1 || r.slabs == 2) && r.waves * r.slabs ≤ 32
  && r.acc ≤ 16 && r.tagBase + r.tagCount ≤ 64
  && r.bytes % 256 == 0 && r.bytes ≤ r.carve * 65536 && r.bytes ≤ s.scratchMax p
  && (r.cword == 0 || (3 ≤ r.cscope && r.cscope ≤ 5 && (r.cscope == 5 || !s.inHostWindow p asid r.cword)))
  && (match qcls with
      | none => true
      | some c => r.cls == c && !(r.restartable && c == .g) && !(r.replay && r.snapPages == 0))
  && r.schedN ≤ 256 && r.fslots.all (fun f => slotValid f.toNat)

/-! ## What a core has free (R115) -/

/-- The waves of a core whose places and slabs count: those of the teams that are on it and have not retired. -/
def coreWaves (s : State) (c : Nat) : List (Nat × Wave) :=
  s.waves.filter (fun e => !e.2.retired && (match Tbl.find s.teams e.2.team with
    | none => false
    | some t => t.core == c && t.loc != .saved))

/-- A wave of a team in its place on the core that a fit is for. -/
def movedWave (f : Fit) (slabs : Nat) (w : Wave) : Wave :=
  let sl := (f.slabs.getD (w.w % 2) ([], [])).1
  let pl := (f.places.getD (w.w % 2) ([], [])).1
  { w with slabs := (sl.drop (w.w / 2 * slabs)).take slabs, slot := 16 * (w.w % 2) + pl.getD (w.w / 2) 0, hown := [], away := [] }

/-- The teams that are moving to a core, which takes what they will hold there (R131). -/
def comingTo (s : State) (c : Nat) : List (Nat × Team) :=
  (s.core c).incoming.filterMap (fun e => (Tbl.find s.teams e.1).map (fun k => (e.1, { k with start := e.2.start, tiles := e.2.tiles.1 })))

/-- Their waves, in their places there. -/
def comingWaves (s : State) (c : Nat) : List (Nat × Wave) :=
  (s.core c).incoming.flatMap (fun e => match (Tbl.find s.teams e.1).bind s.gridOf with
    | none => []
    | some g => ((s.wavesOf e.1).filter (fun x => !x.2.retired)).map (fun x => (x.1, movedWave e.2 g.lrec.slabs x.2)))

/-- The teams that hold scratchpad, tags and tiles of a core: those that are on it, and those that are moving to it. -/
def holdersOn (s : State) (c : Nat) : List (Nat × Team) := s.teamsOn c ++ s.comingTo c

/-- The waves that hold slabs and places of a core. -/
def holdingWaves (s : State) (c : Nat) : List (Nat × Wave) := s.coreWaves c ++ s.comingWaves c

/-- The ranges of the scratchpad that are taken, by allocations and by forwarding entries. The range of a team
that has yielded is free like its slabs, tiles and places, which R124 alone names (LE 82). -/
def takenRanges (s : State) (c : Nat) : List (Nat × Nat) :=
  (s.holdersOn c).map (fun e => (e.2.start, e.2.start + (match Tbl.find s.grids e.2.grid with | none => 0 | some g => g.lrec.bytes)))
  ++ (s.core c).forwards.map (fun f => (f.lo, f.hi))

/-- The lowest offset, a multiple of 256 from `at_` on, at which so many bytes are free below a limit; `fuel` offsets are tried:
after each range that is in the way (LE 19). -/
def firstFit (taken : List (Nat × Nat)) (bytes limit : Nat) : Nat → Nat → Option Nat
  | 0, _ => none
  | n + 1, at_ =>
    if limit < at_ + bytes then none
    else match taken.find? (fun r => r.1 < at_ + bytes && at_ < r.2) with
      | none => some at_
      | some r => firstFit taken bytes limit n ((r.2 + 255) / 256 * 256)

/-- A tag lies in the window of a team of the core (R115). -/
def tagTaken (s : State) (c tag : Nat) : Bool :=
  (s.holdersOn c).any (fun e => match Tbl.find s.grids e.2.grid with
    | none => false
    | some g => g.lrec.tagBase ≤ tag && tag < g.lrec.tagBase + g.lrec.tagCount)

/-- The slabs of a side that waves of a class hold, with the wave. A claimed slab of an evicted wave is held by the claimant. -/
def slabsHeld (s : State) (c side : Nat) (cls : Cls) : List (Nat × Nat) :=
  ((s.holdingWaves c).filter (fun e => e.2.side == side && s.clsOf e.1 == cls)).flatMap (fun e => e.2.slabs.map (fun k => (k, e.1)))

/-- The places of a side that waves of a class hold, with the wave. -/
def placesHeld (s : State) (c side : Nat) (cls : Cls) : List (Nat × Nat) :=
  ((s.holdingWaves c).filter (fun e => e.2.side == side && s.clsOf e.1 == cls)).map (fun e => (e.2.slot % 16, e.1))

/-- The physical tiles that teams of a class hold, with the team. -/
def tilesHeld (s : State) (c : Nat) (cls : Cls) : List (Nat × Nat) :=
  ((s.holdersOn c).filter (fun e => s.teamCls e.1 == cls)).flatMap (fun e => e.2.tiles.map (fun k => (k, e.1)))

end State

/-- The other class. -/
def otherCls : Cls → Cls
  | .g => .h
  | .h => .g

/-- Takes `n` of `total` numbered things: free ones first, lowest first; then, where claiming is allowed, things of the other class, in their
order from one on that the device chooses (R117, LE 8); for tiles it is the lowest-numbered (R345). -/
def pickFrom (total n pick : Nat) (mine theirs : List (Nat × Nat)) (claim : Bool) : Option Pick :=
  let free := (List.range total).filter (fun i => !(mine.any (fun e => e.1 == i)) && !(theirs.any (fun e => e.1 == i)))
  if n ≤ free.length then some (free.take n, [])
  else if claim then
    let open_ := theirs.filter (fun e => !(mine.any (fun m => m.1 == e.1)))
    let turn := if open_.isEmpty then 0 else pick % open_.length
    let got := (open_.drop turn ++ open_.take turn).take (n - free.length)
    if free.length + got.length < n then none else some (free ++ got.map (fun e => e.1), got)
  else none

/-- The slabs that a fit claims (R116). -/
def Fit.claimedSlabs (f : Fit) : Nat := (f.slabs.map (fun p => p.2.length)).sum

/-- A fit claims nothing. -/
def Fit.free (f : Fit) : Bool := f.tiles.2.isEmpty && f.slabs.all (fun p => p.2.isEmpty) && f.places.all (fun p => p.2.isEmpty)

namespace State

/-- How a team of a launch record fits a core, if it does (R115, R119). `claim` allows a G team to take what H teams hold. -/
def fit (s : State) (c p : Nat) (r : LaunchRec) (cls : Cls) (claim : Bool) : Option Fit :=
  let share := (s.part p).share
  let gScratch := fieldOf share 14 8 * 4096
  let gTags := fieldOf share 22 16
  let limit := max (s.core c).carve r.carve * 65536
  let taken := s.takenRanges c ++ (if cls == .h then [(0, gScratch)] else [])
  let tags := (List.range r.tagCount).map (r.tagBase + ·)
  let tagsOk := tags.all (fun t => !s.tagTaken c t && (cls == .g || gTags ≤ t))
  let nOf := fun (side : Nat) => (r.waves + 1 - side) / 2
  let claim := claim && cls == .g
  let pick := Config.claimPick s.fresh
  let evictedOn := fun (side : Nat) => (s.coreWaves c).any (fun e => e.2.side == side && e.2.evicted.isSome)
  let held := fun (side : Nat) => nOf side == 0 || !evictedOn side
  if (s.core c).fenced || (s.hob (hobOf c)).fenced || !tagsOk || 64 ≤ (s.holdersOn c).length then none
  else if cls == .h && !(held 0 && held 1) then none
  else
    let start := if r.bytes == 0 then some 0 else firstFit taken r.bytes limit (taken.length + 1) 0
    let tl := pickFrom 16 r.acc 0 (s.tilesHeld c cls) (sortBy (fun e => e.1) (s.tilesHeld c (otherCls cls))) claim
    let sl := fun side => pickFrom 16 (nOf side * r.slabs) pick (s.slabsHeld c side cls) (s.slabsHeld c side (otherCls cls)) claim
    let pl := fun side => pickFrom 16 (nOf side) pick (s.placesHeld c side cls) (s.placesHeld c side (otherCls cls)) claim
    match start, tl, sl 0, sl 1, pl 0, pl 1 with
    | some a, some t, some s0, some s1, some p0, some p1 => some ⟨a, t, [s0, s1], [p0, p1]⟩
    | _, _, _, _, _, _ => none

/-- The order of R116 as a number: the least is the core that the placer chooses. A core has places for 32 waves, so that 1,023 bounds none. -/
def placeKey (s : State) (c : Nat) (r : LaunchRec) (cls : Cls) (f : Fit) : Nat :=
  let k1 := if f.free then 0 else 1 + f.claimedSlabs
  let pc := (s.pool (s.hob (hobOf c)).pool).cls
  let k2 := if pc == r.opclass then 0 else if r.opclass < pc then 1 else 2
  let k3 := min 1023 ((s.coreWaves c).filter (fun e => s.clsOf e.1 == cls)).length
  ((k1 * 4 + k2) * 2 ^ 10 + k3) * 2 ^ 10 + c

/-- The core of a partition that is chosen for a team, and how it fits (R116). -/
def chooseCore (s : State) (p : Nat) (r : LaunchRec) (cls : Cls) : Option (Nat × Fit) :=
  let fits := (s.coresOf p).filterMap (fun c => (s.fit c p r cls true).map (fun f => (c, f)))
  leastBy (fun e => s.placeKey e.1 r cls e.2) fits

/-! ## Eviction (R117, R120, R233) -/

/-- The gate calls of a wave that are deeper than a depth end, each as at GRET (R238). -/
def endCalls (s : State) (wid depth : Nat) : State :=
  match Tbl.find s.waves wid with
  | none => s
  | some w => (List.range (w.gates.length - depth)).foldl (fun s _ => ((s.refillAll wid).gateBack wid).updWave wid Wave.popGate) s

/-- A wave stands at the RGNE of a region that restarts, with the threads and guards that were there (R233). -/
def atRegion (r : Region) (w : Wave) : Wave :=
  { w with
    region := none
    park := .no
    pend := .none
    pends := []
    ready := (0, 0)
    threads := (List.range w.threads.length).map (fun i =>
      let t := w.threads.getD i ⟨0, none, true, 0, none⟩
      if r.threads.getD i false then { t with pc := r.pc, guard := r.guards.getD i none, exited := false } else t) }

/-- The restart of a region whose wave is evicted with a job outstanding (R233). Where the wave is in its handler, or in gate calls made from that,
the rules do not say what becomes of either; RGNE is to open the region anew, so that the calls and the handler end first (LE 82). -/
def restartRegion (s : State) (wid : Nat) : State :=
  match Tbl.find s.waves wid with
  | none => s
  | some w =>
    match w.region with
    | none => s
    | some r =>
      let js := s.jobs.filter (fun e => e.2.wid == some wid && !e.2.sched)
      if js.isEmpty then s
      else
        let s := (js.foldl (fun s e => s.cancelJob e.1) s).endCalls wid r.depth
        s.updWave wid (fun x => atRegion r (if w.inh then x.endHandler else x))

/-- Evicts a wave (R117): it stops, its engine jobs restart its region (R120), an access that has faulted is abandoned and executed again on
re-admission (R135). -/
def evict (s : State) (wid : Nat) : State :=
  match Tbl.find s.waves wid with
  | none => s
  | some w =>
    if w.evicted.isSome || w.retired then s
    else
      let s := { s with nextId := s.nextId + 1 }.restartRegion wid
      let clk := s.clkOf wid
      s.updWave wid (fun w => { (w.pauseClock clk).mapPends (fun p =>
          { p with pages := [], leases := [], hold := if p.pages.isEmpty && p.leases.isEmpty then p.hold else some .retry }) with
        evicted := some s.nextId
        lent := false
        parkClk := none })

/-- Evicts every non-exited wave of a team whose tile is claimed; its tiles' contents go to the eviction area (R117, R118). The matrix jobs of
its waves that have exited are cancelled like the others (R346). -/
def evictTeam (s : State) (t : Nat) : State :=
  match Tbl.find s.teams t with
  | none => s
  | some k =>
    let tv := k.tileSave.getD (s.tilesOut k.core k.tiles)
    let s := (s.wavesOf t).foldl (fun s e => s.evict e.1) (s.updTeam t (fun k => { k with tileSave := some tv }))
    let js := (s.jobsOf t).filter (fun e => (fieldAt e.2.card 0 1 == 3 || fieldAt e.2.card 0 1 == 4) && (match e.2.wid.bind (Tbl.find s.waves) with
      | none => true
      | some w => w.retired))
    js.foldl (fun s e => s.cancelJob e.1) s

/-! ## The start of a team (R102, R146, R345) -/

end State

/-- A thread at the start of a launch (R102). -/
def Thread.start (entry : Nat) : Thread := ⟨entry, none, false, 0, none⟩

/-- A wave at the start of a launch (R102, R213, R221, R258); registers that R102 does not name are as LE 4 says. -/
def Wave.start (g : Grid) (team w slot : Nat) (slabs hown : List Nat) : Wave where
  team := team
  w := w
  slot := slot
  slabs := slabs
  hown := hown
  away := []
  s := Tbl.putS 0 [] 0 g.lrec.args
  b := []
  v := []
  p := []
  threads := List.replicate 32 (.start g.lrec.entry)
  cause := 0
  epc := 0
  faddr := 0
  rngkey := 0
  fmode := 0
  tb15 := 0
  epc0 := 0
  domain := g.domain
  asid := g.asid
  seen := g.stamp
  rstamp := (0, 0)
  region := none
  gates := []
  budget := none
  abortAt := none
  park := .no
  frozen := false
  halted := false
  evicted := none
  lent := false
  parkClk := none
  async := []
  checks := []
  deferred := []
  pend := .none
  arrived := none
  barPc := none
  cbarAt := []
  collwAt := none
  tcollw := none
  issueId := 0
  ready := (0, 0)
  refill := []
  pends := []
  fstamp := none

namespace State

/-- The lowest free team slot of a core (R155). -/
def freeSlot (s : State) (c : Nat) : Nat :=
  ((List.range 64).find? (fun i => !((s.teamsOn c).any (fun e => e.2.slot == i)))).getD 0

/-- Raises a core's carve-out; lines in the ways given up leave the L1 (R115). -/
def raiseCarve (s : State) (c carve : Nat) : State :=
  if carve ≤ (s.core c).carve then s
  else s.updCore c (fun k => { k with carve := carve, l1 := k.l1.filter (fun l =>
    match (k.l1.filter (fun x => x.pa / 128 % 512 == l.pa / 128 % 512)).idxOf? l with
    | none => true
    | some i => i < 8 - carve) })

/-- The unpinned lines of a core's instruction cache go when it receives a team of a grid that has no other team there (R190). -/
def freshI (s : State) (c t g : Nat) : State :=
  if (s.teamsOn c).any (fun e => e.1 != t && e.2.grid == g) then s
  else s.updCore c (fun k => { k with icache := k.icache.filter (fun l => !l.pins.isEmpty) })

/-- The first action of a team is an acquire (R91, R373): the L1 of its core is invalidated, and its die's copies of other lines go. -/
def startAcquire (s : State) (c p : Nat) : State :=
  ((s.dropL1 c).noKeep (fun x _ _ => x == c || dieOf x == dieOf c)).dropCopies (fun e => e.1 == dieOf c && e.2.part == p)

/-- The waves of a team at its start: wave w on side w mod 2, with slabs and place from the fit (R115, R147). -/
def startWaves (g : Grid) (t : Nat) (f : Fit) : List (Nat × Wave) :=
  (List.range g.lrec.waves).map (fun w =>
    let sl := f.slabs.getD (w % 2) ([], [])
    let pl := f.places.getD (w % 2) ([], [])
    let mine := (sl.1.drop (w / 2 * g.lrec.slabs)).take g.lrec.slabs
    let hown := (List.range mine.length).filter (fun i => sl.2.any (fun e => some e.1 == mine[i]?))
    (t * 32 + w, Wave.start g t w (16 * (w % 2) + pl.1.getD (w / 2) 0) mine hown))

/-- The claims on a side of a core are over within 64 core cycles from now (R117). -/
def armClaim (s : State) (c side : Nat) : State :=
  let i := Instr.claimComplete c (Fin.ofNat 2 side)
  ((s.withdraw i).after (Config.delay s.fresh % (s.ticksFor (hobOf c) 64 + 1)) i).drawn

/-- A claim of a team on a side of a core begins: it is over within 64 core cycles; with one under way it is one claim (R117, R135). -/
def claimSide (s : State) (c side t : Nat) : State :=
  { s with claims := s.claims ++ [Claim.mk c side t s.reft [] [] [] true] }.armClaim c side

/-- A claim of a team on a side of a core waits for the end of a move from or to the core (R133) or of a relock of its hob (R135), with the waves and
teams that it is to evict and the tiles that it is to take. -/
def claimLater (s : State) (c side t : Nat) (ws ts tiles : List Nat) : State :=
  { s with claims := s.claims ++ [Claim.mk c side t s.reft ws ts tiles false] }

/-- Claimed tiles are H-owned: they read as zero until their new team writes them, which waits for the copy of what they hold (R118, R345). -/
def takeTiles (s : State) (c : Nat) (tiles : List Nat) : State :=
  s.updCore c (fun k => { k with tiles := k.tiles.filter (fun e => !tiles.contains (e.1 / 1024)), tileH := k.tileH ++ tiles })

/-- Evicts waves, and teams by their tiles, from a core: those that are still there (R117). -/
def evictAll (s : State) (c : Nat) (ws ts : List Nat) : State :=
  let s := ws.foldl (fun s w => if (Tbl.find s.waves w).any (fun x => (s.placeOf x).1 == c) then s.evict w else s) s
  ts.foldl (fun s t => if (Tbl.find s.teams t).any (fun x => x.core == c && x.loc == .resident) then s.evictTeam t else s) s

/-- A wave that is parked until a tick or in WAITV is woken again where its earlier wake-up was lost. -/
def rewake (s : State) (wid : Nat) : State :=
  match Tbl.find s.waves wid with
  | none => s
  | some w =>
    let c := s.coreOf wid
    match w.park with
    | .sleep t => s.atTick (max s.reft t) (.sleepWake c w.slot)
    | .waitv _ => (s.after (Config.delay s.fresh % 10001) (.waitvWake c w.slot)).drawn
    | _ => s

/-- A wave goes on after it was saved, evicted or moved: the clocks of its gate calls run. -/
def waveBack (s : State) (wid : Nat) : State :=
  let clk := s.clkOf wid
  let s := match Tbl.find s.waves wid with
    | none => s
    | some w => s.updCore (s.coreOf wid) (fun c => c.takenBy w)
  ((s.updWave wid (fun w => w.resumeClock clk)).armGate wid).rewake wid

/-- The slabs of a wave that hold another wave's contents (R118, R121). -/
def heldFor (s : State) (c wid : Nat) (w : Wave) : List Nat :=
  (List.range w.slabs.length).filter (fun i => (s.occupant c w.side (w.slabs.getD i 0)).any (fun e => e.1 != wid))

/-- The tiles of a team are live again with what they held; those that hold another team's contents are marked (R118, R121). -/
def tilesBack (s : State) (t : Nat) : State :=
  match Tbl.find s.teams t with
  | none => s
  | some k => match k.tileSave with
    | none => s
    | some v =>
      let s := (s.tilesIn k.core k.tiles v).updTeam t (fun k => { k with tileSave := none })
      let held := k.tiles.filter (fun x => (s.tileOccupant k.core x).isSome)
      s.updCore k.core (fun c => { c with tileH := c.tileH.filter (fun x => !k.tiles.contains x) ++ held })

/-- A G wave takes back what it lent, as in a claim (R117, R121): the H waves that hold it are evicted, and the teams that hold its team's tiles; what H has
written there stays until the first access of G. -/
def reclaim (s : State) (core wid : Nat) (w : Wave) : State :=
  let hs := ((s.coreWaves core).filter (fun x => x.2.side == w.side && x.2.evicted.isNone && s.clsOf x.1 == .h
    && (w.slabs ++ [16 + w.slot % 16]).any (x.2.slabs ++ [16 + x.2.slot % 16]).contains)).map (fun x => x.1)
  let away := (Tbl.find s.teams w.team).bind (fun k => if k.tileSave.isSome then some k.tiles else none)
  let ts := match away with
    | none => []
    | some tiles => ((s.teamsOn core).filter (fun x => x.1 != w.team && x.2.tileSave.isNone && x.2.tiles.any tiles.contains)).map (fun x => x.1)
  let s := s.evictAll core hs ts
  let held := s.heldFor core wid w
  let s := s.updWave wid (fun w => { w with lent := false, hown := held })
  (if away.isSome then (s.tilesBack w.team).kickTeam w.team else s).waveBack wid

/-- The waves of a side of a core whose things are lent. -/
def lentOn (s : State) (c side : Nat) : List (Nat × Wave) :=
  (s.coreWaves c).filter (fun e => e.2.lent && e.2.side == side)

/-- Records the claims of a fit on the sides it uses and evicts those it claims from (R117); they are over at CLAIM_COMPLETE. On those sides a
G team's dispatch claims back what G waves have lent (R135). -/
def claim (s : State) (c t : Nat) (f : Fit) (cls : Cls) : State :=
  let sides := (List.range 2).filter (fun i => !((f.slabs.getD i ([], [])).1.isEmpty))
  let lent := if cls == .g then sides.flatMap (s.lentOn c) else []
  if f.free && lent.isEmpty then s
  else
    let ws := dedup ((f.slabs ++ f.places).flatMap (fun p => p.2.map (fun e => e.2)))
    let ts := dedup (f.tiles.2.map (fun e => e.2))
    let later := s.moveAt c || s.asleep c
    let s := if later then s else lent.foldl (fun s e => s.reclaim c e.1 e.2) (s.evictAll c ws ts)
    let tiles := f.tiles.2.map (fun e => e.1)
    let s := if later then s else s.takeTiles c tiles
    let s := s.updTeam t (fun k => { k with ready := false })
    sides.foldl (fun s side => if later then s.claimLater c side t ws ts tiles else s.claimSide c side t) s

/-- The claims that waited for a move or a relock begin: their bounds count from now (R133, R135). -/
def startClaims (s : State) (c : Nat) : State :=
  let mine : List Claim := s.claims.filter (fun x => x.core == c && !x.begun)
  let s : State := { s with claims := s.claims.map (fun (x : Claim) => if x.core == c then { x with waves := [], teams := [], tiles := [], begun := true } else x) }
  let s := s.evictAll c (dedup (mine.flatMap (fun x => x.waves))) (dedup (mine.flatMap (fun x => x.teams)))
  let s := mine.foldl (fun s x => if s.teamCls x.team == .g then (s.lentOn c x.side).foldl (fun s e => s.reclaim c e.1 e.2) s else s) s
  let s := s.takeTiles c (dedup (mine.flatMap (fun x => x.tiles)))
  (dedup (mine.map (fun x => x.side))).foldl (fun s side => s.armClaim c side) s

/-- What the dispatch of a team does at its core (R91, R102, R115, R185, R190): the carve-out rises, the instruction cache and the L1 are as a new
team finds them, its scratchpad range reads as zero. -/
def startCore (s : State) (t : Nat) : State :=
  match Tbl.find s.teams t with
  | none => s
  | some k => match Tbl.find s.grids k.grid with
    | none => s
    | some g =>
      let s := ((s.freshI k.core t k.grid).raiseCarve k.core g.lrec.carve).startAcquire k.core g.part
      s.updCore k.core (fun x => (s.wavesOf t).foldl (fun x e => x.takenBy e.2) ((x.clearScratch k.start (k.start + g.lrec.bytes)).tagsTaken g.lrec))

/-- Starts a team of a grid on a core (R102, R115, R117, R155, R185, R190, R345); while the core's hob relocks, its dispatch waits in the core's FIFO
(R15). -/
def startTeam (s : State) (gid index c : Nat) (f : Fit) : State :=
  match Tbl.find s.grids gid with
  | none => s
  | some g =>
    let t := s.nextId
    let team : Team := {
      grid := gid
      index := index
      core := c
      slot := s.freeSlot c
      start := f.start
      hwm := 0
      tiles := sortBy (fun x => x) f.tiles.1
      loc := .resident
      ready := true
      since := s.reft
      clk0 := (s.hob (hobOf c)).clk
      runTime := 0
      stage := 0
      schedPos := 0
      stageBy := [(0, 0)]
      phase := 0
      children := []
      perf := none
      armed := false
      tags := []
      chunks := []
      yieldBy := none
      tileSave := none
      tilesAway := false
      gone := []
      inShadow := false
      pcSave := []
      joinStamp := (0, 0) }
    let s := { s with nextId := t + 1, teams := Tbl.put s.teams t team, waves := (startWaves g t f).foldl (fun (m : Tbl Wave) (e : Nat × Wave) => Tbl.put m e.1 e.2) s.waves }
    let s := s.comes c (.start t) (fun s => s.startCore t)
    let s := s.claim c t f g.cls
    let pl := (s.hob (hobOf c)).pool
    let s := if (s.pool pl).reqs.any (fun r => r.1 == ReqOwner.grid gid) then s else s.fileReq pl (.grid gid) g.lrec.opclass
    let s := if g.sched.isEmpty then s else s.atTick s.reft (.scheduleEntryIssue t)
    s.boundary c

end State

end Sys2Proof.Machine
end

