-- ==== Sys2Proof/Machine/Boot.lean ====
section
/-!
DEFINITION. A small loaded machine: one partition of cluster 0, one address space of one page, one launch with one team of one wave
on core 0. It stands for the loading of a program from outside (LE 6).
-/

namespace Sys2Proof.Machine

/-- The launch record of the small machine: one team of one wave with two slabs, in the G class, and all copy tags and tiles. -/
def bootRec : LaunchRec where
  entry := 0
  gx := 1
  gy := 1
  gz := 1
  tagCount := 64
  tagBase := 0
  acc := 16
  slabs := 2
  waves := 1
  carve := 1
  bytes := 65536
  cscope := 4
  restartable := false
  replay := false
  prot := false
  opclass := 2
  cls := .g
  args := 0
  sched := 0
  cword := 0
  cvalue := 0
  fslots := List.replicate 8 0
  schedN := 0
  snap := 0
  snapPages := 0

/-- Its grid, running in domain 0 under ASID 0. -/
def bootGrid : Grid where
  hq := 0
  slot := 0
  parent := none
  root := 1
  depth := 0
  lrec := bootRec
  vf := 0
  part := 0
  domain := 0
  asid := 0
  sched := []
  next := 1
  returned := []
  retired := 0
  times := []
  children := 0
  snaps := []
  unreplayable := false
  killed := false
  event := (0, 0, 0, 0, 0)
  childFail := false
  fence := none
  stamp := (0, 0)
  did := (0, 0)

/-- Its team, on core 0. -/
def bootTeam (reft clk : Nat) : Team where
  grid := 1
  index := 0
  core := 0
  slot := 0
  start := 0
  hwm := 0
  tiles := List.range 16
  loc := .resident
  ready := true
  since := reft
  clk0 := clk
  runTime := 0
  stage := 0
  schedPos := 0
  stageBy := [(0, 0)]
  phase := 0
  children := []
  perf := none
  armed := false
  tags := []
  chunks := []
  yieldBy := none
  tileSave := none
  gone := []
  tilesAway := false
  inShadow := false
  pcSave := []
  joinStamp := (0, 0)

/-- A partition of the active layout whose address spaces have their root array at 0x8000 and its domains their table at
0x4000. -/
def bootPart : Part := { Part.reset with present := true, stopped := false, asidTable := 0x8000, domTable := 0x4000, key := some 0 }

/-- The bytes of the small machine: the root entry of ASID 0, the table entries that map page 0 to physical address 0x3_0000 with
every right, and the instruction there. -/
def bootBytes (code : List Byte) : List (Nat × List Byte) :=
  [(0x8000, natBytes 8 0x20001), (0x20000, natBytes 8 0x21001), (0x21000, natBytes 8 0x22001), (0x22000, natBytes 8 0x23001),
   (0x23000, natBytes 8 0x24001), (0x24000, natBytes 8 0x3000F), (0x30000, code)]

/-- A state as the small machine, with the cursor on the pipe that the instruction takes. What the fetch needs and nothing else is
set: the device runs, cluster 0 is the partition's, core 0 and its hob issue, no other work is due. -/
def bootState (s : State) (uniform : Bool) (code : List Byte) : State :=
  let s := (bootBytes code).foldl (fun s e => s.putBytes e.1 e.2) s
  let s := s.updHob 0 (fun h => { h with relockEnd := none, fenced := false })
  let s := s.updCore 0 (fun k => { k with fenced := false, tlb := [], icache := [], side0 := .reset })
  { s with
    pkg := { s.pkg with power := .on, coresHeld := false, halted := false }
    clusterOwner := Tbl.put s.clusterOwner 0 0
    parts := Tbl.put s.parts 0 bootPart
    grids := [(1, bootGrid)]
    teams := [(1, bootTeam s.reft (s.hob 0).clk)]
    waves := [(32, Wave.start bootGrid 1 0 0 [0, 1] [])]
    claims := []
    ctlb := Tbl.del s.ctlb 0
    jobs := []
    agenda := []
    nextId := max s.nextId 2
    cursor := ⟨0, 0, uniform⟩ }

end Sys2Proof.Machine
end

