-- ==== Sys2Proof/Machine/Matrix.lean ====
section
/-!
DEFINITION. Matrix steps (R252, R253, R265, R266, R342 to R344), tiles (R345, R346), operand descriptors (R349), MMA (R348), tile moves
(R359), injection (R358), the checksum unit (R356, R357), MML and MMCK step by step (R350 to R355) and MWAIT (R354).
-/

namespace Sys2Proof

/-- The format of an MLDA type (R359). -/
def TileType.fmt : TileType → Machine.FFmt
  | .f32 => .f32
  | .bf16 => .bf16
  | .f16 => .f16

end Sys2Proof

namespace Sys2Proof.Machine

/-! ## Steps (R265, R266) -/

/-- A row as a step reads it: the elements and the scale bytes, as numbers (R344). -/
structure OpRow where
  elems : Nat
  scales : Nat
  deriving DecidableEq, Repr

/-- Element `k` of a row under a slot (R250, R253); `cb` gives the entries of the slot's codebook table. -/
def rowElem (f : Nat) (cb : Nat → Nat) (x k : Nat) : FVal :=
  if Slotf.elem f == 8 then
    let idx := x / 2 ^ (16 * (k / 8)) % 2 ^ 16
    let w := cbWeight (cb (idx / 256)) idx (k % 8)
    .fin (w < 0) w.natAbs (-1)
  else
    let g := FFmt.ofCode (Slotf.elem f)
    g.decode (x / 2 ^ (g.bits * k) % 2 ^ g.bits)

/-- The exponent of the scale of element `k` of a row; none for a scale that is NaN (R252). -/
def rowScale (f x k : Nat) : Option Int :=
  if Slotf.scaled f then
    let e := x / 2 ^ (8 * (k / Slotf.block f)) % 256
    if e == 0xFF then none else some ((e : Int) - 127)
  else some 0

/-- A value scaled by a power of two. -/
def FVal.scaled (v : FVal) (k : Int) : FVal :=
  match v with
  | .fin n m e => .fin n m (e + k)
  | v => v

/-- The exact sum of values (R266): a NaN among them, or infinities of both signs, give a NaN; an exact zero is +0. -/
def exactSum (l : List FVal) : FVal :=
  if l.any FVal.isNan || (l.contains (.inf true) && l.contains (.inf false)) then .nan false
  else if l.contains (.inf true) then .inf true
  else if l.contains (.inf false) then .inf false
  else
    let u := l.foldl (fun u v => match v with | .fin _ _ e => min u e | _ => u) (0 : Int)
    let x := l.foldl (fun x v => match v with | .fin n m e => x + unitsOf n m e u | _ => x) (0 : Int)
    .fin (x < 0) x.natAbs u

/-- What group `g` of 16 adds to an accumulator element (R265, R266). -/
def groupSum (fa fb : Nat) (ca cb : Nat → Nat) (a b : OpRow) (g : Nat) : FVal :=
  match rowScale fa a.scales (16 * g), rowScale fb b.scales (16 * g) with
  | some x, some y =>
    (exactSum ((List.range 16).map (fun i => (rowElem fa ca a.elems (16 * g + i)).mul (rowElem fb cb b.elems (16 * g + i))))).scaled (x + y)
  | _, _ => .nan false

/-- mm_step for one accumulator element: one rounding for each group, in ascending K (R265). -/
def stepElem (fa fb : Nat) (ca cb : Nat → Nat) (k : Nat) (a b : OpRow) (c : Nat) : Nat :=
  (List.range (k / 16)).foldl (fun c g => (FFmt.f32.add .rne (FFmt.f32.decode c) (groupSum fa fb ca cb a b g)).1) c

/-! ## Tiles (R345, R358) -/

/-- Element (i, j) of a physical tile. -/
def Core.tileAt (k : Core) (t i j : Nat) : Word := Tbl.getD k.tiles (t * 1024 + i * 32 + j) 0

/-- Writes elements of a physical tile: row, column, value. -/
def Core.putTile (k : Core) (t : Nat) (l : List (Nat × Nat × Word)) : Core :=
  { k with tiles := l.foldl (fun (m : Tbl Word) e => Tbl.putS 0 m (t * 1024 + e.1 * 32 + e.2.1) e.2.2) k.tiles }

/-- A write of elements by the array: an armed injection of one of them inverts a bit and is disarmed (R358). -/
def Core.arrayWrite (k : Core) (t : Nat) (l : List (Nat × Nat × Word)) : Core :=
  let x := k.inject
  let hit := fun (e : Nat × Nat × Word) => fieldOf x 63 63 == 1 && fieldOf x 19 16 == t && fieldOf x 15 11 == e.1 && fieldOf x 10 6 == e.2.1
  let k' := k.putTile t (l.map (fun e => if hit e then (e.1, e.2.1, e.2.2 ^^^ BitVec.ofNat 32 (2 ^ fieldOf x 4 0)) else e))
  if l.any hit then { k' with inject := setField x 63 63 0 } else k'

/-- The rows and columns of a shape, with an element of each. -/
def tileGrid (n : Nat) (f : Nat → Nat → Word) : List (Nat × Nat × Word) :=
  (List.range n).flatMap (fun i => (List.range n).map (fun j => (i, j, f i j)))

namespace State

/-- The physical tile of a team's name (R345). -/
def tileOf (s : State) (t name : Nat) : Option Nat := (Tbl.find s.teams t).bind (fun k => k.tiles[name]?)

/-- The entries of the codebook table of a slot, for a partition. -/
def codebook (s : State) (p f : Nat) : Nat → Nat := s.cbEntry p (slotTable f)

/-- The address at which the codebook table of a slot is poisoned, if the slot has one: a step reads the whole table (R246, LE 30). -/
def tablePoison (s : State) (p f : Nat) : Option Nat := if Slotf.elem f == 8 then s.cbPoison p (slotTable f) (List.range 256) else none

/-- A step of an agent reads the codebook tables of its slots (R183, R254). -/
def tablesTouch (s : State) (ag : Agent) (fa fb : Nat) : State :=
  [fa, fb].foldl (fun s f => if Slotf.elem f == 8 then s.cbTouch ag (slotTable f) (List.range 256) else s) s

/-- Applies one step to a physical tile: the new elements (R265). -/
def stepTile (s : State) (c p t n k fa fb : Nat) (a b : List OpRow) : List (Nat × Nat × Word) :=
  tileGrid n (fun i j => BitVec.ofNat 32 (stepElem fa fb (s.codebook p fa) (s.codebook p fb) k (a.getD i ⟨0, 0⟩) (b.getD j ⟨0, 0⟩)
    ((s.core c).tileAt t i j).toNat))

/-- The copy that an access to a tile of a team waits for: the first write of one that still holds another team's contents (R118, R346), the first
access of one whose contents lie in the eviction area (R119, R121). -/
def tileCopy (s : State) (c team t : Nat) (writes : Bool) : Option Spill :=
  let held := (s.core c).tileH.contains t
  if (Tbl.find s.teams team).any (fun k => k.gone.contains t) then some (if held then .tile team t else .tileHome team t)
  else if writes && held then some (.tile team t)
  else none

/-- A copy of a tile is queued on a side. -/
def awaitTile (s : State) (c side : Nat) (sp : Spill) : State :=
  let s := if (s.core c).spills.any (fun e => e.2 == sp) then s else s.updCore c (fun x => { x with spills := x.spills ++ [(side, sp)] })
  s.soonOnce (.spillCopyDone c (Fin.ofNat 2 side))

end State

/-! ## Operand descriptors (R349) -/

/-- The pitch of a descriptor, where 0 stands for the row bytes rounded up to 16. -/
def pitchOf (d : DWord) (rowBytes : Nat) : Nat := if fieldOf d 47 32 == 0 then (rowBytes + 15) / 16 * 16 else fieldOf d 47 32

/-- The causes of a descriptor of n rows: `align` is that of the offset. -/
def descCauses (d : DWord) (n rowBytes align bytes : Nat) : List Nat :=
  let off := fieldOf d 18 0
  (if off % align == 0 && fieldOf d 47 32 % 16 == 0 then [] else [0x31])
    ++ (if fieldOf d 63 48 == 0 && fieldOf d 31 19 == 0 && off + (n - 1) * pitchOf d rowBytes + rowBytes ≤ bytes then [] else [0x32])

/-- The allocation of a wave's team: its start and its bytes. -/
def State.allocOf (s : State) (wid : Nat) (w : Wave) : Nat × Nat := (s.startOf w, ((s.lrecOf wid).map (fun r => r.bytes)).getD 0)

/-- Row `i` that a descriptor names, as a number. -/
def State.descRow (s : State) (wid : Nat) (w : Wave) (d : DWord) (rowBytes i : Nat) : Nat :=
  bytesNat (s.scratchBytes (s.coreOf wid) (s.startOf w + fieldOf d 18 0 + i * pitchOf d rowBytes) rowBytes)

/-- The first of the rows that a descriptor names that holds poison: its cluster-scratch address (R246, LE 32). -/
def State.rowsPoison (s : State) (wid : Nat) (w : Wave) (d : DWord) (rowBytes n : Nat) : Option Nat :=
  let at_ := fun (i : Nat) => s.startOf w + fieldOf d 18 0 + i * pitchOf d rowBytes
  if (s.core (s.coreOf wid)).scrBad.isEmpty then none
  else ((List.range n).find? (fun i => s.scratchPoisoned (s.coreOf wid) (at_ i) rowBytes)).map (fun i => scratchVa (s.coreOf wid) (at_ i))

/-- The n rows of an operand of a step, with their scales. -/
def State.descRows (s : State) (wid : Nat) (w : Wave) (d ds : DWord) (sh n f : Nat) : List OpRow :=
  (List.range n).map (fun i => ⟨s.descRow wid w d (stepBytes sh f) i, if Slotf.scaled f then s.descRow wid w ds (stepScales sh f) i else 0⟩)

/-! ## Instructions on tiles -/

/-- The number of tiles that a wave's team names. -/
def State.accOf (s : State) (wid : Nat) : Nat := ((s.lrecOf wid).map (fun r => r.acc)).getD 0

/-- The frame of an instruction that reads or writes a tile: the name (R278, R237), further causes, the wait for a busy tile and for
one that is still to be copied out; then the effect on the core. `addr` is the address of poison among what it then reads (R246): with a cause it reads
nothing (R349). -/
def tileRes (name : Nat) (writes : Bool) (causes : State → Nat → Wave → List Nat) (f : State → Nat → Wave → Nat → State) (s : State) (wid : Nat)
    (w : Wave) (addr : Option Nat := none) : UniRes :=
  let all := (if name < s.accOf wid then [] else [0x13]) ++ (if w.depth != 0 then [0x32] else []) ++ causes s wid w
  match lowCode all, s.tileOf w.team name with
  | some c, _ => .trap c none
  | none, none => .trap 0x13 none
  | none, some t =>
    if !s.waitOver wid w (.tile name) then .wait s wid (.tile name)
    else match s.tileCopy (s.coreOf wid) w.team t writes with
      | some sp => .wait (s.awaitTile (s.coreOf wid) w.side sp) wid .spill
      | none => match addr with
        | some a => if s.replays wid then .stay (s.killLaunch wid) else .trap 0x01 (some a)
        | none => .done (f s wid w t)

/-- The first operand of MMA that holds poison: a codebook table, elements, scales (R246). -/
def mmaPoison (sh : Nat) (a b : Nat) (fa fb : FSlot) (s : State) (wid : Nat) (w : Wave) : Option Nat :=
  let xa := s.fslotOf wid fa
  let xb := s.fslotOf wid fb
  let rows := fun (r : Nat) (bytes : Nat) => if bytes == 0 then none else s.rowsPoison wid w (w.sreg r) bytes (shapeN sh)
  [s.tablePoison (s.partOf wid) xa, s.tablePoison (s.partOf wid) xb, rows a (stepBytes sh xa), rows (a + 1) (stepScales sh xa),
    rows b (stepBytes sh xb), rows (b + 1) (stepScales sh xb)].findSome? id

/-- The causes of MMA's operands (R343, R349). -/
def mmaCauses (sh : Nat) (a b : Nat) (fa fb : FSlot) (s : State) (wid : Nat) (w : Wave) : List Nat :=
  let xa := s.fslotOf wid fa
  let xb := s.fslotOf wid fb
  let n := shapeN sh
  let bytes := (s.allocOf wid w).2
  if !slotsOk xa xb then [0x18]
  else
    descCauses (w.sreg a) n (stepBytes sh xa) 16 bytes ++ (if Slotf.scaled xa then descCauses (w.sreg (a + 1)) n (stepScales sh xa) 64 bytes else [])
      ++ descCauses (w.sreg b) n (stepBytes sh xb) 16 bytes ++ (if Slotf.scaled xb then descCauses (w.sreg (b + 1)) n (stepScales sh xb) 64 bytes else [])

/-- MMA (R348, R349). The comparison of a protected step (R347) is that of the uniform pipe (R242). -/
def execMma (sh : Shape) (d : AReg) (a b : SReg) (fa fb : FSlot) (s : State) : Host.Outcome State Fault Refusal :=
  uniStep {} (fun s wid w => tileRes d.val true (mmaCauses sh.code a.val b.val fa fb) (fun s wid w t =>
    let xa := s.fslotOf wid fa
    let xb := s.fslotOf wid fb
    let n := shapeN sh.code
    let ra := s.descRows wid w (w.sreg a.val) (w.sreg (a.val + 1)) sh.code n xa
    let rb := s.descRows wid w (w.sreg b.val) (w.sreg (b.val + 1)) sh.code n xb
    (s.tablesTouch (s.agentOf wid) xa xb).updCore (s.coreOf wid) (fun k => k.arrayWrite t (s.stepTile (s.coreOf wid) (s.partOf wid) t n (stepK sh.code xa) xa xb ra rb))) s wid w (mmaPoison sh.code a.val b.val fa fb s wid w)) s

/-- MZERO (R359). -/
def execMzero (d : AReg) (s : State) : Host.Outcome State Fault Refusal :=
  uniStep {} (tileRes d.val true (fun _ _ _ => []) (fun s wid _ t =>
    s.updCore (s.coreOf wid) (fun k => k.putTile t (tileGrid 32 (fun _ _ => 0))))) s

/-- A number as FP32, exactly; a NaN canonical. -/
def toF32 (g : FFmt) (x : Nat) : Nat := (FFmt.f32.ofVal .rne false (g.decode x)).1

/-- MLDA (R359). -/
def execMlda (sh : Shape) (ty : TileType) (d : AReg) (a : SReg) (s : State) : Host.Outcome State Fault Refusal :=
  let n := shapeN sh.code
  let g := ty.fmt
  let rb := n * g.bits / 8
  uniStep {} (fun s wid w =>
    let bad := s.rowsPoison wid w (w.sreg a.val) rb n
    tileRes d.val true (fun s wid w => descCauses (w.sreg a.val) n rb 16 (s.allocOf wid w).2) (fun s wid w t =>
      s.updCore (s.coreOf wid) (fun k => k.putTile t (tileGrid n (fun i j =>
        BitVec.ofNat 32 (toF32 g (s.descRow wid w (w.sreg a.val) rb i / 2 ^ (g.bits * j) % 2 ^ g.bits)))))) s wid w bad) s

/-- The bytes of a row of n elements packed under R250. -/
def packRow (bits n : Nat) (l : List Nat) : List Byte := natBytes (n * bits / 8) (packElems bits l)

/-- A slot that MSTA cannot store in (R257, R359). -/
def mstaBad (f : Nat) : Bool := Slotf.elem f == 8 || Slotf.scaled f || bitsOf f 18 16 == 4

/-- MSTA (R359). -/
def execMsta (sh : Shape) (f : FSlot) (d : AReg) (a : SReg) (s : State) : Host.Outcome State Fault Refusal :=
  let n := shapeN sh.code
  uniStep {} (tileRes d.val false (fun s wid w =>
      let x := s.fslotOf wid f
      if mstaBad x then [0x18] else descCauses (w.sreg a.val) n (n * (FFmt.ofCode (Slotf.elem x)).bits / 8) 16 (s.allocOf wid w).2)
    (fun s wid w t =>
      let x := s.fslotOf wid f
      let g := FFmt.ofCode (Slotf.elem x)
      let rb := n * g.bits / 8
      let c := s.coreOf wid
      let row := fun (i : Nat) => packRow g.bits n ((List.range n).map (fun j =>
        (g.ofVal (slotRound x 0) (slotSat x) (FFmt.f32.decode ((s.core c).tileAt t i j).toNat)).1))
      (List.range n).foldl (fun s' i => s'.storeScratch (some w.team) c (s.startOf w + fieldOf (w.sreg a.val) 18 0 + i * pitchOf (w.sreg a.val) rb) (row i)) s)) s

/-- MSCL (R359). -/
def execMscl (sh : Shape) (d : AReg) (a : SReg) (s : State) : Host.Outcome State Fault Refusal :=
  uniStep {} (tileRes d.val true (fun _ _ _ => []) (fun s wid w t =>
    let x := FFmt.f32.decode (fieldOf (w.sreg a.val) 31 0)
    s.updCore (s.coreOf wid) (fun k => k.putTile t (tileGrid (shapeN sh.code) (fun i j =>
      BitVec.ofNat 32 (FFmt.f32.mul .rne (FFmt.f32.decode (k.tileAt t i j).toNat) x).1))))) s

/-! ## The checksum unit (R356, R357) -/

/-- The exact sum of FP32 values, rounded; a NaN or an infinity among them gives the canonical NaN. -/
def checkSum (l : List FVal) : Nat :=
  if l.any (fun v => v.isNan || v.isInf) then FFmt.f32.nanBits else (FFmt.f32.ofVal .rne false (exactSum l)).1

/-- The magnitude of a value. -/
def FVal.mag : FVal → FVal
  | .fin _ m e => .fin false m e
  | .inf _ => .inf false
  | v => v

/-- The tolerance of R357. -/
def checkTol (l : List FVal) : Nat :=
  if l.any (fun v => v.isNan || v.isInf) then FFmt.f32.nanBits
  else match exactSum (l.map FVal.mag) with
    | .fin _ m e => if m == 0 then 0 else (FFmt.f32.round .rne false false 1 (max ((m.log2 : Int) + e - 17) (-149))).1
    | _ => FFmt.f32.nanBits

/-- The check tile of final values: 32 × 32 elements in row order (R356). -/
def checkTile (n : Nat) (c : Nat → Nat → Nat) : List Word :=
  let v := fun i j => FFmt.f32.decode (c i j)
  let col := fun (j : Nat) => (List.range n).map (fun i => v i j)
  let row := fun (i : Nat) => (List.range n).map (fun j => v i j)
  (List.range 1024).map (fun x =>
    let k := x % 32
    if n ≤ k then 0
    else BitVec.ofNat 32 (match x / 32 with
      | 0 => checkSum (col k)
      | 1 => checkSum (row k)
      | 2 => checkTol (col k)
      | 3 => checkTol (row k)
      | _ => 0))

/-! ## Issue of engine jobs (R331, R350) -/

/-- The tag of an engine instruction lies outside the window (R185). -/
def tagOut (tag : Nat) (s : State) (wid : Nat) : Bool := (s.lrecOf wid).any (fun r => !(r.tagBase ≤ tag && tag < r.tagBase + r.tagCount))

/-- The causes of an engine instruction that neither its tag nor its card raises: ACCESS in a gate callee (R237), REGION_REQUIRED (R232). -/
def placeCauses (s : State) (wid : Nat) (w : Wave) : List Nat :=
  (if w.depth != 0 then [0x32] else []) ++ (if s.clsOf wid == .h && w.region.isNone then [0x62] else [])

/-- The card at a local-scratch offset, with the causes of the offset, and of poison in it (R246, R288). -/
def cardAt (off : Nat) (s : State) (wid : Nat) (w : Wave) : List Nat × List Byte :=
  let bytes := (s.allocOf wid w).2
  ((if off % 64 == 0 then [] else [0x31]) ++ (if off + 64 ≤ bytes then [] else [0x32])
      ++ (if off + 64 ≤ bytes && s.scratchPoisoned (s.coreOf wid) (s.startOf w + off) 64 then [0x01] else []),
    s.scratchBytes (s.coreOf wid) (s.startOf w + off) 64)

/-- The causes of a card by its kind. -/
def State.cardCauses (s : State) (g : Option Grid) (p kind acc : Nat) (c : List Byte) : List Nat :=
  let slot := fun (i : Nat) => match g with
    | none => 0
    | some g => (g.lrec.fslots.getD i 0).toNat
  match kind with
  | 1 | 2 => copyCauses c kind
  | 5 => collCauses c (s.groupEntry p (Card.collGroup c))
  | _ => matrixCauses c kind acc (slot (bitsOf (Card.flags c) 3 1)) (slot (bitsOf (Card.flags c) 6 4))

/-- The job of a wave on a tag. -/
def waveJob (s : State) (wid : Nat) (w : Wave) (tag : Nat) (c : List Byte) : Job where
  team := some w.team
  wid := some wid
  node := none
  sched := false
  card := c
  tag := tag
  core := s.coreOf wid
  cls := s.clsOf wid
  part := s.partOf wid
  asid := w.asid
  grid := some (s.gridIdOf wid)
  order := 0
  issueId := 0
  pos := 0
  read := 0
  wait := .no
  paused := false
  inRegion := w.region.isSome
  round := 0
  acked := 0
  chk := []
  lines := []
  absent := []
  inData := []

/-- The frame of CPY, CPYM, MML, MMCK and COLL (R331, R338, R350): the check of the tag, past which a tag outside the window does not go; the wait
on a busy tag; then the lowest code of the card and of the rules on regions and gate callees (R222); the wait on busy tiles; the job (LE 42). -/
def engineRes (kind tag a : Nat) (f : State → Job → State) (s : State) (wid : Nat) (w : Wave) : UniRes :=
  let off := fieldOf (w.sreg a) 18 0
  let at_ := cardAt off s wid w
  let c := at_.2
  let p := s.partOf wid
  let form := s.cardCauses (Tbl.find s.grids (s.gridIdOf wid)) p kind (s.accOf wid) c
  let inner := if !at_.1.isEmpty then at_.1 else form ++ s.areaCauses (s.coreOf wid) p (s.startOf w) (s.allocOf wid w).2 c
  if tagOut tag s wid then .trap ((lowCode (placeCauses s wid w ++ [0x34])).getD 0x34) none
  else if s.tagOf w.team tag == .busy then .wait s wid (.busyTag tag)
  else match lowCode (placeCauses s wid w ++ inner) with
    | some x => if x == 0x01 && s.replays wid then .stay (s.killLaunch wid)
        else .trap x (if x == 0x01 then some (State.scratchVa (s.coreOf wid) (s.startOf w + off)) else none)
    | none =>
      let j := waveJob s wid w tag c
      if (kind == 3 || kind == 4) && !s.waitOver wid w (.tile (Card.tile c)) then .wait s wid (.tile (Card.tile c))
      else if kind == 4 && !s.waitOver wid w (.tile (Card.tile c + 1)) then .wait s wid (.tile (Card.tile c + 1))
      else .done (f s j)

def execCpy (tag : Tag) (a : SReg) (s : State) : Host.Outcome State Fault Refusal := uniStep {} (engineRes 1 tag.val a.val State.acceptJob) s
def execCpym (tag : Tag) (a : SReg) (s : State) : Host.Outcome State Fault Refusal := uniStep {} (engineRes 2 tag.val a.val State.acceptJob) s
def execMml (tag : Tag) (a : SReg) (s : State) : Host.Outcome State Fault Refusal := uniStep {} (engineRes 3 tag.val a.val State.acceptJob) s
def execMmck (tag : Tag) (a : SReg) (s : State) : Host.Outcome State Fault Refusal := uniStep {} (engineRes 4 tag.val a.val State.acceptJob) s

/-! ## MML and MMCK step by step (R352 to R356) -/

namespace State

/-- The slot of a job's grid. -/
def jobSlot (s : State) (j : Job) (i : Nat) : Nat :=
  match j.grid.bind (Tbl.find s.grids) with
  | none => 0
  | some g => (g.lrec.fslots.getD i 0).toNat

/-- The pieces in which a row is read: a row of local scratch whole, each byte of a remote operand at the core that holds it (R132, R353). -/
def stepPieces (space a bytes : Nat) : List (Nat × Nat) := if space == 1 then [(a, bytes)] else (List.range bytes).map (fun i => (a + i, 1))

/-- The first address of a piece that is not to be read now, with what keeps the job from it. -/
def pieceBad (s : State) (j : Job) (space : Nat) (p : Nat × Nat) : Option (Nat × JobGo) :=
  [p.1, p.1 + p.2 - 1].findSome? (fun a =>
    let g := s.jobGo j space a .read
    if g.stuck then some (a, g) else none)

/-- The first address of row `i` of a region in a step. -/
def rowAt (j : Job) (r step bytes i : Nat) : Nat := (Card.region j.card r).base + 16 * (Card.region j.card r).stride * i + step * bytes

/-- The bytes of one step in row `i` of a region; none where an address is not to be read (R353). -/
def stepRow (s : State) (j : Job) (r step bytes i : Nat) : Option Nat :=
  let sp := (Card.region j.card r).space
  let ps := stepPieces sp (rowAt j r step bytes i) bytes
  if ps.any (fun p => (s.pieceBad j sp p).isSome) then none
  else some (bytesNat (ps.flatMap (fun p => s.jobRead j p.2 (s.jobGo j sp p.1 .read))))

/-- The operand rows of a step of a job, where every address is valid and a codebook table that it reads is not poisoned. -/
def stepRows (s : State) (j : Job) (n step sh f r rs : Nat) : Option (List OpRow) :=
  if (s.tablePoison j.part f).isSome then none
  else
  let l := (List.range n).map (fun i =>
    match s.stepRow j r step (stepBytes sh f) i, (if Slotf.scaled f then s.stepRow j rs step (stepScales sh f) i else some 0) with
    | some e, some x => some (OpRow.mk e x)
    | _, _ => none)
  if l.all Option.isSome then some (l.filterMap id) else none

/-- The first address of the step that is not to be read, with what keeps the job from it. -/
def stepBad (s : State) (j : Job) (n step sh fa fb : Nat) : Option (Nat × JobGo) :=
  let bad := fun (r f b : Nat) => if r < 2 || Slotf.scaled f then
      (List.range n).findSome? (fun i => (stepPieces (Card.region j.card r).space (rowAt j r step b i) b).findSome? (s.pieceBad j (Card.region j.card r).space))
    else none
  (((bad 0 fa (stepBytes sh fa)).or (bad 1 fb (stepBytes sh fb))).or (bad 2 fa (stepScales sh fa))).or (bad 3 fb (stepScales sh fb))

/-- An operand of the step holds poison: a codebook table that it reads, or bytes of a scratchpad (R246, R355). -/
def stepPoison (s : State) (j : Job) (n step sh fa fb : Nat) : Bool :=
  let bad := fun (r f b : Nat) => (r < 2 || Slotf.scaled f) && (List.range n).any (fun i =>
    (stepPieces (Card.region j.card r).space (rowAt j r step b i) b).any (fun p => s.goPoisoned p.2 (s.jobGo j (Card.region j.card r).space p.1 .read)))
  ((s.tablePoison j.part fa).or (s.tablePoison j.part fb)).isSome
    || (s.cores.any (fun e => !e.2.scrBad.isEmpty) && (bad 0 fa (stepBytes sh fa) || bad 1 fb (stepBytes sh fb) || bad 2 fa (stepScales sh fa)
      || bad 3 fb (stepScales sh fb)))

/-- The job is of a protected launch (R148). -/
def jobProt (s : State) (j : Job) : Bool := ((j.grid.bind (Tbl.find s.grids)).map (fun g => g.lrec.prot)).getD false

/-- A mismatch in a step of a protected job: its wave takes SHADOW_MISMATCH, in a record that names the job's issue count (R228, R347, R355). -/
def jobMismatch (s : State) (j : Job) : State :=
  match s.jobWave j with
  | some w => (s.updWave w (fun x => { x with issueId := j.issueId })).mismatch w
  | none => match j.grid.bind (Tbl.find s.grids) with
    | none => s.drawn
    | some g => (s.killGrid g.root [5, 1] (s.eventFree (some j.core) (some j.issueId) 0x03)).drawn

/-- A step of a job on its physical tile: its operands are read, the array writes the tile; with the last step, the checksum unit
takes the values before an injection (R356, R358). -/
def jobStep (s : State) (id : Nat) (j : Job) (t : Nat) : State :=
  let sh := Card.shape j.card
  let n := shapeN sh
  let fa := s.jobSlot j (bitsOf (Card.flags j.card) 3 1)
  let fb := s.jobSlot j (bitsOf (Card.flags j.card) 6 4)
  match s.stepRows j n j.pos sh fa 0 2, s.stepRows j n j.pos sh fb 1 3 with
  | some ra, some rb =>
    if s.stepPoison j n j.pos sh fa fb then s.jobPoison id
    else if s.jobProt j && Config.upset s.fresh then s.jobMismatch j
    else
    let s := if s.jobProt j then s.drawn else s
    let s := if j.pos == 0 && bitOf (Card.flags j.card) 11 then s.updCore j.core (fun k => k.putTile t (tileGrid 32 (fun _ _ => 0))) else s
    let out := s.stepTile j.core j.part t n (stepK sh fa) fa fb ra rb
    let last := Card.steps j.card ≤ j.pos + 1
    let chk := if last && Card.kind j.card == 4 then
        checkTile n (fun i k => ((out.getD (i * n + k) (0, 0, 0)).2.2).toNat)
      else j.chk
    let s := (s.tablesTouch (jobAgent j) fa fb).updCore j.core (fun k => k.arrayWrite t out)
    let s := s.updJob id (fun j => { j with pos := j.pos + 1, read := j.pos + 1, chk := chk })
    if last then s.soonOnce (.matrixJobComplete id) else s.kick id
  | _, _ => if s.stepPoison j n j.pos sh fa fb then s.jobPoison id
    else match s.stepBad j n j.pos sh fa fb with
    | none => s
    | some x => s.jobStuck id j x.1 3 .read x.2

/-- The tiles of a job's team are lent: its matrix steps wait until they are back (R121, R355). -/
def tilesLent (s : State) (j : Job) : Bool := (j.team.bind (Tbl.find s.teams)).any (fun t => t.tileSave.isSome)

/-- The side of the wave that issued a job. -/
def jobSide (s : State) (j : Job) : Nat := ((j.wid.bind (Tbl.find s.waves)).map (fun w => w.side)).getD 0

end State

/-- MATRIX_STEP (R347, R352): the next step of a matrix job; its first write to a tile that is still to be copied out waits (R346). -/
def execMatrixStep (job : Nat) (s : State) : Host.Outcome State Fault Refusal :=
  match Tbl.find s.jobs job with
  | none => .next s
  | some j =>
    if !s.jobActs j || (Card.kind j.card != 3 && Card.kind j.card != 4) || Card.steps j.card ≤ j.pos || s.jobHeld j || s.tilesLent j then .next s
    else match j.team.bind (fun t => s.tileOf t (Card.tile j.card)) with
      | none => .next s
      | some t =>
        match s.tileCopy j.core (j.team.getD 0) t true with
        | some sp => .next ((s.awaitTile j.core (s.jobSide j) sp).kick job)
        | none => .next (s.jobStep job j t)

/-- MATRIX_JOB_COMPLETE (R355, R356): MMCK writes its check tile, and the tag becomes set. -/
def execMatrixJobComplete (job : Nat) (s : State) : Host.Outcome State Fault Refusal :=
  match Tbl.find s.jobs job with
  | none => .next s
  | some j =>
    if !s.jobActs j || (Card.kind j.card != 3 && Card.kind j.card != 4) || j.pos < Card.steps j.card || s.tilesLent j then .next s
    else if Card.kind j.card == 4 then
      match j.team.bind (fun t => s.tileOf t (Card.tile j.card + 1)) with
      | none => .next s
      | some t =>
        match s.tileCopy j.core (j.team.getD 0) t true with
        | some sp => .next ((s.awaitTile j.core (s.jobSide j) sp).soonOnce (.matrixJobComplete job))
        | none => .next ((s.updCore j.core (fun k => k.putTile t (tileGrid 32 (fun i k => j.chk.getD (i * 32 + k) 0)))).jobDone job)
    else .next (s.jobDone job)

/-- MWAIT (R354). -/
def mwaitRes (tag n : Nat) (s : State) (wid : Nat) (w : Wave) : UniRes :=
  let bad := (if w.depth != 0 then [0x32] else []) ++ (match s.lrecOf wid with
    | none => []
    | some r => if r.tagBase ≤ tag && tag < r.tagBase + r.tagCount then [] else [0x34])
  match lowCode bad with
  | some c => .trap c none
  | none => if s.waitOver wid w (.consumed tag n) then .done s else .wait s wid (.consumed tag n)

def execMwait (tag : Tag) (a : SReg) (s : State) : Host.Outcome State Fault Refusal :=
  uniStep {} (fun s wid w => mwaitRes tag.val (fieldOf (w.sreg a.val) 31 0) s wid w) s

end Sys2Proof.Machine
end

