-- ==== Sys2Proof/Machine/Waits.lean ====
section
/-!
DEFINITION. BREC (R328), uniform reads of memory that wait as loads do (R195), WAITV (R329), tags and chunks (R335), copy schedules (R187,
R188, R336), collectives (R337 to R340).
-/

namespace Sys2Proof.Machine

/-! ## BREC (R328) -/

/-- The record that BREC builds is one that it accepts. -/
def recordOk (x : RecBits) : Bool :=
  fieldOf x 127 125 == 0 && fieldOf x 124 113 == 0 && fieldOf x 106 103 ≤ 8 && fieldOf x 102 100 ≤ 4 && fieldOf x 51 0 < 2 ^ 52

def execBrec (d : BReg) (a : SReg) (s : State) : Host.Outcome State Fault Refusal :=
  uniStep {} (fun s wid w =>
    let x : RecBits := BitVec.ofNat 128 ((w.sreg (a.val + 1)).toNat * 2 ^ 64 + (w.sreg a.val).toNat)
    match lowCode ((if recordOk x then [] else [0x32]) ++ (if w.guarded then [0x60] else [])) with
    | some c => .trap c none
    | none => .done (s.updWave wid (fun w => w.setB d.val x))) s

/-! ## Uniform reads that wait as a load does (R195, R199) -/

namespace State

/-- What keeps a uniform read from its bytes: a cause, a wait for an earlier store of the wave to the page (R196) or of the core to a line of
another chip (R205), for pages or leases; none where every place can be read. The whole wave reads: a fault record names lane 0. -/
def uniHang (s : State) (op : MemOp) (wid : Nat) (w : Wave) (pc asid : Nat) (gos : List Go) : Option UniRes :=
  let l := gos.map (fun g => (0, g))
  let traps := gos.filterMap (fun g => match g with | .trap c a => some (c, a) | _ => none)
  let poison := gos.findSome? (s.readsPoison op wid)
  match leastBy (fun (e : Nat × Option Nat) => e.1) (traps ++ (match poison with | none => [] | some va => [(0x01, some va)])) with
  | some c => if c.1 == 0x01 && poison.isSome && s.replays wid then some (.stay (s.killLaunch wid)) else some (.trap c.1 c.2)
  | none =>
    match gos.findSome? (fun g => match g with | .fatal va => some va | _ => none) with
    | some va => some (.trap 0x38 (some va))
    | none =>
      let n := (faultPages l).length
      if let some p := s.loggedPage wid asid (gos.filterMap Go.va) then some (.wait s wid (.logged p.1 p.2))
      else if gos.any (fun g => s.holdsBack op wid w 0 g) then some (.wait s wid .retry)
      else if n != 0 then
        (if !s.fqRoom (s.partOf wid) n then some (.wait s wid .faultQueue)
        else
          let s' := (s.fqRecords (s.partOf wid) ((faultPages l).map (s.faultRec op wid w asid))).drawn
          some (.stay (s'.updWave wid (fun w => { w with pend := { w.pend with pc := pc, again := true, pages := s.waitPages op wid w asid l } }))))
      else if gos.any (fun g => match g with | .lease _ _ _ => true | _ => false) then
        some (.stay ((s.askLeases op wid l).updWave wid (fun w => { w with pend := { w.pend with pc := pc, again := true } })))
      else none

/-- A uniform read leaves its line and its translation in the caches as a load does (R176, R191). -/
def uniTouch (s : State) (wid asid : Nat) (op : MemOp) (g : Go) : State :=
  State.touchRead op ((g.va.map (s.keepTlb (s.coreOf wid) (s.partOf wid) (s.clsOf wid) asid)).getD s) (wid, 0, g)

/-- The bytes that a uniform instruction reads at places that can be read, in turn; none while some have not come back. -/
def uniBytes (s : State) (wid : Nat) : List (MemOp × Go) → Option (List Byte) × State
  | [] => (some [], s)
  | (op, g) :: t =>
    match s.loadAt op wid 0 g with
    | (none, s') => (none, s')
    | (some bs, s') =>
      match s'.uniBytes wid t with
      | (none, s'') => (none, s'')
      | (some r, s'') => (some (bs ++ r), s'')

end State

/-- The lines of a range, as address and length. -/
def linePieces : Nat → Nat → Nat → List (Nat × Nat)
  | 0, _, _ => []
  | fuel + 1, a, n => if n == 0 then [] else
    let k := max 1 (min n (lineLeft a))
    (a, k) :: linePieces fuel (a + k) (n - k)

/-- An ordinary load of a uniform instruction (R373). -/
def uniOp (n : Nat) : MemOp := { spaces := [0], right := .read, leaf := .read, width := n, loads := true, kind := 0, hint := some 0 }

namespace State

/-- Where a global address of the wave's ASID leads. -/
def uniGo (s : State) (wid : Nat) (w : Wave) (va n : Nat) : Go :=
  let r := s.reach (some (s.coreOf wid)) (s.partOf wid) w.asid va false .read
  match lowCode (placeCodes (uniOp n) r) with
  | some c => .trap c none
  | none => s.goGlobal (uniOp n) wid w 0 va r

/-- Reads bytes of global memory for a wave and goes on with them; else what keeps it from them. -/
def uniRead (s : State) (wid : Nat) (w : Wave) (pc va n : Nat) (f : State → List Byte → UniRes) : UniRes :=
  let ps := linePieces n va n
  let gos := ps.map (fun p => s.uniGo wid w p.1 p.2)
  match s.uniHang (uniOp 1) wid w pc w.asid gos with
  | some r => r
  | none =>
    match s.uniBytes wid ((List.range ps.length).map (fun i => (uniOp (ps.getD i (0, 0)).2, gos.getD i .drop))) with
    | (some bs, s) => f (gos.foldl (fun s g => s.uniTouch wid w.asid (uniOp 1) g) s) bs
    | (none, s) => .stay (s.updWave wid (fun w => { w with pend := { w.pend with pc := pc, again := true } }))

end State

/-! ## WAITV (R329) -/

/-- A condition of WAITV on unsigned numbers. -/
def wcond : WCond → Nat → Nat → Bool
  | .eq, x, y => x == y
  | .ne, x, y => x != y
  | .geu, x, y => y ≤ x
  | .ltu, x, y => x < y

/-- The name of the word that a place lies in. -/
def goKey : Go → Nat
  | .hbm _ pa _ => wordKey pa
  | .scratch c off => scratchKey c off
  | .peer _ _ e pa => peerKey e.chip pa
  | _ => 2 ^ 62

namespace State

/-- The stamp of the word that a place lies in. -/
def goStamp (s : State) (w : Wave) : Go → Nat × Nat
  | .hbm _ pa _ => stampMax w.rstamp (s.stampAt pa)
  | _ => w.rstamp

/-- The wave parks in WAITV; the device reads the word again at least every 10 µs. With such a reading the wave stays parked: it comes to rest
no second time (R123, R329). -/
def parkWaitv (s : State) (again : Bool) (wid : Nat) (w : Wave) (key : Nat) : State :=
  let c := s.coreOf wid
  let s := s.updWave wid (fun w => { w with park := .waitv key, pend := .none })
  let s := if s.due (.waitvWake c w.slot) then s else s.after 10000 (.waitvWake c w.slot)
  if again then s else s.rested w.team

end State

/-- WAITV: a strong read, and the return or the park; `again` says that the parked wave reads its word again. A
32-bit or 64-bit word of the register window is read like another load of the thread's wave: R82 does not name WAITV (LE 82). -/
def waitvRes (again : Bool) (n : BReg) (sc : Scope) (cc : WCond) (pair : Bool) (d a : SReg) (pc : Nat) (s : State) (wid : Nat) (w : Wave) : UniRes :=
  let wd := if pair then 8 else 4
  let op : MemOp := { spaces := [0, 1, 2, 3], right := .read, leaf := .read, width := wd, loads := true, kind := 0, scope := some sc, noHost := true }
  let go := s.laneGo op wid w n.val (fieldOf (w.sreg a.val) 31 0)
  match go with
  | .host _ _ => .trap 0x32 none
  | _ =>
    match s.uniHang op wid w pc (State.asidOf w (w.breg n.val)) [go] with
    | some r => r
    | none =>
      match s.loadAt op wid 0 go with
      | (none, s) => .stay (s.updWave wid (fun w => { w with pend := { w.pend with pc := pc, again := true } }))
      | (some bs, s') =>
        let s' := s'.uniTouch wid (State.asidOf w (w.breg n.val)) op go
        let v := bytesNat bs
        if wcond cc v ((w.sreg d.val).toNat % 2 ^ (8 * wd)) then
          .done ((s'.updWave wid (fun w => { w.setS d.val (BitVec.ofNat 64 v) with pend := .none })).acquire wid sc (s.goStamp w go))
        else .stay (s'.parkWaitv again wid w (goKey go))

def execWaitv (n : BReg) (sc : Scope) (cc : WCond) (pair : Bool) (d a : SReg) (s : State) : Host.Outcome State Fault Refusal :=
  uniStep { sdst := [d.val] } (fun s wid w => waitvRes false n sc cc pair d a w.at_ s wid w) s

/-- The wave is parked in WAITV. -/
def Wave.watches (w : Wave) : Bool := match w.park with
  | .waitv _ => true
  | _ => false

namespace State

/-- A wave that is parked in WAITV reads its word again. -/
def rereadWaitv (s : State) (core : Nat) (e : Nat × Wave) : State :=
  let y := { e.2 with park := .no }.takeUp e.2.at_
  let w := { y with pend := { y.pend with id := e.2.issueId } }
  let s := s.updWave e.1 (fun _ => w)
  match (s.instrAt core (s.partOf e.1) w.asid w.at_).1 with
  | .waitv n sc cc pair d a =>
    s.uniWave { sdst := [d.val] } (waitvRes true n sc cc pair d a w.at_) ⟨core, w.side, w.at_, w.lanes.map (fun l => (e.1, l))⟩ e.1 w
  | _ => s

/-- The wave of a slot whose place is lent (R121). -/
def lentAt (s : State) (core slot : Nat) : Option (Nat × Wave) :=
  s.waves.find? (fun e => e.2.lent && !e.2.retired && e.2.slot == slot && (Tbl.find s.teams e.2.team).any (fun t => t.core == core && t.loc == .resident))

end State

/-- WAITV_WAKE: the wave that is parked in a slot reads its word again; on a core that does not issue, later. A wave that has lent the slot
does so as it looks whether it is ready (R121). -/
def execWaitvWake (core slot : Nat) (s : State) : Host.Outcome State Fault Refusal :=
  let here := match s.waveAt core slot with
    | none => none
    | some e => if e.2.watches then some e else none
  let lent := (s.lentAt core slot).any (fun e => e.2.watches)
  if here.isNone && !lent then .next s
  else if !s.coreRuns core then .next (s.soon (.waitvWake core slot))
  else
    let s := match here with
      | none => s
      | some e => s.rereadWaitv core e
    .next (if lent then s.soonOnce (.lendReclaim core slot) else s)

/-! ## Tags and chunks (R335) -/

/-- The causes of an instruction that names tags (R185, R237). -/
def tagCauses (mask : Nat) (s : State) (wid : Nat) (w : Wave) : Option Nat :=
  let window := match s.lrecOf wid with
    | none => 0
    | some r => (2 ^ r.tagCount - 1) * 2 ^ r.tagBase
  lowCode ((if w.depth != 0 && mask != 0 then [0x32] else []) ++ (if (List.range 64).all (fun i => !bitOf mask i || bitOf window i) then [] else [0x34]))

/-- TWAIT. -/
def twaitRes (all : Bool) (mask : Nat) (s : State) (wid : Nat) (w : Wave) : UniRes :=
  match tagCauses mask s wid w with
  | some c => .trap c none
  | none => if s.waitOver wid w (.tags all mask) then .done s else .wait s wid (.tags all mask)

def execTwaitAll (a : SReg) (s : State) : Host.Outcome State Fault Refusal :=
  uniStep {} (fun s wid w => twaitRes true (w.sreg a.val).toNat s wid w) s
def execTwaitAny (a : SReg) (s : State) : Host.Outcome State Fault Refusal :=
  uniStep {} (fun s wid w => twaitRes false (w.sreg a.val).toNat s wid w) s

/-- TFIRST. -/
def execTfirst (d a : SReg) (s : State) : Host.Outcome State Fault Refusal :=
  uniStep { sdst := [d.val] } (fun s wid w =>
    let m := (w.sreg a.val).toNat
    match tagCauses m s wid w with
    | some c => .trap c none
    | none => .done (s.updWave wid (fun x => x.setS d.val (BitVec.ofNat 64
        (((List.range 64).find? (fun i => bitOf m i && s.tagOf w.team i == .set)).getD 64))))) s

/-- TCLR: a tag that becomes clear may let a copy schedule go on. -/
def execTclr (a : SReg) (s : State) : Host.Outcome State Fault Refusal :=
  uniStep {} (fun s wid w =>
    let m := (w.sreg a.val).toNat
    match tagCauses m s wid w with
    | some c => .trap c none
    | none => .done (((List.range 64).filter (fun i => bitOf m i && s.tagOf w.team i == .set)).foldl (fun s i => s.setTag w.team i .clear) s)) s

/-- The 64 chunk bits that CHWAIT returns: none of a clear tag, all of a set one (R186). -/
def chunkBits (s : State) (w : Wave) (tag word : Nat) : Nat :=
  match s.tagOf w.team tag with
  | .clear => 0
  | .set => 2 ^ 64 - 1
  | .busy => match Tbl.find s.teams w.team with
    | none => 0
    | some t => bitsOf (Tbl.getD t.chunks tag 0) (64 * word + 63) (64 * word)

/-- CHWAIT. -/
def chwaitRes (all : Bool) (tag word d mask : Nat) (s : State) (wid : Nat) (w : Wave) : UniRes :=
  match tagCauses (2 ^ tag) s wid w with
  | some c => .trap c none
  | none =>
    if s.waitOver wid w (.chunks all tag word mask) then .done (s.updWave wid (fun x => x.setS d (BitVec.ofNat 64 (chunkBits s w tag word))))
    else .wait s wid (.chunks all tag word mask)

def execChwaitAll (tag : Tag) (w : Fin 16) (d a : SReg) (s : State) : Host.Outcome State Fault Refusal :=
  uniStep { sdst := [d.val] } (fun s wid x => chwaitRes true tag.val w.val d.val (x.sreg a.val).toNat s wid x) s
def execChwaitAny (tag : Tag) (w : Fin 16) (d a : SReg) (s : State) : Host.Outcome State Fault Refusal :=
  uniStep { sdst := [d.val] } (fun s wid x => chwaitRes false tag.val w.val d.val (x.sreg a.val).toNat s wid x) s

/-! ## Copy schedules (R187, R188, R336) -/

/-- An entry of a copy schedule breaks a zero field, its KIND or an alignment (R187). -/
def entryBad (e : List Byte) : Bool :=
  !(fieldAt e 0 8 < 2 ^ 52 && fieldAt e 0 8 % 64 == 0 && fieldAt e 0xA 1 < 64 && fieldAt e 0xB 1 ≤ 1 && fieldAt e 0xC 4 % 64 == 0)

namespace State

/-- The wave whose SCHADV made a stage's entries issuable; wave 0 at team start (R188). -/
def stageWave (t : Nat) (k : Team) (stage : Nat) : Nat := t * 32 + ((k.stageBy.find? (fun e => stage ≤ e.1)).map (fun e => e.2)).getD 0

/-- The number of that SCHADV, of those of the team. -/
def stageAdv (k : Team) (stage : Nat) : Nat := k.stageBy.findIdx (fun e => stage ≤ e.1)

/-- The job that an entry of a team's copy schedule is, once its card is read. -/
def schedJob (g : Grid) (t : Nat) (k : Team) (e : List Byte) (issue : Nat) (card : List Byte) : Job where
  team := some t
  wid := some (stageWave t k (fieldAt e 8 2))
  node := none
  sched := true
  card := card
  tag := fieldAt e 0xA 1
  core := k.core
  cls := g.cls
  part := g.part
  asid := g.asid
  grid := some k.grid
  order := 0
  issueId := issue
  pos := 0
  read := 0
  wait := .no
  paused := false
  inRegion := false
  round := 0
  acked := 0
  chk := []
  lines := []
  absent := []
  inData := []

/-- The job that stands for the entry whose card is being read. -/
def schedReader (s : State) (t : Nat) : Option (Nat × Job) := s.jobs.find? (fun e => e.2.team == some t && e.2.card.isEmpty)

/-- The entry is over: the next one is looked at. -/
def schedNext (s : State) (t : Nat) : State :=
  let s := match s.schedReader t with
    | none => s
    | some r => s.forgetJob r.1
  s.updTeam t (fun k => { k with schedPos := k.schedPos + 1 })

/-- The number of the SCHADV that made the entry issuable at which a team's copy schedule stands. -/
def advAt (s : State) (t : Nat) : Nat :=
  match Tbl.find s.teams t with
  | none => 0
  | some k => match Tbl.find s.grids k.grid with
    | none => 0
    | some g => stageAdv k (fieldAt (g.sched.getD k.schedPos []) 8 2)

/-- A deferred cause of a copy-schedule entry: of those that one SCHADV leads to, the lowest code stands (R188, R222). -/
def pendSched (s : State) (wid code : Nat) (addr : Option Nat) (adv id : Nat) : State :=
  let d : Deferred := ⟨code, addr, 3, some adv, some id⟩
  s.updWave wid (fun w =>
    match w.deferred.find? (fun d => d.adv == some adv) with
    | none => { w with deferred := w.deferred ++ [d] }
    | some x => if x.code ≤ code then w else { w with deferred := w.deferred.filter (fun x => x.adv != some adv) ++ [d] })

/-- Skips an entry: the wave that made it issuable takes a deferred cause (R188). -/
def schedSkip (s : State) (t : Nat) (j : Job) (code : Nat) (addr : Option Nat) : State :=
  let s := match s.jobWave j with
    | none => s
    | some w => if code == 0x01 then s.pendCheck w j.issueId else s.pendSched w code addr (s.advAt t) j.issueId
  s.schedNext t

/-- The reader of an entry's card is listed, so that it can wait. -/
def schedHold (s : State) (t : Nat) (j : Job) : Nat × State :=
  match s.schedReader t with
  | some r => (r.1, s)
  | none => (s.nextId, { s with nextId := s.nextId + 1, jobs := Tbl.put s.jobs s.nextId { j with order := s.nextId } })

/-- Looks at the next entry of a team's copy schedule; true where the one after it is to be looked at as well (R188). The entry counts as a job only
when it issues: a fault record of its card's read names the count that it would then have (LE 81). -/
def schedOne (s : State) (t : Nat) : Bool × State :=
  match Tbl.find s.teams t with
  | none => (false, s)
  | some k =>
    match Tbl.find s.grids k.grid with
    | none => (false, s)
    | some g =>
      match g.sched[k.schedPos]? with
      | none => (false, s)
      | some e =>
        let tag := fieldAt e 0xA 1
        let base := schedJob g t k e ((s.core k.core).issued.toNat + 1) []
        let j := ((s.schedReader t).map (fun r => r.2)).getD base
        let va := fieldAt e 0 8 + k.index * fieldAt e 0xC 4
        let inside := g.lrec.tagBase ≤ tag % 64 && tag % 64 < g.lrec.tagBase + g.lrec.tagCount
        if k.stage < fieldAt e 8 2 || k.loc != .resident || j.wait != .no then (false, s)
        else if !inside then (true, s.schedSkip t j 0x34 none)
        else if s.tagOf t (tag % 64) == .busy then (false, s)
        else if entryBad e then (true, s.schedSkip t j 0x35 none)
        else
          let go := s.jobGo j 0 va .read
          match go with
          | .fail c => (true, s.schedSkip t j c (some va))
          | .fault _ _ | .lease _ _ =>
            let r := s.schedHold t j
            (false, r.2.jobStuck r.1 j va 3 .read go)
          | _ =>
            if s.goPoisoned 64 go then
              (if g.lrec.replay then (false, s.killFor (stageWave t k (fieldAt e 8 2)) j.issueId) else (true, s.schedSkip t j 0x01 none))
            else
              let c := s.jobRead j 64 go
              let kind := fieldAt e 0xB 1 + 1
              let form := s.cardCauses (some g) g.part kind g.lrec.acc c
              if !(form.isEmpty && (s.areaCauses k.core g.part k.start g.lrec.bytes c).isEmpty) then
                (true, (s.jobTouch base 0 va .read).schedSkip t j 0x35 none)
              else (true, ((s.schedNext t).jobTouch base 0 va .read).acceptJob { base with card := c })

/-- Issues the entries of a team's copy schedule that can be issued, in order. -/
def schedule (s : State) (t : Nat) : Nat → State
  | 0 => s
  | n + 1 => match s.schedOne t with
    | (true, s) => s.schedule t n
    | (false, s) => s

end State

/-- SCHEDULE_ENTRY_ISSUE (R188): while the device runs, and after the end of a relock of the team's hob (R14). -/
def execScheduleEntryIssue (team : Nat) (s : State) : Host.Outcome State Fault Refusal :=
  match Tbl.find s.teams team with
  | none => .next s
  | some k =>
    if !s.running then .next s
    else if s.asleep k.core then .next (s.atRelockEnd k.core (.scheduleEntryIssue team))
    else .next (s.schedule team 257)

/-- SCHADV (R336): the stage rises, then the entries that it makes issuable are issued; the cause of a bad one is taken after it. -/
def execSchadv (k : BitVec 13) (s : State) : Host.Outcome State Fault Refusal :=
  uniStep {} (fun s _ w =>
    if k == 0 then .done s
    else
      let s := s.updTeam w.team (fun t =>
        let n := min (t.stage + k.toNat) (2 ^ 32 - 1)
        { t with stage := n, stageBy := if n == t.stage then t.stageBy else t.stageBy ++ [(n, w.w)] })
      .done (s.schedule w.team 257)) s

/-! ## Collectives (R337 to R340, R270) -/

/-- The format of a floating-point DTYPE. -/
def dtypeFmt : Nat → FFmt
  | 0 => .f32
  | 1 => .f64
  | 2 => .bf16
  | _ => .f16

/-- One node of the tree of R270: the combination of two elements of a DTYPE. -/
def collPair (red ty : Nat) (x y : Nat) : Nat :=
  let w := 8 * dtypeBytes ty
  let f := dtypeFmt ty
  if 4 ≤ ty then
    (match red with
      | 0 => (x + y) % 2 ^ w
      | 1 => if signedOf w x < signedOf w y then y else x
      | _ => if signedOf w y < signedOf w x then y else x)
  else
    match red with
    | 0 => (f.add .rne (f.decode x) (f.decode y)).1
    | 1 => (f.minMax true x y).1
    | _ => (f.minMax false x y).1

/-- tree(lo, n) of R270 on the list of contributions from lo on; `fuel` is at least n. -/
def collTree (red ty : Nat) : Nat → List Nat → Nat
  | 0, l => l.headD 0
  | fuel + 1, l =>
    if l.length ≤ 1 then l.headD 0
    else
      let h := 2 ^ (Nat.log2 (l.length - 1))
      collPair red ty (collTree red ty fuel (l.take h)) (collTree red ty fuel (l.drop h))

/-- The reduction of one element over all ranks (R339). -/
def collReduce (red ty : Nat) (l : List Nat) : Nat :=
  if red == 3 then (l.foldl (fun (c : Cell) x => c.add ((dtypeFmt ty).decode x)) ⟨0, 0, 0⟩).read (dtypeFmt ty)
  else collTree red ty l.length l

/-- Element `i` of a buffer. -/
def collElem (ty : Nat) (bs : List Byte) (i : Nat) : Nat := fieldAt bs (dtypeBytes ty * i) (dtypeBytes ty)

/-- Elements `from` to `from + n` of the reduction of all buffers, as bytes. -/
def collSlice (red ty : Nat) (bufs : List (List Byte)) (lo n : Nat) : List Byte :=
  (List.range n).flatMap (fun i => natBytes (dtypeBytes ty) (collReduce red ty (bufs.map (fun b => collElem ty b (lo + i)))))

/-- What rank r's receive buffer gets (R339); none where nothing is written. -/
def collResult (c : List Byte) (n r : Nat) (bufs : List (List Byte)) : Option (List Byte) :=
  let el := Card.collElems c
  let red := Card.collRed c
  let ty := Card.collType c
  match Card.collOp c with
  | 0 => some (collSlice red ty bufs 0 el)
  | 1 => some (collSlice red ty bufs (el / n * r) (el / n))
  | 2 => some bufs.flatten
  | 3 => some (bufs.getD (Card.collRoot c) [])
  | _ => if r == Card.collRoot c then some (collSlice red ty bufs 0 el) else none

/-- COLL (R338): checked and issued as CPY is; the job joins the next round of its group, the lowest that a cancelled COLL has left before a new one
(R339); it is over at once where the group has one rank. -/
def State.acceptColl (s : State) (j : Job) : State :=
  let g := Card.collGroup j.card
  let left := leastBy id (((s.part j.part).freeRounds.filter (fun x => x.1 == g)).map (fun x => x.2))
  let r := left.getD (Tbl.getD (s.part j.part).rounds g 0)
  let s := s.updPart j.part (fun p => if left.isSome then { p with freeRounds := p.freeRounds.erase (g, r) }
    else { p with rounds := Tbl.put p.rounds g (r + 1) })
  let e := s.groupEntry j.part g
  let id := s.nextId
  let s := s.acceptJob { j with round := r }
  if (s.membersOf e).any (s.memberLost e) || (e.eth && s.eth.down.length == 2) then s.jobCause id 0x01 none
  else if e.nranks == 1 then s.soon (.collRoundComplete id true [])
  else s

def execColl (tag : Tag) (a : SReg) (s : State) : Host.Outcome State Fault Refusal := uniStep {} (engineRes 5 tag.val a.val State.acceptColl) s

namespace State

/-- The pieces of an area of a job, line by line. -/
def areaPieces (a : Area) : List Piece := piecesFrom a a a.size 0 a.size

/-- What keeps a job from an area. -/
def areaStuck (s : State) (j : Job) (a : Area) (kind : Nat) (right : Right) : Option (Nat × Nat × Right × JobGo) :=
  (areaPieces a).findSome? (fun p =>
    let g := s.jobGo j a.space p.src right
    if g.stuck then some (p.src, kind, right, g) else none)

/-- The bytes of an area. -/
def areaRead (s : State) (j : Job) (a : Area) : List Byte := (areaPieces a).flatMap (fun p => s.jobRead j p.n (s.jobGo j a.space p.src .read))

/-- The reads of an area leave their translations and their lines (R183, R191). -/
def areaTouch (s : State) (j : Job) (a : Area) : State := (areaPieces a).foldl (fun s p => s.jobTouch j a.space p.src .read) s

/-- Writes bytes to an area. -/
def areaWrite (s : State) (id : Nat) (j : Job) (a : Area) (bs : List Byte) : State :=
  ((areaPieces a).foldl (fun (r : State × List Byte) p =>
    ((r.1.jobTouch j a.space p.src .write).jobWrite id j p.src (r.2.take p.n) (r.1.jobGo j a.space p.src .write), r.2.drop p.n)) (s, bs)).1

end State

/-- The Ethernet port over which the members of a group exchange in a class: the lowest that is up and whose traffic class is not stopped (R75, LE 81). -/
def State.collPort (s : State) (cls : Cls) : Option Nat :=
  [0, 1].find? (fun p => !s.eth.down.contains p && !s.eth.paused.contains (p, s.trafficClass cls))

/-- The members of a group can exchange now: over a port, or over the fabric while its ports are enabled and no bucket is held (R49, R65). -/
def State.collOpen (s : State) (cls : Cls) (e : GroupEntry) : Bool :=
  e.nranks ≤ 1 || (if e.eth then (s.collPort cls).isSome else s.joined && s.fab.heldBuckets.isEmpty)

/-- The place in the staging area of another member to which data goes: that of its place in this chip's own, which gives it its plane (R52,
LE 81). -/
def GroupEntry.stagePa (e : GroupEntry) (off : Nat) : Nat := e.stage + 65536 * e.rank + off % 65536

/-- This chip's contribution to a round goes to every other member in the group's class: over the fabric in WRITE packets of at most 256 bytes
(R51, R55, R62, R337), over Ethernet in packets of at most 4,096 bytes in the class's traffic class (R74, R75). -/
def State.sendColl (s : State) (j : Job) (e : GroupEntry) (mine : List Byte) : State :=
  let g := Card.collGroup j.card
  let size := if e.eth then 4096 else 256
  ((s.membersOf e).filter (· != s.chipId)).foldl (fun s c =>
    (List.range ((mine.length + size - 1) / size)).foldl (fun s i =>
      let data := (mine.drop (size * i)).take size
      if e.eth then s.emit (.collEth ((s.collPort j.cls).getD 0) c j.part g j.round e.rank (size * i) data (s.trafficClass j.cls))
      else s.sendMember (State.jobAgent j) c (e.stagePa (size * i)) data (.data g j.round e.rank (size * i))) s) s

/-- A wave's arrival in a COLLW goes to every other member, over the fabric in a WRITE without a payload (R62, R340). -/
def State.sendArrival (s : State) (wid g : Nat) (e : GroupEntry) : State :=
  let ag := s.agentOf wid
  ((s.membersOf e).filter (· != s.chipId)).foldl (fun s c =>
    if e.eth then s.emit (.collArrive ((s.collPort ag.cls).getD 0) c ag.part ag.cls g)
    else s.sendMember ag c (e.stagePa 0) [] (.arrive g)) s

/-- A round of a collective on this chip: it sends its contribution and takes those of the other ranks, given in rank order (its own
place is not looked at), and its result is written. -/
def State.collRound (s : State) (id : Nat) (j : Job) (sends : List (List Byte)) : State :=
  let c := j.card
  let e := s.groupEntry j.part (Card.collGroup c)
  let src := (Card.region c 0).area (Card.count c)
  let dst := (Card.region c 1).area (Card.count c)
  let again := Instr.collRoundComplete id true sends
  match s.areaStuck j src 3 .read with
  | some x => (s.jobStuck id j x.1 x.2.1 x.2.2.1 x.2.2.2).soon again
  | none =>
    if (State.areaPieces src).any (fun p => s.goPoisoned p.n (s.jobGo j src.space p.src .read)) then s.jobPoison id
    else
      let mine := s.areaRead j src
      let bufs := (List.range e.nranks).map (fun i => if i == e.rank then mine else sends.getD i [])
      match collResult c e.nranks e.rank bufs with
      | none => ((s.areaTouch j src).sendColl j e mine).jobDone id
      | some out =>
        match s.areaStuck j dst 4 .write with
        | some x => (s.jobStuck id j x.1 x.2.1 x.2.2.1 x.2.2.2).soon again
        | none => (((s.areaTouch j src).sendColl j e mine).areaWrite id j dst out).jobDone id

/-- COLL_ROUND_COMPLETE (R339): the members' cards agree, and the round's result is written; else every member's job ends with
FOOTPRINT. -/
def execCollRoundComplete (job : Nat) (agree : Bool) (sends : List (List Byte)) (s : State) : Host.Outcome State Fault Refusal :=
  match Tbl.find s.jobs job with
  | none => .next s
  | some j =>
    if Card.kind j.card != 5 || !s.running then .next s
    else if !agree then .next (s.jobCause job 0x35 none)
    else if !s.jobActs j || s.jobHeld j || !s.collOpen j.cls (s.groupEntry j.part (Card.collGroup j.card)) then
      .next (s.soon (.collRoundComplete job agree sends))
    else .next (s.collRound job j sends)

/-- The number of rounds of a group that have ended at this chip. -/
def Part.collEnded (p : Part) (g : Nat) : Nat := Tbl.getD p.collw (256 + g) 0

/-- A wave passes its COLLW: the wake is an acquire at system scope. -/
def State.passCollw (s : State) (wid : Nat) (w : Wave) : State := s.acquire wid .system w.rstamp

/-- COLLW (R340): one arrival for this chip, then the wait for its round; an arrival already made is not repeated (R225). -/
def collwRes (g : Nat) (s : State) (wid : Nat) (w : Wave) : UniRes :=
  let p := s.partOf wid
  let e := s.groupEntry p g
  let parked := fun (s : State) => UniRes.stay (s.parked wid .collw)
  if !e.v then .trap 0x32 none
  else if (s.membersOf e).any (s.memberLost e) then .trap 0x01 none
  else
    match w.collwAt with
    | some (g', n, pc) =>
      if g' == g && pc == w.at_ then
        (if n ≤ (s.part p).collEnded g then .done ((s.updWave wid (fun w => { w with collwAt := none })).passCollw wid w) else parked s)
      else arrive p e parked
    | none => arrive p e parked
where
  /-- A new arrival, which waits until it can be sent. -/
  arrive (p : Nat) (e : GroupEntry) (parked : State → UniRes) : UniRes :=
    if !s.collOpen (s.clsOf wid) e then .wait s wid .retry
    else .released s wid .system (fun s =>
      let n := Tbl.getD (s.part p).collw g 0 + 1
      let s := s.updPart p (fun x => { x with collw := Tbl.put x.collw g n })
      let s := s.updWave wid (fun x => { x with collwAt := some (g, n, w.at_) })
      let s := s.sendArrival wid g e
      parked (if e.nranks == 1 then s.soon (.collwRelease (Fin.ofNat 8 p) (Fin.ofNat 256 g)) else s))

def execCollw (g : Fin 256) (s : State) : Host.Outcome State Fault Refusal := uniStep {} (collwRes g.val) s

/-- Lets a wave pass that is parked in a COLLW of a group's round that has ended. -/
def State.releaseCollw (s : State) (p g n wid : Nat) : State :=
  match Tbl.find s.waves wid with
  | none => s
  | some w =>
    match w.collwAt with
    | none => s
    | some (g', k, _) =>
      if g' == g && k == n && w.park == .collw && s.partOf wid == p then
        ((s.updWave wid (fun w => { w.pass 4 with park := .no, collwAt := none })).passCollw wid w).redrain wid
      else s

/-- The end of a round of a group reaches a wave that arrived in it (R15). -/
def State.tellCollw (s : State) (p g n wid : Nat) : State :=
  if s.partOf wid == p && (Tbl.find s.waves wid).any (fun w => w.collwAt.any (fun x => x.1 == g && x.2.1 == n)) then
    s.comes (s.coreOf wid) (.collw p g n wid) (fun s => s.releaseCollw p g n wid)
  else s

/-- COLLW_RELEASE (R340): the next round of the group ends, once this chip has arrived in it; not while the device is halted (R44). -/
def execCollwRelease (p : Fin 8) (group : Fin 256) (s : State) : Host.Outcome State Fault Refusal :=
  let n := (s.part p.val).collEnded group.val + 1
  if !s.running || Tbl.getD (s.part p.val).collw group.val 0 < n then .next s
  else
    let s := s.updPart p.val (fun x => { x with collw := Tbl.put x.collw (256 + group.val) n })
    .next (s.waves.foldl (fun s e => s.tellCollw p.val group.val n e.1) s)

end Sys2Proof.Machine
end

