-- ==== Sys2Proof/Machine/Whisk.lean ====
section
/-!
DEFINITION. Whisk, the graph engine: node records and slots (R88 to R93), what Whisk reads and writes (R82, R97), record fetch, the
start and the completion of nodes, WAIT and COND, host rings (R94 to R96), the completion and the replay of launches (R101,
R103, R104, R247), the retirement of child grids (R103, R151).
-/

namespace Sys2Proof.Machine

/-! ## Node records (R89, R92) -/

namespace Node

def kind (n : List Byte) : Nat := fieldAt n 0 1
def flags (n : List Byte) : Nat := fieldAt n 1 1
def keep (n : List Byte) : Bool := bitOf (flags n) 0
def op (n : List Byte) : Nat := bitsOf (flags n) 3 1
def scope (n : List Byte) : Nat := bitsOf (flags n) 6 4
def slot (n : List Byte) : Nat := fieldAt n 2 2
def predInit (n : List Byte) : Nat := fieldAt n 4 2
def predLoop (n : List Byte) : Nat := fieldAt n 6 2
/-- The successor fields, in order; 0xFFFF is none. -/
def succs (n : List Byte) : List Nat := (List.range 8).map (fun i => fieldAt n (8 + 2 * i) 2)
/-- The first word of the payload: a record, a card, a word or a source. -/
def va (n : List Byte) : Nat := fieldAt n 0x18 8
def value (n : List Byte) : Nat := fieldAt n 0x20 8
def mask (n : List Byte) : Nat := fieldAt n 0x28 8
def first (n : List Byte) : Nat := fieldAt n 0x30 2
def last (n : List Byte) : Nat := fieldAt n 0x32 2
def count (n : List Byte) : Nat := fieldAt n 0x20 4
def ring (n : List Byte) : Nat := fieldAt n 0x24 1

/-- The payload from an offset on is zero. -/
def zeroFrom (n : List Byte) (off : Nat) : Bool := fieldAt n off (64 - off) == 0

/-- The rules of a type's payload, OP and SCOPE (R89, R92, R93), for a queue of so many slots. R89 calls OP 4 to 7 invalid and R92 bounds SCOPE; what they are
in a node of a type that has no use for them the spec does not say: they are ignored there, which is the model's choice (LE 81). -/
def payloadOk (n : List Byte) (slots : Nat) : Bool :=
  match kind n with
  | 1 => va n % 256 == 0 && zeroFrom n 0x20
  | 2 | 3 => va n % 64 == 0 && zeroFrom n 0x20
  | 4 => va n % 8 == 0 && op n < 4 && zeroFrom n 0x30
  | 5 => va n % 8 == 0 && 3 ≤ scope n && scope n ≤ 5 && zeroFrom n 0x28
  | 6 => va n % 8 == 0 && op n < 4 && first n ≤ last n && last n < slots && !(first n ≤ slot n && slot n ≤ last n) && zeroFrom n 0x34
  | 7 => 1 ≤ count n && count n ≤ 4096 && ring n ≤ 15 && zeroFrom n 0x25
  | _ => false

/-- A record that is a valid node for a queue of so many slots, but for its SLOT (R89, R97). -/
def ok (n : List Byte) (slots : Nat) : Bool :=
  !bitOf (flags n) 7 && (succs n).all (fun x => x == 0xFFFF || x < slots) && payloadOk n slots

/-- The condition of a WAIT or a COND on its word (R89). -/
def holds (n : List Byte) (w : Nat) : Bool :=
  let a := w &&& mask n
  let b := value n &&& mask n
  match op n with
  | 0 => a == b
  | 1 => a != b
  | 2 => b ≤ a
  | _ => a < b

end Node

namespace State

/-! ## When Whisk acts -/

/-- The partition of a queue runs, and its VF is a live virtual device (R34, R84). -/
def queueLives (s : State) (q : Queue) : Bool :=
  s.running && s.vdEnabled q.vf && (s.part (s.vdPart q.vf)).present && !(s.part (s.vdPart q.vf)).stopped

/-- Whisk fetches records of the queue, starts its nodes and places its teams (R86, R87, R98). -/
def whiskOn (s : State) (hq : Nat) : Bool :=
  let q := s.queue hq
  q.enabled && q.state == 1 && s.queueLives q

/-- A RUNNING node of a type goes on: while its queue is paused a WAIT and a COND hold (R87), in an error every node runs to its end
(R98). -/
def nodeRuns (s : State) (hq kind : Nat) : Bool :=
  let q := s.queue hq
  q.state != 3 && s.queueLives q && (q.enabled || q.state == 2 || !(kind == 4 || kind == 6))

/-- Records wait to be fetched: Whisk fetches the next at some time (R88, R400). -/
def kickFetch (s : State) : State :=
  s.queues.foldl (fun s e => if s.whiskOn e.1 && e.2.head != e.2.tail then s.soonOnce (.recordFetch e.1) else s) s

/-- A READY node starts within 1 µs of becoming READY (R90). -/
def startSoon (s : State) (hq k : Nat) : State :=
  if s.due (.nodeStart hq k) then s else (s.after (Config.delay s.fresh % 1001) (.nodeStart hq k)).drawn

/-- A virtual device of a partition that idles has work: a slice starts at the next reference tick (R108). -/
def gainWork (s : State) (p : Nat) : State :=
  if (s.part p).slice.cur.isSome || (s.part p).stopped || s.due (.sliceBoundary (Fin.ofNat 8 p)) then s
  else s.after 1 (.sliceBoundary (Fin.ofNat 8 p))

/-- Teams may be placed on the clusters of a partition. -/
def kickPlace (s : State) (p : Nat) : State :=
  (s.clustersOf p).foldl (fun s c => s.soonOnce (.teamPlacement (Fin.ofNat 8 c))) s

/-- What a node in a slot can do next, set going. -/
def kickSlot (s : State) (k : Nat) : State :=
  let x := s.slot k
  match x.st, x.run with
  | .ready, _ => if s.whiskOn x.hq then s.startSoon x.hq k else s
  | .running, .waiting => s.soonOnce (.waitPoll x.hq k)
  | .running, .condWait => s.soonOnce (.condRangeIdle x.hq k)
  | .running, .posted _ => s.soonOnce (.hostpostAppend x.hq k)
  | .running, .ended => s.soonOnce (.nodeComplete x.hq k)
  | .running, .job j => if (Tbl.find s.jobs j).isNone then s.soonOnce (.nodeComplete x.hq k) else s.kick j
  | _, _ => s

/-- Sets every slot of a queue going, its fetch and its launches (R86, R87). -/
def kickQueue (s : State) (hq : Nat) : State :=
  let s := (s.slots.filter (fun e => e.2.hq == hq)).foldl (fun s e => s.kickSlot e.1) s
  (s.kickFetch.kickPlace (s.vdPart (s.queue hq).vf)).gainWork (s.vdPart (s.queue hq).vf)

/-! ## What Whisk reads and writes (R82, R97) -/

end State

/-- Where an address of a node leads: HBM or host memory; nothing else serves Whisk. -/
inductive WhiskGo where
  | hbm (pa : Nat) (mirror : Bool)
  | host (a : Nat)
  | bad
  deriving DecidableEq, Repr

namespace State

/-- Where an address of an ASID of a queue leads. -/
def whiskGo (s : State) (q : Queue) (asid va : Nat) (right : Right) : WhiskGo :=
  match s.reach none (s.vdPart q.vf) asid va false right with
  | .hbm pa m => .hbm pa m
  | .host a => .host a
  | _ => .bad

/-- Bytes in an ASID of a queue, where all of them can be read. -/
def whiskRead (s : State) (q : Queue) (asid va n : Nat) : Option (List Byte) :=
  (linePieces n va n).foldl (fun acc p =>
    match acc, s.whiskGo q asid p.1 .read with
    | some bs, .hbm pa _ => some (bs ++ s.bytesAt pa p.2)
    | some bs, .host a => some (bs ++ s.hostBytes a p.2)
    | _, _ => none) (some [])

/-- The agent that a queue's Whisk is. -/
def whiskAgent (s : State) (q : Queue) : Agent :=
  { core := none, die := q.whisk, part := s.vdPart q.vf, cls := q.cls, wid := none, grid := none }

/-- An access of Whisk reaches the home L2 as a request of its queue's class (R1, R183), and so do the walks for it (R191). -/
def whiskTouch (s : State) (q : Queue) (asid va n : Nat) (right : Right) : State :=
  (linePieces n va n).foldl (fun s p =>
    let s := s.walked (s.vdPart q.vf) q.cls asid p.1
    match s.whiskGo q asid p.1 right with
    | .hbm pa _ => s.l2Home (s.whiskAgent q) pa 0 (right == .write)
    | _ => s) s

/-- The stamp that an acquire of Whisk reads (R213): the greatest of the lines of its bytes. -/
def whiskSaw (s : State) (q : Queue) (asid va n : Nat) : Nat × Nat :=
  (linePieces n va n).foldl (fun st p => match s.whiskGo q asid p.1 .read with
    | .hbm pa _ => stampMax st (s.stampAt pa)
    | _ => st) (0, 0)

/-- A node has seen the stamp of what its Whisk has read with an acquire (R213). -/
def nodeSaw (s : State) (k : Nat) (st : Nat × Nat) : State := s.updSlot k (fun x => { x with stamp := stampMax x.stamp st })

/-- What a release of Whisk waits for is over (R73, R91, R103, R202): the requests of the partition to other chips that it made before the release
began are acknowledged, at whatever scope, for every agent reads them at their homes (R206); and no duplicate that a partner cut off cannot
acknowledge keeps mirroring waiting (R68). -/
def whiskQuiet (s : State) (p ord : Nat) : Bool :=
  !(s.fab.unacked.any (fun u => u.part == p && u.ord < ord))
    && (fieldOf (s.part p).mirror 30 30 == 1 || !(s.fab.mirrorWait.any (fun m => m.1 == p && m.2.2.1 == 2 ^ 32)))

/-- The stamp of a release of a queue's Whisk (R213): what its die has sent, and what the agents whose actions it releases have seen. -/
def whiskStamp (s : State) (q : Queue) (seen : Nat × Nat) : Nat × Nat := if q.whisk == 0 then (s.sent.1, seen.2) else (seen.1, s.sent.2)

/-- A 64-bit store of Whisk at a release, where it can be performed (R92, R103): at device scope or wider it leaves a stamp. -/
def whiskStore (s : State) (q : Queue) (asid va scope : Nat) (st : Nat × Nat) (x : Nat) : Option State :=
  match s.whiskGo q asid va .write with
  | .hbm pa m =>
    let s := (s.whiskTouch q asid va 8 .write).writeHome (s.whiskAgent q) m pa (natBytes 8 x)
    some (if 4 ≤ scope then s.stampLine pa st false else s)
  | .host a => some (s.putHost a (natBytes 8 x))
  | .bad => none

/-! ## Slots (R90) -/

/-- A slot becomes READY, after those that are READY already. -/
def makeReady (s : State) (k : Nat) : State :=
  let s := s.updSlot k (fun x => { x with st := .ready, ctr := 0, run := .none, order := s.nextId, runs := 0 })
  let s := { s with nextId := s.nextId + 1 }
  let s := s.kickSlot k
  if Node.kind (s.slot k).node == 1 then s.gainWork (s.vdPart (s.queue (s.slot k).hq).vf) else s

/-- A node is in its slot with a counter: READY at 0, else PENDING. -/
def armSlot (s : State) (k c : Nat) : State :=
  if c == 0 then s.makeReady k else s.updSlot k (fun x => { x with st := .pending, ctr := c, run := .none })

/-- A decrement of a slot, by a completion in a queue (NODE_DECREMENT, R90). BAD_COUNT names the slot that is decremented, which goes on if it is RUNNING,
and the node that completes decrements its other successors (LE 83). -/
def decrement (s : State) (hq k : Nat) : State :=
  let x := s.slot k
  match x.st with
  | .free | .done => s.updSlot k (fun x => { x with ctr := (x.ctr + 1) % 65536 })
  | .pending => s.armSlot k (x.ctr - 1)
  | .ready | .running => s.queueError hq 0x03 (k - (s.queue hq).slotBase)

/-- A slot has changed: fetches that stall and CONDs that wait for their range look again. -/
def slotChanged (s : State) (hq : Nat) : State :=
  let s := s.slots.foldl (fun s e => if e.2.st == .running && e.2.run == .condWait then s.soonOnce (.condRangeIdle e.2.hq e.1) else s) s
  s.kickFetch.kickDrain hq

/-- The work of a RUNNING node ends. -/
def nodeEnded (s : State) (hq k : Nat) : State := (s.updSlot k (fun x => { x with run := .ended })).soonOnce (.nodeComplete hq k)

/-- Loads a fetched record into its slot (NODE_LOAD, R90). -/
def loadNode (s : State) (hq k : Nat) (n : List Byte) : State :=
  let early := (s.slot k).ctr
  if Node.predInit n < early then s.queueError hq 0x03 (k - (s.queue hq).slotBase)
  else (s.updSlot k (fun x => { x with node := n, hq := hq })).armSlot k (Node.predInit n - early)

end State

/-- RECORD_FETCH (R88 to R90): the next record, at an acquire at system scope; a slot that is not FREE or DONE stalls the fetch. -/
def execRecordFetch (hq : Nat) (s : State) : Host.Outcome State Fault Refusal :=
  let q := s.queue hq
  if !s.whiskOn hq || q.head == q.tail then .next s
  else
    let va := q.base.toNat + 64 * (q.head.toNat % q.ringSize)
    match s.whiskRead q q.asid va 64 with
    | none => .next (s.queueError hq 0x05 0)
    | some n =>
      let k := q.slotBase + Node.slot n
      let st := (s.slot k).st
      let inside := Node.slot n < q.slotCount
      if inside && (st == .pending || st == .ready || st == .running) then .next s
      else
        let st := s.whiskSaw q q.asid va 64
        let s := (s.whiskTouch q q.asid va 64 .read).updQueue hq (fun q => { q with head := q.head + 1 })
        if !inside then .next (s.queueError hq 0x01 0)
        else if !(Node.ok n q.slotCount) then .next (s.nodeFail hq k 0x01)
        else .next (((s.nodeSaw k st).loadNode hq k n).slotChanged hq)

/-- NODE_COMPLETE (R91): the node's work has ended, and its release at system scope is over; its slot is DONE or FREE, then each successor is decremented in turn, and takes the stamp of the release (R213). -/
def execNodeComplete (hq slot : Nat) (s : State) : Host.Outcome State Fault Refusal :=
  let x := s.slot slot
  let ended := match x.run with
    | .ended => true
    | .job j => (Tbl.find s.jobs j).isNone
    | _ => false
  if x.st != .running || x.hq != hq || !ended || !s.nodeRuns hq 1 then .next s
  else if !s.whiskQuiet (s.vdPart (s.queue hq).vf) (x.fence.getD s.nextId) then
    .next ((s.updSlot slot (fun x => { x with fence := some (x.fence.getD s.nextId) })).soonOnce (.nodeComplete hq slot))
  else
    let st := s.whiskStamp (s.queue hq) x.stamp
    let s := s.updSlot slot (fun x => if Node.keep x.node then { x with st := .done, ctr := 0, run := .none, runs := 0, fence := none, stamp := (0, 0) } else .reset)
    let s := (Node.succs x.node).foldl (fun s r => if r == 0xFFFF then s
      else (s.updSlot ((s.queue hq).slotBase + r) (fun x => { x with stamp := stampMax x.stamp st })).decrement hq ((s.queue hq).slotBase + r)) s
    .next (s.slotChanged hq)

/-! ## Launches (R101, R104) -/

/-- The entries of a copy schedule. -/
def schedEntries (bs : List Byte) (n : Nat) : List (List Byte) := (List.range n).map (fun i => (bs.drop (16 * i)).take 16)

namespace State

/-- The grid of a launch of a queue. -/
def rootGrid (s : State) (hq k : Nat) (q : Queue) (r : LaunchRec) (sched : List (List Byte)) : Grid where
  hq := hq
  slot := k
  parent := none
  root := s.nextId
  depth := 0
  lrec := r
  vf := q.vf
  part := s.vdPart q.vf
  domain := s.domainFor (s.vdPart q.vf) q.asid
  asid := q.asid
  sched := sched
  next := 0
  returned := []
  retired := 0
  times := []
  children := 0
  snaps := []
  unreplayable := false
  killed := false
  event := (0, 0, 0, 0, 0)
  childFail := false
  fence := none
  stamp := (s.slot k).stamp
  did := (s.slot k).stamp

/-- A LAUNCH node starts or is run again: its record is read and checked, its copy schedule copied (R101); with zero teams it completes
at once (R104). The slot is RUNNING. -/
def startLaunch (s : State) (hq k : Nat) : State :=
  let q := s.queue hq
  let s := s.updSlot k (fun x => { x with runs := x.runs + 1 })
  if fieldOf s.dev.health 11 11 == 1 then s.nodeFail hq k 0x0B
  else match s.whiskRead q q.asid (Node.va (s.slot k).node) 256 with
    | none => s.nodeFail hq k 0x05
    | some bs =>
      let s := s.whiskTouch q q.asid (Node.va (s.slot k).node) 256 .read
      let r := LaunchRec.ofBytes bs
      if !s.launchOk bs (s.vdPart q.vf) q.asid (some q.cls) then s.nodeFail hq k 0x02
      else
        match (if r.teams == 0 then some [] else s.whiskRead q q.asid r.sched (16 * r.schedN)) with
        | none => s.nodeFail hq k 0x05
        | some sch =>
          let s := (if r.teams == 0 then s else s.whiskTouch q q.asid r.sched (16 * r.schedN) .read).freshId
          let id := s.nextId
          let g := s.rootGrid hq k q r (if r.teams == 0 then [] else schedEntries sch r.schedN)
          let s := { s with nextId := id + 1, grids := Tbl.put s.grids id g }
          let s := s.updSlot k (fun x => { x with run := .grid id })
          if r.teams == 0 then s.gridCheck id else (s.kickPlace g.part).gainWork g.part

/-! ## Jobs of nodes (R92, R288) -/

/-- The job of a COPY or COLL node, on the die of the queue's Whisk. -/
def nodeJob (s : State) (hq k : Nat) (q : Queue) (c : List Byte) : Job where
  team := none
  wid := none
  node := some (hq, k)
  sched := false
  card := c
  tag := 0
  core := q.whisk * 192
  cls := q.cls
  part := s.vdPart q.vf
  asid := q.asid
  grid := none
  order := 0
  issueId := 0
  pos := 0
  read := 0
  wait := .no
  paused := false
  inRegion := false
  round := 0
  acked := 0
  chk := []
  lines := []
  absent := []
  inData := []

/-- A node's card is of the node's KIND and names no scratchpad (R92, R288). -/
def nodeCardOk (s : State) (p kind : Nat) (c : List Byte) : Bool :=
  (s.cardCauses none p kind 0 c).isEmpty && (Card.areas c).all (fun a => a.space == 0 || a.space == 3)
    && !(selfMeets (Card.areas c))

/-- A COPY or COLL node starts. -/
def startNodeJob (s : State) (hq k : Nat) : State :=
  let q := s.queue hq
  let kind := if Node.kind (s.slot k).node == 2 then 1 else 5
  match s.whiskRead q q.asid (Node.va (s.slot k).node) 64 with
  | none => s.nodeFail hq k 0x05
  | some c =>
    let s := s.whiskTouch q q.asid (Node.va (s.slot k).node) 64 .read
    if !s.nodeCardOk (s.vdPart q.vf) kind c then s.nodeFail hq k 0x07
    else
      let s := s.updSlot k (fun x => { x with run := .job s.nextId })
      if kind == 1 then s.acceptJob (s.nodeJob hq k q c) else s.acceptColl (s.nodeJob hq k q c)

/-! ## WAIT, SIGNAL, COND (R92, R93) -/

/-- The word of a WAIT or COND node. -/
def nodeWord (s : State) (hq k : Nat) : Option Nat :=
  (s.whiskRead (s.queue hq) (s.queue hq).asid (Node.va (s.slot k).node) 8).map bytesNat

/-- The read of that word, at an acquire of device or system scope: the node has seen the word's stamp (R213). -/
def nodeRead (s : State) (hq k : Nat) : State :=
  let q := s.queue hq
  let va := Node.va (s.slot k).node
  (s.whiskTouch q q.asid va 8 .read).nodeSaw k (s.whiskSaw q q.asid va 8)

/-- A WAIT reads its word; while OP fails it reads again at intervals of at most 1 µs. -/
def runWait (s : State) (hq k : Nat) : State :=
  match s.nodeWord hq k with
  | none => s.nodeFail hq k 0x08
  | some w =>
    if Node.holds (s.slot k).node w then (s.nodeRead hq k).nodeEnded hq k
    else
      let s := (s.nodeRead hq k).updSlot k (fun x => { x with run := .waiting })
      (s.after (1 + Config.delay s.fresh % 1000) (.waitPoll hq k)).drawn

/-- A SIGNAL stores its value at its scope, which is the system's in the host window, once what its release waits for is over. -/
def runSignal (s : State) (hq k : Nat) : State :=
  let q := s.queue hq
  let n := (s.slot k).node
  if (match s.whiskGo q q.asid (Node.va n) .write with | .host _ => Node.scope n != 5 | _ => false) then s.nodeFail hq k 0x01
  else if !s.whiskQuiet (s.vdPart q.vf) ((s.slot k).fence.getD s.nextId) then
    let s := s.updSlot k (fun x => { x with run := .waiting, fence := some (x.fence.getD s.nextId) })
    s.soonOnce (.waitPoll hq k)
  else match s.whiskStore q q.asid (Node.va n) (Node.scope n) (s.whiskStamp q (s.slot k).stamp) (Node.value n) with
    | none => s.nodeFail hq k 0x08
    | some s => (s.updSlot k (fun x => { x with fence := none })).nodeEnded hq k

/-- A COND reads its word: it falls through, or waits for its range (COND_EVALUATE). -/
def runCond (s : State) (hq k : Nat) : State :=
  match s.nodeWord hq k with
  | none => s.nodeFail hq k 0x08
  | some w =>
    let s := s.nodeRead hq k
    if Node.holds (s.slot k).node w then (s.updSlot k (fun x => { x with run := .condWait })).soonOnce (.condRangeIdle hq k)
    else s.nodeEnded hq k

/-- Re-arms a slot (R93): early decrements of a DONE slot count; a negative count is an error and leaves the slot. -/
def rearm (s : State) (hq k : Nat) : State :=
  let x := s.slot k
  let early := if x.st == .done then x.ctr else 0
  if Node.predLoop x.node < early then s.queueError hq 0x03 (k - (s.queue hq).slotBase)
  else s.armSlot k (Node.predLoop x.node - early)

end State

/-- WAIT_POLL (R92): a WAIT reads again; a SIGNAL whose release waits looks again. -/
def execWaitPoll (hq slot : Nat) (s : State) : Host.Outcome State Fault Refusal :=
  let x := s.slot slot
  if x.st != .running || x.hq != hq || x.run != .waiting || !s.nodeRuns hq (Node.kind x.node) then .next s
  else .next (if Node.kind x.node == 5 then s.runSignal hq slot else s.runWait hq slot)

/-- COND_RANGE_IDLE (R93): no slot of the range is READY or RUNNING; the range is re-armed, then the COND. -/
def execCondRangeIdle (hq slot : Nat) (s : State) : Host.Outcome State Fault Refusal :=
  let x := s.slot slot
  let base := (s.queue hq).slotBase
  let range := (List.range (Node.last x.node + 1 - Node.first x.node)).map (base + Node.first x.node + ·)
  if x.st != .running || x.hq != hq || x.run != .condWait || !s.nodeRuns hq 6
      || range.any (fun r => (s.slot r).st == .ready || (s.slot r).st == .running) then .next s
  else
    let s := range.foldl (fun s r => if (s.slot r).st == .pending || (s.slot r).st == .done then s.rearm hq r else s) s
    .next ((s.rearm hq slot).slotChanged hq)

/-! ## Host rings (R94 to R96) -/

namespace Ring

def enabled (r : Ring) : Bool := fieldOf r.ctl 31 31 == 1
/-- The records that the ring holds. -/
def size (r : Ring) : Nat := 16 * 2 ^ fieldOf r.ctl 30 27
def vec (r : Ring) : Nat := fieldOf r.ctl 26 21
/-- At most one interrupt for so many records. -/
def every (r : Ring) : Nat := fieldOf r.ctl 20 13 + 1
/-- The ticks of the timer; 0 is off. -/
def timer (r : Ring) : Nat := fieldOf r.ctl 12 3 * 1000
/-- The records for which the ring has room. -/
def room (r : Ring) : Nat := r.size - (r.prod - r.cons).toNat

/-- A record counts towards the next interrupt (R96): whether it raises one, and the ring. -/
def counted (now : Nat) (r : Ring) : Bool × Ring :=
  let r := { r with t0 := if r.pend == 0 then now else r.t0, pend := r.pend + 1 }
  if r.every ≤ r.pend then (true, { r with pend := 0 }) else (false, r)

end Ring

namespace State

/-- Sets the timer of a ring with records that no interrupt has told of, anew (R96). -/
def armRing (s : State) (vf k : Nat) : State :=
  let r := s.ring vf k
  let i := Instr.ringTimer (Fin.ofNat 32 vf) (Fin.ofNat 16 k)
  let s := s.withdraw i
  if r.pend == 0 || r.timer == 0 then s else s.atTick (max s.reft (r.t0 + r.timer)) i

/-- The timer of a ring up to now (R96): where T has passed since the first record that no interrupt has told of, it raises the vector. -/
def ringTick (s : State) (vf k : Nat) : State :=
  let r := s.ring vf k
  if r.pend != 0 && r.timer != 0 && r.timer ≤ s.reft - r.t0 then
    (s.updRing vf k (fun r => { r with pend := 0 })).raiseIrq (.vf (Fin.ofNat 32 vf)) r.vec
  else s

/-- Writes one record to a ring, which has room (RING_INTERRUPT, R95, R96): whether an interrupt is due. -/
def appendRecord (s : State) (vf k : Nat) (bs : List Byte) : Bool × State :=
  let r := s.ring vf k
  let s := s.putHost (r.base.toNat / 4096 * 4096 + 64 * (r.prod.toNat % r.size)) bs
  let c := Ring.counted s.reft { r with prod := r.prod + 1 }
  (c.1, s.updRing vf k (fun _ => c.2))

/-- Records of a HOSTPOST written without a wait: how many, whether the source could be read, the interrupts due, the state; `m` records
at most, from record `i` on. -/
def appendGroup (s : State) (q : Queue) (n : List Byte) : Nat → Nat → Nat × Bool × Nat × State
  | 0, i => (i, true, 0, s)
  | m + 1, i =>
    if (s.ring q.vf (Node.ring n)).room == 0 then (i, true, 0, s)
    else match s.whiskRead q q.asid (Node.va n + 64 * i) 64 with
      | none => (i, false, 0, s)
      | some bs =>
        let a := (s.whiskTouch q q.asid (Node.va n + 64 * i) 64 .read).appendRecord q.vf (Node.ring n) bs
        let r := a.2.appendGroup q n m (i + 1)
        (r.1, r.2.1, bnat a.1 + r.2.2.1, r.2.2.2)

/-- The HOSTPOST nodes of a ring that run or are to run: slot, order, whether it has begun. -/
def postersOf (s : State) (vf ring : Nat) : List (Nat × Nat × Bool) :=
  (s.slots.filter (fun e => Node.kind e.2.node == 7 && Node.ring e.2.node == ring && (s.queue e.2.hq).vf == vf
    && ((e.2.st == .running && (match e.2.run with | .posted _ => true | _ => false)) || (e.2.st == .ready && s.whiskOn e.2.hq)))).map
    (fun e => (e.1, e.2.order, match e.2.run with | .posted n => 0 < n | _ => false))

/-- The node whose turn it is on a ring (R95): one that has begun, else the one that became READY first. -/
def posterOn (s : State) (vf ring : Nat) : Option Nat :=
  let l := s.postersOf vf ring
  (match l.find? (fun (e : Nat × Nat × Bool) => e.2.2) with
    | some e => some e
    | none => leastBy (fun (e : Nat × Nat × Bool) => e.2.1) l).map (fun (e : Nat × Nat × Bool) => e.1)

/-- The HOSTPOST nodes of a ring look again. -/
def kickRing (s : State) (vf ring : Nat) : State :=
  (s.postersOf vf ring).foldl (fun s e => s.kickSlot e.1) s

/-- A HOSTPOST node starts (R95). -/
def startPost (s : State) (hq k : Nat) : State :=
  let q := s.queue hq
  if !(s.ring q.vf (Node.ring (s.slot k).node)).enabled then s.nodeFail hq k 0x0A
  else (s.updSlot k (fun x => { x with run := .posted 0 })).soonOnce (.hostpostAppend hq k)

/-- A HOSTPOST node whose turn it is writes records while its ring has room, then the producer index, then the interrupts due (R95,
R96); an interrupt of the timer that is due by now comes first. -/
def post (s : State) (hq k i : Nat) : State :=
  let q := s.queue hq
  let n := (s.slot k).node
  let ring := Node.ring n
  if !(s.ring q.vf ring).enabled then (s.nodeFail hq k 0x0A).kickRing q.vf ring
  else
    let s := s.ringTick q.vf ring
    let r := s.appendGroup q n (Node.count n - i) i
    let s := r.2.2.2.updSlot k (fun x => { x with run := .posted r.1 })
    let g := s.ring q.vf ring
    let s := if r.1 == i then s else s.putHost (g.paddr.toNat / 8 * 8) (natBytes 8 g.prod.toNat)
    let s := (List.range r.2.2.1).foldl (fun s _ => s.raiseIrq (.vf (Fin.ofNat 32 q.vf)) g.vec) s
    let s := s.armRing q.vf ring
    if !r.2.1 then (s.nodeFail hq k 0x08).kickRing q.vf ring
    else if Node.count n ≤ r.1 then (s.nodeEnded hq k).kickRing q.vf ring
    else s

end State

/-- HOSTPOST_APPEND (R95). -/
def execHostpostAppend (hq slot : Nat) (s : State) : Host.Outcome State Fault Refusal :=
  let x := s.slot slot
  match x.run with
  | .posted i =>
    if x.st != .running || x.hq != hq || !s.nodeRuns hq 7 || s.posterOn (s.queue hq).vf (Node.ring x.node) != some slot then .next s
    else .next (s.post hq slot i)
  | _ => .next s

/-- RING_TIMER (R96): T after the first record that no interrupt has told of. -/
def execRingTimer (vf : Fin 32) (k : Fin 16) (s : State) : Host.Outcome State Fault Refusal :=
  let r := s.ring vf.val k.val
  if r.pend == 0 || r.timer == 0 then .next s
  else if r.timer ≤ s.reft - r.t0 then .next (s.ringTick vf.val k.val)
  else .next (s.armRing vf.val k.val)

/-! ## The start of a node (R90) -/

/-- NODE_START: a READY node of a running queue becomes RUNNING and does its work. -/
def execNodeStart (hq slot : Nat) (s : State) : Host.Outcome State Fault Refusal :=
  let x := s.slot slot
  if x.st != .ready || x.hq != hq || !s.whiskOn hq then .next s
  else
    let s := s.updSlot slot (fun x => { x with st := .running, run := .none })
    .next (match Node.kind x.node with
      | 1 => s.startLaunch hq slot
      | 2 | 3 => s.startNodeJob hq slot
      | 4 => s.runWait hq slot
      | 5 => s.runSignal hq slot
      | 6 => s.runCond hq slot
      | _ => s.startPost hq slot)

/-! ## The end of launches and child grids (R103, R151, R247) -/

/-- The release at a grid's completion is at system scope (R103): CSCOPE says so, or no completion word is stored. -/
def LaunchRec.doneSystem (r : LaunchRec) : Bool := r.cword == 0 || r.cscope == 5

namespace State

/-- Nothing of a grid is left: every team has retired, with its jobs, and every child grid. -/
def gridOver (s : State) (g : Nat) (k : Grid) : Bool :=
  !k.killed && k.lrec.teams ≤ k.next && k.returned.isEmpty && k.children == 0 && !(s.teams.any (fun e => e.2.grid == g))

/-- What the release at a grid's completion waits for is over (R103). -/
def doneQuiet (s : State) (k : Grid) : Bool := s.whiskQuiet k.part (k.fence.getD s.nextId)

/-- The release at a grid's completion has begun. -/
def doneLater (s : State) (g : Nat) (row : Instr) : State :=
  (s.updGrid g (fun k => { k with fence := some (k.fence.getD s.nextId) })).soonOnce row

/-- The completion store of a grid; none where it fails. -/
def completion (s : State) (k : Grid) : Option State :=
  if k.lrec.cword == 0 then some s
  else s.whiskStore (s.queue k.hq) k.asid k.lrec.cword k.lrec.cscope k.did k.lrec.cvalue.toNat

/-- A grid has retired: with its team, where that is still there, the waves parked in LJOIN go on once it was the last (R374), and the
grid above may retire. -/
def childGone (s : State) (g : Nat) (k : Grid) : State :=
  match k.parent with
  | none => s
  | some p =>
    let s := s.updGrid p (fun x => { x with children := x.children - 1, did := stampMax x.did k.did })
    let s := match s.teams.find? (fun e => e.2.children.contains g) with
      | none => s
      | some e =>
        let s := s.updTeam e.1 (fun t => { t with children := t.children.filter (· != g), joinStamp := stampMax t.joinStamp k.did })
        match Tbl.find s.teams e.1 with
        | none => s
        | some t =>
          if t.children.isEmpty then
            (s.wavesOf e.1).foldl (fun (s : State) (x : Nat × Wave) => if x.2.park == Park.ljoin then
              s.comes t.core (.ljoin x.1 t.joinStamp) (fun s => s.passLjoin x.1 t.joinStamp) else s) s
          else s
    s.gridCheck p

end State

/-- LAUNCH_COMPLETE (R103): the completion word, then the node's work has ended. A store that fails, of this launch or of a child grid
below it, fails the node. -/
def execLaunchComplete (grid : Nat) (s : State) : Host.Outcome State Fault Refusal :=
  match Tbl.find s.grids grid with
  | none => .next s
  | some k =>
    if k.parent.isSome || !s.gridOver grid k || !s.running then .next s
    else if !s.doneQuiet k then .next (s.doneLater grid (.launchComplete grid))
    else
      match (if k.childFail then none else s.completion k) with
      | none => .next (((s.nodeFail k.hq k.slot 0x08).forgetGrid grid).slotChanged k.hq)
      | some s => .next ((((s.forgetGrid grid).updSlot k.slot (fun x => { x with stamp := stampMax x.stamp k.did })).nodeEnded k.hq k.slot).slotChanged k.hq)

/-- CHILD_GRID_RETIRE (R103, R105, R151): its completion word, where it fails noted with the launch at the root of its tree. -/
def execChildGridRetire (grid : Nat) (s : State) : Host.Outcome State Fault Refusal :=
  match Tbl.find s.grids grid with
  | none => .next s
  | some k =>
    if k.parent.isNone || !s.gridOver grid k || !s.running then .next s
    else if !s.doneQuiet k then .next (s.doneLater grid (.childGridRetire grid))
    else
      let s := match s.completion k with
        | some s => s
        | none => s.updGrid k.root (fun r => { r with childFail := true })
      .next ((s.forgetGrid grid).childGone grid k)

/-- A page that a launch has copied goes back, to its mirror too (R72, R247). -/
def State.restorePage (s : State) (k : Grid) (e : Nat × Nat × Bool) : State :=
  let s := s.copyRange e.2.1 (e.1 * 65536) 65536
  if e.2.2 then s.duplicatePage (s.whiskAgent (s.queue k.hq)) (e.1 * 65536) else s

/-- LAUNCH_REPLAY (R247): the copied pages go back and the node runs again, at most three times in all; else its node fails. -/
def execLaunchReplay (grid : Nat) (s : State) : Host.Outcome State Fault Refusal :=
  match Tbl.find s.grids grid with
  | none => .next s
  | some k =>
    if !k.killed || k.parent.isSome || !s.running then .next s
    else if k.unreplayable || 3 ≤ (s.slot k.slot).runs then
      .next ((((s.sqGrid 3 k).nodeFail k.hq k.slot 0x06).forgetGrid grid).slotChanged k.hq)
    else
      let s := s.sqGrid 2 k
      let s := k.snaps.foldl (fun s e => s.restorePage k e) s
      .next ((s.forgetGrid grid).startLaunch k.hq k.slot)

end Sys2Proof.Machine
end

