-- ==== Sys2Proof/Machine/Child.lean ====
section
/-!
DEFINITION. LCHILD (R105, R150, R373).
-/

namespace Sys2Proof.Machine

namespace State

/-- The grid that a team of grid `g` launches by a record (R105, R220). -/
def childGrid (s : State) (wid : Nat) (w : Wave) (parent : Nat) (g : Grid) (r : LaunchRec) (sched : List (List Byte)) : Grid where
  hq := g.hq
  slot := g.slot
  parent := some parent
  root := g.root
  depth := g.depth + 1
  lrec := { r with cls := g.lrec.cls, prot := g.lrec.prot, replay := g.lrec.replay }
  vf := g.vf
  part := g.part
  domain := w.domain
  asid := w.asid
  sched := sched
  next := 0
  returned := []
  retired := 0
  times := []
  children := 0
  snaps := []
  unreplayable := false
  killed := false
  event := (0, 0, 0, 0, 0)
  childFail := false
  fence := none
  stamp := s.releaseStamp wid
  did := s.releaseStamp wid

/-- Starts a child grid; one with zero teams has retired at once (R104, R373). -/
def startChild (s : State) (wid : Nat) (w : Wave) (parent : Nat) (g : Grid) (r : LaunchRec) (sched : List (List Byte)) : State :=
  let id := s.nextId
  let k := s.childGrid wid w parent g r sched
  let s := { s with nextId := id + 1 }
  if r.teams == 0 then
    match s.completion k with
    | some s => s
    | none => s.updGrid g.root (fun r => { r with childFail := true })
  else
    let s := { s with grids := Tbl.put s.grids id k }
    let s := s.updGrid parent (fun x => { x with children := x.children + 1 })
    let s := s.updTeam w.team (fun t => { t with children := t.children ++ [id] })
    (s.kickPlace g.part).gainWork g.part

end State

/-- The causes of LCHILD (R373). -/
def lchildCauses (a : Nat) (g : Grid) (w : Wave) : List Nat :=
  (if w.w == 0 then [] else [0x10]) ++ (if w.depth == 0 then [] else [0x32]) ++ (if (w.sreg a).toNat % 256 == 0 then [] else [0x31])
    ++ (if w.guarded then [0x61] else []) ++ (if g.depth == 9 then [0x74] else [])

/-- LCHILD: the wait at 256 children, the record, its checks, the copy schedule, the release, the child. A child of no teams completes with it, so
that the release is also that of R103. -/
def lchildRes (d a : Nat) (s : State) (wid : Nat) (w : Wave) : UniRes :=
  match Tbl.find s.grids (s.gridIdOf wid) with
  | none => .done s
  | some g =>
    match lowCode (lchildCauses a g w) with
    | some c => .trap c none
    | none =>
      if !s.waitOver wid w .children then .wait s wid .children
      else s.uniRead wid w w.at_ (w.sreg a).toNat 256 (fun s bs =>
        let r := LaunchRec.ofBytes bs
        let fin := fun (s : State) (x : DWord) => UniRes.done (s.updWave wid (fun w => { w.setS d x with pend := .none }))
        if !s.launchOk bs g.part w.asid none then fin s 0
        else s.uniRead wid w w.at_ r.sched (if r.teams == 0 then 0 else 16 * r.schedN) (fun s sch =>
          .released s wid (if r.teams == 0 && r.doneSystem then .system else .device) (fun s =>
            let s := s.freshId
            fin (s.startChild wid w (s.gridIdOf wid) g r (if r.teams == 0 then [] else schedEntries sch r.schedN))
              (BitVec.ofNat 64 (2 ^ 63 + s.nextId % 2 ^ 32)))))

/-- LCHILD. -/
def execLchild (d a : SReg) (s : State) : Host.Outcome State Fault Refusal :=
  uniStep { sdst := [d.val] } (fun s wid w => lchildRes d.val a.val s wid w) s

end Sys2Proof.Machine
end

