-- ==== Sys2Proof/Machine/SideLog.lean ====
section
/-!
DEFINITION. The replay of the side log (R196, R199, R212): an entry whose page is resolved is performed in its wave's issue order,
faults again, waits for a lease, or is refused.
-/

namespace Sys2Proof.Machine

/-! ## What an access notes of an answer (R57) -/

/-- An access waits for a lease. -/
def Pend.awaits (p : Pend) (chip page : Nat) (ok : Right → Bool) : Bool := p.leases.any (fun x => x.1 == chip && x.2.1 == page && ok x.2.2)

/-- An access's wait for a lease is over, with what it notes. -/
def Pend.unlease (p : Pend) (chip page : Nat) (ok : Right → Bool) (note : Pend → Pend) : Pend :=
  if p.awaits chip page ok then note { p with leases := p.leases.filter (fun x => !(x.1 == chip && x.2.1 == page && ok x.2.2)) } else p

/-- An access's request will not be answered: its wait is over, with what it notes. -/
def Pend.unask (p : Pend) (q : Option Nat × Nat) (note : Pend → Pend) : Pend :=
  if p.reqs.contains q then note { p with reqs := p.reqs.filter (fun x => x != q) } else p

/-- The export page is denied, or not present. -/
def Pend.refused (chip page : Nat) (p : Pend) : Pend := { p with denied := p.denied ++ [(chip, page)] }
def Pend.missing (chip page : Nat) (p : Pend) : Pend := { p with absent := p.absent ++ [(chip, page)] }

/-- What an access notes of the answer to a request for a lease. -/
def LeaseAnswer.note (a : LeaseAnswer) (chip page : Nat) : Pend → Pend :=
  match a with
  | .granted => id
  | .denied => Pend.refused chip page
  | .absent => Pend.missing chip page

namespace State

/-! ## The side log (R196) -/

/-- The right that an entry needs. -/
def entryRight (e : SideEntry) : Right := if e.ops.any (fun o => match o with | .xacc _ _ _ => true | _ => false) then .atomic else .write

/-- Takes an entry out of a core's side log. -/
def dropEntry (s : State) (c : Nat) (e : SideEntry) : State := s.updCore c (fun k => { k with sideLog := k.sideLog.erase e })

/-- Changes an entry of a core's side log. -/
def setEntry (s : State) (c : Nat) (e f : SideEntry) : State :=
  s.updCore c (fun k => { k with sideLog := k.sideLog.map (fun x => if x == e then f else x) })

/-- A cause that a wave takes at its next boundary; none of a wave that has retired. -/
def refused (s : State) (wid : Nat) (d : Deferred) : State :=
  s.updWave wid (fun w => if w.retired then w else { w with deferred := w.deferred ++ [d] })

/-- An entry is discarded: its wave takes ACCESS at its next boundary, at the gate depth of the store (R199, R241). -/
def refuseEntry (s : State) (c : Nat) (e : SideEntry) : State :=
  (s.dropEntry c e).refused e.wid ⟨0x32, some e.va, e.depth, none, some e.id⟩

/-- A lane of an entry reaches the L2 of its home, as at once (R176, R183). -/
def replayTouch (s : State) (wid hint : Nat) : Go → State
  | .hbm _ pa _ => s.l2Home (s.agentOf wid) pa hint true
  | _ => s

/-- A lane of an entry performed at a place of the page. -/
def replayOp (s : State) (wid : Nat) (go : Nat → Go) : LogOp → State
  | .store va bs st hint => (s.replayTouch wid hint (go va)).storeAt wid 0 st (go va) bs
  | .xacc va t x => (s.replayTouch wid 0 (go va)).xaccAt wid t x.toNat (go va)

/-- Where an address of an entry leads once it is translated. -/
def entryGo (s : State) (wid asid : Nat) (peer : Bool) (right : Right) (va : Nat) : Go :=
  match s.reach (some (s.coreOf wid)) (s.partOf wid) asid va peer right with
  | .hbm pa m => .hbm va pa m
  | .regs off => .regs va off
  | .host a => .host va a
  | .fault l => .fault va l none
  | .denied => .trap 0x32 none
  | .peer chip page off =>
    if s.cutOff chip then .trap 0x01 none
    else match s.ptcFind (dieOf (s.coreOf wid)) (s.partOf wid) chip page with
      | none => .lease va chip page
      | some e => if rightsAllow e.rights right then .peer va asid e (e.pa / 65536 * 65536 + off) else .trap 0x32 none

/-- A fault record of an entry that faults (again), where the queue takes it; else the entry is tried again later. -/
def entryFault (s : State) (c : Nat) (e : SideEntry) (level : Nat) (chip : Option Nat) : State :=
  let p := s.partOf e.wid
  if s.fqRoom p 1 then
    let r : FaultRec := {
      core := c
      id := e.id
      va := e.va
      asid := e.asid
      lane := e.lane
      slot := ((Tbl.find s.waves e.wid).map (fun w => w.slot)).getD 0
      kind := if entryRight e == .atomic then 2 else 1
      level := if chip.isSome then (Config.freeWord s.fresh 0).toNat % 256 else level
      peer := chip }
    ((s.fqRecords p [r]).drawn).setEntry c e { e with resolved := false, lease := none }
  else s.setEntry c e { e with resolved := true, lease := none }

/-- The window of the chip to which an entry's stores go, or of its mirror partner, is full (R55, R72). -/
def entryFull (s : State) (wid : Nat) : Go → Bool
  | .peer _ _ x _ => s.windowFull x.chip false
  | .hbm _ _ m => m && s.mirrorOn (s.partOf wid) && s.windowFull (fieldOf (s.part (s.partOf wid)).mirror 9 0) false
  | _ => false

/-- The requests to other chips from a place on stem from an entry. -/
def stemFrom (s : State) (n : Nat) (e : SideEntry) : State :=
  { s with fab := { s.fab with unacked := s.fab.unacked.map (fun (u : Unacked) =>
    if n ≤ u.ord then { u with at_ := { u.at_ with lane := e.lane, id := e.id, depth := e.depth } } else u) } }

/-- An entry whose page is resolved: it is performed, or faults again, waits for a lease, or is refused. -/
def replayEntry (s : State) (c : Nat) (e : SideEntry) : State :=
  match s.entryGo e.wid e.asid e.peer (entryRight e) e.va with
  | .fault _ l chip => s.entryFault c e l chip
  | .lease _ chip page =>
    (s.requestLease (dieOf c) (s.partOf e.wid) (s.clsOf e.wid) chip page (entryRight e)).setEntry c e { e with lease := some (chip, page) }
  | .trap code _ =>
    if code == 0x01 then (s.dropEntry c e).pendCheck e.wid e.id
    else s.refuseEntry c e
  | go =>
    if s.entryFull e.wid go then s
    else (e.ops.foldl (fun s o => s.replayOp e.wid (s.entryGo e.wid e.asid e.peer (entryRight e)) o)
      ((s.dropEntry c e).keepTlb c (s.partOf e.wid) (s.clsOf e.wid) e.asid e.va)).stemFrom s.nextId e

/-- The release of an instruction is over: its entries are stores like others, which leave its stamp (R212, R213). -/
def released (st : Option (Nat × Nat)) (wid id : Nat) (e : SideEntry) : SideEntry :=
  if e.wid == wid && e.id == id && e.rel.isSome then
    { e with rel := none, fence := [], resolved := true
             ops := e.ops.map (fun o => match o with | .store va bs _ hint => .store va bs st hint | o => o) }
  else e

/-- The release of a store of a wave that runs on (R212): whether it is over, and the state. -/
def releaseEntry (s : State) (c : Nat) (e : SideEntry) (sc : Scope) : Bool × State :=
  if s.storeQueued e.wid then (false, s)
  else
    let r := s.releaseFabric e.wid sc e.fence
    if r.1 then
      let st := if 4 ≤ sc.code then some (r.2.2.releaseStamp e.wid) else none
      (true, r.2.2.updCore c (fun k => { k with sideLog := k.sideLog.map (released st e.wid e.id) }))
    else (false, r.2.2.setEntry c e { e with fence := r.2.1 })

/-- The entry of a core's side log that is called by a wave, an issue count and a page. -/
def entryAt (s : State) (c : Nat) (k : Nat × Nat × Nat) : Option SideEntry :=
  (s.core c).sideLog.find? (fun e => e.wid == k.1 && e.id == k.2.1 && e.page == k.2.2)

/-- Replays an entry of a core that is the first of its wave: a release first comes to its end. -/
def replayOne (s : State) (c : Nat) (k : Nat × Nat × Nat) : State :=
  match s.entryAt c k with
  | none => s
  | some e =>
    match e.rel with
    | none => if !e.resolved || e.lease.isSome then s else s.replayEntry c e
    | some sc =>
      let r := s.releaseEntry c e sc
      match r.1, r.2.entryAt c k with
      | true, some e => r.2.replayEntry c e
      | _, _ => r.2

/-- Replays the entries of a core, each wave's in the order in which it issued them (R196); `held` are the waves whose next entry
cannot be performed yet. -/
def replayLog (s : State) (c : Nat) : List (Nat × Nat × Nat) → List Nat → State
  | [], _ => s
  | k :: ks, held =>
    if held.contains k.1 then s.replayLog c ks held
    else
      let t := s.replayOne c k
      t.replayLog c ks (if (t.entryAt c k).isSome then k.1 :: held else held)

/-- Replays what can be replayed of a core's side log; jobs that follow its stores go on (R214), and teams that waited for it may retire
(R149). Nothing is replayed while the core's hob relocks (R14) or the device is halted (R44). -/
def drainLog (s : State) (c : Nat) : State :=
  if s.asleep c || !s.running then s
  else
    let es := (s.core c).sideLog.filter (fun e => match (Tbl.find s.waves e.wid).bind (fun w => Tbl.find s.teams w.team) with
      | none => false
      | some t => t.loc != .saved)
    let ts := dedup (es.filterMap (fun e => (Tbl.find s.waves e.wid).map (fun w => w.team)))
    ts.foldl (fun s t => (s.kickTeam t).checkTeam t) (s.replayLog c (es.map (fun e => (e.wid, e.id, e.page))) [])

/-! ## Answers at a core (R15, R57, R60) -/

/-- Every right. -/
def rightsAll : List Right := [.read, .write, .atomic]

/-- Side-log entries of a core that wait for a lease of a partition. -/
def logLeases (s : State) (c p chip page : Nat) (rs : List Right) : List SideEntry :=
  (s.core c).sideLog.filter (fun x => x.lease == some (chip, page) && s.partOf x.wid == p && rs.contains (entryRight x))

/-- What becomes of a side-log entry whose lease is answered. -/
def entryAnswered (s : State) (c chip : Nat) (why : LeaseAnswer) (e : SideEntry) : State :=
  match why with
  | .granted => s.setEntry c e { e with lease := none }
  | .denied => s.refuseEntry c e
  | .absent => (s.setEntry c e { e with lease := none }).entryFault c { e with lease := none } 0 (some chip)

/-- The answer to a request for a lease at a core: its waves of the partition that wait for it go on and note the answer, and so do the entries of its
side log. -/
def leaseAt (s : State) (c p chip page : Nat) (rs : List Right) (why : LeaseAnswer) : State :=
  let ok := fun (r : Right) => rs.contains r
  let s := (s.waves.filter (fun e => s.coreOf e.1 == c && s.partOf e.1 == p)).foldl (fun s e =>
    s.updWave e.1 (fun w => w.mapPends (fun x => x.unlease chip page ok (why.note chip page)))) s
  let es := s.logLeases c p chip page rs
  let s := es.foldl (fun s e => s.entryAnswered c chip why e) s
  if es.isEmpty || why == .absent then s else s.drainLog c

/-- The cores of a die on which something of a partition waits for a lease. -/
def leaseCores (s : State) (die p chip page : Nat) (rs : List Right) : List Nat :=
  let ws := s.waves.filter (fun e => s.partOf e.1 == p && (e.2.pend :: e.2.pends).any (fun x => x.awaits chip page (fun r => rs.contains r)))
  (dedup (ws.map (fun e => s.coreOf e.1) ++ (s.cores.filter (fun e => !(s.logLeases e.1 p chip page rs).isEmpty)).map (fun e => e.1))).filter
    (fun c => dieOf c == die)

/-- The answer to a request for a lease reaches the cores of a die. -/
def leaseAnswer (s : State) (die p chip page : Nat) (rs : List Right) (why : LeaseAnswer) : State :=
  (s.leaseCores die p chip page rs).foldl (fun s c =>
    s.comes c (.lease p chip page rs why) (fun s => s.leaseAt c p chip page rs why)) s

/-- An access of a wave ends without what it asked for, and notes why. -/
def unaskAt (s : State) (wid : Nat) (q : Option Nat × Nat) (chip page : Nat) (why : LeaseAnswer) : State :=
  s.updWave wid (fun w => w.mapPends (fun x => x.unask q (why.note chip page)))

/-- That end reaches the wave. -/
def unaskWave (s : State) (wid : Nat) (q : Option Nat × Nat) (chip page : Nat) (why : LeaseAnswer) : State :=
  s.comes (s.coreOf wid) (.unask wid q chip page why) (fun s => s.unaskAt wid q chip page why)

/-- Nothing comes from some chips any more: the accesses of a wave wait no longer for requests to them and for READs. -/
def cutAt (s : State) (wid : Nat) (ids chips : List Nat) : State :=
  s.updWave wid (fun w => w.mapPends (fun p => { p with
    reqs := p.reqs.filter (fun q => match q.1 with
      | none => !ids.contains q.2
      | some c => !chips.contains c)
    leases := p.leases.filter (fun l => !chips.contains l.1) }))

/-- Replays every core's side log: what a release waited for has come (R212). -/
def relog (s : State) : State := s.cores.foldl (fun s e => if e.2.sideLog.isEmpty then s else s.drainLog e.1) s

/-- Replays the side logs of the cores of a partition. -/
def drainLogs (s : State) (p : Nat) : State :=
  (s.coresOf p).foldl (fun s c => if (s.core c).sideLog.isEmpty then s else s.drainLog c) s

end State

end Sys2Proof.Machine
end

