-- ==== Sys2Proof/Machine/Sched.lean ====
section
/-!
DEFINITION. The scheduler: queue choice and the placement of teams (R106, R110, R111, R116), claims, spill copies, re-admission and
lending (R117 to R121), slices (R107, R108, R124 to R130), the resumption of saved teams, thermal migration (R131 to R133).
-/

namespace Sys2Proof.Machine

namespace State

/-! ## Queue choice (R111) -/

/-- The teams of a queue may be placed: it runs, or it is in error and its launches run to their end (R87, R98). -/
def queuePlaces (s : State) (q : Queue) : Bool := s.queueLives q && ((q.enabled && q.state == 1) || q.state == 2)

/-- The grid has teams that are not placed. -/
def unplaced (k : Grid) : Bool := !k.killed && (k.next < k.lrec.teams || !k.returned.isEmpty)

/-- The grid whose team is at the head of a queue: a child grid first, then the launch that became READY first. -/
def headGrid (s : State) (hq : Nat) : Option (Nat × Grid) :=
  let gs := s.grids.filter (fun e => e.2.hq == hq && unplaced e.2)
  match gs.find? (fun e => e.2.parent.isSome) with
  | some e => some e
  | none => leastBy (fun (e : Nat × Grid) => (s.slot e.2.slot).order) gs

/-- The index of the first unplaced team of a grid: one that was discarded, else the next. -/
def headIndex (k : Grid) : Nat := (leastBy id k.returned).getD k.next

/-- The credit of a queue per round (R110). -/
def quantum (s : State) (q : Queue) : Nat := Tbl.getD (s.vd q.vf).weights (fieldOf q.ctl 17 12) 1

/-- The cost of a team in slab units. -/
def teamCost (k : Grid) : Nat := k.lrec.waves * k.lrec.slabs

/-- The cluster's placer may commit a team: 16 ticks after the last (R116). -/
def placerFree (s : State) (cl : Nat) : Bool :=
  match Tbl.find s.placed cl with
  | none => true
  | some t => t + 16 ≤ s.reft

/-- Places a team of a grid, where a core is found and its cluster's placer is free. -/
def placeTeam (s : State) (g : Nat) (k : Grid) : Option State :=
  match s.chooseCore k.part k.lrec k.cls with
  | none => none
  | some (c, f) =>
    if !s.placerFree (clusterOf c) then none
    else
      let i := headIndex k
      let s := s.updGrid g (fun k => if k.returned.contains i then { k with returned := k.returned.filter (· != i) } else { k with next := k.next + 1 })
      let s := (s.drawn.startTeam g i c f)
      some { s with placed := Tbl.put s.placed (clusterOf c) s.reft }

/-- The teams of a queue that its deficit pays for, `fuel` of them at most: whether one was placed. -/
def serveQueue (s : State) (hq : Nat) : Nat → Bool × State
  | 0 => (false, s)
  | n + 1 =>
    match s.headGrid hq with
    | none => (false, s)
    | some (g, k) =>
      if (s.queue hq).deficit < teamCost k then (false, s)
      else match s.placeTeam g k with
        | none => (false, s)
        | some s =>
          let s := s.updQueue hq (fun q => { q with deficit := q.deficit - teamCost k })
          (true, (s.serveQueue hq n).2)

/-- One queue in a round. A paused queue places nothing, an unplaced child grid of its launch included: R87 speaks of the teams of a launch (LE 82). -/
def serveOne (s : State) (hq : Nat) : Bool × State :=
  let q := s.queue hq
  if (s.headGrid hq).isNone || !s.queuePlaces q then (false, s.updQueue hq (fun q => { q with deficit := 0 }))
  else if s.quantum q == 0 then (false, s)
  else
    let s := s.updQueue hq (fun k => { k with deficit := min (k.deficit + s.quantum q) (2 * s.quantum q + 32) })
    let r := s.serveQueue hq 8
    let s := if (r.2.headGrid hq).isNone then r.2.updQueue hq (fun q => { q with deficit := 0 }) else r.2
    let p := s.vdPart q.vf
    (r.1, s.updPart p (fun x => if q.cls == .g then { x with ptrG := q.loc + 1 } else { x with ptrH := q.loc + 1 }))

/-- The queues of a class of a virtual device, in the order of a round. -/
def roundOf (s : State) (p vf : Nat) (cls : Cls) : List Nat :=
  let at_ := if cls == .g then (s.part p).ptrG else (s.part p).ptrH
  let qs := s.queues.filter (fun e => e.2.valid && e.2.vf == vf && e.2.cls == cls)
  (sortBy (fun (e : Nat × Queue) => (e.2.loc + 65536 - at_ % 65536) % 65536) qs).map (fun e => e.1)

/-- A round: it ends with the first queue of which a team is placed. -/
def serveRound (s : State) : List Nat → Bool × State
  | [] => (false, s)
  | q :: qs => match s.serveOne q with
    | (true, s) => (true, s)
    | (false, s) => s.serveRound qs

/-- A placement opportunity of a virtual device: G, then H where no G team was placed. -/
def serve (s : State) (p vf : Nat) : State :=
  match s.serveRound (s.roundOf p vf .g) with
  | (true, s) => s
  | (false, s) => (s.serveRound (s.roundOf p vf .h)).2

/-- Teams of a virtual device wait for a placement that time can bring: a deficit that grows, a placer that becomes free. -/
def placeLater (s : State) (vf : Nat) : Bool :=
  s.queues.any (fun e => e.2.valid && e.2.vf == vf && s.queuePlaces e.2 && s.quantum e.2 != 0 && (match s.headGrid e.1 with
    | none => false
    | some (_, k) => e.2.deficit < teamCost k || (match s.chooseCore k.part k.lrec k.cls with
      | none => false
      | some (c, _) => !s.placerFree (clusterOf c))))

/-! ## Saved teams resume (R127) -/

end State

/-- The things of a side that a wave holds: slabs 0–15, and its place from 16 on. -/
def Wave.things (w : Wave) : List Nat := w.slabs ++ [16 + w.slot % 16]

namespace State

/-- Another wave than `wid` of a side of a core holds one of the things, not being evicted, its things not lent. -/
def thingTaken (s : State) (c side : Nat) (not_ : Nat → Wave → Bool) (xs : List Nat) : Bool :=
  (s.holdingWaves c).any (fun e => e.2.side == side && !not_ e.1 e.2 && e.2.evicted.isNone && !e.2.lent && e.2.things.any xs.contains)

/-- A team on the core, or moving to it, other than `t` has one of its tiles live. -/
def tileTaken (s : State) (c t : Nat) (tiles : List Nat) : Bool :=
  (s.holdersOn c).any (fun e => e.1 != t && e.2.tileSave.isNone && e.2.tiles.any tiles.contains)

/-- Every wave of a team that has not exited is evicted. -/
def allEvicted (s : State) (t : Nat) : Bool := (s.wavesOf t).all (fun e => e.2.retired || e.2.evicted.isSome)

/-- What a saved team holds is free on its core, whose hob does not relock (R14), and the side log has room for its entries (R196); of a team whose waves are all evicted the tiles may
be taken. -/
def canResume (s : State) (t : Nat) (k : Team) (g : Grid) : Bool :=
  let lo := k.start
  let hi := k.start + g.lrec.bytes
  !s.moveAt k.core && !s.asleep k.core && s.ownerOf (clusterOf k.core) == some g.part
  && !((s.takenRanges k.core).any (fun r => r.1 < hi && lo < r.2))
  && (List.range g.lrec.tagCount).all (fun i => !s.tagTaken k.core (g.lrec.tagBase + i))
  && (s.wavesOf t).all (fun e => e.2.retired || e.2.evicted.isSome || !s.thingTaken k.core e.2.side (fun _ w => w.team == t) e.2.things)
  && (s.allEvicted t || !s.tileTaken k.core t k.tiles) && s.logUsed k.core + (s.teamLog k.core t).length ≤ 64

/-- The team files its request for an operating class again (R375). -/
def fileAgain (s : State) (t : Nat) : State :=
  match Tbl.find s.teams t with
  | none => s
  | some k => match k.perf with
    | none => s
    | some c => s.fileReq (s.hob (hobOf k.core)).pool (.team t) c

/-- A saved team is resident again on its core (R127): its slabs, tiles and scratchpad range come back from its frame, with them its PC table
entries and its jobs; its evicted waves are re-admitted where what they held is free (R130). The L1 of the core is invalidated (R218). On a core that was fenced since, its launch is
killed (R38). -/
def resumeTeam (s : State) (t : Nat) : State :=
  match Tbl.find s.teams t with
  | none => s
  | some k =>
    match Tbl.find s.grids k.grid with
    | none => s
    | some g =>
      if (s.core k.core).fenced || (s.hob (hobOf k.core)).fenced then s.killTeam t
      else if k.loc != .saved || !s.canResume t k g then s
      else
        let s := s.loadFrame t
        let img := s.scratchFrom k
        let bad := s.scratchBad k
        let s := (s.freshI k.core t k.grid).raiseCarve k.core g.lrec.carve
        let slot := s.freeSlot k.core
        let s := s.updTeam t (fun k => { k with
          loc := .resident, slot := slot, since := s.reft, clk0 := (s.hob (hobOf k.core)).clk, yieldBy := none, inShadow := false })
        let s := (s.wavesOf t).foldl (fun s e => if e.2.lent then s.updWave e.1 (fun w => { w with lent := false }) else s) s
        let s := s.updCore k.core (fun c =>
          let c := ((c.tagsTaken g.lrec).clearScratch k.start (k.start + g.lrec.bytes)).writeScratch k.start img
          { c with scrBad := c.scrBad ++ bad })
        let s := if s.allEvicted t && s.tileTaken k.core t k.tiles then s else s.tilesBack t
        let s := ((s.dropL1 k.core).noKeep (fun x _ _ => x == k.core)).givePcs t
        let s := (s.wavesOf t).foldl (fun s e => if e.2.evicted.isSome || e.2.retired then s else s.waveBack e.1) s
        let s := (s.jobsOf t).foldl (fun s e => s.updJob e.1 (fun j => { j with paused := false })) s
        (((s.fileAgain t).kickTeam t).freed k.core).drainLog k.core

/-- The saved teams of a virtual device in a partition, G ahead of H. -/
def savedTeams (s : State) (p vf : Nat) : List (Nat × Team) :=
  let l := s.teams.filter (fun e => e.2.loc == .saved && (match Tbl.find s.grids e.2.grid with
    | none => false
    | some g => g.part == p && g.vf == vf))
  l.filter (fun e => s.teamCls e.1 == .g) ++ l.filter (fun e => s.teamCls e.1 == .h)

/-- The saved teams that wait for no later slice resume where their cores are free for them. -/
def resumeSaved (s : State) (p vf : Nat) : State :=
  (s.savedTeams p vf).foldl (fun s e => if e.2.yieldBy.isSome then s else s.resumeTeam e.1) s

/-- The resident teams of a virtual device on a cluster. -/
def outgoing (s : State) (p vf cl : Nat) : List (Nat × Team) :=
  s.teams.filter (fun e => e.2.loc != .saved && clusterOf e.2.core == cl && (match Tbl.find s.grids e.2.grid with
    | none => false
    | some g => g.part == p && g.vf == vf))

end State

/-- TEAM_PLACEMENT (R111, R116): a placement opportunity of the partition of a cluster. -/
def execTeamPlacement (cluster : Fin 8) (s : State) : Host.Outcome State Fault Refusal :=
  match s.ownerOf cluster.val with
  | none => .next s
  | some p =>
    let x := s.part p
    match x.slice.cur with
    | none => .next s
    | some vf =>
      if x.stopped || x.slice.switching || !s.running || x.slice.stop ≤ s.reft then .next s
      else
        let s := (s.resumeSaved p vf).serve p vf
        let i := Instr.teamPlacement cluster
        .next (if s.placeLater vf && !s.due i then s.after 16 i else s)

/-! ## Claims (R117), spill copies (R118) -/

/-- CLAIM_COMPLETE (R117): the claims on a side are over; a relock or a move holds them (R133, R135). -/
def execClaimComplete (core : Nat) (side : Fin 2) (s : State) : Host.Outcome State Fault Refusal :=
  let mine := s.claims.filter (fun c => c.core == core && c.side == side.val)
  if mine.isEmpty then .next s
  else if !s.coreRuns core || s.moveAt core then .next (s.soon (.claimComplete core side))
  else
    let s := { s with claims := s.claims.filter (fun c => !(c.core == core && c.side == side.val)) }
    .next (mine.foldl (fun s c => if s.claims.any (fun d => d.team == c.team) then s else s.updTeam c.team (fun t => { t with ready := true })) s)

/-- SPILL_COPY_DONE (R118, R119, R236, R238): Ladle has copied the first slab or tile that waits on a side, to the eviction area or back, or of a gate
call to its frame or back; the access that waits for it goes on. While the core's hob relocks the copy stands still (R14). -/
def execSpillCopyDone (core : Nat) (side : Fin 2) (s : State) : Host.Outcome State Fault Refusal :=
  match (s.core core).spills.find? (fun e => e.1 == side.val) with
  | none => .next s
  | some e =>
    if !s.running then .next s
    else if s.asleep core then .next (s.atRelockEnd core (.spillCopyDone core side))
    else
    let s := s.updCore core (fun k => { k with spills := k.spills.erase e })
    let s := match e.2 with
      | .home wid k => s.homeSlab wid k
      | .tileHome team t => s.homeTile team t
      | .slab wid k => (s.spillSlab wid k).updWave wid (fun w => { w with hown := w.hown.filter (· != k) })
      | .tile _ t => (s.spillTile core t).updCore core (fun k => { k with tileH := k.tileH.filter (· != t) })
      | .gate wid k d => s.spillGate wid k d
      | .back wid k => (match (Tbl.find s.waves wid).bind (fun (w : Wave) => w.refill.find? (fun (x : Nat × Nat × Nat × Nat) => x.1 == k)) with
        | none => s
        | some x => s.refillSlab wid x)
    .next (if (s.core core).spills.any (fun e => e.1 == side.val) then s.soonOnce (.spillCopyDone core side) else s)

/-! ## Re-admission and lending (R119 to R121) -/

namespace State

/-- The evicted waves of a side of a core, oldest eviction first. -/
def evictedOn (s : State) (c side : Nat) : List (Nat × Wave) :=
  sortBy (fun (e : Nat × Wave) => e.2.evicted.getD 0) ((s.coreWaves c).filter (fun e => e.2.side == side && e.2.evicted.isSome))

/-- What an evicted wave held is there for it. -/
def thingsBack (s : State) (c wid : Nat) (w : Wave) : Bool :=
  !s.thingTaken c w.side (fun i _ => i == wid) w.things
  && (match Tbl.find s.teams w.team with
    | none => false
    | some k => k.loc == .resident && (k.tileSave.isNone || !s.tileTaken c w.team k.tiles))

/-- Re-admits an evicted wave (R119, R120): what lies in the eviction area is refilled at its first access, and a slab that holds the contents of a wave
that lends it is marked (R121). -/
def readmit (s : State) (wid : Nat) (w : Wave) : State :=
  let held := s.heldFor (s.placeOf w).1 wid w
  let s := (s.updWave wid (fun w => { w with evicted := none, hown := held })).tilesBack w.team
  let s := (s.waveBack wid).checkPhase w.team
  let s := s.rested w.team
  s.kickTeam w.team

end State

/-- READMISSION (R119): the oldest evicted wave of its side, once everything it held is free; the end of a relock comes first (R14). -/
def execReadmission (core slot : Nat) (s : State) : Host.Outcome State Fault Refusal :=
  match s.evictedOn core (slot / 16 % 2) with
  | [] => .next s
  | e :: _ =>
    if !s.running || e.2.slot != slot || !s.thingsBack core e.1 e.2 then .next s
    else if s.asleep core then .next (s.atRelockEnd core (.readmission core slot))
    else .next ((s.readmit e.1 e.2).freed core)

namespace State

/-- The core cycles that a wave must still be parked in WAITV, SLEEP or a barrier wait before it may lend what it holds (R121); none where it is
not parked so. -/
def lendIn (s : State) (c : Nat) (w : Wave) : Option Nat :=
  match w.park with
  | .waitv _ | .sleep _ | .bar | .cbar => w.parkClk.map (fun x => x + 4096 - (s.hob (hobOf c)).clk)
  | _ => none

/-- The G waves of a side. -/
def gWaves (s : State) (c side : Nat) : List (Nat × Wave) := (s.coreWaves c).filter (fun e => e.2.side == side && s.clsOf e.1 == .g)

/-- Every G wave of a side has been parked in WAITV, SLEEP or a barrier wait for 4,096 core cycles (R121). -/
def lendable (s : State) (c side : Nat) : Bool := (s.gWaves c side).all (fun e => s.lendIn c e.2 == some 0)

/-- Every G wave of a side is parked so, and in some core cycles, which no relock counts, all have been so long enough. -/
def lendSoon (s : State) (c side : Nat) : Option Nat :=
  if (s.gWaves c side).all (fun e => (s.lendIn c e.2).isSome) then
    some ((s.gWaves c side).foldl (fun n e => max n ((s.lendIn c e.2).getD 0)) 0)
  else none

/-- The waves of G that hold something that an evicted wave held, on its side; with the tiles, every wave of the teams that hold
them. -/
def lenders (s : State) (c wid : Nat) (w : Wave) : List Nat :=
  let tiles := match Tbl.find s.teams w.team with
    | none => []
    | some k => if k.tileSave.isSome then k.tiles else []
  ((s.coreWaves c).filter (fun e => e.1 != wid && e.2.evicted.isNone && !e.2.lent && s.clsOf e.1 == .g &&
    ((e.2.side == w.side && e.2.things.any w.things.contains) || (match Tbl.find s.teams e.2.team with
      | none => false
      | some k => k.tileSave.isNone && k.tiles.any tiles.contains)))).map (fun e => e.1)

/-- A G wave lends what it holds; where its team's tiles are lent, they leave the live array. -/
def lend (s : State) (tiles : List Nat) (wid : Nat) : State :=
  match Tbl.find s.waves wid with
  | none => s
  | some w =>
    let clk := s.clkOf wid
    let s := s.updWave wid (fun w => { w.pauseClock clk with lent := true })
    match Tbl.find s.teams w.team with
    | none => s
    | some k => if k.tileSave.isNone && k.tiles.any tiles.contains then
        s.updTeam w.team (fun k => { k with tileSave := some (s.tilesOut k.core k.tiles) }) else s

/-- Lends to an evicted wave what G waves of its side hold, where that gives it everything and every lender has been parked long enough. The slabs
and tiles still hold G contents, which go to the eviction area before H first writes them. -/
def lendTo (s : State) (c : Nat) (e : Nat × Wave) : State :=
  match Tbl.find s.waves e.1 with
  | none => s
  | some w =>
    let ls := s.lenders c e.1 w
    let tiles := match Tbl.find s.teams w.team with
      | none => []
      | some k => if k.tileSave.isSome then k.tiles else []
    let other := ls.any (fun i => match Tbl.find s.waves i with | none => false | some x => x.side != w.side)
    let t := ls.foldl (fun s i => s.lend tiles i) s
    if w.evicted.isNone || (other && !s.lendable c (1 - w.side)) || !t.thingsBack c e.1 w then s else t.readmit e.1 w

end State

/-- SLAB_LEND (R121): while LEND is 1 and every G wave of the side has been parked for 4,096 core cycles, what they hold is lent to the
oldest evicted waves. Where a relock or a slower step has stretched these cycles it is looked at again when they are over, and during a relock
or a claim later. -/
def execSlabLend (core : Nat) (side : Fin 2) (s : State) : Host.Outcome State Fault Refusal :=
  match s.ownerOf (clusterOf core), s.lendSoon core side.val with
  | none, _ | _, none => .next s
  | some p, some n =>
    if fieldOf (s.part p).schedNow 31 31 == 0 || (s.evictedOn core side.val).isEmpty || !s.running then .next s
    else if n != 0 then
      .next (if s.due (.slabLend core side) then s else s.after (max 1 (s.ticksFor (hobOf core) n)) (.slabLend core side))
    else if !s.coreRuns core || s.moveAt core || s.claims.any (fun c => c.core == core && c.side == side.val) then
      .next (s.after 16 (.slabLend core side))
    else .next ((s.evictedOn core side.val).foldl (fun s e => s.lendTo core e) s)

/-- LEND_RECLAIM (R121): a G wave that has become ready claims back what it lent; one that is parked in WAITV reads its word again to find
out. While a team moves from or to the core this waits (R133), and on a core that does not issue. -/
def execLendReclaim (core slot : Nat) (s : State) : Host.Outcome State Fault Refusal :=
  match s.lentAt core slot with
  | none => .next s
  | some e =>
    if s.moveAt core || !s.coreRuns core then .next (s.soon (.lendReclaim core slot))
    else
      let t := if !s.lentReady e.2 && e.2.watches then s.rereadWaitv core e else s
      .next (match Tbl.find t.waves e.1 with
        | none => t
        | some w => if t.lentReady w then (t.reclaim core e.1 w).claimSide core w.side w.team else t)

/-! ## Slices (R107, R108, R124 to R130) -/

namespace State

/-- The ticks of a switch that the budget allows (R109, R125). -/
def switchTicks (x : Part) : Nat := 1000 * max 1 (fieldOf x.schedNow 9 0)

/-- The virtual device has a launch of a running queue or a child grid with teams that are not placed, or a saved context with teams (R108). -/
def hasWork (s : State) (p vf : Nat) : Bool :=
  s.slots.any (fun e => e.2.st == .ready && Node.kind e.2.node == 1 && (s.queue e.2.hq).vf == vf && s.whiskOn e.2.hq)
  || s.grids.any (fun e => e.2.vf == vf && e.2.part == p && unplaced e.2 && (e.2.parent.isSome || s.queuePlaces (s.queue e.2.hq)))
  || s.teams.any (fun e => e.2.loc == .saved && (match Tbl.find s.grids e.2.grid with | none => false | some g => g.vf == vf && g.part == p))

/-- The frames of a virtual device lie beyond the partition's context region (R112). -/
def noFrames (s : State) (p vf : Nat) : Bool :=
  let n := 48 * (s.clustersOf p).length
  fieldOf (s.part p).ctx 15 0 < (fieldOf (s.vd vf).sliceNow 28 24 + 1) * n

/-- A virtual device that the sequencer may pick, its frames apart. -/
def eligible (s : State) (p vf : Nat) : Bool :=
  s.vdEnabled vf && s.vdPart vf == p && fieldOf (s.vd vf).sliceNow 15 0 != 0 && s.hasWork p vf

/-- The virtual device that R108 picks after the current one, in ascending order and wrapping round, from VF 0 where the partition has idled
(LE 81); and those that it skips because they have no frames. -/
def picks (s : State) (p : Nat) : Option Nat × List Nat :=
  let at_ := match (s.part p).slice.cur with
    | none => 0
    | some v => v + 1
  let order := ((List.range 32).map (fun i => (at_ + i) % 32)).filter (s.eligible p)
  let pick := order.find? (fun v => !s.noFrames p v)
  (pick, match pick with
    | none => order
    | some v => order.takeWhile (· != v))

/-- The sequencer picks the next virtual device (R108); what it skips is logged once for each. -/
def pickVd (s : State) (p : Nat) : Option Nat × State :=
  ((s.picks p).1, (s.picks p).2.foldl (fun s v =>
    if (s.vd v).framesLogged then s else (s.updVd v (fun d => { d with framesLogged := true })).logged (.frames v)) s)

/-- The shadow array of a core gives up the context that it holds, and reads that of another virtual device from its frame (R127). -/
def preloadCore (s : State) (c : Nat) (v : Option Nat) : State :=
  let of := fun (s : State) (x : Option Nat) => s.teams.filter (fun e => e.2.loc == .saved && e.2.core == c && x.isSome
    && (s.gridOf e.2).map (fun g => g.vf) == x)
  let s := if v.isNone then s else (of s (s.core c).preload).foldl (fun s e => s.updTeam e.1 (fun k => { k with inShadow := false })) s
  ((of s v).foldl (fun s e => s.loadFrame e.1) s).updCore c (fun k => { k with preload := v })

/-- Ladle preloads the shadow arrays of some cores of a partition with the context of a virtual device (R127); with none, what they held has
passed to the live arrays. A core whose hob relocks takes nothing (R14): a switch preloads it after that. -/
def preload (s : State) (cores : List Nat) (v : Option Nat) : State :=
  cores.foldl (fun s c => if (s.core c).preload == v || s.asleep c then s else s.preloadCore c v) s

/-- A slice starts (R107, R128, R129): it lasts SLICE_US less what is charged; saved contexts resume, teams are placed, and Ladle preloads the
context that is picked next (R127). -/
def startSlice (s : State) (p vf : Nat) : State :=
  let d := s.vd vf
  let stop := s.reft + (1000 * fieldOf d.sliceNow 15 0 - d.charge)
  let s := s.updVd vf (fun d => { d with charge := 0 })
  let s := s.updPart p (fun x => { x with slice := { x.slice with
    cur := some vf, start := s.reft, stop := stop, yielding := false, switching := false, next := none, choices := [], exchanged := [], late := [] } })
  let s := (s.savedTeams p vf).foldl (fun s e => s.updTeam e.1 (fun t => { t with yieldBy := none })) s
  let s := (s.resumeSaved p vf).kickPlace p
  let s := s.atTick (max s.reft (stop - 1000 * fieldOf (s.part p).schedNow 25 16)) (.yieldRequest (Fin.ofNat 8 p))
  (s.preload (s.coresOf p) (s.picks p).1).atTick stop (.sliceBoundary (Fin.ofNat 8 p))

/-- The yield requests to the teams of a virtual device end; a wave that has stopped at YIELD goes on (R130). -/
def endYield (s : State) (p vf : Nat) : State :=
  let ts := s.teams.filter (fun e => e.2.loc != .saved && e.2.yieldBy.isSome && (match Tbl.find s.grids e.2.grid with
    | none => false
    | some g => g.part == p && g.vf == vf))
  let s := ts.foldl (fun s e => (s.wavesOf e.1).foldl (fun s w => if w.2.park == .yielded then s.updWave w.1 (fun w => { w with park := .no }) else s)
    (s.updTeam e.1 (fun t => { t with yieldBy := none }))) s
  s.updPart p (fun x => { x with slice := { x.slice with yielding := false } })

/-- VD_SLICE and PART_SCHED take effect for a partition (R107, R109); where LEND has become 1, slabs may be lent. -/
def takeSched (s : State) (p : Nat) : State :=
  let on := fieldOf (s.part p).schedNow 31 31 == 0 && fieldOf (s.part p).sched 31 31 == 1
  let s := s.updPart p (fun x => { x with schedNow := x.sched })
  let s := if on then (s.coresOf p).foldl (fun s c => s.lendLater c) s else s
  (List.range 32).foldl (fun s v => if s.vdPart v == p then s.updVd v (fun d => { d with sliceNow := d.slice }) else s) s

/-- A switch of a partition begins: each cluster chooses what becomes of the outgoing teams (R125). -/
def beginSwitch (s : State) (p : Nat) (next : Option Nat) : State :=
  let s := s.updPart p (fun x => { x with slice := { x.slice with switching := true, next := next, choices := [], exchanged := [], late := [] } })
  (s.clustersOf p).foldl (fun s c => s.atTick s.reft (.sliceEnd (Fin.ofNat 8 c))) s

/-- No virtual device has work (R108): the partition idles, once the teams that are still resident have been switched out. -/
def idle (s : State) (p vf : Nat) : State :=
  if (s.clustersOf p).any (fun c => !(s.outgoing p vf c).isEmpty) then s.beginSwitch p none
  else s.updPart p (fun x => { x with slice := { x.slice with cur := none } })

/-- A core of the partition is still in the core cycle in which the slice ended, and a team on it has a yield request: a YIELD that it executes now counts
as before the deadline (R124). -/
def yieldOpen (s : State) (p : Nat) : Bool :=
  let x := (s.part p).slice
  (s.clustersOf p).any (fun c => (s.outgoing p (x.cur.getD 0) c).any (fun e =>
    let h := s.hob (hobOf e.2.core)
    e.2.yieldBy.isSome && h.relockEnd.isNone && (s.reft - x.stop) * (6 + h.step) ≤ h.phase))

end State

/-- SLICE_BOUNDARY (R108): once the core cycle is over in which the slice ended (R124), the sequencer picks a virtual device; with another one, or
none, a switch begins. With the same one the yield requests are withdrawn (R130); else they stand until their teams are saved (R124). -/
def execSliceBoundary (p : Fin 8) (s : State) : Host.Outcome State Fault Refusal :=
  let x := s.part p
  if !x.present || x.stopped || x.slice.switching || !s.running then .next s
  else
    match x.slice.cur with
    | none =>
      let s := s.takeSched p.val
      (match s.pickVd p.val with
        | (none, s) => .next s
        | (some v, s) => .next (s.startSlice p.val v))
    | some cur =>
      if s.reft < x.slice.stop then .next s
      else if s.yieldOpen p.val then .next (s.after 1 (.sliceBoundary p))
      else
        match (s.takeSched p.val).pickVd p.val with
        | (none, s) => .next (s.idle p.val cur)
        | (some v, s) => .next (if v == cur then (s.endYield p.val cur).startSlice p.val v else s.beginSwitch p.val (some v))

/-- YIELD_REQUEST (R124): every resident team of the outgoing virtual device receives a request whose deadline is E. -/
def execYieldRequest (p : Fin 8) (s : State) : Host.Outcome State Fault Refusal :=
  let x := s.part p.val
  match x.slice.cur with
  | none => .next s
  | some vf =>
    if x.slice.switching || x.slice.yielding || x.stopped || x.slice.stop ≤ s.reft
        || s.reft + 1000 * fieldOf x.schedNow 25 16 < x.slice.stop then .next s
    else
      let s := s.updPart p.val (fun x => { x with slice := { x.slice with yielding := true } })
      .next ((s.clustersOf p.val).foldl (fun s c =>
        (s.outgoing p.val vf c).foldl (fun s e => s.updTeam e.1 (fun t => { t with yieldBy := some x.slice.stop })) s) s)

namespace State

/-- The drain estimate of a team in ticks, where its launch has one (R125): the mean of the run times less the elapsed one, at the hob's
step, rounded up. -/
def drainEstimate (s : State) (k : Team) : Option Nat :=
  match Tbl.find s.grids k.grid with
  | none => none
  | some g =>
    let n := g.times.length
    if n == 0 then none
    else
      let left := g.times.sum - n * s.ran k
      let mhz := 600 + 100 * (s.hob (hobOf k.core)).step
      some ((left * 1000 + n * mhz - 1) / (n * mhz))

/-- The choice of R125 for the remaining teams. -/
def sliceChoice (s : State) (b : Nat) (ts : List (Nat × Team)) : Choice :=
  let est := ts.map (fun e => s.drainEstimate e.2)
  let restartable := fun (k : Team) => match Tbl.find s.grids k.grid with
    | none => false
    | some g => g.cls == .h && g.lrec.restartable
  if est.all (fun x => match x with | none => false | some n => n ≤ b) then .drain
  else if (ts.map (fun e => e.2.hwm)).sum ≤ 1000 * b then .save
  else if ((ts.filter (fun e => !restartable e.2)).map (fun e => e.2.hwm)).sum ≤ 1000 * b then .discard
  else .overrun

/-- Discards a team (TEAM_DISCARD, R126): its index returns to its launch's unplaced teams. -/
def discardTeam (s : State) (e : Nat × Team) : State :=
  (s.updGrid e.2.grid (fun g => { g with returned := g.returned ++ [e.2.index] })).removeTeam e.1

/-- The remaining teams of a cluster after a choice. -/
def applyChoice (s : State) (ts : List (Nat × Team)) : Choice → State
  | .drain => s
  | .save | .overrun => ts.foldl (fun s e => s.saveTeam e.1) s
  | .discard => ts.foldl (fun s e => match Tbl.find s.grids e.2.grid with
    | none => s
    | some g => if g.cls == .h && g.lrec.restartable then s.discardTeam e else s.saveTeam e.1) s

/-- A claim or a move holds the choice of a cluster (R130, R133). -/
def choiceHeld (s : State) (cl : Nat) : Bool :=
  s.claims.any (fun c => clusterOf c.core == cl) || (List.range 48).any (fun i => s.moveAt (cl * 48 + i))

/-- A relock holds the halt of a cluster as well (R14, R130). -/
def haltHeld (s : State) (cl : Nat) : Bool := s.choiceHeld cl || (List.range 8).any (fun i => (s.hob (cl * 8 + i)).relockEnd.isSome)

/-- The outgoing teams of a cluster whose cores can halt now: their hob does not relock (R130). -/
def halting (s : State) (p vf cl : Nat) : List (Nat × Team) := (s.outgoing p vf cl).filter (fun e => !s.asleep e.2.core)

end State

/-- SLICE_END (R125): at tick E a cluster chooses what becomes of the outgoing teams that are still resident; those of a hob that relocks halt
at the end of the relock (R130). -/
def execSliceEnd (cluster : Fin 8) (s : State) : Host.Outcome State Fault Refusal :=
  match s.ownerOf cluster.val with
  | none => .next s
  | some p =>
    let x := s.part p
    match x.slice.cur with
    | none => .next s
    | some vf =>
      if !s.running || !x.slice.switching || x.slice.choices.any (fun e => e.1 == cluster.val) then .next s
      else if s.choiceHeld cluster.val then .next (s.soon (.sliceEnd cluster))
      else
        let b := State.switchTicks x
        let c := s.sliceChoice b (s.outgoing p vf cluster.val)
        let s := s.updPart p (fun x => { x with slice := { x.slice with choices := x.slice.choices ++ [(cluster.val, c)] } })
        let s := s.applyChoice (s.halting p vf cluster.val) c
        .next ((if c == .drain then s.atTick (max s.reft (x.slice.stop + b)) (.drainDeadline cluster) else s).soonOnce (.shadowExchange cluster))

/-- DRAIN_DEADLINE (R125): a team that is still resident at E + B is saved: the choice has become a save. -/
def execDrainDeadline (cluster : Fin 8) (s : State) : Host.Outcome State Fault Refusal :=
  match s.ownerOf cluster.val with
  | none => .next s
  | some p =>
    let x := s.part p
    match x.slice.cur with
    | none => .next s
    | some vf =>
      if !s.running || !x.slice.switching || !x.slice.choices.contains (cluster.val, .drain) || s.reft < x.slice.stop + State.switchTicks x then .next s
      else if s.choiceHeld cluster.val then .next (s.soon (.drainDeadline cluster))
      else
        let s := s.updPart p (fun x => { x with slice := { x.slice with
          choices := x.slice.choices.map (fun e => if e.1 == cluster.val then (e.1, .save) else e) } })
        .next ((s.applyChoice (s.halting p vf cluster.val) .save).soonOnce (.shadowExchange cluster))

/-- SHADOW_EXCHANGE (R127): the outgoing teams that a relock had held halt; once none is resident, and the shadow arrays of the cluster's cores
hold the incoming context, the live and shadow arrays exchange, and the partition switches at the tick at which its last cluster has (R128). What the arrays hold stands in the records of the teams
and waves (LE 16). -/
def execShadowExchange (cluster : Fin 8) (s : State) : Host.Outcome State Fault Refusal :=
  match s.ownerOf cluster.val with
  | none => .next s
  | some p =>
    let x := s.part p
    match x.slice.cur with
    | none => .next s
    | some vf =>
      if !s.running || !x.slice.switching || !x.slice.choices.any (fun e => e.1 == cluster.val) || x.slice.exchanged.contains cluster.val then .next s
      else
      let s := if s.choiceHeld cluster.val then s
        else x.slice.choices.foldl (fun s e => if e.1 == cluster.val then s.applyChoice (s.halting p vf cluster.val) e.2 else s) s
      let cores := (List.range 48).map (cluster.val * 48 + ·)
      if !(s.outgoing p vf cluster.val).isEmpty || s.haltHeld cluster.val then .next (s.soon (.shadowExchange cluster))
      else if x.slice.next.isSome && cores.any (fun c => (s.core c).preload != x.slice.next) then
        .next ((s.preload cores x.slice.next).soon (.shadowExchange cluster))
      else
        let s := s.preload cores none
        let late := x.slice.stop + State.switchTicks x < s.reft
        let s := s.updPart p (fun x => { x with slice := { x.slice with
          exchanged := x.slice.exchanged ++ [cluster.val]
          late := if late then x.slice.late ++ [cluster.val] else x.slice.late } })
        let i := Instr.switchComplete (Fin.ofNat 8 p)
        .next (if s.due i then s else s.atTick s.reft i)

/-- SWITCH_COMPLETE (R128, R129): every cluster has switched; the overrun is charged to the outgoing virtual device and the incoming one
starts on all clusters at once. -/
def execSwitchComplete (p : Fin 8) (s : State) : Host.Outcome State Fault Refusal :=
  let x := s.part p.val
  match x.slice.cur with
  | none => .next s
  | some vf =>
    if !s.running || !x.slice.switching || !((s.clustersOf p.val).all (fun c => x.slice.exchanged.contains c)) then .next s
    else
      let excess := s.reft - (x.slice.stop + State.switchTicks x)
      let s := if excess == 0 then s
        else (s.updVd vf (fun d => { d with charge := excess })).logged (.overrun p.val vf excess x.slice.late)
      match x.slice.next with
      | some v => .next (s.startSlice p.val v)
      | none => .next ((s.updPart p.val (fun x => { x with slice := { Slice.reset with start := x.slice.start } })).gainWork p.val)

/-! ## Thermal migration (R131 to R133) -/

namespace State

/-- How a team fits the target of a move: at its own offset, with no claim (R131, R132); of a move under way, as the target has reserved it. -/
def moveFit (s : State) (t : Nat) (k : Team) (target : Nat) : Option Fit :=
  match (s.core target).incoming.find? (fun e => e.1 == t), Tbl.find s.grids k.grid with
  | some e, _ => some e.2
  | none, none => none
  | none, some g =>
    let hi := k.start + g.lrec.bytes
    let gScratch := fieldOf (s.part g.part).share 14 8 * 4096
    let room := hi ≤ max (s.core target).carve g.lrec.carve * 65536 && !((s.takenRanges target).any (fun r => r.1 < hi && k.start < r.2))
      && (g.cls == .g || g.lrec.bytes == 0 || gScratch ≤ k.start) && s.logUsed target + (s.teamLog k.core t).length ≤ 64
    let still := !((s.wavesOf t).any (fun e => e.2.evicted.isSome || e.2.lent))
    if clusterOf target != clusterOf k.core || hobOf target == hobOf k.core || !room || !still then none
    else (s.fit target g.part g.lrec g.cls false).map (fun f => { f with start := k.start })

/-- Kettle may begin the move of a team (R131, R133). -/
def mayMove (s : State) (t : Nat) (k : Team) (target : Nat) : Bool :=
  let p := (s.gridOf k).map (fun g => g.part)
  s.running && s.kettle.running && s.preemptible t && k.since + 2000000 ≤ s.reft && k.yieldBy.isNone
  && !(s.claims.any (fun c => c.core == k.core || c.core == target)) && !s.moveAt k.core && !s.moveAt target
  && (match p with | none => false | some p => !(s.part p).slice.switching)
  && (s.moveFit t k target).isSome

/-- The outstanding set of a core with the chips of another one (R56, R218). -/
def joinOut (l m : Tbl (Nat × Bool)) : Tbl (Nat × Bool) :=
  m.foldl (fun l e => let x := Tbl.getD l e.1 (0, false); Tbl.put l e.1 (max x.1 e.2.1, x.2 || e.2.2)) l

/-- The requests of some waves and jobs that are not acknowledged belong to the core to which they have moved. -/
def takeRequests (s : State) (target : Nat) (ids js : List Nat) : State :=
  { s with fab := { s.fab with unacked := s.fab.unacked.map (fun u =>
      if u.wid.any (fun w => ids.contains w.1) || u.job.any js.contains then { u with core := target } else u) } }

/-- On another die a team's requests are that die's (R57): its accesses, its jobs and its side-log entries ask for their leases anew, and so do its
requests that were rejected; and the copies that the die holds may be older than what the team has met, so they go (R218). -/
def crossDie (s : State) (t target : Nat) : State :=
  let d := dieOf target
  let ws := (s.wavesOf t).map (fun e => e.1)
  let js := (s.jobsOf t).map (fun e => e.1)
  let s := (s.dropCopies (fun e => e.1 == d)).noKeep (fun x _ _ => dieOf x == d)
  let s := ws.foldl (fun s w => s.updWave w (fun w => w.mapPends (fun p => { p with leases := [] }))) s
  let s := js.foldl (fun s j => s.updJob j (fun j => match j.wait with | .lease _ _ _ _ => { j with wait := .no } | _ => j)) s
  let s := s.updCore target (fun c => { c with sideLog := c.sideLog.map (fun e => if ws.contains e.wid then { e with lease := none } else e) })
  let s := (s.fab.unacked.filter (fun u => u.rejected && !u.faulted && (u.wid.any (fun w => ws.contains w.1) || u.job.any js.contains))).foldl
    (fun s u => match u.page with
      | none => s
      | some g => s.requestLease d u.part u.cls u.chip g (if u.op.isSome then .atomic else .write)) s
  (s.fab.reads.filter (fun r => r.rejected && (r.wid.any (fun w => ws.contains w.1) || r.job.any js.contains))).foldl
    (fun s r => s.requestLease d r.part r.cls r.chip r.page .read) s

/-- What a team has on its core goes with it to another one (R112, R135, R218): its waves' side-log entries, the outstanding set, its requests that
are not acknowledged, its jobs. -/
def carryOver (s : State) (t old target : Nat) : State :=
  let ids := (s.wavesOf t).map (fun e => e.1)
  let log := (s.core old).sideLog.filter (fun e => ids.contains e.wid)
  let out := (s.core old).outstanding
  let s := s.updCore old (fun c => { c with sideLog := c.sideLog.filter (fun e => !ids.contains e.wid) })
  let s := s.updCore target (fun c => { c with sideLog := c.sideLog ++ log, outstanding := joinOut c.outstanding out })
  let s := (s.jobsOf t).foldl (fun s e => s.updJob e.1 (fun j => { j with core := target })) s
  let s := s.takeRequests target ids ((s.jobsOf t).map (fun e => e.1))
  if dieOf old == dieOf target then s else s.crossDie t target

/-- A team that Funnel has moved is resident on its target (R131, R132): its PC table entries, its side-log entries and its outstanding set go
with it (R166, R218). -/
def arrive (s : State) (t : Nat) (k : Team) (target : Nat) (g : Grid) (f : Fit) : State :=
  let old := k.core
  let s := (((s.spillAll t k).homeAll t).takePcs t k).notComing target t
  let tv := k.tileSave.getD (s.tilesOut old k.tiles)
  let img := (s.core old).scratch.filter (fun e => k.start ≤ e.1 && e.1 < k.start + k.hwm)
  let ws := s.wavesOf t
  let oldClk := (s.hob (hobOf old)).clk
  let s := ws.foldl (fun s e => s.updWave e.1 (fun w => { (movedWave f g.lrec.slabs w).pauseClock oldClk with parkClk := none })) s
  let s := (s.freshI target t k.grid).raiseCarve target g.lrec.carve
  let slot := s.freeSlot target
  let s := (s.carryOver t old target).updCore old (fun c => { c with
    forwards := c.forwards ++ [⟨k.start, k.start + g.lrec.bytes, target, s.reft + 64000⟩] })
  let s := s.updCore target (fun c => { c.tagsTaken g.lrec with
    scratch := img.foldl (fun m e => Memory.put m e.1 e.2) (Memory.clear c.scratch k.start (k.start + g.lrec.bytes))
    scrBad := (c.healScratch k.start (k.start + g.lrec.bytes)).scrBad ++ (s.core old).badLines k.start (k.start + k.hwm) })
  let s := (s.dropL1 target).noKeep (fun x _ _ => x == target)
  let s := s.dropReqs (.team t)
  let s := s.updTeam t (fun k => { k with
    core := target, slot := slot, tiles := sortBy id f.tiles.1, tileSave := some tv, loc := .resident, since := s.reft
    runTime := s.ran k, clk0 := (s.hob (hobOf target)).clk })
  let s := ((s.tilesBack t).givePcs t).fileAgain t
  let s := (s.jobsOf t).foldl (fun s e => s.updJob e.1 (fun j => { j with core := target, paused := false })) s
  let s := ws.foldl (fun s e => if e.2.retired then s else s.waveBack e.1) s
  let s := (s.after 64000 (.forwardingExpiry old)).kickTeam t
  (((s.noteRest t { k with core := target }).throttleMoved t old target).boundary target).freed old

end State

/-- THERMAL_MIGRATION (R131): Kettle begins to move a resident team to another core of its cluster, which reserves what the team will hold and
takes its bytes at 1,000 in a tick. -/
def execThermalMigration (team target : Nat) (s : State) : Host.Outcome State Fault Refusal :=
  match Tbl.find s.teams team with
  | none => .next s
  | some k =>
    if !s.mayMove team k target then .next s
    else
      let s : State := match s.moveFit team k target with
        | none => s
        | some f => s.updCore target (fun (c : Core) => { c with incoming := c.incoming.filter (fun e => e.1 != team) ++ [(team, { f with start := k.start })] })
      let s := s.updTeam team (fun k => { k with loc := .moving target })
      let s := (s.jobsOf team).foldl (fun s e => s.updJob e.1 (fun j => { j with paused := true })) s
      .next (s.after ((k.hwm + 999) / 1000) (.migrationComplete team))

/-- MIGRATION_COMPLETE (R131, R132); the claims that waited for the end of the move begin (R133). While the hob of one of the two cores
relocks, the end of the move waits (R14, R15). -/
def execMigrationComplete (team : Nat) (s : State) : Host.Outcome State Fault Refusal :=
  match Tbl.find s.teams team with
  | none => .next s
  | some k =>
    match k.loc, Tbl.find s.grids k.grid with
    | .moving target, some g =>
      if !s.running then .next s
      else if s.asleep k.core then .next (s.atRelockEnd k.core (.migrationComplete team))
      else if s.asleep target then .next (s.atRelockEnd target (.migrationComplete team))
      else
      let t := s.updTeam team (fun k => { k with loc := .resident })
      let t := match t.moveFit team k target with
        | none => ((t.jobsOf team).foldl (fun (s : State) (e : Nat × Job) => s.updJob e.1 (fun j => { j with paused := false })) t).kickTeam team
        | some f => t.arrive team k target g f
      .next ((t.startClaims k.core).startClaims target)
    | _, _ => .next s

/-- FORWARDING_EXPIRY (R132): the forwarding entries of a core whose time is over go, and their bytes are free. -/
def execForwardingExpiry (core : Nat) (s : State) : Host.Outcome State Fault Refusal :=
  let s := s.updCore core (fun c => { c with forwards := c.forwards.filter (fun f => s.reft < f.till) })
  .next ((s.lowerCarve core).freed core)

end Sys2Proof.Machine
end

