-- ==== Sys2Proof/Machine/Resolve.lean ====
section
/-!
DEFINITION. FQ_RESOLVE at a core (R199): the waves, the side-log entries and the jobs of the core that wait on the page go on, fault again or end.
-/

namespace Sys2Proof.Machine

namespace State

/-- The level at which a waiting access to a page of this chip faults again, where its queue takes the record now. An access through
the peer window, and one whose record has to wait, is translated when the instruction goes on. -/
def faultsAgain (s : State) (p : Nat) (x : PageWait) : Option Nat :=
  if x.peer || !s.fqRoom p 1 then none
  else match s.walk p x.asid x.va with
    | .fault l => some l
    | _ => none

/-- The record of a waiting access that faults again. -/
def recordAgain (s : State) (p wid : Nat) (w : Wave) (x : PageWait) (level : Nat) : State :=
  let r : FaultRec := {
    core := s.coreOf wid
    id := x.id
    va := x.va
    asid := x.asid
    lane := x.lane
    slot := w.slot
    kind := x.kind
    level := level
    peer := none }
  s.fqRecords p [r]

/-- What a write of FQ_RESOLVE with FAIL = 0 does for a wait of a wave: the access is translated again, and either faults again or waits no
more. An export page that was not present is asked for again. -/
def resolveWait (s : State) (p wid : Nat) (w : Wave) (x : PageWait) : State :=
  match s.faultsAgain p x with
  | some l => s.recordAgain p wid w x l
  | none => s.updWave wid (fun w => w.mapPends (fun q =>
      if q.pages.contains x then { q with pages := q.pages.filter (fun y => y != x), absent := [] } else q))

/-- What a write of FQ_RESOLVE does for a wave: with FAIL = 1 its waits on the page end. -/
def resolveWave (s : State) (p asid page : Nat) (fail : Bool) (wid : Nat) (w : Wave) : State :=
  let on := fun (y : PageWait) => y.asid == asid && y.page == page
  let xs := ((w.pend :: w.pends).flatMap (fun q => q.pages)).filter on
  if xs.isEmpty then s
  else if fail then
    s.updWave wid (fun w => w.mapPends (fun q => { q with pages := q.pages.map (fun y => if on y then { y with failed := true } else y) }))
  else xs.foldl (fun s x => s.resolveWait p wid w x) s

/-- What it does with FAIL = 0 for an entry of a side log on the page (R196): an entry that faults again gets a new record at once where
the queue takes it; the others are replayed in their order. -/
def resolveEntry (s : State) (c : Nat) (e : SideEntry) : State :=
  match s.entryGo e.wid e.asid e.peer (entryRight e) e.va with
  | .fault _ l chip => s.entryFault c e l chip
  | _ => s.setEntry c e { e with resolved := true }

/-- A job that waits on a page goes on, or ends (R334); a schedule entry whose card was being read is skipped (R188). -/
def resolveJob (s : State) (id : Nat) (j : Job) (asid page : Nat) (fail : Bool) : State :=
  match j.wait with
  | .page a va =>
    if a != asid || va / 65536 != page then s
    else if !fail then (s.updJob id (fun j => { j with wait := .no, absent := [] })).kick id
    else if j.card.isEmpty then
      (match j.team with
        | none => s.forgetJob id
        | some t => ((s.schedSkip t j 0x32 (some va)).schedule t 257).checkTeam t)
    else s.jobCause id 0x32 (some va)
  | _ => s

/-- The cores on which something of a partition waits on a page. -/
def resolveCores (s : State) (p asid page : Nat) : List Nat :=
  let on := fun (y : PageWait) => y.asid == asid && y.page == page
  dedup ((s.waves.filter (fun e => s.partOf e.1 == p && (e.2.pend :: e.2.pends).any (fun q => q.pages.any on))).map (fun e => s.coreOf e.1)
    ++ (s.jobs.filter (fun e => e.2.part == p && e.2.team.isSome && (match e.2.wait with
      | .page a va => a == asid && va / 65536 == page
      | _ => false))).map (fun e => e.2.core)
    ++ (s.cores.filter (fun e => e.2.sideLog.any (fun x => x.asid == asid && x.page == page && s.partOf x.wid == p))).map (fun e => e.1))

/-- A resolved page at a core, for the teams that `sel` names: its waves and its jobs that wait on it, and the entries of its side log. -/
def resolveAt (s : State) (c p asid page : Nat) (fail : Bool) (sel : Team → Bool) : State :=
  let ours := fun (t : Nat) => (Tbl.find s.teams t).any sel
  let s := (s.waves.filter (fun e => s.partOf e.1 == p && s.coreOf e.1 == c && ours e.2.team)).foldl
    (fun s e => s.resolveWave p asid page fail e.1 e.2) s
  let s := (s.jobs.filter (fun e => e.2.part == p && e.2.core == c && e.2.team.any ours)).foldl
    (fun s e => s.resolveJob e.1 e.2 asid page fail) s
  let mine := (s.core c).sideLog.filter (fun e => e.asid == asid && e.page == page && !e.resolved && e.rel.isNone && s.partOf e.wid == p
    && (Tbl.find s.waves e.wid).any (fun w => ours w.team))
  if mine.isEmpty then s
  else if fail then
    let ts := dedup (mine.filterMap (fun e => (Tbl.find s.waves e.wid).map (fun w => w.team)))
    ts.foldl (fun s t => s.checkTeam t) ((mine.foldl (fun s e => s.refuseEntry c e) s).drainLog c)
  else (mine.foldl (fun s e => s.resolveEntry c e) s).drainLog c

end State

end Sys2Proof.Machine
end

