-- ==== Sys2Proof/Machine/Power.lean ====
section
/-!
DEFINITION. Power, clocks and throttling (R14, R17, R20 to R28, R34, R80): what comes from the baseboard, the ends of relocks, the boost
allowance, the two stages of throttling, power-on and the package reset.
-/

namespace Sys2Proof.Machine

namespace State

/-! ## The end of a relock (R15) -/

/-- The core on which an access to an offset of a core is performed: where its team has moved, the target (R132). -/
def forwarded (s : State) (c off : Nat) : Nat :=
  (((s.core c).forwards.find? (fun f => f.lo ≤ off && off < f.hi && s.reft < f.till)).map (fun f => f.target)).getD c

/-- The offset that a packet names. -/
def packetOff : Packet → Option Nat
  | .store off _ _ _ | .load _ _ _ off _ | .rmw _ _ _ off _ => some off
  | _ => none

/-- A packet leaves the FIFO of a core and has its effect. -/
def takePacket (at_ : Nat) (s : State) (p : Packet) : State :=
  let c := ((packetOff p).map (s.forwarded at_)).getD at_
  if s.asleep c then s.toFifo c p
  else match p with
  | .store off bs wid job =>
    let s := s.storeScratch ((wid.bind s.teamOfWave).or (job.bind s.teamOfJob)) c off bs
    let s := (job.map s.jobWritten).getD s
    ((wid.bind s.teamOfWave).map (fun t => (s.kickTeam t).checkTeam t)).getD s
  | .load wid lane id off n => s.answerTo wid lane id (s.scratchBytes c off n)
  | .rmw wid lane id off o =>
    let bs := s.scratchBytes c off (rmwBytes o)
    (s.storeScratch (s.teamOfWave wid) c off (natBytes (rmwBytes o) (rmwNew o (bytesNat bs)))).answerTo wid lane id bs
  | .answer wid lane id bs => s.answerTo wid lane id bs
  | .go job => (s.updJob job (fun j => { j with wait := if j.wait == .fifo then .no else j.wait })).kick job
  | .response r => s.atTick s.reft (.response r)
  | .roce port qp pk => s.atTick s.reft (.rocePacket port qp pk)
  | .written job => s.jobWritten job
  | .cause job code addr => s.jobCause job code addr
  | .cbar key phase wid => s.releaseCbar key phase wid
  | .collw p g n wid => s.releaseCollw p g n wid
  | .ljoin wid st => s.passLjoin wid st
  | .lease p chip page rs why => s.leaseAt c p chip page rs why
  | .unask wid q chip page why => s.unaskAt wid q chip page why
  | .refuse wid d => s.refused wid d
  | .check wid id => s.pendCheck wid id
  | .cut wid ids chips => s.cutAt wid ids chips
  | .start t => s.startCore t
  | .resolve p asid page fail => s.resolveAt c p asid page fail (fun _ => true)

/-- The cores of a hob. -/
def coresOfHob (h : Nat) : List Nat := (List.range 6).map (h / 8 * 48 + h % 8 * 6 + ·)

/-- A relock of a hob has ended: the FIFOs of its cores drain in arrival order (R15), the claims that came during it begin (R135), and their engines
go on (R14). Saved teams that belong there may resume (R127). -/
def drainFifos (s : State) (h : Nat) : State :=
  (coresOfHob h).foldl (fun s c =>
    let ps := (s.core c).inbound
    let s := ps.foldl (takePacket c) (s.updCore c (fun k => { k with inbound := [] }))
    let s := if s.moveAt c then s else s.startClaims c
    let s := if s.teams.any (fun e => e.2.loc == .saved && e.2.core == c) then s.freed c else s
    (s.teamsOn c).foldl (fun s e => s.kickTeam e.1) s) s

/-! ## Boost (R20) -/

/-- The end of the allowance of a hob that runs above step 12, and the end of its window. -/
def armBoost (s : State) (h : Nat) : State :=
  let k := s.hob h
  if 12 < k.step && k.relockEnd.isNone then
    let s := (s.withdraw (.boostExhausted (Fin.ofNat 64 h))).after (s.allowance h - k.charge) (.boostExhausted (Fin.ofNat 64 h))
    if s.due .boostWindow then s else s.atTick ((s.reft / 1000000000 + 1) * 1000000000) .boostWindow
  else s

/-- A hob takes the operating point that its class and its allowance give; neither move raises a throttle cause. -/
def boostMove (s : State) (h : Nat) : State :=
  let s := s.updHob h (fun k => { k with opStep := classStep (s.pool k.pool).cls (s.spent h) })
  (s.updHob h (fun k => { k with throttled := s.below h })).settle h

/-! ## Throttling (R21, R22) -/

/-- Some cause of throttling stands. -/
def throttling (s : State) : Bool := s.pkg.underVolt || s.pkg.overTemp || s.pkg.overPower || s.pkg.prochot

/-- The first stage: Kettle lowers the operand-grant ceiling of a hob (LE 15). -/
def lowerCeil (s : State) (h : Nat) : State :=
  if (s.hob h).ceil ≤ 1 then s
  else ((s.updHob h (fun k => { k with ceil := 1 + Config.kettleChoice s.fresh % (k.ceil - 1) })).drawn).noteThrottle h

/-- A cause of throttling has come: no step that Kettle had set itself is released while it stands (R22). -/
def haltReleases (s : State) : State :=
  { s with agenda := s.agenda.filter (fun e => match e.2 with
             | .throttleRelease h => (s.hob h.val).releaseAt != some e.1
             | _ => true)
           hobs := s.hobs.map (fun e => (e.1, { e.2 with releaseAt := none })) }

/-- The first stage for every hob. While Kettle is down nothing is lowered; it lowers every ceiling when it runs again with the cause
still standing (`resumeThrottle`, LE 76). -/
def lowerAll (s : State) : State :=
  if s.kettle.running then (List.range 64).foldl (fun (s : State) (h : Nat) => s.lowerCeil h) s.haltReleases else s

/-- The hob is held below its operating point by a step or a ceiling that is to be released. -/
def heldDown (s : State) (h : Nat) : Bool := (s.hob h).throttle.isSome || (s.hob h).ceil < 8

/-- Sets the tick of the next release of a hob, 100 µs after its last one (R22). -/
def armRelease (s : State) (h : Nat) : State :=
  if s.heldDown h && (s.hob h).releaseAt.isNone then
    let t := match (s.hob h).lastRelease with
      | none => s.reft
      | some l => max s.reft (l + 100000)
    (s.updHob h (fun k => { k with releaseAt := some t })).atTick t (.throttleRelease (Fin.ofNat 64 h))
  else s

/-- Kettle runs again (R22, R28): it throttles while a cause stands, and else goes on releasing. -/
def resumeThrottle (s : State) : State :=
  if s.throttling then s.lowerAll else (List.range 64).foldl (fun (s : State) (h : Nat) => s.armRelease h) s.haltReleases

/-! ## Power-on and reset (R27, R34) -/

/-- What a package reset leaves: generation 0 of the layout and reset values, but for the timer, the flash and the fuses, the contents of
HBM, and what lies outside the package. What the partitions wrote decrypts under another key (R40). A change of layout that was open is
gone: the journal is IDLE and the last outcome OK (LE 76). Every soft repair is kept and becomes permanent, at a power cycle and where its copy was
not over too (LE 83). The boot ROM starts. -/
def restarted (s : State) : State :=
  let k := s.kettle
  let h := s.dev.health
  let s := (List.range 8).foldl (fun (s : State) (p : Nat) =>
    if (s.part p).present then s.rekey (s.part p).hbmBase.toNat ((s.part p).hbmBase.toNat + (s.part p).hbmSize.toNat) else s) s
  let t := { State.reset with
    reft := s.reft
    time := { s.time with reftSync := false, ratePpm := 0, frac := 0 }
    kettle := { Kettle.reset with
      running := false
      current := none
      slotA := k.slotA
      slotB := k.slotB
      fused := k.fused
      identity := k.identity
      chain := k.chain
      hvKey := k.hvKey
      repairs := k.repairs.map (fun (r : Repair) => { r with copying := false, permanent := true })
      lastRepair := k.lastRepair
      rowErrs := k.rowErrs
      repairDue := k.repairDue
      fencedPc := k.fencedPc.filter (fun (f : PcFence) => f.draw.isSome)
      healed := k.healed }
    dev := { Dev.reset with
      health := setField (setField (setField (0 : Word) 11 11 (fieldOf h 11 11)) 8 8 (fieldOf h 8 8)) 7 4 (fieldOf h 7 4)
      alarmPolicy := if fieldOf s.dev.alarmPolicy 31 31 == 1 then s.dev.alarmPolicy else Dev.reset.alarmPolicy }
    log := s.log
    outbox := s.outbox
    mem := s.mem
    stale := s.stale
    poison := s.poison
    hostMem := s.hostMem
    nextId := s.nextId
    fresh := s.fresh
    agenda := s.agenda.filter (fun (e : Nat × Instr) => e.2 == Instr.ppsAbsent)
    pkg := { s.pkg with
      coresHeld := true, halted := false, alertN := false, prochot := false, underVolt := false, overTemp := false, overPower := false } }
  t.soon .kettleBoot

end State

/-- POWER_ON (R27): the package starts from nothing but its flash, its fuses and what lies outside it. -/
def execPowerOn (s : State) : Host.Outcome State Fault Refusal :=
  if s.pkg.power == .on then .next s
  else
    let s := { s with reft := 0, time := State.reset.time, mem := [], stale := [], poison := [], agenda := []
                      parts := [], dev := { s.dev with alarmPolicy := 0 }
                      kettle := { s.kettle with healed := [], lastRepair := [], rowErrs := [], repairDue := [] } }
    .next { s.restarted with pkg := { Pkg.reset with coresHeld := true } }

/-- PACKAGE_RESET (R34). After a brown-out the cores leave reset only with the input at 46 V or above, which the input shows at that
moment (R24). -/
def execPackageReset (s : State) : Host.Outcome State Fault Refusal :=
  if s.pkg.power != .on then .next s
  else
    let out := s.pkg.trip == .brownOut && !(Config.freeWord s.fresh 0).getLsbD 0
    let s := s.drawn
    .next ({ s with pkg := { s.pkg with
      inputOk := !out, thermTripN := out, trip := if out then .brownOut else .none } }).restarted

/-! ## The input and the sensors (R22, R24, R25) -/

/-- BROWN_OUT (R24). -/
def execBrownOut (s : State) : Host.Outcome State Fault Refusal :=
  if s.pkg.power != .on then .next s
  else .next { s with pkg := { s.pkg with thermTripN := true, trip := .brownOut, coresHeld := true, inputOk := false } }

/-- INPUT_UNDERVOLTAGE (R24). -/
def execInputUndervoltage (s : State) : Host.Outcome State Fault Refusal :=
  if s.pkg.power != .on then .next s
  else .next ((({ s with pkg := { s.pkg with underVolt := true } }).logged .inputLow).alerted).lowerAll

/-- INPUT_OVERVOLTAGE_WARNING (R24). -/
def execInputOvervoltageWarning (s : State) : Host.Outcome State Fault Refusal :=
  if s.pkg.power != .on then .next s else .next (s.logged .inputHigh).alerted

/-- OVER_VOLTAGE_SHUTDOWN (R24): the device is off until power has been cycled. -/
def execOverVoltageShutdown (s : State) : Host.Outcome State Fault Refusal :=
  if s.pkg.power != .on then .next s
  else .next { s with pkg := { s.pkg with power := .shutDown, thermTripN := true, trip := .overVoltage }, agenda := [] }

/-- THERMAL_TRIP (R25): the device is off until power has been cycled. -/
def execThermalTrip (s : State) : Host.Outcome State Fault Refusal :=
  if s.pkg.power != .on then .next s
  else .next { s with pkg := { s.pkg with power := .shutDown, thermTripN := true, trip := .thermal }, agenda := [] }

/-- PROCHOT_ASSERT (R22): every hob is throttled. -/
def execProchotAssert (s : State) : Host.Outcome State Fault Refusal :=
  if s.pkg.power != .on then .next s else .next ({ s with pkg := { s.pkg with prochot := true } }).lowerAll

/-- THROTTLE_CAUSE (R21, R22): the cause stands, and Kettle lowers the hob's ceiling. -/
def execThrottleCause (c : ThrCause) (h : Fin 64) (s : State) : Host.Outcome State Fault Refusal :=
  if s.pkg.power != .on || !s.kettle.running then .next s
  else
    let s := match c with
      | .temperature => { s with pkg := { s.pkg with overTemp := true } }
      | .power => { s with pkg := { s.pkg with overPower := true } }
      | .input => { s with pkg := { s.pkg with underVolt := true } }
    .next (s.haltReleases.lowerCeil h.val)

/-- THROTTLE_STEP_DOWN (R21): the second stage, at most once per 10 µs. -/
def execThrottleStepDown (h : Fin 64) (s : State) : Host.Outcome State Fault Refusal :=
  let k := s.hob h.val
  let early := match k.lastLower with
    | none => false
    | some t => s.reft < t + 10000
  if s.pkg.power != .on || !s.kettle.running || !s.throttling || k.ceil == 8 || early || s.targetStep h.val == 0 then .next s
  else
    let s := s.updHob h.val (fun k => { k with
      throttle := some (s.targetStep h.val - 1), lastLower := some s.reft })
    .next ((s.noteThrottle h.val).settle h.val)

/-- THROTTLE_RELEASE (R22): the causes have cleared; Kettle releases one step of the hob, then its ceiling (LE 15), and goes on 100 µs
later; every other hob that it holds down is released in the same way. -/
def execThrottleRelease (h : Fin 64) (s : State) : Host.Outcome State Fault Refusal :=
  let k := s.hob h.val
  let early := match k.lastRelease with
    | none => false
    | some t => s.reft < t + 100000
  if s.pkg.power != .on || !s.kettle.running || early || (k.throttle.isNone && k.ceil == 8) then .next s
  else
    let s := { s with pkg := { s.pkg with underVolt := false, overTemp := false, overPower := false, prochot := false } }
    let s := match k.throttle with
      | some t => s.updHob h.val (fun k => { k with
          throttle := if t + 1 < k.opStep then some (t + 1) else none, lastRelease := some s.reft })
      | none => (s.updHob h.val (fun k => { k with
          ceil := k.ceil + 1 + Config.kettleChoice s.fresh % (8 - k.ceil), lastRelease := some s.reft })).drawn
    let s := (s.noteThrottle h.val).settle h.val
    let s := s.updHob h.val (fun k => { k with releaseAt := none })
    .next ((List.range 64).foldl (fun (s : State) (i : Nat) => s.armRelease i) s)

/-- BACKSTOP_CEILING (R28). -/
def execBackstopCeiling (h : Fin 64) (s : State) : Host.Outcome State Fault Refusal :=
  if s.pkg.power != .on || s.kettle.running then .next s
  else .next ((s.updHob h.val (fun k => { k with ceil := 1 })).noteThrottle h.val)

/-- RELOCK_END (R14): the first cycle at the new step begins at the end of the 600 ticks; what waited for the end is done. -/
def execRelockEnd (h : Fin 64) (s : State) : Host.Outcome State Fault Refusal :=
  match (s.hob h.val).relockEnd with
  | none => .next s
  | some e =>
    if s.reft < e then .next s
    else
      let again := (s.hob h.val).again
      let p := (s.hob h.val).pool
      let s := s.updHob h.val (fun k => ({ k with relockEnd := none, again := false, phase := 0 }).elapse (s.reft - e) (s.reft - e))
      let s := (s.drainFifos h.val).relog
      let s := s.armBoost h.val
      let s := if (s.pool p).waits then s.resolvePool p else s
      .next (if again then s.settle h.val else s)

/-- BOOST_EXHAUSTED (R20): at once, at whatever instruction is executing. -/
def execBoostExhausted (h : Fin 64) (s : State) : Host.Outcome State Fault Refusal :=
  let k := s.hob h.val
  if k.step ≤ 12 || k.relockEnd.isSome || k.charge < s.allowance h.val then .next s
  else .next ((s.updHob h.val (fun k => { k with exhausted := true })).boostMove h.val)

/-- BOOST_WINDOW (R20): the charges start anew and hobs return to step 15. -/
def execBoostWindow (s : State) : Host.Outcome State Fault Refusal :=
  .next ((List.range 64).foldl (fun (s : State) (h : Nat) =>
    ((s.updHob h (fun k => { k with charge := 0, exhausted := false })).boostMove h).armBoost h) s)

/-! ## The reference timer (R17, R80) -/

/-- The grandmaster of a domain gives its time in a packet on every live plane (R17, R51, LE 77). -/
def State.sendPtp (s : State) : State := if s.dev.masterAct && s.joined then s.broadcast (fun p => .ptp p s.reft) else s

/-- PPS_PULSE (R17): PPS_PRESENT is set for 2 s; the grandmaster takes its time from the pulse by a change of its rate, which the manual
does not give but bounds (LE 13). -/
def execPpsPulse (s : State) : Host.Outcome State Fault Refusal :=
  if s.pkg.power != .on then .next s
  else
    let s := (s.withdraw .ppsAbsent).after 2000000000 .ppsAbsent
    let s := { s with time := { s.time with ppsPresent := true, lastPps := some s.reft } }
    .next (if s.dev.masterAct then
      (({ s with time := { s.time with ratePpm := ((Config.freeWord s.fresh 0).toNat % 201 : Nat) - 100 } }).drawn).sendPtp
    else s)

/-- PPS_ABSENT (R80): the grandmaster runs free (R17), with the rate correction that it had last (LE 81). -/
def execPpsAbsent (s : State) : Host.Outcome State Fault Refusal :=
  match s.time.lastPps with
  | none => .next s
  | some t => if s.reft < t + 2000000000 then .next s else .next { s with time := { s.time with ppsPresent := false, lastPps := none } }

/-- PTP_MESSAGE (R17): a chip of a domain that is not its master is stepped once, forward only, and is corrected in rate from then on. A
first message whose time is not ahead of the chip's own sets REFT_SYNC without a step (LE 76). At the grandmaster it is a chip's
request for the time, which a packet answers (LE 77). -/
def execPtpMessage (t : Nat) (ppm : Int) (s : State) : Host.Outcome State Fault Refusal :=
  if s.pkg.power != .on || !s.fabEnabled then .next s
  else if s.dev.masterAct then .next s.sendPtp
  else if fieldOf s.dev.fabId 20 11 == s.chipId then .next s
  else if s.time.reftSync then .next { s with time := { s.time with ratePpm := max (-100) (min 100 ppm) } }
  else .next { s with reft := max s.reft (t % 2 ^ 64), time := { s.time with reftSync := true } }

end Sys2Proof.Machine
end

