-- ==== Sys2Proof/Machine/Layout.lean ====
section
/-!
DEFINITION. Partition layouts (R29 to R34, R399): the mailbox (R83), what Kettle refuses, the journal, the flip and its commitment, and the stop
and the start of partitions.
-/

namespace Sys2Proof.Machine

/-! ## The mailbox (R83) -/

namespace State

/-- A mailbox command with a code is running and Kettle serves it. -/
def commanded (s : State) (n : Nat) : Bool :=
  s.pkg.power == .on && s.kettle.running && s.mbox.status == 1 && s.mbox.cmd.toNat == n

/-- The command completes: its status, and vector 0 of the physical function. -/
def answer (s : State) (st : Nat) : State := ({ s with mbox := { s.mbox with status := st } }).raiseIrq .pf 0

/-- Bytes of the argument buffer. -/
def bufBytes (s : State) (off n : Nat) : List Byte := Memory.read s.mbox.buf off n

/-- Writes the argument buffer. -/
def putBuf (s : State) (off : Nat) (bs : List Byte) : State := { s with mbox := { s.mbox with buf := Memory.write s.mbox.buf off bs } }

/-- The row of the command that runs. -/
def mboxRow (s : State) : Instr :=
  match s.mbox.cmd.toNat with
  | 1 => .layoutSubmit
  | 2 => .layoutQuery
  | 3 => .plan
  | 4 => .fwStage
  | 5 => .serviceReturn
  | 6 => .partitionStop
  | 7 => .partitionStart
  | 8 => .testMode
  | 9 => match (Memory.get s.mbox.buf 0).toNat with
    | 0 => .provisionGenerate
    | 1 => .provisionInstall
    | _ => .badCmd
  | _ => .badCmd

/-- A write to MBOX_CMD starts a command, unless one is running. -/
def mboxWrite (s : State) (v : Word) : State :=
  if s.mbox.status == 1 then s
  else
    let s := { s with mbox := { s.mbox with cmd := v, status := 1 } }
    s.soon s.mboxRow

end State

/-! ## The image of a layout (R30) -/

namespace Layout

/-- The partition is in PMASK. -/
def changes (l : List Byte) (p : Nat) : Bool := bitOf (fieldAt l 1 1) p

/-- CLUSTER_OWNER of a cluster. -/
def owner (l : List Byte) (c : Nat) : Nat := bitsOf (fieldAt l 4 4) (4 * c + 3) (4 * c)

/-- HOB_POOL of a hob. -/
def pool (l : List Byte) (h : Nat) : Nat := fieldAt l (0x40 + h) 1

/-- A field of the block of a partition. -/
def field (l : List Byte) (p off n : Nat) : Nat := fieldAt l (0x80 + 0x1C0 * p + off) n

/-- The image of SIEVE_BUDGET for a stack, of FAB_ALLOW for a plane. -/
def sieve (l : List Byte) (p k : Nat) : Nat := field l p (0x40 + 8 * k) 8
def allow (l : List Byte) (p k : Nat) : Nat := field l p (0x80 + 4 * k) 4

/-- The bytes of a range are zero. -/
def zero (l : List Byte) (off n : Nat) : Bool := ((l.drop off).take n).all (fun b => b == 0)

/-- The partition owns a cluster after the change. -/
def owns (l : List Byte) (p : Nat) : Bool := (List.range 8).any (fun c => owner l c == p)

/-- The fields of a block keep to their ranges, and what is zero is zero. -/
def blockOk (l : List Byte) (p : Nat) : Bool :=
  let f := field l p
  f 0x00 8 % 0x200000 == 0 && f 0x08 8 % 0x200000 == 0 && f 0x00 8 + f 0x08 8 ≤ hbmEnd
  && bitsOf (f 0x10 8) 63 48 == 0
  && bitsOf (f 0x18 8) 63 23 == 0 && !bitOf (f 0x18 8) 15 && !bitOf (f 0x18 8) 7
  && bitsOf (f 0x18 8) 14 8 ≤ 112 && bitsOf (f 0x18 8) 22 16 ≤ 64
  && bitsOf (f 0x20 8) 36 16 == 0
  && bitsOf (f 0x28 8) 63 48 == 0 && bitsOf (f 0x28 8) 17 0 == 0
  && bitsOf (f 0x30 4) 30 10 == 0
  && f 0x34 1 ≤ 3 && f 0x35 1 == 0 && f 0x36 2 ≤ 100
  && zero l (0x80 + 0x1C0 * p + 0x38) 8 && zero l (0x80 + 0x1C0 * p + 0xA0) 288
  && (List.range 8).all (fun k => bitsOf (sieve l p k) 63 11 == 0)
  && (List.range 8).all (fun k => bitsOf (allow l p k) 31 28 == 0 && bitsOf (allow l p k) 15 12 == 0)

end Layout

namespace State

/-- The owner of a cluster, or the cluster's owner under a layout, is a partition that it changes. -/
def clusterChanges (s : State) (l : List Byte) (c : Nat) : Bool :=
  (match s.ownerOf c with | none => false | some p => Layout.changes l p) || (Layout.owner l c < 8 && Layout.changes l (Layout.owner l c))

/-- A register of a partition as it stands after a layout: the image, or what it holds; 0 where there is no partition. -/
def after_ (s : State) (l : List Byte) (p img now : Nat) : Nat :=
  if Layout.changes l p then (if Layout.owns l p then img else 0) else if (s.part p).present then now else 0

/-- Kettle accepts a layout (R30, R61, R114, R140, R182). -/
def layoutOk (s : State) (l : List Byte) : Bool :=
  let ps := List.range 8
  let ways := fun (p : Nat) => s.after_ l p (Layout.field l p 0x10 8) (s.part p).l2ways.toNat
  let base := fun (p : Nat) => s.after_ l p (Layout.field l p 0x00 8) (s.part p).hbmBase.toNat
  let size := fun (p : Nat) => s.after_ l p (Layout.field l p 0x08 8) (s.part p).hbmSize.toNat
  let rate := fun (k p : Nat) => s.after_ l p (Layout.sieve l p k % 2048) (fieldOf ((s.part p).sieve.getD k 0) 10 0)
  let flits := fun (k p : Nat) =>
    let x := s.after_ l p (Layout.allow l p k) ((s.part p).fabAllow.getD k 0).toNat
    bitsOf x 11 0 + bitsOf x 27 16
  fieldAt l 0 1 == 1 && Layout.zero l 2 2 && Layout.zero l 8 56
  && (List.range 8).all (fun c => Layout.owner l c < 8 || Layout.owner l c == 15)
  && (List.range 8).all (fun c =>
    let old := s.ownerOf c
    let new := if Layout.owner l c < 8 then some (Layout.owner l c) else none
    old == new || ((match old with | none => true | some p => Layout.changes l p) && (match new with | none => true | some p => Layout.changes l p)))
  && ps.all (fun p => if Layout.changes l p && Layout.owns l p then Layout.blockOk l p else Layout.zero l (0x80 + 0x1C0 * p) 0x1C0)
  && (List.range 64).all (fun h => Layout.pool l h < 64 && (s.clusterChanges l (h / 8) || Layout.pool l h == (s.hob h).pool))
  && (List.range 64).all (fun q => (dedup (((List.range 64).filter (fun h => Layout.pool l h == q && Layout.owner l (h / 8) < 8)).map
    (fun h => Layout.owner l (h / 8)))).length ≤ 1)
  && ps.all (fun p => ps.all (fun q => p == q || base p + size p ≤ base q || base q + size q ≤ base p || size p == 0 || size q == 0))
  && (List.range 8).all (fun k => (ps.map (rate k)).sum ≤ 1600)
  && (List.range 8).all (fun k => (ps.map (flits k)).sum ≤ 3027)
  && ps.all (fun p => ps.all (fun q =>
    (p == q || bitsOf (ways p) 15 0 &&& bitsOf (ways q) 15 0 == 0)
    && bitsOf (ways p) 31 16 &&& bitsOf (ways q) 15 0 == 0 && bitsOf (ways p) 47 32 &&& bitsOf (ways q) 15 0 == 0))

/-! ## The journal (R31, R32) -/

/-- The open change is closed with an outcome. -/
def closeChange (s : State) (j : Journal) (outcome : Nat) : State :=
  { s with kettle := { s.kettle with journal := j, lastOutcome := outcome, lastMask := s.kettle.jMask, shadow := [] } }

/-- The units that a layout affects (R29). -/
def affected (s : State) (l : List Byte) : List FlipUnit :=
  ((List.range 8).filter (fun c => s.clusterChanges l c)).map FlipUnit.cluster ++ (List.range 96).map FlipUnit.slice
    ++ (List.range 8).map FlipUnit.sieve ++ (List.range 8).map FlipUnit.port ++ [FlipUnit.encryption]

/-- Those of them that Kettle arms: a unit that is fenced out stays out of service (R399). -/
def flipUnits (s : State) (l : List Byte) : List FlipUnit := (s.affected l).filter (fun u => !s.kettle.fenced.contains u)

/-- The work of a partition that is removed is gone. -/
def dropWork (s : State) (p : Nat) : State :=
  let gs := (s.grids.filter (fun e => e.2.part == p)).map (fun e => e.1)
  let ts := (s.teams.filter (fun e => gs.contains e.2.grid)).map (fun e => e.1)
  let s := ts.foldl (fun s t => s.removeTeam t) s
  let s := gs.foldl (fun s g => s.forgetGrid g) s
  let s := ((s.jobs.filter (fun e => e.2.part == p)).map (fun e => e.1)).foldl (fun s j => s.forgetJob j) s
  let s := (s.dropCopies (fun e => e.2.part == p)).dropTlb (fun e => e.part == p)
  { s with fab := { s.fab with ptc := s.fab.ptc.filter (fun e => e.part != p) } }

/-- The parts of one range that lie outside another pass to another key (R40). -/
def rekeyOutside (s : State) (lo hi lo' hi' : Nat) : State := (s.rekey lo (min hi lo')).rekey (max lo hi') hi

/-- The fields of one partition of the mask at the flip (R30, R31, R399). A unit that failed to flip keeps what it had. -/
def flipPart (s : State) (l : List Byte) (missed : List FlipUnit) (p : Nat) : State :=
  if !Layout.changes l p then s
  else
    let old := s.part p
    let lo := old.hbmBase.toNat
    let hi := lo + old.hbmSize.toNat
    if !Layout.owns l p then
      let s := if old.present then (s.dropWork p).rekey lo hi else s
      let stale := missed.filterMap (fun u => match u with
        | .slice n => some (n, (Tbl.find old.waysOld n).getD old.l2ways)
        | _ => none)
      s.updPart p (fun _ => { Part.reset with waysOld := stale })
    else
      let f := Layout.field l p
      let enc := missed.contains .encryption
      let s := if enc then s else (s.rekeyOutside lo hi (f 0 8) (f 0 8 + f 8 8)).rekeyOutside (f 0 8) (f 0 8 + f 8 8) lo hi
      let s := s.updPart p (fun x => { (if old.present then x else Part.reset) with
        present := true
        stopped := true
        hbmBase := if enc then x.hbmBase else BitVec.ofNat 64 (f 0 8)
        hbmSize := if enc then x.hbmSize else BitVec.ofNat 64 (f 8 8)
        key := if old.present || enc then x.key else some (Config.key s.fresh)
        l2ways := BitVec.ofNat 64 (f 0x10 8)
        waysOld := missed.filterMap (fun u => match u with
          | .slice n => some (n, (Tbl.find x.waysOld n).getD x.l2ways)
          | _ => none)
        share := BitVec.ofNat 64 (f 0x18 8)
        ctx := BitVec.ofNat 64 (f 0x20 8)
        gateTable := BitVec.ofNat 64 (f 0x28 8)
        mirror := BitVec.ofNat 32 (f 0x30 4)
        power := BitVec.ofNat 64 (f 0x34 1 * 256 + f 0x36 2)
        sieve := (List.range 8).map (fun k => if missed.contains (.sieve k) then x.sieve.getD k 0 else BitVec.ofNat 64 (Layout.sieve l p k))
        fabAllow := (List.range 8).map (fun k => if missed.contains (.port k) then x.fabAllow.getD k 0 else BitVec.ofNat 32 (Layout.allow l p k)) })
      s.drawn

/-- The barriers of a partition's clusters, which belong to the context that is saved (R370), go with the clusters of the same local number;
the arrivals of waves name them anew. -/
def moveBarriers (s : State) (p : Nat) (old : List Nat) : State :=
  let new := s.coresOf p
  let to_ := fun (key : Nat) => (new[48 * ((old.idxOf (key / 16 % 8 * 48)) / 48)]?).map (fun c => key / 128 * 128 + clusterOf c * 16 + key % 16)
  let named := fun (a : CbarMark) => (to_ a.key).map (fun k => { a with key := k })
  let bars := (s.part p).cbars.foldl (fun (m : Tbl Cbar) (e : Nat × Cbar) => ((to_ e.1).map (fun k => Tbl.put m k e.2)).getD m) ([] : Tbl Cbar)
  let s := s.updPart p (fun x => { x with cbars := bars })
  { s with waves := s.waves.map (fun e =>
      if ((Tbl.find s.teams e.2.team).bind s.gridOf).any (fun g => g.part == p) then
        (e.1, { e.2 with cbarAt := e.2.cbarAt.filterMap named })
      else e) }

/-- The saved teams of a partition go to the core of the same local number where its clusters have changed (R112), with what they have on their core (R218) and their barriers (R370);
an armed team is told of another throttled state (R376). -/
def moveSaved (s : State) (p : Nat) (old : List Nat) : State :=
  let new := s.coresOf p
  let s := if new == old then s else s.moveBarriers p old
  s.teams.foldl (fun s e => match Tbl.find s.grids e.2.grid with
    | none => s
    | some g =>
      if g.part == p && e.2.loc == .saved then
        match new[old.idxOf e.2.core]? with
        | none => s
        | some c => if c == e.2.core then s
            else ((s.carryOver e.1 e.2.core c).updTeam e.1 (fun t => { t with core := c })).throttleMoved e.1 e.2.core c
      else s) s

/-- The pools that hold a hob of a changed partition after the flip, and those of no partition, are set to class 2, clamped, with no request (R19). -/
def flipPools (s : State) (qs : List Nat) : State :=
  qs.foldl (fun s q =>
    let c := min 2 (s.ceilingOf q)
    (s.hobsOf q).foldl (fun s h => s.setOp h c) (s.updPool q (fun _ => ⟨c, [], false⟩))) s

/-- The flip of the armed units (R31, R33). A unit that is fenced out keeps what it had, as one that fails does. -/
def flip (s : State) (g : Nat) : State :=
  let l := s.kettle.shadow
  let failed := ((s.flipUnits l).zipIdx.filter (fun u => Config.flipFails s.fresh u.2)).map (fun u => u.1)
  let missed := failed ++ s.kettle.fenced
  let s := s.drawn
  let cs := (List.range 8).filter (fun c => s.clusterChanges l c)
  let hs := (List.range 64).filter (fun h => cs.contains (h / 8))
  let olds := (List.range 8).map (fun p => s.coresOf p)
  let s := (List.range 8).foldl (fun s p => s.flipPart l missed p) s
  let s := cs.foldl (fun (s : State) (c : Nat) =>
    let new := if missed.contains (.cluster c) then (match s.ownerOf c with
        | none => none
        | some p => if (s.part p).present then some p else none)
      else if Layout.owner l c < 8 then some (Layout.owner l c) else none
    let owners := match new with
      | none => Tbl.del s.clusterOwner c
      | some p => Tbl.put s.clusterOwner c p
    (List.range 48).foldl (fun (s : State) (i : Nat) => s.updCore (c * 48 + i) (fun k => { k with l1 := [], tlb := [], icache := [] }))
      { s with clusterOwner := owners }) s
  let s := hs.foldl (fun (s : State) (h : Nat) => s.updHob h (fun k => { k with pool := Layout.pool l h })) s
  let s := (List.range 8).foldl (fun (s : State) (p : Nat) => if Layout.changes l p then s.moveSaved p (olds.getD p []) else s) s
  let pools := ((List.range 64).filter (fun h => match s.ownerOf (h / 8) with
    | none => false
    | some p => Layout.changes l p)).map (fun h => (s.hob h).pool)
  let free := (List.range 64).filter (fun q => !(s.hobsOf q).isEmpty && s.poolPart q == none)
  let s := s.flipPools (dedup (pools ++ free.filter (fun q => (s.pool q).cls != 2 || (s.hobsOf q).any (fun h => hs.contains h))))
  { s with kettle := { s.kettle with activeGen := g, missed := failed, arms := none, layout := l } }

end State

/-- LAYOUT_SUBMIT (R29 to R31): the change is journaled and its units are armed for a tick that Kettle chooses; where LAYOUT_GO cannot be
written in time (LE 15), the journal stays at WRITING. -/
def execLayoutSubmit (s : State) : Host.Outcome State Fault Refusal :=
  if !s.commanded 1 then .next s
  else
    let l := s.bufBytes 0 4096
    if s.kettle.journal == .writing || s.kettle.journal == .prepared then .next (s.answer 8)
    else if (List.range 8).any (fun p => Layout.changes l p && (s.part p).present && !(s.part p).stopped) then .next (s.answer 2)
    else if !s.layoutOk l then .next (s.answer 5)
    else
      let g := s.kettle.activeGen + 1
      let t := s.reft + 2000000 + Config.kettleChoice s.fresh
      let late := (Config.freeWord s.fresh 0).getLsbD 0
      let s := s.drawn
      let s := { s with kettle := { s.kettle with
        journal := if late then .writing else .prepared
        jGen := g, jTick := t, jMask := fieldAt l 1 1, shadow := l, arms := some (g, t), missed := [] } }
      let s := s.atTick t .layoutFlip
      .next (if late then s.atTick (t - 100000) .layoutLate
        else (({ s with dev := { s.dev with layoutGo := BitVec.ofNat 32 g } }).putBuf 0 (natBytes 8 g ++ natBytes 8 t)).answer 0)

/-- LAYOUT_LATE (R31). -/
def execLayoutLate (s : State) : Host.Outcome State Fault Refusal :=
  let k := s.kettle
  if k.journal != .writing || !k.running || s.reft + 100000 < k.jTick || s.dev.layoutGo.toNat == k.jGen then .next s
  else
    let s := ({ s with kettle := { k with arms := none } }).closeChange .idle 3
    .next (if s.commanded 1 then s.answer 3 else s)

/-- LAYOUT_FLIP (R31): armed units whose generation is LAYOUT_GO flip; the others disarm. -/
def execLayoutFlip (s : State) : Host.Outcome State Fault Refusal :=
  match s.kettle.arms with
  | none => .next s
  | some (g, t) =>
    if s.reft < t || s.pkg.power != .on then .next s
    else if s.dev.layoutGo != BitVec.ofNat 32 g then .next { s with kettle := { s.kettle with arms := none } }
    else
      let s := s.flip g
      .next (if s.kettle.running then s.soonOnce .layoutCommit else s)

/-! ## Fences (R38) -/

namespace State

/-- What every fence does. -/
def noteFence (s : State) (k : LogKind) : State := ((s.setHealth 8).alerted).logged k

/-- A core takes no further placement, and its teams are killed. -/
def fenceCore (s : State) (c : Nat) : State :=
  let s := s.updCore c (fun k => { k with fenced := true })
  (s.teams.filter (fun e => (e.2.core == c && e.2.loc != .saved) || e.2.loc == .moving c)).foldl (fun s e => s.killTeam e.1) s

/-- The lines and the pins of a slice of the L2 are gone. -/
def emptySlice (s : State) (n : Nat) : State :=
  let s := (s.l2.filter (fun t => t.die * 48 + t.line % 48 == n)).foldl (fun s t => s.l2Evict t) s
  { s with l2pins := s.l2pins.filter (fun e => homeDie (e.2 * 128) * 48 + e.2 % 48 != n) }

/-- A unit that failed to flip is fenced out (R32) and stays out of service (R399): the cores of a cluster, the plane of a port (R38); a slice of the L2
holds no line; the Sieve regulators and the encryption engine keep their old fields through every later layout (LE 60). -/
def fenceFlip (s : State) (u : FlipUnit) : State :=
  let s := s.noteFence (.flipFault u)
  let s := { s with kettle := { s.kettle with fenced := s.kettle.fenced ++ [u] } }
  match u with
  | .cluster c => (List.range 48).foldl (fun s i => s.fenceCore (c * 48 + i)) (s.setHealth 0)
  | .port p => s.atTick s.reft (.unitFence (.plane p))
  | .slice n => s.emptySlice n
  | .sieve _ | .encryption => s

end State

/-- LAYOUT_COMMIT (R31, R32): units that did not flip are fenced out, FLIP_FAULT is set, and the partitions stay stopped. -/
def execLayoutCommit (s : State) : Host.Outcome State Fault Refusal :=
  let k := s.kettle
  if !k.running || k.journal != .prepared || s.reft < k.jTick || k.arms.isSome then .next s
  else
    let s := k.missed.foldl (fun s u => s.fenceFlip u) s
    let s := if k.missed.isEmpty then s else s.setHealth 9
    .next (({ s with kettle := { s.kettle with missed := [] } }).closeChange .committed 0)

/-- LAYOUT_QUERY (R30). -/
def execLayoutQuery (s : State) : Host.Outcome State Fault Refusal :=
  if !s.commanded 2 then .next s
  else
    let j := match s.kettle.journal with
      | .idle => 0
      | .writing => 1
      | .prepared => 2
      | .committed => 3
    .next ((s.putBuf 0 (natBytes 8 j ++ natBytes 8 s.kettle.activeGen ++ natBytes 8 s.kettle.lastOutcome
      ++ natBytes 8 s.kettle.lastMask)).answer 0)

/-! ## Stopping and starting partitions (R34, R399) -/

namespace State

/-- The jobs of nodes of a partition pause or go on. -/
def pauseNodes (s : State) (p : Nat) (on : Bool) : State :=
  (s.jobs.filter (fun e => e.2.part == p && e.2.team.isNone)).foldl (fun s e =>
    let s := s.updJob e.1 (fun j => { j with paused := on })
    if on then s else s.kick e.1) s

/-- The clusters of a partition that may halt save their teams as at a slice end with the choice Save. -/
def saveTeams (s : State) (p : Nat) : State :=
  (s.clustersOf p).foldl (fun s cl =>
    if s.haltHeld cl then s
    else (s.teams.filter (fun e => e.2.loc == .resident && clusterOf e.2.core == cl)).foldl (fun s e => s.saveTeam e.1) s) s

/-- A partition has no team on its cores. -/
def empty (s : State) (p : Nat) : Bool :=
  !(s.teams.any (fun e => e.2.loc != .saved && s.ownerOf (clusterOf e.2.core) == some p)) && !(s.claims.any (fun c => s.ownerOf (clusterOf c.core) == some p))

/-- Stops a running partition: no placement, no slice, no fetch, no start of a node. -/
def stopPart (s : State) (p : Nat) : State :=
  if !(s.part p).present || (s.part p).stopped then s
  else ((s.updPart p (fun x => { x with stopped := true })).pauseNodes p true).saveTeams p

/-- Starts a stopped partition: its sequencer picks a virtual device at the next tick, its nodes and queues go on. -/
def startPart (s : State) (p : Nat) : State :=
  if !(s.part p).present || !(s.part p).stopped then s
  else
    let s := (s.updPart p (fun x => { x with stopped := false, slice := .reset })).pauseNodes p false
    let s := s.after 1 (.sliceBoundary (Fin.ofNat 8 p))
    (s.queues.filter (fun e => e.2.valid && s.vdPart e.2.vf == p)).foldl (fun s e => s.kickQueue e.1) s

end State

/-- PARTITION_STOP (R399). -/
def execPartitionStop (s : State) : Host.Outcome State Fault Refusal :=
  if !s.commanded 6 then .next s
  else
    let m := (Memory.get s.mbox.buf 0).toNat
    let s := { s with kettle := { s.kettle with stopping := m } }
    .next (((List.range 8).foldl (fun (s : State) (p : Nat) => if bitOf m p then s.stopPart p else s) s).soonOnce .partitionStopDone)

/-- PARTITION_STOP_DONE (R399): once no team of the mask is resident the slice sequencers are idle and the command completes. While the device is
halted no team leaves its core (R44). -/
def execPartitionStopDone (s : State) : Host.Outcome State Fault Refusal :=
  if !s.commanded 6 then .next s
  else
    let ps := (List.range 8).filter (fun p => bitOf s.kettle.stopping p && (s.part p).present)
    let s := ps.foldl (fun (s : State) (p : Nat) => s.saveTeams p) s
    if ps.any (fun p => !s.empty p) then .next (if s.running then s.soonOnce .partitionStopDone else s)
    else
      let s := ps.foldl (fun (s : State) (p : Nat) => (s.endYield p (((s.part p).slice.cur).getD 0)).updPart p (fun x => { x with slice := .reset })) s
      .next (({ s with kettle := { s.kettle with stopping := 0 } }).answer 0)

/-- PARTITION_START (R399): a mask that names an absent partition is refused. -/
def execPartitionStart (s : State) : Host.Outcome State Fault Refusal :=
  if !s.commanded 7 then .next s
  else
    let m := (Memory.get s.mbox.buf 0).toNat
    if (List.range 8).any (fun p => bitOf m p && !(s.part p).present) then .next (s.answer 5)
    else .next (((List.range 8).foldl (fun (s : State) (p : Nat) => if bitOf m p then s.startPart p else s) s).answer 0)

end Sys2Proof.Machine
end

