-- ==== Sys2Proof/Machine/Kettle.lean ====
section
/-!
DEFINITION. Kettle (R28, R35 to R46): its watchdog and its boot, its images, repair and fencing, the alarm monitor, attestation, test mode and
provisioning. What a signature covers is not given byte by byte: whether it verifies is a free value of the bytes (LE 10).
-/

namespace Sys2Proof.Machine

/-! ## Images and boot (R28, R35, R36) -/

/-- An image slot whose image the boot ROM considers. -/
def ImgSlot.qualifies (x : ImgSlot) (fused : Nat) : Bool :=
  x.st != .empty && x.st != .failed && Config.verifies 0 x.image && fused ≤ Config.imageVersion x.image

/-- A slot found in TESTING has failed its trial. -/
def ImgSlot.found (x : ImgSlot) : ImgSlot := if x.st == .testing then { x with st := .failed } else x

/-- The slot that the boot ROM chooses: false is A (R35). -/
def bootChoice (a b : ImgSlot) (fused : Nat) : Option Bool :=
  let qa := a.qualifies fused
  let qb := b.qualifies fused
  if qa && a.st == .trial then some false
  else if qb && b.st == .trial then some true
  else if qa && a.st == .active then some false
  else if qb && b.st == .active then some true
  else if qa && qb then some (Config.imageVersion a.image < Config.imageVersion b.image)
  else if qa then some false
  else if qb then some true
  else none

namespace State

def imgSlot (s : State) (b : Bool) : ImgSlot := if b then s.kettle.slotB else s.kettle.slotA

def setSlot (s : State) (b : Bool) (x : ImgSlot) : State :=
  { s with kettle := if b then { s.kettle with slotB := x } else { s.kettle with slotA := x } }

/-- Kettle stops, and runs again within 50 ms (R28). The pieces of an image that are staged stay (LE 76). -/
def stopKettle (s : State) : State :=
  let s := s.withdraw .confirmTimeout
  let s := { s with kettle := { s.kettle with running := false, current := none, confirmAt := none } }
  (s.after (Config.delay s.fresh % 50000001) .kettleBoot).drawn

/-- The rows whose repair waits are repaired once their stack's 10 ms are over (R37), also where Kettle was down in between. -/
def armRepairs (s : State) : State :=
  s.kettle.repairDue.foldl (fun s e =>
    let row := Instr.rowRepair (Fin.ofNat 8 e.1) e.2.1 e.2.2
    if s.due row then s
    else s.atTick (match Tbl.find s.kettle.lastRepair e.1 with
      | none => s.reft
      | some t => max s.reft (t + 10000000)) row) s

/-- A restarted Kettle reads the journal (R32): what it finds at WRITING with LAYOUT_GO written is PREPARED, which completes its command
(R30). It serves the command that runs, goes on with the repairs that wait (R37), and throttles again while a cause stands (R22). -/
def recover (s : State) : State :=
  let k := s.kettle
  let s :=
    if k.journal == .writing && s.dev.layoutGo != BitVec.ofNat 32 k.jGen then
      let s := ({ s with kettle := { k with arms := none } }).closeChange .idle 4
      if s.mbox.status == 1 && s.mbox.cmd == 1 then s.answer 4 else s
    else if k.journal == .writing then
      let s := { s with kettle := { k with journal := .prepared } }
      if s.mbox.status == 1 && s.mbox.cmd == 1 then (s.putBuf 0 (natBytes 8 k.jGen ++ natBytes 8 k.jTick)).answer 0 else s
    else s
  let s := (if s.kettle.journal == .prepared && s.kettle.jTick ≤ s.reft then s.soonOnce .layoutCommit else s).armRepairs
  if s.mbox.status == 1 && !(s.kettle.journal == .writing && s.mbox.cmd == 1) then s.soonOnce s.mboxRow else s

end State

/-- KETTLE_WATCHDOG_EXPIRY (R28). -/
def execKettleWatchdogExpiry (s : State) : Host.Outcome State Fault Refusal :=
  if s.pkg.power != .on || !s.kettle.running then .next s else .next s.stopKettle

/-- KETTLE_BOOT (R35). -/
def execKettleBoot (s : State) : Host.Outcome State Fault Refusal :=
  if s.pkg.power != .on || s.kettle.running then .next s
  else
    let s := { s with kettle := { s.kettle with slotA := s.kettle.slotA.found, slotB := s.kettle.slotB.found } }
    match bootChoice s.kettle.slotA s.kettle.slotB s.kettle.fused with
    | none => .next s.alerted
    | some b =>
      let s := { s with kettle := { s.kettle with running := true, current := some b }
                        pkg := { s.pkg with coresHeld := s.pkg.coresHeld && !s.pkg.inputOk } }
      let s := if (s.imgSlot b).st == .trial then
          let s := s.setSlot b { s.imgSlot b with st := .testing }
          ({ s with kettle := { s.kettle with confirmAt := some (s.reft + 10000000000) } }).after 10000000000 .confirmTimeout
        else s
      .next s.recover.resumeThrottle

/-- CONFIRM (R36): a write of the trial image. -/
def execConfirm (s : State) : Host.Outcome State Fault Refusal :=
  match s.kettle.current, s.kettle.confirmAt with
  | some b, some _ =>
    if s.pkg.power != .on || !s.kettle.running then .next s
    else
      let s := (s.setSlot b { s.imgSlot b with st := .active }).setSlot (!b) { s.imgSlot (!b) with st := .inactive }
      let fused := if Config.advances s.fresh then max s.kettle.fused (Config.imageVersion (s.imgSlot b).image) else s.kettle.fused
      .next (({ s with kettle := { s.kettle with confirmAt := none, fused := fused } }).withdraw .confirmTimeout).drawn
  | _, _ => .next s

/-- CONFIRM_TIMEOUT (R36). -/
def execConfirmTimeout (s : State) : Host.Outcome State Fault Refusal :=
  match s.kettle.confirmAt with
  | none => .next s
  | some t => if s.pkg.power != .on || s.reft < t then .next s else .next s.stopKettle

/-- FW_STAGE (R36, R83): a piece of 4 KiB; with the last, the image goes into the slot that is not ACTIVE, and Kettle restarts. Where
neither is ACTIVE, it is the one that Kettle does not run (LE 76). -/
def execFwStage (s : State) : Host.Outcome State Fault Refusal :=
  if !s.commanded 4 then .next s
  else
    let image := s.kettle.staging ++ s.bufBytes 0 4096
    if !Config.imageEnds image then .next (({ s with kettle := { s.kettle with staging := image } }).answer 0)
    else
      let b := s.kettle.slotA.st == .active || (s.kettle.slotB.st != .active && s.kettle.current == some false)
      let s := { s with kettle := { s.kettle with staging := [] } }
      if Config.verifies 0 image && s.kettle.fused ≤ Config.imageVersion image then
        .next ((s.setSlot b ⟨.trial, image⟩).answer 0).stopKettle
      else .next ((s.setSlot b ⟨.empty, []⟩).answer 7)

/-! ## Repair and fencing (R37, R38) -/

/-- The corrected errors of a row within the last 24 h (R37). -/
def State.rowErrors (s : State) (stack bank row : Nat) : Nat :=
  (s.kettle.rowErrs.filter (fun e => e.stack == stack && e.bank == bank && e.row == row && s.reft < e.at_ + 86400000000000)).length

/-- Begins the repair of a row (R37): traffic to its bank resumes within 20 µs. -/
def State.beginRepair (s : State) (stack : Fin 8) (bank row : Nat) : State :=
  let s := { s with kettle := { s.kettle with
    repairs := s.kettle.repairs ++ [Repair.mk stack.val bank row true false]
    lastRepair := Tbl.put s.kettle.lastRepair stack.val s.reft
    rowErrs := s.kettle.rowErrs.filter (fun e => !(e.stack == stack.val && e.bank == bank && e.row == row))
    repairDue := s.kettle.repairDue.filter (fun e => e != (stack.val, bank, row)) } }
  (s.after (Config.delay s.fresh % 20001) (.rowRepairDone stack)).drawn

/-- ROW_REPAIR (R37): an ECC error is corrected in a row, and Kettle counts it; with the fourth in 24 h the row is repaired. A stack
performs one repair in 10 ms, and a further one runs as this row again once they are over. Corrected errors at the address of a row that was repaired, which
its spare row then answers, are not counted (LE 83). -/
def execRowRepair (stack : Fin 8) (bank row : Nat) (s : State) : Host.Outcome State Fault Refusal :=
  let due := s.kettle.repairDue.contains (stack.val, bank, row)
  if s.pkg.power != .on || !s.kettle.running || s.kettle.repairs.any (fun r => r.stack == stack.val && r.bank == bank && r.row == row) then
    .next s
  else if !due && s.rowErrors stack.val bank row < 3 then
    let errs := s.kettle.rowErrs.filter (fun (e : RowErr) => s.reft < e.at_ + 86400000000000)
    .next { s with kettle := { s.kettle with rowErrs := errs ++ [RowErr.mk stack.val bank row s.reft] } }
  else match Tbl.find s.kettle.lastRepair stack.val with
    | none => .next (s.beginRepair stack bank row)
    | some t =>
      if t + 10000000 ≤ s.reft then .next (s.beginRepair stack bank row)
      else
        let waits := if due then s.kettle.repairDue else s.kettle.repairDue ++ [(stack.val, bank, row)]
        let s := { s with kettle := { s.kettle with repairDue := waits } }
        .next (if s.due (.rowRepair stack bank row) then s else s.atTick (t + 10000000) (.rowRepair stack bank row))

/-- ROW_REPAIR_DONE (R37): the row's address leads to the spare row. -/
def execRowRepairDone (stack : Fin 8) (s : State) : Host.Outcome State Fault Refusal :=
  .next { s with kettle := { s.kettle with
    repairs := s.kettle.repairs.map (fun (r : Repair) => if r.stack == stack.val then { r with copying := false } else r) } }

namespace State

/-- A pseudo-channel fails: the first of a stack is taken over by the spare one (R38). -/
def fencePc (s : State) (stack pc : Nat) : State :=
  let first := !(s.kettle.fencedPc.any (fun f => f.stack == stack))
  let s := { s with kettle := { s.kettle with
    fencedPc := s.kettle.fencedPc ++ [PcFence.mk stack pc (if first then some s.fresh else none)]
    healed := s.kettle.healed.filter (fun l => pcOf l != (stack, pc)) } }
  let s := if first then { s with dev := { s.dev with health := setField s.dev.health 7 4 (min 8 (fieldOf s.dev.health 7 4 + 1)) } } else s
  (s.setHealth 2).drawn

end State

/-! ## Alarms (R42 to R44) -/

/-- A policy field after a write (R43). -/
def policyField (lock : Bool) (old new hi lo : Nat) : Nat :=
  let o := bitsOf old hi lo
  let n := bitsOf new hi lo
  if n == 3 || (lock && n < o) then o else n

/-- ALARM_POLICY after a write (R43). -/
def alarmPolicyAfter (old new : Word) : Word :=
  let lock := fieldOf old 31 31 == 1
  let f := fun (hi lo : Nat) => policyField lock old.toNat new.toNat hi lo * 2 ^ lo
  BitVec.ofNat 32 (bnat (lock || fieldOf new 31 31 == 1) * 2 ^ 31 + f 7 6 + f 5 4 + f 3 2 + f 1 0)

/-- DEV_HEALTH after a write (R39): ALARM and FLIP_FAULT are cleared by ones. -/
def healthAfter (old new : Word) : Word :=
  let h := if fieldOf new 10 10 == 1 then setField old 10 10 0 else old
  if fieldOf new 9 9 == 1 then setField h 9 9 0 else h

/-- ALARM_POLICY_WRITE (R43). -/
def execAlarmPolicyWrite (v : Word) (s : State) : Host.Outcome State Fault Refusal :=
  .next { s with dev := { s.dev with alarmPolicy := alarmPolicyAfter s.dev.alarmPolicy v } }

/-- DEV_HEALTH_CLEAR (R39). -/
def execDevHealthClear (v : Word) (s : State) : Host.Outcome State Fault Refusal :=
  .next { s with dev := { s.dev with health := healthAfter s.dev.health v } }

/-- The policy for a sensor. -/
def policyOf (v : Word) : AlarmSrc → Nat
  | .volt => fieldOf v 1 0
  | .clock => fieldOf v 3 2
  | .temp => fieldOf v 5 4
  | .mesh => fieldOf v 7 6

namespace State

/-- ALARM_HALT (R44): every core and every engine stops. -/
def halt (s : State) : State := { s with pkg := { s.pkg with halted := true } }

/-- ALARM_ERASE (R44): every memory key and the attestation keys are gone, the contents of HBM cannot be recovered. -/
def erase (s : State) : State :=
  let s := { s with parts := s.parts.map (fun (e : Nat × Part) => (e.1, { e.2 with key := none }))
                    kettle := { s.kettle with identity := none, newIdentity := none, hvKey := none, chain := none } }
  (s.rekey 0 hbmEnd).halt.setHealth 11

end State

/-- ALARM (R44). -/
def execAlarm (src : AlarmSrc) (s : State) : Host.Outcome State Fault Refusal :=
  if s.pkg.power != .on then .next s
  else
    let s := ((s.logged (.alarm src)).setHealth 10).alerted
    .next (match policyOf s.dev.alarmPolicy src with
      | 0 => s
      | 1 => s.halt
      | _ => s.erase)

/-! ## Signed commands (R39, R41, R45, R46) -/

/-- SERVICE_RETURN (R39). -/
def execServiceReturn (s : State) : Host.Outcome State Fault Refusal :=
  if !s.commanded 5 then .next s
  else if !Config.verifies 1 (s.bufBytes 0 4096) then .next (s.answer 7)
  else .next (({ s with dev := { s.dev with health := setField (setField s.dev.health 8 8 0) 7 4 0 } }).answer 0)

/-- TEST_MODE (R45): the request names the state wanted. The signature is tried before the stopped partitions (LE 76). Outside test mode no
injection stays armed. -/
def execTestMode (s : State) : Host.Outcome State Fault Refusal :=
  if !s.commanded 8 then .next s
  else if !Config.verifies 2 (s.bufBytes 0 4096) then .next (s.answer 7)
  else if (List.range 8).any (fun p => (s.part p).present && !(s.part p).stopped) then .next (s.answer 2)
  else
    let on := Config.wantsTest (s.bufBytes 0 4096)
    let s := if on then s else { s with cores := s.cores.map (fun (e : Nat × Core) => (e.1, { e.2 with inject := 0 })) }
    .next (({ s with dev := { s.dev with testMode := on, health := setField s.dev.health 12 12 (bnat on) } }).answer 0)

/-- PROVISION, phase 0 (R46): a new identity key; what the buffer then holds depends on the key and the signature. -/
def execProvisionGenerate (s : State) : Host.Outcome State Fault Refusal :=
  if !s.commanded 9 then .next s
  else if fieldOf s.dev.health 11 11 == 0 then .next (s.answer 6)
  else if !Config.verifies 3 (s.bufBytes 1 4095) then .next (s.answer 7)
  else
    let n := s.fresh
    let s := s.drawn
    let buf := ((List.range 4096).map (fun i => (i, Config.rekeyed n i))).filter (fun e => e.2 != 0)
    let s := { s with kettle := { s.kettle with newIdentity := some (Config.key n) }, mbox := { s.mbox with buf := buf } }
    .next ((s.emit (.mboxKey (Config.key n) (Config.signature n))).answer 0)

/-- Layout generation 0 is active (R34): no partition is defined, their work is gone, every hob is in pool 0 at class 2, and LAYOUT_GO
names generation 0, so that the next change finds it unwritten (R31; LE 81). -/
def State.generationZero (s : State) : State :=
  let s := (List.range 8).foldl (fun (s : State) (p : Nat) => if (s.part p).present then s.dropWork p else s) s
  let s := { s with parts := [], clusterOwner := []
                    hobs := s.hobs.map (fun (e : Nat × Hob) => (e.1, { e.2 with pool := 0 }))
                    dev := { s.dev with layoutGo := 0 }
                    kettle := { s.kettle with activeGen := 0, layout := [], journal := .idle, shadow := [], arms := none, missed := [] } }
  s.flipPools [0]

/-- PROVISION, phase 1 (R46): the chain is stored, a hypervisor key drawn, PROVISION_REQUIRED cleared, and layout generation 0 active.
BAD_CMD is tried before BAD_SIGNATURE (LE 76). -/
def execProvisionInstall (s : State) : Host.Outcome State Fault Refusal :=
  if !s.commanded 9 then .next s
  else if fieldOf s.dev.health 11 11 == 0 then .next (s.answer 6)
  else
    match s.kettle.newIdentity with
    | none => .next (s.answer 6)
    | some k =>
      if !Config.verifies 4 (s.bufBytes 1 4095) then .next (s.answer 7)
      else
        let s := (s.rekey 0 hbmEnd).generationZero
        let s := { s with kettle := { s.kettle with
                            identity := some k, newIdentity := none, hvKey := some (Config.key s.fresh), chain := some (s.bufBytes 1 4095) }
                          mbox := { s.mbox with buf := [] } }
        .next ((s.drawn.clearHealth 11).answer 0)

/-- BAD_CMD (R46, R83): a code that is not assigned, or a phase of PROVISION that does not exist. -/
def execBadCmd (s : State) : Host.Outcome State Fault Refusal :=
  if s.pkg.power == .on && s.kettle.running && s.mbox.status == 1 && s.mboxRow == .badCmd then .next (s.answer 6) else .next s

namespace State

/-- The measurement blocks (R41). -/
def measurement (s : State) : Nat → Option Nat
  | 1 => some (Config.hash Config.bootRom)
  | 2 => s.kettle.current.map (fun b => Config.hash (s.imgSlot b).image * 2 + bnat b)
  | 3 => s.kettle.current.map (fun b => Config.imageVersion (s.imgSlot b).image * 2 ^ 64 + s.kettle.fused)
  | 4 => some s.dev.alarmPolicy.toNat
  | 5 => some (s.kettle.activeGen * 2 ^ 384 + Config.hash s.kettle.layout)
  | 6 => some (bnat s.dev.testMode)
  | _ => none

end State

/-- The versions of DSP0274 that Kettle speaks, 1.2 and 1.3 (R41), as that standard writes them (PRESUMED, LE 80). -/
def spdmVersions : List Nat := [0x12, 0x13]

/-- SPDM_REQUEST (R41): Kettle answers with its versions, its certificate chain, a signed challenge or a measurement, signed while it
holds its identity key. -/
def execSpdmRequest (r : SpdmReq) (viaI3c : Bool) (s : State) : Host.Outcome State Fault Refusal :=
  if s.pkg.power != .on || !s.kettle.running then .next s
  else
    let sig := s.kettle.identity.map (fun _ => Config.signature s.fresh)
    match r with
    | .version => .next (s.emit (.spdmVersion viaI3c spdmVersions))
    | .certificate => match s.kettle.chain with
      | none => .next s
      | some c => .next (s.emit (.spdmChain viaI3c c))
    | .challenge nonce => .next (s.emit (.spdmChallenge viaI3c nonce sig)).drawn
    | .measurement index => match s.measurement index with
      | none => .next s
      | some v => .next (s.emit (.spdm viaI3c index v sig)).drawn

end Sys2Proof.Machine
end

