-- ==== Sys2Proof/Machine/Fabric.lean ====
section
/-!
DEFINITION. The fabric (R49 to R73): what this chip does as the target of requests, with the answers to its own, with leases and exports, and
in the quiesce of a dead plane as a chip and as master. An event of the fabric stands for a packet that arrives.
-/

namespace Sys2Proof.Machine

namespace State

/-! ## The target of requests (R55, R56, R60) -/

/-- A request through a peer translation is performed: the export page is still where its generation says (R60). A page that is no longer
exported to the source, or lacks the right, is rejected like one under another generation (LE 76). -/
def exportOk (s : State) (r : FabReq) (right : Right) : Bool :=
  match r.page with
  | none => false
  | some g =>
    match Tbl.find s.fab.exports_ g with
    | none => false
    | some e => e.entry.gen == r.gen && e.entry.pa == some (r.pa / 65536 * 65536) && e.entry.dests.contains (r.src, r.part)
        && rightsAllow e.entry.rights right && r.pa < hbmEnd

/-- The window of a source, with a number that has been performed and the result of an ATOMIC. -/
def noted (s : State) (src seq : Nat) (old : Option DWord) : State :=
  { s with fab := { s.fab with windows := Tbl.updD s.fab.windows src ⟨[], []⟩ (fun (w : SrcWin) =>
    { recent := (seq :: w.recent).take 4096
      results := match old with
        | none => w.results
        | some x => ((seq, x) :: w.results).take 64 }) } }

def window (s : State) (src : Nat) : SrcWin := Tbl.getD s.fab.windows src ⟨[], []⟩

/-- The agent that performs a request of another chip at the home. -/
def fabAgent (r : FabReq) : Agent := { core := none, die := homeDie r.pa, part := r.part, cls := r.cls, wid := none, grid := none }

/-- The RESPONSE to a request: on its plane (R52), charged to its partition and class (R62). -/
def respond (s : State) (r : FabReq) (x : FabResp) : State := s.emit (.response r.src r.plane.val r.part r.cls x)

/-! ## The requests of this chip -/

def setUnacked (s : State) (u : Unacked) : State :=
  { s with fab := { s.fab with unacked := s.fab.unacked.map (fun x => if x.ord == u.ord then u else x) } }

def setRead (s : State) (r : ReadReq) : State :=
  { s with fab := { s.fab with reads := s.fab.reads.map (fun x => if x.id == r.id then r else x) } }

/-- A request leaves on the plane of its bucket. -/
def launchReq (s : State) : Unacked ⊕ ReadReq → State
  | .inl u =>
    let v := { u with held := false, plane := s.planeOf u.chip u.pa, since := s.reft }
    (s.setUnacked v).emitUnacked v
  | .inr r =>
    let v := { r with held := false, plane := s.planeOf r.chip r.pa, since := s.reft }
    (s.setRead v).sendRead v

/-- Some requests of this chip in the order in which they were made. -/
def inOrder (us : List Unacked) (rs : List ReadReq) : List (Unacked ⊕ ReadReq) :=
  (sortBy (fun (x : Nat × (Unacked ⊕ ReadReq)) => x.1) (us.map (fun u => (u.ord, .inl u)) ++ rs.map (fun r => (r.id, .inr r)))).map (fun x => x.2)

/-- The source's limits for a chip admit one more request (R55). -/
def admits (s : State) (chip : Nat) (atomic : Bool) : Bool :=
  let l := s.fab.unacked.filter (fun u => u.chip == chip && !u.held)
  l.length < 4096 && (!atomic || (l.filter (fun u => u.op.isSome)).length < 64)

/-- A held request waits for the end of a quiesce of its plane (R65): not one that the fourth step waits for. -/
def bucketWaits (s : State) (chip pa ord : Nat) : Bool := s.heldBucket chip pa && !s.fab.waitAcks.contains ord

/-- Sends the held requests that may go, in their order. `full` are the chips to which a WRITE or an ATOMIC waits for R55, which holds the later
ones; `stuck` the buckets (chip, bucket) in which a request waits, which holds every later one of the bucket (R54, R65). -/
def pumpFrom (s : State) : List (Unacked ⊕ ReadReq) → List Nat → List (Nat × Nat) → State
  | [], _, _ => s
  | .inl u :: l, full, stuck =>
    if stuck.contains (u.chip, u.bucket) || s.bucketWaits u.chip u.pa u.ord || s.behindOld u.chip u.page u.gen u.ord then
      s.pumpFrom l full ((u.chip, u.bucket) :: stuck)
    else if full.contains u.chip || !s.admits u.chip u.op.isSome then s.pumpFrom l (u.chip :: full) ((u.chip, u.bucket) :: stuck)
    else (s.launchReq (.inl u)).pumpFrom l full stuck
  | .inr r :: l, full, stuck =>
    if stuck.contains (r.chip, r.bucket) || s.bucketWaits r.chip r.pa r.id then s.pumpFrom l full ((r.chip, r.bucket) :: stuck)
    else (s.launchReq (.inr r)).pumpFrom l full stuck

/-- Sends the held requests that may go, while the ports are enabled. -/
def pump (s : State) : State :=
  if !s.joined then s
  else s.pumpFrom (inOrder (s.fab.unacked.filter (fun u => u.held)) (s.fab.reads.filter (fun r => r.held))) [] []

/-! ## The steps of a quiesce, as a chip (R65, R67) -/

/-- An answer to the master, on every live plane; a master answers itself. -/
def answerMaster (s : State) (o : Nat → Out) (i : Instr) : State := if s.dev.masterAct then s.soon i else s.broadcast o

/-- The markers and re-sent requests of a step are acknowledged: the chip answers the step. -/
def stepDone (s : State) : State :=
  if !s.fab.waitAcks.isEmpty then s
  else if s.dev.qstate == 1 && s.fab.fencing then
    ({ s with dev := { s.dev with qstate := 2 } }).answerMaster .fenced (.fenced s.chipId)
  else if s.dev.qstate == 3 then
    ({ s with dev := { s.dev with qstate := 4 } }).answerMaster .retried (.retried s.chipId)
  else s

/-- Something that a step waits for is acknowledged. -/
def stepAck (s : State) (id : Nat) : State :=
  if s.fab.waitAcks.contains id then
    ({ s with fab := { s.fab with waitAcks := s.fab.waitAcks.filter (fun (x : Nat) => x != id) } }).stepDone
  else s

/-- A request is no longer under way: others may leave, and what waited for it goes on. -/
def forgetUnacked (s : State) (u : Unacked) : State :=
  ((({ s with fab := { s.fab with unacked := s.fab.unacked.filter (fun (x : Unacked) => x.ord != u.ord) } }).stepAck u.ord).pump).relog

/-! ## What waits for a lease (R57, R60) -/

/-- The jobs that wait for a lease, with the address of the access. -/
def jobLeases (s : State) (die p chip page : Nat) (ok : Right → Bool) : List (Nat × Nat) :=
  s.jobs.filterMap (fun e => match e.2.wait with
    | .lease c g r va => if dieOf e.2.core == die && e.2.part == p && c == chip && g == page && ok r then some (e.1, va) else none
    | _ => none)

/-- The core that a READ comes from; 384 and 385 for a job of a node of the Whisk of die 0 and 1 (R201). -/
def coreOfRead (s : State) (r : ReadReq) : Nat :=
  match r.wid, r.job.bind (Tbl.find s.jobs) with
  | some w, _ => s.coreOf w.1
  | none, some j => if j.team.isSome then j.core else 384 + dieOf j.core
  | none, none => 384

/-- A READ that was rejected waits for a lease. -/
def readAwaits (s : State) (l : LeaseReq) (r : ReadReq) : Bool :=
  r.rejected && r.chip == l.chip && r.page == l.page && r.part == l.part && l.right == .read && dieOfReq (s.coreOfRead r) == l.die

/-- A WRITE or an ATOMIC that was rejected waits for a lease. -/
def writeAwaits (l : LeaseReq) (u : Unacked) : Bool :=
  u.rejected && !u.faulted && u.chip == l.chip && u.page == some l.page && u.part == l.part && dieOfReq u.core == l.die
    && l.right == (if u.op.isSome then .atomic else .write)

/-- The waves of a core that wait for a READ. -/
def readers (s : State) (c id : Nat) : List Nat :=
  (s.waves.filter (fun e => s.coreOf e.1 == c && (e.2.pend :: e.2.pends).any (fun p => p.reqs.contains (none, id)))).map (fun e => e.1)

/-- A READ's data reach the waves that asked for it: the waves of one group share them (R175). -/
def answerReaders (s : State) (r : ReadReq) (wid : Nat) (note : Pend → Pend) : State :=
  (s.readers (s.coreOf wid) r.id).foldl (fun (s : State) (x : Nat) => s.updWave x (fun w => w.mapPends (fun p => p.unask (none, r.id) note))) s

/-- A READ ends without its data; its waves note why. -/
def endRead (s : State) (r : ReadReq) (page : Nat) (why : LeaseAnswer) : State :=
  let s := { s with fab := { s.fab with reads := s.fab.reads.filter (fun (x : ReadReq) => x.id != r.id) } }
  let s := match r.wid with
    | none => s
    | some w => (s.readers (s.coreOf w.1) r.id).foldl (fun s x => s.unaskWave x (none, r.id) r.chip page why) s
  (s.stepAck r.id).pump

/-- An ATOMIC ends without its result. -/
def endAtomic (s : State) (u : Unacked) (page : Nat) (why : LeaseAnswer) : State :=
  let s := match u.wid with
    | none => s
    | some w => s.unaskWave w.1 (some u.chip, u.seq) u.chip page why
  s.forgetUnacked u

/-- The agent that a WRITE or an ATOMIC comes from. -/
def reqAgent (u : Unacked) : Agent :=
  { core := if u.core < 384 then some u.core else none, die := dieOfReq u.core, part := u.part, cls := u.cls, wid := none, grid := none }

/-- A WRITE that passed copies on its way is not performed any more: they go (R184, R204). -/
def unpatched (s : State) (u : Unacked) : State := if u.page.isSome && u.op.isNone then s.forgetLine (reqAgent u) (some u.chip) u.pa else s

/-- A WRITE is refused: its wave takes ACCESS at its next boundary, at the gate depth of the store, or its job ends (R57, R334). -/
def refuseWrite (s : State) (u : Unacked) : State :=
  let s := s.unpatched u
  let s := match u.job, u.wid with
    | some j, _ => s.jobCause j 0x32 (some u.at_.va)
    | none, some w =>
      let d : Deferred := ⟨0x32, some u.at_.va, u.at_.depth, none, some u.at_.id⟩
      s.comes (s.coreOf w.1) (.refuse w.1 d) (fun s => s.refused w.1 d)
    | none, none => s
  s.forgetUnacked u

/-- The export page of a WRITE that was rejected is not present: a fault record (R57, R197), where the queue takes it; else the lease is asked for
again. A quiesce does not wait for the page (LE 67). What the spec gives no record of a job is free (LE 13). -/
def writeFault (s : State) (u : Unacked) (page : Nat) : State :=
  if s.fqRoom u.part 1 then
    let free := fun (i : Nat) => (Config.freeWord s.fresh i).toNat
    let job := u.job.bind (Tbl.find s.jobs)
    let slot := (u.wid.map (fun w => w.1)).or (job.bind (fun j => j.wid))
    let r : FaultRec := {
      core := if u.core < 384 then u.core else free 3 % 384
      id := if u.core < 384 then u.at_.id else free 4 % 2 ^ 55
      va := u.at_.va
      asid := u.at_.asid
      lane := if u.job.isSome then free 1 % 256 else u.at_.lane
      slot := ((slot.bind (Tbl.find s.waves)).map (fun w => w.slot)).getD (free 2 % 32)
      kind := if u.job.isSome then 4 else 1
      level := free 0 % 256
      peer := some u.chip }
    (((s.fqRecords u.part [r]).drawn).setUnacked { u with faulted := true }).stepAck u.ord
  else s.requestLease (dieOfReq u.core) u.part u.cls u.chip page .write

/-- A prefetch of the waves of a die and partition waits for a lease of a page. -/
def prfWaits (s : State) (die p chip page : Nat) (x : PrfReq) : Bool :=
  x.chip == chip && x.page == page && dieOf (s.coreOf x.wid) == die && s.partOf x.wid == p

/-- No prefetch of a page waits for its lease any more. -/
def dropPrefetches (s : State) (die p chip page : Nat) : State :=
  { s with fab := { s.fab with prefetches := s.fab.prefetches.filter (fun (x : PrfReq) => !s.prfWaits die p chip page x) } }

/-- A lease has come: what waited for it goes on. -/
def leased (s : State) (die p chip page : Nat) (rights : Rights) : State :=
  let ok := rightsAllow rights
  let s := if !rights.read then s
    else (s.fab.prefetches.filter (s.prfWaits die p chip page)).foldl prfPeer (s.dropPrefetches die p chip page)
  let s := { s with fab := { s.fab with leases := s.fab.leases.filter (fun (l : LeaseReq) =>
    !(l.die == die && l.part == p && l.chip == chip && l.page == page && ok l.right)) } }
  let s := (s.jobLeases die p chip page ok).foldl (fun (s : State) (j : Nat × Nat) => (s.updJob j.1 (fun j => { j with wait := .no })).kick j.1) s
  s.leaseAnswer die p chip page (rightsAll.filter ok) .granted

/-- A lease was denied: the instructions that asked for it trap with ACCESS, jobs end at the address (R334), side-log entries are discarded
(R57, R199); so do the requests that were rejected and asked for it again (R60). -/
def leaseDenied (s : State) (l : LeaseReq) : State :=
  let ok := fun (r : Right) => r == l.right
  let s := { s with fab := { s.fab with leases := s.fab.leases.filter (fun (x : LeaseReq) => x.id != l.id) } }
  let s := if l.right == .read then s.dropPrefetches l.die l.part l.chip l.page else s
  let s := (s.jobLeases l.die l.part l.chip l.page ok).foldl (fun (s : State) (j : Nat × Nat) => s.jobCause j.1 0x32 (some j.2)) s
  let s := (s.fab.reads.filter (s.readAwaits l)).foldl (fun (s : State) (r : ReadReq) =>
    let s := s.endRead r l.page .denied
    match r.job with
    | none => s
    | some j => s.jobCause j 0x32 (some r.va)) s
  let s := (s.fab.unacked.filter (writeAwaits l)).foldl (fun (s : State) (u : Unacked) =>
    if u.op.isSome then s.endAtomic u l.page .denied else s.refuseWrite u) s
  s.leaseAnswer l.die l.part l.chip l.page [l.right] .denied

/-- An export page that a job reads is not present: the job tries again, and faults. -/
def jobAbsent (s : State) (j : Nat) (l : LeaseReq) (f : JobWait → JobWait) : State :=
  (s.updJob j (fun j => { j with wait := f j.wait, absent := j.absent ++ [(l.chip, l.page)] })).kick j

/-- The export page is not present: the accesses fault (R57), those that were rejected too (R60). -/
def leaseAbsent (s : State) (l : LeaseReq) : State :=
  let ok := fun (r : Right) => r == l.right
  let s := { s with fab := { s.fab with leases := s.fab.leases.filter (fun (x : LeaseReq) => x.id != l.id) } }
  let s := if l.right == .read then s.dropPrefetches l.die l.part l.chip l.page else s
  let s := (s.jobLeases l.die l.part l.chip l.page ok).foldl (fun (s : State) (j : Nat × Nat) => s.jobAbsent j.1 l (fun _ => .no)) s
  let s := (s.fab.reads.filter (s.readAwaits l)).foldl (fun (s : State) (r : ReadReq) =>
    let s := s.endRead r l.page .absent
    match r.job with
    | none => s
    | some j => s.jobAbsent j l (fun w => match w with
      | .peer ids => if ids.all (fun x => x == r.id) then .no else .peer (ids.filter (fun x => x != r.id))
      | w => w)) s
  let s := (s.fab.unacked.filter (writeAwaits l)).foldl (fun (s : State) (u : Unacked) =>
    if u.op.isSome then s.endAtomic u l.page .absent else s.writeFault u l.page) s
  s.leaseAnswer l.die l.part l.chip l.page [l.right] .absent

/-- A plane is fenced out (R38, R65, R70). -/
def fencePlane (s : State) (p : Nat) : State :=
  if s.dev.fencedPlanes.getLsbD p then s
  else
    let s := (s.noteFence (.fence (.plane p))).setHealth 3
    { s with dev := { s.dev with fencedPlanes := s.dev.fencedPlanes ||| BitVec.ofNat 8 (2 ^ p) } }

/-- The planes of a mask are fenced out. -/
def fenceAll (s : State) (planes : BitVec 8) : State :=
  (List.range 8).foldl (fun (s : State) (p : Nat) => if planes.getLsbD p then s.fencePlane p else s) s

/-! ## Recalls (R59) -/

/-- A change of an export entry is complete. -/
def exported (s : State) (page : Nat) (entry : ExportEntry) : State :=
  { s with fab := { s.fab with exports_ := Tbl.put s.fab.exports_ page ⟨entry, [], none, []⟩ } }

/-- What a change of an export entry waits for: the acknowledgements on live planes, without one (R59, R68). -/
def recount (s : State) (page : Nat) (e : Export) (but : Option (Nat × Nat)) : State :=
  match e.change with
  | none => s
  | some c =>
    let left := e.missing.filter (fun (x : Nat × Nat) => some x != but && s.dev.live.getLsbD x.2)
    if left.isEmpty then s.exported page c
    else { s with fab := { s.fab with exports_ := Tbl.put s.fab.exports_ page { e with missing := left } } }

/-- Planes have died: every change counts only the live ones (R68). -/
def recountAll (s : State) : State := s.fab.exports_.foldl (fun (s : State) (e : Nat × Export) => s.recount e.1 e.2 none) s

/-! ## Chips that cannot be reached (R68) -/

/-- A member of a group is one of some chips, and is not reached any more (R339, R340). -/
def membersCut (s : State) (f : Nat → Bool) (e : GroupEntry) : Bool := (s.membersOf e).any (fun c => f c && s.memberLost e c)

/-- Requests to some chips end with MACHINE_CHECK in the waves and jobs that wait for them. Nothing of them is outstanding any more. -/
def cutChips (s : State) (f : Nat → Bool) : State :=
  let reads := s.fab.reads.filter (fun r => f r.chip)
  let writes := s.fab.unacked.filter (fun u => f u.chip)
  let asked := s.fab.leases.filter (fun l => f l.chip)
  let gone := (s.fab.markers.filter (fun m => f m.chip)).map (fun m => m.id)
  let s := { s with fab := { s.fab with
    reads := s.fab.reads.filter (fun (r : ReadReq) => !f r.chip)
    unacked := s.fab.unacked.filter (fun (u : Unacked) => !f u.chip)
    leases := s.fab.leases.filter (fun (l : LeaseReq) => !f l.chip)
    prefetches := s.fab.prefetches.filter (fun (x : PrfReq) => !f x.chip)
    markers := s.fab.markers.filter (fun (m : MarkerReq) => !f m.chip)
    mirrorWait := s.fab.mirrorWait.map (fun (m : Nat × Nat × Nat × Nat) => if f m.2.1 then (m.1, m.2.1, 2 ^ 32, m.2.2.2) else m) } }
  let s := { s with cores := s.cores.map (fun (e : Nat × Core) =>
    (e.1, { e.2 with outstanding := e.2.outstanding.filter (fun (x : Nat × Nat × Bool) => !f x.1) })) }
  let ids := reads.map (fun (r : ReadReq) => r.id)
  let cut := fun (w : Wave) => (w.pend :: w.pends).flatMap (fun p => p.reqs.filterMap (fun q => q.1) ++ p.leases.map (fun l => l.1))
  let s := s.waves.foldl (fun (s : State) (e : Nat × Wave) =>
    let chips := (cut e.2).filter f
    if chips.isEmpty && !(e.2.pend :: e.2.pends).any (fun p => ids.any (fun i => p.reqs.contains (none, i))) then s
    else s.comes (s.coreOf e.1) (.cut e.1 ids chips) (fun s => s.cutAt e.1 ids chips)) s
  let s := writes.foldl unpatched s
  let s := writes.foldl (fun (s : State) (u : Unacked) => match u.job, u.wid with
    | some j, _ => s.jobCause j 0x01 none
    | none, some w => if u.op.isSome then s else s.pendCheck w.1 u.at_.id
    | none, none => s) s
  let s := reads.foldl (fun (s : State) (r : ReadReq) => match r.job with
    | some j => s.jobCause j 0x01 none
    | none => s) s
  let s := (s.jobs.filter (fun (e : Nat × Job) => match e.2.wait with
      | .lease c _ _ _ => f c
      | _ => Card.kind e.2.card == 5 && s.membersCut f (s.groupEntry e.2.part (Card.collGroup e.2.card)))).foldl
    (fun (s : State) (e : Nat × Job) => s.jobCause e.1 0x01 none) s
  let s := s.waves.foldl (fun (s : State) (e : Nat × Wave) => match e.2.park, e.2.collwAt with
    | .collw, some (g, _, _) => if s.membersCut f (s.groupEntry (s.partOf e.1) g) then s.pendCheck e.1 e.2.issueId else s
    | _, _ => s) s
  let s := asked.foldl (fun (s : State) (l : LeaseReq) => s.leaseAnswer l.die l.part l.chip l.page rightsAll .granted) s
  gone.foldl (fun (s : State) (i : Nat) => s.stepAck i) ((writes.foldl (fun (s : State) (u : Unacked) => s.stepAck u.ord)
    (reads.foldl (fun (s : State) (r : ReadReq) => s.stepAck r.id) s.relog)).pump)

/-- No plane is live: the domain is down, and a quiesce is over (R68); the planes that died are fenced out (R38). -/
def domainLost (s : State) (dead : BitVec 8) : State :=
  let s := s.fenceAll (s.fab.downPlanes ||| dead)
  (({ s with dev := { s.dev with live := 0, domainDown := true, qstate := 0 }
             fab := { s.fab with phase := 0, plan := false, takeover := false, fencing := false, heldBuckets := [], waitAcks := [] } }).cutChips
    (fun _ => true)).recountAll

/-! ## The quiesce, as master (R65, R66, R68, R69) -/

/-- A step of the run begins: no chip has answered it, and each has 100 µs. -/
def beginStep (s : State) (n : Nat) : State :=
  let s := { s with fab := { s.fab with phase := n, answers := [], stepAt := s.reft } }
  Config.members.foldl (fun s c => if c == s.chipId || s.fab.unreachable.contains c then s else s.after 100000 (.chipStepTimeout c)) s

/-- The buckets that a planned map moves to another plane (R69). -/
def movedBuckets (s : State) (m : List Nat) : List (Fin 64) :=
  ((List.range 64).filter (fun b => m.getD b 0 != s.fab.baseMap.getD b 0)).map (Fin.ofNat 64)

/-- The master begins at step 1: with the planes that are dead, or for a planned map. -/
def beginRun (s : State) (planes : BitVec 8) (plan : Option (List Nat)) : State :=
  let s := if s.fab.phase == 0 then { s with fab := { s.fab with baseMap := s.dev.fabMap, baseGen := s.dev.fabMapGen.toNat, runPlanes := 0 } } else s
  let all := s.fab.runPlanes ||| planes
  let s := { s with fab := { s.fab with runPlanes := all, plan := plan.isSome, newMap := plan.getD [] } }
  let moved := (plan.map s.movedBuckets).getD []
  let s := (s.beginStep 1).broadcast (fun p => .stop p all (moved.map (fun b => b.val)) s.fab.baseGen)
  s.soon (.stop ⟨s.chipId, all, moved⟩ s.fab.baseGen)

/-- The map of the next generation (R66): the k-th bucket of a dead plane goes to live plane number k mod L. -/
def rehashFrom (dead : BitVec 8) (live : List Nat) : List Nat → Nat → List Nat
  | [], _ => []
  | p :: ps, k => if dead.getLsbD p then live.getD (k % live.length) 0 :: rehashFrom dead live ps (k + 1) else p :: rehashFrom dead live ps k

/-- The map that the master sends. -/
def nextMap (s : State) : List Nat :=
  if s.fab.plan then s.fab.newMap
  else rehashFrom s.fab.runPlanes ((List.range 8).filter (fun p => s.dev.live.getLsbD p && !s.fab.runPlanes.getLsbD p)) s.fab.baseMap 0

/-- Every chip of the domain has answered the step. -/
def allAnswered (s : State) : Bool :=
  (s.chipId :: Config.members.filter (fun c => !s.fab.unreachable.contains c)).all (fun c => s.fab.answers.contains c)

/-- The next step of the run, once every chip has answered. -/
def advance (s : State) : State :=
  if !s.allAnswered then s
  else
    let g := s.fab.baseGen
    match s.fab.phase with
    | 1 => ((s.beginStep 2).broadcast (fun p => .fence p g)).soon (.quiesceFence g)
    | 2 =>
      let m := s.nextMap
      ((s.beginStep 3).broadcast (fun p => .map p (g + 1) m)).soon (.map (g + 1) (m.map (fun p => Fin.ofNat 8 p)))
    | 3 => (({ s with fab := { s.fab with phase := 0, answers := [], takeover := false } }).broadcast (fun p => .resume p (g + 1))).soon
      (.resume (g + 1))
    | _ => s

/-- An answer to a step reaches the master. -/
def gather (s : State) (chip n : Nat) : State :=
  if !s.joined || !s.dev.masterAct || s.fab.phase != n || s.fab.answers.contains chip then s
  else ({ s with fab := { s.fab with answers := s.fab.answers ++ [chip] } }).advance

/-- The report of a plane still asks for something: it is no plane of the run that this chip leads, nor one that is down or fenced out here. A plane that
never trained here is (R64). -/
def deadNews (s : State) (p : Nat) : Bool :=
  !(s.fab.runPlanes.getLsbD p && s.fab.phase != 0) && (s.dev.live.getLsbD p || !(s.dev.fencedPlanes ||| s.fab.downPlanes).getLsbD p)

/-- The chip finds a plane dead (R64): the master begins the sequence, another chip reports it on the lowest-numbered other live plane. With no other plane
live, the domain is down (R68). -/
def reportDead (s : State) (p : Nat) : State :=
  if !s.joined || !s.deadNews p then s
  else if s.dev.live &&& ~~~BitVec.ofNat 8 (2 ^ p) == 0 then s.domainLost (BitVec.ofNat 8 (2 ^ p))
  else if s.dev.masterAct then s.beginRun (BitVec.ofNat 8 (2 ^ p)) none
  else
    let via := (s.livePlanes.filter (fun k => k != p)).headD 0
    s.control via (.deadReport via p s.dev.fabMapGen.toNat)

end State

/-! ## Requests that arrive -/

/-- FABRIC_READ (R55, R60): the value that is current as it is performed. The request looks its line up in the L2 in its partition's ways for its
class (R183). Poisoned data goes out marked (R246, LE 32). -/
def execFabricRead (r : FabReq) (len : Nat) (s : State) : Host.Outcome State Fault Refusal :=
  if !s.joined then .next s
  else if !s.exportOk r .read then .next (s.respond r (.rejectedRead r.id))
  else .next ((s.l2Home (State.fabAgent r) r.pa 0 false).respond r (if s.poisoned r.pa len then .poisoned r.id else .data r.id (s.bytesAt r.pa len)))

/-- FABRIC_WRITE (R55, R60, R72): applied at its first arrival, acknowledged at each. -/
def execFabricWrite (r : FabReq) (data : List Byte) (s : State) : Host.Outcome State Fault Refusal :=
  if !s.joined then .next s
  else if (s.window r.src).recent.contains r.seq then .next (s.respond r (.writeAck s.chipId r.seq))
  else if r.page.isSome && !s.exportOk r .write then .next (s.respond r (.rejectedSeq s.chipId r.seq))
  else .next ((((s.l2Home (State.fabAgent r) r.pa 0 true).writeHome (State.fabAgent r) false r.pa data).noted r.src r.seq none).respond r (.writeAck s.chipId r.seq))

/-- FABRIC_ATOMIC (R55, R60): performed at the home once; a duplicate returns the saved result. On poisoned data it is not performed (R246, LE 32). -/
def execFabricAtomic (r : FabReq) (op : RmwOp) (s : State) : Host.Outcome State Fault Refusal :=
  if !s.joined then .next s
  else
    match (s.window r.src).results.find? (fun x => x.1 == r.seq) with
    | some x => .next (s.respond r (.atomicDone s.chipId r.seq x.2))
    | none =>
      if (s.window r.src).recent.contains r.seq then .next s
      else if !s.exportOk r .atomic then .next (s.respond r (.rejectedSeq s.chipId r.seq))
      else if s.poisoned r.pa (rmwBytes op) then .next (s.respond r (.atomicPoisoned s.chipId r.seq))
      else
        let n := rmwBytes op
        let old := s.natAt r.pa n
        let s := ((s.l2Home (State.fabAgent r) r.pa 0 true).writeHome (State.fabAgent r) false r.pa (natBytes n (rmwNew op old))).noted r.src r.seq (some (BitVec.ofNat 64 old))
        .next (s.respond r (.atomicDone s.chipId r.seq (BitVec.ofNat 64 old)))

/-- MARKER (R56): every request that came before it on its plane has been performed as it came. -/
def execMarker (src : Nat) (plane : Fin 8) (m : MarkerTag) (s : State) : Host.Outcome State Fault Refusal :=
  if !s.joined then .next s else .next (s.emit (.response src plane.val m.of_.part m.of_.cls (.markerAck s.chipId m.id plane)))

/-! ## Answers that arrive -/

namespace State

/-- A line of another chip has come to a die: what came of it before is not kept as a copy any more (R204). -/
def outdate (s : State) (die chip line : Nat) : State :=
  { s with waves := s.waves.map (fun (e : Nat × Wave) =>
    if dieOf (s.coreOf e.1) != die then e
    else (e.1, e.2.mapPends (fun p => { p with lines := p.lines.map (fun l => if l.chip == chip && l.line == line then { l with keep := false } else l) }))) }

/-- The line of a prefetch stays in the caches, unless it must not be kept (R325). -/
def keepPre (s : State) (wid : Nat) (r : ReadReq) (bs : List Byte) : State :=
  if !r.pre || !r.keep || (Tbl.find s.waves wid).isNone then s
  else
    let ag := s.agentOf wid
    let l := Line.mk (some r.chip) (r.pa / 128 * 128) bs (0, 0) ag.part
    let s := s.keepCopy ag 0 l
    match ag.core with
    | none => s
    | some c => if (lineIn (s.core c).l1 l.chip l.pa).isNone then s.fillL1 c l else s

/-- The data of a READ reach the waves that asked. -/
def dataToWave (s : State) (r : ReadReq) (bs : List Byte) (wid : Nat) : State :=
  let got : Got := ⟨r.chip, r.pa / 128, bs, r.keep, false⟩
  let s := s.outdate (dieOf (s.coreOf wid)) r.chip (r.pa / 128)
  (s.answerReaders r wid (fun p => { p with lines := p.lines ++ [got] })).keepPre wid r bs

/-- The data of a READ reach the job that asked. -/
def dataToJob (s : State) (r : ReadReq) (bs : List Byte) (j : Nat) : State :=
  match (Tbl.find s.jobs j).map (fun (x : Job) => x.wait) with
  | some (.peer ids) =>
    let left := ids.filter (fun (x : Nat) => x != r.id)
    let s := s.updJob j (fun j => { j with lines := j.lines ++ [(r.chip, r.pa / 128, bs)], wait := if left.isEmpty then .no else .peer left })
    if left.isEmpty then s.kick j else s
  | _ => s

/-- The data of a READ. -/
def gotData (s : State) (id : Nat) (bs : List Byte) : State :=
  match s.fab.reads.find? (fun r => r.id == id) with
  | none => s
  | some r =>
    let s := { s with fab := { s.fab with reads := s.fab.reads.filter (fun (x : ReadReq) => x.id != id) } }
    let s := match r.wid with
      | none => s
      | some w => s.dataToWave r bs w.1
    let s := match r.job with
      | none => s
      | some j => s.dataToJob r bs j
    s.stepAck id

/-- Poisoned data has come for the waves that asked for a READ, which meet it as they go on, or for a job, which ends (R246); a prefetch keeps
nothing. -/
def gotPoison (s : State) (id : Nat) : State :=
  match s.fab.reads.find? (fun r => r.id == id) with
  | none => s
  | some r =>
    let s := { s with fab := { s.fab with reads := s.fab.reads.filter (fun (x : ReadReq) => x.id != id) } }
    let s := match r.wid with
      | none => s
      | some w => s.answerReaders r w.1 (fun p => { p with lines := p.lines ++ [Got.mk r.chip (r.pa / 128) [] false true] })
    let s := match r.job with
      | none => s
      | some j => s.jobPoison j
    s.stepAck id

/-- A WRITE or an ATOMIC that is under way. -/
def sentSeq (s : State) (chip seq : Nat) : Option Unacked :=
  s.fab.unacked.find? (fun u => u.chip == chip && u.seq == seq && !u.held && !u.rejected)

/-- A WRITE or an ATOMIC is acknowledged. -/
def acked (s : State) (chip seq : Nat) : State :=
  match s.sentSeq chip seq with
  | none => s
  | some u =>
    let s := { s with fab := { s.fab with
      unacked := s.fab.unacked.filter (fun (x : Unacked) => x.ord != u.ord)
      mirrorWait := s.fab.mirrorWait.filter (fun (m : Nat × Nat × Nat × Nat) => !(m.1 == u.part && m.2.1 == chip && m.2.2.1 == seq)) } }
    let s := match u.job with
      | none => s
      | some j => s.jobWritten j
    s.forgetUnacked u

/-- The write of an ATOMIC is performed at its home: the copies of its core and its die take it (R177, R184). Where the die has written its bytes
again since, the copies may hold the later value, or not: they go (R204). -/
def atomicWritten (s : State) (u : Unacked) (old : DWord) : State :=
  match u.op with
  | none => s
  | some o =>
    if u.passed then s.forgetLine (reqAgent u) (some u.chip) u.pa
    else s.patchCopies (reqAgent u) (some u.chip) u.pa (natBytes (rmwBytes o) (rmwNew o old.toNat))

/-- The old value of an ATOMIC: the copies take what it wrote before its result is written (R184). -/
def gotOld (s : State) (chip seq : Nat) (old : DWord) : State :=
  match s.sentSeq chip seq with
  | none => s
  | some u =>
    let s := s.atomicWritten u old
    let s := match u.wid with
      | none => s
      | some w => s.updWave w.1 (fun x => x.mapPends (fun p => p.unask (some chip, seq) (fun p => { p with olds := p.olds ++ [(w.2, old)] })))
    s.acked chip seq

/-- A MARKER is acknowledged. -/
def gotMarker (s : State) (id : Nat) : State :=
  (({ s with fab := { s.fab with markers := s.fab.markers.filter (fun (m : MarkerReq) => m.id != id) } }).stepAck id).relog

/-- An ATOMIC has met poison at its home and was not performed: its wave meets that as it goes on (R246). -/
def gotAtomicPoison (s : State) (chip seq : Nat) : State :=
  match s.sentSeq chip seq with
  | none => s
  | some u =>
    let s := match u.wid with
      | none => s
      | some w => s.updWave w.1 (fun x => x.mapPends (fun p =>
          p.unask (some chip, seq) (fun p => { p with lines := p.lines ++ [Got.mk chip (u.pa / 128) [] false true] })))
    s.acked chip seq

/-- The export page's translation is no longer used. -/
def dropPtc (s : State) (chip page gen : Nat) : State :=
  { s with fab := { s.fab with ptc := s.fab.ptc.filter (fun (e : PtcEntry) => !(e.chip == chip && e.page == page && e.gen == gen)) } }

/-- A READ was rejected: a new lease, then it is sent again (R60). -/
def rejectRead (s : State) (id : Nat) : State :=
  match s.fab.reads.find? (fun r => r.id == id && !r.rejected && !r.held) with
  | none => s
  | some r => ((s.setRead { r with rejected := true }).dropPtc r.chip r.page r.gen).requestLease (dieOfReq (s.coreOfRead r)) r.part r.cls r.chip r.page
      .read

/-- A WRITE or an ATOMIC was rejected (R60). -/
def rejectSeq (s : State) (chip seq : Nat) : State :=
  match s.sentSeq chip seq with
  | none => s
  | some u =>
    match u.page with
    | none => s
    | some page => ((s.setUnacked { u with rejected := true }).dropPtc chip page u.gen).requestLease (dieOfReq u.core) u.part u.cls chip page
        (if u.op.isSome then .atomic else .write)

/-- Rejected requests of an export page are sent again under its new translation, with their sequence numbers and in their order (R54, R60). In
the fourth step of a quiesce they are requests that it waits for (R65). -/
def resendRejected (s : State) (die part chip page pa gen : Nat) : State :=
  let at_ := fun (a : Nat) => pa / 65536 * 65536 + a % 65536
  let mine := fun (u : Unacked) =>
    u.rejected && !u.faulted && u.chip == chip && u.page == some page && u.part == part && dieOfReq u.core == die
  let asks := fun (r : ReadReq) => r.rejected && r.chip == chip && r.page == page && r.part == part && dieOfReq (s.coreOfRead r) == die
  let ids := (s.fab.unacked.filter mine).map (fun u => u.ord) ++ (s.fab.reads.filter asks).map (fun r => r.id)
  let us := s.fab.unacked.map (fun (u : Unacked) =>
    if mine u then
      { u with pa := at_ u.pa, gen := gen, bucket := bucketOf chip (at_ u.pa), rejected := false, again := true, held := true }
    else u)
  let rs := s.fab.reads.map (fun (r : ReadReq) =>
    if asks r then
      { r with pa := at_ r.pa, gen := gen, bucket := bucketOf chip (at_ r.pa), rejected := false, held := true }
    else r)
  let waits := if s.dev.qstate == 3 then s.fab.waitAcks ++ ids.filter (fun i => !s.fab.waitAcks.contains i) else s.fab.waitAcks
  ({ s with fab := { s.fab with unacked := us, reads := rs, waitAcks := waits } }).pump

/-- The core whose wave or job an answer is for. -/
def respCore (s : State) : FabResp → Option Nat
  | .data id _ | .poisoned id => ((s.fab.reads.find? (fun r => r.id == id)).map s.coreOfRead).filter (fun c => c < 384)
  | .atomicDone chip seq _ | .atomicPoisoned chip seq => ((s.sentSeq chip seq).bind (fun u => u.wid)).map (fun w => s.coreOf w.1)
  | _ => none

/-- What an answer does. -/
def answered (s : State) : FabResp → State
  | .data id bs => s.gotData id bs
  | .poisoned id => s.gotPoison id
  | .atomicPoisoned chip seq => s.gotAtomicPoison chip seq
  | .writeAck chip seq => s.acked chip seq
  | .atomicDone chip seq old => s.gotOld chip seq old
  | .markerAck _ id _ => s.gotMarker id
  | .leaseDenied id => match s.fab.leases.find? (fun l => l.id == id) with
    | none => s
    | some l => (s.leaseDenied l).stepAck id
  | .notPresent id => match s.fab.leases.find? (fun l => l.id == id) with
    | none => s
    | some l => (s.leaseAbsent l).stepAck id
  | .rejectedRead id => s.rejectRead id
  | .rejectedSeq chip seq => s.rejectSeq chip seq

end State

/-- RESPONSE (R52, R55 to R57, R60). One to a core whose hob relocks waits in its FIFO (R15). -/
def execResponse (r : FabResp) (s : State) : Host.Outcome State Fault Refusal :=
  if !s.joined then .next s
  else match s.respCore r with
    | none => .next (s.answered r)
    | some c => .next (if s.asleep c then s.toFifo c (.response r) else s.answered r)

/-! ## Leases and exports (R57 to R59) -/

/-- LEASE (R57): the target answers with a grant, a denial, or not present, on its lowest-numbered live plane (LE 76); while the page's entry
changes, the answer waits. The expiry lies within LEASE_MAX of the grant, as the target's software chooses (LE 13). -/
def execLease (src : Nat) (of_ : Charge) (page : Nat) (right : Right) (id : Nat) (s : State) : Host.Outcome State Fault Refusal :=
  if !s.joined then .next s
  else
    let plane := s.livePlanes.headD 0
    let denied := s.emit (.response src plane of_.part of_.cls (.leaseDenied id))
    match Tbl.find s.fab.exports_ page with
    | none => .next denied
    | some e =>
      if e.change.isSome then .next (s.soon (.lease src of_ page right id))
      else if !e.entry.dests.contains (src, of_.part) || !rightsAllow e.entry.rights right then .next denied
      else match e.entry.pa with
        | none => .next (s.emit (.response src plane of_.part of_.cls (.notPresent id)))
        | some pa =>
          let expiry := s.reft + Config.delay s.fresh % (1000000 * fieldOf s.dev.leaseMax 6 0 + 1)
          let s := { s with fab := { s.fab with exports_ := Tbl.put s.fab.exports_ page { e with
            holders := e.holders.filter (fun (h : Nat × Nat × Nat × Cls) => !(h.1 == src && h.2.1 ≤ expiry)) ++ [(src, expiry, of_.part, of_.cls)] } } }
          .next (s.emit (.leaseGrant src plane of_.part of_.cls page pa e.entry.rights e.entry.gen expiry)).drawn

/-- LEASE_GRANT (R57): fills the peer translation cache of 4,096 entries, and what waited goes on. The entry has the class of the LEASE that it
answers. -/
def execLeaseGrant (die : Fin 2) (part chip page pa : Nat) (rights : Rights) (gen expiry : Nat) (s : State) : Host.Outcome State Fault Refusal :=
  if !s.joined then .next s
  else
    let rest := s.fab.ptc.filter (fun (e : PtcEntry) => !(e.die == die.val && e.part == part && e.chip == chip && e.page == page))
    let mine := rest.filter (fun (e : PtcEntry) => e.die == die.val)
    let rest := if mine.length < 4096 then rest
      else match mine[Config.victim s.fresh % mine.length]? with
        | none => rest
        | some v => rest.erase v
    let asked := s.fab.leases.filter (fun (l : LeaseReq) =>
      l.die == die.val && l.part == part && l.chip == chip && l.page == page && rightsAllow rights l.right)
    let cls := (asked.head?.map (fun l => l.cls)).getD .h
    let s := { s with fab := { s.fab with ptc := rest ++ [PtcEntry.mk die.val part cls chip page pa rights gen expiry] } }
    let s := (s.drawn.atTick (expiry - 64) (.leaseExpiry die part chip page)).leased die.val part chip page rights
    .next (asked.foldl (fun (s : State) (l : LeaseReq) => s.stepAck l.id) (s.resendRejected die.val part chip page pa gen))

/-- LEASE_EXPIRY (R58): 64 ticks before its expiry an entry is no longer used. -/
def execLeaseExpiry (die : Fin 2) (part chip page : Nat) (s : State) : Host.Outcome State Fault Refusal :=
  .next { s with fab := { s.fab with ptc := s.fab.ptc.filter (fun (e : PtcEntry) =>
    !(e.die == die.val && e.part == part && e.chip == chip && e.page == page && e.expiry ≤ s.reft + 64)) } }

/-- EXPORT_CHANGE (R59): with unexpired leases, the generation goes up and every holder is recalled on every live plane, each RECALL charged to
the partition and the class of a LEASE that the holder has (R62); where no plane is live, nothing is left to wait for. -/
def execExportChange (page : Nat) (entry : ExportEntry) (s : State) : Host.Outcome State Fault Refusal :=
  match Tbl.find s.fab.exports_ page with
  | none => .next (s.exported page entry)
  | some e =>
    let holders := e.holders.filter (fun (h : Nat × Nat × Nat × Cls) => s.reft < h.2.1)
    if e.change.isSome then .next (s.soon (.exportChange page entry))
    else if holders.isEmpty then .next (s.exported page entry)
    else
      let gen := (e.entry.gen + 1) % 65536
      if !s.joined || s.livePlanes.isEmpty then .next (s.exported page { entry with gen := gen })
      else
      let chips := dedup (holders.map (fun (h : Nat × Nat × Nat × Cls) => h.1))
      let planes := s.livePlanes
      let missing := chips.flatMap (fun (c : Nat) => planes.map (fun (p : Nat) => (c, p)))
      let x := Export.mk { e.entry with gen := gen } holders (some { entry with gen := gen }) missing
      let s := { s with fab := { s.fab with exports_ := Tbl.put s.fab.exports_ page x } }
      let of_ := fun (c : Nat) => ((holders.find? (fun h => h.1 == c)).map (fun h => h.2.2)).getD (0, .h)
      let s := chips.foldl (fun (s : State) (c : Nat) =>
        planes.foldl (fun (s : State) (p : Nat) => s.emit (.recall c p (of_ c).1 (of_ c).2 page gen)) s) s
      .next (s.atTick (holders.foldl (fun (m : Nat) (h : Nat × Nat × Nat × Cls) => max m h.2.1) 0 + 65) (.exportChangeTimeout page))

/-- EXPORT_CHANGE_TIMEOUT (R59): the last lease's expiry and 64 ticks have passed. -/
def execExportChangeTimeout (page : Nat) (s : State) : Host.Outcome State Fault Refusal :=
  match Tbl.find s.fab.exports_ page with
  | none => .next s
  | some e => match e.change with
    | none => .next s
    | some c => if e.holders.any (fun (h : Nat × Nat × Nat × Cls) => s.reft ≤ h.2.1 + 64) then .next s else .next (s.exported page c)

/-- A RECALL is a further copy, or a late one (R59): one of its change, or of a later change of the page, has come. -/
def State.recallSeen (s : State) (m : RecallMsg) (page : Nat) : Bool :=
  s.fab.recalled.any (fun x => x.1 == m.chip && x.2.1 == page && (x.2.2 + 65536 - m.gen % 65536) % 65536 < 32768)

/-- RECALL (R59): with the first copy to arrive, the entry is invalidated, if the cache still holds it, and the acknowledgement goes out on every
live plane, charged to the partition and the class of the entry (R62; without an entry, LE 77). -/
def execRecall (m : RecallMsg) (page : Nat) (s : State) : Host.Outcome State Fault Refusal :=
  if !s.joined || s.recallSeen m page then .next s
  else
    let of_ := ((s.fab.ptc.find? (fun (e : PtcEntry) => e.chip == m.chip && e.page == page)).map (fun e => (e.part, e.cls))).getD (0, .h)
    let s := { s with fab := { s.fab with
      ptc := s.fab.ptc.filter (fun (e : PtcEntry) => !(e.chip == m.chip && e.page == page && e.gen != m.gen))
      recalled := s.fab.recalled.filter (fun (x : Nat × Nat × Nat) => !(x.1 == m.chip && x.2.1 == page)) ++ [(m.chip, page, m.gen)] } }
    .next (s.livePlanes.foldl (fun (s : State) (p : Nat) => (s.countFlits p of_.1 of_.2 1).emit (.recallAck m.chip p of_.1 of_.2 page m.gen)) s)

/-- RECALL_ACK (R59, R68): the change is complete once every holder has answered on every live plane. One of an earlier change, which the
expiry has ended, does not count. -/
def execRecallAck (m : RecallMsg) (page : Nat) (plane : Fin 8) (s : State) : Host.Outcome State Fault Refusal :=
  match Tbl.find s.fab.exports_ page with
  | none => .next s
  | some e => .next (if (e.change.map (fun c => c.gen)) == some m.gen then s.recount page e (some (m.chip, plane.val)) else s)

/-! ## Dead planes (R63, R64) -/

/-- The retry events of a plane within the last millisecond. -/
def retriesOf (s : State) (p : Nat) : Nat := (s.fab.retry.filter (fun (x : Nat × Nat) => x.1 == p && s.reft < x.2 + 1000000)).length

/-- LINK_RETRY (R63): the flit is replayed; more than 32 such events within 1 ms are reported (R64). -/
def execLinkRetry (plane : Fin 8) (s : State) : Host.Outcome State Fault Refusal :=
  if !s.joined then .next s
  else
    let r := s.fab.retry.filter (fun (x : Nat × Nat) => s.reft < x.2 + 1000000)
    let s := { s with fab := { s.fab with retry := r ++ [(plane.val, s.reft)] } }
    .next (if 32 < retriesOf s plane.val then s.atTick s.reft (.linkRetryLimit plane) else s)

/-- LINK_RETRY_LIMIT (R64). -/
def execLinkRetryLimit (plane : Fin 8) (s : State) : Host.Outcome State Fault Refusal :=
  if retriesOf s plane.val ≤ 32 then .next s else .next (s.reportDead plane.val)

/-- LINK_DOWN (R64). -/
def execLinkDown (plane : Fin 8) (s : State) : Host.Outcome State Fault Refusal := .next (s.reportDead plane.val)

/-- FABRIC_REQUEST_TIMEOUT (R64): a request on the plane has gone unanswered for 100 µs; else the next is watched. -/
def execFabricRequestTimeout (plane : Fin 8) (s : State) : Host.Outcome State Fault Refusal :=
  let p := plane.val
  let ts := (s.fab.unacked.filter (fun (u : Unacked) => u.plane == p && !u.held && !u.rejected)).map (fun u => u.since)
    ++ (s.fab.reads.filter (fun (r : ReadReq) => r.plane == p && !r.held && !r.rejected)).map (fun r => r.since)
    ++ (s.fab.markers.filter (fun (m : MarkerReq) => m.plane == p)).map (fun m => m.since)
    ++ (s.fab.leases.filter (fun (l : LeaseReq) => l.plane == p)).map (fun l => l.since)
  match leastBy id ts with
  | none => .next s
  | some t =>
    if !s.joined then .next s
    else if s.reft < t + 100000 then .next (s.atTick (t + 100000) (.fabricRequestTimeout plane))
    else .next (s.reportDead p)

/-- PLANE_FAIL (R64). -/
def execPlaneFail (plane : Fin 8) (s : State) : Host.Outcome State Fault Refusal := .next (s.reportDead plane.val)

/-- DEAD_REPORT (R65): the first report of a plane under the present generation, in the last steps of a run the new one too (R68); `chip` is the
one that reports. -/
def execDeadReport (_chip : Nat) (plane : Fin 8) (gen : Nat) (s : State) : Host.Outcome State Fault Refusal :=
  let present := if s.fab.phase == 0 then gen == s.dev.fabMapGen.toNat else gen == s.fab.baseGen || (s.fab.phase == 3 && gen == s.fab.baseGen + 1)
  if !s.joined || !s.dev.masterAct || !present then .next s
  else .next (s.reportDead plane.val)

/-! ## The messages of the quiesce (R65, R68, R69) -/

namespace State

/-- A generation that a run may start from: this chip's, or the one before or after it, where a run is begun again (R68). -/
def nearGen (s : State) (gen : Nat) : Bool := gen ≤ s.dev.fabMapGen.toNat + 1 && s.dev.fabMapGen.toNat ≤ gen + 1

/-- A STOP is the first copy to arrive (R65): it comes from another master than the one that is followed or names a further plane (R68). Where no
run is under way here, one of an earlier generation is a late copy of a run that is over, unless it is the standby that has taken over
(LE 65). -/
def stopCounts (s : State) (src : Nat) (planes : BitVec 8) (gen : Nat) : Bool :=
  if s.dev.qstate == 0 then s.dev.fabMapGen.toNat ≤ gen || (src != s.fab.runSrc && src == fieldOf s.dev.fabId 30 21)
  else src != s.fab.runSrc || planes &&& ~~~s.fab.downPlanes != 0

end State

/-- STOP (R65, R67): the buckets mapped to the dead planes, or those that a planned map moves (R69), are held, the planes are down, markers on
them are dropped. Further copies do not count. -/
def execStop (m : StopMsg) (gen : Nat) (s : State) : Host.Outcome State Fault Refusal :=
  if !s.joined || !s.nearGen gen || !s.stopCounts m.src m.planes gen then .next s
  else
    let bs := (List.range 64).filter (fun b => m.moved.any (fun x => x.val == b) || m.planes.getLsbD (s.dev.fabMap.getD b 0))
    let s := { s with
      dev := { s.dev with qstate := 1, live := s.dev.live &&& ~~~m.planes }
      fab := { s.fab with
        downPlanes := s.fab.downPlanes ||| m.planes
        heldBuckets := s.fab.heldBuckets ++ bs.filter (fun (b : Nat) => !s.fab.heldBuckets.contains b)
        markers := s.fab.markers.filter (fun (x : MarkerReq) => !m.planes.getLsbD x.plane)
        runSrc := m.src
        fencing := false
        waitAcks := [] } }
    if s.dev.live == 0 then .next (s.domainLost m.planes)
    else .next (s.recountAll.answerMaster (fun p => .stopped p s.dev.fabMapGen.toNat) (.stopped ⟨s.chipId, s.dev.fabMapGen.toNat⟩))

/-- STOPPED (R65): a master that took over goes on from the highest generation that a chip reports (R68). -/
def execStopped (m : StoppedMsg) (s : State) : Host.Outcome State Fault Refusal :=
  let s := if s.fab.takeover && s.fab.phase == 1 then { s with fab := { s.fab with baseGen := max s.fab.baseGen m.gen } } else s
  .next (s.gather m.chip 1)

namespace State

/-- The MARKERs of a quiesce to a chip, one on every live plane (R65); no wave or job causes them (LE 77). -/
def quiesceMarkers (s : State) (chip : Nat) : State :=
  s.livePlanes.foldl (fun (s : State) (p : Nat) =>
    let id := s.nextId
    let s := { s with nextId := id + 1, fab := { s.fab with
      markers := s.fab.markers ++ [MarkerReq.mk id chip p 0 .h 384 0 s.reft], waitAcks := s.fab.waitAcks ++ [id] } }
    ((s.countFlits p 0 .h 1).watch p).emit (.marker chip p id 0 .h)) s

end State

/-- QUIESCE_FENCE (R65): markers to every chip to which traffic is not acknowledged, on every live plane. -/
def execQuiesceFence (gen : Nat) (s : State) : Host.Outcome State Fault Refusal :=
  if !s.joined || s.dev.qstate != 1 || s.fab.fencing || !s.nearGen gen then .next s
  else
    let to_ := dedup ((s.fab.unacked.filter (fun (u : Unacked) => !u.held)).map (fun u => u.chip)
      ++ (s.fab.reads.filter (fun (r : ReadReq) => !r.held)).map (fun r => r.chip) ++ s.fab.leases.map (fun (l : LeaseReq) => l.chip)
      ++ s.fab.markers.map (fun (m : MarkerReq) => m.chip))
    let s := to_.foldl (fun (s : State) (c : Nat) => s.quiesceMarkers c) { s with fab := { s.fab with fencing := true } }
    .next s.stepDone

/-- FENCED (R65). -/
def execFenced (chip : Nat) (s : State) : Host.Outcome State Fault Refusal := .next (s.gather chip 2)

namespace State

/-- A LEASE that went on a dead plane is asked for again. -/
def askAgain (s : State) (l : LeaseReq) : State :=
  let l := { l with plane := s.livePlanes.headD 0, since := s.reft }
  ({ s with fab := { s.fab with leases := s.fab.leases.map (fun (x : LeaseReq) => if x.id == l.id then l else x) } }).sendLease l

/-- A map is in force: dead planes are fenced out, planes that the map uses are live. -/
def installMap (s : State) (gen : Nat) (planes : List Nat) : State :=
  let used := planes.foldl (fun (m : BitVec 8) (p : Nat) => m ||| BitVec.ofNat 8 (2 ^ p)) 0
  let s := s.fenceAll s.fab.downPlanes
  let fenced := s.dev.fencedPlanes &&& ~~~used
  { s with dev := { s.dev with
    fabMap := planes, fabMapGen := BitVec.ofNat 32 gen, qstate := 3
    live := s.dev.live ||| used, fencedPlanes := fenced
    health := setField s.dev.health 3 3 (bnat (fenced != 0)) } }

end State

/-- MAP (R65, R69): the map is installed, and unacknowledged requests that went on dead planes are sent again in their order. -/
def execMap (gen : Nat) (planes : List (Fin 8)) (s : State) : Host.Outcome State Fault Refusal :=
  let now := s.dev.fabMapGen.toNat
  if !s.joined || s.dev.qstate != 2 || planes.length != 64 || gen < now || now + 2 < gen then .next s
  else
    let down := s.fab.downPlanes
    let s := s.installMap gen (planes.map (fun (p : Fin 8) => p.val))
    let again := s.fab.unacked.filter (fun (u : Unacked) => down.getLsbD u.plane && !u.held && !u.rejected)
    let reads := s.fab.reads.filter (fun (r : ReadReq) => down.getLsbD r.plane && !r.held && !r.rejected)
    let asked := s.fab.leases.filter (fun (l : LeaseReq) => down.getLsbD l.plane)
    let ids := again.map (fun (u : Unacked) => u.ord) ++ reads.map (fun (r : ReadReq) => r.id) ++ asked.map (fun (l : LeaseReq) => l.id)
    let s := (State.inOrder again reads).foldl State.launchReq { s with fab := { s.fab with waitAcks := ids } }
    .next (asked.foldl State.askAgain s).stepDone

/-- RETRIED (R65). -/
def execRetried (chip : Nat) (s : State) : Host.Outcome State Fault Refusal := .next (s.gather chip 3)

/-- RESUME (R65): the held queues go out on the new planes in order. -/
def execResume (gen : Nat) (s : State) : Host.Outcome State Fault Refusal :=
  if !s.joined || s.dev.qstate != 4 || gen != s.dev.fabMapGen.toNat then .next s
  else
    let s := { s with dev := { s.dev with qstate := 0 }
                      fab := { s.fab with downPlanes := 0, heldBuckets := [], waitAcks := [], fencing := false, plan := s.fab.plan && s.fab.phase != 0 } }
    .next s.pump.relog

/-- MASTER_TIMEOUT (R17, R68): the standby takes over, as grandmaster too, and begins again at step 1 where a quiesce is under way. -/
def execMasterTimeout (s : State) : Host.Outcome State Fault Refusal :=
  if !s.joined || s.dev.masterAct || fieldOf s.dev.fabId 30 21 != s.chipId then .next s
  else
    let s := ({ s with dev := { s.dev with masterAct := true } }).sendPtp
    if s.dev.qstate == 0 then .next s
    else .next (({ s with fab := { s.fab with phase := 0, takeover := true } }).beginRun s.fab.downPlanes none)

/-- CHIP_STEP_TIMEOUT (R68): the chip is unreachable, which the master tells every chip and each logs; the master goes on without it. At another
chip the row stands for the master's message. -/
def execChipStepTimeout (chip : Nat) (s : State) : Host.Outcome State Fault Refusal :=
  let waits := if s.dev.masterAct then s.fab.phase != 0 && !s.fab.answers.contains chip && s.fab.stepAt + 100000 ≤ s.reft
    else s.dev.qstate != 0
  if !s.joined || !waits || chip == s.chipId || s.fab.unreachable.contains chip then .next s
  else
    let s := ({ s with fab := { s.fab with unreachable := s.fab.unreachable ++ [chip] } }).logged (.chipUnreachable chip)
    let s := s.cutChips (fun c => c == chip)
    .next (if s.dev.masterAct then (s.broadcast (fun p => .unreachable p chip)).advance else s)

/-- PLAN (R69): a complete map, given as the eight images of FAB_MAPk (LE 15); the master runs the quiesce, another chip passes it on. -/
def execPlan (s : State) : Host.Outcome State Fault Refusal :=
  if !s.commanded 3 then .next s
  else
    let l := s.bufBytes 0 32
    let m := (List.range 64).map (fun b => bitsOf (fieldAt l (b / 8 * 4) 4) (4 * (b % 8) + 2) (4 * (b % 8)))
    if !s.joined || s.dev.domainDown || (s.dev.masterAct && s.fab.phase != 0) then .next (s.answer 4)
    else if s.dev.masterAct then .next ((s.beginRun 0 (some m)).answer 0)
    else .next ((s.emit (.planMap m)).answer 0)

/-- FAB_WINDOW (R62): the counts of every port are reset. -/
def execFabWindow (s : State) : Host.Outcome State Fault Refusal := .next { s with fab := { s.fab with flits := [] } }

/-! ## Mirrors (R71, R73) and fences (R38) -/

/-- MIRROR_PEER after a write (R71): BROKEN is cleared by a one. -/
def mirrorAfter (old new : Word) : Word := if fieldOf new 30 30 == 1 then setField old 30 30 0 else old

/-- MIRROR_BROKEN_CLEAR (R71). -/
def execMirrorBrokenClear (p : Fin 8) (v : Word) (s : State) : Host.Outcome State Fault Refusal :=
  if !(s.part p.val).present then .next s else .next (s.updPart p.val (fun x => { x with mirror := mirrorAfter x.mirror v }))

namespace State

/-- Mirroring of a partition is broken (R73): no release waits for a duplicate, which is no request under way any more; a core that has sent its partner nothing else has it no more in
its outstanding set, and waits for no marker of it. -/
def breakMirror (s : State) (p : Nat) : State :=
  let s := s.updPart p (fun x => { x with mirror := setField x.mirror 30 30 1 })
  let chip := fieldOf (s.part p).mirror 9 0
  let only := (s.coresOf p).filter (fun c => match Tbl.find (s.core c).outstanding chip with
    | none => false
    | some x => !x.2)
  let gone := s.fab.unacked.filter (fun (u : Unacked) => u.mirror && u.part == p && u.chip == chip)
  let s := { s with fab := { s.fab with
    mirrorWait := s.fab.mirrorWait.filter (fun (m : Nat × Nat × Nat × Nat) => m.1 != p)
    unacked := s.fab.unacked.filter (fun (u : Unacked) => !(u.mirror && u.part == p && u.chip == chip))
    markers := s.fab.markers.filter (fun (m : MarkerReq) => !(m.chip == chip && only.contains m.core)) } }
  let s := only.foldl (fun (s : State) (c : Nat) => s.updCore c (fun k => { k with outstanding := Tbl.del k.outstanding chip })) s
  (gone.foldl (fun (s : State) (u : Unacked) => s.stepAck u.ord) s).pump

end State

/-- MIRROR_ACK_TIMEOUT (R73): a duplicate of the partition has gone unacknowledged for 1 ms. -/
def execMirrorAckTimeout (p : Fin 8) (s : State) : Host.Outcome State Fault Refusal :=
  let old := s.fab.mirrorWait.any (fun (m : Nat × Nat × Nat × Nat) => m.1 == p.val && m.2.2.2 + 1000000 ≤ s.reft)
  if !old || fieldOf (s.part p.val).mirror 30 30 == 1 then .next s
  else .next (((s.breakMirror p.val).logged (.mirror p.val)).alerted).relog

/-- UNIT_FENCE (R38): a failed unit is fenced out. -/
def execUnitFence (u : FenceUnit) (s : State) : Host.Outcome State Fault Refusal :=
  if s.pkg.power != .on then .next s
  else .next (match u with
    | .core c => ((s.noteFence (.fence u)).setHealth 0).fenceCore c
    | .hob h =>
      let s := (((s.noteFence (.fence u)).setHealth 1).setHealth 0).updHob h (fun k => { k with fenced := true })
      let s := (List.range 6).foldl (fun (s : State) (i : Nat) => s.fenceCore (h / 8 * 48 + h % 8 * 6 + i)) s
      if (s.pool (s.hob h).pool).waits then s.resolvePool (s.hob h).pool else s
    | .pseudoChannel st pc => (s.noteFence (.fence u)).fencePc st pc
    | .plane p => (s.fencePlane p).reportDead p)

namespace State

/-- The chip joins the domain on the ports that train: what waited for its ports leaves, and what was asked and is not answered is asked
again. Each port that does not train is reported (R64). -/
def joinDomain (s : State) (trained : BitVec 8) : State :=
  let master := fieldOf s.dev.fabId 20 11 == s.chipId
  let s := { s with dev := { s.dev with live := trained, masterAct := master, domainDown := trained == 0 }
                    fab := { s.fab with unreachable := [], markers := s.fab.markers.filter (fun (m : MarkerReq) => trained.getLsbD m.plane) }
                    time := { s.time with reftSync := master } }
  let s := s.fab.leases.foldl State.askAgain s.sendPtp.pump
  let s := (s.fab.markers.foldl (fun (s : State) (m : MarkerReq) => ((s.countFlits m.plane m.part m.cls 1).watch m.plane).emit
    (.marker m.chip m.plane m.id m.part m.cls)) s).relog
  ((List.range 8).filter (fun p => !trained.getLsbD p)).foldl reportDead s

/-- The chip leaves the domain: a quiesce is over here, and its requests wait at the source until it joins again (LE 65). -/
def leaveDomain (s : State) : State :=
  { s with dev := { s.dev with live := 0, masterAct := false, domainDown := false, qstate := 0 }
           fab := { s.fab with
             heldBuckets := [], downPlanes := 0, waitAcks := [], phase := 0, plan := false, takeover := false, fencing := false, recalled := []
             unacked := s.fab.unacked.map (fun (u : Unacked) => if u.rejected then u else { u with held := true })
             reads := s.fab.reads.map (fun (r : ReadReq) => if r.rejected then r else { r with held := true }) }
           time := { s.time with reftSync := false, ratePpm := 0, frac := 0 } }

end State

/-- FAB_ID_WRITE (R17, R49, R70): the ids are taken while ENABLE is 0; setting ENABLE joins the domain on the ports that train, clearing it
leaves the domain. -/
def execFabIdWrite (v : Word) (trained : BitVec 8) (s : State) : Host.Outcome State Fault Refusal :=
  if s.pkg.power != .on then .next s
  else
    let on := fieldOf v 31 31 == 1
    let was := s.fabEnabled
    let id := if was then s.dev.fabId else setField v 10 10 0
    let s := { s with dev := { s.dev with fabId := setField id 31 31 (bnat on) } }
    if on && !was then .next (s.joinDomain trained)
    else if !on && was then .next s.leaveDomain
    else .next s

end Sys2Proof.Machine
end

