-- ==== Sys2Proof/Machine/Paging.lean ====
section
/-!
DEFINITION. What system software does about translation: TLB_INV (R193), the fault and system queues (R198, R228), FQ_RESOLVE
(R199).
-/

namespace Sys2Proof.Machine

namespace State

/-! ## TLB_INV (R193) -/

/-- A write to TLB_INV: BUSY stands until TLB_INV_DONE, within 10 µs; a write while it stands is ignored. -/
def tlbWrite (s : State) (p : Nat) (v : DWord) : State :=
  if !(s.part p).present || (s.part p).tlbInv.isSome then s
  else ((s.updPart p (fun x => { x with tlbInv := some v })).after (Config.delay s.fresh % 10001) (.tlbInvDone (Fin.ofNat 8 p))).drawn

/-- A request to another chip that used a covered translation is neither performed nor has faulted. Of a READ the address alone is known,
not the ASID. -/
def tlbUsed (s : State) (p : Nat) (v : DWord) : Bool :=
  let covers := fun (asid va : Nat) => tlbCovers p v ⟨p, asid, va / 65536, 0, false, false, false, false, none⟩
  s.fab.unacked.any (fun u => u.part == p && u.page.isSome && !u.faulted && covers u.at_.asid u.at_.va)
    || s.fab.reads.any (fun r => r.part == p && covers (fieldOf v 11 0) r.va)

/-! ## The record queues (R198, R228) -/

end State

/-- A write to the control register of a record queue: the step from 0 to 1 of ENABLE clears the indices. -/
def RecQueue.writeCtl (q : RecQueue) (v : Word) : RecQueue :=
  let on := fieldOf v 31 31 == 1 && (q.enabled || fieldOf v 30 27 < 13)
  let c := setField (setField v 19 0 0) 31 31 (bnat on)
  if on && !q.enabled then { q with ctl := c, tail := 0, head := 0, lost := 0 } else { q with ctl := c }

/-- A write to the base; the bits below 4 KiB are not kept, and none while ENABLE is 1. -/
def RecQueue.writeBase (q : RecQueue) (at_ : Nat) (wide : Bool) (v : DWord) : RecQueue :=
  if q.enabled then q
  else { q with base := setField (if wide then v else if at_ == 0 then setField q.base 31 0 v.toNat else setField q.base 63 32 v.toNat) 11 0 0 }

namespace State

/-- A write to FQ_CTL: faults that waited for the queue go on. -/
def fqWrite (s : State) (p : Nat) (v : Word) : State :=
  if (s.part p).present then (s.updPart p (fun x => { x with fq := x.fq.writeCtl v })).drainLogs p else s

/-- A write to FQ_HEAD: records are free again. -/
def fqHead (s : State) (p : Nat) (v : Word) : State :=
  if (s.part p).present then (s.updPart p (fun x => { x with fq := { x.fq with head := v } })).drainLogs p else s

/-- A write to SQ_CTL. -/
def sqWrite (s : State) (p : Nat) (v : Word) : State :=
  if (s.part p).present then s.updPart p (fun x => { x with sq := x.sq.writeCtl v }) else s

/-! ## FQ_RESOLVE (R199) -/

/-- What it does for a WRITE to another chip that was rejected and whose export page is not present (R57, R60): with FAIL = 1 its wave takes
ACCESS, or its job ends; with FAIL = 0 the lease is asked for again. -/
def resolveWrite (s : State) (fail : Bool) (u : Unacked) : State :=
  if fail then s.refuseWrite u
  else match u.page with
    | none => s
    | some g => (s.setUnacked { u with faulted := false }).requestLease (dieOfReq u.core) u.part u.cls u.chip g .write

/-- A write to FQ_RESOLVE. What waits on a core is told of it there, once its FIFO drains where its hob relocks (R15); what belongs to saved teams
and to no core is resolved at once. A halted device keeps its state (R44). -/
def resolve (s : State) (p : Nat) (v : DWord) : State :=
  let asid := fieldOf v 11 0
  let page := fieldOf v 51 16
  let fail := fieldOf v 63 63 == 1
  if !(s.part p).present || s.pkg.halted then s
  else
    let s := (s.resolveCores p asid page).foldl (fun (s : State) (c : Nat) =>
      (s.comes c (.resolve p asid page fail) (fun s => s.resolveAt c p asid page fail (fun t => t.loc != .saved))).resolveAt c p asid page fail
        (fun t => t.loc == .saved)) s
    let s := (s.jobs.filter (fun (e : Nat × Job) => e.2.part == p && e.2.team.isNone)).foldl
      (fun (s : State) (e : Nat × Job) => s.resolveJob e.1 e.2 asid page fail) s
    (s.fab.unacked.filter (fun (u : Unacked) => u.faulted && u.part == p && u.at_.asid == asid && u.at_.va / 65536 == page)).foldl
      (fun (s : State) (u : Unacked) => s.resolveWrite fail u) s

end State

/-- TLB_INV (R193). -/
def execTlbInv (p : Fin 8) (v : DWord) (s : State) : Host.Outcome State Fault Refusal := .next (s.tlbWrite p.val v)

/-- TLB_INV_DONE (R193): every TLB drops the covered translations, and once no access that used one is under way BUSY clears. -/
def execTlbInvDone (p : Fin 8) (s : State) : Host.Outcome State Fault Refusal :=
  match (s.part p.val).tlbInv with
  | none => .next s
  | some v =>
    let s := s.dropTlb (State.tlbCovers p.val v)
    .next (if s.tlbUsed p.val v then s.soonOnce (.tlbInvDone p) else s.updPart p.val (fun x => { x with tlbInv := none }))

/-- FQ_ENABLE (R198): a write of FQ_CTL. -/
def execFqEnable (p : Fin 8) (v : Word) (s : State) : Host.Outcome State Fault Refusal := .next (s.fqWrite p.val v)

/-- SQ_ENABLE (R228): a write of SQ_CTL. -/
def execSqEnable (p : Fin 8) (v : Word) (s : State) : Host.Outcome State Fault Refusal := .next (s.sqWrite p.val v)

/-- FQ_RESOLVE (R199). -/
def execFqResolve (p : Fin 8) (v : DWord) (s : State) : Host.Outcome State Fault Refusal := .next (s.resolve p.val v)

end Sys2Proof.Machine
end

