-- ==== Sys2Proof/Machine/Queues.lean ====
section
/-!
DEFINITION. The registers of a virtual device as they are written: VD_CFG (R84), QUEUE_OWNER (R85), the queue blocks (R86 to R88, R99),
the host rings (R94), MSI-X tables (R78, R96), the aperture and the weight table (R79, R110).
-/

namespace Sys2Proof.Machine

/-- A register with some bits replaced by those of a value. -/
def maskWrite {w : Nat} (old v : BitVec w) (mask : Nat) : BitVec w := (old &&& ~~~(BitVec.ofNat w mask)) ||| (v &&& BitVec.ofNat w mask)

/-- A 64-bit register after a write at an offset in it: the whole, or one aligned half (R80). -/
def halfWrite (old : DWord) (at_ : Nat) (wide : Bool) (v : DWord) : DWord :=
  if wide then v
  else if at_ == 0 then setField old 31 0 v.toNat
  else setField old 63 32 v.toNat

namespace State

/-! ## Queues (R86, R87, R99) -/

/-- Every slot of a queue's range is FREE. -/
def slotsFree (s : State) (q : Queue) : Bool :=
  !(s.slots.any (fun e => q.slotBase ≤ e.1 && e.1 < q.slotBase + q.slotCount && e.2.st != .free))

/-- The queue's ring, class, size and ASID cannot be changed: it is enabled, or paused with a slot that is not FREE (R86, R87). -/
def queueLocked (s : State) (q : Queue) : Bool := q.enabled || (q.state ≤ 1 && !s.slotsFree q)

/-- The launches of a queue are gone: their teams stop at their next instruction boundary, nothing is completed (R99). -/
def dropLaunches (s : State) (hq : Nat) : State :=
  let gs := s.grids.filter (fun e => e.2.hq == hq)
  let s := gs.foldl (fun s e => s.removeTeams e.1) s
  gs.foldl (fun s e => s.forgetGrid e.1) s

/-- A reset of a queue begins (R99): STATE is 3, its teams stop, its jobs are cancelled. -/
def resetQueue (s : State) (hq : Nat) : State :=
  if (s.queue hq).state == 3 then s
  else
    let s := s.updQueue hq (fun q => q.setState 3)
    let s := s.dropLaunches hq
    let s := (s.jobs.filter (fun e => match e.2.node with | none => false | some n => n.1 == hq)).foldl (fun s e => s.dropJob e.1) s
    (s.after (Config.delay s.fresh % 100001) (.queueResetDone hq)).drawn

/-- The fields of QUEUE_CTL that a write changes beside ENABLE. -/
def ctlFields (s : State) (q : Queue) (v : Word) : Word :=
  maskWrite q.ctl v (if s.queueLocked q then 0x00FFF000 else 0x1FFFFFFF)

/-- A write to ENABLE of 1 (R86): an invalid queue is in error; else the queue starts, or resumes. -/
def startQueue (s : State) (hq : Nat) : State :=
  let q := s.queue hq
  if q.enabled || 2 ≤ q.state then s
  else if 13 ≤ fieldOf q.ctl 27 24 || !q.valid then s.queueError hq 0x09 0
  else
    let zero := q.head == q.tail && s.slotsFree q
    let s := s.updQueue hq (fun q => { q.setState 1 with
      ctl := setField q.ctl 31 31 1
      head := if zero then 0 else q.head
      tail := if zero then 0 else q.tail })
    s.kickQueue hq

/-- A write to ENABLE of 0 (R87). -/
def pauseQueue (s : State) (hq : Nat) : State :=
  if (s.queue hq).state == 3 then s else (s.updQueue hq (fun q => { q with ctl := setField q.ctl 31 31 0 })).kickDrain hq

/-- A write to QUEUE_CTL. -/
def ctlWrite (s : State) (vf q : Nat) (v : Word) : State :=
  match s.queueAt vf q with
  | none => s
  | some hq =>
    let c := s.ctlFields (s.queue hq) v
    let s := s.updQueue hq (fun q => { q with ctl := c })
    if fieldOf v 30 30 == 1 then s.resetQueue hq
    else if fieldOf v 31 31 == 1 then s.startQueue hq
    else s.pauseQueue hq

/-- A write to QUEUE_TAIL (R88, R99). -/
def tailWrite (s : State) (vf q : Nat) (v : Word) : State :=
  match s.queueAt vf q with
  | none => s
  | some hq =>
    let k := s.queue hq
    if k.state == 3 then s
    else if (v - k.head).toNat ≤ k.ringSize then (s.updQueue hq (fun k => { k with tail := v })).kickFetch
    else s.queueError hq 0x04 0

/-- A write to QUEUE_BASE; the bits below 4 KiB are not kept. -/
def baseWrite (s : State) (vf q at_ : Nat) (wide : Bool) (v : DWord) : State :=
  match s.queueAt vf q with
  | none => s
  | some hq =>
    if s.queueLocked (s.queue hq) then s
    else s.updQueue hq (fun k => { k with base := setField (halfWrite k.base at_ wide v) 11 0 0 })

/-- A write to QUEUE_OWNER (R85). -/
def ownerWrite (s : State) (hq at_ : Nat) (wide : Bool) (v : DWord) : State :=
  if (s.queue hq).enabled then s
  else s.updQueue hq (fun k => { k with owner := maskWrite 0 (halfWrite k.owner at_ wide v) 0x83FFFFFFFFFFFFE0 })

/-! ## Virtual devices (R84) -/

/-- A write to VD_CFG. -/
def vdWrite (s : State) (vf : Nat) (v : DWord) : State :=
  if s.vdEnabled vf then
    (if fieldOf v 31 31 == 1 then s
    else
      let s := s.updVd vf (fun d => { d with cfg := setField d.cfg 31 31 0 })
      (s.queues.filter (fun e => e.2.valid && e.2.vf == vf)).foldl (fun s e => s.resetQueue e.1) s)
  else
    let p := fieldOf v 2 0
    let on := fieldOf v 31 31 == 1 && (s.part p).present
    let s := s.updVd vf (fun d => { d with cfg := BitVec.ofNat 64 (p + 2 ^ 31 * bnat on) })
    if on then (s.queues.filter (fun e => e.2.vf == vf)).foldl (fun s e => s.kickQueue e.1) s else s

/-! ## Host rings (R94) -/

/-- A write to RING_CTL. The timer runs up to now by what stood there. A SIZE of 13 to 15 leaves ENABLE at 0; where it is written with ENABLE 1 to a
ring that is enabled, ENABLE stays 1 and the code is taken: the spec says neither, so that this is the model's choice (LE 46). -/
def ringCtlWrite (s : State) (vf k : Nat) (v : Word) : State :=
  let s := s.ringTick vf k
  let r := s.ring vf k
  let on := fieldOf v 31 31 == 1 && (r.enabled || fieldOf v 30 27 < 13)
  let c := setField (setField v 2 0 0) 31 31 (bnat on)
  let s := s.updRing vf k (fun r => if on && !r.enabled then { r with ctl := c, prod := 0, cons := 0 } else { r with ctl := c })
  (s.armRing vf k).kickRing vf k

/-- A write to RING_CONS: a HOSTPOST that waits for room goes on. -/
def ringConsWrite (s : State) (vf k : Nat) (v : Word) : State := (s.updRing vf k (fun r => { r with cons := v })).kickRing vf k

/-- A write to RING_BASE; the bits below 4 KiB are not kept. -/
def ringBaseWrite (s : State) (vf k at_ : Nat) (wide : Bool) (v : DWord) : State :=
  if (s.ring vf k).enabled then s else s.updRing vf k (fun r => { r with base := setField (halfWrite r.base at_ wide v) 11 0 0 })

/-- A write to RING_PADDR; the bits below 8 bytes are not kept. -/
def ringPaddrWrite (s : State) (vf k at_ : Nat) (wide : Bool) (v : DWord) : State :=
  s.updRing vf k (fun r => { r with paddr := setField (halfWrite r.paddr at_ wide v) 2 0 0 })

/-! ## MSI-X (R78, R96) -/

/-- The vectors of a function (R78). -/
def vectors : HostFn → Nat
  | .pf => 128
  | .vf _ => 64

/-- A vector is unmasked: an interrupt that waits is delivered. -/
def unmask (s : State) (fn : HostFn) (vec : Nat) : State :=
  let m := s.msix fn
  let s := s.setMsix fn { m with tab := Tbl.put m.tab (4 * vec + 3) 0, pend := m.pend.filter (· != vec) }
  if m.pend.contains vec then s.emit (.irq fn vec) else s

/-- A write to a word of an MSI-X table (PRESUMED, LE 5: the words of an entry are those of the PCIe base specification). -/
def msixWrite (s : State) (fn : HostFn) (i : Nat) (v : Word) : State :=
  if i % 4 == 3 then
    (if fieldOf v 0 0 == 0 then s.unmask fn (i / 4)
    else s.setMsix fn { s.msix fn with tab := Tbl.put (s.msix fn).tab i 1 })
  else s.setMsix fn { s.msix fn with tab := Tbl.put (s.msix fn).tab i v }

end State

/-! ## The rows -/

/-- VD_ENABLE (R84): a write of VD_CFG with ENABLE 1. -/
def execVdEnable (vf : Fin 32) (v : DWord) (s : State) : Host.Outcome State Fault Refusal :=
  if fieldOf v 31 31 == 1 then .next (s.vdWrite vf.val v) else .next s

/-- VD_DISABLE (R84): a write of VD_CFG with ENABLE 0. -/
def execVdDisable (vf : Fin 32) (v : DWord) (s : State) : Host.Outcome State Fault Refusal :=
  if fieldOf v 31 31 == 0 then .next (s.vdWrite vf.val v) else .next s

/-- QUEUE_ENABLE (R86): a write of QUEUE_CTL with ENABLE 1. -/
def execQueueEnable (vf : Fin 32) (q : Nat) (v : Word) (s : State) : Host.Outcome State Fault Refusal :=
  if fieldOf v 31 30 == 2 then .next (s.ctlWrite vf.val q v) else .next s

/-- QUEUE_PAUSE (R87): a write of QUEUE_CTL with ENABLE 0. -/
def execQueuePause (vf : Fin 32) (q : Nat) (v : Word) (s : State) : Host.Outcome State Fault Refusal :=
  if fieldOf v 31 30 == 0 then .next (s.ctlWrite vf.val q v) else .next s

/-- QUEUE_RESET (R99): a write of QUEUE_CTL with RESET 1. -/
def execQueueReset (vf : Fin 32) (q : Nat) (v : Word) (s : State) : Host.Outcome State Fault Refusal :=
  if fieldOf v 30 30 == 1 then .next (s.ctlWrite vf.val q v) else .next s

/-- QUEUE_TAIL_WRITE (R88). -/
def execQueueTailWrite (vf : Fin 32) (q : Nat) (v : Word) (s : State) : Host.Outcome State Fault Refusal := .next (s.tailWrite vf.val q v)

/-- QUEUE_PAUSE_DRAINED (R87): no team of a pausing queue is resident and no COPY, COLL, SIGNAL or HOSTPOST node of it runs. -/
def execQueuePauseDrained (hq : Nat) (s : State) : Host.Outcome State Fault Refusal :=
  let q := s.queue hq
  let teams := s.teams.any (fun e => e.2.loc != .saved && (match Tbl.find s.grids e.2.grid with | none => false | some g => g.hq == hq))
  let nodes := s.slots.any (fun e => e.2.hq == hq && e.2.st == .running && e.2.run != .failed && [2, 3, 5, 7].contains (Node.kind e.2.node))
  if q.enabled || q.state != 1 || teams || nodes then .next s else .next (s.updQueue hq (fun q => q.setState 0))

/-- QUEUE_RESET_DONE (R99). -/
def execQueueResetDone (hq : Nat) (s : State) : Host.Outcome State Fault Refusal :=
  let q := s.queue hq
  if q.state != 3 then .next s
  else
    let s := { s with slots := s.slots.filter (fun e => !(q.slotBase ≤ e.1 && e.1 < q.slotBase + q.slotCount)) }
    let s := s.updQueue hq (fun q => { q.setState 0 with
      head := q.tail
      ctl := setField q.ctl 31 31 0
      status := setField (setField q.status 31 30 0) 23 16 0 })
    .next (((List.range 16).foldl (fun s k => s.kickRing q.vf k) s).slotChanged hq)

/-- RING_ENABLE (R94): a write of RING_CTL. -/
def execRingEnable (vf : Fin 32) (k : Fin 16) (v : Word) (s : State) : Host.Outcome State Fault Refusal := .next (s.ringCtlWrite vf.val k.val v)

/-- RING_CONS_WRITE (R94). -/
def execRingConsWrite (vf : Fin 32) (k : Fin 16) (v : Word) (s : State) : Host.Outcome State Fault Refusal :=
  .next (s.ringConsWrite vf.val k.val v)

/-- MSIX_UNMASK (R96). -/
def execMsixUnmask (fn : HostFn) (vec : Nat) (s : State) : Host.Outcome State Fault Refusal :=
  if vec < State.vectors fn then .next (s.unmask fn vec) else .next s

end Sys2Proof.Machine
end

