-- ==== Sys2Proof/Machine/HostPort.lean ====
section
/-!
DEFINITION. What the host does through the BARs: writes to the registers of the device management window, of a virtual device and of the mailbox
(R79, R80, R83, R399), and accesses through the apertures (R79, R81).
-/

namespace Sys2Proof.Machine

/-! ## Registers with rules of their own -/

/-- PKG_PWR_LIMIT after a write (R80). -/
def pwrLimitOf (v : Word) : Word := BitVec.ofNat 32 (max 500 (min 2300 (fieldOf v 11 0)))

/-- LEASE_MAX after a write (R80). -/
def leaseMaxOf (v : Word) : Word := BitVec.ofNat 32 (max 1 (min 100 (fieldOf v 6 0)))

/-- PKG_PWR_LIMIT_WRITE (R80). -/
def execPkgPwrLimitWrite (v : Word) (s : State) : Host.Outcome State Fault Refusal := .next { s with dev := { s.dev with pwrLimit := pwrLimitOf v } }

/-- LEASE_MAX_WRITE (R80). -/
def execLeaseMaxWrite (v : Word) (s : State) : Host.Outcome State Fault Refusal := .next { s with dev := { s.dev with leaseMax := leaseMaxOf v } }

namespace State

/-- The index in an array of registers of 2^k bytes, and the offset in the register. -/
def inArray (off base n size : Nat) : Option (Nat × Nat) :=
  if base ≤ off && off < base + n * size then some ((off - base) / size, (off - base) % size) else none

/-- A register of a partition that the physical function writes directly (R399): nothing where the layout does not define the
partition. -/
def partWrite (s : State) (p : Nat) (f : Part → Part) : State := if (s.part p).present then s.updPart p f else s

/-- A write to a 32-bit register of the window of a virtual device (R79). -/
def vfWrite32 (s : State) (vf off : Nat) (v : Word) : State :=
  if off == 8 then s.updVd vf (fun d => { d with apAsid := maskWrite 0 v 0xFFF })
  else if 0x1000 ≤ off && off < 0x1100 then s.updVd vf (fun d => { d with weights := Tbl.putS 1 d.weights ((off - 0x1000) / 4) (v.toNat % 256) })
  else
    match inArray off 0x10000 1024 0x40, inArray off 0x20000 16 0x40, inArray off 0x30000 256 4 with
    | some (q, 0x08), _, _ => s.ctlWrite vf q v
    | some (q, 0x10), _, _ => s.tailWrite vf q v
    | _, some (k, 0x10), _ => s.ringCtlWrite vf k v
    | _, some (k, 0x14), _ => s.ringConsWrite vf k v
    | _, _, some (i, _) => s.msixWrite (.vf (Fin.ofNat 32 vf)) i v
    | _, _, _ => s

/-- A write to a 64-bit register of that window, or to a half of it; none where there is none. -/
def vfWrite64 (s : State) (vf off : Nat) (wide : Bool) (v : DWord) : Option State :=
  if off < 8 then some (s.updVd vf (fun d => { d with apVa := maskWrite 0 (halfWrite d.apVa off wide v) 0xFFFFC00000000 }))
  else
    match inArray off 0x10000 1024 0x40, inArray off 0x20000 16 0x40 with
    | some (q, a), _ => if a < 8 then some (s.baseWrite vf q a wide v) else none
    | _, some (k, a) => if a < 8 then some (s.ringBaseWrite vf k a wide v) else if a < 16 then some (s.ringPaddrWrite vf k (a - 8) wide v) else none
    | _, _ => none

/-- A write to VF BAR0. A wide write that meets no 64-bit register is two writes of 32 bits. -/
def vfWrite (s : State) (vf off : Nat) (wide : Bool) (v : DWord) : State :=
  match s.vfWrite64 vf off wide v with
  | some t => t
  | none =>
    let s := s.vfWrite32 vf off (v.setWidth 32)
    if wide then s.vfWrite32 vf (off + 4) ((v >>> 32).setWidth 32) else s

/-- A write to a 32-bit register of the device management window (R80). The ports that train at a write of FAB_ID are the links' affair
(LE 13). -/
def pfWrite32 (s : State) (off : Nat) (v : Word) : State :=
  match off with
  | 0x00 => { s with dev := { s.dev with health := healthAfter s.dev.health v } }
  | 0x08 => { s with dev := { s.dev with alarmPolicy := alarmPolicyAfter s.dev.alarmPolicy v } }
  | 0x10 => { s with dev := { s.dev with pwrLimit := pwrLimitOf v } }
  | 0x28 => (s.drawn).atTick s.reft (.fabIdWrite v ((Config.freeWord s.fresh 0).setWidth 8))
  | 0x60 => { s with dev := { s.dev with leaseMax := leaseMaxOf v } }
  | 0x68 => { s with dev := { s.dev with ethTcG := maskWrite 0 v 7 } }
  | 0x6C => { s with dev := { s.dev with ethTcH := maskWrite 0 v 7 } }
  | _ =>
    match inArray off 0x2040 8 8, inArray off 0x1010A00 8 64, inArray off 0x1010D00 8 64, inArray off 0x2000000 512 4 with
    | some (p, 0), _, _, _ => s.partWrite p (fun x => { x with mirror := mirrorAfter x.mirror v })
    | _, some (p, 0x08), _, _ => s.fqWrite p v
    | _, some (p, 0x14), _, _ => s.fqHead p v
    | _, _, some (p, 0x08), _ => s.sqWrite p v
    | _, _, some (p, 0x14), _ => s.partWrite p (fun x => { x with sq := { x.sq with head := v } })
    | _, _, _, some (i, _) => s.msixWrite .pf i v
    | _, _, _, _ => s

/-- A 64-bit register of a partition after a write: its writable bits. -/
def maskHalf (old : DWord) (a : Nat) (wide : Bool) (v : DWord) (mask : Nat) : DWord := maskWrite 0 (halfWrite old a wide v) mask

/-- A write to a 64-bit register of the device management window, or to a half of it; none where there is none. -/
def pfWrite64 (s : State) (off : Nat) (wide : Bool) (v : DWord) : Option State :=
  if 0x80 ≤ off && off < 0x88 then some { s with dev := { s.dev with apertureBase := maskHalf s.dev.apertureBase (off - 0x80) wide v 0xFFF000000000 } }
  else
    [(inArray off 0x1000000 1024 8).map (fun (q, a) => s.ownerWrite q a wide v),
     (inArray off 0x1010000 32 8).map (fun (f, a) => if a == 0 then s.vdWrite f v else s),
     (inArray off 0x1010100 32 8).map (fun (f, a) =>
       (s.updVd f (fun d => { d with slice := maskHalf d.slice a wide v 0x1F00FFFF })).gainWork (s.vdPart f)),
     (inArray off 0x1010200 8 8).map (fun (p, a) => s.partWrite p (fun x => { x with sched := maskHalf x.sched a wide v 0x83FF03FF })),
     (inArray off 0x1010840 8 8).map (fun (p, a) => s.partWrite p (fun x => { x with asidTable := maskHalf x.asidTable a wide v 0xFFFFFFFF8000 })),
     (inArray off 0x1010900 8 16).map (fun (p, a) => if wide && a == 0 then s.tlbWrite p v else s),
     (inArray off 0x1010A00 8 64).bind (fun (p, a) =>
       if a < 8 then some (s.partWrite p (fun x => { x with fq := x.fq.writeBase a wide v }))
       else if 0x18 ≤ a && a < 0x20 then some (if wide && a == 0x18 then s.resolve p v else s)
       else none),
     (inArray off 0x1010C00 8 8).map (fun (p, a) => s.partWrite p (fun x => { x with domTable := maskHalf x.domTable a wide v 0xFFFFFFFFE000 })),
     (inArray off 0x1010C40 8 8).map (fun (p, a) => s.partWrite p (fun x => { x with gateTable := maskHalf x.gateTable a wide v 0xFFFFFFFC0000 })),
     (inArray off 0x1010D00 8 64).bind (fun (p, a) => if a < 8 then some (s.partWrite p (fun x => { x with sq := x.sq.writeBase a wide v })) else none),
     (inArray off 0x1010F00 8 8).map (fun (p, a) => if wide && a == 0 then s.waveWrite p v else s),
     (inArray off 0x1010F80 8 8).map (fun (p, a) => s.partWrite p (fun x => { x with cbTable := maskHalf x.cbTable a wide v 0xFFFFFFFFC000 })),
     (inArray off 0x1010FC0 8 8).map (fun (p, a) => s.partWrite p (fun x => { x with collTable := maskHalf x.collTable a wide v 0xFFFFFFFFE000 }))].findSome? id

/-- A write to PF BAR0 (R80). A 64-bit write over two adjacent 32-bit registers, of which the rule says nothing, acts as two 32-bit writes, the lower
first (LE 82). -/
def pfWrite (s : State) (off : Nat) (wide : Bool) (v : DWord) : State :=
  match s.pfWrite64 off wide v with
  | some t => t
  | none =>
    let s := s.pfWrite32 off (v.setWidth 32)
    if wide then s.pfWrite32 (off + 4) ((v >>> 32).setWidth 32) else s

/-- A write to PF BAR2 (R83): MBOX_CMD and the argument buffer. -/
def mailboxWrite (s : State) (off : Nat) (wide : Bool) (v : DWord) : State :=
  if off == 0 then s.mboxWrite (v.setWidth 32)
  else if 0x1000 ≤ off && off < 0x2000 then s.putBuf (off - 0x1000) (natBytes (if wide then 8 else 4) v.toNat)
  else s

end State

/-- REGISTER_WRITE (R79, R80, R83): a naturally aligned write of 4 or 8 bytes to a register. -/
def execRegisterWrite (fn : HostFn) (bar : Fin 6) (off : Nat) (wide : Bool) (v : DWord) (s : State) : Host.Outcome State Fault Refusal :=
  if s.pkg.power != .on || off % (if wide then 8 else 4) != 0 then .next s
  else .next (match fn, bar.val with
    | .pf, 0 => s.pfWrite off wide v
    | .pf, 2 => s.mailboxWrite off wide v
    | .vf k, 0 => s.vfWrite k.val off wide v
    | _, _ => s)

/-! ## The apertures (R79, R81) -/

namespace State

/-- The parts of a range that lie in one page of 64 KiB each: the address and the number of bytes. -/
def pagesOf (a n : Nat) : List (Nat × Nat) :=
  (List.range ((a + n + 65535) / 65536 - a / 65536)).map (fun i =>
    let lo := max a ((a / 65536 + i) * 65536)
    (lo, min (a + n) ((a / 65536 + i + 1) * 65536) - lo))

/-- Where a host access leads: ranges of HBM, each with the mirror attribute of its translation, or nowhere. -/
def aperture (s : State) (fn : HostFn) (off n : Nat) (right : Right) : Option (List (Nat × Nat × Bool)) :=
  match fn with
  | .pf =>
    let pa := s.dev.apertureBase.toNat + off
    if off + n ≤ 2 ^ 36 && pa + n ≤ hbmEnd then some [(pa, n, false)] else none
  | .vf k =>
    let d := s.vd k.val
    if !s.vdEnabled k.val || 2 ^ 34 < off + n then none
    else
      let l := (pagesOf (d.apVa.toNat + off) n).map (fun (x : Nat × Nat) =>
        match s.reach none (s.vdPart k.val) d.apAsid.toNat x.1 false right with
        | .hbm pa m => some (pa, x.2, m)
        | _ => none)
      if l.all (fun x => x.isSome) then some (l.filterMap id) else none

/-- A host access that leads nowhere completes with Completer Abort. -/
def hostAborts (s : State) (fn : HostFn) : State := (s.emit (.hostAbort fn)).logged .hostAbort

/-- The mirror duplicates of bytes written from an address on, one for each line (R72). -/
def duplicateAll (s : State) (ag : Agent) : Nat → Nat → List Byte → State
  | 0, _, _ => s
  | f + 1, pa, bs => if bs.isEmpty then s else (s.duplicate ag true pa (bs.take (128 - pa % 128))).duplicateAll ag f (pa + (128 - pa % 128))
      (bs.drop (128 - pa % 128))

/-- The agent of a write through an aperture: a partition's, or none's. The spec gives it no class: H (LE 70). -/
def hostAgent (s : State) (fn : HostFn) : Agent where
  core := none
  die := 0
  part := match fn with | .pf => 0 | .vf k => s.vdPart k.val
  cls := .h
  wid := none
  grid := none

/-- Writes bytes to ranges in turn, a mirrored one with its duplicates. -/
def storeRanges (s : State) (ag : Agent) : List (Nat × Nat × Bool) → List Byte → State
  | [], _ => s
  | x :: xs, bs =>
    let b := bs.take x.2.1
    let s := s.storeHome x.1 b
    (if x.2.2 then s.duplicateAll ag b.length x.1 b else s).storeRanges ag xs (bs.drop x.2.1)

end State

/-- HOST_APERTURE_WRITE (R79, R81): performed at the home as it arrives. -/
def execHostApertureWrite (fn : HostFn) (off : Nat) (data : List Byte) (s : State) : Host.Outcome State Fault Refusal :=
  if s.pkg.power != .on then .next s
  else match s.aperture fn off data.length .write with
    | none => .next (s.hostAborts fn)
    | some l => .next (s.storeRanges (s.hostAgent fn) l data)

/-- HOST_APERTURE_READ (R79, R81): the value at the home. -/
def execHostApertureRead (fn : HostFn) (off len : Nat) (s : State) : Host.Outcome State Fault Refusal :=
  if s.pkg.power != .on then .next s
  else match s.aperture fn off len .read with
    | none => .next (s.hostAborts fn)
    | some l => .next (s.emit (.hostData fn (l.flatMap (fun x => s.bytesAt x.1 x.2.1))))

end Sys2Proof.Machine
end

