-- ==== Sys2Proof/Machine/Dispatch.lean ====
section
/-!
DEFINITION. The meaning of every row: one arm per constructor of Instr.
-/

namespace Sys2Proof.Machine

def exec (i : Instr) (s : State) : Host.Outcome State Fault Refusal :=
  match i with
  | .powerOn => Sys2Proof.Machine.execPowerOn s
  | .packageReset => Sys2Proof.Machine.execPackageReset s
  | .brownOut => Sys2Proof.Machine.execBrownOut s
  | .inputUndervoltage => Sys2Proof.Machine.execInputUndervoltage s
  | .inputOvervoltageWarning => Sys2Proof.Machine.execInputOvervoltageWarning s
  | .overVoltageShutdown => Sys2Proof.Machine.execOverVoltageShutdown s
  | .thermalTrip => Sys2Proof.Machine.execThermalTrip s
  | .prochotAssert => Sys2Proof.Machine.execProchotAssert s
  | .throttleCause c h => Sys2Proof.Machine.execThrottleCause c h s
  | .throttleStepDown h => Sys2Proof.Machine.execThrottleStepDown h s
  | .throttleRelease h => Sys2Proof.Machine.execThrottleRelease h s
  | .backstopCeiling h => Sys2Proof.Machine.execBackstopCeiling h s
  | .relockEnd h => Sys2Proof.Machine.execRelockEnd h s
  | .boostExhausted h => Sys2Proof.Machine.execBoostExhausted h s
  | .boostWindow => Sys2Proof.Machine.execBoostWindow s
  | .kettleWatchdogExpiry => Sys2Proof.Machine.execKettleWatchdogExpiry s
  | .kettleBoot => Sys2Proof.Machine.execKettleBoot s
  | .confirm => Sys2Proof.Machine.execConfirm s
  | .confirmTimeout => Sys2Proof.Machine.execConfirmTimeout s
  | .layoutSubmit => Sys2Proof.Machine.execLayoutSubmit s
  | .layoutLate => Sys2Proof.Machine.execLayoutLate s
  | .layoutFlip => Sys2Proof.Machine.execLayoutFlip s
  | .layoutCommit => Sys2Proof.Machine.execLayoutCommit s
  | .layoutQuery => Sys2Proof.Machine.execLayoutQuery s
  | .plan => Sys2Proof.Machine.execPlan s
  | .fwStage => Sys2Proof.Machine.execFwStage s
  | .serviceReturn => Sys2Proof.Machine.execServiceReturn s
  | .partitionStop => Sys2Proof.Machine.execPartitionStop s
  | .partitionStopDone => Sys2Proof.Machine.execPartitionStopDone s
  | .partitionStart => Sys2Proof.Machine.execPartitionStart s
  | .testMode => Sys2Proof.Machine.execTestMode s
  | .provisionGenerate => Sys2Proof.Machine.execProvisionGenerate s
  | .provisionInstall => Sys2Proof.Machine.execProvisionInstall s
  | .badCmd => Sys2Proof.Machine.execBadCmd s
  | .rowRepair stack bank row => Sys2Proof.Machine.execRowRepair stack bank row s
  | .rowRepairDone stack => Sys2Proof.Machine.execRowRepairDone stack s
  | .unitFence u => Sys2Proof.Machine.execUnitFence u s
  | .alarm src => Sys2Proof.Machine.execAlarm src s
  | .alarmPolicyWrite v => Sys2Proof.Machine.execAlarmPolicyWrite v s
  | .devHealthClear v => Sys2Proof.Machine.execDevHealthClear v s
  | .ppsPulse => Sys2Proof.Machine.execPpsPulse s
  | .ptpMessage t ppm => Sys2Proof.Machine.execPtpMessage t ppm s
  | .registerWrite fn bar off wide v => Sys2Proof.Machine.execRegisterWrite fn bar off wide v s
  | .pkgPwrLimitWrite v => Sys2Proof.Machine.execPkgPwrLimitWrite v s
  | .leaseMaxWrite v => Sys2Proof.Machine.execLeaseMaxWrite v s
  | .fabIdWrite v trained => Sys2Proof.Machine.execFabIdWrite v trained s
  | .mirrorBrokenClear p v => Sys2Proof.Machine.execMirrorBrokenClear p v s
  | .mirrorAckTimeout p => Sys2Proof.Machine.execMirrorAckTimeout p s
  | .fabricRead r len => Sys2Proof.Machine.execFabricRead r len s
  | .fabricWrite r data => Sys2Proof.Machine.execFabricWrite r data s
  | .fabricAtomic r op => Sys2Proof.Machine.execFabricAtomic r op s
  | .marker src plane m => Sys2Proof.Machine.execMarker src plane m s
  | .response r => Sys2Proof.Machine.execResponse r s
  | .lease src of_ page right id => Sys2Proof.Machine.execLease src of_ page right id s
  | .leaseGrant die part chip page pa rights gen expiry => Sys2Proof.Machine.execLeaseGrant die part chip page pa rights gen expiry s
  | .leaseExpiry die part chip page => Sys2Proof.Machine.execLeaseExpiry die part chip page s
  | .exportChange page entry => Sys2Proof.Machine.execExportChange page entry s
  | .exportChangeTimeout page => Sys2Proof.Machine.execExportChangeTimeout page s
  | .recall m page => Sys2Proof.Machine.execRecall m page s
  | .recallAck m page plane => Sys2Proof.Machine.execRecallAck m page plane s
  | .linkRetry plane => Sys2Proof.Machine.execLinkRetry plane s
  | .linkRetryLimit plane => Sys2Proof.Machine.execLinkRetryLimit plane s
  | .linkDown plane => Sys2Proof.Machine.execLinkDown plane s
  | .fabricRequestTimeout plane => Sys2Proof.Machine.execFabricRequestTimeout plane s
  | .planeFail plane => Sys2Proof.Machine.execPlaneFail plane s
  | .deadReport chip plane gen => Sys2Proof.Machine.execDeadReport chip plane gen s
  | .stop m gen => Sys2Proof.Machine.execStop m gen s
  | .stopped m => Sys2Proof.Machine.execStopped m s
  | .quiesceFence gen => Sys2Proof.Machine.execQuiesceFence gen s
  | .fenced chip => Sys2Proof.Machine.execFenced chip s
  | .map gen planes => Sys2Proof.Machine.execMap gen planes s
  | .retried chip => Sys2Proof.Machine.execRetried chip s
  | .resume gen => Sys2Proof.Machine.execResume gen s
  | .masterTimeout => Sys2Proof.Machine.execMasterTimeout s
  | .chipStepTimeout chip => Sys2Proof.Machine.execChipStepTimeout chip s
  | .fabWindow => Sys2Proof.Machine.execFabWindow s
  | .hostApertureWrite fn off data => Sys2Proof.Machine.execHostApertureWrite fn off data s
  | .hostApertureRead fn off len => Sys2Proof.Machine.execHostApertureRead fn off len s
  | .hostWindowTimeout core slot => Sys2Proof.Machine.execHostWindowTimeout core slot s
  | .vdEnable vf v => Sys2Proof.Machine.execVdEnable vf v s
  | .vdDisable vf v => Sys2Proof.Machine.execVdDisable vf v s
  | .queueEnable vf q v => Sys2Proof.Machine.execQueueEnable vf q v s
  | .queuePause vf q v => Sys2Proof.Machine.execQueuePause vf q v s
  | .queuePauseDrained hq => Sys2Proof.Machine.execQueuePauseDrained hq s
  | .queueReset vf q v => Sys2Proof.Machine.execQueueReset vf q v s
  | .queueResetDone hq => Sys2Proof.Machine.execQueueResetDone hq s
  | .queueTailWrite vf q v => Sys2Proof.Machine.execQueueTailWrite vf q v s
  | .recordFetch hq => Sys2Proof.Machine.execRecordFetch hq s
  | .nodeStart hq slot => Sys2Proof.Machine.execNodeStart hq slot s
  | .nodeComplete hq slot => Sys2Proof.Machine.execNodeComplete hq slot s
  | .waitPoll hq slot => Sys2Proof.Machine.execWaitPoll hq slot s
  | .condRangeIdle hq slot => Sys2Proof.Machine.execCondRangeIdle hq slot s
  | .hostpostAppend hq slot => Sys2Proof.Machine.execHostpostAppend hq slot s
  | .ringTimer vf k => Sys2Proof.Machine.execRingTimer vf k s
  | .ringEnable vf k v => Sys2Proof.Machine.execRingEnable vf k v s
  | .ringConsWrite vf k v => Sys2Proof.Machine.execRingConsWrite vf k v s
  | .msixUnmask fn vec => Sys2Proof.Machine.execMsixUnmask fn vec s
  | .launchComplete grid => Sys2Proof.Machine.execLaunchComplete grid s
  | .teamPlacement cluster => Sys2Proof.Machine.execTeamPlacement cluster s
  | .claimComplete core side => Sys2Proof.Machine.execClaimComplete core side s
  | .spillCopyDone core side => Sys2Proof.Machine.execSpillCopyDone core side s
  | .readmission core slot => Sys2Proof.Machine.execReadmission core slot s
  | .slabLend core side => Sys2Proof.Machine.execSlabLend core side s
  | .lendReclaim core slot => Sys2Proof.Machine.execLendReclaim core slot s
  | .sliceBoundary p => Sys2Proof.Machine.execSliceBoundary p s
  | .yieldRequest p => Sys2Proof.Machine.execYieldRequest p s
  | .sliceEnd cluster => Sys2Proof.Machine.execSliceEnd cluster s
  | .drainDeadline cluster => Sys2Proof.Machine.execDrainDeadline cluster s
  | .shadowExchange cluster => Sys2Proof.Machine.execShadowExchange cluster s
  | .switchComplete p => Sys2Proof.Machine.execSwitchComplete p s
  | .thermalMigration team target => Sys2Proof.Machine.execThermalMigration team target s
  | .migrationComplete team => Sys2Proof.Machine.execMigrationComplete team s
  | .forwardingExpiry core => Sys2Proof.Machine.execForwardingExpiry core s
  | .tlbInv p v => Sys2Proof.Machine.execTlbInv p v s
  | .tlbInvDone p => Sys2Proof.Machine.execTlbInvDone p s
  | .fqEnable p v => Sys2Proof.Machine.execFqEnable p v s
  | .fqResolve p v => Sys2Proof.Machine.execFqResolve p v s
  | .sqEnable p v => Sys2Proof.Machine.execSqEnable p v s
  | .waveReenter p v => Sys2Proof.Machine.execWaveReenter p v s
  | .waveResume p v => Sys2Proof.Machine.execWaveResume p v s
  | .waveKill p v => Sys2Proof.Machine.execWaveKill p v s
  | .asyncCauseDelivery core slot => Sys2Proof.Machine.execAsyncCauseDelivery core slot s
  | .launchReplay grid => Sys2Proof.Machine.execLaunchReplay grid s
  | .gateTimeout core slot => Sys2Proof.Machine.execGateTimeout core slot s
  | .gateAbortTimeout core slot => Sys2Proof.Machine.execGateAbortTimeout core slot s
  | .waitvWake core slot => Sys2Proof.Machine.execWaitvWake core slot s
  | .sleepWake core slot => Sys2Proof.Machine.execSleepWake core slot s
  | .childGridRetire grid => Sys2Proof.Machine.execChildGridRetire grid s
  | .scheduleEntryIssue team => Sys2Proof.Machine.execScheduleEntryIssue team s
  | .copyChunkWritten job => Sys2Proof.Machine.execCopyChunkWritten job s
  | .copyJobComplete job => Sys2Proof.Machine.execCopyJobComplete job s
  | .matrixStep job => Sys2Proof.Machine.execMatrixStep job s
  | .matrixJobComplete job => Sys2Proof.Machine.execMatrixJobComplete job s
  | .collRoundComplete job agree sends => Sys2Proof.Machine.execCollRoundComplete job agree sends s
  | .collwRelease p group => Sys2Proof.Machine.execCollwRelease p group s
  | .iadd t d a b => Sys2Proof.Machine.execIadd t d a b s
  | .isub t d a b => Sys2Proof.Machine.execIsub t d a b s
  | .imul t d a b => Sys2Proof.Machine.execImul t d a b s
  | .imulh t d a b => Sys2Proof.Machine.execImulh t d a b s
  | .imad t d a b => Sys2Proof.Machine.execImad t d a b s
  | .imin t d a b => Sys2Proof.Machine.execImin t d a b s
  | .imax t d a b => Sys2Proof.Machine.execImax t d a b s
  | .and t d a b => Sys2Proof.Machine.execAnd t d a b s
  | .or t d a b => Sys2Proof.Machine.execOr t d a b s
  | .xor t d a b => Sys2Proof.Machine.execXor t d a b s
  | .andn t d a b => Sys2Proof.Machine.execAndn t d a b s
  | .shl t d a b => Sys2Proof.Machine.execShl t d a b s
  | .shr t d a b => Sys2Proof.Machine.execShr t d a b s
  | .sar t d a b => Sys2Proof.Machine.execSar t d a b s
  | .rot t d a b => Sys2Proof.Machine.execRot t d a b s
  | .lea d n o => Sys2Proof.Machine.execLea d n o s
  | .sel p d a b => Sys2Proof.Machine.execSel p d a b s
  | .mov t d b => Sys2Proof.Machine.execMov t d b s
  | .popc pair d a => Sys2Proof.Machine.execPopc pair d a s
  | .clz pair d a => Sys2Proof.Machine.execClz pair d a s
  | .brev pair d a => Sys2Proof.Machine.execBrev pair d a s
  | .bfx t d a b => Sys2Proof.Machine.execBfx t d a b s
  | .bfi t d a b => Sys2Proof.Machine.execBfi t d a b s
  | .icmp cc d a b => Sys2Proof.Machine.execIcmp cc d a b s
  | .fadd t d a b => Sys2Proof.Machine.execFadd t d a b s
  | .fsub t d a b => Sys2Proof.Machine.execFsub t d a b s
  | .fmul t d a b => Sys2Proof.Machine.execFmul t d a b s
  | .ffma t d a b => Sys2Proof.Machine.execFfma t d a b s
  | .fmin t d a b => Sys2Proof.Machine.execFmin t d a b s
  | .fmax t d a b => Sys2Proof.Machine.execFmax t d a b s
  | .fcmp cc pair d a b => Sys2Proof.Machine.execFcmp cc pair d a b s
  | .frnd t r d a => Sys2Proof.Machine.execFrnd t r d a s
  | .fclass t d a => Sys2Proof.Machine.execFclass t d a s
  | .frcp t d a => Sys2Proof.Machine.execFrcp t d a s
  | .frsq t d a => Sys2Proof.Machine.execFrsq t d a s
  | .fsqrt t d a => Sys2Proof.Machine.execFsqrt t d a s
  | .fexp2 t d a => Sys2Proof.Machine.execFexp2 t d a s
  | .flog2 t d a => Sys2Proof.Machine.execFlog2 t d a s
  | .fsinp t d a => Sys2Proof.Machine.execFsinp t d a s
  | .fcosp t d a => Sys2Proof.Machine.execFcosp t d a s
  | .fneg t d a => Sys2Proof.Machine.execFneg t d a s
  | .fabs t d a => Sys2Proof.Machine.execFabs t d a s
  | .cvt c d a => Sys2Proof.Machine.execCvt c d a s
  | .qblk f d a => Sys2Proof.Machine.execQblk f d a s
  | .cbdec f d a => Sys2Proof.Machine.execCbdec f d a s
  | .cbenc f d a => Sys2Proof.Machine.execCbenc f d a s
  | .pack e d a => Sys2Proof.Machine.execPack e d a s
  | .unpk e d a => Sys2Proof.Machine.execUnpk e d a s
  | .shfl m d a b => Sys2Proof.Machine.execShfl m d a b s
  | .movu pair d n => Sys2Proof.Machine.execMovu pair d n s
  | .pand neg d a b => Sys2Proof.Machine.execPand neg d a b s
  | .por neg d a b => Sys2Proof.Machine.execPor neg d a b s
  | .pxor neg d a b => Sys2Proof.Machine.execPxor neg d a b s
  | .pnot d a => Sys2Proof.Machine.execPnot d a s
  | .pmov d a => Sys2Proof.Machine.execPmov d a s
  | .gsel neg a => Sys2Proof.Machine.execGsel neg a s
  | .gselNone => Sys2Proof.Machine.execGselNone s
  | .bra neg p off => Sys2Proof.Machine.execBra neg p off s
  | .call neg p off => Sys2Proof.Machine.execCall neg p off s
  | .nop => Sys2Proof.Machine.execNop s
  | .brx a => Sys2Proof.Machine.execBrx a s
  | .ret => Sys2Proof.Machine.execRet s
  | .exit => Sys2Proof.Machine.execExit s
  | .rng d a => Sys2Proof.Machine.execRng d a s
  | .ld w hint d n o => Sys2Proof.Machine.execLd w hint d n o s
  | .st w hint v n o => Sys2Proof.Machine.execSt w hint v n o s
  | .ldq pair acq sc d n o => Sys2Proof.Machine.execLdq pair acq sc d n o s
  | .stq pair rel sc v n o => Sys2Proof.Machine.execStq pair rel sc v n o s
  | .lds w d n o => Sys2Proof.Machine.execLds w d n o s
  | .sts w v n o => Sys2Proof.Machine.execSts w v n o s
  | .ldc w d n o => Sys2Proof.Machine.execLdc w d n o s
  | .stc w v n o => Sys2Proof.Machine.execStc w v n o s
  | .prf l2 n o => Sys2Proof.Machine.execPrf l2 n o s
  | .atom op pair sc d n o => Sys2Proof.Machine.execAtom op pair sc d n o s
  | .acas pair sc d n o => Sys2Proof.Machine.execAcas pair sc d n o s
  | .afadd t sc d n o => Sys2Proof.Machine.execAfadd t sc d n o s
  | .xacc t v n o => Sys2Proof.Machine.execXacc t v n o s
  | .xrd pair clr d n o => Sys2Proof.Machine.execXrd pair clr d n o s
  | .sadd narrow d a b => Sys2Proof.Machine.execSadd narrow d a b s
  | .ssub narrow d a b => Sys2Proof.Machine.execSsub narrow d a b s
  | .smul narrow d a b => Sys2Proof.Machine.execSmul narrow d a b s
  | .sand narrow d a b => Sys2Proof.Machine.execSand narrow d a b s
  | .sor narrow d a b => Sys2Proof.Machine.execSor narrow d a b s
  | .sxor narrow d a b => Sys2Proof.Machine.execSxor narrow d a b s
  | .sshl narrow d a b => Sys2Proof.Machine.execSshl narrow d a b s
  | .sshr narrow d a b => Sys2Proof.Machine.execSshr narrow d a b s
  | .ssar narrow d a b => Sys2Proof.Machine.execSsar narrow d a b s
  | .scmp cc d a b => Sys2Proof.Machine.execScmp cc d a b s
  | .ssel c d a b => Sys2Proof.Machine.execSsel c d a b s
  | .smov d a => Sys2Proof.Machine.execSmov d a s
  | .smovLit d w => Sys2Proof.Machine.execSmovLit d w s
  | .smovSx d w => Sys2Proof.Machine.execSmovSx d w s
  | .smovD d lo hi => Sys2Proof.Machine.execSmovD d lo hi s
  | .saddi d a imm => Sys2Proof.Machine.execSaddi d a imm s
  | .slea d a c off => Sys2Proof.Machine.execSlea d a c off s
  | .voteAny d p => Sys2Proof.Machine.execVoteAny d p s
  | .voteAll d p => Sys2Proof.Machine.execVoteAll d p s
  | .voteBallot d p => Sys2Proof.Machine.execVoteBallot d p s
  | .rdln d v lane => Sys2Proof.Machine.execRdln d v lane s
  | .rdlnReg d v a => Sys2Proof.Machine.execRdlnReg d v a s
  | .bru cc a off => Sys2Proof.Machine.execBru cc a off s
  | .brec d a => Sys2Proof.Machine.execBrec d a s
  | .barArrive => Sys2Proof.Machine.execBarArrive s
  | .barWait => Sys2Proof.Machine.execBarWait s
  | .barSync => Sys2Proof.Machine.execBarSync s
  | .cbar id a => Sys2Proof.Machine.execCbar id a s
  | .waitv n sc cc pair d a => Sys2Proof.Machine.execWaitv n sc cc pair d a s
  | .fenceAcq e sc => Sys2Proof.Machine.execFenceAcq e sc s
  | .fenceRel e sc => Sys2Proof.Machine.execFenceRel e sc s
  | .fenceFull e sc => Sys2Proof.Machine.execFenceFull e sc s
  | .cpy tag a => Sys2Proof.Machine.execCpy tag a s
  | .cpym tag a => Sys2Proof.Machine.execCpym tag a s
  | .twaitAll a => Sys2Proof.Machine.execTwaitAll a s
  | .twaitAny a => Sys2Proof.Machine.execTwaitAny a s
  | .tfirst d a => Sys2Proof.Machine.execTfirst d a s
  | .tclr a => Sys2Proof.Machine.execTclr a s
  | .chwaitAll tag w d a => Sys2Proof.Machine.execChwaitAll tag w d a s
  | .chwaitAny tag w d a => Sys2Proof.Machine.execChwaitAny tag w d a s
  | .schadv k => Sys2Proof.Machine.execSchadv k s
  | .coll tag a => Sys2Proof.Machine.execColl tag a s
  | .collw g => Sys2Proof.Machine.execCollw g s
  | .mma sh d a b fa fb => Sys2Proof.Machine.execMma sh d a b fa fb s
  | .mml tag a => Sys2Proof.Machine.execMml tag a s
  | .mmck tag a => Sys2Proof.Machine.execMmck tag a s
  | .mzero d => Sys2Proof.Machine.execMzero d s
  | .mlda sh t d a => Sys2Proof.Machine.execMlda sh t d a s
  | .msta sh f d a => Sys2Proof.Machine.execMsta sh f d a s
  | .mscl sh d a => Sys2Proof.Machine.execMscl sh d a s
  | .mwait tag a => Sys2Proof.Machine.execMwait tag a s
  | .rgne a => Sys2Proof.Machine.execRgne a s
  | .rgnl => Sys2Proof.Machine.execRgnl s
  | .gcall g => Sys2Proof.Machine.execGcall g s
  | .gret => Sys2Proof.Machine.execGret s
  | .lchild d a => Sys2Proof.Machine.execLchild d a s
  | .ljoin => Sys2Proof.Machine.execLjoin s
  | .perfq d a => Sys2Proof.Machine.execPerfq d a s
  | .thrm arm => Sys2Proof.Machine.execThrm arm s
  | .trap imm => Sys2Proof.Machine.execTrap imm s
  | .rte => Sys2Proof.Machine.execRte s
  | .srd n hi d => Sys2Proof.Machine.execSrd n hi d s
  | .swr n a => Sys2Proof.Machine.execSwr n a s
  | .ipf l2 lines a => Sys2Proof.Machine.execIpf l2 lines a s
  | .ipin l2 lines a => Sys2Proof.Machine.execIpin l2 lines a s
  | .iunp l2 lines a => Sys2Proof.Machine.execIunp l2 lines a s
  | .yield => Sys2Proof.Machine.execYield s
  | .sleep a => Sys2Proof.Machine.execSleep a s
  | .bkpt => Sys2Proof.Machine.execBkpt s
  | .halt => Sys2Proof.Machine.execHalt s
  | .spdmRequest r viaI3c => Sys2Proof.Machine.execSpdmRequest r viaI3c s
  | .congestionNotificationPacket port qp => Sys2Proof.Machine.execCongestionNotificationPacket port qp s
  | .rateRecovery port qp => Sys2Proof.Machine.execRateRecovery port qp s
  | .rocePacket port qp pk => Sys2Proof.Machine.execRocePacket port qp pk s
  | .ethernetPortDown port => Sys2Proof.Machine.execEthernetPortDown port s
  | .queuePairError port qp => Sys2Proof.Machine.execQueuePairError port qp s
  | .ppsAbsent => Sys2Proof.Machine.execPpsAbsent s
  | .illegalOp => Sys2Proof.Machine.execIllegalOp s
  | .fetchFault => Sys2Proof.Machine.execFetchFault s

end Sys2Proof.Machine
end

