-- ==== Sys2Proof/Machine/Step.lean ====
section
/-!
DEFINITION. One step of the machine: what `plan` finds is run by `exec`; an asynchronous cause that is due at the boundary before
an instruction is taken in its place (R222, `overtaken`). And the state that fetches a given instruction next.
-/

namespace Sys2Proof.Machine

/-- What an instruction answers, unless a cause due at this boundary is taken in its place (R222), or a trap has to wait for accesses that have
issued (R223). -/
def settleStep (s : State) (r : Host.Outcome State Fault Refusal) : Host.Outcome State Fault Refusal :=
  match s.overtaken r with
  | none => if s.trapsEarly r then .next (s.tryAgain r) else r
  | some d => exec (.asyncCauseDelivery d.1 d.2) s

/-- One step: the next row of the agenda, or the visit of one issue pipe (LE 1). -/
def step (s : State) : Host.Outcome State Fault Refusal :=
  match s.plan with
  | (none, t) => .next t
  | (some i, t) => settleStep t (exec i t)

/-- The state with an instruction word stored where the next step fetches: a program is loaded from outside the machine (LE 6), so
this stands for a launch that has placed one team of one wave on core 0 (`bootState`), and for the bytes of the word, with
literal words of zeros, at its entry. -/
def State.withFetchWord (s : State) (nbits w : Nat) : State := bootState s (bitAt (w % 2 ^ nbits) 31) (leBytes 12 (w % 2 ^ nbits))

end Sys2Proof.Machine
end

