-- ==== Sys2Proof/Safety.lean ====
section
/-!
DEFINITION. The terms that statements use: a safe step; what must hold of a state for an instruction word to complete with its own
effect, in one thread after another (lane instructions) or for its wave (uniform instructions); and what such an instruction leaves
behind, with everything that it leaves unchanged.
-/

namespace Sys2Proof.Machine

/-- The step answers a next state: neither a fault nor a refusal. -/
def Safe (s : State) : Prop := ∃ t, step s = .next t

/-- The memories have their canonical form: HBM, the host's memory, the argument buffer of the mailbox, every scratchpad. -/
structure MemForm (s : State) : Prop where
  hbm : Memory.wf s.mem = true
  host : Memory.wf s.hostMem = true
  buffer : Memory.wf s.mbox.buf = true
  scratch : ∀ e ∈ s.cores, Memory.wf e.2.scratch = true

/-! ## The issue of an instruction -/

/-- The state in which the pipe under the cursor is visited: time has passed and the cursor has moved on (LE 1, LE 2). -/
def State.turn (s : State) : State := { (s.elapse (Config.elapsed s.fresh)).drawn with cursor := s.cursor.next, cur := none }

/-- The next step is the turn of the pipe under the cursor, which looks for an instruction: no row of the agenda is due, the core runs,
and no wave of its side has a cause to take or something to claim back (R14, R121, R153, R222). -/
structure PipeTurn (s : State) : Prop where
  agenda : ∀ e, s.agenda.head? = some e → s.reft < e.1
  runs : s.turn.coreRuns s.cursor.core = true
  causes : s.turn.deliverable s.cursor.core s.cursor.side = none
  claims : s.turn.reclaimable s.cursor.core s.cursor.side = none

/-- The lane pipe under the cursor selects the group `g` (R155), and the state is then `u`. -/
def LanePick (s u : State) (g : Group) : Prop :=
  PipeTurn s ∧ s.cursor.uniform = false ∧ (s.turn.selectLane s.cursor.core s.cursor.side).1 = some g
    ∧ u = s.turn.setSide s.cursor.core s.cursor.side (s.turn.selectLane s.cursor.core s.cursor.side).2

/-- The uniform pipe under the cursor selects the uniform instruction at which a wave waits, whose threads are the group `g` (R156 to
R158), and the state is then `u`. -/
def UniformPick (s u : State) (g : Group) : Prop :=
  let v := s.turn.splitTraps s.cursor.core s.cursor.side
  PipeTurn s ∧ s.cursor.uniform = true ∧ ∃ e, (v.selectUniform s.cursor.core s.cursor.side).1 = some e ∧ e.2.lanes ≠ []
    ∧ g = ⟨s.cursor.core, s.cursor.side, e.2.pcOf (e.2.lanes.headD 0), e.2.lanes.map (fun l => (e.1, l))⟩
    ∧ u = (v.setSide s.cursor.core s.cursor.side (v.selectUniform s.cursor.core s.cursor.side).2).ageUniform s.cursor.core s.cursor.side
      (v.sinceClk s.cursor.core (v.side s.cursor.core s.cursor.side).uClk) (some e.1)

/-- A wave but for what issue itself changes: its issue count, its parking, and which of its waiting accesses is the one in hand. -/
def Wave.quiet (w : Wave) : Wave := { w with issueId := 0, parkClk := none, park := .no, pend := .none, pends := [] }

/-! ## Lane instructions -/

/-- The wave has a v register: it lies within its slabs (R147), in none that waits for its copy back from a gate call (R238) or from the eviction
area (R119). -/
def Wave.hasV (w : Wave) (r : Nat) : Bool :=
  decide (r < 64 * w.slabs.length) && !(w.refill.any (fun x => x.1 == r / 64)) && !w.away.contains (r / 64)

/-- The wave may write a v register at once: its slab holds no other wave's contents (R118), and in a gate call the register was passed, or
the callee owns the hidden registers of its slab (R236). -/
def Wave.ownsV (w : Wave) (r : Nat) : Bool := !w.hown.contains (r / 64) && (State.hiddenBy r w.gates).isNone

/-- The member (wave, lane) of a group can carry out a lane instruction that names the v registers `regs` and writes `dst`: the wave
and the thread are there, it has every register, none that is written is live-in of a region whose checks apply (R231), and it may write
each at once. -/
def laneOk (s : State) (regs dst : List Nat) (m : Nat × Nat) : Bool :=
  match Tbl.find s.waves m.1 with
  | none => false
  | some w => decide (m.2 < w.threads.length) && regs.all w.hasV && dst.all (fun r => !(w.guarded && w.liveV r) && w.ownsV r)

/-- The lane pipe has issued the group `g` (R154), and each of its members can carry out the instruction. -/
abbrev LaneReady (s : State) (g : Group) (regs dst : List Nat) : Prop :=
  s.cur = some g ∧ g.mem.Nodup ∧ ∀ m ∈ g.mem, laneOk s regs dst m = true

/-- A value after a list of writes to numbered registers. -/
def wrote {α : Type} (x : List (Nat × α)) (r : Nat) (old : α) : α := x.foldl (fun a e => if e.1 = r then e.2 else a) old

/-- The lanes of a wave in a group whose guard is true (R160). -/
def onLanes (g : Group) (wid : Nat) (w : Wave) : List Nat := (g.lanesOf wid).filter w.guardOn

/-- A wave of the group after a lane instruction that does `e` in each of its threads whose guard is true (R147, R160, R295): those
threads have their results; every thread of the group stands after the instruction, or at the target it took; all else is as it was. -/
structure WaveDone (g : Group) (wid size : Nat) (e : Nat → LaneRes) (w x : Wave) : Prop where
  frame : x = { w with v := x.v, p := x.p, fmode := x.fmode, threads := x.threads }
  vregs : ∀ l r, r < 128 → x.vreg l r = if (wid, l) ∈ g.mem ∧ w.guardOn l = true then wrote (e l).v r (w.vreg l r) else w.vreg l r
  pregs : ∀ l r, r < 127 → x.preg l r = if (wid, l) ∈ g.mem ∧ w.guardOn l = true then wrote (e l).p r (w.preg l r) else w.preg l r
  flags : x.fmode = raiseFlags w.fmode ((onLanes g wid w).foldl (fun a l => a ||| (e l).flags) 0)
  count : x.threads.length = w.threads.length
  threads : ∀ l, x.thread l = if (wid, l) ∈ g.mem then (w.thread l).advance size (if w.guardOn l then e l else {}) else w.thread l

/-- The state after a lane instruction of the group `g` that does `e` in a thread: only the waves of the group differ. -/
structure LaneDone (s t : State) (g : Group) (size : Nat) (e : Nat → Wave → Nat → LaneRes) : Prop where
  frame : t = { s with waves := t.waves }
  others : ∀ wid, (∀ l, (wid, l) ∉ g.mem) → Tbl.find t.waves wid = Tbl.find s.waves wid
  mine : ∀ wid w l, (wid, l) ∈ g.mem → Tbl.find s.waves wid = some w →
    ∃ x, Tbl.find t.waves wid = some x ∧ WaveDone g wid size (e wid w) w x

/-- Where the group `g` is issued and can carry it out, the lane instruction `i`, which names the v registers `regs` and writes
`dst`, answers a next state in which every thread whose guard is true has the result `e`. -/
def LaneGives (i : Instr) (regs dst : List Nat) (e : State → Nat → Wave → Nat → LaneRes) : Prop :=
  i.wf = true → ∀ s g, LaneReady s g regs dst → ∃ t, exec i s = .next t ∧ LaneDone s t g i.size (e s)

/-- No thread of the group whose guard is true raises a cause or a flag whose trap is enabled (R259). -/
def LaneQuiet (s : State) (g : Group) (e : Nat → Wave → Nat → LaneRes) : Prop :=
  ∀ m ∈ g.mem, ∀ w, Tbl.find s.waves m.1 = some w → w.guardOn m.2 = true →
    (e m.1 w m.2).cause = none ∧ flagsTrap w.fmode (e m.1 w m.2).flags = false

/-- `LaneGives` for an instruction that can raise a cause or a flag: where none of its threads does (`LaneQuiet`). -/
def LaneGivesIf (i : Instr) (regs dst : List Nat) (e : State → Nat → Wave → Nat → LaneRes) : Prop :=
  i.wf = true → ∀ s g, LaneReady s g regs dst → LaneQuiet s g (e s) → ∃ t, exec i s = .next t ∧ LaneDone s t g i.size (e s)

/-- Of two states, the second one differs only in what lookups in the L2 leave: the lines in it, copies in the peer ways that went with theirs, and the
stamps of lines that left (R183, R213). -/
def LookedUp (s t : State) : Prop :=
  t = { s with l2 := t.l2, peerWays := t.peerWays, stamps := t.stamps, sliceStamps := t.sliceStamps, fresh := t.fresh } ∧ ∀ x ∈ t.peerWays, x ∈ s.peerWays

/-- `LaneGivesIf` for an instruction that also reads codebook tables at the home L2 (R254). -/
def LaneReads (i : Instr) (regs dst : List Nat) (e : State → Nat → Wave → Nat → LaneRes) : Prop :=
  i.wf = true → ∀ s g, LaneReady s g regs dst → LaneQuiet s g (e s) → ∃ t u, exec i s = .next u ∧ LaneDone s t g i.size (e s) ∧ LookedUp t u

/-- A group of lanes of the one wave `wid`, no slab of which waits for its contents (R119, R238), stands at a lane instruction. -/
abbrev LaneStands (s : State) (g : Group) (wid : Nat) (w : Wave) : Prop :=
  s.cur = some g ∧ g.waves = [wid] ∧ Tbl.find s.waves wid = some w ∧ w.refill = [] ∧ w.away = []

/-- The lane `l` raises the cause `c` at a lane instruction that names `regs` and does `e`: REG_RANGE, whatever its guard, where one of them lies
beyond the wave's slabs (R147); where its guard is true, a cause of its own, and REGION_CLOBBER where it writes a live-in register of a region whose
checks apply (R231). -/
def laneRaises (g : Group) (wid : Nat) (w : Wave) (regs : List Nat) (e : Nat → LaneRes) (l c : Nat) : Prop :=
  l ∈ g.lanesOf wid ∧ ((c = 0x13 ∧ ∃ r ∈ regs, 64 * w.slabs.length ≤ r)
    ∨ (w.guardOn l = true ∧ ((e l).cause = some c ∨ (c = 0x60 ∧ w.guarded = true ∧ ∃ x ∈ (e l).v, w.liveV x.1 = true))))

/-- Of what is raised, the cause `c` in the lane `l` has the lowest code, and of the lanes that raise that it is the lowest (R222). -/
def LeastRaised (raises : Nat → Nat → Prop) (l c : Nat) : Prop := raises l c ∧ ∀ k d, raises k d → c < d ∨ (c = d ∧ l ≤ k)

/-- A lane instruction some lane of which raises a cause performs nothing: the wave takes the one with the lowest code, with the lowest lane that
raises it, at the instruction (R221, R222); MACHINE_CHECK under REPLAY apart (R246). -/
def LaneTraps (run : State → Host.Outcome State Fault Refusal) (regs : List Nat) (e : State → Nat → Wave → Nat → LaneRes) : Prop :=
  ∀ s g wid w l c, LaneStands s g wid w → LeastRaised (laneRaises g wid w regs (e s wid w)) l c → (c = 0x01 → s.replays wid = false) →
    run s = .next (s.takeTrap wid c (s.laneId wid l) false (some g.pc) (if w.guardOn l then (e s wid w l).faddr else none))

/-- A lane instruction that raises in some lane a flag whose trap is enabled writes its results and then takes ARITH, after it, with the lowest such
lane (R259). -/
def LaneArith (run : State → Host.Outcome State Fault Refusal) (size : Nat) (regs dst : List Nat) (e : State → Nat → Wave → Nat → LaneRes) : Prop :=
  ∀ s g wid w l, LaneReady s g regs dst → g.waves = [wid] → (g.lanesOf wid).Pairwise (· < ·) → Tbl.find s.waves wid = some w →
    (∀ k ∈ onLanes g wid w, (e s wid w k).cause = none) → l ∈ onLanes g wid w → flagsTrap w.fmode (e s wid w l).flags = true →
    (∀ k ∈ onLanes g wid w, flagsTrap w.fmode (e s wid w k).flags = true → l ≤ k) →
    ∃ t, LaneDone s t g size (e s) ∧ run s = .next (t.takeTrap wid 0x78 (s.laneId wid l) false (some (g.pc + size)) none)

/-- A result of 32 bits in the v register `d`. -/
def to32 (d : VReg) (x : Wave → Nat → Word) (_ : State) (_ : Nat) (w : Wave) (l : Nat) : LaneRes := .ofV [(d.val, x w l)]

/-- A result of 64 bits in the pair that begins at `d`, the even register low (R294). -/
def to64 (d : VReg) (x : Wave → Nat → DWord) (_ : State) (_ : Nat) (w : Wave) (l : Nat) : LaneRes :=
  .ofV [(d.val, (x w l).truncate 32), (d.val + 1, ((x w l) >>> 32).truncate 32)]

/-- A result in the predicate `d`. -/
def toP (d : PReg) (x : Wave → Nat → Bool) (_ : State) (_ : Nat) (w : Wave) (l : Nat) : LaneRes := .ofP d (x w l)

/-- The 64-bit operand that vb names: a pair, or the literal, sign-extended for a signed type, else zero-extended (R274). -/
def get64 (signed : Bool) (w : Wave) (l : Nat) : VOp → DWord
  | .reg r => w.vpair l r.val
  | .lit x => if signed then x.signExtend 64 else x.zeroExtend 64

/-- An operation on the two 16-bit halves of its operands, each on its own (R296). -/
def onHalves (f : BitVec 16 → BitVec 16 → BitVec 16) (x y : Word) : Word :=
  f ((x >>> 16).truncate 16) ((y >>> 16).truncate 16) ++ f (x.truncate 16) (y.truncate 16)

/-- An integer brought to the nearest of `n` bits: signed, and unsigned (R296). -/
def satS (n : Nat) (x : Int) : BitVec n := BitVec.ofInt n (max (-(2 ^ (n - 1))) (min (2 ^ (n - 1) - 1) x))
def satU (n : Nat) (x : Int) : BitVec n := BitVec.ofInt n (max 0 (min (2 ^ n - 1) x))

/-- The bits of a number of `n` bits, each given by its position. -/
def bitsBy (n : Nat) (f : Nat → Bool) : BitVec n := BitVec.ofNat n (((List.range n).map (fun i => if f i then 2 ^ i else 0)).sum)

/-- The bits of a field that exist (R300): at `pos` = desc[7:0], of length desc[15:8], cut at `n`. -/
def bitsThere (n : Nat) (desc : Word) : Nat :=
  let pos := (desc.truncate 8).toNat
  if n ≤ pos then 0 else min ((desc >>> 8).truncate 8).toNat (n - pos)

/-- BFX of R300, bit by bit: the field at the bottom, and above it its sign where the type is signed, else zeros. -/
def extractBits (n : Nat) (signed : Bool) (a : BitVec n) (desc : Word) : BitVec n :=
  let pos := (desc.truncate 8).toNat
  let k := bitsThere n desc
  bitsBy n (fun j => if j < k then a.getLsbD (pos + j) else signed && decide (0 < k) && a.getLsbD (pos + k - 1))

/-- BFI of R300, bit by bit: the low bits of `a` in the field, all other bits of `d` kept. -/
def insertBits (n : Nat) (a d : BitVec n) (desc : Word) : BitVec n :=
  let pos := (desc.truncate 8).toNat
  let k := bitsThere n desc
  bitsBy n (fun j => if pos ≤ j ∧ j < pos + k then a.getLsbD (j - pos) else d.getLsbD j)

/-- The conditions of ICMP and SCMP (R281): 0 to 5 on signed values, 6 and 7 on unsigned ones. -/
def holds (cc : ICond) {n : Nat} (x y : BitVec n) : Bool :=
  match cc with
  | .eq => x == y
  | .ne => x != y
  | .lt => x.slt y
  | .le => x.sle y
  | .gt => y.slt x
  | .ge => y.sle x
  | .ltu => x.ult y
  | .geu => y.ule x

/-! ## Numbers -/

/-- a × 2^b is less than c × 2^d, and equal to it. -/
def DyLess (a : Nat) (b : Int) (c : Nat) (d : Int) : Prop := a * 2 ^ (b - min b d).toNat < c * 2 ^ (d - min b d).toNat
def DySame (a : Nat) (b : Int) (c : Nat) (d : Int) : Prop := a * 2 ^ (b - min b d).toNat = c * 2 ^ (d - min b d).toNat

/-- The order of two values that are no NaN (R305): the zeros are equal. -/
def FVal.Below : FVal → FVal → Prop
  | .inf n, .inf k => n = true ∧ k = false
  | .inf n, .fin _ _ _ => n = true
  | .fin _ _ _, .inf n => n = false
  | .fin n1 m1 e1, .fin n2 m2 e2 =>
    if n1 then (if n2 then DyLess m2 e2 m1 e1 else 0 < m1 ∨ 0 < m2) else n2 = false ∧ DyLess m1 e1 m2 e2
  | _, _ => False

/-- The magnitude that bits without a sign stand for (R248); beyond the largest finite one the spacing of the top binade goes on (R264). -/
def FFmt.magnitude (f : FFmt) (y : Nat) : Nat × Int :=
  if y < 2 ^ f.mb then (y, f.emin - f.mb) else (2 ^ f.mb + y % 2 ^ f.mb, (y / 2 ^ f.mb : Nat) - (f.bias : Int) - f.mb)

/-- `r` is the bits and flags of a positive real rounded once (R259, R260, R262), under one of the modes 0 to 3 and a sign: the real is given by the dyadic numbers
a × 2^b that lie below it and by the one, if any, that it is. -/
def RoundsTo (f : FFmt) (mode : Rnd) (neg : Bool) (below is : Nat → Int → Prop) (r : Nat × Nat) : Prop :=
  ∀ y, y ≤ f.maxBits →
    let lo := f.magnitude y
    let hi := f.magnitude (y + 1)
    let u := min lo.2 hi.2
    let mid := lo.1 * 2 ^ (lo.2 - u).toNat + hi.1 * 2 ^ (hi.2 - u).toNat
    let up := (mode = .rne ∧ (below mid (u - 1) ∨ (is mid (u - 1) ∧ y % 2 = 1))) ∨ (mode = .rd ∧ neg = true) ∨ (mode = .ru ∧ neg = false)
    let sign := f.signBit neg
    (is lo.1 lo.2 → r = (sign + y, 0))
    ∧ (below lo.1 lo.2 → ¬ below hi.1 hi.2 → ¬ is hi.1 hi.2 → (¬ up → r.1 = sign + y) ∧ (up → y < f.maxBits → r.1 = sign + y + 1)
      ∧ (up → y = f.maxBits → r = f.overflow mode false neg)
      ∧ (¬ up ∨ y < f.maxBits → (r.2 = flInexact ∨ r.2 = flInexact ||| flUnderflow) ∧ (2 ^ f.mb ≤ y → r.2 = flInexact)
        ∧ (y + 1 < 2 ^ f.mb → r.2 = flInexact ||| flUnderflow)))
    ∧ (y = f.maxBits → below hi.1 hi.2 ∨ is hi.1 hi.2 → r = f.overflow mode false neg)

/-! ## Uniform instructions -/

/-- The uniform pipe has issued the instruction at which the wave `wid` stands: its group is the threads of that wave (R156). -/
abbrev UniStands (s : State) (wid : Nat) (w : Wave) : Prop :=
  Tbl.find s.waves wid = some w ∧ s.cur.map (fun g => (g.pc, g.mem.head?.map (fun m => m.1))) = some (w.at_, some wid)

/-- It is issued, and the two executions of a protected launch agree (R242; whether they do is a free value: LE 79). -/
abbrev UniIssued (s : State) (wid : Nat) (w : Wave) : Prop := UniStands s wid w ∧ s.upset wid = false

/-- The wave can carry it out: it names the v registers `regs`, which the wave has, and writes the uniform registers `sdst`
and the v registers `vdst`, none of which is live-in of a region whose checks apply (R231), and which it may write at once. -/
abbrev UniAble (w : Wave) (sdst regs vdst : List Nat) : Prop :=
  (∀ r ∈ regs, w.hasV r = true) ∧ (∀ r ∈ vdst, w.ownsV r = true)
    ∧ (w.guarded = true → (∀ r ∈ sdst, 16 ≤ r) ∧ ∀ r ∈ vdst, w.liveV r = false)

/-- It is issued, its two executions agree, and the wave can carry it out. -/
abbrev UniReady (s : State) (wid : Nat) (w : Wave) (sdst regs vdst : List Nat) : Prop := UniIssued s wid w ∧ UniAble w sdst regs vdst

/-- Where the wave that stands at it can carry it out, the instruction answers the next state in which the wave has changed by `f` and every one of
its threads stands after the instruction, and nothing else has; or, where its two executions differ, the wave takes SHADOW_MISMATCH (R242). -/
def UniGives (i : Instr) (sdst regs vdst : List Nat) (f : State → Nat → Wave → Wave) : Prop :=
  i.wf = true → ∀ s wid w, UniStands s wid w → UniAble w sdst regs vdst →
    exec i s = .next (if s.upset wid then s.mismatch wid else s.updWave wid (fun _ => (f s wid w).pass i.size))

/-- The sb operand: a register, or the literal, sign-extended (R361). -/
def sbOf (w : Wave) : SOp → DWord
  | .reg r => w.sreg r.val
  | .lit x => x.signExtend 64

/-- The threads of a wave that vote (R148, R365), with their lanes: those that have not exited; in protected launch mode thread t
stands on lane 2t. -/
def voters (s : State) (wid : Nat) (w : Wave) : List (Nat × Nat) :=
  ((List.range w.threads.length).filter (fun l => !(w.thread l).exited && (!s.prot wid || l % 2 == 0))).map
    (fun l => (if s.prot wid then l / 2 else l, l))

/-! ## Traps and waves -/

/-- The handler of the domain in which a wave runs (R219, R223). -/
abbrev HasHandler (s : State) (wid : Nat) (w : Wave) (d : Domain) : Prop :=
  s.domainEntry (s.partOf wid) w.domain = d ∧ d.v = true ∧ d.vec ≠ 0

/-- What entering a handler leaves in the wave (R221, R223): its threads keep their program counters and guards and stand at the
handler unguarded, sr.epc and sr.cause say what happened, b15 is kept and replaced; of the accesses that waited only read-modify-writes are kept
(R330); all else is as it was. -/
structure Entered (w x : Wave) (code lane epc vec : Nat) (async : Bool) : Prop where
  frame : x = { w with
    threads := x.threads, epc := x.epc, epc0 := x.epc, cause := x.cause, tb15 := w.breg 15, b := x.b, collwAt := none
    tcollw := w.collwAt, park := .no, pend := .none, pends := x.pends, ready := (0, 0) }
  waits : ∀ p ∈ x.pends, p.atomic = true ∧ p ∈ w.pend :: w.pends
  threads : ∀ l, x.thread l = if (w.thread l).exited then w.thread l
    else { w.thread l with tpc := (w.thread l).pc, tguard := (w.thread l).guard, guard := none, pc := vec }
  epc : x.epc = BitVec.ofNat 64 epc
  code : fieldOf x.cause 7 0 = code
  second : fieldOf x.cause 15 8 = fieldOf w.cause 15 8
  inh : x.inh = true
  ingate : fieldOf x.cause 17 17 = bnat (decide (w.gates ≠ []))
  asynchronous : fieldOf x.cause 18 18 = bnat async
  reserved : fieldOf x.cause 23 19 = 0
  lane : fieldOf x.cause 31 24 = lane
  records : ∀ r, r ≠ 15 → x.breg r = w.breg r

/-- The record of the trap area that b15 holds in a handler (R171, R223). -/
structure TrapArea (b : RecBits) (d : Domain) (core slot : Nat) : Prop where
  base : Rcd.base b = d.area + (core * 32 + slot) * 4096
  extent : Rcd.extent b = 1024
  esize : Rcd.esize b = 4
  packed : fieldOf b 99 84 = 0
  swizzle : Rcd.swizzle b = 0
  rights : Rcd.read b = true ∧ Rcd.write b = true ∧ Rcd.atomic b = false
  space : Rcd.space b = 0
  oob : Rcd.oob b = false
  tagged : Rcd.tagged b = true
  tag : Rcd.tag b = d.asid
  zero : fieldOf b 127 126 = 0

/-- What RTE restores (R224, R225): the arrival of the COLLW to which it returns, beside those at cluster barriers, which stay but for what the handler made; every thread that has not exited stands at its trap PC, or at sr.epc where its trap PC is what the entry
wrote there; its guard and b15 return, INH is 0; all else is as it was. -/
structure Returned (w x : Wave) : Prop where
  frame : x = { w with threads := x.threads, cause := x.cause, b := x.b, cbarAt := x.cbarAt, collwAt := x.collwAt, tcollw := none }
  arrivals : (∀ m, m ∈ x.cbarAt ↔ m ∈ w.cbarAt ∧ m.lvl ≤ 2 * w.gates.length) ∧ (x.collwAt = none ∨ x.collwAt = w.tcollw)
  threads : ∀ l, x.thread l = if (w.thread l).exited then w.thread l
    else { w.thread l with pc := if (w.thread l).tpc = w.epc0.toNat then w.epc.toNat else (w.thread l).tpc, guard := (w.thread l).tguard }
  inh : x.inh = false
  cause : fieldOf x.cause 15 0 = fieldOf w.cause 15 0 ∧ fieldOf x.cause 31 17 = fieldOf w.cause 31 17
  b15 : x.breg 15 = w.tb15
  records : ∀ r, r ≠ 15 → x.breg r = w.breg r

/-- The instruction raises a cause as the wave stands at it (R221, R223). -/
def UniTraps (i : Instr) (s : State) (wid : Nat) (w : Wave) (code : Nat) : Prop :=
  exec i s = .next (s.takeTrap wid code 0xFF false (some w.at_) none)

/-! ## Lane memory instructions -/

/-- Where a lane's bytes lie: nowhere, as the lane is dropped, in HBM, or in a core's scratchpad at a core offset. -/
inductive Spot where
  | drop
  | hbm (pa : Nat)
  | scratch (core off : Nat)
  deriving DecidableEq, Repr

/-- The byte at a spot. -/
def State.byteOf (s : State) : Spot → Byte
  | .drop => 0
  | .hbm pa => s.byteAt pa
  | .scratch c off => s.scratchByte c off

/-- The spot of the byte `i` of an access. -/
def Spot.plus : Spot → Nat → Spot
  | .drop, _ => .drop
  | .hbm pa, i => .hbm (pa + i)
  | .scratch c off, i => .scratch c (off + i)

/-- The spot of a lane with index `idx` through record `bi` for an access of a width that needs a right, in one of the spaces, if it
is an access to HBM or a scratchpad that raises no cause (R172, R173, R174, R178, R179, R191). -/
def spotOf (s : State) (spaces : List Nat) (right : Right) (width bi : Nat) (wid : Nat) (w : Wave) (idx : Nat) : Option Spot :=
  let b := w.breg bi
  match laneAddress b idx width with
  | .dropped => some .drop
  | .trap _ => none
  | .at_ a =>
    if State.recAllows b right = false ∨ Rcd.space b ∉ spaces then none
    else match Rcd.space b with
      | 0 => (match s.reach (some (s.coreOf wid)) (s.partOf wid) (State.asidOf w b) a false right with
        | .hbm pa _ => some (.hbm pa)
        | _ => none)
      | 1 => if w.gates ≠ [] ∧ 2 ≤ bi then none else (s.localTarget w a width).map (fun x => .scratch x.1 x.2)
      | 2 => if w.gates ≠ [] ∧ 2 ≤ bi then none
        else (s.clusterTarget (s.coreOf wid) (s.partOf wid) a width).map (fun x => .scratch x.1 x.2)
      | _ => none

/-- The spot of a lane's exact cell (R327). -/
def cellSpot (s : State) (right : Right) (bi : Nat) (wid : Nat) (w : Wave) (idx : Nat) : Option Spot :=
  let b := w.breg bi
  match cellAddress b idx with
  | .dropped => some .drop
  | .trap _ => none
  | .at_ a =>
    if State.recAllows b right = false ∨ Rcd.space b ≠ 0 then none
    else match s.reach (some (s.coreOf wid)) (s.partOf wid) (State.asidOf w b) a false right with
      | .hbm pa _ => some (.hbm pa)
      | _ => none

/-- The access that a wave has taken up waits for nothing, and nothing of it has come. -/
def Pend.quiet (p : Pend) : Prop := p = { Pend.none with pc := p.pc, lvl := p.lvl, id := p.id }

/-- The wave's access waits for nothing, nothing of it is in the side log or in the FIFO of a relocking core, and its launch is neither
protected nor replayed nor mirrored. -/
abbrev PlainWave (s : State) (wid : Nat) : Prop :=
  (∀ w, Tbl.find s.waves wid = some w → w.pend.quiet) ∧ s.logPending wid = false ∧ s.storeQueued wid = false ∧ s.prot wid = false
    ∧ fieldOf (s.part (s.partOf wid)).mirror 31 31 = 0
    ∧ ((Tbl.find s.grids (s.gridIdOf wid)).bind (fun g => Tbl.find s.grids g.root)).map (fun g => g.lrec.replay) ≠ some true

/-- The allocation of the wave's team consists of blocks of 256 bytes and reads as zero from its high-water mark on, so that a write which raises
the mark zeroes nothing else (R113). -/
def ScratchZero (s : State) (wid : Nat) : Prop :=
  ∀ w k r, Tbl.find s.waves wid = some w → Tbl.find s.teams w.team = some k → s.lrecOf wid = some r →
    k.start % 256 = 0 ∧ r.bytes % 256 = 0 ∧ ∀ a, k.hwm ≤ a → a < r.bytes → s.scratchByte k.core (k.start + a) = 0

/-- The same of a team. -/
def TeamZero (s : State) (team : Nat) : Prop :=
  ∀ k g, Tbl.find s.teams team = some k → Tbl.find s.grids k.grid = some g →
    k.start % 256 = 0 ∧ g.lrec.bytes % 256 = 0 ∧ ∀ a, k.hwm ≤ a → a < g.lrec.bytes → s.scratchByte k.core (k.start + a) = 0

/-- The lane pipe has issued a memory instruction for a group of plain waves, each lane at most once, which stand at it and can
carry it out (`LaneReady`), and each lane whose guard is true has a spot; an access to HBM is aligned, one to a scratchpad meets no
relock (R15), and what it reads is not poisoned (R246). -/
def MemReady (s : State) (g : Group) (regs dst : List Nat) (width o : Nat) (reads : Bool) (spot : Nat → Wave → Nat → Option Spot) : Prop :=
  LaneReady s g regs dst ∧ (g.mem.map (fun m => m.2)).Nodup ∧ (∀ m ∈ g.mem, PlainWave s m.1)
    ∧ (∀ m ∈ g.mem, ∀ w, Tbl.find s.waves m.1 = some w → (w.thread m.2).pc = g.pc)
    ∧ ∀ m ∈ g.mem, ∀ w, Tbl.find s.waves m.1 = some w → w.guardOn m.2 = true →
      match spot m.1 w (w.vreg m.2 o).toNat with
      | none => False
      | some (.hbm pa) => pa % width = 0 ∧ (reads = true → s.poisoned pa width = false)
      | some (.scratch c off) => s.asleep c = false ∧ (reads = true → s.scratchPoisoned c off width = false)
      | some .drop => True

/-- The lane `l` raises the cause `c` at a lane memory instruction: REG_RANGE as in `laneRaises`; where its guard is true, the cause of its address or of
the place to which that leads (R172, R173, R203), REGION_CLOBBER where the instruction writes a live-in register of a region whose checks apply, the
cause 0x61 where that has atomics (R231), MACHINE_CHECK where it reads poison (R246). -/
def memRaises (s : State) (op : MemOp) (bi o : Nat) (regs : List Nat) (g : Group) (wid : Nat) (w : Wave) (l c : Nat) : Prop :=
  l ∈ g.lanesOf wid ∧ ((c = 0x13 ∧ ∃ r ∈ regs, 64 * w.slabs.length ≤ r)
    ∨ (w.guardOn l = true ∧ let go := s.laneGo op wid w bi (w.vreg l o).toNat
        (∃ a, go = .trap c a) ∨ (w.guarded = true ∧ ((c = 0x60 ∧ ∃ r ∈ op.dst, w.liveV r = true) ∨ (c = 0x61 ∧ op.atomic = true)))
        ∨ (c = 0x01 ∧ (s.readsPoison op wid go).isSome = true)))

/-- A lane memory instruction of a wave that is not protected and waits for nothing, some lane of which raises a cause, performs no lane, and the wave
takes the one with the lowest code, with the lowest lane that raises it (R173, R221, R222); MACHINE_CHECK apart (R246). -/
def MemTraps (i : Instr) (op : MemOp) (bi o : Nat) (regs : List Nat) : Prop :=
  ∀ s g wid w l c, LaneStands s g wid w → s.prot wid = false → w.pend.quiet → LeastRaised (memRaises s op bi o regs g wid w) l c → c ≠ 0x01 →
    exec i s = .next (s.takeTrap wid c (s.laneId wid l) false (some g.pc) none)

/-- Every copy of the line of HBM that the wave's core or die may find holds what the home holds (R177, R184). -/
def Fresh (s : State) (wid pa : Nat) : Prop :=
  ∀ l ∈ (s.core (s.coreOf wid)).l1 ++ (s.peerWays.filter (fun e => e.1 == dieOf (s.coreOf wid))).map (fun e => e.2),
    l.chip = none → l.pa / 128 = pa / 128 → l.bytes = s.bytesAt (pa / 128 * 128) 128

/-- The lanes of a group whose guard is true, in ascending lane order, with their waves. -/
def actsOf (s : State) (g : Group) : List (Nat × Nat × Wave) :=
  (sortBy (fun (m : Nat × Nat) => m.2) g.mem).filterMap (fun m => match Tbl.find s.waves m.1 with
    | none => none
    | some w => if w.guardOn m.2 then some (m.1, m.2, w) else none)

/-- A wave without the marks that say which of the lines that came for it may stay as copies (R204). -/
def Wave.unkept (w : Wave) : Wave := w.mapPends (fun p => { p with lines := p.lines.map (fun l => { l with keep := false }) })

/-- The state after a lane memory instruction that gives the threads whose guard is true the results `e`: of the waves of the group, those
results, the stamps of what they have read and seen (R213) and the program counters; the contents of memories, with the poison that whole lines
written end (R246), of caches and TLBs; which lines
that are under way may be kept (R204); the waits that a write wakes (R329); the high-water marks of teams (R113). All else is as it was. -/
structure MemDone (s t : State) (g : Group) (e : Nat → Wave → Nat → LaneRes) : Prop where
  frame : t = { s with
    waves := t.waves, cores := t.cores, peerWays := t.peerWays, l2 := t.l2, ctlb := t.ctlb, fresh := t.fresh, mem := t.mem, stale := t.stale,
    poison := t.poison, kettle := { s.kettle with healed := t.kettle.healed }, agenda := t.agenda, sent := t.sent, applied := t.applied,
    stamps := t.stamps, sliceStamps := t.sliceStamps, teams := t.teams, fab := { s.fab with reads := t.fab.reads } }
  reads : t.fab.reads.map (fun r => { r with keep := false }) = s.fab.reads.map (fun r => { r with keep := false })
  agenda : ∀ x, (x ∈ s.agenda → x ∈ t.agenda) ∧ (x ∈ t.agenda → x ∈ s.agenda ∨ ∃ c k, x.2 = .waitvWake c k)
  teams : ∀ k, (Tbl.find t.teams k).map (fun x => { x with hwm := 0 }) = (Tbl.find s.teams k).map (fun x => { x with hwm := 0 })
  cores : ∀ c, t.core c = { s.core c with
    l1 := (t.core c).l1, scratch := (t.core c).scratch, scrBad := (t.core c).scrBad, tlb := (t.core c).tlb }
  healed : ∀ c, ∀ l ∈ (t.core c).scrBad, l ∈ (s.core c).scrBad
  others : ∀ wid, (∀ l, (wid, l) ∉ g.mem) → (Tbl.find t.waves wid).map Wave.unkept = (Tbl.find s.waves wid).map Wave.unkept
  mine : ∀ wid w l, (wid, l) ∈ g.mem → Tbl.find s.waves wid = some w →
    ∃ x, Tbl.find t.waves wid = some x
      ∧ WaveDone g wid 4 (e wid w) { w.unkept with rstamp := x.rstamp, seen := x.seen, pend := .none } x.unkept

/-- The bytes of a register block of an access of a width (R322). -/
def blockOfBytes (d width : Nat) (bs : List Byte) : VWrites :=
  (List.range (if width ≤ 4 then 1 else width / 4)).map (fun i => (d + i, BitVec.ofNat 32 (bytesNat ((bs.drop (4 * i)).take 4))))

/-- The bytes at a spot. -/
def State.spotBytes (s : State) (sp : Spot) (n : Nat) : List Byte := (List.range n).map (fun i => s.byteOf (sp.plus i))

/-- A byte after writes of bytes to spots, one after another (R175). -/
def byteAfter (ws : List (Spot × List Byte)) (p : Spot) (old : Byte) : Byte :=
  ws.foldl (fun b x => (((List.range x.2.length).find? (fun i => decide (x.1.plus i = p))).map (fun i => x.2.getD i 0)).getD b) old

/-- Read-modify-writes of `n` bytes, of the lanes one after another (R175, R326): what each finds, 0 where the lane is dropped, and the
bytes that they leave. -/
def rmwRun (n : Nat) : (Spot → Byte) → List ((Nat × Nat) × Spot × (Nat → Nat)) → List ((Nat × Nat) × Nat) × (Spot → Byte)
  | m, [] => ([], m)
  | m, (who, sp, f) :: xs =>
    if sp = .drop then ((who, 0) :: (rmwRun n m xs).1, (rmwRun n m xs).2)
    else
      let old := bytesNat ((List.range n).map (fun i => m (sp.plus i)))
      let r := rmwRun n (fun p => byteAfter [(sp, natBytes n (f old))] p (m p)) xs
      ((who, old) :: r.1, r.2)

/-- What a lane of a run of read-modify-writes finds. -/
def foundBy (r : List ((Nat × Nat) × Nat)) (wid l : Nat) : Nat := ((r.find? (fun x => x.1 == (wid, l))).map (fun x => x.2)).getD 0

end Sys2Proof.Machine
end

