-- ==== Sys2Proof/Certificates/Slice0/Obligations.lean ====
section
/-!
DEFINITION. The statements of this model, in the order of OBLIGATIONS.json.
-/

section

open Sys2Proof Sys2Proof.Machine

/-! ## Encoding, reset, steps -/

/-- R273 to R285: what the encoder gives for a well-formed instruction word, followed by anything, decodes to that instruction, with every
operand, and to its length. -/
def Obligations.RoundTrip : Prop :=
  ∀ (i : Instr) (rest : List Byte), i.wf = true → i.hasWord = true → decodeBytes (encodeBytes i ++ rest) = .ok (i, i.size)

/-- R273 to R285: bytes that decode to an instruction begin with what the encoder gives for it, and the instruction is well formed: no two
words stand for one instruction, and no field that an instruction leaves unused is ignored. -/
def Obligations.OneWordEach : Prop :=
  ∀ (bs : List Byte) (i : Instr) (n : Nat), decodeBytes bs = .ok (i, n) →
    i.wf = true ∧ i.hasWord = true ∧ n = i.size ∧ bs.take n = encodeBytes i

/-- R321, R367: words that the spec writes out decode to the instructions that it writes beside them. -/
def Obligations.WordsOfTheSpec : Prop :=
  (∀ e ∈ ([([0x0208103C], .iadd .i32s 2 2 (.reg 3)), ([0x2C144005, 0x64], .icmp .lt 5 8 (.lit 100)),
      ([0x342858C0], .ffma .f32 10 11 (.reg 12)), ([0x3C041005], .fexp2 .f32 1 2), ([0x260C4004], .popc true 3 8),
      ([0x44246006], .pack .e4m3 9 12), ([0x48280045], .movu true 10 5), ([0x4C001801], .gsel true 3),
      ([0x51FC0008], .call false 127 8), ([0x5200A001], .brx 20), ([0x52000002], .ret), ([0x52000003], .exit),
      ([0x54202000], .rng 8 4)] : List (List Nat × Instr)), decodeBytes (e.1.flatMap (leBytes 4)) = .ok (e.2, 4 * e.1.length))
  ∧ ∀ e ∈ ([([0xE8080000], .srd 0 false 1), ([0x10080803, 3], .and .n32 2 1 (.lit 3)), ([0x98280001, 0], .smovLit 5 0),
      ([0x2C041009, 0], .icmp .gt 1 2 (.lit 0)), ([0x4C000800], .gsel false 1), ([0x04081001, 1], .isub .i32 2 2 (.lit 1)),
      ([0x9A28A001], .saddi 5 5 1), ([0x9E200001], .voteAny 4 1), ([0xA284FFFA], .bru .nez 4 (-6)),
      ([0x4C000002], .gselNone)] : List (List Nat × Instr)), decodeBytes (e.1.flatMap (leBytes 4)) = .ok (e.2, 4 * e.1.length)

/-- R16, R23, R27, R34, R39, R43, R53, R80, R109, R169, R197: what reset leaves where the spec names the value. No partition, no work and no
time gone by; every hob in pool 0, at class 2 and step 12, with 8 grants; the registers at the values of their field maps. And the memories
have their canonical form. That the layout journal is IDLE at power-on is the model's choice (LE 76), as is the form of the memories (LE 3). -/
def Obligations.ResetValues : Prop :=
  let s := State.reset
  s.reft = 0
    ∧ (∀ h, s.hob h = { Hob.reset with pool := 0, ceil := 8, step := 12, opStep := 12, relockEnd := none, throttle := none, throttled := false, clk := 0, clkn := 0, charge := 0 })
    ∧ (s.pool 0).cls = 2 ∧ (s.pool 0).reqs = []
    ∧ (∀ c, s.ownerOf c = none) ∧ (∀ p, (s.part p).present = false ∧ s.coresOf p = [])
    ∧ s.grids = [] ∧ s.teams = [] ∧ s.waves = [] ∧ s.jobs = [] ∧ s.slots = []
    ∧ (∀ c, (s.core c).issued = 0 ∧ (s.core c).carve = 0)
    ∧ s.kettle.activeGen = 0 ∧ s.kettle.journal = .idle
    ∧ (fieldOf s.dev.health 31 9 = 0 ∧ fieldOf s.dev.health 3 0 = 0 ∧ s.dev.alarmPolicy = 0x55 ∧ s.dev.pwrLimit = 2300 ∧ s.dev.leaseMax = 10 ∧ s.dev.ethTcG = 5 ∧ s.dev.ethTcH = 1
      ∧ s.dev.apertureBase = 0 ∧ s.dev.fabId = 0 ∧ s.dev.fabMapGen = 0 ∧ ∀ b < 64, s.dev.fabMap[b]? = some (b % 8))
    ∧ (∀ p, s.part p = { s.part p with
        power := 0, mirror := 0, fabAllow := List.replicate 8 0, sched := 0x80320014, schedNow := 0x80320014, share := 0, ctx := 0,
        sieve := List.replicate 8 0, l2ways := 0, asidTable := 0, domTable := 0, gateTable := 0, cbTable := 0, collTable := 0,
        tlbInv := none, waveBusy := false } ∧ (s.part p).fq.ctl = 0 ∧ (s.part p).sq.ctl = 0 ∧ (s.part p).sq.lost = 0)
    ∧ (∀ v, (s.vd v).cfg = 0 ∧ (s.vd v).slice = 0 ∧ (s.vd v).apVa = 0 ∧ (s.vd v).apAsid = 0 ∧ ∀ k, Tbl.getD (s.vd v).weights k 1 = 1)
    ∧ (∀ q, (s.queue q).owner = 0 ∧ (s.queue q).ctl = 0 ∧ (s.queue q).status = 0)
    ∧ (∀ v k, (s.ring v k).ctl = 0)
    ∧ MemForm s

/-- R153 to R157, R189, R285, R222: a step at which a pipe issues runs the instruction whose bytes stand at the program counter of its
threads: the result of the step is that of `exec`, in a state that counts the instruction, unless it is one that waited and is tried again, names
its group and holds the same memory and the same waves but for their issue counts, their parking and the accesses they wait for; a word that is no instruction is ILLEGAL_OP, a byte that cannot be fetched
FETCH_FAULT. Where a wave of the group has an asynchronous cause due, `settleStep` takes it in place of the instruction, and where the instruction would
trap while an access of another group of its wave is not complete, it waits for that (R223). A row of the agenda that is due runs first. The agenda, and that its due rows run ahead of the pipes'
turns, are the model's choice (LE 1); so is how a turn selects, which stands for the core cycles since the pipe's last one (LE 27). -/
def Obligations.StepRunsDecoded : Prop :=
  (∀ (s u : State) (g : Group), LanePick s u g →
    ∀ m ∈ g.mem, ∃ w, (m.1, w) ∈ u.waves ∧ w.pcOf m.2 = g.pc ∧ (w.thread m.2).exited = false)
  ∧ (∀ (s u : State) (g : Group) (wid l n : Nat) (w : Wave) (i : Instr) (bs : List Byte),
    LanePick s u g ∨ UniformPick s u g → g.mem.head? = some (wid, l) → Tbl.find u.waves wid = some w →
    let issued := fun (n : Nat) => (u.fetched g.core (u.partOf wid) (u.clsOf wid) w.asid g.pc n).accept g
    let t := issued n
    (u.fetchInstr g.core (u.partOf wid) w.asid g.pc = some bs → decodeBytes bs = .ok (i, n) →
      step s = settleStep t (exec i t)
        ∧ ((∀ m ∈ g.mem, ∀ x, Tbl.find t.waves m.1 = some x → x.nextAsync = none ∧ x.pends.any (State.unfinished x) = false) → step s = exec i t)
        ∧ t.cur = some g ∧ t.mem = u.mem ∧ t.reft = u.reft
        ∧ (∀ k, (Tbl.find t.waves k).map Wave.quiet = (Tbl.find u.waves k).map Wave.quiet)
        ∧ (t.core g.core).issued = (u.core g.core).issued
          + if g.waves.all (fun k => (Tbl.find u.waves k).any (fun x => State.retried x g.pc)) then 0 else 1)
    ∧ (∀ r, u.fetchInstr g.core (u.partOf wid) w.asid g.pc = some bs → decodeBytes bs = .error r →
      step s = settleStep (issued 4) (exec .illegalOp (issued 4)))
    ∧ (u.fetchInstr g.core (u.partOf wid) w.asid g.pc = none → step s = settleStep (issued 0) (exec .fetchFault (issued 0))))
  ∧ ∀ (s : State) (e : Nat × Instr) (rest : List (Nat × Instr)), s.agenda = e :: rest → e.1 ≤ s.reft →
    step s = exec e.2 { s with agenda := rest, cur := none }

/-- The memories keep their canonical form: from every state in which HBM, the host's memory, the mailbox's buffer and the scratchpads have
it, a step leads to one in which they have it. The form is the model's own (LE 3). -/
def Obligations.MemoryForm : Prop :=
  ∀ s t : State, MemForm s → step s = .next t → MemForm t

/-- R296 for the types of one 32-bit register: sums, differences, products, the high half of a product, multiply-add, minimum and
maximum of signed and of unsigned numbers, wrapping; the saturating types; the bitwise operations. -/
def Obligations.IntegerArithmetic32 : Prop :=
  ∀ (d a : VReg) (b : VOp),
    let gives := fun (i : Instr) (f : Word → Word → Word → Word) =>
      LaneGives i (d.val :: a.val :: b.regs false) [d.val] (to32 d (fun w l => f (w.vreg l a.val) (b.get w l) (w.vreg l d.val)))
    (∀ t ∈ [IType.i32, .n32],
      gives (.iadd t d a b) (fun x y _ => x + y) ∧ gives (.isub t d a b) (fun x y _ => x - y)
      ∧ gives (.imul t d a b) (fun x y _ => x * y) ∧ gives (.imad t d a b) (fun x y z => x * y + z)
      ∧ gives (.and t d a b) (fun x y _ => x &&& y) ∧ gives (.or t d a b) (fun x y _ => x ||| y)
      ∧ gives (.xor t d a b) (fun x y _ => x ^^^ y) ∧ gives (.andn t d a b) (fun x y _ => x &&& ~~~y))
    ∧ gives (.imulh .i32 d a b) (fun x y _ => ((x.signExtend 64 * y.signExtend 64) >>> 32).truncate 32)
    ∧ gives (.imulh .n32 d a b) (fun x y _ => ((x.zeroExtend 64 * y.zeroExtend 64) >>> 32).truncate 32)
    ∧ gives (.imin .i32 d a b) (fun x y _ => if x.sle y then x else y) ∧ gives (.imin .n32 d a b) (fun x y _ => if x.ule y then x else y)
    ∧ gives (.imax .i32 d a b) (fun x y _ => if x.sle y then y else x) ∧ gives (.imax .n32 d a b) (fun x y _ => if x.ule y then y else x)
    ∧ gives (.iadd .i32s d a b) (fun x y _ => satS 32 (x.toInt + y.toInt))
    ∧ gives (.iadd .n32s d a b) (fun x y _ => satU 32 ((x.toNat : Int) + y.toNat))
    ∧ gives (.isub .i32s d a b) (fun x y _ => satS 32 (x.toInt - y.toInt))
    ∧ gives (.isub .n32s d a b) (fun x y _ => satU 32 ((x.toNat : Int) - y.toNat))
    ∧ gives (.imul .i32s d a b) (fun x y _ => satS 32 (x.toInt * y.toInt))
    ∧ gives (.imul .n32s d a b) (fun x y _ => satU 32 ((x.toNat : Int) * y.toNat))
    ∧ gives (.imad .i32s d a b) (fun x y z => satS 32 (x.toInt * y.toInt + z.toInt))
    ∧ gives (.imad .n32s d a b) (fun x y z => satU 32 ((x.toNat : Int) * y.toNat + z.toNat))

/-- R296 for i64 and n64, in even pairs; a literal is sign-extended for i64 and zero-extended for n64 (R274).
R296 for i16x2 and n16x2: each half on its own. -/
def Obligations.IntegerArithmeticPairsAndHalves : Prop :=
  (∀ (d a : VReg) (b : VOp),
     let gives := fun (sgn : Bool) (i : Instr) (f : DWord → DWord → DWord → DWord) =>
       LaneGives i (regsOf true d ++ regsOf true a ++ b.regs true) (regsOf true d)
         (to64 d (fun w l => f (w.vpair l a.val) (get64 sgn w l b) (w.vpair l d.val)))
     (∀ t ∈ [(IType.i64, true), (IType.n64, false)],
       gives t.2 (.iadd t.1 d a b) (fun x y _ => x + y) ∧ gives t.2 (.isub t.1 d a b) (fun x y _ => x - y)
       ∧ gives t.2 (.imul t.1 d a b) (fun x y _ => x * y) ∧ gives t.2 (.imad t.1 d a b) (fun x y z => x * y + z)
       ∧ gives t.2 (.and t.1 d a b) (fun x y _ => x &&& y) ∧ gives t.2 (.or t.1 d a b) (fun x y _ => x ||| y)
       ∧ gives t.2 (.xor t.1 d a b) (fun x y _ => x ^^^ y) ∧ gives t.2 (.andn t.1 d a b) (fun x y _ => x &&& ~~~y))
     ∧ gives true (.imulh .i64 d a b) (fun x y _ => ((x.signExtend 128 * y.signExtend 128) >>> 64).truncate 64)
     ∧ gives false (.imulh .n64 d a b) (fun x y _ => ((x.zeroExtend 128 * y.zeroExtend 128) >>> 64).truncate 64)
     ∧ gives true (.imin .i64 d a b) (fun x y _ => if x.sle y then x else y)
     ∧ gives false (.imin .n64 d a b) (fun x y _ => if x.ule y then x else y)
     ∧ gives true (.imax .i64 d a b) (fun x y _ => if x.sle y then y else x)
     ∧ gives false (.imax .n64 d a b) (fun x y _ => if x.ule y then y else x))
  ∧ (∀ (d a : VReg) (b : VOp),
       let gives := fun (i : Instr) (f : BitVec 16 → BitVec 16 → BitVec 16) =>
         LaneGives i (d.val :: a.val :: b.regs false) [d.val] (to32 d (fun w l => onHalves f (w.vreg l a.val) (b.get w l)))
       (∀ t ∈ [IType.i16x2, .n16x2],
         gives (.iadd t d a b) (fun x y => x + y) ∧ gives (.isub t d a b) (fun x y => x - y) ∧ gives (.imul t d a b) (fun x y => x * y)
         ∧ LaneGives (.imad t d a b) (d.val :: a.val :: b.regs false) [d.val] (to32 d (fun w l =>
           onHalves (fun x z => x + z) (onHalves (fun x y => x * y) (w.vreg l a.val) (b.get w l)) (w.vreg l d.val))))
       ∧ gives (.imulh .i16x2 d a b) (fun x y => ((x.signExtend 32 * y.signExtend 32) >>> 16).truncate 16)
       ∧ gives (.imulh .n16x2 d a b) (fun x y => ((x.zeroExtend 32 * y.zeroExtend 32) >>> 16).truncate 16)
       ∧ gives (.imin .i16x2 d a b) (fun x y => if x.sle y then x else y) ∧ gives (.imin .n16x2 d a b) (fun x y => if x.ule y then x else y)
       ∧ gives (.imax .i16x2 d a b) (fun x y => if x.sle y then y else x) ∧ gives (.imax .n16x2 d a b) (fun x y => if x.ule y then y else x))

/-- R297: shifts and rotations by the unsigned count in the single register vb, or in each half of it; a count of the width or more
gives 0, or all sign bits; a rotation takes the count modulo the width. -/
def Obligations.Shifts : Prop :=
  ∀ (d a : VReg) (b : VOp),
    let gives := fun (i : Instr) (f : Word → Word → Word) =>
      LaneGives i (d.val :: a.val :: b.regs false) [d.val] (to32 d (fun w l => f (w.vreg l a.val) (b.get w l)))
    let gives64 := fun (i : Instr) (f : DWord → Nat → DWord) =>
      LaneGives i (regsOf true d ++ regsOf true a ++ b.regs false) (regsOf true d) (to64 d (fun w l => f (w.vpair l a.val) (b.get w l).toNat))
    (∀ t ∈ [IType.i32, .n32],
      gives (.shl t d a b) (fun x c => x <<< c.toNat) ∧ gives (.shr t d a b) (fun x c => x >>> c.toNat)
      ∧ gives (.sar t d a b) (fun x c => x.sshiftRight c.toNat) ∧ gives (.rot t d a b) (fun x c => x.rotateLeft (c.toNat % 32)))
    ∧ (∀ t ∈ [IType.i64, .n64],
      gives64 (.shl t d a b) (fun x c => x <<< c) ∧ gives64 (.shr t d a b) (fun x c => x >>> c)
      ∧ gives64 (.sar t d a b) (fun x c => x.sshiftRight c) ∧ gives64 (.rot t d a b) (fun x c => x.rotateLeft (c % 64)))
    ∧ (∀ t ∈ [IType.i16x2, .n16x2],
      gives (.shl t d a b) (onHalves (fun x c => x <<< c.toNat)) ∧ gives (.shr t d a b) (onHalves (fun x c => x >>> c.toNat))
      ∧ gives (.sar t d a b) (onHalves (fun x c => x.sshiftRight c.toNat))
      ∧ gives (.rot t d a b) (onHalves (fun x c => x.rotateLeft (c.toNat % 16))))

/-- R298, R299, R300: moves, selects, bit counts, bit fields.
R301: LEA forms the address of one element: with the core and START of the team for a record of local scratch; 0 for an index that
OOB drops; BOUNDS or ALIGN as R172 says, in which case it is no part of this statement. -/
def Obligations.MovesFieldsAddresses : Prop :=
  (∀ (d a : VReg) (b : VOp) (n : SReg) (p : Fin 8),
     (∀ t ∈ [IType.i32, .n32],
       LaneGives (.mov t d b) (d.val :: b.regs false) [d.val] (to32 d (fun w l => b.get w l))
       ∧ LaneGives (.bfx t d a b) (d.val :: a.val :: b.regs false) [d.val]
         (to32 d (fun w l => extractBits 32 (t == .i32) (w.vreg l a.val) (b.get w l)))
       ∧ LaneGives (.bfi t d a b) (d.val :: a.val :: b.regs false) [d.val]
         (to32 d (fun w l => insertBits 32 (w.vreg l a.val) (w.vreg l d.val) (b.get w l))))
     ∧ (∀ t ∈ [IType.i64, .n64],
       LaneGives (.mov t d b) (regsOf true d ++ b.regs true) (regsOf true d) (to64 d (fun w l => get64 (t == .i64) w l b))
       ∧ LaneGives (.bfx t d a b) (regsOf true d ++ regsOf true a ++ b.regs false) (regsOf true d)
         (to64 d (fun w l => extractBits 64 (t == .i64) (w.vpair l a.val) (b.get w l)))
       ∧ LaneGives (.bfi t d a b) (regsOf true d ++ regsOf true a ++ b.regs false) (regsOf true d)
         (to64 d (fun w l => insertBits 64 (w.vpair l a.val) (w.vpair l d.val) (b.get w l))))
     ∧ LaneGives (.sel p d a b) (d.val :: a.val :: b.regs false) [d.val]
       (to32 d (fun w l => if w.preg l p.val then w.vreg l a.val else b.get w l))
     ∧ LaneGives (.movu false d n) [d.val] [d.val] (to32 d (fun w _ => (w.sreg n.val).truncate 32))
     ∧ LaneGives (.movu true d n) (regsOf true d) (regsOf true d) (to64 d (fun w _ => w.sreg n.val))
     ∧ LaneGives (.popc false d a) [d.val, a.val] [d.val]
       (to32 d (fun w l => BitVec.ofNat 32 ((List.range 32).countP (fun i => (w.vreg l a.val).getLsbD i))))
     ∧ LaneGives (.popc true d a) (d.val :: regsOf true a) [d.val]
       (to32 d (fun w l => BitVec.ofNat 32 ((List.range 64).countP (fun i => (w.vpair l a.val).getLsbD i))))
     ∧ LaneGives (.clz false d a) [d.val, a.val] [d.val]
       (to32 d (fun w l => BitVec.ofNat 32 ((List.range 32).countP (fun i => w.vreg l a.val >>> i == 0))))
     ∧ LaneGives (.clz true d a) (d.val :: regsOf true a) [d.val]
       (to32 d (fun w l => BitVec.ofNat 32 ((List.range 64).countP (fun i => w.vpair l a.val >>> i == 0))))
     ∧ LaneGives (.brev false d a) [d.val, a.val] [d.val] (to32 d (fun w l => (w.vreg l a.val).reverse))
     ∧ LaneGives (.brev true d a) (regsOf true d ++ regsOf true a) (regsOf true d) (to64 d (fun w l => (w.vpair l a.val).reverse)))
  ∧ (∀ (d : VReg) (n : BReg) (o : VReg),
       LaneGivesIf (.lea d n o) (regsOf true d ++ [o.val]) (regsOf true d) (fun s wid w l =>
         let b := w.breg n.val
         match laneAddress b (w.vreg l o.val).toNat (Rcd.esize b) with
         | .at_ a => to64 d (fun w _ => BitVec.ofNat 64
             ((if Rcd.space b = 1 then s.coreOf wid % 48 * 2 ^ 19 + s.startOf w + a else a) % 2 ^ 52)) s wid w l
         | .dropped => to64 d (fun _ _ => 0) s wid w l
         | .trap c => .trap c))

/-- R302: ICMP writes its predicate with what the condition says of two 32-bit values, cc 0 to 5 signed and 6 and 7 unsigned; a write to p127
is discarded. Its words are those of the VPC format at major 0x16. -/
def Obligations.IntegerCompare : Prop :=
  ∀ (q : PReg) (a c : VReg) (b : VOp) (cc : ICond) (lit : Word) (h : Nat),
    LaneGives (.icmp cc q a b) (a.val :: b.regs false) [] (toP q (fun w l => holds cc (w.vreg l a.val) (b.get w l)))
    ∧ (∀ (w : Wave) (l : Nat) (x : Bool), w.setP l 127 x = w)
    ∧ (let word := fun (r x : Nat) => 0x16 * 2 ^ 25 + q.val * 2 ^ 18 + a.val * 2 ^ 11 + r * 2 ^ 4 + ([ICond.eq, .ne, .lt, .le, .gt, .ge, .ltu, .geu].idxOf cc) * 2 + x
      decodeWords (word c.val 0) 0 h = .ok (.icmp cc q a (.reg c)) ∧ decodeWords (word 0 1) lit.toNat h = .ok (.icmp cc q a (.lit lit)))

/-- R260, R262, R264: a magnitude that is no zero is rounded to a neighbour among the values of a format, the nearer under RNE and the even one of two equally near, the lower
or the higher one as the mode and the sign say, under stochastic rounding as the random operand says; inexact is raised where it differs, underflow besides where it is tiny, and what would pass the
largest finite value overflows. That below the least normal number the neighbours of a stochastic rounding are subnormals, where R264 takes them with an unbounded
exponent range, is the model's choice (LE 22). A sum, a product and a fused sum of finite numbers is the exact one so rounded.
R303, R304, R305: each element of the result is that, or one of the operands: FMIN and FMAX give the lesser and the greater, a number before a NaN, -0 before +0;
FCMP writes a predicate, what its condition says of the two values; the flags of all elements are raised, and one whose trap is enabled is followed by ARITH (R259).
R306, R307, R261: the unary functions, element by element. FRCP, FRSQ and FSQRT give the exact value rounded once, FRND the integer to which its mode rounds, FNEG and
FABS change the sign; the special operands give what R261 lists, with their flags, and FEXP2 and FLOG2 of integers and powers of two, FSINP and FCOSP of
integers and halves the exact value. The irrational values of FEXP2, FLOG2, FSINP and FCOSP are given by the model's functions. FCLASS writes a mask to a single
register and raises nothing. -/
def Obligations.FloatOperations : Prop :=
  (∀ f ∈ [FFmt.f64, .f32, .bf16, .f16, .e4m3, .e5m2, .e2m3, .e3m2, .e2m1], ∀ (mode : Rnd) (sat neg : Bool) (m y : Nat) (e : Int),
    let value := fun (y : Nat) => if y < 2 ^ f.mb then (y, f.emin - f.mb) else (2 ^ f.mb + y % 2 ^ f.mb, (y / 2 ^ f.mb : Nat) - (f.bias : Int) - f.mb)
    let u := min e (value y).2
    let units := fun (x : Nat × Int) => x.1 * 2 ^ (x.2 - u).toNat
    let x := units (m, e)
    let lo := units (value y)
    let hi := units (value (y + 1))
    let up := match mode with
      | .rne => lo + hi < 2 * x ∨ (lo + hi = 2 * x ∧ y % 2 = 1)
      | .rz => False
      | .rd => neg = true
      | .ru => neg = false
      | .sr r => r < (x - lo) * 2 ^ 32 / (hi - lo)
    let sign := if neg then 2 ^ (f.eb + f.mb) else 0
    let r := f.round mode sat neg m e
    y ≤ f.maxBits → 0 < m →
      f.decode y = .fin false (value y).1 (value y).2
      ∧ (lo = x → r = (sign + y, 0))
      ∧ (lo < x → x < hi → (¬ up → r.1 = sign + y) ∧ (up → y < f.maxBits → r.1 = sign + y + 1) ∧ (up → y = f.maxBits → r = f.overflow mode sat neg)
        ∧ (¬ up ∨ y < f.maxBits → (r.2 = flInexact ∨ r.2 = flInexact ||| flUnderflow) ∧ (2 ^ f.mb ≤ y → r.2 = flInexact)
          ∧ (y + 1 < 2 ^ f.mb → r.2 = flInexact ||| flUnderflow)))
      ∧ (y = f.maxBits → hi ≤ x → r = f.overflow mode sat neg))
  ∧ (∀ (f : FFmt) (mode : Rnd) (n1 n2 : Bool) (m1 m2 : Nat) (e1 e2 : Int) (d : FVal),
    let u := min e1 e2
    let signed := fun (n : Bool) (x : Nat) => if n then -(x : Int) else x
    let sum := signed n1 (m1 * 2 ^ (e1 - u).toNat) + signed n2 (m2 * 2 ^ (e2 - u).toNat)
    (sum ≠ 0 → f.add mode (.fin n1 m1 e1) (.fin n2 m2 e2) = f.round mode false (decide (sum < 0)) sum.natAbs u)
    ∧ f.mul mode (.fin n1 m1 e1) (.fin n2 m2 e2) = f.round mode false (n1 ^^ n2) (m1 * m2) (e1 + e2)
    ∧ (d.isNan = false → f.fma mode (.fin n1 m1 e1) (.fin n2 m2 e2) d = f.add mode (.fin (n1 ^^ n2) (m1 * m2) (e1 + e2)) d))
  ∧ (∀ (cc : FCond) (a b : FVal),
    (a.isNan = false → b.isNan = false → (fcmpVal cc a b).2 = 0 ∧ ((fcmpVal cc a b).1 = true ↔ match cc with
      | .eq => ¬ a.Below b ∧ ¬ b.Below a
      | .ne => a.Below b ∨ b.Below a
      | .lt => a.Below b
      | .le => ¬ b.Below a
      | .gt => b.Below a
      | .ge => ¬ a.Below b
      | .un => False
      | .ord => True))
    ∧ (a.isNan = true ∨ b.isNan = true → ((fcmpVal cc a b).1 = true ↔ cc = .ne ∨ cc = .un)
      ∧ (fcmpVal cc a b).2 = if cc ∈ [FCond.lt, .le, .gt, .ge] ∨ a.snan = true ∨ b.snan = true then flInvalid else 0))
  ∧ (∀ f ∈ [FFmt.f64, .f32, .bf16, .f16], ∀ (x y : Nat) (greater : Bool),
    let a := f.decode x
    let b := f.decode y
    let r := f.minMax greater x y
    let first := if greater then b.Below a else a.Below b
    let second := if greater then a.Below b else b.Below a
    r.2 = (if a.snan = true ∨ b.snan = true then flInvalid else 0)
    ∧ (a.isNan = true → b.isNan = true → r.1 = f.nanBits) ∧ (a.isNan = true → b.isNan = false → r.1 = y) ∧ (a.isNan = false → b.isNan = true → r.1 = x)
    ∧ (a.isNan = false → b.isNan = false → (first → r.1 = x) ∧ (second → r.1 = y) ∧ (r.1 = x ∨ r.1 = y)
      ∧ (¬ first → ¬ second → a.isNeg ≠ b.isNeg → r.1 = if a.isNeg = greater then y else x)))
  ∧ (∀ f ∈ [FFmt.f64, .f32, .bf16, .f16], ∀ mode ∈ [Rnd.rne, .rz, .rd, .ru], ∀ (n sg : Bool) (m x k : Nat) (e : Int),
    let v := FVal.fin n m e
    let bad := (f.nanBits, if sg then flInvalid else 0)
    let big := (f.signBit n + f.infBits, flDivZero)
    let whole := m * 2 ^ e.toNat
    let part := 2 ^ (-e).toNat
    (0 < m → RoundsTo f mode n (fun a b => DyLess (a * m) (b + e) 1 0) (fun a b => DySame (a * m) (b + e) 1 0) (f.rcp mode v))
    ∧ (0 < m → n = false → RoundsTo f mode false (fun a b => DyLess (a * a) (2 * b) m e) (fun a b => DySame (a * a) (2 * b) m e) (f.sqrt mode v)
      ∧ RoundsTo f mode false (fun a b => DyLess (a * a * m) (2 * b + e) 1 0) (fun a b => DySame (a * a * m) (2 * b + e) 1 0) (f.rsq mode v))
    ∧ (0 < m → n = true → f.sqrt mode v = f.invalid ∧ f.rsq mode v = f.invalid ∧ f.log2 mode v = f.invalid)
    ∧ (m = 0 → f.rcp mode v = big ∧ f.rsq mode v = big ∧ f.sqrt mode v = (f.signBit n, 0) ∧ f.log2 mode v = (f.signBit true + f.infBits, flDivZero))
    ∧ (f.rcp mode (.inf n) = (f.signBit n, 0) ∧ f.exp2 mode (.inf n) = (if n then 0 else f.infBits, 0)
      ∧ f.trig mode true (.inf n) = f.invalid ∧ f.trig mode false (.inf n) = f.invalid)
    ∧ (f.sqrt mode (.inf n) = (if n then f.invalid else (f.infBits, 0)) ∧ f.rsq mode (.inf n) = (if n then f.invalid else (0, 0))
      ∧ f.log2 mode (.inf n) = if n then f.invalid else (f.infBits, 0))
    ∧ (f.rcp mode (.nan sg) = bad ∧ f.rsq mode (.nan sg) = bad ∧ f.sqrt mode (.nan sg) = bad ∧ f.exp2 mode (.nan sg) = bad ∧ f.log2 mode (.nan sg) = bad
      ∧ f.trig mode true (.nan sg) = bad ∧ f.trig mode false (.nan sg) = bad)
    ∧ (whole = k * part → (k < 2 ^ 14 → f.exp2 mode v = f.round mode false false 1 (if n then -(k : Int) else k))
      ∧ f.trig mode true v = (f.signBit n, 0) ∧ f.trig mode false v = f.round mode false (k % 2 == 1) 1 0)
    ∧ (2 * whole = (2 * k + 1) * part → f.trig mode false v = (0, 0) ∧ f.trig mode true v = f.round mode false (n ^^ (k % 2 == 1)) 1 0)
    ∧ f.log2 mode (.fin false (2 ^ k) e) = f.round mode false (decide ((k : Int) + e < 0)) ((k : Int) + e).natAbs 0
    ∧ (f.decode x = .nan sg → f.rint mode x = bad ∧ f.setSign false x = bad ∧ f.setSign true x = bad)
    ∧ (f.decode x = .inf n → f.rint mode x = (x, 0))
    ∧ (x < 2 ^ f.bits → (f.decode x).isNan = false → f.setSign false x = (x ^^^ 2 ^ (f.eb + f.mb), 0) ∧ f.setSign true x = (x % 2 ^ (f.eb + f.mb), 0))
    ∧ (f.decode x = v → (f.rint mode x).2 = 0 ∧ ∃ (a : Nat) (b : Int), f.decode (f.rint mode x).1 = .fin n a b ∧
      let q := whole / part
      let up := (mode = .rne ∧ (part < 2 * (whole % part) ∨ (part = 2 * (whole % part) ∧ q % 2 = 1)))
        ∨ (whole % part ≠ 0 ∧ ((mode = .rd ∧ n = true) ∨ (mode = .ru ∧ n = false)))
      (up → DySame a b (q + 1) 0) ∧ (¬ up → DySame a b q 0)))
  ∧ (∀ (op : LaneOp) (fn : Nat → Wave → Nat → LaneRes) (dst : List Nat), (∀ wid w l, ∀ x ∈ (fn wid w l).v, x.1 ∈ dst ∧ x.1 < 128) →
    (∀ wid w l, ∀ x ∈ (fn wid w l).p, x.1 < 128) → LaneArith (laneStep op fn) op.size op.regs dst (fun _ => fn))
  ∧ ((∀ (t : FType) (d a : VReg) (b : VOp),
     let gives := fun (i : Instr) (op : FFmt → Rnd → Nat → Nat → Nat → Nat × Nat) =>
       LaneGivesIf i (regsOf t.pair d ++ regsOf t.pair a ++ b.regs t.pair) (regsOf t.pair d) (fun _ _ w l =>
         let r := floatElems t (fun h => op t.fmt (rmodeOf w.fmode) (felem t (rawReg t.pair w l a) h) (felem t (floatOperand t w l b) h)
           (felem t (rawReg t.pair w l d) h))
         .ofF (vwrite t.pair d.val r.1) r.2)
     gives (.fadd t d a b) (fun f m x y _ => f.add m (f.decode x) (f.decode y))
     ∧ gives (.fsub t d a b) (fun f m x y _ => f.add m (f.decode x) (f.decode y).neg)
     ∧ gives (.fmul t d a b) (fun f m x y _ => f.mul m (f.decode x) (f.decode y))
     ∧ gives (.ffma t d a b) (fun f m x y z => f.fma m (f.decode x) (f.decode y) (f.decode z))
     ∧ gives (.fmin t d a b) (fun f _ x y _ => f.minMax false x y) ∧ gives (.fmax t d a b) (fun f _ x y _ => f.minMax true x y))
   ∧ ∀ (cc : FCond) (q : PReg) (a b : VReg),
     LaneGivesIf (.fcmp cc false q a b) [a.val, b.val] [] (fun _ _ w l =>
       let r := fcmpVal cc (FFmt.f32.decode (w.vreg l a.val).toNat) (FFmt.f32.decode (w.vreg l b.val).toNat)
       { p := [(q.val, r.1)], flags := r.2 })
     ∧ LaneGivesIf (.fcmp cc true q a b) (regsOf true a ++ regsOf true b) [] (fun _ _ w l =>
       let r := fcmpVal cc (FFmt.f64.decode (w.vpair l a.val).toNat) (FFmt.f64.decode (w.vpair l b.val).toNat)
       { p := [(q.val, r.1)], flags := r.2 }))
  ∧ (∀ (t : FType) (d a : VReg),
       let gives := fun (i : Instr) (op : FFmt → Word → Nat → Nat × Nat) =>
         LaneGivesIf i (regsOf t.pair d ++ regsOf t.pair a) (regsOf t.pair d) (fun _ _ w l =>
           let r := floatElems t (fun h => op t.fmt w.fmode (felem t (rawReg t.pair w l a) h))
           .ofF (vwrite t.pair d.val r.1) r.2)
       (∀ r : RoundCode, gives (.frnd t r d a) (fun f m x => f.rint (Rnd.ofCode m r) x))
       ∧ gives (.frcp t d a) (fun f m x => f.rcp (rmodeOf m) (f.decode x)) ∧ gives (.frsq t d a) (fun f m x => f.rsq (rmodeOf m) (f.decode x))
       ∧ gives (.fsqrt t d a) (fun f m x => f.sqrt (rmodeOf m) (f.decode x)) ∧ gives (.fexp2 t d a) (fun f m x => f.exp2 (rmodeOf m) (f.decode x))
       ∧ gives (.flog2 t d a) (fun f m x => f.log2 (rmodeOf m) (f.decode x))
       ∧ gives (.fsinp t d a) (fun f m x => f.trig (rmodeOf m) true (f.decode x))
       ∧ gives (.fcosp t d a) (fun f m x => f.trig (rmodeOf m) false (f.decode x))
       ∧ gives (.fneg t d a) (fun f _ x => f.setSign false x) ∧ gives (.fabs t d a) (fun f _ x => f.setSign true x)
       ∧ LaneGives (.fclass t d a) (d.val :: regsOf t.pair a) [d.val]
         (to32 d (fun w l => BitVec.ofNat 32 (t.fmt.classOf (felem t (rawReg t.pair w l a) 0)))))

/-- R308 to R313, R315, R320: conversions, block scales, codebook weights, packing, the exchange between lanes, random words. CBDEC and CBENC read their
table at the home L2, where nothing else changes (R183, R254). -/
def Obligations.ConversionsAndExchange : Prop :=
  ∀ (d a : VReg) (f : FSlot),
    (∀ dst src r, LaneGivesIf (.cvt (.plain dst src r) d a) (regsOf dst.pair d ++ regsOf src.pair a) (regsOf dst.pair d)
      (fun _ _ w l =>
        let x := toNum (Rnd.ofCode w.fmode r) dst (readNum src (rawReg src.pair w l a))
        .ofF (vwrite dst.pair d.val x.1) x.2))
    ∧ (∀ src, LaneGivesIf (.cvt (.toSlot f src) d a) (d.val :: regsOf src.pair a) [d.val] (fun s wid w l =>
        let k := s.fslotOf wid f
        if slotElem k = 8 then .trap 0x18
        else
          let x := (readNum src (rawReg src.pair w l a)).toFloat (slotRound k (w.vreg l d.val).toNat) (slotSat k) (.ofCode (slotElem k))
          .ofF [(d.val, BitVec.ofNat 32 x.1)] x.2))
    ∧ (∀ dst, LaneGivesIf (.cvt (.fromSlot dst f) d a) (regsOf dst.pair d ++ [a.val]) (regsOf dst.pair d) (fun s wid w l =>
        let k := s.fslotOf wid f
        if slotElem k = 8 then .trap 0x18
        else
          let g := FFmt.ofCode (slotElem k)
          let x := toNum (rmodeOf w.fmode) dst (.float g ((w.vreg l a.val).toNat % 2 ^ g.bits))
          .ofF (vwrite dst.pair d.val x.1) x.2))
    ∧ LaneGivesIf (.qblk f d a) [d.val, d.val + 1, a.val] [d.val, d.val + 1] (fun s wid w l =>
        if slotScaled (s.fslotOf wid f) = false then .trap 0x18
        else
          let e := qblkScale (slotElem (s.fslotOf wid f)) (FFmt.f32.decode (w.vreg l a.val).toNat)
          .ofV [(d.val, BitVec.ofNat 32 e), (d.val + 1, BitVec.ofNat 32 (qblkRecip e))])
    ∧ LaneReads (.cbdec f d a) (block d.val 4 ++ [a.val]) (block d.val 4) (fun s wid w l =>
        let k := s.fslotOf wid f
        if slotElem k ≠ 8 then .trap 0x18
        else
          let i := ((w.vreg l a.val).truncate 16).toNat
          let e := s.cbEntry (s.partOf wid) (slotTable k) (i / 256)
          if (s.cbPoison (s.partOf wid) (slotTable k) [i / 256]).isSome then .trap 0x01 else .ofV ((List.range 4).map (fun h => (d.val + h,
            BitVec.ofNat 16 (halfToBf16 (cbWeight e i (2 * h + 1))) ++ BitVec.ofNat 16 (halfToBf16 (cbWeight e i (2 * h)))))))
    ∧ LaneReads (.cbenc f d a) (d.val :: block a.val 4) [d.val] (fun s wid w l =>
        let k := s.fslotOf wid f
        if slotElem k ≠ 8 then .trap 0x18
        else
          let x := (List.range 8).map (fun j => FFmt.bf16.decode ((w.vreg l (a.val + j / 2)) >>> (16 * (j % 2)) |>.truncate 16).toNat)
          let r := cbEncode ((List.range 256).map (s.cbEntry (s.partOf wid) (slotTable k))) x
          if (s.cbPoison (s.partOf wid) (slotTable k) (List.range 256)).isSome then .trap 0x01 else .ofF [(d.val, BitVec.ofNat 32 r.1)] r.2)
    ∧ (∀ e : ElemCode, LaneGives (.pack e d a) (d.val :: block a.val e.count) [d.val]
      (to32 d (fun w l => bitsBy 32 (fun j => decide (j < e.width * e.count) && (w.vreg l (a.val + j / e.width)).getLsbD (j % e.width)))))
    ∧ (∀ e : ElemCode, LaneGives (.unpk e d a) (block d.val e.count ++ [a.val]) (block d.val e.count) (fun _ _ w l =>
        .ofV ((List.range e.count).map (fun i => (d.val + i, bitsBy 32 (fun j =>
          decide (j < e.width) && (w.vreg l a.val).getLsbD (e.width * i + j)))))))
    ∧ (∀ (m : ShflMode) (b : VOp), LaneGives (.shfl m d a b) (d.val :: a.val :: b.regs false) [d.val] (fun s wid w l =>
        to32 d (fun w l => w.vreg (shflLane w (s.prot wid) m l ((b.get w l).toNat % 32)) a.val) s wid w l))
    ∧ LaneGives (.rng d a) (block d.val 4 ++ block a.val 4) (block d.val 4) (fun _ _ w l =>
        let r := philox 10 ((w.vreg l a.val).toNat, (w.vreg l (a.val + 1)).toNat, (w.vreg l (a.val + 2)).toNat, (w.vreg l (a.val + 3)).toNat)
          (w.rngkey.truncate 32).toNat ((w.rngkey >>> 32).truncate 32).toNat
        .ofV [(d.val, BitVec.ofNat 32 r.1), (d.val + 1, BitVec.ofNat 32 r.2.1), (d.val + 2, BitVec.ofNat 32 r.2.2.1),
          (d.val + 3, BitVec.ofNat 32 r.2.2.2)])

/-- R316: the predicate operations. The value of p127 is true, and a write to it is discarded. Their words are those of the VP format at
major 0x25; the other codes of op, and a second operand that PNOT or PMOV does not have, are no instruction. -/
def Obligations.PredicateOperations : Prop :=
  (∀ (n : Bool) (d a b : PReg),
    LaneGives (.pand n d a b) [] [] (toP d (fun w l => w.preg l a.val && (w.preg l b.val ^^ n)))
    ∧ LaneGives (.por n d a b) [] [] (toP d (fun w l => w.preg l a.val || (w.preg l b.val ^^ n)))
    ∧ LaneGives (.pxor n d a b) [] [] (toP d (fun w l => w.preg l a.val ^^ (w.preg l b.val ^^ n)))
    ∧ LaneGives (.pnot d a) [] [] (toP d (fun w l => !w.preg l a.val)) ∧ LaneGives (.pmov d a) [] [] (toP d (fun w l => w.preg l a.val)))
  ∧ (∀ (w : Wave) (l : Nat) (x : Bool), w.preg l 127 = true ∧ (w.setP l 127 x) = w)
  ∧ ∀ (n : Bool) (d a b : PReg) (l h : Nat),
    let word := fun (op : Nat) => decodeWords (0x25 * 2 ^ 25 + d.val * 2 ^ 18 + a.val * 2 ^ 11 + b.val * 2 ^ 4 + op * 2 + bitVal n) l h
    word 0 = .ok (.pand n d a b) ∧ word 1 = .ok (.por n d a b) ∧ word 2 = .ok (.pxor n d a b)
    ∧ (b = 0 → n = false → word 3 = .ok (.pnot d a) ∧ word 4 = .ok (.pmov d a))
    ∧ (b ≠ 0 ∨ n = true → ∀ op ∈ [3, 4], ∃ r, word op = .error r) ∧ ∀ op ∈ [5, 6, 7], ∃ r, word op = .error r

/-- R318, R319: NOP; a branch or call that is taken goes to the address at a signed distance in words (for an address below 0 or from 2^52 on as LE 81
reads R275), one that is not taken goes on;
CALL leaves the address of the next word in v126; BRX and RET go to the address in a pair. -/
def Obligations.ControlFlow : Prop :=
  (∀ (n : Bool) (p : PReg) (off : BitVec 17),
    LaneGives (.bra n p off) [] [] (fun _ _ w l =>
      if w.preg l p.val ^^ n then { target := some (branchTarget 17 (w.thread l).pc off.toNat) } else {})
    ∧ LaneGives (.call n p off) [126, 127] [126, 127] (fun s wid w l =>
      if w.preg l p.val ^^ n then
        { to64 126 (fun w l => BitVec.ofNat 64 ((w.thread l).pc + 4)) s wid w l with target := some (branchTarget 17 (w.thread l).pc off.toNat) }
      else {}))
  ∧ (∀ a : VReg, LaneGives (.brx a) (regsOf true a) [] (fun _ _ w l => { target := some (w.vpair l a.val).toNat }))
  ∧ LaneGives .ret [126, 127] [] (fun _ _ w l => { target := some (w.vpair l 126).toNat })
  ∧ LaneGives .nop [] [] (fun _ _ _ _ => {})

/-! ## Uniform instructions -/

/-- R361, R362: the uniform integer operations, on 64 bits, and in their 32-bit form on the low halves of the sources with the
result sign-extended; a count of the width or more shifts everything out. Only sd and the program counters change. -/
def Obligations.UniformIntegers : Prop :=
  ∀ (d a : SReg) (b : SOp),
    let gives := fun (i : Instr) (f : DWord → DWord → DWord) =>
      UniGives i [d.val] [] [] (fun _ _ w => w.setS d.val (f (w.sreg a.val) (sbOf w b)))
    let both := fun (op : Bool → SReg → SReg → SOp → Instr) (f : (n : Nat) → BitVec n → BitVec n → BitVec n) =>
      gives (op false d a b) (f 64) ∧ gives (op true d a b) (fun x y => (f 32 (x.truncate 32) (y.truncate 32)).signExtend 64)
    both .sadd (fun _ x y => x + y) ∧ both .ssub (fun _ x y => x - y) ∧ both .smul (fun _ x y => x * y)
    ∧ both .sand (fun _ x y => x &&& y) ∧ both .sor (fun _ x y => x ||| y) ∧ both .sxor (fun _ x y => x ^^^ y)
    ∧ both .sshl (fun _ x c => x <<< c.toNat) ∧ both .sshr (fun _ x c => x >>> c.toNat)
    ∧ both .ssar (fun _ x c => x.sshiftRight c.toNat)

/-- R363, R364: SCMP, SSEL, the forms of SMOV (a literal zero-extended, sign-extended, or of 64 bits), SADDI and SLEA. -/
def Obligations.UniformMoves : Prop :=
  ∀ (d a c : SReg) (b : SOp) (cc : ICond) (lo hi : Word) (imm : BitVec 13) (k : Fin 8) (off : BitVec 10),
    let gives := fun (i : Instr) (f : Wave → DWord) => UniGives i [d.val] [] [] (fun _ _ w => w.setS d.val (f w))
    gives (.scmp cc d a b) (fun w => if holds cc (w.sreg a.val) (sbOf w b) then 1 else 0)
    ∧ gives (.ssel c d a b) (fun w => if w.sreg c.val ≠ 0 then w.sreg a.val else sbOf w b)
    ∧ gives (.smov d a) (fun w => w.sreg a.val) ∧ gives (.smovLit d lo) (fun _ => lo.zeroExtend 64)
    ∧ gives (.smovSx d lo) (fun _ => lo.signExtend 64) ∧ gives (.smovD d lo hi) (fun _ => hi ++ lo)
    ∧ gives (.saddi d a imm) (fun w => w.sreg a.val + imm.signExtend 64)
    ∧ gives (.slea d a k off) (fun w => w.sreg a.val * BitVec.ofNat 64 (2 ^ k.val) + off.signExtend 64)

/-- R365 to R367: the votes over the predicates of every thread that has not exited, whatever its guard; RDLN, which reads 0 beyond
the wave's threads; and BRU, which sends every thread to the target of R275 (below 0 and from 2^52 on as LE 81 reads it), or on. -/
def Obligations.VotesReadsBranch : Prop :=
  ∀ (d a : SReg) (p : PReg) (v : VReg) (lane : Fin 32) (cc : UCond) (off : BitVec 16),
    let gives := fun (i : Instr) (regs : List Nat) (f : State → Nat → Wave → DWord) =>
      UniGives i [d.val] regs [] (fun s wid w => w.setS d.val (f s wid w))
    let read := fun (s : State) (wid : Nat) (w : Wave) (l : Nat) =>
      if s.prot wid then (if l < 16 then w.vreg (2 * l) v.val else 0) else w.vreg l v.val
    gives (.voteAny d p) [] (fun s wid w => if ∃ t ∈ voters s wid w, w.preg t.2 p.val = true then 1 else 0)
    ∧ gives (.voteAll d p) [] (fun s wid w => if ∀ t ∈ voters s wid w, w.preg t.2 p.val = true then 1 else 0)
    ∧ gives (.voteBallot d p) [] (fun s wid w => bitsBy 64 (fun k => (voters s wid w).any (fun t => t.1 == k && w.preg t.2 p.val)))
    ∧ gives (.rdln d v lane) [v.val] (fun s wid w => (read s wid w lane.val).zeroExtend 64)
    ∧ gives (.rdlnReg d v a) [v.val] (fun s wid w => (read s wid w ((w.sreg a.val).truncate 5).toNat).zeroExtend 64)
    ∧ (∀ s wid w, UniIssued s wid w → exec (.bru cc a off) s = .next (s.updWave wid (fun w => w.goAll (fun pc =>
        if ucondHolds cc (w.sreg a.val) then (BitVec.ofNat 64 pc + off.signExtend 64 * 4).toNat else pc + 4))))

/-! ## Traps, waves, special registers, regions, gate calls -/

/-- R221, R223: a trap of a wave that is not in its handler, in a domain that has one, enters the handler: every thread that has not
exited keeps its trap PC and its guard and stands at TRAPVEC, unguarded; sr.epc is the trap PC of the trapping group, or the lowest one;
sr.faddr takes the address, if there is one; sr.cause says code, lane, ASYNC, INGATE, INH and keeps SECOND; b15 is kept and names the
wave's part of the trap area. Nothing else changes.
R226, R227, R240, R244: where a trap does not enter a handler. A cause in the handler freezes the wave with SECOND and a record of
KIND 0, CODE kept; in the handler of a gate callee, and where the callee's domain has no handler, the call aborts; at depth 0 a domain
without a handler kills the launch; SHADOW_MISMATCH writes a record of KIND 5 and kills the launch. That sr.epc, LANE and CODE are written before the
record of a kill is formed is read from the rules (LE 29). -/
def Obligations.TrapsTaken : Prop :=
  (∀ (s : State) (wid : Nat) (w : Wave) (d : Domain) (code lane : Nat) (async : Bool) (epc addr : Option Nat),
     Tbl.find s.waves wid = some w → w.inh = false → HasHandler s wid w d → code < 256 → code ≠ 0x03 → lane < 256 →
     d.area + (s.coreOf wid * 32 + w.slot) * 4096 < 2 ^ 52 →
     ∃ x, s.takeTrap wid code lane async epc addr = s.updWave wid (fun _ => x)
       ∧ Entered { w with faddr := match addr with | none => w.faddr | some a => BitVec.ofNat 64 a } x code lane
           (match epc with | none => w.lowestPc | some p => p) d.vec async
       ∧ TrapArea (x.breg 15) d (s.coreOf wid) w.slot)
  ∧ (∀ (s : State) (wid : Nat) (w : Wave) (d : Domain) (code lane : Nat) (async : Bool) (epc : Nat),
       Tbl.find s.waves wid = some w → s.domainEntry (s.partOf wid) w.domain = d → code < 256 → lane < 256 →
       let trap := s.takeTrap wid code lane async (some epc) none
       let noted := s.updWave wid (fun w => { w with
         epc := BitVec.ofNat 64 epc, cause := setField (setField w.cause 31 24 lane) 7 0 code })
       (code ≠ 0x03 → w.inh = true → w.gates = [] → trap = (s.updWave wid (fun w => { w with
           frozen := true, park := .no, cause := setField w.cause 15 8 code })).sqWave 0 wid)
       ∧ (code ≠ 0x03 → w.inh = true → w.gates ≠ [] → trap = s.abortGate wid code)
       ∧ (code ≠ 0x03 → w.inh = false → (d.v = false ∨ d.vec = 0) → w.gates ≠ [] → trap = s.abortGate wid code)
       ∧ (code ≠ 0x03 → w.inh = false → (d.v = false ∨ d.vec = 0) → w.gates = [] → trap = noted.killLaunch wid)
       ∧ (code = 0x03 → trap = (noted.sqWave 5 wid).killLaunch wid))

/-- R377, R224, R382: TRAP and BKPT enter the handler with code 0x80 + imm and 0x7E, sr.epc and every trap PC at the next instruction;
RTE in a handler returns, and outside one is ILLEGAL_OP; HALT in a system domain freezes the wave with CODE and SECOND 0, sr.epc at the
next instruction, and writes a record of KIND 0, and elsewhere is PRIVILEGED. -/
def Obligations.TrapsAndReturn : Prop :=
  ∀ (s : State) (wid : Nat) (w : Wave) (d : Domain) (imm : Fin 128), UniIssued s wid w →
    (w.inh = false → HasHandler s wid w d →
      (∃ x, exec (.trap imm) s = .next (s.updWave wid (fun _ => x)) ∧ Entered (w.pass 4) x (0x80 + imm.val) 0xFF (w.at_ + 4) d.vec false)
      ∧ ∃ x, exec .bkpt s = .next (s.updWave wid (fun _ => x)) ∧ Entered (w.pass 4) x 0x7E 0xFF (w.at_ + 4) d.vec false)
    ∧ (w.inh = true → w.gates ≠ [] → exec (.trap 0x53) s = .next ((s.updWave wid (fun w => w.pass 4)).abortGate wid 0x53))
    ∧ (w.inh = true → ∃ x, exec .rte s = .next (s.updWave wid (fun _ => x)) ∧ Returned w x)
    ∧ (w.inh = false → UniTraps .rte s wid w 0x10)
    ∧ (s.privileged wid = true → ∃ x, exec .halt s = .next ((s.updWave wid (fun _ => x)).sqWave 0 wid)
        ∧ x.frozen = true ∧ fieldOf x.cause 15 0 = 0 ∧ fieldOf x.cause 31 16 = fieldOf w.cause 31 16 ∧ x.epc = BitVec.ofNat 64 (w.at_ + 4)
        ∧ x = { w with threads := x.threads, epc := x.epc, epc0 := x.epc, cause := x.cause, tb15 := w.breg 15, frozen := true, halted := true })
    ∧ (s.privileged wid = false → UniTraps .halt s wid w 0x11)

/-- R147, R172 to R174, R203, R222, R231: a lane instruction some lane of which raises a cause performs nothing and takes the one with the lowest code in the
lowest lane that raises it: REG_RANGE, FORMAT_SLOT, BOUNDS, ALIGN, ACCESS, SCOPE, REGION_CLOBBER and the cause of an atomic in a region.
R189, R246, R285: a word that is no instruction traps with ILLEGAL_OP, and a byte that cannot be fetched with FETCH_FAULT, or with MACHINE_CHECK
where its line is poisoned and the launch has no REPLAY, and its address in sr.faddr, in the wave of the group that met it; at the first instruction of the wave's own handler FETCH_FAULT freezes the wave with
HANDLER_FETCH in SECOND (R226). -/
def Obligations.WordsThatDoNotRun : Prop :=
  (∀ (op : LaneOp) (f : Nat → Wave → Nat → LaneRes), LaneTraps (laneStep op f) op.regs (fun _ => f))
  ∧ (∀ (n : Bool) (p : PReg) (off : BitVec 17) (d a : VReg) (f : FSlot) (k : NumFmt),
    LaneTraps (exec .ret) [126, 127] (fun _ _ w l => { target := some (w.vpair l 126).toNat })
    ∧ LaneTraps (exec (.call n p off)) [126, 127] (fun s wid w l => if w.preg l p.val ^^ n then
        { to64 126 (fun w l => BitVec.ofNat 64 ((w.thread l).pc + 4)) s wid w l with target := some (branchTarget 17 (w.thread l).pc off.toNat) } else {})
    ∧ ∀ s g wid w l, LaneStands s g wid w → fieldOf (BitVec.ofNat 64 (s.fslotOf wid f)) 3 0 = 8 → (∀ r : Nat, r < 128 → r < 64 * w.slabs.length) →
      l ∈ onLanes g wid w → (∀ j ∈ onLanes g wid w, l ≤ j) → let traps := s.takeTrap wid 0x18 (s.laneId wid l) false (some g.pc) none
      exec (.cvt (.toSlot f k) d a) s = .next traps ∧ exec (.cvt (.fromSlot k f) d a) s = .next traps)
  ∧ (∀ (W : Width) (h : Fin 4) (pair x : Bool) (sc : Scope) (ao : AtomOp) (ty : AddType) (ct : CellType) (v o : VReg) (n : BReg),
    let wide := if pair then 8 else 4
    let load := fun (spaces : List Nat) (hint : Option Nat) (width : Nat) (scope acq : Option Scope) =>
      ({ spaces := spaces, right := .read, leaf := .read, width := width, loads := true, kind := 0, hint := hint, dst := blockOf v.val width
         scope := scope, acq := acq } : MemOp)
    let store := fun (spaces : List Nat) (hint : Option Nat) (width : Nat) (scope rel : Option Scope) =>
      ({ spaces := spaces, right := .write, leaf := .write, width := width, kind := 1, hint := hint, src := blockOf v.val width
         scope := scope, rel := rel } : MemOp)
    let atomic := fun (width : Nat) (dst src : List Nat) =>
      ({ spaces := [0, 1, 2, 3], right := .atomic, leaf := .atomic, width := width, rmw := true, loads := true, kind := 2
         scope := some sc, dst := dst, src := src, rel := some sc, acq := some sc, atomic := true } : MemOp)
    let at_ := fun (i : Instr) (op : MemOp) (regs : List Nat) => MemTraps i op n.val o.val (o.val :: regs)
    at_ (.ld W h v n o) (load [0, 3] (some h.val) W.bytes none none) (blockOf v.val W.bytes)
    ∧ at_ (.lds W v n o) (load [1] none W.bytes none none) (blockOf v.val W.bytes)
    ∧ at_ (.ldc W v n o) (load [2] none W.bytes none none) (blockOf v.val W.bytes)
    ∧ at_ (.ldq pair x sc v n o) (load [0, 3] none wide (some sc) (if x then some sc else none)) (blockOf v.val wide)
    ∧ at_ (.st W h v n o) (store [0, 3] (some h.val) W.bytes none none) (blockOf v.val W.bytes)
    ∧ at_ (.sts W v n o) (store [1] none W.bytes none none) (blockOf v.val W.bytes)
    ∧ at_ (.stc W v n o) (store [2] none W.bytes none none) (blockOf v.val W.bytes)
    ∧ at_ (.stq pair x sc v n o) (store [0, 3] none wide (some sc) (if x then some sc else none)) (blockOf v.val wide)
    ∧ at_ (.atom ao pair sc v n o) (atomic wide (regsOf pair v) (regsOf pair v)) (regsOf pair v)
    ∧ at_ (.acas pair sc v n o) (atomic wide (regsOf pair v) (block v.val (if pair then 4 else 2))) (block v.val (if pair then 4 else 2))
    ∧ at_ (.afadd ty sc v n o) (atomic ty.bytes (regsOf (ty == .f64) v) (regsOf (ty == .f64) v)) (regsOf (ty == .f64) v)
    ∧ at_ (.xacc ct v n o) { spaces := [0], right := .atomic, leaf := .atomic, width := 64, cell := true, rmw := true, kind := 2
                             src := regsOf (ct == .f64) v, scope := some .device, atomic := true } (regsOf (ct == .f64) v)
    ∧ at_ (.xrd pair x v n o) { spaces := [0], right := if x then .atomic else .read, leaf := if x then .atomic else .read, width := 64, cell := true
                                rmw := true, loads := true, kind := if x then 2 else 0, dst := regsOf pair v, scope := some .device, atomic := x } (regsOf pair v))
  ∧ (∀ (s : State) (op : MemOp) (wid : Nat) (w : Wave) (bi idx c a : Nat),
    let b := w.breg bi
    let address := if op.cell then cellAddress b idx else laneAddress b idx op.width
    let go := s.laneGo op wid w bi idx
    let sp := Rcd.space b
    let scratch := if sp = 1 then s.localTarget w a op.width else s.clusterTarget (s.coreOf wid) (s.partOf wid) a op.width
    let place := s.reach (some (s.coreOf wid)) (s.partOf wid) (State.asidOf w b) a (sp == 3) op.leaf
    let right := State.recAllows b op.right = true ∧ (w.gates = [] ∨ bi < 2 ∨ sp = 0 ∨ sp = 3)
    (address = .dropped → go = .drop) ∧ (address = .trap c → go = .trap c none)
    ∧ (address = .at_ a → (sp ∉ op.spaces → go = .trap 0x32 none)
      ∧ (sp ∈ op.spaces → ¬ right → ∃ k, go = .trap k none ∧ k ≤ 0x32)
      ∧ (sp ∈ op.spaces → sp = 1 ∨ sp = 2 → scratch = none → go = .trap 0x32 none)
      ∧ (sp ∈ op.spaces → right → sp = 1 ∨ sp = 2 → scratch ≠ none → op.rmw = true → (∀ k, op.scope = some k → 2 < k.code) → op.scope ≠ none → go = .trap 0x33 none)
      ∧ (sp ∈ op.spaces → sp = 0 ∨ sp = 3 → place = .denied → go = .trap 0x32 none)
      ∧ (sp ∈ op.spaces → right → op.rmw = false → op.noHost = false → op.scope ≠ none → (∀ k, op.scope = some k → k.code < 5) →
        (sp = 0 → ∀ h, place = .host h → go = .trap 0x33 none) ∧ (sp = 3 → ∀ chip page off, place = .peer chip page off → go = .trap 0x33 none))))
  ∧ ∀ (s : State) (g : Group) (wid : Nat) (w : Wave), s.cur = some g → g.waves = [wid] → Tbl.find s.waves wid = some w →
    let trap := fun (code : Nat) (addr : Option Nat) => s.takeTrap wid code (s.groupLane g wid w) false (some g.pc) addr
    let first := w.inh = true ∧ w.gates = [] ∧ g.pc = (s.domainEntry (s.partOf wid) w.domain).vec
    let bad := s.badFetch g.core (s.partOf wid) w.asid g.pc
    let poison := s.fetchPoisoned g.core (s.partOf wid) w.asid bad
    exec .illegalOp s = .next (trap 0x10 none)
    ∧ (poison = true → bad % 4 = 0 → bad < 2 ^ 52 → s.replays wid = false → exec .fetchFault s = .next (trap 0x01 (some bad)))
    ∧ (poison = false → ¬ first → exec .fetchFault s = .next (trap 0x08 (some bad)))
    ∧ (poison = false → first → exec .fetchFault s = .next ((s.updWave wid (fun w => { w with
        frozen := true, park := .no, cause := setField w.cause 15 8 0x02 })).sqWave 0 wid))

/-- R222, R229: the causes that wait at a wave's boundary are taken one at a time, the lowest code of those asynchronous and those deferred
that its state admits; and WAVE_CTL's actions on a frozen wave: the handler is entered again with what the first entry saved, the wave
resumes as RTE would, the launch is killed; BUSY is over. While the hob of the core relocks the action waits for the end of that (R14), and a halted
device keeps its state (R44). -/
def Obligations.WaveControl : Prop :=
  ∀ (s : State) (core slot wid : Nat) (w : Wave), s.waveAt core slot = some (wid, w) →
    (∀ a, w.nextAsync = some a → w.park ≠ .yielded → (∀ e, w.nextDeferred = some e → a.1 < e.code) →
      exec (.asyncCauseDelivery core slot) s = .next ((s.updWave wid (fun w => w.noAsync a)).takeTrap
        wid a.1 0xFF true none none))
    ∧ (∀ e, w.nextDeferred = some e → (∀ a, w.nextAsync = some a → w.park = .yielded ∨ e.code ≤ a.1) →
      exec (.asyncCauseDelivery core slot) s = .next ((s.updWave wid (fun w => w.noDeferred e)).takeTrap
        wid e.code 0xFF false none e.addr))
    ∧ ∀ (p : Fin 8) (v : DWord) (d : Domain), fieldOf v 40 32 = core → fieldOf v 4 0 = slot → w.frozen = true →
      s.ownerOf (clusterOf core) = some p.val → s.partOf wid = p.val → Tbl.find s.waves wid = some w →
      let s1 := s.updPart p.val (fun x => { x with waveBusy := false })
      (∀ i ∈ [Instr.waveReenter p v, .waveResume p v, .waveKill p v],
        (s.running = false → exec i s = .next s) ∧ (s.running = true → s.asleep core = true → exec i s = .next (s.atRelockEnd core i)))
      ∧ (s.running = true → s.asleep core = false → (w.halted = false → s.domainEntry p.val w.domain = d → d.v = true → d.vec ≠ 0 →
        ∃ x, exec (.waveReenter p v) s = .next (s1.updWave wid (fun _ => x))
          ∧ x = { w with threads := x.threads, cause := x.cause, epc := w.epc0, b := x.b, frozen := false, park := .no, pend := .none,
                         pends := w.pends.filter (fun p => p.lvl ≤ 2 * w.gates.length) }
          ∧ x.inh = true ∧ fieldOf x.cause 15 8 = 0 ∧ fieldOf x.cause 7 0 = fieldOf w.cause 7 0
          ∧ (∀ l, x.thread l = if (w.thread l).exited then w.thread l else { w.thread l with guard := none, pc := d.vec }))
      ∧ (w.halted = true → exec (.waveReenter p v) s = .next s1)
      ∧ (∃ x y, exec (.waveResume p v) s = .next (s1.updWave wid (fun _ => x)) ∧ Returned w y
          ∧ x = { y with cause := x.cause, frozen := false, halted := false, pend := .none,
                         pends := w.pends.filter (fun p => p.lvl ≤ 2 * w.gates.length) }
          ∧ fieldOf x.cause 15 8 = 0 ∧ fieldOf x.cause 7 0 = fieldOf w.cause 7 0 ∧ x.inh = false)
      ∧ exec (.waveKill p v) s = .next (s1.killLaunch wid))

/-- R167, R168, R378: what SRD reads from each special register of the wave, the team, the grid, the core and its hob; that of a thread
goes into a v register of every thread that has not exited. A privileged one outside a system domain is PRIVILEGED, a number that R167
does not list, and sr.inject outside test mode, ILLEGAL_OP. -/
def Obligations.SpecialRegisterReads : Prop :=
  ∀ (s : State) (wid : Nat) (w : Wave) (t : Team) (g : Grid) (d : SReg) (hi : Bool),
    Tbl.find s.teams w.team = some t → Tbl.find s.grids t.grid = some g →
    let h := s.hob (hobOf t.core)
    let r := g.lrec
    let reads := fun (n : Fin 512) (x : DWord) => exec (.srd n false d) s = .next (s.updWave wid (fun _ => (w.setS d.val x).pass 4))
    let num := fun (n : Fin 512) (x : Nat) => reads n (BitVec.ofNat 64 x)
    let dims := fun (x y z : Nat) => BitVec.ofNat 8 0 ++ BitVec.ofNat 16 z ++ BitVec.ofNat 16 y ++ BitVec.ofNat 24 x
    (UniReady s wid w [d.val] [] [] →
      num 0x001 w.w ∧ reads 0x002 (dims (t.index % r.gx) (t.index / r.gx % r.gy) (t.index / r.gx / r.gy)) ∧ num 0x003 (t.grid % 2 ^ 32)
      ∧ reads 0x004 (dims (r.gx - 1) (r.gy - 1) (r.gz - 1)) ∧ num 0x005 r.waves ∧ num 0x006 g.depth
      ∧ num 0x008 t.core ∧ num 0x009 (clusterOf t.core) ∧ num 0x00A (dieOf t.core) ∧ reads 0x00B ((s.dev.fabId.truncate 10).zeroExtend 64)
      ∧ num 0x010 h.clk ∧ num 0x011 (h.clkn / 65536) ∧ num 0x012 s.reft
      ∧ reads 0x018 (w.cause.zeroExtend 64) ∧ reads 0x019 w.epc ∧ reads 0x01A w.faddr
      ∧ reads 0x020 (bitsBy 64 (fun i => decide (r.tagBase ≤ i ∧ i < r.tagBase + r.tagCount) && s.tagOf w.team i == .set))
      ∧ num 0x021 t.stage ∧ reads 0x028 (w.fmode.zeroExtend 64) ∧ reads 0x029 w.rngkey
      ∧ (s.privileged wid = true → num 0x100 (bnat h.relockEnd.isSome * 256 + h.opStep * 16 + h.step)
        ∧ num 0x101 (bnat h.throttled * 256 + (h.throttle.getD 15) * 16 + h.ceil)
        ∧ num 0x102 ((s.allowance (hobOf t.core) - h.charge) / 1000)
        ∧ (s.dev.testMode = true → reads 0x1F0 (s.core t.core).inject))
      ∧ (s.privileged wid = false → ∀ n ∈ [0x100, 0x101, 0x102, 0x1F0], (n = 0x1F0 → s.dev.testMode = true) →
        UniTraps (.srd n false d) s wid w 0x11)
      ∧ (s.dev.testMode = false → UniTraps (.srd 0x1F0 false d) s wid w 0x10)
      ∧ (∀ n, n ∉ [0x000, 0x001, 0x002, 0x003, 0x004, 0x005, 0x006, 0x008, 0x009, 0x00A, 0x00B, 0x010, 0x011, 0x012, 0x018, 0x019, 0x01A,
          0x020, 0x021, 0x028, 0x029, 0x100, 0x101, 0x102, 0x1F0] → UniTraps (.srd n false d) s wid w 0x10)
      ∧ (∀ n, n ≠ 0 → UniTraps (.srd n true d) s wid w 0x10))
    ∧ (UniReady s wid w [] [d.val + 64 * bnat hi] [d.val + 64 * bnat hi] →
      ∃ x, exec (.srd 0 hi d) s = .next (s.updWave wid (fun _ => { w with v := x }.pass 4))
        ∧ ∀ l q, q < 128 → { w with v := x }.vreg l q = if q = d.val + 64 * bnat hi ∧ (w.thread l).exited = false
            then BitVec.ofNat 32 (if s.prot wid then l / 2 else l) else w.vreg l q)

/-- R378, R258, R168: what SWR writes; a register that is read only, a number that R167 does not list, a value with a reserved bit and a
rounding mode above 3 are ILLEGAL_OP; nothing else changes. -/
def Obligations.SpecialRegisterWrites : Prop :=
  ∀ (s : State) (wid : Nat) (w : Wave) (a : SReg), UniIssued s wid w →
    let v := w.sreg a.val
    let writes := fun (n : Fin 512) (x : Wave) => exec (.swr n a) s = .next (s.updWave wid (fun _ => x.pass 4))
    (fieldOf v 23 19 = 0 ∧ fieldOf v 63 32 = 0 → ∃ c, writes 0x018 { w with cause := c } ∧ fieldOf c 31 24 = fieldOf v 31 24
      ∧ fieldOf c 23 16 = fieldOf w.cause 23 16 ∧ fieldOf c 15 0 = fieldOf v 15 0)
    ∧ (fieldOf v 23 19 ≠ 0 ∨ fieldOf v 63 32 ≠ 0 → UniTraps (.swr 0x018 a) s wid w 0x10)
    ∧ writes 0x019 { w with epc := v }
    ∧ (fieldOf v 63 21 = 0 ∧ fieldOf v 15 13 = 0 ∧ fieldOf v 7 3 = 0 ∧ fieldOf v 2 0 < 4 → writes 0x028 { w with fmode := v.truncate 32 })
    ∧ (fieldOf v 63 21 ≠ 0 ∨ fieldOf v 15 13 ≠ 0 ∨ fieldOf v 7 3 ≠ 0 ∨ 4 ≤ fieldOf v 2 0 → UniTraps (.swr 0x028 a) s wid w 0x10)
    ∧ writes 0x029 { w with rngkey := v }
    ∧ (s.dev.testMode = true → fieldOf v 62 20 = 0 → fieldOf v 5 5 = 0 → s.privileged wid = true →
        exec (.swr 0x1F0 a) s = .next ((s.updCore (s.coreOf wid) (fun k => { k with inject := v })).updWave wid (fun _ => w.pass 4)))
    ∧ (s.dev.testMode = true → fieldOf v 62 20 = 0 → fieldOf v 5 5 = 0 → s.privileged wid = false → UniTraps (.swr 0x1F0 a) s wid w 0x11)
    ∧ (s.dev.testMode = false ∨ fieldOf v 62 20 ≠ 0 ∨ fieldOf v 5 5 ≠ 0 → UniTraps (.swr 0x1F0 a) s wid w 0x10)
    ∧ ∀ n, n ∉ [0x018, 0x019, 0x028, 0x029, 0x1F0] → UniTraps (.swr n a) s wid w 0x10

/-- R379, R189: IPF, IPIN and IUNP complete, whatever the range; a line whose translation is not valid or lacks X is skipped. At the L1I, IPF brings in
each line of the range where there is room, IPIN the same, and pins it for the grid of the wave as long as fewer than 256 lines (32 KiB) are pinned, in
ascending order; IUNP takes the pins of the grid from the lines of the range, and every other pin and every line stays. At the L2, a line for which a way
of the class mask is free or holds no pinned line is there afterwards, IPIN pins it where at most one line of its set is pinned before, and IUNP takes
away the pins of the grid on the lines of the range and no other. Nothing else changes: pinned lines stay in the instruction cache, and the other level
is as it was. That a line which a later line of the range could replace is left out, is what the choice of the device leaves (LE 8). -/
def Obligations.InstructionPinning : Prop :=
  ∀ (s : State) (wid : Nat) (w : Wave) (lines : Fin 4096) (a : SReg), UniIssued s wid w →
    let c := s.coreOf wid
    let p := s.partOf wid
    let grid := s.gridIdOf wid
    let range := linesFrom (w.sreg a.val).toNat (lines.val + 1)
    let at_ := fun (pc : Nat) => s.fetchPa c p w.asid pc
    let done := fun (i : Instr) (t : State) => exec i s = .next (t.updWave wid (fun w => w.pass 4)) ∧ t = { s with
        cores := t.cores, l2pins := t.l2pins, fresh := t.fresh, l2 := t.l2, peerWays := t.peerWays, stamps := t.stamps, sliceStamps := t.sliceStamps }
      ∧ t.core c = { s.core c with icache := (t.core c).icache } ∧ ∀ k, k ≠ c → t.core k = s.core k
    let old := (s.core c).icache
    let is := fun (x : ILine) (pc pa : Nat) => x.part = p ∧ x.asid = w.asid ∧ x.line = pc / 128 ∧ x.pa = pa / 128 * 128
    let new := fun (y : ILine) => ∃ pc ∈ range, ∃ pa, at_ pc = some pa ∧ is y pc pa ∧ y.bytes = s.bytesAt y.pa 128
    let there := fun (t : State) (pc pa : Nat) => ∃ y ∈ (t.core c).icache, is y pc pa
    let apart := (old.map (fun x => (x.part, x.asid, x.line, x.pa))).Nodup
    let mask := fun (pa : Nat) => s.classWays p (s.clsOf wid) pa
    let alone := fun (pc pa : Nat) => ∀ q ∈ range, q ≠ pc → ∀ b, at_ q = some b → State.sameSet (b / 128) (pa / 128) = false
    let free := fun (pa : Nat) => ∃ k, k < 16 ∧ bitOf (mask pa) k = true ∧ ∀ x ∈ s.l2, x.die = homeDie pa → State.sameSet x.line (pa / 128) = true →
      x.way = k → x.chip = none → ∀ e ∈ s.l2pins, e.2 ≠ x.line
    let inL2 := fun (t : State) (pa : Nat) => ∃ x ∈ t.l2, x.die = homeDie pa ∧ x.chip = none ∧ x.line = pa / 128
    (∃ t, done (.ipf false lines a) t ∧ t.l2pins = s.l2pins ∧ (∀ x ∈ old, x.pins ≠ [] → x ∈ (t.core c).icache)
      ∧ (∀ y ∈ (t.core c).icache, y ∈ old ∨ (new y ∧ y.pins = []))
      ∧ (old.length + lines.val + 1 ≤ 512 ∨ (lines.val = 0 ∧ ∃ x ∈ old, x.pins = []) →
        ∀ pc ∈ range, ∀ pa, at_ pc = some pa → s.poisoned pa 1 = false → there t pc pa))
    ∧ (∃ t, done (.ipf true lines a) t ∧ t.l2pins = s.l2pins ∧ t.core c = s.core c
      ∧ ∀ pc ∈ range, ∀ pa, at_ pc = some pa → alone pc pa → free pa → inL2 t pa)
    ∧ (∃ t, done (.ipin false lines a) t ∧ t.l2pins = s.l2pins
      ∧ (∀ x ∈ old, x.pins ≠ [] → ∃ y ∈ (t.core c).icache, y = { x with pins := y.pins } ∧ ∀ g ∈ x.pins, g ∈ y.pins)
      ∧ (∀ y ∈ (t.core c).icache, (∃ x ∈ old, y = { x with pins := y.pins } ∧ ∀ g ∈ y.pins, g ∈ x.pins ∨ (g = grid ∧ ∃ pc ∈ range, y.line = pc / 128))
        ∨ (new y ∧ ∀ g ∈ y.pins, g = grid))
      ∧ (apart → ∀ k pc pa, range[k]? = some pc → at_ pc = some pa → s.poisoned pa 1 = false → (s.core c).pinnedLines + k < 256 →
        ∃ y ∈ (t.core c).icache, is y pc pa ∧ grid ∈ y.pins)
      ∧ (apart → (t.core c).pinnedLines ≤ max 256 (s.core c).pinnedLines))
    ∧ (∃ t, done (.ipin true lines a) t ∧ t.core c = s.core c ∧ (∀ e ∈ s.l2pins, e ∈ t.l2pins)
      ∧ (∀ e ∈ t.l2pins, e ∈ s.l2pins ∨ (e.1 = grid ∧ ∃ pc ∈ range, ∃ pa, at_ pc = some pa ∧ e.2 = pa / 128))
      ∧ ∀ pc ∈ range, ∀ pa, at_ pc = some pa → alone pc pa → free pa → inL2 t pa
        ∧ ((∀ x ∈ s.l2, x.die = homeDie pa → x.chip = none → x.line = pa / 128 → bitOf (mask pa) x.way = true) →
          (∃ z, ∀ e ∈ s.l2pins, homeDie (e.2 * 128) = homeDie pa → State.sameSet e.2 (pa / 128) = true → e.2 = z) → (grid, pa / 128) ∈ t.l2pins))
    ∧ (∃ t, done (.iunp false lines a) t ∧ t = { s with cores := t.cores } ∧ (t.core c).icache = old.map (fun x =>
        if x.part = p ∧ x.asid = w.asid ∧ ∃ pc ∈ range, (at_ pc).isSome ∧ x.line = pc / 128 then { x with pins := x.pins.filter (fun g => g ≠ grid) } else x))
    ∧ ∃ t, done (.iunp true lines a) t ∧ t = { s with l2pins := t.l2pins }
      ∧ ∀ e, e ∈ t.l2pins ↔ e ∈ s.l2pins ∧ ¬ (e.1 = grid ∧ ∃ pc ∈ range, ∃ pa, at_ pc = some pa ∧ e.2 = pa / 128)

/-- R230, R231, R371: RGNE records its PC, the mask in s(sa) and s(sa + 1), the guards and the threads that have not exited; with a region
open it is REGION_NEST, in the handler ILLEGAL_OP. RGNL closes the region once the jobs that the wave issued in it have ended, and waits
before that; with none open it is REGION_NEST. -/
def Obligations.Regions : Prop :=
  ∀ (s : State) (wid : Nat) (w : Wave) (a : SReg), UniIssued s wid w →
    (w.inh = false → w.region = none → exec (.rgne a) s = .next (s.updWave wid (fun _ => Wave.pass { w with region := some ⟨
        w.gates.length, w.at_, w.sreg (a.val + 1) ++ w.sreg a.val, w.threads.map (fun t => t.guard),
        w.threads.map (fun t => !t.exited)⟩ } 4)))
    ∧ (w.inh = true → UniTraps (.rgne a) s wid w 0x10) ∧ (w.inh = false → w.region ≠ none → UniTraps (.rgne a) s wid w 0x63)
    ∧ (w.region ≠ none → (∀ e ∈ s.jobs, e.2.wid = some wid → e.2.inRegion = true → e.2.sched = true) →
      exec .rgnl s = .next (s.updWave wid (fun _ => { w with region := none }.pass 4)))
    ∧ (w.region ≠ none → (∃ e ∈ s.jobs, e.2.wid = some wid ∧ e.2.inRegion = true ∧ e.2.sched = false) →
      exec .rgnl s = .next (s.updWave wid (fun _ => { w with park := .poll (.jobs true) })))
    ∧ (w.region = none → UniTraps .rgnl s wid w 0x63)

/-- R235, R238, R239, R240, R372: GCALL through a gate that is valid and permits it, below depth 3 and outside a region: the pass window
stays, hidden registers read as 0, b0 and b1 are tagged, the wave runs unguarded at ENTRY in the gate's domain and ASID under its budget;
the checks in ascending code order; GRET returns what the call kept, with s0[63] cleared, and its two traps; GATE_TIMEOUT arises for each
call of the wave whose budget is used up, and an abort is due 4,096 core cycles later. What an earlier call copied comes back first (`refillAll`), for
whoever owns it, and the call state goes to the gate frame and comes back from it (GateRoundTrip says how) in the order that the model gives its bytes
(LE 16). That the budgets and abort clocks of outer calls run on, and
that one which is out aborts the innermost call first, is read from the rules (LE 34). -/
def Obligations.GateCalls : Prop :=
  ∀ (s : State) (wid : Nat) (w : Wave) (g : Fin 4096) (e : GateEntry), UniIssued s wid w →
    let p := s.partOf wid
    let ok := e.v = true ∧ (s.domainEntry p e.domain).v = true
    let may := (if s.clsOf wid = .g then e.gOk else e.hOk) = true ∧ bitOf e.permit w.domain = true
    let deep := w.gates.length = 3 ∨ ∃ f ∈ w.gates, f.g = g.val
    let bare := fun (f : Gate) => { f with v := [] }
    let filled := fun (u : Wave) => Tbl.find (s.refillAll wid).waves wid = some u ∧ u = { w with v := u.v, refill := [], gates := u.gates }
      ∧ u.gates.map bare = w.gates.map bare ∧ (w.refill = [] → s.refillAll wid = s ∧ u = w)
      ∧ ∀ l r, r < 128 → (∀ y ∈ w.refill, y.1 ≠ r / 64) → u.vreg l r = w.vreg l r
    (s.gateEntry p g.val = e →
      (ok → may → ¬ deep → w.guarded = false → ∃ u x, filled u
        ∧ exec (.gcall g) s = .next ((((s.refillAll wid).updWave wid (fun _ => x)).saveCall wid).armGate wid)
        ∧ x = { w with s := x.s, p := x.p, b := x.b, v := x.v, gates := x.gates, domain := e.domain, asid := e.asid,
                       budget := x.budget, abortAt := none, threads := x.threads, refill := [] }
        ∧ (∀ r, x.sreg r = if r < 16 then w.sreg r else 0) ∧ (∀ l r, r < 127 → x.preg l r = if r < 8 then w.preg l r else false)
        ∧ (e.vwin < 32 → ∀ l r, r < 128 → x.vreg l r = if r ≤ e.vwin then u.vreg l r else 0)
        ∧ (∀ r, x.breg r = if r < 2 then tagRecord (w.breg r) w.asid else 0)
        ∧ x.budget.map (fun b => b.1) = (if e.budget = 0 then none else some e.budget)
        ∧ (∃ f, x.gates = f :: u.gates ∧ f.g = g.val ∧ f.pc = w.at_ ∧ f.domain = w.domain ∧ f.asid = w.asid ∧ f.vwin = e.vwin
            ∧ f.frame = e.stack + (s.coreOf wid * 32 + w.slot) * 32768 ∧ f.fasid = e.asid ∧ f.owned = []
            ∧ f.budget = w.budget ∧ f.abort_ = w.abortAt)
        ∧ ∀ l, x.thread l = if (w.thread l).exited then w.thread l else { w.thread l with guard := none, pc := e.entry })
      ∧ (¬ ok → UniTraps (.gcall g) s wid w 0x50) ∧ (ok → ¬ may → UniTraps (.gcall g) s wid w 0x51)
      ∧ (ok → may → deep → UniTraps (.gcall g) s wid w 0x52) ∧ (ok → may → ¬ deep → w.guarded = true → UniTraps (.gcall g) s wid w 0x63))
    ∧ (w.gates = [] → UniTraps .gret s wid w 0x10) ∧ (w.gates ≠ [] → w.guarded = true → UniTraps .gret s wid w 0x63)
    ∧ (w.gates ≠ [] → w.guarded = false → ∃ u x y, filled u ∧ exec .gret s = .next (((s.refillAll wid).updWave wid (fun _ => x)).armGate wid)
        ∧ y = Wave.popGate { u with gates := u.gates.modifyHead ((s.refillAll wid).frameBack p) }
        ∧ x.sreg 0 = w.sreg 0 &&& 0x7FFFFFFFFFFFFFFF ∧ (∀ r, r ≠ 0 → x.sreg r = y.sreg r) ∧ x = { y with s := x.s })
    ∧ ∀ core slot, s.waveAt core slot = some (wid, w) → s.running = true → s.asleep core = false →
      let out := fun (b : Option (Nat × Nat)) => ∃ k n, b = some (k, n) ∧ k ≤ s.clkOf wid - n
      ((out w.budget ∨ ∃ f ∈ w.gates, out f.budget) → ∃ x, exec (.gateTimeout core slot) s = .next ((s.updWave wid (fun _ => x)).armGate wid)
        ∧ x = { w with budget := x.budget, abortAt := x.abortAt, gates := x.gates, async := x.async }
        ∧ (out w.budget → x.budget = none ∧ x.abortAt = some (4096, s.clkOf wid) ∧ (0x53, w.gates.length) ∈ x.async)
        ∧ (¬ out w.budget → x.budget = w.budget ∧ x.abortAt = w.abortAt) ∧ (∀ a ∈ w.async, a ∈ x.async) ∧ x.gates.length = w.gates.length
        ∧ ∀ k f, w.gates[k]? = some f →
          (out f.budget → x.gates[k]? = some { f with budget := none, abort_ := some (4096, s.clkOf wid) }
            ∧ (0x53, w.gates.length - 1 - k) ∈ x.async)
          ∧ (¬ out f.budget → x.gates[k]? = some f))
      ∧ ((out w.abortAt ∨ ∃ f ∈ w.gates, out f.abort_) → exec (.gateAbortTimeout core slot) s = .next (s.abortGate wid 0x53))

/-- R235, R236, R238: a call keeps the caller's hidden s, p and b registers in its frame at 0x4000 and its call state at 0x5000, and GRET, where those
bytes stand there still, gives the caller its hidden registers, records, guards, domain and ASID back from them, whatever the callee has done to its own
registers, with the callee's values in the pass window, bit 63 of s0 cleared, and every thread that has not exited after the GCALL. The hidden v
registers of a slab that the callee came to own, so that they went to the frame, come back from there: the slab waits for that. The order of the bytes
in the frame is the model's (LE 16). -/
def Obligations.GateRoundTrip : Prop :=
  (∀ (s : State) (wid pa : Nat) (w : Wave) (f : Gate) (m : Bool), Tbl.find s.waves wid = some w → w.gates.head? = some f →
    let place := fun (t : State) (off : Nat) => t.framePlace (t.partOf wid) f.fasid (f.frame + off)
    let left := (f.budget.map (fun b => b.1 - (s.clkOf wid - b.2))).getD 0
    place s 0x4000 = some (pa, m) → place (s.toGateFrame wid f.fasid (f.frame + 0x4000) f.hiddenBytes) 0x5000 = some (pa + 0x1000, m) →
    pa + 0x2000 ≤ hbmEnd →
    ((Tbl.find s.grids (s.gridIdOf wid)).bind (fun g => Tbl.find s.grids g.root)).map (fun g => g.lrec.replay) ≠ some true →
    f.guards.length ≤ 32 →
      (s.saveCall wid).bytesAt pa f.hiddenBytes.length = f.hiddenBytes
      ∧ (s.saveCall wid).bytesAt (pa + 0x1000) (f.callBytes left).length = f.callBytes left)
  ∧ ∀ (s : State) (wid pa left : Nat) (m : Bool) (w y : Wave) (core g clk : Nat) (e : GateEntry) (o : List (Nat × Bool)) (bud abt : Option (Nat × Nat)),
    UniIssued s wid y → y.guarded = false → y.refill = [] →
    15 ≤ e.vwin → e.vwin < 32 → w.at_ < 2 ^ 64 → w.domain < 256 → w.asid < 4096 → w.threads.length ≤ 32 → y.threads.length = w.threads.length →
    let frame := e.stack + (core * 32 + w.slot) * 32768
    let inFrame := fun (r : Nat) => o.contains (r / 64, true)
    let made := (w.pushGate core g clk e).gates
    y.gates = made.modifyHead (fun f => { f with owned := o, v := f.v.filter (fun c => !inFrame (c.1 % 128)), budget := bud, abort_ := abt }) →
    s.framePlace (s.partOf wid) e.asid (frame + 0x4000) = some (pa, m) →
    (∀ f, made.head? = some f → s.bytesAt pa f.hiddenBytes.length = f.hiddenBytes
      ∧ s.bytesAt (pa + 0x1000) (f.callBytes left).length = f.callBytes left) →
    ∃ x, exec .gret s = .next ((s.updWave wid (fun _ => x)).armGate wid)
      ∧ x.gates = w.gates ∧ x.domain = w.domain ∧ x.asid = w.asid ∧ x.inh = false ∧ x.budget = bud ∧ x.abortAt = abt
      ∧ (∀ r, r < 64 → x.sreg r = if r = 0 then y.sreg 0 &&& 0x7FFFFFFFFFFFFFFF else if r < 16 then y.sreg r else w.sreg r)
      ∧ (∀ l r, l < 32 → r < 127 → x.preg l r = if r < 8 then y.preg l r else w.preg l r)
      ∧ (∀ l r, r < 128 → (r ≤ e.vwin → x.vreg l r = y.vreg l r) ∧ (e.vwin < r → inFrame r = false → x.vreg l r = w.vreg l r))
      ∧ (∀ k, (k, true) ∈ o → (k, e.vwin, e.asid, frame + k * 0x2000) ∈ x.refill)
      ∧ (∀ r, r < 16 → x.breg r = w.breg r)
      ∧ ∀ l, x.thread l = if (y.thread l).exited then y.thread l else { y.thread l with pc := w.at_ + 4, guard := (w.thread l).guard }

/-! ## Lane memory instructions -/

/-- R172, R322, R323, R324: LD, LDS, LDC and LDQ, in HBM and the scratchpads of this chip (WindowAccesses has the windows), give each thread whose
guard is true the bytes at its address, zero-extended, in its register block, zeros where the lane is dropped; no byte of HBM or of a scratchpad changes. LD reads a copy where the core or the die has
one (`Fresh`: it holds what the home holds); LDQ goes to the home, and with acquire at cluster scope or wider invalidates the L1.
R325: PRF completes in every lane, whatever its address, and no byte of HBM or of a scratchpad and no register changes: what changes is what
the caches hold, and, where a lane names the peer window, what has been asked of other chips. -/
def Obligations.LoadsAndPrefetch : Prop :=
  (∀ (W : Width) (hint : Fin 4) (pair acq : Bool) (sc : Scope) (d o : VReg) (n : BReg) (s : State) (g : Group),
     let loads := fun (i : Instr) (spaces : List Nat) (width : Nat) (cached : Bool) (more : State → Prop) =>
       let dst := block d.val (if width ≤ 4 then 1 else width / 4)
       let spot := spotOf s spaces .read width n.val
       i.wf = true → MemReady s g (o.val :: dst) dst width o.val true spot →
       (cached = true → ∀ m ∈ actsOf s g, ∀ pa, spot m.1 m.2.2 (m.2.2.vreg m.2.1 o.val).toNat = some (.hbm pa) → Fresh s m.1 pa) →
       ∃ t, exec i s = .next t ∧ MemDone s t g (fun wid w l => .ofV (blockOfBytes d.val width (match spot wid w (w.vreg l o.val).toNat with
           | some p => s.spotBytes p width
           | none => [])))
         ∧ (∀ p, t.byteOf p = s.byteOf p) ∧ more t
     loads (.ld W hint d n o) [0] W.bytes true (fun _ => True)
     ∧ loads (.lds W d n o) [1] W.bytes false (fun _ => True) ∧ loads (.ldc W d n o) [2] W.bytes false (fun _ => True)
     ∧ loads (.ldq pair acq sc d n o) [0] (if pair then 8 else 4) false
         (fun t => acq = true → 2 ≤ sc.code → ∀ m ∈ g.mem, (t.core (s.coreOf m.1)).l1 = []))
  ∧ (∀ (l2 : Bool) (n : BReg) (o : VReg) (s : State) (g : Group), (Instr.prf l2 n o).wf = true → LaneReady s g [o.val] [] →
       ∃ t, exec (.prf l2 n o) s = .next t ∧ (∀ p, t.byteOf p = s.byteOf p)
         ∧ (∀ wid w, Tbl.find s.waves wid = some w → ∃ x, Tbl.find t.waves wid = some x ∧ WaveDone g wid 4 (fun _ => {}) w x)
         ∧ t = { s with waves := t.waves, cores := t.cores, l2 := t.l2, peerWays := t.peerWays, stamps := t.stamps, sliceStamps := t.sliceStamps,
                        fresh := t.fresh, nextId := t.nextId, outbox := t.outbox, agenda := t.agenda,
                        fab := { s.fab with reads := t.fab.reads, leases := t.fab.leases, flits := t.fab.flits, prefetches := t.fab.prefetches } }
         ∧ (∀ c, t.core c = { s.core c with l1 := (t.core c).l1 })
         ∧ ((∀ m ∈ actsOf s g, Rcd.space (m.2.2.breg n.val) ≠ 3) → t.outbox = s.outbox ∧ t.agenda = s.agenda ∧ t.fab = s.fab ∧ t.nextId = s.nextId))

/-- R172, R175, R322, R323, R324: ST, STS, STC and STQ, in HBM and the scratchpads of this chip and in launches that are neither protected nor
replayed nor mirrored (WindowAccesses has the others), store the low bytes of each register block at the lane's address; where lanes name
the same byte the highest lane's stays; a dropped lane stores nothing; every other byte of HBM and of the scratchpads, and every
register, is as it was. STQ with release stores once its release is complete (R212). The bytes that a rise of the high-water mark zeroes (R113) are
zero before (`ScratchZero`). -/
def Obligations.Stores : Prop :=
  ∀ (W : Width) (hint : Fin 4) (pair rel : Bool) (sc : Scope) (v o : VReg) (n : BReg) (s : State) (g : Group),
    let stores := fun (i : Instr) (spaces : List Nat) (width : Nat) =>
      let src := block v.val (if width ≤ 4 then 1 else width / 4)
      let spot := spotOf s spaces .write width n.val
      i.wf = true → MemReady s g (o.val :: src) [] width o.val false spot → (spaces ≠ [0] → ∀ m ∈ g.mem, ScratchZero s m.1) →
      ∃ t, exec i s = .next t ∧ MemDone s t g (fun _ _ _ => {}) ∧ ∀ p, p ≠ .drop → t.byteOf p = byteAfter ((actsOf s g).map (fun m =>
        ((spot m.1 m.2.2 (m.2.2.vreg m.2.1 o.val).toNat).getD .drop, m.2.2.blockBytes m.2.1 v.val width))) p (s.byteOf p)
    stores (.st W hint v n o) [0] W.bytes ∧ stores (.sts W v n o) [1] W.bytes ∧ stores (.stc W v n o) [2] W.bytes
    ∧ ((rel = true → ∀ m ∈ g.mem, s.release m.1 sc = (true, s)) → stores (.stq pair rel sc v n o) [0] (if pair then 8 else 4))

/-- R175, R326: ATOM, ACAS and AFADD in HBM and in scratchpads of this chip, in launches that are neither protected nor replayed nor mirrored
(WindowAccesses has the others), once the release before them is complete (R212): lane after lane in
ascending order, each returns what it found and leaves the new value; a dropped lane returns 0; all other bytes and registers are as they
were. -/
def Obligations.Atomics : Prop :=
  ∀ (op : AtomOp) (pair : Bool) (ty : AddType) (sc : Scope) (d o : VReg) (n : BReg) (s : State) (g : Group),
    let atomic := fun (i : Instr) (wide : Bool) (regs : List Nat) (f : Wave → Nat → Nat → Nat) =>
      let width := if wide then 8 else 4
      let spot := fun wid w idx => match spotOf s [0, 1, 2] .atomic width n.val wid w idx with
        | some (.scratch c off) => if sc.code ≤ 2 then some (.scratch c off) else none
        | x => x
      i.wf = true → MemReady s g (o.val :: regs) (regsOf wide d) width o.val true spot →
      (∀ m ∈ g.mem, s.release m.1 sc = (true, s) ∧ ∀ w, Tbl.find s.waves m.1 = some w → w.guarded = false) → (∀ m ∈ g.mem, ScratchZero s m.1) →
      let run := rmwRun width s.byteOf ((actsOf s g).map (fun m =>
        ((m.1, m.2.1), (spot m.1 m.2.2 (m.2.2.vreg m.2.1 o.val).toNat).getD .drop, f m.2.2 m.2.1)))
      ∃ t, exec i s = .next t ∧ (∀ p, p ≠ .drop → t.byteOf p = run.2 p)
        ∧ MemDone s t g (fun wid _ l => .ofV (vwrite wide d.val (foundBy run.1 wid l)))
    atomic (.atom op pair sc d n o) pair (regsOf pair d) (fun w l old =>
      let arg := if pair then (w.vpair l d.val).toNat else (w.vreg l d.val).toNat
      match op with
      | .add => (old + arg) % (if pair then 2 ^ 64 else 2 ^ 32)
      | .min => min old arg
      | .max => max old arg
      | .and => old &&& arg
      | .or => old ||| arg
      | .xor => old ^^^ arg
      | .xchg => arg)
    ∧ atomic (.acas pair sc d n o) pair (block d.val (if pair then 4 else 2)) (fun w l old =>
      if pair then (if old = (w.vpair l d.val).toNat then (w.vpair l (d.val + 2)).toNat else old)
      else (if old = (w.vreg l d.val).toNat then (w.vreg l (d.val + 1)).toNat else old))
    ∧ atomic (.afadd ty sc d n o) (ty == .f64) (regsOf (ty == .f64) d) (fun w l old =>
      faddNew ty old (if ty = .f64 then (w.vpair l d.val).toNat else (w.vreg l d.val).toNat))

/-- R268, R269, R327: XACC adds each lane's value into the exact cell at its address, lane after lane; XRD gives each thread the cell
rounded, +0 where the lane is dropped, and with clear zeroes it; all other bytes and registers are as they were. -/
def Obligations.ExactCells : Prop :=
  ∀ (ty : CellType) (pair clr : Bool) (v o : VReg) (n : BReg) (s : State) (g : Group),
    let cells := fun (i : Instr) (right : Right) (regs dst : List Nat) (f : Wave → Nat → Nat → Nat)
        (e : List ((Nat × Nat) × Nat) → Nat → Nat → LaneRes) =>
      let spot := cellSpot s right n.val
      i.wf = true → MemReady s g (o.val :: regs) dst 64 o.val true spot →
      (right = .atomic → ∀ m ∈ g.mem, ∀ w, Tbl.find s.waves m.1 = some w → w.guarded = false) →
      let run := rmwRun 64 s.byteOf ((actsOf s g).map (fun m =>
        ((m.1, m.2.1), (spot m.1 m.2.2 (m.2.2.vreg m.2.1 o.val).toNat).getD .drop, f m.2.2 m.2.1)))
      ∃ t, exec i s = .next t ∧ (∀ p, p ≠ .drop → t.byteOf p = run.2 p) ∧ MemDone s t g (fun wid _ l => e run.1 wid l)
    let cell := fun (x : Nat) => Cell.ofBytes (natBytes 64 x)
    cells (.xacc ty v n o) .atomic (regsOf (ty == .f64) v) [] (fun w l old =>
      let arg := if ty = .f64 then (w.vpair l v.val).toNat else (w.vreg l v.val).toNat
      bytesNat ((cell old).add (ty.fmt.decode (arg % 2 ^ ty.fmt.bits))).bytes) (fun _ _ _ => {})
    ∧ cells (.xrd pair clr v n o) (if clr then .atomic else .read) (regsOf pair v) (regsOf pair v) (fun _ _ old => if clr then 0 else old)
      (fun r wid l => .ofV (vwrite pair v.val ((cell (foundBy r wid l)).read (if pair then .f64 else .f32))))

/-- R195, R196, R197: an access of one thread to a page without a valid entry, while the fault queue has room. A load performs nothing, waits for
the page and leaves its thread where it stands; a store retires into its core's side log and its thread moves on. Either writes one record
of 32 bytes at FQ_TAIL, which advances, with core, issue count, address, ASID, lane, slot, KIND and level. -/
def Obligations.PageFaults : Prop :=
  ∀ (W : Width) (hint : Fin 4) (v o : VReg) (n : BReg) (s : State) (g : Group) (wid l : Nat) (w : Wave) (va level : Nat),
    let blk := block v.val (if W.bytes ≤ 4 then 1 else W.bytes / 4)
    let p := s.partOf wid
    let c := s.coreOf wid
    let asid := State.asidOf w (w.breg n.val)
    let q := (s.part p).fq
    let faults := fun (right : Right) => laneAddress (w.breg n.val) (w.vreg l o.val).toNat W.bytes = .at_ va
      ∧ State.recAllows (w.breg n.val) right = true ∧ Rcd.space (w.breg n.val) = 0 ∧ s.reach (some c) p asid va false right = .fault level
    let recorded := fun (t : State) (kind : Nat) => (t.part p).fq = { q with tail := q.tail + 1 } ∧ (q.slotPa + 32 ≤ hbmEnd →
      t.bytesAt q.slotPa 32 = natBytes 8 (c * 2 ^ 55 + w.issueId) ++ natBytes 8 va ++ natBytes 2 asid
        ++ [BitVec.ofNat 8 (s.laneId wid l), BitVec.ofNat 8 w.slot, BitVec.ofNat 8 kind, BitVec.ofNat 8 level] ++ natBytes 10 0)
    g.mem = [(wid, l)] → Tbl.find s.waves wid = some w → w.guardOn l = true → (w.thread l).pc = g.pc → PlainWave s wid → q.enabled = true → 0 < q.room →
    ((Instr.ld W hint v n o).wf = true → LaneReady s g (o.val :: blk) blk → faults .read → ∃ t, exec (.ld W hint v n o) s = .next t
      ∧ recorded t 0 ∧ Tbl.find t.waves wid = some { w with pend := { w.pend with
          pc := g.pc, again := true, pages := [⟨asid, va / 65536, s.laneId wid l, va, 0, w.issueId, false, false⟩] } })
    ∧ ((Instr.st W hint v n o).wf = true → LaneReady s g (o.val :: blk) [] → faults .write → s.logUsed c < 64 →
      ∃ t, exec (.st W hint v n o) s = .next t ∧ recorded t 1
        ∧ (∃ x, Tbl.find t.waves wid = some x ∧ WaveDone g wid 4 (fun _ => {}) { w with pend := .none } x)
        ∧ (t.core c).sideLog = (s.core c).sideLog ++ [⟨wid, asid, va / 65536, false, s.laneId wid l, va, w.gates.length, w.issueId, false, none, none, [],
            [.store va (w.blockBytes l v.val W.bytes) none hint.val]⟩])

/-- R82, R401, R174, R51, R57: accesses of one thread outside the HBM of this chip. A load of 4 or 8 bytes of its virtual device's register window reads the
register; a store to it is a register write that stands on the agenda for this very tick. A store to the host window writes host memory at once; a
load from it waits for its completion: when it is tried again with that there it gives the bytes, and if the timeout comes before, it is
MACHINE_CHECK with an event-log record. Through the peer window, a load without a lease of its export page asks for one and waits; with one, and
where the line is in no copy, it sends a READ and waits, and once the line has come, or from a copy, it gives the bytes, or MACHINE_CHECK where it came marked as
poisoned (R246, LE 32); a store sends a WRITE and moves on. When the completion of a host load comes and that a store there is done at once are the model's (LE 12), as is the agenda (LE 1).
R72, R242, R245: a store and an atomic of a thread in HBM, in a launch that may be protected, replayed or mirrored: the two lanes of a thread of a
protected launch agree and act once; on a mirrored page the new value goes to the partner as a WRITE without an export page; before the first write
of a replayed launch to a page, the page is copied to the next page of its snapshot area, and where none is left the launch is unreplayable. -/
def Obligations.WindowAccesses : Prop :=
  (∀ (W : Width) (hint : Fin 4) (v o : VReg) (n : BReg) (s : State) (g : Group) (wid l : Nat) (w : Wave) (a off chip page : Nat) (e : PtcEntry),
    let blk := block v.val (if W.bytes ≤ 4 then 1 else W.bytes / 4)
    let ld := Instr.ld W hint v n o
    let stv := Instr.st W hint v n o
    let loads := ld.wf = true ∧ LaneReady s g (o.val :: blk) blk
    let stores := stv.wf = true ∧ LaneReady s g (o.val :: blk) []
    let goes := fun (right : Right) (r : Reach) => laneAddress (w.breg n.val) (w.vreg l o.val).toNat W.bytes = .at_ a
      ∧ State.recAllows (w.breg n.val) right = true ∧ (Rcd.space (w.breg n.val) = 0 ∨ Rcd.space (w.breg n.val) = 3)
      ∧ s.reach (some (s.coreOf wid)) (s.partOf wid) (State.asidOf w (w.breg n.val)) a (Rcd.space (w.breg n.val) == 3) right = r
    let bytes := w.blockBytes l v.val W.bytes
    let moved := fun (t : State) (e : LaneRes) => ∃ x, Tbl.find t.waves wid = some x ∧ WaveDone g wid 4 (fun _ => e) { w with pend := .none } x
    let loaded := fun (bs : List Byte) => LaneRes.ofV (blockOfBytes v.val W.bytes bs)
    let waits := fun (t : State) (p : Pend) => Tbl.find t.waves wid = some { w with pend := { p with pc := g.pc, again := true } }
    let bare := { Pend.none with pc := w.pend.pc, lvl := w.pend.lvl, id := w.pend.id, again := w.pend.again }
    let peer := fun (right : Right) => goes right (.peer chip page off) ∧ s.cutOff chip = false
    let leased := s.ptcFind (dieOf (s.coreOf wid)) (s.partOf wid) chip page
    let pa := e.pa / 65536 * 65536 + off
    let line := pa / 128 * 128
    s.cur = some g → g.mem = [(wid, l)] → Tbl.find s.waves wid = some w → w.guardOn l = true → (w.thread l).pc = g.pc → s.logPending wid = false →
    (PlainWave s wid →
      (loads → (W.bytes = 4 ∨ W.bytes = 8) → goes .read (.regs off) →
        ∃ t, exec ld s = .next t ∧ moved t (loaded (natBytes W.bytes (s.vfRead (s.vfOf wid) off (W.bytes == 8)))))
      ∧ (loads → goes .read (.host off) →
        ∃ t, exec ld s = .next t ∧ t.hostMem = s.hostMem ∧ t.due (.hostWindowTimeout (s.coreOf wid) w.slot) = true
          ∧ waits t { w.pend with host := [l] })
      ∧ (stores → (W.bytes = 4 ∨ W.bytes = 8) → goes .write (.regs off) →
        ∃ t, exec stv s = .next t ∧ moved t {} ∧ t.agenda = insertBy (fun e => e.1) (s.reft,
          .registerWrite (.vf (Fin.ofNat 32 (s.vfOf wid))) 0 off (W.bytes == 8) (BitVec.ofNat 64 (bytesNat bytes))) s.agenda)
      ∧ (stores → goes .write (.host off) →
        ∃ t, exec stv s = .next t ∧ moved t {} ∧ t.mem = s.mem ∧ t.hostMem = Memory.write s.hostMem off bytes)
      ∧ (loads → peer .read → leased = none → ∃ t, exec ld s = .next t ∧ t.mem = s.mem ∧ waits t { w.pend with leases := [(chip, page, .read)] }
        ∧ ∃ y ∈ t.fab.leases, y.chip = chip ∧ y.page = page ∧ y.right = .read ∧ y.part = s.partOf wid)
      ∧ (loads → peer .read → leased = some e → e.rights.read = true → s.storeUnderWay (dieOf (s.coreOf wid)) e.chip e.page pa = false →
        (s.peerHit (s.agentOf wid) e.chip pa = none → (∀ x ∈ s.waves, s.sameIssue wid w x = true → x = (wid, w)) →
          ∃ t, exec ld s = .next t ∧ t.mem = s.mem ∧ waits t { w.pend with reqs := [(none, s.nextId)] }
          ∧ ∃ r ∈ t.fab.reads, r.id = s.nextId ∧ r.chip = e.chip ∧ r.page = e.page ∧ r.gen = e.gen ∧ r.pa = line ∧ r.len = 128
            ∧ r.wid = some (wid, l) ∧ (r.held = false → Out.read r.chip r.plane r.id (some r.page) r.gen r.part r.cls line 128 ∈ t.outbox))
        ∧ ∀ y, s.peerHit (s.agentOf wid) e.chip pa = some y →
          ∃ t, exec ld s = .next t ∧ t.mem = s.mem ∧ moved t (loaded ((y.bytes.drop (pa % 128)).take W.bytes)))
      ∧ (stores → peer .write → leased = some e → e.rights.write = true → s.windowFull e.chip false = false → w.pends = [] →
        ∃ t, exec stv s = .next t ∧ moved t {} ∧ t.mem = s.mem ∧ ∃ u ∈ t.fab.unacked, u.ord = s.nextId ∧ u.chip = e.chip ∧ u.page = some e.page
          ∧ u.gen = e.gen ∧ u.pa = pa ∧ u.data = bytes ∧ u.core = s.coreOf wid ∧ (u.held = false →
            Out.write u.chip u.plane u.seq u.page u.gen u.part u.cls u.pa u.data ∈ t.outbox)))
    ∧ (loads → goes .read (.host off) → w.pend = { bare with host := [l] } →
      ∃ t, exec ld s = .next t ∧ t.hostMem = s.hostMem ∧ t.mem = s.mem ∧ moved t (loaded (s.hostBytes off W.bytes)))
    ∧ (s.waveAt (s.coreOf wid) w.slot = some (wid, w) → w.pend = { bare with host := [l] } → s.running = true → s.asleep (s.coreOf wid) = false →
      exec (.hostWindowTimeout (s.coreOf wid) w.slot) s = .next ({ s with log := s.log ++ [(s.reft, LogKind.hostAbort)] }.takeTrap wid 0x01
        (s.laneId wid (min 31 l)) false (some w.pend.pc) none))
    ∧ (∀ x : Got, loads → peer .read → leased = some e → e.rights.read = true → s.storeUnderWay (dieOf (s.coreOf wid)) e.chip e.page pa = false →
      s.peerHit (s.agentOf wid) e.chip pa = none → w.pend = { bare with lines := [x] } → x.chip = e.chip → x.line = pa / 128 →
      (x.bad = false → ∃ t, exec ld s = .next t ∧ t.mem = s.mem ∧ moved t (loaded ((x.bytes.drop (pa % 128)).take W.bytes)))
      ∧ (x.bad = true → s.replays wid = false → w.guarded = false →
        exec ld s = .next (s.takeTrap wid 0x01 (s.laneId wid l) false (some g.pc) (some a)))))
  ∧ (∀ (W : Width) (hint : Fin 4) (op : AtomOp) (pair : Bool) (sc : Scope) (v o : VReg) (n : BReg) (s : State) (g : Group) (wid l : Nat) (w : Wave)
      (a pa : Nat) (m : Bool) (ls : List Nat),
    let p := s.partOf wid
    let partner := fieldOf (s.part p).mirror 9 0
    let goes := fun (right : Right) (width : Nat) => laneAddress (w.breg n.val) (w.vreg l o.val).toNat width = .at_ a
      ∧ State.recAllows (w.breg n.val) right = true ∧ Rcd.space (w.breg n.val) = 0 ∧ pa % width = 0
      ∧ s.reach (some (s.coreOf wid)) p (State.asidOf w (w.breg n.val)) a false right = .hbm pa m
    let agree := fun (regs : List Nat) => (s.prot wid = false ∧ ls = [l])
      ∨ (s.prot wid = true ∧ l % 2 = 0 ∧ ls = [l, l + 1] ∧ ∀ r ∈ regs, w.vreg (l + 1) r = w.vreg l r)
    let stored := fun (t : State) (bs : List Byte) => t.bytesAt pa bs.length = bs
      ∧ (m = true → s.mirrorOn p = true → s.cutOff partner = false → ∃ u ∈ t.fab.unacked, s.nextId ≤ u.ord ∧ u.chip = partner ∧ u.page = none ∧ u.coll = none ∧ u.pa = pa
        ∧ u.data = bs ∧ u.part = p ∧ u.cls = s.clsOf wid)
      ∧ ∀ g0 r, Tbl.find s.grids (s.gridIdOf wid) = some g0 → Tbl.find s.grids g0.root = some r → r.lrec.replay = true → r.unreplayable = false →
        (∀ e ∈ r.snaps, e.1 ≠ pa / 65536) → s.inSnapArea r (pa / 65536) = false →
        (r.lrec.snapPages ≤ r.snaps.length → Tbl.find t.grids g0.root = some { r with unreplayable := true })
        ∧ (r.snaps.length < r.lrec.snapPages → ∀ lf, s.walk r.part r.asid (r.lrec.snap + 65536 * r.snaps.length) = .leaf lf →
          let to_ := lf.pa / 65536 * 65536
          Tbl.find t.grids g0.root = some { r with snaps := r.snaps ++ [(pa / 65536, to_, m)] }
            ∧ (s.stale = [] → Memory.wf s.mem = true → ∀ i, i < 65536 → t.byteAt (to_ + i) = s.byteAt (pa / 65536 * 65536 + i)))
    s.cur = some g → g.mem = ls.map (fun k => (wid, k)) → Tbl.find s.waves wid = some w →
    (∀ k ∈ ls, w.guardOn k = true ∧ (w.thread k).pc = g.pc) → w.pend.quiet → s.logPending wid = false → s.storeQueued wid = false →
    (m = true → s.mirrorOn p = true → s.windowFull partner false = false) →
    (let blk := block v.val (if W.bytes ≤ 4 then 1 else W.bytes / 4)
     (Instr.st W hint v n o).wf = true → LaneReady s g (o.val :: blk) [] → goes .write W.bytes → agree (o.val :: blk) →
      ∃ t, exec (.st W hint v n o) s = .next t ∧ stored t (w.blockBytes l v.val W.bytes)
        ∧ ∃ x, Tbl.find t.waves wid = some x ∧ WaveDone g wid 4 (fun _ => {}) { w with pend := .none } x)
    ∧ (let width := if pair then 8 else 4
       let regs := regsOf pair v
       (Instr.atom op pair sc v n o).wf = true → LaneReady s g (o.val :: regs) regs → goes .atomic width → agree (o.val :: regs) → w.guarded = false →
      s.release wid sc = (true, s) → s.poisoned pa width = false →
      let old := s.natAt pa width
      ∃ t x, exec (.atom op pair sc v n o) s = .next t ∧ stored t (natBytes width (rmwNew (.atom op pair (BitVec.ofNat 64 (rawReg pair w l v))) old))
        ∧ Tbl.find t.waves wid = some x ∧ ∀ k ∈ ls, (x.thread k).pc = g.pc + 4 ∧ ∀ r < 128, x.vreg k r = wrote (vwrite pair v.val old) r (w.vreg k r)))

/-! ## Barriers, fences, parks, operating class -/

/-- R368: a wave arrives at its team's barrier once its release at team scope is complete: BAR.arrive moves on, BAR.sync parks until the
phase is over, BAR.wait parks while an arrival of the wave stands and else moves on. The arrival that fills the phase ends it: the next
phase begins, no arrival stands, every wave parked in the barrier moves on. BAR.arrive while an arrival stands waits.
R369, R370: CBAR with a count that is 0, above 1,536, or not that of the incomplete phase is ACCESS; else, once its release at cluster
scope is complete, the wave parks and one arrival is counted; the last ends the phase, and the waves that are parked in it move on, those of a core
whose hob relocks once the news that waits in its FIFO reaches them (R15). -/
def Obligations.Barriers : Prop :=
  (∀ (s : State) (wid : Nat) (w : Wave) (t : Team), UniIssued s wid w → Tbl.find s.teams w.team = some t →
     let arrive := s.updWave wid (fun w => { w.pass 4 with arrived := some t.phase })
     let sync := s.updWave wid (fun x => { x with arrived := some t.phase, barPc := some w.at_, park := .bar })
     let ends := fun (r u : State) => Tbl.find u.teams w.team = some { t with phase := t.phase + 1 }
       ∧ ∀ k x, Tbl.find r.waves k = some x → x.team = w.team → Tbl.find u.waves k = some (if x.park = .bar
           then { x.pass 4 with park := .no, arrived := none, barPc := none } else { x with arrived := none, barPc := none })
     (w.arrived ≠ some t.phase → s.release wid .team = (true, s) →
       (arrive.phaseFull w.team t.phase = false → exec .barArrive s = .next arrive)
       ∧ (arrive.phaseFull w.team t.phase = true → ∃ u : State, exec .barArrive s = .next u ∧ ends arrive u)
       ∧ (sync.phaseFull w.team t.phase = false → exec .barSync s = .next (sync.rested w.team))
       ∧ (sync.phaseFull w.team t.phase = true → ∃ u : State, exec .barSync s = .next (u.rested w.team) ∧ ends sync u)
       ∧ exec .barWait s = .next (s.updWave wid (fun w => w.pass 4)))
     ∧ (w.arrived = some t.phase → exec .barWait s = .next ((s.updWave wid (fun w => { w with park := .bar })).rested w.team)
       ∧ exec .barArrive s = .next (s.updWave wid (fun w => { w with park := .poll .barrier }))))
  ∧ (∀ (s : State) (wid : Nat) (w : Wave) (id : Fin 16) (a : SReg) (g : Grid), UniIssued s wid w →
       Tbl.find s.grids (s.gridIdOf wid) = some g →
       let key := cbarKey g.vf (clusterOf (s.coreOf wid)) id.val
       let b := Tbl.getD (s.part g.part).cbars key ⟨0, 0, 0⟩
       let n := (w.sreg a.val).toNat
       let mark : CbarMark := ⟨key, b.phase, w.at_, w.lvl⟩
       let mine := fun (m : CbarMark) => m.key = key ∧ m.phase = b.phase
       let parked := s.updWave wid (fun x => { x with cbarAt := w.cbarAt ++ [mark], park := .cbar })
       (mark ∈ w.cbarAt → exec (.cbar id a) s = .next ((s.updWave wid (fun x => { x with park := .cbar })).rested w.team))
       ∧ (mark ∉ w.cbarAt →
       (n = 0 ∨ 1536 < n ∨ (b.arrived ≠ 0 ∧ b.n ≠ n) → UniTraps (.cbar id a) s wid w 0x32)
       ∧ (n ≠ 0 → n ≤ 1536 → (b.arrived = 0 ∨ b.n = n) → s.release wid .cluster = (true, s) →
         (b.arrived + 1 ≠ n → exec (.cbar id a) s = .next ((parked.updPart g.part (fun p => { p with
             cbars := Tbl.put p.cbars key ⟨n, b.arrived + 1, b.phase⟩ })).rested w.team))
         ∧ (b.arrived + 1 = n → ∃ u : State, exec (.cbar id a) s = .next (u.rested w.team)
             ∧ Tbl.find (u.part g.part).cbars key = some ⟨0, 0, b.phase + 1⟩
             ∧ ∀ k x, Tbl.find parked.waves k = some x → (∃ m ∈ x.cbarAt, mine m) →
               (s.asleep (s.coreOf k) = false → (Tbl.find u.waves k).map Wave.unkept
                 = some (let left := x.cbarAt.filter (fun m => ¬ mine m)
                   Wave.unkept (if x.park = .cbar ∧ (⟨key, b.phase, x.at_, x.lvl⟩ : CbarMark) ∈ x.cbarAt then { x.pass 4 with cbarAt := left, park := .no }
                     else { x with cbarAt := left })))
               ∧ (s.asleep (s.coreOf k) = true → (Tbl.find u.waves k).map Wave.unkept = some x.unkept
                 ∧ Packet.cbar key b.phase k ∈ (u.core (s.coreOf k)).inbound)))))

/-- R330, R212, R213: FENCE with E waits for the engine jobs of the wave; one that releases completes once its release is complete; one that
acquires invalidates the core's L1 at cluster scope or wider, drops its die's copies of lines that other dies and chips hold at device
scope or wider, and takes the stamps
that the wave has read; one that releases at device scope or wider leaves its stamp to the wave's later writes. Nothing else changes, but which lines that
are under way may stay as copies.
R380, R381: YIELD moves on, and under a yield request stops the wave there; SLEEP parks the wave until the reference timer has advanced by
the low half of s(sa), at which SLEEP_WAKE lets it move on, or at the end of a relock of its hob if that is later (R14), and moves on at once for a
count of 0. That a yield request stands after its deadline is the model's choice (LE 82); so is that an acquire at device scope drops the copies of lines of other chips
too, and those of every partition, where R184 and R212 ask for copies of other chips at system scope (LE 7). -/
def Obligations.FencesYieldSleep : Prop :=
  (∀ (s : State) (wid : Nat) (w : Wave) (e : Bool) (sc : Scope), UniIssued s wid w →
     let ended := ∀ j ∈ s.jobs, j.2.wid = some wid → j.2.sched = true
     let stamped := fun (x : Wave) => { x with fstamp := if 4 ≤ sc.code then some (s.releaseStamp wid) else x.fstamp }
     let acquired := fun (i : Instr) (f : Wave → Wave) => ∃ u : State, exec i s = .next u
       ∧ u = { s with waves := u.waves, cores := u.cores, peerWays := u.peerWays, l2 := u.l2, fab := { s.fab with reads := u.fab.reads } }
       ∧ u.fab.reads.map (fun r => { r with keep := false }) = s.fab.reads.map (fun r => { r with keep := false })
       ∧ (∀ c, u.core c = { s.core c with l1 := if c = s.coreOf wid ∧ 2 ≤ sc.code then [] else (s.core c).l1 })
       ∧ (∀ x, x ∈ u.peerWays ↔ x ∈ s.peerWays ∧ ¬ (4 ≤ sc.code ∧ x.1 = dieOf (s.coreOf wid)))
       ∧ (∀ k, k ≠ wid → (Tbl.find u.waves k).map Wave.unkept = (Tbl.find s.waves k).map Wave.unkept)
       ∧ (Tbl.find u.waves wid).map Wave.unkept
         = some (f (if 4 ≤ sc.code then { w.pass 4 with seen := stampMax w.seen w.rstamp, rstamp := (0, 0) } else w.pass 4)).unkept
     ((e = true → ended) → acquired (.fenceAcq e sc) (fun x => x))
     ∧ ((e = true → ended) → s.release wid sc = (true, s) →
       exec (.fenceRel e sc) s = .next (s.updWave wid (fun w => stamped (w.pass 4))) ∧ acquired (.fenceFull e sc) stamped)
     ∧ (¬ ended → ∀ i ∈ [Instr.fenceAcq true sc, .fenceRel true sc, .fenceFull true sc],
       exec i s = .next (s.updWave wid (fun w => { w with park := .poll (.jobs false) })))
     ∧ ((e = true → ended) → ∀ u, s.release wid sc = (false, u) → ∀ i ∈ [Instr.fenceRel e sc, .fenceFull e sc],
       exec i s = .next (u.updWave wid (fun w => { w with park := .poll .release }))))
  ∧ (∀ (s : State) (wid : Nat) (w : Wave) (t : Team) (a : SReg), Tbl.find s.teams w.team = some t →
       let n := fieldOf (w.sreg a.val) 31 0
       (UniIssued s wid w →
         (t.yieldBy = none → exec .yield s = .next (s.updWave wid (fun w => w.pass 4)))
         ∧ (t.yieldBy ≠ none → exec .yield s = .next ((s.updWave wid (fun w => { w.pass 4 with park := .yielded })).rested w.team))
         ∧ (n = 0 → exec (.sleep a) s = .next (s.updWave wid (fun w => w.pass 4)))
         ∧ (n ≠ 0 → exec (.sleep a) s = .next (((s.updWave wid (fun w => { w with park := .sleep (s.reft + n) })).after n
             (.sleepWake (s.coreOf wid) w.slot)).rested w.team)))
       ∧ ∀ core slot till, s.waveAt core slot = some (wid, w) → w.park = .sleep till →
         (till ≤ s.reft → s.running = true → (s.asleep core = false → exec (.sleepWake core slot) s = .next (s.updWave wid (fun w => { w.pass 4 with park := .no })))
           ∧ (s.asleep core = true → exec (.sleepWake core slot) s = .next (s.atRelockEnd core (.sleepWake core slot))))
         ∧ (s.reft < till ∨ s.running = false → exec (.sleepWake core slot) s = .next s))

/-- R375: PERFQ files s(sa)[1:0] as the team's one request for its hob's pool and returns the pool's class as it stands; the other requests
of the pool, and the other pools, keep theirs.
R376: THRM arms or disarms the team; arming one that was not armed while its hob is throttled raises THROTTLE_BEGIN for its elected wave;
disarming withdraws every throttle cause of the team's waves. That arming an armed team raises nothing is read from the rule (LE 35). -/
def Obligations.ClassRequestsAndThrottleArming : Prop :=
  (∀ (s : State) (wid : Nat) (w : Wave) (t : Team) (d a : SReg), UniReady s wid w [d.val] [] [] → Tbl.find s.teams w.team = some t →
     let p := (s.hob (hobOf t.core)).pool
     let cls := fieldOf (w.sreg a.val) 1 0
     ∃ u : State, exec (.perfq d a) s = .next u ∧ u = { s with pools := u.pools, teams := u.teams, waves := u.waves }
       ∧ Tbl.find u.waves wid = some ((w.setS d.val (BitVec.ofNat 64 (s.pool p).cls)).pass 4)
       ∧ Tbl.find u.teams w.team = some { t with perf := some cls }
       ∧ (u.pool p).cls = (s.pool p).cls ∧ (∀ q, q ≠ p → u.pool q = s.pool q)
       ∧ ∀ r, r ∈ (u.pool p).reqs ↔ (r = (.team w.team, cls) ∨ (r ∈ (s.pool p).reqs ∧ r.1 ≠ .team w.team)))
  ∧ (∀ (s : State) (wid : Nat) (w : Wave) (t : Team) (k : Nat) (x : Wave), UniIssued s wid w → Tbl.find s.teams w.team = some t →
       Tbl.find s.waves k = some x → x.team = w.team →
       let moved := fun (x : Wave) => if k = wid then x.pass 4 else x
       (∃ u : State, exec (.thrm true) s = .next u ∧ Tbl.find u.teams w.team = some { t with armed := true } ∧ Tbl.find u.waves k = some (moved (
           if s.elected w.team = some k ∧ t.armed = false ∧ (s.hob (hobOf t.core)).throttled = true
           then { x with async := x.async ++ [(0x70, 0)] } else x)))
       ∧ ∃ u : State, exec (.thrm false) s = .next u ∧ Tbl.find u.teams w.team = some { t with armed := false } ∧ Tbl.find u.waves k = some (moved
           { x with async := x.async.filter (fun a => a.1 != 0x70 && a.1 != 0x71) }))

/-! ## Records, waits, copy tags, engine jobs, tiles, child grids -/

/-- R328: BREC writes the 128 bits of s(sa + 1) and s(sa) to bd; with TAGGED, a TAG, a reserved bit, a reserved SWIZZLE or ESIZE it is ACCESS
and bd stays, and inside a region whose checks apply REGION_CLOBBER.
R329: WAITV reads the word at its place; where the condition holds between it and s(sd), s(sd) takes it and the wave moves on; else the
wave parks on the word, which is read again. WAITV_WAKE is that second reading: the parked wave moves on where the condition holds by then. -/
def Obligations.RecordsAndValueWaits : Prop :=
  (∀ (s : State) (wid : Nat) (w : Wave) (d : BReg) (a : SReg), UniIssued s wid w →
     let x : RecBits := w.sreg (a.val + 1) ++ w.sreg a.val
     let ok := fieldOf x 127 125 = 0 ∧ fieldOf x 124 113 = 0 ∧ fieldOf x 106 103 ≤ 8 ∧ fieldOf x 102 100 ≤ 4
     (ok → w.guarded = false → exec (.brec d a) s = .next (s.updWave wid (fun _ => (w.setB d.val x).pass 4)))
     ∧ (¬ ok → UniTraps (.brec d a) s wid w 0x32) ∧ (ok → w.guarded = true → UniTraps (.brec d a) s wid w 0x60))
  ∧ (∀ (s : State) (wid : Nat) (w : Wave) (n : BReg) (sc : Scope) (cc : WCond) (pair : Bool) (d a : SReg) (sp : Spot),
       let width := if pair then 8 else 4
       let v := bytesNat (s.spotBytes sp width)
       let want := (w.sreg d.val).toNat % 2 ^ (8 * width)
       let met := match cc with
         | .eq => v = want
         | .ne => v ≠ want
         | .geu => want ≤ v
         | .ltu => v < want
       let passed := fun (u : State) => u.mem = s.mem ∧ ∃ x, Tbl.find u.waves wid = some x
         ∧ x.unkept = Wave.unkept { (w.setS d.val (BitVec.ofNat 64 v)).pass 4 with park := .no, pend := .none, rstamp := x.rstamp, seen := x.seen }
       (Instr.waitv n sc cc pair d a).wf = true → Tbl.find s.waves wid = some w → w.pend.quiet → s.logPending wid = false →
       (w.guarded = true → 16 ≤ d.val) →
       spotOf s [0, 1, 2] .read width n.val wid w (fieldOf (w.sreg a.val) 31 0) = some sp →
       (∀ pa, sp = .hbm pa → s.poisoned pa width = false) → (∀ c off, sp = .scratch c off → s.asleep c = false ∧ s.scratchPoisoned c off width = false) →
       (UniIssued s wid w → w.park = .no →
         (met → ∃ u, exec (.waitv n sc cc pair d a) s = .next u ∧ passed u)
         ∧ (¬ met → ∃ u : State, exec (.waitv n sc cc pair d a) s = .next (u.rested w.team) ∧ u.mem = s.mem
             ∧ u.due (.waitvWake (s.coreOf wid) w.slot) = true
             ∧ ∃ x key, Tbl.find u.waves wid = some x ∧ x = { w with park := .waitv key, pend := .none, rstamp := x.rstamp }))
       ∧ ∀ core slot key, s.waveAt core slot = some (wid, w) → w.park = .waitv key → s.coreRuns core = true →
         (∀ p ∈ w.pends, p.pc ≠ w.at_ ∨ p.lvl ≠ w.lvl) →
         (∃ m, s.instrAt core (s.partOf wid) w.asid w.at_ = (.waitv n sc cc pair d a, m)) → met →
         ∃ u, exec (.waitvWake core slot) s = .next u ∧ passed u)

/-- R185, R186, R335: on tags of the team's window at depth 0, TWAIT.all moves on once no named tag is busy, TWAIT.any once one is set or none
is busy, CHWAIT once its tag is not busy or the chunk bits that it names are set, all or any of them, with the 64 bits of the map in s(sd);
each waits before that. TFIRST gives the lowest named tag that is set, or 64; TCLR clears the named tags that are set. A tag outside the
window is TAG_RANGE; a tag named in a gate callee is ACCESS (R237), of CHWAIT and MWAIT too.
R354: MWAIT moves on once its tag is not busy, or a copy runs on it, or the matrix job on it has read n of its steps; it waits before. -/
def Obligations.TagAndMatrixWaits : Prop :=
  (∀ (s : State) (wid : Nat) (w : Wave) (t : Team) (r : LaunchRec) (d a : SReg) (tag : Tag) (q : Fin 16),
     UniReady s wid w [d.val] [] [] → Tbl.find s.teams w.team = some t → s.lrecOf wid = some r →
     let inside := fun (i : Nat) => r.tagBase ≤ i ∧ i < r.tagBase + r.tagCount
     let m := w.sreg a.val
     let named := (List.range 64).filter (fun i => m.getLsbD i)
     let st := s.tagOf w.team
     let waits := fun (i : Instr) (x : Wait) => exec i s = .next (s.updWave wid (fun w => { w with park := .poll x }))
     let moves := fun (i : Instr) (x : Wave) => exec i s = .next (s.updWave wid (fun _ => x.pass 4))
     let chunk := fun (i : Nat) => match st tag.val with
       | .clear => false
       | .set => true
       | .busy => bitOf (Tbl.getD t.chunks tag.val 0) (64 * q.val + i)
     (w.gates = [] → r.tagBase + r.tagCount ≤ 64 → (∀ i ∈ named, inside i) →
       ((∀ i ∈ named, st i ≠ .busy) → moves (.twaitAll a) w) ∧ ((∃ i ∈ named, st i = .busy) → waits (.twaitAll a) (.tags true m.toNat))
       ∧ ((∃ i ∈ named, st i = .set) ∨ (∀ i ∈ named, st i ≠ .busy) → moves (.twaitAny a) w)
       ∧ ((∀ i ∈ named, st i ≠ .set) → (∃ i ∈ named, st i = .busy) → waits (.twaitAny a) (.tags false m.toNat))
       ∧ moves (.tfirst d a) (w.setS d.val (BitVec.ofNat 64 ((named.find? (fun i => st i == .set)).getD 64)))
       ∧ ∃ u, exec (.tclr a) s = .next u ∧ Tbl.find u.waves wid = some (w.pass 4) ∧ u.mem = s.mem
           ∧ ∀ i, u.tagOf w.team i = if i ∈ named ∧ st i = .set then .clear else st i)
     ∧ (w.gates = [] → r.tagBase + r.tagCount ≤ 64 → inside tag.val →
       (st tag.val ≠ .busy ∨ (∀ i < 64, m.getLsbD i = true → chunk i = true) →
         moves (.chwaitAll tag q d a) (w.setS d.val (bitsBy 64 chunk)))
       ∧ (st tag.val = .busy → (∃ i < 64, m.getLsbD i = true ∧ chunk i = false) →
         waits (.chwaitAll tag q d a) (.chunks true tag.val q.val m.toNat))
       ∧ (st tag.val ≠ .busy ∨ m = 0 ∨ (∃ i < 64, m.getLsbD i = true ∧ chunk i = true) →
         moves (.chwaitAny tag q d a) (w.setS d.val (bitsBy 64 chunk)))
       ∧ (st tag.val = .busy → m ≠ 0 → (∀ i < 64, m.getLsbD i = true → chunk i = false) →
         waits (.chwaitAny tag q d a) (.chunks false tag.val q.val m.toNat)))
     ∧ (w.gates = [] → r.tagBase + r.tagCount ≤ 64 → (∃ i ∈ named, ¬ inside i) →
       ∀ i ∈ [Instr.twaitAll a, .twaitAny a, .tfirst d a, .tclr a], UniTraps i s wid w 0x34)
     ∧ (w.gates ≠ [] → m ≠ 0 → ∀ i ∈ [Instr.twaitAll a, .twaitAny a, .tfirst d a, .tclr a], UniTraps i s wid w 0x32)
     ∧ (w.gates = [] → r.tagBase + r.tagCount ≤ 64 → ¬ inside tag.val → ∀ i ∈ [Instr.chwaitAll tag q d a, .chwaitAny tag q d a], UniTraps i s wid w 0x34)
     ∧ (w.gates ≠ [] → ∀ i ∈ [Instr.chwaitAll tag q d a, .chwaitAny tag q d a], UniTraps i s wid w 0x32))
  ∧ (∀ (s : State) (wid : Nat) (w : Wave) (r : LaunchRec) (tag : Tag) (a : SReg), UniIssued s wid w → s.lrecOf wid = some r → w.gates ≠ [] →
       UniTraps (.mwait tag a) s wid w 0x32)
  ∧ (∀ (s : State) (wid : Nat) (w : Wave) (r : LaunchRec) (tag : Tag) (a : SReg), UniIssued s wid w → s.lrecOf wid = some r → w.gates = [] →
       let n := fieldOf (w.sreg a.val) 31 0
       let ready := s.tagOf w.team tag.val ≠ .busy ∨ ∃ e ∈ s.jobs, e.2.team = some w.team ∧ e.2.tag = tag.val
         ∧ (Card.kind e.2.card = 1 ∨ Card.kind e.2.card = 2 ∨ ((Card.kind e.2.card = 3 ∨ Card.kind e.2.card = 4) ∧ n ≤ e.2.read))
       let inside := r.tagBase ≤ tag.val ∧ tag.val < r.tagBase + r.tagCount
       (inside → ready → exec (.mwait tag a) s = .next (s.updWave wid (fun w => w.pass 4)))
       ∧ (inside → ¬ ready → exec (.mwait tag a) s = .next (s.updWave wid (fun w => { w with park := .poll (.consumed tag.val n) })))
       ∧ (¬ inside → UniTraps (.mwait tag a) s wid w 0x34))

/-- R331, R338, R350: CPY, CPYM, MML, MMCK and COLL read the card at the local-scratch offset s(sa)[18:0]; where it and its scratch bytes are in
order and not poisoned, the tag is of the window and not busy, and the tiles of a matrix job are free, a job of the wave begins with that card: its tag is
busy, the core's issue count advances, the wave moves on, and no byte of memory changes. A tag outside the window is TAG_RANGE; on a busy tag the
instruction waits. An H launch issues only in a region, else REGION_REQUIRED arises (R232), and of it and what the card raises the lowest code is
taken: a misaligned card is ALIGN. That both are looked at after the wait for the tag is read from the rules (LE 42). -/
def Obligations.EngineIssue : Prop :=
  ∀ (s : State) (wid : Nat) (w : Wave) (t : Team) (g : Grid) (tag : Tag) (a : SReg),
    UniIssued s wid w → Tbl.find s.teams w.team = some t → Tbl.find s.grids t.grid = some g →
    let off := fieldOf (w.sreg a.val) 18 0
    let card := s.scratchBytes t.core (t.start + off) 64
    let good := fun (kind : Nat) => off % 64 = 0 ∧ off + 64 ≤ g.lrec.bytes ∧ s.scratchPoisoned t.core (t.start + off) 64 = false
      ∧ s.cardCauses (some g) g.part kind g.lrec.acc card = []
      ∧ s.areaCauses t.core g.part t.start g.lrec.bytes card = []
    let inside := g.lrec.tagBase ≤ tag.val ∧ tag.val < g.lrec.tagBase + g.lrec.tagCount
    let may := w.gates = [] ∧ inside ∧ (g.lrec.cls = .g ∨ w.region ≠ none)
    let kinds := [(1, Instr.cpy tag a), (2, .cpym tag a), (3, .mml tag a), (4, .mmck tag a), (5, .coll tag a)]
    let free := fun (k : Nat) => s.waitOver wid w (.tile k) = true
    let issued := fun (i : Instr) => ∃ u j, exec i s = .next u ∧ u.mem = s.mem ∧ u.nextId = s.nextId + 1
      ∧ Tbl.find u.waves wid = some (w.pass 4) ∧ u.tagOf w.team tag.val = .busy ∧ (u.core t.core).issued = (s.core t.core).issued + 1
      ∧ Tbl.find u.jobs s.nextId = some j ∧ (∀ k, k ≠ s.nextId → Tbl.find u.jobs k = Tbl.find s.jobs k)
      ∧ j.team = some w.team ∧ j.wid = some wid ∧ j.card = card ∧ j.tag = tag.val ∧ j.core = t.core ∧ j.asid = w.asid ∧ j.part = g.part
      ∧ j.pos = 0 ∧ j.read = 0 ∧ j.wait = .no ∧ j.inRegion = w.region.isSome ∧ j.issueId = (u.core t.core).issued.toNat
    (may → s.tagOf w.team tag.val ≠ .busy →
      (good 1 → issued (.cpy tag a)) ∧ (good 2 → issued (.cpym tag a)) ∧ (good 3 → free (Card.tile card) → issued (.mml tag a))
      ∧ (good 4 → free (Card.tile card) → free (Card.tile card + 1) → issued (.mmck tag a))
      ∧ (good 5 → (∀ c ∈ s.membersOf (s.groupEntry g.part (Card.collGroup card)), s.memberLost (s.groupEntry g.part (Card.collGroup card)) c = false) →
        ((s.groupEntry g.part (Card.collGroup card)).eth = true → s.eth.down.length ≠ 2) → issued (.coll tag a)))
    ∧ (w.gates = [] → ¬ inside → ∀ e ∈ kinds, UniTraps e.2 s wid w 0x34)
    ∧ (w.gates = [] → inside → s.tagOf w.team tag.val = .busy →
        ∀ e ∈ kinds, exec e.2 s = .next (s.updWave wid (fun w => { w with park := .poll (.busyTag tag.val) })))
    ∧ (w.gates = [] → inside → s.tagOf w.team tag.val ≠ .busy → g.lrec.cls = .h → w.region = none → ∀ e ∈ kinds, good e.1 → UniTraps e.2 s wid w 0x62)
    ∧ (w.gates = [] → inside → s.tagOf w.team tag.val ≠ .busy → off % 64 ≠ 0 →
        (off + 64 ≤ g.lrec.bytes → s.scratchPoisoned t.core (t.start + off) 64 = false) → ∀ e ∈ kinds, UniTraps e.2 s wid w 0x31)

/-- R345, R347, R348, R349, R358, R359: an instruction on a free accumulator tile of the team that holds no evicted contents and whose own lie in no eviction area. MZERO makes every element
+0; MLDA loads each element, exactly, as FP32 from the rows that its descriptor names; MSCL multiplies each by s(sa)[31:0]; MMA adds one
step of products of the rows that its descriptors name, and reads a codebook table of its slots at the home L2 (R254); MSTA stores each element, rounded as its slot says, to those rows. Only that tile,
or the bytes stored, change, and the wave moves on. A tile at or above ACC is REG_RANGE. Where the two computations of a step of a protected
launch differ, which is a free value (LE 79), no tile and no byte is written and the wave takes SHADOW_MISMATCH (R242, R347). -/
def Obligations.TileInstructions : Prop :=
  ∀ (s : State) (wid : Nat) (w : Wave) (t : Team) (g : Grid) (sh : Shape) (ty : TileType) (d : AReg) (a b : SReg) (fa fb : FSlot) (p : Nat),
    UniStands s wid w → Tbl.find s.teams w.team = some t → Tbl.find s.grids t.grid = some g → w.gates = [] →
    let c := t.core
    let n := shapeN sh.code
    let old := (s.core c).tileAt p
    let xa := s.fslotOf wid fa
    let xb := s.fslotOf wid fb
    let bytes := g.lrec.bytes
    let ra := s.descRows wid w (w.sreg a.val) (w.sreg (a.val + 1)) sh.code n xa
    let rb := s.descRows wid w (w.sreg b.val) (w.sreg (b.val + 1)) sh.code n xb
    let agrees := fun (u : State) => if s.upset wid then s.mismatch wid else u
    let setsIn := fun (i : Instr) (m : Nat) (f : Nat → Nat → Word) (v : State) => ∃ k : Core, exec i s =
        .next (agrees ((v.updCore c (fun _ => k)).updWave wid (fun w => w.pass 4))) ∧ k = { s.core c with tiles := k.tiles }
      ∧ ∀ q x y, x < 32 → y < 32 → k.tileAt q x y = if q = p ∧ x < m ∧ y < m then f x y else (s.core c).tileAt q x y
    let sets := fun (i : Instr) (m : Nat) (f : Nat → Nat → Word) => setsIn i m f s
    (d.val < g.lrec.acc → t.tiles[d.val]? = some p → s.waitOver wid w (.tile d.val) = true → p ∉ (s.core c).tileH → p ∉ t.gone →
      sets (.mzero d) 32 (fun _ _ => 0)
      ∧ (descCauses (w.sreg a.val) n (n * ty.fmt.bits / 8) 16 bytes = [] → s.rowsPoison wid w (w.sreg a.val) (n * ty.fmt.bits / 8) n = none → sets (.mlda sh ty d a) n (fun i j => BitVec.ofNat 32
          (toF32 ty.fmt (s.descRow wid w (w.sreg a.val) (n * ty.fmt.bits / 8) i / 2 ^ (ty.fmt.bits * j) % 2 ^ ty.fmt.bits))))
      ∧ sets (.mscl sh d a) n (fun i j => BitVec.ofNat 32
          (FFmt.f32.mul .rne (FFmt.f32.decode (old i j).toNat) (FFmt.f32.decode ((w.sreg a.val).truncate 32 : Word).toNat)).1)
      ∧ (∀ x, descCauses (w.sreg a.val) n (n * ty.fmt.bits / 8) 16 bytes = [x] → s.upset wid = false → UniTraps (.mlda sh ty d a) s wid w x)
      ∧ (mmaCauses sh.code a.val b.val fa fb s wid w = [] → mmaPoison sh.code a.val b.val fa fb s wid w = none → fieldOf (s.core c).inject 63 63 = 0 →
        ∃ v, LookedUp s v ∧ (Slotf.elem xa ≠ 8 → Slotf.elem xb ≠ 8 → v = s) ∧ setsIn (.mma sh d a b fa fb) n (fun i j =>
          BitVec.ofNat 32 (stepElem xa xb (s.codebook g.part xa) (s.codebook g.part xb) (stepK sh.code xa) (ra.getD i ⟨0, 0⟩) (rb.getD j ⟨0, 0⟩)
            (old i j).toNat)) v)
      ∧ (mstaBad xa = false → descCauses (w.sreg a.val) n (n * (FFmt.ofCode (Slotf.elem xa)).bits / 8) 16 bytes = [] → ScratchZero s wid →
        let f := FFmt.ofCode (Slotf.elem xa)
        let rowBytes := n * f.bits / 8
        let at_ := fun (i : Nat) => t.start + fieldOf (w.sreg a.val) 18 0 + i * pitchOf (w.sreg a.val) rowBytes
        ∃ u, exec (.msta sh fa d a) s = .next (agrees u) ∧ Tbl.find u.waves wid = some (w.pass 4) ∧ u.mem = s.mem ∧ (u.core c).tiles = (s.core c).tiles
          ∧ (rowBytes ≤ pitchOf (w.sreg a.val) rowBytes → (∀ i < n, u.scratchBytes c (at_ i) rowBytes = packRow f.bits n ((List.range n).map (fun j =>
              (f.ofVal (slotRound xa 0) (slotSat xa) (FFmt.f32.decode (old i j).toNat)).1)))
            ∧ ∀ k, (∀ i < n, k < at_ i ∨ at_ i + rowBytes ≤ k) → u.scratchByte c k = s.scratchByte c k)))
    ∧ (g.lrec.acc ≤ d.val → s.upset wid = false → UniTraps (.mzero d) s wid w 0x13 ∧ UniTraps (.mscl sh d a) s wid w 0x13)

/-- R317: GSEL sets the guard selection of every thread of its group, whatever the guard was, and reads no predicate: none, or the pair of a
predicate and a polarity; the next instruction of the thread is the first that it guards. Its words are those of the VP format at major 0x26
with pd and pb zero, op 0 with the predicate and op 1 with zeros; others are no instruction. -/
def Obligations.GuardSelection : Prop :=
  (∀ (s : State) (g : Group), LaneReady s g [] [] →
    let sets := fun (i : Instr) (sel : Option (PReg × Bool)) => ∃ t, exec i s = .next t ∧ t = { s with waves := t.waves }
      ∧ (∀ wid, (∀ l, (wid, l) ∉ g.mem) → Tbl.find t.waves wid = Tbl.find s.waves wid)
      ∧ ∀ wid w, (∃ l, (wid, l) ∈ g.mem) → Tbl.find s.waves wid = some w → ∃ x, Tbl.find t.waves wid = some x
        ∧ x = { w with threads := x.threads } ∧ x.threads.length = w.threads.length
        ∧ ∀ l, x.thread l = if (wid, l) ∈ g.mem then { w.thread l with guard := sel, pc := (w.thread l).pc + 4 } else w.thread l
    (∀ n p, sets (.gsel n p) (some (p, n))) ∧ sets .gselNone none)
  ∧ ∀ (n : Bool) (d a b : PReg) (l h : Nat),
    let word := fun (op : Nat) => decodeWords (0x26 * 2 ^ 25 + d.val * 2 ^ 18 + a.val * 2 ^ 11 + b.val * 2 ^ 4 + op * 2 + bitVal n) l h
    (d = 0 → b = 0 → word 0 = .ok (.gsel n a)) ∧ (d = 0 → b = 0 → a = 0 → n = false → word 1 = .ok .gselNone)
    ∧ (d ≠ 0 ∨ b ≠ 0 → ∀ op < 8, ∃ r, word op = .error r) ∧ (a ≠ 0 ∨ n = true → ∃ r, word 1 = .error r)
    ∧ ∀ op ∈ [2, 3, 4, 5, 6, 7], ∃ r, word op = .error r

/-- R149, R237, R319: EXIT outside a gate: the threads of the group whose guard is true exit, and each wave whose last thread has exited
retires, which frees its slabs; a wave with a thread left is as the group left it. -/
def Obligations.ThreadExit : Prop :=
  ∀ (s : State) (g : Group), LaneReady s g [] [] → (∀ m ∈ g.mem, ∀ w, Tbl.find s.waves m.1 = some w → w.gates = []) →
    ∃ u : State, LaneDone s u g 4 (fun _ _ _ => { exits := true }) ∧ exec .exit s = .next (g.waves.foldl (fun s wid => s.waveRetired wid) u)
      ∧ ∀ (v : State) (wid : Nat) (w : Wave), Tbl.find v.waves wid = some w →
        ((∃ t ∈ w.threads, t.exited = false) → v.waveRetired wid = v)
        ∧ ((∀ t ∈ w.threads, t.exited = true) → v.waveRetired wid =
            (((((v.passThrottle w.team wid).checkPhase w.team).freed (v.placeOf w).1).lendLater (v.placeOf w).1).rested w.team).checkTeam w.team)

/-! ## Copy schedules, collectives, child grids, the steps of engine jobs, Ethernet -/

/-- R336, R188, R340: SCHADV raises the team's copy-schedule stage by k, up to 2^32 − 1, and issues what has become issuable; a k of 0 does
nothing. The entry at which a schedule stands is passed over while its stage is above the team's or its tag is busy; an entry whose card is
in order becomes a job, in order. COLLW counts one arrival of the chip, once its release at system scope is complete, and parks;
COLLW_RELEASE ends the next round of the group, and the waves parked in it move on, those of a core whose hob relocks once the news that waits in its
FIFO reaches them (R15). -/
def Obligations.SchedulesAndRounds : Prop :=
  (∀ (s : State) (wid : Nat) (w : Wave) (t : Team) (k : BitVec 13), UniIssued s wid w → Tbl.find s.teams w.team = some t →
    let n := min (t.stage + k.toNat) (2 ^ 32 - 1)
    let up := s.updTeam w.team (fun t => { t with stage := n, stageBy := if n = t.stage then t.stageBy else t.stageBy ++ [(n, w.w)] })
    (k = 0 → exec (.schadv k) s = .next (s.updWave wid (fun w => w.pass 4)))
    ∧ (k ≠ 0 → exec (.schadv k) s = .next ((up.schedule w.team 257).updWave wid (fun w => w.pass 4))))
  ∧ (∀ (s : State) (team : Nat) (k : Team) (g : Grid) (e card : List Byte) (va pa n : Nat) (m : Bool), Tbl.find s.teams team = some k →
    Tbl.find s.grids k.grid = some g → g.sched[k.schedPos]? = some e → s.schedReader team = none → k.loc = .resident →
    let tag := fieldAt e 0xA 1
    let issue := (s.core k.core).issued.toNat + 1
    let job := State.schedJob g team k e issue
    (s.running = true → s.asleep k.core = false → exec (.scheduleEntryIssue team) s = .next (s.schedule team 257))
    ∧ (k.stage < fieldAt e 8 2 → s.schedule team (n + 1) = s)
    ∧ (fieldAt e 8 2 ≤ k.stage → tag < 64 → g.lrec.tagBase ≤ tag → tag < g.lrec.tagBase + g.lrec.tagCount →
      (s.tagOf team tag = .busy → s.schedule team (n + 1) = s)
      ∧ (s.tagOf team tag ≠ .busy → entryBad e = false → va = fieldAt e 0 8 + k.index * fieldAt e 0xC 4 →
        s.jobGo (job []) 0 va .read = .hbm pa m → s.poisoned pa 64 = false → card = s.bytesAt pa 64 →
        s.cardCauses (some g) g.part (fieldAt e 0xB 1 + 1) g.lrec.acc card = [] →
        s.areaCauses k.core g.part k.start g.lrec.bytes card = [] →
        s.schedule team (n + 1) = (((s.updTeam team (fun k => { k with schedPos := k.schedPos + 1 })).jobTouch (job []) 0 va .read).acceptJob (job card)).schedule
          team n)))
  ∧ (∀ (s : State) (wid : Nat) (w : Wave) (g : Fin 256), UniIssued s wid w → w.collwAt = none →
    let p := s.partOf wid
    let e := s.groupEntry p g.val
    let n := Tbl.getD (s.part p).collw g.val 0 + 1
    (e.v = false → UniTraps (.collw g) s wid w 0x32)
    ∧ (e.v = true → (∃ c ∈ s.membersOf e, s.memberLost e c = true) → UniTraps (.collw g) s wid w 0x01)
    ∧ (e.v = true → (∀ c ∈ s.membersOf e, s.memberLost e c = false) → s.collOpen (s.clsOf wid) e = true → s.release wid .system = (true, s) →
      ∃ u : State, exec (.collw g) s = .next u
      ∧ Tbl.find u.waves wid = some { w with collwAt := some (g.val, n, w.at_), park := .collw } ∧ (u.part p).collw = Tbl.put (s.part p).collw g.val n
      ∧ (e.nranks = 1 → u.due (.collwRelease (Fin.ofNat 8 p) (Fin.ofNat 256 g.val)) = true)))
  ∧ ∀ (s : State) (p : Fin 8) (g : Fin 256) (k pc : Nat) (x : Wave),
    let n := (s.part p.val).collEnded g.val + 1
    (Tbl.getD (s.part p.val).collw g.val 0 < n → exec (.collwRelease p g) s = .next s)
    ∧ (n ≤ Tbl.getD (s.part p.val).collw g.val 0 → s.running = true → ∃ u : State, exec (.collwRelease p g) s = .next u
      ∧ (u.part p.val).collEnded g.val = n
      ∧ (Tbl.find s.waves k = some x → x.collwAt = some (g.val, n, pc) → x.park = .collw → s.partOf k = p.val →
        (s.asleep (s.coreOf k) = false → (Tbl.find u.waves k).map Wave.unkept
          = some (Wave.unkept { x.pass 4 with park := .no, collwAt := none, seen := stampMax x.seen x.rstamp, rstamp := (0, 0) }))
        ∧ (s.asleep (s.coreOf k) = true → (Tbl.find u.waves k).map Wave.unkept = some x.unkept
          ∧ Packet.collw p.val g.val n k ∈ (u.core (s.coreOf k)).inbound)))

/-- R373, R105: LCHILD of wave 0 outside a gate and a region, with fewer than 256 children and at depth below 9, on a record in HBM: one that
fails a check gives 0 in s(sd) and nothing is launched; one that passes them and has teams, once its release at device scope is complete, gives
its number and starts a child grid, of depth one higher, in the wave's domain and ASID, with the class, PROTECTED and REPLAY of the parent and the
copy schedule of its record; one with no teams has retired at once: its completion word is written, after a release at its scope. The number is
the model's (LE 13), and that it is one that no live grid shows is a premise.
R374: LJOIN moves on when no child grid of the team is left, having acquired the releases of their retirements (R213), and parks otherwise. -/
def Obligations.ChildGrids : Prop :=
  ∀ (s : State) (wid : Nat) (w : Wave) (t : Team) (g : Grid) (d a : SReg) (pa ps : Nat → Nat), UniReady s wid w [d.val] [] [] →
    Tbl.find s.teams w.team = some t → Tbl.find s.grids t.grid = some g →
    let va := (w.sreg a.val).toNat
    let bytes := s.bytesAt (pa 0) 128 ++ s.bytesAt (pa 1) 128
    let r := LaunchRec.ofBytes bytes
    (w.w ≠ 0 → UniTraps (.lchild d a) s wid w 0x10)
    ∧ (w.w = 0 → w.gates = [] → va % 256 = 0 → w.guarded = false → g.depth = 9 → UniTraps (.lchild d a) s wid w 0x74)
    ∧ (w.w = 0 → w.gates = [] → va % 256 = 0 → w.guarded = false → g.depth ≠ 9 → s.waitOver wid w .children = true → w.pend.quiet →
      s.logPending wid = false → (∀ i, i < 2 → (∃ m, s.reach (some t.core) g.part w.asid (va + 128 * i) false .read = .hbm (pa i) m) ∧ pa i % 128 = 0
        ∧ s.poisoned (pa i) 128 = false ∧ Fresh s wid (pa i)) →
      let sch := linePieces (16 * r.schedN) r.sched (16 * r.schedN)
      (s.launchOk bytes g.part w.asid none = false → ∃ (u : State) (x : Wave), exec (.lchild d a) s = .next u ∧ u.mem = s.mem ∧ u.grids = s.grids
        ∧ Tbl.find u.waves wid = some x ∧ x = { (w.setS d.val 0).pass 4 with pend := .none, rstamp := x.rstamp, seen := x.seen })
      ∧ (s.launchOk bytes g.part w.asid none = true → r.teams = 0 → s.release wid (if r.cword = 0 ∨ r.cscope = 5 then .system else .device) = (true, s) →
        (∀ e ∈ s.grids, e.1 % 2 ^ 32 ≠ s.nextId % 2 ^ 32) →
        ∃ (u : State) (x : Wave), exec (.lchild d a) s = .next u
          ∧ Tbl.find u.waves wid = some x ∧ x = { (w.setS d.val (BitVec.ofNat 64 (2 ^ 63 + s.nextId % 2 ^ 32))).pass 4 with
                                                        pend := .none, rstamp := x.rstamp, seen := x.seen }
          ∧ Tbl.find u.teams w.team = some t ∧ (r.cword = 0 → u.mem = s.mem ∧ u.grids = s.grids)
          ∧ ∀ q m, r.cword ≠ 0 → s.whiskGo (s.queue g.hq) w.asid r.cword .write = .hbm q m → q + 8 ≤ hbmEnd →
            u.bytesAt q 8 = natBytes 8 r.cvalue.toNat)
      ∧ (s.launchOk bytes g.part w.asid none = true → r.teams ≠ 0 → s.release wid .device = (true, s) →
        (∀ e ∈ s.grids, e.1 % 2 ^ 32 ≠ s.nextId % 2 ^ 32) →
        (r.schedN = 0 ∨ ((s.core t.core).tlb.length < 384 ∧ (Tbl.getD s.ctlb (clusterOf t.core) []).length < 8192)) →
        (∀ q ∈ sch, (∃ m, s.reach (some t.core) g.part w.asid q.1 false .read = .hbm (ps q.1) m) ∧ ps q.1 % 128 = q.1 % 128
          ∧ s.poisoned (ps q.1) 1 = false ∧ Fresh s wid (ps q.1)) →
        ∃ (u : State) (x : Wave) (k : Grid), exec (.lchild d a) s = .next u ∧ u.mem = s.mem ∧ u.nextId = s.nextId + 1
          ∧ Tbl.find u.waves wid = some x ∧ x = { (w.setS d.val (BitVec.ofNat 64 (2 ^ 63 + s.nextId % 2 ^ 32))).pass 4 with
                                                        pend := .none, rstamp := x.rstamp, seen := x.seen }
          ∧ Tbl.find u.teams w.team = some { t with children := t.children ++ [s.nextId] }
          ∧ (s.nextId ≠ t.grid → Tbl.find u.grids s.nextId = some k
            ∧ Tbl.find u.grids t.grid = some { g with children := g.children + 1 })
          ∧ k.parent = some t.grid ∧ k.root = g.root ∧ k.depth = g.depth + 1 ∧ k.vf = g.vf ∧ k.part = g.part ∧ k.domain = w.domain ∧ k.asid = w.asid
          ∧ k.lrec = { r with cls := g.lrec.cls, prot := g.lrec.prot, replay := g.lrec.replay } ∧ k.next = 0 ∧ k.retired = 0 ∧ k.children = 0
          ∧ k.sched = schedEntries (sch.flatMap (fun q => s.bytesAt (ps q.1) q.2)) r.schedN))
    ∧ (t.children = [] → ∃ u : State, exec .ljoin s = .next u ∧ (u.core (s.coreOf wid)).l1 = [] ∧ u.mem = s.mem
      ∧ (Tbl.find u.waves wid).map Wave.unkept = some (Wave.unkept { w.pass 4 with seen := stampMax w.seen t.joinStamp, rstamp := (0, 0) }))
    ∧ (t.children ≠ [] → exec .ljoin s = .next ((s.updWave wid (fun w => { w with park := .ljoin })).rested w.team))

/-- R186, R333, R334, R347, R352, R355, R356: the next bytes of a copy job between places of this chip, as many as a bit of its chunk map
covers, are read and then written, and the map shows them; the job ends, with its tag set, once all are. Written piece after piece, each at the place where it
leads as it is written: there stand the bytes that stood at its source, and every other byte of HBM, of the scratchpads and of the host's memory is as
it was (of a launch without REPLAY, and where what a rise of the high-water mark zeroes is zero before: `TeamZero`). A matrix job adds its next step to
its tile, from +0 at the first one with its ZERO bit, unless it is of a protected launch and its two computations differ (a free value: LE 79); once
all steps are done it ends, and an MMCK leaves the check tile. That chunks are done in ascending order, so that the map shows a prefix, is the model's
choice (LE 40), where R186 has them in any order. -/
def Obligations.JobProgress : Prop :=
  (∀ (s : State) (id team : Nat) (j : Job) (t : Team), Tbl.find s.jobs id = some j → j.team = some team → Tbl.find s.teams team = some t →
    let kind := Card.kind j.card
    let d := copyBytes j.card
    let n := State.copySlice j
    let sides := Card.sides j.card
    let ps := piecesFrom sides.1 sides.2 n j.pos n
    let src := fun (p : Piece) => s.jobGo j sides.1.space p.src .read
    let near := fun (x : JobGo) => (∃ pa, x = .hbm pa false) ∨ (∃ c off, x = .scratch c off ∧ s.asleep c = false) ∨ ∃ h, x = .host h
    let finish := fun (i : Instr) => ∃ u, exec i s = .next u ∧ u.mem = s.mem ∧ Tbl.find u.jobs id = none ∧ u.tagOf team j.tag = .set
    let live := ∃ e ∈ s.waves, e.2.team = team ∧ e.2.retired = false
    let sh := Card.shape j.card
    let fa := s.jobSlot j (bitsOf (Card.flags j.card) 3 1)
    let fb := s.jobSlot j (bitsOf (Card.flags j.card) 6 4)
    ((kind = 1 ∧ Card.route j.card = 0) ∨ kind = 2 →
      (s.jobActs j = true → s.jobHeld j = false → j.acked = j.pos → j.pos < d → (∀ p ∈ ps, near (src p) ∧ s.copyPoisoned j [p] = false) →
        (∀ p ∈ ps, ∀ x ∈ Card.shares j.card, near (s.jobGo j sides.2.space (p.dst + x) .write)) → s.jobUnacked id = false → Card.route j.card = 0 →
        ∃ u v : State, exec (.copyChunkWritten id) s = .next u ∧ v = (s.copyTouch j ps).copyWrite id j ps (s.copyRead j ps) ∧ u.mem = v.mem ∧ u.hostMem = v.hostMem
          ∧ (∀ c, u.core c = v.core c) ∧ Tbl.find u.jobs id = some { j with pos := j.pos + n, acked := j.pos + n, lines := [], wait := .no }
          ∧ (∃ x, Tbl.find u.teams team = some x ∧ x = { t with chunks := Tbl.putS 0 t.chunks j.tag (chunkMap d (j.pos + n)), hwm := x.hwm })
          ∧ (let bytes := fun (p : Piece) => match src p with
              | .hbm pa _ => s.bytesAt pa p.n
              | .scratch c off => s.scratchBytes c off p.n
              | .host h => Memory.read s.hostMem h p.n
              | _ => []
            let acts := ps.flatMap (fun p => (Card.shares j.card).map (fun x => (p, p.dst + x)))
            let place := fun (r : State) (a : Piece × Nat) => r.jobGo j sides.2.space a.2 .write
            let one := fun (r : State) (a : Piece × Nat) => (r.jobTouch j sides.2.space a.2 .write).jobWrite id j a.2 (bytes a.1) (place r a)
            let after := fun (k : Nat) => (acts.take k).foldl one (s.copyTouch j ps)
            v = after acts.length ∧ (∀ q, (after 0).byteOf q = s.byteOf q) ∧ (after 0).hostMem = s.hostMem
            ∧ (TeamZero s team → ((j.grid.bind (Tbl.find s.grids)).bind (fun g => Tbl.find s.grids g.root)).map (fun g => g.lrec.replay) ≠ some true →
              ∀ k a, acts[k]? = some a →
                let to_ := match place (after k) a with
                  | .hbm pa _ => if pa + a.1.n ≤ hbmEnd then Spot.hbm pa else .drop
                  | .scratch c off => if s.asleep c then .drop else .scratch c off
                  | _ => .drop
                (∀ q, q ≠ .drop → (after (k + 1)).byteOf q = byteAfter [(to_, bytes a.1)] q ((after k).byteOf q))
                ∧ (after (k + 1)).hostMem = match place (after k) a with
                  | .host h => Memory.write (after k).hostMem h (bytes a.1)
                  | _ => (after k).hostMem)))
      ∧ (s.engineRuns j = true → d ≤ j.acked → j.node = none → live → finish (.copyJobComplete id)))
    ∧ (kind = 3 ∨ kind = 4 → s.jobActs j = true → ∀ p, s.tileOf team (Card.tile j.card) = some p → p ∉ (s.core j.core).tileH → p ∉ t.gone → t.tileSave = none →
      (s.jobHeld j = false → j.pos < Card.steps j.card → fieldOf (s.core j.core).inject 63 63 = 0 → ∀ ra rb,
        s.stepRows j (shapeN sh) j.pos sh fa 0 2 = some ra → s.stepRows j (shapeN sh) j.pos sh fb 1 3 = some rb →
        s.stepPoison j (shapeN sh) j.pos sh fa fb = false →
        (∃ (u : State) (x : Job), exec (.matrixStep id) s = .next (if s.jobProt j && Config.upset s.fresh then s.jobMismatch j else u) ∧ u.mem = s.mem ∧ u.core j.core = { s.core j.core with tiles := (u.core j.core).tiles }
          ∧ Tbl.find u.jobs id = some x ∧ x = { j with pos := j.pos + 1, read := j.pos + 1, chk := x.chk }
          ∧ ∀ q a b, a < 32 → b < 32 →
            let old := if j.pos = 0 ∧ bitOf (Card.flags j.card) 11 ∧ q = p then 0 else (s.core j.core).tileAt q a b
            (u.core j.core).tileAt q a b = if q = p ∧ a < shapeN sh ∧ b < shapeN sh
              then BitVec.ofNat 32 (stepElem fa fb (s.codebook j.part fa) (s.codebook j.part fb) (stepK sh fa) (ra.getD a ⟨0, 0⟩) (rb.getD b ⟨0, 0⟩) old.toNat)
              else old))
      ∧ (Card.steps j.card ≤ j.pos → j.node = none → live →
        (kind = 3 → finish (.matrixJobComplete id))
        ∧ (kind = 4 → ∀ q, s.tileOf team (Card.tile j.card + 1) = some q → q ∉ (s.core j.core).tileH → q ∉ t.gone → finish (.matrixJobComplete id)
          ∧ ∃ u, exec (.matrixJobComplete id) s = .next u ∧ ∀ x a b, a < 32 → b < 32 → (u.core j.core).tileAt x a b =
              if x = q then j.chk.getD (a * 32 + b) 0 else (s.core j.core).tileAt x a b))))
  ∧ ∀ (s : State) (id hq k : Nat) (j : Job), Tbl.find s.jobs id = some j → j.node = some (hq, k) → s.engineRuns j = true →
    Card.kind j.card = 1 ∨ Card.kind j.card = 2 → copyBytes j.card ≤ j.acked → ∃ u : State, exec (.copyJobComplete id) s = .next u
      ∧ Tbl.find u.jobs id = none ∧ u.due (.nodeComplete hq k) = true ∧ u.mem = s.mem

/-- R339, R332, R334, R75: at the end of a round whose members' cards agree, on data that can be reached and holds no poison, the rank's result is written to its
receive buffer and the job ends, its contribution having gone out; cards that do not agree end it with FOOTPRINT. On a port and a queue pair in order
a remote write reaches HBM and is acknowledged, its immediate delivered; a packet of a SEND fills the next receive buffer; a READ request is answered
in packets of at most 4,096 bytes; data and an acknowledgement reach the job they are for; a pause stops and starts a traffic class. A port that
goes down and an error of a queue pair end the jobs that use them with MACHINE_CHECK. A congestion notification halves the rate of its queue pair,
num / 2 ^ shift sixteenths of line rate, which recovers by one sixteenth. That READ answers go in the traffic class of G is the model's choice (LE 76); so is that the
acknowledgement of a WRITE or a SEND leaves at once, whatever traffic class is paused (LE 82, R75 being silent); so are
the row that posts a receive buffer, for the spec names no register that does, and the exchange of a round in one step (LE 11). -/
def Obligations.RoundsAndEthernet : Prop :=
  (∀ (s : State) (id : Nat) (j : Job) (sends : List (List Byte)), Tbl.find s.jobs id = some j → Card.kind j.card = 5 → s.running = true →
    let c := j.card
    let e := s.groupEntry j.part (Card.collGroup c)
    let src := (Card.region c 0).area (Card.count c)
    let dst := (Card.region c 1).area (Card.count c)
    let mine := s.areaRead j src
    let sent := (s.areaTouch j src).sendColl j e mine
    exec (.collRoundComplete id false sends) s = .next (s.jobCause id 0x35 none)
    ∧ (s.jobActs j = true → s.jobHeld j = false → s.collOpen j.cls e = true → s.areaStuck j src 3 .read = none →
      (∀ p ∈ State.areaPieces src, s.goPoisoned p.n (s.jobGo j src.space p.src .read) = false) →
      let bufs := (List.range e.nranks).map (fun i => if i = e.rank then mine else sends.getD i [])
      (collResult c e.nranks e.rank bufs = none → exec (.collRoundComplete id true sends) s = .next (sent.jobDone id))
      ∧ ∀ out, collResult c e.nranks e.rank bufs = some out → s.areaStuck j dst 4 .write = none →
        exec (.collRoundComplete id true sends) s = .next ((sent.areaWrite id j dst out).jobDone id)))
  ∧ ∀ (s : State) (port : Fin 2) (qp : Fin 16384),
    let k := port.val * 16384 + qp.val
    let q := Tbl.getD s.eth.qps k Qp.start
    let up := port.val ∉ s.eth.down ∧ q.err = false ∧ s.running = true
    let with_ := fun (x : Qp) => { s with eth := { s.eth with qps := Tbl.put s.eth.qps k x } }
    (up → (∀ pa bs imm, ∃ u : State, exec (.rocePacket port qp (.place pa bs imm)) s = .next u ∧ u.mem = (s.storeHome pa bs).mem
        ∧ u.outbox = s.outbox ++ [.roceAck port.val qp.val bs.length]
        ∧ Tbl.getD u.eth.qps k Qp.start = { q with delivered := q.delivered ++ imm.toList.map some })
      ∧ (∀ job n j, Tbl.find s.jobs job = some j → Card.kind j.card = 1 → Card.route j.card ≠ 0 → (j.team ≠ none → s.asleep j.core = false) →
        (Card.route j.card ≠ 2 → exec (.rocePacket port qp (.ack job n)) s = .next (s.copyAcked job (min j.pos (max j.acked n))))
        ∧ (Card.route j.card = 2 → ∀ bs, ∃ u : State, exec (.rocePacket port qp (.readData job bs)) s = .next u
          ∧ Tbl.find u.jobs job = some { j with inData := j.inData ++ bs, wait := if j.wait = .roce then .no else j.wait }))
      ∧ (∀ bs last b rest, q.recv = b :: rest → q.filled + bs.length ≤ b.2 → ∃ u : State, exec (.rocePacket port qp (.send bs last)) s = .next u
        ∧ u.mem = (s.storeHome (b.1 + q.filled) bs).mem ∧ u.outbox = s.outbox ++ [.roceAck port.val qp.val bs.length]
        ∧ Tbl.getD u.eth.qps k Qp.start = if last then { q with recv := rest, filled := 0, delivered := q.delivered ++ [none] }
            else { q with filled := q.filled + bs.length })
      ∧ ((port.val, s.trafficClass .g) ∉ s.eth.paused → ∀ n pa len, ∃ (u : State) (l : List (List Byte)), exec (.rocePacket port qp (.readReq n pa len)) s = .next u ∧ l.flatten = s.bytesAt pa len
        ∧ (∀ x ∈ l, x.length ≤ 4096) ∧ u = { s with outbox := s.outbox ++ l.map (fun x => .roceData port.val qp.val n x (s.trafficClass .g)) })
      ∧ (∀ pa len, exec (.rocePacket port qp (.post pa len)) s = .next (with_ { q with recv := q.recv ++ [(pa, len)] }))
      ∧ ∀ (tc : Fin 8) (stopped : Bool), ∃ u : State, exec (.rocePacket port qp (.pause tc stopped)) s = .next u
        ∧ ∀ x, x ∈ u.eth.paused ↔ (x = (port.val, tc.val) ∧ stopped = true) ∨ (x ≠ (port.val, tc.val) ∧ x ∈ s.eth.paused))
    ∧ (∃ u : State, exec (.ethernetPortDown port) s = .next ((s.ethJobs port.val none).foldl (fun s j => s.jobCause j 0x01 none) u)
      ∧ u = { s with eth := { s.eth with down := u.eth.down } } ∧ ∀ x, x ∈ u.eth.down ↔ x = port.val ∨ x ∈ s.eth.down)
    ∧ exec (.queuePairError port qp) s = .next ((s.ethJobs port.val (some qp.val)).foldl (fun s j => s.jobCause j 0x01 none)
        (with_ { q with err := true }))
    ∧ (∃ u : State, exec (.congestionNotificationPacket port qp) s = .next u ∧ u.due (.rateRecovery port qp) = true
      ∧ u = { with_ { q with shift := q.shift + 1 } with agenda := u.agenda })
    ∧ ∃ (u : State) (x : Qp), exec (.rateRecovery port qp) s = .next u ∧ u = { with_ x with agenda := u.agenda }
      ∧ (16 * 2 ^ q.shift ≤ q.num + 2 ^ q.shift → x = { q with num := 16, shift := 0 })
      ∧ (q.num + 2 ^ q.shift < 16 * 2 ^ q.shift → x = { q with num := q.num + 2 ^ q.shift } ∧ u.due (.rateRecovery port qp) = true)

/-! ## The package: power, throttling, layouts, Kettle -/

/-- R22, R24, R25, R27, R34: power-on starts the device with its flash and fuses and nothing else; a package reset keeps the reference timer,
the log, the flash, the fuses and host memory, and layout generation 0 stands; both start the boot ROM. A brown-out holds the cores. A low input
raises ALERT#, is logged, and lowers the ceiling of every hob as PROCHOT# does; a high input is logged; an over-voltage and a thermal trip shut the
device down. What HBM holds after power-on and that the agenda is empty then are the model's choice (LE 57), what a package reset keeps of the timer and
the log is read from the rules (LE 56), and so is that an undervoltage acts while Kettle is down (LE 55). -/
def Obligations.PowerAndInput : Prop :=
  ∀ s : State,
    let kept := fun (t : State) => t.kettle.slotA = s.kettle.slotA ∧ t.kettle.slotB = s.kettle.slotB ∧ t.kettle.fused = s.kettle.fused
      ∧ t.kettle.identity = s.kettle.identity ∧ t.kettle.running = false ∧ t.due .kettleBoot = true ∧ t.waves = [] ∧ t.teams = [] ∧ t.grids = []
      ∧ t.queues = [] ∧ t.parts = [] ∧ t.kettle.activeGen = 0 ∧ t.hostMem = s.hostMem ∧ t.pkg.power = .on ∧ t.pkg.coresHeld = true
      ∧ t.pkg.halted = false
    let lowers := fun (t : State) => ∀ h, h < 64 → s.kettle.running = true → 1 ≤ (s.hob h).ceil →
      1 ≤ (t.hob h).ceil ∧ (1 < (s.hob h).ceil → (t.hob h).ceil < (s.hob h).ceil)
    (s.pkg.power ≠ .on → ∃ t : State, exec .powerOn s = .next t ∧ kept t ∧ t.reft = 0 ∧ t.mem = [])
    ∧ (s.pkg.power = .on →
      (∃ t : State, exec .packageReset s = .next t ∧ kept t ∧ t.reft = s.reft ∧ t.log = s.log)
      ∧ exec .brownOut s = .next { s with pkg := { s.pkg with thermTripN := true, trip := .brownOut, coresHeld := true, inputOk := false } }
      ∧ (∃ t : State, exec .inputUndervoltage s = .next t ∧ t.pkg = { s.pkg with underVolt := true, alertN := true }
          ∧ t.log = s.log ++ [(s.reft, .inputLow)] ∧ lowers t)
      ∧ exec .inputOvervoltageWarning s = .next { s with pkg := { s.pkg with alertN := true }, log := s.log ++ [(s.reft, .inputHigh)] }
      ∧ exec .overVoltageShutdown s = .next { s with
          pkg := { s.pkg with power := .shutDown, thermTripN := true, trip := .overVoltage }, agenda := [] }
      ∧ exec .thermalTrip s = .next { s with pkg := { s.pkg with power := .shutDown, thermTripN := true, trip := .thermal }, agenda := [] }
      ∧ ∃ t : State, exec .prochotAssert s = .next t ∧ t.pkg = { s.pkg with prochot := true } ∧ lowers t)

/-- R14, R17, R20, R21, R22, R28, R80: a cause of throttling lowers the hob's ceiling, the second stage its step by one, at most once in 10 µs; a
release raises the step, then the ceiling; the backstop sets the ceiling to 1. A relock ends after 600 ticks. A hob whose boost allowance is used up
goes on at step 12; a new window starts every charge anew. A PPS pulse counts for 2 s, and the master gives its time; a chip that is not the master
is stepped once, forward only (where the first message lies behind it, without a step: LE 76), and then corrected in rate. That a release ends all causes
together is read from the rules (LE 55); the order of steps and ceiling, and the corrections, are the model's choice or free (LE 15, LE 13), and so is that
the master sends on every live plane at a pulse (LE 77). That a master without PPS_IN runs free at the rate correction that it had last is the model's choice too (LE 81),
for R17 says only that it runs free. -/
def Obligations.ThrottlingBoostAndTime : Prop :=
  (∀ (s : State) (h : Fin 64), s.pkg.power = .on →
    let k := s.hob h.val
    let lowered := fun (c : ThrCause) => ∃ t : State, exec (.throttleCause c h) s = .next t ∧ (1 < k.ceil → k.ceil ≤ 8 →
      1 ≤ (t.hob h.val).ceil ∧ (t.hob h.val).ceil < k.ceil ∧ (t.hob h.val).throttled = true)
    let free := (∀ x, k.lastRelease = some x → x + 100000 ≤ s.reft) ∧ s.kettle.running = true
    (s.kettle.running = true → lowered .temperature ∧ lowered .power ∧ lowered .input)
    ∧ (s.kettle.running = true → s.throttling = true → k.ceil ≠ 8 → (∀ x, k.lastLower = some x → x + 10000 ≤ s.reft) → 0 < s.targetStep h.val →
      ∃ t : State, exec (.throttleStepDown h) s = .next t ∧ (t.hob h.val).throttle = some (s.targetStep h.val - 1)
        ∧ (t.hob h.val).lastLower = some s.reft ∧ (k.relockEnd = none → k.step = s.targetStep h.val →
          (t.hob h.val).step = s.targetStep h.val - 1 ∧ (t.hob h.val).relockEnd = some (s.reft + 600) ∧ t.due (.relockEnd h) = true))
    ∧ (free → (k.throttle ≠ none ∨ k.ceil < 8) → ∃ t : State, exec (.throttleRelease h) s = .next t ∧ (t.hob h.val).lastRelease = some s.reft
      ∧ t.pkg = { s.pkg with underVolt := false, overTemp := false, overPower := false, prochot := false }
      ∧ (∀ x, k.throttle = some x → (t.hob h.val).throttle = if x + 1 < k.opStep then some (x + 1) else none)
      ∧ (k.throttle = none → k.ceil < (t.hob h.val).ceil ∧ (t.hob h.val).ceil ≤ 8))
    ∧ (s.kettle.running = false → ∃ t : State, exec (.backstopCeiling h) s = .next t ∧ (t.hob h.val).ceil = 1)
    ∧ (∀ e, k.relockEnd = some e → e ≤ s.reft → k.again = false → (s.pool k.pool).waits = false → s.claims = [] →
      (∀ c, (s.core c).inbound = [] ∧ (s.core c).sideLog = []) → ∃ t : State, exec (.relockEnd h) s = .next t
      ∧ t.hob h.val = Hob.elapse (s.reft - e) (s.reft - e) { k with relockEnd := none, phase := 0 } ∧ t.mem = s.mem)
    ∧ (12 < k.step → k.relockEnd = none → s.allowance h.val ≤ k.charge → ∃ t : State, exec (.boostExhausted h) s = .next t
      ∧ (t.hob h.val).exhausted = true ∧ (t.hob h.val).opStep = classStep (s.pool k.pool).cls true)
    ∧ ∃ t : State, exec .boostWindow s = .next t ∧ (t.hob h.val).charge = 0 ∧ (t.hob h.val).exhausted = false
      ∧ (t.hob h.val).opStep = classStep (s.pool k.pool).cls (s.allowance h.val == 0))
  ∧ ∀ (s : State) (x : Nat) (ppm : Int),
    (s.pkg.power = .on → ∃ t : State, exec .ppsPulse s = .next t ∧ t.time.ppsPresent = true ∧ t.time.lastPps = some s.reft ∧ t.reft = s.reft
      ∧ t.due .ppsAbsent = true ∧ (s.dev.masterAct = true → -100 ≤ t.time.ratePpm ∧ t.time.ratePpm ≤ 100)
      ∧ (s.dev.masterAct = true → s.joined = true → ∀ p < 8, s.dev.live.getLsbD p = true → .ptp p s.reft ∈ t.outbox)
      ∧ (s.dev.masterAct = false → t.time.ratePpm = s.time.ratePpm))
    ∧ (∀ y, s.time.lastPps = some y → y + 2000000000 ≤ s.reft →
      exec .ppsAbsent s = .next { s with time := { s.time with ppsPresent := false, lastPps := none } })
    ∧ (s.pkg.power = .on → s.fabEnabled = true → s.dev.masterAct = false → fieldOf s.dev.fabId 20 11 ≠ s.chipId →
      (s.time.reftSync = true → exec (.ptpMessage x ppm) s = .next { s with time := { s.time with ratePpm := max (-100) (min 100 ppm) } })
      ∧ (s.time.reftSync = false →
        exec (.ptpMessage x ppm) s = .next { s with reft := max s.reft (x % 2 ^ 64), time := { s.time with reftSync := true } }))

/-- R29 to R34, R83, R399: LAYOUT_SUBMIT refuses an image while a change is open, while a partition of the mask runs, or that breaks a rule of R30; else
the change is journaled, its units are armed for one tick at least 2 ms away, and LAYOUT_GO names it, or it stays at WRITING, from which it is
withdrawn at 100 µs before the tick. At the tick armed units flip where LAYOUT_GO names their generation and disarm where it does not; then the
change is committed, and the units that missed it stay out of service. Stopping partitions stops their work and completes once no team of theirs is left on a core; starting them lets it go on. The order of the
refusals and the one step to PREPARED are the model's choice (LE 58); that a change with missed units has outcome OK, and that a partition is stopped at
once, is read from the rules (LE 59, LE 61). -/
def Obligations.LayoutChanges : Prop :=
  ∀ s : State,
    let k := s.kettle
    let image := s.bufBytes 0 4096
    let g := k.activeGen + 1
    let m := (Memory.get s.mbox.buf 0).toNat
    let shut := k.journal ≠ .writing ∧ k.journal ≠ .prepared
    let busy := ∃ p, p < 8 ∧ Layout.changes image p = true ∧ (s.part p).present = true ∧ (s.part p).stopped = false
    (s.commanded 1 = true →
      (¬ shut → exec .layoutSubmit s = .next (s.answer 8)) ∧ (shut → busy → exec .layoutSubmit s = .next (s.answer 2))
      ∧ (shut → ¬ busy → s.layoutOk image = false → exec .layoutSubmit s = .next (s.answer 5))
      ∧ (shut → ¬ busy → s.layoutOk image = true → ∃ (t : State) (at_ : Nat), exec .layoutSubmit s = .next t ∧ s.reft + 2000000 ≤ at_
        ∧ t.kettle.arms = some (g, at_) ∧ t.kettle.jGen = g ∧ t.kettle.jTick = at_ ∧ t.kettle.shadow = image ∧ t.due .layoutFlip = true
        ∧ ((t.kettle.journal = .prepared ∧ t.dev.layoutGo = BitVec.ofNat 32 g ∧ t.mbox.status = 0)
          ∨ (t.kettle.journal = .writing ∧ t.dev.layoutGo = s.dev.layoutGo ∧ t.due .layoutLate = true))))
    ∧ (k.journal = .writing → k.running = true → k.jTick ≤ s.reft + 100000 → s.dev.layoutGo.toNat ≠ k.jGen →
      ∃ t : State, exec .layoutLate s = .next t ∧ t.kettle.journal = .idle ∧ t.kettle.lastOutcome = 3 ∧ t.kettle.arms = none
        ∧ (s.commanded 1 = true → t.mbox.status = 3))
    ∧ (∀ gen at_, k.arms = some (gen, at_) → at_ ≤ s.reft → s.pkg.power = .on →
      (s.dev.layoutGo ≠ BitVec.ofNat 32 gen → exec .layoutFlip s = .next { s with kettle := { k with arms := none } })
      ∧ (s.dev.layoutGo = BitVec.ofNat 32 gen → ∃ t : State, exec .layoutFlip s = .next t ∧ t.kettle.activeGen = gen ∧ t.kettle.arms = none
        ∧ t.kettle.layout = k.shadow ∧ (k.running = true → t.due .layoutCommit = true)
        ∧ (k.fenced = [] → t.kettle.missed = [] → (∀ c, c < 8 → s.clusterChanges k.shadow c = true → Tbl.find t.clusterOwner c =
              if Layout.owner k.shadow c < 8 then some (Layout.owner k.shadow c) else none)
          ∧ ∀ p, p < 8 → Layout.changes k.shadow p = true →
            (Layout.owns k.shadow p = false → (t.part p).present = false)
            ∧ (Layout.owns k.shadow p = true → (t.part p).present = true ∧ (t.part p).stopped = true
              ∧ (t.part p).hbmBase = BitVec.ofNat 64 (Layout.field k.shadow p 0 8) ∧ (t.part p).hbmSize = BitVec.ofNat 64 (Layout.field k.shadow p 8 8)
              ∧ (t.part p).l2ways = BitVec.ofNat 64 (Layout.field k.shadow p 16 8)
              ∧ (t.part p).share = BitVec.ofNat 64 (Layout.field k.shadow p 24 8)))))
    ∧ (k.running = true → k.journal = .prepared → k.jTick ≤ s.reft → k.arms = none → ∃ t : State, exec .layoutCommit s = .next t
      ∧ t.kettle.journal = .committed ∧ t.kettle.lastOutcome = 0 ∧ t.kettle.missed = [] ∧ t.kettle.fenced = k.fenced ++ k.missed ∧ (k.missed ≠ [] → fieldOf t.dev.health 9 9 = 1))
    ∧ (s.commanded 6 = true → ∃ t : State, exec .partitionStop s = .next t ∧ t.due .partitionStopDone = true
      ∧ ∀ p, p < 8 → bitOf m p = true → (s.part p).present = true → (t.part p).stopped = true)
    ∧ (s.commanded 6 = true → (∀ e ∈ s.teams, e.2.loc = .saved) → s.claims = [] → ∃ t : State, exec .partitionStopDone s = .next t
      ∧ t.mbox.status = 0 ∧ ∀ p, p < 8 → bitOf k.stopping p = true → (s.part p).present = true → (t.part p).slice = .reset)
    ∧ (s.commanded 7 = true →
      ((∃ p, p < 8 ∧ bitOf m p = true ∧ (s.part p).present = false) → exec .partitionStart s = .next (s.answer 5))
      ∧ ((∀ p, p < 8 → bitOf m p = true → (s.part p).present = true) → ∃ t : State, exec .partitionStart s = .next t ∧ t.mbox.status = 0
        ∧ ∀ p, p < 8 → bitOf m p = true → (t.part p).stopped = false))

/-- R28, R35 to R37, R39, R43, R44: an expired watchdog stops Kettle, and its boot ROM starts again; the ROM runs the slot that R35 chooses, a trial one as
TESTING until it confirms or its time is over, or, with no slot, holds the device and raises ALERT#. A staged image that verifies and is not older than
the fused counter goes into the slot that is not ACTIVE as TRIAL, another empties it (the slot where neither is ACTIVE: LE 76). A corrected error is
counted, and with the fourth in 24 h its row is repaired, at most one in a stack in 10 ms; the repair takes the row over once it is copied. Locked policies only
rise, value 3 is not taken, LOCK stays. An alarm is logged and shown, and records, halts or erases as its policy says; what
software reads of HBM after an erase is a free value (LE 9). -/
def Obligations.ImagesRepairsAndAlarms : Prop :=
  ∀ (s : State) (stack : Fin 8) (bank row : Nat) (v : Word) (src : AlarmSrc),
    let k := s.kettle
    let a := k.slotA.found
    let b := k.slotB.found
    let down := fun (t : State) => t.kettle.running = false ∧ t.kettle.current = none ∧ t.kettle.confirmAt = none ∧ t.due .kettleBoot = true
    let image := k.staging ++ s.bufBytes 0 4096
    let spare := k.slotA.st = .active ∨ (k.slotB.st ≠ .active ∧ k.current = some false)
    let good := Config.verifies 0 image = true ∧ k.fused ≤ Config.imageVersion image
    let noted := ((s.logged (.alarm src)).setHealth 10).alerted
    (s.pkg.power = .on → k.running = true → ∃ t : State, exec .kettleWatchdogExpiry s = .next t ∧ down t)
    ∧ (s.pkg.power = .on → k.running = false →
      (bootChoice a b k.fused = none → exec .kettleBoot s = .next ({ s with kettle := { k with slotA := a, slotB := b } }).alerted)
      ∧ ∀ c, bootChoice a b k.fused = some c → ∃ t : State, exec .kettleBoot s = .next t ∧ t.kettle.running = true ∧ t.kettle.current = some c
        ∧ t.pkg.coresHeld = (s.pkg.coresHeld && !s.pkg.inputOk)
        ∧ (t.imgSlot c).st = (if (if c then b else a).st = .trial then .testing else (if c then b else a).st)
        ∧ ((if c then b else a).st = .trial → t.kettle.confirmAt = some (s.reft + 10000000000) ∧ t.due .confirmTimeout = true))
    ∧ (∀ c x, k.current = some c → k.confirmAt = some x → s.pkg.power = .on →
      (k.running = true → ∃ t : State, exec .confirm s = .next t ∧ (t.imgSlot c).st = .active ∧ (t.imgSlot (!c)).st = .inactive
        ∧ t.kettle.confirmAt = none ∧ k.fused ≤ t.kettle.fused)
      ∧ (x ≤ s.reft → ∃ t : State, exec .confirmTimeout s = .next t ∧ down t))
    ∧ (s.commanded 4 = true →
      (Config.imageEnds image = false → exec .fwStage s = .next (({ s with kettle := { k with staging := image } }).answer 0))
      ∧ (Config.imageEnds image = true → good → ∃ t : State, exec .fwStage s = .next t ∧ down t ∧ t.mbox.status = 0 ∧ t.kettle.staging = []
        ∧ (spare → t.kettle.slotB = ⟨.trial, image⟩ ∧ t.kettle.slotA = k.slotA) ∧ (¬ spare → t.kettle.slotA = ⟨.trial, image⟩ ∧ t.kettle.slotB = k.slotB))
      ∧ (Config.imageEnds image = true → ¬ good → ∃ t : State, exec .fwStage s = .next t ∧ t.mbox.status = 7 ∧ t.kettle.running = k.running
        ∧ (spare → t.kettle.slotB = ⟨.empty, []⟩ ∧ t.kettle.slotA = k.slotA) ∧ (¬ spare → t.kettle.slotA = ⟨.empty, []⟩ ∧ t.kettle.slotB = k.slotB)))
    ∧ (s.pkg.power = .on → k.running = true → (∀ r ∈ k.repairs, ¬ (r.stack = stack.val ∧ r.bank = bank ∧ r.row = row)) →
      let waits := (stack.val, bank, row) ∈ k.repairDue
      let idle := ∀ x, Tbl.find k.lastRepair stack.val = some x → x + 10000000 ≤ s.reft
      (waits ∨ 3 ≤ s.rowErrors stack.val bank row → idle → ∃ t : State, exec (.rowRepair stack bank row) s = .next t
        ∧ t.kettle.repairs = k.repairs ++ [⟨stack.val, bank, row, true, false⟩] ∧ t.due (.rowRepairDone stack) = true)
      ∧ (waits ∨ 3 ≤ s.rowErrors stack.val bank row → ¬ idle → ∃ t : State, exec (.rowRepair stack bank row) s = .next t
        ∧ (stack.val, bank, row) ∈ t.kettle.repairDue ∧ t.due (.rowRepair stack bank row) = true ∧ t.kettle.repairs = k.repairs)
      ∧ (¬ waits → s.rowErrors stack.val bank row < 3 → ∃ t : State, exec (.rowRepair stack bank row) s = .next t
        ∧ t = { s with kettle := { k with rowErrs := t.kettle.rowErrs } } ∧ t.rowErrors stack.val bank row = s.rowErrors stack.val bank row + 1))
    ∧ (exec (.rowRepairDone stack) s = .next { s with kettle := { k with
        repairs := k.repairs.map (fun r => if r.stack = stack.val then { r with copying := false } else r) } })
    ∧ (∃ p, exec (.alarmPolicyWrite v) s = .next { s with dev := { s.dev with alarmPolicy := p } } ∧ fieldOf p 30 8 = 0
      ∧ p.getLsbD 31 = (s.dev.alarmPolicy.getLsbD 31 || v.getLsbD 31)
      ∧ ∀ i, i < 4 →
        let old := fieldOf s.dev.alarmPolicy (2 * i + 1) (2 * i)
        let new := fieldOf v (2 * i + 1) (2 * i)
        fieldOf p (2 * i + 1) (2 * i) = if new = 3 ∨ (s.dev.alarmPolicy.getLsbD 31 = true ∧ new < old) then old else new)
    ∧ (∃ h, exec (.devHealthClear v) s = .next { s with dev := { s.dev with health := h } }
      ∧ ∀ i, i < 32 → h.getLsbD i = (s.dev.health.getLsbD i && !(v.getLsbD i && (i == 9 || i == 10))))
    ∧ (s.pkg.power = .on →
      (policyOf s.dev.alarmPolicy src = 0 → exec (.alarm src) s = .next noted)
      ∧ (policyOf s.dev.alarmPolicy src = 1 → exec (.alarm src) s = .next { noted with pkg := { noted.pkg with halted := true } })
      ∧ (2 ≤ policyOf s.dev.alarmPolicy src → ∃ t : State, exec (.alarm src) s = .next t ∧ t.pkg.halted = true ∧ t.kettle.identity = none
        ∧ t.kettle.hvKey = none ∧ (∀ e ∈ t.parts, e.2.key = none) ∧ fieldOf t.dev.health 11 11 = 1
        ∧ ∃ n, ∀ x, x < hbmEnd → t.byteAt x = Config.rekeyed n x))

/-- R30, R39, R41, R45, R46, R83: what Kettle answers to a signed command: a signature that does not verify is refused with BAD_SIGNATURE and
nothing changes; SERVICE_RETURN clears SERVICE and the count of spared pseudo-channels, TEST_MODE sets the mode that the request asks for, while every
partition is stopped; PROVISION makes an identity key while PROVISION_REQUIRED is 1, and clears that once the chain is stored, with layout generation
0 active. LAYOUT_QUERY gives the journal. A code that is not assigned is BAD_CMD. Kettle answers with its versions, its chain, a challenge and a
measurement, the last two signed while the identity key is there. The order of the refusals is the model's (LE 76); so is the form of a challenge's and of a
measurement's answer (LE 64), and the numbers 0x12 and 0x13 of the two SPDM versions are presumed from that standard (LE 80). -/
def Obligations.MailboxCommands : Prop :=
  ∀ (s : State) (i : Nat) (viaI3c : Bool),
    let b := s.bufBytes 0 4096
    let stopped := ∀ p, p < 8 → (s.part p).present = true → (s.part p).stopped = true
    let wanted := fieldOf s.dev.health 11 11 = 1
    (s.commanded 5 = true → (Config.verifies 1 b = false → exec .serviceReturn s = .next (s.answer 7))
      ∧ (Config.verifies 1 b = true → ∃ t : State, exec .serviceReturn s = .next t ∧ t.mbox.status = 0 ∧ fieldOf t.dev.health 8 8 = 0
        ∧ fieldOf t.dev.health 7 4 = 0 ∧ ∀ j, (j < 4 ∨ 8 < j) → t.dev.health.getLsbD j = s.dev.health.getLsbD j))
    ∧ (s.commanded 8 = true → (Config.verifies 2 b = false → exec .testMode s = .next (s.answer 7))
      ∧ (Config.verifies 2 b = true → ¬ stopped → exec .testMode s = .next (s.answer 2))
      ∧ (Config.verifies 2 b = true → stopped → ∃ t : State, exec .testMode s = .next t ∧ t.mbox.status = 0
        ∧ t.dev.testMode = Config.wantsTest b ∧ t.dev.health.getLsbD 12 = Config.wantsTest b
        ∧ (Config.wantsTest b = false → ∀ c, (t.core c).inject = 0)))
    ∧ (s.commanded 9 = true →
      (¬ wanted → exec .provisionGenerate s = .next (s.answer 6) ∧ exec .provisionInstall s = .next (s.answer 6))
      ∧ (wanted → Config.verifies 3 (s.bufBytes 1 4095) = false → exec .provisionGenerate s = .next (s.answer 7))
      ∧ (wanted → Config.verifies 3 (s.bufBytes 1 4095) = true → ∃ (t : State) (key : Nat), exec .provisionGenerate s = .next t ∧ t.mbox.status = 0
        ∧ t.kettle.newIdentity = some key ∧ t.kettle.identity = s.kettle.identity)
      ∧ (wanted → s.kettle.newIdentity = none → exec .provisionInstall s = .next (s.answer 6))
      ∧ ∀ key, wanted → s.kettle.newIdentity = some key →
        (Config.verifies 4 (s.bufBytes 1 4095) = false → exec .provisionInstall s = .next (s.answer 7))
        ∧ (Config.verifies 4 (s.bufBytes 1 4095) = true → ∃ t : State, exec .provisionInstall s = .next t ∧ t.mbox.status = 0
          ∧ t.kettle.identity = some key ∧ t.kettle.newIdentity = none ∧ t.kettle.hvKey ≠ none ∧ fieldOf t.dev.health 11 11 = 0
          ∧ t.kettle.chain = some (s.bufBytes 1 4095) ∧ t.kettle.activeGen = 0 ∧ ∀ p, (t.part p).present = false))
    ∧ (s.commanded 2 = true → exec .layoutQuery s = .next ((s.putBuf 0 (natBytes 8 (match s.kettle.journal with
          | .idle => 0
          | .writing => 1
          | .prepared => 2
          | .committed => 3) ++ natBytes 8 s.kettle.activeGen ++ natBytes 8 s.kettle.lastOutcome ++ natBytes 8 s.kettle.lastMask)).answer 0))
    ∧ (∀ n, s.commanded n = true → s.mbox.cmd.toNat = n → (n = 0 ∨ 9 < n) → exec .badCmd s = .next (s.answer 6))
    ∧ (s.pkg.power = .on → s.kettle.running = true →
      (∀ x, s.measurement i = some x → ∃ (t : State) (sig : Option Nat), exec (.spdmRequest (.measurement i) viaI3c) s = .next t
        ∧ t.outbox = s.outbox ++ [.spdm viaI3c i x sig] ∧ (sig.isSome ↔ s.kettle.identity.isSome))
      ∧ exec (.spdmRequest .version viaI3c) s = .next { s with outbox := s.outbox ++ [.spdmVersion viaI3c [0x12, 0x13]] }
      ∧ (∀ c, s.kettle.chain = some c →
        exec (.spdmRequest .certificate viaI3c) s = .next { s with outbox := s.outbox ++ [.spdmChain viaI3c c] })
      ∧ ∃ (t : State) (sig : Option Nat), exec (.spdmRequest (.challenge i) viaI3c) s = .next t
        ∧ t.outbox = s.outbox ++ [.spdmChallenge viaI3c i sig] ∧ (sig.isSome ↔ s.kettle.identity.isSome))

/-! ## The fabric -/

/-- R51, R55 to R60, R72: what this chip does with the requests of others: a READ and an ATOMIC under an export that is still as its generation says, and a
WRITE, are performed at the home, a WRITE and an ATOMIC once however often they come, and answered; others are rejected. A LEASE is
granted within LEASE_MAX, denied, or answered as not present; a grant fills the translation cache until 64 ticks before its expiry. A change of an
export entry waits until its holders have answered on every live plane, or their leases are over. A RECALL drops the entry. Answers reach what waits
for them. That a LEASE waits for a change, that every RECALL is acknowledged on every live plane, the generation that it carries, and a change at once
where there is no holder are read from the rules (LE 67); an answer goes out on the lowest live plane by the model's choice (LE 76), and so is a request of the present
generation rejected whose page is no longer exported to its source or lacks the right, where R60 rejects another generation (LE 76). A READ or an ATOMIC that meets poison is
answered with a mark (R246, LE 32). What comes to a relocking core waits in its FIFO (R15). -/
def Obligations.FabricRequests : Prop :=
  ∀ (s : State) (r : FabReq) (len src part chip page id pa gen expiry : Nat) (data : List Byte) (op : RmwOp) (plane : Fin 8) (die : Fin 2)
    (right : Right) (rights : Rights) (entry : ExportEntry) (cls : Cls) (answer : FabResp), s.joined = true →
    let answers := fun (x : FabResp) => s.emit (.response r.src r.plane.val r.part r.cls x)
    let old := s.natAt r.pa (rmwBytes op)
    let may := fun (k : Right) => s.exportOk r k = true
    let seen := fun (t : State) => (t.window r.src).recent.contains r.seq = true
    let p0 := s.livePlanes.headD 0
    let exported := fun (e : Export) => { s with fab := { s.fab with exports_ := Tbl.put s.fab.exports_ page e } }
    let sends := fun (l : List Out) => { s with outbox := s.outbox ++ l }
    (may .read → s.poisoned r.pa len = false → ∃ t : State, exec (.fabricRead r len) s = .next t ∧ t.mem = s.mem ∧ t.waves = s.waves ∧ t.cores = s.cores ∧ t.fab = s.fab
      ∧ t.outbox = s.outbox ++ [.response r.src r.plane.val r.part r.cls (.data r.id (s.bytesAt r.pa len))])
    ∧ (may .read → s.poisoned r.pa len = true → ∃ t : State, exec (.fabricRead r len) s = .next t ∧ t.mem = s.mem
      ∧ t.outbox = s.outbox ++ [.response r.src r.plane.val r.part r.cls (.poisoned r.id)])
    ∧ (¬ may .read → exec (.fabricRead r len) s = .next (answers (.rejectedRead r.id)))
    ∧ (seen s → exec (.fabricWrite r data) s = .next (answers (.writeAck s.chipId r.seq)))
    ∧ (¬ seen s → (r.page = none ∨ may .write) → ∃ t : State, exec (.fabricWrite r data) s = .next t ∧ seen t
      ∧ (r.pa + data.length ≤ hbmEnd → t.bytesAt r.pa data.length = data) ∧ t.outbox = s.outbox ++ [.response r.src r.plane.val r.part r.cls (.writeAck s.chipId r.seq)])
    ∧ (¬ seen s → r.page ≠ none → ¬ may .write → exec (.fabricWrite r data) s = .next (answers (.rejectedSeq s.chipId r.seq)))
    ∧ (∀ x, (s.window r.src).results.find? (fun e => e.1 == r.seq) = some x →
      exec (.fabricAtomic r op) s = .next (answers (.atomicDone s.chipId r.seq x.2)))
    ∧ ((s.window r.src).results.find? (fun e => e.1 == r.seq) = none → ¬ seen s →
      (may .atomic → s.poisoned r.pa (rmwBytes op) = true → exec (.fabricAtomic r op) s = .next (answers (.atomicPoisoned s.chipId r.seq)))
      ∧ (may .atomic → s.poisoned r.pa (rmwBytes op) = false → ∃ t : State, exec (.fabricAtomic r op) s = .next t ∧ seen t
        ∧ (t.window r.src).results.find? (fun e => e.1 == r.seq) = some (r.seq, BitVec.ofNat 64 old)
        ∧ (r.pa + rmwBytes op ≤ hbmEnd → t.bytesAt r.pa (rmwBytes op) = natBytes (rmwBytes op) (rmwNew op old))
        ∧ t.outbox = s.outbox ++ [.response r.src r.plane.val r.part r.cls (.atomicDone s.chipId r.seq (BitVec.ofNat 64 old))])
      ∧ (¬ may .atomic → exec (.fabricAtomic r op) s = .next (answers (.rejectedSeq s.chipId r.seq))))
    ∧ exec (.marker src plane ⟨id, part, cls⟩) s = .next (sends [.response src plane.val part cls (.markerAck s.chipId id plane)])
    ∧ (Tbl.find s.fab.exports_ page = none →
      exec (.lease src ⟨part, cls⟩ page right id) s = .next (sends [.response src p0 part cls (.leaseDenied id)])
      ∧ exec (.exportChange page entry) s = .next (exported ⟨entry, [], none, []⟩))
    ∧ (∀ e, Tbl.find s.fab.exports_ page = some e →
      let holders := e.holders.filter (fun h => s.reft < h.2.1)
      (e.change = none →
        (¬ ((src, part) ∈ e.entry.dests ∧ rightsAllow e.entry.rights right = true) →
          exec (.lease src ⟨part, cls⟩ page right id) s = .next (sends [.response src p0 part cls (.leaseDenied id)]))
        ∧ ((src, part) ∈ e.entry.dests → rightsAllow e.entry.rights right = true →
          (e.entry.pa = none → exec (.lease src ⟨part, cls⟩ page right id) s = .next (sends [.response src p0 part cls (.notPresent id)]))
          ∧ ∀ x, e.entry.pa = some x → ∃ (t : State) (till : Nat), exec (.lease src ⟨part, cls⟩ page right id) s = .next t ∧ s.reft ≤ till
            ∧ till ≤ s.reft + 1000000 * fieldOf s.dev.leaseMax 6 0
            ∧ t.outbox = s.outbox ++ [.leaseGrant src p0 part cls page x e.entry.rights e.entry.gen till]
            ∧ ∃ f, Tbl.find t.fab.exports_ page = some f ∧ f.entry = e.entry ∧ (src, till, part, cls) ∈ f.holders)
        ∧ (holders = [] → exec (.exportChange page entry) s = .next (exported ⟨entry, [], none, []⟩))
        ∧ (holders ≠ [] → s.livePlanes = [] →
          exec (.exportChange page entry) s = .next (exported ⟨{ entry with gen := (e.entry.gen + 1) % 65536 }, [], none, []⟩))
        ∧ (holders ≠ [] → s.livePlanes ≠ [] → ∃ (t : State) (f : Export), exec (.exportChange page entry) s = .next t ∧ Tbl.find t.fab.exports_ page = some f
          ∧ f.entry = { e.entry with gen := (e.entry.gen + 1) % 65536 } ∧ f.change = some { entry with gen := (e.entry.gen + 1) % 65536 }
          ∧ t.due (.exportChangeTimeout page) = true
          ∧ (∀ h ∈ holders, ∀ p ∈ s.livePlanes, (h.1, p) ∈ f.missing ∧ ∃ q k, Out.recall h.1 p q k page ((e.entry.gen + 1) % 65536) ∈ t.outbox)))
      ∧ ∀ c, e.change = some c →
        let left := e.missing.filter (fun x => x ≠ (chip, plane.val) ∧ s.dev.live.getLsbD x.2 = true)
        exec (.lease src ⟨part, cls⟩ page right id) s = .next (s.soon (.lease src ⟨part, cls⟩ page right id))
        ∧ ((∀ h ∈ e.holders, h.2.1 + 64 < s.reft) → exec (.exportChangeTimeout page) s = .next (exported ⟨c, [], none, []⟩))
        ∧ (left = [] → exec (.recallAck ⟨chip, c.gen⟩ page plane) s = .next (exported ⟨c, [], none, []⟩))
        ∧ (left ≠ [] → exec (.recallAck ⟨chip, c.gen⟩ page plane) s = .next (exported { e with missing := left }))
        ∧ (gen ≠ c.gen → exec (.recallAck ⟨chip, gen⟩ page plane) s = .next s))
    ∧ (let asked := s.fab.leases.filter (fun l => l.die == die.val && l.part == part && l.chip == chip && l.page == page && rightsAllow rights l.right)
      ∃ t : State, exec (.leaseGrant die part chip page pa rights gen expiry) s = .next t
      ∧ PtcEntry.mk die.val part ((asked.head?.map (fun l => l.cls)).getD .h) chip page pa rights gen expiry ∈ t.fab.ptc ∧ t.due (.leaseExpiry die part chip page) = true)
    ∧ exec (.leaseExpiry die part chip page) s = .next { s with fab := { s.fab with ptc := s.fab.ptc.filter (fun e =>
        !(e.die == die.val && e.part == part && e.chip == chip && e.page == page && e.expiry ≤ s.reft + 64)) } }
    ∧ (s.recallSeen ⟨chip, gen⟩ page = false → ∃ (t : State) (q : Nat) (k : Cls), exec (.recall ⟨chip, gen⟩ page) s = .next t
      ∧ (∀ e, e ∈ t.fab.ptc ↔ e ∈ s.fab.ptc ∧ ¬ (e.chip = chip ∧ e.page = page ∧ e.gen ≠ gen)) ∧ t.recallSeen ⟨chip, gen⟩ page = true
      ∧ t.outbox = s.outbox ++ s.livePlanes.map (fun p => .recallAck chip p q k page gen))
    ∧ (s.recallSeen ⟨chip, gen⟩ page = true → exec (.recall ⟨chip, gen⟩ page) s = .next s)
    ∧ (∀ c, s.respCore answer = some c → s.asleep c = true → exec (.response answer) s = .next (s.toFifo c (.response answer)))
    ∧ (∀ q w l x, s.fab.reads.find? (fun q => q.id == id) = some q → q.wid = some (w, l) → q.job = none → q.pre = false →
      Tbl.find s.waves w = some x → s.asleep (s.coreOf w) = false → (none, id) ∈ x.pend.reqs →
      ∃ (t : State) (y : Wave), exec (.response (.data id data)) s = .next t ∧ (∀ z ∈ t.fab.reads, z.id ≠ id)
        ∧ Tbl.find t.waves w = some y ∧ y = { x with pend := y.pend, pends := y.pends }
        ∧ y.pend = { x.pend with reqs := x.pend.reqs.filter (fun z => z ≠ (none, id)), lines := y.pend.lines }
        ∧ y.pend.lines = x.pend.lines.map (fun g => if g.chip = q.chip ∧ g.line = q.pa / 128 then { g with keep := false } else g)
            ++ [⟨q.chip, q.pa / 128, data, q.keep, false⟩])
    ∧ ∀ u, s.fab.unacked = [u] → u.held = false → u.rejected = false → u.job = none → s.fab.reads = [] → s.fab.waitAcks = [] →
      (∀ c ∈ s.cores, c.2.sideLog = []) → exec (.response (.writeAck u.chip u.seq)) s = .next { s with fab := { s.fab with
        unacked := [], mirrorWait := s.fab.mirrorWait.filter (fun m => ¬ (m.1 = u.part ∧ m.2.1 = u.chip ∧ m.2.2.1 = u.seq)) } }

/-- R61 to R70: a plane that fails, or a port that does not train as the chip joins, is reported to the master, or begins its run, and the last one takes
the domain down. STOP takes planes out, holds
their buckets, or those that a planned map moves, and drops the markers on them; a further copy does not count. FENCE waits for what is under way; MAP
installs the map, fences the dead planes out and sends again; RESUME lets the held requests go in their order. Each answer and each message goes out on every
live plane. The master takes each step once every chip has answered; one that does not is unreachable, which every chip is told. The standby takes over from
a master that is silent. A failed unit is fenced out. Writing FAB_ID joins or leaves the domain. A mirror that does not acknowledge breaks. Which planes are
fenced as MAP is installed, a STOP that names no plane, and what leaving the domain ends are read from the rules (LE 65), and so is that the step timeout of
a chip which is no master is the mark reaching it (LE 69). That a standby sends a PTP packet on every live plane as it takes over is the model's choice (LE 77). -/
def Obligations.FabricQuiesce : Prop :=
  (∀ (s : State) (plane : Fin 8) (gen chip src : Nat) (planes : BitVec 8) (moved : List (Fin 64)) (map : List (Fin 8)), s.joined = true →
    let p := plane.val
    let retry := s.fab.retry.filter (fun x => s.reft < x.2 + 1000000) ++ [(p, s.reft)]
    let noted := { s with fab := { s.fab with retry := retry } }
    let since := (s.fab.unacked.filter (fun u => u.plane == p && !u.held && !u.rejected)).map (fun u => u.since)
      ++ (s.fab.reads.filter (fun r => r.plane == p && !r.held && !r.rejected)).map (fun r => r.since)
      ++ (s.fab.markers.filter (fun m => m.plane == p)).map (fun m => m.since) ++ (s.fab.leases.filter (fun l => l.plane == p)).map (fun l => l.since)
    let now := s.dev.fabMapGen.toNat
    let report := (s.dev.live.getLsbD p = true ∨ (s.dev.fencedPlanes.getLsbD p = false ∧ s.fab.downPlanes.getLsbD p = false))
      ∧ (s.fab.runPlanes.getLsbD p = false ∨ s.fab.phase = 0)
    let others := s.dev.live &&& ~~~BitVec.ofNat 8 (2 ^ p)
    let answer := fun (t : State) (o : Nat → Out) (i : Instr) => if s.dev.masterAct then t.due i = true else ∀ v ∈ t.livePlanes, o v ∈ t.outbox
    let quiet := (∀ u ∈ s.fab.unacked, u.held = true) ∧ (∀ r ∈ s.fab.reads, r.held = true) ∧ s.fab.leases = [] ∧ s.fab.markers = []
    let near := gen ≤ now + 1 ∧ now ≤ gen + 1
    let counts := (s.dev.qstate = 0 ∧ (now ≤ gen ∨ (src ≠ s.fab.runSrc ∧ src = fieldOf s.dev.fabId 30 21)))
      ∨ (s.dev.qstate ≠ 0 ∧ (src ≠ s.fab.runSrc ∨ planes &&& ~~~s.fab.downPlanes ≠ 0))
    (retriesOf noted p ≤ 32 → exec (.linkRetry plane) s = .next noted)
    ∧ (32 < retriesOf noted p → exec (.linkRetry plane) s = .next (noted.atTick s.reft (.linkRetryLimit plane)))
    ∧ (32 < retriesOf s p → exec (.linkRetryLimit plane) s = .next (s.reportDead p))
    ∧ exec (.linkDown plane) s = .next (s.reportDead p) ∧ exec (.planeFail plane) s = .next (s.reportDead p)
    ∧ (since = [] → exec (.fabricRequestTimeout plane) s = .next s)
    ∧ (∀ t ∈ since, (∀ u ∈ since, t ≤ u) →
      (t + 100000 ≤ s.reft → exec (.fabricRequestTimeout plane) s = .next (s.reportDead p))
      ∧ (s.reft < t + 100000 → exec (.fabricRequestTimeout plane) s = .next (s.atTick (t + 100000) (.fabricRequestTimeout plane))))
    ∧ (s.dev.masterAct = true → gen = (if s.fab.phase = 0 then now else s.fab.baseGen) → exec (.deadReport chip plane gen) s = .next (s.reportDead p))
    ∧ (report → (others = 0 → (s.reportDead p).dev.domainDown = true ∧ (s.reportDead p).dev.live = 0
        ∧ (s.reportDead p).dev.fencedPlanes.getLsbD p = true ∧ fieldOf (s.reportDead p).dev.health 3 3 = 1)
      ∧ (others ≠ 0 → s.dev.masterAct = false → ∃ via ∈ s.livePlanes, via ≠ p ∧ (∀ k ∈ s.livePlanes, k ≠ p → via ≤ k)
        ∧ s.reportDead p = s.control via (.deadReport via p now))
      ∧ (others ≠ 0 → s.dev.masterAct = true → (s.reportDead p).fab.phase = 1
        ∧ (s.reportDead p).fab.runPlanes.getLsbD p = true ∧ (s.reportDead p).fab.answers = []
        ∧ ∃ all g, (s.reportDead p).due (.stop ⟨s.chipId, all, []⟩ g) = true ∧ ∀ v ∈ s.livePlanes, Out.stop v all [] g ∈ (s.reportDead p).outbox))
    ∧ (¬ counts → exec (.stop ⟨src, planes, moved⟩ gen) s = .next s)
    ∧ (near → counts → s.dev.live &&& ~~~planes ≠ 0 → ∃ t : State, exec (.stop ⟨src, planes, moved⟩ gen) s = .next t ∧ t.dev.qstate = 1
      ∧ t.dev.live = s.dev.live &&& ~~~planes ∧ t.fab.downPlanes = s.fab.downPlanes ||| planes ∧ t.fab.waitAcks = []
      ∧ (∀ b, b < 64 → (b ∈ t.fab.heldBuckets ↔ b ∈ s.fab.heldBuckets ∨ (∃ m ∈ moved, m.val = b) ∨ planes.getLsbD (s.dev.fabMap.getD b 0) = true))
      ∧ (∀ m, m ∈ t.fab.markers ↔ m ∈ s.fab.markers ∧ planes.getLsbD m.plane = false)
      ∧ answer t (fun v => .stopped v now) (.stopped ⟨s.chipId, now⟩))
    ∧ (near → counts → s.dev.live &&& ~~~planes = 0 → ∃ t : State, exec (.stop ⟨src, planes, moved⟩ gen) s = .next t ∧ t.dev.domainDown = true
      ∧ t.dev.live = 0 ∧ ∀ x : Fin 8, planes.getLsbD x.val = true → t.dev.fencedPlanes.getLsbD x.val = true)
    ∧ (near → s.dev.qstate = 1 → s.fab.fencing = false → s.fab.waitAcks = [] →
      (quiet → ∃ t : State, exec (.quiesceFence gen) s = .next t ∧ t.dev.qstate = 2 ∧ answer t .fenced (.fenced s.chipId))
      ∧ (¬ quiet → s.livePlanes ≠ [] → ∃ t : State, exec (.quiesceFence gen) s = .next t ∧ t.dev.qstate = 1 ∧ t.fab.waitAcks ≠ []))
    ∧ (s.dev.qstate = 2 → map.length = 64 → now ≤ gen → gen ≤ now + 2 → ∃ t : State, exec (.map gen map) s = .next t
      ∧ t.dev.fabMap = map.map (fun x => x.val) ∧ t.dev.fabMapGen = BitVec.ofNat 32 gen
      ∧ (∀ x : Fin 8, t.dev.live.getLsbD x.val = (s.dev.live.getLsbD x.val || decide (x ∈ map))
        ∧ t.dev.fencedPlanes.getLsbD x.val = ((s.dev.fencedPlanes.getLsbD x.val || s.fab.downPlanes.getLsbD x.val) && decide (x ∉ map)))
      ∧ (s.fab.unacked = [] → s.fab.reads = [] → s.fab.leases = [] → t.dev.qstate = 4 ∧ answer t .retried (.retried s.chipId)))
    ∧ (gen = now → s.dev.qstate = 4 → exec (.resume gen) s = .next (({ s with
        dev := { s.dev with qstate := 0 },
        fab := { s.fab with downPlanes := 0, heldBuckets := [], waitAcks := [], fencing := false, plan := s.fab.plan && s.fab.phase != 0 } }).pump).relog)
    ∧ (s.dev.masterAct = true → chip ∉ s.fab.answers →
      let v := fun (g : Nat) => { s with fab := { s.fab with answers := s.fab.answers ++ [chip], baseGen := g } }
      let goes := fun (i : Instr) (n next g : Nat) (f : State → Prop) => s.fab.phase = n →
        ((v g).allAnswered = false → exec i s = .next (v g)) ∧ ((v g).allAnswered = true → ∃ t : State, exec i s = .next t ∧ t.fab.phase = next ∧ f t)
      let top := if s.fab.takeover then max s.fab.baseGen gen else s.fab.baseGen
      let g := s.fab.baseGen
      goes (.stopped ⟨chip, gen⟩) 1 2 top (fun t => t.due (.quiesceFence top) = true ∧ ∀ k ∈ s.livePlanes, Out.fence k top ∈ t.outbox)
      ∧ goes (.fenced chip) 2 3 g (fun t => t.due (.map (g + 1) (s.nextMap.map (fun x => Fin.ofNat 8 x))) = true
        ∧ ∀ k ∈ s.livePlanes, Out.map k (g + 1) s.nextMap ∈ t.outbox)
      ∧ goes (.retried chip) 3 0 g (fun t => t.due (.resume (g + 1)) = true ∧ ∀ k ∈ s.livePlanes, Out.resume k (g + 1) ∈ t.outbox))
    ∧ (s.dev.masterAct = false → fieldOf s.dev.fabId 30 21 = s.chipId →
      (s.dev.qstate = 0 → exec .masterTimeout s = .next { s with dev := { s.dev with masterAct := true } }.sendPtp)
      ∧ (s.dev.qstate ≠ 0 → ∃ t : State, exec .masterTimeout s = .next t ∧ t.dev.masterAct = true ∧ t.fab.phase = 1 ∧ t.fab.takeover = true))
    ∧ (chip ≠ s.chipId → chip ∉ s.fab.unreachable →
      (s.dev.masterAct = true → s.fab.phase ≠ 0 → chip ∉ s.fab.answers → s.fab.stepAt + 100000 ≤ s.reft →
        ∃ t : State, exec (.chipStepTimeout chip) s = .next t ∧ chip ∈ t.fab.unreachable ∧ (s.reft, .chipUnreachable chip) ∈ t.log
          ∧ ∀ k ∈ s.livePlanes, Out.unreachable k chip ∈ t.outbox)
      ∧ (s.dev.masterAct = false → s.dev.qstate ≠ 0 → ∃ t : State, exec (.chipStepTimeout chip) s = .next t ∧ chip ∈ t.fab.unreachable
        ∧ (s.reft, .chipUnreachable chip) ∈ t.log))
    ∧ (s.commanded 3 = true → ∃ m, (s.dev.domainDown = true ∨ (s.dev.masterAct = true ∧ s.fab.phase ≠ 0) → exec .plan s = .next (s.answer 4))
      ∧ (s.dev.domainDown = false → s.dev.masterAct = true → s.fab.phase = 0 → exec .plan s = .next ((s.beginRun 0 (some m)).answer 0))
      ∧ (s.dev.domainDown = false → s.dev.masterAct = false → exec .plan s = .next ((s.emit (.planMap m)).answer 0))))
  ∧ ∀ (s : State) (p : Fin 8) (v : Word) (trained : BitVec 8) (c h : Nat) (st pc : Nat),
    exec .fabWindow s = .next { s with fab := { s.fab with flits := [] } }
    ∧ ((s.part p.val).present = true → ∃ m, exec (.mirrorBrokenClear p v) s = .next (s.updPart p.val (fun x => { x with mirror := m }))
      ∧ ∀ i, i < 32 → m.getLsbD i = ((s.part p.val).mirror.getLsbD i && !(i == 30 && v.getLsbD 30)))
    ∧ ((∃ m ∈ s.fab.mirrorWait, m.1 = p.val ∧ m.2.2.2 + 1000000 ≤ s.reft) →
      fieldOf (s.part p.val).mirror 30 30 = 0 → ∃ t : State, exec (.mirrorAckTimeout p) s = .next t.relog ∧ fieldOf (t.part p.val).mirror 30 30 = 1
        ∧ (∀ m ∈ t.fab.mirrorWait, m.1 ≠ p.val) ∧ t.log = s.log ++ [(s.reft, .mirror p.val)] ∧ t.pkg.alertN = true)
    ∧ (s.pkg.power = .on →
      (∃ t : State, exec (.unitFence (.core c)) s = .next t ∧ (t.core c).fenced = true ∧ fieldOf t.dev.health 0 0 = 1)
      ∧ (∃ t : State, exec (.unitFence (.hob h)) s = .next t ∧ (t.hob h).fenced = true ∧ fieldOf t.dev.health 1 0 = 3
        ∧ ∀ i, i < 6 → (t.core (h / 8 * 48 + h % 8 * 6 + i)).fenced = true)
      ∧ (∃ t : State, exec (.unitFence (.pseudoChannel st pc)) s = .next t ∧ (∃ f ∈ t.kettle.fencedPc, f.stack = st ∧ f.pc = pc)
        ∧ fieldOf t.dev.health 2 2 = 1 ∧ fieldOf t.dev.health 8 8 = 1)
      ∧ exec (.unitFence (.plane p.val)) s = .next ((s.fencePlane p.val).reportDead p.val)
      ∧ ∃ t : State, exec (.fabIdWrite v trained) s = .next t
        ∧ (s.fabEnabled = false → ∀ i, i < 32 → t.dev.fabId.getLsbD i = (v.getLsbD i && i != 10))
        ∧ (s.fabEnabled = true → ∀ i, i < 31 → t.dev.fabId.getLsbD i = s.dev.fabId.getLsbD i) ∧ t.dev.fabId.getLsbD 31 = v.getLsbD 31
        ∧ (s.fabEnabled = false → v.getLsbD 31 = true → t.dev.live = trained ∧ t.dev.masterAct = (fieldOf v 20 11 == fieldOf v 9 0)
          ∧ t.time.reftSync = t.dev.masterAct
          ∧ ∀ x : Fin 8, trained.getLsbD x.val = false → s.fab.phase = 0 → s.dev.fencedPlanes.getLsbD x.val = false → s.fab.downPlanes.getLsbD x.val = false →
            (trained ≠ 0 → t.dev.masterAct = false → ∃ via ∈ t.livePlanes, Out.deadReport via x.val t.dev.fabMapGen.toNat ∈ t.outbox)
            ∧ (trained ≠ 0 → t.dev.masterAct = true → t.fab.phase = 1 ∧ t.fab.runPlanes.getLsbD x.val = true)
            ∧ (trained = 0 → t.dev.domainDown = true ∧ t.dev.fencedPlanes.getLsbD x.val = true))
        ∧ (s.fabEnabled = true → v.getLsbD 31 = false → t.dev.live = 0 ∧ t.dev.masterAct = false ∧ t.fab.heldBuckets = []
          ∧ t.time.reftSync = false ∧ t.time.ratePpm = 0))

/-! ## The host -/

/-- R79, R80, R81, R83, R96, R228: a register write reaches the register at its offset, and does there what the row of that register does; one that is not naturally
aligned does nothing. PKG_PWR_LIMIT and LEASE_MAX keep the nearest value of their ranges. An aperture leads to the bytes at its base, or through the page
tables of its ASID, or the access is aborted and logged. A command code starts its row, PROVISION that of the phase in byte 0 of the buffer, and a code that is none ends as BAD_CMD. A vector that is unmasked delivers the interrupt that waits. R401: a load through the host window
that gets no completion is MACHINE_CHECK at the load in the lowest lane that waits. That the aperture of a disabled virtual device aborts is read from the
rules (LE 70), and the words of an MSI-X entry are those of PCIe (LE 5, PRESUMED). -/
def Obligations.HostAccess : Prop :=
  (∀ (s : State) (v : Word) (x : DWord) (p : Fin 8) (vf : Fin 32) (k : Fin 16) (q : Fin 1024) (fn : HostFn) (bar : Fin 6) (off : Nat) (wide : Bool),
    let narrow := fun (fn : HostFn) (bar : Fin 6) (off : Nat) => exec (.registerWrite fn bar off false (v.setWidth 64)) s
    let broad := fun (off : Nat) => exec (.registerWrite .pf 0 off true x) s
    let wait := fun (i : Instr) => ∃ t : State, narrow .pf 2 0 = .next t ∧ t.mbox.status = 1 ∧ t.mbox.cmd = v ∧ t.due i = true
    (∃ l, exec (.pkgPwrLimitWrite v) s = .next { s with dev := { s.dev with pwrLimit := l } } ∧ l.toNat = max 500 (min 2300 (fieldOf v 11 0)))
    ∧ (∃ l, exec (.leaseMaxWrite v) s = .next { s with dev := { s.dev with leaseMax := l } } ∧ l.toNat = max 1 (min 100 (fieldOf v 6 0)))
    ∧ (off % (if wide then 8 else 4) ≠ 0 → exec (.registerWrite fn bar off wide x) s = .next s)
    ∧ (s.pkg.power = .on →
      narrow .pf 0 0x00 = exec (.devHealthClear v) s ∧ narrow .pf 0 0x08 = exec (.alarmPolicyWrite v) s
      ∧ narrow .pf 0 0x10 = exec (.pkgPwrLimitWrite v) s ∧ narrow .pf 0 0x60 = exec (.leaseMaxWrite v) s
      ∧ narrow .pf 0 (0x1010A08 + 64 * p.val) = exec (.fqEnable p v) s ∧ narrow .pf 0 (0x1010D08 + 64 * p.val) = exec (.sqEnable p v) s
      ∧ broad (0x1010900 + 16 * p.val) = exec (.tlbInv p x) s ∧ broad (0x1010A18 + 64 * p.val) = exec (.fqResolve p x) s
      ∧ broad (0x1010000 + 8 * vf.val) = (if x.getLsbD 31 then exec (.vdEnable vf x) s else exec (.vdDisable vf x) s)
      ∧ narrow (.vf vf) 0 (0x10008 + 64 * q.val) = (if v.getLsbD 30 then exec (.queueReset vf q.val v) s
          else if v.getLsbD 31 then exec (.queueEnable vf q.val v) s else exec (.queuePause vf q.val v) s)
      ∧ narrow (.vf vf) 0 (0x10010 + 64 * q.val) = exec (.queueTailWrite vf q.val v) s
      ∧ narrow (.vf vf) 0 (0x20010 + 64 * k.val) = exec (.ringEnable vf k v) s ∧ narrow (.vf vf) 0 (0x20014 + 64 * k.val) = exec (.ringConsWrite vf k v) s
      ∧ (s.mbox.status = 1 → narrow .pf 2 0 = .next s)
      ∧ (s.mbox.status ≠ 1 → (v.toNat = 1 → wait .layoutSubmit) ∧ (v.toNat = 2 → wait .layoutQuery) ∧ (v.toNat = 3 → wait .plan)
        ∧ (v.toNat = 4 → wait .fwStage) ∧ (v.toNat = 5 → wait .serviceReturn) ∧ (v.toNat = 6 → wait .partitionStop)
        ∧ (v.toNat = 7 → wait .partitionStart) ∧ (v.toNat = 8 → wait .testMode)
        ∧ (v.toNat = 9 → ∀ phase : Byte, s.bufBytes 0 1 = [phase] → wait (if phase = 0 then .provisionGenerate else if phase = 1 then .provisionInstall else .badCmd))
        ∧ (v.toNat = 0 ∨ 9 < v.toNat → wait .badCmd))))
  ∧ (∀ (s : State) (fn : HostFn) (vf : Fin 32) (off len pa : Nat) (data : List Byte) (m : Bool) (vec : Nat), s.pkg.power = .on →
    let d := s.vd vf.val
    let va := d.apVa.toNat + off
    let leads := fun (right : Right) (n : Nat) => s.vdEnabled vf.val = true ∧ off + n ≤ 2 ^ 34 ∧ 0 < n ∧ va / 65536 = (va + n - 1) / 65536
      ∧ s.reach none (s.vdPart vf.val) d.apAsid.toNat va false right = .hbm pa m
    let base := s.dev.apertureBase.toNat + off
    let aborted := { s with outbox := s.outbox ++ [.hostAbort (.vf vf)], log := s.log ++ [(s.reft, .hostAbort)] }
    (off + data.length ≤ 2 ^ 36 → base + data.length ≤ hbmEnd → ∃ t : State, exec (.hostApertureWrite .pf off data) s = .next t
      ∧ t.bytesAt base data.length = data ∧ ∀ a, (a < base ∨ base + data.length ≤ a) → t.byteAt a = s.byteAt a)
    ∧ (off + len ≤ 2 ^ 36 → base + len ≤ hbmEnd →
      exec (.hostApertureRead .pf off len) s = .next { s with outbox := s.outbox ++ [.hostData .pf (s.bytesAt base len)] })
    ∧ (leads .write data.length → pa + data.length ≤ hbmEnd → ∃ t : State, exec (.hostApertureWrite (.vf vf) off data) s = .next t
      ∧ t.bytesAt pa data.length = data ∧ ∀ a, (a < pa ∨ pa + data.length ≤ a) → t.byteAt a = s.byteAt a)
    ∧ (leads .read len → exec (.hostApertureRead (.vf vf) off len) s = .next { s with outbox := s.outbox ++ [.hostData (.vf vf) (s.bytesAt pa len)] })
    ∧ (s.vdEnabled vf.val = false → exec (.hostApertureWrite (.vf vf) off data) s = .next aborted ∧ exec (.hostApertureRead (.vf vf) off len) s = .next aborted)
    ∧ (vec < (if fn = .pf then 128 else 64) → ∃ t : State, exec (.msixUnmask fn vec) s = .next t ∧ t.masked fn vec = false
      ∧ (∀ k, k ∈ (t.msix fn).pend ↔ k ∈ (s.msix fn).pend ∧ k ≠ vec)
      ∧ t.outbox = if vec ∈ (s.msix fn).pend then s.outbox ++ [.irq fn vec] else s.outbox))
  ∧ ∀ (s : State) (core slot wid : Nat) (w : Wave) (q : Pend), s.waveAt core slot = some (wid, w) →
    s.running = true → s.asleep core = false → (w.pend :: w.pends).find? (fun q => decide (q.host ≠ [])) = some q → exec (.hostWindowTimeout core slot) s =
      .next ({ s with log := s.log ++ [(s.reft, LogKind.hostAbort)] }.takeTrap wid 0x01 (s.laneId wid (q.host.foldl min 31)) false (some q.pc) none)

/-- R84, R86 to R88, R94, R99: enabling a virtual device on a partition that is not there leaves it disabled; disabling it resets its queues. ENABLE starts a
queue with a valid owner and size, else it is in error; writing it to 0 pauses the queue, whose pause is over once it has drained; RESET
drops its launches and empties its slots. A tail that leaves more records than the ring holds is an error. Enabling a ring clears its indices. That ENABLE
stays 1 where a SIZE of 13 to 15 is written to a queue or ring that is enabled is the model's choice (LE 46). -/
def Obligations.VirtualDevicesAndQueues : Prop :=
  ∀ (s : State) (vf : Fin 32) (x : DWord) (v : Word) (n hq : Nat) (k : Fin 16),
    let q := s.queue hq
    let r := s.ring vf.val k.val
    let c := s.ctlFields q v
    let named := s.queueAt vf.val n = some hq
    (x.getLsbD 31 = true →
      (s.vdEnabled vf.val = true → exec (.vdEnable vf x) s = .next s)
      ∧ (s.vdEnabled vf.val = false → ∃ t : State, exec (.vdEnable vf x) s = .next t ∧ t.vdPart vf.val = fieldOf x 2 0
        ∧ t.vdEnabled vf.val = (s.part (fieldOf x 2 0)).present))
    ∧ (x.getLsbD 31 = false → ∃ t : State, exec (.vdDisable vf x) s = .next t ∧ t.vdEnabled vf.val = false
      ∧ (s.vdEnabled vf.val = true → ∀ e ∈ s.queues, Tbl.find s.queues e.1 = some e.2 → e.2.valid = true → e.2.vf = vf.val → (t.queue e.1).state = 3))
    ∧ (named → v.getLsbD 30 = false → v.getLsbD 31 = true →
      let w := { q with ctl := c }
      (q.enabled = false → q.state < 2 → fieldOf c 27 24 < 13 → q.valid = true → ∃ t : State, exec (.queueEnable vf n v) s = .next t
        ∧ (t.queue hq).state = 1 ∧ (t.queue hq).enabled = true ∧ (t.queue hq).ringSize = w.ringSize ∧ (t.queue hq).cls = w.cls
        ∧ (t.queue hq).asid = w.asid ∧ (t.queue hq).tail = if q.head = q.tail ∧ s.slotsFree q = true then 0 else q.tail)
      ∧ (q.enabled = false → q.state < 2 → (13 ≤ fieldOf c 27 24 ∨ q.valid = false) → ∃ t : State, exec (.queueEnable vf n v) s = .next t
        ∧ (t.queue hq).state = 2 ∧ fieldOf (t.queue hq).status 23 16 = 0x09 ∧ (t.queue hq).enabled = false)
      ∧ (q.enabled = true → exec (.queueEnable vf n v) s = .next (s.updQueue hq (fun q => { q with ctl := c }))))
    ∧ (named → v.getLsbD 30 = false → v.getLsbD 31 = false → q.state ≠ 3 → ∃ t : State, exec (.queuePause vf n v) s = .next t
      ∧ (t.queue hq).enabled = false ∧ (t.queue hq).state = q.state ∧ (q.state = 1 → t.due (.queuePauseDrained hq) = true))
    ∧ (named → v.getLsbD 30 = true → q.state ≠ 3 → ∃ t : State, exec (.queueReset vf n v) s = .next t ∧ (t.queue hq).state = 3
      ∧ t.due (.queueResetDone hq) = true ∧ (∀ e ∈ t.grids, e.2.hq ≠ hq))
    ∧ (named → q.state ≠ 3 →
      ((v - q.head).toNat ≤ q.ringSize → ∃ t : State, exec (.queueTailWrite vf n v) s = .next t ∧ t.queue hq = { q with tail := v })
      ∧ (q.ringSize < (v - q.head).toNat → exec (.queueTailWrite vf n v) s = .next (s.queueError hq 0x04 0)))
    ∧ (q.enabled = false → q.state = 1 → (∀ t ∈ s.teams, t.2.loc = .saved) → (∀ e ∈ s.slots, e.2.st ≠ .running) →
      exec (.queuePauseDrained hq) s = .next (s.updQueue hq (fun q => q.setState 0)))
    ∧ (q.state = 3 → ∃ t : State, exec (.queueResetDone hq) s = .next t ∧ (t.queue hq).state = 0 ∧ (t.queue hq).head = q.tail
      ∧ (t.queue hq).enabled = false ∧ fieldOf (t.queue hq).status 23 16 = 0 ∧ ∀ j, q.slotBase ≤ j → j < q.slotBase + q.slotCount → t.slot j = .reset)
    ∧ (let on := v.getLsbD 31 = true ∧ (r.enabled = true ∨ fieldOf v 30 27 < 13)
      ∃ t : State, exec (.ringEnable vf k v) s = .next t ∧ (t.ring vf.val k.val).enabled = decide on
        ∧ (∀ i, 3 ≤ i → i < 31 → (t.ring vf.val k.val).ctl.getLsbD i = v.getLsbD i)
        ∧ (on → r.enabled = false → (t.ring vf.val k.val).prod = 0 ∧ (t.ring vf.val k.val).cons = 0)
        ∧ (t.ring vf.val k.val).base = r.base)
    ∧ ∃ t : State, exec (.ringConsWrite vf k v) s = .next t ∧ t.ring vf.val k.val = { r with cons := v }

/-- R191, R193, R198, R199, R228: TLB_INV is BUSY until it is done, and takes no write before; with its end every TLB has dropped what it covers. A record queue starts with its indices at 0, and keeps its base
while it is on. FQ_RESOLVE with FAIL marks the accesses of waves to the page as failed; without it they are translated again, and wait no more unless
they fault again; for the waves of a relocking core it waits in the core's FIFO (R15), and on a halted device it does nothing (R44). That ENABLE of a record queue which is on stays 1 with a SIZE of 13 to 15 is the model's choice (LE 46), and so is that an invalidation
waits for requests under way (LE 14); what FQ_RESOLVE does to the waiting accesses is read from the rules (LE 28). -/
def Obligations.TranslationControl : Prop :=
  ∀ (s : State) (p : Fin 8) (x : DWord) (v : Word) (wid : Nat) (w : Wave), (s.part p.val).present = true →
    let part := s.part p.val
    let made := fun (q r : RecQueue) => r.base = q.base ∧ r.enabled = (v.getLsbD 31 && (q.enabled || decide (fieldOf v 30 27 < 13)))
      ∧ fieldOf r.ctl 30 20 = fieldOf v 30 20 ∧ fieldOf r.ctl 19 0 = 0 ∧ (r.tail, r.head, r.lost) = if r.enabled = true ∧ q.enabled = false then (0, 0, 0)
        else (q.tail, q.head, q.lost)
    let mine := fun (y : PageWait) => y.asid = fieldOf x 11 0 ∧ y.page = fieldOf x 51 16
    (part.tlbInv = none → ∃ t : State, exec (.tlbInv p x) s = .next t ∧ (t.part p.val).tlbInv = some x ∧ t.due (.tlbInvDone p) = true)
    ∧ (part.tlbInv ≠ none → exec (.tlbInv p x) s = .next s)
    ∧ (part.tlbInv = none → exec (.tlbInvDone p) s = .next s)
    ∧ (∀ y, part.tlbInv = some y → ∃ t : State, exec (.tlbInvDone p) s = .next t
      ∧ (∀ c, (t.core c).tlb = (s.core c).tlb.filter (fun e => !State.tlbCovers p.val y e))
      ∧ (∀ c, Tbl.find t.ctlb c = (Tbl.find s.ctlb c).map (fun l => l.filter (fun e => !State.tlbCovers p.val y e)))
      ∧ (s.tlbUsed p.val y = false → t.part p.val = { part with tlbInv := none })
      ∧ (s.tlbUsed p.val y = true → t.part p.val = part ∧ t.due (.tlbInvDone p) = true))
    ∧ (∃ t : State, exec (.sqEnable p v) s = .next t ∧ made part.sq (t.part p.val).sq)
    ∧ ((∀ c ∈ s.cores, c.2.sideLog = []) → ∃ t : State, exec (.fqEnable p v) s = .next t ∧ made part.fq (t.part p.val).fq)
    ∧ (s.pkg.halted = true → exec (.fqResolve p x) s = .next s)
    ∧ (s.jobs = [] → (∀ c ∈ s.cores, c.2.sideLog = []) → (∀ u ∈ s.fab.unacked, u.faulted = false) → Tbl.find s.waves wid = some w →
      s.waves.Pairwise (fun a b => a.1 ≠ b.1) → s.partOf wid = p.val → (∃ q ∈ w.pend :: w.pends, ∃ y ∈ q.pages, mine y) → s.pkg.halted = false →
      ∀ k, Tbl.find s.teams w.team = some k → (k.loc ≠ .saved → s.asleep (s.coreOf wid) = true → ∃ t : State, exec (.fqResolve p x) s = .next t
          ∧ Tbl.find t.waves wid = some w ∧ Packet.resolve p.val (fieldOf x 11 0) (fieldOf x 51 16) (x.getLsbD 63) ∈ (t.core (s.coreOf wid)).inbound)
      ∧ (s.asleep (s.coreOf wid) = false → x.getLsbD 63 = true → ∃ t : State, exec (.fqResolve p x) s = .next t ∧ Tbl.find t.waves wid = some (w.mapPends (fun q => { q with
          pages := q.pages.map (fun y => if mine y then { y with failed := true } else y) })))
      ∧ (s.asleep (s.coreOf wid) = false → x.getLsbD 63 = false → part.fq.enabled = false → ∃ t : State, exec (.fqResolve p x) s = .next t
        ∧ Tbl.find t.waves wid = some (w.mapPends (fun q => if ∃ y ∈ q.pages, mine y
            then { q with pages := q.pages.filter (fun y => ¬ mine y), absent := [] } else q))))

/-! ## The scheduler -/

/-- R106, R110, R111, R115 to R121: a queue's head is its first unplaced team, child grids ahead. In a round a queue without one loses its deficit, QUANTUM 0
passes it over, and else it gains its quantum and teams are placed while the deficit pays for them; a round ends with the first queue that placed
one, and H has its round only where G placed none. A team starts on the core that is first in R116's order, at most one in 16 ticks per cluster.
TEAM_PLACEMENT gives the running virtual device such an opportunity, after its saved teams resumed. A team whose claims are over is ready; a spilled
slab or tile is free once it is copied; the oldest evicted wave of a side returns once all that it held is free; while LEND is 1 parked G waves lend
what they hold, and claim it back once they are ready. When these rows run, that a relock or a move holds them, and the order of two waves that could
lend are the model's choices (LE 48, LE 50); so are the order of the bytes of a spilled slab in its eviction area (LE 16), and that a paused queue, which loses its
deficit, places no child grid either (LE 82, R111). -/
def Obligations.PlacementAndLending : Prop :=
  (∀ (s : State) (hq g n : Nat) (k : Grid),
    let q := s.queue hq
    let most := min (q.deficit + s.quantum q) (2 * s.quantum q + 32)
    let fed := s.updQueue hq (fun q => { q with deficit := most })
    let none_ := fun (s : State) => s.updQueue hq (fun q => { q with deficit := 0 })
    let r := fed.serveQueue hq 8
    let u := if (r.2.headGrid hq).isNone then none_ r.2 else r.2
    (s.headGrid hq = some (g, k) → (g, k) ∈ s.grids ∧ k.hq = hq ∧ State.unplaced k = true ∧ (k.parent = none → ∀ e ∈ s.grids, e.2.hq = hq →
        State.unplaced e.2 = true → e.2.parent = none ∧ (s.slot k.slot).order ≤ (s.slot e.2.slot).order))
    ∧ (s.headGrid hq = none → ∀ e ∈ s.grids, e.2.hq = hq → State.unplaced e.2 = false)
    ∧ (k.returned = [] → State.headIndex k = k.next)
    ∧ (k.returned ≠ [] → State.headIndex k ∈ k.returned ∧ ∀ i ∈ k.returned, State.headIndex k ≤ i)
    ∧ (s.headGrid hq = none → s.serveQueue hq n = (false, s))
    ∧ (s.headGrid hq = some (g, k) → (q.deficit < State.teamCost k ∨ s.placeTeam g k = none) → s.serveQueue hq n = (false, s))
    ∧ (s.headGrid hq = some (g, k) → State.teamCost k ≤ q.deficit → ∀ t, s.placeTeam g k = some t → s.serveQueue hq (n + 1) =
        (true, ((t.updQueue hq (fun q => { q with deficit := q.deficit - State.teamCost k })).serveQueue hq n).2))
    ∧ (s.headGrid hq = none ∨ s.queuePlaces q = false → s.serveOne hq = (false, none_ s))
    ∧ (s.headGrid hq ≠ none → s.queuePlaces q = true → s.quantum q = 0 → s.serveOne hq = (false, s))
    ∧ (s.headGrid hq ≠ none → s.queuePlaces q = true → s.quantum q ≠ 0 → (fed.queue hq).deficit = most ∧ s.serveOne hq =
        (r.1, u.updPart (s.vdPart q.vf) (fun x => if q.cls = .g then { x with ptrG := q.loc + 1 } else { x with ptrH := q.loc + 1 })))
    ∧ ((s.serveOne hq).1 = true ↔ s.queuePlaces q = true ∧ s.quantum q ≠ 0 ∧
        ∃ e, s.headGrid hq = some e ∧ State.teamCost e.2 ≤ most ∧ fed.placeTeam e.1 e.2 ≠ none))
  ∧ (∀ (s : State) (p vf : Nat) (cls : Cls) (qs rs : List Nat) (x : Nat), s.queues.Pairwise (fun a b => a.1 ≠ b.1) →
    let at_ := (if cls = .g then (s.part p).ptrG else (s.part p).ptrH) % 65536
    let turn := fun hq => ((s.queue hq).loc + 65536 - at_) % 65536
    let g := s.serveRound (s.roundOf p vf .g)
    (∀ hq, hq ∈ s.roundOf p vf cls ↔ ∃ q, (hq, q) ∈ s.queues ∧ q.valid = true ∧ q.vf = vf ∧ q.cls = cls)
    ∧ (s.roundOf p vf cls).Pairwise (fun a b => turn a ≤ turn b)
    ∧ ((s.serveOne x).1 = true → s.serveRound (x :: qs) = s.serveOne x)
    ∧ ((s.serveOne x).1 = false → s.serveRound (x :: qs) = (s.serveOne x).2.serveRound qs)
    ∧ s.serveRound [] = (false, s)
    ∧ ((s.serveRound qs).1 = true → s.serveRound (qs ++ rs) = s.serveRound qs)
    ∧ (g.1 = true → s.serve p vf = g.2)
    ∧ (g.1 = false → s.serve p vf = (g.2.serveRound (g.2.roundOf p vf .h)).2))
  ∧ (∀ (s : State) (p c g : Nat) (k : Grid) (r : LaunchRec) (cls : Cls) (f : Fit),
    let claims := fun (f : Fit) => if f.free = true then 0 else 1 + f.claimedSlabs
    let rank := fun c => let pc := (s.pool (s.hob (hobOf c)).pool).cls
      if pc = r.opclass then 0 else if r.opclass < pc then 1 else 2
    let load := fun c => min 1023 ((s.coreWaves c).filter (fun e => s.clsOf e.1 == cls)).length
    let first := fun (c : Nat) (f : Fit) (d : Nat) (h : Fit) => claims f < claims h ∨ (claims f = claims h ∧ (rank c < rank d ∨ (rank c = rank d
      ∧ (load c < load d ∨ (load c = load d ∧ c ≤ d)))))
    (s.chooseCore p r cls = some (c, f) → c ∈ s.coresOf p ∧ s.fit c p r cls true = some f
      ∧ ∀ d ∈ s.coresOf p, ∀ h, s.fit d p r cls true = some h → first c f d h)
    ∧ (s.chooseCore p r cls = none → ∀ d ∈ s.coresOf p, s.fit d p r cls true = none)
    ∧ (s.fit c p r cls true = some f → (s.core c).fenced = false ∧ (s.hob (hobOf c)).fenced = false ∧ (cls = .h → f.free = true))
    ∧ (s.chooseCore k.part k.lrec k.cls = none → s.placeTeam g k = none)
    ∧ (s.chooseCore k.part k.lrec k.cls = some (c, f) → s.placerFree (clusterOf c) = false → s.placeTeam g k = none)
    ∧ (s.chooseCore k.part k.lrec k.cls = some (c, f) → s.placerFree (clusterOf c) = true → Tbl.find s.grids g = some k →
      ∃ (t : State) (id : Nat) (y : Team), s.placeTeam g k = some t ∧ Tbl.find t.teams id = some y ∧ y.grid = g ∧ y.index = State.headIndex k ∧ y.core = c
        ∧ y.start = f.start ∧ y.tiles.length = f.tiles.1.length ∧ t.placerFree (clusterOf c) = false))
  ∧ (∀ (s : State) (cluster : Fin 8) (core slot p vf wid n : Nat) (side : Fin 2) (w : Wave),
    let x := s.part p
    let placed := (s.resumeSaved p vf).serve p vf
    let mine := s.claims.filter (fun c => c.core == core && c.side == side.val)
    let oldest := (s.evictedOn core (slot / 16 % 2)).head?
    let h := (s.coreWaves core).filter (fun e => e.2.side == w.side && e.2.evicted.isNone && s.clsOf e.1 == .h && e.2.things.any w.things.contains)
    let held := s.coreRuns core = false ∨ s.moveAt core = true
    let idle := fun (w : Wave) => (∃ a, w.park = .waitv a) ∨ (∃ t, w.park = .sleep t) ∨ w.park = .bar ∨ w.park = .cbar
    let back := fun (t : State) (y : Wave) => (t.reclaim core wid y).claimSide core y.side y.team
    (s.ownerOf cluster.val = some p → x.slice.cur = some vf → x.stopped = false → x.slice.switching = false → s.running = true → s.reft < x.slice.stop →
      exec (.teamPlacement cluster) s = .next (if placed.placeLater vf = true ∧ placed.due (.teamPlacement cluster) = false
        then placed.after 16 (.teamPlacement cluster) else placed))
    ∧ ((s.ownerOf cluster.val = none ∨ ∃ p, s.ownerOf cluster.val = some p ∧ ((s.part p).slice.cur = none ∨ (s.part p).slice.switching = true
        ∨ (s.part p).stopped = true ∨ s.running = false ∨ (s.part p).slice.stop ≤ s.reft)) → exec (.teamPlacement cluster) s = .next s)
    ∧ (mine = [] → exec (.claimComplete core side) s = .next s)
    ∧ (mine ≠ [] → held → exec (.claimComplete core side) s = .next (s.soon (.claimComplete core side)))
    ∧ (mine ≠ [] → ¬ held → ∃ t : State, exec (.claimComplete core side) s = .next t
      ∧ (∀ c, c ∈ t.claims ↔ c ∈ s.claims ∧ c ∉ mine)
      ∧ ∀ c ∈ mine, (∀ d ∈ t.claims, d.team ≠ c.team) → ∀ k, Tbl.find s.teams c.team = some k → Tbl.find t.teams c.team = some { k with ready := true })
    ∧ (((s.core core).spills.find? (fun e => e.1 == side.val) = none ∨ s.running = false) → exec (.spillCopyDone core side) s = .next s)
    ∧ (∀ e, (s.core core).spills.find? (fun e => e.1 == side.val) = some e → s.running = true → s.asleep core = true →
      exec (.spillCopyDone core side) s = .next (s.atRelockEnd core (.spillCopyDone core side)))
    ∧ (∀ e, (s.core core).spills.find? (fun e => e.1 == side.val) = some e → s.running = true → s.asleep core = false →
      ∃ t : State, exec (.spillCopyDone core side) s = .next t
      ∧ (t.core core).spills = (s.core core).spills.erase e
      ∧ (∀ i k, e.2 = .slab i k → ∀ y, Tbl.find s.waves i = some y →
        (∃ z, Tbl.find t.waves i = some { y with hown := y.hown.filter (fun z => z ≠ k), away := z })
        ∧ ∀ x o u g, y.slabs[k]? = some x → s.occupant (s.placeOf y).1 y.side x = some o → Tbl.find s.teams o.2.team = some u → s.gridOf u = some g →
          let pa := s.framePa g.part g.vf (s.placeOf y).1 + State.slabAway y.side x
          let n := (o.2.slabs.takeWhile (fun z => z ≠ x)).length
          (pa + 8192 ≤ hbmEnd → t.bytesAt pa 8192 = slabBytes o.2 n) ∧ (Tbl.find s.waves o.1 = some o.2 → ∃ z, Tbl.find t.waves o.1 = some z ∧ n ∈ z.away))
      ∧ (∀ i k, e.2 = .home i k → ∀ y u g, Tbl.find s.waves i = some y → Tbl.find s.teams y.team = some u → s.gridOf u = some g →
        let bs := s.bytesAt (s.framePa g.part g.vf (s.placeOf y).1 + State.slabAway y.side (y.slabs.getD k 0)) 8192
        Tbl.find t.waves i = some { slabFrom y k bs with away := y.away.filter (fun z => z ≠ k) })
      ∧ (∀ i k, e.2 = .tile i k → (t.core core).tileH = (s.core core).tileH.filter (fun z => z ≠ k))
      ∧ (∀ i k d, e.2 = .gate i k d → ∀ y g, Tbl.find s.waves i = some y → y.gates[y.gates.length - d]? = some g → ∃ z h, Tbl.find t.waves i = some z
        ∧ z.gates = y.gates.set (y.gates.length - d) h ∧ h.owned = g.owned ++ [(k, (s.framePlace (s.partOf i) g.fasid (g.frame + k * 0x2000)).isSome)])
      ∧ (∀ i k, e.2 = .back i k → ∀ y, Tbl.find s.waves i = some y → (∃ r ∈ y.refill, r.1 = k) → ∃ z, Tbl.find t.waves i = some z
        ∧ z.refill = y.refill.filter (fun r => r.1 ≠ k)))
    ∧ (oldest = some (wid, w) → s.running = true → w.slot = slot → s.thingsBack core wid w = true → s.asleep core = false →
      exec (.readmission core slot) s = .next ((s.readmit wid w).freed core))
    ∧ (oldest = some (wid, w) → s.running = true → w.slot = slot → s.thingsBack core wid w = true → s.asleep core = true →
      exec (.readmission core slot) s = .next (s.atRelockEnd core (.readmission core slot)))
    ∧ (oldest = some (wid, w) → (s.running = false ∨ w.slot ≠ slot ∨ s.thingsBack core wid w = false) → exec (.readmission core slot) s = .next s)
    ∧ (oldest = none → exec (.readmission core slot) s = .next s)
    ∧ (s.lendSoon core side.val = some 0 ↔ ∀ e ∈ s.coreWaves core, e.2.side = side.val → s.clsOf e.1 = .g →
      idle e.2 ∧ ∃ a, e.2.parkClk = some a ∧ a + 4096 ≤ (s.hob (hobOf core)).clk)
    ∧ (s.ownerOf (clusterOf core) = some p → fieldOf x.schedNow 31 31 = 1 → s.evictedOn core side.val ≠ [] → s.running = true →
      (s.lendSoon core side.val = some 0 → ¬ held → mine = [] →
        exec (.slabLend core side) s = .next ((s.evictedOn core side.val).foldl (fun s e => s.lendTo core e) s))
      ∧ (s.lendSoon core side.val = some 0 → held ∨ mine ≠ [] → exec (.slabLend core side) s = .next (s.after 16 (.slabLend core side)))
      ∧ (s.lendSoon core side.val = some (n + 1) → s.due (.slabLend core side) = false →
        exec (.slabLend core side) s = .next (s.after (max 1 (s.ticksFor (hobOf core) (n + 1))) (.slabLend core side))))
    ∧ ((s.ownerOf (clusterOf core) = none ∨ s.lendSoon core side.val = none ∨ s.evictedOn core side.val = [] ∨ s.running = false) →
      exec (.slabLend core side) s = .next s)
    ∧ (s.ownerOf (clusterOf core) = some p → fieldOf x.schedNow 31 31 = 0 → exec (.slabLend core side) s = .next s)
    ∧ (s.lentAt core slot = none → exec (.lendReclaim core slot) s = .next s)
    ∧ (s.lentAt core slot = some (wid, w) → Tbl.find s.waves wid = some w →
      (held → exec (.lendReclaim core slot) s = .next (s.soon (.lendReclaim core slot)))
      ∧ (¬ held → s.lentReady w = false → w.watches = false → exec (.lendReclaim core slot) s = .next s)
      ∧ (¬ held → s.lentReady w = false → w.watches = true → let u := s.rereadWaitv core (wid, w)
        ∀ y, Tbl.find u.waves wid = some y → exec (.lendReclaim core slot) s = .next (if u.lentReady y = true then back u y else u))
      ∧ (¬ held → s.lentReady w = true → ∃ t : State, exec (.lendReclaim core slot) s = .next t
        ∧ t.due (.claimComplete core (Fin.ofNat 2 w.side)) = true
        ∧ (∃ c ∈ t.claims, c.core = core ∧ c.side = w.side ∧ c.team = w.team)
        ∧ t = back s w ∧ (∃ y, Tbl.find t.waves wid = some y ∧ y.lent = false)
        ∧ ∀ e ∈ h, e.1 ≠ wid → Tbl.find s.waves e.1 = some e.2 → e.2.retired = false → ∃ y, Tbl.find t.waves e.1 = some y ∧ y.evicted ≠ none)))

/-- R107 to R109, R112, R124 to R133: at the end of a slice the next virtual device with work, weight and frames is picked, another one by a switch: every
cluster chooses to drain, save or discard what is left of the outgoing one, exchanges its arrays once none of its teams is resident, and with the
last cluster the incoming one starts, an overrun being charged to the outgoing one. Yield requests go out ahead of the end, and
only where the same device is picked again are they withdrawn. Kettle may move a
preemptible team to another core of its cluster, which then forwards for 64 µs. That with no virtual device at work the resident teams are switched out, and
the partition then idles, is read from the rules (LE 49); that the end of a move waits for a relock of one of its hobs too, and that a move keeps the scratch offset (LE 51);
that the ticks beyond the budget are the charge, taken from the next slice (LE 53). That a yield request stands after the end of the slice until its team is saved or the
same device is picked is the model's choice (LE 82; R124, R130), as is that the boundary waits until the core cycle in which the slice ended is over (LE 82). -/
def Obligations.SlicesAndMoves : Prop :=
  (∀ (s u : State) (p : Fin 8) (v cur : Nat),
    let x := s.part p.val
    let idle := x.present = true ∧ x.stopped = false ∧ x.slice.switching = false ∧ s.running = true
    let pick := (s.takeSched p.val).pickVd p.val
    let sameCycle := ∃ c ∈ s.clustersOf p.val, ∃ e ∈ s.outgoing p.val cur c, e.2.yieldBy ≠ none ∧ (s.hob (hobOf e.2.core)).relockEnd = none
      ∧ (s.reft - x.slice.stop) * (6 + (s.hob (hobOf e.2.core)).step) ≤ (s.hob (hobOf e.2.core)).phase
    let budget := 1000 * max 1 (fieldOf x.schedNow 9 0)
    (∀ a t, s.pickVd a = (some v, t) → s.eligible a v = true ∧ s.noFrames a v = false)
    ∧ (let t := s.startSlice p.val v
      (t.part p.val).slice.cur = some v ∧ (t.part p.val).slice.start = s.reft ∧ (t.part p.val).slice.switching = false
      ∧ (t.part p.val).slice.stop = s.reft + (1000 * fieldOf (s.vd v).sliceNow 15 0 - (s.vd v).charge)
      ∧ (t.vd v).charge = 0 ∧ t.due (.sliceBoundary p) = true ∧ t.due (.yieldRequest p) = true)
    ∧ (idle → x.slice.cur = none → (pick = (none, u) → exec (.sliceBoundary p) s = .next u)
      ∧ (pick = (some v, u) → exec (.sliceBoundary p) s = .next (u.startSlice p.val v)))
    ∧ (idle → x.slice.cur = some cur → s.reft < x.slice.stop → exec (.sliceBoundary p) s = .next s)
    ∧ (idle → x.slice.cur = some cur → x.slice.stop ≤ s.reft → sameCycle →
      exec (.sliceBoundary p) s = .next (s.after 1 (.sliceBoundary p)))
    ∧ (idle → x.slice.cur = some cur → x.slice.stop ≤ s.reft → ¬ sameCycle →
      (pick = (none, u) → ∃ t : State, exec (.sliceBoundary p) s = .next t
        ∧ ((∃ c ∈ u.clustersOf p.val, u.outgoing p.val cur c ≠ []) → (t.part p.val).slice.switching = true ∧ (t.part p.val).slice.next = none
          ∧ ∀ c ∈ u.clustersOf p.val, t.due (.sliceEnd (Fin.ofNat 8 c)) = true)
        ∧ ((∀ c ∈ u.clustersOf p.val, u.outgoing p.val cur c = []) → t = u.updPart p.val (fun y => { y with slice := { y.slice with cur := none } })))
      ∧ (pick = (some cur, u) → exec (.sliceBoundary p) s = .next ((u.endYield p.val cur).startSlice p.val cur))
      ∧ (pick = (some v, u) → v ≠ cur → ∃ t : State, exec (.sliceBoundary p) s = .next t ∧ (t.part p.val).slice.switching = true ∧ t.teams = s.teams ∧ t.waves = s.waves
        ∧ (t.part p.val).slice.next = some v ∧ ∀ c ∈ s.clustersOf p.val, t.due (.sliceEnd (Fin.ofNat 8 c)) = true))
    ∧ (x.slice.cur = some cur → x.slice.switching = false → x.slice.yielding = false → x.stopped = false → s.reft < x.slice.stop →
      x.slice.stop ≤ s.reft + 1000 * fieldOf x.schedNow 25 16 → ∃ t : State, exec (.yieldRequest p) s = .next t
        ∧ (t.part p.val).slice.yielding = true ∧ ∀ c ∈ s.clustersOf p.val, ∀ e ∈ s.outgoing p.val cur c, Tbl.find s.teams e.1 = some e.2 →
          Tbl.find t.teams e.1 = some { e.2 with yieldBy := some x.slice.stop })
    ∧ (x.slice.cur = some cur → x.slice.switching = true → s.running = true → (∀ c ∈ s.clustersOf p.val, c ∈ x.slice.exchanged) →
      (∀ v, x.slice.next = some v → ∃ t : State, exec (.switchComplete p) s = .next t ∧ (t.part p.val).slice.cur = some v
        ∧ (t.part p.val).slice.start = s.reft ∧ (v ≠ cur → x.slice.stop + budget < s.reft → (t.vd cur).charge = s.reft - (x.slice.stop + budget)))
      ∧ (x.slice.next = none → ∃ t : State, exec (.switchComplete p) s = .next t ∧ (t.part p.val).slice.cur = none)))
  ∧ (∀ (s : State) (cl : Fin 8) (p cur : Nat), s.ownerOf cl.val = some p →
    let x := s.part p
    let switching := x.slice.cur = some cur ∧ x.slice.switching = true ∧ s.running = true
    let free := s.choiceHeld cl.val = false
    let saved := fun (t : State) => ∀ e ∈ s.halting p cur cl.val, Tbl.find s.teams e.1 = some e.2 →
      ∃ k, Tbl.find t.teams e.1 = some k ∧ k.loc = .saved ∧ k.core = e.2.core
    let chose := fun (c : Choice) => (∃ e ∈ x.slice.choices, e.1 = cl.val) ∧ ∀ e ∈ x.slice.choices, e.1 = cl.val → e.2 = c
    let none_ := s.outgoing p cur cl.val = []
    let loaded := fun (t : State) (v : Option Nat) => ∀ i, i < 48 → (t.core (cl.val * 48 + i)).preload = v
    let budget := 1000 * max 1 (fieldOf x.schedNow 9 0)
    let choice := s.sliceChoice budget (s.outgoing p cur cl.val)
    (switching → free → (∀ e ∈ x.slice.choices, e.1 ≠ cl.val) → ∃ t : State, exec (.sliceEnd cl) s = .next t
      ∧ (t.part p).slice.choices = x.slice.choices ++ [(cl.val, choice)] ∧ t.due (.shadowExchange cl) = true
      ∧ (choice = .drain → t.due (.drainDeadline cl) = true) ∧ (choice = .save ∨ choice = .overrun → saved t))
    ∧ (let ts := s.outgoing p cur cl.val
      let total := (ts.map (fun e => e.2.hwm)).sum
      let must := ((ts.filter (fun e => match Tbl.find s.grids e.2.grid with
        | none => true
        | some g => !(g.cls == .h && g.lrec.restartable))).map (fun e => e.2.hwm)).sum
      let drains := ∀ e ∈ ts, ∃ n, s.drainEstimate e.2 = some n ∧ n ≤ budget
      (drains → choice = .drain) ∧ (¬ drains → total ≤ 1000 * budget → choice = .save)
      ∧ (¬ drains → 1000 * budget < total → must ≤ 1000 * budget → choice = .discard)
      ∧ (¬ drains → 1000 * budget < must → must ≤ total → choice = .overrun))
    ∧ (switching → free → (cl.val, .drain) ∈ x.slice.choices → x.slice.stop + budget ≤ s.reft → ∃ t : State, exec (.drainDeadline cl) s = .next t
      ∧ t.due (.shadowExchange cl) = true ∧ saved t)
    ∧ (switching → free → cl.val ∉ x.slice.exchanged →
      (none_ → s.haltHeld cl.val = false → (∃ e ∈ x.slice.choices, e.1 = cl.val) →
        (x.slice.next = none ∨ loaded s x.slice.next → ∃ t : State, exec (.shadowExchange cl) s = .next t
          ∧ t.due (.switchComplete (Fin.ofNat 8 p)) = true ∧ (t.part p).slice.exchanged = x.slice.exchanged ++ [cl.val] ∧ loaded t none)
        ∧ (x.slice.next ≠ none → ¬ loaded s x.slice.next → ∃ t : State, exec (.shadowExchange cl) s = .next t
          ∧ t.due (.shadowExchange cl) = true ∧ (t.part p).slice.exchanged = x.slice.exchanged ∧ loaded t x.slice.next))
      ∧ (¬ none_ → chose .drain → exec (.shadowExchange cl) s = .next (s.soon (.shadowExchange cl)))
      ∧ (chose .save → ∃ t : State, exec (.shadowExchange cl) s = .next t ∧ saved t)))
  ∧ ∀ (s : State) (team target core : Nat) (k : Team) (g : Grid), Tbl.find s.teams team = some k → Tbl.find s.grids k.grid = some g →
    (s.mayMove team k target = true → ∃ t : State, exec (.thermalMigration team target) s = .next t
      ∧ Tbl.find t.teams team = some { k with loc := .moving target } ∧ t.due (.migrationComplete team) = true)
    ∧ (s.mayMove team k target = false → exec (.thermalMigration team target) s = .next s)
    ∧ (k.loc = .moving target → s.running = true → s.asleep k.core = false → s.asleep target = false → let u := s.updTeam team (fun k => { k with loc := .resident })
      (u.moveFit team k target = none → ∃ (t : State) (y : Team), exec (.migrationComplete team) s = .next t ∧ Tbl.find t.teams team = some y
        ∧ y.core = k.core ∧ y.loc = .resident ∧ y.start = k.start)
      ∧ (∀ f, u.moveFit team k target = some f → k.core ≠ target → ∃ (t : State) (y : Team), exec (.migrationComplete team) s = .next t
        ∧ Tbl.find t.teams team = some y ∧ y.core = target ∧ y.loc = .resident ∧ y.start = k.start ∧ t.due (.forwardingExpiry k.core) = true
        ∧ ∃ e ∈ (t.core k.core).forwards, e.lo = k.start ∧ e.hi = k.start + g.lrec.bytes ∧ e.till = s.reft + 64000))
    ∧ ∃ t : State, exec (.forwardingExpiry core) s = .next t ∧ (t.core core).forwards = (s.core core).forwards.filter (fun f => decide (s.reft < f.till))

/-! ## Queues and graphs -/

/-- R88 to R96, R101 to R105, R151, R247: Whisk loads the next record into its slot, READY or PENDING by its counter, unless the slot is in use; a READY node starts and
does its work; with its end, and once the release that follows it has met no unacknowledged request of its partition and no duplicate that a partner cut off owes it, its slot is DONE or FREE and its successors count
down. A WAIT polls its word, a COND re-arms its range once it is
idle, a SIGNAL stores its value, a HOSTPOST writes records and the producer index. A launch whose teams and children are gone stores its completion word; a killed one
is run again, at most three times, with its pages put back. That a bad SLOT is BAD_NODE with the head moved past it is read from the rules (LE 44), and so is
which of two HOSTPOST nodes posts first (LE 47); what the release of Whisk waits for is as the model takes R91 (LE 7). The starts are those of the model's
functions for each kind of node. -/
def Obligations.GraphNodes : Prop :=
  (∀ (s : State) (hq k : Nat) (n : List Byte),
    let q := s.queue hq
    let x := s.slot k
    let at_ := q.base.toNat + 64 * (q.head.toNat % q.ringSize)
    let forward := (s.whiskTouch q q.asid at_ 64 .read).updQueue hq (fun q => { q with head := q.head + 1 })
    let ended := fun (t : State) => (t.slot k).run = .ended ∧ (t.slot k).st = .running ∧ t.due (.nodeComplete hq k) = true
    let runs := fun (m : Nat) => x.st = .running ∧ x.hq = hq ∧ s.nodeRuns hq m = true
    let quiet := fun (f : Option Nat) => (∀ u ∈ s.fab.unacked, u.part = s.vdPart q.vf → f.getD s.nextId ≤ u.ord)
      ∧ (fieldOf (s.part (s.vdPart q.vf)).mirror 30 30 = 1 ∨ ∀ m ∈ s.fab.mirrorWait, m.1 = s.vdPart q.vf → m.2.2.1 ≠ 2 ^ 32)
    let started := s.updSlot k (fun x => { x with st := .running, run := .none })
    let range := (List.range (Node.last x.node + 1 - Node.first x.node)).map (fun i => q.slotBase + Node.first x.node + i)
    (s.whiskOn hq = true → q.head ≠ q.tail →
      (s.whiskRead q q.asid at_ 64 = none → exec (.recordFetch hq) s = .next (s.queueError hq 0x05 0))
      ∧ (s.whiskRead q q.asid at_ 64 = some n →
        (q.slotCount ≤ Node.slot n → exec (.recordFetch hq) s = .next (forward.queueError hq 0x01 0))
        ∧ (Node.slot n < q.slotCount → k = q.slotBase + Node.slot n →
          (x.st = .pending ∨ x.st = .ready ∨ x.st = .running → exec (.recordFetch hq) s = .next s)
          ∧ (x.st = .free ∨ x.st = .done → Node.ok n q.slotCount = false → exec (.recordFetch hq) s = .next (forward.nodeFail hq k 0x01))
          ∧ (x.st = .free ∨ x.st = .done → Node.ok n q.slotCount = true → x.ctr ≤ Node.predInit n → ∃ t : State, exec (.recordFetch hq) s = .next t
            ∧ (t.queue hq).head = q.head + 1 ∧ (t.slot k).node = n ∧ (t.slot k).hq = hq ∧ (t.slot k).ctr = Node.predInit n - x.ctr
            ∧ (t.slot k).st = if Node.predInit n = x.ctr then .ready else .pending))))
    ∧ (runs 1 → x.run = .ended →
      (quiet x.fence → (∀ r ∈ Node.succs x.node, r = 0xFFFF) → ∃ t : State, exec (.nodeComplete hq k) s = .next t
        ∧ t.slot k = if Node.keep x.node then { x with st := .done, ctr := 0, run := .none, runs := 0, fence := none, stamp := (0, 0) } else .reset)
      ∧ (¬ quiet x.fence → ∃ t : State, exec (.nodeComplete hq k) s = .next t ∧ t.slot k = { x with fence := some (x.fence.getD s.nextId) }
        ∧ t.due (.nodeComplete hq k) = true))
    ∧ (x.st = .pending → 1 < x.ctr → ((s.decrement hq k).slot k).ctr = x.ctr - 1 ∧ ((s.decrement hq k).slot k).st = .pending)
    ∧ (x.st = .pending → x.ctr = 1 → ((s.decrement hq k).slot k).st = .ready)
    ∧ (x.st = .free ∨ x.st = .done → ((s.decrement hq k).slot k).ctr = (x.ctr + 1) % 65536)
    ∧ (x.st = .ready ∨ x.st = .running → s.decrement hq k = s.queueError hq 0x03 (k - q.slotBase))
    ∧ (runs 4 → x.run = .waiting → Node.kind x.node = 4 →
      (s.nodeWord hq k = none → exec (.waitPoll hq k) s = .next (s.nodeFail hq k 0x08))
      ∧ ∀ y, s.nodeWord hq k = some y → (Node.holds x.node y = true → ∃ t : State, exec (.waitPoll hq k) s = .next t ∧ ended t)
        ∧ (Node.holds x.node y = false → ∃ t : State, exec (.waitPoll hq k) s = .next t
          ∧ t.slot k = { x with stamp := stampMax x.stamp (s.whiskSaw q q.asid (Node.va x.node) 8) } ∧ t.due (.waitPoll hq k) = true))
    ∧ (runs 6 → x.run = .condWait → (∀ r ∈ range, (s.slot r).st ≠ .ready ∧ (s.slot r).st ≠ .running) → ∃ t : State,
      exec (.condRangeIdle hq k) s = .next t ∧ ((t.slot k).st = if Node.predLoop x.node = 0 then .ready else .pending)
        ∧ (t.slot k).ctr = Node.predLoop x.node)
    ∧ (∀ i bs, runs 7 → x.run = .posted i → s.posterOn q.vf (Node.ring x.node) = some k → Node.count x.node = i + 1 →
      let r := s.ring q.vf (Node.ring x.node)
      r.enabled = true → r.room ≠ 0 → s.whiskRead q q.asid (Node.va x.node + 64 * i) 64 = some bs → ∃ t : State,
        exec (.hostpostAppend hq k) s = .next t ∧ ended t ∧ (t.ring q.vf (Node.ring x.node)).prod = r.prod + 1
        ∧ t.hostMem = Memory.write (Memory.write s.hostMem (r.base.toNat / 4096 * 4096 + 64 * (r.prod.toNat % r.size)) bs)
            (r.paddr.toNat / 8 * 8) (natBytes 8 (r.prod + 1).toNat))
    ∧ (x.st = .ready → x.hq = hq → s.whiskOn hq = true →
      (Node.kind x.node = 1 → exec (.nodeStart hq k) s = .next (started.startLaunch hq k))
      ∧ (Node.kind x.node = 2 ∨ Node.kind x.node = 3 → exec (.nodeStart hq k) s = .next (started.startNodeJob hq k))
      ∧ (Node.kind x.node = 4 → exec (.nodeStart hq k) s = .next (started.runWait hq k))
      ∧ (Node.kind x.node = 6 → exec (.nodeStart hq k) s = .next (started.runCond hq k))
      ∧ (Node.kind x.node = 7 → exec (.nodeStart hq k) s = .next (started.startPost hq k))
      ∧ ∀ pa m, Node.kind x.node = 5 → s.whiskGo q q.asid (Node.va x.node) .write = .hbm pa m → pa + 8 ≤ hbmEnd →
        (quiet x.fence → ∃ t : State,
          exec (.nodeStart hq k) s = .next t ∧ t.bytesAt pa 8 = natBytes 8 (Node.value x.node) ∧ ended t)
        ∧ (¬ quiet x.fence → ∃ t : State, exec (.nodeStart hq k) s = .next t ∧ t.due (.waitPoll hq k) = true
          ∧ t.slot k = { x with st := .running, run := .waiting, fence := some (x.fence.getD s.nextId) })))
  ∧ (∀ (s : State) (vf : Fin 32) (k : Fin 16),
    let r := s.ring vf.val k.val
    r.pend ≠ 0 → r.timer ≠ 0 →
      (r.timer ≤ s.reft - r.t0 → exec (.ringTimer vf k) s = .next ((s.updRing vf.val k.val (fun r => { r with pend := 0 })).raiseIrq (.vf vf) r.vec))
      ∧ (s.reft - r.t0 < r.timer → exec (.ringTimer vf k) s = .next (s.armRing vf.val k.val)))
  ∧ ∀ (s u : State) (g : Nat) (k : Grid), Tbl.find s.grids g = some k →
    let back := k.snaps.foldl (fun s e => s.restorePage k e) (s.sqGrid 2 k)
    let noted := s.updGrid k.root (fun r => { r with childFail := true })
    let quiet := (∀ u ∈ s.fab.unacked, u.part = k.part → k.fence.getD s.nextId ≤ u.ord)
      ∧ (fieldOf (s.part k.part).mirror 30 30 = 1 ∨ ∀ m ∈ s.fab.mirrorWait, m.1 = k.part → m.2.2.1 ≠ 2 ^ 32)
    let waits := fun (i : Instr) => ∃ t : State, exec i s = .next t ∧ t.due i = true ∧ Tbl.find t.grids g = some { k with fence := some (k.fence.getD s.nextId) }
    (∀ pa m, k.lrec.cword ≠ 0 → s.whiskGo (s.queue k.hq) k.asid k.lrec.cword .write = .hbm pa m → pa + 8 ≤ hbmEnd → s.completion k = some u →
      u.bytesAt pa 8 = natBytes 8 k.lrec.cvalue.toNat)
    ∧ (s.running = true →
    (k.parent = none → s.gridOver g k = true → ¬ quiet → waits (.launchComplete g))
    ∧ (k.parent ≠ none → s.gridOver g k = true → ¬ quiet → waits (.childGridRetire g))
    ∧ (k.parent = none → s.gridOver g k = true → quiet →
      (k.childFail = false → s.completion k = some u → exec (.launchComplete g) s = .next ((((u.forgetGrid g).updSlot k.slot
        (fun x => { x with stamp := stampMax x.stamp k.did })).nodeEnded k.hq k.slot).slotChanged k.hq))
      ∧ (k.childFail = true ∨ s.completion k = none →
        exec (.launchComplete g) s = .next (((s.nodeFail k.hq k.slot 0x08).forgetGrid g).slotChanged k.hq)))
    ∧ (k.parent ≠ none → s.gridOver g k = true → quiet →
      (s.completion k = some u → exec (.childGridRetire g) s = .next ((u.forgetGrid g).childGone g k))
      ∧ (s.completion k = none → exec (.childGridRetire g) s = .next ((noted.forgetGrid g).childGone g k)))
    ∧ (k.killed = true → k.parent = none →
      (k.unreplayable = true ∨ 3 ≤ (s.slot k.slot).runs →
        exec (.launchReplay g) s = .next ((((s.sqGrid 3 k).nodeFail k.hq k.slot 0x06).forgetGrid g).slotChanged k.hq))
      ∧ (k.unreplayable = false → (s.slot k.slot).runs < 3 → exec (.launchReplay g) s = .next ((back.forgetGrid g).startLaunch k.hq k.slot))))

end
end

