-- ==== Sys2Proof/Laws/Cache.lean ====
section
/-!
SUPPORT. What a lookup in an L2, a walk and the read of a codebook table can change: the lines in the L2, copies that leave with theirs, and the stamps of
lines that leave (`LookedUp`).
-/

namespace Sys2Proof.Machine

theorem LookedUp.refl (s : State) : LookedUp s s := ⟨rfl, fun _ h => h⟩

theorem LookedUp.trans {s t u : State} (h : LookedUp s t) (k : LookedUp t u) : LookedUp s u := by
  refine ⟨?_, fun x hx => h.2 x (k.2 x hx)⟩
  have e := k.1
  rw [h.1] at e
  rw [e]

theorem LookedUp.foldl {α : Type} (f : State → α → State) (l : List α) (hf : ∀ s, ∀ a ∈ l, LookedUp s (f s a)) (s : State) : LookedUp s (l.foldl f s) := by
  induction l generalizing s with
  | nil => exact .refl s
  | cons a l ih =>
    exact (hf s a (by simp)).trans (ih (fun s b hb => hf s b (by simp [hb])) (f s a))

theorem l2Evict_lookedUp (s : State) (t : L2Tag) : LookedUp s (s.l2Evict t) := by
  unfold State.l2Evict
  dsimp only
  split
  · exact ⟨rfl, fun x hx => (List.mem_filter.1 hx).1⟩
  · split <;> exact ⟨rfl, fun x hx => hx⟩

theorem l2Touch_lookedUp (s : State) (die : Nat) (chip : Option Nat) (line mask hint : Nat) (dirty : Bool) :
    LookedUp s (s.l2Touch die chip line mask hint dirty) := by
  unfold State.l2Touch
  split
  · exact ⟨rfl, fun x hx => hx⟩
  · split
    · exact .refl s
    · dsimp only
      split
      · exact ⟨rfl, fun x hx => hx⟩
      · split
        · exact .refl s
        · exact (l2Evict_lookedUp s _).trans ⟨rfl, fun x hx => hx⟩

theorem l2Home_lookedUp (s : State) (ag : Agent) (pa hint : Nat) (dirty : Bool) : LookedUp s (s.l2Home ag pa hint dirty) :=
  l2Touch_lookedUp ..

theorem walked_lookedUp (s : State) (p : Nat) (cls : Cls) (asid va : Nat) : LookedUp s (s.walked p cls asid va) :=
  .foldl _ _ (fun _ _ _ => l2Home_lookedUp ..) s

theorem cbTouch_lookedUp (s : State) (ag : Agent) (tab : Nat) (is : List Nat) : LookedUp s (s.cbTouch ag tab is) :=
  .foldl _ _ (fun _ _ _ => l2Home_lookedUp ..) s

theorem tablesTouch_lookedUp (s : State) (ag : Agent) (fa fb : Nat) : LookedUp s (s.tablesTouch ag fa fb) := by
  refine .foldl _ _ (fun s f _ => ?_) s
  split
  · exact cbTouch_lookedUp ..
  · exact .refl s

theorem cbRead_lookedUp (s t : State) (f : FSlot) (op : LaneOp) (e : Nat → Wave → Nat → LaneRes) (is : Wave → Nat → List Nat) :
    LookedUp t (s.cbRead t f op e is) := by
  unfold State.cbRead
  split
  · exact .refl t
  · refine .foldl _ _ (fun t wid _ => ?_) t
    split
    · split
      · exact cbTouch_lookedUp ..
      · exact .refl t
    · exact .refl t

end Sys2Proof.Machine
end

