-- ==== Sys2Proof/Laws/Tables.lean ====
section
/-!
SUPPORT. The laws of tables and memories: a read after a write, and the canonical form of a memory, which every operation keeps.
-/

namespace Sys2Proof.Machine

/-! ## Tables -/

@[simp] theorem Tbl.find_nil {α : Type} (k : Nat) : Tbl.find ([] : Tbl α) k = none := rfl

@[simp] theorem Tbl.find_put_self {α : Type} (t : Tbl α) (k : Nat) (v : α) : Tbl.find (Tbl.put t k v) k = some v := by
  induction t with
  | nil => simp [Tbl.put, Tbl.find]
  | cons e t ih =>
    obtain ⟨j, x⟩ := e
    simp only [Tbl.put]
    split
    · simp [Tbl.find]
    · split
      · simp [Tbl.find]
      · simp [Tbl.find, *]

theorem Tbl.find_put_ne {α : Type} (t : Tbl α) {k j : Nat} (v : α) (h : j ≠ k) : Tbl.find (Tbl.put t k v) j = Tbl.find t j := by
  induction t with
  | nil => simp [Tbl.put, Tbl.find, Ne.symm h]
  | cons e t ih =>
    obtain ⟨i, x⟩ := e
    simp only [Tbl.put]
    split
    · subst_vars; simp [Tbl.find, Ne.symm h]
    · split
      · simp [Tbl.find, Ne.symm h]
      · simp [Tbl.find, ih]

@[simp] theorem Tbl.find_del_self {α : Type} (t : Tbl α) (k : Nat) : Tbl.find (Tbl.del t k) k = none := by
  induction t with
  | nil => rfl
  | cons e t ih =>
    obtain ⟨i, x⟩ := e
    by_cases h : i = k
    · subst h; simpa [Tbl.del] using ih
    · simp only [Tbl.del] at ih
      simp [Tbl.del, h, Tbl.find, ih]

theorem Tbl.find_del_ne {α : Type} (t : Tbl α) {k j : Nat} (h : j ≠ k) : Tbl.find (Tbl.del t k) j = Tbl.find t j := by
  induction t with
  | nil => rfl
  | cons e t ih =>
    obtain ⟨i, x⟩ := e
    simp only [Tbl.del] at ih
    by_cases hi : i = k
    · subst hi; simp [Tbl.del, Tbl.find, Ne.symm h, ih]
    · simp [Tbl.del, hi, Tbl.find, ih]

@[simp] theorem Tbl.getD_put_self {α : Type} (t : Tbl α) (k : Nat) (v d : α) : Tbl.getD (Tbl.put t k v) k d = v := by simp [Tbl.getD]

theorem Tbl.getD_put_ne {α : Type} (t : Tbl α) {k j : Nat} (v d : α) (h : j ≠ k) : Tbl.getD (Tbl.put t k v) j d = Tbl.getD t j d := by
  simp [Tbl.getD, Tbl.find_put_ne t v h]

@[simp] theorem Tbl.getD_putS_self {α : Type} [DecidableEq α] (d : α) (t : Tbl α) (k : Nat) (v : α) :
    Tbl.getD (Tbl.putS d t k v) k d = v := by
  unfold Tbl.putS
  split <;> simp [Tbl.getD, *]

theorem Tbl.getD_putS_ne {α : Type} [DecidableEq α] (d : α) (t : Tbl α) {k j : Nat} (v : α) (h : j ≠ k) :
    Tbl.getD (Tbl.putS d t k v) j d = Tbl.getD t j d := by
  unfold Tbl.putS
  split <;> simp [Tbl.getD, Tbl.find_del_ne t h, Tbl.find_put_ne t _ h]

theorem Tbl.find_upd_self {α : Type} (t : Tbl α) (k : Nat) (f : α → α) : Tbl.find (Tbl.upd t k f) k = (Tbl.find t k).map f := by
  unfold Tbl.upd
  cases h : Tbl.find t k <;> simp [h]

theorem Tbl.find_upd_ne {α : Type} (t : Tbl α) {k j : Nat} (f : α → α) (h : j ≠ k) : Tbl.find (Tbl.upd t k f) j = Tbl.find t j := by
  unfold Tbl.upd
  cases hk : Tbl.find t k <;> simp [Tbl.find_put_ne t _ h]

@[simp] theorem Tbl.getD_updD_self {α : Type} (t : Tbl α) (k : Nat) (d : α) (f : α → α) :
    Tbl.getD (Tbl.updD t k d f) k d = f (Tbl.getD t k d) := by simp [Tbl.updD]

theorem Tbl.getD_updD_ne {α : Type} (t : Tbl α) {k j : Nat} (d : α) (f : α → α) (h : j ≠ k) :
    Tbl.getD (Tbl.updD t k d f) j d = Tbl.getD t j d := by simp [Tbl.updD, Tbl.getD_put_ne t _ d h]

/-! ## Memories -/

/-- A byte reads as what was written there last. -/
@[simp] theorem Memory.get_put_self (m : List Host.Cell) (a : Nat) (b : Byte) : Memory.get (Memory.put m a b) a = b := by
  simp [Memory.get, Memory.put]

/-- A write of a byte leaves every other byte alone. -/
theorem Memory.get_put_ne (m : List Host.Cell) {a c : Nat} (b : Byte) (h : c ≠ a) : Memory.get (Memory.put m a b) c = Memory.get m c := by
  simp [Memory.get, Memory.put, Tbl.getD_putS_ne _ _ _ h]

/-- A write of bytes leaves every byte outside its range alone. -/
theorem Memory.get_write_out (m : List Host.Cell) (a : Nat) (bs : List Byte) (c : Nat) (h : c < a ∨ a + bs.length ≤ c) :
    Memory.get (Memory.write m a bs) c = Memory.get m c := by
  induction bs generalizing m a with
  | nil => rfl
  | cons b bs ih =>
    simp only [List.length_cons] at h
    rw [Memory.write, ih _ _ (by omega), Memory.get_put_ne _ _ (by omega)]

/-- Bytes written read back. -/
theorem Memory.get_write_in (m : List Host.Cell) (a : Nat) (bs : List Byte) (i : Nat) (h : i < bs.length) :
    Memory.get (Memory.write m a bs) (a + i) = bs[i] := by
  induction bs generalizing m a i with
  | nil => simp at h
  | cons b bs ih =>
    cases i with
    | zero => rw [Memory.write, Memory.get_write_out _ _ _ _ (by omega)]; simp
    | succ i =>
      have := ih (Memory.put m a b) (a + 1) i (by simpa using h)
      simpa [Memory.write, Nat.add_assoc, Nat.add_comm 1 i] using this

theorem Memory.wf_cons (a : Nat) (b : Byte) (t : List Host.Cell) :
    Memory.wf ((a, b) :: t) = true ↔ b ≠ 0 ∧ (∀ e ∈ t, a < e.1) ∧ Memory.wf t = true := by
  simp [Memory.wf, and_assoc]

/-- Removing bytes keeps the canonical form. -/
theorem Memory.wf_filter (f : Host.Cell → Bool) (m : List Host.Cell) (h : Memory.wf m = true) : Memory.wf (m.filter f) = true := by
  induction m with
  | nil => rfl
  | cons e m ih =>
    obtain ⟨a, b⟩ := e
    rw [Memory.wf_cons] at h
    by_cases hf : f (a, b)
    · rw [List.filter_cons_of_pos hf, Memory.wf_cons]
      exact ⟨h.1, fun e he => h.2.1 e (List.mem_of_mem_filter he), ih h.2.2⟩
    · rw [List.filter_cons_of_neg hf]
      exact ih h.2.2

/-- A byte that is put, or one that was there. -/
theorem Tbl.mem_put {α : Type} (t : Tbl α) (k : Nat) (v : α) (e : Nat × α) (h : e ∈ Tbl.put t k v) : e = (k, v) ∨ e ∈ t := by
  induction t with
  | nil => simpa [Tbl.put] using h
  | cons x t ih =>
    obtain ⟨j, y⟩ := x
    simp only [Tbl.put] at h
    split at h
    · simp at h; tauto
    · split at h
      · simpa using h
      · simp at h
        rcases h with h | h
        · simp [h]
        · rcases ih h with h | h <;> simp [h]

/-- A write of a byte keeps the canonical form. -/
theorem Memory.wf_put (m : List Host.Cell) (a : Nat) (b : Byte) (h : Memory.wf m = true) : Memory.wf (Memory.put m a b) = true := by
  unfold Memory.put Tbl.putS
  split
  · exact Memory.wf_filter _ m h
  · rename_i hb
    induction m with
    | nil => simpa [Tbl.put, Memory.wf] using hb
    | cons e m ih =>
      obtain ⟨c, x⟩ := e
      rw [Memory.wf_cons] at h
      simp only [Tbl.put]
      split
      · subst_vars; rw [Memory.wf_cons]; exact ⟨hb, h.2⟩
      · split
        · rename_i hlt
          rw [Memory.wf_cons, Memory.wf_cons]
          refine ⟨hb, ?_, h⟩
          intro e he
          rcases List.mem_cons.1 he with rfl | he
          · exact hlt
          · exact Nat.lt_trans hlt (h.2.1 e he)
        · rename_i hne hlt
          rw [Memory.wf_cons]
          refine ⟨h.1, ?_, ih h.2.2⟩
          intro e he
          rcases Tbl.mem_put _ _ _ _ he with rfl | he
          · simp only; omega
          · exact h.2.1 e he

/-- A write of bytes keeps the canonical form. -/
theorem Memory.wf_write (m : List Host.Cell) (a : Nat) (bs : List Byte) (h : Memory.wf m = true) : Memory.wf (Memory.write m a bs) = true := by
  induction bs generalizing m a with
  | nil => exact h
  | cons b bs ih => exact ih _ _ (Memory.wf_put m a b h)

/-- Clearing a range keeps the canonical form. -/
theorem Memory.wf_clear (m : List Host.Cell) (lo hi : Nat) (h : Memory.wf m = true) : Memory.wf (Memory.clear m lo hi) = true :=
  Memory.wf_filter _ m h

@[simp] theorem Memory.read_length (m : List Host.Cell) (a n : Nat) : (Memory.read m a n).length = n := by
  induction n generalizing a with
  | zero => rfl
  | succ n ih => simp [Memory.read, ih]

end Sys2Proof.Machine
end

