-- ==== Sys2Proof/Laws/Lane.lean ====
section
/-!
SUPPORT. What a lane instruction does: where it raises no cause, only the waves of its group change, and each of them as
`WaveDone` says.
-/

namespace Sys2Proof.Machine

/-! ## Lists without repeats -/

theorem dedup_foldl {α : Type} [DecidableEq α] (l acc : List α) (h : acc.Nodup) :
    (l.foldl (fun acc a => if acc.contains a then acc else acc ++ [a]) acc).Nodup ∧
    ∀ a, a ∈ l.foldl (fun acc a => if acc.contains a then acc else acc ++ [a]) acc ↔ a ∈ acc ∨ a ∈ l := by
  induction l generalizing acc with
  | nil => simp [h]
  | cons b l ih =>
    simp only [List.foldl_cons]
    by_cases hb : acc.contains b = true
    · rw [if_pos hb]
      refine ⟨(ih acc h).1, fun a => ?_⟩
      rw [(ih acc h).2]
      simp only [List.contains_iff_mem] at hb
      simp only [List.mem_cons]
      constructor
      · rintro (h1 | h1) <;> simp [h1]
      · rintro (h1 | rfl | h1) <;> simp [*]
    · rw [if_neg hb]
      simp only [List.contains_iff_mem] at hb
      have h' : (acc ++ [b]).Nodup := by
        rw [List.nodup_append]
        refine ⟨h, by simp, ?_⟩
        rintro x hx y hy rfl
        simp at hy; subst hy; exact hb hx
      refine ⟨(ih _ h').1, fun a => ?_⟩
      rw [(ih _ h').2]
      simp [or_assoc]

theorem dedup_nodup {α : Type} [DecidableEq α] (l : List α) : (dedup l).Nodup := (dedup_foldl l [] List.nodup_nil).1

@[simp] theorem mem_dedup {α : Type} [DecidableEq α] (l : List α) (a : α) : a ∈ dedup l ↔ a ∈ l := by
  unfold dedup; rw [(dedup_foldl l [] List.nodup_nil).2]; simp

theorem mem_waves {g : Group} {wid : Nat} : wid ∈ g.waves ↔ ∃ l, (wid, l) ∈ g.mem := by
  simp [Group.waves]

theorem mem_lanesOf {g : Group} {wid l : Nat} : l ∈ g.lanesOf wid ↔ (wid, l) ∈ g.mem := by
  simp [Group.lanesOf]

theorem lanesOf_nodup {g : Group} (h : g.mem.Nodup) (wid : Nat) : (g.lanesOf wid).Nodup := by
  unfold Group.lanesOf
  refine List.Nodup.map_on ?_ (h.filter _)
  rintro ⟨a, b⟩ ha ⟨c, d⟩ hc hbd
  simp at ha hc hbd
  simp [ha.2, hc.2, hbd]

/-! ## Registers -/

theorem vkey_inj {l r l' r' : Nat} (hr : r < 128) (hr' : r' < 128) : l * 128 + r = l' * 128 + r' ↔ l = l' ∧ r = r' := by omega

theorem vreg_setV (w : Wave) (l r : Nat) (x : Word) (k q : Nat) (hr : r < 128) (hq : q < 128) :
    (w.setV l r x).vreg k q = if k = l ∧ q = r then x else w.vreg k q := by
  unfold Wave.setV Wave.vreg
  split
  · rename_i h; obtain ⟨rfl, rfl⟩ := h; simp
  · rename_i h
    exact Tbl.getD_putS_ne 0 w.v x (fun e => h ((vkey_inj hq hr).1 e))

theorem preg_setP (w : Wave) (l r : Nat) (x : Bool) (k q : Nat) (hr : r < 128) (hq : q < 127) :
    (w.setP l r x).preg k q = if k = l ∧ q = r then x else w.preg k q := by
  unfold Wave.setP Wave.preg
  by_cases h7 : r = 127
  · subst h7; simp [show q ≠ 127 by omega]
  · simp only [beq_iff_eq, h7, if_false, beq_eq_false_iff_ne.2 (show q ≠ 127 by omega), Bool.false_or]
    split
    · rename_i h; obtain ⟨rfl, rfl⟩ := h; simp
    · rename_i h
      exact Tbl.getD_putS_ne false w.p x (fun e => h ((vkey_inj (by omega) hr).1 e))

theorem thread_updThread (w : Wave) (l k : Nat) (f : Thread → Thread) :
    (w.updThread l f).thread k = if k = l ∧ k < w.threads.length then f (w.thread k) else w.thread k := by
  unfold Wave.updThread Wave.thread
  simp only [List.getD_eq_getElem?_getD, List.getElem?_modify]
  by_cases h : k = l
  · subst h
    by_cases hk : k < w.threads.length <;> simp [hk]
  · simp [h, Ne.symm h]

@[simp] theorem updThread_length (w : Wave) (l : Nat) (f : Thread → Thread) : (w.updThread l f).threads.length = w.threads.length := by
  simp [Wave.updThread]

/-! ## The results of one lane -/

theorem vreg_writes (vs : VWrites) (hv : ∀ x ∈ vs, x.1 < 128) (w : Wave) (l k q : Nat) (hq : q < 128) :
    (vs.foldl (fun (w : Wave) e => w.setV l e.1 e.2) w).vreg k q = if k = l then wrote vs q (w.vreg k q) else w.vreg k q := by
  induction vs generalizing w with
  | nil => simp [wrote]
  | cons x vs ih =>
    simp only [List.foldl_cons]
    rw [ih (fun y hy => hv y (by simp [hy])), vreg_setV _ _ _ _ _ _ (hv x (by simp)) hq]
    by_cases h : k = l
    · simp only [h, true_and, if_true, wrote, List.foldl_cons, eq_comm]
    · simp [h]

theorem preg_writes (ps : List (Nat × Bool)) (hp : ∀ x ∈ ps, x.1 < 128) (w : Wave) (l k q : Nat) (hq : q < 127) :
    (ps.foldl (fun (w : Wave) e => w.setP l e.1 e.2) w).preg k q = if k = l then wrote ps q (w.preg k q) else w.preg k q := by
  induction ps generalizing w with
  | nil => simp [wrote]
  | cons x ps ih =>
    simp only [List.foldl_cons]
    rw [ih (fun y hy => hp y (by simp [hy])), preg_setP _ _ _ _ _ _ (hp x (by simp)) hq]
    by_cases h : k = l
    · simp only [h, true_and, if_true, wrote, List.foldl_cons, eq_comm]
    · simp [h]

theorem setV_frame (vs : VWrites) (w : Wave) (l : Nat) :
    vs.foldl (fun (w : Wave) e => w.setV l e.1 e.2) w = { w with v := (vs.foldl (fun (w : Wave) e => w.setV l e.1 e.2) w).v } := by
  induction vs generalizing w with
  | nil => rfl
  | cons x vs ih => simp only [List.foldl_cons]; rw [ih]; rfl

theorem setP_frame (ps : List (Nat × Bool)) (w : Wave) (l : Nat) :
    ps.foldl (fun (w : Wave) e => w.setP l e.1 e.2) w = { w with p := (ps.foldl (fun (w : Wave) e => w.setP l e.1 e.2) w).p } := by
  induction ps generalizing w with
  | nil => rfl
  | cons x ps ih =>
    simp only [List.foldl_cons]; rw [ih]
    unfold Wave.setP; split <;> rfl

/-- The flags raised one after the other are raised together (R259). -/
theorem raiseFlags_raiseFlags (f : Word) (a b : Nat) : raiseFlags (raiseFlags f a) b = raiseFlags f (a ||| b) := by
  have key : ∀ (x : Word) (n : Nat), fieldOf (setField x 20 16 n) 20 16 = n % 32 := by
    intro x n
    have := x.isLt
    simp only [fieldOf, setField, bitsOf, BitVec.toNat_ofNat]
    omega
  have key2 : ∀ (x : Word) (n k : Nat), setField (setField x 20 16 n) 20 16 k = setField x 20 16 k := by
    intro x n k
    have := x.isLt
    apply BitVec.eq_of_toNat_eq
    simp only [setField, bitsOf, BitVec.toNat_ofNat]
    omega
  have key3 : ∀ (x : Word) (n : Nat), setField x 20 16 (n % 32) = setField x 20 16 n := by
    intro x n
    simp only [setField, bitsOf]
    rw [show n % 32 % 2 ^ (20 + 1 - 16) = n % 2 ^ (20 + 1 - 16) by omega]
  have key4 : ∀ x y : Nat, ((x % 32) ||| y) % 32 = (x ||| y) % 32 := by
    intro x y
    rw [show (32 : Nat) = 2 ^ 5 from rfl, Nat.or_mod_two_pow, Nat.mod_mod, ← Nat.or_mod_two_pow]
  unfold raiseFlags
  rw [key, key2, ← Nat.or_assoc, ← key3, ← key3 _ (_ ||| b), key4]

theorem raiseFlags_zero (f : Word) : raiseFlags f 0 = f := by
  have := f.isLt
  apply BitVec.eq_of_toNat_eq
  simp only [raiseFlags, setField, fieldOf, bitsOf, BitVec.toNat_ofNat, Nat.or_zero]
  omega

theorem commit_vreg (w : Wave) (size l : Nat) (r : LaneRes) (hv : ∀ x ∈ r.v, x.1 < 128) (k q : Nat) (hq : q < 128) :
    (w.commit size l r).vreg k q = if k = l then wrote r.v q (w.vreg k q) else w.vreg k q := by
  have h : (w.commit size l r).vreg k q = (r.v.foldl (fun (w : Wave) e => w.setV l e.1 e.2) w).vreg k q := by
    unfold Wave.commit Wave.vreg
    simp only [Wave.updThread]
    rw [setP_frame]
  rw [h, vreg_writes r.v hv w l k q hq]

theorem commit_preg (w : Wave) (size l : Nat) (r : LaneRes) (hp : ∀ x ∈ r.p, x.1 < 128) (k q : Nat) (hq : q < 127) :
    (w.commit size l r).preg k q = if k = l then wrote r.p q (w.preg k q) else w.preg k q := by
  have h : (w.commit size l r).preg k q
      = (r.p.foldl (fun (w : Wave) e => w.setP l e.1 e.2) (r.v.foldl (fun (w : Wave) e => w.setV l e.1 e.2) w)).preg k q := rfl
  rw [h, preg_writes r.p hp _ l k q hq]
  have h2 : (r.v.foldl (fun (w : Wave) e => w.setV l e.1 e.2) w).preg k q = w.preg k q := by rw [setV_frame]; rfl
  rw [h2]

theorem commit_frame (w : Wave) (size l : Nat) (r : LaneRes) :
    let x := w.commit size l r
    x = { w with v := x.v, p := x.p, fmode := raiseFlags w.fmode r.flags, threads := x.threads } := by
  simp only
  unfold Wave.commit
  simp only [Wave.updThread]
  rw [setP_frame, setV_frame]

theorem commit_threads (w : Wave) (size l : Nat) (r : LaneRes) :
    (w.commit size l r).threads = w.threads.modify l (fun t => t.advance size r) := by
  unfold Wave.commit
  simp only [Wave.updThread]
  rw [setP_frame, setV_frame]

/-! ## The results of a wave -/

/-- The results of the lanes `on`, one after the other. -/
theorem commits_spec (size : Nat) (e : Nat → LaneRes) (on : List Nat) (hn : on.Nodup) (w : Wave)
    (hb : ∀ l ∈ on, l < w.threads.length) (hv : ∀ l ∈ on, ∀ x ∈ (e l).v, x.1 < 128) (hp : ∀ l ∈ on, ∀ x ∈ (e l).p, x.1 < 128) :
    let x := on.foldl (fun (w : Wave) l => w.commit size l (e l)) w
    x = { w with v := x.v, p := x.p, fmode := x.fmode, threads := x.threads }
    ∧ (∀ l r, r < 128 → x.vreg l r = if l ∈ on then wrote (e l).v r (w.vreg l r) else w.vreg l r)
    ∧ (∀ l r, r < 127 → x.preg l r = if l ∈ on then wrote (e l).p r (w.preg l r) else w.preg l r)
    ∧ x.fmode = raiseFlags w.fmode (on.foldl (fun a l => a ||| (e l).flags) 0)
    ∧ x.threads.length = w.threads.length
    ∧ (∀ l, x.thread l = if l ∈ on then (w.thread l).advance size (e l) else w.thread l) := by
  induction on generalizing w with
  | nil => simp [raiseFlags_zero]
  | cons a on ih =>
    simp only [List.foldl_cons]
    have hna : a ∉ on := (List.nodup_cons.1 hn).1
    have hl : (w.commit size a (e a)).threads.length = w.threads.length := by rw [commit_threads]; simp
    have hth : ∀ l, (w.commit size a (e a)).thread l = if l = a then (w.thread l).advance size (e a) else w.thread l := by
      intro l
      have h := thread_updThread w a l (fun t => t.advance size (e a))
      have h2 : (w.commit size a (e a)).thread l = (w.updThread a (fun t => t.advance size (e a))).thread l := by
        unfold Wave.thread Wave.updThread; rw [commit_threads]
      rw [h2, h]
      by_cases hla : l = a
      · subst hla; simp [hb l (by simp)]
      · simp [hla]
    have IH := ih (List.nodup_cons.1 hn).2 (w.commit size a (e a)) (fun l h => by rw [hl]; exact hb l (by simp [h]))
      (fun l h => hv l (by simp [h])) (fun l h => hp l (by simp [h]))
    obtain ⟨h1, h2, h3, h4, h5, h6⟩ := IH
    refine ⟨?_, fun l r hr => ?_, fun l r hr => ?_, ?_, ?_, fun l => ?_⟩
    · rw [h1, commit_frame]
    · rw [h2 l r hr, commit_vreg _ _ _ _ (hv a (by simp)) _ _ hr]
      by_cases hla : l = a
      · subst hla; simp [hna]
      · simp [hla]
    · rw [h3 l r hr, commit_preg _ _ _ _ (hp a (by simp)) _ _ hr]
      by_cases hla : l = a
      · subst hla; simp [hna]
      · simp [hla]
    · rw [h4, commit_frame]
      simp only
      rw [raiseFlags_raiseFlags]
      congr 1
      have gen : ∀ (ls : List Nat) (x : Nat), ls.foldl (fun a l => a ||| (e l).flags) x = x ||| ls.foldl (fun a l => a ||| (e l).flags) 0 := by
        intro ls
        induction ls with
        | nil => simp
        | cons b ls ihl =>
          intro x
          simp only [List.foldl_cons]
          rw [ihl (x ||| _), ihl (0 ||| _)]
          simp [Nat.or_assoc]
      rw [gen on (0 ||| _)]
      simp
    · rw [h5, hl]
    · rw [h6 l, hth l]
      by_cases hla : l = a
      · subst hla; simp [hna]
      · simp [hla]

/-- The lanes whose guard is false move past the instruction. -/
theorem passes_spec (size : Nat) (off : List Nat) (hn : off.Nodup) (w : Wave) (hb : ∀ l ∈ off, l < w.threads.length) :
    let x := off.foldl (fun (w : Wave) l => w.updThread l (fun t => t.advance size {})) w
    x = { w with threads := x.threads } ∧ x.threads.length = w.threads.length
    ∧ ∀ l, x.thread l = if l ∈ off then (w.thread l).advance size {} else w.thread l := by
  induction off generalizing w with
  | nil => simp
  | cons a off ih =>
    simp only [List.foldl_cons]
    have hna : a ∉ off := (List.nodup_cons.1 hn).1
    obtain ⟨h1, h2, h3⟩ := ih (List.nodup_cons.1 hn).2 (w.updThread a (fun t => t.advance size {}))
      (fun l h => by simp [hb l (by simp [h])])
    refine ⟨by rw [h1]; rfl, by rw [h2]; simp, fun l => ?_⟩
    rw [h3 l, thread_updThread]
    by_cases hla : l = a
    · subst hla; simp [hna, hb l (by simp)]
    · simp [hla]

/-- What a lane instruction makes of a wave of its group. -/
def laneWaveOf (op : LaneOp) (e : Nat → LaneRes) (lanes on : List Nat) (w : Wave) : Wave :=
  (lanes.filter (fun l => !on.contains l)).foldl (fun (w : Wave) l => w.updThread l (fun t => t.advance op.size {}))
    (on.foldl (fun (w : Wave) l => w.commit op.size l (e l)) w)

theorem laneWaveOf_done (op : LaneOp) (e : Nat → LaneRes) (g : Group) (hg : g.mem.Nodup) (wid : Nat) (w : Wave)
    (hb : ∀ l, (wid, l) ∈ g.mem → l < w.threads.length)
    (hv : ∀ l ∈ onLanes g wid w, (∀ x ∈ (e l).v, x.1 < 128) ∧ ∀ x ∈ (e l).p, x.1 < 128) :
    WaveDone g wid op.size e w (laneWaveOf op e (g.lanesOf wid) (onLanes g wid w) w) := by
  have hon : ∀ l, l ∈ onLanes g wid w ↔ (wid, l) ∈ g.mem ∧ w.guardOn l = true := by
    intro l; simp [onLanes, mem_lanesOf]
  have hnd := lanesOf_nodup hg wid
  obtain ⟨a1, a2, a3, a4, a5, a6⟩ := commits_spec op.size e (onLanes g wid w) (hnd.filter _) w
    (fun l h => hb l ((hon l).1 h).1) (fun l h => (hv l h).1) (fun l h => (hv l h).2)
  obtain ⟨b1, b2, b3⟩ := passes_spec op.size ((g.lanesOf wid).filter (fun l => !(onLanes g wid w).contains l)) (hnd.filter _)
    ((onLanes g wid w).foldl (fun (w : Wave) l => w.commit op.size l (e l)) w)
    (fun l h => by rw [a5]; exact hb l (mem_lanesOf.1 (List.mem_filter.1 h).1))
  have hoff : ∀ l, l ∈ (g.lanesOf wid).filter (fun l => !(onLanes g wid w).contains l) ↔ (wid, l) ∈ g.mem ∧ w.guardOn l = false := by
    intro l
    simp only [List.mem_filter, mem_lanesOf, Bool.not_eq_true', List.contains_eq_mem, decide_eq_false_iff_not, hon]
    cases w.guardOn l <;> simp
  unfold laneWaveOf
  refine ⟨?_, fun l r hr => ?_, fun l r hr => ?_, ?_, ?_, fun l => ?_⟩
  · rw [b1, a1]
  · have h := a2 l r hr
    simp only [hon] at h
    rw [← h, b1]; rfl
  · have h := a3 l r hr
    simp only [hon] at h
    rw [← h, b1]; rfl
  · rw [← a4, b1]
  · rw [b2, a5]
  · rw [b3 l, a6 l]
    simp only [hoff, hon]
    by_cases hm : (wid, l) ∈ g.mem
    · cases hgd : w.guardOn l <;> simp [hm]
    · simp [hm]

/-! ## The group -/

/-- What must hold of the results of an instruction for it to complete. -/
def LaneClean (dst : List Nat) (w : Wave) (r : LaneRes) : Prop :=
  r.cause = none ∧ (∀ x ∈ r.v, x.1 ∈ dst ∧ x.1 < 128) ∧ (∀ x ∈ r.p, x.1 < 128) ∧ flagsTrap w.fmode r.flags = false

namespace State

/-- A wave that has its registers names none beyond its slabs. -/
theorem beyondSlabs_false {w : Wave} {regs : List Nat} (h : ∀ r ∈ regs, w.hasV r = true) : beyondSlabs w regs = false := by
  simp only [beyondSlabs, List.any_eq_false, decide_eq_true_eq]
  intro r hr
  have := h r hr
  simp only [Wave.hasV, Bool.and_eq_true, decide_eq_true_eq] at this
  omega

/-- A wave that has its registers waits for no copy back. -/
theorem slabBack_none {wid : Nat} {w : Wave} {regs : List Nat} (h : ∀ r ∈ regs, w.hasV r = true) : slabBack wid w regs = none := by
  have h1 : regs.find? (fun r => w.away.contains (r / 64)) = none := by
    rw [List.find?_eq_none]
    intro r hr
    have := h r hr
    simp only [Wave.hasV, Bool.and_eq_true, Bool.not_eq_true'] at this
    simpa using this.2
  unfold slabBack
  rw [h1]
  split
  · rfl
  · rw [Option.map_eq_none_iff, List.find?_eq_none]
    intro x hx hr
    obtain ⟨r, hm, he⟩ := List.any_eq_true.1 hr
    have := h r hm
    simp only [Wave.hasV, Bool.and_eq_true, Bool.not_eq_true', List.any_eq_false] at this
    exact this.1.2 x hx (by simpa using (beq_iff_eq.1 he).symm)

/-- A wave that owns what it writes waits for no copy. -/
theorem slabToCopy_none {wid : Nat} {w : Wave} {dst : List Nat} (h : ∀ r ∈ dst, w.ownsV r = true) : slabToCopy wid w dst = none := by
  have h1 : dst.find? (fun r => w.hown.contains (r / 64)) = none := by
    rw [List.find?_eq_none]
    intro r hr
    have := h r hr
    simp only [Wave.ownsV, Bool.and_eq_true, Bool.not_eq_true'] at this
    simpa using this.1
  unfold slabToCopy
  rw [h1]
  split
  · rfl
  simp only [List.findSome?_eq_none_iff, Option.map_eq_none_iff]
  intro r hr
  have := h r hr
  simp only [Wave.ownsV, Bool.and_eq_true, Option.isNone_iff_eq_none] at this
  exact this.2

theorem laneWave_eq (op : LaneOp) (f : Wave → Nat → LaneRes) (g : Group) (s : State) (wid : Nat) (w : Wave) (dst : List Nat)
    (hf : Tbl.find s.waves wid = some w) (hok : ∀ l, (wid, l) ∈ g.mem → laneOk s op.regs dst (wid, l) = true)
    (hne : ∃ l, (wid, l) ∈ g.mem) (hc : ∀ l ∈ onLanes g wid w, LaneClean dst w (f w l)) :
    laneWave op f g s wid = s.updWave wid (laneWaveOf op (f w) (g.lanesOf wid) (onLanes g wid w)) := by
  obtain ⟨l0, h0⟩ := hne
  have ok := hok l0 h0
  simp only [laneOk, hf, Bool.and_eq_true, List.all_eq_true, decide_eq_true_eq, Bool.not_eq_true'] at ok
  obtain ⟨⟨_, hregs⟩, hdst⟩ := ok
  have hb := beyondSlabs_false hregs
  have hback := slabBack_none (wid := wid) hregs
  have hcause : laneCauses w op (g.lanesOf wid) ((onLanes g wid w).map (fun l => (l, f w l))) = [] := by
    unfold laneCauses
    rw [hb]
    have h1 : ((onLanes g wid w).map (fun l => (l, f w l))).filterMap (fun e => e.2.cause.map (fun c => (e.1, c))) = [] := by
      rw [List.filterMap_eq_nil_iff]
      intro e he
      obtain ⟨l, hl, rfl⟩ := List.mem_map.1 he
      simp [(hc l hl).1]
    rw [h1]
    by_cases hg : w.guarded = true
    · have h2 : ((onLanes g wid w).map (fun l => (l, f w l))).filter (fun e => e.2.v.any (fun x => w.liveV x.1)) = [] := by
        rw [List.filter_eq_nil_iff]
        intro e he
        obtain ⟨l, hl, rfl⟩ := List.mem_map.1 he
        simp only [List.any_eq_true, not_exists, not_and]
        intro x hx
        have := (hdst x.1 ((hc l hl).2.1 x hx).1).1
        simpa [hg] using this
      simp [hg, h2]
    · simp [hg]
  have hown : ∀ r ∈ written ((onLanes g wid w).map (fun l => (l, f w l))), w.ownsV r = true := by
    intro r hr
    obtain ⟨e, he, hr⟩ := List.mem_flatMap.1 hr
    obtain ⟨l, hl, rfl⟩ := List.mem_map.1 he
    obtain ⟨x, hx, rfl⟩ := List.mem_map.1 hr
    exact (hdst x.1 ((hc l hl).2.1 x hx).1).2
  have hslab := slabToCopy_none (wid := wid) hown
  have hflags : ((onLanes g wid w).map (fun l => (l, f w l))).find? (fun e => flagsTrap w.fmode e.2.flags) = none := by
    rw [List.find?_eq_none]
    intro e he
    obtain ⟨l, hl, rfl⟩ := List.mem_map.1 he
    simp [(hc l hl).2.2.2]
  unfold laneWave
  rw [hf]
  simp only
  change (match (if (onLanes g wid w).isEmpty then none else slabBack wid w op.regs),
      leastCause (laneCauses w op (g.lanesOf wid) ((onLanes g wid w).map (fun l => (l, f w l)))) with
    | some k, _ => _
    | none, some c => _
    | none, none => _) = _
  rw [hcause, hback, ite_self]
  simp only [leastCause, sortBy, List.foldl_nil, leastBy]
  change (match slabToCopy wid w (written ((onLanes g wid w).map (fun l => (l, f w l)))) with
    | some k => _
    | none => _) = _
  rw [hslab]
  simp only
  change (match ((onLanes g wid w).map (fun l => (l, f w l))).find? (fun e => flagsTrap w.fmode e.2.flags) with
    | none => _
    | some e => _) = _
  rw [hflags]
  simp only [List.foldl_map]
  have : (g.lanesOf wid).filter w.guardOn = onLanes g wid w := rfl
  rw [this]
  rfl

theorem updWave_find_self (s : State) (wid : Nat) (f : Wave → Wave) :
    Tbl.find (s.updWave wid f).waves wid = (Tbl.find s.waves wid).map f := Tbl.find_upd_self _ _ _

theorem updWave_find_ne (s : State) {wid j : Nat} (f : Wave → Wave) (h : j ≠ wid) :
    Tbl.find (s.updWave wid f).waves j = Tbl.find s.waves j := Tbl.find_upd_ne _ _ h

end State

theorem laneWaves_fold (op : LaneOp) (f : Nat → Wave → Nat → LaneRes) (g : Group) (ws : List Nat) (hn : ws.Nodup) (s : State)
    (dst : List Nat) (hw : ∀ wid ∈ ws, ∃ l, (wid, l) ∈ g.mem)
    (hok : ∀ m ∈ g.mem, m.1 ∈ ws → laneOk s op.regs dst m = true)
    (hc : ∀ wid ∈ ws, ∀ w, Tbl.find s.waves wid = some w → ∀ l ∈ onLanes g wid w, LaneClean dst w (f wid w l)) :
    let t := ws.foldl (fun s wid => State.laneWave op (f wid) g s wid) s
    t = { s with waves := t.waves } ∧ (∀ wid, wid ∉ ws → Tbl.find t.waves wid = Tbl.find s.waves wid)
    ∧ ∀ wid ∈ ws, ∀ w, Tbl.find s.waves wid = some w →
      Tbl.find t.waves wid = some (laneWaveOf op (f wid w) (g.lanesOf wid) (onLanes g wid w) w) := by
  induction ws generalizing s with
  | nil => simp
  | cons a ws ih =>
    simp only [List.foldl_cons]
    have hna : a ∉ ws := (List.nodup_cons.1 hn).1
    obtain ⟨la, hla⟩ := hw a (by simp)
    have hfa : ∃ w, Tbl.find s.waves a = some w := by
      have := hok (a, la) hla (by simp)
      unfold laneOk at this
      cases h : Tbl.find s.waves a with
      | none => simp [h] at this
      | some w => exact ⟨w, rfl⟩
    obtain ⟨w, hfa⟩ := hfa
    have he := State.laneWave_eq op (f a) g s a w dst hfa (fun l hl => hok (a, l) hl (by simp)) ⟨la, hla⟩ (hc a (by simp) w hfa)
    rw [he]
    have hne : ∀ j ∈ ws, j ≠ a := fun j hj e => hna (e ▸ hj)
    have hf' : ∀ j ∈ ws, Tbl.find (s.updWave a (laneWaveOf op (f a w) (g.lanesOf a) (onLanes g a w))).waves j = Tbl.find s.waves j :=
      fun j hj => State.updWave_find_ne s _ (hne j hj)
    obtain ⟨h1, h2, h3⟩ := ih (List.nodup_cons.1 hn).2 (s.updWave a (laneWaveOf op (f a w) (g.lanesOf a) (onLanes g a w)))
      (fun j hj => hw j (by simp [hj]))
      (fun m hm hj => by
        have := hok m hm (by simp [hj])
        unfold laneOk at this ⊢
        rw [hf' m.1 hj]; exact this)
      (fun j hj w' hw' => by rw [hf' j hj] at hw'; exact hc j (by simp [hj]) w' hw')
    refine ⟨by rw [h1]; rfl, fun j hj => ?_, fun j hj w' hw' => ?_⟩
    · rw [h2 j (by simp at hj; exact hj.2), State.updWave_find_ne s _ (by simp at hj; exact hj.1)]
    · rcases List.mem_cons.1 hj with rfl | hj
      · rw [h2 j hna, State.updWave_find_self, hfa]
        rw [hfa] at hw'
        simp at hw'
        subst hw'; rfl
      · rw [h3 j hj w' (by rw [hf' j hj]; exact hw')]

/-- Everything a lane instruction does where it raises no cause, needs no copy of a slab and traps no flag. -/
theorem laneStep_done (op : LaneOp) (f : Nat → Wave → Nat → LaneRes) (s : State) (g : Group) (dst : List Nat)
    (h : LaneReady s g op.regs dst)
    (hc : ∀ wid w l, (wid, l) ∈ g.mem → Tbl.find s.waves wid = some w → w.guardOn l = true → LaneClean dst w (f wid w l)) :
    ∃ t, laneStep op f s = .next t ∧ LaneDone s t g op.size f := by
  obtain ⟨hcur, hnd, hok⟩ := h
  have hclean : ∀ wid ∈ g.waves, ∀ w, Tbl.find s.waves wid = some w → ∀ l ∈ onLanes g wid w, LaneClean dst w (f wid w l) := by
    intro wid _ w hw l hl
    simp only [onLanes, List.mem_filter, mem_lanesOf] at hl
    exact hc wid w l hl.1 hw hl.2
  obtain ⟨h1, h2, h3⟩ := laneWaves_fold op f g g.waves (dedup_nodup _) s dst (fun wid hw => mem_waves.1 hw) (fun m hm _ => hok m hm) hclean
  refine ⟨s.laneGroup op f g, by unfold laneStep; rw [hcur], ?_⟩
  refine ⟨h1, fun wid hw => h2 wid (fun hm => ?_), fun wid w l hm hw => ?_⟩
  · obtain ⟨l, hl⟩ := mem_waves.1 hm; exact hw l hl
  · refine ⟨_, h3 wid (mem_waves.2 ⟨l, hm⟩) w hw, ?_⟩
    refine laneWaveOf_done op (f wid w) g hnd wid w (fun k hk => ?_) (fun k hk => ?_)
    · have := hok _ hk
      simp only [laneOk, hw, Bool.and_eq_true, decide_eq_true_eq] at this
      exact this.1.1
    · have hcl := hclean wid (mem_waves.2 ⟨l, hm⟩) w hw k hk
      exact ⟨fun x hx => (hcl.2.1 x hx).2, hcl.2.2.1⟩

end Sys2Proof.Machine
end

