-- ==== Sys2Proof/Laws/PerInstr.lean ====
section
/-!
SUPPORT. Decoding what the encoder gives: one lemma per constructor of `Instr`.
-/

set_option linter.unusedSimpArgs false

namespace Sys2Proof.Laws

/-! ## Fields -/

theorem bitAt_fld (w lo : Nat) : bitAt w lo = (fld w lo 1 == 1) := rfl

theorem bitVal_lt (b : Bool) : bitVal b < 2 := by cases b <;> decide

theorem bitVal_le (b : Bool) : bitVal b ≤ 1 := by cases b <;> decide

@[simp] theorem bitVal_beq (b : Bool) : (bitVal b == 1) = b := by cases b <;> rfl

theorem bitAt_of {w lo : Nat} {b : Bool} (h : fld w lo 1 = bitVal b) : bitAt w lo = b := by
  rw [bitAt_fld, h, bitVal_beq]

end Sys2Proof.Laws

namespace Sys2Proof

theorem IType.code_lt (t : IType) : t.code < 8 := by cases t <;> decide
theorem FType.code_lt (t : FType) : t.code < 6 := by cases t <;> decide
theorem Width.code_lt (t : Width) : t.code < 5 := by cases t <;> decide
theorem Scope.code_lt (t : Scope) : t.code < 6 := by cases t <;> decide
theorem ICond.code_lt (t : ICond) : t.code < 8 := by cases t <;> decide
theorem FCond.code_lt (t : FCond) : t.code < 8 := by cases t <;> decide
theorem UCond.code_lt (t : UCond) : t.code < 5 := by cases t <;> decide
theorem WCond.code_lt (t : WCond) : t.code < 4 := by cases t <;> decide
theorem RoundCode.code_lt (t : RoundCode) : t.code < 5 := by cases t <;> decide
theorem NumFmt.code_lt (t : NumFmt) : t.code < 8 := by cases t <;> decide
theorem ElemCode.code_lt (t : ElemCode) : t.code < 8 := by cases t <;> decide
theorem ShflMode.code_lt (t : ShflMode) : t.code < 4 := by cases t <;> decide
theorem AtomOp.code_lt (t : AtomOp) : t.code < 7 := by cases t <;> decide
theorem AddType.code_lt (t : AddType) : t.code < 4 := by cases t <;> decide
theorem CellType.code_lt (t : CellType) : t.code < 3 := by cases t <;> decide
theorem Shape.code_lt (t : Shape) : t.code < 2 := by cases t <;> decide
theorem TileType.code_lt (t : TileType) : t.code < 3 := by cases t <;> decide

@[simp] theorem IType.ofCode_code (t : IType) : IType.ofCode t.code = .ok t := by cases t <;> rfl
@[simp] theorem FType.ofCode_code (t : FType) : FType.ofCode t.code = .ok t := by cases t <;> rfl
@[simp] theorem Width.ofCode_code (t : Width) : Width.ofCode t.code = .ok t := by cases t <;> rfl
@[simp] theorem Scope.ofCode_code (t : Scope) : Scope.ofCode t.code = .ok t := by cases t <;> rfl
@[simp] theorem ICond.ofCode_code (t : ICond) : ICond.ofCode t.code = .ok t := by cases t <;> rfl
@[simp] theorem FCond.ofCode_code (t : FCond) : FCond.ofCode t.code = .ok t := by cases t <;> rfl
@[simp] theorem UCond.ofCode_code (t : UCond) : UCond.ofCode t.code = .ok t := by cases t <;> rfl
@[simp] theorem WCond.ofCode_code (t : WCond) : WCond.ofCode t.code = .ok t := by cases t <;> rfl
@[simp] theorem RoundCode.ofCode_code (t : RoundCode) : RoundCode.ofCode t.code = .ok t := by cases t <;> rfl
@[simp] theorem RoundCode.ofCode_zero : RoundCode.ofCode 0 = .ok .fmode := rfl
@[simp] theorem NumFmt.ofCode_code (t : NumFmt) : NumFmt.ofCode t.code = .ok t := by cases t <;> rfl
@[simp] theorem NumFmt.code_ne (t : NumFmt) : t.code ≠ 8 := by cases t <;> decide
@[simp] theorem ElemCode.ofCode_code (t : ElemCode) : ElemCode.ofCode t.code = .ok t := by cases t <;> rfl
@[simp] theorem ShflMode.ofCode_code (t : ShflMode) : ShflMode.ofCode t.code = .ok t := by cases t <;> rfl
@[simp] theorem AtomOp.ofCode_code (t : AtomOp) : AtomOp.ofCode t.code = .ok t := by cases t <;> rfl
@[simp] theorem AddType.ofCode_code (t : AddType) : AddType.ofCode t.code = .ok t := by cases t <;> rfl
@[simp] theorem CellType.ofCode_code (t : CellType) : CellType.ofCode t.code = .ok t := by cases t <;> rfl
@[simp] theorem Shape.ofCode_code (t : Shape) : Shape.ofCode t.code = .ok t := by cases t <;> rfl
@[simp] theorem TileType.ofCode_code (t : TileType) : TileType.ofCode t.code = .ok t := by cases t <;> rfl

@[simp] theorem Dec.bind_ok {α β : Type} (a : α) (f : α → Dec β) : (Except.ok a >>= f) = f a := rfl

end Sys2Proof

namespace Sys2Proof.Laws

/-! ## Words as bytes -/

theorem leNat_leBytes (n x : Nat) : leNat (leBytes n x) = x % 256 ^ n := by
  induction n generalizing x with
  | zero => simp [leBytes, leNat, Nat.mod_one]
  | succ n ih =>
    have h : (BitVec.ofNat 8 x).toNat = x % 256 := rfl
    rw [leBytes, leNat, ih, h, Nat.pow_succ, Nat.mul_comm (256 ^ n) 256, Nat.mod_mul]

theorem leBytes_length (n x : Nat) : (leBytes n x).length = n := by
  induction n generalizing x with
  | zero => rfl
  | succ n ih => simp [leBytes, ih]

theorem leNat_word (x : Nat) (h : x < 2 ^ 32) : leNat (leBytes 4 x) = x := by
  rw [leNat_leBytes]; exact Nat.mod_eq_of_lt (by omega)

/-! ## The round trip -/

/-- What the encoder gives for a well-formed instruction with a word decodes to that instruction and its length, whatever
follows it in memory. -/
def Roundtrip.Statement (i : Instr) : Prop :=
  i.wf = true → i.hasWord = true → ∀ rest : List Byte, decodeBytes (encodeBytes i ++ rest) = .ok (i, i.size)

/-- A row without a word has nothing to decode. -/
theorem no_word {i : Instr} (h : encode i = []) : Roundtrip.Statement i := by
  intro _ hw
  simp [Instr.hasWord, h] at hw

theorem decodeWords_ok {i : Instr} {w l h : Nat} (hd : (if isUniformWord w then decodeUniform w l h else decodeLane w l) = .ok i)
    (hwf : i.wf = true) : decodeWords w l h = .ok i := by
  cases hu : isUniformWord w <;> simp [hu] at hd <;> simp [decodeWords, hu, hd, hwf]

theorem word_of_one {i : Instr} (W : Nat) (he : encode i = [W]) (hW : W < 2 ^ 32) (hl : litCount W = 0)
    (hd : ∀ l h, (if isUniformWord W then decodeUniform W l h else decodeLane W l) = .ok i) : Roundtrip.Statement i := by
  intro hwf _ rest
  have hlen := leBytes_length 4 W
  simp [decodeBytes, encodeBytes, Instr.size, he, decodeWords_ok (hd _ _) hwf, hlen, leNat_word W hW, hl]

theorem word_of_two {i : Instr} (W X : Nat) (he : encode i = [W, X]) (hW : W < 2 ^ 32) (hX : X < 2 ^ 32) (hl : litCount W = 1)
    (hd : ∀ h, (if isUniformWord W then decodeUniform W X h else decodeLane W X) = .ok i) : Roundtrip.Statement i := by
  intro hwf _ rest
  have h1 := leBytes_length 4 W
  have h2 := leBytes_length 4 X
  simp [decodeBytes, encodeBytes, Instr.size, he, h1, h2, leNat_word W hW, leNat_word X hX, hl, decodeWords_ok (hd _) hwf]
  omega

theorem word_of_three {i : Instr} (W X Y : Nat) (he : encode i = [W, X, Y]) (hW : W < 2 ^ 32) (hX : X < 2 ^ 32) (hY : Y < 2 ^ 32)
    (hl : litCount W = 2) (hd : (if isUniformWord W then decodeUniform W X Y else decodeLane W X) = .ok i) :
    Roundtrip.Statement i := by
  intro hwf _ rest
  have h1 := leBytes_length 4 W
  have h2 := leBytes_length 4 X
  have h3 := leBytes_length 4 Y
  have h8 : List.drop 8 (leBytes 4 W) = [] := List.drop_eq_nil_of_le (by omega)
  have hn : ¬ 4 + (4 + (4 + rest.length)) < 12 := by omega
  simp [decodeBytes, encodeBytes, Instr.size, he, h1, h2, h3, h8, hn, leNat_word W hW, leNat_word X hX, leNat_word Y hY, hl,
    decodeWords_ok hd hwf, List.drop_append]

/-! ## The formats -/

theorem vrrI_ok {mk : IType → VReg → VReg → VOp → Instr} (m : Fin 64) (hx : laneHasX m.val = true)
    (hdis : ∀ w l, fld w 25 6 = m.val → decodeLane w l = vrrI mk w l) (t : IType) (d a : VReg) (b : VOp)
    (he : encode (mk t d a b) = encVrr m.val t.code d a b) : Roundtrip.Statement (mk t d a b) := by
  cases b with
  | reg r =>
    obtain ⟨W, hW⟩ : ∃ W, W = 0 + m.val * 33554432 + d.val * 262144 + a.val * 2048 + r.val * 16 + t.code * 2 := ⟨_, rfl⟩
    have := IType.code_lt t
    have h0 : fld W 25 6 = m.val := by unfold fld; omega
    have h1 : bitAt W 31 = false := by rw [bitAt_fld]; simp only [fld, beq_eq_decide, decide_eq_true_eq, decide_eq_false_iff_not]; omega
    have h2 : bitAt W 0 = false := by rw [bitAt_fld]; simp only [fld, beq_eq_decide, decide_eq_true_eq, decide_eq_false_iff_not]; omega
    have h3 : vreg W 18 = d := Fin.ext (by simp only [vreg, Fin.ofNat]; omega)
    have h4 : vreg W 11 = a := Fin.ext (by simp only [vreg, Fin.ofNat]; omega)
    have h5 : vreg W 4 = r := Fin.ext (by simp only [vreg, Fin.ofNat]; omega)
    have h6 : fld W 1 3 = t.code := by unfold fld; omega
    refine word_of_one W (by rw [he]; simp only [encVrr, VOp.enc, laneWord, hW, List.cons.injEq, and_true]; omega) ?_ ?_ ?_
    · omega
    · simp [litCount, isUniformWord, h0, h1, h2, h3, h4, h5, h6, hx]
    · intro l h; simp [isUniformWord, hdis _ _ h0, vrrI, vop, h0, h1, h2, h3, h4, h5, h6, -Fin.ofNat_eq_cast]
  | lit x =>
    obtain ⟨W, hW⟩ : ∃ W, W = 1 + m.val * 33554432 + d.val * 262144 + a.val * 2048 + t.code * 2 := ⟨_, rfl⟩
    have := IType.code_lt t
    have h0 : fld W 25 6 = m.val := by unfold fld; omega
    have h1 : bitAt W 31 = false := by rw [bitAt_fld]; simp only [fld, beq_eq_decide, decide_eq_true_eq, decide_eq_false_iff_not]; omega
    have h2 : bitAt W 0 = true := by rw [bitAt_fld]; simp only [fld, beq_eq_decide, decide_eq_true_eq, decide_eq_false_iff_not]; omega
    have h3 : vreg W 18 = d := Fin.ext (by simp only [vreg, Fin.ofNat]; omega)
    have h4 : vreg W 11 = a := Fin.ext (by simp only [vreg, Fin.ofNat]; omega)
    have h5 : fld W 4 7 = 0 := by unfold fld; omega
    have h6 : fld W 1 3 = t.code := by unfold fld; omega
    refine word_of_two W x.toNat (by rw [he]; simp only [encVrr, VOp.enc, laneWord, hW, List.cons.injEq, and_true]; omega) ?_ x.isLt ?_ ?_
    · omega
    · simp [litCount, isUniformWord, h0, h1, h2, h3, h4, h5, h6, hx]
    · intro h; simp [isUniformWord, hdis _ _ h0, vrrI, vop, h0, h1, h2, h3, h4, h5, h6, -Fin.ofNat_eq_cast]

theorem vrrF_ok {mk : FType → VReg → VReg → VOp → Instr} (m : Fin 64) (hx : laneHasX m.val = true)
    (hdis : ∀ w l, fld w 25 6 = m.val → decodeLane w l = vrrF mk w l) (t : FType) (d a : VReg) (b : VOp)
    (he : encode (mk t d a b) = encVrr m.val t.code d a b) : Roundtrip.Statement (mk t d a b) := by
  cases b with
  | reg r =>
    obtain ⟨W, hW⟩ : ∃ W, W = 0 + m.val * 33554432 + d.val * 262144 + a.val * 2048 + r.val * 16 + t.code * 2 := ⟨_, rfl⟩
    have := FType.code_lt t
    have h0 : fld W 25 6 = m.val := by unfold fld; omega
    have h1 : bitAt W 31 = false := by rw [bitAt_fld]; simp only [fld, beq_eq_decide, decide_eq_true_eq, decide_eq_false_iff_not]; omega
    have h2 : bitAt W 0 = false := by rw [bitAt_fld]; simp only [fld, beq_eq_decide, decide_eq_true_eq, decide_eq_false_iff_not]; omega
    have h3 : vreg W 18 = d := Fin.ext (by simp only [vreg, Fin.ofNat]; omega)
    have h4 : vreg W 11 = a := Fin.ext (by simp only [vreg, Fin.ofNat]; omega)
    have h5 : vreg W 4 = r := Fin.ext (by simp only [vreg, Fin.ofNat]; omega)
    have h6 : fld W 1 3 = t.code := by unfold fld; omega
    refine word_of_one W (by rw [he]; simp only [encVrr, VOp.enc, laneWord, hW, List.cons.injEq, and_true]; omega) ?_ ?_ ?_
    · omega
    · simp [litCount, isUniformWord, h0, h1, h2, h3, h4, h5, h6, hx]
    · intro l h; simp [isUniformWord, hdis _ _ h0, vrrF, vop, h0, h1, h2, h3, h4, h5, h6, -Fin.ofNat_eq_cast]
  | lit x =>
    obtain ⟨W, hW⟩ : ∃ W, W = 1 + m.val * 33554432 + d.val * 262144 + a.val * 2048 + t.code * 2 := ⟨_, rfl⟩
    have := FType.code_lt t
    have h0 : fld W 25 6 = m.val := by unfold fld; omega
    have h1 : bitAt W 31 = false := by rw [bitAt_fld]; simp only [fld, beq_eq_decide, decide_eq_true_eq, decide_eq_false_iff_not]; omega
    have h2 : bitAt W 0 = true := by rw [bitAt_fld]; simp only [fld, beq_eq_decide, decide_eq_true_eq, decide_eq_false_iff_not]; omega
    have h3 : vreg W 18 = d := Fin.ext (by simp only [vreg, Fin.ofNat]; omega)
    have h4 : vreg W 11 = a := Fin.ext (by simp only [vreg, Fin.ofNat]; omega)
    have h5 : fld W 4 7 = 0 := by unfold fld; omega
    have h6 : fld W 1 3 = t.code := by unfold fld; omega
    refine word_of_two W x.toNat (by rw [he]; simp only [encVrr, VOp.enc, laneWord, hW, List.cons.injEq, and_true]; omega) ?_ x.isLt ?_ ?_
    · omega
    · simp [litCount, isUniformWord, h0, h1, h2, h3, h4, h5, h6, hx]
    · intro h; simp [isUniformWord, hdis _ _ h0, vrrF, vop, h0, h1, h2, h3, h4, h5, h6, -Fin.ofNat_eq_cast]

theorem vmWidth_ok {mk : Width → VReg → BReg → VReg → Instr} (m : Fin 64) (hx : laneHasX m.val = false)
    (hdis : ∀ w l, fld w 25 6 = m.val → decodeLane w l = vmWidth w mk) (z : Width) (d : VReg) (n : BReg) (o : VReg)
    (he : encode (mk z d n o) = encVm m.val d n o z.code 0) : Roundtrip.Statement (mk z d n o) := by
  obtain ⟨W, hW⟩ : ∃ W, W = 0 + m.val * 33554432 + d.val * 262144 + n.val * 16384 + o.val * 128 + z.code * 16 := ⟨_, rfl⟩
  have := Width.code_lt z
  have h0 : fld W 25 6 = m.val := by unfold fld; omega
  have h1 : bitAt W 31 = false := by rw [bitAt_fld]; simp only [fld, beq_eq_decide, decide_eq_true_eq, decide_eq_false_iff_not]; omega
  have h2 : fld W 4 3 = z.code := by unfold fld; omega
  have h3 : fld W 0 4 = 0 := by unfold fld; omega
  have h4 : vreg W 18 = d := Fin.ext (by simp only [vreg, Fin.ofNat]; omega)
  have h5 : Fin.ofNat 16 (W / 16384) = n := Fin.ext (by simp only [Fin.ofNat]; omega)
  have h6 : vreg W 7 = o := Fin.ext (by simp only [vreg, Fin.ofNat]; omega)
  refine word_of_one W (by rw [he]; simp only [encVm, hW, List.cons.injEq, and_true]; omega) ?_ ?_ ?_
  · omega
  · simp [litCount, isUniformWord, h0, h1, h2, h3, h4, h5, h6, hx]
  · intro l h; simp [isUniformWord, hdis _ _ h0, vmWidth, vm, need, h0, h1, h2, h3, h4, h5, h6, -Fin.ofNat_eq_cast]

theorem vmHint_ok {mk : Width → Fin 4 → VReg → BReg → VReg → Instr} (m : Fin 64) (hx : laneHasX m.val = false)
    (hdis : ∀ w l, fld w 25 6 = m.val → decodeLane w l = vmHint w mk) (z : Width) (k : Fin 4) (d : VReg) (n : BReg) (o : VReg)
    (he : encode (mk z k d n o) = encVm m.val d n o z.code k.val) : Roundtrip.Statement (mk z k d n o) := by
  obtain ⟨W, hW⟩ : ∃ W, W = 0 + m.val * 33554432 + d.val * 262144 + n.val * 16384 + o.val * 128 + z.code * 16 + k.val * 1 := ⟨_, rfl⟩
  have := Width.code_lt z
  have h0 : fld W 25 6 = m.val := by unfold fld; omega
  have h1 : bitAt W 31 = false := by rw [bitAt_fld]; simp only [fld, beq_eq_decide, decide_eq_true_eq, decide_eq_false_iff_not]; omega
  have h2 : fld W 4 3 = z.code := by unfold fld; omega
  have h3 : fld W 0 4 = k.val := by unfold fld; omega
  have h4 : Fin.ofNat 4 W = k := Fin.ext (by simp only [Fin.ofNat]; omega)
  have h5 : vreg W 18 = d := Fin.ext (by simp only [vreg, Fin.ofNat]; omega)
  have h6 : Fin.ofNat 16 (W / 16384) = n := Fin.ext (by simp only [Fin.ofNat]; omega)
  have h7 : vreg W 7 = o := Fin.ext (by simp only [vreg, Fin.ofNat]; omega)
  refine word_of_one W (by rw [he]; simp only [encVm, hW, List.cons.injEq, and_true]; omega) ?_ ?_ ?_
  · omega
  · simp [litCount, isUniformWord, h0, h1, h2, h3, h4, h5, h6, h7, hx]
  · intro l h; simp [isUniformWord, hdis _ _ h0, vmHint, vm, need, h0, h1, h2, h3, h4, h5, h6, h7, -Fin.ofNat_eq_cast]

theorem vmStrong_ok {mk : Bool → Bool → Scope → VReg → BReg → VReg → Instr} (m : Fin 64) (hx : laneHasX m.val = false)
    (hdis : ∀ w l, fld w 25 6 = m.val → decodeLane w l = vmStrong w mk) (pr q : Bool) (sc : Scope) (d : VReg) (n : BReg) (o : VReg)
    (he : encode (mk pr q sc d n o) = encVm m.val d n o (2 + bitVal pr) (sc.code * 2 + bitVal q)) : Roundtrip.Statement (mk pr q sc d n o) := by
  obtain ⟨W, hW⟩ : ∃ W, W = 32 + m.val * 33554432 + d.val * 262144 + n.val * 16384 + o.val * 128 + bitVal pr * 16 + sc.code * 2 + bitVal q * 1 := ⟨_, rfl⟩
  have := bitVal_lt pr
  have := Scope.code_lt sc
  have := bitVal_lt q
  have h0 : fld W 25 6 = m.val := by unfold fld; omega
  have h1 : bitAt W 31 = false := by rw [bitAt_fld]; simp only [fld, beq_eq_decide, decide_eq_true_eq, decide_eq_false_iff_not]; omega
  have h2 : fld W 1 3 = sc.code := by unfold fld; omega
  have h3 : fld W 4 3 = bitVal pr + 2 := by unfold fld; omega
  have h4 : bitAt W 0 = q := bitAt_of (by unfold fld; omega)
  have h5 : vreg W 18 = d := Fin.ext (by simp only [vreg, Fin.ofNat]; omega)
  have h6 : Fin.ofNat 16 (W / 16384) = n := Fin.ext (by simp only [Fin.ofNat]; omega)
  have h7 : vreg W 7 = o := Fin.ext (by simp only [vreg, Fin.ofNat]; omega)
  refine word_of_one W (by rw [he]; simp only [encVm, hW, List.cons.injEq, and_true]; omega) ?_ ?_ ?_
  · omega
  · simp [litCount, isUniformWord, h0, h1, h2, h3, h4, h5, h6, h7, hx]
  · intro l h; cases pr <;> simp [bitVal, isUniformWord, hdis _ _ h0, vmStrong, vm, need, h0, h1, h2, h3, h4, h5, h6, h7, -Fin.ofNat_eq_cast]

theorem se_ok {mk : Tag → SReg → Instr} (m : Fin 64)
    (hdis : ∀ w l h, fld w 25 6 = m.val → decodeUniform w l h = se mk w) (t : Tag) (a : SReg)
    (he : encode (mk t a) = [uniWord m.val t.val a.val 0]) : Roundtrip.Statement (mk t a) := by
  obtain ⟨W, hW⟩ : ∃ W, W = 2147483648 + m.val * 33554432 + t.val * 524288 + a.val * 8192 := ⟨_, rfl⟩
  have h0 : fld W 25 6 = m.val := by unfold fld; omega
  have h1 : bitAt W 31 = true := by rw [bitAt_fld]; simp only [fld, beq_eq_decide, decide_eq_true_eq, decide_eq_false_iff_not]; omega
  have h2 : bitAt W 0 = false := by rw [bitAt_fld]; simp only [fld, beq_eq_decide, decide_eq_true_eq, decide_eq_false_iff_not]; omega
  have h3 : fld W 0 13 = 0 := by unfold fld; omega
  have h4 : sreg W 19 = t := Fin.ext (by simp only [sreg, Fin.ofNat]; omega)
  have h5 : sreg W 13 = a := Fin.ext (by simp only [sreg, Fin.ofNat]; omega)
  refine word_of_one W (by rw [he]; simp only [uniWord, hW, List.cons.injEq, and_true]; omega) ?_ ?_ ?_
  · omega
  · simp [litCount, isUniformWord, h0, h1, h2, h3, h4, h5]
  · intro l h; simp [isUniformWord, hdis _ _ _ h0, se, need, h0, h1, h2, h3, h4, h5, -Fin.ofNat_eq_cast]

theorem syDA_ok {mk : SReg → SReg → Instr} (m : Fin 64)
    (hdis : ∀ w l h, fld w 25 6 = m.val → decodeUniform w l h = syDA mk w) (d a : SReg)
    (he : encode (mk d a) = [uniWord m.val d.val a.val 0]) : Roundtrip.Statement (mk d a) := by
  obtain ⟨W, hW⟩ : ∃ W, W = 2147483648 + m.val * 33554432 + d.val * 524288 + a.val * 8192 := ⟨_, rfl⟩
  have h0 : fld W 25 6 = m.val := by unfold fld; omega
  have h1 : bitAt W 31 = true := by rw [bitAt_fld]; simp only [fld, beq_eq_decide, decide_eq_true_eq, decide_eq_false_iff_not]; omega
  have h2 : bitAt W 0 = false := by rw [bitAt_fld]; simp only [fld, beq_eq_decide, decide_eq_true_eq, decide_eq_false_iff_not]; omega
  have h3 : fld W 0 13 = 0 := by unfold fld; omega
  have h4 : sreg W 19 = d := Fin.ext (by simp only [sreg, Fin.ofNat]; omega)
  have h5 : sreg W 13 = a := Fin.ext (by simp only [sreg, Fin.ofNat]; omega)
  refine word_of_one W (by rw [he]; simp only [uniWord, hW, List.cons.injEq, and_true]; omega) ?_ ?_ ?_
  · omega
  · simp [litCount, isUniformWord, h0, h1, h2, h3, h4, h5]
  · intro l h; simp [isUniformWord, hdis _ _ _ h0, syDA, need, h0, h1, h2, h3, h4, h5, -Fin.ofNat_eq_cast]

theorem syA_ok {mk : SReg → Instr} (m : Fin 64)
    (hdis : ∀ w l h, fld w 25 6 = m.val → decodeUniform w l h = syA mk w) (a : SReg)
    (he : encode (mk a) = [uniWord m.val 0 a.val 0]) : Roundtrip.Statement (mk a) := by
  obtain ⟨W, hW⟩ : ∃ W, W = 2147483648 + m.val * 33554432 + a.val * 8192 := ⟨_, rfl⟩
  have h0 : fld W 25 6 = m.val := by unfold fld; omega
  have h1 : bitAt W 31 = true := by rw [bitAt_fld]; simp only [fld, beq_eq_decide, decide_eq_true_eq, decide_eq_false_iff_not]; omega
  have h2 : bitAt W 0 = false := by rw [bitAt_fld]; simp only [fld, beq_eq_decide, decide_eq_true_eq, decide_eq_false_iff_not]; omega
  have h3 : fld W 0 13 = 0 := by unfold fld; omega
  have h4 : fld W 19 6 = 0 := by unfold fld; omega
  have h5 : sreg W 13 = a := Fin.ext (by simp only [sreg, Fin.ofNat]; omega)
  refine word_of_one W (by rw [he]; simp only [uniWord, hW, List.cons.injEq, and_true]; omega) ?_ ?_ ?_
  · omega
  · simp [litCount, isUniformWord, h0, h1, h2, h3, h4, h5]
  · intro l h; simp [isUniformWord, hdis _ _ _ h0, syA, need, h0, h1, h2, h3, h4, h5, -Fin.ofNat_eq_cast]

theorem bare_ok {mk : Instr} (m : Fin 64)
    (hdis : ∀ w l h, fld w 25 6 = m.val → decodeUniform w l h = bare mk w)
    (he : encode (mk) = [uniWord m.val 0 0 0]) : Roundtrip.Statement (mk) := by
  obtain ⟨W, hW⟩ : ∃ W, W = 2147483648 + m.val * 33554432 := ⟨_, rfl⟩
  have h0 : fld W 25 6 = m.val := by unfold fld; omega
  have h1 : bitAt W 31 = true := by rw [bitAt_fld]; simp only [fld, beq_eq_decide, decide_eq_true_eq, decide_eq_false_iff_not]; omega
  have h2 : bitAt W 0 = false := by rw [bitAt_fld]; simp only [fld, beq_eq_decide, decide_eq_true_eq, decide_eq_false_iff_not]; omega
  have h3 : fld W 0 25 = 0 := by unfold fld; omega
  refine word_of_one W (by rw [he]; simp only [uniWord, hW, List.cons.injEq, and_true]; omega) ?_ ?_ ?_
  · omega
  · simp [litCount, isUniformWord, h0, h1, h2, h3]
  · intro l h; simp [isUniformWord, hdis _ _ _ h0, bare, need, h0, h1, h2, h3, -Fin.ofNat_eq_cast]

theorem srr_ok {mk : Bool → SReg → SReg → SOp → Instr} (m : Fin 64) (h12 : (m.val == 12) = false)
    (hx : (decide (1 ≤ m.val) && decide (m.val ≤ 12)) = true) (hdis : ∀ w l h, fld w 25 6 = m.val → decodeUniform w l h = srr mk w l)
    (nw : Bool) (d a : SReg) (b : SOp) (he : encode (mk nw d a b) = encSrr m.val (bitVal nw) d a b) :
    Roundtrip.Statement (mk nw d a b) := by
  simp only [Bool.and_eq_true, decide_eq_true_eq] at hx
  cases b with
  | reg r =>
    obtain ⟨W, hW⟩ : ∃ W, W = 2147483648 + m.val * 33554432 + d.val * 524288 + a.val * 8192 + r.val * 128 + bitVal nw * 2 := ⟨_, rfl⟩
    have := bitVal_lt nw
    have h0 : fld W 25 6 = m.val := by unfold fld; omega
    have h1 : bitAt W 31 = true := by rw [bitAt_fld]; simp only [fld, beq_eq_decide, decide_eq_true_eq, decide_eq_false_iff_not]; omega
    have h2 : bitAt W 0 = false := by rw [bitAt_fld]; simp only [fld, beq_eq_decide, decide_eq_true_eq, decide_eq_false_iff_not]; omega
    have h3 : sreg W 19 = d := Fin.ext (by simp only [sreg, Fin.ofNat]; omega)
    have h4 : sreg W 13 = a := Fin.ext (by simp only [sreg, Fin.ofNat]; omega)
    have h5 : sreg W 7 = r := Fin.ext (by simp only [sreg, Fin.ofNat]; omega)
    have h6 : fld W 1 6 = bitVal nw := by unfold fld; omega
    have h7 : bitAt W 1 = nw := bitAt_of (by unfold fld; omega)
    refine word_of_one W (by rw [he]; simp only [encSrr, SOp.enc, uniWord, hW, List.cons.injEq, and_true]; omega) ?_ ?_ ?_
    · omega
    · simp [litCount, isUniformWord, h0, h1, h2, h3, h4, h5, h6, h7, h12, hx]
    · intro l h; simp [isUniformWord, hdis _ _ _ h0, srr, sop, need, bitVal_le, h0, h1, h2, h3, h4, h5, h6, h7, -Fin.ofNat_eq_cast]
  | lit x =>
    obtain ⟨W, hW⟩ : ∃ W, W = 2147483649 + m.val * 33554432 + d.val * 524288 + a.val * 8192 + bitVal nw * 2 := ⟨_, rfl⟩
    have := bitVal_lt nw
    have h0 : fld W 25 6 = m.val := by unfold fld; omega
    have h1 : bitAt W 31 = true := by rw [bitAt_fld]; simp only [fld, beq_eq_decide, decide_eq_true_eq, decide_eq_false_iff_not]; omega
    have h2 : bitAt W 0 = true := by rw [bitAt_fld]; simp only [fld, beq_eq_decide, decide_eq_true_eq, decide_eq_false_iff_not]; omega
    have h3 : sreg W 19 = d := Fin.ext (by simp only [sreg, Fin.ofNat]; omega)
    have h4 : sreg W 13 = a := Fin.ext (by simp only [sreg, Fin.ofNat]; omega)
    have h5 : fld W 7 6 = 0 := by unfold fld; omega
    have h6 : fld W 1 6 = bitVal nw := by unfold fld; omega
    have h7 : bitAt W 1 = nw := bitAt_of (by unfold fld; omega)
    refine word_of_two W x.toNat (by rw [he]; simp only [encSrr, SOp.enc, uniWord, hW, List.cons.injEq, and_true]; omega) ?_ x.isLt ?_ ?_
    · omega
    · simp [litCount, isUniformWord, h0, h1, h2, h3, h4, h5, h6, h7, h12, hx]
    · intro h; simp [isUniformWord, hdis _ _ _ h0, srr, sop, need, bitVal_le, h0, h1, h2, h3, h4, h5, h6, h7, -Fin.ofNat_eq_cast]

/-! ## The instructions -/

theorem Roundtrip.throttleCause (c : ThrCause) (h : Fin 64) : Roundtrip.Statement (.throttleCause c h) := no_word rfl
theorem Roundtrip.throttleStepDown (h : Fin 64) : Roundtrip.Statement (.throttleStepDown h) := no_word rfl
theorem Roundtrip.throttleRelease (h : Fin 64) : Roundtrip.Statement (.throttleRelease h) := no_word rfl
theorem Roundtrip.backstopCeiling (h : Fin 64) : Roundtrip.Statement (.backstopCeiling h) := no_word rfl
theorem Roundtrip.relockEnd (h : Fin 64) : Roundtrip.Statement (.relockEnd h) := no_word rfl
theorem Roundtrip.boostExhausted (h : Fin 64) : Roundtrip.Statement (.boostExhausted h) := no_word rfl
theorem Roundtrip.rowRepair (stack : Fin 8) (bank : Nat) (row : Nat) : Roundtrip.Statement (.rowRepair stack bank row) := no_word rfl
theorem Roundtrip.rowRepairDone (stack : Fin 8) : Roundtrip.Statement (.rowRepairDone stack) := no_word rfl
theorem Roundtrip.unitFence (u : FenceUnit) : Roundtrip.Statement (.unitFence u) := no_word rfl
theorem Roundtrip.alarm (src : AlarmSrc) : Roundtrip.Statement (.alarm src) := no_word rfl
theorem Roundtrip.alarmPolicyWrite (v : Word) : Roundtrip.Statement (.alarmPolicyWrite v) := no_word rfl
theorem Roundtrip.devHealthClear (v : Word) : Roundtrip.Statement (.devHealthClear v) := no_word rfl
theorem Roundtrip.ptpMessage (t : Nat) (ppm : Int) : Roundtrip.Statement (.ptpMessage t ppm) := no_word rfl
theorem Roundtrip.registerWrite (fn : HostFn) (bar : Fin 6) (off : Nat) (wide : Bool) (v : DWord) : Roundtrip.Statement (.registerWrite fn bar off wide v) := no_word rfl
theorem Roundtrip.pkgPwrLimitWrite (v : Word) : Roundtrip.Statement (.pkgPwrLimitWrite v) := no_word rfl
theorem Roundtrip.leaseMaxWrite (v : Word) : Roundtrip.Statement (.leaseMaxWrite v) := no_word rfl
theorem Roundtrip.fabIdWrite (v : Word) (trained : BitVec 8) : Roundtrip.Statement (.fabIdWrite v trained) := no_word rfl
theorem Roundtrip.mirrorBrokenClear (p : Fin 8) (v : Word) : Roundtrip.Statement (.mirrorBrokenClear p v) := no_word rfl
theorem Roundtrip.mirrorAckTimeout (p : Fin 8) : Roundtrip.Statement (.mirrorAckTimeout p) := no_word rfl
theorem Roundtrip.fabricRead (r : FabReq) (len : Nat) : Roundtrip.Statement (.fabricRead r len) := no_word rfl
theorem Roundtrip.fabricWrite (r : FabReq) (data : List Byte) : Roundtrip.Statement (.fabricWrite r data) := no_word rfl
theorem Roundtrip.fabricAtomic (r : FabReq) (op : RmwOp) : Roundtrip.Statement (.fabricAtomic r op) := no_word rfl
theorem Roundtrip.marker (src : Nat) (plane : Fin 8) (m : MarkerTag) : Roundtrip.Statement (.marker src plane m) := no_word rfl
theorem Roundtrip.response (r : FabResp) : Roundtrip.Statement (.response r) := no_word rfl
theorem Roundtrip.lease (src : Nat) (of_ : Charge) (page : Nat) (right : Right) (id : Nat) : Roundtrip.Statement (.lease src of_ page right id) := no_word rfl
theorem Roundtrip.leaseGrant (die : Fin 2) (part : Nat) (chip : Nat) (page : Nat) (pa : Nat) (rights : Rights) (gen : Nat) (expiry : Nat) : Roundtrip.Statement (.leaseGrant die part chip page pa rights gen expiry) := no_word rfl
theorem Roundtrip.leaseExpiry (die : Fin 2) (part : Nat) (chip : Nat) (page : Nat) : Roundtrip.Statement (.leaseExpiry die part chip page) := no_word rfl
theorem Roundtrip.exportChange (page : Nat) (entry : ExportEntry) : Roundtrip.Statement (.exportChange page entry) := no_word rfl
theorem Roundtrip.exportChangeTimeout (page : Nat) : Roundtrip.Statement (.exportChangeTimeout page) := no_word rfl
theorem Roundtrip.recall (m : RecallMsg) (page : Nat) : Roundtrip.Statement (.recall m page) := no_word rfl
theorem Roundtrip.recallAck (m : RecallMsg) (page : Nat) (plane : Fin 8) : Roundtrip.Statement (.recallAck m page plane) := no_word rfl
theorem Roundtrip.linkRetry (plane : Fin 8) : Roundtrip.Statement (.linkRetry plane) := no_word rfl
theorem Roundtrip.linkRetryLimit (plane : Fin 8) : Roundtrip.Statement (.linkRetryLimit plane) := no_word rfl
theorem Roundtrip.linkDown (plane : Fin 8) : Roundtrip.Statement (.linkDown plane) := no_word rfl
theorem Roundtrip.fabricRequestTimeout (plane : Fin 8) : Roundtrip.Statement (.fabricRequestTimeout plane) := no_word rfl
theorem Roundtrip.planeFail (plane : Fin 8) : Roundtrip.Statement (.planeFail plane) := no_word rfl
theorem Roundtrip.deadReport (chip : Nat) (plane : Fin 8) (gen : Nat) : Roundtrip.Statement (.deadReport chip plane gen) := no_word rfl
theorem Roundtrip.stop (m : StopMsg) (gen : Nat) : Roundtrip.Statement (.stop m gen) := no_word rfl
theorem Roundtrip.stopped (m : StoppedMsg) : Roundtrip.Statement (.stopped m) := no_word rfl
theorem Roundtrip.quiesceFence (gen : Nat) : Roundtrip.Statement (.quiesceFence gen) := no_word rfl
theorem Roundtrip.fenced (chip : Nat) : Roundtrip.Statement (.fenced chip) := no_word rfl
theorem Roundtrip.map (gen : Nat) (planes : List (Fin 8)) : Roundtrip.Statement (.map gen planes) := no_word rfl
theorem Roundtrip.retried (chip : Nat) : Roundtrip.Statement (.retried chip) := no_word rfl
theorem Roundtrip.resume (gen : Nat) : Roundtrip.Statement (.resume gen) := no_word rfl
theorem Roundtrip.chipStepTimeout (chip : Nat) : Roundtrip.Statement (.chipStepTimeout chip) := no_word rfl
theorem Roundtrip.hostApertureWrite (fn : HostFn) (off : Nat) (data : List Byte) : Roundtrip.Statement (.hostApertureWrite fn off data) := no_word rfl
theorem Roundtrip.hostApertureRead (fn : HostFn) (off : Nat) (len : Nat) : Roundtrip.Statement (.hostApertureRead fn off len) := no_word rfl
theorem Roundtrip.hostWindowTimeout (core : Nat) (slot : Nat) : Roundtrip.Statement (.hostWindowTimeout core slot) := no_word rfl
theorem Roundtrip.vdEnable (vf : Fin 32) (v : DWord) : Roundtrip.Statement (.vdEnable vf v) := no_word rfl
theorem Roundtrip.vdDisable (vf : Fin 32) (v : DWord) : Roundtrip.Statement (.vdDisable vf v) := no_word rfl
theorem Roundtrip.queueEnable (vf : Fin 32) (q : Nat) (v : Word) : Roundtrip.Statement (.queueEnable vf q v) := no_word rfl
theorem Roundtrip.queuePause (vf : Fin 32) (q : Nat) (v : Word) : Roundtrip.Statement (.queuePause vf q v) := no_word rfl
theorem Roundtrip.queuePauseDrained (hq : Nat) : Roundtrip.Statement (.queuePauseDrained hq) := no_word rfl
theorem Roundtrip.queueReset (vf : Fin 32) (q : Nat) (v : Word) : Roundtrip.Statement (.queueReset vf q v) := no_word rfl
theorem Roundtrip.queueResetDone (hq : Nat) : Roundtrip.Statement (.queueResetDone hq) := no_word rfl
theorem Roundtrip.queueTailWrite (vf : Fin 32) (q : Nat) (v : Word) : Roundtrip.Statement (.queueTailWrite vf q v) := no_word rfl
theorem Roundtrip.recordFetch (hq : Nat) : Roundtrip.Statement (.recordFetch hq) := no_word rfl
theorem Roundtrip.nodeStart (hq : Nat) (slot : Nat) : Roundtrip.Statement (.nodeStart hq slot) := no_word rfl
theorem Roundtrip.nodeComplete (hq : Nat) (slot : Nat) : Roundtrip.Statement (.nodeComplete hq slot) := no_word rfl
theorem Roundtrip.waitPoll (hq : Nat) (slot : Nat) : Roundtrip.Statement (.waitPoll hq slot) := no_word rfl
theorem Roundtrip.condRangeIdle (hq : Nat) (slot : Nat) : Roundtrip.Statement (.condRangeIdle hq slot) := no_word rfl
theorem Roundtrip.hostpostAppend (hq : Nat) (slot : Nat) : Roundtrip.Statement (.hostpostAppend hq slot) := no_word rfl
theorem Roundtrip.ringTimer (vf : Fin 32) (k : Fin 16) : Roundtrip.Statement (.ringTimer vf k) := no_word rfl
theorem Roundtrip.ringEnable (vf : Fin 32) (k : Fin 16) (v : Word) : Roundtrip.Statement (.ringEnable vf k v) := no_word rfl
theorem Roundtrip.ringConsWrite (vf : Fin 32) (k : Fin 16) (v : Word) : Roundtrip.Statement (.ringConsWrite vf k v) := no_word rfl
theorem Roundtrip.msixUnmask (fn : HostFn) (vec : Nat) : Roundtrip.Statement (.msixUnmask fn vec) := no_word rfl
theorem Roundtrip.launchComplete (grid : Nat) : Roundtrip.Statement (.launchComplete grid) := no_word rfl
theorem Roundtrip.teamPlacement (cluster : Fin 8) : Roundtrip.Statement (.teamPlacement cluster) := no_word rfl
theorem Roundtrip.claimComplete (core : Nat) (side : Fin 2) : Roundtrip.Statement (.claimComplete core side) := no_word rfl
theorem Roundtrip.spillCopyDone (core : Nat) (side : Fin 2) : Roundtrip.Statement (.spillCopyDone core side) := no_word rfl
theorem Roundtrip.readmission (core : Nat) (slot : Nat) : Roundtrip.Statement (.readmission core slot) := no_word rfl
theorem Roundtrip.slabLend (core : Nat) (side : Fin 2) : Roundtrip.Statement (.slabLend core side) := no_word rfl
theorem Roundtrip.lendReclaim (core : Nat) (slot : Nat) : Roundtrip.Statement (.lendReclaim core slot) := no_word rfl
theorem Roundtrip.sliceBoundary (p : Fin 8) : Roundtrip.Statement (.sliceBoundary p) := no_word rfl
theorem Roundtrip.yieldRequest (p : Fin 8) : Roundtrip.Statement (.yieldRequest p) := no_word rfl
theorem Roundtrip.sliceEnd (cluster : Fin 8) : Roundtrip.Statement (.sliceEnd cluster) := no_word rfl
theorem Roundtrip.drainDeadline (cluster : Fin 8) : Roundtrip.Statement (.drainDeadline cluster) := no_word rfl
theorem Roundtrip.shadowExchange (cluster : Fin 8) : Roundtrip.Statement (.shadowExchange cluster) := no_word rfl
theorem Roundtrip.switchComplete (p : Fin 8) : Roundtrip.Statement (.switchComplete p) := no_word rfl
theorem Roundtrip.thermalMigration (team : Nat) (target : Nat) : Roundtrip.Statement (.thermalMigration team target) := no_word rfl
theorem Roundtrip.migrationComplete (team : Nat) : Roundtrip.Statement (.migrationComplete team) := no_word rfl
theorem Roundtrip.forwardingExpiry (core : Nat) : Roundtrip.Statement (.forwardingExpiry core) := no_word rfl
theorem Roundtrip.tlbInv (p : Fin 8) (v : DWord) : Roundtrip.Statement (.tlbInv p v) := no_word rfl
theorem Roundtrip.tlbInvDone (p : Fin 8) : Roundtrip.Statement (.tlbInvDone p) := no_word rfl
theorem Roundtrip.fqEnable (p : Fin 8) (v : Word) : Roundtrip.Statement (.fqEnable p v) := no_word rfl
theorem Roundtrip.fqResolve (p : Fin 8) (v : DWord) : Roundtrip.Statement (.fqResolve p v) := no_word rfl
theorem Roundtrip.sqEnable (p : Fin 8) (v : Word) : Roundtrip.Statement (.sqEnable p v) := no_word rfl
theorem Roundtrip.waveReenter (p : Fin 8) (v : DWord) : Roundtrip.Statement (.waveReenter p v) := no_word rfl
theorem Roundtrip.waveResume (p : Fin 8) (v : DWord) : Roundtrip.Statement (.waveResume p v) := no_word rfl
theorem Roundtrip.waveKill (p : Fin 8) (v : DWord) : Roundtrip.Statement (.waveKill p v) := no_word rfl
theorem Roundtrip.asyncCauseDelivery (core : Nat) (slot : Nat) : Roundtrip.Statement (.asyncCauseDelivery core slot) := no_word rfl
theorem Roundtrip.launchReplay (grid : Nat) : Roundtrip.Statement (.launchReplay grid) := no_word rfl
theorem Roundtrip.gateTimeout (core : Nat) (slot : Nat) : Roundtrip.Statement (.gateTimeout core slot) := no_word rfl
theorem Roundtrip.gateAbortTimeout (core : Nat) (slot : Nat) : Roundtrip.Statement (.gateAbortTimeout core slot) := no_word rfl
theorem Roundtrip.waitvWake (core : Nat) (slot : Nat) : Roundtrip.Statement (.waitvWake core slot) := no_word rfl
theorem Roundtrip.sleepWake (core : Nat) (slot : Nat) : Roundtrip.Statement (.sleepWake core slot) := no_word rfl
theorem Roundtrip.childGridRetire (grid : Nat) : Roundtrip.Statement (.childGridRetire grid) := no_word rfl
theorem Roundtrip.scheduleEntryIssue (team : Nat) : Roundtrip.Statement (.scheduleEntryIssue team) := no_word rfl
theorem Roundtrip.copyChunkWritten (job : Nat) : Roundtrip.Statement (.copyChunkWritten job) := no_word rfl
theorem Roundtrip.copyJobComplete (job : Nat) : Roundtrip.Statement (.copyJobComplete job) := no_word rfl
theorem Roundtrip.matrixStep (job : Nat) : Roundtrip.Statement (.matrixStep job) := no_word rfl
theorem Roundtrip.matrixJobComplete (job : Nat) : Roundtrip.Statement (.matrixJobComplete job) := no_word rfl
theorem Roundtrip.collRoundComplete (job : Nat) (agree : Bool) (sends : List (List Byte)) : Roundtrip.Statement (.collRoundComplete job agree sends) := no_word rfl
theorem Roundtrip.collwRelease (p : Fin 8) (group : Fin 256) : Roundtrip.Statement (.collwRelease p group) := no_word rfl
theorem Roundtrip.iadd (t : IType) (d : VReg) (a : VReg) (b : VOp) : Roundtrip.Statement (.iadd t d a b) :=
  vrrI_ok 1 rfl (fun w _ (h : fld w 25 6 = 1) => by unfold decodeLane; generalize fld w 25 6 = x at h; subst h; rfl) t d a b rfl
theorem Roundtrip.isub (t : IType) (d : VReg) (a : VReg) (b : VOp) : Roundtrip.Statement (.isub t d a b) :=
  vrrI_ok 2 rfl (fun w _ (h : fld w 25 6 = 2) => by unfold decodeLane; generalize fld w 25 6 = x at h; subst h; rfl) t d a b rfl
theorem Roundtrip.imul (t : IType) (d : VReg) (a : VReg) (b : VOp) : Roundtrip.Statement (.imul t d a b) :=
  vrrI_ok 3 rfl (fun w _ (h : fld w 25 6 = 3) => by unfold decodeLane; generalize fld w 25 6 = x at h; subst h; rfl) t d a b rfl
theorem Roundtrip.imulh (t : IType) (d : VReg) (a : VReg) (b : VOp) : Roundtrip.Statement (.imulh t d a b) :=
  vrrI_ok 4 rfl (fun w _ (h : fld w 25 6 = 4) => by unfold decodeLane; generalize fld w 25 6 = x at h; subst h; rfl) t d a b rfl
theorem Roundtrip.imad (t : IType) (d : VReg) (a : VReg) (b : VOp) : Roundtrip.Statement (.imad t d a b) :=
  vrrI_ok 5 rfl (fun w _ (h : fld w 25 6 = 5) => by unfold decodeLane; generalize fld w 25 6 = x at h; subst h; rfl) t d a b rfl
theorem Roundtrip.imin (t : IType) (d : VReg) (a : VReg) (b : VOp) : Roundtrip.Statement (.imin t d a b) :=
  vrrI_ok 6 rfl (fun w _ (h : fld w 25 6 = 6) => by unfold decodeLane; generalize fld w 25 6 = x at h; subst h; rfl) t d a b rfl
theorem Roundtrip.imax (t : IType) (d : VReg) (a : VReg) (b : VOp) : Roundtrip.Statement (.imax t d a b) :=
  vrrI_ok 7 rfl (fun w _ (h : fld w 25 6 = 7) => by unfold decodeLane; generalize fld w 25 6 = x at h; subst h; rfl) t d a b rfl
theorem Roundtrip.and (t : IType) (d : VReg) (a : VReg) (b : VOp) : Roundtrip.Statement (.and t d a b) :=
  vrrI_ok 8 rfl (fun w _ (h : fld w 25 6 = 8) => by unfold decodeLane; generalize fld w 25 6 = x at h; subst h; rfl) t d a b rfl
theorem Roundtrip.or (t : IType) (d : VReg) (a : VReg) (b : VOp) : Roundtrip.Statement (.or t d a b) :=
  vrrI_ok 9 rfl (fun w _ (h : fld w 25 6 = 9) => by unfold decodeLane; generalize fld w 25 6 = x at h; subst h; rfl) t d a b rfl
theorem Roundtrip.xor (t : IType) (d : VReg) (a : VReg) (b : VOp) : Roundtrip.Statement (.xor t d a b) :=
  vrrI_ok 10 rfl (fun w _ (h : fld w 25 6 = 10) => by unfold decodeLane; generalize fld w 25 6 = x at h; subst h; rfl) t d a b rfl
theorem Roundtrip.andn (t : IType) (d : VReg) (a : VReg) (b : VOp) : Roundtrip.Statement (.andn t d a b) :=
  vrrI_ok 11 rfl (fun w _ (h : fld w 25 6 = 11) => by unfold decodeLane; generalize fld w 25 6 = x at h; subst h; rfl) t d a b rfl
theorem Roundtrip.shl (t : IType) (d : VReg) (a : VReg) (b : VOp) : Roundtrip.Statement (.shl t d a b) :=
  vrrI_ok 12 rfl (fun w _ (h : fld w 25 6 = 12) => by unfold decodeLane; generalize fld w 25 6 = x at h; subst h; rfl) t d a b rfl
theorem Roundtrip.shr (t : IType) (d : VReg) (a : VReg) (b : VOp) : Roundtrip.Statement (.shr t d a b) :=
  vrrI_ok 13 rfl (fun w _ (h : fld w 25 6 = 13) => by unfold decodeLane; generalize fld w 25 6 = x at h; subst h; rfl) t d a b rfl
theorem Roundtrip.sar (t : IType) (d : VReg) (a : VReg) (b : VOp) : Roundtrip.Statement (.sar t d a b) :=
  vrrI_ok 14 rfl (fun w _ (h : fld w 25 6 = 14) => by unfold decodeLane; generalize fld w 25 6 = x at h; subst h; rfl) t d a b rfl
theorem Roundtrip.rot (t : IType) (d : VReg) (a : VReg) (b : VOp) : Roundtrip.Statement (.rot t d a b) :=
  vrrI_ok 15 rfl (fun w _ (h : fld w 25 6 = 15) => by unfold decodeLane; generalize fld w 25 6 = x at h; subst h; rfl) t d a b rfl
theorem Roundtrip.lea (d : VReg) (n : BReg) (o : VReg) : Roundtrip.Statement (.lea d n o) := by
  obtain ⟨W, hW⟩ : ∃ W, W = 536870912 + d.val * 262144 + n.val * 16384 + o.val * 128 := ⟨_, rfl⟩
  have h0 : fld W 25 6 = 16 := by unfold fld; omega
  have h1 : bitAt W 31 = false := by rw [bitAt_fld]; simp only [fld, beq_eq_decide, decide_eq_true_eq, decide_eq_false_iff_not]; omega
  have h2 : fld W 0 7 = 0 := by unfold fld; omega
  have h3 : vreg W 18 = d := Fin.ext (by simp only [vreg, Fin.ofNat]; omega)
  have h4 : Fin.ofNat 16 (W / 16384) = n := Fin.ext (by simp only [Fin.ofNat]; omega)
  have h5 : vreg W 7 = o := Fin.ext (by simp only [vreg, Fin.ofNat]; omega)
  refine word_of_one W (by change encVm 0x10 d n o 0 0 = [W]; simp only [encVm, hW, List.cons.injEq, and_true, Fin.val_zero]; omega) ?_ ?_ ?_
  · omega
  · simp [litCount, isUniformWord, laneHasX, h0, h1, h2, h3, h4, h5]
  · intro l h
    have hd : decodeLane W l = need (fld W 0 7 == 0) .unusedField (.ok (vm W .lea)) := by unfold decodeLane; generalize fld W 25 6 = x at h0; subst h0; rfl
    simp [isUniformWord, hd, vm, need, h0, h1, h2, h3, h4, h5, -Fin.ofNat_eq_cast]
theorem Roundtrip.sel (p : Fin 8) (d : VReg) (a : VReg) (b : VOp) : Roundtrip.Statement (.sel p d a b) := by
  cases b with
  | reg r =>
    obtain ⟨W, hW⟩ : ∃ W, W = 570425344 + d.val * 262144 + a.val * 2048 + r.val * 16 + p.val * 2 := ⟨_, rfl⟩
    have h0 : fld W 25 6 = 17 := by unfold fld; omega
    have h1 : bitAt W 31 = false := by rw [bitAt_fld]; simp only [fld, beq_eq_decide, decide_eq_true_eq, decide_eq_false_iff_not]; omega
    have h2 : bitAt W 0 = false := by rw [bitAt_fld]; simp only [fld, beq_eq_decide, decide_eq_true_eq, decide_eq_false_iff_not]; omega
    have h3 : vreg W 18 = d := Fin.ext (by simp only [vreg, Fin.ofNat]; omega)
    have h4 : vreg W 11 = a := Fin.ext (by simp only [vreg, Fin.ofNat]; omega)
    have h5 : vreg W 4 = r := Fin.ext (by simp only [vreg, Fin.ofNat]; omega)
    have h6 : Fin.ofNat 8 (W / 2) = p := Fin.ext (by simp only [Fin.ofNat]; omega)
    refine word_of_one W (by change encVrr 0x11 p.val d a (.reg r) = _; simp only [encVrr, VOp.enc, laneWord, hW, List.cons.injEq, and_true]; omega) ?_ ?_ ?_
    · omega
    · simp [litCount, isUniformWord, laneHasX, h0, h1, h2, h3, h4, h5, h6]
    · intro l h; simp [isUniformWord, decodeLane, vop, h0, h1, h2, h3, h4, h5, h6, -Fin.ofNat_eq_cast]
  | lit x =>
    obtain ⟨W, hW⟩ : ∃ W, W = 570425345 + d.val * 262144 + a.val * 2048 + p.val * 2 := ⟨_, rfl⟩
    have h0 : fld W 25 6 = 17 := by unfold fld; omega
    have h1 : bitAt W 31 = false := by rw [bitAt_fld]; simp only [fld, beq_eq_decide, decide_eq_true_eq, decide_eq_false_iff_not]; omega
    have h2 : bitAt W 0 = true := by rw [bitAt_fld]; simp only [fld, beq_eq_decide, decide_eq_true_eq, decide_eq_false_iff_not]; omega
    have h3 : vreg W 18 = d := Fin.ext (by simp only [vreg, Fin.ofNat]; omega)
    have h4 : vreg W 11 = a := Fin.ext (by simp only [vreg, Fin.ofNat]; omega)
    have h5 : fld W 4 7 = 0 := by unfold fld; omega
    have h6 : Fin.ofNat 8 (W / 2) = p := Fin.ext (by simp only [Fin.ofNat]; omega)
    refine word_of_two W x.toNat (by change encVrr 0x11 p.val d a (.lit x) = _; simp only [encVrr, VOp.enc, laneWord, hW, List.cons.injEq, and_true]; omega) ?_ x.isLt ?_ ?_
    · omega
    · simp [litCount, isUniformWord, laneHasX, h0, h1, h2, h3, h4, h5, h6]
    · intro h; simp [isUniformWord, decodeLane, vop, h0, h1, h2, h3, h4, h5, h6, -Fin.ofNat_eq_cast]
theorem Roundtrip.mov (t : IType) (d : VReg) (b : VOp) : Roundtrip.Statement (.mov t d b) := by
  cases b with
  | reg r =>
    obtain ⟨W, hW⟩ : ∃ W, W = 603979776 + d.val * 262144 + r.val * 16 + t.code * 2 := ⟨_, rfl⟩
    have := IType.code_lt t
    have h0 : fld W 25 6 = 18 := by unfold fld; omega
    have h1 : bitAt W 31 = false := by rw [bitAt_fld]; simp only [fld, beq_eq_decide, decide_eq_true_eq, decide_eq_false_iff_not]; omega
    have h2 : bitAt W 0 = false := by rw [bitAt_fld]; simp only [fld, beq_eq_decide, decide_eq_true_eq, decide_eq_false_iff_not]; omega
    have h3 : vreg W 18 = d := Fin.ext (by simp only [vreg, Fin.ofNat]; omega)
    have h4 : fld W 11 7 = 0 := by unfold fld; omega
    have h5 : vreg W 4 = r := Fin.ext (by simp only [vreg, Fin.ofNat]; omega)
    have h6 : fld W 1 3 = t.code := by unfold fld; omega
    refine word_of_one W (by change encVrr 0x12 t.code d 0 (.reg r) = _; simp only [encVrr, VOp.enc, laneWord, hW, List.cons.injEq, and_true, Fin.val_zero]; omega) ?_ ?_ ?_
    · omega
    · simp [litCount, isUniformWord, laneHasX, h0, h1, h2, h3, h4, h5, h6]
    · intro l h; simp [isUniformWord, decodeLane, vop, vrrI, need, h0, h1, h2, h3, h4, h5, h6, -Fin.ofNat_eq_cast]
  | lit x =>
    obtain ⟨W, hW⟩ : ∃ W, W = 603979777 + d.val * 262144 + t.code * 2 := ⟨_, rfl⟩
    have := IType.code_lt t
    have h0 : fld W 25 6 = 18 := by unfold fld; omega
    have h1 : bitAt W 31 = false := by rw [bitAt_fld]; simp only [fld, beq_eq_decide, decide_eq_true_eq, decide_eq_false_iff_not]; omega
    have h2 : bitAt W 0 = true := by rw [bitAt_fld]; simp only [fld, beq_eq_decide, decide_eq_true_eq, decide_eq_false_iff_not]; omega
    have h3 : vreg W 18 = d := Fin.ext (by simp only [vreg, Fin.ofNat]; omega)
    have h4 : fld W 11 7 = 0 := by unfold fld; omega
    have h5 : fld W 4 7 = 0 := by unfold fld; omega
    have h6 : fld W 1 3 = t.code := by unfold fld; omega
    refine word_of_two W x.toNat (by change encVrr 0x12 t.code d 0 (.lit x) = _; simp only [encVrr, VOp.enc, laneWord, hW, List.cons.injEq, and_true, Fin.val_zero]; omega) ?_ x.isLt ?_ ?_
    · omega
    · simp [litCount, isUniformWord, laneHasX, h0, h1, h2, h3, h4, h5, h6]
    · intro h; simp [isUniformWord, decodeLane, vop, vrrI, need, h0, h1, h2, h3, h4, h5, h6, -Fin.ofNat_eq_cast]
theorem Roundtrip.popc (w : Bool) (d : VReg) (a : VReg) : Roundtrip.Statement (.popc w d a) := by
  obtain ⟨W, hW⟩ : ∃ W, W = 637534208 + d.val * 262144 + a.val * 2048 + bitVal w * 4 := ⟨_, rfl⟩
  have := bitVal_lt w
  have h0 : fld W 25 6 = 19 := by unfold fld; omega
  have h1 : bitAt W 31 = false := by rw [bitAt_fld]; simp only [fld, beq_eq_decide, decide_eq_true_eq, decide_eq_false_iff_not]; omega
  have h2 : fld W 3 8 = 0 := by unfold fld; omega
  have h3 : fld W 0 2 = 0 := by unfold fld; omega
  have h4 : bitAt W 2 = w := bitAt_of (by unfold fld; omega)
  have h5 : vreg W 18 = d := Fin.ext (by simp only [vreg, Fin.ofNat]; omega)
  have h6 : vreg W 11 = a := Fin.ext (by simp only [vreg, Fin.ofNat]; omega)
  refine word_of_one W (by change encVrf 0x13 d a (bitVal w * 4) = [W]; simp only [encVrf, laneWord, hW, List.cons.injEq, and_true, Fin.val_zero]; omega) ?_ ?_ ?_
  · omega
  · simp [litCount, isUniformWord, laneHasX, h0, h1, h2, h3, h4, h5, h6]
  · intro l h
    have hd : decodeLane W l = decBitu W := by unfold decodeLane; generalize fld W 25 6 = x at h0; subst h0; rfl
    simp [isUniformWord, hd, decBitu, need, h0, h1, h2, h3, h4, h5, h6, -Fin.ofNat_eq_cast]
theorem Roundtrip.clz (w : Bool) (d : VReg) (a : VReg) : Roundtrip.Statement (.clz w d a) := by
  obtain ⟨W, hW⟩ : ∃ W, W = 637534209 + d.val * 262144 + a.val * 2048 + bitVal w * 4 := ⟨_, rfl⟩
  have := bitVal_lt w
  have h0 : fld W 25 6 = 19 := by unfold fld; omega
  have h1 : bitAt W 31 = false := by rw [bitAt_fld]; simp only [fld, beq_eq_decide, decide_eq_true_eq, decide_eq_false_iff_not]; omega
  have h2 : fld W 3 8 = 0 := by unfold fld; omega
  have h3 : fld W 0 2 = 1 := by unfold fld; omega
  have h4 : bitAt W 2 = w := bitAt_of (by unfold fld; omega)
  have h5 : vreg W 18 = d := Fin.ext (by simp only [vreg, Fin.ofNat]; omega)
  have h6 : vreg W 11 = a := Fin.ext (by simp only [vreg, Fin.ofNat]; omega)
  refine word_of_one W (by change encVrf 0x13 d a (bitVal w * 4 + 1) = [W]; simp only [encVrf, laneWord, hW, List.cons.injEq, and_true, Fin.val_zero]; omega) ?_ ?_ ?_
  · omega
  · simp [litCount, isUniformWord, laneHasX, h0, h1, h2, h3, h4, h5, h6]
  · intro l h
    have hd : decodeLane W l = decBitu W := by unfold decodeLane; generalize fld W 25 6 = x at h0; subst h0; rfl
    simp [isUniformWord, hd, decBitu, need, h0, h1, h2, h3, h4, h5, h6, -Fin.ofNat_eq_cast]
theorem Roundtrip.brev (w : Bool) (d : VReg) (a : VReg) : Roundtrip.Statement (.brev w d a) := by
  obtain ⟨W, hW⟩ : ∃ W, W = 637534210 + d.val * 262144 + a.val * 2048 + bitVal w * 4 := ⟨_, rfl⟩
  have := bitVal_lt w
  have h0 : fld W 25 6 = 19 := by unfold fld; omega
  have h1 : bitAt W 31 = false := by rw [bitAt_fld]; simp only [fld, beq_eq_decide, decide_eq_true_eq, decide_eq_false_iff_not]; omega
  have h2 : fld W 3 8 = 0 := by unfold fld; omega
  have h3 : fld W 0 2 = 2 := by unfold fld; omega
  have h4 : bitAt W 2 = w := bitAt_of (by unfold fld; omega)
  have h5 : vreg W 18 = d := Fin.ext (by simp only [vreg, Fin.ofNat]; omega)
  have h6 : vreg W 11 = a := Fin.ext (by simp only [vreg, Fin.ofNat]; omega)
  refine word_of_one W (by change encVrf 0x13 d a (bitVal w * 4 + 2) = [W]; simp only [encVrf, laneWord, hW, List.cons.injEq, and_true, Fin.val_zero]; omega) ?_ ?_ ?_
  · omega
  · simp [litCount, isUniformWord, laneHasX, h0, h1, h2, h3, h4, h5, h6]
  · intro l h
    have hd : decodeLane W l = decBitu W := by unfold decodeLane; generalize fld W 25 6 = x at h0; subst h0; rfl
    simp [isUniformWord, hd, decBitu, need, h0, h1, h2, h3, h4, h5, h6, -Fin.ofNat_eq_cast]
theorem Roundtrip.bfx (t : IType) (d : VReg) (a : VReg) (b : VOp) : Roundtrip.Statement (.bfx t d a b) :=
  vrrI_ok 20 rfl (fun w _ (h : fld w 25 6 = 20) => by unfold decodeLane; generalize fld w 25 6 = x at h; subst h; rfl) t d a b rfl
theorem Roundtrip.bfi (t : IType) (d : VReg) (a : VReg) (b : VOp) : Roundtrip.Statement (.bfi t d a b) :=
  vrrI_ok 21 rfl (fun w _ (h : fld w 25 6 = 21) => by unfold decodeLane; generalize fld w 25 6 = x at h; subst h; rfl) t d a b rfl
theorem Roundtrip.icmp (c : ICond) (d : PReg) (a : VReg) (b : VOp) : Roundtrip.Statement (.icmp c d a b) := by
  cases b with
  | reg r =>
    obtain ⟨W, hW⟩ : ∃ W, W = 738197504 + d.val * 262144 + a.val * 2048 + r.val * 16 + c.code * 2 := ⟨_, rfl⟩
    have := ICond.code_lt c
    have h0 : fld W 25 6 = 22 := by unfold fld; omega
    have h1 : bitAt W 31 = false := by rw [bitAt_fld]; simp only [fld, beq_eq_decide, decide_eq_true_eq, decide_eq_false_iff_not]; omega
    have h2 : bitAt W 0 = false := by rw [bitAt_fld]; simp only [fld, beq_eq_decide, decide_eq_true_eq, decide_eq_false_iff_not]; omega
    have h3 : vreg W 18 = d := Fin.ext (by simp only [vreg, Fin.ofNat]; omega)
    have h4 : vreg W 11 = a := Fin.ext (by simp only [vreg, Fin.ofNat]; omega)
    have h5 : vreg W 4 = r := Fin.ext (by simp only [vreg, Fin.ofNat]; omega)
    have h6 : fld W 1 3 = c.code := by unfold fld; omega
    refine word_of_one W (by change encVrr 0x16 c.code d a (.reg r) = _; simp only [encVrr, VOp.enc, laneWord, hW, List.cons.injEq, and_true]; omega) ?_ ?_ ?_
    · omega
    · simp [litCount, isUniformWord, laneHasX, h0, h1, h2, h3, h4, h5, h6]
    · intro l h; simp [isUniformWord, decodeLane, vop, h0, h1, h2, h3, h4, h5, h6, -Fin.ofNat_eq_cast]
  | lit x =>
    obtain ⟨W, hW⟩ : ∃ W, W = 738197505 + d.val * 262144 + a.val * 2048 + c.code * 2 := ⟨_, rfl⟩
    have := ICond.code_lt c
    have h0 : fld W 25 6 = 22 := by unfold fld; omega
    have h1 : bitAt W 31 = false := by rw [bitAt_fld]; simp only [fld, beq_eq_decide, decide_eq_true_eq, decide_eq_false_iff_not]; omega
    have h2 : bitAt W 0 = true := by rw [bitAt_fld]; simp only [fld, beq_eq_decide, decide_eq_true_eq, decide_eq_false_iff_not]; omega
    have h3 : vreg W 18 = d := Fin.ext (by simp only [vreg, Fin.ofNat]; omega)
    have h4 : vreg W 11 = a := Fin.ext (by simp only [vreg, Fin.ofNat]; omega)
    have h5 : fld W 4 7 = 0 := by unfold fld; omega
    have h6 : fld W 1 3 = c.code := by unfold fld; omega
    refine word_of_two W x.toNat (by change encVrr 0x16 c.code d a (.lit x) = _; simp only [encVrr, VOp.enc, laneWord, hW, List.cons.injEq, and_true]; omega) ?_ x.isLt ?_ ?_
    · omega
    · simp [litCount, isUniformWord, laneHasX, h0, h1, h2, h3, h4, h5, h6]
    · intro h; simp [isUniformWord, decodeLane, vop, h0, h1, h2, h3, h4, h5, h6, -Fin.ofNat_eq_cast]
theorem Roundtrip.fadd (t : FType) (d : VReg) (a : VReg) (b : VOp) : Roundtrip.Statement (.fadd t d a b) :=
  vrrF_ok 23 rfl (fun w _ (h : fld w 25 6 = 23) => by unfold decodeLane; generalize fld w 25 6 = x at h; subst h; rfl) t d a b rfl
theorem Roundtrip.fsub (t : FType) (d : VReg) (a : VReg) (b : VOp) : Roundtrip.Statement (.fsub t d a b) :=
  vrrF_ok 24 rfl (fun w _ (h : fld w 25 6 = 24) => by unfold decodeLane; generalize fld w 25 6 = x at h; subst h; rfl) t d a b rfl
theorem Roundtrip.fmul (t : FType) (d : VReg) (a : VReg) (b : VOp) : Roundtrip.Statement (.fmul t d a b) :=
  vrrF_ok 25 rfl (fun w _ (h : fld w 25 6 = 25) => by unfold decodeLane; generalize fld w 25 6 = x at h; subst h; rfl) t d a b rfl
theorem Roundtrip.ffma (t : FType) (d : VReg) (a : VReg) (b : VOp) : Roundtrip.Statement (.ffma t d a b) :=
  vrrF_ok 26 rfl (fun w _ (h : fld w 25 6 = 26) => by unfold decodeLane; generalize fld w 25 6 = x at h; subst h; rfl) t d a b rfl
theorem Roundtrip.fmin (t : FType) (d : VReg) (a : VReg) (b : VOp) : Roundtrip.Statement (.fmin t d a b) :=
  vrrF_ok 27 rfl (fun w _ (h : fld w 25 6 = 27) => by unfold decodeLane; generalize fld w 25 6 = x at h; subst h; rfl) t d a b rfl
theorem Roundtrip.fmax (t : FType) (d : VReg) (a : VReg) (b : VOp) : Roundtrip.Statement (.fmax t d a b) :=
  vrrF_ok 28 rfl (fun w _ (h : fld w 25 6 = 28) => by unfold decodeLane; generalize fld w 25 6 = x at h; subst h; rfl) t d a b rfl
theorem Roundtrip.fcmp (c : FCond) (pr : Bool) (d : PReg) (a : VReg) (b : VReg) : Roundtrip.Statement (.fcmp c pr d a b) := by
  obtain ⟨W, hW⟩ : ∃ W, W = 973078528 + d.val * 262144 + a.val * 2048 + b.val * 16 + c.code * 2 + bitVal pr * 1 := ⟨_, rfl⟩
  have := FCond.code_lt c
  have := bitVal_lt pr
  have h0 : fld W 25 6 = 29 := by unfold fld; omega
  have h1 : bitAt W 31 = false := by rw [bitAt_fld]; simp only [fld, beq_eq_decide, decide_eq_true_eq, decide_eq_false_iff_not]; omega
  have h2 : fld W 1 3 = c.code := by unfold fld; omega
  have h3 : bitAt W 0 = pr := bitAt_of (by unfold fld; omega)
  have h4 : vreg W 18 = d := Fin.ext (by simp only [vreg, Fin.ofNat]; omega)
  have h5 : vreg W 11 = a := Fin.ext (by simp only [vreg, Fin.ofNat]; omega)
  have h6 : vreg W 4 = b := Fin.ext (by simp only [vreg, Fin.ofNat]; omega)
  refine word_of_one W (by change [laneWord 0x1D d.val a.val (b.val * 2 ^ 4 + c.code * 2 + bitVal pr)] = [W]; simp only [laneWord, hW, List.cons.injEq, and_true, Fin.val_zero]; omega) ?_ ?_ ?_
  · omega
  · simp [litCount, isUniformWord, laneHasX, h0, h1, h2, h3, h4, h5, h6]
  · intro l h
    have hd : decodeLane W l = (do let c ← FCond.ofCode (fld W 1 3); .ok (.fcmp c (bitAt W 0) (vreg W 18) (vreg W 11) (vreg W 4))) := by unfold decodeLane; generalize fld W 25 6 = x at h0; subst h0; rfl
    simp [isUniformWord, hd, h0, h1, h2, h3, h4, h5, h6, -Fin.ofNat_eq_cast]
theorem Roundtrip.frnd (t : FType) (r : RoundCode) (d : VReg) (a : VReg) : Roundtrip.Statement (.frnd t r d a) := by
  obtain ⟨W, hW⟩ : ∃ W, W = 1006632960 + d.val * 262144 + a.val * 2048 + r.code * 128 + t.code * 16 := ⟨_, rfl⟩
  have := RoundCode.code_lt r
  have := FType.code_lt t
  have h0 : fld W 25 6 = 30 := by unfold fld; omega
  have h1 : bitAt W 31 = false := by rw [bitAt_fld]; simp only [fld, beq_eq_decide, decide_eq_true_eq, decide_eq_false_iff_not]; omega
  have h2 : fld W 10 1 = 0 := by unfold fld; omega
  have h3 : fld W 4 3 = t.code := by unfold fld; omega
  have h4 : fld W 7 3 = r.code := by unfold fld; omega
  have h5 : fld W 0 4 = 0 := by unfold fld; omega
  have h6 : vreg W 18 = d := Fin.ext (by simp only [vreg, Fin.ofNat]; omega)
  have h7 : vreg W 11 = a := Fin.ext (by simp only [vreg, Fin.ofNat]; omega)
  refine word_of_one W (by change encVrf 0x1E d a (r.code * 2 ^ 7 + t.code * 2 ^ 4) = [W]; simp only [encVrf, laneWord, hW, List.cons.injEq, and_true, Fin.val_zero]; omega) ?_ ?_ ?_
  · omega
  · simp [litCount, isUniformWord, laneHasX, h0, h1, h2, h3, h4, h5, h6, h7]
  · intro l h
    have hd : decodeLane W l = decFuna W := by unfold decodeLane; generalize fld W 25 6 = x at h0; subst h0; rfl
    simp [isUniformWord, hd, decFuna, need, h0, h1, h2, h3, h4, h5, h6, h7, -Fin.ofNat_eq_cast]
theorem Roundtrip.fclass (t : FType) (d : VReg) (a : VReg) : Roundtrip.Statement (.fclass t d a) := by
  obtain ⟨W, hW⟩ : ∃ W, W = 1006632961 + d.val * 262144 + a.val * 2048 + t.code * 16 := ⟨_, rfl⟩
  have := FType.code_lt t
  have h0 : fld W 25 6 = 30 := by unfold fld; omega
  have h1 : bitAt W 31 = false := by rw [bitAt_fld]; simp only [fld, beq_eq_decide, decide_eq_true_eq, decide_eq_false_iff_not]; omega
  have h2 : fld W 10 1 = 0 := by unfold fld; omega
  have h3 : fld W 4 3 = t.code := by unfold fld; omega
  have h4 : fld W 7 3 = 0 := by unfold fld; omega
  have h5 : fld W 0 4 = 1 := by unfold fld; omega
  have h6 : vreg W 18 = d := Fin.ext (by simp only [vreg, Fin.ofNat]; omega)
  have h7 : vreg W 11 = a := Fin.ext (by simp only [vreg, Fin.ofNat]; omega)
  refine word_of_one W (by change encVrf 0x1E d a (t.code * 2 ^ 4 + 1) = [W]; simp only [encVrf, laneWord, hW, List.cons.injEq, and_true, Fin.val_zero]; omega) ?_ ?_ ?_
  · omega
  · simp [litCount, isUniformWord, laneHasX, h0, h1, h2, h3, h4, h5, h6, h7]
  · intro l h
    have hd : decodeLane W l = decFuna W := by unfold decodeLane; generalize fld W 25 6 = x at h0; subst h0; rfl
    simp [isUniformWord, hd, decFuna, need, h0, h1, h2, h3, h4, h5, h6, h7, -Fin.ofNat_eq_cast]
theorem Roundtrip.frcp (t : FType) (d : VReg) (a : VReg) : Roundtrip.Statement (.frcp t d a) := by
  obtain ⟨W, hW⟩ : ∃ W, W = 1006632962 + d.val * 262144 + a.val * 2048 + t.code * 16 := ⟨_, rfl⟩
  have := FType.code_lt t
  have h0 : fld W 25 6 = 30 := by unfold fld; omega
  have h1 : bitAt W 31 = false := by rw [bitAt_fld]; simp only [fld, beq_eq_decide, decide_eq_true_eq, decide_eq_false_iff_not]; omega
  have h2 : fld W 10 1 = 0 := by unfold fld; omega
  have h3 : fld W 4 3 = t.code := by unfold fld; omega
  have h4 : fld W 7 3 = 0 := by unfold fld; omega
  have h5 : fld W 0 4 = 2 := by unfold fld; omega
  have h6 : vreg W 18 = d := Fin.ext (by simp only [vreg, Fin.ofNat]; omega)
  have h7 : vreg W 11 = a := Fin.ext (by simp only [vreg, Fin.ofNat]; omega)
  refine word_of_one W (by change encVrf 0x1E d a (t.code * 2 ^ 4 + 2) = [W]; simp only [encVrf, laneWord, hW, List.cons.injEq, and_true, Fin.val_zero]; omega) ?_ ?_ ?_
  · omega
  · simp [litCount, isUniformWord, laneHasX, h0, h1, h2, h3, h4, h5, h6, h7]
  · intro l h
    have hd : decodeLane W l = decFuna W := by unfold decodeLane; generalize fld W 25 6 = x at h0; subst h0; rfl
    simp [isUniformWord, hd, decFuna, need, h0, h1, h2, h3, h4, h5, h6, h7, -Fin.ofNat_eq_cast]
theorem Roundtrip.frsq (t : FType) (d : VReg) (a : VReg) : Roundtrip.Statement (.frsq t d a) := by
  obtain ⟨W, hW⟩ : ∃ W, W = 1006632963 + d.val * 262144 + a.val * 2048 + t.code * 16 := ⟨_, rfl⟩
  have := FType.code_lt t
  have h0 : fld W 25 6 = 30 := by unfold fld; omega
  have h1 : bitAt W 31 = false := by rw [bitAt_fld]; simp only [fld, beq_eq_decide, decide_eq_true_eq, decide_eq_false_iff_not]; omega
  have h2 : fld W 10 1 = 0 := by unfold fld; omega
  have h3 : fld W 4 3 = t.code := by unfold fld; omega
  have h4 : fld W 7 3 = 0 := by unfold fld; omega
  have h5 : fld W 0 4 = 3 := by unfold fld; omega
  have h6 : vreg W 18 = d := Fin.ext (by simp only [vreg, Fin.ofNat]; omega)
  have h7 : vreg W 11 = a := Fin.ext (by simp only [vreg, Fin.ofNat]; omega)
  refine word_of_one W (by change encVrf 0x1E d a (t.code * 2 ^ 4 + 3) = [W]; simp only [encVrf, laneWord, hW, List.cons.injEq, and_true, Fin.val_zero]; omega) ?_ ?_ ?_
  · omega
  · simp [litCount, isUniformWord, laneHasX, h0, h1, h2, h3, h4, h5, h6, h7]
  · intro l h
    have hd : decodeLane W l = decFuna W := by unfold decodeLane; generalize fld W 25 6 = x at h0; subst h0; rfl
    simp [isUniformWord, hd, decFuna, need, h0, h1, h2, h3, h4, h5, h6, h7, -Fin.ofNat_eq_cast]
theorem Roundtrip.fsqrt (t : FType) (d : VReg) (a : VReg) : Roundtrip.Statement (.fsqrt t d a) := by
  obtain ⟨W, hW⟩ : ∃ W, W = 1006632964 + d.val * 262144 + a.val * 2048 + t.code * 16 := ⟨_, rfl⟩
  have := FType.code_lt t
  have h0 : fld W 25 6 = 30 := by unfold fld; omega
  have h1 : bitAt W 31 = false := by rw [bitAt_fld]; simp only [fld, beq_eq_decide, decide_eq_true_eq, decide_eq_false_iff_not]; omega
  have h2 : fld W 10 1 = 0 := by unfold fld; omega
  have h3 : fld W 4 3 = t.code := by unfold fld; omega
  have h4 : fld W 7 3 = 0 := by unfold fld; omega
  have h5 : fld W 0 4 = 4 := by unfold fld; omega
  have h6 : vreg W 18 = d := Fin.ext (by simp only [vreg, Fin.ofNat]; omega)
  have h7 : vreg W 11 = a := Fin.ext (by simp only [vreg, Fin.ofNat]; omega)
  refine word_of_one W (by change encVrf 0x1E d a (t.code * 2 ^ 4 + 4) = [W]; simp only [encVrf, laneWord, hW, List.cons.injEq, and_true, Fin.val_zero]; omega) ?_ ?_ ?_
  · omega
  · simp [litCount, isUniformWord, laneHasX, h0, h1, h2, h3, h4, h5, h6, h7]
  · intro l h
    have hd : decodeLane W l = decFuna W := by unfold decodeLane; generalize fld W 25 6 = x at h0; subst h0; rfl
    simp [isUniformWord, hd, decFuna, need, h0, h1, h2, h3, h4, h5, h6, h7, -Fin.ofNat_eq_cast]
theorem Roundtrip.fexp2 (t : FType) (d : VReg) (a : VReg) : Roundtrip.Statement (.fexp2 t d a) := by
  obtain ⟨W, hW⟩ : ∃ W, W = 1006632965 + d.val * 262144 + a.val * 2048 + t.code * 16 := ⟨_, rfl⟩
  have := FType.code_lt t
  have h0 : fld W 25 6 = 30 := by unfold fld; omega
  have h1 : bitAt W 31 = false := by rw [bitAt_fld]; simp only [fld, beq_eq_decide, decide_eq_true_eq, decide_eq_false_iff_not]; omega
  have h2 : fld W 10 1 = 0 := by unfold fld; omega
  have h3 : fld W 4 3 = t.code := by unfold fld; omega
  have h4 : fld W 7 3 = 0 := by unfold fld; omega
  have h5 : fld W 0 4 = 5 := by unfold fld; omega
  have h6 : vreg W 18 = d := Fin.ext (by simp only [vreg, Fin.ofNat]; omega)
  have h7 : vreg W 11 = a := Fin.ext (by simp only [vreg, Fin.ofNat]; omega)
  refine word_of_one W (by change encVrf 0x1E d a (t.code * 2 ^ 4 + 5) = [W]; simp only [encVrf, laneWord, hW, List.cons.injEq, and_true, Fin.val_zero]; omega) ?_ ?_ ?_
  · omega
  · simp [litCount, isUniformWord, laneHasX, h0, h1, h2, h3, h4, h5, h6, h7]
  · intro l h
    have hd : decodeLane W l = decFuna W := by unfold decodeLane; generalize fld W 25 6 = x at h0; subst h0; rfl
    simp [isUniformWord, hd, decFuna, need, h0, h1, h2, h3, h4, h5, h6, h7, -Fin.ofNat_eq_cast]
theorem Roundtrip.flog2 (t : FType) (d : VReg) (a : VReg) : Roundtrip.Statement (.flog2 t d a) := by
  obtain ⟨W, hW⟩ : ∃ W, W = 1006632966 + d.val * 262144 + a.val * 2048 + t.code * 16 := ⟨_, rfl⟩
  have := FType.code_lt t
  have h0 : fld W 25 6 = 30 := by unfold fld; omega
  have h1 : bitAt W 31 = false := by rw [bitAt_fld]; simp only [fld, beq_eq_decide, decide_eq_true_eq, decide_eq_false_iff_not]; omega
  have h2 : fld W 10 1 = 0 := by unfold fld; omega
  have h3 : fld W 4 3 = t.code := by unfold fld; omega
  have h4 : fld W 7 3 = 0 := by unfold fld; omega
  have h5 : fld W 0 4 = 6 := by unfold fld; omega
  have h6 : vreg W 18 = d := Fin.ext (by simp only [vreg, Fin.ofNat]; omega)
  have h7 : vreg W 11 = a := Fin.ext (by simp only [vreg, Fin.ofNat]; omega)
  refine word_of_one W (by change encVrf 0x1E d a (t.code * 2 ^ 4 + 6) = [W]; simp only [encVrf, laneWord, hW, List.cons.injEq, and_true, Fin.val_zero]; omega) ?_ ?_ ?_
  · omega
  · simp [litCount, isUniformWord, laneHasX, h0, h1, h2, h3, h4, h5, h6, h7]
  · intro l h
    have hd : decodeLane W l = decFuna W := by unfold decodeLane; generalize fld W 25 6 = x at h0; subst h0; rfl
    simp [isUniformWord, hd, decFuna, need, h0, h1, h2, h3, h4, h5, h6, h7, -Fin.ofNat_eq_cast]
theorem Roundtrip.fsinp (t : FType) (d : VReg) (a : VReg) : Roundtrip.Statement (.fsinp t d a) := by
  obtain ⟨W, hW⟩ : ∃ W, W = 1006632967 + d.val * 262144 + a.val * 2048 + t.code * 16 := ⟨_, rfl⟩
  have := FType.code_lt t
  have h0 : fld W 25 6 = 30 := by unfold fld; omega
  have h1 : bitAt W 31 = false := by rw [bitAt_fld]; simp only [fld, beq_eq_decide, decide_eq_true_eq, decide_eq_false_iff_not]; omega
  have h2 : fld W 10 1 = 0 := by unfold fld; omega
  have h3 : fld W 4 3 = t.code := by unfold fld; omega
  have h4 : fld W 7 3 = 0 := by unfold fld; omega
  have h5 : fld W 0 4 = 7 := by unfold fld; omega
  have h6 : vreg W 18 = d := Fin.ext (by simp only [vreg, Fin.ofNat]; omega)
  have h7 : vreg W 11 = a := Fin.ext (by simp only [vreg, Fin.ofNat]; omega)
  refine word_of_one W (by change encVrf 0x1E d a (t.code * 2 ^ 4 + 7) = [W]; simp only [encVrf, laneWord, hW, List.cons.injEq, and_true, Fin.val_zero]; omega) ?_ ?_ ?_
  · omega
  · simp [litCount, isUniformWord, laneHasX, h0, h1, h2, h3, h4, h5, h6, h7]
  · intro l h
    have hd : decodeLane W l = decFuna W := by unfold decodeLane; generalize fld W 25 6 = x at h0; subst h0; rfl
    simp [isUniformWord, hd, decFuna, need, h0, h1, h2, h3, h4, h5, h6, h7, -Fin.ofNat_eq_cast]
theorem Roundtrip.fcosp (t : FType) (d : VReg) (a : VReg) : Roundtrip.Statement (.fcosp t d a) := by
  obtain ⟨W, hW⟩ : ∃ W, W = 1006632968 + d.val * 262144 + a.val * 2048 + t.code * 16 := ⟨_, rfl⟩
  have := FType.code_lt t
  have h0 : fld W 25 6 = 30 := by unfold fld; omega
  have h1 : bitAt W 31 = false := by rw [bitAt_fld]; simp only [fld, beq_eq_decide, decide_eq_true_eq, decide_eq_false_iff_not]; omega
  have h2 : fld W 10 1 = 0 := by unfold fld; omega
  have h3 : fld W 4 3 = t.code := by unfold fld; omega
  have h4 : fld W 7 3 = 0 := by unfold fld; omega
  have h5 : fld W 0 4 = 8 := by unfold fld; omega
  have h6 : vreg W 18 = d := Fin.ext (by simp only [vreg, Fin.ofNat]; omega)
  have h7 : vreg W 11 = a := Fin.ext (by simp only [vreg, Fin.ofNat]; omega)
  refine word_of_one W (by change encVrf 0x1E d a (t.code * 2 ^ 4 + 8) = [W]; simp only [encVrf, laneWord, hW, List.cons.injEq, and_true, Fin.val_zero]; omega) ?_ ?_ ?_
  · omega
  · simp [litCount, isUniformWord, laneHasX, h0, h1, h2, h3, h4, h5, h6, h7]
  · intro l h
    have hd : decodeLane W l = decFuna W := by unfold decodeLane; generalize fld W 25 6 = x at h0; subst h0; rfl
    simp [isUniformWord, hd, decFuna, need, h0, h1, h2, h3, h4, h5, h6, h7, -Fin.ofNat_eq_cast]
theorem Roundtrip.fneg (t : FType) (d : VReg) (a : VReg) : Roundtrip.Statement (.fneg t d a) := by
  obtain ⟨W, hW⟩ : ∃ W, W = 1006632969 + d.val * 262144 + a.val * 2048 + t.code * 16 := ⟨_, rfl⟩
  have := FType.code_lt t
  have h0 : fld W 25 6 = 30 := by unfold fld; omega
  have h1 : bitAt W 31 = false := by rw [bitAt_fld]; simp only [fld, beq_eq_decide, decide_eq_true_eq, decide_eq_false_iff_not]; omega
  have h2 : fld W 10 1 = 0 := by unfold fld; omega
  have h3 : fld W 4 3 = t.code := by unfold fld; omega
  have h4 : fld W 7 3 = 0 := by unfold fld; omega
  have h5 : fld W 0 4 = 9 := by unfold fld; omega
  have h6 : vreg W 18 = d := Fin.ext (by simp only [vreg, Fin.ofNat]; omega)
  have h7 : vreg W 11 = a := Fin.ext (by simp only [vreg, Fin.ofNat]; omega)
  refine word_of_one W (by change encVrf 0x1E d a (t.code * 2 ^ 4 + 9) = [W]; simp only [encVrf, laneWord, hW, List.cons.injEq, and_true, Fin.val_zero]; omega) ?_ ?_ ?_
  · omega
  · simp [litCount, isUniformWord, laneHasX, h0, h1, h2, h3, h4, h5, h6, h7]
  · intro l h
    have hd : decodeLane W l = decFuna W := by unfold decodeLane; generalize fld W 25 6 = x at h0; subst h0; rfl
    simp [isUniformWord, hd, decFuna, need, h0, h1, h2, h3, h4, h5, h6, h7, -Fin.ofNat_eq_cast]
theorem Roundtrip.fabs (t : FType) (d : VReg) (a : VReg) : Roundtrip.Statement (.fabs t d a) := by
  obtain ⟨W, hW⟩ : ∃ W, W = 1006632970 + d.val * 262144 + a.val * 2048 + t.code * 16 := ⟨_, rfl⟩
  have := FType.code_lt t
  have h0 : fld W 25 6 = 30 := by unfold fld; omega
  have h1 : bitAt W 31 = false := by rw [bitAt_fld]; simp only [fld, beq_eq_decide, decide_eq_true_eq, decide_eq_false_iff_not]; omega
  have h2 : fld W 10 1 = 0 := by unfold fld; omega
  have h3 : fld W 4 3 = t.code := by unfold fld; omega
  have h4 : fld W 7 3 = 0 := by unfold fld; omega
  have h5 : fld W 0 4 = 10 := by unfold fld; omega
  have h6 : vreg W 18 = d := Fin.ext (by simp only [vreg, Fin.ofNat]; omega)
  have h7 : vreg W 11 = a := Fin.ext (by simp only [vreg, Fin.ofNat]; omega)
  refine word_of_one W (by change encVrf 0x1E d a (t.code * 2 ^ 4 + 10) = [W]; simp only [encVrf, laneWord, hW, List.cons.injEq, and_true, Fin.val_zero]; omega) ?_ ?_ ?_
  · omega
  · simp [litCount, isUniformWord, laneHasX, h0, h1, h2, h3, h4, h5, h6, h7]
  · intro l h
    have hd : decodeLane W l = decFuna W := by unfold decodeLane; generalize fld W 25 6 = x at h0; subst h0; rfl
    simp [isUniformWord, hd, decFuna, need, h0, h1, h2, h3, h4, h5, h6, h7, -Fin.ofNat_eq_cast]
theorem Roundtrip.cvt (c : CvtKind) (d a : VReg) : Roundtrip.Statement (.cvt c d a) := by
  cases c with
  | plain t s r =>
    obtain ⟨W, hW⟩ : ∃ W, W = 1040187392 + d.val * 262144 + a.val * 2048 + r.code * 256 + s.code * 16 + t.code * 1 := ⟨_, rfl⟩
    have := RoundCode.code_lt r
    have := NumFmt.code_lt s
    have := NumFmt.code_lt t
    have h0 : fld W 25 6 = 31 := by unfold fld; omega
    have h1 : bitAt W 31 = false := by rw [bitAt_fld]; simp only [fld, beq_eq_decide, decide_eq_true_eq, decide_eq_false_iff_not]; omega
    have h2 : fld W 0 4 = t.code := by unfold fld; omega
    have h3 : fld W 4 4 = s.code := by unfold fld; omega
    have h4 : fld W 8 3 = r.code := by unfold fld; omega
    have h5 : vreg W 18 = d := Fin.ext (by simp only [vreg, Fin.ofNat]; omega)
    have h6 : vreg W 11 = a := Fin.ext (by simp only [vreg, Fin.ofNat]; omega)
    refine word_of_one W (by change encVrf 0x1F d a (r.code * 2 ^ 8 + s.code * 2 ^ 4 + t.code) = [W]; simp only [encVrf, laneWord, hW, List.cons.injEq, and_true, Fin.val_zero]; omega) ?_ ?_ ?_
    · omega
    · simp [litCount, isUniformWord, laneHasX, h0, h1, h2, h3, h4, h5, h6]
    · intro l h
      have hd : decodeLane W l = decCvt W := by unfold decodeLane; generalize fld W 25 6 = x at h0; subst h0; rfl
      simp [isUniformWord, hd, decCvt, need, h0, h1, h2, h3, h4, h5, h6, -Fin.ofNat_eq_cast]
  | toSlot f s =>
    obtain ⟨W, hW⟩ : ∃ W, W = 1040187400 + d.val * 262144 + a.val * 2048 + f.val * 256 + s.code * 16 := ⟨_, rfl⟩
    have := NumFmt.code_lt s
    have h0 : fld W 25 6 = 31 := by unfold fld; omega
    have h1 : bitAt W 31 = false := by rw [bitAt_fld]; simp only [fld, beq_eq_decide, decide_eq_true_eq, decide_eq_false_iff_not]; omega
    have h2 : fld W 0 4 = 8 := by unfold fld; omega
    have h3 : fld W 4 4 = s.code := by unfold fld; omega
    have h4 : Fin.ofNat 8 (W / 256) = f := Fin.ext (by simp only [Fin.ofNat]; omega)
    have h5 : vreg W 18 = d := Fin.ext (by simp only [vreg, Fin.ofNat]; omega)
    have h6 : vreg W 11 = a := Fin.ext (by simp only [vreg, Fin.ofNat]; omega)
    refine word_of_one W (by change encVrf 0x1F d a (f.val * 2 ^ 8 + s.code * 2 ^ 4 + 8) = [W]; simp only [encVrf, laneWord, hW, List.cons.injEq, and_true, Fin.val_zero]; omega) ?_ ?_ ?_
    · omega
    · simp [litCount, isUniformWord, laneHasX, h0, h1, h2, h3, h4, h5, h6]
    · intro l h
      have hd : decodeLane W l = decCvt W := by unfold decodeLane; generalize fld W 25 6 = x at h0; subst h0; rfl
      simp [isUniformWord, hd, decCvt, need, h0, h1, h2, h3, h4, h5, h6, -Fin.ofNat_eq_cast]
  | fromSlot t f =>
    obtain ⟨W, hW⟩ : ∃ W, W = 1040187520 + d.val * 262144 + a.val * 2048 + f.val * 256 + t.code * 1 := ⟨_, rfl⟩
    have := NumFmt.code_lt t
    have h0 : fld W 25 6 = 31 := by unfold fld; omega
    have h1 : bitAt W 31 = false := by rw [bitAt_fld]; simp only [fld, beq_eq_decide, decide_eq_true_eq, decide_eq_false_iff_not]; omega
    have h2 : fld W 0 4 = t.code := by unfold fld; omega
    have h3 : fld W 4 4 = 8 := by unfold fld; omega
    have h4 : Fin.ofNat 8 (W / 256) = f := Fin.ext (by simp only [Fin.ofNat]; omega)
    have h5 : vreg W 18 = d := Fin.ext (by simp only [vreg, Fin.ofNat]; omega)
    have h6 : vreg W 11 = a := Fin.ext (by simp only [vreg, Fin.ofNat]; omega)
    refine word_of_one W (by change encVrf 0x1F d a (f.val * 2 ^ 8 + 8 * 2 ^ 4 + t.code) = [W]; simp only [encVrf, laneWord, hW, List.cons.injEq, and_true, Fin.val_zero]; omega) ?_ ?_ ?_
    · omega
    · simp [litCount, isUniformWord, laneHasX, h0, h1, h2, h3, h4, h5, h6]
    · intro l h
      have hd : decodeLane W l = decCvt W := by unfold decodeLane; generalize fld W 25 6 = x at h0; subst h0; rfl
      simp [isUniformWord, hd, decCvt, need, h0, h1, h2, h3, h4, h5, h6, -Fin.ofNat_eq_cast]
theorem Roundtrip.qblk (f : FSlot) (d : VReg) (a : VReg) : Roundtrip.Statement (.qblk f d a) := by
  obtain ⟨W, hW⟩ : ∃ W, W = 1073741824 + d.val * 262144 + a.val * 2048 + f.val * 1 := ⟨_, rfl⟩
  have h0 : fld W 25 6 = 32 := by unfold fld; omega
  have h1 : bitAt W 31 = false := by rw [bitAt_fld]; simp only [fld, beq_eq_decide, decide_eq_true_eq, decide_eq_false_iff_not]; omega
  have h2 : fld W 3 8 = 0 := by unfold fld; omega
  have h3 : Fin.ofNat 8 W = f := Fin.ext (by simp only [Fin.ofNat]; omega)
  have h4 : vreg W 18 = d := Fin.ext (by simp only [vreg, Fin.ofNat]; omega)
  have h5 : vreg W 11 = a := Fin.ext (by simp only [vreg, Fin.ofNat]; omega)
  refine word_of_one W (by change encVrf 0x20 d a f.val = [W]; simp only [encVrf, laneWord, hW, List.cons.injEq, and_true, Fin.val_zero]; omega) ?_ ?_ ?_
  · omega
  · simp [litCount, isUniformWord, laneHasX, h0, h1, h2, h3, h4, h5]
  · intro l h
    have hd : decodeLane W l = need (fld W 3 8 == 0) .unusedField (.ok (.qblk (Fin.ofNat 8 W) (vreg W 18) (vreg W 11))) := by unfold decodeLane; generalize fld W 25 6 = x at h0; subst h0; rfl
    simp [isUniformWord, hd, need, h0, h1, h2, h3, h4, h5, -Fin.ofNat_eq_cast]
theorem Roundtrip.cbdec (f : FSlot) (d : VReg) (a : VReg) : Roundtrip.Statement (.cbdec f d a) := by
  obtain ⟨W, hW⟩ : ∃ W, W = 1107296256 + d.val * 262144 + a.val * 2048 + f.val * 2 := ⟨_, rfl⟩
  have h0 : fld W 25 6 = 33 := by unfold fld; omega
  have h1 : bitAt W 31 = false := by rw [bitAt_fld]; simp only [fld, beq_eq_decide, decide_eq_true_eq, decide_eq_false_iff_not]; omega
  have h2 : fld W 4 7 = 0 := by unfold fld; omega
  have h3 : bitAt W 0 = false := by rw [bitAt_fld]; simp only [fld, beq_eq_decide, decide_eq_true_eq, decide_eq_false_iff_not]; omega
  have h4 : Fin.ofNat 8 (W / 2) = f := Fin.ext (by simp only [Fin.ofNat]; omega)
  have h5 : vreg W 18 = d := Fin.ext (by simp only [vreg, Fin.ofNat]; omega)
  have h6 : vreg W 11 = a := Fin.ext (by simp only [vreg, Fin.ofNat]; omega)
  refine word_of_one W (by change encVrf 0x21 d a (f.val * 2) = [W]; simp only [encVrf, laneWord, hW, List.cons.injEq, and_true, Fin.val_zero]; omega) ?_ ?_ ?_
  · omega
  · simp [litCount, isUniformWord, laneHasX, h0, h1, h2, h3, h4, h5, h6]
  · intro l h
    have hd : decodeLane W l = need (fld W 4 7 == 0) .unusedField (.ok ((if bitAt W 0 then Instr.cbenc else Instr.cbdec) (Fin.ofNat 8 (W / 2 ^ 1)) (vreg W 18) (vreg W 11))) := by unfold decodeLane; generalize fld W 25 6 = x at h0; subst h0; rfl
    simp [isUniformWord, hd, need, h0, h1, h2, h3, h4, h5, h6, -Fin.ofNat_eq_cast]
theorem Roundtrip.cbenc (f : FSlot) (d : VReg) (a : VReg) : Roundtrip.Statement (.cbenc f d a) := by
  obtain ⟨W, hW⟩ : ∃ W, W = 1107296257 + d.val * 262144 + a.val * 2048 + f.val * 2 := ⟨_, rfl⟩
  have h0 : fld W 25 6 = 33 := by unfold fld; omega
  have h1 : bitAt W 31 = false := by rw [bitAt_fld]; simp only [fld, beq_eq_decide, decide_eq_true_eq, decide_eq_false_iff_not]; omega
  have h2 : fld W 4 7 = 0 := by unfold fld; omega
  have h3 : bitAt W 0 = true := by rw [bitAt_fld]; simp only [fld, beq_eq_decide, decide_eq_true_eq, decide_eq_false_iff_not]; omega
  have h4 : Fin.ofNat 8 (W / 2) = f := Fin.ext (by simp only [Fin.ofNat]; omega)
  have h5 : vreg W 18 = d := Fin.ext (by simp only [vreg, Fin.ofNat]; omega)
  have h6 : vreg W 11 = a := Fin.ext (by simp only [vreg, Fin.ofNat]; omega)
  refine word_of_one W (by change encVrf 0x21 d a (f.val * 2 + 1) = [W]; simp only [encVrf, laneWord, hW, List.cons.injEq, and_true, Fin.val_zero]; omega) ?_ ?_ ?_
  · omega
  · simp [litCount, isUniformWord, laneHasX, h0, h1, h2, h3, h4, h5, h6]
  · intro l h
    have hd : decodeLane W l = need (fld W 4 7 == 0) .unusedField (.ok ((if bitAt W 0 then Instr.cbenc else Instr.cbdec) (Fin.ofNat 8 (W / 2 ^ 1)) (vreg W 18) (vreg W 11))) := by unfold decodeLane; generalize fld W 25 6 = x at h0; subst h0; rfl
    simp [isUniformWord, hd, need, h0, h1, h2, h3, h4, h5, h6, -Fin.ofNat_eq_cast]
theorem Roundtrip.pack (e : ElemCode) (d : VReg) (a : VReg) : Roundtrip.Statement (.pack e d a) := by
  obtain ⟨W, hW⟩ : ∃ W, W = 1140850688 + d.val * 262144 + a.val * 2048 + e.code * 2 := ⟨_, rfl⟩
  have := ElemCode.code_lt e
  have h0 : fld W 25 6 = 34 := by unfold fld; omega
  have h1 : bitAt W 31 = false := by rw [bitAt_fld]; simp only [fld, beq_eq_decide, decide_eq_true_eq, decide_eq_false_iff_not]; omega
  have h2 : fld W 5 6 = 0 := by unfold fld; omega
  have h3 : fld W 1 4 = e.code := by unfold fld; omega
  have h4 : bitAt W 0 = false := by rw [bitAt_fld]; simp only [fld, beq_eq_decide, decide_eq_true_eq, decide_eq_false_iff_not]; omega
  have h5 : vreg W 18 = d := Fin.ext (by simp only [vreg, Fin.ofNat]; omega)
  have h6 : vreg W 11 = a := Fin.ext (by simp only [vreg, Fin.ofNat]; omega)
  refine word_of_one W (by change encVrf 0x22 d a (e.code * 2) = [W]; simp only [encVrf, laneWord, hW, List.cons.injEq, and_true, Fin.val_zero]; omega) ?_ ?_ ?_
  · omega
  · simp [litCount, isUniformWord, laneHasX, h0, h1, h2, h3, h4, h5, h6]
  · intro l h
    have hd : decodeLane W l = need (fld W 5 6 == 0) .unusedField (do let e ← ElemCode.ofCode (fld W 1 4); .ok ((if bitAt W 0 then Instr.unpk else Instr.pack) e (vreg W 18) (vreg W 11))) := by unfold decodeLane; generalize fld W 25 6 = x at h0; subst h0; rfl
    simp [isUniformWord, hd, need, h0, h1, h2, h3, h4, h5, h6, -Fin.ofNat_eq_cast]
theorem Roundtrip.unpk (e : ElemCode) (d : VReg) (a : VReg) : Roundtrip.Statement (.unpk e d a) := by
  obtain ⟨W, hW⟩ : ∃ W, W = 1140850689 + d.val * 262144 + a.val * 2048 + e.code * 2 := ⟨_, rfl⟩
  have := ElemCode.code_lt e
  have h0 : fld W 25 6 = 34 := by unfold fld; omega
  have h1 : bitAt W 31 = false := by rw [bitAt_fld]; simp only [fld, beq_eq_decide, decide_eq_true_eq, decide_eq_false_iff_not]; omega
  have h2 : fld W 5 6 = 0 := by unfold fld; omega
  have h3 : fld W 1 4 = e.code := by unfold fld; omega
  have h4 : bitAt W 0 = true := by rw [bitAt_fld]; simp only [fld, beq_eq_decide, decide_eq_true_eq, decide_eq_false_iff_not]; omega
  have h5 : vreg W 18 = d := Fin.ext (by simp only [vreg, Fin.ofNat]; omega)
  have h6 : vreg W 11 = a := Fin.ext (by simp only [vreg, Fin.ofNat]; omega)
  refine word_of_one W (by change encVrf 0x22 d a (e.code * 2 + 1) = [W]; simp only [encVrf, laneWord, hW, List.cons.injEq, and_true, Fin.val_zero]; omega) ?_ ?_ ?_
  · omega
  · simp [litCount, isUniformWord, laneHasX, h0, h1, h2, h3, h4, h5, h6]
  · intro l h
    have hd : decodeLane W l = need (fld W 5 6 == 0) .unusedField (do let e ← ElemCode.ofCode (fld W 1 4); .ok ((if bitAt W 0 then Instr.unpk else Instr.pack) e (vreg W 18) (vreg W 11))) := by unfold decodeLane; generalize fld W 25 6 = x at h0; subst h0; rfl
    simp [isUniformWord, hd, need, h0, h1, h2, h3, h4, h5, h6, -Fin.ofNat_eq_cast]
theorem Roundtrip.shfl (m : ShflMode) (d : VReg) (a : VReg) (b : VOp) : Roundtrip.Statement (.shfl m d a b) := by
  cases b with
  | reg r =>
    obtain ⟨W, hW⟩ : ∃ W, W = 1174405120 + d.val * 262144 + a.val * 2048 + r.val * 16 + m.code * 2 := ⟨_, rfl⟩
    have := ShflMode.code_lt m
    have h0 : fld W 25 6 = 35 := by unfold fld; omega
    have h1 : bitAt W 31 = false := by rw [bitAt_fld]; simp only [fld, beq_eq_decide, decide_eq_true_eq, decide_eq_false_iff_not]; omega
    have h2 : bitAt W 0 = false := by rw [bitAt_fld]; simp only [fld, beq_eq_decide, decide_eq_true_eq, decide_eq_false_iff_not]; omega
    have h3 : vreg W 18 = d := Fin.ext (by simp only [vreg, Fin.ofNat]; omega)
    have h4 : vreg W 11 = a := Fin.ext (by simp only [vreg, Fin.ofNat]; omega)
    have h5 : vreg W 4 = r := Fin.ext (by simp only [vreg, Fin.ofNat]; omega)
    have h6 : fld W 1 3 = m.code := by unfold fld; omega
    refine word_of_one W (by change encVrr 0x23 m.code d a (.reg r) = _; simp only [encVrr, VOp.enc, laneWord, hW, List.cons.injEq, and_true]; omega) ?_ ?_ ?_
    · omega
    · simp [litCount, isUniformWord, laneHasX, h0, h1, h2, h3, h4, h5, h6]
    · intro l h; simp [isUniformWord, decodeLane, vop, h0, h1, h2, h3, h4, h5, h6, -Fin.ofNat_eq_cast]
  | lit x =>
    obtain ⟨W, hW⟩ : ∃ W, W = 1174405121 + d.val * 262144 + a.val * 2048 + m.code * 2 := ⟨_, rfl⟩
    have := ShflMode.code_lt m
    have h0 : fld W 25 6 = 35 := by unfold fld; omega
    have h1 : bitAt W 31 = false := by rw [bitAt_fld]; simp only [fld, beq_eq_decide, decide_eq_true_eq, decide_eq_false_iff_not]; omega
    have h2 : bitAt W 0 = true := by rw [bitAt_fld]; simp only [fld, beq_eq_decide, decide_eq_true_eq, decide_eq_false_iff_not]; omega
    have h3 : vreg W 18 = d := Fin.ext (by simp only [vreg, Fin.ofNat]; omega)
    have h4 : vreg W 11 = a := Fin.ext (by simp only [vreg, Fin.ofNat]; omega)
    have h5 : fld W 4 7 = 0 := by unfold fld; omega
    have h6 : fld W 1 3 = m.code := by unfold fld; omega
    refine word_of_two W x.toNat (by change encVrr 0x23 m.code d a (.lit x) = _; simp only [encVrr, VOp.enc, laneWord, hW, List.cons.injEq, and_true]; omega) ?_ x.isLt ?_ ?_
    · omega
    · simp [litCount, isUniformWord, laneHasX, h0, h1, h2, h3, h4, h5, h6]
    · intro h; simp [isUniformWord, decodeLane, vop, h0, h1, h2, h3, h4, h5, h6, -Fin.ofNat_eq_cast]
theorem Roundtrip.movu (pr : Bool) (d : VReg) (n : SReg) : Roundtrip.Statement (.movu pr d n) := by
  obtain ⟨W, hW⟩ : ∃ W, W = 1207959552 + d.val * 262144 + bitVal pr * 64 + n.val * 1 := ⟨_, rfl⟩
  have := bitVal_lt pr
  have h0 : fld W 25 6 = 36 := by unfold fld; omega
  have h1 : bitAt W 31 = false := by rw [bitAt_fld]; simp only [fld, beq_eq_decide, decide_eq_true_eq, decide_eq_false_iff_not]; omega
  have h2 : fld W 11 7 = 0 := by unfold fld; omega
  have h3 : fld W 7 4 = 0 := by unfold fld; omega
  have h4 : bitAt W 6 = pr := bitAt_of (by unfold fld; omega)
  have h5 : vreg W 18 = d := Fin.ext (by simp only [vreg, Fin.ofNat]; omega)
  have h6 : sreg W 0 = n := Fin.ext (by simp only [sreg, Fin.ofNat]; omega)
  refine word_of_one W (by change encVrf 0x24 d 0 (bitVal pr * 2 ^ 6 + n.val) = [W]; simp only [encVrf, laneWord, hW, List.cons.injEq, and_true, Fin.val_zero]; omega) ?_ ?_ ?_
  · omega
  · simp [litCount, isUniformWord, laneHasX, h0, h1, h2, h3, h4, h5, h6]
  · intro l h
    have hd : decodeLane W l = need (fld W 11 7 == 0 && fld W 7 4 == 0) .unusedField (.ok (.movu (bitAt W 6) (vreg W 18) (sreg W 0))) := by unfold decodeLane; generalize fld W 25 6 = x at h0; subst h0; rfl
    simp [isUniformWord, hd, need, h0, h1, h2, h3, h4, h5, h6, -Fin.ofNat_eq_cast]
theorem Roundtrip.pand (ng : Bool) (d : PReg) (a : PReg) (b : PReg) : Roundtrip.Statement (.pand ng d a b) := by
  obtain ⟨W, hW⟩ : ∃ W, W = 1241513984 + d.val * 262144 + a.val * 2048 + b.val * 16 + bitVal ng * 1 := ⟨_, rfl⟩
  have := bitVal_lt ng
  have h0 : fld W 25 6 = 37 := by unfold fld; omega
  have h1 : bitAt W 31 = false := by rw [bitAt_fld]; simp only [fld, beq_eq_decide, decide_eq_true_eq, decide_eq_false_iff_not]; omega
  have h2 : fld W 1 3 = 0 := by unfold fld; omega
  have h3 : bitAt W 0 = ng := bitAt_of (by unfold fld; omega)
  have h4 : vreg W 18 = d := Fin.ext (by simp only [vreg, Fin.ofNat]; omega)
  have h5 : vreg W 11 = a := Fin.ext (by simp only [vreg, Fin.ofNat]; omega)
  have h6 : vreg W 4 = b := Fin.ext (by simp only [vreg, Fin.ofNat]; omega)
  refine word_of_one W (by change encVrf 0x25 d a (b.val * 2 ^ 4 + bitVal ng) = [W]; simp only [encVrf, laneWord, hW, List.cons.injEq, and_true, Fin.val_zero]; omega) ?_ ?_ ?_
  · omega
  · simp [litCount, isUniformWord, laneHasX, h0, h1, h2, h3, h4, h5, h6]
  · intro l h
    have hd : decodeLane W l = decPop W := by unfold decodeLane; generalize fld W 25 6 = x at h0; subst h0; rfl
    simp [isUniformWord, hd, decPop, need, h0, h1, h2, h3, h4, h5, h6, -Fin.ofNat_eq_cast]
theorem Roundtrip.por (ng : Bool) (d : PReg) (a : PReg) (b : PReg) : Roundtrip.Statement (.por ng d a b) := by
  obtain ⟨W, hW⟩ : ∃ W, W = 1241513986 + d.val * 262144 + a.val * 2048 + b.val * 16 + bitVal ng * 1 := ⟨_, rfl⟩
  have := bitVal_lt ng
  have h0 : fld W 25 6 = 37 := by unfold fld; omega
  have h1 : bitAt W 31 = false := by rw [bitAt_fld]; simp only [fld, beq_eq_decide, decide_eq_true_eq, decide_eq_false_iff_not]; omega
  have h2 : fld W 1 3 = 1 := by unfold fld; omega
  have h3 : bitAt W 0 = ng := bitAt_of (by unfold fld; omega)
  have h4 : vreg W 18 = d := Fin.ext (by simp only [vreg, Fin.ofNat]; omega)
  have h5 : vreg W 11 = a := Fin.ext (by simp only [vreg, Fin.ofNat]; omega)
  have h6 : vreg W 4 = b := Fin.ext (by simp only [vreg, Fin.ofNat]; omega)
  refine word_of_one W (by change encVrf 0x25 d a (b.val * 2 ^ 4 + 2 + bitVal ng) = [W]; simp only [encVrf, laneWord, hW, List.cons.injEq, and_true, Fin.val_zero]; omega) ?_ ?_ ?_
  · omega
  · simp [litCount, isUniformWord, laneHasX, h0, h1, h2, h3, h4, h5, h6]
  · intro l h
    have hd : decodeLane W l = decPop W := by unfold decodeLane; generalize fld W 25 6 = x at h0; subst h0; rfl
    simp [isUniformWord, hd, decPop, need, h0, h1, h2, h3, h4, h5, h6, -Fin.ofNat_eq_cast]
theorem Roundtrip.pxor (ng : Bool) (d : PReg) (a : PReg) (b : PReg) : Roundtrip.Statement (.pxor ng d a b) := by
  obtain ⟨W, hW⟩ : ∃ W, W = 1241513988 + d.val * 262144 + a.val * 2048 + b.val * 16 + bitVal ng * 1 := ⟨_, rfl⟩
  have := bitVal_lt ng
  have h0 : fld W 25 6 = 37 := by unfold fld; omega
  have h1 : bitAt W 31 = false := by rw [bitAt_fld]; simp only [fld, beq_eq_decide, decide_eq_true_eq, decide_eq_false_iff_not]; omega
  have h2 : fld W 1 3 = 2 := by unfold fld; omega
  have h3 : bitAt W 0 = ng := bitAt_of (by unfold fld; omega)
  have h4 : vreg W 18 = d := Fin.ext (by simp only [vreg, Fin.ofNat]; omega)
  have h5 : vreg W 11 = a := Fin.ext (by simp only [vreg, Fin.ofNat]; omega)
  have h6 : vreg W 4 = b := Fin.ext (by simp only [vreg, Fin.ofNat]; omega)
  refine word_of_one W (by change encVrf 0x25 d a (b.val * 2 ^ 4 + 4 + bitVal ng) = [W]; simp only [encVrf, laneWord, hW, List.cons.injEq, and_true, Fin.val_zero]; omega) ?_ ?_ ?_
  · omega
  · simp [litCount, isUniformWord, laneHasX, h0, h1, h2, h3, h4, h5, h6]
  · intro l h
    have hd : decodeLane W l = decPop W := by unfold decodeLane; generalize fld W 25 6 = x at h0; subst h0; rfl
    simp [isUniformWord, hd, decPop, need, h0, h1, h2, h3, h4, h5, h6, -Fin.ofNat_eq_cast]
theorem Roundtrip.pnot (d : PReg) (a : PReg) : Roundtrip.Statement (.pnot d a) := by
  obtain ⟨W, hW⟩ : ∃ W, W = 1241513990 + d.val * 262144 + a.val * 2048 := ⟨_, rfl⟩
  have h0 : fld W 25 6 = 37 := by unfold fld; omega
  have h1 : bitAt W 31 = false := by rw [bitAt_fld]; simp only [fld, beq_eq_decide, decide_eq_true_eq, decide_eq_false_iff_not]; omega
  have h2 : fld W 1 3 = 3 := by unfold fld; omega
  have h3 : fld W 4 7 = 0 := by unfold fld; omega
  have h4 : fld W 0 1 = 0 := by unfold fld; omega
  have h5 : vreg W 18 = d := Fin.ext (by simp only [vreg, Fin.ofNat]; omega)
  have h6 : vreg W 11 = a := Fin.ext (by simp only [vreg, Fin.ofNat]; omega)
  refine word_of_one W (by change encVrf 0x25 d a 6 = [W]; simp only [encVrf, laneWord, hW, List.cons.injEq, and_true, Fin.val_zero]; omega) ?_ ?_ ?_
  · omega
  · simp [litCount, isUniformWord, laneHasX, h0, h1, h2, h3, h4, h5, h6]
  · intro l h
    have hd : decodeLane W l = decPop W := by unfold decodeLane; generalize fld W 25 6 = x at h0; subst h0; rfl
    simp [isUniformWord, hd, decPop, need, h0, h1, h2, h3, h4, h5, h6, -Fin.ofNat_eq_cast]
theorem Roundtrip.pmov (d : PReg) (a : PReg) : Roundtrip.Statement (.pmov d a) := by
  obtain ⟨W, hW⟩ : ∃ W, W = 1241513992 + d.val * 262144 + a.val * 2048 := ⟨_, rfl⟩
  have h0 : fld W 25 6 = 37 := by unfold fld; omega
  have h1 : bitAt W 31 = false := by rw [bitAt_fld]; simp only [fld, beq_eq_decide, decide_eq_true_eq, decide_eq_false_iff_not]; omega
  have h2 : fld W 1 3 = 4 := by unfold fld; omega
  have h3 : fld W 4 7 = 0 := by unfold fld; omega
  have h4 : fld W 0 1 = 0 := by unfold fld; omega
  have h5 : vreg W 18 = d := Fin.ext (by simp only [vreg, Fin.ofNat]; omega)
  have h6 : vreg W 11 = a := Fin.ext (by simp only [vreg, Fin.ofNat]; omega)
  refine word_of_one W (by change encVrf 0x25 d a 8 = [W]; simp only [encVrf, laneWord, hW, List.cons.injEq, and_true, Fin.val_zero]; omega) ?_ ?_ ?_
  · omega
  · simp [litCount, isUniformWord, laneHasX, h0, h1, h2, h3, h4, h5, h6]
  · intro l h
    have hd : decodeLane W l = decPop W := by unfold decodeLane; generalize fld W 25 6 = x at h0; subst h0; rfl
    simp [isUniformWord, hd, decPop, need, h0, h1, h2, h3, h4, h5, h6, -Fin.ofNat_eq_cast]
theorem Roundtrip.gsel (ng : Bool) (a : PReg) : Roundtrip.Statement (.gsel ng a) := by
  obtain ⟨W, hW⟩ : ∃ W, W = 1275068416 + a.val * 2048 + bitVal ng * 1 := ⟨_, rfl⟩
  have := bitVal_lt ng
  have h0 : fld W 25 6 = 38 := by unfold fld; omega
  have h1 : bitAt W 31 = false := by rw [bitAt_fld]; simp only [fld, beq_eq_decide, decide_eq_true_eq, decide_eq_false_iff_not]; omega
  have h2 : fld W 18 7 = 0 := by unfold fld; omega
  have h3 : fld W 4 7 = 0 := by unfold fld; omega
  have h4 : fld W 1 3 = 0 := by unfold fld; omega
  have h5 : bitAt W 0 = ng := bitAt_of (by unfold fld; omega)
  have h6 : vreg W 11 = a := Fin.ext (by simp only [vreg, Fin.ofNat]; omega)
  refine word_of_one W (by change encVrf 0x26 0 a (bitVal ng) = [W]; simp only [encVrf, laneWord, hW, List.cons.injEq, and_true, Fin.val_zero]; omega) ?_ ?_ ?_
  · omega
  · simp [litCount, isUniformWord, laneHasX, h0, h1, h2, h3, h4, h5, h6]
  · intro l h
    have hd : decodeLane W l = decGsel W := by unfold decodeLane; generalize fld W 25 6 = x at h0; subst h0; rfl
    simp [isUniformWord, hd, decGsel, need, h0, h1, h2, h3, h4, h5, h6, -Fin.ofNat_eq_cast]
theorem Roundtrip.bra (ng : Bool) (p : PReg) (off : BitVec 17) : Roundtrip.Statement (.bra ng p off) := by
  obtain ⟨W, hW⟩ : ∃ W, W = 1308622848 + p.val * 262144 + bitVal ng * 131072 + off.toNat * 1 := ⟨_, rfl⟩
  have := bitVal_lt ng
  have := off.isLt
  have h0 : fld W 25 6 = 39 := by unfold fld; omega
  have h1 : bitAt W 31 = false := by rw [bitAt_fld]; simp only [fld, beq_eq_decide, decide_eq_true_eq, decide_eq_false_iff_not]; omega
  have h2 : bitAt W 17 = ng := bitAt_of (by unfold fld; omega)
  have h3 : vreg W 18 = p := Fin.ext (by simp only [vreg, Fin.ofNat]; omega)
  have h4 : BitVec.ofNat 17 W = off := BitVec.eq_of_toNat_eq (by simp only [BitVec.toNat_ofNat]; omega)
  refine word_of_one W (by change encVb 0x27 ng p off = [W]; simp only [encVb, hW, List.cons.injEq, and_true, Fin.val_zero]; omega) ?_ ?_ ?_
  · omega
  · simp [litCount, isUniformWord, laneHasX, h0, h1, h2, h3, h4]
  · intro l h
    have hd : decodeLane W l = .ok (.bra (bitAt W 17) (vreg W 18) (.ofNat 17 W)) := by unfold decodeLane; generalize fld W 25 6 = x at h0; subst h0; rfl
    simp [isUniformWord, hd, h0, h1, h2, h3, h4, -Fin.ofNat_eq_cast]
theorem Roundtrip.call (ng : Bool) (p : PReg) (off : BitVec 17) : Roundtrip.Statement (.call ng p off) := by
  obtain ⟨W, hW⟩ : ∃ W, W = 1342177280 + p.val * 262144 + bitVal ng * 131072 + off.toNat * 1 := ⟨_, rfl⟩
  have := bitVal_lt ng
  have := off.isLt
  have h0 : fld W 25 6 = 40 := by unfold fld; omega
  have h1 : bitAt W 31 = false := by rw [bitAt_fld]; simp only [fld, beq_eq_decide, decide_eq_true_eq, decide_eq_false_iff_not]; omega
  have h2 : bitAt W 17 = ng := bitAt_of (by unfold fld; omega)
  have h3 : vreg W 18 = p := Fin.ext (by simp only [vreg, Fin.ofNat]; omega)
  have h4 : BitVec.ofNat 17 W = off := BitVec.eq_of_toNat_eq (by simp only [BitVec.toNat_ofNat]; omega)
  refine word_of_one W (by change encVb 0x28 ng p off = [W]; simp only [encVb, hW, List.cons.injEq, and_true, Fin.val_zero]; omega) ?_ ?_ ?_
  · omega
  · simp [litCount, isUniformWord, laneHasX, h0, h1, h2, h3, h4]
  · intro l h
    have hd : decodeLane W l = .ok (.call (bitAt W 17) (vreg W 18) (.ofNat 17 W)) := by unfold decodeLane; generalize fld W 25 6 = x at h0; subst h0; rfl
    simp [isUniformWord, hd, h0, h1, h2, h3, h4, -Fin.ofNat_eq_cast]
theorem Roundtrip.brx (a : VReg) : Roundtrip.Statement (.brx a) := by
  obtain ⟨W, hW⟩ : ∃ W, W = 1375731713 + a.val * 2048 := ⟨_, rfl⟩
  have h0 : fld W 25 6 = 41 := by unfold fld; omega
  have h1 : bitAt W 31 = false := by rw [bitAt_fld]; simp only [fld, beq_eq_decide, decide_eq_true_eq, decide_eq_false_iff_not]; omega
  have h2 : fld W 18 7 = 0 := by unfold fld; omega
  have h3 : fld W 0 11 = 1 := by unfold fld; omega
  have h4 : fld W 11 7 = a.val := by unfold fld; omega
  have h5 : vreg W 11 = a := Fin.ext (by simp only [vreg, Fin.ofNat]; omega)
  refine word_of_one W (by change encVrf 0x29 0 a 1 = [W]; simp only [encVrf, laneWord, hW, List.cons.injEq, and_true, Fin.val_zero]; omega) ?_ ?_ ?_
  · omega
  · simp [litCount, isUniformWord, laneHasX, h0, h1, h2, h3, h4, h5]
  · intro l h
    have hd : decodeLane W l = decCtlr W := by unfold decodeLane; generalize fld W 25 6 = x at h0; subst h0; rfl
    simp [isUniformWord, hd, decCtlr, need, h0, h1, h2, h3, h4, h5, -Fin.ofNat_eq_cast]
theorem Roundtrip.rng (d : VReg) (a : VReg) : Roundtrip.Statement (.rng d a) := by
  obtain ⟨W, hW⟩ : ∃ W, W = 1409286144 + d.val * 262144 + a.val * 2048 := ⟨_, rfl⟩
  have h0 : fld W 25 6 = 42 := by unfold fld; omega
  have h1 : bitAt W 31 = false := by rw [bitAt_fld]; simp only [fld, beq_eq_decide, decide_eq_true_eq, decide_eq_false_iff_not]; omega
  have h2 : fld W 0 11 = 0 := by unfold fld; omega
  have h3 : vreg W 18 = d := Fin.ext (by simp only [vreg, Fin.ofNat]; omega)
  have h4 : vreg W 11 = a := Fin.ext (by simp only [vreg, Fin.ofNat]; omega)
  refine word_of_one W (by change encVrf 0x2A d a 0 = [W]; simp only [encVrf, laneWord, hW, List.cons.injEq, and_true, Fin.val_zero]; omega) ?_ ?_ ?_
  · omega
  · simp [litCount, isUniformWord, laneHasX, h0, h1, h2, h3, h4]
  · intro l h
    have hd : decodeLane W l = need (fld W 0 11 == 0) .unusedField (.ok (.rng (vreg W 18) (vreg W 11))) := by unfold decodeLane; generalize fld W 25 6 = x at h0; subst h0; rfl
    simp [isUniformWord, hd, need, h0, h1, h2, h3, h4, -Fin.ofNat_eq_cast]
theorem Roundtrip.ld (z : Width) (h : Fin 4) (d : VReg) (n : BReg) (o : VReg) : Roundtrip.Statement (.ld z h d n o) :=
  vmHint_ok 43 rfl (fun w _ (h : fld w 25 6 = 43) => by unfold decodeLane; generalize fld w 25 6 = x at h; subst h; rfl) z h d n o rfl
theorem Roundtrip.st (z : Width) (h : Fin 4) (d : VReg) (n : BReg) (o : VReg) : Roundtrip.Statement (.st z h d n o) :=
  vmHint_ok 44 rfl (fun w _ (h : fld w 25 6 = 44) => by unfold decodeLane; generalize fld w 25 6 = x at h; subst h; rfl) z h d n o rfl
theorem Roundtrip.ldq (pr : Bool) (q : Bool) (sc : Scope) (d : VReg) (n : BReg) (o : VReg) : Roundtrip.Statement (.ldq pr q sc d n o) :=
  vmStrong_ok 45 rfl (fun w _ (h : fld w 25 6 = 45) => by unfold decodeLane; generalize fld w 25 6 = x at h; subst h; rfl) pr q sc d n o rfl
theorem Roundtrip.stq (pr : Bool) (q : Bool) (sc : Scope) (d : VReg) (n : BReg) (o : VReg) : Roundtrip.Statement (.stq pr q sc d n o) :=
  vmStrong_ok 46 rfl (fun w _ (h : fld w 25 6 = 46) => by unfold decodeLane; generalize fld w 25 6 = x at h; subst h; rfl) pr q sc d n o rfl
theorem Roundtrip.lds (z : Width) (d : VReg) (n : BReg) (o : VReg) : Roundtrip.Statement (.lds z d n o) :=
  vmWidth_ok 47 rfl (fun w _ (h : fld w 25 6 = 47) => by unfold decodeLane; generalize fld w 25 6 = x at h; subst h; rfl) z d n o rfl
theorem Roundtrip.sts (z : Width) (d : VReg) (n : BReg) (o : VReg) : Roundtrip.Statement (.sts z d n o) :=
  vmWidth_ok 48 rfl (fun w _ (h : fld w 25 6 = 48) => by unfold decodeLane; generalize fld w 25 6 = x at h; subst h; rfl) z d n o rfl
theorem Roundtrip.ldc (z : Width) (d : VReg) (n : BReg) (o : VReg) : Roundtrip.Statement (.ldc z d n o) :=
  vmWidth_ok 49 rfl (fun w _ (h : fld w 25 6 = 49) => by unfold decodeLane; generalize fld w 25 6 = x at h; subst h; rfl) z d n o rfl
theorem Roundtrip.stc (z : Width) (d : VReg) (n : BReg) (o : VReg) : Roundtrip.Statement (.stc z d n o) :=
  vmWidth_ok 50 rfl (fun w _ (h : fld w 25 6 = 50) => by unfold decodeLane; generalize fld w 25 6 = x at h; subst h; rfl) z d n o rfl
theorem Roundtrip.prf (l : Bool) (n : BReg) (o : VReg) : Roundtrip.Statement (.prf l n o) := by
  obtain ⟨W, hW⟩ : ∃ W, W = 1711276032 + n.val * 16384 + o.val * 128 + bitVal l * 1 := ⟨_, rfl⟩
  have := bitVal_lt l
  have h0 : fld W 25 6 = 51 := by unfold fld; omega
  have h1 : bitAt W 31 = false := by rw [bitAt_fld]; simp only [fld, beq_eq_decide, decide_eq_true_eq, decide_eq_false_iff_not]; omega
  have h2 : fld W 18 7 = 0 := by unfold fld; omega
  have h3 : fld W 4 3 = 0 := by unfold fld; omega
  have h4 : fld W 0 4 = bitVal l := by unfold fld; omega
  have h5 : bitAt W 0 = l := bitAt_of (by unfold fld; omega)
  have h6 : Fin.ofNat 16 (W / 16384) = n := Fin.ext (by simp only [Fin.ofNat]; omega)
  have h7 : vreg W 7 = o := Fin.ext (by simp only [vreg, Fin.ofNat]; omega)
  refine word_of_one W (by change encVm 0x33 0 n o 0 (bitVal l) = [W]; simp only [encVm, hW, List.cons.injEq, and_true, Fin.val_zero]; omega) ?_ ?_ ?_
  · omega
  · simp [litCount, isUniformWord, laneHasX, h0, h1, h2, h3, h4, h5, h6, h7]
  · intro l h
    have hd : decodeLane W l = decPrf W := by unfold decodeLane; generalize fld W 25 6 = x at h0; subst h0; rfl
    simp [isUniformWord, hd, decPrf, need, bitVal_le, h0, h1, h2, h3, h4, h5, h6, h7, -Fin.ofNat_eq_cast]
theorem Roundtrip.atom (op : AtomOp) (pr : Bool) (sc : Scope) (d : VReg) (n : BReg) (o : VReg) : Roundtrip.Statement (.atom op pr sc d n o) := by
  obtain ⟨W, hW⟩ : ∃ W, W = 1744830464 + d.val * 262144 + n.val * 16384 + o.val * 128 + sc.code * 16 + bitVal pr * 8 + op.code * 1 := ⟨_, rfl⟩
  have := Scope.code_lt sc
  have := bitVal_lt pr
  have := AtomOp.code_lt op
  have h0 : fld W 25 6 = 52 := by unfold fld; omega
  have h1 : bitAt W 31 = false := by rw [bitAt_fld]; simp only [fld, beq_eq_decide, decide_eq_true_eq, decide_eq_false_iff_not]; omega
  have h2 : fld W 4 3 = sc.code := by unfold fld; omega
  have h3 : fld W 0 3 = op.code := by unfold fld; omega
  have h4 : bitAt W 3 = pr := bitAt_of (by unfold fld; omega)
  have h5 : vreg W 18 = d := Fin.ext (by simp only [vreg, Fin.ofNat]; omega)
  have h6 : Fin.ofNat 16 (W / 16384) = n := Fin.ext (by simp only [Fin.ofNat]; omega)
  have h7 : vreg W 7 = o := Fin.ext (by simp only [vreg, Fin.ofNat]; omega)
  refine word_of_one W (by change encVm 0x34 d n o sc.code (bitVal pr * 8 + op.code) = [W]; simp only [encVm, hW, List.cons.injEq, and_true, Fin.val_zero]; omega) ?_ ?_ ?_
  · omega
  · simp [litCount, isUniformWord, laneHasX, h0, h1, h2, h3, h4, h5, h6, h7]
  · intro l h
    have hd : decodeLane W l = decAtom W := by unfold decodeLane; generalize fld W 25 6 = x at h0; subst h0; rfl
    simp [isUniformWord, hd, decAtom, vm, h0, h1, h2, h3, h4, h5, h6, h7, -Fin.ofNat_eq_cast]
theorem Roundtrip.acas (pr : Bool) (sc : Scope) (d : VReg) (n : BReg) (o : VReg) : Roundtrip.Statement (.acas pr sc d n o) := by
  obtain ⟨W, hW⟩ : ∃ W, W = 1778384896 + d.val * 262144 + n.val * 16384 + o.val * 128 + sc.code * 16 + bitVal pr * 8 := ⟨_, rfl⟩
  have := Scope.code_lt sc
  have := bitVal_lt pr
  have h0 : fld W 25 6 = 53 := by unfold fld; omega
  have h1 : bitAt W 31 = false := by rw [bitAt_fld]; simp only [fld, beq_eq_decide, decide_eq_true_eq, decide_eq_false_iff_not]; omega
  have h2 : fld W 4 3 = sc.code := by unfold fld; omega
  have h3 : fld W 0 3 = 0 := by unfold fld; omega
  have h4 : bitAt W 3 = pr := bitAt_of (by unfold fld; omega)
  have h5 : vreg W 18 = d := Fin.ext (by simp only [vreg, Fin.ofNat]; omega)
  have h6 : Fin.ofNat 16 (W / 16384) = n := Fin.ext (by simp only [Fin.ofNat]; omega)
  have h7 : vreg W 7 = o := Fin.ext (by simp only [vreg, Fin.ofNat]; omega)
  refine word_of_one W (by change encVm 0x35 d n o sc.code (bitVal pr * 8) = [W]; simp only [encVm, hW, List.cons.injEq, and_true, Fin.val_zero]; omega) ?_ ?_ ?_
  · omega
  · simp [litCount, isUniformWord, laneHasX, h0, h1, h2, h3, h4, h5, h6, h7]
  · intro l h
    have hd : decodeLane W l = decAcas W := by unfold decodeLane; generalize fld W 25 6 = x at h0; subst h0; rfl
    simp [isUniformWord, hd, decAcas, vm, need, h0, h1, h2, h3, h4, h5, h6, h7, -Fin.ofNat_eq_cast]
theorem Roundtrip.afadd (t : AddType) (sc : Scope) (d : VReg) (n : BReg) (o : VReg) : Roundtrip.Statement (.afadd t sc d n o) := by
  obtain ⟨W, hW⟩ : ∃ W, W = 1811939328 + d.val * 262144 + n.val * 16384 + o.val * 128 + sc.code * 16 + t.code * 1 := ⟨_, rfl⟩
  have := Scope.code_lt sc
  have := AddType.code_lt t
  have h0 : fld W 25 6 = 54 := by unfold fld; omega
  have h1 : bitAt W 31 = false := by rw [bitAt_fld]; simp only [fld, beq_eq_decide, decide_eq_true_eq, decide_eq_false_iff_not]; omega
  have h2 : fld W 4 3 = sc.code := by unfold fld; omega
  have h3 : fld W 0 4 = t.code := by unfold fld; omega
  have h4 : vreg W 18 = d := Fin.ext (by simp only [vreg, Fin.ofNat]; omega)
  have h5 : Fin.ofNat 16 (W / 16384) = n := Fin.ext (by simp only [Fin.ofNat]; omega)
  have h6 : vreg W 7 = o := Fin.ext (by simp only [vreg, Fin.ofNat]; omega)
  refine word_of_one W (by change encVm 0x36 d n o sc.code t.code = [W]; simp only [encVm, hW, List.cons.injEq, and_true, Fin.val_zero]; omega) ?_ ?_ ?_
  · omega
  · simp [litCount, isUniformWord, laneHasX, h0, h1, h2, h3, h4, h5, h6]
  · intro l h
    have hd : decodeLane W l = decAfadd W := by unfold decodeLane; generalize fld W 25 6 = x at h0; subst h0; rfl
    simp [isUniformWord, hd, decAfadd, vm, h0, h1, h2, h3, h4, h5, h6, -Fin.ofNat_eq_cast]
theorem Roundtrip.xacc (t : CellType) (v : VReg) (n : BReg) (o : VReg) : Roundtrip.Statement (.xacc t v n o) := by
  obtain ⟨W, hW⟩ : ∃ W, W = 1845493760 + v.val * 262144 + n.val * 16384 + o.val * 128 + t.code * 1 := ⟨_, rfl⟩
  have := CellType.code_lt t
  have h0 : fld W 25 6 = 55 := by unfold fld; omega
  have h1 : bitAt W 31 = false := by rw [bitAt_fld]; simp only [fld, beq_eq_decide, decide_eq_true_eq, decide_eq_false_iff_not]; omega
  have h2 : fld W 4 3 = 0 := by unfold fld; omega
  have h3 : fld W 0 4 = t.code := by unfold fld; omega
  have h4 : vreg W 18 = v := Fin.ext (by simp only [vreg, Fin.ofNat]; omega)
  have h5 : Fin.ofNat 16 (W / 16384) = n := Fin.ext (by simp only [Fin.ofNat]; omega)
  have h6 : vreg W 7 = o := Fin.ext (by simp only [vreg, Fin.ofNat]; omega)
  refine word_of_one W (by change encVm 0x37 v n o 0 t.code = [W]; simp only [encVm, hW, List.cons.injEq, and_true, Fin.val_zero]; omega) ?_ ?_ ?_
  · omega
  · simp [litCount, isUniformWord, laneHasX, h0, h1, h2, h3, h4, h5, h6]
  · intro l h
    have hd : decodeLane W l = decXacc W := by unfold decodeLane; generalize fld W 25 6 = x at h0; subst h0; rfl
    simp [isUniformWord, hd, decXacc, vm, need, h0, h1, h2, h3, h4, h5, h6, -Fin.ofNat_eq_cast]
theorem Roundtrip.xrd (pr : Bool) (clr : Bool) (d : VReg) (n : BReg) (o : VReg) : Roundtrip.Statement (.xrd pr clr d n o) := by
  obtain ⟨W, hW⟩ : ∃ W, W = 1879048192 + d.val * 262144 + n.val * 16384 + o.val * 128 + bitVal clr * 2 + bitVal pr * 1 := ⟨_, rfl⟩
  have := bitVal_lt clr
  have := bitVal_lt pr
  have h0 : fld W 25 6 = 56 := by unfold fld; omega
  have h1 : bitAt W 31 = false := by rw [bitAt_fld]; simp only [fld, beq_eq_decide, decide_eq_true_eq, decide_eq_false_iff_not]; omega
  have h2 : fld W 4 3 = 0 := by unfold fld; omega
  have h3 : fld W 2 2 = 0 := by unfold fld; omega
  have h4 : bitAt W 0 = pr := bitAt_of (by unfold fld; omega)
  have h5 : bitAt W 1 = clr := bitAt_of (by unfold fld; omega)
  have h6 : vreg W 18 = d := Fin.ext (by simp only [vreg, Fin.ofNat]; omega)
  have h7 : Fin.ofNat 16 (W / 16384) = n := Fin.ext (by simp only [Fin.ofNat]; omega)
  have h8 : vreg W 7 = o := Fin.ext (by simp only [vreg, Fin.ofNat]; omega)
  refine word_of_one W (by change encVm 0x38 d n o 0 (bitVal clr * 2 + bitVal pr) = [W]; simp only [encVm, hW, List.cons.injEq, and_true, Fin.val_zero]; omega) ?_ ?_ ?_
  · omega
  · simp [litCount, isUniformWord, laneHasX, h0, h1, h2, h3, h4, h5, h6, h7, h8]
  · intro l h
    have hd : decodeLane W l = decXrd W := by unfold decodeLane; generalize fld W 25 6 = x at h0; subst h0; rfl
    simp [isUniformWord, hd, decXrd, vm, need, h0, h1, h2, h3, h4, h5, h6, h7, h8, -Fin.ofNat_eq_cast]
theorem Roundtrip.sadd (nw : Bool) (d : SReg) (a : SReg) (b : SOp) : Roundtrip.Statement (.sadd nw d a b) :=
  srr_ok 1 rfl rfl (fun w _ _ (h : fld w 25 6 = 1) => by unfold decodeUniform; generalize fld w 25 6 = x at h; subst h; rfl) nw d a b rfl
theorem Roundtrip.ssub (nw : Bool) (d : SReg) (a : SReg) (b : SOp) : Roundtrip.Statement (.ssub nw d a b) :=
  srr_ok 2 rfl rfl (fun w _ _ (h : fld w 25 6 = 2) => by unfold decodeUniform; generalize fld w 25 6 = x at h; subst h; rfl) nw d a b rfl
theorem Roundtrip.smul (nw : Bool) (d : SReg) (a : SReg) (b : SOp) : Roundtrip.Statement (.smul nw d a b) :=
  srr_ok 3 rfl rfl (fun w _ _ (h : fld w 25 6 = 3) => by unfold decodeUniform; generalize fld w 25 6 = x at h; subst h; rfl) nw d a b rfl
theorem Roundtrip.sand (nw : Bool) (d : SReg) (a : SReg) (b : SOp) : Roundtrip.Statement (.sand nw d a b) :=
  srr_ok 4 rfl rfl (fun w _ _ (h : fld w 25 6 = 4) => by unfold decodeUniform; generalize fld w 25 6 = x at h; subst h; rfl) nw d a b rfl
theorem Roundtrip.sor (nw : Bool) (d : SReg) (a : SReg) (b : SOp) : Roundtrip.Statement (.sor nw d a b) :=
  srr_ok 5 rfl rfl (fun w _ _ (h : fld w 25 6 = 5) => by unfold decodeUniform; generalize fld w 25 6 = x at h; subst h; rfl) nw d a b rfl
theorem Roundtrip.sxor (nw : Bool) (d : SReg) (a : SReg) (b : SOp) : Roundtrip.Statement (.sxor nw d a b) :=
  srr_ok 6 rfl rfl (fun w _ _ (h : fld w 25 6 = 6) => by unfold decodeUniform; generalize fld w 25 6 = x at h; subst h; rfl) nw d a b rfl
theorem Roundtrip.sshl (nw : Bool) (d : SReg) (a : SReg) (b : SOp) : Roundtrip.Statement (.sshl nw d a b) :=
  srr_ok 7 rfl rfl (fun w _ _ (h : fld w 25 6 = 7) => by unfold decodeUniform; generalize fld w 25 6 = x at h; subst h; rfl) nw d a b rfl
theorem Roundtrip.sshr (nw : Bool) (d : SReg) (a : SReg) (b : SOp) : Roundtrip.Statement (.sshr nw d a b) :=
  srr_ok 8 rfl rfl (fun w _ _ (h : fld w 25 6 = 8) => by unfold decodeUniform; generalize fld w 25 6 = x at h; subst h; rfl) nw d a b rfl
theorem Roundtrip.ssar (nw : Bool) (d : SReg) (a : SReg) (b : SOp) : Roundtrip.Statement (.ssar nw d a b) :=
  srr_ok 9 rfl rfl (fun w _ _ (h : fld w 25 6 = 9) => by unfold decodeUniform; generalize fld w 25 6 = x at h; subst h; rfl) nw d a b rfl
theorem Roundtrip.scmp (c : ICond) (d : SReg) (a : SReg) (b : SOp) : Roundtrip.Statement (.scmp c d a b) := by
  cases b with
  | reg r =>
    obtain ⟨W, hW⟩ : ∃ W, W = 2483027968 + d.val * 524288 + a.val * 8192 + r.val * 128 + c.code * 2 := ⟨_, rfl⟩
    have := ICond.code_lt c
    have h0 : fld W 25 6 = 10 := by unfold fld; omega
    have h1 : bitAt W 31 = true := by rw [bitAt_fld]; simp only [fld, beq_eq_decide, decide_eq_true_eq, decide_eq_false_iff_not]; omega
    have h2 : bitAt W 0 = false := by rw [bitAt_fld]; simp only [fld, beq_eq_decide, decide_eq_true_eq, decide_eq_false_iff_not]; omega
    have h3 : sreg W 19 = d := Fin.ext (by simp only [sreg, Fin.ofNat]; omega)
    have h4 : sreg W 13 = a := Fin.ext (by simp only [sreg, Fin.ofNat]; omega)
    have h5 : sreg W 7 = r := Fin.ext (by simp only [sreg, Fin.ofNat]; omega)
    have h6 : fld W 4 3 = 0 := by unfold fld; omega
    have h7 : fld W 1 3 = c.code := by unfold fld; omega
    refine word_of_one W (by change encSrr 0x0A (c.code) d a (.reg r) = _; simp only [encSrr, SOp.enc, uniWord, hW, List.cons.injEq, and_true]; omega) ?_ ?_ ?_
    · omega
    · simp [litCount, isUniformWord, h0, h1, h2, h3, h4, h5, h6, h7]
    · intro l h; simp [isUniformWord, decodeUniform, sop, need, h0, h1, h2, h3, h4, h5, h6, h7, -Fin.ofNat_eq_cast]
  | lit x =>
    obtain ⟨W, hW⟩ : ∃ W, W = 2483027969 + d.val * 524288 + a.val * 8192 + c.code * 2 := ⟨_, rfl⟩
    have := ICond.code_lt c
    have h0 : fld W 25 6 = 10 := by unfold fld; omega
    have h1 : bitAt W 31 = true := by rw [bitAt_fld]; simp only [fld, beq_eq_decide, decide_eq_true_eq, decide_eq_false_iff_not]; omega
    have h2 : bitAt W 0 = true := by rw [bitAt_fld]; simp only [fld, beq_eq_decide, decide_eq_true_eq, decide_eq_false_iff_not]; omega
    have h3 : sreg W 19 = d := Fin.ext (by simp only [sreg, Fin.ofNat]; omega)
    have h4 : sreg W 13 = a := Fin.ext (by simp only [sreg, Fin.ofNat]; omega)
    have h5 : fld W 7 6 = 0 := by unfold fld; omega
    have h6 : fld W 4 3 = 0 := by unfold fld; omega
    have h7 : fld W 1 3 = c.code := by unfold fld; omega
    refine word_of_two W x.toNat (by change encSrr 0x0A (c.code) d a (.lit x) = _; simp only [encSrr, SOp.enc, uniWord, hW, List.cons.injEq, and_true]; omega) ?_ x.isLt ?_ ?_
    · omega
    · simp [litCount, isUniformWord, h0, h1, h2, h3, h4, h5, h6, h7]
    · intro h; simp [isUniformWord, decodeUniform, sop, need, h0, h1, h2, h3, h4, h5, h6, h7, -Fin.ofNat_eq_cast]
theorem Roundtrip.ssel (c : SReg) (d : SReg) (a : SReg) (b : SOp) : Roundtrip.Statement (.ssel c d a b) := by
  cases b with
  | reg r =>
    obtain ⟨W, hW⟩ : ∃ W, W = 2516582400 + d.val * 524288 + a.val * 8192 + r.val * 128 + c.val * 2 := ⟨_, rfl⟩
    have h0 : fld W 25 6 = 11 := by unfold fld; omega
    have h1 : bitAt W 31 = true := by rw [bitAt_fld]; simp only [fld, beq_eq_decide, decide_eq_true_eq, decide_eq_false_iff_not]; omega
    have h2 : bitAt W 0 = false := by rw [bitAt_fld]; simp only [fld, beq_eq_decide, decide_eq_true_eq, decide_eq_false_iff_not]; omega
    have h3 : sreg W 19 = d := Fin.ext (by simp only [sreg, Fin.ofNat]; omega)
    have h4 : sreg W 13 = a := Fin.ext (by simp only [sreg, Fin.ofNat]; omega)
    have h5 : sreg W 7 = r := Fin.ext (by simp only [sreg, Fin.ofNat]; omega)
    have h6 : sreg W 1 = c := Fin.ext (by simp only [sreg, Fin.ofNat]; omega)
    refine word_of_one W (by change encSrr 0x0B (c.val) d a (.reg r) = _; simp only [encSrr, SOp.enc, uniWord, hW, List.cons.injEq, and_true]; omega) ?_ ?_ ?_
    · omega
    · simp [litCount, isUniformWord, h0, h1, h2, h3, h4, h5, h6]
    · intro l h; simp [isUniformWord, decodeUniform, sop, need, h0, h1, h2, h3, h4, h5, h6, -Fin.ofNat_eq_cast]
  | lit x =>
    obtain ⟨W, hW⟩ : ∃ W, W = 2516582401 + d.val * 524288 + a.val * 8192 + c.val * 2 := ⟨_, rfl⟩
    have h0 : fld W 25 6 = 11 := by unfold fld; omega
    have h1 : bitAt W 31 = true := by rw [bitAt_fld]; simp only [fld, beq_eq_decide, decide_eq_true_eq, decide_eq_false_iff_not]; omega
    have h2 : bitAt W 0 = true := by rw [bitAt_fld]; simp only [fld, beq_eq_decide, decide_eq_true_eq, decide_eq_false_iff_not]; omega
    have h3 : sreg W 19 = d := Fin.ext (by simp only [sreg, Fin.ofNat]; omega)
    have h4 : sreg W 13 = a := Fin.ext (by simp only [sreg, Fin.ofNat]; omega)
    have h5 : fld W 7 6 = 0 := by unfold fld; omega
    have h6 : sreg W 1 = c := Fin.ext (by simp only [sreg, Fin.ofNat]; omega)
    refine word_of_two W x.toNat (by change encSrr 0x0B (c.val) d a (.lit x) = _; simp only [encSrr, SOp.enc, uniWord, hW, List.cons.injEq, and_true]; omega) ?_ x.isLt ?_ ?_
    · omega
    · simp [litCount, isUniformWord, h0, h1, h2, h3, h4, h5, h6]
    · intro h; simp [isUniformWord, decodeUniform, sop, need, h0, h1, h2, h3, h4, h5, h6, -Fin.ofNat_eq_cast]
theorem Roundtrip.smov (d : SReg) (a : SReg) : Roundtrip.Statement (.smov d a) := by
  obtain ⟨W, hW⟩ : ∃ W, W = 2550136832 + d.val * 524288 + a.val * 8192 := ⟨_, rfl⟩
  have h0 : fld W 25 6 = 12 := by unfold fld; omega
  have h1 : bitAt W 31 = true := by rw [bitAt_fld]; simp only [fld, beq_eq_decide, decide_eq_true_eq, decide_eq_false_iff_not]; omega
  have h2 : bitAt W 0 = false := by rw [bitAt_fld]; simp only [fld, beq_eq_decide, decide_eq_true_eq, decide_eq_false_iff_not]; omega
  have h3 : fld W 1 6 = 0 := by unfold fld; omega
  have h4 : fld W 7 6 = 0 := by unfold fld; omega
  have h5 : sreg W 19 = d := Fin.ext (by simp only [sreg, Fin.ofNat]; omega)
  have h6 : sreg W 13 = a := Fin.ext (by simp only [sreg, Fin.ofNat]; omega)
  refine word_of_one W (by change [uniWord 0x0C d.val a.val 0] = [W]; simp only [uniWord, hW, List.cons.injEq, and_true, Fin.val_zero]; omega) ?_ ?_ ?_
  · omega
  · simp [litCount, isUniformWord, laneHasX, h0, h1, h2, h3, h4, h5, h6]
  · intro l h
    have hd : decodeUniform W l h = decSmov W l h := by unfold decodeUniform; generalize fld W 25 6 = x at h0; subst h0; rfl
    simp [isUniformWord, hd, decSmov, need, h0, h1, h2, h3, h4, h5, h6, -Fin.ofNat_eq_cast]
theorem Roundtrip.smovLit (d : SReg) (w : Word) : Roundtrip.Statement (.smovLit d w) := by
  obtain ⟨W, hW⟩ : ∃ W, W = 2550136833 + d.val * 524288 := ⟨_, rfl⟩
  have h0 : fld W 25 6 = 12 := by unfold fld; omega
  have h1 : bitAt W 31 = true := by rw [bitAt_fld]; simp only [fld, beq_eq_decide, decide_eq_true_eq, decide_eq_false_iff_not]; omega
  have h2 : bitAt W 0 = true := by rw [bitAt_fld]; simp only [fld, beq_eq_decide, decide_eq_true_eq, decide_eq_false_iff_not]; omega
  have h3 : fld W 13 6 = 0 := by unfold fld; omega
  have h4 : fld W 7 6 = 0 := by unfold fld; omega
  have h5 : fld W 1 6 = 0 := by unfold fld; omega
  have h6 : sreg W 19 = d := Fin.ext (by simp only [sreg, Fin.ofNat]; omega)
  refine word_of_two W (w.toNat) (by change [uniWord 0x0C d.val 0 1, w.toNat] = [W, w.toNat]; simp only [uniWord, hW, List.cons.injEq, and_true, Fin.val_zero]; omega) ?_ (BitVec.isLt _) ?_ ?_
  · omega
  · simp [litCount, isUniformWord, laneHasX, h0, h1, h2, h3, h4, h5, h6]
  · intro h
    have hd : decodeUniform W (w.toNat) h = decSmov W (w.toNat) h := by unfold decodeUniform; generalize fld W 25 6 = x at h0; subst h0; rfl
    simp [isUniformWord, hd, decSmov, need, h0, h1, h2, h3, h4, h5, h6, -Fin.ofNat_eq_cast]
theorem Roundtrip.smovSx (d : SReg) (w : Word) : Roundtrip.Statement (.smovSx d w) := by
  obtain ⟨W, hW⟩ : ∃ W, W = 2550136835 + d.val * 524288 := ⟨_, rfl⟩
  have h0 : fld W 25 6 = 12 := by unfold fld; omega
  have h1 : bitAt W 31 = true := by rw [bitAt_fld]; simp only [fld, beq_eq_decide, decide_eq_true_eq, decide_eq_false_iff_not]; omega
  have h2 : bitAt W 0 = true := by rw [bitAt_fld]; simp only [fld, beq_eq_decide, decide_eq_true_eq, decide_eq_false_iff_not]; omega
  have h3 : fld W 13 6 = 0 := by unfold fld; omega
  have h4 : fld W 7 6 = 0 := by unfold fld; omega
  have h5 : fld W 1 6 = 1 := by unfold fld; omega
  have h6 : sreg W 19 = d := Fin.ext (by simp only [sreg, Fin.ofNat]; omega)
  refine word_of_two W (w.toNat) (by change [uniWord 0x0C d.val 0 3, w.toNat] = [W, w.toNat]; simp only [uniWord, hW, List.cons.injEq, and_true, Fin.val_zero]; omega) ?_ (BitVec.isLt _) ?_ ?_
  · omega
  · simp [litCount, isUniformWord, laneHasX, h0, h1, h2, h3, h4, h5, h6]
  · intro h
    have hd : decodeUniform W (w.toNat) h = decSmov W (w.toNat) h := by unfold decodeUniform; generalize fld W 25 6 = x at h0; subst h0; rfl
    simp [isUniformWord, hd, decSmov, need, h0, h1, h2, h3, h4, h5, h6, -Fin.ofNat_eq_cast]
theorem Roundtrip.smovD (d : SReg) (lo : Word) (hi : Word) : Roundtrip.Statement (.smovD d lo hi) := by
  obtain ⟨W, hW⟩ : ∃ W, W = 2550136837 + d.val * 524288 := ⟨_, rfl⟩
  have h0 : fld W 25 6 = 12 := by unfold fld; omega
  have h1 : bitAt W 31 = true := by rw [bitAt_fld]; simp only [fld, beq_eq_decide, decide_eq_true_eq, decide_eq_false_iff_not]; omega
  have h2 : bitAt W 0 = true := by rw [bitAt_fld]; simp only [fld, beq_eq_decide, decide_eq_true_eq, decide_eq_false_iff_not]; omega
  have h3 : fld W 13 6 = 0 := by unfold fld; omega
  have h4 : fld W 7 6 = 0 := by unfold fld; omega
  have h5 : fld W 1 6 = 2 := by unfold fld; omega
  have h6 : sreg W 19 = d := Fin.ext (by simp only [sreg, Fin.ofNat]; omega)
  refine word_of_three W (lo.toNat) (hi.toNat) (by change [uniWord 0x0C d.val 0 5, lo.toNat, hi.toNat] = [W, lo.toNat, hi.toNat]; simp only [uniWord, hW, List.cons.injEq, and_true, Fin.val_zero]; omega) ?_ (BitVec.isLt _) (BitVec.isLt _) ?_ ?_
  · omega
  · simp [litCount, isUniformWord, laneHasX, h0, h1, h2, h3, h4, h5, h6]
  · have hd : decodeUniform W (lo.toNat) (hi.toNat) = decSmov W (lo.toNat) (hi.toNat) := by unfold decodeUniform; generalize fld W 25 6 = x at h0; subst h0; rfl
    simp [isUniformWord, hd, decSmov, need, h0, h1, h2, h3, h4, h5, h6, -Fin.ofNat_eq_cast]
theorem Roundtrip.saddi (d : SReg) (a : SReg) (imm : BitVec 13) : Roundtrip.Statement (.saddi d a imm) := by
  obtain ⟨W, hW⟩ : ∃ W, W = 2583691264 + d.val * 524288 + a.val * 8192 + imm.toNat * 1 := ⟨_, rfl⟩
  have := imm.isLt
  have h0 : fld W 25 6 = 13 := by unfold fld; omega
  have h1 : bitAt W 31 = true := by rw [bitAt_fld]; simp only [fld, beq_eq_decide, decide_eq_true_eq, decide_eq_false_iff_not]; omega
  have h2 : sreg W 19 = d := Fin.ext (by simp only [sreg, Fin.ofNat]; omega)
  have h3 : sreg W 13 = a := Fin.ext (by simp only [sreg, Fin.ofNat]; omega)
  have h4 : BitVec.ofNat 13 W = imm := BitVec.eq_of_toNat_eq (by simp only [BitVec.toNat_ofNat]; omega)
  refine word_of_one W (by change [uniWord 0x0D d.val a.val imm.toNat] = [W]; simp only [uniWord, hW, List.cons.injEq, and_true, Fin.val_zero]; omega) ?_ ?_ ?_
  · omega
  · simp [litCount, isUniformWord, laneHasX, h0, h1, h2, h3, h4]
  · intro l h
    have hd : decodeUniform W l h = .ok (.saddi (sreg W 19) (sreg W 13) (.ofNat 13 W)) := by unfold decodeUniform; generalize fld W 25 6 = x at h0; subst h0; rfl
    simp [isUniformWord, hd, h0, h1, h2, h3, h4, -Fin.ofNat_eq_cast]
theorem Roundtrip.slea (d : SReg) (a : SReg) (c : Fin 8) (off : BitVec 10) : Roundtrip.Statement (.slea d a c off) := by
  obtain ⟨W, hW⟩ : ∃ W, W = 2617245696 + d.val * 524288 + a.val * 8192 + off.toNat * 8 + c.val * 1 := ⟨_, rfl⟩
  have := off.isLt
  have h0 : fld W 25 6 = 14 := by unfold fld; omega
  have h1 : bitAt W 31 = true := by rw [bitAt_fld]; simp only [fld, beq_eq_decide, decide_eq_true_eq, decide_eq_false_iff_not]; omega
  have h2 : sreg W 19 = d := Fin.ext (by simp only [sreg, Fin.ofNat]; omega)
  have h3 : sreg W 13 = a := Fin.ext (by simp only [sreg, Fin.ofNat]; omega)
  have h4 : Fin.ofNat 8 W = c := Fin.ext (by simp only [Fin.ofNat]; omega)
  have h5 : BitVec.ofNat 10 (W / 8) = off := BitVec.eq_of_toNat_eq (by simp only [BitVec.toNat_ofNat]; omega)
  refine word_of_one W (by change [uniWord 0x0E d.val a.val (off.toNat * 8 + c.val)] = [W]; simp only [uniWord, hW, List.cons.injEq, and_true, Fin.val_zero]; omega) ?_ ?_ ?_
  · omega
  · simp [litCount, isUniformWord, laneHasX, h0, h1, h2, h3, h4, h5]
  · intro l h
    have hd : decodeUniform W l h = .ok (.slea (sreg W 19) (sreg W 13) (Fin.ofNat 8 W) (.ofNat 10 (W / 2 ^ 3))) := by unfold decodeUniform; generalize fld W 25 6 = x at h0; subst h0; rfl
    simp [isUniformWord, hd, h0, h1, h2, h3, h4, h5, -Fin.ofNat_eq_cast]
theorem Roundtrip.voteAny (d : SReg) (p : PReg) : Roundtrip.Statement (.voteAny d p) := by
  obtain ⟨W, hW⟩ : ∃ W, W = 2650800128 + d.val * 524288 + p.val * 1 := ⟨_, rfl⟩
  have h0 : fld W 25 6 = 15 := by unfold fld; omega
  have h1 : bitAt W 31 = true := by rw [bitAt_fld]; simp only [fld, beq_eq_decide, decide_eq_true_eq, decide_eq_false_iff_not]; omega
  have h2 : fld W 9 10 = 0 := by unfold fld; omega
  have h3 : fld W 7 2 = 0 := by unfold fld; omega
  have h4 : sreg W 19 = d := Fin.ext (by simp only [sreg, Fin.ofNat]; omega)
  have h5 : vreg W 0 = p := Fin.ext (by simp only [vreg, Fin.ofNat]; omega)
  refine word_of_one W (by change [uniWord 0x0F d.val 0 p.val] = [W]; simp only [uniWord, hW, List.cons.injEq, and_true, Fin.val_zero]; omega) ?_ ?_ ?_
  · omega
  · simp [litCount, isUniformWord, laneHasX, h0, h1, h2, h3, h4, h5]
  · intro l h
    have hd : decodeUniform W l h = decVote W := by unfold decodeUniform; generalize fld W 25 6 = x at h0; subst h0; rfl
    simp [isUniformWord, hd, decVote, need, h0, h1, h2, h3, h4, h5, -Fin.ofNat_eq_cast]
theorem Roundtrip.voteAll (d : SReg) (p : PReg) : Roundtrip.Statement (.voteAll d p) := by
  obtain ⟨W, hW⟩ : ∃ W, W = 2650800256 + d.val * 524288 + p.val * 1 := ⟨_, rfl⟩
  have h0 : fld W 25 6 = 15 := by unfold fld; omega
  have h1 : bitAt W 31 = true := by rw [bitAt_fld]; simp only [fld, beq_eq_decide, decide_eq_true_eq, decide_eq_false_iff_not]; omega
  have h2 : fld W 9 10 = 0 := by unfold fld; omega
  have h3 : fld W 7 2 = 1 := by unfold fld; omega
  have h4 : sreg W 19 = d := Fin.ext (by simp only [sreg, Fin.ofNat]; omega)
  have h5 : vreg W 0 = p := Fin.ext (by simp only [vreg, Fin.ofNat]; omega)
  refine word_of_one W (by change [uniWord 0x0F d.val 0 (2 ^ 7 + p.val)] = [W]; simp only [uniWord, hW, List.cons.injEq, and_true, Fin.val_zero]; omega) ?_ ?_ ?_
  · omega
  · simp [litCount, isUniformWord, laneHasX, h0, h1, h2, h3, h4, h5]
  · intro l h
    have hd : decodeUniform W l h = decVote W := by unfold decodeUniform; generalize fld W 25 6 = x at h0; subst h0; rfl
    simp [isUniformWord, hd, decVote, need, h0, h1, h2, h3, h4, h5, -Fin.ofNat_eq_cast]
theorem Roundtrip.voteBallot (d : SReg) (p : PReg) : Roundtrip.Statement (.voteBallot d p) := by
  obtain ⟨W, hW⟩ : ∃ W, W = 2650800384 + d.val * 524288 + p.val * 1 := ⟨_, rfl⟩
  have h0 : fld W 25 6 = 15 := by unfold fld; omega
  have h1 : bitAt W 31 = true := by rw [bitAt_fld]; simp only [fld, beq_eq_decide, decide_eq_true_eq, decide_eq_false_iff_not]; omega
  have h2 : fld W 9 10 = 0 := by unfold fld; omega
  have h3 : fld W 7 2 = 2 := by unfold fld; omega
  have h4 : sreg W 19 = d := Fin.ext (by simp only [sreg, Fin.ofNat]; omega)
  have h5 : vreg W 0 = p := Fin.ext (by simp only [vreg, Fin.ofNat]; omega)
  refine word_of_one W (by change [uniWord 0x0F d.val 0 (2 * 2 ^ 7 + p.val)] = [W]; simp only [uniWord, hW, List.cons.injEq, and_true, Fin.val_zero]; omega) ?_ ?_ ?_
  · omega
  · simp [litCount, isUniformWord, laneHasX, h0, h1, h2, h3, h4, h5]
  · intro l h
    have hd : decodeUniform W l h = decVote W := by unfold decodeUniform; generalize fld W 25 6 = x at h0; subst h0; rfl
    simp [isUniformWord, hd, decVote, need, h0, h1, h2, h3, h4, h5, -Fin.ofNat_eq_cast]
theorem Roundtrip.rdln (d : SReg) (v : VReg) (lane : Fin 32) : Roundtrip.Statement (.rdln d v lane) := by
  obtain ⟨W, hW⟩ : ∃ W, W = 2684354560 + d.val * 524288 + lane.val * 128 + v.val * 1 := ⟨_, rfl⟩
  have h0 : fld W 25 6 = 16 := by unfold fld; omega
  have h1 : bitAt W 31 = true := by rw [bitAt_fld]; simp only [fld, beq_eq_decide, decide_eq_true_eq, decide_eq_false_iff_not]; omega
  have h2 : bitAt W 12 = false := by rw [bitAt_fld]; simp only [fld, beq_eq_decide, decide_eq_true_eq, decide_eq_false_iff_not]; omega
  have h3 : fld W 13 6 = 0 := by unfold fld; omega
  have h4 : sreg W 19 = d := Fin.ext (by simp only [sreg, Fin.ofNat]; omega)
  have h5 : vreg W 0 = v := Fin.ext (by simp only [vreg, Fin.ofNat]; omega)
  have h6 : Fin.ofNat 32 (W / 128) = lane := Fin.ext (by simp only [Fin.ofNat]; omega)
  refine word_of_one W (by change [uniWord 0x10 d.val 0 (lane.val * 2 ^ 7 + v.val)] = [W]; simp only [uniWord, hW, List.cons.injEq, and_true, Fin.val_zero]; omega) ?_ ?_ ?_
  · omega
  · simp [litCount, isUniformWord, laneHasX, h0, h1, h2, h3, h4, h5, h6]
  · intro l h
    have hd : decodeUniform W l h = decRdln W := by unfold decodeUniform; generalize fld W 25 6 = x at h0; subst h0; rfl
    simp [isUniformWord, hd, decRdln, need, h0, h1, h2, h3, h4, h5, h6, -Fin.ofNat_eq_cast]
theorem Roundtrip.rdlnReg (d : SReg) (v : VReg) (a : SReg) : Roundtrip.Statement (.rdlnReg d v a) := by
  obtain ⟨W, hW⟩ : ∃ W, W = 2684358656 + d.val * 524288 + a.val * 8192 + v.val * 1 := ⟨_, rfl⟩
  have h0 : fld W 25 6 = 16 := by unfold fld; omega
  have h1 : bitAt W 31 = true := by rw [bitAt_fld]; simp only [fld, beq_eq_decide, decide_eq_true_eq, decide_eq_false_iff_not]; omega
  have h2 : bitAt W 12 = true := by rw [bitAt_fld]; simp only [fld, beq_eq_decide, decide_eq_true_eq, decide_eq_false_iff_not]; omega
  have h3 : fld W 7 5 = 0 := by unfold fld; omega
  have h4 : sreg W 19 = d := Fin.ext (by simp only [sreg, Fin.ofNat]; omega)
  have h5 : vreg W 0 = v := Fin.ext (by simp only [vreg, Fin.ofNat]; omega)
  have h6 : sreg W 13 = a := Fin.ext (by simp only [sreg, Fin.ofNat]; omega)
  refine word_of_one W (by change [uniWord 0x10 d.val a.val (2 ^ 12 + v.val)] = [W]; simp only [uniWord, hW, List.cons.injEq, and_true, Fin.val_zero]; omega) ?_ ?_ ?_
  · omega
  · simp [litCount, isUniformWord, laneHasX, h0, h1, h2, h3, h4, h5, h6]
  · intro l h
    have hd : decodeUniform W l h = decRdln W := by unfold decodeUniform; generalize fld W 25 6 = x at h0; subst h0; rfl
    simp [isUniformWord, hd, decRdln, need, h0, h1, h2, h3, h4, h5, h6, -Fin.ofNat_eq_cast]
theorem Roundtrip.bru (c : UCond) (a : SReg) (off : BitVec 16) : Roundtrip.Statement (.bru c a off) := by
  obtain ⟨W, hW⟩ : ∃ W, W = 2717908992 + c.code * 4194304 + a.val * 65536 + off.toNat * 1 := ⟨_, rfl⟩
  have := UCond.code_lt c
  have := off.isLt
  have h0 : fld W 25 6 = 17 := by unfold fld; omega
  have h1 : bitAt W 31 = true := by rw [bitAt_fld]; simp only [fld, beq_eq_decide, decide_eq_true_eq, decide_eq_false_iff_not]; omega
  have h2 : fld W 22 3 = c.code := by unfold fld; omega
  have h3 : sreg W 16 = a := Fin.ext (by simp only [sreg, Fin.ofNat]; omega)
  have h4 : BitVec.ofNat 16 W = off := BitVec.eq_of_toNat_eq (by simp only [BitVec.toNat_ofNat]; omega)
  refine word_of_one W (by change [2 ^ 31 + 0x11 * 2 ^ 25 + c.code * 2 ^ 22 + a.val * 2 ^ 16 + off.toNat] = [W]; simp only [hW, List.cons.injEq, and_true, Fin.val_zero]; omega) ?_ ?_ ?_
  · omega
  · simp [litCount, isUniformWord, laneHasX, h0, h1, h2, h3, h4]
  · intro l h
    have hd : decodeUniform W l h = (do let c ← UCond.ofCode (fld W 22 3); .ok (.bru c (sreg W 16) (.ofNat 16 W))) := by unfold decodeUniform; generalize fld W 25 6 = x at h0; subst h0; rfl
    simp [isUniformWord, hd, h0, h1, h2, h3, h4, -Fin.ofNat_eq_cast]
theorem Roundtrip.brec (d : BReg) (a : SReg) : Roundtrip.Statement (.brec d a) := by
  obtain ⟨W, hW⟩ : ∃ W, W = 2751463424 + d.val * 524288 + a.val * 8192 := ⟨_, rfl⟩
  have h0 : fld W 25 6 = 18 := by unfold fld; omega
  have h1 : bitAt W 31 = true := by rw [bitAt_fld]; simp only [fld, beq_eq_decide, decide_eq_true_eq, decide_eq_false_iff_not]; omega
  have h2 : fld W 23 2 = 0 := by unfold fld; omega
  have h3 : fld W 0 13 = 0 := by unfold fld; omega
  have h4 : Fin.ofNat 16 (W / 524288) = d := Fin.ext (by simp only [Fin.ofNat]; omega)
  have h5 : sreg W 13 = a := Fin.ext (by simp only [sreg, Fin.ofNat]; omega)
  refine word_of_one W (by change [uniWord 0x12 d.val a.val 0] = [W]; simp only [uniWord, hW, List.cons.injEq, and_true, Fin.val_zero]; omega) ?_ ?_ ?_
  · omega
  · simp [litCount, isUniformWord, laneHasX, h0, h1, h2, h3, h4, h5]
  · intro l h
    have hd : decodeUniform W l h = need (fld W 23 2 == 0 && fld W 0 13 == 0) .unusedField (.ok (.brec (Fin.ofNat 16 (W / 2 ^ 19)) (sreg W 13))) := by unfold decodeUniform; generalize fld W 25 6 = x at h0; subst h0; rfl
    simp [isUniformWord, hd, need, h0, h1, h2, h3, h4, h5, -Fin.ofNat_eq_cast]
theorem Roundtrip.cbar (id : Fin 16) (a : SReg) : Roundtrip.Statement (.cbar id a) := by
  obtain ⟨W, hW⟩ : ∃ W, W = 2818572288 + a.val * 8192 + id.val * 1 := ⟨_, rfl⟩
  have h0 : fld W 25 6 = 20 := by unfold fld; omega
  have h1 : bitAt W 31 = true := by rw [bitAt_fld]; simp only [fld, beq_eq_decide, decide_eq_true_eq, decide_eq_false_iff_not]; omega
  have h2 : fld W 4 9 = 0 := by unfold fld; omega
  have h3 : fld W 19 6 = 0 := by unfold fld; omega
  have h4 : Fin.ofNat 16 W = id := Fin.ext (by simp only [Fin.ofNat]; omega)
  have h5 : sreg W 13 = a := Fin.ext (by simp only [sreg, Fin.ofNat]; omega)
  refine word_of_one W (by change [uniWord 0x14 0 a.val id.val] = [W]; simp only [uniWord, hW, List.cons.injEq, and_true, Fin.val_zero]; omega) ?_ ?_ ?_
  · omega
  · simp [litCount, isUniformWord, laneHasX, h0, h1, h2, h3, h4, h5]
  · intro l h
    have hd : decodeUniform W l h = need (fld W 4 9 == 0 && fld W 19 6 == 0) .unusedField (.ok (.cbar (Fin.ofNat 16 W) (sreg W 13))) := by unfold decodeUniform; generalize fld W 25 6 = x at h0; subst h0; rfl
    simp [isUniformWord, hd, need, h0, h1, h2, h3, h4, h5, -Fin.ofNat_eq_cast]
theorem Roundtrip.waitv (n : BReg) (sc : Scope) (cc : WCond) (pr : Bool) (d : SReg) (a : SReg) : Roundtrip.Statement (.waitv n sc cc pr d a) := by
  obtain ⟨W, hW⟩ : ∃ W, W = 2852126720 + d.val * 524288 + a.val * 8192 + bitVal pr * 512 + cc.code * 128 + sc.code * 16 + n.val * 1 := ⟨_, rfl⟩
  have := bitVal_lt pr
  have := WCond.code_lt cc
  have := Scope.code_lt sc
  have h0 : fld W 25 6 = 21 := by unfold fld; omega
  have h1 : bitAt W 31 = true := by rw [bitAt_fld]; simp only [fld, beq_eq_decide, decide_eq_true_eq, decide_eq_false_iff_not]; omega
  have h2 : fld W 10 3 = 0 := by unfold fld; omega
  have h3 : fld W 4 3 = sc.code := by unfold fld; omega
  have h4 : fld W 7 2 = cc.code := by unfold fld; omega
  have h5 : Fin.ofNat 16 W = n := Fin.ext (by simp only [Fin.ofNat]; omega)
  have h6 : bitAt W 9 = pr := bitAt_of (by unfold fld; omega)
  have h7 : sreg W 19 = d := Fin.ext (by simp only [sreg, Fin.ofNat]; omega)
  have h8 : sreg W 13 = a := Fin.ext (by simp only [sreg, Fin.ofNat]; omega)
  refine word_of_one W (by change [uniWord 0x15 d.val a.val (bitVal pr * 2 ^ 9 + cc.code * 2 ^ 7 + sc.code * 2 ^ 4 + n.val)] = [W]; simp only [uniWord, hW, List.cons.injEq, and_true, Fin.val_zero]; omega) ?_ ?_ ?_
  · omega
  · simp [litCount, isUniformWord, laneHasX, h0, h1, h2, h3, h4, h5, h6, h7, h8]
  · intro l h
    have hd : decodeUniform W l h = decWaitv W := by unfold decodeUniform; generalize fld W 25 6 = x at h0; subst h0; rfl
    simp [isUniformWord, hd, decWaitv, need, h0, h1, h2, h3, h4, h5, h6, h7, h8, -Fin.ofNat_eq_cast]
theorem Roundtrip.fenceAcq (e : Bool) (sc : Scope) : Roundtrip.Statement (.fenceAcq e sc) := by
  obtain ⟨W, hW⟩ : ∃ W, W = 2885681152 + bitVal e * 32 + sc.code * 1 := ⟨_, rfl⟩
  have := bitVal_lt e
  have := Scope.code_lt sc
  have h0 : fld W 25 6 = 22 := by unfold fld; omega
  have h1 : bitAt W 31 = true := by rw [bitAt_fld]; simp only [fld, beq_eq_decide, decide_eq_true_eq, decide_eq_false_iff_not]; omega
  have h2 : fld W 6 19 = 0 := by unfold fld; omega
  have h3 : fld W 0 3 = sc.code := by unfold fld; omega
  have h4 : fld W 3 2 = 0 := by unfold fld; omega
  have h5 : bitAt W 5 = e := bitAt_of (by unfold fld; omega)
  refine word_of_one W (by change [uniWord 0x16 0 0 (bitVal e * 2 ^ 5 + sc.code)] = [W]; simp only [uniWord, hW, List.cons.injEq, and_true, Fin.val_zero]; omega) ?_ ?_ ?_
  · omega
  · simp [litCount, isUniformWord, laneHasX, h0, h1, h2, h3, h4, h5]
  · intro l h
    have hd : decodeUniform W l h = decFence W := by unfold decodeUniform; generalize fld W 25 6 = x at h0; subst h0; rfl
    simp [isUniformWord, hd, decFence, need, h0, h1, h2, h3, h4, h5, -Fin.ofNat_eq_cast]
theorem Roundtrip.fenceRel (e : Bool) (sc : Scope) : Roundtrip.Statement (.fenceRel e sc) := by
  obtain ⟨W, hW⟩ : ∃ W, W = 2885681160 + bitVal e * 32 + sc.code * 1 := ⟨_, rfl⟩
  have := bitVal_lt e
  have := Scope.code_lt sc
  have h0 : fld W 25 6 = 22 := by unfold fld; omega
  have h1 : bitAt W 31 = true := by rw [bitAt_fld]; simp only [fld, beq_eq_decide, decide_eq_true_eq, decide_eq_false_iff_not]; omega
  have h2 : fld W 6 19 = 0 := by unfold fld; omega
  have h3 : fld W 0 3 = sc.code := by unfold fld; omega
  have h4 : fld W 3 2 = 1 := by unfold fld; omega
  have h5 : bitAt W 5 = e := bitAt_of (by unfold fld; omega)
  refine word_of_one W (by change [uniWord 0x16 0 0 (bitVal e * 2 ^ 5 + 8 + sc.code)] = [W]; simp only [uniWord, hW, List.cons.injEq, and_true, Fin.val_zero]; omega) ?_ ?_ ?_
  · omega
  · simp [litCount, isUniformWord, laneHasX, h0, h1, h2, h3, h4, h5]
  · intro l h
    have hd : decodeUniform W l h = decFence W := by unfold decodeUniform; generalize fld W 25 6 = x at h0; subst h0; rfl
    simp [isUniformWord, hd, decFence, need, h0, h1, h2, h3, h4, h5, -Fin.ofNat_eq_cast]
theorem Roundtrip.fenceFull (e : Bool) (sc : Scope) : Roundtrip.Statement (.fenceFull e sc) := by
  obtain ⟨W, hW⟩ : ∃ W, W = 2885681168 + bitVal e * 32 + sc.code * 1 := ⟨_, rfl⟩
  have := bitVal_lt e
  have := Scope.code_lt sc
  have h0 : fld W 25 6 = 22 := by unfold fld; omega
  have h1 : bitAt W 31 = true := by rw [bitAt_fld]; simp only [fld, beq_eq_decide, decide_eq_true_eq, decide_eq_false_iff_not]; omega
  have h2 : fld W 6 19 = 0 := by unfold fld; omega
  have h3 : fld W 0 3 = sc.code := by unfold fld; omega
  have h4 : fld W 3 2 = 2 := by unfold fld; omega
  have h5 : bitAt W 5 = e := bitAt_of (by unfold fld; omega)
  refine word_of_one W (by change [uniWord 0x16 0 0 (bitVal e * 2 ^ 5 + 16 + sc.code)] = [W]; simp only [uniWord, hW, List.cons.injEq, and_true, Fin.val_zero]; omega) ?_ ?_ ?_
  · omega
  · simp [litCount, isUniformWord, laneHasX, h0, h1, h2, h3, h4, h5]
  · intro l h
    have hd : decodeUniform W l h = decFence W := by unfold decodeUniform; generalize fld W 25 6 = x at h0; subst h0; rfl
    simp [isUniformWord, hd, decFence, need, h0, h1, h2, h3, h4, h5, -Fin.ofNat_eq_cast]
theorem Roundtrip.cpy (t : Tag) (a : SReg) : Roundtrip.Statement (.cpy t a) :=
  se_ok 23 (fun w _ _ (h : fld w 25 6 = 23) => by unfold decodeUniform; generalize fld w 25 6 = x at h; subst h; rfl) t a rfl
theorem Roundtrip.cpym (t : Tag) (a : SReg) : Roundtrip.Statement (.cpym t a) :=
  se_ok 24 (fun w _ _ (h : fld w 25 6 = 24) => by unfold decodeUniform; generalize fld w 25 6 = x at h; subst h; rfl) t a rfl
theorem Roundtrip.twaitAll (a : SReg) : Roundtrip.Statement (.twaitAll a) := by
  obtain ⟨W, hW⟩ : ∃ W, W = 2986344448 + a.val * 8192 := ⟨_, rfl⟩
  have h0 : fld W 25 6 = 25 := by unfold fld; omega
  have h1 : bitAt W 31 = true := by rw [bitAt_fld]; simp only [fld, beq_eq_decide, decide_eq_true_eq, decide_eq_false_iff_not]; omega
  have h2 : fld W 1 12 = 0 := by unfold fld; omega
  have h3 : fld W 19 6 = 0 := by unfold fld; omega
  have h4 : bitAt W 0 = false := by rw [bitAt_fld]; simp only [fld, beq_eq_decide, decide_eq_true_eq, decide_eq_false_iff_not]; omega
  have h5 : sreg W 13 = a := Fin.ext (by simp only [sreg, Fin.ofNat]; omega)
  refine word_of_one W (by change [uniWord 0x19 0 a.val 0] = [W]; simp only [uniWord, hW, List.cons.injEq, and_true, Fin.val_zero]; omega) ?_ ?_ ?_
  · omega
  · simp [litCount, isUniformWord, laneHasX, h0, h1, h2, h3, h4, h5]
  · intro l h
    have hd : decodeUniform W l h = decTwait W := by unfold decodeUniform; generalize fld W 25 6 = x at h0; subst h0; rfl
    simp [isUniformWord, hd, decTwait, need, h0, h1, h2, h3, h4, h5, -Fin.ofNat_eq_cast]
theorem Roundtrip.twaitAny (a : SReg) : Roundtrip.Statement (.twaitAny a) := by
  obtain ⟨W, hW⟩ : ∃ W, W = 2986344449 + a.val * 8192 := ⟨_, rfl⟩
  have h0 : fld W 25 6 = 25 := by unfold fld; omega
  have h1 : bitAt W 31 = true := by rw [bitAt_fld]; simp only [fld, beq_eq_decide, decide_eq_true_eq, decide_eq_false_iff_not]; omega
  have h2 : fld W 1 12 = 0 := by unfold fld; omega
  have h3 : fld W 19 6 = 0 := by unfold fld; omega
  have h4 : bitAt W 0 = true := by rw [bitAt_fld]; simp only [fld, beq_eq_decide, decide_eq_true_eq, decide_eq_false_iff_not]; omega
  have h5 : sreg W 13 = a := Fin.ext (by simp only [sreg, Fin.ofNat]; omega)
  refine word_of_one W (by change [uniWord 0x19 0 a.val 1] = [W]; simp only [uniWord, hW, List.cons.injEq, and_true, Fin.val_zero]; omega) ?_ ?_ ?_
  · omega
  · simp [litCount, isUniformWord, laneHasX, h0, h1, h2, h3, h4, h5]
  · intro l h
    have hd : decodeUniform W l h = decTwait W := by unfold decodeUniform; generalize fld W 25 6 = x at h0; subst h0; rfl
    simp [isUniformWord, hd, decTwait, need, h0, h1, h2, h3, h4, h5, -Fin.ofNat_eq_cast]
theorem Roundtrip.tfirst (d : SReg) (a : SReg) : Roundtrip.Statement (.tfirst d a) :=
  syDA_ok 26 (fun w _ _ (h : fld w 25 6 = 26) => by unfold decodeUniform; generalize fld w 25 6 = x at h; subst h; rfl) d a rfl
theorem Roundtrip.tclr (a : SReg) : Roundtrip.Statement (.tclr a) :=
  syA_ok 27 (fun w _ _ (h : fld w 25 6 = 27) => by unfold decodeUniform; generalize fld w 25 6 = x at h; subst h; rfl) a rfl
theorem Roundtrip.chwaitAll (t : Tag) (w : Fin 16) (d : SReg) (a : SReg) : Roundtrip.Statement (.chwaitAll t w d a) := by
  obtain ⟨W, hW⟩ : ∃ W, W = 3087007744 + d.val * 524288 + a.val * 8192 + w.val * 64 + t.val * 1 := ⟨_, rfl⟩
  have h0 : fld W 25 6 = 28 := by unfold fld; omega
  have h1 : bitAt W 31 = true := by rw [bitAt_fld]; simp only [fld, beq_eq_decide, decide_eq_true_eq, decide_eq_false_iff_not]; omega
  have h2 : fld W 11 2 = 0 := by unfold fld; omega
  have h3 : bitAt W 10 = false := by rw [bitAt_fld]; simp only [fld, beq_eq_decide, decide_eq_true_eq, decide_eq_false_iff_not]; omega
  have h4 : sreg W 0 = t := Fin.ext (by simp only [sreg, Fin.ofNat]; omega)
  have h5 : Fin.ofNat 16 (W / 64) = w := Fin.ext (by simp only [Fin.ofNat]; omega)
  have h6 : sreg W 19 = d := Fin.ext (by simp only [sreg, Fin.ofNat]; omega)
  have h7 : sreg W 13 = a := Fin.ext (by simp only [sreg, Fin.ofNat]; omega)
  refine word_of_one W (by change [uniWord 0x1C d.val a.val (w.val * 2 ^ 6 + t.val)] = [W]; simp only [uniWord, hW, List.cons.injEq, and_true, Fin.val_zero]; omega) ?_ ?_ ?_
  · omega
  · simp [litCount, isUniformWord, laneHasX, h0, h1, h2, h3, h4, h5, h6, h7]
  · intro l h
    have hd : decodeUniform W l h = decChwait W := by unfold decodeUniform; generalize fld W 25 6 = x at h0; subst h0; rfl
    simp [isUniformWord, hd, decChwait, need, h0, h1, h2, h3, h4, h5, h6, h7, -Fin.ofNat_eq_cast]
theorem Roundtrip.chwaitAny (t : Tag) (w : Fin 16) (d : SReg) (a : SReg) : Roundtrip.Statement (.chwaitAny t w d a) := by
  obtain ⟨W, hW⟩ : ∃ W, W = 3087008768 + d.val * 524288 + a.val * 8192 + w.val * 64 + t.val * 1 := ⟨_, rfl⟩
  have h0 : fld W 25 6 = 28 := by unfold fld; omega
  have h1 : bitAt W 31 = true := by rw [bitAt_fld]; simp only [fld, beq_eq_decide, decide_eq_true_eq, decide_eq_false_iff_not]; omega
  have h2 : fld W 11 2 = 0 := by unfold fld; omega
  have h3 : bitAt W 10 = true := by rw [bitAt_fld]; simp only [fld, beq_eq_decide, decide_eq_true_eq, decide_eq_false_iff_not]; omega
  have h4 : sreg W 0 = t := Fin.ext (by simp only [sreg, Fin.ofNat]; omega)
  have h5 : Fin.ofNat 16 (W / 64) = w := Fin.ext (by simp only [Fin.ofNat]; omega)
  have h6 : sreg W 19 = d := Fin.ext (by simp only [sreg, Fin.ofNat]; omega)
  have h7 : sreg W 13 = a := Fin.ext (by simp only [sreg, Fin.ofNat]; omega)
  refine word_of_one W (by change [uniWord 0x1C d.val a.val (2 ^ 10 + w.val * 2 ^ 6 + t.val)] = [W]; simp only [uniWord, hW, List.cons.injEq, and_true, Fin.val_zero]; omega) ?_ ?_ ?_
  · omega
  · simp [litCount, isUniformWord, laneHasX, h0, h1, h2, h3, h4, h5, h6, h7]
  · intro l h
    have hd : decodeUniform W l h = decChwait W := by unfold decodeUniform; generalize fld W 25 6 = x at h0; subst h0; rfl
    simp [isUniformWord, hd, decChwait, need, h0, h1, h2, h3, h4, h5, h6, h7, -Fin.ofNat_eq_cast]
theorem Roundtrip.schadv (k : BitVec 13) : Roundtrip.Statement (.schadv k) := by
  obtain ⟨W, hW⟩ : ∃ W, W = 3187671040 + k.toNat * 1 := ⟨_, rfl⟩
  have := k.isLt
  have h0 : fld W 25 6 = 31 := by unfold fld; omega
  have h1 : bitAt W 31 = true := by rw [bitAt_fld]; simp only [fld, beq_eq_decide, decide_eq_true_eq, decide_eq_false_iff_not]; omega
  have h2 : fld W 13 12 = 0 := by unfold fld; omega
  have h3 : BitVec.ofNat 13 W = k := BitVec.eq_of_toNat_eq (by simp only [BitVec.toNat_ofNat]; omega)
  refine word_of_one W (by change [uniWord 0x1F 0 0 k.toNat] = [W]; simp only [uniWord, hW, List.cons.injEq, and_true, Fin.val_zero]; omega) ?_ ?_ ?_
  · omega
  · simp [litCount, isUniformWord, laneHasX, h0, h1, h2, h3]
  · intro l h
    have hd : decodeUniform W l h = need (fld W 13 12 == 0) .unusedField (.ok (.schadv (.ofNat 13 W))) := by unfold decodeUniform; generalize fld W 25 6 = x at h0; subst h0; rfl
    simp [isUniformWord, hd, need, h0, h1, h2, h3, -Fin.ofNat_eq_cast]
theorem Roundtrip.coll (t : Tag) (a : SReg) : Roundtrip.Statement (.coll t a) :=
  se_ok 32 (fun w _ _ (h : fld w 25 6 = 32) => by unfold decodeUniform; generalize fld w 25 6 = x at h; subst h; rfl) t a rfl
theorem Roundtrip.collw (g : Fin 256) : Roundtrip.Statement (.collw g) := by
  obtain ⟨W, hW⟩ : ∃ W, W = 3254779904 + g.val * 1 := ⟨_, rfl⟩
  have h0 : fld W 25 6 = 33 := by unfold fld; omega
  have h1 : bitAt W 31 = true := by rw [bitAt_fld]; simp only [fld, beq_eq_decide, decide_eq_true_eq, decide_eq_false_iff_not]; omega
  have h2 : fld W 8 17 = 0 := by unfold fld; omega
  have h3 : Fin.ofNat 256 W = g := Fin.ext (by simp only [Fin.ofNat]; omega)
  refine word_of_one W (by change [uniWord 0x21 0 0 g.val] = [W]; simp only [uniWord, hW, List.cons.injEq, and_true, Fin.val_zero]; omega) ?_ ?_ ?_
  · omega
  · simp [litCount, isUniformWord, laneHasX, h0, h1, h2, h3]
  · intro l h
    have hd : decodeUniform W l h = need (fld W 8 17 == 0) .unusedField (.ok (.collw (Fin.ofNat 256 W))) := by unfold decodeUniform; generalize fld W 25 6 = x at h0; subst h0; rfl
    simp [isUniformWord, hd, need, h0, h1, h2, h3, -Fin.ofNat_eq_cast]
theorem Roundtrip.mma (sh : Shape) (d : AReg) (a : SReg) (b : SReg) (fa : FSlot) (fb : FSlot) : Roundtrip.Statement (.mma sh d a b fa fb) := by
  obtain ⟨W, hW⟩ : ∃ W, W = 3288334336 + d.val * 2097152 + a.val * 32768 + b.val * 512 + fa.val * 64 + fb.val * 8 + sh.code * 1 := ⟨_, rfl⟩
  have := Shape.code_lt sh
  have h0 : fld W 25 6 = 34 := by unfold fld; omega
  have h1 : bitAt W 31 = true := by rw [bitAt_fld]; simp only [fld, beq_eq_decide, decide_eq_true_eq, decide_eq_false_iff_not]; omega
  have h2 : fld W 0 3 = sh.code := by unfold fld; omega
  have h3 : Fin.ofNat 16 (W / 2097152) = d := Fin.ext (by simp only [Fin.ofNat]; omega)
  have h4 : sreg W 15 = a := Fin.ext (by simp only [sreg, Fin.ofNat]; omega)
  have h5 : sreg W 9 = b := Fin.ext (by simp only [sreg, Fin.ofNat]; omega)
  have h6 : Fin.ofNat 8 (W / 64) = fa := Fin.ext (by simp only [Fin.ofNat]; omega)
  have h7 : Fin.ofNat 8 (W / 8) = fb := Fin.ext (by simp only [Fin.ofNat]; omega)
  refine word_of_one W (by change [2 ^ 31 + 0x22 * 2 ^ 25 + d.val * 2 ^ 21 + a.val * 2 ^ 15 + b.val * 2 ^ 9 + fa.val * 2 ^ 6 + fb.val * 2 ^ 3 + sh.code] = [W]; simp only [hW, List.cons.injEq, and_true, Fin.val_zero]; omega) ?_ ?_ ?_
  · omega
  · simp [litCount, isUniformWord, laneHasX, h0, h1, h2, h3, h4, h5, h6, h7]
  · intro l h
    have hd : decodeUniform W l h = decMma W := by unfold decodeUniform; generalize fld W 25 6 = x at h0; subst h0; rfl
    simp [isUniformWord, hd, decMma, h0, h1, h2, h3, h4, h5, h6, h7, -Fin.ofNat_eq_cast]
theorem Roundtrip.mml (t : Tag) (a : SReg) : Roundtrip.Statement (.mml t a) :=
  se_ok 35 (fun w _ _ (h : fld w 25 6 = 35) => by unfold decodeUniform; generalize fld w 25 6 = x at h; subst h; rfl) t a rfl
theorem Roundtrip.mmck (t : Tag) (a : SReg) : Roundtrip.Statement (.mmck t a) :=
  se_ok 36 (fun w _ _ (h : fld w 25 6 = 36) => by unfold decodeUniform; generalize fld w 25 6 = x at h; subst h; rfl) t a rfl
theorem Roundtrip.mzero (d : AReg) : Roundtrip.Statement (.mzero d) := by
  obtain ⟨W, hW⟩ : ∃ W, W = 3388997632 + d.val * 524288 := ⟨_, rfl⟩
  have h0 : fld W 25 6 = 37 := by unfold fld; omega
  have h1 : bitAt W 31 = true := by rw [bitAt_fld]; simp only [fld, beq_eq_decide, decide_eq_true_eq, decide_eq_false_iff_not]; omega
  have h2 : fld W 23 2 = 0 := by unfold fld; omega
  have h3 : fld W 0 19 = 0 := by unfold fld; omega
  have h4 : Fin.ofNat 16 (W / 524288) = d := Fin.ext (by simp only [Fin.ofNat]; omega)
  refine word_of_one W (by change [uniWord 0x25 d.val 0 0] = [W]; simp only [uniWord, hW, List.cons.injEq, and_true, Fin.val_zero]; omega) ?_ ?_ ?_
  · omega
  · simp [litCount, isUniformWord, laneHasX, h0, h1, h2, h3, h4]
  · intro l h
    have hd : decodeUniform W l h = need (fld W 23 2 == 0 && fld W 0 19 == 0) .unusedField (.ok (.mzero (Fin.ofNat 16 (W / 2 ^ 19)))) := by unfold decodeUniform; generalize fld W 25 6 = x at h0; subst h0; rfl
    simp [isUniformWord, hd, need, h0, h1, h2, h3, h4, -Fin.ofNat_eq_cast]
theorem Roundtrip.mlda (sh : Shape) (t : TileType) (d : AReg) (a : SReg) : Roundtrip.Statement (.mlda sh t d a) := by
  obtain ⟨W, hW⟩ : ∃ W, W = 3422552064 + d.val * 524288 + a.val * 8192 + t.code * 2 + sh.code * 1 := ⟨_, rfl⟩
  have := TileType.code_lt t
  have := Shape.code_lt sh
  have h0 : fld W 25 6 = 38 := by unfold fld; omega
  have h1 : bitAt W 31 = true := by rw [bitAt_fld]; simp only [fld, beq_eq_decide, decide_eq_true_eq, decide_eq_false_iff_not]; omega
  have h2 : fld W 23 2 = 0 := by unfold fld; omega
  have h3 : fld W 3 10 = 0 := by unfold fld; omega
  have h4 : fld W 0 1 = sh.code := by unfold fld; omega
  have h5 : fld W 1 2 = t.code := by unfold fld; omega
  have h6 : Fin.ofNat 16 (W / 524288) = d := Fin.ext (by simp only [Fin.ofNat]; omega)
  have h7 : sreg W 13 = a := Fin.ext (by simp only [sreg, Fin.ofNat]; omega)
  refine word_of_one W (by change [uniWord 0x26 d.val a.val (t.code * 2 + sh.code)] = [W]; simp only [uniWord, hW, List.cons.injEq, and_true, Fin.val_zero]; omega) ?_ ?_ ?_
  · omega
  · simp [litCount, isUniformWord, laneHasX, h0, h1, h2, h3, h4, h5, h6, h7]
  · intro l h
    have hd : decodeUniform W l h = decMlda W := by unfold decodeUniform; generalize fld W 25 6 = x at h0; subst h0; rfl
    simp [isUniformWord, hd, decMlda, need, h0, h1, h2, h3, h4, h5, h6, h7, -Fin.ofNat_eq_cast]
theorem Roundtrip.msta (sh : Shape) (f : FSlot) (d : AReg) (a : SReg) : Roundtrip.Statement (.msta sh f d a) := by
  obtain ⟨W, hW⟩ : ∃ W, W = 3456106496 + d.val * 524288 + a.val * 8192 + f.val * 2 + sh.code * 1 := ⟨_, rfl⟩
  have := Shape.code_lt sh
  have h0 : fld W 25 6 = 39 := by unfold fld; omega
  have h1 : bitAt W 31 = true := by rw [bitAt_fld]; simp only [fld, beq_eq_decide, decide_eq_true_eq, decide_eq_false_iff_not]; omega
  have h2 : fld W 23 2 = 0 := by unfold fld; omega
  have h3 : fld W 4 9 = 0 := by unfold fld; omega
  have h4 : fld W 0 1 = sh.code := by unfold fld; omega
  have h5 : Fin.ofNat 8 (W / 2) = f := Fin.ext (by simp only [Fin.ofNat]; omega)
  have h6 : Fin.ofNat 16 (W / 524288) = d := Fin.ext (by simp only [Fin.ofNat]; omega)
  have h7 : sreg W 13 = a := Fin.ext (by simp only [sreg, Fin.ofNat]; omega)
  refine word_of_one W (by change [uniWord 0x27 d.val a.val (f.val * 2 + sh.code)] = [W]; simp only [uniWord, hW, List.cons.injEq, and_true, Fin.val_zero]; omega) ?_ ?_ ?_
  · omega
  · simp [litCount, isUniformWord, laneHasX, h0, h1, h2, h3, h4, h5, h6, h7]
  · intro l h
    have hd : decodeUniform W l h = decMsta W := by unfold decodeUniform; generalize fld W 25 6 = x at h0; subst h0; rfl
    simp [isUniformWord, hd, decMsta, need, h0, h1, h2, h3, h4, h5, h6, h7, -Fin.ofNat_eq_cast]
theorem Roundtrip.mscl (sh : Shape) (d : AReg) (a : SReg) : Roundtrip.Statement (.mscl sh d a) := by
  obtain ⟨W, hW⟩ : ∃ W, W = 3489660928 + d.val * 524288 + a.val * 8192 + sh.code * 1 := ⟨_, rfl⟩
  have := Shape.code_lt sh
  have h0 : fld W 25 6 = 40 := by unfold fld; omega
  have h1 : bitAt W 31 = true := by rw [bitAt_fld]; simp only [fld, beq_eq_decide, decide_eq_true_eq, decide_eq_false_iff_not]; omega
  have h2 : fld W 23 2 = 0 := by unfold fld; omega
  have h3 : fld W 1 12 = 0 := by unfold fld; omega
  have h4 : fld W 0 1 = sh.code := by unfold fld; omega
  have h5 : Fin.ofNat 16 (W / 524288) = d := Fin.ext (by simp only [Fin.ofNat]; omega)
  have h6 : sreg W 13 = a := Fin.ext (by simp only [sreg, Fin.ofNat]; omega)
  refine word_of_one W (by change [uniWord 0x28 d.val a.val sh.code] = [W]; simp only [uniWord, hW, List.cons.injEq, and_true, Fin.val_zero]; omega) ?_ ?_ ?_
  · omega
  · simp [litCount, isUniformWord, laneHasX, h0, h1, h2, h3, h4, h5, h6]
  · intro l h
    have hd : decodeUniform W l h = decMscl W := by unfold decodeUniform; generalize fld W 25 6 = x at h0; subst h0; rfl
    simp [isUniformWord, hd, decMscl, need, h0, h1, h2, h3, h4, h5, h6, -Fin.ofNat_eq_cast]
theorem Roundtrip.mwait (t : Tag) (a : SReg) : Roundtrip.Statement (.mwait t a) := by
  obtain ⟨W, hW⟩ : ∃ W, W = 3523215360 + a.val * 8192 + t.val * 1 := ⟨_, rfl⟩
  have h0 : fld W 25 6 = 41 := by unfold fld; omega
  have h1 : bitAt W 31 = true := by rw [bitAt_fld]; simp only [fld, beq_eq_decide, decide_eq_true_eq, decide_eq_false_iff_not]; omega
  have h2 : fld W 19 6 = 0 := by unfold fld; omega
  have h3 : fld W 6 7 = 0 := by unfold fld; omega
  have h4 : sreg W 0 = t := Fin.ext (by simp only [sreg, Fin.ofNat]; omega)
  have h5 : sreg W 13 = a := Fin.ext (by simp only [sreg, Fin.ofNat]; omega)
  refine word_of_one W (by change [uniWord 0x29 0 a.val t.val] = [W]; simp only [uniWord, hW, List.cons.injEq, and_true, Fin.val_zero]; omega) ?_ ?_ ?_
  · omega
  · simp [litCount, isUniformWord, laneHasX, h0, h1, h2, h3, h4, h5]
  · intro l h
    have hd : decodeUniform W l h = need (fld W 19 6 == 0 && fld W 6 7 == 0) .unusedField (.ok (.mwait (sreg W 0) (sreg W 13))) := by unfold decodeUniform; generalize fld W 25 6 = x at h0; subst h0; rfl
    simp [isUniformWord, hd, need, h0, h1, h2, h3, h4, h5, -Fin.ofNat_eq_cast]
theorem Roundtrip.rgne (a : SReg) : Roundtrip.Statement (.rgne a) :=
  syA_ok 42 (fun w _ _ (h : fld w 25 6 = 42) => by unfold decodeUniform; generalize fld w 25 6 = x at h; subst h; rfl) a rfl
theorem Roundtrip.gcall (g : Fin 4096) : Roundtrip.Statement (.gcall g) := by
  obtain ⟨W, hW⟩ : ∃ W, W = 3623878656 + g.val * 1 := ⟨_, rfl⟩
  have h0 : fld W 25 6 = 44 := by unfold fld; omega
  have h1 : bitAt W 31 = true := by rw [bitAt_fld]; simp only [fld, beq_eq_decide, decide_eq_true_eq, decide_eq_false_iff_not]; omega
  have h2 : fld W 12 13 = 0 := by unfold fld; omega
  have h3 : Fin.ofNat 4096 W = g := Fin.ext (by simp only [Fin.ofNat]; omega)
  refine word_of_one W (by change [uniWord 0x2C 0 0 g.val] = [W]; simp only [uniWord, hW, List.cons.injEq, and_true, Fin.val_zero]; omega) ?_ ?_ ?_
  · omega
  · simp [litCount, isUniformWord, laneHasX, h0, h1, h2, h3]
  · intro l h
    have hd : decodeUniform W l h = need (fld W 12 13 == 0) .unusedField (.ok (.gcall (Fin.ofNat 4096 W))) := by unfold decodeUniform; generalize fld W 25 6 = x at h0; subst h0; rfl
    simp [isUniformWord, hd, need, h0, h1, h2, h3, -Fin.ofNat_eq_cast]
theorem Roundtrip.lchild (d : SReg) (a : SReg) : Roundtrip.Statement (.lchild d a) :=
  syDA_ok 46 (fun w _ _ (h : fld w 25 6 = 46) => by unfold decodeUniform; generalize fld w 25 6 = x at h; subst h; rfl) d a rfl
theorem Roundtrip.perfq (d : SReg) (a : SReg) : Roundtrip.Statement (.perfq d a) :=
  syDA_ok 48 (fun w _ _ (h : fld w 25 6 = 48) => by unfold decodeUniform; generalize fld w 25 6 = x at h; subst h; rfl) d a rfl
theorem Roundtrip.thrm (e : Bool) : Roundtrip.Statement (.thrm e) := by
  obtain ⟨W, hW⟩ : ∃ W, W = 3791650816 + bitVal e * 1 := ⟨_, rfl⟩
  have := bitVal_lt e
  have h0 : fld W 25 6 = 49 := by unfold fld; omega
  have h1 : bitAt W 31 = true := by rw [bitAt_fld]; simp only [fld, beq_eq_decide, decide_eq_true_eq, decide_eq_false_iff_not]; omega
  have h2 : fld W 1 24 = 0 := by unfold fld; omega
  have h3 : bitAt W 0 = e := bitAt_of (by unfold fld; omega)
  refine word_of_one W (by change [uniWord 0x31 0 0 (bitVal e)] = [W]; simp only [uniWord, hW, List.cons.injEq, and_true, Fin.val_zero]; omega) ?_ ?_ ?_
  · omega
  · simp [litCount, isUniformWord, laneHasX, h0, h1, h2, h3]
  · intro l h
    have hd : decodeUniform W l h = need (fld W 1 24 == 0) .unusedField (.ok (.thrm (bitAt W 0))) := by unfold decodeUniform; generalize fld W 25 6 = x at h0; subst h0; rfl
    simp [isUniformWord, hd, need, h0, h1, h2, h3, -Fin.ofNat_eq_cast]
theorem Roundtrip.trap (imm : Fin 128) : Roundtrip.Statement (.trap imm) := by
  obtain ⟨W, hW⟩ : ∃ W, W = 3825205248 + imm.val * 1 := ⟨_, rfl⟩
  have h0 : fld W 25 6 = 50 := by unfold fld; omega
  have h1 : bitAt W 31 = true := by rw [bitAt_fld]; simp only [fld, beq_eq_decide, decide_eq_true_eq, decide_eq_false_iff_not]; omega
  have h2 : fld W 7 18 = 0 := by unfold fld; omega
  have h3 : Fin.ofNat 128 W = imm := Fin.ext (by simp only [Fin.ofNat]; omega)
  refine word_of_one W (by change [uniWord 0x32 0 0 imm.val] = [W]; simp only [uniWord, hW, List.cons.injEq, and_true, Fin.val_zero]; omega) ?_ ?_ ?_
  · omega
  · simp [litCount, isUniformWord, laneHasX, h0, h1, h2, h3]
  · intro l h
    have hd : decodeUniform W l h = need (fld W 7 18 == 0) .unusedField (.ok (.trap (Fin.ofNat 128 W))) := by unfold decodeUniform; generalize fld W 25 6 = x at h0; subst h0; rfl
    simp [isUniformWord, hd, need, h0, h1, h2, h3, -Fin.ofNat_eq_cast]
theorem Roundtrip.srd (n : Fin 512) (hi : Bool) (d : SReg) : Roundtrip.Statement (.srd n hi d) := by
  obtain ⟨W, hW⟩ : ∃ W, W = 3892314112 + d.val * 524288 + bitVal hi * 512 + n.val * 1 := ⟨_, rfl⟩
  have := bitVal_lt hi
  have h0 : fld W 25 6 = 52 := by unfold fld; omega
  have h1 : bitAt W 31 = true := by rw [bitAt_fld]; simp only [fld, beq_eq_decide, decide_eq_true_eq, decide_eq_false_iff_not]; omega
  have h2 : fld W 13 6 = 0 := by unfold fld; omega
  have h3 : fld W 10 3 = 0 := by unfold fld; omega
  have h4 : Fin.ofNat 512 W = n := Fin.ext (by simp only [Fin.ofNat]; omega)
  have h5 : bitAt W 9 = hi := bitAt_of (by unfold fld; omega)
  have h6 : sreg W 19 = d := Fin.ext (by simp only [sreg, Fin.ofNat]; omega)
  refine word_of_one W (by change [uniWord 0x34 d.val 0 (bitVal hi * 2 ^ 9 + n.val)] = [W]; simp only [uniWord, hW, List.cons.injEq, and_true, Fin.val_zero]; omega) ?_ ?_ ?_
  · omega
  · simp [litCount, isUniformWord, laneHasX, h0, h1, h2, h3, h4, h5, h6]
  · intro l h
    have hd : decodeUniform W l h = need (fld W 13 6 == 0 && fld W 10 3 == 0) .unusedField (.ok (.srd (Fin.ofNat 512 W) (bitAt W 9) (sreg W 19))) := by unfold decodeUniform; generalize fld W 25 6 = x at h0; subst h0; rfl
    simp [isUniformWord, hd, need, h0, h1, h2, h3, h4, h5, h6, -Fin.ofNat_eq_cast]
theorem Roundtrip.swr (n : Fin 512) (a : SReg) : Roundtrip.Statement (.swr n a) := by
  obtain ⟨W, hW⟩ : ∃ W, W = 3925868544 + a.val * 8192 + n.val * 1 := ⟨_, rfl⟩
  have h0 : fld W 25 6 = 53 := by unfold fld; omega
  have h1 : bitAt W 31 = true := by rw [bitAt_fld]; simp only [fld, beq_eq_decide, decide_eq_true_eq, decide_eq_false_iff_not]; omega
  have h2 : fld W 19 6 = 0 := by unfold fld; omega
  have h3 : fld W 9 4 = 0 := by unfold fld; omega
  have h4 : Fin.ofNat 512 W = n := Fin.ext (by simp only [Fin.ofNat]; omega)
  have h5 : sreg W 13 = a := Fin.ext (by simp only [sreg, Fin.ofNat]; omega)
  refine word_of_one W (by change [uniWord 0x35 0 a.val n.val] = [W]; simp only [uniWord, hW, List.cons.injEq, and_true, Fin.val_zero]; omega) ?_ ?_ ?_
  · omega
  · simp [litCount, isUniformWord, laneHasX, h0, h1, h2, h3, h4, h5]
  · intro l h
    have hd : decodeUniform W l h = need (fld W 19 6 == 0 && fld W 9 4 == 0) .unusedField (.ok (.swr (Fin.ofNat 512 W) (sreg W 13))) := by unfold decodeUniform; generalize fld W 25 6 = x at h0; subst h0; rfl
    simp [isUniformWord, hd, need, h0, h1, h2, h3, h4, h5, -Fin.ofNat_eq_cast]
theorem Roundtrip.ipf (l : Bool) (n : Fin 4096) (a : SReg) : Roundtrip.Statement (.ipf l n a) := by
  obtain ⟨W, hW⟩ : ∃ W, W = 3959422976 + a.val * 8192 + n.val * 2 + bitVal l * 1 := ⟨_, rfl⟩
  have := bitVal_lt l
  have h0 : fld W 25 6 = 54 := by unfold fld; omega
  have h1 : bitAt W 31 = true := by rw [bitAt_fld]; simp only [fld, beq_eq_decide, decide_eq_true_eq, decide_eq_false_iff_not]; omega
  have h2 : fld W 19 6 = 0 := by unfold fld; omega
  have h3 : bitAt W 0 = l := bitAt_of (by unfold fld; omega)
  have h4 : Fin.ofNat 4096 (W / 2) = n := Fin.ext (by simp only [Fin.ofNat]; omega)
  have h5 : sreg W 13 = a := Fin.ext (by simp only [sreg, Fin.ofNat]; omega)
  refine word_of_one W (by change [uniWord 0x36 0 a.val (n.val * 2 + bitVal l)] = [W]; simp only [uniWord, hW, List.cons.injEq, and_true, Fin.val_zero]; omega) ?_ ?_ ?_
  · omega
  · simp [litCount, isUniformWord, laneHasX, h0, h1, h2, h3, h4, h5]
  · intro l h
    have hd : decodeUniform W l h = decLines .ipf W := by unfold decodeUniform; generalize fld W 25 6 = x at h0; subst h0; rfl
    simp [isUniformWord, hd, decLines, need, h0, h1, h2, h3, h4, h5, -Fin.ofNat_eq_cast]
theorem Roundtrip.ipin (l : Bool) (n : Fin 4096) (a : SReg) : Roundtrip.Statement (.ipin l n a) := by
  obtain ⟨W, hW⟩ : ∃ W, W = 3992977408 + a.val * 8192 + n.val * 2 + bitVal l * 1 := ⟨_, rfl⟩
  have := bitVal_lt l
  have h0 : fld W 25 6 = 55 := by unfold fld; omega
  have h1 : bitAt W 31 = true := by rw [bitAt_fld]; simp only [fld, beq_eq_decide, decide_eq_true_eq, decide_eq_false_iff_not]; omega
  have h2 : fld W 19 6 = 0 := by unfold fld; omega
  have h3 : bitAt W 0 = l := bitAt_of (by unfold fld; omega)
  have h4 : Fin.ofNat 4096 (W / 2) = n := Fin.ext (by simp only [Fin.ofNat]; omega)
  have h5 : sreg W 13 = a := Fin.ext (by simp only [sreg, Fin.ofNat]; omega)
  refine word_of_one W (by change [uniWord 0x37 0 a.val (n.val * 2 + bitVal l)] = [W]; simp only [uniWord, hW, List.cons.injEq, and_true, Fin.val_zero]; omega) ?_ ?_ ?_
  · omega
  · simp [litCount, isUniformWord, laneHasX, h0, h1, h2, h3, h4, h5]
  · intro l h
    have hd : decodeUniform W l h = decLines .ipin W := by unfold decodeUniform; generalize fld W 25 6 = x at h0; subst h0; rfl
    simp [isUniformWord, hd, decLines, need, h0, h1, h2, h3, h4, h5, -Fin.ofNat_eq_cast]
theorem Roundtrip.iunp (l : Bool) (n : Fin 4096) (a : SReg) : Roundtrip.Statement (.iunp l n a) := by
  obtain ⟨W, hW⟩ : ∃ W, W = 4026531840 + a.val * 8192 + n.val * 2 + bitVal l * 1 := ⟨_, rfl⟩
  have := bitVal_lt l
  have h0 : fld W 25 6 = 56 := by unfold fld; omega
  have h1 : bitAt W 31 = true := by rw [bitAt_fld]; simp only [fld, beq_eq_decide, decide_eq_true_eq, decide_eq_false_iff_not]; omega
  have h2 : fld W 19 6 = 0 := by unfold fld; omega
  have h3 : bitAt W 0 = l := bitAt_of (by unfold fld; omega)
  have h4 : Fin.ofNat 4096 (W / 2) = n := Fin.ext (by simp only [Fin.ofNat]; omega)
  have h5 : sreg W 13 = a := Fin.ext (by simp only [sreg, Fin.ofNat]; omega)
  refine word_of_one W (by change [uniWord 0x38 0 a.val (n.val * 2 + bitVal l)] = [W]; simp only [uniWord, hW, List.cons.injEq, and_true, Fin.val_zero]; omega) ?_ ?_ ?_
  · omega
  · simp [litCount, isUniformWord, laneHasX, h0, h1, h2, h3, h4, h5]
  · intro l h
    have hd : decodeUniform W l h = decLines .iunp W := by unfold decodeUniform; generalize fld W 25 6 = x at h0; subst h0; rfl
    simp [isUniformWord, hd, decLines, need, h0, h1, h2, h3, h4, h5, -Fin.ofNat_eq_cast]
theorem Roundtrip.sleep (a : SReg) : Roundtrip.Statement (.sleep a) :=
  syA_ok 58 (fun w _ _ (h : fld w 25 6 = 58) => by unfold decodeUniform; generalize fld w 25 6 = x at h; subst h; rfl) a rfl
theorem Roundtrip.spdmRequest (r : SpdmReq) (viaI3c : Bool) : Roundtrip.Statement (.spdmRequest r viaI3c) := no_word rfl
theorem Roundtrip.congestionNotificationPacket (port : Fin 2) (qp : Fin 16384) : Roundtrip.Statement (.congestionNotificationPacket port qp) := no_word rfl
theorem Roundtrip.rateRecovery (port : Fin 2) (qp : Fin 16384) : Roundtrip.Statement (.rateRecovery port qp) := no_word rfl
theorem Roundtrip.rocePacket (port : Fin 2) (qp : Fin 16384) (pk : RocePkt) : Roundtrip.Statement (.rocePacket port qp pk) := no_word rfl
theorem Roundtrip.ethernetPortDown (port : Fin 2) : Roundtrip.Statement (.ethernetPortDown port) := no_word rfl
theorem Roundtrip.queuePairError (port : Fin 2) (qp : Fin 16384) : Roundtrip.Statement (.queuePairError port qp) := no_word rfl
theorem Roundtrip.powerOn : Roundtrip.Statement (.powerOn) := no_word rfl
theorem Roundtrip.packageReset : Roundtrip.Statement (.packageReset) := no_word rfl
theorem Roundtrip.brownOut : Roundtrip.Statement (.brownOut) := no_word rfl
theorem Roundtrip.inputUndervoltage : Roundtrip.Statement (.inputUndervoltage) := no_word rfl
theorem Roundtrip.inputOvervoltageWarning : Roundtrip.Statement (.inputOvervoltageWarning) := no_word rfl
theorem Roundtrip.overVoltageShutdown : Roundtrip.Statement (.overVoltageShutdown) := no_word rfl
theorem Roundtrip.thermalTrip : Roundtrip.Statement (.thermalTrip) := no_word rfl
theorem Roundtrip.prochotAssert : Roundtrip.Statement (.prochotAssert) := no_word rfl
theorem Roundtrip.boostWindow : Roundtrip.Statement (.boostWindow) := no_word rfl
theorem Roundtrip.kettleWatchdogExpiry : Roundtrip.Statement (.kettleWatchdogExpiry) := no_word rfl
theorem Roundtrip.kettleBoot : Roundtrip.Statement (.kettleBoot) := no_word rfl
theorem Roundtrip.confirm : Roundtrip.Statement (.confirm) := no_word rfl
theorem Roundtrip.confirmTimeout : Roundtrip.Statement (.confirmTimeout) := no_word rfl
theorem Roundtrip.layoutSubmit : Roundtrip.Statement (.layoutSubmit) := no_word rfl
theorem Roundtrip.layoutLate : Roundtrip.Statement (.layoutLate) := no_word rfl
theorem Roundtrip.layoutFlip : Roundtrip.Statement (.layoutFlip) := no_word rfl
theorem Roundtrip.layoutCommit : Roundtrip.Statement (.layoutCommit) := no_word rfl
theorem Roundtrip.layoutQuery : Roundtrip.Statement (.layoutQuery) := no_word rfl
theorem Roundtrip.plan : Roundtrip.Statement (.plan) := no_word rfl
theorem Roundtrip.fwStage : Roundtrip.Statement (.fwStage) := no_word rfl
theorem Roundtrip.serviceReturn : Roundtrip.Statement (.serviceReturn) := no_word rfl
theorem Roundtrip.partitionStop : Roundtrip.Statement (.partitionStop) := no_word rfl
theorem Roundtrip.partitionStopDone : Roundtrip.Statement (.partitionStopDone) := no_word rfl
theorem Roundtrip.partitionStart : Roundtrip.Statement (.partitionStart) := no_word rfl
theorem Roundtrip.testMode : Roundtrip.Statement (.testMode) := no_word rfl
theorem Roundtrip.provisionGenerate : Roundtrip.Statement (.provisionGenerate) := no_word rfl
theorem Roundtrip.provisionInstall : Roundtrip.Statement (.provisionInstall) := no_word rfl
theorem Roundtrip.badCmd : Roundtrip.Statement (.badCmd) := no_word rfl
theorem Roundtrip.ppsPulse : Roundtrip.Statement (.ppsPulse) := no_word rfl
theorem Roundtrip.masterTimeout : Roundtrip.Statement (.masterTimeout) := no_word rfl
theorem Roundtrip.fabWindow : Roundtrip.Statement (.fabWindow) := no_word rfl
theorem Roundtrip.gselNone : Roundtrip.Statement (.gselNone) := by
  obtain ⟨W, hW⟩ : ∃ W, W = 1275068418 := ⟨_, rfl⟩
  have h0 : fld W 25 6 = 38 := by unfold fld; omega
  have h1 : bitAt W 31 = false := by rw [bitAt_fld]; simp only [fld, beq_eq_decide, decide_eq_true_eq, decide_eq_false_iff_not]; omega
  have h2 : fld W 18 7 = 0 := by unfold fld; omega
  have h3 : fld W 4 7 = 0 := by unfold fld; omega
  have h4 : fld W 1 3 = 1 := by unfold fld; omega
  have h5 : fld W 11 7 = 0 := by unfold fld; omega
  have h6 : fld W 0 1 = 0 := by unfold fld; omega
  refine word_of_one W (by change encVrf 0x26 0 0 2 = [W]; simp only [encVrf, laneWord, hW, List.cons.injEq, and_true, Fin.val_zero]; omega) ?_ ?_ ?_
  · omega
  · simp [litCount, isUniformWord, laneHasX, h0, h1, h2, h3, h4, h5, h6]
  · intro l h
    have hd : decodeLane W l = decGsel W := by unfold decodeLane; generalize fld W 25 6 = x at h0; subst h0; rfl
    simp [isUniformWord, hd, decGsel, need, h0, h1, h2, h3, h4, h5, h6, -Fin.ofNat_eq_cast]
theorem Roundtrip.nop : Roundtrip.Statement (.nop) := by
  obtain ⟨W, hW⟩ : ∃ W, W = 1375731712 := ⟨_, rfl⟩
  have h0 : fld W 25 6 = 41 := by unfold fld; omega
  have h1 : bitAt W 31 = false := by rw [bitAt_fld]; simp only [fld, beq_eq_decide, decide_eq_true_eq, decide_eq_false_iff_not]; omega
  have h2 : fld W 18 7 = 0 := by unfold fld; omega
  have h3 : fld W 0 11 = 0 := by unfold fld; omega
  have h4 : fld W 11 7 = 0 := by unfold fld; omega
  have h5 : vreg W 11 = (0 : Fin 128) := Fin.ext (by simp only [vreg, Fin.ofNat, Fin.isValue, Fin.coe_ofNat_eq_mod]; omega)
  refine word_of_one W (by change encVrf 0x29 0 0 0 = [W]; simp only [encVrf, laneWord, hW, List.cons.injEq, and_true, Fin.val_zero]; omega) ?_ ?_ ?_
  · omega
  · simp [litCount, isUniformWord, laneHasX, h0, h1, h2, h3, h4, h5]
  · intro l h
    have hd : decodeLane W l = decCtlr W := by unfold decodeLane; generalize fld W 25 6 = x at h0; subst h0; rfl
    simp [isUniformWord, hd, decCtlr, need, h0, h1, h2, h3, h4, h5, -Fin.ofNat_eq_cast]
theorem Roundtrip.ret : Roundtrip.Statement (.ret) := by
  obtain ⟨W, hW⟩ : ∃ W, W = 1375731714 := ⟨_, rfl⟩
  have h0 : fld W 25 6 = 41 := by unfold fld; omega
  have h1 : bitAt W 31 = false := by rw [bitAt_fld]; simp only [fld, beq_eq_decide, decide_eq_true_eq, decide_eq_false_iff_not]; omega
  have h2 : fld W 18 7 = 0 := by unfold fld; omega
  have h3 : fld W 0 11 = 2 := by unfold fld; omega
  have h4 : fld W 11 7 = 0 := by unfold fld; omega
  have h5 : vreg W 11 = (0 : Fin 128) := Fin.ext (by simp only [vreg, Fin.ofNat, Fin.isValue, Fin.coe_ofNat_eq_mod]; omega)
  refine word_of_one W (by change encVrf 0x29 0 0 2 = [W]; simp only [encVrf, laneWord, hW, List.cons.injEq, and_true, Fin.val_zero]; omega) ?_ ?_ ?_
  · omega
  · simp [litCount, isUniformWord, laneHasX, h0, h1, h2, h3, h4, h5]
  · intro l h
    have hd : decodeLane W l = decCtlr W := by unfold decodeLane; generalize fld W 25 6 = x at h0; subst h0; rfl
    simp [isUniformWord, hd, decCtlr, need, h0, h1, h2, h3, h4, h5, -Fin.ofNat_eq_cast]
theorem Roundtrip.exit : Roundtrip.Statement (.exit) := by
  obtain ⟨W, hW⟩ : ∃ W, W = 1375731715 := ⟨_, rfl⟩
  have h0 : fld W 25 6 = 41 := by unfold fld; omega
  have h1 : bitAt W 31 = false := by rw [bitAt_fld]; simp only [fld, beq_eq_decide, decide_eq_true_eq, decide_eq_false_iff_not]; omega
  have h2 : fld W 18 7 = 0 := by unfold fld; omega
  have h3 : fld W 0 11 = 3 := by unfold fld; omega
  have h4 : fld W 11 7 = 0 := by unfold fld; omega
  have h5 : vreg W 11 = (0 : Fin 128) := Fin.ext (by simp only [vreg, Fin.ofNat, Fin.isValue, Fin.coe_ofNat_eq_mod]; omega)
  refine word_of_one W (by change encVrf 0x29 0 0 3 = [W]; simp only [encVrf, laneWord, hW, List.cons.injEq, and_true, Fin.val_zero]; omega) ?_ ?_ ?_
  · omega
  · simp [litCount, isUniformWord, laneHasX, h0, h1, h2, h3, h4, h5]
  · intro l h
    have hd : decodeLane W l = decCtlr W := by unfold decodeLane; generalize fld W 25 6 = x at h0; subst h0; rfl
    simp [isUniformWord, hd, decCtlr, need, h0, h1, h2, h3, h4, h5, -Fin.ofNat_eq_cast]
theorem Roundtrip.barArrive : Roundtrip.Statement (.barArrive) := by
  obtain ⟨W, hW⟩ : ∃ W, W = 2785017856 := ⟨_, rfl⟩
  have h0 : fld W 25 6 = 19 := by unfold fld; omega
  have h1 : bitAt W 31 = true := by rw [bitAt_fld]; simp only [fld, beq_eq_decide, decide_eq_true_eq, decide_eq_false_iff_not]; omega
  have h2 : fld W 2 23 = 0 := by unfold fld; omega
  have h3 : fld W 0 2 = 0 := by unfold fld; omega
  refine word_of_one W (by change [uniWord 0x13 0 0 0] = [W]; simp only [uniWord, hW, List.cons.injEq, and_true, Fin.val_zero]; omega) ?_ ?_ ?_
  · omega
  · simp [litCount, isUniformWord, laneHasX, h0, h1, h2, h3]
  · intro l h
    have hd : decodeUniform W l h = decBar W := by unfold decodeUniform; generalize fld W 25 6 = x at h0; subst h0; rfl
    simp [isUniformWord, hd, decBar, need, h0, h1, h2, h3, -Fin.ofNat_eq_cast]
theorem Roundtrip.barWait : Roundtrip.Statement (.barWait) := by
  obtain ⟨W, hW⟩ : ∃ W, W = 2785017857 := ⟨_, rfl⟩
  have h0 : fld W 25 6 = 19 := by unfold fld; omega
  have h1 : bitAt W 31 = true := by rw [bitAt_fld]; simp only [fld, beq_eq_decide, decide_eq_true_eq, decide_eq_false_iff_not]; omega
  have h2 : fld W 2 23 = 0 := by unfold fld; omega
  have h3 : fld W 0 2 = 1 := by unfold fld; omega
  refine word_of_one W (by change [uniWord 0x13 0 0 1] = [W]; simp only [uniWord, hW, List.cons.injEq, and_true, Fin.val_zero]; omega) ?_ ?_ ?_
  · omega
  · simp [litCount, isUniformWord, laneHasX, h0, h1, h2, h3]
  · intro l h
    have hd : decodeUniform W l h = decBar W := by unfold decodeUniform; generalize fld W 25 6 = x at h0; subst h0; rfl
    simp [isUniformWord, hd, decBar, need, h0, h1, h2, h3, -Fin.ofNat_eq_cast]
theorem Roundtrip.barSync : Roundtrip.Statement (.barSync) := by
  obtain ⟨W, hW⟩ : ∃ W, W = 2785017858 := ⟨_, rfl⟩
  have h0 : fld W 25 6 = 19 := by unfold fld; omega
  have h1 : bitAt W 31 = true := by rw [bitAt_fld]; simp only [fld, beq_eq_decide, decide_eq_true_eq, decide_eq_false_iff_not]; omega
  have h2 : fld W 2 23 = 0 := by unfold fld; omega
  have h3 : fld W 0 2 = 2 := by unfold fld; omega
  refine word_of_one W (by change [uniWord 0x13 0 0 2] = [W]; simp only [uniWord, hW, List.cons.injEq, and_true, Fin.val_zero]; omega) ?_ ?_ ?_
  · omega
  · simp [litCount, isUniformWord, laneHasX, h0, h1, h2, h3]
  · intro l h
    have hd : decodeUniform W l h = decBar W := by unfold decodeUniform; generalize fld W 25 6 = x at h0; subst h0; rfl
    simp [isUniformWord, hd, decBar, need, h0, h1, h2, h3, -Fin.ofNat_eq_cast]
theorem Roundtrip.rgnl : Roundtrip.Statement (.rgnl) :=
  bare_ok 43 (fun w _ _ (h : fld w 25 6 = 43) => by unfold decodeUniform; generalize fld w 25 6 = x at h; subst h; rfl) rfl
theorem Roundtrip.gret : Roundtrip.Statement (.gret) :=
  bare_ok 45 (fun w _ _ (h : fld w 25 6 = 45) => by unfold decodeUniform; generalize fld w 25 6 = x at h; subst h; rfl) rfl
theorem Roundtrip.ljoin : Roundtrip.Statement (.ljoin) :=
  bare_ok 47 (fun w _ _ (h : fld w 25 6 = 47) => by unfold decodeUniform; generalize fld w 25 6 = x at h; subst h; rfl) rfl
theorem Roundtrip.rte : Roundtrip.Statement (.rte) :=
  bare_ok 51 (fun w _ _ (h : fld w 25 6 = 51) => by unfold decodeUniform; generalize fld w 25 6 = x at h; subst h; rfl) rfl
theorem Roundtrip.yield : Roundtrip.Statement (.yield) :=
  bare_ok 57 (fun w _ _ (h : fld w 25 6 = 57) => by unfold decodeUniform; generalize fld w 25 6 = x at h; subst h; rfl) rfl
theorem Roundtrip.bkpt : Roundtrip.Statement (.bkpt) :=
  bare_ok 59 (fun w _ _ (h : fld w 25 6 = 59) => by unfold decodeUniform; generalize fld w 25 6 = x at h; subst h; rfl) rfl
theorem Roundtrip.halt : Roundtrip.Statement (.halt) :=
  bare_ok 60 (fun w _ _ (h : fld w 25 6 = 60) => by unfold decodeUniform; generalize fld w 25 6 = x at h; subst h; rfl) rfl
theorem Roundtrip.ppsAbsent : Roundtrip.Statement (.ppsAbsent) := no_word rfl
theorem Roundtrip.illegalOp : Roundtrip.Statement (.illegalOp) := no_word rfl
theorem Roundtrip.fetchFault : Roundtrip.Statement (.fetchFault) := no_word rfl

end Sys2Proof.Laws
end

