-- ==== Sys2Proof/Laws/State.lean ====
section
/-!
SUPPORT. What each update of the state does to each of its fields.
-/

namespace Sys2Proof.Machine.State

/-! ## updHob -/

@[simp] theorem updHob_pkg (s : State) (h : Nat) (f : Hob → Hob) : (s.updHob h f).pkg = s.pkg := rfl
@[simp] theorem updHob_reft (s : State) (h : Nat) (f : Hob → Hob) : (s.updHob h f).reft = s.reft := rfl
@[simp] theorem updHob_time (s : State) (h : Nat) (f : Hob → Hob) : (s.updHob h f).time = s.time := rfl
@[simp] theorem updHob_hobs (s : State) (h : Nat) (f : Hob → Hob) : (s.updHob h f).hobs = Tbl.updD s.hobs h .reset f := rfl
@[simp] theorem updHob_pools (s : State) (h : Nat) (f : Hob → Hob) : (s.updHob h f).pools = s.pools := rfl
@[simp] theorem updHob_kettle (s : State) (h : Nat) (f : Hob → Hob) : (s.updHob h f).kettle = s.kettle := rfl
@[simp] theorem updHob_mbox (s : State) (h : Nat) (f : Hob → Hob) : (s.updHob h f).mbox = s.mbox := rfl
@[simp] theorem updHob_dev (s : State) (h : Nat) (f : Hob → Hob) : (s.updHob h f).dev = s.dev := rfl
@[simp] theorem updHob_log (s : State) (h : Nat) (f : Hob → Hob) : (s.updHob h f).log = s.log := rfl
@[simp] theorem updHob_outbox (s : State) (h : Nat) (f : Hob → Hob) : (s.updHob h f).outbox = s.outbox := rfl
@[simp] theorem updHob_clusterOwner (s : State) (h : Nat) (f : Hob → Hob) : (s.updHob h f).clusterOwner = s.clusterOwner := rfl
@[simp] theorem updHob_parts (s : State) (h : Nat) (f : Hob → Hob) : (s.updHob h f).parts = s.parts := rfl
@[simp] theorem updHob_vds (s : State) (h : Nat) (f : Hob → Hob) : (s.updHob h f).vds = s.vds := rfl
@[simp] theorem updHob_pfMsix (s : State) (h : Nat) (f : Hob → Hob) : (s.updHob h f).pfMsix = s.pfMsix := rfl
@[simp] theorem updHob_queues (s : State) (h : Nat) (f : Hob → Hob) : (s.updHob h f).queues = s.queues := rfl
@[simp] theorem updHob_rings (s : State) (h : Nat) (f : Hob → Hob) : (s.updHob h f).rings = s.rings := rfl
@[simp] theorem updHob_slots (s : State) (h : Nat) (f : Hob → Hob) : (s.updHob h f).slots = s.slots := rfl
@[simp] theorem updHob_grids (s : State) (h : Nat) (f : Hob → Hob) : (s.updHob h f).grids = s.grids := rfl
@[simp] theorem updHob_teams (s : State) (h : Nat) (f : Hob → Hob) : (s.updHob h f).teams = s.teams := rfl
@[simp] theorem updHob_waves (s : State) (h : Nat) (f : Hob → Hob) : (s.updHob h f).waves = s.waves := rfl
@[simp] theorem updHob_cores (s : State) (h : Nat) (f : Hob → Hob) : (s.updHob h f).cores = s.cores := rfl
@[simp] theorem updHob_claims (s : State) (h : Nat) (f : Hob → Hob) : (s.updHob h f).claims = s.claims := rfl
@[simp] theorem updHob_placed (s : State) (h : Nat) (f : Hob → Hob) : (s.updHob h f).placed = s.placed := rfl
@[simp] theorem updHob_mem (s : State) (h : Nat) (f : Hob → Hob) : (s.updHob h f).mem = s.mem := rfl
@[simp] theorem updHob_stale (s : State) (h : Nat) (f : Hob → Hob) : (s.updHob h f).stale = s.stale := rfl
@[simp] theorem updHob_poison (s : State) (h : Nat) (f : Hob → Hob) : (s.updHob h f).poison = s.poison := rfl
@[simp] theorem updHob_stamps (s : State) (h : Nat) (f : Hob → Hob) : (s.updHob h f).stamps = s.stamps := rfl
@[simp] theorem updHob_sliceStamps (s : State) (h : Nat) (f : Hob → Hob) : (s.updHob h f).sliceStamps = s.sliceStamps := rfl
@[simp] theorem updHob_sent (s : State) (h : Nat) (f : Hob → Hob) : (s.updHob h f).sent = s.sent := rfl
@[simp] theorem updHob_applied (s : State) (h : Nat) (f : Hob → Hob) : (s.updHob h f).applied = s.applied := rfl
@[simp] theorem updHob_peerWays (s : State) (h : Nat) (f : Hob → Hob) : (s.updHob h f).peerWays = s.peerWays := rfl
@[simp] theorem updHob_l2 (s : State) (h : Nat) (f : Hob → Hob) : (s.updHob h f).l2 = s.l2 := rfl
@[simp] theorem updHob_ctlb (s : State) (h : Nat) (f : Hob → Hob) : (s.updHob h f).ctlb = s.ctlb := rfl
@[simp] theorem updHob_l2pins (s : State) (h : Nat) (f : Hob → Hob) : (s.updHob h f).l2pins = s.l2pins := rfl
@[simp] theorem updHob_hostMem (s : State) (h : Nat) (f : Hob → Hob) : (s.updHob h f).hostMem = s.hostMem := rfl
@[simp] theorem updHob_jobs (s : State) (h : Nat) (f : Hob → Hob) : (s.updHob h f).jobs = s.jobs := rfl
@[simp] theorem updHob_fab (s : State) (h : Nat) (f : Hob → Hob) : (s.updHob h f).fab = s.fab := rfl
@[simp] theorem updHob_eth (s : State) (h : Nat) (f : Hob → Hob) : (s.updHob h f).eth = s.eth := rfl
@[simp] theorem updHob_nextId (s : State) (h : Nat) (f : Hob → Hob) : (s.updHob h f).nextId = s.nextId := rfl
@[simp] theorem updHob_agenda (s : State) (h : Nat) (f : Hob → Hob) : (s.updHob h f).agenda = s.agenda := rfl
@[simp] theorem updHob_cursor (s : State) (h : Nat) (f : Hob → Hob) : (s.updHob h f).cursor = s.cursor := rfl
@[simp] theorem updHob_cur (s : State) (h : Nat) (f : Hob → Hob) : (s.updHob h f).cur = s.cur := rfl
@[simp] theorem updHob_fresh (s : State) (h : Nat) (f : Hob → Hob) : (s.updHob h f).fresh = s.fresh := rfl

/-! ## updPool -/

@[simp] theorem updPool_pkg (s : State) (p : Nat) (f : Pool → Pool) : (s.updPool p f).pkg = s.pkg := rfl
@[simp] theorem updPool_reft (s : State) (p : Nat) (f : Pool → Pool) : (s.updPool p f).reft = s.reft := rfl
@[simp] theorem updPool_time (s : State) (p : Nat) (f : Pool → Pool) : (s.updPool p f).time = s.time := rfl
@[simp] theorem updPool_hobs (s : State) (p : Nat) (f : Pool → Pool) : (s.updPool p f).hobs = s.hobs := rfl
@[simp] theorem updPool_pools (s : State) (p : Nat) (f : Pool → Pool) : (s.updPool p f).pools = Tbl.updD s.pools p .reset f := rfl
@[simp] theorem updPool_kettle (s : State) (p : Nat) (f : Pool → Pool) : (s.updPool p f).kettle = s.kettle := rfl
@[simp] theorem updPool_mbox (s : State) (p : Nat) (f : Pool → Pool) : (s.updPool p f).mbox = s.mbox := rfl
@[simp] theorem updPool_dev (s : State) (p : Nat) (f : Pool → Pool) : (s.updPool p f).dev = s.dev := rfl
@[simp] theorem updPool_log (s : State) (p : Nat) (f : Pool → Pool) : (s.updPool p f).log = s.log := rfl
@[simp] theorem updPool_outbox (s : State) (p : Nat) (f : Pool → Pool) : (s.updPool p f).outbox = s.outbox := rfl
@[simp] theorem updPool_clusterOwner (s : State) (p : Nat) (f : Pool → Pool) : (s.updPool p f).clusterOwner = s.clusterOwner := rfl
@[simp] theorem updPool_parts (s : State) (p : Nat) (f : Pool → Pool) : (s.updPool p f).parts = s.parts := rfl
@[simp] theorem updPool_vds (s : State) (p : Nat) (f : Pool → Pool) : (s.updPool p f).vds = s.vds := rfl
@[simp] theorem updPool_pfMsix (s : State) (p : Nat) (f : Pool → Pool) : (s.updPool p f).pfMsix = s.pfMsix := rfl
@[simp] theorem updPool_queues (s : State) (p : Nat) (f : Pool → Pool) : (s.updPool p f).queues = s.queues := rfl
@[simp] theorem updPool_rings (s : State) (p : Nat) (f : Pool → Pool) : (s.updPool p f).rings = s.rings := rfl
@[simp] theorem updPool_slots (s : State) (p : Nat) (f : Pool → Pool) : (s.updPool p f).slots = s.slots := rfl
@[simp] theorem updPool_grids (s : State) (p : Nat) (f : Pool → Pool) : (s.updPool p f).grids = s.grids := rfl
@[simp] theorem updPool_teams (s : State) (p : Nat) (f : Pool → Pool) : (s.updPool p f).teams = s.teams := rfl
@[simp] theorem updPool_waves (s : State) (p : Nat) (f : Pool → Pool) : (s.updPool p f).waves = s.waves := rfl
@[simp] theorem updPool_cores (s : State) (p : Nat) (f : Pool → Pool) : (s.updPool p f).cores = s.cores := rfl
@[simp] theorem updPool_claims (s : State) (p : Nat) (f : Pool → Pool) : (s.updPool p f).claims = s.claims := rfl
@[simp] theorem updPool_placed (s : State) (p : Nat) (f : Pool → Pool) : (s.updPool p f).placed = s.placed := rfl
@[simp] theorem updPool_mem (s : State) (p : Nat) (f : Pool → Pool) : (s.updPool p f).mem = s.mem := rfl
@[simp] theorem updPool_stale (s : State) (p : Nat) (f : Pool → Pool) : (s.updPool p f).stale = s.stale := rfl
@[simp] theorem updPool_poison (s : State) (p : Nat) (f : Pool → Pool) : (s.updPool p f).poison = s.poison := rfl
@[simp] theorem updPool_stamps (s : State) (p : Nat) (f : Pool → Pool) : (s.updPool p f).stamps = s.stamps := rfl
@[simp] theorem updPool_sliceStamps (s : State) (p : Nat) (f : Pool → Pool) : (s.updPool p f).sliceStamps = s.sliceStamps := rfl
@[simp] theorem updPool_sent (s : State) (p : Nat) (f : Pool → Pool) : (s.updPool p f).sent = s.sent := rfl
@[simp] theorem updPool_applied (s : State) (p : Nat) (f : Pool → Pool) : (s.updPool p f).applied = s.applied := rfl
@[simp] theorem updPool_peerWays (s : State) (p : Nat) (f : Pool → Pool) : (s.updPool p f).peerWays = s.peerWays := rfl
@[simp] theorem updPool_l2 (s : State) (p : Nat) (f : Pool → Pool) : (s.updPool p f).l2 = s.l2 := rfl
@[simp] theorem updPool_ctlb (s : State) (p : Nat) (f : Pool → Pool) : (s.updPool p f).ctlb = s.ctlb := rfl
@[simp] theorem updPool_l2pins (s : State) (p : Nat) (f : Pool → Pool) : (s.updPool p f).l2pins = s.l2pins := rfl
@[simp] theorem updPool_hostMem (s : State) (p : Nat) (f : Pool → Pool) : (s.updPool p f).hostMem = s.hostMem := rfl
@[simp] theorem updPool_jobs (s : State) (p : Nat) (f : Pool → Pool) : (s.updPool p f).jobs = s.jobs := rfl
@[simp] theorem updPool_fab (s : State) (p : Nat) (f : Pool → Pool) : (s.updPool p f).fab = s.fab := rfl
@[simp] theorem updPool_eth (s : State) (p : Nat) (f : Pool → Pool) : (s.updPool p f).eth = s.eth := rfl
@[simp] theorem updPool_nextId (s : State) (p : Nat) (f : Pool → Pool) : (s.updPool p f).nextId = s.nextId := rfl
@[simp] theorem updPool_agenda (s : State) (p : Nat) (f : Pool → Pool) : (s.updPool p f).agenda = s.agenda := rfl
@[simp] theorem updPool_cursor (s : State) (p : Nat) (f : Pool → Pool) : (s.updPool p f).cursor = s.cursor := rfl
@[simp] theorem updPool_cur (s : State) (p : Nat) (f : Pool → Pool) : (s.updPool p f).cur = s.cur := rfl
@[simp] theorem updPool_fresh (s : State) (p : Nat) (f : Pool → Pool) : (s.updPool p f).fresh = s.fresh := rfl

/-! ## updPart -/

@[simp] theorem updPart_pkg (s : State) (p : Nat) (f : Part → Part) : (s.updPart p f).pkg = s.pkg := rfl
@[simp] theorem updPart_reft (s : State) (p : Nat) (f : Part → Part) : (s.updPart p f).reft = s.reft := rfl
@[simp] theorem updPart_time (s : State) (p : Nat) (f : Part → Part) : (s.updPart p f).time = s.time := rfl
@[simp] theorem updPart_hobs (s : State) (p : Nat) (f : Part → Part) : (s.updPart p f).hobs = s.hobs := rfl
@[simp] theorem updPart_pools (s : State) (p : Nat) (f : Part → Part) : (s.updPart p f).pools = s.pools := rfl
@[simp] theorem updPart_kettle (s : State) (p : Nat) (f : Part → Part) : (s.updPart p f).kettle = s.kettle := rfl
@[simp] theorem updPart_mbox (s : State) (p : Nat) (f : Part → Part) : (s.updPart p f).mbox = s.mbox := rfl
@[simp] theorem updPart_dev (s : State) (p : Nat) (f : Part → Part) : (s.updPart p f).dev = s.dev := rfl
@[simp] theorem updPart_log (s : State) (p : Nat) (f : Part → Part) : (s.updPart p f).log = s.log := rfl
@[simp] theorem updPart_outbox (s : State) (p : Nat) (f : Part → Part) : (s.updPart p f).outbox = s.outbox := rfl
@[simp] theorem updPart_clusterOwner (s : State) (p : Nat) (f : Part → Part) : (s.updPart p f).clusterOwner = s.clusterOwner := rfl
@[simp] theorem updPart_parts (s : State) (p : Nat) (f : Part → Part) : (s.updPart p f).parts = Tbl.updD s.parts p .reset f := rfl
@[simp] theorem updPart_vds (s : State) (p : Nat) (f : Part → Part) : (s.updPart p f).vds = s.vds := rfl
@[simp] theorem updPart_pfMsix (s : State) (p : Nat) (f : Part → Part) : (s.updPart p f).pfMsix = s.pfMsix := rfl
@[simp] theorem updPart_queues (s : State) (p : Nat) (f : Part → Part) : (s.updPart p f).queues = s.queues := rfl
@[simp] theorem updPart_rings (s : State) (p : Nat) (f : Part → Part) : (s.updPart p f).rings = s.rings := rfl
@[simp] theorem updPart_slots (s : State) (p : Nat) (f : Part → Part) : (s.updPart p f).slots = s.slots := rfl
@[simp] theorem updPart_grids (s : State) (p : Nat) (f : Part → Part) : (s.updPart p f).grids = s.grids := rfl
@[simp] theorem updPart_teams (s : State) (p : Nat) (f : Part → Part) : (s.updPart p f).teams = s.teams := rfl
@[simp] theorem updPart_waves (s : State) (p : Nat) (f : Part → Part) : (s.updPart p f).waves = s.waves := rfl
@[simp] theorem updPart_cores (s : State) (p : Nat) (f : Part → Part) : (s.updPart p f).cores = s.cores := rfl
@[simp] theorem updPart_claims (s : State) (p : Nat) (f : Part → Part) : (s.updPart p f).claims = s.claims := rfl
@[simp] theorem updPart_placed (s : State) (p : Nat) (f : Part → Part) : (s.updPart p f).placed = s.placed := rfl
@[simp] theorem updPart_mem (s : State) (p : Nat) (f : Part → Part) : (s.updPart p f).mem = s.mem := rfl
@[simp] theorem updPart_stale (s : State) (p : Nat) (f : Part → Part) : (s.updPart p f).stale = s.stale := rfl
@[simp] theorem updPart_poison (s : State) (p : Nat) (f : Part → Part) : (s.updPart p f).poison = s.poison := rfl
@[simp] theorem updPart_stamps (s : State) (p : Nat) (f : Part → Part) : (s.updPart p f).stamps = s.stamps := rfl
@[simp] theorem updPart_sliceStamps (s : State) (p : Nat) (f : Part → Part) : (s.updPart p f).sliceStamps = s.sliceStamps := rfl
@[simp] theorem updPart_sent (s : State) (p : Nat) (f : Part → Part) : (s.updPart p f).sent = s.sent := rfl
@[simp] theorem updPart_applied (s : State) (p : Nat) (f : Part → Part) : (s.updPart p f).applied = s.applied := rfl
@[simp] theorem updPart_peerWays (s : State) (p : Nat) (f : Part → Part) : (s.updPart p f).peerWays = s.peerWays := rfl
@[simp] theorem updPart_l2 (s : State) (p : Nat) (f : Part → Part) : (s.updPart p f).l2 = s.l2 := rfl
@[simp] theorem updPart_ctlb (s : State) (p : Nat) (f : Part → Part) : (s.updPart p f).ctlb = s.ctlb := rfl
@[simp] theorem updPart_l2pins (s : State) (p : Nat) (f : Part → Part) : (s.updPart p f).l2pins = s.l2pins := rfl
@[simp] theorem updPart_hostMem (s : State) (p : Nat) (f : Part → Part) : (s.updPart p f).hostMem = s.hostMem := rfl
@[simp] theorem updPart_jobs (s : State) (p : Nat) (f : Part → Part) : (s.updPart p f).jobs = s.jobs := rfl
@[simp] theorem updPart_fab (s : State) (p : Nat) (f : Part → Part) : (s.updPart p f).fab = s.fab := rfl
@[simp] theorem updPart_eth (s : State) (p : Nat) (f : Part → Part) : (s.updPart p f).eth = s.eth := rfl
@[simp] theorem updPart_nextId (s : State) (p : Nat) (f : Part → Part) : (s.updPart p f).nextId = s.nextId := rfl
@[simp] theorem updPart_agenda (s : State) (p : Nat) (f : Part → Part) : (s.updPart p f).agenda = s.agenda := rfl
@[simp] theorem updPart_cursor (s : State) (p : Nat) (f : Part → Part) : (s.updPart p f).cursor = s.cursor := rfl
@[simp] theorem updPart_cur (s : State) (p : Nat) (f : Part → Part) : (s.updPart p f).cur = s.cur := rfl
@[simp] theorem updPart_fresh (s : State) (p : Nat) (f : Part → Part) : (s.updPart p f).fresh = s.fresh := rfl

/-! ## updVd -/

@[simp] theorem updVd_pkg (s : State) (v : Nat) (f : Vd → Vd) : (s.updVd v f).pkg = s.pkg := rfl
@[simp] theorem updVd_reft (s : State) (v : Nat) (f : Vd → Vd) : (s.updVd v f).reft = s.reft := rfl
@[simp] theorem updVd_time (s : State) (v : Nat) (f : Vd → Vd) : (s.updVd v f).time = s.time := rfl
@[simp] theorem updVd_hobs (s : State) (v : Nat) (f : Vd → Vd) : (s.updVd v f).hobs = s.hobs := rfl
@[simp] theorem updVd_pools (s : State) (v : Nat) (f : Vd → Vd) : (s.updVd v f).pools = s.pools := rfl
@[simp] theorem updVd_kettle (s : State) (v : Nat) (f : Vd → Vd) : (s.updVd v f).kettle = s.kettle := rfl
@[simp] theorem updVd_mbox (s : State) (v : Nat) (f : Vd → Vd) : (s.updVd v f).mbox = s.mbox := rfl
@[simp] theorem updVd_dev (s : State) (v : Nat) (f : Vd → Vd) : (s.updVd v f).dev = s.dev := rfl
@[simp] theorem updVd_log (s : State) (v : Nat) (f : Vd → Vd) : (s.updVd v f).log = s.log := rfl
@[simp] theorem updVd_outbox (s : State) (v : Nat) (f : Vd → Vd) : (s.updVd v f).outbox = s.outbox := rfl
@[simp] theorem updVd_clusterOwner (s : State) (v : Nat) (f : Vd → Vd) : (s.updVd v f).clusterOwner = s.clusterOwner := rfl
@[simp] theorem updVd_parts (s : State) (v : Nat) (f : Vd → Vd) : (s.updVd v f).parts = s.parts := rfl
@[simp] theorem updVd_vds (s : State) (v : Nat) (f : Vd → Vd) : (s.updVd v f).vds = Tbl.updD s.vds v .reset f := rfl
@[simp] theorem updVd_pfMsix (s : State) (v : Nat) (f : Vd → Vd) : (s.updVd v f).pfMsix = s.pfMsix := rfl
@[simp] theorem updVd_queues (s : State) (v : Nat) (f : Vd → Vd) : (s.updVd v f).queues = s.queues := rfl
@[simp] theorem updVd_rings (s : State) (v : Nat) (f : Vd → Vd) : (s.updVd v f).rings = s.rings := rfl
@[simp] theorem updVd_slots (s : State) (v : Nat) (f : Vd → Vd) : (s.updVd v f).slots = s.slots := rfl
@[simp] theorem updVd_grids (s : State) (v : Nat) (f : Vd → Vd) : (s.updVd v f).grids = s.grids := rfl
@[simp] theorem updVd_teams (s : State) (v : Nat) (f : Vd → Vd) : (s.updVd v f).teams = s.teams := rfl
@[simp] theorem updVd_waves (s : State) (v : Nat) (f : Vd → Vd) : (s.updVd v f).waves = s.waves := rfl
@[simp] theorem updVd_cores (s : State) (v : Nat) (f : Vd → Vd) : (s.updVd v f).cores = s.cores := rfl
@[simp] theorem updVd_claims (s : State) (v : Nat) (f : Vd → Vd) : (s.updVd v f).claims = s.claims := rfl
@[simp] theorem updVd_placed (s : State) (v : Nat) (f : Vd → Vd) : (s.updVd v f).placed = s.placed := rfl
@[simp] theorem updVd_mem (s : State) (v : Nat) (f : Vd → Vd) : (s.updVd v f).mem = s.mem := rfl
@[simp] theorem updVd_stale (s : State) (v : Nat) (f : Vd → Vd) : (s.updVd v f).stale = s.stale := rfl
@[simp] theorem updVd_poison (s : State) (v : Nat) (f : Vd → Vd) : (s.updVd v f).poison = s.poison := rfl
@[simp] theorem updVd_stamps (s : State) (v : Nat) (f : Vd → Vd) : (s.updVd v f).stamps = s.stamps := rfl
@[simp] theorem updVd_sliceStamps (s : State) (v : Nat) (f : Vd → Vd) : (s.updVd v f).sliceStamps = s.sliceStamps := rfl
@[simp] theorem updVd_sent (s : State) (v : Nat) (f : Vd → Vd) : (s.updVd v f).sent = s.sent := rfl
@[simp] theorem updVd_applied (s : State) (v : Nat) (f : Vd → Vd) : (s.updVd v f).applied = s.applied := rfl
@[simp] theorem updVd_peerWays (s : State) (v : Nat) (f : Vd → Vd) : (s.updVd v f).peerWays = s.peerWays := rfl
@[simp] theorem updVd_l2 (s : State) (v : Nat) (f : Vd → Vd) : (s.updVd v f).l2 = s.l2 := rfl
@[simp] theorem updVd_ctlb (s : State) (v : Nat) (f : Vd → Vd) : (s.updVd v f).ctlb = s.ctlb := rfl
@[simp] theorem updVd_l2pins (s : State) (v : Nat) (f : Vd → Vd) : (s.updVd v f).l2pins = s.l2pins := rfl
@[simp] theorem updVd_hostMem (s : State) (v : Nat) (f : Vd → Vd) : (s.updVd v f).hostMem = s.hostMem := rfl
@[simp] theorem updVd_jobs (s : State) (v : Nat) (f : Vd → Vd) : (s.updVd v f).jobs = s.jobs := rfl
@[simp] theorem updVd_fab (s : State) (v : Nat) (f : Vd → Vd) : (s.updVd v f).fab = s.fab := rfl
@[simp] theorem updVd_eth (s : State) (v : Nat) (f : Vd → Vd) : (s.updVd v f).eth = s.eth := rfl
@[simp] theorem updVd_nextId (s : State) (v : Nat) (f : Vd → Vd) : (s.updVd v f).nextId = s.nextId := rfl
@[simp] theorem updVd_agenda (s : State) (v : Nat) (f : Vd → Vd) : (s.updVd v f).agenda = s.agenda := rfl
@[simp] theorem updVd_cursor (s : State) (v : Nat) (f : Vd → Vd) : (s.updVd v f).cursor = s.cursor := rfl
@[simp] theorem updVd_cur (s : State) (v : Nat) (f : Vd → Vd) : (s.updVd v f).cur = s.cur := rfl
@[simp] theorem updVd_fresh (s : State) (v : Nat) (f : Vd → Vd) : (s.updVd v f).fresh = s.fresh := rfl

/-! ## updQueue -/

@[simp] theorem updQueue_pkg (s : State) (q : Nat) (f : Queue → Queue) : (s.updQueue q f).pkg = s.pkg := rfl
@[simp] theorem updQueue_reft (s : State) (q : Nat) (f : Queue → Queue) : (s.updQueue q f).reft = s.reft := rfl
@[simp] theorem updQueue_time (s : State) (q : Nat) (f : Queue → Queue) : (s.updQueue q f).time = s.time := rfl
@[simp] theorem updQueue_hobs (s : State) (q : Nat) (f : Queue → Queue) : (s.updQueue q f).hobs = s.hobs := rfl
@[simp] theorem updQueue_pools (s : State) (q : Nat) (f : Queue → Queue) : (s.updQueue q f).pools = s.pools := rfl
@[simp] theorem updQueue_kettle (s : State) (q : Nat) (f : Queue → Queue) : (s.updQueue q f).kettle = s.kettle := rfl
@[simp] theorem updQueue_mbox (s : State) (q : Nat) (f : Queue → Queue) : (s.updQueue q f).mbox = s.mbox := rfl
@[simp] theorem updQueue_dev (s : State) (q : Nat) (f : Queue → Queue) : (s.updQueue q f).dev = s.dev := rfl
@[simp] theorem updQueue_log (s : State) (q : Nat) (f : Queue → Queue) : (s.updQueue q f).log = s.log := rfl
@[simp] theorem updQueue_outbox (s : State) (q : Nat) (f : Queue → Queue) : (s.updQueue q f).outbox = s.outbox := rfl
@[simp] theorem updQueue_clusterOwner (s : State) (q : Nat) (f : Queue → Queue) : (s.updQueue q f).clusterOwner = s.clusterOwner := rfl
@[simp] theorem updQueue_parts (s : State) (q : Nat) (f : Queue → Queue) : (s.updQueue q f).parts = s.parts := rfl
@[simp] theorem updQueue_vds (s : State) (q : Nat) (f : Queue → Queue) : (s.updQueue q f).vds = s.vds := rfl
@[simp] theorem updQueue_pfMsix (s : State) (q : Nat) (f : Queue → Queue) : (s.updQueue q f).pfMsix = s.pfMsix := rfl
@[simp] theorem updQueue_queues (s : State) (q : Nat) (f : Queue → Queue) : (s.updQueue q f).queues = Tbl.updD s.queues q .reset f := rfl
@[simp] theorem updQueue_rings (s : State) (q : Nat) (f : Queue → Queue) : (s.updQueue q f).rings = s.rings := rfl
@[simp] theorem updQueue_slots (s : State) (q : Nat) (f : Queue → Queue) : (s.updQueue q f).slots = s.slots := rfl
@[simp] theorem updQueue_grids (s : State) (q : Nat) (f : Queue → Queue) : (s.updQueue q f).grids = s.grids := rfl
@[simp] theorem updQueue_teams (s : State) (q : Nat) (f : Queue → Queue) : (s.updQueue q f).teams = s.teams := rfl
@[simp] theorem updQueue_waves (s : State) (q : Nat) (f : Queue → Queue) : (s.updQueue q f).waves = s.waves := rfl
@[simp] theorem updQueue_cores (s : State) (q : Nat) (f : Queue → Queue) : (s.updQueue q f).cores = s.cores := rfl
@[simp] theorem updQueue_claims (s : State) (q : Nat) (f : Queue → Queue) : (s.updQueue q f).claims = s.claims := rfl
@[simp] theorem updQueue_placed (s : State) (q : Nat) (f : Queue → Queue) : (s.updQueue q f).placed = s.placed := rfl
@[simp] theorem updQueue_mem (s : State) (q : Nat) (f : Queue → Queue) : (s.updQueue q f).mem = s.mem := rfl
@[simp] theorem updQueue_stale (s : State) (q : Nat) (f : Queue → Queue) : (s.updQueue q f).stale = s.stale := rfl
@[simp] theorem updQueue_poison (s : State) (q : Nat) (f : Queue → Queue) : (s.updQueue q f).poison = s.poison := rfl
@[simp] theorem updQueue_stamps (s : State) (q : Nat) (f : Queue → Queue) : (s.updQueue q f).stamps = s.stamps := rfl
@[simp] theorem updQueue_sliceStamps (s : State) (q : Nat) (f : Queue → Queue) : (s.updQueue q f).sliceStamps = s.sliceStamps := rfl
@[simp] theorem updQueue_sent (s : State) (q : Nat) (f : Queue → Queue) : (s.updQueue q f).sent = s.sent := rfl
@[simp] theorem updQueue_applied (s : State) (q : Nat) (f : Queue → Queue) : (s.updQueue q f).applied = s.applied := rfl
@[simp] theorem updQueue_peerWays (s : State) (q : Nat) (f : Queue → Queue) : (s.updQueue q f).peerWays = s.peerWays := rfl
@[simp] theorem updQueue_l2 (s : State) (q : Nat) (f : Queue → Queue) : (s.updQueue q f).l2 = s.l2 := rfl
@[simp] theorem updQueue_ctlb (s : State) (q : Nat) (f : Queue → Queue) : (s.updQueue q f).ctlb = s.ctlb := rfl
@[simp] theorem updQueue_l2pins (s : State) (q : Nat) (f : Queue → Queue) : (s.updQueue q f).l2pins = s.l2pins := rfl
@[simp] theorem updQueue_hostMem (s : State) (q : Nat) (f : Queue → Queue) : (s.updQueue q f).hostMem = s.hostMem := rfl
@[simp] theorem updQueue_jobs (s : State) (q : Nat) (f : Queue → Queue) : (s.updQueue q f).jobs = s.jobs := rfl
@[simp] theorem updQueue_fab (s : State) (q : Nat) (f : Queue → Queue) : (s.updQueue q f).fab = s.fab := rfl
@[simp] theorem updQueue_eth (s : State) (q : Nat) (f : Queue → Queue) : (s.updQueue q f).eth = s.eth := rfl
@[simp] theorem updQueue_nextId (s : State) (q : Nat) (f : Queue → Queue) : (s.updQueue q f).nextId = s.nextId := rfl
@[simp] theorem updQueue_agenda (s : State) (q : Nat) (f : Queue → Queue) : (s.updQueue q f).agenda = s.agenda := rfl
@[simp] theorem updQueue_cursor (s : State) (q : Nat) (f : Queue → Queue) : (s.updQueue q f).cursor = s.cursor := rfl
@[simp] theorem updQueue_cur (s : State) (q : Nat) (f : Queue → Queue) : (s.updQueue q f).cur = s.cur := rfl
@[simp] theorem updQueue_fresh (s : State) (q : Nat) (f : Queue → Queue) : (s.updQueue q f).fresh = s.fresh := rfl

/-! ## updRing -/

@[simp] theorem updRing_pkg (s : State) (vf k : Nat) (f : Ring → Ring) : (s.updRing vf k f).pkg = s.pkg := rfl
@[simp] theorem updRing_reft (s : State) (vf k : Nat) (f : Ring → Ring) : (s.updRing vf k f).reft = s.reft := rfl
@[simp] theorem updRing_time (s : State) (vf k : Nat) (f : Ring → Ring) : (s.updRing vf k f).time = s.time := rfl
@[simp] theorem updRing_hobs (s : State) (vf k : Nat) (f : Ring → Ring) : (s.updRing vf k f).hobs = s.hobs := rfl
@[simp] theorem updRing_pools (s : State) (vf k : Nat) (f : Ring → Ring) : (s.updRing vf k f).pools = s.pools := rfl
@[simp] theorem updRing_kettle (s : State) (vf k : Nat) (f : Ring → Ring) : (s.updRing vf k f).kettle = s.kettle := rfl
@[simp] theorem updRing_mbox (s : State) (vf k : Nat) (f : Ring → Ring) : (s.updRing vf k f).mbox = s.mbox := rfl
@[simp] theorem updRing_dev (s : State) (vf k : Nat) (f : Ring → Ring) : (s.updRing vf k f).dev = s.dev := rfl
@[simp] theorem updRing_log (s : State) (vf k : Nat) (f : Ring → Ring) : (s.updRing vf k f).log = s.log := rfl
@[simp] theorem updRing_outbox (s : State) (vf k : Nat) (f : Ring → Ring) : (s.updRing vf k f).outbox = s.outbox := rfl
@[simp] theorem updRing_clusterOwner (s : State) (vf k : Nat) (f : Ring → Ring) : (s.updRing vf k f).clusterOwner = s.clusterOwner := rfl
@[simp] theorem updRing_parts (s : State) (vf k : Nat) (f : Ring → Ring) : (s.updRing vf k f).parts = s.parts := rfl
@[simp] theorem updRing_vds (s : State) (vf k : Nat) (f : Ring → Ring) : (s.updRing vf k f).vds = s.vds := rfl
@[simp] theorem updRing_pfMsix (s : State) (vf k : Nat) (f : Ring → Ring) : (s.updRing vf k f).pfMsix = s.pfMsix := rfl
@[simp] theorem updRing_queues (s : State) (vf k : Nat) (f : Ring → Ring) : (s.updRing vf k f).queues = s.queues := rfl
@[simp] theorem updRing_rings (s : State) (vf k : Nat) (f : Ring → Ring) : (s.updRing vf k f).rings = Tbl.updD s.rings (vf * 16 + k) .reset f := rfl
@[simp] theorem updRing_slots (s : State) (vf k : Nat) (f : Ring → Ring) : (s.updRing vf k f).slots = s.slots := rfl
@[simp] theorem updRing_grids (s : State) (vf k : Nat) (f : Ring → Ring) : (s.updRing vf k f).grids = s.grids := rfl
@[simp] theorem updRing_teams (s : State) (vf k : Nat) (f : Ring → Ring) : (s.updRing vf k f).teams = s.teams := rfl
@[simp] theorem updRing_waves (s : State) (vf k : Nat) (f : Ring → Ring) : (s.updRing vf k f).waves = s.waves := rfl
@[simp] theorem updRing_cores (s : State) (vf k : Nat) (f : Ring → Ring) : (s.updRing vf k f).cores = s.cores := rfl
@[simp] theorem updRing_claims (s : State) (vf k : Nat) (f : Ring → Ring) : (s.updRing vf k f).claims = s.claims := rfl
@[simp] theorem updRing_placed (s : State) (vf k : Nat) (f : Ring → Ring) : (s.updRing vf k f).placed = s.placed := rfl
@[simp] theorem updRing_mem (s : State) (vf k : Nat) (f : Ring → Ring) : (s.updRing vf k f).mem = s.mem := rfl
@[simp] theorem updRing_stale (s : State) (vf k : Nat) (f : Ring → Ring) : (s.updRing vf k f).stale = s.stale := rfl
@[simp] theorem updRing_poison (s : State) (vf k : Nat) (f : Ring → Ring) : (s.updRing vf k f).poison = s.poison := rfl
@[simp] theorem updRing_stamps (s : State) (vf k : Nat) (f : Ring → Ring) : (s.updRing vf k f).stamps = s.stamps := rfl
@[simp] theorem updRing_sliceStamps (s : State) (vf k : Nat) (f : Ring → Ring) : (s.updRing vf k f).sliceStamps = s.sliceStamps := rfl
@[simp] theorem updRing_sent (s : State) (vf k : Nat) (f : Ring → Ring) : (s.updRing vf k f).sent = s.sent := rfl
@[simp] theorem updRing_applied (s : State) (vf k : Nat) (f : Ring → Ring) : (s.updRing vf k f).applied = s.applied := rfl
@[simp] theorem updRing_peerWays (s : State) (vf k : Nat) (f : Ring → Ring) : (s.updRing vf k f).peerWays = s.peerWays := rfl
@[simp] theorem updRing_l2 (s : State) (vf k : Nat) (f : Ring → Ring) : (s.updRing vf k f).l2 = s.l2 := rfl
@[simp] theorem updRing_ctlb (s : State) (vf k : Nat) (f : Ring → Ring) : (s.updRing vf k f).ctlb = s.ctlb := rfl
@[simp] theorem updRing_l2pins (s : State) (vf k : Nat) (f : Ring → Ring) : (s.updRing vf k f).l2pins = s.l2pins := rfl
@[simp] theorem updRing_hostMem (s : State) (vf k : Nat) (f : Ring → Ring) : (s.updRing vf k f).hostMem = s.hostMem := rfl
@[simp] theorem updRing_jobs (s : State) (vf k : Nat) (f : Ring → Ring) : (s.updRing vf k f).jobs = s.jobs := rfl
@[simp] theorem updRing_fab (s : State) (vf k : Nat) (f : Ring → Ring) : (s.updRing vf k f).fab = s.fab := rfl
@[simp] theorem updRing_eth (s : State) (vf k : Nat) (f : Ring → Ring) : (s.updRing vf k f).eth = s.eth := rfl
@[simp] theorem updRing_nextId (s : State) (vf k : Nat) (f : Ring → Ring) : (s.updRing vf k f).nextId = s.nextId := rfl
@[simp] theorem updRing_agenda (s : State) (vf k : Nat) (f : Ring → Ring) : (s.updRing vf k f).agenda = s.agenda := rfl
@[simp] theorem updRing_cursor (s : State) (vf k : Nat) (f : Ring → Ring) : (s.updRing vf k f).cursor = s.cursor := rfl
@[simp] theorem updRing_cur (s : State) (vf k : Nat) (f : Ring → Ring) : (s.updRing vf k f).cur = s.cur := rfl
@[simp] theorem updRing_fresh (s : State) (vf k : Nat) (f : Ring → Ring) : (s.updRing vf k f).fresh = s.fresh := rfl

/-! ## updSlot -/

@[simp] theorem updSlot_pkg (s : State) (k : Nat) (f : Slot → Slot) : (s.updSlot k f).pkg = s.pkg := rfl
@[simp] theorem updSlot_reft (s : State) (k : Nat) (f : Slot → Slot) : (s.updSlot k f).reft = s.reft := rfl
@[simp] theorem updSlot_time (s : State) (k : Nat) (f : Slot → Slot) : (s.updSlot k f).time = s.time := rfl
@[simp] theorem updSlot_hobs (s : State) (k : Nat) (f : Slot → Slot) : (s.updSlot k f).hobs = s.hobs := rfl
@[simp] theorem updSlot_pools (s : State) (k : Nat) (f : Slot → Slot) : (s.updSlot k f).pools = s.pools := rfl
@[simp] theorem updSlot_kettle (s : State) (k : Nat) (f : Slot → Slot) : (s.updSlot k f).kettle = s.kettle := rfl
@[simp] theorem updSlot_mbox (s : State) (k : Nat) (f : Slot → Slot) : (s.updSlot k f).mbox = s.mbox := rfl
@[simp] theorem updSlot_dev (s : State) (k : Nat) (f : Slot → Slot) : (s.updSlot k f).dev = s.dev := rfl
@[simp] theorem updSlot_log (s : State) (k : Nat) (f : Slot → Slot) : (s.updSlot k f).log = s.log := rfl
@[simp] theorem updSlot_outbox (s : State) (k : Nat) (f : Slot → Slot) : (s.updSlot k f).outbox = s.outbox := rfl
@[simp] theorem updSlot_clusterOwner (s : State) (k : Nat) (f : Slot → Slot) : (s.updSlot k f).clusterOwner = s.clusterOwner := rfl
@[simp] theorem updSlot_parts (s : State) (k : Nat) (f : Slot → Slot) : (s.updSlot k f).parts = s.parts := rfl
@[simp] theorem updSlot_vds (s : State) (k : Nat) (f : Slot → Slot) : (s.updSlot k f).vds = s.vds := rfl
@[simp] theorem updSlot_pfMsix (s : State) (k : Nat) (f : Slot → Slot) : (s.updSlot k f).pfMsix = s.pfMsix := rfl
@[simp] theorem updSlot_queues (s : State) (k : Nat) (f : Slot → Slot) : (s.updSlot k f).queues = s.queues := rfl
@[simp] theorem updSlot_rings (s : State) (k : Nat) (f : Slot → Slot) : (s.updSlot k f).rings = s.rings := rfl
@[simp] theorem updSlot_slots (s : State) (k : Nat) (f : Slot → Slot) : (s.updSlot k f).slots = Tbl.putS .reset s.slots k (f (s.slot k)) := rfl
@[simp] theorem updSlot_grids (s : State) (k : Nat) (f : Slot → Slot) : (s.updSlot k f).grids = s.grids := rfl
@[simp] theorem updSlot_teams (s : State) (k : Nat) (f : Slot → Slot) : (s.updSlot k f).teams = s.teams := rfl
@[simp] theorem updSlot_waves (s : State) (k : Nat) (f : Slot → Slot) : (s.updSlot k f).waves = s.waves := rfl
@[simp] theorem updSlot_cores (s : State) (k : Nat) (f : Slot → Slot) : (s.updSlot k f).cores = s.cores := rfl
@[simp] theorem updSlot_claims (s : State) (k : Nat) (f : Slot → Slot) : (s.updSlot k f).claims = s.claims := rfl
@[simp] theorem updSlot_placed (s : State) (k : Nat) (f : Slot → Slot) : (s.updSlot k f).placed = s.placed := rfl
@[simp] theorem updSlot_mem (s : State) (k : Nat) (f : Slot → Slot) : (s.updSlot k f).mem = s.mem := rfl
@[simp] theorem updSlot_stale (s : State) (k : Nat) (f : Slot → Slot) : (s.updSlot k f).stale = s.stale := rfl
@[simp] theorem updSlot_poison (s : State) (k : Nat) (f : Slot → Slot) : (s.updSlot k f).poison = s.poison := rfl
@[simp] theorem updSlot_stamps (s : State) (k : Nat) (f : Slot → Slot) : (s.updSlot k f).stamps = s.stamps := rfl
@[simp] theorem updSlot_sliceStamps (s : State) (k : Nat) (f : Slot → Slot) : (s.updSlot k f).sliceStamps = s.sliceStamps := rfl
@[simp] theorem updSlot_sent (s : State) (k : Nat) (f : Slot → Slot) : (s.updSlot k f).sent = s.sent := rfl
@[simp] theorem updSlot_applied (s : State) (k : Nat) (f : Slot → Slot) : (s.updSlot k f).applied = s.applied := rfl
@[simp] theorem updSlot_peerWays (s : State) (k : Nat) (f : Slot → Slot) : (s.updSlot k f).peerWays = s.peerWays := rfl
@[simp] theorem updSlot_l2 (s : State) (k : Nat) (f : Slot → Slot) : (s.updSlot k f).l2 = s.l2 := rfl
@[simp] theorem updSlot_ctlb (s : State) (k : Nat) (f : Slot → Slot) : (s.updSlot k f).ctlb = s.ctlb := rfl
@[simp] theorem updSlot_l2pins (s : State) (k : Nat) (f : Slot → Slot) : (s.updSlot k f).l2pins = s.l2pins := rfl
@[simp] theorem updSlot_hostMem (s : State) (k : Nat) (f : Slot → Slot) : (s.updSlot k f).hostMem = s.hostMem := rfl
@[simp] theorem updSlot_jobs (s : State) (k : Nat) (f : Slot → Slot) : (s.updSlot k f).jobs = s.jobs := rfl
@[simp] theorem updSlot_fab (s : State) (k : Nat) (f : Slot → Slot) : (s.updSlot k f).fab = s.fab := rfl
@[simp] theorem updSlot_eth (s : State) (k : Nat) (f : Slot → Slot) : (s.updSlot k f).eth = s.eth := rfl
@[simp] theorem updSlot_nextId (s : State) (k : Nat) (f : Slot → Slot) : (s.updSlot k f).nextId = s.nextId := rfl
@[simp] theorem updSlot_agenda (s : State) (k : Nat) (f : Slot → Slot) : (s.updSlot k f).agenda = s.agenda := rfl
@[simp] theorem updSlot_cursor (s : State) (k : Nat) (f : Slot → Slot) : (s.updSlot k f).cursor = s.cursor := rfl
@[simp] theorem updSlot_cur (s : State) (k : Nat) (f : Slot → Slot) : (s.updSlot k f).cur = s.cur := rfl
@[simp] theorem updSlot_fresh (s : State) (k : Nat) (f : Slot → Slot) : (s.updSlot k f).fresh = s.fresh := rfl

/-! ## updCore -/

@[simp] theorem updCore_pkg (s : State) (c : Nat) (f : Core → Core) : (s.updCore c f).pkg = s.pkg := rfl
@[simp] theorem updCore_reft (s : State) (c : Nat) (f : Core → Core) : (s.updCore c f).reft = s.reft := rfl
@[simp] theorem updCore_time (s : State) (c : Nat) (f : Core → Core) : (s.updCore c f).time = s.time := rfl
@[simp] theorem updCore_hobs (s : State) (c : Nat) (f : Core → Core) : (s.updCore c f).hobs = s.hobs := rfl
@[simp] theorem updCore_pools (s : State) (c : Nat) (f : Core → Core) : (s.updCore c f).pools = s.pools := rfl
@[simp] theorem updCore_kettle (s : State) (c : Nat) (f : Core → Core) : (s.updCore c f).kettle = s.kettle := rfl
@[simp] theorem updCore_mbox (s : State) (c : Nat) (f : Core → Core) : (s.updCore c f).mbox = s.mbox := rfl
@[simp] theorem updCore_dev (s : State) (c : Nat) (f : Core → Core) : (s.updCore c f).dev = s.dev := rfl
@[simp] theorem updCore_log (s : State) (c : Nat) (f : Core → Core) : (s.updCore c f).log = s.log := rfl
@[simp] theorem updCore_outbox (s : State) (c : Nat) (f : Core → Core) : (s.updCore c f).outbox = s.outbox := rfl
@[simp] theorem updCore_clusterOwner (s : State) (c : Nat) (f : Core → Core) : (s.updCore c f).clusterOwner = s.clusterOwner := rfl
@[simp] theorem updCore_parts (s : State) (c : Nat) (f : Core → Core) : (s.updCore c f).parts = s.parts := rfl
@[simp] theorem updCore_vds (s : State) (c : Nat) (f : Core → Core) : (s.updCore c f).vds = s.vds := rfl
@[simp] theorem updCore_pfMsix (s : State) (c : Nat) (f : Core → Core) : (s.updCore c f).pfMsix = s.pfMsix := rfl
@[simp] theorem updCore_queues (s : State) (c : Nat) (f : Core → Core) : (s.updCore c f).queues = s.queues := rfl
@[simp] theorem updCore_rings (s : State) (c : Nat) (f : Core → Core) : (s.updCore c f).rings = s.rings := rfl
@[simp] theorem updCore_slots (s : State) (c : Nat) (f : Core → Core) : (s.updCore c f).slots = s.slots := rfl
@[simp] theorem updCore_grids (s : State) (c : Nat) (f : Core → Core) : (s.updCore c f).grids = s.grids := rfl
@[simp] theorem updCore_teams (s : State) (c : Nat) (f : Core → Core) : (s.updCore c f).teams = s.teams := rfl
@[simp] theorem updCore_waves (s : State) (c : Nat) (f : Core → Core) : (s.updCore c f).waves = s.waves := rfl
@[simp] theorem updCore_cores (s : State) (c : Nat) (f : Core → Core) : (s.updCore c f).cores = Tbl.updD s.cores c .reset f := rfl
@[simp] theorem updCore_claims (s : State) (c : Nat) (f : Core → Core) : (s.updCore c f).claims = s.claims := rfl
@[simp] theorem updCore_placed (s : State) (c : Nat) (f : Core → Core) : (s.updCore c f).placed = s.placed := rfl
@[simp] theorem updCore_mem (s : State) (c : Nat) (f : Core → Core) : (s.updCore c f).mem = s.mem := rfl
@[simp] theorem updCore_stale (s : State) (c : Nat) (f : Core → Core) : (s.updCore c f).stale = s.stale := rfl
@[simp] theorem updCore_poison (s : State) (c : Nat) (f : Core → Core) : (s.updCore c f).poison = s.poison := rfl
@[simp] theorem updCore_stamps (s : State) (c : Nat) (f : Core → Core) : (s.updCore c f).stamps = s.stamps := rfl
@[simp] theorem updCore_sliceStamps (s : State) (c : Nat) (f : Core → Core) : (s.updCore c f).sliceStamps = s.sliceStamps := rfl
@[simp] theorem updCore_sent (s : State) (c : Nat) (f : Core → Core) : (s.updCore c f).sent = s.sent := rfl
@[simp] theorem updCore_applied (s : State) (c : Nat) (f : Core → Core) : (s.updCore c f).applied = s.applied := rfl
@[simp] theorem updCore_peerWays (s : State) (c : Nat) (f : Core → Core) : (s.updCore c f).peerWays = s.peerWays := rfl
@[simp] theorem updCore_l2 (s : State) (c : Nat) (f : Core → Core) : (s.updCore c f).l2 = s.l2 := rfl
@[simp] theorem updCore_ctlb (s : State) (c : Nat) (f : Core → Core) : (s.updCore c f).ctlb = s.ctlb := rfl
@[simp] theorem updCore_l2pins (s : State) (c : Nat) (f : Core → Core) : (s.updCore c f).l2pins = s.l2pins := rfl
@[simp] theorem updCore_hostMem (s : State) (c : Nat) (f : Core → Core) : (s.updCore c f).hostMem = s.hostMem := rfl
@[simp] theorem updCore_jobs (s : State) (c : Nat) (f : Core → Core) : (s.updCore c f).jobs = s.jobs := rfl
@[simp] theorem updCore_fab (s : State) (c : Nat) (f : Core → Core) : (s.updCore c f).fab = s.fab := rfl
@[simp] theorem updCore_eth (s : State) (c : Nat) (f : Core → Core) : (s.updCore c f).eth = s.eth := rfl
@[simp] theorem updCore_nextId (s : State) (c : Nat) (f : Core → Core) : (s.updCore c f).nextId = s.nextId := rfl
@[simp] theorem updCore_agenda (s : State) (c : Nat) (f : Core → Core) : (s.updCore c f).agenda = s.agenda := rfl
@[simp] theorem updCore_cursor (s : State) (c : Nat) (f : Core → Core) : (s.updCore c f).cursor = s.cursor := rfl
@[simp] theorem updCore_cur (s : State) (c : Nat) (f : Core → Core) : (s.updCore c f).cur = s.cur := rfl
@[simp] theorem updCore_fresh (s : State) (c : Nat) (f : Core → Core) : (s.updCore c f).fresh = s.fresh := rfl

/-! ## updGrid -/

@[simp] theorem updGrid_pkg (s : State) (g : Nat) (f : Grid → Grid) : (s.updGrid g f).pkg = s.pkg := rfl
@[simp] theorem updGrid_reft (s : State) (g : Nat) (f : Grid → Grid) : (s.updGrid g f).reft = s.reft := rfl
@[simp] theorem updGrid_time (s : State) (g : Nat) (f : Grid → Grid) : (s.updGrid g f).time = s.time := rfl
@[simp] theorem updGrid_hobs (s : State) (g : Nat) (f : Grid → Grid) : (s.updGrid g f).hobs = s.hobs := rfl
@[simp] theorem updGrid_pools (s : State) (g : Nat) (f : Grid → Grid) : (s.updGrid g f).pools = s.pools := rfl
@[simp] theorem updGrid_kettle (s : State) (g : Nat) (f : Grid → Grid) : (s.updGrid g f).kettle = s.kettle := rfl
@[simp] theorem updGrid_mbox (s : State) (g : Nat) (f : Grid → Grid) : (s.updGrid g f).mbox = s.mbox := rfl
@[simp] theorem updGrid_dev (s : State) (g : Nat) (f : Grid → Grid) : (s.updGrid g f).dev = s.dev := rfl
@[simp] theorem updGrid_log (s : State) (g : Nat) (f : Grid → Grid) : (s.updGrid g f).log = s.log := rfl
@[simp] theorem updGrid_outbox (s : State) (g : Nat) (f : Grid → Grid) : (s.updGrid g f).outbox = s.outbox := rfl
@[simp] theorem updGrid_clusterOwner (s : State) (g : Nat) (f : Grid → Grid) : (s.updGrid g f).clusterOwner = s.clusterOwner := rfl
@[simp] theorem updGrid_parts (s : State) (g : Nat) (f : Grid → Grid) : (s.updGrid g f).parts = s.parts := rfl
@[simp] theorem updGrid_vds (s : State) (g : Nat) (f : Grid → Grid) : (s.updGrid g f).vds = s.vds := rfl
@[simp] theorem updGrid_pfMsix (s : State) (g : Nat) (f : Grid → Grid) : (s.updGrid g f).pfMsix = s.pfMsix := rfl
@[simp] theorem updGrid_queues (s : State) (g : Nat) (f : Grid → Grid) : (s.updGrid g f).queues = s.queues := rfl
@[simp] theorem updGrid_rings (s : State) (g : Nat) (f : Grid → Grid) : (s.updGrid g f).rings = s.rings := rfl
@[simp] theorem updGrid_slots (s : State) (g : Nat) (f : Grid → Grid) : (s.updGrid g f).slots = s.slots := rfl
@[simp] theorem updGrid_grids (s : State) (g : Nat) (f : Grid → Grid) : (s.updGrid g f).grids = Tbl.upd s.grids g f := rfl
@[simp] theorem updGrid_teams (s : State) (g : Nat) (f : Grid → Grid) : (s.updGrid g f).teams = s.teams := rfl
@[simp] theorem updGrid_waves (s : State) (g : Nat) (f : Grid → Grid) : (s.updGrid g f).waves = s.waves := rfl
@[simp] theorem updGrid_cores (s : State) (g : Nat) (f : Grid → Grid) : (s.updGrid g f).cores = s.cores := rfl
@[simp] theorem updGrid_claims (s : State) (g : Nat) (f : Grid → Grid) : (s.updGrid g f).claims = s.claims := rfl
@[simp] theorem updGrid_placed (s : State) (g : Nat) (f : Grid → Grid) : (s.updGrid g f).placed = s.placed := rfl
@[simp] theorem updGrid_mem (s : State) (g : Nat) (f : Grid → Grid) : (s.updGrid g f).mem = s.mem := rfl
@[simp] theorem updGrid_stale (s : State) (g : Nat) (f : Grid → Grid) : (s.updGrid g f).stale = s.stale := rfl
@[simp] theorem updGrid_poison (s : State) (g : Nat) (f : Grid → Grid) : (s.updGrid g f).poison = s.poison := rfl
@[simp] theorem updGrid_stamps (s : State) (g : Nat) (f : Grid → Grid) : (s.updGrid g f).stamps = s.stamps := rfl
@[simp] theorem updGrid_sliceStamps (s : State) (g : Nat) (f : Grid → Grid) : (s.updGrid g f).sliceStamps = s.sliceStamps := rfl
@[simp] theorem updGrid_sent (s : State) (g : Nat) (f : Grid → Grid) : (s.updGrid g f).sent = s.sent := rfl
@[simp] theorem updGrid_applied (s : State) (g : Nat) (f : Grid → Grid) : (s.updGrid g f).applied = s.applied := rfl
@[simp] theorem updGrid_peerWays (s : State) (g : Nat) (f : Grid → Grid) : (s.updGrid g f).peerWays = s.peerWays := rfl
@[simp] theorem updGrid_l2 (s : State) (g : Nat) (f : Grid → Grid) : (s.updGrid g f).l2 = s.l2 := rfl
@[simp] theorem updGrid_ctlb (s : State) (g : Nat) (f : Grid → Grid) : (s.updGrid g f).ctlb = s.ctlb := rfl
@[simp] theorem updGrid_l2pins (s : State) (g : Nat) (f : Grid → Grid) : (s.updGrid g f).l2pins = s.l2pins := rfl
@[simp] theorem updGrid_hostMem (s : State) (g : Nat) (f : Grid → Grid) : (s.updGrid g f).hostMem = s.hostMem := rfl
@[simp] theorem updGrid_jobs (s : State) (g : Nat) (f : Grid → Grid) : (s.updGrid g f).jobs = s.jobs := rfl
@[simp] theorem updGrid_fab (s : State) (g : Nat) (f : Grid → Grid) : (s.updGrid g f).fab = s.fab := rfl
@[simp] theorem updGrid_eth (s : State) (g : Nat) (f : Grid → Grid) : (s.updGrid g f).eth = s.eth := rfl
@[simp] theorem updGrid_nextId (s : State) (g : Nat) (f : Grid → Grid) : (s.updGrid g f).nextId = s.nextId := rfl
@[simp] theorem updGrid_agenda (s : State) (g : Nat) (f : Grid → Grid) : (s.updGrid g f).agenda = s.agenda := rfl
@[simp] theorem updGrid_cursor (s : State) (g : Nat) (f : Grid → Grid) : (s.updGrid g f).cursor = s.cursor := rfl
@[simp] theorem updGrid_cur (s : State) (g : Nat) (f : Grid → Grid) : (s.updGrid g f).cur = s.cur := rfl
@[simp] theorem updGrid_fresh (s : State) (g : Nat) (f : Grid → Grid) : (s.updGrid g f).fresh = s.fresh := rfl

/-! ## updTeam -/

@[simp] theorem updTeam_pkg (s : State) (t : Nat) (f : Team → Team) : (s.updTeam t f).pkg = s.pkg := rfl
@[simp] theorem updTeam_reft (s : State) (t : Nat) (f : Team → Team) : (s.updTeam t f).reft = s.reft := rfl
@[simp] theorem updTeam_time (s : State) (t : Nat) (f : Team → Team) : (s.updTeam t f).time = s.time := rfl
@[simp] theorem updTeam_hobs (s : State) (t : Nat) (f : Team → Team) : (s.updTeam t f).hobs = s.hobs := rfl
@[simp] theorem updTeam_pools (s : State) (t : Nat) (f : Team → Team) : (s.updTeam t f).pools = s.pools := rfl
@[simp] theorem updTeam_kettle (s : State) (t : Nat) (f : Team → Team) : (s.updTeam t f).kettle = s.kettle := rfl
@[simp] theorem updTeam_mbox (s : State) (t : Nat) (f : Team → Team) : (s.updTeam t f).mbox = s.mbox := rfl
@[simp] theorem updTeam_dev (s : State) (t : Nat) (f : Team → Team) : (s.updTeam t f).dev = s.dev := rfl
@[simp] theorem updTeam_log (s : State) (t : Nat) (f : Team → Team) : (s.updTeam t f).log = s.log := rfl
@[simp] theorem updTeam_outbox (s : State) (t : Nat) (f : Team → Team) : (s.updTeam t f).outbox = s.outbox := rfl
@[simp] theorem updTeam_clusterOwner (s : State) (t : Nat) (f : Team → Team) : (s.updTeam t f).clusterOwner = s.clusterOwner := rfl
@[simp] theorem updTeam_parts (s : State) (t : Nat) (f : Team → Team) : (s.updTeam t f).parts = s.parts := rfl
@[simp] theorem updTeam_vds (s : State) (t : Nat) (f : Team → Team) : (s.updTeam t f).vds = s.vds := rfl
@[simp] theorem updTeam_pfMsix (s : State) (t : Nat) (f : Team → Team) : (s.updTeam t f).pfMsix = s.pfMsix := rfl
@[simp] theorem updTeam_queues (s : State) (t : Nat) (f : Team → Team) : (s.updTeam t f).queues = s.queues := rfl
@[simp] theorem updTeam_rings (s : State) (t : Nat) (f : Team → Team) : (s.updTeam t f).rings = s.rings := rfl
@[simp] theorem updTeam_slots (s : State) (t : Nat) (f : Team → Team) : (s.updTeam t f).slots = s.slots := rfl
@[simp] theorem updTeam_grids (s : State) (t : Nat) (f : Team → Team) : (s.updTeam t f).grids = s.grids := rfl
@[simp] theorem updTeam_teams (s : State) (t : Nat) (f : Team → Team) : (s.updTeam t f).teams = Tbl.upd s.teams t f := rfl
@[simp] theorem updTeam_waves (s : State) (t : Nat) (f : Team → Team) : (s.updTeam t f).waves = s.waves := rfl
@[simp] theorem updTeam_cores (s : State) (t : Nat) (f : Team → Team) : (s.updTeam t f).cores = s.cores := rfl
@[simp] theorem updTeam_claims (s : State) (t : Nat) (f : Team → Team) : (s.updTeam t f).claims = s.claims := rfl
@[simp] theorem updTeam_placed (s : State) (t : Nat) (f : Team → Team) : (s.updTeam t f).placed = s.placed := rfl
@[simp] theorem updTeam_mem (s : State) (t : Nat) (f : Team → Team) : (s.updTeam t f).mem = s.mem := rfl
@[simp] theorem updTeam_stale (s : State) (t : Nat) (f : Team → Team) : (s.updTeam t f).stale = s.stale := rfl
@[simp] theorem updTeam_poison (s : State) (t : Nat) (f : Team → Team) : (s.updTeam t f).poison = s.poison := rfl
@[simp] theorem updTeam_stamps (s : State) (t : Nat) (f : Team → Team) : (s.updTeam t f).stamps = s.stamps := rfl
@[simp] theorem updTeam_sliceStamps (s : State) (t : Nat) (f : Team → Team) : (s.updTeam t f).sliceStamps = s.sliceStamps := rfl
@[simp] theorem updTeam_sent (s : State) (t : Nat) (f : Team → Team) : (s.updTeam t f).sent = s.sent := rfl
@[simp] theorem updTeam_applied (s : State) (t : Nat) (f : Team → Team) : (s.updTeam t f).applied = s.applied := rfl
@[simp] theorem updTeam_peerWays (s : State) (t : Nat) (f : Team → Team) : (s.updTeam t f).peerWays = s.peerWays := rfl
@[simp] theorem updTeam_l2 (s : State) (t : Nat) (f : Team → Team) : (s.updTeam t f).l2 = s.l2 := rfl
@[simp] theorem updTeam_ctlb (s : State) (t : Nat) (f : Team → Team) : (s.updTeam t f).ctlb = s.ctlb := rfl
@[simp] theorem updTeam_l2pins (s : State) (t : Nat) (f : Team → Team) : (s.updTeam t f).l2pins = s.l2pins := rfl
@[simp] theorem updTeam_hostMem (s : State) (t : Nat) (f : Team → Team) : (s.updTeam t f).hostMem = s.hostMem := rfl
@[simp] theorem updTeam_jobs (s : State) (t : Nat) (f : Team → Team) : (s.updTeam t f).jobs = s.jobs := rfl
@[simp] theorem updTeam_fab (s : State) (t : Nat) (f : Team → Team) : (s.updTeam t f).fab = s.fab := rfl
@[simp] theorem updTeam_eth (s : State) (t : Nat) (f : Team → Team) : (s.updTeam t f).eth = s.eth := rfl
@[simp] theorem updTeam_nextId (s : State) (t : Nat) (f : Team → Team) : (s.updTeam t f).nextId = s.nextId := rfl
@[simp] theorem updTeam_agenda (s : State) (t : Nat) (f : Team → Team) : (s.updTeam t f).agenda = s.agenda := rfl
@[simp] theorem updTeam_cursor (s : State) (t : Nat) (f : Team → Team) : (s.updTeam t f).cursor = s.cursor := rfl
@[simp] theorem updTeam_cur (s : State) (t : Nat) (f : Team → Team) : (s.updTeam t f).cur = s.cur := rfl
@[simp] theorem updTeam_fresh (s : State) (t : Nat) (f : Team → Team) : (s.updTeam t f).fresh = s.fresh := rfl

/-! ## updWave -/

@[simp] theorem updWave_pkg (s : State) (w : Nat) (f : Wave → Wave) : (s.updWave w f).pkg = s.pkg := rfl
@[simp] theorem updWave_reft (s : State) (w : Nat) (f : Wave → Wave) : (s.updWave w f).reft = s.reft := rfl
@[simp] theorem updWave_time (s : State) (w : Nat) (f : Wave → Wave) : (s.updWave w f).time = s.time := rfl
@[simp] theorem updWave_hobs (s : State) (w : Nat) (f : Wave → Wave) : (s.updWave w f).hobs = s.hobs := rfl
@[simp] theorem updWave_pools (s : State) (w : Nat) (f : Wave → Wave) : (s.updWave w f).pools = s.pools := rfl
@[simp] theorem updWave_kettle (s : State) (w : Nat) (f : Wave → Wave) : (s.updWave w f).kettle = s.kettle := rfl
@[simp] theorem updWave_mbox (s : State) (w : Nat) (f : Wave → Wave) : (s.updWave w f).mbox = s.mbox := rfl
@[simp] theorem updWave_dev (s : State) (w : Nat) (f : Wave → Wave) : (s.updWave w f).dev = s.dev := rfl
@[simp] theorem updWave_log (s : State) (w : Nat) (f : Wave → Wave) : (s.updWave w f).log = s.log := rfl
@[simp] theorem updWave_outbox (s : State) (w : Nat) (f : Wave → Wave) : (s.updWave w f).outbox = s.outbox := rfl
@[simp] theorem updWave_clusterOwner (s : State) (w : Nat) (f : Wave → Wave) : (s.updWave w f).clusterOwner = s.clusterOwner := rfl
@[simp] theorem updWave_parts (s : State) (w : Nat) (f : Wave → Wave) : (s.updWave w f).parts = s.parts := rfl
@[simp] theorem updWave_vds (s : State) (w : Nat) (f : Wave → Wave) : (s.updWave w f).vds = s.vds := rfl
@[simp] theorem updWave_pfMsix (s : State) (w : Nat) (f : Wave → Wave) : (s.updWave w f).pfMsix = s.pfMsix := rfl
@[simp] theorem updWave_queues (s : State) (w : Nat) (f : Wave → Wave) : (s.updWave w f).queues = s.queues := rfl
@[simp] theorem updWave_rings (s : State) (w : Nat) (f : Wave → Wave) : (s.updWave w f).rings = s.rings := rfl
@[simp] theorem updWave_slots (s : State) (w : Nat) (f : Wave → Wave) : (s.updWave w f).slots = s.slots := rfl
@[simp] theorem updWave_grids (s : State) (w : Nat) (f : Wave → Wave) : (s.updWave w f).grids = s.grids := rfl
@[simp] theorem updWave_teams (s : State) (w : Nat) (f : Wave → Wave) : (s.updWave w f).teams = s.teams := rfl
@[simp] theorem updWave_waves (s : State) (w : Nat) (f : Wave → Wave) : (s.updWave w f).waves = Tbl.upd s.waves w f := rfl
@[simp] theorem updWave_cores (s : State) (w : Nat) (f : Wave → Wave) : (s.updWave w f).cores = s.cores := rfl
@[simp] theorem updWave_claims (s : State) (w : Nat) (f : Wave → Wave) : (s.updWave w f).claims = s.claims := rfl
@[simp] theorem updWave_placed (s : State) (w : Nat) (f : Wave → Wave) : (s.updWave w f).placed = s.placed := rfl
@[simp] theorem updWave_mem (s : State) (w : Nat) (f : Wave → Wave) : (s.updWave w f).mem = s.mem := rfl
@[simp] theorem updWave_stale (s : State) (w : Nat) (f : Wave → Wave) : (s.updWave w f).stale = s.stale := rfl
@[simp] theorem updWave_poison (s : State) (w : Nat) (f : Wave → Wave) : (s.updWave w f).poison = s.poison := rfl
@[simp] theorem updWave_stamps (s : State) (w : Nat) (f : Wave → Wave) : (s.updWave w f).stamps = s.stamps := rfl
@[simp] theorem updWave_sliceStamps (s : State) (w : Nat) (f : Wave → Wave) : (s.updWave w f).sliceStamps = s.sliceStamps := rfl
@[simp] theorem updWave_sent (s : State) (w : Nat) (f : Wave → Wave) : (s.updWave w f).sent = s.sent := rfl
@[simp] theorem updWave_applied (s : State) (w : Nat) (f : Wave → Wave) : (s.updWave w f).applied = s.applied := rfl
@[simp] theorem updWave_peerWays (s : State) (w : Nat) (f : Wave → Wave) : (s.updWave w f).peerWays = s.peerWays := rfl
@[simp] theorem updWave_l2 (s : State) (w : Nat) (f : Wave → Wave) : (s.updWave w f).l2 = s.l2 := rfl
@[simp] theorem updWave_ctlb (s : State) (w : Nat) (f : Wave → Wave) : (s.updWave w f).ctlb = s.ctlb := rfl
@[simp] theorem updWave_l2pins (s : State) (w : Nat) (f : Wave → Wave) : (s.updWave w f).l2pins = s.l2pins := rfl
@[simp] theorem updWave_hostMem (s : State) (w : Nat) (f : Wave → Wave) : (s.updWave w f).hostMem = s.hostMem := rfl
@[simp] theorem updWave_jobs (s : State) (w : Nat) (f : Wave → Wave) : (s.updWave w f).jobs = s.jobs := rfl
@[simp] theorem updWave_fab (s : State) (w : Nat) (f : Wave → Wave) : (s.updWave w f).fab = s.fab := rfl
@[simp] theorem updWave_eth (s : State) (w : Nat) (f : Wave → Wave) : (s.updWave w f).eth = s.eth := rfl
@[simp] theorem updWave_nextId (s : State) (w : Nat) (f : Wave → Wave) : (s.updWave w f).nextId = s.nextId := rfl
@[simp] theorem updWave_agenda (s : State) (w : Nat) (f : Wave → Wave) : (s.updWave w f).agenda = s.agenda := rfl
@[simp] theorem updWave_cursor (s : State) (w : Nat) (f : Wave → Wave) : (s.updWave w f).cursor = s.cursor := rfl
@[simp] theorem updWave_cur (s : State) (w : Nat) (f : Wave → Wave) : (s.updWave w f).cur = s.cur := rfl
@[simp] theorem updWave_fresh (s : State) (w : Nat) (f : Wave → Wave) : (s.updWave w f).fresh = s.fresh := rfl

/-! ## updJob -/

@[simp] theorem updJob_pkg (s : State) (j : Nat) (f : Job → Job) : (s.updJob j f).pkg = s.pkg := rfl
@[simp] theorem updJob_reft (s : State) (j : Nat) (f : Job → Job) : (s.updJob j f).reft = s.reft := rfl
@[simp] theorem updJob_time (s : State) (j : Nat) (f : Job → Job) : (s.updJob j f).time = s.time := rfl
@[simp] theorem updJob_hobs (s : State) (j : Nat) (f : Job → Job) : (s.updJob j f).hobs = s.hobs := rfl
@[simp] theorem updJob_pools (s : State) (j : Nat) (f : Job → Job) : (s.updJob j f).pools = s.pools := rfl
@[simp] theorem updJob_kettle (s : State) (j : Nat) (f : Job → Job) : (s.updJob j f).kettle = s.kettle := rfl
@[simp] theorem updJob_mbox (s : State) (j : Nat) (f : Job → Job) : (s.updJob j f).mbox = s.mbox := rfl
@[simp] theorem updJob_dev (s : State) (j : Nat) (f : Job → Job) : (s.updJob j f).dev = s.dev := rfl
@[simp] theorem updJob_log (s : State) (j : Nat) (f : Job → Job) : (s.updJob j f).log = s.log := rfl
@[simp] theorem updJob_outbox (s : State) (j : Nat) (f : Job → Job) : (s.updJob j f).outbox = s.outbox := rfl
@[simp] theorem updJob_clusterOwner (s : State) (j : Nat) (f : Job → Job) : (s.updJob j f).clusterOwner = s.clusterOwner := rfl
@[simp] theorem updJob_parts (s : State) (j : Nat) (f : Job → Job) : (s.updJob j f).parts = s.parts := rfl
@[simp] theorem updJob_vds (s : State) (j : Nat) (f : Job → Job) : (s.updJob j f).vds = s.vds := rfl
@[simp] theorem updJob_pfMsix (s : State) (j : Nat) (f : Job → Job) : (s.updJob j f).pfMsix = s.pfMsix := rfl
@[simp] theorem updJob_queues (s : State) (j : Nat) (f : Job → Job) : (s.updJob j f).queues = s.queues := rfl
@[simp] theorem updJob_rings (s : State) (j : Nat) (f : Job → Job) : (s.updJob j f).rings = s.rings := rfl
@[simp] theorem updJob_slots (s : State) (j : Nat) (f : Job → Job) : (s.updJob j f).slots = s.slots := rfl
@[simp] theorem updJob_grids (s : State) (j : Nat) (f : Job → Job) : (s.updJob j f).grids = s.grids := rfl
@[simp] theorem updJob_teams (s : State) (j : Nat) (f : Job → Job) : (s.updJob j f).teams = s.teams := rfl
@[simp] theorem updJob_waves (s : State) (j : Nat) (f : Job → Job) : (s.updJob j f).waves = s.waves := rfl
@[simp] theorem updJob_cores (s : State) (j : Nat) (f : Job → Job) : (s.updJob j f).cores = s.cores := rfl
@[simp] theorem updJob_claims (s : State) (j : Nat) (f : Job → Job) : (s.updJob j f).claims = s.claims := rfl
@[simp] theorem updJob_placed (s : State) (j : Nat) (f : Job → Job) : (s.updJob j f).placed = s.placed := rfl
@[simp] theorem updJob_mem (s : State) (j : Nat) (f : Job → Job) : (s.updJob j f).mem = s.mem := rfl
@[simp] theorem updJob_stale (s : State) (j : Nat) (f : Job → Job) : (s.updJob j f).stale = s.stale := rfl
@[simp] theorem updJob_poison (s : State) (j : Nat) (f : Job → Job) : (s.updJob j f).poison = s.poison := rfl
@[simp] theorem updJob_stamps (s : State) (j : Nat) (f : Job → Job) : (s.updJob j f).stamps = s.stamps := rfl
@[simp] theorem updJob_sliceStamps (s : State) (j : Nat) (f : Job → Job) : (s.updJob j f).sliceStamps = s.sliceStamps := rfl
@[simp] theorem updJob_sent (s : State) (j : Nat) (f : Job → Job) : (s.updJob j f).sent = s.sent := rfl
@[simp] theorem updJob_applied (s : State) (j : Nat) (f : Job → Job) : (s.updJob j f).applied = s.applied := rfl
@[simp] theorem updJob_peerWays (s : State) (j : Nat) (f : Job → Job) : (s.updJob j f).peerWays = s.peerWays := rfl
@[simp] theorem updJob_l2 (s : State) (j : Nat) (f : Job → Job) : (s.updJob j f).l2 = s.l2 := rfl
@[simp] theorem updJob_ctlb (s : State) (j : Nat) (f : Job → Job) : (s.updJob j f).ctlb = s.ctlb := rfl
@[simp] theorem updJob_l2pins (s : State) (j : Nat) (f : Job → Job) : (s.updJob j f).l2pins = s.l2pins := rfl
@[simp] theorem updJob_hostMem (s : State) (j : Nat) (f : Job → Job) : (s.updJob j f).hostMem = s.hostMem := rfl
@[simp] theorem updJob_jobs (s : State) (j : Nat) (f : Job → Job) : (s.updJob j f).jobs = Tbl.upd s.jobs j f := rfl
@[simp] theorem updJob_fab (s : State) (j : Nat) (f : Job → Job) : (s.updJob j f).fab = s.fab := rfl
@[simp] theorem updJob_eth (s : State) (j : Nat) (f : Job → Job) : (s.updJob j f).eth = s.eth := rfl
@[simp] theorem updJob_nextId (s : State) (j : Nat) (f : Job → Job) : (s.updJob j f).nextId = s.nextId := rfl
@[simp] theorem updJob_agenda (s : State) (j : Nat) (f : Job → Job) : (s.updJob j f).agenda = s.agenda := rfl
@[simp] theorem updJob_cursor (s : State) (j : Nat) (f : Job → Job) : (s.updJob j f).cursor = s.cursor := rfl
@[simp] theorem updJob_cur (s : State) (j : Nat) (f : Job → Job) : (s.updJob j f).cur = s.cur := rfl
@[simp] theorem updJob_fresh (s : State) (j : Nat) (f : Job → Job) : (s.updJob j f).fresh = s.fresh := rfl

/-! ## drawn -/

@[simp] theorem drawn_pkg (s : State) : (s.drawn).pkg = s.pkg := rfl
@[simp] theorem drawn_reft (s : State) : (s.drawn).reft = s.reft := rfl
@[simp] theorem drawn_time (s : State) : (s.drawn).time = s.time := rfl
@[simp] theorem drawn_hobs (s : State) : (s.drawn).hobs = s.hobs := rfl
@[simp] theorem drawn_pools (s : State) : (s.drawn).pools = s.pools := rfl
@[simp] theorem drawn_kettle (s : State) : (s.drawn).kettle = s.kettle := rfl
@[simp] theorem drawn_mbox (s : State) : (s.drawn).mbox = s.mbox := rfl
@[simp] theorem drawn_dev (s : State) : (s.drawn).dev = s.dev := rfl
@[simp] theorem drawn_log (s : State) : (s.drawn).log = s.log := rfl
@[simp] theorem drawn_outbox (s : State) : (s.drawn).outbox = s.outbox := rfl
@[simp] theorem drawn_clusterOwner (s : State) : (s.drawn).clusterOwner = s.clusterOwner := rfl
@[simp] theorem drawn_parts (s : State) : (s.drawn).parts = s.parts := rfl
@[simp] theorem drawn_vds (s : State) : (s.drawn).vds = s.vds := rfl
@[simp] theorem drawn_pfMsix (s : State) : (s.drawn).pfMsix = s.pfMsix := rfl
@[simp] theorem drawn_queues (s : State) : (s.drawn).queues = s.queues := rfl
@[simp] theorem drawn_rings (s : State) : (s.drawn).rings = s.rings := rfl
@[simp] theorem drawn_slots (s : State) : (s.drawn).slots = s.slots := rfl
@[simp] theorem drawn_grids (s : State) : (s.drawn).grids = s.grids := rfl
@[simp] theorem drawn_teams (s : State) : (s.drawn).teams = s.teams := rfl
@[simp] theorem drawn_waves (s : State) : (s.drawn).waves = s.waves := rfl
@[simp] theorem drawn_cores (s : State) : (s.drawn).cores = s.cores := rfl
@[simp] theorem drawn_claims (s : State) : (s.drawn).claims = s.claims := rfl
@[simp] theorem drawn_placed (s : State) : (s.drawn).placed = s.placed := rfl
@[simp] theorem drawn_mem (s : State) : (s.drawn).mem = s.mem := rfl
@[simp] theorem drawn_stale (s : State) : (s.drawn).stale = s.stale := rfl
@[simp] theorem drawn_poison (s : State) : (s.drawn).poison = s.poison := rfl
@[simp] theorem drawn_stamps (s : State) : (s.drawn).stamps = s.stamps := rfl
@[simp] theorem drawn_sliceStamps (s : State) : (s.drawn).sliceStamps = s.sliceStamps := rfl
@[simp] theorem drawn_sent (s : State) : (s.drawn).sent = s.sent := rfl
@[simp] theorem drawn_applied (s : State) : (s.drawn).applied = s.applied := rfl
@[simp] theorem drawn_peerWays (s : State) : (s.drawn).peerWays = s.peerWays := rfl
@[simp] theorem drawn_l2 (s : State) : (s.drawn).l2 = s.l2 := rfl
@[simp] theorem drawn_ctlb (s : State) : (s.drawn).ctlb = s.ctlb := rfl
@[simp] theorem drawn_l2pins (s : State) : (s.drawn).l2pins = s.l2pins := rfl
@[simp] theorem drawn_hostMem (s : State) : (s.drawn).hostMem = s.hostMem := rfl
@[simp] theorem drawn_jobs (s : State) : (s.drawn).jobs = s.jobs := rfl
@[simp] theorem drawn_fab (s : State) : (s.drawn).fab = s.fab := rfl
@[simp] theorem drawn_eth (s : State) : (s.drawn).eth = s.eth := rfl
@[simp] theorem drawn_nextId (s : State) : (s.drawn).nextId = s.nextId := rfl
@[simp] theorem drawn_agenda (s : State) : (s.drawn).agenda = s.agenda := rfl
@[simp] theorem drawn_cursor (s : State) : (s.drawn).cursor = s.cursor := rfl
@[simp] theorem drawn_cur (s : State) : (s.drawn).cur = s.cur := rfl
@[simp] theorem drawn_fresh (s : State) : (s.drawn).fresh = s.fresh + 1 := rfl

/-! ## atTick -/

@[simp] theorem atTick_pkg (s : State) (t : Nat) (i : Instr) : (s.atTick t i).pkg = s.pkg := rfl
@[simp] theorem atTick_reft (s : State) (t : Nat) (i : Instr) : (s.atTick t i).reft = s.reft := rfl
@[simp] theorem atTick_time (s : State) (t : Nat) (i : Instr) : (s.atTick t i).time = s.time := rfl
@[simp] theorem atTick_hobs (s : State) (t : Nat) (i : Instr) : (s.atTick t i).hobs = s.hobs := rfl
@[simp] theorem atTick_pools (s : State) (t : Nat) (i : Instr) : (s.atTick t i).pools = s.pools := rfl
@[simp] theorem atTick_kettle (s : State) (t : Nat) (i : Instr) : (s.atTick t i).kettle = s.kettle := rfl
@[simp] theorem atTick_mbox (s : State) (t : Nat) (i : Instr) : (s.atTick t i).mbox = s.mbox := rfl
@[simp] theorem atTick_dev (s : State) (t : Nat) (i : Instr) : (s.atTick t i).dev = s.dev := rfl
@[simp] theorem atTick_log (s : State) (t : Nat) (i : Instr) : (s.atTick t i).log = s.log := rfl
@[simp] theorem atTick_outbox (s : State) (t : Nat) (i : Instr) : (s.atTick t i).outbox = s.outbox := rfl
@[simp] theorem atTick_clusterOwner (s : State) (t : Nat) (i : Instr) : (s.atTick t i).clusterOwner = s.clusterOwner := rfl
@[simp] theorem atTick_parts (s : State) (t : Nat) (i : Instr) : (s.atTick t i).parts = s.parts := rfl
@[simp] theorem atTick_vds (s : State) (t : Nat) (i : Instr) : (s.atTick t i).vds = s.vds := rfl
@[simp] theorem atTick_pfMsix (s : State) (t : Nat) (i : Instr) : (s.atTick t i).pfMsix = s.pfMsix := rfl
@[simp] theorem atTick_queues (s : State) (t : Nat) (i : Instr) : (s.atTick t i).queues = s.queues := rfl
@[simp] theorem atTick_rings (s : State) (t : Nat) (i : Instr) : (s.atTick t i).rings = s.rings := rfl
@[simp] theorem atTick_slots (s : State) (t : Nat) (i : Instr) : (s.atTick t i).slots = s.slots := rfl
@[simp] theorem atTick_grids (s : State) (t : Nat) (i : Instr) : (s.atTick t i).grids = s.grids := rfl
@[simp] theorem atTick_teams (s : State) (t : Nat) (i : Instr) : (s.atTick t i).teams = s.teams := rfl
@[simp] theorem atTick_waves (s : State) (t : Nat) (i : Instr) : (s.atTick t i).waves = s.waves := rfl
@[simp] theorem atTick_cores (s : State) (t : Nat) (i : Instr) : (s.atTick t i).cores = s.cores := rfl
@[simp] theorem atTick_claims (s : State) (t : Nat) (i : Instr) : (s.atTick t i).claims = s.claims := rfl
@[simp] theorem atTick_placed (s : State) (t : Nat) (i : Instr) : (s.atTick t i).placed = s.placed := rfl
@[simp] theorem atTick_mem (s : State) (t : Nat) (i : Instr) : (s.atTick t i).mem = s.mem := rfl
@[simp] theorem atTick_stale (s : State) (t : Nat) (i : Instr) : (s.atTick t i).stale = s.stale := rfl
@[simp] theorem atTick_poison (s : State) (t : Nat) (i : Instr) : (s.atTick t i).poison = s.poison := rfl
@[simp] theorem atTick_stamps (s : State) (t : Nat) (i : Instr) : (s.atTick t i).stamps = s.stamps := rfl
@[simp] theorem atTick_sliceStamps (s : State) (t : Nat) (i : Instr) : (s.atTick t i).sliceStamps = s.sliceStamps := rfl
@[simp] theorem atTick_sent (s : State) (t : Nat) (i : Instr) : (s.atTick t i).sent = s.sent := rfl
@[simp] theorem atTick_applied (s : State) (t : Nat) (i : Instr) : (s.atTick t i).applied = s.applied := rfl
@[simp] theorem atTick_peerWays (s : State) (t : Nat) (i : Instr) : (s.atTick t i).peerWays = s.peerWays := rfl
@[simp] theorem atTick_l2 (s : State) (t : Nat) (i : Instr) : (s.atTick t i).l2 = s.l2 := rfl
@[simp] theorem atTick_ctlb (s : State) (t : Nat) (i : Instr) : (s.atTick t i).ctlb = s.ctlb := rfl
@[simp] theorem atTick_l2pins (s : State) (t : Nat) (i : Instr) : (s.atTick t i).l2pins = s.l2pins := rfl
@[simp] theorem atTick_hostMem (s : State) (t : Nat) (i : Instr) : (s.atTick t i).hostMem = s.hostMem := rfl
@[simp] theorem atTick_jobs (s : State) (t : Nat) (i : Instr) : (s.atTick t i).jobs = s.jobs := rfl
@[simp] theorem atTick_fab (s : State) (t : Nat) (i : Instr) : (s.atTick t i).fab = s.fab := rfl
@[simp] theorem atTick_eth (s : State) (t : Nat) (i : Instr) : (s.atTick t i).eth = s.eth := rfl
@[simp] theorem atTick_nextId (s : State) (t : Nat) (i : Instr) : (s.atTick t i).nextId = s.nextId := rfl
@[simp] theorem atTick_agenda (s : State) (t : Nat) (i : Instr) : (s.atTick t i).agenda = insertBy (fun e => e.1) (t, i) s.agenda := rfl
@[simp] theorem atTick_cursor (s : State) (t : Nat) (i : Instr) : (s.atTick t i).cursor = s.cursor := rfl
@[simp] theorem atTick_cur (s : State) (t : Nat) (i : Instr) : (s.atTick t i).cur = s.cur := rfl
@[simp] theorem atTick_fresh (s : State) (t : Nat) (i : Instr) : (s.atTick t i).fresh = s.fresh := rfl

/-! ## withdraw -/

@[simp] theorem withdraw_pkg (s : State) (i : Instr) : (s.withdraw i).pkg = s.pkg := rfl
@[simp] theorem withdraw_reft (s : State) (i : Instr) : (s.withdraw i).reft = s.reft := rfl
@[simp] theorem withdraw_time (s : State) (i : Instr) : (s.withdraw i).time = s.time := rfl
@[simp] theorem withdraw_hobs (s : State) (i : Instr) : (s.withdraw i).hobs = s.hobs := rfl
@[simp] theorem withdraw_pools (s : State) (i : Instr) : (s.withdraw i).pools = s.pools := rfl
@[simp] theorem withdraw_kettle (s : State) (i : Instr) : (s.withdraw i).kettle = s.kettle := rfl
@[simp] theorem withdraw_mbox (s : State) (i : Instr) : (s.withdraw i).mbox = s.mbox := rfl
@[simp] theorem withdraw_dev (s : State) (i : Instr) : (s.withdraw i).dev = s.dev := rfl
@[simp] theorem withdraw_log (s : State) (i : Instr) : (s.withdraw i).log = s.log := rfl
@[simp] theorem withdraw_outbox (s : State) (i : Instr) : (s.withdraw i).outbox = s.outbox := rfl
@[simp] theorem withdraw_clusterOwner (s : State) (i : Instr) : (s.withdraw i).clusterOwner = s.clusterOwner := rfl
@[simp] theorem withdraw_parts (s : State) (i : Instr) : (s.withdraw i).parts = s.parts := rfl
@[simp] theorem withdraw_vds (s : State) (i : Instr) : (s.withdraw i).vds = s.vds := rfl
@[simp] theorem withdraw_pfMsix (s : State) (i : Instr) : (s.withdraw i).pfMsix = s.pfMsix := rfl
@[simp] theorem withdraw_queues (s : State) (i : Instr) : (s.withdraw i).queues = s.queues := rfl
@[simp] theorem withdraw_rings (s : State) (i : Instr) : (s.withdraw i).rings = s.rings := rfl
@[simp] theorem withdraw_slots (s : State) (i : Instr) : (s.withdraw i).slots = s.slots := rfl
@[simp] theorem withdraw_grids (s : State) (i : Instr) : (s.withdraw i).grids = s.grids := rfl
@[simp] theorem withdraw_teams (s : State) (i : Instr) : (s.withdraw i).teams = s.teams := rfl
@[simp] theorem withdraw_waves (s : State) (i : Instr) : (s.withdraw i).waves = s.waves := rfl
@[simp] theorem withdraw_cores (s : State) (i : Instr) : (s.withdraw i).cores = s.cores := rfl
@[simp] theorem withdraw_claims (s : State) (i : Instr) : (s.withdraw i).claims = s.claims := rfl
@[simp] theorem withdraw_placed (s : State) (i : Instr) : (s.withdraw i).placed = s.placed := rfl
@[simp] theorem withdraw_mem (s : State) (i : Instr) : (s.withdraw i).mem = s.mem := rfl
@[simp] theorem withdraw_stale (s : State) (i : Instr) : (s.withdraw i).stale = s.stale := rfl
@[simp] theorem withdraw_poison (s : State) (i : Instr) : (s.withdraw i).poison = s.poison := rfl
@[simp] theorem withdraw_stamps (s : State) (i : Instr) : (s.withdraw i).stamps = s.stamps := rfl
@[simp] theorem withdraw_sliceStamps (s : State) (i : Instr) : (s.withdraw i).sliceStamps = s.sliceStamps := rfl
@[simp] theorem withdraw_sent (s : State) (i : Instr) : (s.withdraw i).sent = s.sent := rfl
@[simp] theorem withdraw_applied (s : State) (i : Instr) : (s.withdraw i).applied = s.applied := rfl
@[simp] theorem withdraw_peerWays (s : State) (i : Instr) : (s.withdraw i).peerWays = s.peerWays := rfl
@[simp] theorem withdraw_l2 (s : State) (i : Instr) : (s.withdraw i).l2 = s.l2 := rfl
@[simp] theorem withdraw_ctlb (s : State) (i : Instr) : (s.withdraw i).ctlb = s.ctlb := rfl
@[simp] theorem withdraw_l2pins (s : State) (i : Instr) : (s.withdraw i).l2pins = s.l2pins := rfl
@[simp] theorem withdraw_hostMem (s : State) (i : Instr) : (s.withdraw i).hostMem = s.hostMem := rfl
@[simp] theorem withdraw_jobs (s : State) (i : Instr) : (s.withdraw i).jobs = s.jobs := rfl
@[simp] theorem withdraw_fab (s : State) (i : Instr) : (s.withdraw i).fab = s.fab := rfl
@[simp] theorem withdraw_eth (s : State) (i : Instr) : (s.withdraw i).eth = s.eth := rfl
@[simp] theorem withdraw_nextId (s : State) (i : Instr) : (s.withdraw i).nextId = s.nextId := rfl
@[simp] theorem withdraw_agenda (s : State) (i : Instr) : (s.withdraw i).agenda = s.agenda.filter (fun e => e.2 != i) := rfl
@[simp] theorem withdraw_cursor (s : State) (i : Instr) : (s.withdraw i).cursor = s.cursor := rfl
@[simp] theorem withdraw_cur (s : State) (i : Instr) : (s.withdraw i).cur = s.cur := rfl
@[simp] theorem withdraw_fresh (s : State) (i : Instr) : (s.withdraw i).fresh = s.fresh := rfl

/-! ## emit -/

@[simp] theorem emit_pkg (s : State) (o : Out) : (s.emit o).pkg = s.pkg := rfl
@[simp] theorem emit_reft (s : State) (o : Out) : (s.emit o).reft = s.reft := rfl
@[simp] theorem emit_time (s : State) (o : Out) : (s.emit o).time = s.time := rfl
@[simp] theorem emit_hobs (s : State) (o : Out) : (s.emit o).hobs = s.hobs := rfl
@[simp] theorem emit_pools (s : State) (o : Out) : (s.emit o).pools = s.pools := rfl
@[simp] theorem emit_kettle (s : State) (o : Out) : (s.emit o).kettle = s.kettle := rfl
@[simp] theorem emit_mbox (s : State) (o : Out) : (s.emit o).mbox = s.mbox := rfl
@[simp] theorem emit_dev (s : State) (o : Out) : (s.emit o).dev = s.dev := rfl
@[simp] theorem emit_log (s : State) (o : Out) : (s.emit o).log = s.log := rfl
@[simp] theorem emit_outbox (s : State) (o : Out) : (s.emit o).outbox = s.outbox ++ [o] := rfl
@[simp] theorem emit_clusterOwner (s : State) (o : Out) : (s.emit o).clusterOwner = s.clusterOwner := rfl
@[simp] theorem emit_parts (s : State) (o : Out) : (s.emit o).parts = s.parts := rfl
@[simp] theorem emit_vds (s : State) (o : Out) : (s.emit o).vds = s.vds := rfl
@[simp] theorem emit_pfMsix (s : State) (o : Out) : (s.emit o).pfMsix = s.pfMsix := rfl
@[simp] theorem emit_queues (s : State) (o : Out) : (s.emit o).queues = s.queues := rfl
@[simp] theorem emit_rings (s : State) (o : Out) : (s.emit o).rings = s.rings := rfl
@[simp] theorem emit_slots (s : State) (o : Out) : (s.emit o).slots = s.slots := rfl
@[simp] theorem emit_grids (s : State) (o : Out) : (s.emit o).grids = s.grids := rfl
@[simp] theorem emit_teams (s : State) (o : Out) : (s.emit o).teams = s.teams := rfl
@[simp] theorem emit_waves (s : State) (o : Out) : (s.emit o).waves = s.waves := rfl
@[simp] theorem emit_cores (s : State) (o : Out) : (s.emit o).cores = s.cores := rfl
@[simp] theorem emit_claims (s : State) (o : Out) : (s.emit o).claims = s.claims := rfl
@[simp] theorem emit_placed (s : State) (o : Out) : (s.emit o).placed = s.placed := rfl
@[simp] theorem emit_mem (s : State) (o : Out) : (s.emit o).mem = s.mem := rfl
@[simp] theorem emit_stale (s : State) (o : Out) : (s.emit o).stale = s.stale := rfl
@[simp] theorem emit_poison (s : State) (o : Out) : (s.emit o).poison = s.poison := rfl
@[simp] theorem emit_stamps (s : State) (o : Out) : (s.emit o).stamps = s.stamps := rfl
@[simp] theorem emit_sliceStamps (s : State) (o : Out) : (s.emit o).sliceStamps = s.sliceStamps := rfl
@[simp] theorem emit_sent (s : State) (o : Out) : (s.emit o).sent = s.sent := rfl
@[simp] theorem emit_applied (s : State) (o : Out) : (s.emit o).applied = s.applied := rfl
@[simp] theorem emit_peerWays (s : State) (o : Out) : (s.emit o).peerWays = s.peerWays := rfl
@[simp] theorem emit_l2 (s : State) (o : Out) : (s.emit o).l2 = s.l2 := rfl
@[simp] theorem emit_ctlb (s : State) (o : Out) : (s.emit o).ctlb = s.ctlb := rfl
@[simp] theorem emit_l2pins (s : State) (o : Out) : (s.emit o).l2pins = s.l2pins := rfl
@[simp] theorem emit_hostMem (s : State) (o : Out) : (s.emit o).hostMem = s.hostMem := rfl
@[simp] theorem emit_jobs (s : State) (o : Out) : (s.emit o).jobs = s.jobs := rfl
@[simp] theorem emit_fab (s : State) (o : Out) : (s.emit o).fab = s.fab := rfl
@[simp] theorem emit_eth (s : State) (o : Out) : (s.emit o).eth = s.eth := rfl
@[simp] theorem emit_nextId (s : State) (o : Out) : (s.emit o).nextId = s.nextId := rfl
@[simp] theorem emit_agenda (s : State) (o : Out) : (s.emit o).agenda = s.agenda := rfl
@[simp] theorem emit_cursor (s : State) (o : Out) : (s.emit o).cursor = s.cursor := rfl
@[simp] theorem emit_cur (s : State) (o : Out) : (s.emit o).cur = s.cur := rfl
@[simp] theorem emit_fresh (s : State) (o : Out) : (s.emit o).fresh = s.fresh := rfl

/-! ## logged -/

@[simp] theorem logged_pkg (s : State) (k : LogKind) : (s.logged k).pkg = s.pkg := rfl
@[simp] theorem logged_reft (s : State) (k : LogKind) : (s.logged k).reft = s.reft := rfl
@[simp] theorem logged_time (s : State) (k : LogKind) : (s.logged k).time = s.time := rfl
@[simp] theorem logged_hobs (s : State) (k : LogKind) : (s.logged k).hobs = s.hobs := rfl
@[simp] theorem logged_pools (s : State) (k : LogKind) : (s.logged k).pools = s.pools := rfl
@[simp] theorem logged_kettle (s : State) (k : LogKind) : (s.logged k).kettle = s.kettle := rfl
@[simp] theorem logged_mbox (s : State) (k : LogKind) : (s.logged k).mbox = s.mbox := rfl
@[simp] theorem logged_dev (s : State) (k : LogKind) : (s.logged k).dev = s.dev := rfl
@[simp] theorem logged_log (s : State) (k : LogKind) : (s.logged k).log = s.log ++ [(s.reft, k)] := rfl
@[simp] theorem logged_outbox (s : State) (k : LogKind) : (s.logged k).outbox = s.outbox := rfl
@[simp] theorem logged_clusterOwner (s : State) (k : LogKind) : (s.logged k).clusterOwner = s.clusterOwner := rfl
@[simp] theorem logged_parts (s : State) (k : LogKind) : (s.logged k).parts = s.parts := rfl
@[simp] theorem logged_vds (s : State) (k : LogKind) : (s.logged k).vds = s.vds := rfl
@[simp] theorem logged_pfMsix (s : State) (k : LogKind) : (s.logged k).pfMsix = s.pfMsix := rfl
@[simp] theorem logged_queues (s : State) (k : LogKind) : (s.logged k).queues = s.queues := rfl
@[simp] theorem logged_rings (s : State) (k : LogKind) : (s.logged k).rings = s.rings := rfl
@[simp] theorem logged_slots (s : State) (k : LogKind) : (s.logged k).slots = s.slots := rfl
@[simp] theorem logged_grids (s : State) (k : LogKind) : (s.logged k).grids = s.grids := rfl
@[simp] theorem logged_teams (s : State) (k : LogKind) : (s.logged k).teams = s.teams := rfl
@[simp] theorem logged_waves (s : State) (k : LogKind) : (s.logged k).waves = s.waves := rfl
@[simp] theorem logged_cores (s : State) (k : LogKind) : (s.logged k).cores = s.cores := rfl
@[simp] theorem logged_claims (s : State) (k : LogKind) : (s.logged k).claims = s.claims := rfl
@[simp] theorem logged_placed (s : State) (k : LogKind) : (s.logged k).placed = s.placed := rfl
@[simp] theorem logged_mem (s : State) (k : LogKind) : (s.logged k).mem = s.mem := rfl
@[simp] theorem logged_stale (s : State) (k : LogKind) : (s.logged k).stale = s.stale := rfl
@[simp] theorem logged_poison (s : State) (k : LogKind) : (s.logged k).poison = s.poison := rfl
@[simp] theorem logged_stamps (s : State) (k : LogKind) : (s.logged k).stamps = s.stamps := rfl
@[simp] theorem logged_sliceStamps (s : State) (k : LogKind) : (s.logged k).sliceStamps = s.sliceStamps := rfl
@[simp] theorem logged_sent (s : State) (k : LogKind) : (s.logged k).sent = s.sent := rfl
@[simp] theorem logged_applied (s : State) (k : LogKind) : (s.logged k).applied = s.applied := rfl
@[simp] theorem logged_peerWays (s : State) (k : LogKind) : (s.logged k).peerWays = s.peerWays := rfl
@[simp] theorem logged_l2 (s : State) (k : LogKind) : (s.logged k).l2 = s.l2 := rfl
@[simp] theorem logged_ctlb (s : State) (k : LogKind) : (s.logged k).ctlb = s.ctlb := rfl
@[simp] theorem logged_l2pins (s : State) (k : LogKind) : (s.logged k).l2pins = s.l2pins := rfl
@[simp] theorem logged_hostMem (s : State) (k : LogKind) : (s.logged k).hostMem = s.hostMem := rfl
@[simp] theorem logged_jobs (s : State) (k : LogKind) : (s.logged k).jobs = s.jobs := rfl
@[simp] theorem logged_fab (s : State) (k : LogKind) : (s.logged k).fab = s.fab := rfl
@[simp] theorem logged_eth (s : State) (k : LogKind) : (s.logged k).eth = s.eth := rfl
@[simp] theorem logged_nextId (s : State) (k : LogKind) : (s.logged k).nextId = s.nextId := rfl
@[simp] theorem logged_agenda (s : State) (k : LogKind) : (s.logged k).agenda = s.agenda := rfl
@[simp] theorem logged_cursor (s : State) (k : LogKind) : (s.logged k).cursor = s.cursor := rfl
@[simp] theorem logged_cur (s : State) (k : LogKind) : (s.logged k).cur = s.cur := rfl
@[simp] theorem logged_fresh (s : State) (k : LogKind) : (s.logged k).fresh = s.fresh := rfl

/-! ## alerted -/

@[simp] theorem alerted_pkg (s : State) : (s.alerted).pkg = { s.pkg with alertN := true } := rfl
@[simp] theorem alerted_reft (s : State) : (s.alerted).reft = s.reft := rfl
@[simp] theorem alerted_time (s : State) : (s.alerted).time = s.time := rfl
@[simp] theorem alerted_hobs (s : State) : (s.alerted).hobs = s.hobs := rfl
@[simp] theorem alerted_pools (s : State) : (s.alerted).pools = s.pools := rfl
@[simp] theorem alerted_kettle (s : State) : (s.alerted).kettle = s.kettle := rfl
@[simp] theorem alerted_mbox (s : State) : (s.alerted).mbox = s.mbox := rfl
@[simp] theorem alerted_dev (s : State) : (s.alerted).dev = s.dev := rfl
@[simp] theorem alerted_log (s : State) : (s.alerted).log = s.log := rfl
@[simp] theorem alerted_outbox (s : State) : (s.alerted).outbox = s.outbox := rfl
@[simp] theorem alerted_clusterOwner (s : State) : (s.alerted).clusterOwner = s.clusterOwner := rfl
@[simp] theorem alerted_parts (s : State) : (s.alerted).parts = s.parts := rfl
@[simp] theorem alerted_vds (s : State) : (s.alerted).vds = s.vds := rfl
@[simp] theorem alerted_pfMsix (s : State) : (s.alerted).pfMsix = s.pfMsix := rfl
@[simp] theorem alerted_queues (s : State) : (s.alerted).queues = s.queues := rfl
@[simp] theorem alerted_rings (s : State) : (s.alerted).rings = s.rings := rfl
@[simp] theorem alerted_slots (s : State) : (s.alerted).slots = s.slots := rfl
@[simp] theorem alerted_grids (s : State) : (s.alerted).grids = s.grids := rfl
@[simp] theorem alerted_teams (s : State) : (s.alerted).teams = s.teams := rfl
@[simp] theorem alerted_waves (s : State) : (s.alerted).waves = s.waves := rfl
@[simp] theorem alerted_cores (s : State) : (s.alerted).cores = s.cores := rfl
@[simp] theorem alerted_claims (s : State) : (s.alerted).claims = s.claims := rfl
@[simp] theorem alerted_placed (s : State) : (s.alerted).placed = s.placed := rfl
@[simp] theorem alerted_mem (s : State) : (s.alerted).mem = s.mem := rfl
@[simp] theorem alerted_stale (s : State) : (s.alerted).stale = s.stale := rfl
@[simp] theorem alerted_poison (s : State) : (s.alerted).poison = s.poison := rfl
@[simp] theorem alerted_stamps (s : State) : (s.alerted).stamps = s.stamps := rfl
@[simp] theorem alerted_sliceStamps (s : State) : (s.alerted).sliceStamps = s.sliceStamps := rfl
@[simp] theorem alerted_sent (s : State) : (s.alerted).sent = s.sent := rfl
@[simp] theorem alerted_applied (s : State) : (s.alerted).applied = s.applied := rfl
@[simp] theorem alerted_peerWays (s : State) : (s.alerted).peerWays = s.peerWays := rfl
@[simp] theorem alerted_l2 (s : State) : (s.alerted).l2 = s.l2 := rfl
@[simp] theorem alerted_ctlb (s : State) : (s.alerted).ctlb = s.ctlb := rfl
@[simp] theorem alerted_l2pins (s : State) : (s.alerted).l2pins = s.l2pins := rfl
@[simp] theorem alerted_hostMem (s : State) : (s.alerted).hostMem = s.hostMem := rfl
@[simp] theorem alerted_jobs (s : State) : (s.alerted).jobs = s.jobs := rfl
@[simp] theorem alerted_fab (s : State) : (s.alerted).fab = s.fab := rfl
@[simp] theorem alerted_eth (s : State) : (s.alerted).eth = s.eth := rfl
@[simp] theorem alerted_nextId (s : State) : (s.alerted).nextId = s.nextId := rfl
@[simp] theorem alerted_agenda (s : State) : (s.alerted).agenda = s.agenda := rfl
@[simp] theorem alerted_cursor (s : State) : (s.alerted).cursor = s.cursor := rfl
@[simp] theorem alerted_cur (s : State) : (s.alerted).cur = s.cur := rfl
@[simp] theorem alerted_fresh (s : State) : (s.alerted).fresh = s.fresh := rfl

/-! ## setHealth -/

@[simp] theorem setHealth_pkg (s : State) (b : Nat) : (s.setHealth b).pkg = s.pkg := rfl
@[simp] theorem setHealth_reft (s : State) (b : Nat) : (s.setHealth b).reft = s.reft := rfl
@[simp] theorem setHealth_time (s : State) (b : Nat) : (s.setHealth b).time = s.time := rfl
@[simp] theorem setHealth_hobs (s : State) (b : Nat) : (s.setHealth b).hobs = s.hobs := rfl
@[simp] theorem setHealth_pools (s : State) (b : Nat) : (s.setHealth b).pools = s.pools := rfl
@[simp] theorem setHealth_kettle (s : State) (b : Nat) : (s.setHealth b).kettle = s.kettle := rfl
@[simp] theorem setHealth_mbox (s : State) (b : Nat) : (s.setHealth b).mbox = s.mbox := rfl
@[simp] theorem setHealth_dev (s : State) (b : Nat) : (s.setHealth b).dev = { s.dev with health := setField s.dev.health b b 1 } := rfl
@[simp] theorem setHealth_log (s : State) (b : Nat) : (s.setHealth b).log = s.log := rfl
@[simp] theorem setHealth_outbox (s : State) (b : Nat) : (s.setHealth b).outbox = s.outbox := rfl
@[simp] theorem setHealth_clusterOwner (s : State) (b : Nat) : (s.setHealth b).clusterOwner = s.clusterOwner := rfl
@[simp] theorem setHealth_parts (s : State) (b : Nat) : (s.setHealth b).parts = s.parts := rfl
@[simp] theorem setHealth_vds (s : State) (b : Nat) : (s.setHealth b).vds = s.vds := rfl
@[simp] theorem setHealth_pfMsix (s : State) (b : Nat) : (s.setHealth b).pfMsix = s.pfMsix := rfl
@[simp] theorem setHealth_queues (s : State) (b : Nat) : (s.setHealth b).queues = s.queues := rfl
@[simp] theorem setHealth_rings (s : State) (b : Nat) : (s.setHealth b).rings = s.rings := rfl
@[simp] theorem setHealth_slots (s : State) (b : Nat) : (s.setHealth b).slots = s.slots := rfl
@[simp] theorem setHealth_grids (s : State) (b : Nat) : (s.setHealth b).grids = s.grids := rfl
@[simp] theorem setHealth_teams (s : State) (b : Nat) : (s.setHealth b).teams = s.teams := rfl
@[simp] theorem setHealth_waves (s : State) (b : Nat) : (s.setHealth b).waves = s.waves := rfl
@[simp] theorem setHealth_cores (s : State) (b : Nat) : (s.setHealth b).cores = s.cores := rfl
@[simp] theorem setHealth_claims (s : State) (b : Nat) : (s.setHealth b).claims = s.claims := rfl
@[simp] theorem setHealth_placed (s : State) (b : Nat) : (s.setHealth b).placed = s.placed := rfl
@[simp] theorem setHealth_mem (s : State) (b : Nat) : (s.setHealth b).mem = s.mem := rfl
@[simp] theorem setHealth_stale (s : State) (b : Nat) : (s.setHealth b).stale = s.stale := rfl
@[simp] theorem setHealth_poison (s : State) (b : Nat) : (s.setHealth b).poison = s.poison := rfl
@[simp] theorem setHealth_stamps (s : State) (b : Nat) : (s.setHealth b).stamps = s.stamps := rfl
@[simp] theorem setHealth_sliceStamps (s : State) (b : Nat) : (s.setHealth b).sliceStamps = s.sliceStamps := rfl
@[simp] theorem setHealth_sent (s : State) (b : Nat) : (s.setHealth b).sent = s.sent := rfl
@[simp] theorem setHealth_applied (s : State) (b : Nat) : (s.setHealth b).applied = s.applied := rfl
@[simp] theorem setHealth_peerWays (s : State) (b : Nat) : (s.setHealth b).peerWays = s.peerWays := rfl
@[simp] theorem setHealth_l2 (s : State) (b : Nat) : (s.setHealth b).l2 = s.l2 := rfl
@[simp] theorem setHealth_ctlb (s : State) (b : Nat) : (s.setHealth b).ctlb = s.ctlb := rfl
@[simp] theorem setHealth_l2pins (s : State) (b : Nat) : (s.setHealth b).l2pins = s.l2pins := rfl
@[simp] theorem setHealth_hostMem (s : State) (b : Nat) : (s.setHealth b).hostMem = s.hostMem := rfl
@[simp] theorem setHealth_jobs (s : State) (b : Nat) : (s.setHealth b).jobs = s.jobs := rfl
@[simp] theorem setHealth_fab (s : State) (b : Nat) : (s.setHealth b).fab = s.fab := rfl
@[simp] theorem setHealth_eth (s : State) (b : Nat) : (s.setHealth b).eth = s.eth := rfl
@[simp] theorem setHealth_nextId (s : State) (b : Nat) : (s.setHealth b).nextId = s.nextId := rfl
@[simp] theorem setHealth_agenda (s : State) (b : Nat) : (s.setHealth b).agenda = s.agenda := rfl
@[simp] theorem setHealth_cursor (s : State) (b : Nat) : (s.setHealth b).cursor = s.cursor := rfl
@[simp] theorem setHealth_cur (s : State) (b : Nat) : (s.setHealth b).cur = s.cur := rfl
@[simp] theorem setHealth_fresh (s : State) (b : Nat) : (s.setHealth b).fresh = s.fresh := rfl

/-! ## clearHealth -/

@[simp] theorem clearHealth_pkg (s : State) (b : Nat) : (s.clearHealth b).pkg = s.pkg := rfl
@[simp] theorem clearHealth_reft (s : State) (b : Nat) : (s.clearHealth b).reft = s.reft := rfl
@[simp] theorem clearHealth_time (s : State) (b : Nat) : (s.clearHealth b).time = s.time := rfl
@[simp] theorem clearHealth_hobs (s : State) (b : Nat) : (s.clearHealth b).hobs = s.hobs := rfl
@[simp] theorem clearHealth_pools (s : State) (b : Nat) : (s.clearHealth b).pools = s.pools := rfl
@[simp] theorem clearHealth_kettle (s : State) (b : Nat) : (s.clearHealth b).kettle = s.kettle := rfl
@[simp] theorem clearHealth_mbox (s : State) (b : Nat) : (s.clearHealth b).mbox = s.mbox := rfl
@[simp] theorem clearHealth_dev (s : State) (b : Nat) : (s.clearHealth b).dev = { s.dev with health := setField s.dev.health b b 0 } := rfl
@[simp] theorem clearHealth_log (s : State) (b : Nat) : (s.clearHealth b).log = s.log := rfl
@[simp] theorem clearHealth_outbox (s : State) (b : Nat) : (s.clearHealth b).outbox = s.outbox := rfl
@[simp] theorem clearHealth_clusterOwner (s : State) (b : Nat) : (s.clearHealth b).clusterOwner = s.clusterOwner := rfl
@[simp] theorem clearHealth_parts (s : State) (b : Nat) : (s.clearHealth b).parts = s.parts := rfl
@[simp] theorem clearHealth_vds (s : State) (b : Nat) : (s.clearHealth b).vds = s.vds := rfl
@[simp] theorem clearHealth_pfMsix (s : State) (b : Nat) : (s.clearHealth b).pfMsix = s.pfMsix := rfl
@[simp] theorem clearHealth_queues (s : State) (b : Nat) : (s.clearHealth b).queues = s.queues := rfl
@[simp] theorem clearHealth_rings (s : State) (b : Nat) : (s.clearHealth b).rings = s.rings := rfl
@[simp] theorem clearHealth_slots (s : State) (b : Nat) : (s.clearHealth b).slots = s.slots := rfl
@[simp] theorem clearHealth_grids (s : State) (b : Nat) : (s.clearHealth b).grids = s.grids := rfl
@[simp] theorem clearHealth_teams (s : State) (b : Nat) : (s.clearHealth b).teams = s.teams := rfl
@[simp] theorem clearHealth_waves (s : State) (b : Nat) : (s.clearHealth b).waves = s.waves := rfl
@[simp] theorem clearHealth_cores (s : State) (b : Nat) : (s.clearHealth b).cores = s.cores := rfl
@[simp] theorem clearHealth_claims (s : State) (b : Nat) : (s.clearHealth b).claims = s.claims := rfl
@[simp] theorem clearHealth_placed (s : State) (b : Nat) : (s.clearHealth b).placed = s.placed := rfl
@[simp] theorem clearHealth_mem (s : State) (b : Nat) : (s.clearHealth b).mem = s.mem := rfl
@[simp] theorem clearHealth_stale (s : State) (b : Nat) : (s.clearHealth b).stale = s.stale := rfl
@[simp] theorem clearHealth_poison (s : State) (b : Nat) : (s.clearHealth b).poison = s.poison := rfl
@[simp] theorem clearHealth_stamps (s : State) (b : Nat) : (s.clearHealth b).stamps = s.stamps := rfl
@[simp] theorem clearHealth_sliceStamps (s : State) (b : Nat) : (s.clearHealth b).sliceStamps = s.sliceStamps := rfl
@[simp] theorem clearHealth_sent (s : State) (b : Nat) : (s.clearHealth b).sent = s.sent := rfl
@[simp] theorem clearHealth_applied (s : State) (b : Nat) : (s.clearHealth b).applied = s.applied := rfl
@[simp] theorem clearHealth_peerWays (s : State) (b : Nat) : (s.clearHealth b).peerWays = s.peerWays := rfl
@[simp] theorem clearHealth_l2 (s : State) (b : Nat) : (s.clearHealth b).l2 = s.l2 := rfl
@[simp] theorem clearHealth_ctlb (s : State) (b : Nat) : (s.clearHealth b).ctlb = s.ctlb := rfl
@[simp] theorem clearHealth_l2pins (s : State) (b : Nat) : (s.clearHealth b).l2pins = s.l2pins := rfl
@[simp] theorem clearHealth_hostMem (s : State) (b : Nat) : (s.clearHealth b).hostMem = s.hostMem := rfl
@[simp] theorem clearHealth_jobs (s : State) (b : Nat) : (s.clearHealth b).jobs = s.jobs := rfl
@[simp] theorem clearHealth_fab (s : State) (b : Nat) : (s.clearHealth b).fab = s.fab := rfl
@[simp] theorem clearHealth_eth (s : State) (b : Nat) : (s.clearHealth b).eth = s.eth := rfl
@[simp] theorem clearHealth_nextId (s : State) (b : Nat) : (s.clearHealth b).nextId = s.nextId := rfl
@[simp] theorem clearHealth_agenda (s : State) (b : Nat) : (s.clearHealth b).agenda = s.agenda := rfl
@[simp] theorem clearHealth_cursor (s : State) (b : Nat) : (s.clearHealth b).cursor = s.cursor := rfl
@[simp] theorem clearHealth_cur (s : State) (b : Nat) : (s.clearHealth b).cur = s.cur := rfl
@[simp] theorem clearHealth_fresh (s : State) (b : Nat) : (s.clearHealth b).fresh = s.fresh := rfl

/-! ## elapse -/

@[simp] theorem elapse_pkg (s : State) (n : Nat) : (s.elapse n).pkg = s.pkg := rfl
@[simp] theorem elapse_reft (s : State) (n : Nat) : (s.elapse n).reft = s.reft + s.corrected n / 1000000 := rfl
@[simp] theorem elapse_time (s : State) (n : Nat) : (s.elapse n).time = { s.time with frac := s.corrected n % 1000000 } := rfl
@[simp] theorem elapse_hobs (s : State) (n : Nat) : (s.elapse n).hobs = (List.range 64).map (fun h => (h, (s.hob h).elapse n (s.corrected n / 1000000))) := rfl
@[simp] theorem elapse_pools (s : State) (n : Nat) : (s.elapse n).pools = s.pools := rfl
@[simp] theorem elapse_kettle (s : State) (n : Nat) : (s.elapse n).kettle = s.kettle := rfl
@[simp] theorem elapse_mbox (s : State) (n : Nat) : (s.elapse n).mbox = s.mbox := rfl
@[simp] theorem elapse_dev (s : State) (n : Nat) : (s.elapse n).dev = s.dev := rfl
@[simp] theorem elapse_log (s : State) (n : Nat) : (s.elapse n).log = s.log := rfl
@[simp] theorem elapse_outbox (s : State) (n : Nat) : (s.elapse n).outbox = s.outbox := rfl
@[simp] theorem elapse_clusterOwner (s : State) (n : Nat) : (s.elapse n).clusterOwner = s.clusterOwner := rfl
@[simp] theorem elapse_parts (s : State) (n : Nat) : (s.elapse n).parts = s.parts := rfl
@[simp] theorem elapse_vds (s : State) (n : Nat) : (s.elapse n).vds = s.vds := rfl
@[simp] theorem elapse_pfMsix (s : State) (n : Nat) : (s.elapse n).pfMsix = s.pfMsix := rfl
@[simp] theorem elapse_queues (s : State) (n : Nat) : (s.elapse n).queues = s.queues := rfl
@[simp] theorem elapse_rings (s : State) (n : Nat) : (s.elapse n).rings = s.rings := rfl
@[simp] theorem elapse_slots (s : State) (n : Nat) : (s.elapse n).slots = s.slots := rfl
@[simp] theorem elapse_grids (s : State) (n : Nat) : (s.elapse n).grids = s.grids := rfl
@[simp] theorem elapse_teams (s : State) (n : Nat) : (s.elapse n).teams = s.teams := rfl
@[simp] theorem elapse_waves (s : State) (n : Nat) : (s.elapse n).waves = s.waves := rfl
@[simp] theorem elapse_cores (s : State) (n : Nat) : (s.elapse n).cores = s.cores := rfl
@[simp] theorem elapse_claims (s : State) (n : Nat) : (s.elapse n).claims = s.claims := rfl
@[simp] theorem elapse_placed (s : State) (n : Nat) : (s.elapse n).placed = s.placed := rfl
@[simp] theorem elapse_mem (s : State) (n : Nat) : (s.elapse n).mem = s.mem := rfl
@[simp] theorem elapse_stale (s : State) (n : Nat) : (s.elapse n).stale = s.stale := rfl
@[simp] theorem elapse_poison (s : State) (n : Nat) : (s.elapse n).poison = s.poison := rfl
@[simp] theorem elapse_stamps (s : State) (n : Nat) : (s.elapse n).stamps = s.stamps := rfl
@[simp] theorem elapse_sliceStamps (s : State) (n : Nat) : (s.elapse n).sliceStamps = s.sliceStamps := rfl
@[simp] theorem elapse_sent (s : State) (n : Nat) : (s.elapse n).sent = s.sent := rfl
@[simp] theorem elapse_applied (s : State) (n : Nat) : (s.elapse n).applied = s.applied := rfl
@[simp] theorem elapse_peerWays (s : State) (n : Nat) : (s.elapse n).peerWays = s.peerWays := rfl
@[simp] theorem elapse_l2 (s : State) (n : Nat) : (s.elapse n).l2 = s.l2 := rfl
@[simp] theorem elapse_ctlb (s : State) (n : Nat) : (s.elapse n).ctlb = s.ctlb := rfl
@[simp] theorem elapse_l2pins (s : State) (n : Nat) : (s.elapse n).l2pins = s.l2pins := rfl
@[simp] theorem elapse_hostMem (s : State) (n : Nat) : (s.elapse n).hostMem = s.hostMem := rfl
@[simp] theorem elapse_jobs (s : State) (n : Nat) : (s.elapse n).jobs = s.jobs := rfl
@[simp] theorem elapse_fab (s : State) (n : Nat) : (s.elapse n).fab = s.fab := rfl
@[simp] theorem elapse_eth (s : State) (n : Nat) : (s.elapse n).eth = s.eth := rfl
@[simp] theorem elapse_nextId (s : State) (n : Nat) : (s.elapse n).nextId = s.nextId := rfl
@[simp] theorem elapse_agenda (s : State) (n : Nat) : (s.elapse n).agenda = s.agenda := rfl
@[simp] theorem elapse_cursor (s : State) (n : Nat) : (s.elapse n).cursor = s.cursor := rfl
@[simp] theorem elapse_cur (s : State) (n : Nat) : (s.elapse n).cur = s.cur := rfl
@[simp] theorem elapse_fresh (s : State) (n : Nat) : (s.elapse n).fresh = s.fresh := rfl

/-! ## putByte -/

@[simp] theorem putByte_pkg (s : State) (pa : Nat) (b : Byte) : (s.putByte pa b).pkg = s.pkg := rfl
@[simp] theorem putByte_reft (s : State) (pa : Nat) (b : Byte) : (s.putByte pa b).reft = s.reft := rfl
@[simp] theorem putByte_time (s : State) (pa : Nat) (b : Byte) : (s.putByte pa b).time = s.time := rfl
@[simp] theorem putByte_hobs (s : State) (pa : Nat) (b : Byte) : (s.putByte pa b).hobs = s.hobs := rfl
@[simp] theorem putByte_pools (s : State) (pa : Nat) (b : Byte) : (s.putByte pa b).pools = s.pools := rfl
@[simp] theorem putByte_kettle (s : State) (pa : Nat) (b : Byte) : (s.putByte pa b).kettle = s.kettle := rfl
@[simp] theorem putByte_mbox (s : State) (pa : Nat) (b : Byte) : (s.putByte pa b).mbox = s.mbox := rfl
@[simp] theorem putByte_dev (s : State) (pa : Nat) (b : Byte) : (s.putByte pa b).dev = s.dev := rfl
@[simp] theorem putByte_log (s : State) (pa : Nat) (b : Byte) : (s.putByte pa b).log = s.log := rfl
@[simp] theorem putByte_outbox (s : State) (pa : Nat) (b : Byte) : (s.putByte pa b).outbox = s.outbox := rfl
@[simp] theorem putByte_clusterOwner (s : State) (pa : Nat) (b : Byte) : (s.putByte pa b).clusterOwner = s.clusterOwner := rfl
@[simp] theorem putByte_parts (s : State) (pa : Nat) (b : Byte) : (s.putByte pa b).parts = s.parts := rfl
@[simp] theorem putByte_vds (s : State) (pa : Nat) (b : Byte) : (s.putByte pa b).vds = s.vds := rfl
@[simp] theorem putByte_pfMsix (s : State) (pa : Nat) (b : Byte) : (s.putByte pa b).pfMsix = s.pfMsix := rfl
@[simp] theorem putByte_queues (s : State) (pa : Nat) (b : Byte) : (s.putByte pa b).queues = s.queues := rfl
@[simp] theorem putByte_rings (s : State) (pa : Nat) (b : Byte) : (s.putByte pa b).rings = s.rings := rfl
@[simp] theorem putByte_slots (s : State) (pa : Nat) (b : Byte) : (s.putByte pa b).slots = s.slots := rfl
@[simp] theorem putByte_grids (s : State) (pa : Nat) (b : Byte) : (s.putByte pa b).grids = s.grids := rfl
@[simp] theorem putByte_teams (s : State) (pa : Nat) (b : Byte) : (s.putByte pa b).teams = s.teams := rfl
@[simp] theorem putByte_waves (s : State) (pa : Nat) (b : Byte) : (s.putByte pa b).waves = s.waves := rfl
@[simp] theorem putByte_cores (s : State) (pa : Nat) (b : Byte) : (s.putByte pa b).cores = s.cores := rfl
@[simp] theorem putByte_claims (s : State) (pa : Nat) (b : Byte) : (s.putByte pa b).claims = s.claims := rfl
@[simp] theorem putByte_placed (s : State) (pa : Nat) (b : Byte) : (s.putByte pa b).placed = s.placed := rfl
@[simp] theorem putByte_mem (s : State) (pa : Nat) (b : Byte) : (s.putByte pa b).mem = Memory.put s.mem pa b := rfl
@[simp] theorem putByte_stale (s : State) (pa : Nat) (b : Byte) : (s.putByte pa b).stale = unstale s.stale pa := rfl
@[simp] theorem putByte_poison (s : State) (pa : Nat) (b : Byte) : (s.putByte pa b).poison = s.poison := rfl
@[simp] theorem putByte_stamps (s : State) (pa : Nat) (b : Byte) : (s.putByte pa b).stamps = s.stamps := rfl
@[simp] theorem putByte_sliceStamps (s : State) (pa : Nat) (b : Byte) : (s.putByte pa b).sliceStamps = s.sliceStamps := rfl
@[simp] theorem putByte_sent (s : State) (pa : Nat) (b : Byte) : (s.putByte pa b).sent = s.sent := rfl
@[simp] theorem putByte_applied (s : State) (pa : Nat) (b : Byte) : (s.putByte pa b).applied = s.applied := rfl
@[simp] theorem putByte_peerWays (s : State) (pa : Nat) (b : Byte) : (s.putByte pa b).peerWays = s.peerWays := rfl
@[simp] theorem putByte_l2 (s : State) (pa : Nat) (b : Byte) : (s.putByte pa b).l2 = s.l2 := rfl
@[simp] theorem putByte_ctlb (s : State) (pa : Nat) (b : Byte) : (s.putByte pa b).ctlb = s.ctlb := rfl
@[simp] theorem putByte_l2pins (s : State) (pa : Nat) (b : Byte) : (s.putByte pa b).l2pins = s.l2pins := rfl
@[simp] theorem putByte_hostMem (s : State) (pa : Nat) (b : Byte) : (s.putByte pa b).hostMem = s.hostMem := rfl
@[simp] theorem putByte_jobs (s : State) (pa : Nat) (b : Byte) : (s.putByte pa b).jobs = s.jobs := rfl
@[simp] theorem putByte_fab (s : State) (pa : Nat) (b : Byte) : (s.putByte pa b).fab = s.fab := rfl
@[simp] theorem putByte_eth (s : State) (pa : Nat) (b : Byte) : (s.putByte pa b).eth = s.eth := rfl
@[simp] theorem putByte_nextId (s : State) (pa : Nat) (b : Byte) : (s.putByte pa b).nextId = s.nextId := rfl
@[simp] theorem putByte_agenda (s : State) (pa : Nat) (b : Byte) : (s.putByte pa b).agenda = s.agenda := rfl
@[simp] theorem putByte_cursor (s : State) (pa : Nat) (b : Byte) : (s.putByte pa b).cursor = s.cursor := rfl
@[simp] theorem putByte_cur (s : State) (pa : Nat) (b : Byte) : (s.putByte pa b).cur = s.cur := rfl
@[simp] theorem putByte_fresh (s : State) (pa : Nat) (b : Byte) : (s.putByte pa b).fresh = s.fresh := rfl

/-! ## putHost -/

@[simp] theorem putHost_pkg (s : State) (a : Nat) (bs : List Byte) : (s.putHost a bs).pkg = s.pkg := rfl
@[simp] theorem putHost_reft (s : State) (a : Nat) (bs : List Byte) : (s.putHost a bs).reft = s.reft := rfl
@[simp] theorem putHost_time (s : State) (a : Nat) (bs : List Byte) : (s.putHost a bs).time = s.time := rfl
@[simp] theorem putHost_hobs (s : State) (a : Nat) (bs : List Byte) : (s.putHost a bs).hobs = s.hobs := rfl
@[simp] theorem putHost_pools (s : State) (a : Nat) (bs : List Byte) : (s.putHost a bs).pools = s.pools := rfl
@[simp] theorem putHost_kettle (s : State) (a : Nat) (bs : List Byte) : (s.putHost a bs).kettle = s.kettle := rfl
@[simp] theorem putHost_mbox (s : State) (a : Nat) (bs : List Byte) : (s.putHost a bs).mbox = s.mbox := rfl
@[simp] theorem putHost_dev (s : State) (a : Nat) (bs : List Byte) : (s.putHost a bs).dev = s.dev := rfl
@[simp] theorem putHost_log (s : State) (a : Nat) (bs : List Byte) : (s.putHost a bs).log = s.log := rfl
@[simp] theorem putHost_outbox (s : State) (a : Nat) (bs : List Byte) : (s.putHost a bs).outbox = s.outbox := rfl
@[simp] theorem putHost_clusterOwner (s : State) (a : Nat) (bs : List Byte) : (s.putHost a bs).clusterOwner = s.clusterOwner := rfl
@[simp] theorem putHost_parts (s : State) (a : Nat) (bs : List Byte) : (s.putHost a bs).parts = s.parts := rfl
@[simp] theorem putHost_vds (s : State) (a : Nat) (bs : List Byte) : (s.putHost a bs).vds = s.vds := rfl
@[simp] theorem putHost_pfMsix (s : State) (a : Nat) (bs : List Byte) : (s.putHost a bs).pfMsix = s.pfMsix := rfl
@[simp] theorem putHost_queues (s : State) (a : Nat) (bs : List Byte) : (s.putHost a bs).queues = s.queues := rfl
@[simp] theorem putHost_rings (s : State) (a : Nat) (bs : List Byte) : (s.putHost a bs).rings = s.rings := rfl
@[simp] theorem putHost_slots (s : State) (a : Nat) (bs : List Byte) : (s.putHost a bs).slots = s.slots := rfl
@[simp] theorem putHost_grids (s : State) (a : Nat) (bs : List Byte) : (s.putHost a bs).grids = s.grids := rfl
@[simp] theorem putHost_teams (s : State) (a : Nat) (bs : List Byte) : (s.putHost a bs).teams = s.teams := rfl
@[simp] theorem putHost_waves (s : State) (a : Nat) (bs : List Byte) : (s.putHost a bs).waves = s.waves := rfl
@[simp] theorem putHost_cores (s : State) (a : Nat) (bs : List Byte) : (s.putHost a bs).cores = s.cores := rfl
@[simp] theorem putHost_claims (s : State) (a : Nat) (bs : List Byte) : (s.putHost a bs).claims = s.claims := rfl
@[simp] theorem putHost_placed (s : State) (a : Nat) (bs : List Byte) : (s.putHost a bs).placed = s.placed := rfl
@[simp] theorem putHost_mem (s : State) (a : Nat) (bs : List Byte) : (s.putHost a bs).mem = s.mem := rfl
@[simp] theorem putHost_stale (s : State) (a : Nat) (bs : List Byte) : (s.putHost a bs).stale = s.stale := rfl
@[simp] theorem putHost_poison (s : State) (a : Nat) (bs : List Byte) : (s.putHost a bs).poison = s.poison := rfl
@[simp] theorem putHost_stamps (s : State) (a : Nat) (bs : List Byte) : (s.putHost a bs).stamps = s.stamps := rfl
@[simp] theorem putHost_sliceStamps (s : State) (a : Nat) (bs : List Byte) : (s.putHost a bs).sliceStamps = s.sliceStamps := rfl
@[simp] theorem putHost_sent (s : State) (a : Nat) (bs : List Byte) : (s.putHost a bs).sent = s.sent := rfl
@[simp] theorem putHost_applied (s : State) (a : Nat) (bs : List Byte) : (s.putHost a bs).applied = s.applied := rfl
@[simp] theorem putHost_peerWays (s : State) (a : Nat) (bs : List Byte) : (s.putHost a bs).peerWays = s.peerWays := rfl
@[simp] theorem putHost_l2 (s : State) (a : Nat) (bs : List Byte) : (s.putHost a bs).l2 = s.l2 := rfl
@[simp] theorem putHost_ctlb (s : State) (a : Nat) (bs : List Byte) : (s.putHost a bs).ctlb = s.ctlb := rfl
@[simp] theorem putHost_l2pins (s : State) (a : Nat) (bs : List Byte) : (s.putHost a bs).l2pins = s.l2pins := rfl
@[simp] theorem putHost_hostMem (s : State) (a : Nat) (bs : List Byte) : (s.putHost a bs).hostMem = Memory.write s.hostMem a bs := rfl
@[simp] theorem putHost_jobs (s : State) (a : Nat) (bs : List Byte) : (s.putHost a bs).jobs = s.jobs := rfl
@[simp] theorem putHost_fab (s : State) (a : Nat) (bs : List Byte) : (s.putHost a bs).fab = s.fab := rfl
@[simp] theorem putHost_eth (s : State) (a : Nat) (bs : List Byte) : (s.putHost a bs).eth = s.eth := rfl
@[simp] theorem putHost_nextId (s : State) (a : Nat) (bs : List Byte) : (s.putHost a bs).nextId = s.nextId := rfl
@[simp] theorem putHost_agenda (s : State) (a : Nat) (bs : List Byte) : (s.putHost a bs).agenda = s.agenda := rfl
@[simp] theorem putHost_cursor (s : State) (a : Nat) (bs : List Byte) : (s.putHost a bs).cursor = s.cursor := rfl
@[simp] theorem putHost_cur (s : State) (a : Nat) (bs : List Byte) : (s.putHost a bs).cur = s.cur := rfl
@[simp] theorem putHost_fresh (s : State) (a : Nat) (bs : List Byte) : (s.putHost a bs).fresh = s.fresh := rfl

/-! ## What an update leaves to be read -/

@[simp] theorem hob_updHob_self (s : State) (h : Nat) (f : Hob → Hob) : (s.updHob h f).hob h = f (s.hob h) := by simp [hob, updHob]
theorem hob_updHob_ne (s : State) {h j : Nat} (f : Hob → Hob) (hj : j ≠ h) : (s.updHob h f).hob j = s.hob j := by
  simp [hob, updHob, Tbl.getD_updD_ne _ _ _ hj]
@[simp] theorem pool_updPool_self (s : State) (h : Nat) (f : Pool → Pool) : (s.updPool h f).pool h = f (s.pool h) := by simp [pool, updPool]
theorem pool_updPool_ne (s : State) {h j : Nat} (f : Pool → Pool) (hj : j ≠ h) : (s.updPool h f).pool j = s.pool j := by
  simp [pool, updPool, Tbl.getD_updD_ne _ _ _ hj]
@[simp] theorem part_updPart_self (s : State) (h : Nat) (f : Part → Part) : (s.updPart h f).part h = f (s.part h) := by simp [part, updPart]
theorem part_updPart_ne (s : State) {h j : Nat} (f : Part → Part) (hj : j ≠ h) : (s.updPart h f).part j = s.part j := by
  simp [part, updPart, Tbl.getD_updD_ne _ _ _ hj]
@[simp] theorem vd_updVd_self (s : State) (h : Nat) (f : Vd → Vd) : (s.updVd h f).vd h = f (s.vd h) := by simp [vd, updVd]
theorem vd_updVd_ne (s : State) {h j : Nat} (f : Vd → Vd) (hj : j ≠ h) : (s.updVd h f).vd j = s.vd j := by
  simp [vd, updVd, Tbl.getD_updD_ne _ _ _ hj]
@[simp] theorem queue_updQueue_self (s : State) (h : Nat) (f : Queue → Queue) : (s.updQueue h f).queue h = f (s.queue h) := by simp [queue, updQueue]
theorem queue_updQueue_ne (s : State) {h j : Nat} (f : Queue → Queue) (hj : j ≠ h) : (s.updQueue h f).queue j = s.queue j := by
  simp [queue, updQueue, Tbl.getD_updD_ne _ _ _ hj]
@[simp] theorem core_updCore_self (s : State) (h : Nat) (f : Core → Core) : (s.updCore h f).core h = f (s.core h) := by simp [core, updCore]
theorem core_updCore_ne (s : State) {h j : Nat} (f : Core → Core) (hj : j ≠ h) : (s.updCore h f).core j = s.core j := by
  simp [core, updCore, Tbl.getD_updD_ne _ _ _ hj]
theorem updGrid_find_self (s : State) (k : Nat) (f : Grid → Grid) : Tbl.find (s.updGrid k f).grids k = (Tbl.find s.grids k).map f := Tbl.find_upd_self _ _ _
theorem updGrid_find_ne (s : State) {k j : Nat} (f : Grid → Grid) (h : j ≠ k) : Tbl.find (s.updGrid k f).grids j = Tbl.find s.grids j :=
  Tbl.find_upd_ne _ _ h
theorem updTeam_find_self (s : State) (k : Nat) (f : Team → Team) : Tbl.find (s.updTeam k f).teams k = (Tbl.find s.teams k).map f := Tbl.find_upd_self _ _ _
theorem updTeam_find_ne (s : State) {k j : Nat} (f : Team → Team) (h : j ≠ k) : Tbl.find (s.updTeam k f).teams j = Tbl.find s.teams j :=
  Tbl.find_upd_ne _ _ h
theorem updJob_find_self (s : State) (k : Nat) (f : Job → Job) : Tbl.find (s.updJob k f).jobs k = (Tbl.find s.jobs k).map f := Tbl.find_upd_self _ _ _
theorem updJob_find_ne (s : State) {k j : Nat} (f : Job → Job) (h : j ≠ k) : Tbl.find (s.updJob k f).jobs j = Tbl.find s.jobs j :=
  Tbl.find_upd_ne _ _ h

end Sys2Proof.Machine.State
end

