-- ==== Sys2Proof/Laws/Uniform.lean ====
section
/-!
SUPPORT. What the frame of a uniform instruction does, once: it completes, traps, waits, or answers what its meaning gives.
-/

namespace Sys2Proof.Machine

theorem Tbl.put_put {α : Type} (t : Tbl α) (k : Nat) (a b : α) : Tbl.put (Tbl.put t k a) k b = Tbl.put t k b := by
  induction t with
  | nil => simp [Tbl.put]
  | cons e t ih =>
    obtain ⟨j, x⟩ := e
    simp only [Tbl.put]
    split
    · simp [Tbl.put]
    · split
      · simp [Tbl.put]
      · simp only [Tbl.put, *, if_false]

namespace State

/-- Two changes of one wave are one. -/
theorem updWave_updWave (s : State) (wid : Nat) (f g : Wave → Wave) :
    (s.updWave wid f).updWave wid g = s.updWave wid (fun w => g (f w)) := by
  simp only [updWave, Tbl.upd]
  cases h : Tbl.find s.waves wid with
  | none => simp [h]
  | some w => simp [Tbl.put_put]

/-- A change of a wave that is there needs its value at that wave only. -/
theorem updWave_const {s : State} {wid : Nat} {w : Wave} (h : Tbl.find s.waves wid = some w) (f : Wave → Wave) :
    s.updWave wid f = s.updWave wid (fun _ => f w) := by
  simp [updWave, Tbl.upd, h]

end State

/-- The frame of a uniform instruction at which a wave stands. -/
theorem uniStep_stands {s : State} {wid : Nat} {w : Wave} (h : UniStands s wid w) (op : UniOp) (f : State → Nat → Wave → UniRes) :
    ∃ g : Group, s.cur = some g ∧ g.pc = w.at_ ∧ uniStep op f s = .next (s.uniWave op f g wid w) := by
  obtain ⟨hw, hc⟩ := h
  cases hg : s.cur with
  | none => simp [hg] at hc
  | some g =>
    simp [hg] at hc
    obtain ⟨hpc, l, hm⟩ := hc
    cases hmm : g.mem with
    | nil => simp [hmm] at hm
    | cons m r =>
      simp [hmm] at hm
      subst hm
      exact ⟨g, rfl, hpc, by simp [uniStep, hg, hmm, hw]⟩

theorem uniCheck_able {w : Wave} {sdst regs vdst : List Nat} {n : Nat} (h : UniAble w sdst regs vdst) :
    State.uniCheck w ⟨sdst, regs, vdst, n⟩ = none := by
  obtain ⟨hr, -, hg⟩ := h
  unfold State.uniCheck
  simp only [State.beyondSlabs_false hr]
  cases hgd : w.guarded with
  | false => simp
  | true =>
    obtain ⟨hs, hv⟩ := hg hgd
    have h2 : sdst.any (fun r => decide (r < 16)) = false := by
      simp only [List.any_eq_false, decide_eq_true_eq]; intro r hm; have := hs r hm; omega
    have h3 : vdst.any w.liveV = false := by
      simp only [List.any_eq_false]; intro r hm; simp [hv r hm]
    simp [h2, h3]

/-- A uniform instruction that can be carried out: what its meaning gives is the step, unless its two executions differ. -/
theorem uniStep_able {s : State} {wid : Nat} {w : Wave} {sdst regs vdst : List Nat} {n : Nat} (h : UniStands s wid w)
    (ha : UniAble w sdst regs vdst) (f : State → Nat → Wave → UniRes) :
    uniStep ⟨sdst, regs, vdst, n⟩ f s = .next (if s.upset wid then s.mismatch wid else match f s wid w with
      | .trap c a => s.uniTrap wid c w.at_ a
      | .stay t => t
      | .placed t => t
      | .done t => t.updWave wid (fun w => w.pass n)) := by
  obtain ⟨g, -, hpc, he⟩ := uniStep_stands h ⟨sdst, regs, vdst, n⟩ f
  rw [he]
  cases hf : f s wid w <;> simp only [State.uniWave, State.slabBack_none ha.1, uniCheck_able ha, State.lowerCause, hf, hpc, State.slabToCopy_none ha.2.1]

/-- The same where the two executions agree. -/
theorem uniStep_ready {s : State} {wid : Nat} {w : Wave} {sdst regs vdst : List Nat} {n : Nat} (h : UniReady s wid w sdst regs vdst)
    (f : State → Nat → Wave → UniRes) :
    uniStep ⟨sdst, regs, vdst, n⟩ f s = .next (match f s wid w with
      | .trap c a => s.uniTrap wid c w.at_ a
      | .stay t => t
      | .placed t => t
      | .done t => t.updWave wid (fun w => w.pass n)) := by
  rw [uniStep_able h.1.1 h.2 f, h.1.2]
  rfl

/-- A uniform instruction that changes its wave alone. -/
theorem uniPure_able {s : State} {wid : Nat} {w : Wave} {sdst regs vdst : List Nat} {n : Nat} (h : UniStands s wid w)
    (ha : UniAble w sdst regs vdst) (f : Wave → Wave) :
    uniPure ⟨sdst, regs, vdst, n⟩ f s = .next (if s.upset wid then s.mismatch wid else s.updWave wid (fun _ => (f w).pass n)) := by
  rw [uniPure, uniStep_able h ha]
  simp only [State.updWave_updWave]
  rw [State.updWave_const h.1]

end Sys2Proof.Machine
end

