-- ==== Sys2Proof/Tests/Slice0.lean ====
section
/-!
SUPPORT. Tests. Words that the spec's encoding tables give, with the instruction that they stand for; ill-formed terms that each check of
`Instr.wf` refuses; and witnesses: small states and operands that meet the hypotheses of each statement, clause by clause.
-/

namespace Sys2Proof.Tests

open Sys2Proof.Machine

set_option maxRecDepth 100000
-- One theorem after the other: each kernel evaluation waits for the kernel's check of all before it, and side by side every waiting
-- theorem would hold a thread and its stack.
set_option Elab.async false

/-! ## Words -/

/-- Words of the integer operations, R276, R279, R280 (format VRR). -/
theorem test_decode_integer : ∀ e ∈ ([(0x0229246E, 0x00000000, 0x00000000, .iadd .n32s 10 36 (.reg 70)),
    (0x04292464, 0x00000000, 0x00000000, .isub .i64 10 36 (.reg 70)),
    (0x0629246A, 0x00000000, 0x00000000, .imul .n16x2 10 36 (.reg 70)),
    (0x08292462, 0x00000000, 0x00000000, .imulh .n32 10 36 (.reg 70)),
    (0x0A29246C, 0x00000000, 0x00000000, .imad .i32s 10 36 (.reg 70)),
    (0x0C292468, 0x00000000, 0x00000000, .imin .i16x2 10 36 (.reg 70)),
    (0x0E292466, 0x00000000, 0x00000000, .imax .n64 10 36 (.reg 70)),
    (0x10292460, 0x00000000, 0x00000000, .and .i32 10 36 (.reg 70)),
    (0x12292462, 0x00000000, 0x00000000, .or .n32 10 36 (.reg 70)),
    (0x14292464, 0x00000000, 0x00000000, .xor .i64 10 36 (.reg 70)),
    (0x16292466, 0x00000000, 0x00000000, .andn .n64 10 36 (.reg 70)),
    (0x02292005, 0xFFFFFFFE, 0x00000000, .iadd .i64 10 36 (.lit 0xFFFFFFFE))] :
    List (Nat × Nat × Nat × Instr)), decodeWords e.1 e.2.1 e.2.2.1 = .ok e.2.2.2 := by decide +kernel

/-- Words of shifts, bit fields, selects, moves and compares, R276, R280, R281. -/
theorem test_decode_shifts_1 : ∀ e ∈ ([(0x18292474, 0x00000000, 0x00000000, .shl .i64 10 36 (.reg 71)),
    (0x1A29247A, 0x00000000, 0x00000000, .shr .n16x2 10 36 (.reg 71)),
    (0x1C292478, 0x00000000, 0x00000000, .sar .i16x2 10 36 (.reg 71)),
    (0x1E292472, 0x00000000, 0x00000000, .rot .n32 10 36 (.reg 71)),
    (0x28292476, 0x00000000, 0x00000000, .bfx .n64 10 36 (.reg 71)),
    (0x2A292472, 0x00000000, 0x00000000, .bfi .n32 10 36 (.reg 71)),
    (0x26292004, 0x00000000, 0x00000000, .popc true 10 36),
    (0x26292001, 0x00000000, 0x00000000, .clz false 10 36),
    (0x26292006, 0x00000000, 0x00000000, .brev true 10 36),
    (0x202A7200, 0x00000000, 0x00000000, .lea 10 9 100),
    (0x222D2C7A, 0x00000000, 0x00000000, .sel 5 11 37 (.reg 71)),
    (0x24280007, 0x80000001, 0x00000000, .mov .n64 10 (.lit 0x80000001))] :
    List (Nat × Nat × Nat × Instr)), decodeWords e.1 e.2.1 e.2.2.1 = .ok e.2.2.2 := by decide +kernel

/-- Words of shifts, bit fields, selects, moves and compares, R276, R280, R281. -/
theorem test_decode_shifts_2 : ∀ e ∈ ([(0x2DF92C7E, 0x00000000, 0x00000000, .icmp .geu 126 37 (.reg 71)),
    (0x462D2807, 0x00000010, 0x00000000, .shfl .bfly 11 37 (.lit 16)),
    (0x4828007F, 0x00000000, 0x00000000, .movu true 10 63)] :
    List (Nat × Nat × Nat × Instr)), decodeWords e.1 e.2.1 e.2.2.1 = .ok e.2.2.2 := by decide +kernel

/-- Words of the float operations, R276, R279, R281 (the listing of R336 for the literal). -/
theorem test_decode_floats_1 : ∀ e ∈ ([(0x2E292460, 0x00000000, 0x00000000, .fadd .f32 10 36 (.reg 70)),
    (0x30292462, 0x00000000, 0x00000000, .fsub .f64 10 36 (.reg 70)),
    (0x32292464, 0x00000000, 0x00000000, .fmul .f32x2 10 36 (.reg 70)),
    (0x34292466, 0x00000000, 0x00000000, .ffma .bf16x2 10 36 (.reg 70)),
    (0x36292468, 0x00000000, 0x00000000, .fmin .f16x2 10 36 (.reg 70)),
    (0x3829246A, 0x00000000, 0x00000000, .fmax .f16 10 36 (.reg 70)),
    (0x2E102001, 0x3F800000, 0x00000000, .fadd .f32 4 4 (.lit 0x3F800000)),
    (0x3A25246D, 0x00000000, 0x00000000, .fcmp .un true 9 36 70),
    (0x3C292190, 0x00000000, 0x00000000, .frnd .f64 .rd 10 36),
    (0x3C2D2051, 0x00000000, 0x00000000, .fclass .f16 11 36),
    (0x3C292002, 0x00000000, 0x00000000, .frcp .f32 10 36),
    (0x3C292013, 0x00000000, 0x00000000, .frsq .f64 10 36)] :
    List (Nat × Nat × Nat × Instr)), decodeWords e.1 e.2.1 e.2.2.1 = .ok e.2.2.2 := by decide +kernel

/-- Words of the float operations, R276, R279, R281 (the listing of R336 for the literal). -/
theorem test_decode_floats_2 : ∀ e ∈ ([(0x3C292024, 0x00000000, 0x00000000, .fsqrt .f32x2 10 36),
    (0x3C292035, 0x00000000, 0x00000000, .fexp2 .bf16x2 10 36),
    (0x3C292046, 0x00000000, 0x00000000, .flog2 .f16x2 10 36),
    (0x3C292057, 0x00000000, 0x00000000, .fsinp .f16 10 36),
    (0x3C292008, 0x00000000, 0x00000000, .fcosp .f32 10 36),
    (0x3C292019, 0x00000000, 0x00000000, .fneg .f64 10 36),
    (0x3C29202A, 0x00000000, 0x00000000, .fabs .f32x2 10 36)] :
    List (Nat × Nat × Nat × Instr)), decodeWords e.1 e.2.1 e.2.2.1 = .ok e.2.2.2 := by decide +kernel

/-- Words of the conversions, R281. -/
theorem test_decode_conversions : ∀ e ∈ ([(0x3E292C37, 0x00000000, 0x00000000, .cvt (.plain .n64 .f16 .ru) 10 37),
    (0x3E2D2668, 0x00000000, 0x00000000, .cvt (.toSlot 6 .i64) 11 36),
    (0x3E292D81, 0x00000000, 0x00000000, .cvt (.fromSlot .f64 5) 10 37),
    (0x40292803, 0x00000000, 0x00000000, .qblk 3 10 37),
    (0x4231280E, 0x00000000, 0x00000000, .cbdec 7 12 37),
    (0x422D2005, 0x00000000, 0x00000000, .cbenc 2 11 36),
    (0x442D400E, 0x00000000, 0x00000000, .pack .e2m1 11 40),
    (0x4431280D, 0x00000000, 0x00000000, .unpk .e3m2 12 37),
    (0x5423E000, 0x00000000, 0x00000000, .rng 8 124)] :
    List (Nat × Nat × Nat × Instr)), decodeWords e.1 e.2.1 e.2.2.1 = .ok e.2.2.2 := by decide +kernel

/-- Words of predicate, guard and control operations, R276, R281. -/
theorem test_decode_predicates_1 : ∀ e ∈ ([(0x4A0FFC01, 0x00000000, 0x00000000, .pand true 3 127 64),
    (0x4A0FFC02, 0x00000000, 0x00000000, .por false 3 127 64),
    (0x4A0FFC05, 0x00000000, 0x00000000, .pxor true 3 127 64),
    (0x4A0FF806, 0x00000000, 0x00000000, .pnot 3 127),
    (0x4A0FF808, 0x00000000, 0x00000000, .pmov 3 127),
    (0x4C020801, 0x00000000, 0x00000000, .gsel true 65),
    (0x4C000002, 0x00000000, 0x00000000, .gselNone),
    (0x4F0BFFFF, 0x00000000, 0x00000000, .bra true 66 0x1FFFF),
    (0x51FD0002, 0x00000000, 0x00000000, .call false 127 0x10002),
    (0x52000000, 0x00000000, 0x00000000, .nop),
    (0x52012001, 0x00000000, 0x00000000, .brx 36),
    (0x52000002, 0x00000000, 0x00000000, .ret)] :
    List (Nat × Nat × Nat × Instr)), decodeWords e.1 e.2.1 e.2.2.1 = .ok e.2.2.2 := by decide +kernel

/-- Words of predicate, guard and control operations, R276, R281. -/
theorem test_decode_predicates_2 : ∀ e ∈ ([(0x52000003, 0x00000000, 0x00000000, .exit)] :
    List (Nat × Nat × Nat × Instr)), decodeWords e.1 e.2.1 e.2.2.1 = .ok e.2.2.2 := by decide +kernel

/-- Words of the lane memory instructions, R276, R282. -/
theorem test_decode_memory_1 : ∀ e ∈ ([(0x56927242, 0x00000000, 0x00000000, .ld .b128 2 36 9 100),
    (0x589BF2B1, 0x00000000, 0x00000000, .st .b64 1 38 15 101),
    (0x5A9A723B, 0x00000000, 0x00000000, .ldq true true .system 38 9 100),
    (0x5C967227, 0x00000000, 0x00000000, .stq false true .die 37 9 100),
    (0x5E967200, 0x00000000, 0x00000000, .lds .b8 37 9 100),
    (0x60967210, 0x00000000, 0x00000000, .sts .b16 37 9 100),
    (0x62967220, 0x00000000, 0x00000000, .ldc .b32 37 9 100),
    (0x649A7230, 0x00000000, 0x00000000, .stc .b64 38 9 100),
    (0x66027201, 0x00000000, 0x00000000, .prf true 9 100),
    (0x689A722D, 0x00000000, 0x00000000, .atom .xor true .cluster 38 9 100),
    (0x6AA27248, 0x00000000, 0x00000000, .acas true .device 40 9 100),
    (0x6C967213, 0x00000000, 0x00000000, .afadd .bf16x2 .team 37 9 100)] :
    List (Nat × Nat × Nat × Instr)), decodeWords e.1 e.2.1 e.2.2.1 = .ok e.2.2.2 := by decide +kernel

/-- Words of the lane memory instructions, R276, R282. -/
theorem test_decode_memory_2 : ∀ e ∈ ([(0x6E9A7201, 0x00000000, 0x00000000, .xacc .f64 38 9 100),
    (0x709A7203, 0x00000000, 0x00000000, .xrd true true 38 9 100)] :
    List (Nat × Nat × Nat × Instr)), decodeWords e.1 e.2.1 e.2.2.1 = .ok e.2.2.2 := by decide +kernel

/-- Words of the uniform integer operations, R277, R283, R284. -/
theorem test_decode_uniform_1 : ∀ e ∈ ([(0x822D3F00, 0x00000000, 0x00000000, .sadd false 5 41 (.reg 62)),
    (0x842D3F02, 0x00000000, 0x00000000, .ssub true 5 41 (.reg 62)),
    (0x862D3F00, 0x00000000, 0x00000000, .smul false 5 41 (.reg 62)),
    (0x882D3F02, 0x00000000, 0x00000000, .sand true 5 41 (.reg 62)),
    (0x8A2D3F00, 0x00000000, 0x00000000, .sor false 5 41 (.reg 62)),
    (0x8C2D3F02, 0x00000000, 0x00000000, .sxor true 5 41 (.reg 62)),
    (0x8E2D3F00, 0x00000000, 0x00000000, .sshl false 5 41 (.reg 62)),
    (0x902D3F02, 0x00000000, 0x00000000, .sshr true 5 41 (.reg 62)),
    (0x922D3F00, 0x00000000, 0x00000000, .ssar false 5 41 (.reg 62)),
    (0x842D2003, 0xFFFFFFFF, 0x00000000, .ssub true 5 41 (.lit 0xFFFFFFFF)),
    (0x942D3F0C, 0x00000000, 0x00000000, .scmp .ltu 5 41 (.reg 62)),
    (0x962D3F42, 0x00000000, 0x00000000, .ssel 33 5 41 (.reg 62))] :
    List (Nat × Nat × Nat × Instr)), decodeWords e.1 e.2.1 e.2.2.1 = .ok e.2.2.2 := by decide +kernel

/-- Words of the uniform integer operations, R277, R283, R284. -/
theorem test_decode_uniform_2 : ∀ e ∈ ([(0x982D2000, 0x00000000, 0x00000000, .smov 5 41),
    (0x98280001, 0x80000000, 0x00000000, .smovLit 5 0x80000000),
    (0x98280003, 0x80000000, 0x00000000, .smovSx 5 0x80000000),
    (0x98380005, 0x56789ABC, 0x00001234, .smovD 7 0x56789ABC 0x1234),
    (0x9A2D3FFF, 0x00000000, 0x00000000, .saddi 5 41 0x1FFF),
    (0x9C2D300E, 0x00000000, 0x00000000, .slea 5 41 6 0x201),
    (0x9E28007F, 0x00000000, 0x00000000, .voteAny 5 127),
    (0x9E2800C0, 0x00000000, 0x00000000, .voteAll 5 64),
    (0x9E280101, 0x00000000, 0x00000000, .voteBallot 5 1),
    (0xA0280FE4, 0x00000000, 0x00000000, .rdln 5 100 31),
    (0xA02D3064, 0x00000000, 0x00000000, .rdlnReg 5 100 41),
    (0xA329FFFA, 0x00000000, 0x00000000, .bru .gez 41 0xFFFA)] :
    List (Nat × Nat × Nat × Instr)), decodeWords e.1 e.2.1 e.2.2.1 = .ok e.2.2.2 := by decide +kernel

/-- Words of records, barriers, waits and fences, R277, R283, R284, R329. -/
theorem test_decode_waits_1 : ∀ e ∈ ([(0xA47D4000, 0x00000000, 0x00000000, .brec 15 42),
    (0xA6000000, 0x00000000, 0x00000000, .barArrive),
    (0xA6000001, 0x00000000, 0x00000000, .barWait),
    (0xA6000002, 0x00000000, 0x00000000, .barSync),
    (0xA805200D, 0x00000000, 0x00000000, .cbar 13 41),
    (0xAA2D233B, 0x00000000, 0x00000000, .waitv 11 .die .geu true 5 41),
    (0xAC000025, 0x00000000, 0x00000000, .fenceAcq true .system),
    (0xAC00000C, 0x00000000, 0x00000000, .fenceRel false .device),
    (0xAC000030, 0x00000000, 0x00000000, .fenceFull true .wave),
    (0xB2052000, 0x00000000, 0x00000000, .twaitAll 41),
    (0xB2052001, 0x00000000, 0x00000000, .twaitAny 41),
    (0xB42D2000, 0x00000000, 0x00000000, .tfirst 5 41)] :
    List (Nat × Nat × Nat × Instr)), decodeWords e.1 e.2.1 e.2.2.1 = .ok e.2.2.2 := by decide +kernel

/-- Words of records, barriers, waits and fences, R277, R283, R284, R329. -/
theorem test_decode_waits_2 : ∀ e ∈ ([(0xB6052000, 0x00000000, 0x00000000, .tclr 41),
    (0xB82D2262, 0x00000000, 0x00000000, .chwaitAll 34 9 5 41),
    (0xB82D2662, 0x00000000, 0x00000000, .chwaitAny 34 9 5 41),
    (0xD2052022, 0x00000000, 0x00000000, .mwait 34 41),
    (0xDE000000, 0x00000000, 0x00000000, .ljoin),
    (0xF2000000, 0x00000000, 0x00000000, .yield),
    (0xF4052000, 0x00000000, 0x00000000, .sleep 41),
    (0xC20000C8, 0x00000000, 0x00000000, .collw 200)] :
    List (Nat × Nat × Nat × Instr)), decodeWords e.1 e.2.1 e.2.2.1 = .ok e.2.2.2 := by decide +kernel

/-- Words of the engine and tile instructions, R277, R283. -/
theorem test_decode_engines : ∀ e ∈ ([(0xAF152000, 0x00000000, 0x00000000, .cpy 34 41),
    (0xB1152000, 0x00000000, 0x00000000, .cpym 34 41),
    (0xC1152000, 0x00000000, 0x00000000, .coll 34 41),
    (0xC7152000, 0x00000000, 0x00000000, .mml 34 41),
    (0xC9152000, 0x00000000, 0x00000000, .mmck 34 41),
    (0xBE001001, 0x00000000, 0x00000000, .schadv 0x1001),
    (0xC5B42D99, 0x00000000, 0x00000000, .mma .m16 13 40 22 6 3),
    (0xCA680000, 0x00000000, 0x00000000, .mzero 13),
    (0xCC6D2005, 0x00000000, 0x00000000, .mlda .m16 .f16 13 41),
    (0xCE6D200A, 0x00000000, 0x00000000, .msta .m32 5 13 41),
    (0xD06D2001, 0x00000000, 0x00000000, .mscl .m16 13 41)] :
    List (Nat × Nat × Nat × Instr)), decodeWords e.1 e.2.1 e.2.2.1 = .ok e.2.2.2 := by decide +kernel

/-- Words of the system instructions, R277, R283, R284. -/
theorem test_decode_system_1 : ∀ e ∈ ([(0xD4050000, 0x00000000, 0x00000000, .rgne 40),
    (0xD6000000, 0x00000000, 0x00000000, .rgnl),
    (0xD8000801, 0x00000000, 0x00000000, .gcall 0x801),
    (0xDA000000, 0x00000000, 0x00000000, .gret),
    (0xDC2D2000, 0x00000000, 0x00000000, .lchild 5 41),
    (0xE02D2000, 0x00000000, 0x00000000, .perfq 5 41),
    (0xE2000001, 0x00000000, 0x00000000, .thrm true),
    (0xE4000053, 0x00000000, 0x00000000, .trap 0x53),
    (0xE6000000, 0x00000000, 0x00000000, .rte),
    (0xF6000000, 0x00000000, 0x00000000, .bkpt),
    (0xF8000000, 0x00000000, 0x00000000, .halt),
    (0xE8280200, 0x00000000, 0x00000000, .srd 0 true 5)] :
    List (Nat × Nat × Nat × Instr)), decodeWords e.1 e.2.1 e.2.2.1 = .ok e.2.2.2 := by decide +kernel

/-- Words of the system instructions, R277, R283, R284. -/
theorem test_decode_system_2 : ∀ e ∈ ([(0xE82801F0, 0x00000000, 0x00000000, .srd 0x1F0 false 5),
    (0xEA052029, 0x00000000, 0x00000000, .swr 0x029 41),
    (0xEC053007, 0x00000000, 0x00000000, .ipf true 0x803 41),
    (0xEE053006, 0x00000000, 0x00000000, .ipin false 0x803 41),
    (0xF0053007, 0x00000000, 0x00000000, .iunp true 0x803 41)] :
    List (Nat × Nat × Nat × Instr)), decodeWords e.1 e.2.1 e.2.2.1 = .ok e.2.2.2 := by decide +kernel

/-! ## Ill-formed terms -/

/-- A pair at an odd register (R278). -/
theorem test_wf_pairs : ∀ i ∈ ([.iadd .i64 1 2 (.reg 4), .isub .n64 2 1 (.reg 4), .imul .i64 2 4 (.reg 1), .imad .n64 2 4 (.reg 1), .shl .i64 1 2 (.reg 4),
    .rot .n64 2 1 (.reg 4), .lea 3 0 0, .mov .i64 1 (.lit 0), .popc true 0 1, .clz true 0 3] : List Instr), i.wf = false := by decide +kernel

theorem test_wf_pairs_2 : ∀ i ∈ ([.brev true 1 2, .bfx .n64 1 2 (.reg 4), .bfi .i64 2 1 (.reg 4), .fadd .f64 1 2 (.reg 4), .ffma .f32x2 2 4 (.reg 1),
    .fcmp .eq true 0 1 2, .fcmp .eq true 0 2 1, .frnd .f64 .rne 1 2, .fneg .f32x2 2 1, .qblk 0 1 2, .movu true 1 0, .brx 1] : List Instr),
    i.wf = false := by decide +kernel

/-- A type code that the instruction does not accept (R296, R297, R298, R300, R307). -/
theorem test_wf_types : ∀ i ∈ ([.imulh .i32s 0 0 (.reg 0), .imin .n32s 0 0 (.reg 0), .and .i16x2 0 0 (.reg 0), .andn .i32s 0 0 (.reg 0),
    .shl .i32s 0 0 (.reg 0), .rot .n32s 0 0 (.reg 0), .mov .n16x2 0 (.reg 0), .bfx .i16x2 0 0 (.reg 0), .fclass .f16x2 0 0, .fclass .bf16x2 0 0] :
    List Instr), i.wf = false := by decide +kernel

/-- A block that does not start at a multiple of its length (R278, R311, R313, R320, R322). -/
theorem test_wf_blocks : ∀ i ∈ ([.cbdec 0 2 0, .cbenc 0 0 6, .pack .e2m1 0 4, .pack .e4m3 0 2, .unpk .bf16 1 0, .rng 2 0, .rng 0 2, .ld .b128 0 2 0 0,
    .st .b64 0 1 0 0, .lds .b128 126 0 0, .stc .b64 3 0 0, .ldq true false .wave 1 0 0] : List Instr), i.wf = false := by decide +kernel

theorem test_wf_blocks_2 : ∀ i ∈ ([.stq true false .wave 1 0 0, .atom .add true .wave 1 0 0, .acas false .wave 1 0 0, .acas true .wave 2 0 0,
    .afadd .f64 .wave 1 0 0, .xacc .f64 1 0 0, .xrd true false 1 0 0, .cvt (.plain .f64 .f32 .fmode) 1 0, .cvt (.toSlot 0 .i64) 0 1,
    .cvt (.fromSlot .n64 0) 1 0] : List Instr), i.wf = false := by decide +kernel

/-- Uniform pairs at odd registers, a field that has to be zero (R284). -/
theorem test_wf_uniform : ∀ i ∈ ([.bru .always 1 0, .brec 0 1, .rgne 3, .mma .m32 0 1 2 0 0, .mma .m32 0 2 1 0 0, .srd 1 true 0] : List Instr),
    i.wf = false := by decide +kernel

/-- Words that are no instruction (R285): all zero, a reserved major, a reserved code, an unused bit, a literal where none is taken, an odd pair. -/
theorem test_wf_words : ∀ w ∈ [0x00000000, 0x80000000, 0x72000000, 0xBA000000, 0x22000010 + 1, 0x4A00000A, 0x52000004, 0x3C0000F0, 0x02040804,
    0xE6000001, 0x7E000000], ∃ r, decodeWords w 0 0 = .error r := by
  intro w hw
  have h : (match decodeWords w 0 0 with
    | .error _ => true
    | .ok _ => false) = true := by revert w; decide +kernel
  split at h
  · exact ⟨_, ‹_›⟩
  · cases h

/-! ## Witnesses -/

/-- The answer is a next state. -/
def nexts : Host.Outcome State Fault Refusal → Bool
  | .next _ => true
  | _ => false

theorem next_of {r : Host.Outcome State Fault Refusal} (h : nexts r = true) : ∃ t, r = .next t := by
  cases r with
  | next t => exact ⟨t, rfl⟩
  | fault _ => cases h
  | refused _ => cases h

theorem only {α : Type} {o : Option α} {a : α} (h : o = some a) {p : α → Prop} (hp : p a) : ∀ x, o = some x → p x := by
  intro x hx
  cases h.symm.trans hx
  exact hp

theorem some_of {α : Type} {o : Option α} (h : o.isSome = true) : ∃ x, o = some x := Option.isSome_iff_exists.mp h

/-- The small machine (LE 6), its wave as `f` changes it, whose threads 0 and 1 have been issued. -/
def grp : Group := ⟨0, 0, 0, [(32, 0), (32, 1)]⟩
def wv : Wave := Wave.start bootGrid 1 0 0 [0, 1] []
def st (f : Wave → Wave) : State := { (bootState .reset false []).updWave 32 f with cur := some grp }
def st0 : State := st (fun w => w)

/-- A lane instruction can be carried out on all 128 registers (R147). -/
theorem witness_lane_ready : LaneReady st0 grp (List.range 128) (List.range 128) := by decide +kernel

theorem witness_RoundTrip : ∀ i ∈ ([.smovD 63 0xFFFFFFFF 0xFFFFFFFF, .iadd .n32s 127 127 (.lit 0xFFFFFFFF), .halt] : List Instr),
    i.wf = true ∧ i.hasWord = true := by decide +kernel

theorem witness_OneWordEach : decodeBytes (leBytes 4 0xF8000000 ++ [1, 2, 3]) = .ok (.halt, 4) := by decide +kernel

/-- The state in which the lane pipe, or the uniform pipe, has selected its group. -/
def pickL (s : State) : State := s.turn.setSide s.cursor.core s.cursor.side (s.turn.selectLane s.cursor.core s.cursor.side).2
def pickU (s : State) : State :=
  let v := s.turn.splitTraps s.cursor.core s.cursor.side
  (v.setSide s.cursor.core s.cursor.side (v.selectUniform s.cursor.core s.cursor.side).2).ageUniform s.cursor.core s.cursor.side
    (v.sinceClk s.cursor.core (v.side s.cursor.core s.cursor.side).uClk) (some 32)
def all32 : Group := ⟨0, 0, 0, (List.range 32).map (fun l => (32, l))⟩

theorem turnOf (s : State) (h : s.agenda = []) (r : s.turn.coreRuns s.cursor.core = true)
    (c : (s.turn.deliverable s.cursor.core s.cursor.side).isNone = true) (d : (s.turn.reclaimable s.cursor.core s.cursor.side).isNone = true) : PipeTurn s :=
  ⟨fun e he => absurd (h ▸ he) (by simp), r, Option.isNone_iff_eq_none.mp c, Option.isNone_iff_eq_none.mp d⟩

theorem map_of {α β : Type} {o : Option α} {f : α → β} {b : β} (h : o.map f = some b) : ∃ a, o = some a ∧ f a = b := Option.map_eq_some_iff.mp h

def codeSt (u : Bool) (w : Nat) : State := bootState .reset u (leBytes 12 w)

/-- The lane pipe selects the whole wave: the word at its program counter is NOP, or none. -/
theorem witness_StepRunsDecoded_lane :
    LanePick (codeSt false 0x52000000) (pickL (codeSt false 0x52000000)) all32 ∧ all32.mem.head? = some (32, 0)
    ∧ (∃ w, Tbl.find (pickL (codeSt false 0x52000000)).waves 32 = some w
      ∧ (pickL (codeSt false 0x52000000)).fetchInstr 0 ((pickL (codeSt false 0x52000000)).partOf 32) w.asid 0 = some (leBytes 4 0x52000000))
    ∧ decodeBytes (leBytes 4 0x52000000) = .ok (.nop, 4)
    ∧ (pickL (codeSt false 0)).fetchInstr 0 0 0 0 = some (leBytes 4 0) ∧ (∃ r, decodeBytes (leBytes 4 0) = .error r) := by
  refine ⟨⟨turnOf _ rfl (by decide +kernel) (by decide +kernel) (by decide +kernel), rfl, by decide +kernel, rfl⟩, rfl, ?_, by decide +kernel,
    by decide +kernel, ⟨_, rfl⟩⟩
  have h : ((Tbl.find (pickL (codeSt false 0x52000000)).waves 32).map (fun w => w.asid)) = some 0 := by decide +kernel
  obtain ⟨w, e, a⟩ := map_of h
  exact ⟨w, e, by rw [a]; decide +kernel⟩

/-- The uniform pipe selects the wave; a program counter that is not mapped cannot be fetched; a row of the agenda is due. -/
theorem witness_StepRunsDecoded_uniform :
    UniformPick (codeSt true 0xD6000000) (pickU (codeSt true 0xD6000000)) all32
    ∧ (pickU (codeSt true 0xD6000000)).fetchInstr 0 0 0 (2 ^ 40) = none
    ∧ ({ State.reset with agenda := [(0, .ppsAbsent)] } : State).agenda = [(0, .ppsAbsent)] := by
  have h : ((((codeSt true 0xD6000000).turn.splitTraps 0 0).selectUniform 0 0).1.map (fun e => (e.1, e.2.lanes, e.2.pcOf (e.2.lanes.headD 0))))
      = some (32, List.range 32, 0) := by decide +kernel
  obtain ⟨e, he, hx⟩ := map_of h
  simp only [Prod.mk.injEq] at hx
  obtain ⟨h1, h2, h3⟩ := hx
  refine ⟨⟨turnOf _ rfl (by decide +kernel) (by decide +kernel) (by decide +kernel), rfl, e, he, by rw [h2]; decide, ?_, ?_⟩, by decide +kernel, rfl⟩
  · rw [h3, h2, h1]
    rfl
  · rw [h1]
    rfl

/-- A state and its next one, both with memories in their canonical form: at reset, and where a wave runs. -/
theorem witness_MemoryForm : MemForm State.reset ∧ (∃ t, step State.reset = .next t) ∧ MemForm (codeSt false 0x52000000)
    ∧ ∃ t, step (codeSt false 0x52000000) = .next t :=
  ⟨⟨rfl, rfl, rfl, by decide⟩, next_of (by decide +kernel), ⟨by decide +kernel, rfl, rfl, by decide +kernel⟩, next_of (by decide +kernel)⟩

theorem witness_IntegerArithmetic32 : (∀ t ∈ [IType.i32, .n32, .i32s, .n32s], (Instr.iadd t 127 0 (.lit 0)).wf && (Instr.imad t 127 0 (.reg 127)).wf = true)
    ∧ (∀ t ∈ [IType.i32, .n32], (Instr.andn t 127 0 (.reg 127)).wf && (Instr.imulh t 0 127 (.reg 0)).wf && (Instr.imax t 0 127 (.reg 0)).wf = true)
    ∧ LaneReady st0 grp [127, 0, 127] [127] := by decide +kernel

theorem witness_IntegerArithmeticPairsAndHalves :
    (∀ t ∈ [IType.i64, .n64], (Instr.imad t 126 0 (.reg 126)).wf && (Instr.xor t 0 126 (.lit 1)).wf && (Instr.imulh t 0 126 (.lit 1)).wf = true)
    ∧ (∀ t ∈ [IType.i16x2, .n16x2], (Instr.imad t 127 0 (.reg 127)).wf && (Instr.imin t 0 127 (.lit 1)).wf = true)
    ∧ LaneReady st0 grp (regsOf true 126 ++ regsOf true 0 ++ (VOp.reg 126).regs true) (regsOf true 126) := by decide +kernel

theorem witness_Shifts : (∀ t ∈ [IType.i32, .n32, .i64, .n64, .i16x2, .n16x2], (Instr.shl t 126 0 (.reg 127)).wf && (Instr.rot t 0 126 (.lit 64)).wf = true)
    ∧ LaneReady st0 grp (regsOf true 126 ++ regsOf true 0 ++ (VOp.reg 127).regs false) (regsOf true 126) := by decide +kernel

/-- A buffer record with every right (R171). -/
def rcd (base extent e space oob : Nat) : RecBits := BitVec.ofNat 128 (oob * 2 ^ 112 + space * 2 ^ 110 + 7 * 2 ^ 107 + e * 2 ^ 100 + extent * 2 ^ 52 + base)

/-- The wave with the record `b` in b3, and in v100 of lane 1 the index `i`. -/
def indexed (b : RecBits) (i : Word) (w : Wave) : Wave := { w with b := [(3, b)], v := [(128 + 100, i)] }

/-- Where the results of the one wave of a group raise no cause, and no trap on a flag is enabled. -/
theorem quietA (s : State) (g : Group) (w0 : Wave) (e : Nat → Wave → Nat → LaneRes) (hg : ∀ m ∈ g.mem, m.1 = 32) (h : w0.fmode = 0) (h2 : Tbl.find s.waves 32 = some w0)
    (c : ∀ m ∈ g.mem, (e 32 w0 m.2).cause = none) : LaneQuiet s g e := by
  intro m hm w hw _
  have h1 := hg m hm
  rw [h1] at hw ⊢
  have hw2 : w = w0 := Option.some.inj (hw.symm.trans h2)
  rw [hw2]
  have z : fieldOf (0 : Word) 12 8 = 0 := by decide
  refine ⟨c m hm, ?_⟩
  rw [flagsTrap, h, z, Nat.zero_and]
  rfl

def rcds (k : Nat) : RecBits := if k = 0 then rcd 64 2 2 0 0 else if k = 1 then rcd 64 2 2 1 0 else rcd 64 1 2 0 1

/-- LEA of the last element, in global memory and in local scratch, and of one beyond the end that is dropped. -/
theorem witness_MovesFieldsAddresses :
    ((Instr.mov .n32 127 (.lit 0)).wf && (Instr.mov .i64 126 (.reg 0)).wf && (Instr.bfx .n32 127 0 (.reg 127)).wf && (Instr.bfi .i64 126 0 (.reg 127)).wf
      && (Instr.sel 7 127 0 (.reg 127)).wf && (Instr.movu true 126 63).wf && (Instr.popc true 127 126).wf && (Instr.clz true 127 126).wf
      && (Instr.brev true 126 0).wf && (Instr.lea 126 3 100).wf) = true
    ∧ (∀ k ∈ [0, 1, 2], LaneReady (st (indexed (rcds k) 1)) grp (regsOf true 126 ++ [100]) (regsOf true 126)
      ∧ laneAddress ((indexed (rcds k) 1 wv).breg 3) ((indexed (rcds k) 1 wv).vreg 1 100).toNat 4 = if k = 2 then .dropped else .at_ 68)
    ∧ ∀ k ∈ [0, 1, 2], LaneQuiet (st (indexed (rcds k) 1)) grp (fun _ w l =>
      match laneAddress (w.breg 3) (w.vreg l 100).toNat (Rcd.esize (w.breg 3)) with
      | .at_ _ => {}
      | .dropped => {}
      | .trap c => .trap c) := by
  refine ⟨by decide +kernel, by decide +kernel, ?_⟩
  intro k hk
  refine quietA _ _ (indexed (rcds k) 1 wv) _ (by decide) rfl ?_ ?_
  · revert k; decide +kernel
  · revert k; decide +kernel

/-- The first clause with a pair, a half and a NaN in v100 of lane 1; every flag may be raised, as no trap is enabled. -/
theorem witness_FloatOperations : ((Instr.fadd .f64 126 0 (.lit 0)).wf && (Instr.ffma .f32x2 126 0 (.reg 126)).wf && (Instr.fmax .f16 127 0 (.reg 127)).wf
      && (Instr.fcmp .un true 126 0 126).wf && (Instr.frnd .f64 .ru 126 0).wf && (Instr.fsqrt .bf16x2 127 0).wf && (Instr.fclass .f64 127 126).wf) = true
    ∧ LaneReady (st (indexed 0 0x7F800001)) grp (List.range 128) (List.range 128)
    ∧ ∀ (v : Wave → Nat → VWrites) (fl : Wave → Nat → Nat), LaneQuiet (st (indexed 0 0x7F800001)) grp (fun _ w l => .ofF (v w l) (fl w l)) :=
  ⟨by decide +kernel, by decide +kernel, fun _ _ => quietA _ _ (indexed 0 0x7F800001 wv) _ (by decide) rfl (by decide +kernel) (fun _ _ => rfl)⟩

/-- The small machine with these format slots. -/
def slotted (f : List DWord) : State := { st0 with grids := [(1, { bootGrid with lrec := { bootRec with fslots := f } })] }

/-- A plain conversion; one to and from slot f1, in e4m3; QBLK of slot f2, which is scaled; CBDEC and CBENC of slot f3, a codebook; the others. -/
theorem witness_ConversionsAndExchange :
    ((Instr.cvt (.plain .f64 .i64 .rz) 126 0).wf && (Instr.cvt (.toSlot 1 .f64) 127 126).wf && (Instr.cvt (.fromSlot .n64 1) 126 127).wf && (Instr.qblk 2 126 127).wf
      && (Instr.cbdec 3 124 127).wf && (Instr.cbenc 3 127 124).wf && (Instr.pack .e2m1 127 120).wf && (Instr.unpk .e2m1 120 127).wf
      && (Instr.shfl .bfly 127 0 (.lit 31)).wf && (Instr.rng 124 0).wf) = true
    ∧ (let s := slotted [0, 3, 0x803, 8]
      LaneReady s grp (List.range 128) (List.range 128) ∧ slotElem (s.fslotOf 32 1) ≠ 8 ∧ slotScaled (s.fslotOf 32 2) = true ∧ slotElem (s.fslotOf 32 3) = 8)
    ∧ ∀ (v : Wave → Nat → VWrites) (fl : Wave → Nat → Nat), LaneQuiet (slotted [0, 3, 0x803, 8]) grp (fun _ w l => .ofF (v w l) (fl w l)) :=
  ⟨by decide +kernel, by decide +kernel, fun _ _ => quietA _ _ wv _ (by decide) rfl (by decide +kernel) (fun _ _ => rfl)⟩

/-- A write to p127; p127 and p0 as operands. -/
theorem witness_IntegerCompare : (Instr.icmp .geu 127 127 (.lit 0)).wf = true ∧ LaneReady st0 grp [127] [] := by decide +kernel
theorem witness_PredicateOperations : ((Instr.pand true 127 0 127).wf && (Instr.pnot 0 127).wf) = true ∧ LaneReady st0 grp [] []
    ∧ ((0 : PReg) = 0 ∧ false = false) ∧ ((127 : PReg) ≠ 0 ∨ true = true) := by decide +kernel
theorem witness_ControlFlow : ((Instr.bra true 127 0x10000).wf && (Instr.call false 127 0xFFFF).wf && (Instr.brx 126).wf && (Instr.ret).wf && (Instr.nop).wf) = true
    ∧ LaneReady st0 grp [126, 127] [126, 127] := by decide +kernel
theorem witness_GuardSelection : LaneReady st0 grp [] [] ∧ ((1 : PReg) ≠ 0 ∨ (0 : PReg) ≠ 0) := by decide +kernel

/-- One thread exits, and all that are left exit. -/
theorem witness_ThreadExit : LaneReady st0 grp [] [] ∧ (∀ m ∈ grp.mem, ∀ w, Tbl.find st0.waves m.1 = some w → w.gates = [])
    ∧ (∃ t ∈ wv.threads, t.exited = false) ∧ ∀ t ∈ (wv.threads.map (fun t => { t with exited := true })), t.exited = true := by
  refine ⟨by decide +kernel, ?_, by decide +kernel, by decide +kernel⟩
  intro m hm
  refine only (a := wv) ?_ (by decide)
  revert m; decide +kernel

/-! ## Uniform instructions -/

/-- The small machine with the uniform registers `s`, its wave issued by the uniform pipe. -/
def uw (s : Tbl DWord) : Wave := { wv with s := s }
def ust (s : Tbl DWord) : State := st (fun w => { w with s := s })

theorem witness_UniformIntegers : (Instr.sadd true 63 0 (.lit 0xFFFFFFFF)).wf = true ∧ UniReady (ust [(5, 0xFFFFFFFF80000000)]) 32 (uw [(5, 0xFFFFFFFF80000000)]) [63] [] [] := by
  decide +kernel
theorem witness_UniformMoves : ((Instr.scmp .geu 63 0 (.reg 63)).wf && (Instr.ssel 63 0 63 (.lit 0)).wf && (Instr.smovD 63 0 1).wf && (Instr.slea 0 63 7 0x200).wf) = true
    ∧ UniReady (ust []) 32 (uw []) [63] [] [] := by decide +kernel
theorem witness_VotesReadsBranch : ((Instr.voteAll 63 127).wf && (Instr.rdln 0 127 31).wf && (Instr.rdlnReg 63 0 63).wf) = true
    ∧ UniReady (ust []) 32 (uw []) [63] [127] [] ∧ UniIssued (ust []) 32 (uw []) := by decide +kernel

/-! ## Traps, waves, special registers, regions, gate calls -/

/-- The small machine with the wave `w`, and domain 0 as these flags say (R219): 1 valid, 3 a system domain, 0 not valid. -/
def mk (w : Wave) : State := { st0 with waves := [(32, w)] }
def dom (fl : Nat) (w : Wave) : State :=
  (mk w).putBytes 0x4000 (natBytes 8 0x1000 ++ natBytes 8 0x50000 ++ natBytes 2 0 ++ natBytes 1 fl ++ natBytes 13 0)
def d0 (fl : Nat) : Domain := ⟨0x1000, 0x50000, 0, fl != 0, fl == 3⟩
def inHandler (w : Wave) : Wave := { w with cause := 0x10000 }
def gate : GateEntry := ⟨0x2000, 0, 15, 0, true, true, true, 1, 1000, 0⟩
def called (w : Wave) : Wave := w.pushGate 0 1 0 gate

theorem witness_TrapsTaken : (Tbl.find (dom 1 wv).waves 32 = some wv ∧ wv.inh = false ∧ HasHandler (dom 1 wv) 32 wv (d0 1)
      ∧ (d0 1).area + ((dom 1 wv).coreOf 32 * 32 + wv.slot) * 4096 < 2 ^ 52 ∧ (0xFF < 256 ∧ 0xFF ≠ 0x03))
    ∧ (∀ fl ∈ [0, 1], (dom fl wv).domainEntry ((dom fl wv).partOf 32) wv.domain = d0 fl) ∧ (d0 0).v = false
    ∧ ((inHandler wv).inh = true ∧ (inHandler wv).gates = []) ∧ ((inHandler (called wv)).inh = true ∧ (inHandler (called wv)).gates ≠ [])
    ∧ ((called wv).inh = false ∧ (called wv).gates ≠ []) := by decide +kernel

theorem witness_TrapsAndReturn : (UniIssued (dom 1 wv) 32 wv ∧ wv.inh = false ∧ HasHandler (dom 1 wv) 32 wv (d0 1))
    ∧ (UniIssued (mk (inHandler wv)) 32 (inHandler wv) ∧ (inHandler wv).inh = true)
    ∧ (UniIssued { mk (inHandler (called wv)) with cur := some { grp with pc := 0x2000 } } 32 (inHandler (called wv)) ∧ (called wv).gates ≠ [])
    ∧ (dom 3 wv).privileged 32 = true ∧ (dom 1 wv).privileged 32 = false := by decide +kernel

theorem witness_WordsThatDoNotRun : (dom 1 wv).cur = some grp ∧ grp.waves = [32] ∧ Tbl.find (dom 1 wv).waves 32 = some wv
    ∧ ¬ (wv.inh = true ∧ wv.gates = [] ∧ grp.pc = ((dom 1 wv).domainEntry ((dom 1 wv).partOf 32) wv.domain).vec)
    ∧ (let s := { dom 1 (inHandler wv) with cur := some { grp with pc := 0x1000 } }
      s.cur = some { grp with pc := 0x1000 } ∧ (inHandler wv).inh = true ∧ (inHandler wv).gates = []
        ∧ ({ grp with pc := 0x1000 } : Group).pc = (s.domainEntry (s.partOf 32) wv.domain).vec) := by decide +kernel

/-- A throttle cause and a deferred one wait: each is the lowest in one of the waves. Below, a frozen wave, which halted and which did not. -/
def waiting (c : Nat) : Wave := { wv with async := [(0x70, 0)], deferred := [⟨c, none, 0, none, none⟩] }
def iced (h : Bool) : Wave := { inHandler wv with frozen := true, halted := h }

theorem witness_WaveControl :
    ((mk (waiting 0x75)).waveAt 0 0 = some (32, waiting 0x75) ∧ (waiting 0x75).nextAsync = some (0x70, 0) ∧ (waiting 0x75).park ≠ .yielded
      ∧ (waiting 0x75).nextDeferred = some ⟨0x75, none, 0, none, none⟩ ∧ 0x70 < 0x75)
    ∧ ((mk (waiting 0x32)).waveAt 0 0 = some (32, waiting 0x32) ∧ (waiting 0x32).nextDeferred = some ⟨0x32, none, 0, none, none⟩
      ∧ (waiting 0x32).nextAsync = some (0x70, 0) ∧ 0x32 ≤ 0x70)
    ∧ ∀ h ∈ [false, true], (dom 1 (iced h)).waveAt 0 0 = some (32, iced h) ∧ (fieldOf (0 : DWord) 40 32 = 0 ∧ fieldOf (0 : DWord) 4 0 = 0) ∧ (iced h).frozen = true
      ∧ (dom 1 (iced h)).ownerOf (clusterOf 0) = some 0 ∧ (dom 1 (iced h)).partOf 32 = 0 ∧ (iced h).halted = h
      ∧ (dom 1 (iced h)).domainEntry 0 wv.domain = d0 1 := by decide +kernel

/-- In a system domain in test mode, and in another domain. -/
def testing (s : State) : State := { s with dev := { s.dev with testMode := true } }

theorem witness_SpecialRegisterReads : (Tbl.find (testing (dom 3 wv)).teams wv.team = some (bootTeam 0 0) ∧ Tbl.find (testing (dom 3 wv)).grids 1 = some bootGrid)
    ∧ UniReady (testing (dom 3 wv)) 32 wv [63] [] [] ∧ (testing (dom 3 wv)).privileged 32 = true ∧ (testing (dom 3 wv)).dev.testMode = true
    ∧ (UniReady (dom 1 wv) 32 wv [63] [] [] ∧ (dom 1 wv).privileged 32 = false ∧ (dom 1 wv).dev.testMode = false)
    ∧ UniReady (dom 1 wv) 32 wv [] [63 + 64 * bnat true] [63 + 64 * bnat true] := by decide +kernel

/-- The value to write in s5: 0, one with every bit set, and one at the ends of the fields of each register. -/
def sv (x : DWord) : Wave := { wv with s := [(5, x)] }

theorem witness_SpecialRegisterWrites : UniIssued (testing (dom 3 (sv 0xFF07FFFF))) 32 (sv 0xFF07FFFF) ∧ (sv 0xFF07FFFF).sreg 5 = 0xFF07FFFF
    ∧ (fieldOf (0xFF07FFFF : DWord) 23 19 = 0 ∧ fieldOf (0xFF07FFFF : DWord) 63 32 = 0) ∧ fieldOf (0x00080000 : DWord) 23 19 ≠ 0
    ∧ (fieldOf (0x1F1F03 : DWord) 63 21 = 0 ∧ fieldOf (0x1F1F03 : DWord) 15 13 = 0 ∧ fieldOf (0x1F1F03 : DWord) 7 3 = 0 ∧ fieldOf (0x1F1F03 : DWord) 2 0 < 4)
    ∧ 4 ≤ fieldOf (4 : DWord) 2 0 ∧ (testing (dom 3 wv)).dev.testMode = true ∧ (testing (dom 3 wv)).privileged 32 = true ∧ (testing (dom 1 wv)).privileged 32 = false
    ∧ (fieldOf (0x80000000000FFFDF : DWord) 62 20 = 0 ∧ fieldOf (0x80000000000FFFDF : DWord) 5 5 = 0) ∧ fieldOf (0x20 : DWord) 5 5 ≠ 0
    ∧ (dom 1 wv).dev.testMode = false := by decide +kernel

/-- The other clauses meet their hypotheses in `witness_InstructionPinning_lines`, `witness_InstructionPinning_limit` and `witness_InstructionPinning_ways`. -/
theorem witness_InstructionPinning : UniIssued st0 32 wv ∧ 0 ∈ linesFrom (wv.sreg 5).toNat (4095 + 1) := by decide +kernel

/-- An engine job of the wave, issued in its region. -/
def job0 (card : List Byte) : Job where
  team := some 1
  wid := some 32
  node := none
  sched := false
  card := card
  tag := 5
  core := 0
  cls := .g
  part := 0
  asid := 0
  grid := some 1
  order := 0
  issueId := 1
  pos := 0
  read := 0
  wait := .no
  paused := false
  inRegion := true
  round := 0
  acked := 0
  chk := []
  lines := []
  absent := []
  inData := []

def regioned : Wave := { wv with region := some ⟨0, 0, 1, [], []⟩ }

theorem witness_Regions : (UniIssued (mk wv) 32 wv ∧ wv.inh = false ∧ wv.region = none) ∧ (inHandler wv).inh = true
    ∧ (UniIssued (mk regioned) 32 regioned ∧ regioned.inh = false ∧ regioned.region ≠ none)
    ∧ (∀ e ∈ (mk regioned).jobs, e.2.wid = some 32 → e.2.inRegion = true → e.2.sched = true)
    ∧ (∃ e ∈ ({ mk regioned with jobs := [(2, job0 [])] } : State).jobs, e.2.wid = some 32 ∧ e.2.inRegion = true ∧ e.2.sched = false) := by decide +kernel

/-- Gate 1 of the partition (R234), with these flags: 7 valid and permitted, 1 permitted to neither class, 0 not valid. -/
def gated (fl : Nat) (w : Wave) : State := (dom 1 w).putBytes 64 (natBytes 8 0x2000 ++ natBytes 1 0 ++ natBytes 1 15 ++ natBytes 2 0 ++ natBytes 1 fl ++ natBytes 3 0
  ++ natBytes 32 1 ++ natBytes 4 1000 ++ natBytes 12 0)
def late : Wave := { called wv with budget := some (0, 0), abortAt := some (0, 0) }

theorem witness_GateCalls : UniIssued (gated 7 wv) 32 wv ∧ (gated 7 wv).gateEntry ((gated 7 wv).partOf 32) 1 = gate
    ∧ (gate.v = true ∧ ((gated 7 wv).domainEntry 0 gate.domain).v = true) ∧ ((gated 7 wv).clsOf 32 = .g ∧ gate.gOk = true ∧ bitOf gate.permit wv.domain = true)
    ∧ ¬ (wv.gates.length = 3 ∨ ∃ f ∈ wv.gates, f.g = 1) ∧ wv.guarded = false ∧ ((gated 0 wv).gateEntry 0 1).v = false ∧ ((gated 1 wv).gateEntry 0 1).gOk = false
    ∧ (∃ f ∈ (called wv).gates, f.g = 1) ∧ (regioned.guarded = true ∧ regioned.gates = []) ∧ ((called wv).gates ≠ [] ∧ (called wv).guarded = false)
    ∧ ({ called wv with region := regioned.region } : Wave).guarded = true
    ∧ ((mk late).waveAt 0 0 = some (32, late) ∧ late.budget = some (0, 0) ∧ late.abortAt = some (0, 0) ∧ 0 ≤ (mk late).clkOf 32 - 0
      ∧ (mk late).running = true ∧ (mk late).asleep 0 = false) := by decide +kernel

theorem witness_GateRoundTrip : 15 ≤ gate.vwin ∧ gate.vwin < 32 ∧ (called wv).gates = (wv.pushGate 0 1 0 gate).gates
    ∧ (called wv).threads.length = wv.threads.length := by decide +kernel

/-! ## Lane memory instructions -/

/-- A spot at which a lane can act. -/
def spotFine (s : State) (width : Nat) (reads : Bool) : Option Spot → Bool
  | none => false
  | some (.hbm pa) => pa % width == 0 && (!reads || !s.poisoned pa width)
  | some (.scratch c off) => !s.asleep c && (!reads || !s.scratchPoisoned c off width)
  | some .drop => true

/-- `PlainWave` of wave 32, from what can be evaluated. -/
def plainB (s : State) : Bool :=
  (Tbl.find s.waves 32).any (fun w => w.pend == .none) && !s.logPending 32 && !s.storeQueued 32 && !s.prot 32
    && fieldOf (s.part (s.partOf 32)).mirror 31 31 == 0
    && ((Tbl.find s.grids (s.gridIdOf 32)).bind (fun g => Tbl.find s.grids g.root)).map (fun g => g.lrec.replay) != some true

theorem plainA (s : State) (h : plainB s = true) : PlainWave s 32 := by
  simp only [plainB, Bool.and_eq_true, Bool.not_eq_true', beq_iff_eq, bne_iff_ne] at h
  obtain ⟨⟨⟨⟨⟨h1, h2⟩, h3⟩, h4⟩, h5⟩, h6⟩ := h
  refine ⟨fun w hw => ?_, h2, h3, h4, h5, h6⟩
  rw [hw, Option.any_some, beq_iff_eq] at h1
  rw [h1]
  rfl

/-- `MemReady` of a group of one wave, from what can be evaluated. -/
theorem memReadyA (s : State) (g : Group) (w0 : Wave) (regs dst : List Nat) (width o : Nat) (reads : Bool) (spot : Nat → Wave → Nat → Option Spot)
    (h : LaneReady s g regs dst ∧ (g.mem.map (fun m => m.2)).Nodup ∧ (∀ m ∈ g.mem, m.1 = 32) ∧ plainB s = true ∧ Tbl.find s.waves 32 = some w0
      ∧ (∀ m ∈ g.mem, (w0.thread m.2).pc = g.pc) ∧ ∀ m ∈ g.mem, spotFine s width reads (spot 32 w0 (w0.vreg m.2 o).toNat) = true) :
    MemReady s g regs dst width o reads spot := by
  obtain ⟨h1, h2, h3, h4, h5, h6, h7⟩ := h
  refine ⟨h1, h2, fun m hm => h3 m hm ▸ plainA s h4, ?_, ?_⟩
  · intro m hm w hw
    rw [h3 m hm, h5] at hw
    cases hw
    exact h6 m hm
  · intro m hm w hw _
    rw [h3 m hm] at hw ⊢
    rw [h5] at hw
    cases hw
    have hx := h7 m hm
    revert hx
    generalize spot 32 w0 (w0.vreg m.2 o).toNat = x
    intro hx
    match x, hx with
    | none, hx => cases hx
    | some .drop, _ => trivial
    | some (.scratch _ _), hx | some (.hbm _), hx =>
      simp only [spotFine, Bool.and_eq_true, Bool.or_eq_true, beq_iff_eq, Bool.not_eq_true'] at hx
      refine ⟨hx.1, fun hr => ?_⟩
      rcases hx.2 with h | h
      · rw [hr] at h
        cases h
      · exact h

/-- No cache holds a line. -/
theorem freshA (s : State) (wid : Nat) (h : (s.core (s.coreOf wid)).l1 = [] ∧ s.peerWays = []) (pa : Nat) : Fresh s wid pa := by
  intro l hl
  rw [h.1, h.2] at hl
  cases hl

/-- Elements 0 and 1 of 16 bytes: of global memory, of local and of cluster scratch; and a record of one element, the second of which drops. -/
def wide (k : Nat) : RecBits := if k < 3 then rcd 0 2 4 k 0 else rcd 0 1 4 0 1
def wideSt (k : Nat) : State := st (indexed (wide k) 1)

theorem witness_LoadsAndPrefetch :
    (∀ k ∈ [0, 1, 2, 3], MemReady (wideSt k) grp (100 :: block 124 4) (block 124 4) 16 100 true (spotOf (wideSt k) [k % 3] .read 16 3))
    ∧ (∀ m ∈ grp.mem, ∀ pa, Fresh (wideSt 0) m.1 pa) ∧ ((Instr.ld .b128 2 124 3 100).wf && (Instr.lds .b8 127 3 100).wf && (Instr.ldc .b64 126 3 100).wf
      && (Instr.ldq true true .system 126 3 100).wf && (Instr.prf true 3 100).wf) = true ∧ LaneReady (wideSt 0) grp [100] []
    ∧ (spotOf (wideSt 0) [0] .read 16 3 32 (indexed (wide 0) 1 wv) 1 = some (.hbm 0x30010) ∧ spotOf (wideSt 3) [0] .read 16 3 32 (indexed (wide 3) 1 wv) 1 = some .drop) := by
  refine ⟨?_, ?_, by decide +kernel, by decide +kernel, by decide +kernel⟩
  · intro k hk
    refine memReadyA _ _ (indexed (wide k) 1 wv) _ _ _ _ _ _ ?_
    revert k
    decide +kernel
  · intro m hm pa
    rw [show m.1 = 32 by revert m; decide]
    exact freshA _ _ (by decide +kernel) pa

theorem witness_Stores : (∀ k ∈ [0, 1, 2, 3], MemReady (wideSt k) grp (100 :: block 124 4) [] 16 100 false (spotOf (wideSt k) [k % 3] .write 16 3))
    ∧ ((Instr.st .b128 3 124 3 100).wf && (Instr.sts .b8 127 3 100).wf && (Instr.stc .b64 126 3 100).wf && (Instr.stq true true .system 126 3 100).wf) = true
    ∧ (wideSt 0).release 32 .system = (true, wideSt 0) := by
  refine ⟨?_, by decide +kernel, by decide +kernel⟩
  intro k hk
  refine memReadyA _ _ (indexed (wide k) 1 wv) _ _ _ _ _ _ ?_
  revert k
  decide +kernel

/-- On 64 bits, with the comparand in v124 and the new value in v126, in HBM, in scratchpads at cluster scope, and dropped. -/
theorem witness_Atomics : (∀ k ∈ [0, 1, 2, 3], MemReady (wideSt k) grp (100 :: block 124 4) (regsOf true 124) 8 100 true (fun wid w idx =>
      match spotOf (wideSt k) [0, 1, 2] .atomic 8 3 wid w idx with
      | some (.scratch c off) => if Scope.cluster.code ≤ 2 then some (.scratch c off) else none
      | x => x))
    ∧ ((Instr.atom .xchg true .cluster 126 3 100).wf && (Instr.acas true .cluster 124 3 100).wf && (Instr.afadd .f64 .wave 126 3 100).wf) = true
    ∧ (∀ m ∈ grp.mem, (wideSt 1).release m.1 .cluster = (true, wideSt 1)) ∧ (Tbl.find (wideSt 1).waves 32).map (fun w => w.guarded) = some false := by
  refine ⟨?_, by decide +kernel, by decide +kernel, by decide +kernel⟩
  intro k hk
  refine memReadyA _ _ (indexed (wide k) 1 wv) _ _ _ _ _ _ ?_
  revert k
  decide +kernel

/-- Two cells of 64 bytes, and one of which the second lane's drops. -/
def cellSt (oob : Nat) : State := st (indexed (BitVec.ofNat 128 (oob * 2 ^ 112 + 7 * 2 ^ 107 + 64 * 2 ^ 84 + (2 - oob) * 2 ^ 52)) 1)

theorem witness_ExactCells : (∀ k ∈ [0, 1], MemReady (cellSt k) grp (100 :: regsOf true 126) [] 64 100 true (cellSpot (cellSt k) .atomic 3)
      ∧ MemReady (cellSt k) grp (100 :: regsOf true 126) (regsOf true 126) 64 100 true (cellSpot (cellSt k) .read 3))
    ∧ ((Instr.xacc .f64 126 3 100).wf && (Instr.xrd true true 126 3 100).wf) = true := by
  refine ⟨?_, by decide +kernel⟩
  intro k hk
  refine ⟨memReadyA _ _ (indexed (BitVec.ofNat 128 (k * 2 ^ 112 + 7 * 2 ^ 107 + 64 * 2 ^ 84 + (2 - k) * 2 ^ 52)) 1 wv) _ _ _ _ _ _ ?_,
    memReadyA _ _ (indexed (BitVec.ofNat 128 (k * 2 ^ 112 + 7 * 2 ^ 107 + 64 * 2 ^ 84 + (2 - k) * 2 ^ 52)) 1 wv) _ _ _ _ _ _ ?_⟩ <;>
    (revert k; decide +kernel)

/-- Lane 1 alone, with a record that begins at page `p`: page 1 is the register window, page 2 the host window, page 3 is not there. -/
def one : Group := ⟨0, 0, 0, [(32, 1)]⟩
def paged (p : Nat) : State :=
  let s := ((st (indexed (rcd (65536 * p) 2 2 0 0) 1)).putBytes 0x24008 (natBytes 8 0x40000000000F)).putBytes 0x24010 (natBytes 8 0x80000000000F)
  { s with cur := some one, parts := [(0, { bootPart with fq := ⟨0x100000, 0x80000000, 0, 0, 0⟩ })] }
def pw (p : Nat) : Wave := indexed (rcd (65536 * p) 2 2 0 0) 1 wv

theorem witness_PageFaults : (one.mem = [(32, 1)] ∧ Tbl.find (paged 3).waves 32 = some (pw 3) ∧ (pw 3).guardOn 1 = true ∧ ((pw 3).thread 1).pc = one.pc
      ∧ plainB (paged 3) = true ∧ ((paged 3).part 0).fq.enabled = true ∧ 0 < ((paged 3).part 0).fq.room)
    ∧ LaneReady (paged 3) one (100 :: block 127 1) (block 127 1) ∧ ((Instr.ld .b32 0 127 3 100).wf && (Instr.st .b32 0 127 3 100).wf) = true
    ∧ (∀ r ∈ [Right.read, .write], laneAddress ((pw 3).breg 3) ((pw 3).vreg 1 100).toNat 4 = .at_ 0x30004 ∧ State.recAllows ((pw 3).breg 3) r = true
      ∧ Rcd.space ((pw 3).breg 3) = 0 ∧ (paged 3).reach (some 0) 0 (State.asidOf (pw 3) ((pw 3).breg 3)) 0x30004 false r = .fault 0)
    ∧ (paged 3).logUsed 0 < 64 ∧ ((paged 3).part 0).fq.slotPa + 32 ≤ hbmEnd := by decide +kernel

theorem witness_WindowAccesses : (∀ p ∈ [1, 2], (paged p).cur = some one ∧ Tbl.find (paged p).waves 32 = some (pw p) ∧ (pw p).guardOn 1 = true
      ∧ plainB (paged p) = true ∧ LaneReady (paged p) one (100 :: block 127 1) (block 127 1))
    ∧ (∀ r ∈ [Right.read, .write], (paged 1).reach (some 0) 0 (State.asidOf (pw 1) ((pw 1).breg 3)) 0x10004 false r = .regs 4
      ∧ (paged 2).reach (some 0) 0 (State.asidOf (pw 2) ((pw 2).breg 3)) 0x20004 false r = .host 4 ∧ State.recAllows ((pw 1).breg 3) r = true)
    ∧ laneAddress ((pw 1).breg 3) ((pw 1).vreg 1 100).toNat 4 = .at_ 0x10004 ∧ laneAddress ((pw 2).breg 3) ((pw 2).vreg 1 100).toNat 4 = .at_ 0x20004
    ∧ Rcd.space ((pw 1).breg 3) = 0 := by decide +kernel

/-! ## Barriers, fences, parks, operating class -/

def bt : Team := bootTeam 0 0
def teamed (t : Team) (w : Wave) : State := { mk w with teams := [(1, t)] }
/-- A second wave of the team, which has not arrived. -/
def both (w : Wave) : State := { mk w with waves := [(32, w), (33, { wv with w := 1, slot := 1 })] }
def arrived : Wave := { wv with arrived := some 0 }
def cbst (b : Cbar) (n : DWord) : State := { mk (sv n) with parts := [(0, { bootPart with cbars := [(cbarKey 0 0 15, b)] })] }

theorem witness_Barriers : (UniIssued (mk wv) 32 wv ∧ Tbl.find (mk wv).teams wv.team = some bt ∧ wv.arrived ≠ some bt.phase ∧ (mk wv).release 32 .team = (true, mk wv))
    ∧ ((mk arrived).phaseFull 1 0 = true ∧ (both arrived).phaseFull 1 0 = false) ∧ (UniIssued (mk arrived) 32 arrived ∧ arrived.arrived = some bt.phase)
    ∧ ((mk { arrived with barPc := some 0, park := .bar }).phaseFull 1 0 = true ∧ (both { arrived with barPc := some 0, park := .bar }).phaseFull 1 0 = false)
    ∧ (∀ n ∈ [0, 1, 2, 1537], UniIssued (cbst ⟨0, 0, 0⟩ (BitVec.ofNat 64 n)) 32 (sv (BitVec.ofNat 64 n)) ∧ ((sv (BitVec.ofNat 64 n)).sreg 5).toNat = n
      ∧ Tbl.find (cbst ⟨0, 0, 0⟩ (BitVec.ofNat 64 n)).grids ((cbst ⟨0, 0, 0⟩ (BitVec.ofNat 64 n)).gridIdOf 32) = some bootGrid
      ∧ (cbst ⟨0, 0, 0⟩ (BitVec.ofNat 64 n)).release 32 .cluster = (true, cbst ⟨0, 0, 0⟩ (BitVec.ofNat 64 n)) ∧ (sv (BitVec.ofNat 64 n)).cbarAt = [])
    ∧ (∀ b ∈ [Cbar.mk 0 0 0, ⟨2, 1, 0⟩], Tbl.getD ((cbst b 2).part 0).cbars (cbarKey 0 (clusterOf ((cbst b 2).coreOf 32)) 15) ⟨0, 0, 0⟩ = b) := by decide +kernel

def jobbed (j : Job) (w : Wave) : State := { mk w with jobs := [(7, j)] }
/-- A store of the wave waits in the side log of its core. -/
def logged : State := (mk wv).updCore 0 (fun k => { k with sideLog := [⟨32, 0, 3, false, 0, 0x30000, 0, 1, false, none, none, [], []⟩] })
def asleep (till : Nat) : Wave := { wv with park := .sleep till }

theorem witness_FencesYieldSleep : (UniIssued (mk wv) 32 wv ∧ (∀ j ∈ (mk wv).jobs, j.2.wid = some 32 → j.2.sched = true) ∧ (mk wv).release 32 .system = (true, mk wv))
    ∧ (UniIssued (jobbed (job0 []) wv) 32 wv ∧ ¬ ∀ j ∈ (jobbed (job0 []) wv).jobs, j.2.wid = some 32 → j.2.sched = true)
    ∧ (UniIssued logged 32 wv ∧ logged.release 32 .device = (false, logged) ∧ logged.jobs = [])
    ∧ (Tbl.find (mk wv).teams wv.team = some bt ∧ bt.yieldBy = none) ∧ Tbl.find (teamed { bt with yieldBy := some 9 } wv).teams wv.team = some { bt with yieldBy := some 9 }
    ∧ (fieldOf ((sv 0xFFFFFFFF00000000).sreg 5) 31 0 = 0 ∧ fieldOf ((sv 0xFFFFFFFF).sreg 5) 31 0 = 0xFFFFFFFF)
    ∧ ∀ till ∈ [0, 1], (mk (asleep till)).waveAt 0 0 = some (32, asleep till) ∧ (asleep till).park = .sleep till ∧ (mk (asleep till)).reft = 0 := by decide +kernel

theorem witness_ClassRequestsAndThrottleArming : UniReady (mk (sv 3)) 32 (sv 3) [63] [] [] ∧ Tbl.find (mk (sv 3)).teams (sv 3).team = some bt
    ∧ (UniIssued (both wv) 32 wv ∧ Tbl.find (both wv).teams wv.team = some bt) ∧ (∀ k ∈ [32, 33], ((Tbl.find (both wv).waves k).map (fun x => x.team)) = some wv.team)
    ∧ (both wv).elected 1 = some 32 ∧ ((both wv).updHob 0 (fun h => { h with throttled := true })).hob (hobOf bt.core) = { Hob.reset with throttled := true } := by
  decide +kernel

/-! ## Records, waits, copy tags, engine jobs, tiles, child grids -/

def brecW (x : RecBits) : Wave := { wv with s := [(4, x.truncate 64), (5, (x >>> 64).truncate 64)] }
/-- WAITV on 64 bits at element 0 of b3, in HBM, in local and in cluster scratch: equal and not equal to s63. -/
def watch (k : Nat) (park : Park) : Wave := { wv with b := [(3, rcd 0 1 3 k 0)], park := park }
def waitvWord (c : Nat) : Nat := 2 ^ 31 + 0x15 * 2 ^ 25 + 63 * 2 ^ 19 + 2 ^ 9 + c * 2 ^ 7 + 5 * 2 ^ 4 + 3

theorem witness_RecordsAndValueWaits :
    (∀ k ∈ [0, 1, 2], (let x := ((brecW (rcd 0 2 4 k 1)).sreg 5 ++ (brecW (rcd 0 2 4 k 1)).sreg 4 : RecBits)
        UniIssued (mk (brecW (rcd 0 2 4 k 1))) 32 (brecW (rcd 0 2 4 k 1)) ∧ x = rcd 0 2 4 k 1 ∧ fieldOf x 127 125 = 0 ∧ fieldOf x 124 113 = 0 ∧ fieldOf x 106 103 ≤ 8
          ∧ fieldOf x 102 100 ≤ 4) ∧ 4 < fieldOf (rcd 0 2 5 k 1) 102 100)
    ∧ (regioned.guarded = true ∧ wv.guarded = false)
    ∧ (∀ k ∈ [0, 1, 2], UniIssued (mk (watch k .no)) 32 (watch k .no) ∧ (watch k .no).pend = .none ∧ (watch k .no).park = .no
      ∧ (spotOf (mk (watch k .no)) [0, 1, 2] .read 8 3 32 (watch k .no) (fieldOf ((watch k .no).sreg 0) 31 0)).map (fun sp => ((mk (watch k .no)).spotBytes sp 8)) = some (natBytes 8 0)
      ∧ (mk (watch k .no)).poisoned 0x30000 8 = false)
    ∧ (∀ c ∈ [0, 1, 2, 3], ∃ cc : WCond, (Instr.waitv 3 .system cc true 63 0).wf = true ∧ decodeWords (waitvWord c) 0 0 = .ok (.waitv 3 .system cc true 63 0)) := by
  refine ⟨by decide +kernel, by decide +kernel, by decide +kernel, ?_⟩
  intro c hc
  simp only [List.mem_cons, List.not_mem_nil, or_false] at hc
  rcases hc with rfl | rfl | rfl | rfl
  · exact ⟨.eq, by decide +kernel⟩
  · exact ⟨.ne, by decide +kernel⟩
  · exact ⟨.geu, by decide +kernel⟩
  · exact ⟨.ltu, by decide +kernel⟩

/-- The wave is parked in a WAITV of scratchpad bytes whose condition holds. -/
theorem witness_RecordsAndValueWaits_wake : (let s := { bootState .reset true (leBytes 4 (waitvWord 0)) with waves := [(32, watch 1 (.waitv 0))] }
    s.waveAt 0 0 = some (32, watch 1 (.waitv 0)) ∧ s.coreRuns 0 = true ∧ (s.instrAt 0 (s.partOf 32) 0 (watch 1 (.waitv 0)).at_).1 = .waitv 3 .system .eq true 63 0
      ∧ spotOf s [0, 1, 2] .read 8 3 32 (watch 1 (.waitv 0)) 0 = some (.scratch 0 0) ∧ s.spotBytes (.scratch 0 0) 8 = natBytes 8 0) := by decide +kernel

/-- Tag 5 is busy or set, with 64 bits of its chunk map; s5 names tags 5 and 63. -/
def tagged (x : TagSt) (chunks : Nat) (w : Wave) : State := teamed { bt with tags := [(5, x)], chunks := [(5, chunks)] } w
def named : Wave := sv 0x8000000000000020

theorem witness_TagAndMatrixWaits : (UniReady (tagged .busy 1 named) 32 named [63] [] [] ∧ (tagged .busy 1 named).lrecOf 32 = some bootRec ∧ named.gates = []
      ∧ bootRec.tagBase + bootRec.tagCount ≤ 64 ∧ (∀ i ∈ (List.range 64).filter (fun i => (named.sreg 5).getLsbD i), bootRec.tagBase ≤ i ∧ i < bootRec.tagBase + bootRec.tagCount))
    ∧ (∀ x ∈ [TagSt.busy, .set, .clear], (tagged x 1 named).tagOf named.team 5 = x ∧ (tagged x 1 named).tagOf named.team 63 = .clear)
    ∧ (bitOf 1 0 = true ∧ bitOf 1 5 = false ∧ bitOf 0x8000000000000020 63 = true) ∧ (sv 0).sreg 5 = 0
    ∧ (({ bootRec with tagCount := 6 } : LaunchRec).tagBase + ({ bootRec with tagCount := 6 } : LaunchRec).tagCount ≤ 63) ∧ (called named).gates ≠ []
    ∧ (∃ e ∈ ({ tagged .busy 1 named with jobs := [(7, job0 [])] } : State).jobs, e.2.team = some named.team ∧ e.2.tag = 5 ∧ 0 ≤ e.2.read)
    ∧ ({ tagged .busy 1 named with jobs := [(7, job0 [])] } : State).tagOf named.team 5 = .busy ∧ (tagged .busy 1 named).jobs = [] := by decide +kernel
/-- A card (R286) and a region of it (R287). -/
def reg (stride extent write space base : Nat) : Nat := stride * 2 ^ 76 + extent * 2 ^ 56 + 2 ^ 55 + write * 2 ^ 54 + space * 2 ^ 52 + base
def cardOf (kind flags count param r0 r1 : Nat) : List Byte :=
  natBytes 2 kind ++ natBytes 2 flags ++ natBytes 4 count ++ natBytes 8 param ++ natBytes 12 r0 ++ natBytes 12 r1 ++ natBytes 24 0

/-- A card of each kind: 1 a copy in local scratch, 2 to core 0, 3 and 4 one step in slots of BF16 on tile 14, 5 an all-reduce of one rank. -/
def cardK (kind : Nat) : List Byte :=
  if kind = 1 then cardOf 1 0 1 0 (reg 0 64 0 1 0) (reg 0 64 1 1 128)
  else if kind = 2 then cardOf 2 0 1 1 (reg 0 64 0 1 0) (reg 0 64 1 2 128)
  else if kind = 5 then cardOf 5 0 1 (16 * 2 ^ 32) (reg 0 64 0 1 0) (reg 0 64 1 1 128)
  else cardOf kind (14 * 2 ^ 7) 32 1 (reg 4 64 0 1 0) (reg 4 64 0 1 4096)

/-- The wave of the small machine, with the card of a kind at local-scratch offset 0x2000, which is in s5; group 0 of one rank; slots of BF16. -/
def carded (kind : Nat) (cls : Cls) : State :=
  let s := { mk (sv 0x2000) with grids := [(1, { bootGrid with lrec := { bootRec with fslots := List.replicate 8 1, cls := cls } })] }
  (s.putScratch none 0 0x2000 (cardK kind)).putBytes 0 (natBytes 2 1 ++ natBytes 2 0 ++ natBytes 4 1 ++ natBytes 8 0x100 ++ natBytes 8 0 ++ natBytes 8 65536)
def cgrid (cls : Cls) : Grid := { bootGrid with lrec := { bootRec with fslots := List.replicate 8 1, cls := cls } }

theorem witness_EngineIssue :
    (∀ k ∈ [1, 2, 3, 4, 5], (UniIssued (carded k .g) 32 (sv 0x2000) ∧ Tbl.find (carded k .g).grids 1 = some (cgrid .g)
      ∧ (Tbl.find (carded k .g).teams 1).map (fun t => (t.grid, t.core, t.start)) = some (1, 0, 0)
      ∧ (carded k .g).scratchBytes 0 (0 + fieldOf ((sv 0x2000).sreg 5) 18 0) 64 = cardK k ∧ (carded k .g).cardCauses (some (cgrid .g)) 0 k 16 (cardK k) = []
      ∧ (carded k .g).areaCauses 0 0 0 65536 (cardK k) = [] ∧ (carded k .g).waitOver 32 (sv 0x2000) (.tile (Card.tile (cardK k))) = true
      ∧ (carded k .g).waitOver 32 (sv 0x2000) (.tile (Card.tile (cardK k) + 1)) = true ∧ (carded k .g).tagOf 1 63 ≠ .busy))
    ∧ (∀ c ∈ (carded 5 .g).membersOf ((carded 5 .g).groupEntry 0 (Card.collGroup (cardK 5))), (carded 5 .g).memberLost ((carded 5 .g).groupEntry 0 (Card.collGroup (cardK 5))) c = false)
    ∧ ((sv 0x2000).gates = [] ∧ bootRec.tagBase ≤ 63 ∧ 63 < bootRec.tagBase + bootRec.tagCount ∧ (sv 0x2000).region = none ∧ 0x2000 % 64 = 0 ∧ 0x2000 + 64 ≤ bootRec.bytes)
    ∧ (tagged .busy 0 (sv 0x2000)).tagOf 1 5 = .busy := by decide +kernel

/-- The same cards of an H launch, outside a region. -/
theorem witness_EngineIssue_H : ∀ k ∈ [1, 2, 3, 4, 5], UniIssued (carded k .h) 32 (sv 0x2000) ∧ Tbl.find (carded k .h).grids 1 = some (cgrid .h) ∧ (cgrid .h).lrec.cls = .h
    ∧ (carded k .h).cardCauses (some (cgrid .h)) 0 k 16 (cardK k) = [] ∧ (carded k .h).areaCauses 0 0 0 65536 (cardK k) = [] := by decide +kernel

/-- Tile 15, of a team that has all 16, and of one that has none. -/
theorem witness_TileInstructions : (UniIssued (carded 1 .g) 32 (sv 0x2000) ∧ Tbl.find (carded 1 .g).grids 1 = some (cgrid .g) ∧ (sv 0x2000).gates = [])
    ∧ (15 < (cgrid .g).lrec.acc ∧ bt.tiles[15]? = some 15 ∧ (carded 1 .g).waitOver 32 (sv 0x2000) (.tile 15) = true ∧ 15 ∉ ((carded 1 .g).core 0).tileH)
    ∧ (∀ n ∈ [16, 32], descCauses ((sv 0x2000).sreg 5) n (n * 32 / 8) 16 65536 = []) ∧ mmaCauses 0 4 6 0 7 (carded 1 .g) 32 (sv 0x2000) = []
    ∧ mmaCauses 1 4 6 0 7 (carded 1 .g) 32 (sv 0x2000) = [] ∧ (∀ k ∈ [0, 1], mmaPoison k 4 6 0 7 (carded 1 .g) 32 (sv 0x2000) = none)
    ∧ (descCauses ((sv 0x2001).sreg 5) 16 64 16 65536 = [0x31] ∧ (carded 1 .g).upset 32 = false) ∧ fieldOf ((carded 1 .g).core 0).inject 63 63 = 0 ∧ mstaBad ((carded 1 .g).fslotOf 32 3) = false
    ∧ (16 * 16 / 8 ≤ pitchOf ((sv 0x2000).sreg 5) (16 * 16 / 8)) ∧ ({ bootRec with acc := 0 } : LaunchRec).acc ≤ 0 := by decide +kernel

/-! ## Copy schedules, collectives, child grids, the steps of engine jobs, Ethernet -/

/-- The small machine whose grid has one copy-schedule entry: stage `st`, tag 5, a card at virtual address 0 (R188). -/
def entry (st : Nat) : List Byte := natBytes 8 0 ++ natBytes 2 st ++ natBytes 1 5 ++ natBytes 1 0 ++ natBytes 4 64
def sgrid (st : Nat) : Grid := { bootGrid with sched := [entry st] }
def sched (st : Nat) : State := { mk wv with grids := [(1, sgrid st)] }.putBytes 0x30000 (cardK 1)
def coll (v n : Nat) : State := (mk wv).putBytes 0 (natBytes 2 n ++ natBytes 2 0 ++ natBytes 4 v ++ natBytes 8 0x100 ++ natBytes 8 0 ++ natBytes 8 131072)
def rounds (n : Nat) : State := { mk { wv with park := .collw, collwAt := some (7, 1, 0) } with parts := [(0, { bootPart with collw := [(7, n)] })] }

theorem witness_SchedulesAndRounds : (UniIssued (sched 1) 32 wv ∧ Tbl.find (sched 1).teams wv.team = some bt ∧ (0x1FFF : BitVec 13) ≠ 0)
    ∧ (∀ st ∈ [0, 1], (sgrid st).sched[bt.schedPos]? = some (entry st) ∧ (sched st).schedReader 1 = none ∧ bt.loc = .resident ∧ entryBad (entry st) = false
      ∧ fieldAt (entry st) 8 2 = st ∧ fieldAt (entry st) 0xA 1 = 5 ∧ (sched st).tagOf 1 5 ≠ .busy
      ∧ (sched st).jobGo (State.schedJob (sgrid st) 1 bt (entry st) 1 []) 0 0 .read = .hbm 0x30000 false ∧ (sched st).poisoned 0x30000 64 = false
      ∧ (sched st).bytesAt 0x30000 64 = cardK 1 ∧ (sched st).cardCauses (some (sgrid st)) 0 1 16 (cardK 1) = [] ∧ (sched st).areaCauses 0 0 0 65536 (cardK 1) = [])
    ∧ (UniIssued (coll 1 1) 32 wv ∧ wv.collwAt = none ∧ ((coll 1 1).groupEntry 0 0).v = true ∧ ((coll 1 1).groupEntry 0 0).nranks = 1 ∧ ((coll 0 1).groupEntry 0 0).v = false
      ∧ (∀ c ∈ (coll 1 2).membersOf ((coll 1 2).groupEntry 0 0), (coll 1 2).memberLost ((coll 1 2).groupEntry 0 0) c = false) ∧ (coll 1 2).release 32 .system = (true, coll 1 2))
    ∧ (let s := { (coll 1 2).putBytes 0x102 (natBytes 2 7) with dev := { st0.dev with domainDown := true } }
      UniIssued s 32 wv ∧ (s.groupEntry 0 0).v = true ∧ ∃ c ∈ s.membersOf (s.groupEntry 0 0), s.memberLost (s.groupEntry 0 0) c = true)
    ∧ (Tbl.getD ((rounds 0).part 0).collw 7 0 < ((rounds 0).part 0).collEnded 7 + 1 ∧ ((rounds 1).part 0).collEnded 7 + 1 ≤ Tbl.getD ((rounds 1).part 0).collw 7 0
      ∧ (Tbl.find (rounds 1).waves 32).map (fun x => (x.collwAt, x.park)) = some (some (7, ((rounds 1).part 0).collEnded 7 + 1, 0), .collw) ∧ (rounds 1).partOf 32 = 0) := by
  refine ⟨by decide +kernel, by decide +kernel, by decide +kernel, by decide +kernel, by decide +kernel⟩

/-- A launch record of one team at virtual address 0 (R100), and one with no waves, which fails a check; a wave of the small machine that is not wave 0. -/
def lrecAt (team : Nat) : State := (mk wv).putBytes 0x30000 (natBytes 8 0x100 ++ natBytes 4 1 ++ natBytes 4 1 ++ natBytes 4 1 ++ natBytes 4 team)
def lrecBytes (team : Nat) : List Byte := (lrecAt team).bytesAt 0x30000 128 ++ (lrecAt team).bytesAt 0x30080 128

theorem witness_ChildGrids : (∀ k ∈ [0x41, 0x40], (UniReady (lrecAt k) 32 wv [63] [] [] ∧ Tbl.find (lrecAt k).teams wv.team = some bt ∧ Tbl.find (lrecAt k).grids bt.grid = some bootGrid)
      ∧ (wv.w = 0 ∧ wv.gates = [] ∧ (wv.sreg 5).toNat % 256 = 0 ∧ wv.guarded = false ∧ bootGrid.depth ≠ 9 ∧ (lrecAt k).waitOver 32 wv .children = true ∧ wv.pend = .none
        ∧ (lrecAt k).logPending 32 = false)
      ∧ (∀ i, i < 2 → (lrecAt k).reach (some 0) 0 0 (128 * i) false .read = .hbm (0x30000 + 128 * i) false ∧ (0x30000 + 128 * i) % 128 = 0
        ∧ (lrecAt k).poisoned (0x30000 + 128 * i) 128 = false)
      ∧ (lrecAt k).launchOk (lrecBytes k) 0 0 none = (k == 0x41))
    ∧ ((LaunchRec.ofBytes (lrecBytes 0x41)).teams ≠ 0 ∧ (LaunchRec.ofBytes (lrecBytes 0x41)).schedN = 0 ∧ (lrecAt 0x41).release 32 .device = (true, lrecAt 0x41)
      ∧ (lrecAt 0x41).nextId ≠ bt.grid)
    ∧ (({ wv with w := 1 } : Wave).w ≠ 0 ∧ ({ bootGrid with depth := 9 } : Grid).depth = 9) ∧ (bt.children = [] ∧ ({ bt with children := [2] } : Team).children ≠ []) := by decide +kernel

theorem witness_ChildGrids_fresh : ∀ pa, Fresh (lrecAt 0x41) 32 pa := freshA _ _ (by decide +kernel)

/-- A job of each kind of card, at its beginning and at its end. -/
def kjob (k pos : Nat) : Job := { job0 (cardK k) with pos := pos, acked := pos }
def kst (k pos : Nat) : State := { carded k .g with jobs := [(7, kjob k pos)] }
def nearB : JobGo → Bool
  | .hbm _ m => !m
  | .scratch _ _ => true
  | .host _ => true
  | _ => false

theorem witness_JobProgress :
    (∀ k ∈ [1, 2], let s := kst k 0
      let ps := piecesFrom (Card.sides (cardK k)).1 (Card.sides (cardK k)).2 (State.copySlice (kjob k 0)) 0 (State.copySlice (kjob k 0))
      Tbl.find s.jobs 7 = some (kjob k 0) ∧ (kjob k 0).team = some 1 ∧ (Tbl.find s.teams 1).isSome = true ∧ Card.kind (cardK k) = k ∧ Card.route (cardK k) = 0
      ∧ s.jobActs (kjob k 0) = true ∧ s.jobHeld (kjob k 0) = false ∧ 0 < copyBytes (cardK k) ∧ ps ≠ [] ∧ s.jobUnacked 7 = false
      ∧ (∀ p ∈ ps, nearB (s.jobGo (kjob k 0) (Card.sides (cardK k)).1.space p.src .read) = true ∧ s.copyPoisoned (kjob k 0) [p] = false
        ∧ ∀ x ∈ Card.shares (cardK k), nearB (s.jobGo (kjob k 0) (Card.sides (cardK k)).2.space (p.dst + x) .write) = true))
    ∧ (copyBytes (cardK 1) ≤ (kjob 1 64).acked ∧ (kjob 1 64).paused = false ∧ (kjob 1 64).node = none ∧ (∃ e ∈ (kst 1 64).waves, e.2.team = 1 ∧ e.2.retired = false))
    ∧ (∀ k ∈ [3, 4], (Tbl.find (kst k 0).jobs 7 = some (kjob k 0) ∧ (kst k 0).jobActs (kjob k 0) = true ∧ (kst k 0).tileOf 1 (Card.tile (cardK k)) = some 14
      ∧ 14 ∉ ((kst k 0).core 0).tileH ∧ (kst k 0).jobHeld (kjob k 0) = false ∧ 0 < Card.steps (cardK k) ∧ fieldOf ((kst k 0).core 0).inject 63 63 = 0
      ∧ ((kst k 0).stepRows (kjob k 0) 32 0 0 1 0 2).isSome = true ∧ ((kst k 0).stepRows (kjob k 0) 32 0 0 1 1 3).isSome = true
      ∧ (kst k 0).jobSlot (kjob k 0) 0 = 1) ∧ Card.steps (cardK k) ≤ (kjob k 1).pos ∧ (kst k 1).tileOf 1 (Card.tile (cardK k) + 1) = some 15) := by decide +kernel

theorem witness_RoundsAndEthernet : (Tbl.find (kst 5 0).jobs 7 = some (kjob 5 0) ∧ Card.kind (cardK 5) = 5 ∧ (kst 5 0).running = true ∧ (kst 5 0).jobActs (kjob 5 0) = true
      ∧ (kst 5 0).jobHeld (kjob 5 0) = false ∧ (kst 5 0).areaStuck (kjob 5 0) ((Card.region (cardK 5) 0).area 1) 3 .read = none
      ∧ (∀ p ∈ State.areaPieces ((Card.region (cardK 5) 0).area 1), (kst 5 0).jobGo (kjob 5 0) 1 p.src .read = .scratch 0 p.src)
      ∧ (collResult (cardK 5) 1 0 [(kst 5 0).areaRead (kjob 5 0) ((Card.region (cardK 5) 0).area 1)]).isSome = true
      ∧ (kst 5 0).areaStuck (kjob 5 0) ((Card.region (cardK 5) 1).area 1) 4 .write = none)
    ∧ collResult (cardOf 5 4 1 (16 * 2 ^ 32 + 1 * 2 ^ 16) (reg 0 64 0 1 0) (reg 0 64 1 1 128)) 2 0 [[], []] = none
    ∧ (1 ∉ (kst 1 0).eth.down ∧ (Tbl.getD (kst 1 0).eth.qps 16384 Qp.start).err = false)
    ∧ (Card.route (cardOf 1 1 1 0 (reg 0 64 0 0 0) (reg 0 64 1 0 128)) ≠ 0 ∧ Card.route (cardOf 1 1 1 0 (reg 0 64 0 0 0) (reg 0 64 1 0 128)) ≠ 2) := by decide +kernel

/-! ## The package: power, throttling, layouts, Kettle -/

/-- Off after a thermal trip; on, with a hob whose ceiling can be lowered. -/
def offSt : State := { State.reset with pkg := { Pkg.reset with power := .shutDown } }
theorem witness_PowerAndInput : offSt.pkg.power ≠ .on ∧ State.reset.pkg.power = .on ∧ State.reset.kettle.running = true ∧ 1 < (State.reset.hob 63).ceil := by decide +kernel

/-- Hob 0 of the small machine as `f` changes it, at a tick. -/
def hobbed (t : Nat) (f : Hob → Hob) : State := { st0.updHob 0 f with reft := t }
def prochot (s : State) : State := { s with pkg := { s.pkg with prochot := true } }

theorem witness_ThrottlingBoostAndTime :
    (∀ c ∈ [2, 8], 1 < c ∧ c ≤ 8 ∧ ((hobbed 0 (fun h => { h with ceil := c })).hob 0).ceil = c ∧ (hobbed 0 id).kettle.running = true ∧ (hobbed 0 id).pkg.power = .on)
    ∧ (let s := prochot (hobbed 10000 (fun h => { h with ceil := 7, lastLower := some 0 }))
      s.throttling = true ∧ (s.hob 0).ceil ≠ 8 ∧ (s.hob 0).lastLower = some 0 ∧ 0 + 10000 ≤ s.reft ∧ 0 < s.targetStep 0 ∧ (s.hob 0).relockEnd = none ∧ (s.hob 0).step = s.targetStep 0)
    ∧ (∀ t ∈ [none, some 11], let s := hobbed 100000 (fun h => { h with ceil := 7, throttle := t, lastRelease := some 0 })
      (s.hob 0).lastRelease = some 0 ∧ 0 + 100000 ≤ s.reft ∧ s.kettle.running = true ∧ ((s.hob 0).throttle ≠ none ∨ (s.hob 0).ceil < 8) ∧ (s.hob 0).throttle = t)
    ∧ ({ st0 with kettle := { st0.kettle with running := false } } : State).kettle.running = false
    ∧ (((hobbed 600 (fun h => { h with relockEnd := some 600 })).hob 0).relockEnd = some 600 ∧ 600 ≤ (hobbed 600 (fun h => { h with relockEnd := some 600 })).reft
      ∧ ((hobbed 600 (fun h => { h with relockEnd := some 600 })).hob 0).again = false)
    ∧ (12 < ((hobbed 0 (fun h => { h with step := 15 })).hob 0).step ∧ (hobbed 0 (fun h => { h with step := 15 })).allowance 0 ≤ ((hobbed 0 (fun h => { h with step := 15 })).hob 0).charge) := by
  decide +kernel

def timed (r : Bool) : State := { State.reset with reft := 2000000000, time := ⟨true, r, some 0, 0, 0⟩, dev := { Dev.reset with fabId := 0x80000800 } }
theorem witness_ThrottlingBoostAndTime_time : ∀ r ∈ [false, true], (timed r).pkg.power = .on ∧ (timed r).time.lastPps = some 0 ∧ 0 + 2000000000 ≤ (timed r).reft
    ∧ (timed r).fabEnabled = true ∧ (timed r).dev.masterAct = false ∧ fieldOf (timed r).dev.fabId 20 11 ≠ (timed r).chipId ∧ (timed r).time.reftSync = r := by decide +kernel

/-- A running command with its argument buffer. -/
def cmd (n : Nat) (buf : List Byte) (s : State) : State := { s with mbox := ⟨BitVec.ofNat 32 n, 1, Memory.write [] 0 buf⟩ }
/-- The image of a layout (R30) that gives cluster 0 to partition 0; the first byte of a valid one is 1. -/
def image (v : Nat) : List Byte := natBytes 1 v ++ natBytes 1 1 ++ natBytes 2 0 ++ natBytes 4 0xFFFFFFF0
def journaled (j : Journal) (at_ : Nat) (s : State) : State :=
  { s with kettle := { s.kettle with journal := j, jGen := 1, jTick := at_, arms := some (1, at_), shadow := image 1 }, reft := at_ }

theorem witness_LayoutChanges_submit :
    ((cmd 1 (image 1) State.reset).commanded 1 = true ∧ (cmd 1 (image 1) State.reset).kettle.journal = .idle
      ∧ ¬ (∃ p, p < 8 ∧ Layout.changes ((cmd 1 (image 1) State.reset).bufBytes 0 4096) p = true ∧ ((cmd 1 (image 1) State.reset).part p).present = true
        ∧ ((cmd 1 (image 1) State.reset).part p).stopped = false)
      ∧ (cmd 1 (image 1) State.reset).layoutOk ((cmd 1 (image 1) State.reset).bufBytes 0 4096) = true)
    ∧ (cmd 1 (image 2) State.reset).layoutOk ((cmd 1 (image 2) State.reset).bufBytes 0 4096) = false
    ∧ (cmd 1 (image 1) (journaled .writing 5 State.reset)).kettle.journal = .writing
    ∧ (Layout.changes ((cmd 1 (image 1) st0).bufBytes 0 4096) 0 = true ∧ ((cmd 1 (image 1) st0).part 0).present = true ∧ ((cmd 1 (image 1) st0).part 0).stopped = false) := by
  refine ⟨⟨by decide +kernel, by decide +kernel, ?_, by decide +kernel⟩, by decide +kernel, by decide +kernel, by decide +kernel⟩
  rintro ⟨p, _, _, h, _⟩
  have e : ∀ p, ((cmd 1 (image 1) State.reset).part p).present = false := fun _ => rfl
  rw [e p] at h
  cases h

theorem witness_LayoutChanges_tick : (let s := journaled .writing 100000 State.reset
      s.kettle.journal = .writing ∧ s.kettle.running = true ∧ s.kettle.jTick ≤ s.reft + 100000 ∧ s.dev.layoutGo.toNat ≠ s.kettle.jGen)
    ∧ (∀ go ∈ [0, 1], let s := { journaled .prepared 5 State.reset with dev := { Dev.reset with layoutGo := BitVec.ofNat 32 go } }
      s.kettle.arms = some (1, 5) ∧ 5 ≤ s.reft ∧ s.pkg.power = .on ∧ (s.dev.layoutGo = BitVec.ofNat 32 1 ↔ go = 1)
        ∧ s.clusterChanges s.kettle.shadow 0 = true ∧ Layout.changes s.kettle.shadow 0 = true ∧ Layout.owns s.kettle.shadow 0 = true)
    ∧ (let s := { journaled .prepared 5 State.reset with kettle := { (journaled .prepared 5 State.reset).kettle with arms := none, missed := [.cluster 0] } }
      s.kettle.running = true ∧ s.kettle.journal = .prepared ∧ s.kettle.jTick ≤ s.reft ∧ s.kettle.arms = none ∧ s.kettle.missed ≠ [])
    ∧ ((cmd 6 [1] st0).commanded 6 = true ∧ bitOf ((Memory.get (cmd 6 [1] st0).mbox.buf 0).toNat) 0 = true ∧ ((cmd 6 [1] st0).part 0).present = true)
    ∧ (∀ e ∈ (cmd 6 [1] State.reset).teams, e.2.loc = .saved) ∧ (cmd 6 [1] State.reset).claims = []
    ∧ ((cmd 7 [1] st0).commanded 7 = true ∧ (∀ p, p < 8 → bitOf (Memory.get (cmd 7 [1] st0).mbox.buf 0).toNat p = true → ((cmd 7 [1] st0).part p).present = true))
    ∧ ∃ p, p < 8 ∧ bitOf (Memory.get (cmd 7 [3] st0).mbox.buf 0).toNat p = true ∧ ((cmd 7 [3] st0).part p).present = false := by
  refine ⟨by decide +kernel, by decide +kernel, by decide +kernel, by decide +kernel, by decide +kernel, by decide +kernel, by decide +kernel, 1, by decide +kernel⟩

/-- What an image's signature says is a value of Config, either way: the rest of the hypotheses. A boot finds no slot that can run. -/
def trial : State := { State.reset with kettle := { Kettle.reset with confirmAt := some 0 } }
theorem witness_ImagesRepairsAndAlarms : (State.reset.pkg.power = .on ∧ State.reset.kettle.running = true)
    ∧ bootChoice (ImgSlot.mk .empty []).found (ImgSlot.mk .failed []).found 0 = none
    ∧ (trial.kettle.current = some false ∧ trial.kettle.confirmAt = some 0 ∧ 0 ≤ trial.reft) ∧ (cmd 4 [] State.reset).commanded 4 = true
    ∧ State.reset.kettle.slotA.st = .active ∧ Tbl.find State.reset.kettle.lastRepair 7 = none ∧ State.reset.kettle.repairs = []
    ∧ (policyOf 0xAA .mesh = 2 ∧ policyOf 0x55 .volt = 1 ∧ policyOf 0 .temp = 0) := by decide +kernel

theorem witness_ImagesRepairsAndAlarms_signed (i : List Byte) : (Config.imageEnds i = false ∨ Config.imageEnds i = true)
    ∧ (Config.verifies 0 i = true ∧ 0 ≤ Config.imageVersion i ∨ ¬ (Config.verifies 0 i = true ∧ 0 ≤ Config.imageVersion i)) :=
  ⟨Bool.eq_false_or_eq_true _ |>.symm, em _⟩

def provision (k : Option Nat) : State :=
  cmd 9 [] { State.reset with dev := { Dev.reset with health := 0x800 }, kettle := { Kettle.reset with newIdentity := k } }
theorem witness_MailboxCommands : (cmd 5 [] State.reset).commanded 5 = true ∧ (cmd 8 [] State.reset).commanded 8 = true
    ∧ (∀ p, p < 8 → ((cmd 8 [] State.reset).part p).present = true → ((cmd 8 [] State.reset).part p).stopped = true)
    ∧ ¬ (∀ p, p < 8 → ((cmd 8 [] st0).part p).present = true → ((cmd 8 [] st0).part p).stopped = true)
    ∧ (∀ k ∈ [none, some 7], (provision k).commanded 9 = true ∧ fieldOf (provision k).dev.health 11 11 = 1 ∧ (provision k).kettle.newIdentity = k)
    ∧ fieldOf (cmd 9 [] State.reset).dev.health 11 11 ≠ 1 ∧ (cmd 2 [] State.reset).commanded 2 = true
    ∧ (∀ n ∈ [0, 10], (cmd n [] State.reset).commanded n = true ∧ (cmd n [] State.reset).mbox.cmd.toNat = n) ∧ State.reset.measurement 4 = some 0x55 := by
  refine ⟨by decide +kernel, by decide +kernel, by decide +kernel, ?_, by decide +kernel, by decide +kernel, by decide +kernel, by decide +kernel, by decide +kernel⟩
  intro h
  exact absurd (h 0 (by decide) (by decide +kernel)) (by decide +kernel)

/-! ## The fabric -/

/-- The small machine in a domain of which it is chip 0, planes 0 and 1 live, the fabric as `f` changes it, at a tick. -/
def fabSt (t : Nat) (f : Fabric → Fabric) : State :=
  { st0 with reft := t, dev := { st0.dev with fabId := 0x80000000, live := 3 }, fab := f st0.fab }
/-- Export page 5, whose page is `pa`: to partition 0 of chip 7, or, where `right` is false, without a right. -/
def exported (pa : Option Nat) (right : Bool) : ExportEntry := ⟨pa, ⟨right, right, right⟩, 1, [(7, 0)]⟩
def exportSt (t : Nat) (x : Export) : State := fabSt t (fun f => { f with exports_ := [(5, x)] })
def freq (gen : Nat) : FabReq := ⟨7, 0, 1, 4, some 5, gen, 0, .g, 0x30000⟩
def seenSt : State := fabSt 0 (fun f => { f with windows := [(7, ⟨[1], [(1, 9)]⟩)] })
/-- A READ of the wave, in lane 1, of a line of chip 7, and a WRITE. -/
def readReq : ReadReq := ⟨4, 7, 0, 0, 5, 1, 0, .g, 0x30000, 128, some (32, 1), none, 0, false, false, true, false, 0⟩
def wreq (f : Unacked → Unacked) : Unacked :=
  f ⟨7, 1, 0, 0, some 5, 1, 0, .g, 0x30000, [1], none, none, 0, none, none, false, false, false, false, false, ⟨0, 0, 0, 1, 0⟩, 0, 1⟩
def reading : State := { fabSt 0 (fun f => { f with reads := [readReq] }) with waves := [(32, { wv with pend := { Pend.none with reqs := [(none, 4)] } })] }

theorem witness_FabricRequests : (fabSt 0 id).joined = true
    ∧ (∀ k ∈ [Right.read, .write, .atomic], (exportSt 0 ⟨exported (some 0x30000) true, [], none, []⟩).exportOk (freq 1) k = true
      ∧ (exportSt 0 ⟨exported (some 0x30000) true, [], none, []⟩).exportOk (freq 2) k = false)
    ∧ ((seenSt.window 7).recent.contains 1 = true ∧ (seenSt.window 7).results.find? (fun e => e.1 == 1) = some (1, 9))
    ∧ (((fabSt 0 id).window 7).recent.contains 1 = false ∧ ((fabSt 0 id).window 7).results.find? (fun e => e.1 == 1) = none)
    ∧ (0x30000 + [(1 : Byte)].length ≤ hbmEnd ∧ Tbl.find (fabSt 0 id).fab.exports_ 5 = none)
    ∧ (∀ pa ∈ [none, some 0x30000], (Tbl.find (exportSt 0 ⟨exported pa true, [], none, []⟩).fab.exports_ 5).map (fun e => (e.change, e.entry.pa)) = some (none, pa)
      ∧ (7, 0) ∈ (exported pa true).dests ∧ rightsAllow (exported pa true).rights .read = true ∧ rightsAllow (exported pa false).rights .read = false)
    ∧ ((exportSt 99 ⟨exported none true, [(7, 100, 0, .g)], none, []⟩).reft < 100 ∧ (fabSt 99 id).livePlanes ≠ [])
    ∧ (let x : Export := ⟨exported none true, [(7, 35, 0, .g)], some (exported none false), [(7, 0), (7, 1)]⟩
      x.change = some (exported none false) ∧ (∀ h ∈ x.holders, h.2.1 + 64 < (exportSt 100 x).reft)
        ∧ x.missing.filter (fun y => y ≠ (7, 1) ∧ (exportSt 100 x).dev.live.getLsbD y.2 = true) ≠ []
        ∧ [(7, 0)].filter (fun y => y ≠ (7, 0) ∧ (exportSt 100 x).dev.live.getLsbD y.2 = true) = [])
    ∧ (let s := reading.updHob 0 (fun h => { h with relockEnd := some 600 })
      s.respCore (.data 4 []) = some 0 ∧ s.asleep 0 = true)
    ∧ (reading.joined = true ∧ reading.fab.reads.find? (fun q => q.id == 4) = some readReq ∧ reading.asleep (reading.coreOf 32) = false
      ∧ (Tbl.find reading.waves 32).map (fun x => x.pend.reqs) = some [(none, 4)])
    ∧ (let s := fabSt 0 (fun f => { f with unacked := [wreq id] })
      s.fab.unacked = [wreq id] ∧ (wreq id).held = false ∧ (wreq id).rejected = false ∧ (wreq id).job = none ∧ s.fab.reads = [] ∧ s.fab.waitAcks = []
        ∧ ∀ c ∈ s.cores, c.2.sideLog = []) := by decide +kernel

/-- The page is sound, or its first line is poisoned. -/
theorem witness_FabricRequests_poison : ∀ bad ∈ [[], [0x30000 / 128]],
    let s := { exportSt 0 ⟨exported (some 0x30000) true, [], none, []⟩ with poison := bad }
    s.poisoned 0x30000 8 = !bad.isEmpty ∧ s.joined = true ∧ s.exportOk (freq 1) .read = true ∧ s.exportOk (freq 1) .atomic = true
      ∧ (s.window 7).recent.contains 1 = false ∧ (s.window 7).results.find? (fun e => e.1 == 1) = none := by decide +kernel

/-- The same machine as the master, or in the state of a quiesce. -/
def masterSt (f : Dev → Dev) (g : Fabric → Fabric) : State := let s := fabSt 0 g; { s with dev := f s.dev }
def isMaster (d : Dev) : Dev := { d with masterAct := true }

theorem witness_FabricQuiesce_planes :
    (let retry := fun (n : Nat) => fabSt 0 (fun f => { f with retry := List.replicate n (0, 0) });
      State.joined (retry 32) = true ∧ retriesOf (retry 32) 0 ≤ 32 ∧ 32 < retriesOf (retry 33) 0)
    ∧ (∀ m : MarkerReq, m = ⟨1, 7, 0, 0, .g, 0, 32, 0⟩ → (∀ t ∈ [99999, 100000], let s := fabSt t (fun f => { f with markers := [m] })
      (s.fab.markers.filter (fun m => m.plane == 0)).map (fun m => m.since) = [0] ∧ (0 + 100000 ≤ s.reft ↔ t = 100000)))
    ∧ ((masterSt isMaster id).dev.masterAct = true ∧ (masterSt isMaster id).joined = true)
    ∧ (∀ l ∈ [(1 : BitVec 8), 3], ∀ b ∈ [false, true], let s := masterSt (fun d => { d with live := l, masterAct := b }) id
      s.dev.live.getLsbD 0 = true ∧ s.fab.phase = 0 ∧ (s.dev.live = BitVec.ofNat 8 (2 ^ 0) ↔ l = 1) ∧ s.dev.masterAct = b)
    ∧ (let s := masterSt (fun d => { d with qstate := 1 }) (fun f => { f with runSrc := 7, downPlanes := 1 })
      ¬ (s.dev.qstate = 0 ∨ 7 ≠ s.fab.runSrc ∨ (1 : BitVec 8) &&& ~~~s.fab.downPlanes ≠ 0) ∧ (2 : BitVec 8) &&& ~~~s.fab.downPlanes ≠ 0)
    ∧ (∀ gen ∈ [4, 5, 6], let s := masterSt (fun d => { d with fabMapGen := 5 }) id
      gen ≤ s.dev.fabMapGen.toNat + 1 ∧ s.dev.fabMapGen.toNat ≤ gen + 1 ∧ s.dev.qstate = 0 ∧ s.dev.live &&& ~~~(1 : BitVec 8) ≠ 0) := by
  refine ⟨by decide +kernel, ?_, by decide +kernel, by decide +kernel, by decide +kernel, by decide +kernel⟩
  rintro m rfl
  decide +kernel

theorem witness_FabricQuiesce_steps :
    (∀ h ∈ [false, true], let s := masterSt (fun d => { d with qstate := 1 }) (fun f => { f with unacked := [wreq (fun u => { u with held := h })] })
      s.dev.qstate = 1 ∧ s.fab.fencing = false ∧ s.fab.waitAcks = [] ∧ s.livePlanes ≠ []
        ∧ (((∀ u ∈ s.fab.unacked, u.held = true) ∧ ∀ r ∈ s.fab.reads, r.held = true) ↔ h = true))
    ∧ (let s := masterSt (fun d => { d with qstate := 2, fabMapGen := 5 }) id
      s.dev.qstate = 2 ∧ (List.replicate 64 (1 : Fin 8)).length = 64 ∧ s.dev.fabMapGen.toNat ≤ 5 ∧ 7 ≤ s.dev.fabMapGen.toNat + 2
        ∧ s.fab.unacked = [] ∧ s.fab.reads = [] ∧ s.fab.leases = [])
    ∧ ((masterSt (fun d => { d with qstate := 4 }) id).dev.qstate = 4 ∧ (masterSt (fun d => { d with qstate := 4 }) id).dev.fabMapGen.toNat = 0)
    ∧ (∀ q ∈ [0, 1], let s := masterSt (fun d => { d with qstate := q }) id
      s.dev.masterAct = false ∧ fieldOf s.dev.fabId 30 21 = s.chipId ∧ (s.dev.qstate = 0 ↔ q = 0) ∧ s.joined = true)
    ∧ (let s := { masterSt isMaster (fun f => { f with phase := 1 }) with reft := 100000 }
      7 ≠ s.chipId ∧ 7 ∉ s.fab.unreachable ∧ s.fab.phase ≠ 0 ∧ 7 ∉ s.fab.answers ∧ s.fab.stepAt + 100000 ≤ s.reft)
    ∧ (∀ b ∈ [false, true], ∀ p ∈ [0, 1], let s := cmd 3 [] (masterSt (fun d => { d with masterAct := b }) (fun f => { f with phase := p }))
      s.commanded 3 = true ∧ s.joined = true ∧ s.dev.domainDown = false ∧ s.dev.masterAct = b ∧ s.fab.phase = p) := by decide +kernel

/-- Every chip has answered a step of the master with chip 7's answer, and not with it. -/
theorem witness_FabricQuiesce_answers (n : Nat) :
    (let s := masterSt isMaster (fun f => { f with phase := n, answers := (0 :: Config.members).filter (fun c => c != 7) });
      s.dev.masterAct = true ∧ 7 ∉ s.fab.answers ∧ s.fab.phase = n
        ∧ ({ s with fab := { s.fab with answers := s.fab.answers ++ [7], baseGen := 0 } } : State).allAnswered = true)
    ∧ let s := masterSt isMaster id;
      7 ∉ s.fab.answers ∧ ({ s with fab := { s.fab with answers := s.fab.answers ++ [7], baseGen := 0 } } : State).allAnswered = false := by
  refine ⟨⟨rfl, ?_, rfl, ?_⟩, by decide +kernel⟩
  · intro h
    have := (List.mem_filter.mp h).2
    simp at this
  · simp only [State.allAnswered, List.all_eq_true, List.contains_eq_mem, decide_eq_true_eq, List.mem_append, List.mem_singleton]
    intro c hc
    by_cases h : c = 7
    · exact .inr h
    · refine .inl (List.mem_filter.mpr ⟨?_, by simpa using h⟩)
      rcases List.mem_cons.mp hc with h0 | h0
      · exact List.mem_cons.mpr (.inl (h0.trans (show fieldOf (0x80000000 : Word) 9 0 = 0 by decide)))
      · exact List.mem_cons_of_mem _ (List.mem_filter.mp h0).1

theorem witness_FabricQuiesce_units : ((fabSt 0 id).part 0).present = true ∧ (fabSt 0 id).pkg.power = .on
    ∧ (let s := fabSt 1000000 (fun f => { f with mirrorWait := [(0, 7, 1, 0)] })
      (∃ m ∈ s.fab.mirrorWait, m.1 = 0 ∧ m.2.2.2 + 1000000 ≤ s.reft) ∧ fieldOf (s.part 0).mirror 30 30 = 0)
    ∧ ((fabSt 0 id).fabEnabled = true ∧ (0 : Word).getLsbD 31 = false) ∧ (st0.fabEnabled = false ∧ (0x80000000 : Word).getLsbD 31 = true) := by decide +kernel

/-! ## The host -/

/-- The small machine whose virtual device 0 is enabled on its partition. -/
def vdSt : State := { st0 with vds := [(0, { Vd.reset with cfg := 0x80000000, slice := 1, sliceNow := 1 })] }
def hosted (w : Wave) : Wave := { w with pend := { Pend.none with host := [3, 1] } }

theorem witness_HostAccess : (∀ b ∈ [(false, 2), (true, 4)], b.2 % (if b.1 = true then 8 else 4) ≠ 0) ∧ vdSt.pkg.power = .on
    ∧ (∀ n ∈ [1, 2, 3, 4, 5, 6, 7, 8, 10], vdSt.mbox.status ≠ 1 ∧ (BitVec.ofNat 32 n : Word).toNat = n) ∧ (cmd 1 [] vdSt).mbox.status = 1
    ∧ (∀ r ∈ [Right.read, .write], vdSt.vdEnabled 0 = true ∧ 0xFFFC + 4 ≤ 2 ^ 34 ∧ 0xFFFC / 65536 = (0xFFFC + 4 - 1) / 65536
      ∧ ((vdSt.vd 0).apVa.toNat + 0xFFFC) = 0xFFFC ∧ vdSt.reach none (vdSt.vdPart 0) (vdSt.vd 0).apAsid.toNat 0xFFFC false r = .hbm 0x3FFFC false ∧ 0x3FFFC + 4 ≤ hbmEnd)
    ∧ (2 ^ 36 - 4 + 4 ≤ 2 ^ 36 ∧ vdSt.dev.apertureBase.toNat + (2 ^ 36 - 4) + 4 ≤ hbmEnd) ∧ st0.vdEnabled 0 = false
    ∧ (∀ x ∈ [[], [127]], ({ vdSt with pfMsix := ⟨[], x⟩ } : State).msix .pf = ⟨[], x⟩)
    ∧ (∀ k ∈ [0, 1, 2], (cmd 0 [BitVec.ofNat 8 k] vdSt).bufBytes 0 1 = [BitVec.ofNat 8 k]) ∧ (∀ n ∈ [0, 9], (BitVec.ofNat 32 n : Word).toNat = n)
    ∧ ((mk (hosted wv)).waveAt 0 0 = some (32, hosted wv) ∧ (mk (hosted wv)).running = true ∧ (mk (hosted wv)).asleep 0 = false ∧ ((hosted wv).pend :: (hosted wv).pends).find? (fun q => decide (q.host ≠ [])) = some (hosted wv).pend) := by
  decide +kernel

/-- Virtual device 0 with queue 0, of one slot in Whisk 0, its registers as `f` changes them, its slot as `x`. -/
def queued (f : Queue → Queue) (x : Slot) : State :=
  { vdSt with queues := [(0, f { Queue.reset with owner := 0x8000000000010000 })], slots := [(0, x)] }
def running_ (q : Queue) : Queue := { q with ctl := 0x80000000, status := 0x40000000 }

theorem witness_VirtualDevicesAndQueues : ((0x80000000 : DWord).getLsbD 31 = true ∧ vdSt.vdEnabled 0 = true ∧ vdSt.vdEnabled 1 = false)
    ∧ (queued id .reset).queueAt 0 0 = some 0
    ∧ (∀ n ∈ [12, 13], let s := queued id .reset
      let c := s.ctlFields (s.queue 0) (BitVec.ofNat 32 (2 ^ 31 + n * 2 ^ 24))
      (s.queue 0).enabled = false ∧ (s.queue 0).state < 2 ∧ fieldOf c 27 24 = n ∧ (s.queue 0).valid = true)
    ∧ (let s := queued running_ .reset
      (s.queue 0).enabled = true ∧ (s.queue 0).state = 1 ∧ s.queueAt 0 0 = some 0 ∧ (s.queue 0).ringSize = 16 ∧ ((16 : Word) - (s.queue 0).head).toNat ≤ 16
        ∧ 16 < ((17 : Word) - (s.queue 0).head).toNat)
    ∧ (let s := { queued (fun q => { q with status := 0x40000000 }) .reset with teams := [] }
      (s.queue 0).enabled = false ∧ (s.queue 0).state = 1 ∧ (∀ t ∈ s.teams, t.2.loc = .saved) ∧ ∀ e ∈ s.slots, e.2.st ≠ .running)
    ∧ ((queued (fun q => { q with status := 0xC0000000 }) .reset).queue 0).state = 3
    ∧ (vdSt.ring 0 0).enabled = false ∧ (∀ n ∈ [12, 13], fieldOf (BitVec.ofNat 32 (2 ^ 31 + n * 2 ^ 27) : Word) 30 27 = n) := by decide +kernel

/-- The wave waits for page 3 of ASID 0. -/
def pageWait : PageWait := ⟨0, 3, 1, 0x30004, 0, 1, false, false⟩
def waits3 : Wave := { wv with pend := { Pend.none with again := true, pages := [pageWait] } }

theorem witness_TranslationControl : ((mk waits3).part 0).present = true ∧ ((mk waits3).part 0).tlbInv = none
    ∧ (let s := (mk waits3).updPart 0 (fun x => { x with tlbInv := some 0x4000000000000000 })
      (s.part 0).tlbInv = some 0x4000000000000000 ∧ s.tlbUsed 0 0x4000000000000000 = false ∧ ({ s with fab := { s.fab with unacked := [wreq id] } } : State).tlbUsed 0 0x4000000000000000 = true)
    ∧ ((mk waits3).jobs = [] ∧ (∀ c ∈ (mk waits3).cores, c.2.sideLog = []) ∧ (mk waits3).fab.unacked = [] ∧ Tbl.find (mk waits3).waves 32 = some waits3
      ∧ (mk waits3).waves.length = 1 ∧ (mk waits3).partOf 32 = 0 ∧ pageWait ∈ waits3.pend.pages
      ∧ (∀ b ∈ [0, 1], let x : DWord := BitVec.ofNat 64 (b * 2 ^ 63 + 3 * 2 ^ 16)
        x.getLsbD 63 = decide (b = 1) ∧ pageWait.asid = fieldOf x 11 0 ∧ pageWait.page = fieldOf x 51 16)
      ∧ (mk waits3).pkg.halted = false ∧ (mk waits3).asleep 0 = false ∧ (Tbl.find (mk waits3).teams waits3.team).map (fun k => k.loc) = some .resident
      ∧ ((mk waits3).part 0).fq.enabled = false) := by decide +kernel

/-! ## The scheduler -/

/-- Virtual device 0 holds the slice of its partition, as `f` changes it, up to tick 9. -/
def slicedW (f : Slice → Slice) (w : Wave) : State :=
  { mk w with vds := vdSt.vds, parts := [(0, { bootPart with ctx := 0xFFFF, slice := f { Slice.reset with cur := some 0, stop := 9 } })] }
def sliced (f : Slice → Slice) : State := slicedW f wv
def claim0 : Claim := ⟨0, 0, 1, 0, [], [], [], true⟩
def spilling (x : Spill) (w : Wave) : State := (mk w).updCore 0 (fun k => { k with spills := [(0, x)] })
/-- A wave of an H launch is evicted, alone, or with a wave of G that holds its slabs and has been parked for 4,096 cycles. -/
def outW : Wave := { wv with team := 2, evicted := some 0 }
def parked : Wave := { wv with slot := 1, park := .bar, parkClk := some 0 }
def aloneSt : State := { sliced id with
  waves := [(32, outW)]
  teams := [(1, bt), (2, { bt with grid := 2, tiles := [] })]
  grids := [(1, bootGrid), (2, { bootGrid with lrec := { bootRec with cls := .h } })] }
def evictSt : State := { aloneSt.updHob 0 (fun h => { h with clk := 4096 }) with waves := [(32, outW), (33, parked)] }
def lentW : Wave := { wv with lent := true, park := .bar }

theorem witness_PlacementAndLending :
    ((sliced id).ownerOf 0 = some 0 ∧ ((sliced id).part 0).slice.cur = some 0 ∧ ((sliced id).part 0).stopped = false ∧ ((sliced id).part 0).slice.switching = false
      ∧ (sliced id).running = true ∧ (sliced id).reft < ((sliced id).part 0).slice.stop)
    ∧ ((sliced id).ownerOf 1 = none ∧ ((sliced (fun x => { x with switching := true })).part 0).slice.switching = true)
    ∧ (let s := sliced id
      (s.chooseCore 0 bootRec .g).isSome = true ∧ s.placerFree 0 = true ∧ ({ s with placed := [(0, 0)], reft := 16 } : State).placerFree 0 = true
        ∧ Tbl.find s.grids 1 = some bootGrid)
    ∧ (let s := { sliced id with claims := [claim0] }
      s.claims.filter (fun c => c.core == 0 && c.side == 0) = [claim0] ∧ ¬ (s.coreRuns 0 = false ∨ s.moveAt 0 = true)
        ∧ (s.updHob 0 (fun h => { h with relockEnd := some 600 })).coreRuns 0 = false ∧ (s.updTeam 1 (fun k => { k with loc := .moving 6 })).moveAt 0 = true)
    ∧ (∀ x ∈ [Spill.slab 32 0, .tile 1 3, .gate 32 0 1, .back 32 1],
      ((spilling x { called wv with refill := [(1, 15, 0, 0x2000)] }).core 0).spills.find? (fun e => e.1 == 0) = some (0, x))
    ∧ ((called wv).gates ≠ [] ∧ ∃ r ∈ ({ called wv with refill := [(1, 15, 0, 0x2000)] } : Wave).refill, r.1 = 1)
    ∧ ((aloneSt.evictedOn 0 (0 / 16 % 2)).head? = some (32, outW) ∧ aloneSt.running = true ∧ outW.slot = 0 ∧ aloneSt.thingsBack 0 32 outW = true
      ∧ evictSt.thingsBack 0 32 outW = false ∧ (mk wv).evictedOn 0 0 = [])
    ∧ (evictSt.ownerOf (clusterOf 0) = some 0 ∧ fieldOf (evictSt.part 0).schedNow 31 31 = 1 ∧ evictSt.lendable 0 0 = true ∧ evictSt.evictedOn 0 0 ≠ []
      ∧ evictSt.claims = [] ∧ evictSt.coreRuns 0 = true ∧ evictSt.moveAt 0 = false)
    ∧ (let s := mk lentW
      s.waves.find? (fun e => e.2.lent && e.2.slot == 0 && s.coreOf e.1 == 0) = some (32, lentW) ∧ Tbl.find s.waves 32 = some lentW ∧ s.moveAt 0 = false
        ∧ (s.updTeam 1 (fun k => { k with loc := .moving 6 })).moveAt 0 = true) := by decide +kernel

/-- Queue 0 of the slice's virtual device, whose launch is of two teams, the second one unplaced; the core holds no team. -/
def headed (f : Queue → Queue) (g : Grid → Grid) : State :=
  { sliced id with
    queues := [(0, f (running_ { Queue.reset with owner := 0x8000000000010000 }))]
    slots := [(0, Slot.reset)]
    teams := []
    waves := []
    grids := [(1, g { bootGrid with lrec := { bootRec with gx := 2 } })] }
/-- Its virtual device has QUANTUM 0; cluster 0 has just placed a team. -/
def noQuantum (s : State) : State := { s with vds := [(0, { s.vd 0 with weights := [(0, 0)] })] }
def justPlaced (s : State) : State := { s with placed := [(0, 0)] }

theorem witness_PlacementAndLending_queues :
    (let s := headed id id;
      s.queues.Pairwise (fun a b => a.1 ≠ b.1) ∧ (s.headGrid 0).isSome = true ∧ s.queuePlaces (s.queue 0) = true ∧ s.quantum (s.queue 0) = 1
        ∧ (s.queue 0).deficit < 2 ∧ (s.serveOne 0).1 = false ∧ (s.serveRound (s.roundOf 0 0 .g)).1 = false)
    ∧ (let s := headed (fun q => { q with deficit := 2 }) id;
      (s.headGrid 0).map (fun e => (e.1, State.teamCost e.2)) = some (1, 2) ∧ (s.queue 0).deficit = 2 ∧ ((s.headGrid 0).bind (fun e => s.placeTeam e.1 e.2)).isSome = true
        ∧ (s.serveOne 0).1 = true ∧ s.roundOf 0 0 .g = [0] ∧ s.roundOf 0 0 .h = [] ∧ (s.serveRound (s.roundOf 0 0 .g)).1 = true)
    ∧ (let s := justPlaced (headed (fun q => { q with deficit := 2 }) id);
      (s.headGrid 0).isSome = true ∧ ((s.headGrid 0).bind (fun e => s.placeTeam e.1 e.2)).isNone = true ∧ s.placerFree 0 = false
        ∧ ((s.chooseCore 0 bootRec .g).map (fun e => clusterOf e.1)) = some 0)
    ∧ (let s := noQuantum (headed id id);
      (s.headGrid 0).isSome = true ∧ s.queuePlaces (s.queue 0) = true ∧ s.quantum (s.queue 0) = 0)
    ∧ (let s := headed (fun q => { q with ctl := 0 }) id;
      (s.headGrid 0).isSome = true ∧ s.queuePlaces (s.queue 0) = false)
    ∧ ((sliced id).headGrid 0).isNone = true
    ∧ (∀ r ∈ ([[], [5, 3]] : List (List Nat)), ((headed id (fun g => { g with returned := r })).headGrid 0).map (fun e => State.headIndex e.2) = some (if r = [] then 1 else 3))
    ∧ ((sliced id).chooseCore 1 bootRec .g).isNone = true ∧ ((headed id id).fit 0 0 bootRec .g true).isSome = true
    ∧ ((headed id id).fit 0 0 bootRec .h true).isSome = true ∧ ((sliced id).fit 0 0 { bootRec with acc := 1 } .h true).isNone = true := by decide +kernel

/-- Core 0 relocks; LEND is 0; a wave lent, which is ready, is parked, or watches a value. -/
def relocking (s : State) : State := s.updHob 0 (fun h => { h with relockEnd := some 600 })
def noLend (s : State) : State := s.updPart 0 (fun x => { x with schedNow := x.schedNow &&& 0x7FFFFFFF })
def lent (p : Park) : Wave := { lentW with park := p }

theorem witness_PlacementAndLending_rows :
    (∀ x ∈ [Spill.slab 32 0, .tile 1 3, .gate 32 0 1, .back 32 1], let s := spilling x { called wv with refill := [(1, 15, 0, 0x2000)] }
      (s.core 0).spills.find? (fun e => e.1 == 0) = some (0, x) ∧ s.running = true ∧ s.asleep 0 = false ∧ (relocking s).asleep 0 = true
        ∧ ((relocking s).core 0).spills.find? (fun e => e.1 == 0) = some (0, x))
    ∧ ((called wv).gates[(called wv).gates.length - 1]?).isSome = true
    ∧ (aloneSt.running = true ∧ aloneSt.asleep 0 = false ∧ (relocking aloneSt).asleep 0 = true ∧ ((relocking aloneSt).evictedOn 0 0).head? = some (32, outW)
      ∧ (relocking aloneSt).thingsBack 0 32 outW = true)
    ∧ (evictSt.lendSoon 0 0 = some 0 ∧ evictSt.running = true ∧ evictSt.coreRuns 0 = true ∧ (relocking evictSt).coreRuns 0 = false ∧ (relocking evictSt).lendSoon 0 0 = some 0)
    ∧ (let s := evictSt.updHob 0 (fun h => { h with clk := 4000 });
      s.lendSoon 0 0 = some 96 ∧ s.due (.slabLend 0 0) = false)
    ∧ (let s := { evictSt with waves := [(32, outW), (33, { parked with park := .no })] };
      s.lendSoon 0 0 = none)
    ∧ ((noLend evictSt).ownerOf (clusterOf 0) = some 0 ∧ fieldOf ((noLend evictSt).part 0).schedNow 31 31 = 0)
    ∧ (∀ p ∈ [Park.no, .bar, .waitv 0], let s := mk (lent p)
      s.lentAt 0 0 = some (32, lent p) ∧ Tbl.find s.waves 32 = some (lent p) ∧ s.lentReady (lent p) = decide (p = .no) ∧ (lent p).watches = decide (p = .waitv 0)
        ∧ s.coreRuns 0 = true ∧ s.moveAt 0 = false ∧ (relocking s).coreRuns 0 = false ∧ (relocking s).lentAt 0 0 = some (32, lent p))
    ∧ (Tbl.find ((mk (lent (.waitv 0))).rereadWaitv 0 (32, lent (.waitv 0))).waves 32).isSome = true
    ∧ (mk wv).lentAt 0 0 = none := by decide +kernel

/-- Queue 0 has a READY launch, so that virtual device 0 has work. -/
def ready1 : Slot := { Slot.reset with st := .ready, node := natBytes 64 1 }
def busySt (f : Slice → Slice) : State := { sliced f with queues := (queued running_ ready1).queues, slots := (queued running_ ready1).slots }

theorem witness_SlicesAndMoves_slices :
    (let s := busySt (fun x => { x with cur := none });
      (s.pickVd 0).1 = some 0 ∧ s.eligible 0 0 = true ∧ s.noFrames 0 0 = false ∧ ((s.takeSched 0).pickVd 0).1 = some 0
        ∧ (s.part 0).present = true ∧ (s.part 0).stopped = false ∧ (s.part 0).slice.switching = false ∧ s.running = true ∧ (s.part 0).slice.cur = none)
    ∧ ((sliced (fun x => { x with cur := none })).takeSched 0 |>.pickVd 0).1 = none
    ∧ (∀ t ∈ [8, 9], let s := { busySt id with reft := t }
      (s.part 0).slice.cur = some 0 ∧ ((s.part 0).slice.stop ≤ s.reft ↔ t = 9) ∧ ((s.takeSched 0).pickVd 0).1 = some 0)
    ∧ (let s := { sliced id with reft := 9 }
      ∃ c ∈ s.clustersOf 0, s.outgoing 0 0 c ≠ [] ∧ ((s.takeSched 0).pickVd 0).1 = none)
    ∧ (let s := { busySt (fun x => { x with cur := some 1 }) with reft := 9 }
      s.reft = 9 ∧ ((s.takeSched 0).pickVd 0).1 = some 0 ∧ ∀ c ∈ s.clustersOf 0, s.outgoing 0 1 c = [])
    ∧ (let s := sliced id
      (s.part 0).slice.cur = some 0 ∧ (s.part 0).slice.yielding = false ∧ s.reft < (s.part 0).slice.stop
        ∧ (s.part 0).slice.stop ≤ s.reft + 1000 * fieldOf (s.part 0).schedNow 25 16)
    ∧ (∀ v ∈ [none, some 0, some 1], let s := { sliced (fun x => { x with switching := true, next := v, exchanged := [0] }) with reft := 10 + 1000 * 20 }
      (s.part 0).slice.cur = some 0 ∧ (s.part 0).slice.switching = true ∧ (∀ c ∈ s.clustersOf 0, c ∈ (s.part 0).slice.exchanged) ∧ (s.part 0).slice.next = v
        ∧ (s.part 0).slice.stop + 1000 * max 1 (fieldOf (s.part 0).schedNow 9 0) < s.reft) := by decide +kernel

/-- The switch is under way; what is left of the outgoing team is one of these run times and high-water marks, restartable in H or not. -/
def leaving (c : Option Choice) (next : Option Nat) (times : List Nat) (hwm : Nat) (h : Bool) : State :=
  { sliced (fun x => { x with switching := true, choices := c.toList.map (fun c => (0, c)), next := next }) with
    teams := [(1, { bt with hwm := hwm })]
    grids := [(1, { bootGrid with times := times, lrec := { bootRec with cls := if h then .h else .g, restartable := h } })] }
def goneSt (c : Option Choice) (next : Option Nat) : State := { leaving c next [] 0 false with teams := [], waves := [] }

theorem witness_SlicesAndMoves_switch :
    (let s := leaving none none [] 0 false;
      s.ownerOf 0 = some 0 ∧ (s.part 0).slice.cur = some 0 ∧ (s.part 0).slice.switching = true ∧ s.choiceHeld 0 = false ∧ (s.part 0).slice.choices = [])
    ∧ (∀ x ∈ ([([0], 0, false, .drain), ([], 20000000, false, .save), ([], 20000001, true, .discard), ([], 20000001, false, .overrun)] :
        List (List Nat × Nat × Bool × Choice)),
        let b := 1000 * max 1 (fieldOf ((leaving none none [] 0 false).part 0).schedNow 9 0)
        let s := leaving none none x.1 x.2.1 x.2.2.1;
        b = 20000 ∧ s.sliceChoice b (s.outgoing 0 0 0) = x.2.2.2 ∧ (s.outgoing 0 0 0).map (fun e => e.2.hwm) = [x.2.1]
          ∧ ((∀ e ∈ s.outgoing 0 0 0, (s.drainEstimate e.2).map (fun n => decide (n ≤ b)) = some true) ↔ x.1 = [0]))
    ∧ (let s := { leaving (some .drain) none [] 0 false with reft := 9 + 1000 * 20 }
      s.reft = 20009 ∧ (0, Choice.drain) ∈ (s.part 0).slice.choices ∧ (s.part 0).slice.stop + 1000 * max 1 (fieldOf (s.part 0).schedNow 9 0) ≤ s.reft ∧ s.halting 0 0 0 ≠ [])
    ∧ (∀ next ∈ ([none, some 0] : List (Option Nat)), let s := goneSt (some .save) next
      s.outgoing 0 0 0 = [] ∧ s.haltHeld 0 = false ∧ (0, Choice.save) ∈ (s.part 0).slice.choices ∧ 0 ∉ (s.part 0).slice.exchanged ∧ (s.part 0).slice.next = next
        ∧ (s.core 0).preload = none)
    ∧ (let s := { goneSt (some .save) (some 0) with cores := (List.range 48).map (fun i => (i, { Core.reset with preload := some 0 })) }
      ∀ i, i < 48 → (s.core (0 * 48 + i)).preload = some 0)
    ∧ (∀ c ∈ [Choice.drain, .save], (leaving (some c) none [] 0 false).outgoing 0 0 0 ≠ [] ∧ ((leaving (some c) none [] 0 false).part 0).slice.choices = [(0, c)]) := by
  decide +kernel

/-- The team, at rest for 2 ms, may move to core 6, not to core 1 of its own hob; it is moving. -/
def restSt : State := { slicedW id { wv with park := .bar, barPc := some 0, arrived := some 0 } with reft := 2000000 }
theorem witness_SlicesAndMoves_moves : (Tbl.find restSt.teams 1 = some bt ∧ Tbl.find restSt.grids bt.grid = some bootGrid)
    ∧ restSt.mayMove 1 bt 6 = true ∧ restSt.mayMove 1 bt 1 = false
    ∧ (let k := { bt with loc := .moving 6 }
      let u := ({ restSt with teams := [(1, k)] } : State).updTeam 1 (fun k => { k with loc := .resident })
      k.loc = .moving 6 ∧ (u.moveFit 1 k 6).isSome = true ∧ u.moveFit 1 k 1 = none ∧ k.core ≠ 6) := by decide +kernel

/-! ## Queues and graphs -/

/-- A node record of a kind (R89), for slot 0, with no successors: its flags, PRED_INIT and PRED_LOOP, payload words. -/
def node (kind flags init loop a b c d : Nat) : List Byte :=
  natBytes 1 kind ++ natBytes 1 flags ++ natBytes 2 0 ++ natBytes 2 init ++ natBytes 2 loop ++ natBytes 16 (2 ^ 128 - 1) ++ natBytes 8 a ++ natBytes 8 b
    ++ natBytes 8 c ++ natBytes 8 d ++ natBytes 8 0
/-- Queue 0 stands at this record, in HBM; page 3 is not there. -/
def recorded (n : List Byte) (x : Slot) (base : DWord) : State := ((queued (fun q => { running_ q with base := base, tail := 1 }) x).putBytes 0x30000 n)
def noded (st : NodeSt) (run : NodeRun) (n : List Byte) : Slot := { Slot.reset with st := st, run := run, node := n }
def withOld (s : State) : State := { s with fab := { s.fab with unacked := [wreq id] } }

theorem witness_GraphNodes_fetch : (let s := recorded [] .reset 0x30000
      s.whiskOn 0 = true ∧ (s.queue 0).head ≠ (s.queue 0).tail ∧ s.whiskRead (s.queue 0) (s.queue 0).asid ((s.queue 0).base.toNat + 64 * ((s.queue 0).head.toNat % 16)) 64 = none)
    ∧ (∀ n ∈ [node 4 0 1 0 0 0 0 0, node 9 0 0 0 0 0 0 0], ∀ st ∈ [NodeSt.free, .done, .pending, .ready, .running],
      let s := recorded n (noded st .none []) 0
      s.whiskOn 0 = true ∧ (s.queue 0).head ≠ (s.queue 0).tail ∧ s.whiskRead (s.queue 0) (s.queue 0).asid 0 64 = some n ∧ (s.queue 0).slotCount = 1 ∧ Node.slot n = 0
        ∧ (s.slot 0).st = st ∧ (s.slot 0).ctr ≤ Node.predInit n ∧ (Node.ok n 1 = true ↔ Node.kind n = 4))
    ∧ ((queued (fun q => { q with owner := 0x8000000000000000 }) .reset).queue 0).slotCount = 0 := by decide +kernel

theorem witness_GraphNodes_nodes :
    (∀ k ∈ [0, 1], let s := queued running_ (noded .running .ended (node 4 k 0 0 0 0 0 0))
      (s.slot 0).st = .running ∧ (s.slot 0).hq = 0 ∧ s.nodeRuns 0 1 = true ∧ (s.slot 0).run = .ended ∧ s.fab.unacked = []
        ∧ (∀ r ∈ Node.succs (s.slot 0).node, r = 0xFFFF) ∧ (Node.keep (s.slot 0).node = true ↔ k = 1)
        ∧ s.fab.mirrorWait = [] ∧ ¬ (∀ u ∈ (withOld s).fab.unacked, u.part = (withOld s).vdPart ((withOld s).queue 0).vf → (s.slot 0).fence.getD (withOld s).nextId ≤ u.ord))
    ∧ (∀ c ∈ ([1, 2] : List Nat), (queued running_ { noded .pending .none [] with ctr := c }).slot 0 = { noded .pending .none [] with ctr := c })
    ∧ (∀ v ∈ ([0, 1] : List Nat), let s := recorded (natBytes 8 1) (noded .running .waiting (node 4 0 0 0 0 v 0xFF 0)) 0
      (s.slot 0).run = .waiting ∧ s.nodeRuns 0 4 = true ∧ Node.kind (s.slot 0).node = 4 ∧ s.nodeWord 0 0 = some 1 ∧ (Node.holds (s.slot 0).node 1 = true ↔ v = 1))
    ∧ (queued running_ (noded .running .waiting (node 4 0 0 0 0x30000 0 0 0))).nodeWord 0 0 = none
    ∧ (∀ n ∈ [0, 1], let s := queued running_ (noded .running .condWait (node 6 0 0 n 0 0 0 (2 ^ 16 + 1)))
      (s.slot 0).run = .condWait ∧ s.nodeRuns 0 6 = true ∧ Node.predLoop (s.slot 0).node = n ∧ (s.slot ((s.queue 0).slotBase + 1)).st = .free)
    ∧ (let s := { recorded [] (noded .running (.posted 0) (node 7 0 0 0 0 1 0 0)) 0 with rings := [(0, { Ring.reset with ctl := 0x80000000 })] }
      (s.slot 0).run = .posted 0 ∧ s.nodeRuns 0 7 = true ∧ s.posterOn 0 (Node.ring (s.slot 0).node) = some 0 ∧ Node.count (s.slot 0).node = 0 + 1
        ∧ (s.ring 0 0).enabled = true ∧ (s.ring 0 0).room ≠ 0 ∧ (s.whiskRead (s.queue 0) (s.queue 0).asid 0 64).isSome = true)
    ∧ (∀ k ∈ ([1, 2, 3, 4, 5, 6, 7] : List Nat), let s := queued running_ (noded .ready .none (node k (if k = 5 then 0x30 else 0) 0 0 0 0 0 0))
      (s.slot 0).st = .ready ∧ (s.slot 0).hq = 0 ∧ s.whiskOn 0 = true ∧ Node.kind (s.slot 0).node = k
        ∧ s.whiskGo (s.queue 0) (s.queue 0).asid 0 .write = .hbm 0x30000 false ∧ 0x30000 + 8 ≤ hbmEnd) := by decide +kernel

/-- A ring with a record that its timer counts from tick 0; a grid of queue 0 that is over, killed, or a child. -/
def overSt (f : Grid → Grid) : State :=
  let g := { bootGrid with hq := 0, slot := 0 }
  { queued running_ (noded .running (.grid 1) (node 1 0 0 0 0 0 0 0)) with grids := [(1, f g), (2, { g with children := 1, next := 0 })], teams := [], waves := [] }
def killed (x : Bool) (g : Grid) : Grid := { g with killed := true, unreplayable := x }

theorem witness_GraphNodes_ends : (∀ t ∈ [999, 1000],
      let s := { vdSt with reft := t, rings := [(0, { Ring.reset with pend := 1, ctl := 0x00000008 })] }
      (s.ring 0 0).pend ≠ 0 ∧ (s.ring 0 0).timer = 1000 ∧ (1000 ≤ s.reft - (s.ring 0 0).t0 ↔ t = 1000))
    ∧ (∀ p ∈ ([none, some 2] : List (Option Nat)), let s := overSt (fun g => { g with parent := p })
      Tbl.find s.grids 1 = some { bootGrid with parent := p } ∧ s.running = true ∧ s.gridOver 1 { bootGrid with parent := p } = true ∧ s.fab.unacked = []
        ∧ (s.completion { bootGrid with parent := p }).isSome = true
        ∧ (s.completion { bootGrid with parent := p, lrec := { bootRec with cword := 0x30000 } }).isNone = true
        ∧ s.fab.mirrorWait = [] ∧ ¬ (∀ u ∈ (withOld s).fab.unacked, u.part = bootGrid.part → bootGrid.fence.getD (withOld s).nextId ≤ u.ord))
    ∧ (∀ x ∈ [false, true], (overSt (killed x)).grids.length = 2 ∧ (killed x bootGrid).killed = true ∧ (killed x bootGrid).unreplayable = x ∧ ((overSt (killed x)).slot 0).runs < 3)
    ∧ 3 ≤ (({ Slot.reset with runs := 3 } : Slot)).runs := by decide +kernel

/-! ## Further clauses -/

/-- A protected launch, whose two computations of a step differ or do not, as a value of Config says. -/
theorem witness_TileInstructions_prot (n : Nat) : (Config.upset n = true ∨ Config.upset n = false)
    ∧ ({ mk (sv 0x2000) with grids := [(1, { bootGrid with lrec := { bootRec with fslots := List.replicate 8 1, prot := true } })] } : State).prot 32 = true :=
  ⟨(Bool.eq_false_or_eq_true _), by decide +kernel⟩

theorem witness_GateRoundTrip_owned : (let o := [(1, true)]
      let inFrame := fun (r : Nat) => o.contains (r / 64, true)
      let y : Wave := { called wv with gates := (called wv).gates.modifyHead (fun f => { f with owned := o, v := f.v.filter (fun c => !inFrame (c.1 % 128)) }) }
      y.threads.length = wv.threads.length ∧ (1, true) ∈ o ∧ inFrame 127 = true ∧ inFrame 63 = false) := by decide +kernel

theorem witness_FencesYieldSleep_late : (let s := { teamed { bt with yieldBy := some 9 } wv with reft := 10 }
    ∀ d, (some 9 : Option Nat) = some d → d < s.reft) ∧ (teamed { bt with yieldBy := some 9 } wv).reft ≤ 9 :=
  ⟨only rfl (by decide), by decide⟩

theorem witness_RecordsAndValueWaits_place : ∀ k ∈ [0, 1, 2], (mk (watch k .no)).asleep 0 = false ∧ (mk (watch k .no)).logPending 32 = false
    ∧ (watch k .no).pends = [] := by decide +kernel

/-- Jobs at their end, of a wave and of node 3 of queue 2; a matrix job of a protected launch. -/
theorem witness_JobProgress_ends : (∀ k ∈ [1, 2], (kst k 0).asleep 0 = false ∧ (kjob k 0).acked = (kjob k 0).pos ∧ (kst k 64).engineRuns (kjob k 64) = true
      ∧ copyBytes (cardK k) ≤ (kjob k 64).acked
      ∧ (let j := { kjob k 64 with node := some (2, 3), team := none, wid := none }
        let s := { kst k 64 with jobs := [(7, j)] }
        Tbl.find s.jobs 7 = some j ∧ j.node = some (2, 3) ∧ s.engineRuns j = true ∧ Card.kind j.card = k ∧ copyBytes j.card ≤ j.acked))
    ∧ (kst 3 0).jobProt (kjob 3 0) = false
    ∧ ({ kst 3 0 with grids := [(1, { bootGrid with lrec := { bootRec with prot := true } })] } : State).jobProt (kjob 3 0) = true := by decide +kernel

/-- Copies that write to a remote place and that read from one, and a queue pair with two receive buffers, the first half full. -/
def routed (r : Nat) : Job := { job0 (cardOf 1 r 1 0 (reg 0 64 0 0 0) (reg 0 64 1 0 128)) with pos := 64, wait := .roce }
def qp0 : Qp := { Qp.start with recv := [(0x30000, 128), (0x40000, 64)], filled := 64 }
def ethSt : State := { mk wv with eth := ⟨[], [(16384, qp0)], [], []⟩, jobs := [(7, routed 2), (8, routed 1)] }

theorem witness_RoundsAndEthernet_packets : (1 ∉ ethSt.eth.down ∧ (Tbl.getD ethSt.eth.qps 16384 Qp.start).err = false ∧ ethSt.running = true)
    ∧ (∀ e ∈ [(7, routed 2), (8, routed 1)], Tbl.find ethSt.jobs e.1 = some e.2 ∧ Card.kind e.2.card = 1 ∧ Card.route e.2.card ≠ 0 ∧ ethSt.asleep e.2.core = false
      ∧ (Card.route e.2.card = 2 ↔ e.1 = 7))
    ∧ (qp0.recv = (0x30000, 128) :: [(0x40000, 64)] ∧ qp0.filled + 64 ≤ 128)
    ∧ (∀ n ∈ [14, 15], let q := { Qp.start with num := n }
      (16 * 2 ^ q.shift ≤ q.num + 2 ^ q.shift ↔ n = 15)) := by decide +kernel

theorem witness_ImagesRepairsAndAlarms_rows : (∀ n ∈ [2, 3], let s := { State.reset with kettle := { Kettle.reset with rowErrs := List.replicate n ⟨7, 1, 2, 0⟩ } }
      s.pkg.power = .on ∧ s.kettle.running = true ∧ s.kettle.repairs = [] ∧ (7, 1, 2) ∉ s.kettle.repairDue ∧ s.rowErrors 7 1 2 = n)
    ∧ (∀ t ∈ [9999999, 10000000], let s := { State.reset with reft := t, kettle := { Kettle.reset with repairDue := [(7, 1, 2)], lastRepair := [(7, 0)] } }
      (7, 1, 2) ∈ s.kettle.repairDue ∧ Tbl.find s.kettle.lastRepair 7 = some 0 ∧ (0 + 10000000 ≤ s.reft ↔ t = 10000000)) := by decide +kernel

theorem witness_ThrottlingBoostAndTime_relock : (let s := hobbed 600 (fun h => { h with relockEnd := some 600 })
      (s.pool (s.hob 0).pool).waits = false ∧ ∀ e ∈ s.cores, e.2.inbound = [] ∧ e.2.sideLog = [])
    ∧ ((hobbed 0 (fun h => { h with step := 15 })).hob 0).relockEnd = none ∧ (masterSt isMaster id).joined = true ∧ (masterSt isMaster id).dev.live.getLsbD 1 = true := by
  decide +kernel

/-- A PRF through a record of global memory and through one of the peer space. -/
theorem witness_LoadsAndPrefetch_prefetch : (∀ m ∈ actsOf (wideSt 0) grp, Rcd.space (m.2.2.breg 3) ≠ 3) ∧ (Instr.prf false 3 100).wf = true
    ∧ LaneReady (st (indexed (rcd 0 2 4 3 0) 1)) grp [100] [] := by decide +kernel

theorem witness_MailboxCommands_spdm (i : List Byte) : State.reset.kettle.chain = some [] ∧ State.reset.kettle.identity.isSome = true
    ∧ (Config.verifies 1 i = true ∨ Config.verifies 1 i = false) := ⟨rfl, rfl, Bool.eq_false_or_eq_true _⟩

theorem witness_StepRunsDecoded_over : wv.nextAsync = none ∧ wv.pends.any (State.unfinished wv) = false ∧ State.unfinished wv .none = false := by decide +kernel

/-- The window of the grid is tags 0 to 5; a job of a kind on tag 5 that has read so many steps. -/
def few : Grid := { bootGrid with lrec := { bootRec with tagCount := 6 } }
def reads (kind n : Nat) : State := { tagged .busy 1 named with jobs := [(7, { job0 (cardK kind) with read := n })] }
theorem witness_TagAndMatrixWaits_more :
    (let s := { tagged .busy 1 named with grids := [(1, few)] };
      UniReady s 32 named [63] [] [] ∧ s.lrecOf 32 = some few.lrec ∧ named.gates = [] ∧ few.lrec.tagBase + few.lrec.tagCount ≤ 64
        ∧ ¬ (few.lrec.tagBase ≤ 63 ∧ 63 < few.lrec.tagBase + few.lrec.tagCount))
    ∧ (let w := called named;
      let s := { mk w with cur := some { grp with pc := 0x2000 } };
      UniReady s 32 w [63] [] [] ∧ s.lrecOf 32 = some bootRec ∧ w.gates ≠ [] ∧ w.sreg 5 ≠ 0)
    ∧ (∀ k ∈ [1, 2, 3, 4, 5], ∀ n ∈ [0, 1], let s := reads k n
      UniIssued s 32 named ∧ s.tagOf named.team 5 = .busy ∧ (s.jobs.any (fun e => e.2.team == some named.team && e.2.tag == 5 && (Card.kind e.2.card == 1 || Card.kind e.2.card == 2
        || ((Card.kind e.2.card == 3 || Card.kind e.2.card == 4) && decide (1 ≤ e.2.read)))) = decide (k = 1 ∨ k = 2 ∨ (k < 5 ∧ n = 1)))) := by
  decide +kernel

theorem witness_SchedulesAndRounds_more : ((sched 1).running = true ∧ (sched 1).asleep 0 = false)
    ∧ (let s := { coll 1 2 with dev := { st0.dev with fabId := 0x80000000, live := 3 } }; UniIssued s 32 wv ∧ (∀ c ∈ s.membersOf (s.groupEntry 0 0), s.memberLost (s.groupEntry 0 0) c = false)
      ∧ s.collOpen (s.clsOf 32) (s.groupEntry 0 0) = true ∧ s.release 32 .system = (true, s) ∧ wv.collwAt = none ∧ (s.groupEntry 0 0).v = true) := by decide +kernel

/-- A record of a launch with one copy-schedule entry at address 0x1000, and one of no teams, with a completion word or without. -/
def lrecSched : State := lrecAt 0x41 |>.putBytes 0x30028 (natBytes 8 0x1000) |>.putBytes 0x30080 (natBytes 2 1)
def lrecNone (cword : Nat) : State := lrecAt 0x41 |>.putBytes 0x30008 (natBytes 4 0) |>.putBytes 0x30030 (natBytes 8 cword) |>.putBytes 0x3001C (natBytes 4 (5 * 64))
def recOf (s : State) : List Byte := s.bytesAt 0x30000 128 ++ s.bytesAt 0x30080 128

theorem witness_ChildGrids_more :
    (∀ e ∈ (lrecAt 0x41).grids, e.1 % 2 ^ 32 ≠ (lrecAt 0x41).nextId % 2 ^ 32)
    ∧ (let s := lrecSched
      let r := LaunchRec.ofBytes (recOf s)
      UniReady s 32 wv [63] [] [] ∧ s.launchOk (recOf s) 0 0 none = true ∧ r.teams = 1 ∧ r.schedN = 1 ∧ (s.core 0).tlb.length < 384 ∧ (Tbl.getD s.ctlb 0 []).length < 8192
        ∧ linePieces 16 r.sched 16 = [(0x1000, 16)] ∧ s.reach (some 0) 0 0 0x1000 false .read = .hbm 0x31000 false ∧ s.poisoned 0x31000 1 = false
        ∧ s.release 32 .device = (true, s))
    ∧ (∀ c ∈ [0, 0x2000], let s := lrecNone c
      UniReady s 32 wv [63] [] [] ∧ s.launchOk (recOf s) 0 0 none = true ∧ (LaunchRec.ofBytes (recOf s)).teams = 0 ∧ (LaunchRec.ofBytes (recOf s)).cword = c
        ∧ (LaunchRec.ofBytes (recOf s)).cscope = 5 ∧ s.release 32 .system = (true, s) ∧ (∀ e ∈ s.grids, e.1 % 2 ^ 32 ≠ s.nextId % 2 ^ 32)
        ∧ (c = 0 ∨ s.whiskGo (s.queue 0) 0 c .write = .hbm 0x32000 false)) := by decide +kernel
theorem witness_ChildGrids_none (c : Nat) (h : c ∈ [0, 0x2000]) : (∀ pa, Fresh (lrecNone c) 32 pa) ∧ ∀ pa, Fresh lrecSched 32 pa :=
  ⟨freshA _ _ (by revert c; decide +kernel), freshA _ _ (by decide +kernel)⟩

theorem witness_RoundsAndEthernet_more : (kst 5 0).collOpen (kjob 5 0).cls ((kst 5 0).groupEntry 0 (Card.collGroup (cardK 5))) = true
    ∧ (0, ethSt.trafficClass .g) ∉ ethSt.eth.paused ∧ (∀ pa ∈ [0x30000], (kst 5 0).poisoned pa 64 = false) := by decide +kernel

/-- An export that is changing; a RECALL seen. -/
def changing (missing : List (Nat × Nat)) : State := exportSt 0 ⟨exported none true, [(7, 35, 0, .g)], some { exported none false with gen := 2 }, missing⟩
theorem witness_FabricRequests_more :
    ((fabSt 0 id).recallSeen ⟨7, 2⟩ 5 = false ∧ (fabSt 0 (fun f => { f with recalled := [(7, 5, 2)] })).recallSeen ⟨7, 2⟩ 5 = true)
    ∧ (∀ m ∈ [[(7, 0)], [(7, 0), (7, 1)]], (changing m).joined = true ∧ ((Tbl.find (changing m).fab.exports_ 5).bind (fun e => e.change)).map (fun c => c.gen) = some 2
      ∧ (m.filter (fun x => x ≠ (7, 0) ∧ (changing m).dev.live.getLsbD x.2 = true) = [] ↔ m = [(7, 0)]))
    ∧ (let s := { exportSt 0 ⟨exported none true, [(7, 100, 0, .g)], none, []⟩ with dev := { st0.dev with fabId := 0x80000000, live := 0 } }
      s.joined = true ∧ s.livePlanes = [] ∧ (Tbl.find s.fab.exports_ 5).map (fun e => (e.change.isNone, (e.holders.filter (fun h => s.reft < h.2.1)).length)) = some (true, 1)) := by
  decide +kernel

/-- What a STOP meets: a map that is newer, one of its own run, one of the standby, one of another run. -/
theorem witness_FabricQuiesce_counts :
    (∀ e ∈ [(4, 7, 0), (5, 7, 7), (4, 0, 7)], let s := masterSt (fun d => { d with fabMapGen := 5 }) (fun f => { f with runSrc := e.2.2 })
      (s.dev.qstate = 0 ∧ (s.dev.fabMapGen.toNat ≤ e.1 ∨ (e.2.1 ≠ s.fab.runSrc ∧ e.2.1 = fieldOf s.dev.fabId 30 21))) ↔ e ≠ (4, 7, 0))
    ∧ (∀ e ∈ [(7, (1 : BitVec 8)), (6, 1), (7, 3)], let s := masterSt (fun d => { d with qstate := 1 }) (fun f => { f with runSrc := 7, downPlanes := 1 })
      (e.1 ≠ s.fab.runSrc ∨ e.2 &&& ~~~s.fab.downPlanes ≠ 0) ↔ e ≠ (7, 1)) := by decide +kernel

theorem witness_SlicesAndMoves_awake : (let s := leaving none none [] 0 false; s.running = true) ∧ restSt.running = true ∧ restSt.asleep 0 = false ∧ restSt.asleep 6 = false
    ∧ (∀ v ∈ [none, some 0, some 1], (sliced (fun x => { x with switching := true, next := v, exchanged := [0] })).running = true) := by decide +kernel

/-! ## Windows of other chips, host loads, threads of two lanes -/

/-- Page 4 of ASID 0 is export page 5 of chip 7; the record is of the peer window. -/
def peerW : Wave := indexed (rcd (65536 * 4) 2 2 3 0) 1 wv
def peered (f : Fabric → Fabric) (w : Wave) : State :=
  let s := fabSt 0 f
  { s.putBytes 0x24020 (natBytes 8 (7 * 2 ^ 48 + 5 * 65536 + 0x2F)) with cur := some one, waves := [(32, w)] }
/-- The die has a lease of it; a copy of its line is in the L1; the line has come; the host's bytes may have come. -/
def ptc0 : PtcEntry := ⟨0, 0, .g, 7, 5, 0x30000, ⟨true, true, true⟩, 1, 1000⟩
def leased0 (f : Fabric) : Fabric := { f with ptc := [ptc0] }
def copied : State := (peered leased0 peerW).updCore 0 (fun k => { k with l1 := [⟨some 7, 0x30000, natBytes 128 0, (0, 0), 0⟩] })
def gotW (bad : Bool) : Wave := { peerW with pend := { Pend.none with again := true, lines := [⟨7, 0x30000 / 128, natBytes 128 0, true, bad⟩] } }
def hostW : Wave := { pw 2 with pend := { Pend.none with again := true, host := [1] } }

theorem witness_WindowAccesses_peer :
    (∀ f ∈ [id, leased0], ∀ right ∈ [Right.read, .write], let s := peered f peerW
      s.cur = some one ∧ Tbl.find s.waves 32 = some peerW ∧ peerW.guardOn 1 = true ∧ plainB s = true ∧ LaneReady s one (100 :: block 127 1) (block 127 1)
        ∧ laneAddress (peerW.breg 3) (peerW.vreg 1 100).toNat 4 = .at_ 0x40004 ∧ State.recAllows (peerW.breg 3) right = true ∧ Rcd.space (peerW.breg 3) = 3
        ∧ s.reach (some 0) 0 (State.asidOf peerW (peerW.breg 3)) 0x40004 true right = .peer 7 5 4 ∧ s.cutOff 7 = false)
    ∧ (peered id peerW).ptcFind 0 0 7 5 = none ∧ (peered leased0 peerW).ptcFind 0 0 7 5 = some ptc0
    ∧ (ptc0.rights.read = true ∧ ptc0.rights.write = true ∧ (peered leased0 peerW).storeUnderWay 0 7 5 0x30004 = false
      ∧ (peered leased0 peerW).peerHit ((peered leased0 peerW).agentOf 32) 7 0x30004 = none ∧ (copied.peerHit (copied.agentOf 32) 7 0x30004).isSome = true
      ∧ (peered leased0 peerW).windowFull 7 false = false ∧ peerW.pends = [])
    ∧ (let s := { paged 2 with waves := [(32, hostW)] }
      Tbl.find s.waves 32 = some hostW ∧ hostW.pend = { Pend.none with again := true, host := [1] } ∧ s.waveAt 0 0 = some (32, hostW) ∧ s.running = true ∧ s.asleep 0 = false
        ∧ LaneReady s one (100 :: block 127 1) (block 127 1) ∧ s.reach (some 0) 0 0 0x20004 false .read = .host 4) := by decide +kernel

theorem witness_WindowAccesses_got : ∀ bad ∈ [false, true], let s := peered leased0 (gotW bad)
    Tbl.find s.waves 32 = some (gotW bad) ∧ (gotW bad).pend = { Pend.none with again := true, lines := [⟨7, 0x30000 / 128, natBytes 128 0, true, bad⟩] }
      ∧ s.logPending 32 = false ∧ s.peerHit (s.agentOf 32) 7 0x30004 = none ∧ s.replays 32 = false ∧ (gotW bad).guarded = false := by decide +kernel

/-- A thread, of two lanes where its launch is protected, and of a replayed one with so many snapshot pages; its page is mirrored. -/
def thread0 (prot : Bool) : Group := ⟨0, 0, 0, (if prot then [0, 1] else [0]).map (fun l => (32, l))⟩
def threadW : Wave := { wv with b := [(3, rcd 0 2 2 0 0)], v := [(100, 1), (128 + 100, 1), (127, 7), (128 + 127, 7)] }
def threaded (prot mirror : Bool) (pages : Nat) : State :=
  { ((fabSt 0 id).putBytes 0x24000 (natBytes 8 (if mirror then 0x3001F else 0x3000F))).putBytes 0x24028 (natBytes 8 0x5000F) with
    cur := some (thread0 prot)
    waves := [(32, threadW)]
    grids := [(1, { bootGrid with lrec := { bootRec with replay := true, prot := prot, snap := 0x50000, snapPages := pages } })]
    parts := [(0, { bootPart with mirror := if mirror then 0x80000007 else 0 })] }

theorem witness_WindowAccesses_threads : ∀ prot ∈ [false, true], ∀ mirror ∈ [false, true], ∀ n ∈ [0, 1], let s := threaded prot mirror n
    Tbl.find s.waves 32 = some threadW ∧ (∀ m ∈ (thread0 prot).mem, threadW.guardOn m.2 = true ∧ (threadW.thread m.2).pc = 0)
      ∧ threadW.pend = Pend.none ∧ s.logPending 32 = false ∧ s.storeQueued 32 = false ∧ s.prot 32 = prot ∧ s.windowFull 7 false = false
      ∧ s.mirrorOn 0 = mirror ∧ s.cutOff 7 = false ∧ LaneReady s (thread0 prot) (100 :: block 127 1) (block 127 1)
      ∧ (∀ r ∈ [100, 127], threadW.vreg 1 r = threadW.vreg 0 r) ∧ laneAddress (threadW.breg 3) (threadW.vreg 0 100).toNat 4 = .at_ 4
      ∧ (∀ right ∈ [Right.write, .atomic], State.recAllows (threadW.breg 3) right = true ∧ s.reach (some 0) 0 0 4 false right = .hbm 0x30004 mirror)
      ∧ s.release 32 .wave = (true, s) ∧ s.poisoned 0x30004 4 = false ∧ (∀ e ∈ s.grids, e.2.snaps = [] ∧ e.2.unreplayable = false
        ∧ s.inSnapArea e.2 3 = false ∧ s.walk e.2.part e.2.asid e.2.lrec.snap = .leaf ⟨0x50000, true, true, true, false, none⟩)
      ∧ s.stale = [] ∧ Memory.wf s.mem = true := by decide +kernel

/-- The scratchpad reads as zero beyond the high-water mark, in whichever space the record names. -/
theorem scratchZeroA (s : State) (w0 : Wave) (k0 : Team) (r0 : LaunchRec) (h1 : Tbl.find s.waves 32 = some w0) (h2 : Tbl.find s.teams w0.team = some k0)
    (h3 : s.lrecOf 32 = some r0) (h4 : k0.start % 256 = 0 ∧ r0.bytes % 256 = 0) (h5 : k0.hwm = r0.bytes ∨ (s.core k0.core).scratch = []) : ScratchZero s 32 := by
  intro w k r hw hk hr
  rw [h1] at hw
  cases hw
  rw [h2] at hk
  cases hk
  rw [h3] at hr
  cases hr
  refine ⟨h4.1, h4.2, fun a ha hb => ?_⟩
  rcases h5 with h | h
  · omega
  · rw [State.scratchByte, h]
    rfl

theorem witness_Stores_scratch : ∀ k ∈ [0, 1, 2, 3], ScratchZero (wideSt k) 32 := by
  intro k hk
  refine scratchZeroA _ (indexed (wide k) 1 wv) bt bootRec ?_ ?_ ?_ ?_ (.inr ?_) <;> (revert k; decide +kernel)

/-- The team of the tile instructions has raised its mark to the end of its allocation. -/
def full : Team := { bt with hwm := bootRec.bytes }
theorem witness_TileInstructions_scratch : let s := { carded 1 .g with teams := [(1, full)] }
    UniIssued s 32 (sv 0x2000) ∧ Tbl.find s.teams 1 = some full ∧ full.tiles[15]? = some 15 ∧ s.waitOver 32 (sv 0x2000) (.tile 15) = true ∧ mstaBad (s.fslotOf 32 3) = false
      ∧ ScratchZero s 32 :=
  ⟨by decide +kernel, by decide +kernel, by decide +kernel, by decide +kernel, by decide +kernel,
    scratchZeroA _ (sv 0x2000) full (cgrid .g).lrec (by decide +kernel) (by decide +kernel) (by decide +kernel) (by decide +kernel) (.inl (by decide +kernel))⟩

/-! ## Traps of lane instructions -/

/-- CALL in a wave with one slab; two results of f in a wave with two, one of them raised by each lane, or written to a live-in register. -/
def narrow : Wave := { wv with slabs := [0] }
def liveW : Wave := { wv with region := some ⟨0, 0, 2 ^ 127, [], []⟩ }
theorem witness_WordsThatDoNotRun_lanes (c : Nat) :
    (LaneStands (mk narrow) grp 32 narrow ∧ LeastRaised (laneRaises grp 32 narrow [126, 127] (fun _ => {})) 0 0x13)
    ∧ (LaneStands (mk wv) grp 32 wv ∧ (c ≠ 0x13 → LeastRaised (laneRaises grp 32 wv [126, 127] (fun _ => .trap c)) 0 c))
    ∧ (LaneStands (mk liveW) grp 32 liveW ∧ LeastRaised (laneRaises grp 32 liveW [127] (fun _ => .ofV [(127, 0)])) 0 0x60) := by
  have lanes : ∀ k, k ∈ grp.lanesOf 32 → 0 ≤ k := fun _ _ => Nat.zero_le _
  refine ⟨⟨by decide +kernel, ⟨by decide, .inl ⟨rfl, 126, by decide, by decide⟩⟩, ?_⟩, ⟨by decide +kernel, fun _ => ⟨⟨by decide, .inr ⟨by decide, .inl rfl⟩⟩, ?_⟩⟩,
    by decide +kernel, ⟨by decide, .inr ⟨by decide, .inr ⟨rfl, rfl, _, List.mem_singleton.mpr rfl, by decide +kernel⟩⟩⟩, ?_⟩
  · rintro k d ⟨_, ⟨rfl, _⟩ | ⟨_, hc | ⟨_, hg, _⟩⟩⟩
    · exact .inr ⟨rfl, Nat.zero_le _⟩
    · cases hc
    · cases hg
  · rintro k d ⟨_, ⟨_, r, hm, hx⟩ | ⟨_, hc | ⟨_, hg, _⟩⟩⟩
    · exact absurd hx (by simp only [List.mem_cons, List.not_mem_nil, or_false] at hm; rcases hm with rfl | rfl <;> decide)
    · cases hc
      exact .inr ⟨rfl, Nat.zero_le _⟩
    · cases hg
  · rintro k d ⟨_, ⟨_, r, hm, hx⟩ | ⟨_, hc | ⟨rfl, _⟩⟩⟩
    · exact absurd hx (by rw [List.mem_singleton.mp hm]; decide)
    · cases hc
    · exact .inr ⟨rfl, Nat.zero_le _⟩

/-- Slot f1 is a codebook, in which no value is converted. -/
theorem witness_WordsThatDoNotRun_slot : LaneStands (slotted [0, 8]) grp 32 wv ∧ fieldOf (BitVec.ofNat 64 ((slotted [0, 8]).fslotOf 32 1)) 3 0 = 8
    ∧ (∀ r : Nat, r < 128 → r < 64 * wv.slabs.length) ∧ 0 ∈ onLanes grp 32 wv ∧ ∀ j ∈ onLanes grp 32 wv, 0 ≤ j := by decide +kernel

/-- What lanes 0 and 1 of a wave outside a region raise at a memory instruction where each goes to the same trap. -/
theorem memRaisesA (s : State) (op : MemOp) (bi o : Nat) (regs : List Nat) (w : Wave) (c : Nat)
    (h : w.guarded = false ∧ (∀ r ∈ regs, r < 64 * w.slabs.length) ∧ (∀ l ∈ [0, 1], w.guardOn l = true ∧ s.laneGo op 32 w bi (w.vreg l o).toNat = .trap c none)) :
    LeastRaised (memRaises s op bi o regs grp 32 w) 0 c := by
  obtain ⟨hg, hr, hl⟩ := h
  refine ⟨⟨by decide, .inr ⟨(hl 0 (by decide)).1, .inl ⟨none, (hl 0 (by decide)).2⟩⟩⟩, ?_⟩
  rintro k d ⟨hk, ⟨_, r, hm, hx⟩ | ⟨_, hx | ⟨hx, _⟩ | ⟨_, hx⟩⟩⟩
  · exact absurd (hr r hm) (Nat.not_lt.mpr hx)
  · obtain ⟨a, ha⟩ := hx
    rw [(hl k (by simpa [grp, Group.lanesOf] using hk)).2] at ha
    cases ha
    exact .inr ⟨rfl, Nat.zero_le _⟩
  · rw [hg] at hx
    cases hx
  · rw [(hl k (by simpa [grp, Group.lanesOf] using hk)).2] at hx
    cases hx

/-- BOUNDS, ALIGN, ACCESS (no such space, no right, outside the allocation, a page that may not be written, a gate callee's b3) and SCOPE. -/
def ldOp (sp : List Nat) (sc : Option Scope) : MemOp := { spaces := sp, right := .read, leaf := .read, width := 4, loads := true, kind := 0, hint := some 0, dst := [127], scope := sc }
def atOp (sc : Scope) : MemOp := { spaces := [0, 1, 2, 3], right := .atomic, leaf := .atomic, width := 4, rmw := true, loads := true, kind := 2, scope := some sc, dst := [127], src := [127], rel := some sc, acq := some sc, atomic := true }
def stOp : MemOp := { spaces := [0, 3], right := .write, leaf := .write, width := 4, kind := 1, hint := some 0, src := [127] }
def recW (b : RecBits) : Wave := indexed b 1 wv
def readOnly (s : State) : State := s.putBytes 0x24000 (natBytes 8 0x30001)

theorem witness_WordsThatDoNotRun_memory :
    (∀ x ∈ ([(rcd 0 0 2 0 0, ldOp [0, 3] none, 0x30), (rcd 1 8 2 0 0, ldOp [0, 3] none, 0x31), (rcd 0 8 2 0 0, ldOp [1] none, 0x32),
        (rcd 0 8 2 0 0 - BitVec.ofNat 128 (7 * 2 ^ 107), stOp, 0x32), (rcd 65536 8 2 1 0, ldOp [1] none, 0x32), (rcd 0 8 2 0 0, stOp, 0x32),
        (rcd 0 8 2 1 0, atOp .device, 0x33)] : List (RecBits × MemOp × Nat)), let s := readOnly (mk (recW x.1))
      LaneStands s grp 32 (recW x.1) ∧ s.prot 32 = false ∧ (recW x.1).pend = Pend.none ∧ x.2.2 ≠ 0x01 ∧ (recW x.1).guarded = false
        ∧ (∀ r ∈ [100, 127], r < 64 * (recW x.1).slabs.length)
        ∧ (∀ l ∈ [0, 1], (recW x.1).guardOn l = true ∧ s.laneGo x.2.1 32 (recW x.1) 3 ((recW x.1).vreg l 100).toNat = .trap x.2.2 none)) := by decide +kernel

/-- An atomic on a place that it may reach, of a wave in a region: 0x61 in lane 0. -/
theorem witness_WordsThatDoNotRun_region : let s := mk (indexed (rcd 0 8 2 0 0) 1 regioned); let w := indexed (rcd 0 8 2 0 0) 1 regioned
    LaneStands s grp 32 w ∧ s.prot 32 = false ∧ w.pend.quiet ∧ LeastRaised (memRaises s (atOp .device) 3 100 [100, 127] grp 32 w) 0 0x61 := by
  have p : ∀ l, l ∈ grp.lanesOf 32 → (mk (indexed (rcd 0 8 2 0 0) 1 regioned)).laneGo (atOp .device) 32 (indexed (rcd 0 8 2 0 0) 1 regioned) 3
      ((indexed (rcd 0 8 2 0 0) 1 regioned).vreg l 100).toNat = .hbm (4 * l) (0x30000 + 4 * l) false := by decide +kernel
  have q : ∀ pa, (mk (indexed (rcd 0 8 2 0 0) 1 regioned)).poisoned pa 4 = false := fun _ => rfl
  refine ⟨by decide +kernel, by decide +kernel, rfl, ⟨⟨by decide, .inr ⟨by decide +kernel, .inr (.inl ⟨rfl, .inr ⟨rfl, rfl⟩⟩)⟩⟩, ?_⟩⟩
  rintro k d ⟨hk, ⟨_, r, hm, hx⟩ | ⟨_, ⟨a, ha⟩ | ⟨_, ⟨_, r, hr, hl⟩ | ⟨rfl, _⟩⟩ | ⟨_, hx⟩⟩⟩
  · exact absurd hx (by simp only [List.mem_cons, List.not_mem_nil, or_false] at hm; rcases hm with rfl | rfl <;> decide)
  · rw [p k hk] at ha
    cases ha
  · rw [List.mem_singleton.mp hr] at hl
    cases hl
  · exact .inr ⟨rfl, Nat.zero_le _⟩
  · rw [p k hk] at hx
    simp only [State.readsPoison, show (atOp Scope.device).width = 4 from rfl, q] at hx
    cases hx

/-- A gate callee names a record of scratch that it did not get; strong loads at device scope through a page of the host window and of the peer space. -/
theorem witness_WordsThatDoNotRun_places :
    (let w := called (recW (rcd 0 8 2 1 0));
      laneAddress (rcd 0 8 2 1 0) 0 4 = .at_ 0 ∧ ¬ (State.recAllows (rcd 0 8 2 1 0) .read = true ∧ (w.gates = [] ∨ 3 < 2 ∨ Rcd.space (rcd 0 8 2 1 0) = 0 ∨ Rcd.space (rcd 0 8 2 1 0) = 3)))
    ∧ laneAddress (rcd 0 8 2 0 1) 8 4 = .dropped
    ∧ (ldOp [0, 3] (some .device)).noHost = false ∧ Scope.device.code < 5
    ∧ ((paged 2).reach (some 0) 0 (State.asidOf (pw 2) ((pw 2).breg 3)) 0x20004 false .read = .host 4 ∧ Rcd.space ((pw 2).breg 3) = 0) := by decide +kernel

/-- Lane 0 and lane 1 raise a flag whose trap is enabled. -/
def armedW : Wave := { wv with fmode := 0x0000FF00 &&& 0x1F00 }
theorem witness_FloatOperations_arith : LaneReady (mk armedW) grp (List.range 128) (List.range 128) ∧ grp.waves = [32] ∧ (grp.lanesOf 32).Pairwise (· < ·)
    ∧ Tbl.find (mk armedW).waves 32 = some armedW ∧ 0 ∈ onLanes grp 32 armedW ∧ flagsTrap armedW.fmode flInexact = true ∧ (∀ k ∈ onLanes grp 32 armedW, 0 ≤ k) := by
  decide +kernel

/-- 3 is a value of E2M1; 5 lies halfway between 4 and 6, 9 / 2 below that; 7 is beyond the largest. -/
theorem witness_FloatOperations_round : let f := FFmt.e2m1
    let value := fun (y : Nat) => if y < 2 ^ f.mb then (y, f.emin - f.mb) else (2 ^ f.mb + y % 2 ^ f.mb, (y / 2 ^ f.mb : Nat) - (f.bias : Int) - f.mb)
    let units := fun (u : Int) (x : Nat × Int) => x.1 * 2 ^ (x.2 - u).toNat
    f.maxBits = 7 ∧ units 0 (value 5) = units 0 (3, 0) ∧ (value 6).2 = 1 ∧ units 0 (value 6) = 4 ∧ units 0 (value 7) = 6 ∧ units 0 (value 8) = 8
      ∧ (4 < 5 ∧ 5 < 6 ∧ 4 + 6 = 2 * 5 ∧ 6 % 2 ≠ 1) ∧ (6 < 7 ∧ 7 < 8) ∧ 8 ≤ 9 := by decide +kernel
/-- Values in order, equal and not comparable; a number and its root, in F32; 0, ±1, 3, 1/2, 3/2, infinities and NaNs as operands; 8 as a power of two. -/
theorem witness_FloatOperations_order : (∀ a ∈ [FVal.fin false 0 0, .fin true 0 0, .inf true, .fin false 3 (-1)], a.isNan = false)
    ∧ FVal.Below (.inf true) (.fin true 1 0) ∧ FVal.Below (.fin true 1 0) (.fin false 0 0) ∧ ¬ FVal.Below (.fin true 0 0) (.fin false 0 0)
    ∧ ¬ FVal.Below (.fin false 0 0) (.fin true 0 0) ∧ (FVal.nan true).isNan = true ∧ (FVal.nan true).snan = true ∧ (FVal.nan false).snan = false
    ∧ (let f := FFmt.f32; f.decode 0x80000000 = .fin true 0 (-149) ∧ (f.decode 0).isNeg ≠ (f.decode 0x80000000).isNeg ∧ (f.decode 0x7FC00000).isNan = true
      ∧ (f.decode 0x3F800000).isNan = false ∧ f.decode 0x7F800000 = .inf false ∧ f.decode 0x7F800001 = .nan true) := by
  refine ⟨by decide +kernel, by simp [FVal.Below], by simp [FVal.Below], by simp [FVal.Below, DyLess], by simp [FVal.Below], by decide +kernel, by decide +kernel, by decide +kernel, by decide +kernel⟩
theorem witness_FloatOperations_unary : (let f := FFmt.f32
      3 ≤ f.maxBits ∧ f.magnitude 0x3F800000 = (2 ^ 23, -23) ∧ DySame (2 ^ 23 * 2 ^ 23) (2 * (-23)) 1 0 ∧ DySame (2 ^ 23 * 1) (-23 + 0) 1 0
        ∧ DyLess (2 ^ 23 * 3) (-25 + 0) 1 0 ∧ (f.decode 0x40400000) = .fin false (3 * 2 ^ 22) (-22))
    ∧ (3 * 2 ^ 22 * 2 ^ (-22 : Int).toNat = 3 * 2 ^ (22 : Int).toNat ∧ 3 < 2 ^ 14)
    ∧ (∀ k ∈ [0, 1], 2 * ((2 * k + 1) * 2 ^ (-1 : Int).toNat) = (2 * k + 1) * 2 ^ (1 : Int).toNat)
    ∧ (∀ m ∈ [Rnd.rne, .rd, .ru], ∃ q ∈ [(5, 2), (3, 2), (1, 2)], (m = .rne → 2 < 2 * (q.1 % q.2) ∨ (2 = 2 * (q.1 % q.2) ∧ q.1 / q.2 % 2 = 1)) ∧ q.1 % q.2 ≠ 0) := by
  simp only [DySame, DyLess]
  decide +kernel
theorem witness_FloatOperations_sums : ((1 : Int) + 2 ≠ 0) ∧ (FVal.fin false 1 0).isNan = false := by decide

/-! ## Clauses on relocks, halts and what is away -/

/-- The device is halted. -/
def haltedSt (s : State) : State := { s with pkg := { s.pkg with halted := true } }

theorem witness_WaveControl_held : (dom 1 (iced false)).running = true ∧ (dom 1 (iced false)).asleep 0 = false
    ∧ (haltedSt (dom 1 (iced false))).running = false ∧ ((relocking (dom 1 (iced false))).running = true ∧ (relocking (dom 1 (iced false))).asleep 0 = true) := by decide +kernel

/-- Lines 0 and 128, of which the first is pinned by another grid; ways 0 and 1 for the class; nothing in the L2. -/
def waysSt : State := { st0 with parts := [(0, { bootPart with l2ways := 0x300030003 })] }
def pinnedSt : State := waysSt.updCore 0 (fun k => { k with icache := [⟨0, 0, 0, 0x30000, waysSt.bytesAt 0x30000 128, [9]⟩] })

theorem witness_InstructionPinning_lines : ∀ s ∈ [waysSt, pinnedSt],
    UniIssued s 32 wv ∧ linesFrom (wv.sreg 5).toNat 2 = [0, 128] ∧ s.fetchPa 0 0 0 0 = some 0x30000 ∧ s.fetchPa 0 0 0 128 = some 0x30080
      ∧ s.poisoned 0x30000 1 = false ∧ s.poisoned 0x30080 1 = false ∧ (s.core 0).icache.length + 1 + 1 ≤ 512
      ∧ ((s.core 0).icache.map (fun x => (x.part, x.asid, x.line, x.pa))).Nodup ∧ (s.core 0).pinnedLines + 1 < 256
      ∧ (∀ q ∈ linesFrom 0 2, q ≠ 128 → ∀ b, s.fetchPa 0 0 0 q = some b → State.sameSet (b / 128) (0x30080 / 128) = false)
      ∧ bitOf (s.classWays 0 (s.clsOf 32) 0x30080) 1 = true ∧ s.l2 = [] ∧ s.l2pins = [] := by
  intro s hs
  simp only [List.mem_cons, List.not_mem_nil, or_false] at hs
  refine ⟨?_, ?_, ?_, ?_, ?_, ?_, ?_, ?_, ?_, ?_, ?_, ?_, ?_⟩
  case refine_10 =>
    intro q hq hne b hb
    have e : q = 0 := by
      obtain ⟨⟨a, h1, h2⟩, _⟩ : (∃ a ≤ 1, a * 128 = q) ∧ q < 4503599627370496 := by simpa [linesFrom] using hq
      omega
    subst e
    have : s.fetchPa 0 0 0 0 = some 0x30000 := by rcases hs with rfl | rfl <;> decide +kernel
    rw [this] at hb
    cases hb
    decide +kernel
  all_goals rcases hs with rfl | rfl <;> decide +kernel

/-- So many lines are pinned by grid 9, none of which the range names. -/
def pinnedLine (i : Nat) : ILine := ⟨0, 0, i + 10, 0x40000 + 128 * i, [], [9]⟩
def pinsSt (n : Nat) : State := waysSt.updCore 0 (fun k => { k with icache := (List.range n).map pinnedLine })

/-- One line more may be pinned, and then 256 are; the second line of the range finds no room for a pin; a cache of 512 lines has one that is not pinned. -/
theorem witness_InstructionPinning_limit : ((pinsSt 255).core 0).pinnedLines + 0 < 256 ∧ ¬ ((pinsSt 255).core 0).pinnedLines + 1 < 256
    ∧ ((pinsSt 256).core 0).pinnedLines = 256 ∧ (∀ n ∈ [255, 256], UniIssued (pinsSt n) 32 wv ∧ (pinsSt n).fetchPa 0 0 0 0 = some 0x30000 ∧ (pinsSt n).poisoned 0x30000 1 = false)
    ∧ (linesFrom (wv.sreg 5).toNat 2)[0]? = some 0 ∧ (linesFrom (wv.sreg 5).toNat 2)[1]? = some 128
    ∧ (let s := waysSt.updCore 0 (fun k => { k with icache := { pinnedLine 0 with pins := [] } :: (List.range 511).map (fun i => pinnedLine (i + 1)) })
      (s.core 0).icache.length = 512 ∧ ∃ x ∈ (s.core 0).icache, x.pins = []) := by
  refine ⟨by decide +kernel, by decide +kernel, by decide +kernel, by decide +kernel, by decide +kernel, by decide +kernel, by decide +kernel,
    { pinnedLine 0 with pins := [] }, ?_, rfl⟩
  exact List.mem_cons_self
theorem witness_InstructionPinning_apart (n : Nat) : (((pinsSt n).core 0).icache.map (fun x => (x.part, x.asid, x.line, x.pa))).Nodup := by
  have e : ((pinsSt n).core 0).icache = (List.range n).map pinnedLine := rfl
  rw [e, List.map_map]
  exact List.nodup_range.map (fun a b h => by simpa [pinnedLine] using h)

/-- The two ways of the class hold lines of the set: the first one pinned by grid 9, the second one not, or pinned too, by another line or by the same one. -/
def waySt (pins : List (Nat × Nat)) : State :=
  { waysSt with l2 := [⟨0, 0, none, 0x30080 / 128 + 49152, false, false⟩, ⟨0, 1, none, 0x30080 / 128 + 2 * 49152, false, false⟩], l2pins := pins }

theorem witness_InstructionPinning_ways : ∀ pins ∈ [[], [(9, 0x30080 / 128 + 49152)]], let s := waySt pins
    UniIssued s 32 wv ∧ s.fetchPa 0 0 0 128 = some 0x30080 ∧ bitOf (s.classWays 0 (s.clsOf 32) 0x30080) 1 = true ∧ linesFrom (wv.sreg 5).toNat 2 = [0, 128]
      ∧ s.fetchPa 0 0 0 0 = some 0x30000 ∧ State.sameSet (0x30000 / 128) (0x30080 / 128) = false
      ∧ (∀ x ∈ s.l2, x.die = homeDie 0x30080 ∧ State.sameSet x.line (0x30080 / 128) = true ∧ (x.way = 1 → x.chip = none ∧ ∀ e ∈ s.l2pins, e.2 ≠ x.line))
      ∧ (∀ x ∈ s.l2, x.die = homeDie 0x30080 → x.chip = none → x.line = 0x30080 / 128 → bitOf (s.classWays 0 (s.clsOf 32) 0x30080) x.way = true)
      ∧ (∀ e ∈ s.l2pins, e.2 = 0x30080 / 128 + 49152) := by decide +kernel

/-- A call whose frame lies at virtual address 0, made by a wave with a hidden register of each kind and kept there; the callee is about to return. -/
def caller : Wave := { wv with s := [(20, 7)], b := [(3, 5)], p := [(9, true)], v := [(100, 3)] }
def callSt : State := { mk (called caller) with cur := some { grp with pc := 0x2000 } }
def headOf (w : Wave) : Option Gate := w.gates.head?

theorem witness_GateRoundTrip_saved :
    (Tbl.find callSt.waves 32 = some (called caller)
      ∧ (headOf (called caller)).map (fun f => (callSt.framePlace (callSt.partOf 32) f.fasid (f.frame + 0x4000),
          (callSt.toGateFrame 32 f.fasid (f.frame + 0x4000) f.hiddenBytes).framePlace 0 f.fasid (f.frame + 0x5000), f.guards.length))
        = some (some (0x34000, false), some (0x35000, false), 32))
    ∧ ((Tbl.find callSt.grids (callSt.gridIdOf 32)).bind (fun g => Tbl.find callSt.grids g.root)).map (fun g => g.lrec.replay) ≠ some true
    ∧ (let s := callSt.saveCall 32
      UniIssued s 32 (called caller) ∧ (called caller).guarded = false ∧ (called caller).refill = [] ∧ s.framePlace (s.partOf 32) 0 (0 + 0x4000) = some (0x34000, false)
        ∧ (caller.at_ < 2 ^ 64 ∧ caller.domain < 256 ∧ caller.asid < 4096 ∧ caller.threads.length ≤ 32)
        ∧ (headOf (called caller)).map (fun f => (decide (s.bytesAt 0x34000 f.hiddenBytes.length = f.hiddenBytes),
          decide (s.bytesAt 0x35000 (f.callBytes 0).length = f.callBytes 0), f.hiddenBytes.getD 32 0)) = some (true, true, 7)
        ∧ (called caller).gates = ((caller.pushGate 0 1 0 gate).gates).modifyHead (fun f => { f with
          owned := [], v := f.v.filter (fun c => !([] : List (Nat × Bool)).contains (c.1 % 128 / 64, true)), budget := caller.budget, abort_ := caller.abortAt })) := by
  refine ⟨by decide +kernel, by decide +kernel, by decide +kernel⟩

theorem witness_Barriers_news : (let w : Wave := { wv with park := .cbar, cbarAt := [⟨cbarKey 0 0 15, 0, 0, 0⟩] }
    let s := mk w
    s.asleep (s.coreOf 32) = false ∧ (relocking s).asleep ((relocking s).coreOf 32) = true ∧ Tbl.find s.waves 32 = some w ∧ w.lvl = 0
      ∧ (∃ m ∈ w.cbarAt, m.key = cbarKey 0 0 15 ∧ m.phase = 0) ∧ (⟨cbarKey 0 0 15, 0, w.at_, w.lvl⟩ : CbarMark) ∈ w.cbarAt
      ∧ UniIssued (mk { w with park := .no }) 32 { w with park := .no } ∧ (⟨cbarKey 0 0 14, 0, w.at_, w.lvl⟩ : CbarMark) ∉ w.cbarAt) := by
  decide +kernel

theorem witness_FencesYieldSleep_rows : (∀ till ∈ [0, 1], (mk (asleep till)).running = true ∧ (mk (asleep till)).asleep 0 = false
      ∧ (relocking (mk (asleep till))).running = true ∧ (relocking (mk (asleep till))).asleep 0 = true ∧ (relocking (mk (asleep till))).waveAt 0 0 = some (32, asleep till))
    ∧ (haltedSt (mk (asleep 0))).running = false := by decide +kernel

/-- The core of the waiting wave relocks; the device is halted. -/
theorem witness_TranslationControl_held : (let s := relocking (mk waits3)
      s.asleep (s.coreOf 32) = true ∧ Tbl.find s.waves 32 = some waits3 ∧ s.pkg.halted = false ∧ (Tbl.find s.teams waits3.team).map (fun k => decide (k.loc ≠ .saved)) = some true)
    ∧ (haltedSt (mk waits3)).pkg.halted = true ∧ ((haltedSt (mk waits3)).part 0).present = true := by decide +kernel

/-- The slice ended in this core cycle, whose other turns are still to come, or one cycle ago; a team has a yield request. -/
theorem witness_SlicesAndMoves_cycle : ∀ t ∈ [9, 10], let s := { sliced id with reft := t, teams := [(1, { bt with yieldBy := some 9 })] }
    (s.part 0).present = true ∧ (s.part 0).stopped = false ∧ (s.part 0).slice.switching = false ∧ s.running = true ∧ (s.part 0).slice.cur = some 0
      ∧ (s.part 0).slice.stop ≤ s.reft ∧ (0 ∈ s.clustersOf 0 ∧ s.outgoing 0 0 0 = [(1, { bt with yieldBy := some 9 })] ∧ (s.hob (hobOf 0)).relockEnd = none
        ∧ ((s.reft - (s.part 0).slice.stop) * (6 + (s.hob (hobOf 0)).step) ≤ (s.hob (hobOf 0)).phase ↔ t = 9)) := by decide +kernel

/-- Plane 1 does not train: it is not live, not fenced and not down; the other planes are live, or none; a MARKER of an earlier run is out; the chip joins
with one port or with none. -/
theorem witness_FabricQuiesce_dead :
    (∀ l ∈ [(0 : BitVec 8), 1], ∀ m ∈ [false, true], let s := masterSt (fun d => { d with live := l, masterAct := m }) id
      s.joined = true ∧ s.dev.live.getLsbD 1 = false ∧ s.dev.fencedPlanes.getLsbD 1 = false ∧ s.fab.downPlanes.getLsbD 1 = false ∧ s.fab.phase = 0
        ∧ (s.dev.live &&& ~~~BitVec.ofNat 8 (2 ^ 1) = 0 ↔ l = 0) ∧ s.dev.masterAct = m) := by decide +kernel
theorem witness_FabricQuiesce_untrained : (∀ trained ∈ [(0 : BitVec 8), 1], st0.fabEnabled = false ∧ (0x80000000 : Word).getLsbD 31 = true ∧ trained.getLsbD 1 = false ∧ st0.fab.phase = 0
      ∧ st0.dev.fencedPlanes.getLsbD 1 = false ∧ st0.fab.downPlanes.getLsbD 1 = false)
    ∧ fieldOf (0x80000000 : Word) 20 11 = fieldOf (0x80000000 : Word) 9 0 ∧ fieldOf (0x80003800 : Word) 20 11 ≠ fieldOf (0x80003800 : Word) 9 0 := by decide +kernel

theorem witness_FabricQuiesce_last : (let s := masterSt (fun d => { d with qstate := 1 }) (fun f => { f with markers := [⟨1, 7, 0, 0, .g, 0, 32, 0⟩] })
      s.dev.qstate = 1 ∧ s.fab.fencing = false ∧ s.fab.waitAcks = [] ∧ s.fab.markers.length = 1 ∧ s.livePlanes ≠ [])
    ∧ (let s := masterSt (fun d => { d with fabMapGen := 5 }) id
      5 ≤ s.dev.fabMapGen.toNat + 1 ∧ s.dev.qstate = 0 ∧ s.dev.live &&& ~~~(3 : BitVec 8) = 0) := by decide +kernel

/-- A tag outside the window, one that is busy, a card at no multiple of 64; the ports of a group over Ethernet. -/
def off1 (cls : Cls) : State := { carded 1 cls with waves := [(32, sv 0x2001)] }
theorem witness_EngineIssue_order :
    (UniIssued { mk (sv 0x2000) with grids := [(1, few)] } 32 (sv 0x2000) ∧ ¬ (few.lrec.tagBase ≤ 63 ∧ 63 < few.lrec.tagBase + few.lrec.tagCount))
    ∧ (∀ k ∈ [1, 2, 3, 4, 5], (carded k .g).scratchPoisoned 0 (0 + 0x2000) 64 = false ∧ (carded k .g).eth.down.length ≠ 2)
    ∧ UniIssued (tagged .busy 0 (sv 0x2000)) 32 (sv 0x2000)
    ∧ (∀ c ∈ [Cls.g, .h], UniIssued (off1 c) 32 (sv 0x2001) ∧ fieldOf ((sv 0x2001).sreg 5) 18 0 % 64 ≠ 0 ∧ fieldOf ((sv 0x2001).sreg 5) 18 0 + 64 ≤ bootRec.bytes
      ∧ (off1 c).scratchPoisoned 0 (0 + 0x2001) 64 = false ∧ (off1 c).tagOf 1 5 ≠ .busy ∧ (sv 0x2001).gates = []) := by decide +kernel

theorem witness_TileInstructions_stands : (carded 1 .g).upset 32 = false ∧ 15 ∉ bt.gone ∧ (carded 1 .g).rowsPoison 32 (sv 0x2000) ((sv 0x2000).sreg 5) 64 16 = none
    ∧ (∀ k ∈ [1, 2], (mk (watch k .no)).scratchPoisoned 0 0 8 = false) := by decide +kernel

theorem witness_SchedulesAndRounds_held : (rounds 1).running = true ∧ (rounds 1).asleep ((rounds 1).coreOf 32) = false
    ∧ ((relocking (rounds 1)).running = true ∧ (relocking (rounds 1)).asleep ((relocking (rounds 1)).coreOf 32) = true) := by decide +kernel

/-- A record of no teams whose completion word has device scope. -/
def lrecDev : State := (lrecNone 0x2000).putBytes 0x3001C (natBytes 4 (4 * 64))
theorem witness_ChildGrids_scope : let s := lrecDev
    UniReady s 32 wv [63] [] [] ∧ s.launchOk (recOf s) 0 0 none = true ∧ (LaunchRec.ofBytes (recOf s)).teams = 0 ∧ (LaunchRec.ofBytes (recOf s)).cword ≠ 0
      ∧ (LaunchRec.ofBytes (recOf s)).cscope ≠ 5 ∧ s.release 32 .device = (true, s) := by decide +kernel

/-- Copies and steps whose operands hold no poison, of a launch without REPLAY, over a scratchpad that reads as zero. -/
theorem witness_JobProgress_bytes : (∀ k ∈ [1, 2], (kjob k 0).acked = (kjob k 0).pos ∧ (Tbl.find (kst k 0).teams 1).map (fun t => (t.hwm, t.start, (cgrid .g).lrec.bytes % 256)) = some (0, 0, 0)
      ∧ (((kjob k 0).grid.bind (Tbl.find (kst k 0).grids)).bind (fun g => Tbl.find (kst k 0).grids g.root)).map (fun g => g.lrec.replay) ≠ some true)
    ∧ (∀ k ∈ [3, 4], (kst k 0).stepPoison (kjob k 0) 32 0 0 1 1 = false ∧ (Tbl.find (kst k 0).teams 1).map (fun t => (t.gone, t.tileSave.isNone)) = some ([], true)) := by
  decide +kernel

theorem witness_RoundsAndEthernet_held : (∀ p ∈ State.areaPieces ((Card.region (cardK 5) 0).area 1),
      (kst 5 0).goPoisoned p.n ((kst 5 0).jobGo (kjob 5 0) ((Card.region (cardK 5) 0).area 1).space p.src .read) = false)
    ∧ (hobbed 600 (fun h => { h with relockEnd := some 600 })).claims = [] ∧ (journaled .prepared 5 State.reset).kettle.fenced = [] := by decide +kernel

theorem witness_FabricQuiesce_quiet : (let s := masterSt (fun d => { d with qstate := 1 }) (fun f => { f with unacked := [wreq (fun u => { u with held := true })] })
    s.fab.leases = [] ∧ s.fab.reads = []) := by decide +kernel

/-- The team of a copy job has raised its mark to the end of its allocation. -/
def fullSt (k : Nat) : State := { kst k 0 with teams := [(1, full)] }
theorem witness_JobProgress_zero : ∀ k ∈ [1, 2], TeamZero (fullSt k) 1 ∧ Tbl.find (fullSt k).teams 1 = some full := by
  have e : ∀ k ∈ [1, 2], Tbl.find (fullSt k).grids full.grid = some (cgrid .g) := by decide +kernel
  intro k hk
  refine ⟨?_, rfl⟩
  intro x g h1 h2
  cases h1
  rw [e k hk] at h2
  cases h2
  exact ⟨by decide, by decide, fun a ha hb => absurd (Nat.lt_of_lt_of_le hb ha) (Nat.lt_irrefl _)⟩

/-- Slab 0 of wave 33 of G is to be copied for the H wave 32 that has come to hold it; it has been copied, and comes home. -/
def takerW : Wave := { wv with slabs := [0], hown := [0] }
def ownerW : Wave := { wv with w := 2, slot := 1, slabs := [0] }
def spillSt (x : Spill) (a : List Nat) : State := { spilling x takerW with waves := [(32, takerW), (33, { ownerW with away := a })] }
theorem witness_PlacementAndLending_slabs :
    (let s := spillSt (.slab 32 0) [];
      (s.core 0).spills.find? (fun e => e.1 == 0) = some (0, .slab 32 0) ∧ s.running = true ∧ s.asleep 0 = false ∧ takerW.slabs[0]? = some 0
      ∧ s.occupant (s.placeOf takerW).1 takerW.side 0 = some (33, ownerW) ∧ Tbl.find s.teams ownerW.team = some bt ∧ s.gridOf bt = some bootGrid
      ∧ s.framePa 0 0 0 + State.slabAway takerW.side 0 + 8192 ≤ hbmEnd ∧ Tbl.find s.waves 33 = some ownerW)
    ∧ (let s := spillSt (.home 33 0) [0];
      (s.core 0).spills.find? (fun e => e.1 == 0) = some (0, .home 33 0) ∧ Tbl.find s.waves 33 = some { ownerW with away := [0] } ∧ Tbl.find s.teams ownerW.team = some bt
        ∧ s.gridOf bt = some bootGrid) := by decide +kernel

/-- Where the mirror's partner is cut off, a duplicate that waits for its answer holds a release of Whisk back. -/
def owed : State := { overSt id with fab := { (overSt id).fab with mirrorWait := [(0, 7, 2 ^ 32, 0)] } }
theorem witness_GraphNodes_mirror : ¬ (fieldOf (owed.part 0).mirror 30 30 = 1 ∨ ∀ m ∈ owed.fab.mirrorWait, m.1 = 0 → m.2.2.1 ≠ 2 ^ 32) := by decide +kernel

/-- The wave is alone at its instruction; another wave of the group counts with it. -/
theorem witness_WindowAccesses_issue : ∀ x ∈ (peered leased0 peerW).waves, (peered leased0 peerW).sameIssue 32 peerW x = true → x = (32, peerW) := by decide +kernel

end Sys2Proof.Tests
end

section
/-!
SUPPORT. Every step keeps the canonical form of the memories (O6). `MemForm` speaks of HBM, the host's memory, the mailbox's buffer and
the scratchpads only, so most operations keep it because they change none of these (`MemForm.frame`, `MemForm.updCoreFrame`); the few that
write a memory go through `Memory.put`, `Memory.write` and `Memory.clear`, which keep the form (`Memory.wf_put` and its like). There is one
rule for each operation, in the order of the model, and its proof has the shape of the operation: a composition of operations is the chain
of their rules, a branch is `ite` or `split`, a loop is `foldl`. `OptForm`, `UniForm` and `OutForm` say the same of a state that may be
missing, of the answer of a uniform instruction, and of an outcome.
-/

namespace Sys2Proof.Machine

/- Elaborated one after another: at one thread for each of so many short theorems, the stacks together would pass the memory limit. -/
set_option Elab.async false

variable {s : State}

/-- The scratchpad of a core has its canonical form. -/
def CoreForm (k : Core) : Prop := Memory.wf k.scratch = true

/-- A state that may not be there has memories in their canonical form where it is. -/
inductive OptForm : Option State → Prop
  | none : OptForm none
  | some {s : State} (h : MemForm s) : OptForm (some s)

/-- Every state that a uniform instruction answers has memories in their canonical form. -/
inductive UniForm : UniRes → Prop
  | done {s : State} (h : MemForm s) : UniForm (.done s)
  | placed {s : State} (h : MemForm s) : UniForm (.placed s)
  | stay {s : State} (h : MemForm s) : UniForm (.stay s)
  | trap {code : Nat} {faddr : Option Nat} : UniForm (.trap code faddr)

/-- The next state of an outcome, if it is one, has memories in their canonical form. -/
inductive OutForm : Host.Outcome State Fault Refusal → Prop
  | next {s : State} (h : MemForm s) : OutForm (.next s)
  | fault {r : Fault} : OutForm (.fault r)
  | refused {r : Refusal} : OutForm (.refused r)

theorem OutForm.of_next {o : Host.Outcome State Fault Refusal} {t : State} (h : OutForm o) (e : o = .next t) : MemForm t := by
  subst e
  cases h
  assumption

/-! ## Branches, folds and frames -/

theorem MemForm.ite {c : Prop} [Decidable c] {a b : State} (ha : MemForm a) (hb : MemForm b) : MemForm (if c then a else b) := by
  split <;> assumption

theorem OptForm.ite {c : Prop} [Decidable c] {a b : Option State} (ha : OptForm a) (hb : OptForm b) : OptForm (if c then a else b) := by
  split <;> assumption

theorem UniForm.ite {c : Prop} [Decidable c] {a b : UniRes} (ha : UniForm a) (hb : UniForm b) : UniForm (if c then a else b) := by
  split <;> assumption

theorem OutForm.ite {c : Prop} [Decidable c] {a b : Host.Outcome State Fault Refusal} (ha : OutForm a) (hb : OutForm b) :
    OutForm (if c then a else b) := by
  split <;> assumption

theorem CoreForm.ite {c : Prop} [Decidable c] {a b : Core} (ha : CoreForm a) (hb : CoreForm b) : CoreForm (if c then a else b) := by
  split <;> assumption

/-- A fold whose steps keep the form of a core keeps it. -/
theorem CoreForm.foldl {α : Type} {f : Core → α → Core} {l : List α} {k : Core} (h : CoreForm k)
    (hf : ∀ k a, CoreForm k → CoreForm (f k a)) : CoreForm (l.foldl f k) := by
  induction l generalizing k with
  | nil => exact h
  | cons a l ih => exact ih (hf k a h)

theorem MemForm.getD_map {α : Type} {o : Option α} {f : α → State} (h : MemForm s) (hf : ∀ a, MemForm (f a)) :
    MemForm ((o.map f).getD s) := by
  cases o with
  | none => exact h
  | some a => exact hf a

theorem MemForm.fst {α : Type} {a : α} (h : MemForm s) : MemForm (s, a).1 := h

theorem MemForm.snd {α : Type} {a : α} (h : MemForm s) : MemForm (a, s).2 := h

theorem MemForm.of_snd {α : Type} {p : α × State} {t : State} {a : α} (h : MemForm p.2) (e : p = (a, t)) : MemForm t := by
  subst e
  exact h

theorem OptForm.map {α : Type} {o : Option α} {f : α → State} (hf : ∀ a, MemForm (f a)) : OptForm (o.map f) := by
  cases o with
  | none => exact .none
  | some a => exact .some (hf a)

theorem OptForm.bind {α : Type} {o : Option α} {f : α → Option State} (hf : ∀ a, OptForm (f a)) : OptForm (o.bind f) := by
  cases o with
  | none => exact .none
  | some a => exact hf a

/-- The first state of a list, where each that is there has the form. -/
theorem OptForm.first_cons {o : Option State} {l : List (Option State)} (ho : OptForm o) (hl : OptForm (l.findSome? id)) :
    OptForm ((o :: l).findSome? id) := by
  cases o with
  | none => exact hl
  | some s => exact ho

theorem OptForm.of_some {o : Option State} {t : State} (h : OptForm o) (e : o = Option.some t) : MemForm t := by
  subst e
  cases h
  assumption

/-- A fold whose steps keep the form keeps it. -/
theorem MemForm.foldl {α : Type} {f : State → α → State} {l : List α} (h : MemForm s)
    (hf : ∀ s a, MemForm s → MemForm (f s a)) : MemForm (l.foldl f s) := by
  induction l generalizing s with
  | nil => exact h
  | cons a l ih => exact ih (hf s a h)

/-- A fold over states with something beside them. -/
theorem MemForm.foldl_fst {α β : Type} {f : State × β → α → State × β} {l : List α} {r : State × β} (h : MemForm r.1)
    (hf : ∀ r a, MemForm r.1 → MemForm (f r a).1) : MemForm (l.foldl f r).1 := by
  induction l generalizing r with
  | nil => exact h
  | cons a l ih => exact ih (hf r a h)

/-- A change of anything but the memories keeps their form. -/
theorem MemForm.frame {t : State} (h : MemForm s) (mem : t.mem = s.mem := by rfl) (host : t.hostMem = s.hostMem := by rfl)
    (buffer : t.mbox.buf = s.mbox.buf := by rfl) (cores : t.cores = s.cores := by rfl) : MemForm t :=
  ⟨mem ▸ h.hbm, host ▸ h.host, buffer ▸ h.buffer, cores ▸ h.scratch⟩

/-- A change of HBM, and of anything that is no memory. -/
theorem MemForm.ofHbm {t : State} (h : MemForm s) (hbm : Memory.wf t.mem = true) (host : t.hostMem = s.hostMem := by rfl)
    (buffer : t.mbox.buf = s.mbox.buf := by rfl) (cores : t.cores = s.cores := by rfl) : MemForm t :=
  ⟨hbm, host ▸ h.host, buffer ▸ h.buffer, cores ▸ h.scratch⟩

/-- A change of the mailbox's buffer, and of anything that is no memory. -/
theorem MemForm.ofBuffer {t : State} (h : MemForm s) (buffer : Memory.wf t.mbox.buf = true) (mem : t.mem = s.mem := by rfl)
    (host : t.hostMem = s.hostMem := by rfl) (cores : t.cores = s.cores := by rfl) : MemForm t :=
  ⟨mem ▸ h.hbm, host ▸ h.host, buffer, cores ▸ h.scratch⟩

/-- A change of every core that is listed, and of anything that is no memory. -/
theorem MemForm.mapCores {t : State} {f : Core → Core} (h : MemForm s) (hf : ∀ k, CoreForm k → CoreForm (f k))
    (mem : t.mem = s.mem := by rfl) (host : t.hostMem = s.hostMem := by rfl) (buffer : t.mbox.buf = s.mbox.buf := by rfl)
    (cores : t.cores = s.cores.map (fun e => (e.1, f e.2)) := by rfl) : MemForm t := by
  refine ⟨mem ▸ h.hbm, host ▸ h.host, buffer ▸ h.buffer, fun e he => ?_⟩
  rw [cores] at he
  obtain ⟨x, hx, rfl⟩ := List.mem_map.1 he
  exact hf x.2 (h.scratch x hx)

/-- Bytes put one by one keep the canonical form of a memory. -/
theorem Memory.wf_foldl_put {l m : List Host.Cell} (h : Memory.wf m = true) :
    Memory.wf (l.foldl (fun m e => Memory.put m e.1 e.2) m) = true := by
  induction l generalizing m with
  | nil => exact h
  | cons e l ih => exact ih (Memory.wf_put m e.1 e.2 h)

theorem Tbl.mem_of_find {α : Type} {t : Tbl α} {k : Nat} {v : α} (h : Tbl.find t k = some v) : ∃ j, (j, v) ∈ t := by
  induction t with
  | nil => cases h
  | cons e t ih =>
    obtain ⟨i, x⟩ := e
    rw [Tbl.find] at h
    split at h
    · cases h
      exact ⟨i, .head _⟩
    · obtain ⟨j, hj⟩ := ih h
      exact ⟨j, .tail _ hj⟩

theorem coreForm_reset : CoreForm Core.reset := rfl

theorem memForm_reset : MemForm State.reset := ⟨rfl, rfl, rfl, fun _ he => nomatch he⟩

/-! ## Machine/Tables -/

theorem CoreForm.writeScratch {k : Core} {off : Nat} {bs : List Byte} (h : CoreForm k) : CoreForm (k.writeScratch off bs) :=
  Memory.wf_write _ _ _ h

theorem CoreForm.clearScratch {k : Core} {lo hi : Nat} (h : CoreForm k) : CoreForm (k.clearScratch lo hi) := Memory.wf_clear _ _ _ h

theorem MemForm.updHob {j : Nat} {f : Hob → Hob} (h : MemForm s) : MemForm (s.updHob j f) := h.frame

theorem MemForm.updPool {p : Nat} {f : Pool → Pool} (h : MemForm s) : MemForm (s.updPool p f) := h.frame

theorem MemForm.updPart {p : Nat} {f : Part → Part} (h : MemForm s) : MemForm (s.updPart p f) := h.frame

theorem MemForm.updVd {v : Nat} {f : Vd → Vd} (h : MemForm s) : MemForm (s.updVd v f) := h.frame

theorem MemForm.updQueue {q : Nat} {f : Queue → Queue} (h : MemForm s) : MemForm (s.updQueue q f) := h.frame

theorem MemForm.updRing {vf k : Nat} {f : Ring → Ring} (h : MemForm s) : MemForm (s.updRing vf k f) := h.frame

theorem MemForm.updSlot {k : Nat} {f : Slot → Slot} (h : MemForm s) : MemForm (s.updSlot k f) := h.frame

theorem MemForm.core {c : Nat} (h : MemForm s) : CoreForm (s.core c) := by
  unfold State.core Tbl.getD
  cases hk : Tbl.find s.cores c with
  | none => exact coreForm_reset
  | some k =>
    obtain ⟨j, hj⟩ := Tbl.mem_of_find hk
    exact h.scratch _ hj

theorem MemForm.updCore {c : Nat} {f : Core → Core} (h : MemForm s) (hf : ∀ k, CoreForm k → CoreForm (f k)) :
    MemForm (s.updCore c f) := by
  refine ⟨h.hbm, h.host, h.buffer, fun e he => ?_⟩
  rcases Tbl.mem_put _ _ _ e he with rfl | he
  · exact hf _ h.core
  · exact h.scratch e he

/-- A change of a core that leaves its scratchpad alone. -/
theorem MemForm.updCoreFrame {c : Nat} {f : Core → Core} (h : MemForm s)
    (scratch : ∀ k, (f k).scratch = k.scratch := by intro _; rfl) : MemForm (s.updCore c f) :=
  h.updCore fun k hk => (congrArg Memory.wf (scratch k)).trans hk

theorem MemForm.updGrid {g : Nat} {f : Grid → Grid} (h : MemForm s) : MemForm (s.updGrid g f) := h.frame

theorem MemForm.updTeam {t : Nat} {f : Team → Team} (h : MemForm s) : MemForm (s.updTeam t f) := h.frame

theorem MemForm.updWave {w : Nat} {f : Wave → Wave} (h : MemForm s) : MemForm (s.updWave w f) := h.frame

theorem MemForm.updJob {j : Nat} {f : Job → Job} (h : MemForm s) : MemForm (s.updJob j f) := h.frame

theorem MemForm.drawn (h : MemForm s) : MemForm s.drawn := h.frame

theorem MemForm.atTick {t : Nat} {i : Instr} (h : MemForm s) : MemForm (s.atTick t i) := h.frame

theorem MemForm.after {dt : Nat} {i : Instr} (h : MemForm s) : MemForm (s.after dt i) := h.atTick

theorem MemForm.soon {i : Instr} (h : MemForm s) : MemForm (s.soon i) := h.after.drawn

theorem MemForm.withdraw {i : Instr} (h : MemForm s) : MemForm (s.withdraw i) := h.frame

theorem MemForm.freshId (h : MemForm s) : MemForm s.freshId := by
  unfold State.freshId
  split
  · exact h
  · exact h.frame

theorem MemForm.soonOnce {i : Instr} (h : MemForm s) : MemForm (s.soonOnce i) := .ite h h.soon

theorem MemForm.emit {o : Out} (h : MemForm s) : MemForm (s.emit o) := h.frame

theorem MemForm.logged {k : LogKind} (h : MemForm s) : MemForm (s.logged k) := h.frame

theorem MemForm.alerted (h : MemForm s) : MemForm s.alerted := h.frame

theorem MemForm.setHealth {bit : Nat} (h : MemForm s) : MemForm (s.setHealth bit) := h.frame

theorem MemForm.clearHealth {bit : Nat} (h : MemForm s) : MemForm (s.clearHealth bit) := h.frame

theorem MemForm.setMsix {fn : HostFn} {m : Msix} (h : MemForm s) : MemForm (s.setMsix fn m) := by
  unfold State.setMsix
  split
  · exact h.frame
  · exact h.updVd

theorem MemForm.raiseIrq {fn : HostFn} {vec : Nat} (h : MemForm s) : MemForm (s.raiseIrq fn vec) := .ite h.setMsix h.emit

theorem MemForm.rekey {lo hi : Nat} (h : MemForm s) : MemForm (s.rekey lo hi) := .ite (h.ofHbm (Memory.wf_clear _ _ _ h.hbm)) h

theorem MemForm.putByte {pa : Nat} {b : Byte} (h : MemForm s) : MemForm (s.putByte pa b) := h.ofHbm (Memory.wf_put _ _ _ h.hbm)

theorem MemForm.putBytes {pa : Nat} {bs : List Byte} (h : MemForm s) : MemForm (s.putBytes pa bs) := by
  induction bs generalizing s pa with
  | nil => exact h
  | cons b bs ih => exact ih h.putByte

theorem MemForm.raiseHwm {by_ : Option Nat} {c off n : Nat} (h : MemForm s) : MemForm (s.raiseHwm by_ c off n) := by
  unfold State.raiseHwm
  split
  · exact h
  · split
    · exact h
    · exact .ite (h.updTeam.updCore fun _ h => h.clearScratch) h

theorem MemForm.putScratch {by_ : Option Nat} {c off : Nat} {bs : List Byte} (h : MemForm s) : MemForm (s.putScratch by_ c off bs) :=
  h.raiseHwm.updCore fun _ h => h.writeScratch

theorem MemForm.wake {key : Nat} (h : MemForm s) : MemForm (s.wake key) := h.foldl fun _ _ h => .ite h.after.drawn h

theorem MemForm.healLines {pa n : Nat} (h : MemForm s) : MemForm (s.healLines pa n) := .ite h.frame h.frame

theorem MemForm.storeHome {pa : Nat} {bs : List Byte} (h : MemForm s) : MemForm (s.storeHome pa bs) :=
  .ite (h.putBytes.healLines.foldl fun _ _ h => h.wake) h

theorem MemForm.storeScratch {by_ : Option Nat} {c off : Nat} {bs : List Byte} (h : MemForm s) : MemForm (s.storeScratch by_ c off bs) :=
  h.putScratch.foldl fun _ _ h => h.wake

theorem MemForm.atRelockEnd {c : Nat} {i : Instr} (h : MemForm s) : MemForm (s.atRelockEnd c i) := .ite h h.atTick

theorem MemForm.toFifo {c : Nat} {p : Packet} (h : MemForm s) : MemForm (s.toFifo c p) := h.updCoreFrame

theorem MemForm.comes {c : Nat} {p : Packet} {f : State → State} (h : MemForm s) (hf : ∀ t, MemForm t → MemForm (f t)) :
    MemForm (s.comes c p f) := .ite h.toFifo (hf _ h)

theorem MemForm.sendScratch {wid job : Option Nat} {c off : Nat} {bs : List Byte} (h : MemForm s) :
    MemForm (s.sendScratch wid job c off bs) := .ite h.toFifo h.storeScratch

theorem MemForm.putHost {a : Nat} {bs : List Byte} (h : MemForm s) : MemForm (s.putHost a bs) :=
  ⟨h.hbm, Memory.wf_write _ _ _ h.host, h.buffer, h.scratch⟩

/-! ## Machine/Clock -/

theorem MemForm.pendAsync {wid code : Nat} (h : MemForm s) : MemForm (s.pendAsync wid code) := h.updWave

theorem MemForm.pendCheck {wid id : Nat} (h : MemForm s) : MemForm (s.pendCheck wid id) := h.comes fun _ h => h.updWave

theorem MemForm.pendDeferred {wid code : Nat} {addr : Option Nat} {id : Nat} (h : MemForm s) :
    MemForm (s.pendDeferred wid code addr id) := h.updWave

theorem MemForm.throttleCause {t : Nat} {begun : Bool} (h : MemForm s) : MemForm (s.throttleCause t begun) := by
  unfold State.throttleCause
  split
  · exact h
  · exact h.pendAsync

theorem MemForm.raiseThrottle {j : Nat} {begun : Bool} (h : MemForm s) : MemForm (s.raiseThrottle j begun) :=
  h.foldl fun _ _ h => .ite h.throttleCause h

theorem MemForm.throttleMoved {t old new : Nat} (h : MemForm s) : MemForm (s.throttleMoved t old new) := by
  unfold State.throttleMoved
  extract_lets
  split
  · exact h
  · exact .ite h.throttleCause h

theorem MemForm.noteThrottle {j : Nat} (h : MemForm s) : MemForm (s.noteThrottle j) := .ite h h.updHob.raiseThrottle

theorem MemForm.relock {j step : Nat} (h : MemForm s) : MemForm (s.relock j step) := h.updHob.after

theorem MemForm.settle {j : Nat} (h : MemForm s) : MemForm (s.settle j) := .ite h (.ite h.updHob h.relock)

theorem MemForm.setOp {j cls : Nat} (h : MemForm s) : MemForm (s.setOp j cls) := h.updHob.noteThrottle.settle

theorem MemForm.adoptOp {j cls : Nat} (h : MemForm s) : MemForm (s.adoptOp j cls) := h.updHob.noteThrottle.relock

theorem MemForm.resolvePool {p : Nat} (h : MemForm s) : MemForm (s.resolvePool p) :=
  .ite h.updPool (.ite h.updPool (h.updPool.updPool.foldl fun _ _ h => h.adoptOp))

theorem MemForm.boundary {c : Nat} (h : MemForm s) : MemForm (s.boundary c) := h.resolvePool

theorem MemForm.fileReq {p : Nat} {o : ReqOwner} {cls : Nat} (h : MemForm s) : MemForm (s.fileReq p o cls) := h.updPool

theorem MemForm.dropReqs {o : ReqOwner} (h : MemForm s) : MemForm (s.dropReqs o) := h.frame

theorem MemForm.elapse {n : Nat} (h : MemForm s) : MemForm (s.elapse n) := h.frame

/-! ## Machine/Teams -/

theorem MemForm.counted {c : Nat} (h : MemForm s) : MemForm (s.counted c) := h.updCoreFrame

theorem MemForm.sqRecord {p kind core issueId slot hq : Nat} {epc : DWord} {cause : Word} (h : MemForm s) :
    MemForm (s.sqRecord p kind core issueId slot hq epc cause) := .ite h.storeHome.updPart.raiseIrq h.updPart

theorem MemForm.sqWave {kind wid : Nat} (h : MemForm s) : MemForm (s.sqWave kind wid) := by
  unfold State.sqWave
  split
  · exact h
  · split
    · exact h
    · split
      · exact h
      · exact h.sqRecord

theorem MemForm.sqGrid {kind : Nat} {g : Grid} (h : MemForm s) : MemForm (s.sqGrid kind g) := h.sqRecord

theorem MemForm.fqRecords {p : Nat} {rs : List FaultRec} (h : MemForm s) : MemForm (s.fqRecords p rs) := by
  unfold State.fqRecords
  extract_lets s1
  have h1 : MemForm s1 := h.foldl fun _ _ h => h.storeHome.updPart
  exact .ite h1 h1.raiseIrq

theorem MemForm.queueError {hq code slot : Nat} (h : MemForm s) : MemForm (s.queueError hq code slot) := .ite h h.updQueue.raiseIrq

theorem MemForm.nodeFail {hq slot code : Nat} (h : MemForm s) : MemForm (s.nodeFail hq slot code) := h.updSlot.queueError

theorem MemForm.setTag {t tag : Nat} {st : TagSt} (h : MemForm s) : MemForm (s.setTag t tag st) := h.updTeam

theorem MemForm.forgetJob {j : Nat} (h : MemForm s) : MemForm (s.forgetJob j) := h.frame

theorem MemForm.unround {j : Job} (h : MemForm s) : MemForm (s.unround j) := .ite h.updPart h

theorem MemForm.dropJob {j : Nat} (h : MemForm s) : MemForm (s.dropJob j) := by
  unfold State.dropJob
  split
  · exact h
  · exact h.unround.forgetJob

theorem MemForm.endJob {j : Nat} {st : TagSt} (h : MemForm s) : MemForm (s.endJob j st) := by
  unfold State.endJob
  split
  · exact h
  · split
    · exact h.forgetJob
    · exact h.setTag.forgetJob

theorem MemForm.cancelJob {j : Nat} (h : MemForm s) : MemForm (s.cancelJob j) := by
  unfold State.cancelJob
  split
  · exact h
  · exact h.unround.endJob

theorem MemForm.lowerCarve {c : Nat} (h : MemForm s) : MemForm (s.lowerCarve c) := .ite h.updCoreFrame h

theorem MemForm.freed {c : Nat} (h : MemForm s) : MemForm (s.freed c) := by
  unfold State.freed
  extract_lets s1
  have h1 : MemForm s1 := h.foldl fun _ _ h => .ite h.soonOnce h
  exact h1.soonOnce

theorem MemForm.lendLater {c : Nat} (h : MemForm s) : MemForm (s.lendLater c) := .ite h.soonOnce.soonOnce h

theorem MemForm.gridCheck {g : Nat} (h : MemForm s) : MemForm (s.gridCheck g) := by
  unfold State.gridCheck
  split
  · exact h
  · split
    · split
      · exact h.soonOnce
      · exact h.soonOnce
    · exact h

theorem MemForm.kickDrain {hq : Nat} (h : MemForm s) : MemForm (s.kickDrain hq) := .ite h.soonOnce h

theorem MemForm.drainOf {g : Nat} (h : MemForm s) : MemForm (s.drainOf g) := by
  unfold State.drainOf
  split
  · exact h
  · exact h.kickDrain

theorem MemForm.notComing {c t : Nat} (h : MemForm s) : MemForm (s.notComing c t) := h.updCoreFrame

theorem CoreForm.takenBy {c : Core} {w : Wave} (h : CoreForm c) : CoreForm (c.takenBy w) := h

theorem CoreForm.leftBy {c : Core} {w : Wave} (h : CoreForm c) : CoreForm (c.leftBy w) := .ite h h

theorem CoreForm.tagsTaken {c : Core} {r : LaunchRec} (h : CoreForm c) : CoreForm (c.tagsTaken r) := h

theorem CoreForm.tagsLeftBy {c : Core} {r : LaunchRec} {tags : Tbl TagSt} (h : CoreForm c) : CoreForm (c.tagsLeftBy r tags) := h

theorem MemForm.removeTeam {t : Nat} (h : MemForm s) : MemForm (s.removeTeam t) := by
  unfold State.removeTeam
  split
  · exact h
  · extract_lets s1 _ _ _ _ _ s2 s3 s4
    have h1 : MemForm s1 := h.foldl fun _ _ h => h.dropJob
    have h2 : MemForm s2 := h1.frame.dropReqs.updCoreFrame
    have h3 : MemForm s3 := by
      unfold s3
      split
      · exact h2.notComing
      · exact h2
    have h4 : MemForm s4 := by
      unfold s4
      split
      · exact h3
      · exact .ite h3 (h3.updCore fun _ h => h.tagsLeftBy)
    exact .ite h4 (.drainOf (.lendLater (.freed (.lowerCarve (h4.updCore fun _ h => h.foldl fun _ _ h => h.leftBy)))))

theorem MemForm.removeTeams {root : Nat} (h : MemForm s) : MemForm (s.removeTeams root) := h.foldl fun _ _ h => h.removeTeam

theorem MemForm.forgetGrid {g : Nat} (h : MemForm s) : MemForm (s.forgetGrid g) :=
  h.mapCores (f := fun k => { k with icache := k.icache.map (fun l => { l with pins := l.pins.filter (· != g) }) }) fun _ h => h

theorem MemForm.afterKill {root : Nat} (h : MemForm s) : MemForm (s.afterKill root) := by
  unfold State.afterKill
  split
  · exact h
  · exact .ite h.soonOnce h.nodeFail.forgetGrid

theorem MemForm.killLaunch {wid : Nat} (h : MemForm s) : MemForm (s.killLaunch wid) := by
  unfold State.killLaunch
  split
  · exact h
  · split
    · exact h
    · split
      · exact h
      · extract_lets _ _ _ _ s1
        have h1 : MemForm s1 := h.sqWave.updGrid.removeTeams.foldl fun _ _ h => .ite h h.forgetGrid
        exact h1.afterKill

theorem MemForm.killFor {wid id : Nat} (h : MemForm s) : MemForm (s.killFor wid id) := h.updWave.killLaunch

theorem MemForm.killGrid {root : Nat} {kinds : List Nat} {ev : Nat × Nat × Nat × DWord × Word} (h : MemForm s) :
    MemForm (s.killGrid root kinds ev) := by
  unfold State.killGrid
  split
  · exact h
  · extract_lets s1 _ _ s2
    have h1 : MemForm s1 := h.drawn.foldl fun _ _ h => h.sqGrid
    have h2 : MemForm s2 := h1.updGrid.removeTeams.foldl fun _ _ h => .ite h h.forgetGrid
    exact h2.afterKill

theorem MemForm.killTeam {t : Nat} (h : MemForm s) : MemForm (s.killTeam t) := by
  unfold State.killTeam
  split
  · exact h
  · split
    · exact h.updWave.killLaunch
    · split
      · exact h
      · exact h.killGrid

theorem MemForm.tilesIn {c : Nat} {tiles : List Nat} {v : Tbl Word} (h : MemForm s) : MemForm (s.tilesIn c tiles v) := h.updCoreFrame

theorem MemForm.toFrame {p vf c off : Nat} {bs : List Byte} (h : MemForm s) : MemForm (s.toFrame p vf c off bs) := h.storeHome

theorem MemForm.frameOpen {p vf c off n : Nat} (h : MemForm s) : MemForm (s.frameOpen p vf c off n) := .ite h.rekey.healLines h

theorem MemForm.spillSlab {wid k : Nat} (h : MemForm s) : MemForm (s.spillSlab wid k) := by
  unfold State.spillSlab
  split
  · exact h
  · extract_lets
    split
    · exact h
    · split
      · exact h
      · split
        · exact h
        · exact h.toFrame.updWave

theorem MemForm.homeSlab {wid k : Nat} (h : MemForm s) : MemForm (s.homeSlab wid k) := by
  unfold State.homeSlab
  split
  · exact h
  · split
    · exact h
    · exact h.updWave

theorem MemForm.copyBack {wid l r : Nat} {x : Word} (h : MemForm s) : MemForm (s.copyBack wid l r x) := by
  unfold State.copyBack
  split
  · exact h
  · split
    · exact h
    · split
      · exact h
      · exact h.toFrame

theorem MemForm.spillTile {c tile : Nat} (h : MemForm s) : MemForm (s.spillTile c tile) := by
  unfold State.spillTile
  split
  · exact h
  · split
    · exact h
    · exact h.toFrame.updTeam

theorem MemForm.drainPlace {p vf c : Nat} {w : Wave} {es : List (Nat × Nat × PcEntry)} (h : MemForm s) :
    MemForm (s.drainPlace p vf c w es) := h.frameOpen.toFrame

theorem MemForm.withPoison {l : List Nat} (h : MemForm s) : MemForm { s with poison := l } := h.frame

theorem MemForm.drainFrame {t : Nat} {k : Team} {tv : Tbl Word} (h : MemForm s) : MemForm (s.drainFrame t k tv) := by
  unfold State.drainFrame
  split
  · exact h
  · extract_lets put s1 s2 _ _ s3 _ s4
    have h1 : MemForm s1 := by
      refine h.foldl fun _ _ h => ?_
      split
      · exact h
      · exact .drainPlace (h.foldl fun _ _ h => h.toFrame)
    have h2 : MemForm s2 := h1.foldl fun _ _ h => h.toFrame
    have h3 : MemForm s3 := h2.frameOpen.frameOpen.toFrame.toFrame.foldl fun _ _ h => h.toFrame
    have h4 : MemForm s4 := h3.toFrame
    exact h4.withPoison

theorem MemForm.redrain {wid : Nat} (h : MemForm s) : MemForm (s.redrain wid) := by
  unfold State.redrain
  split
  · exact h
  · split
    · exact h
    · split
      · exact h
      · exact .ite h h.drainPlace

theorem MemForm.loadFrame {t : Nat} (h : MemForm s) : MemForm (s.loadFrame t) := by
  unfold State.loadFrame
  split
  · exact h
  · split
    · exact h
    · split
      · exact h
      · extract_lets _ s1 _ _ s2
        have h1 : MemForm s1 := h.foldl fun _ _ h => h.updWave
        have h2 : MemForm s2 := h1.foldl fun _ _ h => .ite h h.updJob.updTeam
        exact h2.updTeam

theorem MemForm.homeTile {t tile : Nat} (h : MemForm s) : MemForm (s.homeTile t tile) := by
  unfold State.homeTile
  split
  · exact h
  · split
    · exact h
    · exact h.tilesIn.updTeam

theorem MemForm.homeAll {t : Nat} (h : MemForm s) : MemForm (s.homeAll t) := by
  unfold State.homeAll
  extract_lets s1
  have h1 : MemForm s1 := h.foldl fun _ _ h => .ite h (h.foldl fun _ _ h => h.homeSlab)
  split
  · exact h1
  · exact .ite h1 (h1.foldl fun _ _ h => h.homeTile)

theorem MemForm.spillAll {t : Nat} {k : Team} (h : MemForm s) : MemForm (s.spillAll t k) := by
  unfold State.spillAll
  extract_lets s1
  have h1 : MemForm s1 := h.foldl fun _ _ h => .updWave (h.foldl fun _ _ h => h.spillSlab)
  exact .updCoreFrame (h1.foldl fun _ _ h => h.spillTile)

theorem MemForm.takePcs {t : Nat} {k : Team} (h : MemForm s) : MemForm (s.takePcs t k) := h.updTeam.updCoreFrame

theorem MemForm.givePcs {t : Nat} (h : MemForm s) : MemForm (s.givePcs t) := by
  unfold State.givePcs
  split
  · exact h
  · exact h.updTeam.updCore fun _ h => h.foldl fun _ _ h => .ite h h

theorem MemForm.saveTeam {t : Nat} (h : MemForm s) : MemForm (s.saveTeam t) := by
  unfold State.saveTeam
  split
  · exact h
  · split
    · exact h
    · extract_lets _ _ _ _ s1 _ _ s2 _ s3
      have h1 : MemForm s1 := h.spillAll.homeAll.foldl fun _ _ h => .ite h h.updWave
      have h2 : MemForm s2 := h1.drainFrame.takePcs.updTeam.foldl fun _ _ h => h.updJob
      have h3 : MemForm s3 := h2.dropReqs.foldl fun _ _ h => h.updWave
      exact h3.lowerCarve.freed.lendLater.drainOf

theorem MemForm.noteRest {t : Nat} {k : Team} (h : MemForm s) : MemForm (s.noteRest t k) := h.foldl fun _ _ h => .ite h.updWave.after h

theorem MemForm.rested {t : Nat} (h : MemForm s) : MemForm (s.rested t) := by
  unfold State.rested
  split
  · exact h
  · exact .ite (.ite h.noteRest.boundary.saveTeam h.noteRest.boundary) h.noteRest

/-! ## Machine/Ops -/

theorem MemForm.dropTlb {f : TlbEntry → Bool} (h : MemForm s) : MemForm (s.dropTlb f) :=
  h.mapCores (f := fun k => { k with tlb := k.tlb.filter (fun x => !f x) }) fun _ h => h

theorem MemForm.parked {wid : Nat} {p : Park} (h : MemForm s) : MemForm (s.parked wid p) := h.updWave

theorem MemForm.armGate {wid : Nat} (h : MemForm s) : MemForm (s.armGate wid) := by
  unfold State.armGate
  split
  · exact h
  · extract_lets c arm
    have arms : ∀ {s i bs}, MemForm s → MemForm (arm s i bs) := fun h => by
      unfold arm
      split
      · exact h.withdraw
      · exact h.withdraw.after
    exact arms (arms h)

theorem MemForm.refillSlab {wid : Nat} {x : Nat × Nat × Nat × Nat} (h : MemForm s) : MemForm (s.refillSlab wid x) := h.drawn.updWave

theorem MemForm.refillAll {wid : Nat} (h : MemForm s) : MemForm (s.refillAll wid) := by
  unfold State.refillAll
  split
  · exact h
  · exact h.foldl fun _ _ h => h.refillSlab

theorem MemForm.gateBack {wid : Nat} (h : MemForm s) : MemForm (s.gateBack wid) := h.updWave

theorem MemForm.abortGate {wid code : Nat} (h : MemForm s) : MemForm (s.abortGate wid code) := h.refillAll.gateBack.sqWave.updWave.armGate

theorem MemForm.freeze {wid second : Nat} (h : MemForm s) : MemForm (s.freeze wid second) := h.updWave.sqWave

theorem MemForm.takeTrap {wid code lane : Nat} {async : Bool} {epc faddr : Option Nat} (h : MemForm s) :
    MemForm (s.takeTrap wid code lane async epc faddr) := by
  unfold State.takeTrap
  split
  · exact h
  · extract_lets _ s1
    have h1 : MemForm s1 := by
      unfold s1
      split
      · exact h
      · exact h.updWave
    exact .ite h1.updWave.sqWave.killLaunch (.ite (.ite h1.abortGate h1.freeze) (.ite (.ite h1.abortGate h1.updWave.killLaunch) h1.updWave))

theorem MemForm.noKeep {f : Nat → Nat → Nat → Bool} (h : MemForm s) : MemForm (s.noKeep f) := .ite h h.frame

theorem MemForm.patchCopies {ag : Agent} {chip : Option Nat} {pa : Nat} {bs : List Byte} (h : MemForm s) :
    MemForm (s.patchCopies ag chip pa bs) := by
  unfold State.patchCopies
  extract_lets s1 s2
  have h1 : MemForm s1 := by
    unfold s1
    split
    · exact h
    · exact h.noKeep
  have h2 : MemForm s2 := by
    unfold s2
    split
    · exact h1
    · exact h1.updCoreFrame
  exact h2.frame

theorem MemForm.dropCopy {die : Nat} {chip : Option Nat} {line : Nat} (h : MemForm s) : MemForm (s.dropCopy die chip line) := h.frame

theorem MemForm.l2Evict {t : L2Tag} (h : MemForm s) : MemForm (s.l2Evict t) := by
  unfold State.l2Evict
  extract_lets
  split
  · exact h.frame.dropCopy
  · split
    · exact h.frame
    · exact h.frame

theorem MemForm.l2Touch {die : Nat} {chip : Option Nat} {line mask hint : Nat} {dirty : Bool} (h : MemForm s) :
    MemForm (s.l2Touch die chip line mask hint dirty) := by
  unfold State.l2Touch
  split
  · exact h.frame
  · split
    · exact h
    · extract_lets
      split
      · exact h.frame
      · split
        · exact h
        · extract_lets s1
          have h1 : MemForm s1 := h.l2Evict.drawn
          exact h1.frame

theorem MemForm.l2Home {ag : Agent} {pa hint : Nat} {dirty : Bool} (h : MemForm s) : MemForm (s.l2Home ag pa hint dirty) := h.l2Touch

theorem MemForm.walked {p : Nat} {cls : Cls} {asid va : Nat} (h : MemForm s) : MemForm (s.walked p cls asid va) :=
  h.foldl fun _ _ h => h.l2Home

theorem MemForm.keepTlb {c p : Nat} {cls : Cls} {asid va : Nat} (h : MemForm s) : MemForm (s.keepTlb c p cls asid va) := by
  unfold State.keepTlb
  extract_lets _ s1
  have h1 : MemForm s1 := .ite h h.walked
  split
  · extract_lets _ s2
    have h2 : MemForm s2 := h1.updCoreFrame.drawn
    exact .ite h1 h2.frame
  · exact h1

theorem MemForm.crossed {die home : Nat} (h : MemForm s) : MemForm (s.crossed die home) := .ite h (.ite h.frame h.frame)

theorem MemForm.copyRange {src dst n : Nat} (h : MemForm s) : MemForm (s.copyRange src dst n) :=
  h.ofHbm (Memory.wf_foldl_put (Memory.wf_clear _ _ _ h.hbm))

theorem MemForm.noteFlits {plane index n : Nat} (h : MemForm s) : MemForm (s.noteFlits plane index n) := .ite h.frame h.frame.atTick

theorem MemForm.countFlits {plane part : Nat} {cls : Cls} {n : Nat} (h : MemForm s) : MemForm (s.countFlits plane part cls n) :=
  h.noteFlits

theorem MemForm.control {plane : Nat} {o : Out} (h : MemForm s) : MemForm (s.control plane o) := h.noteFlits.emit

theorem MemForm.broadcast {o : Nat → Out} (h : MemForm s) : MemForm (s.broadcast o) := h.foldl fun _ _ h => h.control

theorem MemForm.watch {plane : Nat} (h : MemForm s) : MemForm (s.watch plane) := .ite h h.after

theorem MemForm.emitUnacked {u : Unacked} (h : MemForm s) : MemForm (s.emitUnacked u) := h.countFlits.watch.emit

theorem MemForm.postWrite {ag : Agent} {chip : Nat} {page : Option Nat} {gen pa : Nat} {data : List Byte}
    {coll : Option CollMsg} {op : Option RmwOp} {wid : Option (Nat × Nat)} {job : Option Nat} {at_ : Origin} (h : MemForm s) :
    MemForm (s.postWrite ag chip page gen pa data coll op wid job at_) := by
  unfold State.postWrite
  extract_lets _ _ _ _ s1 _ s2
  have h1 : MemForm s1 := by
    unfold s1
    split
    · exact h.frame
    · exact h.frame.updCoreFrame
  have h2 : MemForm s2 := .ite h1.frame.after h1
  exact .ite h2 h2.emitUnacked

theorem MemForm.sendWrite {ag : Agent} {chip : Nat} {page : Option Nat} {gen pa : Nat} {data : List Byte} {op : Option RmwOp}
    {wid : Option (Nat × Nat)} {job : Option Nat} {at_ : Origin} (h : MemForm s) :
    MemForm (s.sendWrite ag chip page gen pa data op wid job at_) := h.postWrite

theorem MemForm.sendMember {ag : Agent} {chip pa : Nat} {data : List Byte} {m : CollMsg} (h : MemForm s) :
    MemForm (s.sendMember ag chip pa data m) := h.postWrite

theorem MemForm.duplicate {ag : Agent} {mirror : Bool} {pa : Nat} {bs : List Byte} (h : MemForm s) :
    MemForm (s.duplicate ag mirror pa bs) := .ite (.ite h.frame.after h.sendWrite) h

theorem MemForm.duplicatePage {ag : Agent} {pa : Nat} (h : MemForm s) : MemForm (s.duplicatePage ag pa) :=
  h.foldl fun _ _ h => h.duplicate

theorem MemForm.snapshot {ag : Agent} {mirror : Bool} {pa : Nat} (h : MemForm s) : MemForm (s.snapshot ag mirror pa) := by
  unfold State.snapshot
  split
  · exact h
  · split
    · exact h
    · extract_lets
      split
      · exact h
      · split
        · exact .ite h.updGrid h
        · split
          · exact h
          · split
            · exact h.updGrid
            · split
              · exact .ite h.copyRange.updGrid.duplicatePage h.copyRange.updGrid
              · exact h.updGrid

theorem MemForm.writeHome {ag : Agent} {mirror : Bool} {pa : Nat} {bs : List Byte} (h : MemForm s) :
    MemForm (s.writeHome ag mirror pa bs) := h.snapshot.crossed.storeHome.patchCopies.duplicate

theorem MemForm.stampLine {pa : Nat} {st : Nat × Nat} {rmw : Bool} (h : MemForm s) : MemForm (s.stampLine pa st rmw) :=
  .ite h.frame h.frame

theorem MemForm.fillL1 {c : Nat} {l : Line} (h : MemForm s) : MemForm (s.fillL1 c l) := by
  unfold State.fillL1
  extract_lets
  split
  · split
    · exact h
    · exact h.updCoreFrame.drawn
  · exact h.updCoreFrame

theorem MemForm.keepCopy {ag : Agent} {hint : Nat} {l : Line} (h : MemForm s) : MemForm (s.keepCopy ag hint l) := by
  unfold State.keepCopy
  extract_lets _ s1
  have h1 : MemForm s1 := h.l2Touch
  exact .ite h (.ite h1.frame h1)

theorem MemForm.keepHbm {ag : Agent} {hint pa : Nat} (h : MemForm s) : MemForm (s.keepHbm ag hint pa) := by
  unfold State.keepHbm
  split
  · exact h
  · split
    · exact h
    · extract_lets _ s1 s2
      have h1 : MemForm s1 := .ite h h.l2Home
      have h2 : MemForm s2 := .ite h1 h1.keepCopy
      exact .ite h2.fillL1 h2

theorem MemForm.forgetLine {ag : Agent} {chip : Option Nat} {pa : Nat} (h : MemForm s) : MemForm (s.forgetLine ag chip pa) := by
  unfold State.forgetLine
  extract_lets s1
  have h1 : MemForm s1 := by
    unfold s1
    split
    · exact h
    · exact .ite h h.updCoreFrame
  exact .ite h1 h1.frame.dropCopy

theorem MemForm.readStamp {wid : Option Nat} {st : Nat × Nat} (h : MemForm s) : MemForm (s.readStamp wid st) := by
  unfold State.readStamp
  split
  · exact h
  · exact h.updWave

theorem MemForm.loadHbm {ag : Agent} {pa n : Nat} (h : MemForm s) : MemForm (s.loadHbm ag pa n).2 := h.readStamp

theorem MemForm.dropL1 {c : Nat} (h : MemForm s) : MemForm (s.dropL1 c) := h.updCoreFrame

theorem MemForm.dropCopies {f : Nat × Line → Bool} (h : MemForm s) : MemForm (s.dropCopies f) := h.frame

theorem MemForm.acquire {wid : Nat} {sc : Scope} {st : Nat × Nat} (h : MemForm s) : MemForm (s.acquire wid sc st) := by
  unfold State.acquire
  extract_lets _ _ s1 s2
  have h1 : MemForm s1 := .ite h.dropL1.noKeep h
  have h2 : MemForm s2 := .ite h1.dropCopies h1
  exact .ite h2.updWave h2

theorem MemForm.sendMarkers {wid : Nat} (h : MemForm s) : MemForm (s.sendMarkers wid) :=
  h.foldl fun _ _ h => h.foldl fun _ _ h => h.frame.countFlits.watch.emit

theorem MemForm.releaseFabric {wid : Nat} {sc : Scope} {to_ : List (Nat × Nat)} (h : MemForm s) :
    MemForm (s.releaseFabric wid sc to_).2.2 := by
  unfold State.releaseFabric
  extract_lets
  split
  · exact h
  · split
    · exact h
    · split
      · split
        · exact h
        · split
          · exact h
          · exact .snd h.sendMarkers
      · split
        · exact .snd h.updCoreFrame
        · exact h

theorem MemForm.release {wid : Nat} {sc : Scope} (h : MemForm s) : MemForm (s.release wid sc).2 := by
  unfold State.release
  split
  · exact h
  · split
    · exact h
    · split
      · exact h
      · exact h.releaseFabric.updWave

/-! ## Machine/Issue -/

theorem MemForm.fetchL2 {p : Nat} {cls : Cls} {pa : Nat} (h : MemForm s) : MemForm (s.fetchL2 p cls pa) := h.l2Touch

theorem MemForm.fillI {c p : Nat} {cls : Cls} {asid pc : Nat} (h : MemForm s) : MemForm (s.fillI c p cls asid pc) := by
  unfold State.fillI
  split
  · exact h
  · split
    · exact h
    · extract_lets
      split
      · exact h.fetchL2.updCoreFrame
      · split
        · exact h.fetchL2
        · exact h.fetchL2.updCoreFrame.drawn

theorem MemForm.fetched {c p : Nat} {cls : Cls} {asid pc n : Nat} (h : MemForm s) : MemForm (s.fetched c p cls asid pc n) :=
  .ite h.keepTlb.fillI.keepTlb.fillI h.keepTlb.fillI

theorem MemForm.setSide {c side : Nat} {x : Side} (h : MemForm s) : MemForm (s.setSide c side x) := h.updCore fun _ h => .ite h h

theorem MemForm.splitTraps {c side : Nat} (h : MemForm s) : MemForm (s.splitTraps c side) := h.foldl fun _ _ h => .ite h.takeTrap h

theorem MemForm.ageUniform {c side d : Nat} {chosen : Option Nat} (h : MemForm s) : MemForm (s.ageUniform c side d chosen) :=
  h.foldl fun _ _ h => .ite h.updWave (.ite h h.updWave)

theorem MemForm.accept {g : Group} (h : MemForm s) : MemForm (s.accept g) := by
  unfold State.accept
  extract_lets _ s1
  have h1 : MemForm s1 := .ite h h.counted
  exact h1.frame.foldl fun _ _ h => h.updWave

theorem MemForm.dispatch {g : Group} (h : MemForm s) : MemForm (s.dispatch g).2 := by
  unfold State.dispatch
  split
  · exact h
  · split
    · exact h
    · exact h.fetched.accept

theorem MemForm.visitLane {c side : Nat} (h : MemForm s) : MemForm (s.visitLane c side).2 := by
  unfold State.visitLane
  extract_lets
  split
  · exact h.setSide
  · exact h.setSide.dispatch

theorem MemForm.visitUniform {c side : Nat} (h : MemForm s) : MemForm (s.visitUniform c side).2 := by
  unfold State.visitUniform
  extract_lets _ _ _ s1
  have h1 : MemForm s1 := h.splitTraps.setSide.ageUniform
  split
  · exact h1
  · split
    · exact h1
    · exact h1.dispatch

theorem MemForm.visit (h : MemForm s) : MemForm s.visit.2 := by
  unfold State.visit
  extract_lets _ s1
  have h1 : MemForm s1 := h.elapse.drawn
  split
  · exact h1.frame
  · split
    · exact h1.frame
    · split
      · exact h1.frame
      · split
        · exact h1.frame.visitUniform
        · exact h1.frame.visitLane

theorem MemForm.plan (h : MemForm s) : MemForm s.plan.2 := by
  unfold State.plan
  split
  · split
    · exact .snd h.frame
    · exact h.visit
  · exact h.visit

theorem MemForm.tryAgain {r : Host.Outcome State Fault Refusal} (h : MemForm s) : MemForm (s.tryAgain r) := by
  unfold State.tryAgain
  extract_lets
  split
  · exact h
  · exact h.foldl fun _ _ h => h.updWave

/-! ## Machine/Operands -/

theorem MemForm.laneTrap {wid code lane pc : Nat} {faddr : Option Nat} (h : MemForm s) : MemForm (s.laneTrap wid code lane pc faddr) :=
  h.takeTrap

theorem MemForm.awaitSlab {wid : Nat} {w : Wave} {sp : Spill} (h : MemForm s) : MemForm (s.awaitSlab wid w sp) := by
  unfold State.awaitSlab
  extract_lets _ s1
  have h1 : MemForm s1 := .ite h h.updCoreFrame
  exact h1.soonOnce.updWave

theorem MemForm.laneWave {op : LaneOp} {f : Wave → Nat → LaneRes} {g : Group} {wid : Nat} (h : MemForm s) :
    MemForm (State.laneWave op f g s wid) := by
  unfold State.laneWave
  split
  · exact h
  · extract_lets
    split
    · exact h.awaitSlab
    · exact .ite h.killLaunch h.laneTrap
    · split
      · exact h.awaitSlab
      · split
        · exact h.updWave
        · exact h.updWave.laneTrap

theorem MemForm.laneGroup {op : LaneOp} {f : Nat → Wave → Nat → LaneRes} {g : Group} (h : MemForm s) : MemForm (s.laneGroup op f g) :=
  h.foldl fun _ _ h => h.laneWave

theorem MemForm.laneStep {op : LaneOp} {f : Nat → Wave → Nat → LaneRes} (h : MemForm s) : OutForm (laneStep op f s) := by
  unfold Machine.laneStep
  split
  · exact .fault
  · exact .next h.laneGroup

theorem MemForm.uniTrap {wid code pc : Nat} {faddr : Option Nat} (h : MemForm s) : MemForm (s.uniTrap wid code pc faddr) := h.takeTrap

theorem UniForm.lowerCause {a : Option Nat} {r : UniRes} (h : UniForm r) : UniForm (State.lowerCause a r) := by
  unfold State.lowerCause
  split
  · exact h
  · split
    · exact .ite .trap .trap
    · exact .trap

theorem MemForm.mismatch {wid : Nat} (h : MemForm s) : MemForm (s.mismatch wid) := h.takeTrap.drawn

theorem MemForm.uniWave {op : UniOp} {f : State → Nat → Wave → UniRes} {g : Group} {wid : Nat} {w : Wave} (h : MemForm s)
    (hf : ∀ s wid w, MemForm s → UniForm (f s wid w)) : MemForm (State.uniWave op f g s wid w) := by
  unfold State.uniWave
  split
  · exact h.awaitSlab
  · have hr := (hf s wid w h).lowerCause (a := State.uniCheck w op)
    split
    · exact h.mismatch
    · split
      · exact h.uniTrap
      · next e =>
        rw [e] at hr
        cases hr
        assumption
      · next e =>
        rw [e] at hr
        cases hr
        assumption
      · next e =>
        rw [e] at hr
        cases hr with | done hr => ?_
        split
        · exact h.awaitSlab
        · exact hr.updWave

theorem MemForm.uniStep {op : UniOp} {f : State → Nat → Wave → UniRes} (h : MemForm s) (hf : ∀ t x1 x2, MemForm t → UniForm (f t x1 x2)) :
    OutForm (uniStep op f s) := by
  unfold Machine.uniStep
  split
  · exact .fault
  · split
    · exact .fault
    · split
      · exact .fault
      · exact .next (h.uniWave hf)

theorem MemForm.uniPure {op : UniOp} {f : Wave → Wave} (h : MemForm s) : OutForm (uniPure op f s) :=
  h.uniStep fun _ _ _ h => .done h.updWave

/-! ## Machine/LaneFloat -/

theorem MemForm.execCvt {c : CvtKind} {d a : VReg} (h : MemForm s) : OutForm (execCvt c d a s) := by
  unfold Machine.execCvt
  split
  · exact h.laneStep
  · exact h.laneStep
  · exact h.laneStep

/-! ## Machine/Retire -/

theorem MemForm.releaseBar {wid : Nat} (h : MemForm s) : MemForm (s.releaseBar wid) := h.updWave

theorem MemForm.checkPhase {t : Nat} (h : MemForm s) : MemForm (s.checkPhase t) := by
  unfold State.checkPhase
  split
  · exact h
  · exact .ite (h.updTeam.foldl fun _ _ h => h.releaseBar) h

theorem MemForm.passThrottle {t wid : Nat} (h : MemForm s) : MemForm (s.passThrottle t wid) := by
  unfold State.passThrottle
  split
  · exact h.updWave.updWave
  · exact h

theorem MemForm.checkTeam {t : Nat} (h : MemForm s) : MemForm (s.checkTeam t) := by
  unfold State.checkTeam
  split
  · exact h
  · exact .ite h.updGrid.removeTeam.boundary.gridCheck h

theorem MemForm.waveRetired {wid : Nat} (h : MemForm s) : MemForm (s.waveRetired wid) := by
  unfold State.waveRetired
  split
  · exact h
  · exact .ite h.passThrottle.checkPhase.freed.lendLater.rested.checkTeam h

/-! ## Machine/LaneMisc -/

theorem MemForm.cbTouch {ag : Agent} {tab : Nat} {is : List Nat} (h : MemForm s) : MemForm (s.cbTouch ag tab is) :=
  h.foldl fun _ _ h => h.l2Home

theorem MemForm.cbRead {t : State} {f : FSlot} {op : LaneOp} {e : Nat → Wave → Nat → LaneRes} {is : Wave → Nat → List Nat} (h : MemForm t) :
    MemForm (s.cbRead t f op e is) := by
  unfold State.cbRead
  split
  · exact h
  · refine h.foldl fun _ _ h1 => ?_
    split
    · exact .ite h1.cbTouch h1
    · exact h1

theorem MemForm.cbStep {f : FSlot} {op : LaneOp} {e : Nat → Wave → Nat → LaneRes} {is : Wave → Nat → List Nat} (h : MemForm s) :
    OutForm (cbStep f op e is s) := by
  have hl : OutForm (Machine.laneStep op e s) := h.laneStep
  unfold Machine.cbStep
  split
  · next eq => exact .next (hl.of_next eq).cbRead
  · exact hl

theorem MemForm.gselWave {sel : Option (PReg × Bool)} {g : Group} {wid : Nat} (h : MemForm s) : MemForm (gselWave sel g s wid) :=
  h.updWave

theorem MemForm.gselStep {sel : Option (PReg × Bool)} (h : MemForm s) : OutForm (gselStep sel s) := by
  unfold Machine.gselStep
  split
  · exact .fault
  · exact .next (h.foldl fun _ _ h => h.gselWave)

theorem MemForm.execExit (h : MemForm s) : OutForm (execExit s) := by
  unfold Machine.execExit
  split
  · exact .fault
  · exact .next (h.laneGroup.foldl fun _ _ h => h.waveRetired)

/-! ## Machine/Uniform -/

theorem MemForm.voteRow {f : List (Nat × Bool) → Nat} {d : SReg} {p : PReg} (h : MemForm s) : OutForm (voteRow f d p s) :=
  h.uniStep fun _ _ _ h => .done h.updWave

theorem MemForm.execVoteAny {d : SReg} {p : PReg} (h : MemForm s) : OutForm (execVoteAny d p s) := h.voteRow

theorem MemForm.execVoteAll {d : SReg} {p : PReg} (h : MemForm s) : OutForm (execVoteAll d p s) := h.voteRow

theorem MemForm.execVoteBallot {d : SReg} {p : PReg} (h : MemForm s) : OutForm (execVoteBallot d p s) := h.voteRow

theorem MemForm.rdlnRow {lane : Wave → Nat} {d : SReg} {v : VReg} (h : MemForm s) : OutForm (rdlnRow lane d v s) :=
  h.uniStep fun _ _ _ h => .done h.updWave

theorem MemForm.execBru {cc : UCond} {a : SReg} {off : BitVec 16} (h : MemForm s) : OutForm (execBru cc a off s) :=
  h.uniStep fun _ _ _ h => .placed h.updWave

/-! ## Machine/Sync -/

theorem MemForm.wait {wid : Nat} {x : Wait} (h : MemForm s) : UniForm (UniRes.wait s wid x) := .stay h.parked

theorem MemForm.released {wid : Nat} {sc : Scope} {f : State → UniRes} (h : MemForm s) (hf : ∀ t, MemForm t → UniForm (f t)) :
    UniForm (UniRes.released s wid sc f) := by
  unfold UniRes.released
  split
  · next e => exact hf _ (MemForm.of_snd h.release e)
  · next e => exact (MemForm.of_snd h.release e).wait

theorem MemForm.barWait {wid : Nat} {w : Wave} (h : MemForm s) : MemForm (s.barWait wid w) := h.parked.rested

theorem MemForm.barArriveRes {wid : Nat} {w : Wave} (h : MemForm s) : UniForm (barArriveRes s wid w) :=
  .ite h.wait (h.released fun _ h => .placed h.updWave.checkPhase)

theorem MemForm.barWaitRes {wid : Nat} {w : Wave} (h : MemForm s) : UniForm (barWaitRes s wid w) := .ite (.stay h.barWait) (.done h)

theorem MemForm.barSyncRes {pc : Nat} {wid : Nat} {w : Wave} (h : MemForm s) : UniForm (barSyncRes pc s wid w) :=
  .ite (.ite (.stay h.barWait) h.wait) (h.released fun _ h => .stay h.updWave.checkPhase.rested)

theorem MemForm.execBarArrive (h : MemForm s) : OutForm (execBarArrive s) := h.uniStep fun _ _ _ h => h.barArriveRes

theorem MemForm.execBarWait (h : MemForm s) : OutForm (execBarWait s) := h.uniStep fun _ _ _ h => h.barWaitRes

theorem MemForm.execBarSync (h : MemForm s) : OutForm (execBarSync s) := h.uniStep fun _ _ _ h => h.barSyncRes

theorem MemForm.releaseCbar {key phase wid : Nat} (h : MemForm s) : MemForm (s.releaseCbar key phase wid) := by
  unfold State.releaseCbar
  split
  · exact h
  · exact .ite h.updWave.acquire.redrain h.updWave

theorem MemForm.tellCbar {key phase wid : Nat} (h : MemForm s) : MemForm (s.tellCbar key phase wid) :=
  .ite (h.comes fun _ h => h.releaseCbar) h

theorem MemForm.arriveCbar {part key n wid pc : Nat} (h : MemForm s) : MemForm (s.arriveCbar part key n wid pc) :=
  .ite (h.updWave.updPart.foldl fun _ _ h => h.tellCbar) h.updWave.updPart

theorem MemForm.cbarRes {id count : Nat} {wid : Nat} {w : Wave} (h : MemForm s) : UniForm (cbarRes id count s wid w) := by
  unfold Machine.cbarRes
  split
  · exact .done h
  · exact .ite (.stay h.parked.rested) (.ite .trap (h.released fun _ h => .stay h.arriveCbar.rested))

theorem MemForm.execCbar {id : Fin 16} {a : SReg} (h : MemForm s) : OutForm (execCbar id a s) := h.uniStep fun _ _ _ h => h.cbarRes

theorem MemForm.ljoinRes {wid : Nat} {w : Wave} (h : MemForm s) : UniForm (ljoinRes s wid w) := by
  unfold Machine.ljoinRes
  split
  · exact .done h
  · exact .ite (.done h.acquire) (.stay h.parked.rested)

theorem MemForm.passLjoin {wid : Nat} {stamp : Nat × Nat} (h : MemForm s) : MemForm (s.passLjoin wid stamp) :=
  .ite h.updWave.acquire.redrain h

theorem MemForm.execLjoin (h : MemForm s) : OutForm (execLjoin s) := h.uniStep fun _ _ _ h => h.ljoinRes

theorem MemForm.stampFence {wid : Nat} {sc : Scope} (h : MemForm s) : MemForm (s.stampFence wid sc) := .ite h.updWave h

theorem MemForm.fenceRes {o : FenceOrder} {e : Bool} {sc : Scope} {wid : Nat} {w : Wave} (h : MemForm s) :
    UniForm (fenceRes o e sc s wid w) :=
  .ite h.wait (.ite (.done (.ite h h.acquire)) (h.released fun _ h => .done (.ite h.stampFence h.stampFence.acquire)))

theorem MemForm.execFenceAcq {e : Bool} {sc : Scope} (h : MemForm s) : OutForm (execFenceAcq e sc s) :=
  h.uniStep fun _ _ _ h => h.fenceRes

theorem MemForm.execFenceRel {e : Bool} {sc : Scope} (h : MemForm s) : OutForm (execFenceRel e sc s) :=
  h.uniStep fun _ _ _ h => h.fenceRes

theorem MemForm.execFenceFull {e : Bool} {sc : Scope} (h : MemForm s) : OutForm (execFenceFull e sc s) :=
  h.uniStep fun _ _ _ h => h.fenceRes

theorem MemForm.yieldRes {wid : Nat} {w : Wave} (h : MemForm s) : UniForm (yieldRes s wid w) := by
  unfold Machine.yieldRes
  split
  · exact .done h
  · exact .ite (.placed h.updWave.rested) (.done h)

theorem MemForm.execYield (h : MemForm s) : OutForm (execYield s) := h.uniStep fun _ _ _ h => h.yieldRes

theorem MemForm.sleepRes {n : Nat} {wid : Nat} {w : Wave} (h : MemForm s) : UniForm (sleepRes n s wid w) :=
  .ite (.done h) (.stay h.parked.after.rested)

theorem MemForm.execSleep {a : SReg} (h : MemForm s) : OutForm (execSleep a s) := h.uniStep fun _ _ _ h => h.sleepRes

theorem MemForm.execSleepWake {core slot : Nat} (h : MemForm s) : OutForm (execSleepWake core slot s) := by
  unfold Machine.execSleepWake
  split
  · exact .next h
  · split
    · exact .next (.ite h (.ite h.atRelockEnd h.updWave))
    · exact .next h

theorem MemForm.perfqRes {d cls : Nat} {wid : Nat} {w : Wave} (h : MemForm s) : UniForm (perfqRes d cls s wid w) :=
  .done h.fileReq.updTeam.updWave

theorem MemForm.execPerfq {d a : SReg} (h : MemForm s) : OutForm (execPerfq d a s) := h.uniStep fun _ _ _ h => h.perfqRes

theorem MemForm.thrmRes {arm : Bool} {wid : Nat} {w : Wave} (h : MemForm s) : UniForm (thrmRes arm s wid w) := by
  unfold Machine.thrmRes
  extract_lets
  split
  · split
    · exact .done h.updTeam
    · exact .done (.ite h.updTeam.pendAsync h.updTeam)
  · exact .done (h.updTeam.foldl fun _ _ h => h.updWave)

theorem MemForm.execThrm {arm : Bool} (h : MemForm s) : OutForm (execThrm arm s) := h.uniStep fun _ _ _ h => h.thrmRes

/-! ## Machine/System -/

theorem MemForm.trapGroup {f : State → Group → Nat → Wave → State} (h : MemForm s) (hf : ∀ t x1 x2 x3, MemForm t → MemForm (f t x1 x2 x3)) :
    OutForm (trapGroup f s) := by
  unfold Machine.trapGroup
  split
  · exact .fault
  · refine .next ?_
    refine h.foldl fun _ _ h1 => ?_
    split
    · exact h1
    · exact hf _ _ _ _ h1

theorem MemForm.execIllegalOp (h : MemForm s) : OutForm (execIllegalOp s) := h.trapGroup fun _ _ _ _ h => h.takeTrap

theorem MemForm.execFetchFault (h : MemForm s) : OutForm (execFetchFault s) :=
  h.trapGroup fun _ _ _ _ h => .ite (.ite h.killLaunch h.takeTrap) (.ite h.freeze h.takeTrap)

theorem MemForm.trapNext {code : Wave → Nat} {wid : Nat} {w : Wave} (h : MemForm s) : UniForm (trapNext code s wid w) :=
  .placed h.updWave.takeTrap

theorem MemForm.execTrap {imm : Fin 128} (h : MemForm s) : OutForm (execTrap imm s) := h.uniStep fun _ _ _ h => h.trapNext

theorem MemForm.execBkpt (h : MemForm s) : OutForm (execBkpt s) := h.uniStep fun _ _ _ h => h.trapNext

theorem MemForm.execRte (h : MemForm s) : OutForm (execRte s) := h.uniStep fun _ _ _ h => .ite (.placed h.updWave) .trap

theorem MemForm.execHalt (h : MemForm s) : OutForm (execHalt s) := h.uniStep fun _ _ _ h => .ite (.placed h.updWave.sqWave) .trap

theorem MemForm.takeAsync {wid : Nat} {a : Nat × Nat} (h : MemForm s) : MemForm (s.takeAsync wid a) := h.updWave.takeTrap

theorem MemForm.takeDeferred {wid : Nat} {d : Deferred} (h : MemForm s) : MemForm (s.takeDeferred wid d) := h.updWave.takeTrap

theorem MemForm.execAsyncCauseDelivery {core slot : Nat} (h : MemForm s) : OutForm (execAsyncCauseDelivery core slot s) := by
  unfold Machine.execAsyncCauseDelivery
  split
  · exact .next h
  · extract_lets
    split
    · exact .next h
    · exact .next h.takeAsync
    · exact .next h.takeDeferred
    · exact .next (.ite h.takeAsync h.takeDeferred)

theorem MemForm.waveCtl {i : Instr} {p : Fin 8} {v : DWord} {f : State → Nat → Wave → State} (h : MemForm s)
    (hf : ∀ t x1 x2, MemForm t → MemForm (f t x1 x2)) :
    OutForm (waveCtl i p v f s) := by
  unfold Machine.waveCtl
  split
  · exact .next h.updPart
  · exact .ite (.next h) (.ite (.next h.atRelockEnd) (.next (hf _ _ _ h.updPart)))

theorem MemForm.waveWrite {p : Nat} {v : DWord} (h : MemForm s) : MemForm (s.waveWrite p v) := .ite h h.updPart.soon

theorem MemForm.execWaveReenter {p : Fin 8} {v : DWord} (h : MemForm s) : OutForm (execWaveReenter p v s) :=
  h.waveCtl fun _ _ _ h => .ite h (.ite (.ite h.updWave.updWave.abortGate h.updWave.killLaunch) h.updWave.updWave)

theorem MemForm.execWaveResume {p : Fin 8} {v : DWord} (h : MemForm s) : OutForm (execWaveResume p v s) :=
  h.waveCtl fun _ _ _ h => h.updWave

theorem MemForm.execWaveKill {p : Fin 8} {v : DWord} (h : MemForm s) : OutForm (execWaveKill p v s) :=
  h.waveCtl fun _ _ _ h => h.killLaunch

theorem MemForm.srdRes {n d : Nat} {wid : Nat} {w : Wave} (h : MemForm s) : UniForm (srdRes n d s wid w) := by
  unfold Machine.srdRes
  split
  · exact .trap
  · exact .ite .trap (.done h.updWave)

theorem MemForm.srdLane {d : Nat} {wid : Nat} {w : Wave} (h : MemForm s) : UniForm (srdLane d s wid w) := .done h.updWave

theorem MemForm.execSrd {n : Fin 512} {hi : Bool} {d : SReg} (h : MemForm s) : OutForm (execSrd n hi d s) :=
  .ite (h.uniStep fun _ _ _ h => h.srdLane) (h.uniStep fun _ _ _ h => .ite .trap h.srdRes)

theorem MemForm.swrRes {n a : Nat} {wid : Nat} {w : Wave} (h : MemForm s) : UniForm (swrRes n a s wid w) := by
  unfold Machine.swrRes
  extract_lets
  split
  · exact .ite .trap (.done h.updWave)
  · exact .done h.updWave
  · exact .ite (.done h.updWave) .trap
  · exact .done h.updWave
  · exact .ite .trap (.ite .trap (.done h.updCoreFrame))
  · exact .trap

theorem MemForm.execSwr {n : Fin 512} {a : SReg} (h : MemForm s) : OutForm (execSwr n a s) := h.uniStep fun _ _ _ h => h.swrRes

theorem MemForm.pinI {c p : Nat} {cls : Cls} {asid g pc : Nat} (h : MemForm s) : MemForm (s.pinI c p cls asid g pc) := by
  unfold State.pinI
  extract_lets
  split
  · exact h.fillI
  · exact .ite h.fillI (.ite h.fillI h.fillI.updCoreFrame)

theorem MemForm.pinL2 {g p : Nat} {cls : Cls} {pa : Nat} (h : MemForm s) : MemForm (s.pinL2 g p cls pa) := by
  unfold State.pinL2
  extract_lets _ s1
  have h1 : MemForm s1 := h.fetchL2
  exact .ite h1 (.ite h1.frame h1)

theorem MemForm.rangeRow {l1 l2 : State → Nat → Wave → Nat → State} {isL2 : Bool} {lines : Nat} {a : SReg}
    (h : MemForm s) (hl1 : ∀ t x1 x2 x3, MemForm t → MemForm (l1 t x1 x2 x3)) (hl2 : ∀ t x1 x2 x3, MemForm t → MemForm (l2 t x1 x2 x3)) :
    OutForm (rangeRow l1 l2 isL2 lines a s) := h.uniStep fun _ _ _ h => .done (h.foldl fun _ _ h => .ite (hl2 _ _ _ _ h) (hl1 _ _ _ _ h))

theorem MemForm.execIpf {l2 : Bool} {lines : Fin 4096} {a : SReg} (h : MemForm s) : OutForm (execIpf l2 lines a s) := by
  unfold Machine.execIpf
  refine MemForm.rangeRow h (fun _ _ _ _ h => h.fillI) (fun _ _ _ _ h1 => ?_)
  split
  · exact h1
  · exact h1.fetchL2

theorem MemForm.execIpin {l2 : Bool} {lines : Fin 4096} {a : SReg} (h : MemForm s) : OutForm (execIpin l2 lines a s) := by
  unfold Machine.execIpin
  refine MemForm.rangeRow h (fun _ _ _ _ h => h.pinI) (fun _ _ _ _ h1 => ?_)
  split
  · exact h1
  · exact h1.pinL2

theorem MemForm.unpinI {c p asid g pc : Nat} (h : MemForm s) : MemForm (s.unpinI c p asid g pc) := .ite h h.updCoreFrame

theorem MemForm.execIunp {l2 : Bool} {lines : Fin 4096} {a : SReg} (h : MemForm s) : OutForm (execIunp l2 lines a s) := by
  unfold Machine.execIunp
  refine MemForm.rangeRow h (fun _ _ _ _ h => h.unpinI) (fun _ _ _ _ h1 => ?_)
  split
  · exact h1
  · exact h1.frame

theorem MemForm.rgneRes {a : Nat} {wid : Nat} {w : Wave} (h : MemForm s) : UniForm (rgneRes a s wid w) :=
  .ite .trap (.ite .trap (.done h.updWave))

theorem MemForm.execRgne {a : SReg} (h : MemForm s) : OutForm (execRgne a s) := h.uniStep fun _ _ _ h => h.rgneRes

theorem MemForm.rgnlRes {wid : Nat} {w : Wave} (h : MemForm s) : UniForm (rgnlRes s wid w) := .ite .trap (.ite (.done h.updWave) h.wait)

theorem MemForm.execRgnl (h : MemForm s) : OutForm (execRgnl s) := h.uniStep fun _ _ _ h => h.rgnlRes

theorem MemForm.toGateFrame {wid asid va : Nat} {bs : List Byte} (h : MemForm s) : MemForm (s.toGateFrame wid asid va bs) := by
  unfold State.toGateFrame
  split
  · exact h
  · exact h.foldl fun _ _ h => h.writeHome

theorem MemForm.saveCall {wid : Nat} (h : MemForm s) : MemForm (s.saveCall wid) := by
  unfold State.saveCall
  split
  · exact h
  · exact h.toGateFrame.toGateFrame

theorem MemForm.spillGate {wid k d : Nat} (h : MemForm s) : MemForm (s.spillGate wid k d) := by
  unfold State.spillGate
  split
  · exact h
  · extract_lets
    split
    · exact h
    · extract_lets
      split
      · exact h.updWave
      · exact h.toGateFrame.updWave

theorem MemForm.gcallRes {g : Nat} {wid : Nat} {w : Wave} (h : MemForm s) : UniForm (gcallRes g s wid w) := by
  unfold Machine.gcallRes
  extract_lets p e s1
  have h1 : MemForm s1 := h.refillAll
  clear_value s1 e
  exact .ite .trap (.ite .trap (.ite .trap (.ite .trap (.placed h1.updWave.saveCall.armGate))))

theorem MemForm.execGcall {g : Fin 4096} (h : MemForm s) : OutForm (execGcall g s) := h.uniStep fun _ _ _ h => h.gcallRes

theorem MemForm.gretRes {wid : Nat} {w : Wave} (h : MemForm s) : UniForm (gretRes s wid w) :=
  .ite .trap (.ite .trap (.placed h.refillAll.gateBack.updWave.armGate))

theorem MemForm.execGret (h : MemForm s) : OutForm (execGret s) := h.uniStep fun _ _ _ h => h.gretRes

theorem MemForm.execGateTimeout {core slot : Nat} (h : MemForm s) : OutForm (execGateTimeout core slot s) := by
  unfold Machine.execGateTimeout
  split
  · exact .next h
  · exact .ite (.next h) (.ite (.next h.atRelockEnd) (.ite (.next h.armGate) (.next h.updWave.armGate)))

theorem MemForm.execGateAbortTimeout {core slot : Nat} (h : MemForm s) : OutForm (execGateAbortTimeout core slot s) := by
  unfold Machine.execGateAbortTimeout
  split
  · exact .next h
  · exact .ite (.next h) (.ite (.next h.atRelockEnd) (.ite (.next h.abortGate) (.next h.armGate)))

/-! ## Machine/Reach -/

theorem MemForm.sendLease {l : LeaseReq} (h : MemForm s) : MemForm (s.sendLease l) := h.countFlits.watch.emit

theorem MemForm.requestLease {die p : Nat} {cls : Cls} {chip page : Nat} {right : Right} (h : MemForm s) :
    MemForm (s.requestLease die p cls chip page right) := .ite h (.ite h.frame.sendLease h.frame)

theorem MemForm.renew {e : PtcEntry} {cls : Cls} {right : Right} (h : MemForm s) : MemForm (s.renew e cls right) := .ite h.requestLease h

theorem MemForm.sendRead {r : ReadReq} (h : MemForm s) : MemForm (s.sendRead r) := h.countFlits.watch.emit

theorem MemForm.postRead {ag : Agent} {wid lane : Nat} {keep pre : Bool} {va : Nat} {e : PtcEntry} {pa : Nat} (h : MemForm s) :
    MemForm (s.postRead ag wid lane keep pre va e pa) := .ite h.frame h.frame.sendRead

theorem MemForm.readPeer {ag : Agent} {wid lane : Nat} {keep : Bool} {va : Nat} {e : PtcEntry} {pa : Nat} (h : MemForm s) :
    MemForm (s.readPeer ag wid lane keep va e pa) := by
  unfold State.readPeer
  extract_lets
  split
  · exact h.updWave
  · exact h.postRead.updWave

theorem MemForm.prfPeer {x : PrfReq} (h : MemForm s) : MemForm (s.prfPeer x) := by
  unfold State.prfPeer
  extract_lets _ s1
  have h1 : MemForm s1 := h.requestLease
  split
  · exact h
  · split
    · exact h1.frame
    · exact .ite h h.postRead.renew

theorem MemForm.loadPeer {ag : Agent} {wid lane : Nat} {hint : Option Nat} {va : Nat} {e : PtcEntry} {pa n : Nat} (h : MemForm s) :
    MemForm (s.loadPeer ag wid lane hint va e pa n).2 := by
  unfold State.loadPeer
  split
  · exact .snd h.renew
  · split
    · exact h
    · exact .snd h.readPeer.renew

theorem MemForm.keepPeer {ag : Agent} {wid : Nat} {hint : Option Nat} {chip pa : Nat} (h : MemForm s) :
    MemForm (s.keepPeer ag wid hint chip pa) := by
  unfold State.keepPeer
  split
  · exact h.forgetLine
  · extract_lets
    split
    · exact h
    · extract_lets
      split
      · exact h.keepCopy
      · exact .ite h.keepCopy.fillL1 h.keepCopy

theorem MemForm.loadHost {wid lane a n : Nat} (h : MemForm s) : MemForm (s.loadHost wid lane a n).2 := by
  unfold State.loadHost
  split
  · exact h
  · split
    · exact h
    · exact .snd h.updWave.soonOnce

theorem MemForm.askScratch {wid c : Nat} {p : Nat → Packet} (h : MemForm s) : MemForm (s.askScratch wid c p) := h.frame.toFifo.updWave

theorem MemForm.storeReg {wid off : Nat} {bs : List Byte} (h : MemForm s) : MemForm (s.storeReg wid off bs) := h.atTick

theorem MemForm.loadAt {op : MemOp} {wid lane : Nat} {g : Go} (h : MemForm s) : MemForm (s.loadAt op wid lane g).2 := by
  unfold State.loadAt
  extract_lets
  split
  · split
    · exact .snd h.loadHbm
    · exact .snd h.readStamp
  · split
    · exact h
    · split
      · exact .snd h.askScratch
      · exact h
  · exact h
  · exact h.loadHost
  · exact h.loadPeer
  · exact h
  · exact h

theorem MemForm.storeAt {wid lane : Nat} {stamp : Option (Nat × Nat)} {g : Go} {bs : List Byte} (h : MemForm s) :
    MemForm (s.storeAt wid lane stamp g bs) := by
  unfold State.storeAt
  extract_lets
  split
  · extract_lets
    split
    · exact h.writeHome
    · exact h.writeHome.stampLine
  · exact h.sendScratch
  · exact h.storeReg
  · exact h.putHost
  · exact h.sendWrite.patchCopies.renew
  · exact h

theorem MemForm.rmwAt {wid lane : Nat} {stamp : Option (Nat × Nat)} {o : RmwOp} {g : Go} (h : MemForm s) :
    MemForm (s.rmwAt wid lane stamp o g).2 := by
  unfold State.rmwAt
  extract_lets
  split
  · extract_lets _ s1
    have h1 : MemForm s1 := h.readStamp.writeHome
    split
    · exact h1
    · exact h1.stampLine
  · split
    · exact h
    · split
      · exact .snd h.askScratch
      · exact h.storeScratch
  · split
    · exact h
    · exact h.sendWrite.noKeep.updWave.renew
  · exact h
  · exact h

theorem MemForm.xaccAt {wid : Nat} {t : CellType} {x : Nat} {g : Go} (h : MemForm s) : MemForm (s.xaccAt wid t x g) := by
  unfold State.xaccAt
  split
  · extract_lets s1
    have h1 : MemForm s1 := h.readStamp.writeHome
    split
    · exact h1
    · exact h1.stampLine
  · exact h

theorem MemForm.xrdAt {wid : Nat} {f : FFmt} {clr : Bool} {g : Go} (h : MemForm s) : MemForm (s.xrdAt wid f clr g).2 := by
  unfold State.xrdAt
  split
  · refine .snd (.ite ?_ h.readStamp)
    extract_lets s1
    have h1 : MemForm s1 := h.readStamp.writeHome
    split
    · exact h1
    · exact h1.stampLine
  · exact h
  · exact h

theorem MemForm.memLane {op : MemOp} {act : State → Nat → Wave → Nat → Go → Option VWrites × State}
    {x : Nat × Nat × Go} (h : MemForm s) (hact : ∀ t x1 x2 x3 x4, MemForm t → MemForm (act t x1 x2 x3 x4).2) :
    MemForm (State.memLane op act s x) := by
  unfold State.memLane
  split
  · exact h
  · extract_lets s1
    have h1 : MemForm s1.2 := hact _ _ _ _ _ h
    split
    · exact h1
    · exact h1.updWave.foldl fun _ _ h => h.foldl fun _ _ h => h.copyBack

theorem MemForm.recordFaults {op : MemOp} {bi : Nat} {work : List (Nat × List Nat × List (Nat × Go))} (h : MemForm s) :
    MemForm (s.recordFaults op bi work) := by
  unfold State.recordFaults
  split
  · exact h
  · exact h
  · exact h.fqRecords.drawn

theorem MemForm.logFaults {op : MemOp} {wid : Nat} {w : Wave} {asid : Nat} {peer : Bool}
    {opOf : State → Nat → Wave → Nat → Nat → LogOp} {go : List (Nat × Go)} (h : MemForm s) :
    MemForm (s.logFaults op wid w asid peer opOf go) := h.updCoreFrame.updWave

theorem MemForm.askLeases {op : MemOp} {wid : Nat} {go : List (Nat × Go)} (h : MemForm s) : MemForm (s.askLeases op wid go) := by
  unfold State.askLeases
  refine h.foldl fun _ _ h1 => ?_
  split
  · exact h1.requestLease.updWave
  · exact h1

theorem MemForm.memFinish {op : MemOp} {bi : Nat} {opOf : State → Nat → Wave → Nat → Nat → LogOp} {g : Group} {off : List Nat}
    {go : List (Nat × Go)} {wid : Nat} (h : MemForm s) :
    MemForm (State.memFinish op bi opOf g off go s wid) := by
  unfold State.memFinish
  split
  · exact h
  · extract_lets _ _ s1 s2 s3
    have h1 : MemForm s1 := .ite h.updWave.updWave h.updWave.logFaults
    have h2 : MemForm s2 := h1.askLeases
    have h3 : MemForm s3 := by
      unfold s3
      split
      · exact h2
      · exact h2.acquire
    split
    · exact h3.updWave.laneTrap
    · exact h3.updWave

theorem MemForm.logRelease {op : MemOp} {bi : Nat} {opOf : State → Nat → Wave → Nat → Nat → LogOp} {wid : Nat} {sc : Scope}
    {off : List Nat} {on : List (Nat × Go)} (h : MemForm s) :
    MemForm (s.logRelease op bi opOf wid sc off on) := by
  unfold State.logRelease
  split
  · exact h
  · exact h.updCoreFrame.updWave

theorem MemForm.memGo {op : MemOp} {bi : Nat} {opOf : State → Nat → Wave → Nat → Nat → LogOp}
    {work : List (Nat × List Nat × List (Nat × Go))} {wid : Nat} {off : List Nat} {on : List (Nat × Go)} (h : MemForm s) :
    MemForm (State.memGo op bi opOf s work wid off on).1 := by
  unfold State.memGo
  extract_lets
  split
  · exact h
  · split
    · exact h
    · split
      · next e => exact MemForm.of_snd h.release e
      · next e =>
        have h1 := MemForm.of_snd h.release e
        exact .fst (.ite h1.logRelease h1.updWave)

theorem MemForm.memBegin {op : MemOp} {bi : Nat} {opOf : State → Nat → Wave → Nat → Nat → LogOp} {g : Group}
    {r : State × List (Nat × List Nat × List (Nat × Go))} {x : Nat × State.MemPlan} (h : MemForm r.1) :
    MemForm (State.memBegin op bi opOf g r x).1 := by
  unfold State.memBegin
  extract_lets
  split
  · exact h
  · exact .fst h.laneTrap
  · exact .fst h.killLaunch
  · exact .fst h.laneTrap
  · exact .fst h.updWave
  · exact .fst h.updWave
  · split
    · exact h
    · exact .fst h.awaitSlab
  · exact h.memGo
  · exact h.memGo

theorem MemForm.memHeld {g : Group} {work : List (Nat × List Nat × List (Nat × Go))} {x : Nat × State.MemPlan} (h : MemForm s) :
    MemForm (State.memHeld g work s x) := by
  unfold State.memHeld
  split
  · exact .ite h.updWave h
  · exact h

theorem MemForm.keepTlbs {bi wid : Nat} {go : List (Nat × Go)} (h : MemForm s) : MemForm (s.keepTlbs bi wid go) := by
  unfold State.keepTlbs
  split
  · exact h
  · refine h.foldl fun _ _ h1 => ?_
    split
    · exact h1
    · exact h1.keepTlb

theorem MemForm.touchWrite {op : MemOp} {x : Nat × Nat × Go} (h : MemForm s) : MemForm (State.touchWrite op s x) := by
  unfold State.touchWrite
  split
  · exact .ite h h.l2Home
  · exact h

theorem MemForm.touchRead {op : MemOp} {x : Nat × Nat × Go} (h : MemForm s) : MemForm (State.touchRead op s x) := by
  unfold State.touchRead
  split
  · exact h
  · split
    · split
      · exact .ite h.forgetLine h
      · exact h
    · split
      · split
        · exact h.keepHbm
        · exact h.forgetLine.l2Home
      · exact h.keepPeer
      · exact h

theorem MemForm.memStep {op : MemOp} {bi o : Nat} {regs : List Nat} {opOf : State → Nat → Wave → Nat → Nat → LogOp}
    {act : State → Nat → Wave → Nat → Go → Option VWrites × State} (h : MemForm s)
    (hact : ∀ s wid w l g, MemForm s → MemForm (act s wid w l g).2) : OutForm (memStep op bi o regs opOf act s) := by
  unfold Machine.memStep
  split
  · exact .fault
  · extract_lets plans r work s1 s2 s3 s4 s5
    have hr : MemForm r.1 := MemForm.foldl_fst h fun _ _ h => h.memBegin
    have h1 : MemForm s1 := hr.foldl fun _ _ h => h.keepTlbs
    have h2 : MemForm s2 := h1.foldl fun _ _ h => h.touchWrite
    have h3 : MemForm s3 := h2.foldl fun _ _ h => h.memLane hact
    have h4 : MemForm s4 := .recordFaults (h3.foldl fun _ _ h => h.touchRead)
    have h5 : MemForm s5 := h4.foldl fun _ _ h => h.memFinish
    exact .next (h5.foldl fun _ _ h => h.memHeld)

/-! ## Machine/Mem -/

theorem MemForm.loadRow {spaces : List Nat} {w : Width} {hint : Option Nat} {d : VReg} {n : BReg} {o : VReg} (h : MemForm s) :
    OutForm (loadRow spaces w hint d n o s) := h.memStep fun _ _ _ _ _ h => h.loadAt

theorem MemForm.storeRow {spaces : List Nat} {w : Width} {hint : Option Nat} {v : VReg} {n : BReg} {o : VReg} (h : MemForm s) :
    OutForm (storeRow spaces w hint v n o s) := by
  unfold Machine.storeRow
  extract_lets
  refine MemForm.memStep h (fun _ _ _ _ _ h1 => ?_)
  split
  · exact h1
  · exact h1
  · exact .snd h1.storeAt

theorem MemForm.execLdq {pair acq : Bool} {sc : Scope} {d : VReg} {n : BReg} {o : VReg} (h : MemForm s) :
    OutForm (execLdq pair acq sc d n o s) := h.memStep fun _ _ _ _ _ h => h.loadAt

theorem MemForm.execStq {pair rel : Bool} {sc : Scope} {v : VReg} {n : BReg} {o : VReg} (h : MemForm s) :
    OutForm (execStq pair rel sc v n o s) := by
  unfold Machine.execStq
  extract_lets
  refine MemForm.memStep h (fun _ _ _ _ _ h1 => ?_)
  split
  · exact h1
  · exact h1
  · exact .snd h1.storeAt

theorem MemForm.prfLane {l2 : Bool} {wid : Nat} {w : Wave} {b : RecBits} {lane i : Nat} (h : MemForm s) :
    MemForm (State.prfLane l2 s wid w b lane i) := by
  unfold State.prfLane
  extract_lets
  split
  · exact .ite h (.ite h.l2Home h.keepHbm)
  · exact h.prfPeer
  · exact h

theorem MemForm.prfWave {l2 : Bool} {n : BReg} {o : VReg} {g : Group} {wid : Nat} (h : MemForm s) :
    MemForm (State.prfWave l2 n o g s wid) := by
  unfold State.prfWave
  split
  · exact h
  · extract_lets _ s1
    have h1 : MemForm s1 := h.foldl fun _ _ h => h.prfLane
    split
    · exact h.awaitSlab
    · exact h1.updWave

theorem MemForm.execPrf {l2 : Bool} {n : BReg} {o : VReg} (h : MemForm s) : OutForm (execPrf l2 n o s) := by
  unfold Machine.execPrf
  split
  · exact .fault
  · refine .next ?_
    refine h.foldl fun _ _ h1 => ?_
    split
    · exact h1
    · exact .ite h1.laneTrap h1.prfWave

theorem MemForm.atomicRow {w : Nat} {sc : Scope} {dst src : List Nat} {d : VReg} {n : BReg} {o : VReg}
    {f : Wave → Nat → RmwOp} (h : MemForm s) :
    OutForm (atomicRow w sc dst src d n o f s) := h.memStep fun _ _ _ _ _ h => h.rmwAt

theorem MemForm.execXacc {t : CellType} {v : VReg} {n : BReg} {o : VReg} (h : MemForm s) : OutForm (execXacc t v n o s) := by
  unfold Machine.execXacc
  extract_lets
  refine MemForm.memStep h (fun _ _ _ _ _ h1 => ?_)
  split
  · exact h1
  · exact h1
  · exact .snd h1.xaccAt

theorem MemForm.execXrd {pair clr : Bool} {d : VReg} {n : BReg} {o : VReg} (h : MemForm s) : OutForm (execXrd pair clr d n o s) :=
  h.memStep fun _ _ _ _ _ h => h.xrdAt

theorem MemForm.execHostWindowTimeout {core slot : Nat} (h : MemForm s) : OutForm (execHostWindowTimeout core slot s) := by
  unfold Machine.execHostWindowTimeout
  split
  · exact .next h
  · split
    · exact .next h
    · split
      · exact .next h.atRelockEnd
      · split
        · exact .next h.logged.takeTrap
        · exact .next h

/-! ## Machine/Engine -/

theorem MemForm.kick {id : Nat} (h : MemForm s) : MemForm (s.kick id) := by
  unfold State.kick
  split
  · exact h
  · split
    · exact h
    · exact .ite h h.soonOnce

theorem MemForm.kickTeam {t : Nat} (h : MemForm s) : MemForm (s.kickTeam t) := by
  unfold State.kickTeam
  extract_lets s1
  have h1 : MemForm s1 := h.foldl fun _ _ h => .ite h.kick h
  split
  · exact h1
  · exact .ite h1 h1.soonOnce

theorem MemForm.noteChunks {j : Job} {n : Nat} (h : MemForm s) : MemForm (s.noteChunks j n) := by
  unfold State.noteChunks
  split
  · exact h
  · exact h.updTeam

theorem MemForm.acceptJob {j : Job} (h : MemForm s) : MemForm (s.acceptJob j) := by
  unfold State.acceptJob
  extract_lets _ s1 _ _ _ s2 s3
  have h1 : MemForm s1 := .ite h.counted h
  have h2 : MemForm s2 := by
    unfold s2
    split
    · exact h1.frame
    · exact h1.frame.setTag
  have h3 : MemForm s3 := .ite h2.noteChunks h2
  exact h3.kick

theorem MemForm.afterJob {j : Job} (h : MemForm s) : MemForm (s.afterJob j) := by
  unfold State.afterJob
  split
  · exact h
  · exact h.kickTeam.checkTeam

theorem MemForm.jobCause {id code : Nat} {addr : Option Nat} (h : MemForm s) : MemForm (s.jobCause id code addr) := by
  unfold State.jobCause
  split
  · exact h
  · split
    · exact h.nodeFail.forgetJob
    · split
      · exact h.toFifo
      · extract_lets s1
        have h1 : MemForm s1 := by
          unfold s1
          split
          · exact h
          · exact .ite h.pendCheck h.pendDeferred
        exact h1.endJob.afterJob

theorem MemForm.jobPoison {id : Nat} (h : MemForm s) : MemForm (s.jobPoison id) := by
  unfold State.jobPoison
  split
  · exact h
  · split
    · exact h.jobCause
    · split
      · split
        · exact h.killGrid
        · exact h.killFor
      · exact h.jobCause

theorem MemForm.jobDone {id : Nat} (h : MemForm s) : MemForm (s.jobDone id) := by
  unfold State.jobDone
  split
  · exact h
  · split
    · exact h.forgetJob.soonOnce
    · exact h.endJob.afterJob

theorem MemForm.jobFault {id : Nat} {j : Job} {va kind level : Nat} {chip : Option Nat} (h : MemForm s) :
    MemForm (s.jobFault id j va kind level chip) := .ite h.fqRecords.drawn.updJob h.kick

theorem MemForm.jobStuck {id : Nat} {j : Job} {va kind : Nat} {right : Right} {a7 : JobGo} (h : MemForm s) :
    MemForm (s.jobStuck id j va kind right a7) := by
  unfold State.jobStuck
  split
  · exact h.jobFault
  · exact h.requestLease.updJob
  · exact h.toFifo.updJob
  · exact h.jobCause
  · exact h

theorem MemForm.readForJob {id : Nat} {j : Job} {va : Nat} {e : PtcEntry} {pa : Nat} (h : MemForm s) :
    MemForm (s.readForJob id j va e pa) := .ite h.frame.updJob.renew h.frame.updJob.renew.sendRead

theorem MemForm.jobTouch {j : Job} {space a : Nat} {right : Right} (h : MemForm s) : MemForm (s.jobTouch j space a right) := by
  unfold State.jobTouch
  extract_lets s1
  have h1 : MemForm s1 := .ite h (.ite h.keepTlb h.walked)
  split
  · exact h1.l2Home
  · exact h1

theorem MemForm.dropLine {c : Nat} {chip : Option Nat} {pa : Nat} (h : MemForm s) : MemForm (s.dropLine c chip pa) := h.updCoreFrame

theorem MemForm.jobWrite {id : Nat} {j : Job} {va : Nat} {bs : List Byte} {a6 : JobGo} (h : MemForm s) :
    MemForm (s.jobWrite id j va bs a6) := by
  unfold State.jobWrite
  split
  · exact .ite h.writeHome.dropLine h.writeHome
  · exact h.sendScratch
  · exact h.putHost
  · extract_lets s1
    have h1 : MemForm s1 := h.sendWrite.patchCopies.renew
    exact .ite h1.dropLine h1
  · exact h

theorem MemForm.copyAcked {id n : Nat} (h : MemForm s) : MemForm (s.copyAcked id n) := by
  unfold State.copyAcked
  split
  · exact h
  · exact .ite h.noteChunks.updJob.soonOnce h.noteChunks.updJob

theorem MemForm.jobWritten {id : Nat} (h : MemForm s) : MemForm (s.jobWritten id) := by
  unfold State.jobWritten
  split
  · exact h
  · exact .ite h.toFifo (.ite h h.copyAcked.kick)

theorem MemForm.copyTouch {j : Job} {ps : List Piece} (h : MemForm s) : MemForm (s.copyTouch j ps) := h.foldl fun _ _ h => h.jobTouch

theorem MemForm.copyWrite {id : Nat} {j : Job} {ps : List Piece} {bs : List Byte} (h : MemForm s) : MemForm (s.copyWrite id j ps bs) :=
  h.foldl_fst fun _ _ h => h.foldl fun _ _ h => h.jobTouch.jobWrite

theorem MemForm.copySend {j : Job} {x : Nat} {bs : List Byte} (h : MemForm s) : MemForm (s.copySend j x bs) :=
  h.foldl fun _ _ h => .ite h.emit h.emit

theorem MemForm.copyMove {id : Nat} {j : Job} (h : MemForm s) : MemForm (s.copyMove id j) := by
  unfold State.copyMove
  extract_lets _ _ _ _ _ _ s1
  have h1 : MemForm s1 := .ite h.copyTouch.copySend h.copyTouch.copyWrite
  split
  · exact h.jobStuck
  · exact .ite h.jobPoison (.ite h.kick (.ite h.kick (.ite (h.foldl fun _ _ h => h.readForJob) (.ite h1.updJob.kick
      (.ite h1.updJob h1.updJob.copyAcked.kick)))))

theorem MemForm.copyFetch {id : Nat} {j : Job} (h : MemForm s) : MemForm (s.copyFetch id j) := by
  unfold State.copyFetch
  extract_lets _ s1
  have h1 : MemForm s1 := h.foldl fun _ _ h => h.emit
  exact h1.updJob

theorem MemForm.copyPlace {id : Nat} {j : Job} (h : MemForm s) : MemForm (s.copyPlace id j) := by
  unfold State.copyPlace
  extract_lets _ _ s1
  have h1 : MemForm s1 := h.copyWrite.updJob
  split
  · exact h.jobStuck
  · exact .ite h.kick (.ite h1 h1.copyAcked)

theorem MemForm.execCopyChunkWritten {job : Nat} (h : MemForm s) : OutForm (execCopyChunkWritten job s) := by
  unfold Machine.execCopyChunkWritten
  split
  · exact .next h
  · exact .ite (.next h) (.ite (.next h.jobCause) (.ite (.next h) (.ite (.next h) (.ite (.next h) (.ite (.next h)
      (.ite (.next (.ite h.copyFetch h.copyPlace)) (.next h.copyMove)))))))

theorem MemForm.execCopyJobComplete {job : Nat} (h : MemForm s) : OutForm (execCopyJobComplete job s) := by
  unfold Machine.execCopyJobComplete
  split
  · exact .next h
  · exact .ite (.next h) (.next h.jobDone)

theorem MemForm.updQp {port qp : Nat} {f : Qp → Qp} (h : MemForm s) : MemForm (s.updQp port qp f) := h.frame

theorem MemForm.toJob {job : Nat} {port : Fin 2} {qp : Fin 16384} {pk : RocePkt} {f : Job → State} (h : MemForm s)
    (hf : ∀ x0, MemForm (f x0)) :
    MemForm (s.toJob job port qp pk f) := by
  unfold State.toJob
  split
  · exact h
  · exact .ite h.toFifo (hf _)

theorem MemForm.roceReceive {port qp : Nat} {bs : List Byte} {last : Bool} (h : MemForm s) : MemForm (s.roceReceive port qp bs last) := by
  unfold State.roceReceive
  extract_lets
  split
  · exact h
  · exact h.storeHome.updQp.emit

theorem MemForm.roceAnswer {port qp id pa len : Nat} (h : MemForm s) : MemForm (s.roceAnswer port qp id pa len) :=
  .ite h.frame (h.foldl fun _ _ h => h.emit)

theorem MemForm.answersGo {port : Nat} (h : MemForm s) : MemForm (s.answersGo port) := h.frame.foldl fun _ _ h => h.roceAnswer

theorem MemForm.rocePk {port : Fin 2} {qp : Fin 16384} {pk : RocePkt} (h : MemForm s) : MemForm (s.rocePk port qp pk) := by
  unfold State.rocePk
  split
  · exact h.storeHome.updQp.emit
  · exact h.toJob fun _ => .ite h h.updJob.kick
  · exact h.toJob fun _ => .ite h h.copyAcked
  · exact h.roceAnswer
  · exact h.roceReceive
  · exact .ite h.frame (h.frame.answersGo.foldl fun _ _ h => h.kick)
  · exact h.updQp

theorem MemForm.execRocePacket {port : Fin 2} {qp : Fin 16384} {pk : RocePkt} (h : MemForm s) : OutForm (execRocePacket port qp pk s) :=
  .ite (.next h) (.next h.rocePk)

theorem MemForm.execEthernetPortDown {port : Fin 2} (h : MemForm s) : OutForm (execEthernetPortDown port s) :=
  .next (h.frame.foldl fun _ _ h => h.jobCause)

theorem MemForm.execQueuePairError {port : Fin 2} {qp : Fin 16384} (h : MemForm s) : OutForm (execQueuePairError port qp s) :=
  .next (h.updQp.foldl fun _ _ h => h.jobCause)

theorem MemForm.execCongestionNotificationPacket {port : Fin 2} {qp : Fin 16384} (h : MemForm s) :
    OutForm (execCongestionNotificationPacket port qp s) := .next (.ite h.updQp h.updQp.after)

theorem MemForm.execRateRecovery {port : Fin 2} {qp : Fin 16384} (h : MemForm s) : OutForm (execRateRecovery port qp s) :=
  .next (.ite h.updQp.after h.updQp)

theorem MemForm.answerTo {wid lane id : Nat} {bs : List Byte} (h : MemForm s) : MemForm (s.answerTo wid lane id bs) :=
  .ite h.toFifo h.updWave

/-! ## Machine/Place -/

theorem MemForm.endCalls {wid depth : Nat} (h : MemForm s) : MemForm (s.endCalls wid depth) := by
  unfold State.endCalls
  split
  · exact h
  · exact h.foldl fun _ _ h => h.refillAll.gateBack.updWave

theorem MemForm.restartRegion {wid : Nat} (h : MemForm s) : MemForm (s.restartRegion wid) := by
  unfold State.restartRegion
  split
  · exact h
  · split
    · exact h
    · extract_lets _ s1
      have h1 : MemForm s1 := .endCalls (h.foldl fun _ _ h => h.cancelJob)
      exact .ite h h1.updWave

theorem MemForm.evict {wid : Nat} (h : MemForm s) : MemForm (s.evict wid) := by
  unfold State.evict
  split
  · exact h
  · exact .ite h h.frame.restartRegion.updWave

theorem MemForm.evictTeam {t : Nat} (h : MemForm s) : MemForm (s.evictTeam t) := by
  unfold State.evictTeam
  split
  · exact h
  · extract_lets _ s1
    have h1 : MemForm s1 := h.updTeam.foldl fun _ _ h => h.evict
    exact h1.foldl fun _ _ h => h.cancelJob

theorem MemForm.raiseCarve {c carve : Nat} (h : MemForm s) : MemForm (s.raiseCarve c carve) := .ite h h.updCoreFrame

theorem MemForm.freshI {c t g : Nat} (h : MemForm s) : MemForm (s.freshI c t g) := .ite h h.updCoreFrame

theorem MemForm.startAcquire {c p : Nat} (h : MemForm s) : MemForm (s.startAcquire c p) := h.dropL1.noKeep.dropCopies

theorem MemForm.armClaim {c side : Nat} (h : MemForm s) : MemForm (s.armClaim c side) := h.withdraw.after.drawn

theorem MemForm.claimSide {c side t : Nat} (h : MemForm s) : MemForm (s.claimSide c side t) := h.frame.armClaim

theorem MemForm.claimLater {c side t : Nat} {ws ts tiles : List Nat} (h : MemForm s) : MemForm (s.claimLater c side t ws ts tiles) :=
  h.frame

theorem MemForm.takeTiles {c : Nat} {tiles : List Nat} (h : MemForm s) : MemForm (s.takeTiles c tiles) := h.updCoreFrame

theorem MemForm.evictAll {c : Nat} {ws ts : List Nat} (h : MemForm s) : MemForm (s.evictAll c ws ts) := by
  unfold State.evictAll
  extract_lets s1
  have h1 : MemForm s1 := h.foldl fun _ _ h => .ite h.evict h
  exact h1.foldl fun _ _ h => .ite h.evictTeam h

theorem MemForm.rewake {wid : Nat} (h : MemForm s) : MemForm (s.rewake wid) := by
  unfold State.rewake
  split
  · exact h
  · extract_lets
    split
    · exact h.atTick
    · exact h.after.drawn
    · exact h

theorem MemForm.waveBack {wid : Nat} (h : MemForm s) : MemForm (s.waveBack wid) := by
  unfold State.waveBack
  extract_lets _ s1
  have h1 : MemForm s1 := by
    unfold s1
    split
    · exact h
    · exact h.updCore fun _ h => h.takenBy
  exact h1.updWave.armGate.rewake

theorem MemForm.tilesBack {t : Nat} (h : MemForm s) : MemForm (s.tilesBack t) := by
  unfold State.tilesBack
  split
  · exact h
  · split
    · exact h
    · exact h.tilesIn.updTeam.updCoreFrame

theorem MemForm.reclaim {core wid : Nat} {w : Wave} (h : MemForm s) : MemForm (s.reclaim core wid w) :=
  .waveBack (.ite h.evictAll.updWave.tilesBack.kickTeam h.evictAll.updWave)

theorem MemForm.claim {c t : Nat} {f : Fit} {cls : Cls} (h : MemForm s) : MemForm (s.claim c t f cls) := by
  unfold State.claim
  extract_lets _ _ _ _ _ s1 _ s2
  have h1 : MemForm s1 := .ite h (h.evictAll.foldl fun _ _ h => h.reclaim)
  have h2 : MemForm s2 := .ite h1 h1.takeTiles
  exact .ite h (h2.updTeam.foldl fun _ _ h => .ite h.claimLater h.claimSide)

theorem MemForm.startClaims {c : Nat} (h : MemForm s) : MemForm (s.startClaims c) := by
  unfold State.startClaims
  extract_lets _ _ _ s1
  have h1 : MemForm s1 := h.frame.evictAll.foldl fun _ _ h => .ite (h.foldl fun _ _ h => h.reclaim) h
  exact h1.takeTiles.foldl fun _ _ h => h.armClaim

theorem MemForm.startCore {t : Nat} (h : MemForm s) : MemForm (s.startCore t) := by
  unfold State.startCore
  split
  · exact h
  · split
    · exact h
    · exact h.freshI.raiseCarve.startAcquire.updCore fun _ h => h.clearScratch.tagsTaken.foldl fun _ _ h => h.takenBy

theorem MemForm.startTeam {gid index c : Nat} {f : Fit} (h : MemForm s) : MemForm (s.startTeam gid index c f) := by
  unfold State.startTeam
  split
  · exact h
  · extract_lets _ _ _ s1 _ _ s2 s3
    have h1 : MemForm s1 := h.frame.comes fun _ h => h.startCore
    have h2 : MemForm s2 := .ite h1.claim h1.claim.fileReq
    have h3 : MemForm s3 := .ite h2 h2.atTick
    exact h3.boundary

/-! ## Machine/Matrix -/

theorem CoreForm.putTile {k : Core} {t : Nat} {l : List (Nat × Nat × Word)} (h : CoreForm k) : CoreForm (k.putTile t l) := h

theorem CoreForm.arrayWrite {k : Core} {t : Nat} {l : List (Nat × Nat × Word)} (h : CoreForm k) : CoreForm (k.arrayWrite t l) := .ite h h

theorem MemForm.tablesTouch {ag : Agent} {fa fb : Nat} (h : MemForm s) : MemForm (s.tablesTouch ag fa fb) :=
  h.foldl fun _ _ h => .ite h.cbTouch h

theorem MemForm.awaitTile {c side : Nat} {sp : Spill} (h : MemForm s) : MemForm (s.awaitTile c side sp) := by
  unfold State.awaitTile
  extract_lets s1
  have h1 : MemForm s1 := .ite h h.updCoreFrame
  exact h1.soonOnce

theorem MemForm.tileRes {name : Nat} {writes : Bool} {causes : State → Nat → Wave → List Nat}
    {f : State → Nat → Wave → Nat → State} {wid : Nat} {w : Wave} {addr : optParam (Option Nat) none} (h : MemForm s)
    (hf : ∀ t x1 x2 x3, MemForm t → MemForm (f t x1 x2 x3)) :
    UniForm (tileRes name writes causes f s wid w addr) := by
  unfold Machine.tileRes
  extract_lets
  split
  · exact .trap
  · exact .trap
  · split
    · exact h.wait
    · split
      · exact h.awaitTile.wait
      · split
        · exact .ite (.stay h.killLaunch) .trap
        · exact .done (hf _ _ _ _ h)

theorem MemForm.execMma {sh : Shape} {d : AReg} {a b : SReg} {fa fb : FSlot} (h : MemForm s) : OutForm (execMma sh d a b fa fb s) :=
  h.uniStep fun _ _ _ h => h.tileRes fun _ _ _ _ h => h.tablesTouch.updCore fun _ h => h.arrayWrite

theorem MemForm.execMzero {d : AReg} (h : MemForm s) : OutForm (execMzero d s) :=
  h.uniStep fun _ _ _ h => h.tileRes fun _ _ _ _ h => h.updCore fun _ h => h.putTile

theorem MemForm.execMlda {sh : Shape} {ty : TileType} {d : AReg} {a : SReg} (h : MemForm s) : OutForm (execMlda sh ty d a s) :=
  h.uniStep fun _ _ _ h => h.tileRes fun _ _ _ _ h => h.updCore fun _ h => h.putTile

theorem MemForm.execMsta {sh : Shape} {f : FSlot} {d : AReg} {a : SReg} (h : MemForm s) : OutForm (execMsta sh f d a s) :=
  h.uniStep fun _ _ _ h => h.tileRes fun _ _ _ _ h => h.foldl fun _ _ h => h.storeScratch

theorem MemForm.execMscl {sh : Shape} {d : AReg} {a : SReg} (h : MemForm s) : OutForm (execMscl sh d a s) :=
  h.uniStep fun _ _ _ h => h.tileRes fun _ _ _ _ h => h.updCore fun _ h => h.putTile

theorem MemForm.engineRes {kind tag a : Nat} {f : State → Job → State} {wid : Nat} {w : Wave} (h : MemForm s)
    (hf : ∀ t x1, MemForm t → MemForm (f t x1)) :
    UniForm (engineRes kind tag a f s wid w) := by
  unfold Machine.engineRes
  extract_lets
  split
  · exact .trap
  · split
    · exact h.wait
    · split
      · exact .ite (.stay h.killLaunch) .trap
      · exact .ite h.wait (.ite h.wait (.done (hf _ _ h)))

theorem MemForm.execCpy {tag : Tag} {a : SReg} (h : MemForm s) : OutForm (execCpy tag a s) :=
  h.uniStep fun _ _ _ h => h.engineRes fun _ _ h => h.acceptJob

theorem MemForm.execCpym {tag : Tag} {a : SReg} (h : MemForm s) : OutForm (execCpym tag a s) :=
  h.uniStep fun _ _ _ h => h.engineRes fun _ _ h => h.acceptJob

theorem MemForm.execMml {tag : Tag} {a : SReg} (h : MemForm s) : OutForm (execMml tag a s) :=
  h.uniStep fun _ _ _ h => h.engineRes fun _ _ h => h.acceptJob

theorem MemForm.execMmck {tag : Tag} {a : SReg} (h : MemForm s) : OutForm (execMmck tag a s) :=
  h.uniStep fun _ _ _ h => h.engineRes fun _ _ h => h.acceptJob

theorem MemForm.jobMismatch {j : Job} (h : MemForm s) : MemForm (s.jobMismatch j) := by
  unfold State.jobMismatch
  split
  · exact h.updWave.mismatch
  · split
    · exact h.drawn
    · exact h.killGrid.drawn

theorem MemForm.jobStep {id : Nat} {j : Job} {t : Nat} (h : MemForm s) : MemForm (s.jobStep id j t) := by
  unfold State.jobStep
  extract_lets _ _ _ _ s1 s2
  have h1 : MemForm s1 := .ite h.drawn h
  have h2 : MemForm s2 := .ite (h1.updCore fun _ h => h.putTile) h1
  split
  · split
    · exact h.jobPoison
    · split
      · exact h.jobMismatch
      · extract_lets _ _ s3
        have h3 : MemForm s3 := h2.tablesTouch.updCore fun _ h => h.arrayWrite
        exact .ite h3.updJob.soonOnce h3.updJob.kick
  · split
    · exact h.jobPoison
    · split
      · exact h
      · exact h.jobStuck

theorem MemForm.execMatrixStep {job : Nat} (h : MemForm s) : OutForm (execMatrixStep job s) := by
  unfold Machine.execMatrixStep
  split
  · exact .next h
  · split
    · exact .next h
    · split
      · exact .next h
      · split
        · exact .next h.awaitTile.kick
        · exact .next h.jobStep

theorem MemForm.execMatrixJobComplete {job : Nat} (h : MemForm s) : OutForm (execMatrixJobComplete job s) := by
  unfold Machine.execMatrixJobComplete
  split
  · exact .next h
  · split
    · exact .next h
    · split
      · split
        · exact .next h
        · split
          · exact .next h.awaitTile.soonOnce
          · exact .next (.jobDone (h.updCore fun _ h => h.putTile))
      · exact .next h.jobDone

theorem MemForm.mwaitRes {tag n : Nat} {wid : Nat} {w : Wave} (h : MemForm s) : UniForm (mwaitRes tag n s wid w) := by
  unfold Machine.mwaitRes
  extract_lets
  split
  · exact .trap
  · exact .ite (.done h) h.wait

theorem MemForm.execMwait {tag : Tag} {a : SReg} (h : MemForm s) : OutForm (execMwait tag a s) := h.uniStep fun _ _ _ h => h.mwaitRes

/-! ## Machine/Waits -/

theorem MemForm.execBrec {d : BReg} {a : SReg} (h : MemForm s) : OutForm (execBrec d a s) := by
  unfold Machine.execBrec
  refine MemForm.uniStep h (fun _ _ _ h1 => ?_)
  extract_lets
  split
  · exact .trap
  · exact .done h1.updWave

theorem MemForm.uniTouch {wid asid : Nat} {op : MemOp} {g : Go} (h : MemForm s) : MemForm (s.uniTouch wid asid op g) :=
  .touchRead (h.getD_map fun _ => h.keepTlb)

theorem MemForm.uniBytes {wid : Nat} {l : List (MemOp × Go)} (h : MemForm s) : MemForm (s.uniBytes wid l).2 := by
  induction l generalizing s with
  | nil => exact h
  | cons x l ih =>
    rw [State.uniBytes]
    split
    · next e => exact .of_snd h.loadAt e
    · next e =>
      have h1 := ih (.of_snd h.loadAt e)
      split
      · next e => exact .of_snd h1 e
      · next e => exact .of_snd h1 e

/-- What keeps a uniform read from its bytes leaves the form. -/
theorem MemForm.uniHang {op : MemOp} {wid : Nat} {w : Wave} {pc asid : Nat} {gos : List Go} {r : UniRes} (h : MemForm s)
    (e : s.uniHang op wid w pc asid gos = some r) : UniForm r := by
  unfold State.uniHang at e
  extract_lets at e
  split at e
  · split at e <;> cases e
    · exact .stay h.killLaunch
    · exact .trap
  · split at e
    · cases e
      exact .trap
    · split at e
      · cases e
        exact h.wait
      · split at e
        · cases e
          exact h.wait
        · split at e
          · split at e <;> cases e
            · exact h.wait
            · exact .stay h.fqRecords.drawn.updWave
          · split at e <;> cases e
            exact .stay h.askLeases.updWave

theorem MemForm.uniRead {wid : Nat} {w : Wave} {pc va n : Nat} {f : State → List Byte → UniRes} (h : MemForm s)
    (hf : ∀ s bs, MemForm s → UniForm (f s bs)) : UniForm (s.uniRead wid w pc va n f) := by
  unfold State.uniRead
  extract_lets
  split
  · next e => exact h.uniHang e
  · split
    · next e => exact hf _ _ ((MemForm.of_snd h.uniBytes e).foldl fun _ _ h => h.uniTouch)
    · next e => exact .stay (MemForm.of_snd h.uniBytes e).updWave

theorem MemForm.parkWaitv {again : Bool} {wid : Nat} {w : Wave} {key : Nat} (h : MemForm s) : MemForm (s.parkWaitv again wid w key) := by
  unfold State.parkWaitv
  extract_lets _ _ s1
  have h1 : MemForm s1 := .ite h.updWave h.updWave.after
  exact .ite h1 h1.rested

theorem MemForm.waitvRes {again : Bool} {n : BReg} {sc : Scope} {cc : WCond} {pair : Bool} {d a : SReg} {pc : Nat} {wid : Nat}
    {w : Wave} (h : MemForm s) : UniForm (waitvRes again n sc cc pair d a pc s wid w) := by
  unfold Machine.waitvRes
  extract_lets wd op go
  clear_value go
  split
  · exact .trap
  · split
    · next e => exact h.uniHang e
    · split
      · next e => exact .stay (MemForm.of_snd h.loadAt e).updWave
      · next e =>
        have h1 := MemForm.of_snd h.loadAt e
        exact .ite (.done h1.uniTouch.updWave.acquire) (.stay h1.uniTouch.parkWaitv)

theorem MemForm.execWaitv {n : BReg} {sc : Scope} {cc : WCond} {pair : Bool} {d a : SReg} (h : MemForm s) :
    OutForm (execWaitv n sc cc pair d a s) := h.uniStep fun _ _ _ h => h.waitvRes

theorem MemForm.rereadWaitv {core : Nat} {e : Nat × Wave} (h : MemForm s) : MemForm (s.rereadWaitv core e) := by
  unfold State.rereadWaitv
  extract_lets
  split
  · exact h.updWave.uniWave fun _ _ _ h => h.waitvRes
  · exact h.updWave

theorem MemForm.execWaitvWake {core slot : Nat} (h : MemForm s) : OutForm (execWaitvWake core slot s) := by
  unfold Machine.execWaitvWake
  extract_lets here _ s1
  have h1 : MemForm s1 := by
    unfold s1
    cases here with
    | none => exact h
    | some e => exact h.rereadWaitv
  exact .ite (.next h) (.ite (.next h.soon) (.next (.ite h1.soonOnce h1)))

theorem MemForm.twaitRes {all : Bool} {mask : Nat} {wid : Nat} {w : Wave} (h : MemForm s) : UniForm (twaitRes all mask s wid w) := by
  unfold Machine.twaitRes
  split
  · exact .trap
  · exact .ite (.done h) h.wait

theorem MemForm.execTwaitAll {a : SReg} (h : MemForm s) : OutForm (execTwaitAll a s) := h.uniStep fun _ _ _ h => h.twaitRes

theorem MemForm.execTwaitAny {a : SReg} (h : MemForm s) : OutForm (execTwaitAny a s) := h.uniStep fun _ _ _ h => h.twaitRes

theorem MemForm.execTfirst {d a : SReg} (h : MemForm s) : OutForm (execTfirst d a s) := by
  unfold Machine.execTfirst
  refine MemForm.uniStep h (fun _ _ _ h1 => ?_)
  extract_lets
  split
  · exact .trap
  · exact .done h1.updWave

theorem MemForm.execTclr {a : SReg} (h : MemForm s) : OutForm (execTclr a s) := by
  unfold Machine.execTclr
  refine MemForm.uniStep h (fun _ _ _ h1 => ?_)
  extract_lets
  split
  · exact .trap
  · exact .done (h1.foldl fun _ _ h => h.setTag)

theorem MemForm.chwaitRes {all : Bool} {tag word d mask : Nat} {wid : Nat} {w : Wave} (h : MemForm s) :
    UniForm (chwaitRes all tag word d mask s wid w) := by
  unfold Machine.chwaitRes
  split
  · exact .trap
  · exact .ite (.done h.updWave) h.wait

theorem MemForm.execChwaitAll {tag : Tag} {w : Fin 16} {d a : SReg} (h : MemForm s) : OutForm (execChwaitAll tag w d a s) :=
  h.uniStep fun _ _ _ h => h.chwaitRes

theorem MemForm.execChwaitAny {tag : Tag} {w : Fin 16} {d a : SReg} (h : MemForm s) : OutForm (execChwaitAny tag w d a s) :=
  h.uniStep fun _ _ _ h => h.chwaitRes

theorem MemForm.schedNext {t : Nat} (h : MemForm s) : MemForm (s.schedNext t) := by
  unfold State.schedNext
  extract_lets s1
  have h1 : MemForm s1 := by
    unfold s1
    split
    · exact h
    · exact h.forgetJob
  exact h1.updTeam

theorem MemForm.pendSched {wid code : Nat} {addr : Option Nat} {adv id : Nat} (h : MemForm s) :
    MemForm (s.pendSched wid code addr adv id) := h.updWave

theorem MemForm.schedSkip {t : Nat} {j : Job} {code : Nat} {addr : Option Nat} (h : MemForm s) : MemForm (s.schedSkip t j code addr) := by
  unfold State.schedSkip
  extract_lets s1
  have h1 : MemForm s1 := by
    unfold s1
    split
    · exact h
    · exact .ite h.pendCheck h.pendSched
  exact h1.schedNext

theorem MemForm.schedHold {t : Nat} {j : Job} (h : MemForm s) : MemForm (s.schedHold t j).2 := by
  unfold State.schedHold
  split
  · exact h
  · exact .snd h.frame

theorem MemForm.schedOne {t : Nat} (h : MemForm s) : MemForm (s.schedOne t).2 := by
  unfold State.schedOne
  split
  · exact h
  · split
    · exact h
    · split
      · exact h
      · extract_lets _ _ _ _ _ go
        clear_value go
        split
        · exact h
        · split
          · exact .snd h.schedSkip
          · split
            · exact h
            · split
              · exact .snd h.schedSkip
              · split
                · exact .snd h.schedSkip
                · exact .snd h.schedHold.jobStuck
                · exact .snd h.schedHold.jobStuck
                · split
                  · split
                    · exact .snd h.killFor
                    · exact .snd h.schedSkip
                  · split
                    · exact .snd h.jobTouch.schedSkip
                    · exact .snd h.schedNext.jobTouch.acceptJob

theorem MemForm.schedule {t n : Nat} (h : MemForm s) : MemForm (s.schedule t n) := by
  induction n generalizing s with
  | zero => exact h
  | succ n ih =>
    rw [State.schedule]
    split
    · next e => exact ih (.of_snd h.schedOne e)
    · next e => exact .of_snd h.schedOne e

theorem MemForm.execScheduleEntryIssue {team : Nat} (h : MemForm s) : OutForm (execScheduleEntryIssue team s) := by
  unfold Machine.execScheduleEntryIssue
  split
  · exact .next h
  · exact .ite (.next h) (.ite (.next h.atRelockEnd) (.next h.schedule))

theorem MemForm.execSchadv {k : BitVec 13} (h : MemForm s) : OutForm (execSchadv k s) :=
  h.uniStep fun _ _ _ h => .ite (.done h) (.done h.updTeam.schedule)

theorem MemForm.acceptColl {j : Job} (h : MemForm s) : MemForm (s.acceptColl j) :=
  .ite h.updPart.acceptJob.jobCause (.ite h.updPart.acceptJob.soon h.updPart.acceptJob)

theorem MemForm.execColl {tag : Tag} {a : SReg} (h : MemForm s) : OutForm (execColl tag a s) :=
  h.uniStep fun _ _ _ h => h.engineRes fun _ _ h => h.acceptColl

theorem MemForm.areaTouch {j : Job} {a : Area} (h : MemForm s) : MemForm (s.areaTouch j a) := h.foldl fun _ _ h => h.jobTouch

theorem MemForm.areaWrite {id : Nat} {j : Job} {a : Area} {bs : List Byte} (h : MemForm s) : MemForm (s.areaWrite id j a bs) :=
  h.foldl_fst fun _ _ h => h.jobTouch.jobWrite

theorem MemForm.sendColl {j : Job} {e : GroupEntry} {mine : List Byte} (h : MemForm s) : MemForm (s.sendColl j e mine) :=
  h.foldl fun _ _ h => h.foldl fun _ _ h => .ite h.emit h.sendMember

theorem MemForm.sendArrival {wid g : Nat} {e : GroupEntry} (h : MemForm s) : MemForm (s.sendArrival wid g e) :=
  h.foldl fun _ _ h => .ite h.emit h.sendMember

theorem MemForm.collRound {id : Nat} {j : Job} {sends : List (List Byte)} (h : MemForm s) : MemForm (s.collRound id j sends) := by
  unfold State.collRound
  extract_lets
  split
  · exact h.jobStuck.soon
  · split
    · exact h.jobPoison
    · split
      · exact h.areaTouch.sendColl.jobDone
      · split
        · exact h.jobStuck.soon
        · exact h.areaTouch.sendColl.areaWrite.jobDone

theorem MemForm.execCollRoundComplete {job : Nat} {agree : Bool} {sends : List (List Byte)} (h : MemForm s) :
    OutForm (execCollRoundComplete job agree sends s) := by
  unfold Machine.execCollRoundComplete
  split
  · exact .next h
  · exact .ite (.next h) (.ite (.next h.jobCause) (.ite (.next h.soon) (.next h.collRound)))

theorem MemForm.passCollw {wid : Nat} {w : Wave} (h : MemForm s) : MemForm (s.passCollw wid w) := h.acquire

theorem MemForm.collwArrive {g : Nat} {wid : Nat} {w : Wave} {p : Nat} {e : GroupEntry} {parked : State → UniRes} (h : MemForm s)
    (hp : ∀ s, MemForm s → UniForm (parked s)) : UniForm (collwRes.arrive g s wid w p e parked) :=
  .ite h.wait (h.released fun _ h => hp _ (.ite h.updPart.updWave.sendArrival.soon h.updPart.updWave.sendArrival))

theorem MemForm.collwRes {g : Nat} {wid : Nat} {w : Wave} (h : MemForm s) : UniForm (collwRes g s wid w) := by
  unfold Machine.collwRes
  extract_lets p e
  clear_value e
  refine .ite .trap (.ite .trap ?_)
  split
  · exact .ite (.ite (.done h.updWave.passCollw) (.stay h.parked)) (h.collwArrive fun _ h => .stay h.parked)
  · exact h.collwArrive fun _ h => .stay h.parked

theorem MemForm.execCollw {g : Fin 256} (h : MemForm s) : OutForm (execCollw g s) := h.uniStep fun _ _ _ h => h.collwRes

theorem MemForm.releaseCollw {p g n wid : Nat} (h : MemForm s) : MemForm (s.releaseCollw p g n wid) := by
  unfold State.releaseCollw
  split
  · exact h
  · split
    · exact h
    · exact .ite h.updWave.passCollw.redrain h

theorem MemForm.tellCollw {p g n wid : Nat} (h : MemForm s) : MemForm (s.tellCollw p g n wid) :=
  .ite (h.comes fun _ h => h.releaseCollw) h

theorem MemForm.execCollwRelease {p : Fin 8} {group : Fin 256} (h : MemForm s) : OutForm (execCollwRelease p group s) :=
  .ite (.next h) (.next (h.updPart.foldl fun _ _ h => h.tellCollw))

/-! ## Machine/Whisk -/

theorem MemForm.kickFetch (h : MemForm s) : MemForm s.kickFetch := h.foldl fun _ _ h => .ite h.soonOnce h

theorem MemForm.startSoon {hq k : Nat} (h : MemForm s) : MemForm (s.startSoon hq k) := .ite h h.after.drawn

theorem MemForm.gainWork {p : Nat} (h : MemForm s) : MemForm (s.gainWork p) := .ite h h.after

theorem MemForm.kickPlace {p : Nat} (h : MemForm s) : MemForm (s.kickPlace p) := h.foldl fun _ _ h => h.soonOnce

theorem MemForm.kickSlot {k : Nat} (h : MemForm s) : MemForm (s.kickSlot k) := by
  unfold State.kickSlot
  extract_lets
  split
  · exact .ite h.startSoon h
  · exact h.soonOnce
  · exact h.soonOnce
  · exact h.soonOnce
  · exact h.soonOnce
  · exact .ite h.soonOnce h.kick
  · exact h

theorem MemForm.kickQueue {hq : Nat} (h : MemForm s) : MemForm (s.kickQueue hq) := by
  unfold State.kickQueue
  extract_lets s1
  have h1 : MemForm s1 := h.foldl fun _ _ h => h.kickSlot
  exact h1.kickFetch.kickPlace.gainWork

theorem MemForm.whiskTouch {q : Queue} {asid va n : Nat} {right : Right} (h : MemForm s) : MemForm (s.whiskTouch q asid va n right) := by
  unfold State.whiskTouch
  refine h.foldl fun _ _ h1 => ?_
  extract_lets
  split
  · exact h1.walked.l2Home
  · exact h1.walked

theorem MemForm.nodeSaw {k : Nat} {st : Nat × Nat} (h : MemForm s) : MemForm (s.nodeSaw k st) := h.updSlot

theorem MemForm.whiskStore {q : Queue} {asid va scope : Nat} {st : Nat × Nat} {x : Nat} (h : MemForm s) :
    OptForm (s.whiskStore q asid va scope st x) := by
  unfold State.whiskStore
  split
  · exact .some (.ite h.whiskTouch.writeHome.stampLine h.whiskTouch.writeHome)
  · exact .some h.putHost
  · exact .none

theorem MemForm.makeReady {k : Nat} (h : MemForm s) : MemForm (s.makeReady k) := by
  unfold State.makeReady
  extract_lets s1
  have h1 : MemForm s1 := h.updSlot
  exact .ite h1.frame.kickSlot.gainWork h1.frame.kickSlot

theorem MemForm.armSlot {k c : Nat} (h : MemForm s) : MemForm (s.armSlot k c) := .ite h.makeReady h.updSlot

theorem MemForm.decrement {hq k : Nat} (h : MemForm s) : MemForm (s.decrement hq k) := by
  unfold State.decrement
  extract_lets
  split
  · exact h.updSlot
  · exact h.updSlot
  · exact h.armSlot
  · exact h.queueError
  · exact h.queueError

theorem MemForm.slotChanged {hq : Nat} (h : MemForm s) : MemForm (s.slotChanged hq) := by
  unfold State.slotChanged
  extract_lets s1
  have h1 : MemForm s1 := h.foldl fun _ _ h => .ite h.soonOnce h
  exact h1.kickFetch.kickDrain

theorem MemForm.nodeEnded {hq k : Nat} (h : MemForm s) : MemForm (s.nodeEnded hq k) := h.updSlot.soonOnce

theorem MemForm.loadNode {hq k : Nat} {n : List Byte} (h : MemForm s) : MemForm (s.loadNode hq k n) := .ite h.queueError h.updSlot.armSlot

theorem MemForm.execRecordFetch {hq : Nat} (h : MemForm s) : OutForm (execRecordFetch hq s) := by
  unfold Machine.execRecordFetch
  extract_lets _ _ _ s1
  have h1 : MemForm s1 := h.whiskTouch.updQueue
  split
  · exact .next h
  · split
    · exact .next h.queueError
    · exact .ite (.next h) (.ite (.next h1.queueError) (.ite (.next h1.nodeFail) (.next h1.nodeSaw.loadNode.slotChanged)))

theorem MemForm.execNodeComplete {hq slot : Nat} (h : MemForm s) : OutForm (execNodeComplete hq slot s) := by
  unfold Machine.execNodeComplete
  extract_lets _ _ _ _ s1
  have h1 : MemForm s1 := h.updSlot.foldl fun _ _ h => .ite h h.updSlot.decrement
  exact .ite (.next h) (.ite (.next h.updSlot.soonOnce) (.next h1.slotChanged))

theorem MemForm.startLaunch {hq k : Nat} (h : MemForm s) : MemForm (s.startLaunch hq k) := by
  unfold State.startLaunch
  extract_lets _ _ s1
  have h1 : MemForm s1 := h.updSlot.whiskTouch
  split
  · exact h.updSlot.nodeFail
  · split
    · exact h.updSlot.nodeFail
    · extract_lets _ s2
      have h2 : MemForm s2 := .freshId (.ite h1 h1.whiskTouch)
      split
      · exact h1.nodeFail
      · split
        · exact h1.nodeFail
        · exact .ite h2.frame.updSlot.gridCheck h2.frame.updSlot.kickPlace.gainWork

theorem MemForm.startNodeJob {hq k : Nat} (h : MemForm s) : MemForm (s.startNodeJob hq k) := by
  unfold State.startNodeJob
  extract_lets
  split
  · exact h.nodeFail
  · exact .ite h.whiskTouch.nodeFail (.ite h.whiskTouch.updSlot.acceptJob h.whiskTouch.updSlot.acceptColl)

theorem MemForm.nodeRead {hq k : Nat} (h : MemForm s) : MemForm (s.nodeRead hq k) := h.whiskTouch.nodeSaw

theorem MemForm.runWait {hq k : Nat} (h : MemForm s) : MemForm (s.runWait hq k) := by
  unfold State.runWait
  split
  · exact h.nodeFail
  · exact .ite h.nodeRead.nodeEnded h.nodeRead.updSlot.after.drawn

theorem MemForm.runSignal {hq k : Nat} (h : MemForm s) : MemForm (s.runSignal hq k) := by
  refine .ite h.nodeFail (.ite h.updSlot.soonOnce ?_)
  split
  · exact h.nodeFail
  · next e => exact (OptForm.of_some h.whiskStore e).updSlot.nodeEnded

theorem MemForm.runCond {hq k : Nat} (h : MemForm s) : MemForm (s.runCond hq k) := by
  unfold State.runCond
  split
  · exact h.nodeFail
  · exact .ite h.nodeRead.updSlot.soonOnce h.nodeRead.nodeEnded

theorem MemForm.rearm {hq k : Nat} (h : MemForm s) : MemForm (s.rearm hq k) := .ite h.queueError h.armSlot

theorem MemForm.execWaitPoll {hq slot : Nat} (h : MemForm s) : OutForm (execWaitPoll hq slot s) :=
  .ite (.next h) (.next (.ite h.runSignal h.runWait))

theorem MemForm.execCondRangeIdle {hq slot : Nat} (h : MemForm s) : OutForm (execCondRangeIdle hq slot s) := by
  unfold Machine.execCondRangeIdle
  extract_lets _ _ _ s1
  have h1 : MemForm s1 := h.foldl fun _ _ h => .ite h.rearm h
  exact .ite (.next h) (.next h1.rearm.slotChanged)

theorem MemForm.armRing {vf k : Nat} (h : MemForm s) : MemForm (s.armRing vf k) := .ite h.withdraw h.withdraw.atTick

theorem MemForm.ringTick {vf k : Nat} (h : MemForm s) : MemForm (s.ringTick vf k) := .ite h.updRing.raiseIrq h

theorem MemForm.appendRecord {vf k : Nat} {bs : List Byte} (h : MemForm s) : MemForm (s.appendRecord vf k bs).2 := h.putHost.updRing

theorem MemForm.appendGroup {q : Queue} {b : List Byte} {m i : Nat} (h : MemForm s) : MemForm (s.appendGroup q b m i).2.2.2 := by
  induction m generalizing s i with
  | zero => exact h
  | succ m ih =>
    rw [State.appendGroup]
    split
    · exact h
    · split
      · exact h
      · exact ih h.whiskTouch.appendRecord

theorem MemForm.kickRing {vf ring : Nat} (h : MemForm s) : MemForm (s.kickRing vf ring) := h.foldl fun _ _ h => h.kickSlot

theorem MemForm.startPost {hq k : Nat} (h : MemForm s) : MemForm (s.startPost hq k) := .ite h.nodeFail h.updSlot.soonOnce

theorem MemForm.post {hq k i : Nat} (h : MemForm s) : MemForm (s.post hq k i) := by
  unfold State.post
  extract_lets _ _ _ _ s1 _ _ s2 s3
  have h1 : MemForm s1.2.2.2 := h.ringTick.appendGroup
  have h2 : MemForm s2 := .ite h1.updSlot h1.updSlot.putHost
  have h3 : MemForm s3 := h2.foldl fun _ _ h => h.raiseIrq
  exact .ite h.nodeFail.kickRing (.ite h3.armRing.nodeFail.kickRing (.ite h3.armRing.nodeEnded.kickRing h3.armRing))

theorem MemForm.execHostpostAppend {hq slot : Nat} (h : MemForm s) : OutForm (execHostpostAppend hq slot s) := by
  unfold Machine.execHostpostAppend
  extract_lets
  split
  · exact .ite (.next h) (.next h.post)
  · exact .next h

theorem MemForm.execRingTimer {vf : Fin 32} {k : Fin 16} (h : MemForm s) : OutForm (execRingTimer vf k s) :=
  .ite (.next h) (.ite (.next h.ringTick) (.next h.armRing))

theorem MemForm.execNodeStart {hq slot : Nat} (h : MemForm s) : OutForm (execNodeStart hq slot s) := by
  unfold Machine.execNodeStart
  extract_lets
  split
  · exact .next h
  · refine .next ?_
    split
    · exact h.updSlot.startLaunch
    · exact h.updSlot.startNodeJob
    · exact h.updSlot.startNodeJob
    · exact h.updSlot.runWait
    · exact h.updSlot.runSignal
    · exact h.updSlot.runCond
    · exact h.updSlot.startPost

theorem MemForm.doneLater {g : Nat} {row : Instr} (h : MemForm s) : MemForm (s.doneLater g row) := h.updGrid.soonOnce

theorem MemForm.completion {k : Grid} (h : MemForm s) : OptForm (s.completion k) := .ite (.some h) h.whiskStore

theorem MemForm.childGone {g : Nat} {k : Grid} (h : MemForm s) : MemForm (s.childGone g k) := by
  unfold State.childGone
  split
  · exact h
  · extract_lets _ s1
    have h1 : MemForm s1 := by
      unfold s1
      split
      · exact h.updGrid
      · extract_lets
        split
        · exact h.updGrid.updTeam
        · exact .ite (h.updGrid.updTeam.foldl fun _ _ h => .ite (h.comes fun _ h => h.passLjoin) h) h.updGrid.updTeam
    exact h1.gridCheck

theorem MemForm.execLaunchComplete {grid : Nat} (h : MemForm s) : OutForm (execLaunchComplete grid s) := by
  unfold Machine.execLaunchComplete
  split
  · exact .next h
  · next k _ =>
    have hc : OptForm (if k.childFail then none else s.completion k) := .ite .none h.completion
    refine .ite (.next h) (.ite (.next h.doneLater) ?_)
    split
    · exact .next h.nodeFail.forgetGrid.slotChanged
    · next e => exact .next (hc.of_some e).forgetGrid.updSlot.nodeEnded.slotChanged

theorem MemForm.execChildGridRetire {grid : Nat} (h : MemForm s) : OutForm (execChildGridRetire grid s) := by
  unfold Machine.execChildGridRetire
  split
  · exact .next h
  · split
    · exact .next h
    · split
      · exact .next h.doneLater
      · extract_lets s1
        have h1 : MemForm s1 := by
          unfold s1
          split
          · next e => exact OptForm.of_some h.completion e
          · exact h.updGrid
        exact .next h1.forgetGrid.childGone

theorem MemForm.restorePage {k : Grid} {e : Nat × Nat × Bool} (h : MemForm s) : MemForm (s.restorePage k e) :=
  .ite h.copyRange.duplicatePage h.copyRange

theorem MemForm.execLaunchReplay {grid : Nat} (h : MemForm s) : OutForm (execLaunchReplay grid s) := by
  unfold Machine.execLaunchReplay
  split
  · exact .next h
  · split
    · exact .next h
    · split
      · exact .next h.sqGrid.nodeFail.forgetGrid.slotChanged
      · extract_lets _ s1
        have h1 : MemForm s1 := h.sqGrid.foldl fun _ _ h => h.restorePage
        exact .next h1.forgetGrid.startLaunch

/-! ## Machine/Child -/

theorem MemForm.startChild {wid : Nat} {w : Wave} {parent : Nat} {g : Grid} {r : LaunchRec} {sched : List (List Byte)} (h : MemForm s) :
    MemForm (s.startChild wid w parent g r sched) := by
  unfold State.startChild
  extract_lets
  split
  · split
    · next e => exact OptForm.of_some h.frame.completion e
    · exact h.frame.updGrid
  · exact h.frame.updGrid.updTeam.kickPlace.gainWork

theorem MemForm.lchildRes {d a : Nat} {wid : Nat} {w : Wave} (h : MemForm s) : UniForm (lchildRes d a s wid w) := by
  unfold Machine.lchildRes
  split
  · exact .done h
  · split
    · exact .trap
    · exact .ite h.wait (h.uniRead fun _ _ h => .ite (.done h.updWave)
        (h.uniRead fun _ _ h => h.released fun _ h => .done h.freshId.startChild.updWave))

theorem MemForm.execLchild {d a : SReg} (h : MemForm s) : OutForm (execLchild d a s) := h.uniStep fun _ _ _ h => h.lchildRes

/-! ## Machine/SideLog -/

theorem MemForm.dropEntry {c : Nat} {e : SideEntry} (h : MemForm s) : MemForm (s.dropEntry c e) := h.updCoreFrame

theorem MemForm.setEntry {c : Nat} {e f : SideEntry} (h : MemForm s) : MemForm (s.setEntry c e f) := h.updCoreFrame

theorem MemForm.refused {wid : Nat} {d : Deferred} (h : MemForm s) : MemForm (s.refused wid d) := h.updWave

theorem MemForm.refuseEntry {c : Nat} {e : SideEntry} (h : MemForm s) : MemForm (s.refuseEntry c e) := h.dropEntry.refused

theorem MemForm.replayTouch {wid hint : Nat} {a4 : Go} (h : MemForm s) : MemForm (s.replayTouch wid hint a4) := by
  unfold State.replayTouch
  split
  · exact h.l2Home
  · exact h

theorem MemForm.replayOp {wid : Nat} {go : Nat → Go} {a4 : LogOp} (h : MemForm s) : MemForm (s.replayOp wid go a4) := by
  unfold State.replayOp
  split
  · exact h.replayTouch.storeAt
  · exact h.replayTouch.xaccAt

theorem MemForm.entryFault {c : Nat} {e : SideEntry} {level : Nat} {chip : Option Nat} (h : MemForm s) :
    MemForm (s.entryFault c e level chip) := .ite h.fqRecords.drawn.setEntry h.setEntry

theorem MemForm.stemFrom {n : Nat} {e : SideEntry} (h : MemForm s) : MemForm (s.stemFrom n e) := h.frame

theorem MemForm.replayEntry {c : Nat} {e : SideEntry} (h : MemForm s) : MemForm (s.replayEntry c e) := by
  unfold State.replayEntry
  split
  · exact h.entryFault
  · exact h.requestLease.setEntry
  · exact .ite h.dropEntry.pendCheck h.refuseEntry
  · exact .ite h (.stemFrom (h.dropEntry.keepTlb.foldl fun _ _ h => h.replayOp))

theorem MemForm.releaseEntry {c : Nat} {e : SideEntry} {sc : Scope} (h : MemForm s) : MemForm (s.releaseEntry c e sc).2 := by
  unfold State.releaseEntry
  split
  · exact h
  · extract_lets s1
    have h1 : MemForm s1.2.2 := h.releaseFabric
    split
    · exact .snd h1.updCoreFrame
    · exact .snd h1.setEntry

theorem MemForm.replayOne {c : Nat} {k : Nat × Nat × Nat} (h : MemForm s) : MemForm (s.replayOne c k) := by
  unfold State.replayOne
  split
  · exact h
  · split
    · exact .ite h h.replayEntry
    · extract_lets s1
      have h1 : MemForm s1.2 := h.releaseEntry
      split
      · exact h1.replayEntry
      · exact h1

theorem MemForm.replayLog {c : Nat} {ks : List (Nat × Nat × Nat)} {held : List Nat} (h : MemForm s) :
    MemForm (s.replayLog c ks held) := by
  induction ks generalizing s held with
  | nil => exact h
  | cons k ks ih => exact .ite (ih h) (ih h.replayOne)

theorem MemForm.drainLog {c : Nat} (h : MemForm s) : MemForm (s.drainLog c) :=
  .ite h (h.replayLog.foldl fun _ _ h => h.kickTeam.checkTeam)

theorem MemForm.entryAnswered {c chip : Nat} {why : LeaseAnswer} {e : SideEntry} (h : MemForm s) :
    MemForm (s.entryAnswered c chip why e) := by
  unfold State.entryAnswered
  split
  · exact h.setEntry
  · exact h.refuseEntry
  · exact h.setEntry.entryFault

theorem MemForm.leaseAt {c p chip page : Nat} {rs : List Right} {why : LeaseAnswer} (h : MemForm s) :
    MemForm (s.leaseAt c p chip page rs why) := by
  unfold State.leaseAt
  extract_lets _ s1 _ s2
  have h1 : MemForm s1 := h.foldl fun _ _ h => h.updWave
  have h2 : MemForm s2 := h1.foldl fun _ _ h => h.entryAnswered
  exact .ite h2 h2.drainLog

theorem MemForm.leaseAnswer {die p chip page : Nat} {rs : List Right} {why : LeaseAnswer} (h : MemForm s) :
    MemForm (s.leaseAnswer die p chip page rs why) := h.foldl fun _ _ h => h.comes fun _ h => h.leaseAt

theorem MemForm.unaskAt {wid : Nat} {q : Option Nat × Nat} {chip page : Nat} {why : LeaseAnswer} (h : MemForm s) :
    MemForm (s.unaskAt wid q chip page why) := h.updWave

theorem MemForm.unaskWave {wid : Nat} {q : Option Nat × Nat} {chip page : Nat} {why : LeaseAnswer} (h : MemForm s) :
    MemForm (s.unaskWave wid q chip page why) := h.comes fun _ h => h.unaskAt

theorem MemForm.cutAt {wid : Nat} {ids chips : List Nat} (h : MemForm s) : MemForm (s.cutAt wid ids chips) := h.updWave

theorem MemForm.relog (h : MemForm s) : MemForm s.relog := h.foldl fun _ _ h => .ite h h.drainLog

theorem MemForm.drainLogs {p : Nat} (h : MemForm s) : MemForm (s.drainLogs p) := h.foldl fun _ _ h => .ite h h.drainLog

/-! ## Machine/Sched -/

theorem MemForm.placeTeam {g : Nat} {k : Grid} (h : MemForm s) : OptForm (s.placeTeam g k) := by
  unfold State.placeTeam
  split
  · exact .none
  · split
    · exact .none
    · extract_lets _ _ s1
      have h1 : MemForm s1 := h.updGrid.drawn.startTeam
      exact .some h1.frame

theorem MemForm.serveQueue {hq n : Nat} (h : MemForm s) : MemForm (s.serveQueue hq n).2 := by
  induction n generalizing s with
  | zero => exact h
  | succ n ih =>
    rw [State.serveQueue]
    split
    · exact h
    · split
      · exact h
      · split
        · exact h
        · next e => exact ih (OptForm.of_some h.placeTeam e).updQueue

theorem MemForm.serveOne {hq : Nat} (h : MemForm s) : MemForm (s.serveOne hq).2 := by
  unfold State.serveOne
  extract_lets _ _ s1 s2
  have h1 : MemForm s1.2 := h.updQueue.serveQueue
  have h2 : MemForm s2 := .ite h1.updQueue h1
  split
  · exact .snd h.updQueue
  · split
    · exact h
    · exact .snd h2.updPart

theorem MemForm.serveRound {qs : List Nat} (h : MemForm s) : MemForm (s.serveRound qs).2 := by
  induction qs generalizing s with
  | nil => exact h
  | cons q qs ih =>
    rw [State.serveRound]
    split
    · next e => exact .of_snd h.serveOne e
    · next e => exact ih (.of_snd h.serveOne e)

theorem MemForm.serve {p vf : Nat} (h : MemForm s) : MemForm (s.serve p vf) := by
  unfold State.serve
  split
  · next e => exact MemForm.of_snd h.serveRound e
  · next e => exact (MemForm.of_snd h.serveRound e).serveRound

theorem MemForm.fileAgain {t : Nat} (h : MemForm s) : MemForm (s.fileAgain t) := by
  unfold State.fileAgain
  split
  · exact h
  · split
    · exact h
    · exact h.fileReq

theorem MemForm.resumeTeam {t : Nat} (h : MemForm s) : MemForm (s.resumeTeam t) := by
  unfold State.resumeTeam
  split
  · exact h
  · split
    · exact h
    · split
      · exact h.killTeam
      · split
        · exact h
        · extract_lets _ _ _ _ _ _ s1 s2 s3 _ s4 s5
          have h1 : MemForm s1 := h.loadFrame.freshI.raiseCarve.updTeam.foldl fun _ _ h => .ite h.updWave h
          have h2 : MemForm s2 := h1.updCore fun _ h => h.tagsTaken.clearScratch.writeScratch
          have h3 : MemForm s3 := .ite h2 h2.tilesBack
          have h4 : MemForm s4 := h3.dropL1.noKeep.givePcs.foldl fun _ _ h => .ite h h.waveBack
          have h5 : MemForm s5 := h4.foldl fun _ _ h => h.updJob
          exact h5.fileAgain.kickTeam.freed.drainLog

theorem MemForm.resumeSaved {p vf : Nat} (h : MemForm s) : MemForm (s.resumeSaved p vf) := h.foldl fun _ _ h => .ite h h.resumeTeam

theorem MemForm.execTeamPlacement {cluster : Fin 8} (h : MemForm s) : OutForm (execTeamPlacement cluster s) := by
  unfold Machine.execTeamPlacement
  split
  · exact .next h
  · extract_lets
    split
    · exact .next h
    · exact .ite (.next h) (.next (.ite h.resumeSaved.serve.after h.resumeSaved.serve))

theorem MemForm.execClaimComplete {core : Nat} {side : Fin 2} (h : MemForm s) : OutForm (execClaimComplete core side s) :=
  .ite (.next h) (.ite (.next h.soon) (.next (h.frame.foldl fun _ _ h => .ite h h.updTeam)))

theorem MemForm.execSpillCopyDone {core : Nat} {side : Fin 2} (h : MemForm s) : OutForm (execSpillCopyDone core side s) := by
  unfold Machine.execSpillCopyDone
  split
  · exact .next h
  · split
    · exact .next h
    · split
      · exact .next h.atRelockEnd
      · extract_lets s1 s2
        have h1 : MemForm s1 := h.updCoreFrame
        have h2 : MemForm s2 := by
          unfold s2
          split
          · exact h1.homeSlab
          · exact h1.homeTile
          · exact h1.spillSlab.updWave
          · exact h1.spillTile.updCoreFrame
          · exact h1.spillGate
          · split
            · exact h1
            · exact h1.refillSlab
        exact .next (.ite h2.soonOnce h2)

theorem MemForm.readmit {wid : Nat} {w : Wave} (h : MemForm s) : MemForm (s.readmit wid w) :=
  h.updWave.tilesBack.waveBack.checkPhase.rested.kickTeam

theorem MemForm.execReadmission {core slot : Nat} (h : MemForm s) : OutForm (execReadmission core slot s) := by
  unfold Machine.execReadmission
  split
  · exact .next h
  · exact .ite (.next h) (.ite (.next h.atRelockEnd) (.next h.readmit.freed))

theorem MemForm.lend {tiles : List Nat} {wid : Nat} (h : MemForm s) : MemForm (s.lend tiles wid) := by
  unfold State.lend
  split
  · exact h
  · extract_lets
    split
    · exact h.updWave
    · exact .ite h.updWave.updTeam h.updWave

theorem MemForm.lendTo {c : Nat} {e : Nat × Wave} (h : MemForm s) : MemForm (s.lendTo c e) := by
  unfold State.lendTo
  split
  · exact h
  · extract_lets _ _ _ s1
    have h1 : MemForm s1 := h.foldl fun _ _ h => h.lend
    exact .ite h h1.readmit

theorem MemForm.execSlabLend {core : Nat} {side : Fin 2} (h : MemForm s) : OutForm (execSlabLend core side s) := by
  unfold Machine.execSlabLend
  split
  · exact .next h
  · exact .next h
  · exact .ite (.next h) (.ite (.next (.ite h h.after)) (.ite (.next h.after) (.next (h.foldl fun _ _ h => h.lendTo))))

theorem MemForm.execLendReclaim {core slot : Nat} (h : MemForm s) : OutForm (execLendReclaim core slot s) := by
  unfold Machine.execLendReclaim
  split
  · exact .next h
  · split
    · exact .next h.soon
    · extract_lets s1
      have h1 : MemForm s1 := .ite h.rereadWaitv h
      refine .next ?_
      split
      · exact h1
      · exact .ite h1.reclaim.claimSide h1

theorem MemForm.pickVd {p : Nat} (h : MemForm s) : MemForm (s.pickVd p).2 := h.foldl fun _ _ h => .ite h h.updVd.logged

theorem MemForm.preloadCore {c : Nat} {v : Option Nat} (h : MemForm s) : MemForm (s.preloadCore c v) := by
  unfold State.preloadCore
  extract_lets _ s1
  have h1 : MemForm s1 := .ite h (h.foldl fun _ _ h => h.updTeam)
  exact .updCoreFrame (h1.foldl fun _ _ h => h.loadFrame)

theorem MemForm.preload {cores : List Nat} {v : Option Nat} (h : MemForm s) : MemForm (s.preload cores v) :=
  h.foldl fun _ _ h => .ite h h.preloadCore

theorem MemForm.startSlice {p vf : Nat} (h : MemForm s) : MemForm (s.startSlice p vf) := by
  unfold State.startSlice
  extract_lets _ _ _ _ s1
  have h1 : MemForm s1 := h.updVd.updPart.foldl fun _ _ h => h.updTeam
  exact h1.resumeSaved.kickPlace.atTick.preload.atTick

theorem MemForm.endYield {p vf : Nat} (h : MemForm s) : MemForm (s.endYield p vf) := by
  unfold State.endYield
  extract_lets _ s1
  have h1 : MemForm s1 := h.foldl fun _ _ h => h.updTeam.foldl fun _ _ h => .ite h.updWave h
  exact h1.updPart

theorem MemForm.takeSched {p : Nat} (h : MemForm s) : MemForm (s.takeSched p) := by
  unfold State.takeSched
  extract_lets _ _ s1
  have h1 : MemForm s1 := .ite (h.updPart.foldl fun _ _ h => h.lendLater) h.updPart
  exact h1.foldl fun _ _ h => .ite h.updVd h

theorem MemForm.beginSwitch {p : Nat} {next : Option Nat} (h : MemForm s) : MemForm (s.beginSwitch p next) :=
  h.updPart.foldl fun _ _ h => h.atTick

theorem MemForm.idle {p vf : Nat} (h : MemForm s) : MemForm (s.idle p vf) := .ite h.beginSwitch h.updPart

theorem MemForm.execSliceBoundary {p : Fin 8} (h : MemForm s) : OutForm (execSliceBoundary p s) := by
  unfold Machine.execSliceBoundary
  extract_lets
  split
  · exact .next h
  · split
    · split
      · next e => exact .next (MemForm.of_snd h.takeSched.pickVd e)
      · next e => exact .next (MemForm.of_snd h.takeSched.pickVd e).startSlice
    · split
      · exact .next h
      · split
        · exact .next h.after
        · split
          · next e => exact .next (MemForm.of_snd h.takeSched.pickVd e).idle
          · next e =>
            have h1 := MemForm.of_snd h.takeSched.pickVd e
            exact .next (.ite h1.endYield.startSlice h1.beginSwitch)

theorem MemForm.execYieldRequest {p : Fin 8} (h : MemForm s) : OutForm (execYieldRequest p s) := by
  unfold Machine.execYieldRequest
  extract_lets
  split
  · exact .next h
  · exact .ite (.next h) (.next (h.updPart.foldl fun _ _ h => h.foldl fun _ _ h => h.updTeam))

theorem MemForm.discardTeam {e : Nat × Team} (h : MemForm s) : MemForm (s.discardTeam e) := h.updGrid.removeTeam

theorem MemForm.applyChoice {ts : List (Nat × Team)} {a3 : Choice} (h : MemForm s) : MemForm (s.applyChoice ts a3) := by
  unfold State.applyChoice
  split
  · exact h
  · exact h.foldl fun _ _ h => h.saveTeam
  · exact h.foldl fun _ _ h => h.saveTeam
  · refine h.foldl fun _ _ h1 => ?_
    split
    · exact h1
    · exact .ite h1.discardTeam h1.saveTeam

theorem MemForm.execSliceEnd {cluster : Fin 8} (h : MemForm s) : OutForm (execSliceEnd cluster s) := by
  unfold Machine.execSliceEnd
  split
  · exact .next h
  · extract_lets
    split
    · exact .next h
    · exact .ite (.next h) (.ite (.next h.soon) (.next (.soonOnce (.ite h.updPart.applyChoice.atTick h.updPart.applyChoice))))

theorem MemForm.execDrainDeadline {cluster : Fin 8} (h : MemForm s) : OutForm (execDrainDeadline cluster s) := by
  unfold Machine.execDrainDeadline
  split
  · exact .next h
  · extract_lets
    split
    · exact .next h
    · exact .ite (.next h) (.ite (.next h.soon) (.next h.updPart.applyChoice.soonOnce))

theorem MemForm.execShadowExchange {cluster : Fin 8} (h : MemForm s) : OutForm (execShadowExchange cluster s) := by
  unfold Machine.execShadowExchange
  split
  · exact .next h
  · extract_lets
    split
    · exact .next h
    · split
      · exact .next h
      · extract_lets s1
        have h1 : MemForm s1 := .ite h (h.foldl fun _ _ h => .ite h.applyChoice h)
        exact .ite (.next h1.soon) (.ite (.next h1.preload.soon) (.next (.ite h1.preload.updPart h1.preload.updPart.atTick)))

theorem MemForm.execSwitchComplete {p : Fin 8} (h : MemForm s) : OutForm (execSwitchComplete p s) := by
  unfold Machine.execSwitchComplete
  extract_lets
  split
  · exact .next h
  · split
    · exact .next h
    · extract_lets s1
      have h1 : MemForm s1 := .ite h h.updVd.logged
      split
      · exact .next h1.startSlice
      · exact .next h1.updPart.gainWork

theorem MemForm.takeRequests {target : Nat} {ids js : List Nat} (h : MemForm s) : MemForm (s.takeRequests target ids js) := h.frame

theorem MemForm.crossDie {t target : Nat} (h : MemForm s) : MemForm (s.crossDie t target) := by
  unfold State.crossDie
  extract_lets _ _ _ _ s1 s2 _ s3
  have h1 : MemForm s1 := h.dropCopies.noKeep.foldl fun _ _ h => h.updWave
  have h2 : MemForm s2 := h1.foldl fun _ _ h => h.updJob
  have h3 : MemForm s3 := by
    unfold s3
    refine h2.updCoreFrame.foldl fun _ _ h4 => ?_
    split
    · exact h4
    · exact h4.requestLease
  exact h3.foldl fun _ _ h => h.requestLease

theorem MemForm.carryOver {t old target : Nat} (h : MemForm s) : MemForm (s.carryOver t old target) := by
  unfold State.carryOver
  extract_lets _ _ _ _ _ s1 s2
  have h1 : MemForm s1 := h.updCoreFrame.updCoreFrame.foldl fun _ _ h => h.updJob
  have h2 : MemForm s2 := h1.takeRequests
  exact .ite h2 h2.crossDie

theorem MemForm.arrive {t : Nat} {k : Team} {target : Nat} {g : Grid} {f : Fit} (h : MemForm s) : MemForm (s.arrive t k target g f) := by
  unfold State.arrive
  extract_lets _ _ _ _ _ _ s1 _ _ _ s2 _ _ _ _ s3 s4
  have h1 : MemForm s1 := h.spillAll.homeAll.takePcs.notComing.foldl fun _ _ h => h.updWave
  have h2 : MemForm s2 := h1.freshI.raiseCarve.carryOver.updCoreFrame.updCore fun _ h => Memory.wf_foldl_put (Memory.wf_clear _ _ _ h)
  have h3 : MemForm s3 := h2.dropL1.noKeep.dropReqs.updTeam.tilesBack.givePcs.fileAgain.foldl fun _ _ h => h.updJob
  have h4 : MemForm s4 := h3.foldl fun _ _ h => .ite h h.waveBack
  exact h4.after.kickTeam.noteRest.throttleMoved.boundary.freed

theorem MemForm.execThermalMigration {team target : Nat} (h : MemForm s) : OutForm (execThermalMigration team target s) := by
  unfold Machine.execThermalMigration
  split
  · exact .next h
  · split
    · exact .next h
    · extract_lets s1 _ s2
      have h1 : MemForm s1 := by
        unfold s1
        split
        · exact h
        · exact h.updCoreFrame
      have h2 : MemForm s2 := h1.updTeam.foldl fun _ _ h => h.updJob
      exact .next h2.after

theorem MemForm.execMigrationComplete {team : Nat} (h : MemForm s) : OutForm (execMigrationComplete team s) := by
  unfold Machine.execMigrationComplete
  split
  · exact .next h
  · split
    · split
      · exact .next h
      · split
        · exact .next h.atRelockEnd
        · split
          · exact .next h.atRelockEnd
          · extract_lets _ s1
            have h1 : MemForm s1 := by
              unfold s1
              split
              · exact .kickTeam (h.updTeam.foldl fun _ _ h => h.updJob)
              · exact h.updTeam.arrive
            exact .next h1.startClaims.startClaims
    · exact .next h

theorem MemForm.execForwardingExpiry {core : Nat} (h : MemForm s) : OutForm (execForwardingExpiry core s) :=
  .next h.updCoreFrame.lowerCarve.freed

/-! ## Machine/Resolve -/

theorem MemForm.recordAgain {p wid : Nat} {w : Wave} {x : PageWait} {level : Nat} (h : MemForm s) :
    MemForm (s.recordAgain p wid w x level) := by
  unfold State.recordAgain
  exact h.fqRecords

theorem MemForm.resolveWait {p wid : Nat} {w : Wave} {x : PageWait} (h : MemForm s) : MemForm (s.resolveWait p wid w x) := by
  unfold State.resolveWait
  split
  · exact h.recordAgain
  · exact h.updWave

theorem MemForm.resolveWave {p asid page : Nat} {fail : Bool} {wid : Nat} {w : Wave} (h : MemForm s) :
    MemForm (s.resolveWave p asid page fail wid w) := .ite h (.ite h.updWave (h.foldl fun _ _ h => h.resolveWait))

theorem MemForm.resolveEntry {c : Nat} {e : SideEntry} (h : MemForm s) : MemForm (s.resolveEntry c e) := by
  unfold State.resolveEntry
  split
  · exact h.entryFault
  · exact h.setEntry

theorem MemForm.resolveJob {id : Nat} {j : Job} {asid page : Nat} {fail : Bool} (h : MemForm s) :
    MemForm (s.resolveJob id j asid page fail) := by
  unfold State.resolveJob
  split
  · split
    · exact h
    · split
      · exact h.updJob.kick
      · split
        · split
          · exact h.forgetJob
          · exact h.schedSkip.schedule.checkTeam
        · exact h.jobCause
  · exact h

theorem MemForm.resolveAt {c p asid page : Nat} {fail : Bool} {sel : Team → Bool} (h : MemForm s) :
    MemForm (s.resolveAt c p asid page fail sel) := by
  unfold State.resolveAt
  extract_lets _ s1 s2
  have h1 : MemForm s1 := h.foldl fun _ _ h => h.resolveWave
  have h2 : MemForm s2 := h1.foldl fun _ _ h => h.resolveJob
  exact .ite h2
    (.ite (.foldl (.drainLog (h2.foldl fun _ _ h => h.refuseEntry)) fun _ _ h => h.checkTeam) (.drainLog (h2.foldl fun _ _ h => h.resolveEntry)))

/-! ## Machine/Power -/

theorem MemForm.takePacket {at_ : Nat} {p : Packet} (h : MemForm s) : MemForm (State.takePacket at_ s p) := by
  unfold State.takePacket
  extract_lets
  split
  · exact h.toFifo
  · split
    · extract_lets s1 s2
      have h1 : MemForm s1 := h.storeScratch
      have h2 : MemForm s2 := h1.getD_map fun _ => h1.jobWritten
      exact h2.getD_map fun _ => h2.kickTeam.checkTeam
    · exact h.answerTo
    · exact h.storeScratch.answerTo
    · exact h.answerTo
    · exact h.updJob.kick
    · exact h.atTick
    · exact h.atTick
    · exact h.jobWritten
    · exact h.jobCause
    · exact h.releaseCbar
    · exact h.releaseCollw
    · exact h.passLjoin
    · exact h.leaseAt
    · exact h.unaskAt
    · exact h.refused
    · exact h.pendCheck
    · exact h.cutAt
    · exact h.startCore
    · exact h.resolveAt

theorem MemForm.drainFifos {j : Nat} (h : MemForm s) : MemForm (s.drainFifos j) := by
  unfold State.drainFifos
  refine h.foldl fun _ _ h1 => ?_
  extract_lets _ s2 s3 s4
  have h2 : MemForm s2 := h1.updCoreFrame.foldl fun _ _ h => h.takePacket
  have h3 : MemForm s3 := .ite h2 h2.startClaims
  have h4 : MemForm s4 := .ite h3.freed h3
  exact h4.foldl fun _ _ h => h.kickTeam

theorem MemForm.armBoost {j : Nat} (h : MemForm s) : MemForm (s.armBoost j) := .ite (.ite h.withdraw.after h.withdraw.after.atTick) h

theorem MemForm.boostMove {j : Nat} (h : MemForm s) : MemForm (s.boostMove j) := h.updHob.updHob.settle

theorem MemForm.lowerCeil {j : Nat} (h : MemForm s) : MemForm (s.lowerCeil j) := .ite h h.updHob.drawn.noteThrottle

theorem MemForm.haltReleases (h : MemForm s) : MemForm s.haltReleases := h.frame

theorem MemForm.lowerAll (h : MemForm s) : MemForm s.lowerAll := .ite (h.haltReleases.foldl fun _ _ h => h.lowerCeil) h

theorem MemForm.armRelease {j : Nat} (h : MemForm s) : MemForm (s.armRelease j) := .ite h.updHob.atTick h

theorem MemForm.resumeThrottle (h : MemForm s) : MemForm s.resumeThrottle :=
  .ite h.lowerAll (h.haltReleases.foldl fun _ _ h => h.armRelease)

theorem MemForm.restarted (h : MemForm s) : MemForm s.restarted := by
  unfold State.restarted
  extract_lets _ _ s1 
  have h1 : MemForm s1 := h.foldl fun _ _ h => .ite h.rekey h
  clear_value s1
  refine MemForm.soon ?_
  exact ⟨h1.hbm, h1.host, rfl, fun _ he => nomatch he⟩

theorem MemForm.execPowerOn (h : MemForm s) : OutForm (execPowerOn s) := by
  unfold Machine.execPowerOn
  extract_lets _ _ s1 s2
  have h1 : MemForm s1 := h.ofHbm rfl
  have h2 : MemForm s2 := h1.restarted
  clear_value s2
  exact .ite (.next h) (.next h2.frame)

theorem MemForm.execPackageReset (h : MemForm s) : OutForm (execPackageReset s) := by
  unfold Machine.execPackageReset
  split
  · exact .next h
  · extract_lets _ s1
    have h1 : MemForm s1 := h.drawn
    exact .next h1.frame.restarted

theorem MemForm.execBrownOut (h : MemForm s) : OutForm (execBrownOut s) := .ite (.next h) (.next h.frame)

theorem MemForm.execInputUndervoltage (h : MemForm s) : OutForm (execInputUndervoltage s) :=
  .ite (.next h) (.next h.frame.logged.alerted.lowerAll)

theorem MemForm.execInputOvervoltageWarning (h : MemForm s) : OutForm (execInputOvervoltageWarning s) :=
  .ite (.next h) (.next h.logged.alerted)

theorem MemForm.execOverVoltageShutdown (h : MemForm s) : OutForm (execOverVoltageShutdown s) := .ite (.next h) (.next h.frame)

theorem MemForm.execThermalTrip (h : MemForm s) : OutForm (execThermalTrip s) := .ite (.next h) (.next h.frame)

theorem MemForm.execProchotAssert (h : MemForm s) : OutForm (execProchotAssert s) := .ite (.next h) (.next h.frame.lowerAll)

theorem MemForm.execThrottleCause {c : ThrCause} {j : Fin 64} (h : MemForm s) : OutForm (execThrottleCause c j s) := by
  unfold Machine.execThrottleCause
  split
  · exact .next h
  · extract_lets _ s1
    have h1 : MemForm s1 := by
      unfold s1
      split
      · exact h.frame
      · exact h.frame
      · exact h.frame
    exact .next h1.haltReleases.lowerCeil

theorem MemForm.execThrottleStepDown {j : Fin 64} (h : MemForm s) : OutForm (execThrottleStepDown j s) :=
  .ite (.next h) (.next h.updHob.noteThrottle.settle)

theorem MemForm.execThrottleRelease {j : Fin 64} (h : MemForm s) : OutForm (execThrottleRelease j s) := by
  unfold Machine.execThrottleRelease
  extract_lets _ _ _ _ s1
  have h1 : MemForm s1 := by
    unfold s1
    split
    · exact h.frame.updHob
    · exact h.frame.updHob.drawn
  exact .ite (.next h) (.next (h1.noteThrottle.settle.updHob.foldl fun _ _ h => h.armRelease))

theorem MemForm.execBackstopCeiling {j : Fin 64} (h : MemForm s) : OutForm (execBackstopCeiling j s) :=
  .ite (.next h) (.next h.updHob.noteThrottle)

theorem MemForm.execRelockEnd {j : Fin 64} (h : MemForm s) : OutForm (execRelockEnd j s) := by
  unfold Machine.execRelockEnd
  split
  · exact .next h
  · split
    · exact .next h
    · extract_lets _ _ _ _ s1 s2
      have h1 : MemForm s1 := h.updHob.drainFifos.relog.armBoost
      have h2 : MemForm s2 := .ite h1.resolvePool h1
      exact .next (.ite h2.settle h2)

theorem MemForm.execBoostExhausted {j : Fin 64} (h : MemForm s) : OutForm (execBoostExhausted j s) :=
  .ite (.next h) (.next h.updHob.boostMove)

theorem MemForm.execBoostWindow (h : MemForm s) : OutForm (execBoostWindow s) := .next (h.foldl fun _ _ h => h.updHob.boostMove.armBoost)

theorem MemForm.sendPtp (h : MemForm s) : MemForm s.sendPtp := .ite h.broadcast h

theorem MemForm.execPpsPulse (h : MemForm s) : OutForm (execPpsPulse s) := by
  unfold Machine.execPpsPulse
  split
  · exact .next h
  · extract_lets s1
    have h1 : MemForm s1 := h.withdraw.after
    exact .next (.ite h1.frame.drawn.sendPtp h1.frame)

theorem MemForm.execPpsAbsent (h : MemForm s) : OutForm (execPpsAbsent s) := by
  unfold Machine.execPpsAbsent
  split
  · exact .next h
  · exact .ite (.next h) (.next h.frame)

theorem MemForm.execPtpMessage {t : Nat} {ppm : Int} (h : MemForm s) : OutForm (execPtpMessage t ppm s) :=
  .ite (.next h) (.ite (.next h.sendPtp) (.ite (.next h) (.ite (.next h.frame) (.next h.frame))))

/-! ## Machine/Layout -/

theorem MemForm.answer {st : Nat} (h : MemForm s) : MemForm (s.answer st) := h.frame.raiseIrq

theorem MemForm.putBuf {off : Nat} {bs : List Byte} (h : MemForm s) : MemForm (s.putBuf off bs) :=
  h.ofBuffer (Memory.wf_write _ _ _ h.buffer)

theorem MemForm.mboxWrite {v : Word} (h : MemForm s) : MemForm (s.mboxWrite v) := .ite h h.frame.soon

theorem MemForm.closeChange {j : Journal} {outcome : Nat} (h : MemForm s) : MemForm (s.closeChange j outcome) := h.frame

theorem MemForm.dropWork {p : Nat} (h : MemForm s) : MemForm (s.dropWork p) := by
  unfold State.dropWork
  extract_lets _ _ s1 s2 s3 s4
  have h1 : MemForm s1 := h.foldl fun _ _ h => h.removeTeam
  have h2 : MemForm s2 := h1.foldl fun _ _ h => h.forgetGrid
  have h3 : MemForm s3 := h2.foldl fun _ _ h => h.forgetJob
  have h4 : MemForm s4 := h3.dropCopies.dropTlb
  exact h4.frame

theorem MemForm.rekeyOutside {lo hi lo' hi' : Nat} (h : MemForm s) : MemForm (s.rekeyOutside lo hi lo' hi') := h.rekey.rekey

theorem MemForm.flipPart {l : List Byte} {missed : List FlipUnit} {p : Nat} (h : MemForm s) : MemForm (s.flipPart l missed p) := by
  unfold State.flipPart
  split
  · exact h
  · extract_lets _ _ _ s1 _ _ _ _ s2
    have h1 : MemForm s1 := .ite h.dropWork.rekey h
    have h2 : MemForm s2 := .ite h h.rekeyOutside.rekeyOutside
    exact .ite h1.updPart h2.updPart.drawn

theorem MemForm.moveBarriers {p : Nat} {old : List Nat} (h : MemForm s) : MemForm (s.moveBarriers p old) := by
  unfold State.moveBarriers
  extract_lets _ _ _ _ s1
  have h1 : MemForm s1 := h.updPart
  exact h1.frame

theorem MemForm.moveSaved {p : Nat} {old : List Nat} (h : MemForm s) : MemForm (s.moveSaved p old) := by
  unfold State.moveSaved
  extract_lets _ s1
  have h1 : MemForm s1 := .ite h h.moveBarriers
  refine h1.foldl fun _ _ h2 => ?_
  split
  · exact h2
  · split
    · split
      · exact h2
      · exact .ite h2 h2.carryOver.updTeam.throttleMoved
    · exact h2

theorem MemForm.flipPools {qs : List Nat} (h : MemForm s) : MemForm (s.flipPools qs) :=
  h.foldl fun _ _ h => h.updPool.foldl fun _ _ h => h.setOp

theorem MemForm.flip {g : Nat} (h : MemForm s) : MemForm (s.flip g) := by
  unfold State.flip
  extract_lets _ _ _ _ _ _ _ s1 s2 s3 s4 _ _ s5
  have h1 : MemForm s1 := h.drawn.foldl fun _ _ h => h.flipPart
  have h2 : MemForm s2 := h1.foldl fun _ _ h => h.frame.foldl fun _ _ h => h.updCoreFrame
  have h3 : MemForm s3 := h2.foldl fun _ _ h => h.updHob
  have h4 : MemForm s4 := h3.foldl fun _ _ h => .ite h.moveSaved h
  have h5 : MemForm s5 := h4.flipPools
  exact h5.frame

theorem MemForm.execLayoutSubmit (h : MemForm s) : OutForm (execLayoutSubmit s) := by
  unfold Machine.execLayoutSubmit
  split
  · exact .next h
  · extract_lets _ _ _ _ s1 _ _ s2
    have h1 : MemForm s1 := h.drawn
    have h2 : MemForm s2 := h1.frame.atTick
    exact .ite (.next h.answer) (.ite (.next h.answer) (.ite (.next h.answer) (.next (.ite h2.atTick h2.frame.putBuf.answer))))

theorem MemForm.execLayoutLate (h : MemForm s) : OutForm (execLayoutLate s) :=
  .ite (.next h) (.next (.ite h.frame.closeChange.answer h.frame.closeChange))

theorem MemForm.execLayoutFlip (h : MemForm s) : OutForm (execLayoutFlip s) := by
  unfold Machine.execLayoutFlip
  split
  · exact .next h
  · exact .ite (.next h) (.ite (.next h.frame) (.next (.ite h.flip.soonOnce h.flip)))

theorem MemForm.noteFence {k : LogKind} (h : MemForm s) : MemForm (s.noteFence k) := h.setHealth.alerted.logged

theorem MemForm.fenceCore {c : Nat} (h : MemForm s) : MemForm (s.fenceCore c) := h.updCoreFrame.foldl fun _ _ h => h.killTeam

theorem MemForm.emptySlice {n : Nat} (h : MemForm s) : MemForm (s.emptySlice n) := by
  unfold State.emptySlice
  extract_lets s1
  have h1 : MemForm s1 := h.foldl fun _ _ h => h.l2Evict
  exact h1.frame

theorem MemForm.fenceFlip {u : FlipUnit} (h : MemForm s) : MemForm (s.fenceFlip u) := by
  unfold State.fenceFlip
  extract_lets s1
  have h1 : MemForm s1 := h.noteFence
  split
  · exact h1.frame.setHealth.foldl fun _ _ h => h.fenceCore
  · exact h1.frame.atTick
  · exact h1.frame.emptySlice
  · exact h1.frame
  · exact h1.frame

theorem MemForm.execLayoutCommit (h : MemForm s) : OutForm (execLayoutCommit s) := by
  unfold Machine.execLayoutCommit
  extract_lets _ s1 s2
  have h1 : MemForm s1 := h.foldl fun _ _ h => h.fenceFlip
  have h2 : MemForm s2 := .ite h1 h1.setHealth
  exact .ite (.next h) (.next h2.frame.closeChange)

theorem MemForm.execLayoutQuery (h : MemForm s) : OutForm (execLayoutQuery s) := .ite (.next h) (.next h.putBuf.answer)

theorem MemForm.pauseNodes {p : Nat} {on : Bool} (h : MemForm s) : MemForm (s.pauseNodes p on) :=
  h.foldl fun _ _ h => .ite h.updJob h.updJob.kick

theorem MemForm.saveTeams {p : Nat} (h : MemForm s) : MemForm (s.saveTeams p) :=
  h.foldl fun _ _ h => .ite h (h.foldl fun _ _ h => h.saveTeam)

theorem MemForm.stopPart {p : Nat} (h : MemForm s) : MemForm (s.stopPart p) := .ite h h.updPart.pauseNodes.saveTeams

theorem MemForm.startPart {p : Nat} (h : MemForm s) : MemForm (s.startPart p) :=
  .ite h (h.updPart.pauseNodes.after.foldl fun _ _ h => h.kickQueue)

theorem MemForm.execPartitionStop (h : MemForm s) : OutForm (execPartitionStop s) :=
  .ite (.next h) (.next (.soonOnce (h.frame.foldl fun _ _ h => .ite h.stopPart h)))

theorem MemForm.execPartitionStopDone (h : MemForm s) : OutForm (execPartitionStopDone s) := by
  unfold Machine.execPartitionStopDone
  split
  · exact .next h
  · extract_lets _ s1 s2
    have h1 : MemForm s1 := h.foldl fun _ _ h => h.saveTeams
    have h2 : MemForm s2 := h1.foldl fun _ _ h => h.endYield.updPart
    exact .ite (.next (.ite h1.soonOnce h1)) (.next h2.frame.answer)

theorem MemForm.execPartitionStart (h : MemForm s) : OutForm (execPartitionStart s) :=
  .ite (.next h) (.ite (.next h.answer) (.next (.answer (h.foldl fun _ _ h => .ite h.startPart h))))

/-! ## Machine/Kettle -/

theorem MemForm.setSlot {b : Bool} {x : ImgSlot} (h : MemForm s) : MemForm (s.setSlot b x) := h.frame

theorem MemForm.stopKettle (h : MemForm s) : MemForm s.stopKettle := by
  unfold State.stopKettle
  extract_lets s1
  have h1 : MemForm s1 := h.withdraw
  exact h1.frame.after.drawn

theorem MemForm.armRepairs (h : MemForm s) : MemForm s.armRepairs := h.foldl fun _ _ h => .ite h h.atTick

theorem MemForm.recover (h : MemForm s) : MemForm s.recover := by
  unfold State.recover
  extract_lets _ s1 _ s2 s3
  have h1 : MemForm s1 := h.frame.closeChange
  have h2 : MemForm s2 := .ite (.ite h1.answer h1) (.ite (.ite h.frame.putBuf.answer h.frame) h)
  have h3 : MemForm s3 := .armRepairs (.ite h2.soonOnce h2)
  exact .ite h3.soonOnce h3

theorem MemForm.execKettleWatchdogExpiry (h : MemForm s) : OutForm (execKettleWatchdogExpiry s) := .ite (.next h) (.next h.stopKettle)

theorem MemForm.execKettleBoot (h : MemForm s) : OutForm (execKettleBoot s) := by
  unfold Machine.execKettleBoot
  split
  · exact .next h
  · extract_lets
    split
    · exact .next h.frame.alerted
    · extract_lets _ _ s1 _ s2
      have h1 : MemForm s1 := h.frame.setSlot
      have h2 : MemForm s2 := .ite h1.frame.after h.frame
      exact .next h2.recover.resumeThrottle

theorem MemForm.execConfirm (h : MemForm s) : OutForm (execConfirm s) := by
  unfold Machine.execConfirm
  split
  · split
    · exact .next h
    · extract_lets _ _ s1
      have h1 : MemForm s1 := h.setSlot.setSlot
      exact .next h1.frame.withdraw.drawn
  · exact .next h

theorem MemForm.execConfirmTimeout (h : MemForm s) : OutForm (execConfirmTimeout s) := by
  unfold Machine.execConfirmTimeout
  split
  · exact .next h
  · exact .ite (.next h) (.next h.stopKettle)

theorem MemForm.execFwStage (h : MemForm s) : OutForm (execFwStage s) :=
  .ite (.next h) (.ite (.next h.frame.answer) (.ite (.next h.frame.setSlot.answer.stopKettle) (.next h.frame.setSlot.answer)))

theorem MemForm.beginRepair {stack : Fin 8} {bank row : Nat} (h : MemForm s) : MemForm (s.beginRepair stack bank row) :=
  h.frame.after.drawn

theorem MemForm.execRowRepair {stack : Fin 8} {bank row : Nat} (h : MemForm s) : OutForm (execRowRepair stack bank row s) := by
  unfold Machine.execRowRepair
  extract_lets
  split
  · exact .next h
  · split
    · exact .next h.frame
    · split
      · exact .next h.beginRepair
      · exact .ite (.next h.beginRepair) (.next (.ite h.frame h.frame.atTick))

theorem MemForm.execRowRepairDone {stack : Fin 8} (h : MemForm s) : OutForm (execRowRepairDone stack s) := .next h.frame

theorem MemForm.fencePc {stack pc : Nat} (h : MemForm s) : MemForm (s.fencePc stack pc) := by
  unfold State.fencePc
  extract_lets _ _ _ _ s1
  have h1 : MemForm s1 := .ite h.frame h.frame
  exact h1.setHealth.drawn

theorem MemForm.execAlarmPolicyWrite {v : Word} (h : MemForm s) : OutForm (execAlarmPolicyWrite v s) := .next h.frame

theorem MemForm.execDevHealthClear {v : Word} (h : MemForm s) : OutForm (execDevHealthClear v s) := .next h.frame

theorem MemForm.halt (h : MemForm s) : MemForm s.halt := h.frame

theorem MemForm.erase (h : MemForm s) : MemForm s.erase := h.frame.rekey.halt.setHealth

theorem MemForm.execAlarm {src : AlarmSrc} (h : MemForm s) : OutForm (execAlarm src s) := by
  unfold Machine.execAlarm
  split
  · exact .next h
  · extract_lets s1
    have h1 : MemForm s1 := h.logged.setHealth.alerted
    refine .next ?_
    split
    · exact h1
    · exact h1.halt
    · exact h1.erase

theorem MemForm.execServiceReturn (h : MemForm s) : OutForm (execServiceReturn s) :=
  .ite (.next h) (.ite (.next h.answer) (.next h.frame.answer))

theorem MemForm.execTestMode (h : MemForm s) : OutForm (execTestMode s) := by
  unfold Machine.execTestMode
  extract_lets _ s1
  have h1 : MemForm s1 := .ite h (h.mapCores (f := fun k => { k with inject := 0 }) fun _ h => h)
  exact .ite (.next h) (.ite (.next h.answer) (.ite (.next h.answer) (.next h1.frame.answer)))

/-- The bytes of consecutive addresses, without those that are zero, are in canonical form. -/
theorem Memory.wf_filter_map_range (f : Nat → Byte) (a n : Nat) :
    Memory.wf (((List.range' a n).map (fun i => (i, f i))).filter (fun e => e.2 != 0)) = true := by
  induction n generalizing a with
  | zero => rfl
  | succ n ih =>
    rw [List.range'_succ, List.map_cons, List.filter_cons]
    split
    · next hb =>
      refine (Memory.wf_cons _ _ _).2 ⟨by simpa using hb, fun e he => ?_, ih (a + 1)⟩
      obtain ⟨i, hi, rfl⟩ := List.mem_map.1 (List.mem_of_mem_filter he)
      exact (List.mem_range'_1.1 hi).1
    · exact ih (a + 1)

theorem MemForm.execProvisionGenerate (h : MemForm s) : OutForm (execProvisionGenerate s) := by
  unfold Machine.execProvisionGenerate
  extract_lets _ _ buf
  have hb : Memory.wf buf = true := by
    unfold buf
    rw [List.range_eq_range']
    exact Memory.wf_filter_map_range _ _ _
  clear_value buf
  exact .ite (.next h) (.ite (.next h.answer) (.ite (.next h.answer) (.next (.answer (.emit (h.drawn.ofBuffer hb))))))

theorem MemForm.generationZero (h : MemForm s) : MemForm s.generationZero := by
  unfold State.generationZero
  extract_lets s1
  have h1 : MemForm s1 := h.foldl fun _ _ h => .ite h.dropWork h
  exact h1.frame.flipPools

theorem MemForm.execProvisionInstall (h : MemForm s) : OutForm (execProvisionInstall s) := by
  unfold Machine.execProvisionInstall
  refine .ite (.next h) (.ite (.next h.answer) ?_)
  split
  · exact .next h.answer
  · extract_lets s1
    have h1 : MemForm s1 := h.rekey.generationZero
    clear_value s1
    exact .ite (.next h.answer) (.next (.answer (.clearHealth (.drawn (h1.ofBuffer rfl)))))

theorem MemForm.execBadCmd (h : MemForm s) : OutForm (execBadCmd s) := .ite (.next h.answer) (.next h)

theorem MemForm.execSpdmRequest {r : SpdmReq} {viaI3c : Bool} (h : MemForm s) : OutForm (execSpdmRequest r viaI3c s) := by
  unfold Machine.execSpdmRequest
  split
  · exact .next h
  · extract_lets
    split
    · exact .next h.emit
    · split
      · exact .next h
      · exact .next h.emit
    · exact .next h.emit.drawn
    · split
      · exact .next h
      · exact .next h.emit.drawn

/-! ## Machine/Fabric -/

theorem MemForm.noted {src seq : Nat} {old : Option DWord} (h : MemForm s) : MemForm (s.noted src seq old) := h.frame

theorem MemForm.respond {r : FabReq} {x : FabResp} (h : MemForm s) : MemForm (s.respond r x) := h.emit

theorem MemForm.setUnacked {u : Unacked} (h : MemForm s) : MemForm (s.setUnacked u) := h.frame

theorem MemForm.setRead {r : ReadReq} (h : MemForm s) : MemForm (s.setRead r) := h.frame

theorem MemForm.launchReq {a2 : Unacked ⊕ ReadReq} (h : MemForm s) : MemForm (s.launchReq a2) := by
  unfold State.launchReq
  split
  · exact h.setUnacked.emitUnacked
  · exact h.setRead.sendRead

theorem MemForm.pumpFrom {l : List (Unacked ⊕ ReadReq)} {full : List Nat} {stuck : List (Nat × Nat)} (h : MemForm s) :
    MemForm (s.pumpFrom l full stuck) := by
  induction l generalizing s full stuck with
  | nil => exact h
  | cons x l ih =>
    cases x with
    | inl u => exact .ite (ih h) (.ite (ih h) (ih h.launchReq))
    | inr r => exact .ite (ih h) (ih h.launchReq)

theorem MemForm.pump (h : MemForm s) : MemForm s.pump := .ite h h.pumpFrom

theorem MemForm.answerMaster {o : Nat → Out} {i : Instr} (h : MemForm s) : MemForm (s.answerMaster o i) := .ite h.soon h.broadcast

theorem MemForm.stepDone (h : MemForm s) : MemForm s.stepDone := .ite h (.ite h.frame.answerMaster (.ite h.frame.answerMaster h))

theorem MemForm.stepAck {id : Nat} (h : MemForm s) : MemForm (s.stepAck id) := .ite h.frame.stepDone h

theorem MemForm.forgetUnacked {u : Unacked} (h : MemForm s) : MemForm (s.forgetUnacked u) := h.frame.stepAck.pump.relog

theorem MemForm.answerReaders {r : ReadReq} {wid : Nat} {note : Pend → Pend} (h : MemForm s) : MemForm (s.answerReaders r wid note) :=
  h.foldl fun _ _ h => h.updWave

theorem MemForm.endRead {r : ReadReq} {page : Nat} {why : LeaseAnswer} (h : MemForm s) : MemForm (s.endRead r page why) := by
  unfold State.endRead
  extract_lets _ _ s1
  have h1 : MemForm s1 := by
    unfold s1
    split
    · exact h.frame
    · exact h.frame.foldl fun _ _ h => h.unaskWave
  exact h1.stepAck.pump

theorem MemForm.endAtomic {u : Unacked} {page : Nat} {why : LeaseAnswer} (h : MemForm s) : MemForm (s.endAtomic u page why) := by
  unfold State.endAtomic
  extract_lets s1
  have h1 : MemForm s1 := by
    unfold s1
    split
    · exact h
    · exact h.unaskWave
  exact h1.forgetUnacked

theorem MemForm.unpatched {u : Unacked} (h : MemForm s) : MemForm (s.unpatched u) := .ite h.forgetLine h

theorem MemForm.refuseWrite {u : Unacked} (h : MemForm s) : MemForm (s.refuseWrite u) := by
  unfold State.refuseWrite
  extract_lets _ _ s1
  have h1 : MemForm s1 := by
    unfold s1
    split
    · exact h.unpatched.jobCause
    · exact h.unpatched.comes fun _ h => h.refused
    · exact h.unpatched
  exact h1.forgetUnacked

theorem MemForm.writeFault {u : Unacked} {page : Nat} (h : MemForm s) : MemForm (s.writeFault u page) :=
  .ite h.fqRecords.drawn.setUnacked.stepAck h.requestLease

theorem MemForm.dropPrefetches {die p chip page : Nat} (h : MemForm s) : MemForm (s.dropPrefetches die p chip page) := h.frame

theorem MemForm.leased {die p chip page : Nat} {rights : Rights} (h : MemForm s) : MemForm (s.leased die p chip page rights) := by
  unfold State.leased
  extract_lets _ s1 _ _ s2
  have h1 : MemForm s1 := .ite h (h.dropPrefetches.foldl fun _ _ h => h.prfPeer)
  have h2 : MemForm s2 := h1.frame.foldl fun _ _ h => h.updJob.kick
  exact h2.leaseAnswer

theorem MemForm.leaseDenied {l : LeaseReq} (h : MemForm s) : MemForm (s.leaseDenied l) := by
  unfold State.leaseDenied
  extract_lets _ _ _ s1 s2 s3 s4
  have h1 : MemForm s1 := .ite h.frame.dropPrefetches h.frame
  have h2 : MemForm s2 := h1.foldl fun _ _ h => h.jobCause
  have h3 : MemForm s3 := by
    unfold s3
    refine h2.foldl fun _ _ h5 => ?_
    extract_lets
    split
    · exact h5.endRead
    · exact h5.endRead.jobCause
  have h4 : MemForm s4 := h3.foldl fun _ _ h => .ite h.endAtomic h.refuseWrite
  exact h4.leaseAnswer

theorem MemForm.jobAbsent {j : Nat} {l : LeaseReq} {f : JobWait → JobWait} (h : MemForm s) : MemForm (s.jobAbsent j l f) := h.updJob.kick

theorem MemForm.leaseAbsent {l : LeaseReq} (h : MemForm s) : MemForm (s.leaseAbsent l) := by
  unfold State.leaseAbsent
  extract_lets _ _ _ s1 s2 s3 s4
  have h1 : MemForm s1 := .ite h.frame.dropPrefetches h.frame
  have h2 : MemForm s2 := h1.foldl fun _ _ h => h.jobAbsent
  have h3 : MemForm s3 := by
    unfold s3
    refine h2.foldl fun _ _ h5 => ?_
    extract_lets
    split
    · exact h5.endRead
    · exact h5.endRead.jobAbsent
  have h4 : MemForm s4 := h3.foldl fun _ _ h => .ite h.endAtomic h.writeFault
  exact h4.leaseAnswer

theorem MemForm.fencePlane {p : Nat} (h : MemForm s) : MemForm (s.fencePlane p) := by
  unfold State.fencePlane
  split
  · exact h
  · extract_lets s1
    have h1 : MemForm s1 := h.noteFence.setHealth
    exact h1.frame

theorem MemForm.fenceAll {planes : BitVec 8} (h : MemForm s) : MemForm (s.fenceAll planes) := h.foldl fun _ _ h => .ite h.fencePlane h

theorem MemForm.exported {page : Nat} {entry : ExportEntry} (h : MemForm s) : MemForm (s.exported page entry) := h.frame

theorem MemForm.recount {page : Nat} {e : Export} {but : Option (Nat × Nat)} (h : MemForm s) : MemForm (s.recount page e but) := by
  unfold State.recount
  split
  · exact h
  · exact .ite h.exported h.frame

theorem MemForm.recountAll (h : MemForm s) : MemForm s.recountAll := h.foldl fun _ _ h => h.recount

theorem MemForm.cutChips {f : Nat → Bool} (h : MemForm s) : MemForm (s.cutChips f) := by
  unfold State.cutChips
  extract_lets _ _ _ _ _ s1 s2 _ _ s3 s4 s5 s6 s7 s8 s9
  have h1 : MemForm s1 := h.frame
  have h2 : MemForm s2 :=
    h1.mapCores (f := fun k => { k with outstanding := k.outstanding.filter (fun x => !f x.1) }) fun _ h => h
  have h3 : MemForm s3 := h2.foldl fun _ _ h => .ite h (h.comes fun _ h => h.cutAt)
  have h4 : MemForm s4 := h3.foldl fun _ _ h => h.unpatched
  have h5 : MemForm s5 := by
    refine h4.foldl fun _ _ h => ?_
    split
    · exact h.jobCause
    · exact .ite h h.pendCheck
    · exact h
  have h6 : MemForm s6 := by
    refine h5.foldl fun _ _ h => ?_
    split
    · exact h.jobCause
    · exact h
  have h7 : MemForm s7 := h6.foldl fun _ _ h => h.jobCause
  have h8 : MemForm s8 := by
    refine h7.foldl fun _ _ h => ?_
    split
    · exact .ite h.pendCheck h
    · exact h
  have h9 : MemForm s9 := h8.foldl fun _ _ h => h.leaseAnswer
  exact .foldl (.pump (.foldl (h9.relog.foldl fun _ _ h => h.stepAck) fun _ _ h => h.stepAck)) fun _ _ h => h.stepAck

theorem MemForm.domainLost {dead : BitVec 8} (h : MemForm s) : MemForm (s.domainLost dead) := by
  unfold State.domainLost
  extract_lets s1
  have h1 : MemForm s1 := h.fenceAll
  exact h1.frame.cutChips.recountAll

theorem MemForm.beginStep {n : Nat} (h : MemForm s) : MemForm (s.beginStep n) := h.frame.foldl fun _ _ h => .ite h h.after

theorem MemForm.beginRun {planes : BitVec 8} {plan : Option (List Nat)} (h : MemForm s) : MemForm (s.beginRun planes plan) := by
  unfold State.beginRun
  extract_lets _ s1
  have h1 : MemForm s1 := .ite h.frame h
  exact h1.frame.beginStep.broadcast.soon

theorem MemForm.advance (h : MemForm s) : MemForm s.advance := by
  unfold State.advance
  split
  · exact h
  · extract_lets
    split
    · exact h.beginStep.broadcast.soon
    · exact h.beginStep.broadcast.soon
    · exact h.frame.broadcast.soon
    · exact h

theorem MemForm.gather {chip n : Nat} (h : MemForm s) : MemForm (s.gather chip n) := .ite h h.frame.advance

theorem MemForm.reportDead {p : Nat} (h : MemForm s) : MemForm (s.reportDead p) := .ite h (.ite h.domainLost (.ite h.beginRun h.control))

theorem MemForm.execFabricRead {r : FabReq} {len : Nat} (h : MemForm s) : OutForm (execFabricRead r len s) :=
  .ite (.next h) (.ite (.next h.respond) (.next h.l2Home.respond))

theorem MemForm.execFabricWrite {r : FabReq} {data : List Byte} (h : MemForm s) : OutForm (execFabricWrite r data s) :=
  .ite (.next h) (.ite (.next h.respond) (.ite (.next h.respond) (.next h.l2Home.writeHome.noted.respond)))

theorem MemForm.execFabricAtomic {r : FabReq} {op : RmwOp} (h : MemForm s) : OutForm (execFabricAtomic r op s) := by
  unfold Machine.execFabricAtomic
  split
  · exact .next h
  · split
    · exact .next h.respond
    · exact .ite (.next h) (.ite (.next h.respond) (.ite (.next h.respond) (.next h.l2Home.writeHome.noted.respond)))

theorem MemForm.execMarker {src : Nat} {plane : Fin 8} {m : MarkerTag} (h : MemForm s) : OutForm (execMarker src plane m s) :=
  .ite (.next h) (.next h.emit)

theorem MemForm.outdate {die chip line : Nat} (h : MemForm s) : MemForm (s.outdate die chip line) := h.frame

theorem MemForm.keepPre {wid : Nat} {r : ReadReq} {bs : List Byte} (h : MemForm s) : MemForm (s.keepPre wid r bs) := by
  unfold State.keepPre
  split
  · exact h
  · extract_lets
    split
    · exact h.keepCopy
    · exact .ite h.keepCopy.fillL1 h.keepCopy

theorem MemForm.dataToWave {r : ReadReq} {bs : List Byte} {wid : Nat} (h : MemForm s) : MemForm (s.dataToWave r bs wid) :=
  h.outdate.answerReaders.keepPre

theorem MemForm.dataToJob {r : ReadReq} {bs : List Byte} {j : Nat} (h : MemForm s) : MemForm (s.dataToJob r bs j) := by
  unfold State.dataToJob
  split
  · exact .ite h.updJob.kick h.updJob
  · exact h

theorem MemForm.gotData {id : Nat} {bs : List Byte} (h : MemForm s) : MemForm (s.gotData id bs) := by
  unfold State.gotData
  split
  · exact h
  · extract_lets _ _ s1 s2
    have h1 : MemForm s1 := by
      unfold s1
      split
      · exact h.frame
      · exact h.frame.dataToWave
    have h2 : MemForm s2 := by
      unfold s2
      split
      · exact h1
      · exact h1.dataToJob
    exact h2.stepAck

theorem MemForm.gotPoison {id : Nat} (h : MemForm s) : MemForm (s.gotPoison id) := by
  unfold State.gotPoison
  split
  · exact h
  · extract_lets _ _ s1 s2
    have h1 : MemForm s1 := by
      unfold s1
      split
      · exact h.frame
      · exact h.frame.answerReaders
    have h2 : MemForm s2 := by
      unfold s2
      split
      · exact h1
      · exact h1.jobPoison
    exact h2.stepAck

theorem MemForm.acked {chip seq : Nat} (h : MemForm s) : MemForm (s.acked chip seq) := by
  unfold State.acked
  split
  · exact h
  · extract_lets _ _ s1
    have h1 : MemForm s1 := by
      unfold s1
      split
      · exact h.frame
      · exact h.frame.jobWritten
    exact h1.forgetUnacked

theorem MemForm.atomicWritten {u : Unacked} {old : DWord} (h : MemForm s) : MemForm (s.atomicWritten u old) := by
  unfold State.atomicWritten
  split
  · exact h
  · exact .ite h.forgetLine h.patchCopies

theorem MemForm.gotOld {chip seq : Nat} {old : DWord} (h : MemForm s) : MemForm (s.gotOld chip seq old) := by
  unfold State.gotOld
  split
  · exact h
  · extract_lets s1 s2
    have h1 : MemForm s1 := h.atomicWritten
    have h2 : MemForm s2 := by
      unfold s2
      split
      · exact h1
      · exact h1.updWave
    exact h2.acked

theorem MemForm.gotMarker {id : Nat} (h : MemForm s) : MemForm (s.gotMarker id) := h.frame.stepAck.relog

theorem MemForm.gotAtomicPoison {chip seq : Nat} (h : MemForm s) : MemForm (s.gotAtomicPoison chip seq) := by
  unfold State.gotAtomicPoison
  split
  · exact h
  · extract_lets s1
    have h1 : MemForm s1 := by
      unfold s1
      split
      · exact h
      · exact h.updWave
    exact h1.acked

theorem MemForm.dropPtc {chip page gen : Nat} (h : MemForm s) : MemForm (s.dropPtc chip page gen) := h.frame

theorem MemForm.rejectRead {id : Nat} (h : MemForm s) : MemForm (s.rejectRead id) := by
  unfold State.rejectRead
  split
  · exact h
  · exact h.setRead.dropPtc.requestLease

theorem MemForm.rejectSeq {chip seq : Nat} (h : MemForm s) : MemForm (s.rejectSeq chip seq) := by
  unfold State.rejectSeq
  split
  · exact h
  · split
    · exact h
    · exact h.setUnacked.dropPtc.requestLease

theorem MemForm.resendRejected {die part chip page pa gen : Nat} (h : MemForm s) : MemForm (s.resendRejected die part chip page pa gen) :=
  h.frame.pump

theorem MemForm.answered {a2 : FabResp} (h : MemForm s) : MemForm (s.answered a2) := by
  unfold State.answered
  split
  · exact h.gotData
  · exact h.gotPoison
  · exact h.gotAtomicPoison
  · exact h.acked
  · exact h.gotOld
  · exact h.gotMarker
  · split
    · exact h
    · exact h.leaseDenied.stepAck
  · split
    · exact h
    · exact h.leaseAbsent.stepAck
  · exact h.rejectRead
  · exact h.rejectSeq

theorem MemForm.execResponse {r : FabResp} (h : MemForm s) : OutForm (execResponse r s) := by
  unfold Machine.execResponse
  split
  · exact .next h
  · split
    · exact .next h.answered
    · exact .next (.ite h.toFifo h.answered)

theorem MemForm.execLease {src : Nat} {of_ : Charge} {page : Nat} {right : Right} {id : Nat} (h : MemForm s) :
    OutForm (execLease src of_ page right id s) := by
  unfold Machine.execLease
  split
  · exact .next h
  · extract_lets
    split
    · exact .next h.emit
    · split
      · exact .next h.soon
      · split
        · exact .next h.emit
        · split
          · exact .next h.emit
          · exact .next h.frame.emit.drawn

theorem MemForm.execLeaseGrant {die : Fin 2} {part chip page pa : Nat} {rights : Rights} {gen expiry : Nat} (h : MemForm s) :
    OutForm (execLeaseGrant die part chip page pa rights gen expiry s) :=
  .ite (.next h) (.next (h.frame.drawn.atTick.leased.resendRejected.foldl fun _ _ h => h.stepAck))

theorem MemForm.execLeaseExpiry {die : Fin 2} {part chip page : Nat} (h : MemForm s) : OutForm (execLeaseExpiry die part chip page s) :=
  .next h.frame

theorem MemForm.execExportChange {page : Nat} {entry : ExportEntry} (h : MemForm s) : OutForm (execExportChange page entry s) := by
  unfold Machine.execExportChange
  split
  · exact .next h.exported
  · extract_lets _ _ _ _ _ _ _ _ _ _ s1
    have h1 : MemForm s1 := h.frame.foldl fun _ _ h => h.foldl fun _ _ h => h.emit
    exact .ite (.next h.soon) (.ite (.next h.exported) (.ite (.next h.exported) (.next h1.atTick)))

theorem MemForm.execExportChangeTimeout {page : Nat} (h : MemForm s) : OutForm (execExportChangeTimeout page s) := by
  unfold Machine.execExportChangeTimeout
  split
  · exact .next h
  · split
    · exact .next h
    · exact .ite (.next h) (.next h.exported)

theorem MemForm.execRecall {m : RecallMsg} {page : Nat} (h : MemForm s) : OutForm (execRecall m page s) :=
  .ite (.next h) (.next (h.frame.foldl fun _ _ h => h.countFlits.emit))

theorem MemForm.execRecallAck {m : RecallMsg} {page : Nat} {plane : Fin 8} (h : MemForm s) : OutForm (execRecallAck m page plane s) := by
  unfold Machine.execRecallAck
  split
  · exact .next h
  · exact .next (.ite h.recount h)

theorem MemForm.execLinkRetry {plane : Fin 8} (h : MemForm s) : OutForm (execLinkRetry plane s) :=
  .ite (.next h) (.next (.ite h.frame.atTick h.frame))

theorem MemForm.execLinkRetryLimit {plane : Fin 8} (h : MemForm s) : OutForm (execLinkRetryLimit plane s) :=
  .ite (.next h) (.next h.reportDead)

theorem MemForm.execLinkDown {plane : Fin 8} (h : MemForm s) : OutForm (execLinkDown plane s) := .next h.reportDead

theorem MemForm.execFabricRequestTimeout {plane : Fin 8} (h : MemForm s) : OutForm (execFabricRequestTimeout plane s) := by
  unfold Machine.execFabricRequestTimeout
  extract_lets
  split
  · exact .next h
  · exact .ite (.next h) (.ite (.next h.atTick) (.next h.reportDead))

theorem MemForm.execPlaneFail {plane : Fin 8} (h : MemForm s) : OutForm (execPlaneFail plane s) := .next h.reportDead

theorem MemForm.execDeadReport {chip : Nat} {plane : Fin 8} {gen : Nat} (h : MemForm s) : OutForm (execDeadReport chip plane gen s) :=
  .ite (.next h) (.next h.reportDead)

theorem MemForm.execStop {m : StopMsg} {gen : Nat} (h : MemForm s) : OutForm (execStop m gen s) :=
  .ite (.next h) (.ite (.next h.frame.domainLost) (.next h.frame.recountAll.answerMaster))

theorem MemForm.execStopped {m : StoppedMsg} (h : MemForm s) : OutForm (execStopped m s) := by
  unfold Machine.execStopped
  extract_lets _ s1
  have h1 : MemForm s1 := .ite h.frame h
  exact .next h1.gather

theorem MemForm.quiesceMarkers {chip : Nat} (h : MemForm s) : MemForm (s.quiesceMarkers chip) :=
  h.foldl fun _ _ h => h.frame.countFlits.watch.emit

theorem MemForm.execQuiesceFence {gen : Nat} (h : MemForm s) : OutForm (execQuiesceFence gen s) := by
  unfold Machine.execQuiesceFence
  split
  · exact .next h
  · extract_lets _ _ s1
    have h1 : MemForm s1 := h.frame.foldl fun _ _ h => h.quiesceMarkers
    exact .next h1.stepDone

theorem MemForm.execFenced {chip : Nat} (h : MemForm s) : OutForm (execFenced chip s) := .next h.gather

theorem MemForm.askAgain {l : LeaseReq} (h : MemForm s) : MemForm (s.askAgain l) := h.frame.sendLease

theorem MemForm.installMap {gen : Nat} {planes : List Nat} (h : MemForm s) : MemForm (s.installMap gen planes) := by
  unfold State.installMap
  extract_lets _ s1
  have h1 : MemForm s1 := h.fenceAll
  exact h1.frame

theorem MemForm.execMap {gen : Nat} {planes : List (Fin 8)} (h : MemForm s) : OutForm (execMap gen planes s) := by
  unfold Machine.execMap
  extract_lets _ _ s1 _ _ _ _ _ s2
  have h1 : MemForm s1 := h.installMap
  have h2 : MemForm s2 := h1.frame.foldl fun _ _ h => h.launchReq
  exact .ite (.next h) (.next (.stepDone (h2.foldl fun _ _ h => h.askAgain)))

theorem MemForm.execRetried {chip : Nat} (h : MemForm s) : OutForm (execRetried chip s) := .next h.gather

theorem MemForm.execResume {gen : Nat} (h : MemForm s) : OutForm (execResume gen s) := .ite (.next h) (.next h.frame.pump.relog)

theorem MemForm.execMasterTimeout (h : MemForm s) : OutForm (execMasterTimeout s) := by
  unfold Machine.execMasterTimeout
  split
  · exact .next h
  · extract_lets _ s1
    have h1 : MemForm s1 := h.frame.sendPtp
    exact .ite (.next h1) (.next h1.frame.beginRun)

theorem MemForm.execChipStepTimeout {chip : Nat} (h : MemForm s) : OutForm (execChipStepTimeout chip s) :=
  .ite (.next h) (.next (.ite h.frame.logged.cutChips.broadcast.advance h.frame.logged.cutChips))

theorem MemForm.execPlan (h : MemForm s) : OutForm (execPlan s) :=
  .ite (.next h) (.ite (.next h.answer) (.ite (.next h.beginRun.answer) (.next h.emit.answer)))

theorem MemForm.execFabWindow (h : MemForm s) : OutForm (execFabWindow s) := .next h.frame

theorem MemForm.execMirrorBrokenClear {p : Fin 8} {v : Word} (h : MemForm s) : OutForm (execMirrorBrokenClear p v s) :=
  .ite (.next h) (.next h.updPart)

theorem MemForm.breakMirror {p : Nat} (h : MemForm s) : MemForm (s.breakMirror p) := by
  unfold State.breakMirror
  extract_lets s1 _ _ _ _ _ s2
  have h1 : MemForm s1 := h.updPart
  have h2 : MemForm s2 := h1.frame.foldl fun _ _ h => h.updCoreFrame
  exact .pump (h2.foldl fun _ _ h => h.stepAck)

theorem MemForm.execMirrorAckTimeout {p : Fin 8} (h : MemForm s) : OutForm (execMirrorAckTimeout p s) :=
  .ite (.next h) (.next h.breakMirror.logged.alerted.relog)

theorem MemForm.execUnitFence {u : FenceUnit} (h : MemForm s) : OutForm (execUnitFence u s) := by
  unfold Machine.execUnitFence
  split
  · exact .next h
  · refine .next ?_
    split
    · exact h.noteFence.setHealth.fenceCore
    · extract_lets _ s1
      have h1 : MemForm s1 := h.noteFence.setHealth.setHealth.updHob.foldl fun _ _ h => h.fenceCore
      exact .ite h1.resolvePool h1
    · exact h.noteFence.fencePc
    · exact h.fencePlane.reportDead

theorem MemForm.joinDomain {trained : BitVec 8} (h : MemForm s) : MemForm (s.joinDomain trained) := by
  unfold State.joinDomain
  extract_lets _ _ _ _ _ s1 s2
  have h1 : MemForm s1 := h.frame.sendPtp.pump.foldl fun _ _ h => h.askAgain
  have h2 : MemForm s2 := .relog (h1.foldl fun _ _ h => h.countFlits.watch.emit)
  exact h2.foldl fun _ _ h => h.reportDead

theorem MemForm.leaveDomain (h : MemForm s) : MemForm s.leaveDomain := h.frame

theorem MemForm.execFabIdWrite {v : Word} {trained : BitVec 8} (h : MemForm s) : OutForm (execFabIdWrite v trained s) :=
  .ite (.next h) (.ite (.next h.frame.joinDomain) (.ite (.next h.frame.leaveDomain) (.next h.frame)))

/-! ## Machine/Paging -/

theorem MemForm.tlbWrite {p : Nat} {v : DWord} (h : MemForm s) : MemForm (s.tlbWrite p v) := .ite h h.updPart.after.drawn

theorem MemForm.fqWrite {p : Nat} {v : Word} (h : MemForm s) : MemForm (s.fqWrite p v) := .ite h.updPart.drainLogs h

theorem MemForm.fqHead {p : Nat} {v : Word} (h : MemForm s) : MemForm (s.fqHead p v) := .ite h.updPart.drainLogs h

theorem MemForm.sqWrite {p : Nat} {v : Word} (h : MemForm s) : MemForm (s.sqWrite p v) := .ite h.updPart h

theorem MemForm.resolveWrite {fail : Bool} {u : Unacked} (h : MemForm s) : MemForm (s.resolveWrite fail u) := by
  unfold State.resolveWrite
  split
  · exact h.refuseWrite
  · split
    · exact h
    · exact h.setUnacked.requestLease

theorem MemForm.resolve {p : Nat} {v : DWord} (h : MemForm s) : MemForm (s.resolve p v) := by
  unfold State.resolve
  extract_lets _ _ _ s1 s2
  have h1 : MemForm s1 := h.foldl fun _ _ h => .resolveAt (h.comes fun _ h => h.resolveAt)
  have h2 : MemForm s2 := h1.foldl fun _ _ h => h.resolveJob
  exact .ite h (h2.foldl fun _ _ h => h.resolveWrite)

theorem MemForm.execTlbInv {p : Fin 8} {v : DWord} (h : MemForm s) : OutForm (execTlbInv p v s) := .next h.tlbWrite

theorem MemForm.execTlbInvDone {p : Fin 8} (h : MemForm s) : OutForm (execTlbInvDone p s) := by
  unfold Machine.execTlbInvDone
  split
  · exact .next h
  · exact .next (.ite h.dropTlb.soonOnce h.dropTlb.updPart)

theorem MemForm.execFqEnable {p : Fin 8} {v : Word} (h : MemForm s) : OutForm (execFqEnable p v s) := .next h.fqWrite

theorem MemForm.execSqEnable {p : Fin 8} {v : Word} (h : MemForm s) : OutForm (execSqEnable p v s) := .next h.sqWrite

theorem MemForm.execFqResolve {p : Fin 8} {v : DWord} (h : MemForm s) : OutForm (execFqResolve p v s) := .next h.resolve

/-! ## Machine/Queues -/

theorem MemForm.dropLaunches {hq : Nat} (h : MemForm s) : MemForm (s.dropLaunches hq) := by
  unfold State.dropLaunches
  extract_lets _ s1
  have h1 : MemForm s1 := h.foldl fun _ _ h => h.removeTeams
  exact h1.foldl fun _ _ h => h.forgetGrid

theorem MemForm.resetQueue {hq : Nat} (h : MemForm s) : MemForm (s.resetQueue hq) := by
  unfold State.resetQueue
  split
  · exact h
  · extract_lets _ _ s1
    have h1 : MemForm s1 := h.updQueue.dropLaunches.foldl fun _ _ h => h.dropJob
    exact h1.after.drawn

theorem MemForm.startQueue {hq : Nat} (h : MemForm s) : MemForm (s.startQueue hq) := .ite h (.ite h.queueError h.updQueue.kickQueue)

theorem MemForm.pauseQueue {hq : Nat} (h : MemForm s) : MemForm (s.pauseQueue hq) := .ite h h.updQueue.kickDrain

theorem MemForm.ctlWrite {vf q : Nat} {v : Word} (h : MemForm s) : MemForm (s.ctlWrite vf q v) := by
  unfold State.ctlWrite
  split
  · exact h
  · exact .ite h.updQueue.resetQueue (.ite h.updQueue.startQueue h.updQueue.pauseQueue)

theorem MemForm.tailWrite {vf q : Nat} {v : Word} (h : MemForm s) : MemForm (s.tailWrite vf q v) := by
  unfold State.tailWrite
  split
  · exact h
  · exact .ite h (.ite h.updQueue.kickFetch h.queueError)

theorem MemForm.baseWrite {vf q at_ : Nat} {wide : Bool} {v : DWord} (h : MemForm s) : MemForm (s.baseWrite vf q at_ wide v) := by
  unfold State.baseWrite
  split
  · exact h
  · exact .ite h h.updQueue

theorem MemForm.ownerWrite {hq at_ : Nat} {wide : Bool} {v : DWord} (h : MemForm s) : MemForm (s.ownerWrite hq at_ wide v) :=
  .ite h h.updQueue

theorem MemForm.vdWrite {vf : Nat} {v : DWord} (h : MemForm s) : MemForm (s.vdWrite vf v) :=
  .ite (.ite h (h.updVd.foldl fun _ _ h => h.resetQueue)) (.ite (h.updVd.foldl fun _ _ h => h.kickQueue) h.updVd)

theorem MemForm.ringCtlWrite {vf k : Nat} {v : Word} (h : MemForm s) : MemForm (s.ringCtlWrite vf k v) :=
  h.ringTick.updRing.armRing.kickRing

theorem MemForm.ringConsWrite {vf k : Nat} {v : Word} (h : MemForm s) : MemForm (s.ringConsWrite vf k v) := h.updRing.kickRing

theorem MemForm.ringBaseWrite {vf k at_ : Nat} {wide : Bool} {v : DWord} (h : MemForm s) : MemForm (s.ringBaseWrite vf k at_ wide v) :=
  .ite h h.updRing

theorem MemForm.ringPaddrWrite {vf k at_ : Nat} {wide : Bool} {v : DWord} (h : MemForm s) : MemForm (s.ringPaddrWrite vf k at_ wide v) :=
  h.updRing

theorem MemForm.unmask {fn : HostFn} {vec : Nat} (h : MemForm s) : MemForm (s.unmask fn vec) := .ite h.setMsix.emit h.setMsix

theorem MemForm.msixWrite {fn : HostFn} {i : Nat} {v : Word} (h : MemForm s) : MemForm (s.msixWrite fn i v) :=
  .ite (.ite h.unmask h.setMsix) h.setMsix

theorem MemForm.execVdEnable {vf : Fin 32} {v : DWord} (h : MemForm s) : OutForm (execVdEnable vf v s) := .ite (.next h.vdWrite) (.next h)

theorem MemForm.execVdDisable {vf : Fin 32} {v : DWord} (h : MemForm s) : OutForm (execVdDisable vf v s) :=
  .ite (.next h.vdWrite) (.next h)

theorem MemForm.execQueueEnable {vf : Fin 32} {q : Nat} {v : Word} (h : MemForm s) : OutForm (execQueueEnable vf q v s) :=
  .ite (.next h.ctlWrite) (.next h)

theorem MemForm.execQueuePause {vf : Fin 32} {q : Nat} {v : Word} (h : MemForm s) : OutForm (execQueuePause vf q v s) :=
  .ite (.next h.ctlWrite) (.next h)

theorem MemForm.execQueueReset {vf : Fin 32} {q : Nat} {v : Word} (h : MemForm s) : OutForm (execQueueReset vf q v s) :=
  .ite (.next h.ctlWrite) (.next h)

theorem MemForm.execQueueTailWrite {vf : Fin 32} {q : Nat} {v : Word} (h : MemForm s) : OutForm (execQueueTailWrite vf q v s) :=
  .next h.tailWrite

theorem MemForm.execQueuePauseDrained {hq : Nat} (h : MemForm s) : OutForm (execQueuePauseDrained hq s) :=
  .ite (.next h) (.next h.updQueue)

theorem MemForm.execQueueResetDone {hq : Nat} (h : MemForm s) : OutForm (execQueueResetDone hq s) :=
  .ite (.next h) (.next (.slotChanged (h.frame.updQueue.foldl fun _ _ h => h.kickRing)))

theorem MemForm.execRingEnable {vf : Fin 32} {k : Fin 16} {v : Word} (h : MemForm s) : OutForm (execRingEnable vf k v s) :=
  .next h.ringCtlWrite

theorem MemForm.execRingConsWrite {vf : Fin 32} {k : Fin 16} {v : Word} (h : MemForm s) : OutForm (execRingConsWrite vf k v s) :=
  .next h.ringConsWrite

theorem MemForm.execMsixUnmask {fn : HostFn} {vec : Nat} (h : MemForm s) : OutForm (execMsixUnmask fn vec s) :=
  .ite (.next h.unmask) (.next h)

/-! ## Machine/HostPort -/

theorem MemForm.execPkgPwrLimitWrite {v : Word} (h : MemForm s) : OutForm (execPkgPwrLimitWrite v s) := .next h.frame

theorem MemForm.execLeaseMaxWrite {v : Word} (h : MemForm s) : OutForm (execLeaseMaxWrite v s) := .next h.frame

theorem MemForm.partWrite {p : Nat} {f : Part → Part} (h : MemForm s) : MemForm (s.partWrite p f) := .ite h.updPart h

theorem MemForm.vfWrite32 {vf off : Nat} {v : Word} (h : MemForm s) : MemForm (s.vfWrite32 vf off v) := by
  unfold State.vfWrite32
  split
  · exact h.updVd
  · split
    · exact h.updVd
    · split
      · exact h.ctlWrite
      · exact h.tailWrite
      · exact h.ringCtlWrite
      · exact h.ringConsWrite
      · exact h.msixWrite
      · exact h

theorem MemForm.vfWrite64 {vf off : Nat} {wide : Bool} {v : DWord} (h : MemForm s) : OptForm (s.vfWrite64 vf off wide v) := by
  unfold State.vfWrite64
  split
  · exact .some h.updVd
  · split
    · exact .ite (.some h.baseWrite) .none
    · exact .ite (.some h.ringBaseWrite) (.ite (.some h.ringPaddrWrite) .none)
    · exact .none

theorem MemForm.vfWrite {vf off : Nat} {wide : Bool} {v : DWord} (h : MemForm s) : MemForm (s.vfWrite vf off wide v) := by
  unfold State.vfWrite
  split
  · next e => exact OptForm.of_some h.vfWrite64 e
  · exact .ite h.vfWrite32.vfWrite32 h.vfWrite32

theorem MemForm.pfWrite32 {off : Nat} {v : Word} (h : MemForm s) : MemForm (s.pfWrite32 off v) := by
  unfold State.pfWrite32
  split
  · exact h.frame
  · exact h.frame
  · exact h.frame
  · exact h.drawn.atTick
  · exact h.frame
  · exact h.frame
  · exact h.frame
  · split
    · exact h.partWrite
    · exact h.fqWrite
    · exact h.fqHead
    · exact h.sqWrite
    · exact h.partWrite
    · exact h.msixWrite
    · exact h

theorem MemForm.pfWrite64 {off : Nat} {wide : Bool} {v : DWord} (h : MemForm s) : OptForm (s.pfWrite64 off wide v) :=
  .ite (.some h.frame) <|
    .first_cons (.map fun _ => h.ownerWrite) <|
    .first_cons (.map fun _ => .ite h.vdWrite h) <|
    .first_cons (.map fun _ => h.updVd.gainWork) <|
    .first_cons (.map fun _ => h.partWrite) <|
    .first_cons (.map fun _ => h.partWrite) <|
    .first_cons (.map fun _ => .ite h.tlbWrite h) <|
    .first_cons (.bind fun _ => .ite (.some h.partWrite) (.ite (.some (.ite h.resolve h)) .none)) <|
    .first_cons (.map fun _ => h.partWrite) <|
    .first_cons (.map fun _ => h.partWrite) <|
    .first_cons (.bind fun _ => .ite (.some h.partWrite) .none) <|
    .first_cons (.map fun _ => .ite h.waveWrite h) <|
    .first_cons (.map fun _ => h.partWrite) <|
    .first_cons (.map fun _ => h.partWrite) .none

theorem MemForm.pfWrite {off : Nat} {wide : Bool} {v : DWord} (h : MemForm s) : MemForm (s.pfWrite off wide v) := by
  unfold State.pfWrite
  split
  · next e => exact OptForm.of_some h.pfWrite64 e
  · exact .ite h.pfWrite32.pfWrite32 h.pfWrite32

theorem MemForm.mailboxWrite {off : Nat} {wide : Bool} {v : DWord} (h : MemForm s) : MemForm (s.mailboxWrite off wide v) :=
  .ite h.mboxWrite (.ite h.putBuf h)

theorem MemForm.execRegisterWrite {fn : HostFn} {bar : Fin 6} {off : Nat} {wide : Bool} {v : DWord} (h : MemForm s) :
    OutForm (execRegisterWrite fn bar off wide v s) := by
  refine .ite (.next h) (.next ?_)
  split
  · exact h.pfWrite
  · exact h.mailboxWrite
  · exact h.vfWrite
  · exact h

theorem MemForm.hostAborts {fn : HostFn} (h : MemForm s) : MemForm (s.hostAborts fn) := h.emit.logged

theorem MemForm.duplicateAll {ag : Agent} {n pa : Nat} {bs : List Byte} (h : MemForm s) : MemForm (s.duplicateAll ag n pa bs) := by
  induction n generalizing s pa bs with
  | zero => exact h
  | succ n ih => exact .ite h (ih h.duplicate)

theorem MemForm.storeRanges {ag : Agent} {l : List (Nat × Nat × Bool)} {bs : List Byte} (h : MemForm s) :
    MemForm (s.storeRanges ag l bs) := by
  induction l generalizing s bs with
  | nil => exact h
  | cons x l ih => exact ih (.ite h.storeHome.duplicateAll h.storeHome)

theorem MemForm.execHostApertureWrite {fn : HostFn} {off : Nat} {data : List Byte} (h : MemForm s) :
    OutForm (execHostApertureWrite fn off data s) := by
  unfold Machine.execHostApertureWrite
  split
  · exact .next h
  · split
    · exact .next h.hostAborts
    · exact .next h.storeRanges

theorem MemForm.execHostApertureRead {fn : HostFn} {off len : Nat} (h : MemForm s) : OutForm (execHostApertureRead fn off len s) := by
  unfold Machine.execHostApertureRead
  split
  · exact .next h
  · split
    · exact .next h.hostAborts
    · exact .next h.emit

/-! ## Machine/Dispatch -/

/-- Every instruction and every event: the outcome is that of its own function. -/
theorem MemForm.exec {i : Instr} (h : MemForm s) : OutForm (exec i s) := by
  cases i with
  | powerOn => exact h.execPowerOn
  | packageReset => exact h.execPackageReset
  | brownOut => exact h.execBrownOut
  | inputUndervoltage => exact h.execInputUndervoltage
  | inputOvervoltageWarning => exact h.execInputOvervoltageWarning
  | overVoltageShutdown => exact h.execOverVoltageShutdown
  | thermalTrip => exact h.execThermalTrip
  | prochotAssert => exact h.execProchotAssert
  | throttleCause => exact h.execThrottleCause
  | throttleStepDown => exact h.execThrottleStepDown
  | throttleRelease => exact h.execThrottleRelease
  | backstopCeiling => exact h.execBackstopCeiling
  | relockEnd => exact h.execRelockEnd
  | boostExhausted => exact h.execBoostExhausted
  | boostWindow => exact h.execBoostWindow
  | kettleWatchdogExpiry => exact h.execKettleWatchdogExpiry
  | kettleBoot => exact h.execKettleBoot
  | confirm => exact h.execConfirm
  | confirmTimeout => exact h.execConfirmTimeout
  | layoutSubmit => exact h.execLayoutSubmit
  | layoutLate => exact h.execLayoutLate
  | layoutFlip => exact h.execLayoutFlip
  | layoutCommit => exact h.execLayoutCommit
  | layoutQuery => exact h.execLayoutQuery
  | plan => exact h.execPlan
  | fwStage => exact h.execFwStage
  | serviceReturn => exact h.execServiceReturn
  | partitionStop => exact h.execPartitionStop
  | partitionStopDone => exact h.execPartitionStopDone
  | partitionStart => exact h.execPartitionStart
  | testMode => exact h.execTestMode
  | provisionGenerate => exact h.execProvisionGenerate
  | provisionInstall => exact h.execProvisionInstall
  | badCmd => exact h.execBadCmd
  | rowRepair => exact h.execRowRepair
  | rowRepairDone => exact h.execRowRepairDone
  | unitFence => exact h.execUnitFence
  | alarm => exact h.execAlarm
  | alarmPolicyWrite => exact h.execAlarmPolicyWrite
  | devHealthClear => exact h.execDevHealthClear
  | ppsPulse => exact h.execPpsPulse
  | ptpMessage => exact h.execPtpMessage
  | registerWrite => exact h.execRegisterWrite
  | pkgPwrLimitWrite => exact h.execPkgPwrLimitWrite
  | leaseMaxWrite => exact h.execLeaseMaxWrite
  | fabIdWrite => exact h.execFabIdWrite
  | mirrorBrokenClear => exact h.execMirrorBrokenClear
  | mirrorAckTimeout => exact h.execMirrorAckTimeout
  | fabricRead => exact h.execFabricRead
  | fabricWrite => exact h.execFabricWrite
  | fabricAtomic => exact h.execFabricAtomic
  | marker => exact h.execMarker
  | response => exact h.execResponse
  | lease => exact h.execLease
  | leaseGrant => exact h.execLeaseGrant
  | leaseExpiry => exact h.execLeaseExpiry
  | exportChange => exact h.execExportChange
  | exportChangeTimeout => exact h.execExportChangeTimeout
  | recallAck => exact h.execRecallAck
  | linkRetry => exact h.execLinkRetry
  | linkRetryLimit => exact h.execLinkRetryLimit
  | linkDown => exact h.execLinkDown
  | fabricRequestTimeout => exact h.execFabricRequestTimeout
  | planeFail => exact h.execPlaneFail
  | deadReport => exact h.execDeadReport (chip := 0)
  | stop => exact h.execStop
  | stopped => exact h.execStopped
  | quiesceFence => exact h.execQuiesceFence
  | fenced => exact h.execFenced
  | map => exact h.execMap
  | retried => exact h.execRetried
  | resume => exact h.execResume
  | masterTimeout => exact h.execMasterTimeout
  | chipStepTimeout => exact h.execChipStepTimeout
  | fabWindow => exact h.execFabWindow
  | hostApertureWrite => exact h.execHostApertureWrite
  | hostApertureRead => exact h.execHostApertureRead
  | hostWindowTimeout => exact h.execHostWindowTimeout
  | vdEnable => exact h.execVdEnable
  | vdDisable => exact h.execVdDisable
  | queueEnable => exact h.execQueueEnable
  | queuePause => exact h.execQueuePause
  | queuePauseDrained => exact h.execQueuePauseDrained
  | queueReset => exact h.execQueueReset
  | queueResetDone => exact h.execQueueResetDone
  | queueTailWrite => exact h.execQueueTailWrite
  | recordFetch => exact h.execRecordFetch
  | nodeStart => exact h.execNodeStart
  | nodeComplete => exact h.execNodeComplete
  | waitPoll => exact h.execWaitPoll
  | condRangeIdle => exact h.execCondRangeIdle
  | hostpostAppend => exact h.execHostpostAppend
  | ringTimer => exact h.execRingTimer
  | ringEnable => exact h.execRingEnable
  | ringConsWrite => exact h.execRingConsWrite
  | msixUnmask => exact h.execMsixUnmask
  | launchComplete => exact h.execLaunchComplete
  | teamPlacement => exact h.execTeamPlacement
  | claimComplete => exact h.execClaimComplete
  | spillCopyDone => exact h.execSpillCopyDone
  | readmission => exact h.execReadmission
  | slabLend => exact h.execSlabLend
  | lendReclaim => exact h.execLendReclaim
  | sliceBoundary => exact h.execSliceBoundary
  | yieldRequest => exact h.execYieldRequest
  | sliceEnd => exact h.execSliceEnd
  | drainDeadline => exact h.execDrainDeadline
  | shadowExchange => exact h.execShadowExchange
  | switchComplete => exact h.execSwitchComplete
  | thermalMigration => exact h.execThermalMigration
  | migrationComplete => exact h.execMigrationComplete
  | forwardingExpiry => exact h.execForwardingExpiry
  | tlbInv => exact h.execTlbInv
  | tlbInvDone => exact h.execTlbInvDone
  | fqEnable => exact h.execFqEnable
  | fqResolve => exact h.execFqResolve
  | sqEnable => exact h.execSqEnable
  | waveReenter => exact h.execWaveReenter
  | waveResume => exact h.execWaveResume
  | waveKill => exact h.execWaveKill
  | asyncCauseDelivery => exact h.execAsyncCauseDelivery
  | launchReplay => exact h.execLaunchReplay
  | gateTimeout => exact h.execGateTimeout
  | gateAbortTimeout => exact h.execGateAbortTimeout
  | waitvWake => exact h.execWaitvWake
  | sleepWake => exact h.execSleepWake
  | childGridRetire => exact h.execChildGridRetire
  | scheduleEntryIssue => exact h.execScheduleEntryIssue
  | copyChunkWritten => exact h.execCopyChunkWritten
  | copyJobComplete => exact h.execCopyJobComplete
  | matrixStep => exact h.execMatrixStep
  | matrixJobComplete => exact h.execMatrixJobComplete
  | collRoundComplete => exact h.execCollRoundComplete
  | collwRelease => exact h.execCollwRelease
  | iadd | isub | imul | imulh | imad | imin | imax | and | or | xor | andn | shl | shr | sar | rot | lea | sel | mov | popc
    | clz | brev | bfx | bfi | icmp | fadd | fsub | fmul | ffma | fmin | fmax | fcmp | frnd | fclass | frcp | frsq | fsqrt
    | fexp2 | flog2 | fsinp | fcosp | fneg | fabs | qblk | pack | unpk | shfl | movu | pand | por | pxor | pnot | pmov | bra
    | call | nop | brx | ret | rng => exact h.laneStep
  | cvt => exact h.execCvt
  | cbdec | cbenc => exact h.cbStep
  | gsel | gselNone => exact h.gselStep
  | exit => exact h.execExit
  | ld | lds | ldc => exact h.loadRow
  | st | sts | stc => exact h.storeRow
  | ldq => exact h.execLdq
  | stq => exact h.execStq
  | prf => exact h.execPrf
  | atom | acas | afadd => exact h.atomicRow
  | xacc => exact h.execXacc
  | xrd => exact h.execXrd
  | sadd | ssub | smul | sand | sor | sxor | sshl | sshr | ssar | scmp | ssel | smov | smovLit | smovSx | smovD | saddi | slea
    => exact h.uniPure
  | voteAny => exact h.execVoteAny
  | voteAll => exact h.execVoteAll
  | voteBallot => exact h.execVoteBallot
  | rdln | rdlnReg => exact h.rdlnRow
  | bru => exact h.execBru
  | brec => exact h.execBrec
  | barArrive => exact h.execBarArrive
  | barWait => exact h.execBarWait
  | barSync => exact h.execBarSync
  | cbar => exact h.execCbar
  | waitv => exact h.execWaitv
  | fenceAcq => exact h.execFenceAcq
  | fenceRel => exact h.execFenceRel
  | fenceFull => exact h.execFenceFull
  | cpy => exact h.execCpy
  | cpym => exact h.execCpym
  | twaitAll => exact h.execTwaitAll
  | twaitAny => exact h.execTwaitAny
  | tfirst => exact h.execTfirst
  | tclr => exact h.execTclr
  | chwaitAll => exact h.execChwaitAll
  | chwaitAny => exact h.execChwaitAny
  | schadv => exact h.execSchadv
  | coll => exact h.execColl
  | collw => exact h.execCollw
  | mma => exact h.execMma
  | mml => exact h.execMml
  | mmck => exact h.execMmck
  | mzero => exact h.execMzero
  | mlda => exact h.execMlda
  | msta => exact h.execMsta
  | mscl => exact h.execMscl
  | mwait => exact h.execMwait
  | rgne => exact h.execRgne
  | rgnl => exact h.execRgnl
  | gcall => exact h.execGcall
  | gret => exact h.execGret
  | lchild => exact h.execLchild
  | ljoin => exact h.execLjoin
  | perfq => exact h.execPerfq
  | thrm => exact h.execThrm
  | trap => exact h.execTrap
  | rte => exact h.execRte
  | srd => exact h.execSrd
  | swr => exact h.execSwr
  | ipf => exact h.execIpf
  | ipin => exact h.execIpin
  | iunp => exact h.execIunp
  | yield => exact h.execYield
  | sleep => exact h.execSleep
  | bkpt => exact h.execBkpt
  | halt => exact h.execHalt
  | spdmRequest => exact h.execSpdmRequest
  | congestionNotificationPacket => exact h.execCongestionNotificationPacket
  | rateRecovery => exact h.execRateRecovery
  | rocePacket => exact h.execRocePacket
  | ethernetPortDown => exact h.execEthernetPortDown
  | queuePairError => exact h.execQueuePairError
  | ppsAbsent => exact h.execPpsAbsent
  | illegalOp => exact h.execIllegalOp
  | fetchFault => exact h.execFetchFault
  -- The one instruction left is the recall of the fabric, whose name is a keyword of Mathlib.
  | _ => exact h.execRecall

/-! ## Machine/Step -/

theorem MemForm.settleStep {r : Host.Outcome State Fault Refusal} (h : MemForm s) (hr : OutForm r) : OutForm (settleStep s r) := by
  unfold Machine.settleStep
  split
  · exact .ite (.next h.tryAgain) hr
  · exact h.exec

theorem MemForm.step (h : MemForm s) : OutForm (step s) := by
  unfold Machine.step
  split
  · next e => exact .next (MemForm.of_snd h.plan e)
  · next e =>
    have h1 := MemForm.of_snd h.plan e
    exact h1.settleStep h1.exec

/-- Settles O6: every operation a step is built of keeps the form of the memories, so the step does. -/
theorem memoryForm : Obligations.MemoryForm := fun _ _ h e => h.step.of_next e

end Sys2Proof.Machine
end

section
/-!
SUPPORT. Reset values, supply, throttling, relocks, the boost allowance and time (O4, O48, O49). An operation of these rules changes one
hob and schedules rows, so that each has two lemmas: which part of the state it leaves alone (`ScheduleFrame`, `HobFrame`, `PaceFrame`), and
what it makes of its hob. A fold over the hobs visits each of them once and so leaves a hob as that one visit does (`hob_foldl_of_mem`).
-/

namespace Sys2Proof.Machine

variable {s t u : State}

/-! ## Reset values -/

/-- Settles O4: a table that lists nothing answers its default, so each clause reads off a field of `State.reset` or of that default. -/
theorem resetValues : Obligations.ResetValues := by
  refine ⟨rfl, fun _ => rfl, rfl, rfl, fun _ => rfl, fun _ => ⟨rfl, rfl⟩, rfl, rfl, rfl, rfl, rfl, fun _ => ⟨rfl, rfl⟩, rfl, rfl, ?_, ?_,
    fun _ => ⟨rfl, rfl, rfl, rfl, fun _ => rfl⟩, fun _ => ⟨rfl, rfl, rfl⟩, fun _ _ => rfl, memForm_reset⟩
  · exact ⟨by decide, by decide, rfl, rfl, rfl, rfl, rfl, rfl, rfl, rfl, by decide⟩
  · exact fun _ => ⟨rfl, rfl, rfl, rfl⟩

/-! ## Frames -/

/-- Of two states, the second differs only in the rows of the agenda and in the free values drawn for them. -/
def ScheduleFrame (s t : State) : Prop := t = { s with agenda := t.agenda, fresh := t.fresh }

/-- Of two states, the second differs only in what throttling and relocks touch: the hobs, the causes that waves hold, the agenda. -/
def PaceFrame (s t : State) : Prop := t = { s with hobs := t.hobs, waves := t.waves, agenda := t.agenda, fresh := t.fresh }

/-- `PaceFrame` for an operation on one hob: it leaves every other hob alone. -/
structure HobFrame (h : Nat) (s t : State) : Prop where
  frame : PaceFrame s t
  others : ∀ j, j ≠ h → t.hob j = s.hob j

theorem ScheduleFrame.refl (s : State) : ScheduleFrame s s := rfl

theorem ScheduleFrame.trans (h : ScheduleFrame s t) (k : ScheduleFrame t u) : ScheduleFrame s u := by
  unfold ScheduleFrame at k ⊢
  rw [h] at k
  exact k

theorem ScheduleFrame.hob (f : ScheduleFrame s t) (h : Nat) : t.hob h = s.hob h := congrArg (·.hob h) f

theorem ScheduleFrame.ite {c : Prop} [Decidable c] (ht : ScheduleFrame s t) (hu : ScheduleFrame s u) :
    ScheduleFrame s (if c then t else u) := by
  split <;> assumption

theorem ScheduleFrame.foldl {α : Type} {f : State → α → State} (hf : ∀ s a, ScheduleFrame s (f s a)) (l : List α) (s : State) :
    ScheduleFrame s (l.foldl f s) :=
  List.foldlRecOn l f (motive := ScheduleFrame s) (.refl s) fun t h a _ => h.trans (hf t a)

theorem PaceFrame.refl (s : State) : PaceFrame s s := rfl

theorem PaceFrame.trans (h : PaceFrame s t) (k : PaceFrame t u) : PaceFrame s u := by
  unfold PaceFrame at k ⊢
  rw [h] at k
  exact k

theorem PaceFrame.pkg (f : PaceFrame s t) : t.pkg = s.pkg := congrArg (·.pkg) f
theorem PaceFrame.log (f : PaceFrame s t) : t.log = s.log := congrArg (·.log) f
theorem PaceFrame.reft (f : PaceFrame s t) : t.reft = s.reft := congrArg (·.reft) f
theorem PaceFrame.pool (f : PaceFrame s t) (p : Nat) : t.pool p = s.pool p := congrArg (·.pool p) f
theorem PaceFrame.allowance (f : PaceFrame s t) (h : Nat) : t.allowance h = s.allowance h := congrArg (·.allowance h) f

theorem HobFrame.refl (h : Nat) (s : State) : HobFrame h s s := ⟨.refl s, fun _ _ => rfl⟩

theorem HobFrame.trans {h : Nat} (f : HobFrame h s t) (g : HobFrame h t u) : HobFrame h s u :=
  ⟨f.frame.trans g.frame, fun j hj => (g.others j hj).trans (f.others j hj)⟩

theorem HobFrame.updHob (s : State) (h : Nat) (f : Hob → Hob) : HobFrame h s (s.updHob h f) :=
  ⟨rfl, fun _ hj => State.hob_updHob_ne s f hj⟩

theorem ScheduleFrame.hobFrame (f : ScheduleFrame s t) (h : Nat) : HobFrame h s t :=
  ⟨by unfold PaceFrame; rw [f], fun j _ => f.hob j⟩

theorem PaceFrame.foldl {f : State → Nat → State} (hf : ∀ s h, HobFrame h s (f s h)) (l : List Nat) (s : State) :
    PaceFrame s (l.foldl f s) :=
  List.foldlRecOn l f (motive := PaceFrame s) (.refl s) fun t h a _ => h.trans (hf t a).frame

/-- A fold that visits hobs leaves those that it does not visit alone. -/
theorem hob_foldl_of_notMem {f : State → Nat → State} (hf : ∀ s h, HobFrame h s (f s h)) {h : Nat} {l : List Nat} (hl : h ∉ l) (s : State) :
    (l.foldl f s).hob h = s.hob h :=
  List.foldlRecOn l f (motive := fun t => t.hob h = s.hob h) rfl fun t e a ha =>
    ((hf t a).others h (fun x => hl (x ▸ ha))).trans e

/-- A fold that visits each hob once leaves a hob as its own visit does, which finds the hob as it was before the fold. -/
theorem hob_foldl_of_mem {f : State → Nat → State} (hf : ∀ s h, HobFrame h s (f s h)) {h : Nat} {l : List Nat} (hn : l.Nodup) (hl : h ∈ l) (s : State) :
    ∃ u, PaceFrame s u ∧ u.hob h = s.hob h ∧ (l.foldl f s).hob h = (f u h).hob h := by
  obtain ⟨l₁, l₂, rfl⟩ := List.append_of_mem hl
  have h₁ : h ∉ l₁ := fun x => List.disjoint_of_nodup_append hn x (by simp)
  have h₂ : h ∉ l₂ := (List.nodup_cons.1 hn.of_append_right).1
  refine ⟨l₁.foldl f s, .foldl hf l₁ s, hob_foldl_of_notMem hf h₁ s, ?_⟩
  rw [List.foldl_append, List.foldl_cons, hob_foldl_of_notMem hf h₂]

/-! ## The agenda -/

theorem mem_insertBy {α : Type} (key : α → Nat) (a x : α) (l : List α) : x ∈ insertBy key a l ↔ x = a ∨ x ∈ l := by
  induction l with
  | nil => simp [insertBy]
  | cons y l ih =>
    unfold insertBy
    split <;> simp [ih, or_left_comm]

theorem due_iff (i : Instr) : s.due i = true ↔ ∃ n, (n, i) ∈ s.agenda := by
  simp [State.due]

theorem due_atTick_self (s : State) (n : Nat) (i : Instr) : (s.atTick n i).due i = true :=
  (due_iff i).2 ⟨n, (mem_insertBy ..).2 (.inl rfl)⟩

theorem due_soon_self (s : State) (i : Instr) : (s.soon i).due i = true := due_atTick_self s _ i

theorem soonOnce_schedule (s : State) (i : Instr) : ScheduleFrame s (s.soonOnce i) := .ite (.refl s) rfl

theorem armBoost_schedule (s : State) (h : Nat) : ScheduleFrame s (s.armBoost h) := .ite (.ite rfl rfl) (.refl s)

theorem kick_schedule (s : State) (j : Nat) : ScheduleFrame s (s.kick j) := by
  unfold State.kick
  split
  · exact .refl s
  · split
    · exact .refl s
    · exact .ite (.refl s) (soonOnce_schedule ..)

theorem kickTeam_schedule (s : State) (team : Nat) : ScheduleFrame s (s.kickTeam team) := by
  unfold State.kickTeam
  extract_lets s1
  have h1 : ScheduleFrame s s1 := .foldl (fun _ _ => .ite (kick_schedule ..) (.refl _)) _ s
  split
  · exact h1
  · exact .ite h1 (h1.trans (soonOnce_schedule ..))

theorem freed_schedule (s : State) (c : Nat) : ScheduleFrame s (s.freed c) :=
  (ScheduleFrame.foldl (fun _ _ => .ite (soonOnce_schedule ..) (.refl _)) _ s).trans (soonOnce_schedule ..)

/-! ## The throttled state of a hob (R21, R376) -/

theorem raiseThrottle_eq (s : State) (h : Nat) (b : Bool) : ∃ ws : Tbl Wave, s.raiseThrottle h b = { s with waves := ws } := by
  refine List.foldlRecOn s.teams _ (motive := fun t => ∃ ws : Tbl Wave, t = { s with waves := ws }) ⟨s.waves, rfl⟩ ?_
  rintro _ ⟨ws, rfl⟩ e _
  split
  · unfold State.throttleCause
    split
    · exact ⟨ws, rfl⟩
    · exact ⟨_, rfl⟩
  · exact ⟨ws, rfl⟩

theorem noteThrottle_frame (s : State) (h : Nat) : HobFrame h s (s.noteThrottle h) := by
  unfold State.noteThrottle
  extract_lets now
  split
  · exact .refl h s
  · obtain ⟨ws, e⟩ := raiseThrottle_eq (s.updHob h fun k => { k with throttled := now }) h now
    rw [e]
    exact (HobFrame.updHob s h _).trans ⟨rfl, fun _ _ => rfl⟩

theorem noteThrottle_hob (s : State) (h : Nat) : (s.noteThrottle h).hob h = { s.hob h with throttled := s.below h } := by
  unfold State.noteThrottle
  extract_lets now
  split
  · next e =>
    rw [show s.below h = (s.hob h).throttled from beq_iff_eq.1 e]
  · obtain ⟨ws, e⟩ := raiseThrottle_eq (s.updHob h fun k => { k with throttled := now }) h now
    rw [e]
    exact State.hob_updHob_self s h fun k => { k with throttled := now }

theorem below_of_ceil_lt {h : Nat} (hc : (s.hob h).ceil < 8) : s.below h = true := by
  simp [State.below, hc]

/-! ## Relocks (R14) -/

theorem relock_frame (s : State) (h n : Nat) : HobFrame h s (s.relock h n) :=
  (HobFrame.updHob s h _).trans (ScheduleFrame.hobFrame (by rfl) h)

theorem settle_frame (s : State) (h : Nat) : HobFrame h s (s.settle h) := by
  unfold State.settle
  extract_lets k
  split
  · exact .refl h s
  · split
    · exact .updHob s h _
    · exact relock_frame s h _

theorem relock_hob (s : State) (h n : Nat) : (s.relock h n).hob h = { s.hob h with step := n, relockEnd := some (s.reft + 600) } :=
  State.hob_updHob_self s h fun k => { k with step := n, relockEnd := some (s.reft + 600) }

/-- Whether a hob relocks now, later or not at all, only its step and its relock change. -/
theorem settle_hob (s : State) (h : Nat) :
    ∃ n e a, (s.settle h).hob h = { s.hob h with step := n, relockEnd := e, again := a } := by
  unfold State.settle
  extract_lets k
  split
  · exact ⟨_, _, _, rfl⟩
  · split
    · exact ⟨_, _, _, State.hob_updHob_self ..⟩
    · exact ⟨_, _, _, relock_hob ..⟩

theorem settle_eq_relock {h : Nat} (ht : s.targetStep h ≠ (s.hob h).step) (hr : (s.hob h).relockEnd = none) :
    s.settle h = s.relock h (s.targetStep h) := by
  simp [State.settle, ht, hr]

/-! ## Ceilings (R21, R22) -/

theorem lowerCeil_frame (s : State) (h : Nat) : HobFrame h s (s.lowerCeil h) := by
  unfold State.lowerCeil
  split
  · exact .refl h s
  · exact ((HobFrame.updHob s h _).trans (ScheduleFrame.hobFrame (by rfl) h)).trans (noteThrottle_frame ..)

theorem lowerCeil_of_le_one {h : Nat} (hc : (s.hob h).ceil ≤ 1) : s.lowerCeil h = s := if_pos hc

/-- A ceiling above 1 is lowered and stays at 1 at least; from 8 or less it leaves the hob throttled. -/
theorem lowerCeil_lowers {h : Nat} (hc : 1 < (s.hob h).ceil) :
    1 ≤ ((s.lowerCeil h).hob h).ceil ∧ ((s.lowerCeil h).hob h).ceil < (s.hob h).ceil
      ∧ ((s.hob h).ceil ≤ 8 → ((s.lowerCeil h).hob h).throttled = true) := by
  have hmod : Config.kettleChoice s.fresh % ((s.hob h).ceil - 1) < (s.hob h).ceil - 1 := Nat.mod_lt _ (by omega)
  rw [State.lowerCeil, if_neg (by omega), noteThrottle_hob]
  have e : (((s.updHob h fun k => { k with ceil := 1 + Config.kettleChoice s.fresh % (k.ceil - 1) }).drawn).hob h).ceil
      = 1 + Config.kettleChoice s.fresh % ((s.hob h).ceil - 1) :=
    congrArg Hob.ceil (State.hob_updHob_self s h fun k => { k with ceil := 1 + Config.kettleChoice s.fresh % (k.ceil - 1) })
  exact ⟨by dsimp only; omega, by dsimp only; omega, fun h8 => below_of_ceil_lt (by omega)⟩

/-! ## Every hob at once (R21, R22) -/

theorem Tbl.getD_map {α : Type} (l : Tbl α) (k : Nat) (d : α) (f : α → α) (hd : f d = d) :
    Tbl.getD (l.map fun e => (e.1, f e.2)) k d = f (Tbl.getD l k d) := by
  induction l with
  | nil => exact hd.symm
  | cons e l ih =>
    obtain ⟨j, x⟩ := e
    unfold Tbl.getD at ih ⊢
    simp only [List.map_cons, Tbl.find]
    split
    · rfl
    · exact ih

theorem haltReleases_frame (s : State) : PaceFrame s s.haltReleases := rfl

theorem haltReleases_hob (s : State) (h : Nat) : s.haltReleases.hob h = { s.hob h with releaseAt := none } :=
  Tbl.getD_map s.hobs h .reset (fun k => { k with releaseAt := none }) rfl

theorem lowerAll_frame (s : State) : PaceFrame s s.lowerAll := by
  unfold State.lowerAll
  split
  · exact (haltReleases_frame s).trans (.foldl lowerCeil_frame _ _)
  · exact .refl s

/-- Kettle, while it runs, lowers the ceiling of every hob that is above 1, and none below 1. -/
theorem lowerAll_lowers {h : Nat} (hh : h < 64) (hr : s.kettle.running = true) (h1 : 1 ≤ (s.hob h).ceil) :
    1 ≤ (s.lowerAll.hob h).ceil ∧ (1 < (s.hob h).ceil → (s.lowerAll.hob h).ceil < (s.hob h).ceil) := by
  obtain ⟨u, -, hu, e⟩ := hob_foldl_of_mem lowerCeil_frame List.nodup_range (List.mem_range.2 hh) s.haltReleases
  have hc : (u.hob h).ceil = (s.hob h).ceil := by rw [hu, haltReleases_hob]
  rw [State.lowerAll, if_pos hr, e, ← hc]
  by_cases hgt : 1 < (u.hob h).ceil
  · obtain ⟨hle, hlt, -⟩ := lowerCeil_lowers hgt
    exact ⟨hle, fun _ => hlt⟩
  · rw [lowerCeil_of_le_one (by omega)]
    exact ⟨by omega, fun x => absurd x hgt⟩

/-! ## Power-on and the package reset (R27, R34) -/

/-- Of two states, the second differs only in what a change of keys leaves: HBM, the ranges whose keys have changed, the drawings. -/
def RekeyFrame (s t : State) : Prop := t = { s with mem := t.mem, stale := t.stale, fresh := t.fresh }

theorem RekeyFrame.refl (s : State) : RekeyFrame s s := rfl

theorem RekeyFrame.trans (h : RekeyFrame s t) (k : RekeyFrame t u) : RekeyFrame s u := by
  unfold RekeyFrame at k ⊢
  rw [h] at k
  exact k

theorem rekey_frame (s : State) (lo hi : Nat) : RekeyFrame s (s.rekey lo hi) := by
  unfold State.rekey
  split <;> rfl

/-- What power-on and a package reset share: of the state before, only the flash, the fuses, the timer, the log and host memory are left, and
the boot ROM is to start. -/
structure Restarted (s t : State) : Prop where
  slots : t.kettle.slotA = s.kettle.slotA ∧ t.kettle.slotB = s.kettle.slotB
  fuses : t.kettle.fused = s.kettle.fused ∧ t.kettle.identity = s.kettle.identity
  boots : t.kettle.running = false ∧ t.due .kettleBoot = true
  noWork : t.waves = [] ∧ t.teams = [] ∧ t.grids = [] ∧ t.queues = []
  noLayout : t.parts = [] ∧ t.kettle.activeGen = 0
  host : t.hostMem = s.hostMem
  timer : t.reft = s.reft
  log : t.log = s.log

/-- New keys for the partitions that are present, with which a restart begins (R40), leave the rest of the state alone. -/
theorem rekeyAll_frame (l : List Nat) (s : State) :
    RekeyFrame s (l.foldl (fun (s : State) (p : Nat) =>
      if (s.part p).present then s.rekey (s.part p).hbmBase.toNat ((s.part p).hbmBase.toNat + (s.part p).hbmSize.toNat) else s) s) :=
  List.foldlRecOn l _ (motive := RekeyFrame s) (.refl s) fun t ht p _ => by
    split
    · exact ht.trans (rekey_frame ..)
    · exact ht

theorem restarted_restarted (s : State) : Restarted s s.restarted := by
  unfold State.restarted
  extract_lets k h s1 t1
  have f : RekeyFrame s s1 := rekeyAll_frame ..
  clear_value s1
  exact {
    slots := ⟨rfl, rfl⟩
    fuses := ⟨rfl, rfl⟩
    boots := ⟨rfl, due_soon_self ..⟩
    noWork := ⟨rfl, rfl, rfl, rfl⟩
    noLayout := ⟨rfl, rfl⟩
    host := congrArg (·.hostMem) f
    timer := congrArg (·.reft) f
    log := congrArg (·.log) f }

/-- A restart holds the cores and ends a halt. -/
theorem restarted_pkg (s : State) :
    s.restarted.pkg.power = s.pkg.power ∧ s.restarted.pkg.coresHeld = true ∧ s.restarted.pkg.halted = false := by
  unfold State.restarted
  extract_lets k h s1 t1
  have f : RekeyFrame s s1 := rekeyAll_frame ..
  clear_value s1
  exact ⟨congrArg (·.pkg.power) f, rfl, rfl⟩

theorem restarted_mem_of_no_parts (hp : s.parts = []) : s.restarted.mem = s.mem := by
  unfold State.restarted
  extract_lets k h s1 t1
  have e : s1 = s := List.foldlRecOn _ _ (motive := fun t => t = s) rfl fun t ht p _ => by
    rw [ht, if_neg (by simp [State.part, hp, Tbl.getD, Part.reset])]
  clear_value s1
  exact congrArg (·.mem) e

/-- The package before power-on: nothing but its flash, its fuses and what lies outside it. -/
def State.unpowered (s : State) : State :=
  { s with reft := 0, time := State.reset.time, mem := [], stale := [], poison := [], agenda := []
           parts := [], dev := { s.dev with alarmPolicy := 0 }
           kettle := { s.kettle with healed := [], lastRepair := [], rowErrs := [], repairDue := [] } }

theorem Restarted.setPkg (h : Restarted s t) (p : Pkg) : Restarted s { t with pkg := p } :=
  ⟨h.slots, h.fuses, h.boots, h.noWork, h.noLayout, h.host, h.timer, h.log⟩

theorem execPowerOn_of_off (off : s.pkg.power ≠ .on) :
    execPowerOn s = .next { s.unpowered.restarted with pkg := { Pkg.reset with coresHeld := true } } := by
  rw [execPowerOn, if_neg (by simpa using off), State.unpowered]

theorem execPowerOn_restarted (off : s.pkg.power ≠ .on) :
    ∃ t, execPowerOn s = .next t ∧ Restarted s.unpowered t ∧ t.mem = [] ∧ t.pkg = { Pkg.reset with coresHeld := true } := by
  have r := restarted_restarted s.unpowered
  have m : s.unpowered.restarted.mem = [] := restarted_mem_of_no_parts rfl
  rw [execPowerOn_of_off off]
  generalize s.unpowered.restarted = t at r m ⊢
  exact ⟨_, rfl, r.setPkg _, m, rfl⟩

/-- The package at a package reset: what the supervisor shows of the input is drawn after a brown-out, for it may still be below 46 V (R24). -/
def State.resetDrawn (s : State) : State :=
  let out := s.pkg.trip == .brownOut && !(Config.freeWord s.fresh 0).getLsbD 0
  let s := s.drawn
  { s with pkg := { s.pkg with inputOk := !out, thermTripN := out, trip := if out then .brownOut else .none } }

theorem resetDrawn_power (s : State) : s.resetDrawn.pkg.power = s.pkg.power := rfl

theorem execPackageReset_of_on (on : s.pkg.power = .on) : execPackageReset s = .next s.resetDrawn.restarted := by
  rw [execPackageReset, if_neg (by simp [on]), State.resetDrawn]

theorem execPackageReset_restarted (on : s.pkg.power = .on) :
    ∃ t, execPackageReset s = .next t ∧ Restarted s.resetDrawn t ∧ t.pkg.power = .on ∧ t.pkg.coresHeld = true ∧ t.pkg.halted = false := by
  have r := restarted_restarted s.resetDrawn
  obtain ⟨power, held, halted⟩ := restarted_pkg s.resetDrawn
  rw [execPackageReset_of_on on]
  generalize s.resetDrawn.restarted = t at r power held halted ⊢
  exact ⟨t, rfl, r, power.trans ((resetDrawn_power s).trans on), held, halted⟩

/-- Settles O48: power-on and a package reset are both `restarted` of another state, and an input that is low and PROCHOT# both lower every
ceiling as `lowerAll` does; the other clauses are the operation itself. -/
theorem powerAndInput : Obligations.PowerAndInput := by
  intro s kept lowers
  have lowered : ∀ t : State, t.hobs = s.hobs → t.kettle = s.kettle → lowers t.lowerAll := fun t hh hk h h64 run h1 => by
    have e : t.hob h = s.hob h := congrArg (Tbl.getD · h Hob.reset) hh
    rw [← e] at h1 ⊢
    exact lowerAll_lowers h64 (hk ▸ run) h1
  have keeps : ∀ {u t : State}, Restarted u t → u.kettle.slotA = s.kettle.slotA → u.kettle.slotB = s.kettle.slotB → u.kettle.fused = s.kettle.fused →
      u.kettle.identity = s.kettle.identity → u.hostMem = s.hostMem → t.pkg.power = .on ∧ t.pkg.coresHeld = true ∧ t.pkg.halted = false →
      kept t := by
    rintro u t ⟨⟨slotA, slotB⟩, ⟨fused, identity⟩, ⟨stopped, boots⟩, ⟨waves, teams, grids, queues⟩, ⟨parts, gen⟩, host, -, -⟩ hA hB hf hi hm hp
    exact ⟨slotA.trans hA, slotB.trans hB, fused.trans hf, identity.trans hi, stopped, boots, waves, teams, grids, queues, parts, gen, host.trans hm, hp⟩
  refine ⟨fun off => ?_, fun on => ?_⟩
  · obtain ⟨t, e, r, mem, pkg⟩ := execPowerOn_restarted off
    exact ⟨t, e, keeps r rfl rfl rfl rfl rfl (by simp [pkg, Pkg.reset]), r.timer, mem⟩
  have acts : ∀ {a b : Host.Outcome State Fault Refusal}, (if s.pkg.power != .on then a else b) = b := fun {a b} => if_neg (by simp [on])
  refine ⟨?_, acts, ?_, acts, acts, acts, ?_⟩
  · obtain ⟨t, e, r, pkg⟩ := execPackageReset_restarted on
    exact ⟨t, e, keeps r rfl rfl rfl rfl rfl pkg, r.timer, r.log⟩
  · exact ⟨_, acts, (lowerAll_frame _).pkg, (lowerAll_frame _).log, lowered _ rfl rfl⟩
  · exact ⟨_, acts, (lowerAll_frame _).pkg, lowered _ rfl rfl⟩

/-! ## The steps of throttling (R21, R22, R28) -/

theorem execThrottleCause_of_on (on : s.pkg.power = .on) (run : s.kettle.running = true) (c : ThrCause) (h : Fin 64) :
    ∃ p, execThrottleCause c h s = .next ({ s with pkg := p }.haltReleases.lowerCeil h.val) := by
  rw [execThrottleCause.eq_def, if_neg (by simp [on, run])]
  cases c with
  | temperature => exact ⟨{ s.pkg with overTemp := true }, rfl⟩
  | power => exact ⟨{ s.pkg with overPower := true }, rfl⟩
  | input => exact ⟨{ s.pkg with underVolt := true }, rfl⟩

/-- A cause lowers the ceiling of the hob that it is of, and leaves it throttled. -/
theorem execThrottleCause_lowers (on : s.pkg.power = .on) (run : s.kettle.running = true) (c : ThrCause) (h : Fin 64) :
    ∃ t, execThrottleCause c h s = .next t ∧ (1 < (s.hob h.val).ceil → (s.hob h.val).ceil ≤ 8 →
      1 ≤ (t.hob h.val).ceil ∧ (t.hob h.val).ceil < (s.hob h.val).ceil ∧ (t.hob h.val).throttled = true) := by
  obtain ⟨p, e⟩ := execThrottleCause_of_on on run c h
  refine ⟨_, e, fun h1 h8 => ?_⟩
  have hc : ({ s with pkg := p }.haltReleases.hob h.val).ceil = (s.hob h.val).ceil := by rw [haltReleases_hob]; rfl
  rw [← hc] at h1 h8 ⊢
  obtain ⟨ge, lt, thr⟩ := lowerCeil_lowers h1
  exact ⟨ge, lt, thr h8⟩

theorem targetStep_le_opStep (s : State) (h : Nat) : s.targetStep h ≤ (s.hob h).opStep := by
  unfold State.targetStep
  extract_lets k
  split
  · exact le_refl _
  · exact Nat.min_le_right ..

/-- A throttle step below the operating point is the step that the hob is to run at. -/
theorem targetStep_of_throttle {h n : Nat} (ht : (s.hob h).throttle = some n) (hn : n ≤ (s.hob h).opStep) : s.targetStep h = n := by
  simp [State.targetStep, ht, hn]

theorem due_relock (s : State) (h : Fin 64) (n : Nat) : (s.relock h.val n).due (.relockEnd h) = true := by
  have d : (s.relock h.val n).due (.relockEnd (Fin.ofNat 64 h.val)) = true := due_atTick_self ..
  rwa [Fin.ofNat_val_eq_self] at d

/-- The state in which the second stage has given a hob the next lower step, and not relocked it yet. -/
def State.steppedDown (s : State) (h : Nat) : State :=
  (s.updHob h fun k => { k with throttle := some (s.targetStep h - 1), lastLower := some s.reft }).noteThrottle h

theorem steppedDown_hob (s : State) (h : Nat) : ∃ b, (s.steppedDown h).hob h =
    { s.hob h with throttle := some (s.targetStep h - 1), lastLower := some s.reft, throttled := b } := by
  rw [State.steppedDown, noteThrottle_hob, State.hob_updHob_self]
  exact ⟨_, rfl⟩

theorem steppedDown_reft (s : State) (h : Nat) : (s.steppedDown h).reft = s.reft := (noteThrottle_frame ..).frame.reft

/-- Where no relock stands in the way, a hob that ran at its target relocks to the step below. -/
theorem steppedDown_settle {h : Nat} (pos : 0 < s.targetStep h) (free : (s.hob h).relockEnd = none) (atTarget : (s.hob h).step = s.targetStep h) :
    (s.steppedDown h).settle h = (s.steppedDown h).relock h (s.targetStep h - 1) := by
  obtain ⟨b, e⟩ := steppedDown_hob s h
  have le := targetStep_le_opStep s h
  have target : (s.steppedDown h).targetStep h = s.targetStep h - 1 := targetStep_of_throttle (by rw [e]) (by rw [e]; dsimp only; omega)
  rw [← target]
  exact settle_eq_relock (by rw [target, e]; dsimp only; omega) (by rw [e]; exact free)

theorem execThrottleStepDown_of_due (on : s.pkg.power = .on) (run : s.kettle.running = true) (h : Fin 64) (cause : s.throttling = true)
    (low : (s.hob h.val).ceil ≠ 8) (late : ∀ x, (s.hob h.val).lastLower = some x → x + 10000 ≤ s.reft) (pos : 0 < s.targetStep h.val) :
    execThrottleStepDown h s = .next ((s.steppedDown h.val).settle h.val) := by
  unfold execThrottleStepDown
  extract_lets k early
  have notEarly : early = false := by
    unfold early
    split
    · rfl
    · next x e => simpa using late x e
  exact if_neg (by simp [on, run, cause, low, notEarly, k]; omega)

/-- The second stage lowers the step that a hob may run at by one, and notes when; where no relock stands in the way it relocks for 600 ticks. -/
theorem execThrottleStepDown_lowers (on : s.pkg.power = .on) (run : s.kettle.running = true) (h : Fin 64) (cause : s.throttling = true)
    (low : (s.hob h.val).ceil ≠ 8) (late : ∀ x, (s.hob h.val).lastLower = some x → x + 10000 ≤ s.reft) (pos : 0 < s.targetStep h.val) :
    ∃ t, execThrottleStepDown h s = .next t ∧ (t.hob h.val).throttle = some (s.targetStep h.val - 1) ∧ (t.hob h.val).lastLower = some s.reft
      ∧ ((s.hob h.val).relockEnd = none → (s.hob h.val).step = s.targetStep h.val →
        (t.hob h.val).step = s.targetStep h.val - 1 ∧ (t.hob h.val).relockEnd = some (s.reft + 600) ∧ t.due (.relockEnd h) = true) := by
  obtain ⟨b, e⟩ := steppedDown_hob s h.val
  obtain ⟨n, r, a, f⟩ := settle_hob (s.steppedDown h.val) h.val
  refine ⟨_, execThrottleStepDown_of_due on run h cause low late pos, by rw [f, e], by rw [f, e], fun free atTarget => ?_⟩
  rw [steppedDown_settle pos free atTarget, relock_hob, steppedDown_reft]
  exact ⟨rfl, rfl, due_relock ..⟩

/-! ## Releases (R22) -/

theorem armRelease_frame (s : State) (h : Nat) : HobFrame h s (s.armRelease h) := by
  unfold State.armRelease
  split
  · exact (HobFrame.updHob s h _).trans (ScheduleFrame.hobFrame (by rfl) h)
  · exact .refl h s

theorem armRelease_hob (s : State) (h : Nat) : ∃ r, (s.armRelease h).hob h = { s.hob h with releaseAt := r } := by
  unfold State.armRelease
  split
  · extract_lets n
    exact ⟨some n, State.hob_updHob_self s h fun k => { k with releaseAt := some n }⟩
  · exact ⟨_, rfl⟩

/-- Every cause of throttling has cleared (LE 55). -/
def State.causesOver (s : State) : State :=
  { s with pkg := { s.pkg with underVolt := false, overTemp := false, overPower := false, prochot := false } }

/-- The state in which Kettle has released one step of a hob, or its ceiling, and has not looked at what follows from it. -/
def State.releasedOne (s : State) (h : Nat) : State :=
  match (s.hob h).throttle with
  | some n => s.causesOver.updHob h fun k => { k with throttle := if n + 1 < k.opStep then some (n + 1) else none, lastRelease := some s.reft }
  | none => (s.causesOver.updHob h fun k =>
      { k with ceil := k.ceil + 1 + Config.kettleChoice s.fresh % (8 - k.ceil), lastRelease := some s.reft }).drawn

theorem releasedOne_pkg (s : State) (h : Nat) : (s.releasedOne h).pkg = s.causesOver.pkg := by
  unfold State.releasedOne
  split <;> rfl

theorem releasedOne_hob_of_step {h n : Nat} (e : (s.hob h).throttle = some n) : (s.releasedOne h).hob h =
    { s.hob h with throttle := if n + 1 < (s.hob h).opStep then some (n + 1) else none, lastRelease := some s.reft } := by
  unfold State.releasedOne
  rw [e]
  exact State.hob_updHob_self s h fun k => { k with throttle := if n + 1 < k.opStep then some (n + 1) else none, lastRelease := some s.reft }

theorem releasedOne_hob_of_ceil {h : Nat} (e : (s.hob h).throttle = none) : (s.releasedOne h).hob h =
    { s.hob h with ceil := (s.hob h).ceil + 1 + Config.kettleChoice s.fresh % (8 - (s.hob h).ceil), lastRelease := some s.reft } := by
  unfold State.releasedOne
  rw [e]
  exact State.hob_updHob_self s h fun k =>
    { k with ceil := k.ceil + 1 + Config.kettleChoice s.fresh % (8 - k.ceil), lastRelease := some s.reft }

/-- What follows a release: the hob's throttled state and its step are brought in line, and the next releases are set. -/
def State.goOn (s : State) (h : Nat) : State :=
  (List.range 64).foldl (fun (s : State) (i : Nat) => s.armRelease i) (((s.noteThrottle h).settle h).updHob h fun k => { k with releaseAt := none })

theorem goOn_frame (s : State) (h : Nat) : PaceFrame s (s.goOn h) :=
  (((noteThrottle_frame s h).trans (settle_frame ..)).trans (.updHob ..)).frame.trans (.foldl armRelease_frame _ _)

theorem goOn_hob (s : State) {h : Nat} (hh : h < 64) : ∃ b n e a r,
    (s.goOn h).hob h = { s.hob h with throttled := b, step := n, relockEnd := e, again := a, releaseAt := r } := by
  obtain ⟨n, e, a, hs⟩ := settle_hob (s.noteThrottle h) h
  obtain ⟨u, -, hu, hf⟩ := hob_foldl_of_mem armRelease_frame List.nodup_range (List.mem_range.2 hh)
    (((s.noteThrottle h).settle h).updHob h fun k => { k with releaseAt := none })
  obtain ⟨r, hr⟩ := armRelease_hob u h
  exact ⟨s.below h, n, e, a, r, by rw [State.goOn, hf, hr, hu, State.hob_updHob_self, hs, noteThrottle_hob]⟩

theorem execThrottleRelease_of_due (on : s.pkg.power = .on) (run : s.kettle.running = true) (h : Fin 64)
    (late : ∀ x, (s.hob h.val).lastRelease = some x → x + 100000 ≤ s.reft) (held : (s.hob h.val).throttle ≠ none ∨ (s.hob h.val).ceil < 8) :
    execThrottleRelease h s = .next ((s.releasedOne h.val).goOn h.val) := by
  unfold execThrottleRelease
  extract_lets k early
  have notEarly : early = false := by
    unfold early
    split
    · rfl
    · next x e => simpa using late x e
  have notDone : k.throttle = none → k.ceil ≠ 8 := fun e => Nat.ne_of_lt (held.resolve_left (absurd e ·))
  rw [if_neg (by simpa [on, run, notEarly] using notDone)]
  rfl

/-- A release ends the causes, raises the hob's step by one where it is held by a step, and else its ceiling. -/
theorem execThrottleRelease_releases (on : s.pkg.power = .on) (run : s.kettle.running = true) (h : Fin 64)
    (late : ∀ x, (s.hob h.val).lastRelease = some x → x + 100000 ≤ s.reft) (held : (s.hob h.val).throttle ≠ none ∨ (s.hob h.val).ceil < 8) :
    ∃ t, execThrottleRelease h s = .next t ∧ (t.hob h.val).lastRelease = some s.reft
      ∧ t.pkg = { s.pkg with underVolt := false, overTemp := false, overPower := false, prochot := false }
      ∧ (∀ x, (s.hob h.val).throttle = some x → (t.hob h.val).throttle = if x + 1 < (s.hob h.val).opStep then some (x + 1) else none)
      ∧ ((s.hob h.val).throttle = none → (s.hob h.val).ceil < (t.hob h.val).ceil ∧ (t.hob h.val).ceil ≤ 8) := by
  obtain ⟨b, n, e, a, r, hob⟩ := goOn_hob (s.releasedOne h.val) h.isLt
  have pkg := (goOn_frame (s.releasedOne h.val) h.val).pkg.trans (releasedOne_pkg ..)
  refine ⟨_, execThrottleRelease_of_due on run h late held, ?_, pkg, fun x hx => ?_, fun hx => ?_⟩
  · cases hx : (s.hob h.val).throttle with
    | none => rw [hob, releasedOne_hob_of_ceil hx]
    | some x => rw [hob, releasedOne_hob_of_step hx]
  · rw [hob, releasedOne_hob_of_step hx]
  · have lt : (s.hob h.val).ceil < 8 := held.resolve_left (absurd hx ·)
    have hmod : Config.kettleChoice s.fresh % (8 - (s.hob h.val).ceil) < 8 - (s.hob h.val).ceil := Nat.mod_lt _ (by omega)
    rw [hob, releasedOne_hob_of_ceil hx]
    dsimp only
    omega

/-- While Kettle is down, the backstop sets the ceiling to 1 (R28). -/
theorem execBackstopCeiling_lowers (on : s.pkg.power = .on) (down : s.kettle.running = false) (h : Fin 64) :
    ∃ t, execBackstopCeiling h s = .next t ∧ (t.hob h.val).ceil = 1 :=
  ⟨_, if_neg (by simp [on, down]), by rw [noteThrottle_hob, State.hob_updHob_self]⟩

/-! ## The boost allowance (R20) -/

theorem armBoost_frame (s : State) (h : Nat) : HobFrame h s (s.armBoost h) := (armBoost_schedule s h).hobFrame h

theorem boostMove_frame (s : State) (h : Nat) : HobFrame h s (s.boostMove h) :=
  ((HobFrame.updHob ..).trans (.updHob ..)).trans (settle_frame ..)

/-- A move to another operating point leaves the charge and the exhaustion of the hob. -/
theorem boostMove_hob (s : State) (h : Nat) : ∃ b n e a, (s.boostMove h).hob h =
    { s.hob h with opStep := classStep (s.pool (s.hob h).pool).cls (s.spent h), throttled := b, step := n, relockEnd := e, again := a } := by
  unfold State.boostMove
  extract_lets s1
  obtain ⟨n, e, a, hs⟩ := settle_hob (s1.updHob h fun k => { k with throttled := s1.below h }) h
  have h1 : s1.hob h = { s.hob h with opStep := classStep (s.pool (s.hob h).pool).cls (s.spent h) } := State.hob_updHob_self s h fun k =>
    { k with opStep := classStep (s.pool k.pool).cls (s.spent h) }
  exact ⟨s1.below h, n, e, a, by rw [hs, State.hob_updHob_self, h1]⟩

theorem execBoostExhausted_moves (h : Fin 64) (boosts : 12 < (s.hob h.val).step) (free : (s.hob h.val).relockEnd = none)
    (used : s.allowance h.val ≤ (s.hob h.val).charge) :
    ∃ t, execBoostExhausted h s = .next t ∧ (t.hob h.val).exhausted = true
      ∧ (t.hob h.val).opStep = classStep (s.pool (s.hob h.val).pool).cls true := by
  have hu := State.hob_updHob_self s h.val fun k => { k with exhausted := true }
  obtain ⟨b, n, e, a, hob⟩ := boostMove_hob (s.updHob h.val fun k => { k with exhausted := true }) h.val
  refine ⟨_, if_neg (by simp [free]; omega), by rw [hob, hu], ?_⟩
  rw [hob, State.spent, hu]
  rfl

/-- What a new window does to one hob. -/
def State.windowAt (s : State) (h : Nat) : State := ((s.updHob h fun k => { k with charge := 0, exhausted := false }).boostMove h).armBoost h

theorem windowAt_frame (s : State) (h : Nat) : HobFrame h s (s.windowAt h) :=
  ((HobFrame.updHob ..).trans (boostMove_frame ..)).trans (armBoost_frame ..)

theorem windowAt_hob (s : State) (h : Nat) : ((s.windowAt h).hob h).charge = 0 ∧ ((s.windowAt h).hob h).exhausted = false
    ∧ ((s.windowAt h).hob h).opStep = classStep (s.pool (s.hob h).pool).cls (s.allowance h == 0) := by
  have hu := State.hob_updHob_self s h fun k => { k with charge := 0, exhausted := false }
  obtain ⟨b, n, e, a, hob⟩ := boostMove_hob (s.updHob h fun k => { k with charge := 0, exhausted := false }) h
  have spent : (s.updHob h fun k => { k with charge := 0, exhausted := false }).spent h = (s.allowance h == 0) := by
    rw [State.spent, hu, (HobFrame.updHob s h _).frame.allowance, Bool.eq_iff_iff]
    simp
  rw [State.windowAt, (armBoost_schedule ..).hob, hob, spent, hu]
  exact ⟨rfl, rfl, rfl⟩

theorem execBoostWindow_renews (h : Fin 64) : ∃ t, execBoostWindow s = .next t ∧ (t.hob h.val).charge = 0 ∧ (t.hob h.val).exhausted = false
    ∧ (t.hob h.val).opStep = classStep (s.pool (s.hob h.val).pool).cls (s.allowance h.val == 0) := by
  obtain ⟨u, fu, hu, e⟩ := hob_foldl_of_mem windowAt_frame List.nodup_range (List.mem_range.2 h.isLt) s
  obtain ⟨charge, exhausted, op⟩ := windowAt_hob u h.val
  refine ⟨(List.range 64).foldl State.windowAt s, rfl, by rw [e, charge], by rw [e, exhausted], ?_⟩
  rw [e, op, hu, fu.pool, fu.allowance]

/-! ## The end of a relock with nothing waiting (R14, R15, R135) -/

/-- Nothing waits for the end of a relock: no claim, no packet in a FIFO, no store in a side log. -/
structure NothingWaits (s : State) : Prop where
  claims : s.claims = []
  fifos : ∀ c, (s.core c).inbound = []
  logs : ∀ c, (s.core c).sideLog = []

/-- Of two states, the second differs only in the cores and the agenda, and nothing waits in it for the end of a relock. -/
structure DrainFrame (s t : State) : Prop where
  frame : t = { s with cores := t.cores, agenda := t.agenda, fresh := t.fresh }
  calm : NothingWaits t

theorem DrainFrame.refl (w : NothingWaits s) : DrainFrame s s := ⟨rfl, w⟩

theorem DrainFrame.trans (h : DrainFrame s t) (k : DrainFrame t u) : DrainFrame s u := by
  refine ⟨?_, k.calm⟩
  have e := k.frame
  rw [h.frame] at e
  exact e

theorem DrainFrame.hob (f : DrainFrame s t) (h : Nat) : t.hob h = s.hob h := congrArg (·.hob h) f.frame
theorem DrainFrame.pool (f : DrainFrame s t) (p : Nat) : t.pool p = s.pool p := congrArg (·.pool p) f.frame
theorem DrainFrame.mem (f : DrainFrame s t) : t.mem = s.mem := congrArg (·.mem) f.frame

theorem ScheduleFrame.drains (f : ScheduleFrame s t) (w : NothingWaits s) : DrainFrame s t where
  frame := by rw [f]
  calm := {
    claims := (congrArg (·.claims) f).trans w.claims
    fifos := fun c => (congrArg (fun u => (u.core c).inbound) f).trans (w.fifos c)
    logs := fun c => (congrArg (fun u => (u.core c).sideLog) f).trans (w.logs c) }

/-- A change of a core that puts nothing into its FIFO or its side log. -/
theorem DrainFrame.updCore (w : NothingWaits s) {c : Nat} {f : Core → Core} (hf : ∀ k : Core, k.inbound = [] → k.sideLog = [] →
    (f k).inbound = [] ∧ (f k).sideLog = []) : DrainFrame s (s.updCore c f) := by
  have emptied : ∀ d, ((s.updCore c f).core d).inbound = [] ∧ ((s.updCore c f).core d).sideLog = [] := fun d => by
    by_cases e : d = c
    · rw [e, State.core_updCore_self]
      exact hf _ (w.fifos c) (w.logs c)
    · rw [State.core_updCore_ne s f e]
      exact ⟨w.fifos d, w.logs d⟩
  exact ⟨rfl, w.claims, fun d => (emptied d).1, fun d => (emptied d).2⟩

/-- Without claims, `startClaims` evicts nothing and takes no tile. -/
theorem startClaims_of_no_claims (hc : s.claims = []) (c : Nat) : s.startClaims c = s.takeTiles c [] := by
  have e : { s with claims := [] } = s := by rw [← hc]
  simp [State.startClaims, State.evictAll, dedup, hc, e]

theorem startClaims_drains (w : NothingWaits s) (c : Nat) : DrainFrame s (s.startClaims c) := by
  rw [startClaims_of_no_claims w.claims]
  exact .updCore w fun _ hi hl => ⟨hi, hl⟩

theorem drainLog_of_empty {c : Nat} (h : (s.core c).sideLog = []) : s.drainLog c = s := by
  simp [State.drainLog, h, State.replayLog, dedup]

theorem relog_of_nothingWaits (w : NothingWaits s) : s.relog = s :=
  List.foldlRecOn s.cores _ (motive := fun t => t = s) rfl fun t ht e _ => by
    rw [ht]
    split
    · rfl
    · exact drainLog_of_empty (w.logs e.1)

theorem drainFifos_drains (w : NothingWaits s) (h : Nat) : DrainFrame s (s.drainFifos h) :=
  List.foldlRecOn (State.coresOfHob h) _ (motive := DrainFrame s) (.refl w) fun t f c _ => by
    extract_lets ps s1 s2 s3
    have h1 : DrainFrame t s1 := by
      unfold s1 ps
      rw [f.calm.fifos c]
      exact .updCore f.calm fun _ _ hl => ⟨rfl, hl⟩
    have h2 : DrainFrame s1 s2 := by
      unfold s2
      split
      · exact .refl h1.calm
      · exact startClaims_drains h1.calm c
    have h3 : DrainFrame s2 s3 := (ScheduleFrame.ite (freed_schedule ..) (.refl _)).drains h2.calm
    have h4 : DrainFrame s3 ((s3.teamsOn c).foldl (fun s e => s.kickTeam e.1) s3) :=
      (ScheduleFrame.foldl (fun _ _ => kickTeam_schedule ..) _ s3).drains h3.calm
    exact (((f.trans h1).trans h2).trans h3).trans h4

/-- A relock ends: the hob has run at its new step since the end of the 600 ticks, and nothing that waited changes memory. -/
theorem execRelockEnd_ends (h : Fin 64) {e : Nat} (locked : (s.hob h.val).relockEnd = some e) (past : e ≤ s.reft)
    (once : (s.hob h.val).again = false) (settled : (s.pool (s.hob h.val).pool).waits = false) (w : NothingWaits s) :
    ∃ t, execRelockEnd h s = .next t
      ∧ t.hob h.val = Hob.elapse (s.reft - e) (s.reft - e) { s.hob h.val with relockEnd := none, phase := 0 } ∧ t.mem = s.mem := by
  unfold execRelockEnd
  split
  · next e0 => exact absurd (locked.symm.trans e0) (by simp)
  · next e' e0 =>
    obtain rfl : e = e' := Option.some.inj (locked.symm.trans e0)
    rw [if_neg (by omega)]
    extract_lets again p s1 s2 s3 s4
    have w1 : NothingWaits s1 := ⟨w.claims, w.fifos, w.logs⟩
    have f2 : DrainFrame s1 s2 := by
      unfold s2
      rw [relog_of_nothingWaits (drainFifos_drains w1 h.val).calm]
      exact drainFifos_drains w1 h.val
    have f3 : DrainFrame s1 s3 := f2.trans ((armBoost_schedule s2 h.val).drains f2.calm)
    have e4 : s4 = s3 := by
      unfold s4
      rw [f3.pool]
      exact if_neg (ne_true_of_eq_false settled)
    refine ⟨s3, ?_, ?_, f3.mem⟩
    · rw [e4]
      simp [again, once]
    · rw [f3.hob, State.hob_updHob_self, ← once]

/-! ## The reference timer (R17, R80) -/

/-- Packets go out: beside them only the counts of flits and the agenda change, and nothing leaves the agenda. -/
structure SendFrame (s t : State) : Prop where
  frame : t = { s with fab := t.fab, outbox := t.outbox, agenda := t.agenda }
  agenda : ∀ e ∈ s.agenda, e ∈ t.agenda
  outbox : ∀ o ∈ s.outbox, o ∈ t.outbox

theorem SendFrame.refl (s : State) : SendFrame s s := ⟨rfl, fun _ h => h, fun _ h => h⟩

theorem SendFrame.trans (h : SendFrame s t) (k : SendFrame t u) : SendFrame s u := by
  refine ⟨?_, fun e he => k.agenda e (h.agenda e he), fun o ho => k.outbox o (h.outbox o ho)⟩
  have e := k.frame
  rw [h.frame] at e
  exact e

theorem SendFrame.time (f : SendFrame s t) : t.time = s.time := congrArg (·.time) f.frame
theorem SendFrame.reft (f : SendFrame s t) : t.reft = s.reft := congrArg (·.reft) f.frame

theorem SendFrame.due (f : SendFrame s t) {i : Instr} (d : s.due i = true) : t.due i = true := by
  obtain ⟨n, hn⟩ := (due_iff i).1 d
  exact (due_iff i).2 ⟨n, f.agenda _ hn⟩

theorem noteFlits_sends (s : State) (plane index n : Nat) : SendFrame s (s.noteFlits plane index n) := by
  unfold State.noteFlits
  extract_lets s1
  split
  · exact ⟨rfl, fun _ h => h, fun _ h => h⟩
  · exact ⟨rfl, fun _ h => (mem_insertBy ..).2 (.inr h), fun _ h => h⟩

theorem emit_sends (s : State) (o : Out) : SendFrame s (s.emit o) := ⟨rfl, fun _ h => h, fun _ h => List.mem_append_left _ h⟩

theorem control_sends (s : State) (plane : Nat) (o : Out) : SendFrame s (s.control plane o) := (noteFlits_sends ..).trans (emit_sends ..)

theorem mem_control_outbox (s : State) (plane : Nat) (o : Out) : o ∈ (s.control plane o).outbox := List.mem_append_right _ (.head _)

theorem foldl_control_sends (o : Nat → Out) (l : List Nat) (s : State) : SendFrame s (l.foldl (fun s p => s.control p (o p)) s) :=
  List.foldlRecOn l _ (motive := SendFrame s) (.refl s) fun _ f _ _ => f.trans (control_sends ..)

theorem broadcast_sends (s : State) (o : Nat → Out) : SendFrame s (s.broadcast o) := foldl_control_sends ..

/-- A broadcast sends a packet on every live plane. -/
theorem mem_broadcast_outbox (s : State) (o : Nat → Out) {p : Nat} (hp : p < 8) (live : s.dev.live.getLsbD p = true) :
    o p ∈ (s.broadcast o).outbox := by
  have hl : p ∈ s.livePlanes := List.mem_filter.2 ⟨List.mem_range.2 hp, live⟩
  obtain ⟨l₁, l₂, e⟩ := List.append_of_mem hl
  rw [State.broadcast, e, List.foldl_append, List.foldl_cons]
  exact (foldl_control_sends o l₂ _).outbox _ (mem_control_outbox ..)

theorem sendPtp_sends (s : State) : SendFrame s s.sendPtp := by
  unfold State.sendPtp
  split
  · exact broadcast_sends ..
  · exact .refl s

/-- The state after a pulse, but for what the grandmaster makes of it: the pulse counts for 2 s. -/
def State.pulsed (s : State) : State :=
  let s := (s.withdraw .ppsAbsent).after 2000000000 .ppsAbsent
  { s with time := { s.time with ppsPresent := true, lastPps := some s.reft } }

theorem pulsed_due (s : State) : s.pulsed.due .ppsAbsent = true := due_atTick_self ..

/-- The rate correction that the grandmaster takes from a pulse. -/
def State.paced (s : State) : State :=
  { s with time := { s.time with ratePpm := ((Config.freeWord s.fresh 0).toNat % 201 : Nat) - 100 } }.drawn

theorem execPpsPulse_of_on (on : s.pkg.power = .on) :
    execPpsPulse s = .next (if s.dev.masterAct then s.pulsed.paced.sendPtp else s.pulsed) := by
  rw [execPpsPulse, if_neg (by simp [on])]
  rfl

theorem paced_rate (s : State) : -100 ≤ s.paced.time.ratePpm ∧ s.paced.time.ratePpm ≤ 100 := by
  have h : (Config.freeWord s.fresh 0).toNat % 201 < 201 := Nat.mod_lt _ (by omega)
  simp only [State.paced, State.drawn]
  omega

/-- The grandmaster of a domain sends its time on every live plane. -/
theorem mem_sendPtp_outbox (master : s.dev.masterAct = true) (joined : s.joined = true) {p : Nat} (hp : p < 8)
    (live : s.dev.live.getLsbD p = true) : .ptp p s.reft ∈ s.sendPtp.outbox := by
  rw [State.sendPtp, if_pos (by simp [master, joined])]
  exact mem_broadcast_outbox s (fun p => .ptp p s.reft) hp live

theorem execPpsPulse_counts (on : s.pkg.power = .on) : ∃ t, execPpsPulse s = .next t ∧ t.time.ppsPresent = true ∧ t.time.lastPps = some s.reft ∧ t.reft = s.reft
    ∧ t.due .ppsAbsent = true ∧ (s.dev.masterAct = true → -100 ≤ t.time.ratePpm ∧ t.time.ratePpm ≤ 100)
    ∧ (s.dev.masterAct = true → s.joined = true → ∀ p < 8, s.dev.live.getLsbD p = true → .ptp p s.reft ∈ t.outbox)
    ∧ (s.dev.masterAct = false → t.time.ratePpm = s.time.ratePpm) := by
  refine ⟨_, execPpsPulse_of_on on, ?_⟩
  cases role : s.dev.masterAct with
  | false =>
    rw [if_neg Bool.false_ne_true]
    exact ⟨rfl, rfl, rfl, pulsed_due s, by simp, by simp, fun _ => rfl⟩
  | true =>
    have f := sendPtp_sends s.pulsed.paced
    rw [if_pos rfl, f.time]
    exact ⟨rfl, rfl, f.reft, f.due (pulsed_due s), fun _ => paced_rate _,
      fun _ joined p hp live => mem_sendPtp_outbox (s := s.pulsed.paced) role joined hp live, by simp⟩

theorem execPpsAbsent_of_over {y : Nat} (last : s.time.lastPps = some y) (past : y + 2000000000 ≤ s.reft) :
    execPpsAbsent s = .next { s with time := { s.time with ppsPresent := false, lastPps := none } } := by
  unfold execPpsAbsent
  rw [last]
  exact if_neg (by omega)

theorem execPtpMessage_of_other (on : s.pkg.power = .on) (enabled : s.fabEnabled = true) (notMaster : s.dev.masterAct = false)
    (other : fieldOf s.dev.fabId 20 11 ≠ s.chipId) (x : Nat) (ppm : Int) : execPtpMessage x ppm s =
      if s.time.reftSync then .next { s with time := { s.time with ratePpm := max (-100) (min 100 ppm) } }
      else .next { s with reft := max s.reft (x % 2 ^ 64), time := { s.time with reftSync := true } } := by
  rw [execPtpMessage, if_neg (by simp [on, enabled]), if_neg (by simp [notMaster]), if_neg (by simpa using other)]

/-- Settles O49: one lemma for each operation says what it leaves of the hob that it is about. -/
theorem throttlingBoostAndTime : Obligations.ThrottlingBoostAndTime := by
  refine ⟨fun s h on => ⟨fun run => ?_, fun run => ?_, fun free held => ?_, fun down => ?_, ?_, ?_, ?_⟩, fun s x ppm => ⟨?_, ?_, ?_⟩⟩
  · exact ⟨execThrottleCause_lowers on run .temperature h, execThrottleCause_lowers on run .power h, execThrottleCause_lowers on run .input h⟩
  · exact execThrottleStepDown_lowers on run h
  · exact execThrottleRelease_releases on free.2 h free.1 held
  · exact execBackstopCeiling_lowers on down h
  · intro e locked past once settled claims empty
    exact execRelockEnd_ends h locked past once settled ⟨claims, fun c => (empty c).1, fun c => (empty c).2⟩
  · exact execBoostExhausted_moves h
  · exact execBoostWindow_renews h
  · exact execPpsPulse_counts
  · exact fun y => execPpsAbsent_of_over
  · intro on enabled notMaster other
    have e := execPtpMessage_of_other on enabled notMaster other x ppm
    exact ⟨fun sync => e.trans (if_pos sync), fun sync => e.trans (if_neg (ne_true_of_eq_false sync))⟩

end Sys2Proof.Machine
end

section
/-!
SUPPORT. What the work of partitions leaves alone (O50, O52). Teams that are killed, removed, saved or moved, jobs that end, queues that go on
and memory that passes to another key change neither Kettle nor its mailbox, nor who owns a cluster, nor the registers of a partition: `WorkFrame`. There is
one rule for each operation, and its proof has the shape of the operation. An operation on one partition leaves the others alone (`PartVisit`), so that a
fold over the partitions leaves each as its own visit does (`part_foldl_of_mem`).
-/

namespace Sys2Proof.Machine

/- Elaborated one after another: at one thread for each of so many short theorems, the stacks together would pass the memory limit. -/
set_option Elab.async false

variable {s t u : State}

/-! ## Frames -/

/-- Of two records of a partition, the second differs only in what its work leaves: the system queue, the cluster barriers, the rounds that cancelled
collectives left. -/
def PartFrame (a b : Part) : Prop := b = { a with sq := b.sq, cbars := b.cbars, freeRounds := b.freeRounds }

/-- Of two states, the second has the same mailbox and owners of clusters, and the same Kettle but for the lines of spared pseudo-channels that were
written since. -/
structure ServiceFrame (s t : State) : Prop where
  kettle : t.kettle = { s.kettle with healed := t.kettle.healed }
  owners : t.clusterOwner = s.clusterOwner
  mbox : t.mbox = s.mbox

/-- `ServiceFrame` for an operation that leaves every partition's registers alone. -/
structure WorkFrame (s t : State) : Prop extends ServiceFrame s t where
  parts : ∀ p, PartFrame (s.part p) (t.part p)

/-- `ServiceFrame` for an operation on one partition: it leaves the registers of every other one alone. -/
structure PartVisit (p : Nat) (s t : State) : Prop extends ServiceFrame s t where
  others : ∀ q, q ≠ p → PartFrame (s.part q) (t.part q)

theorem PartFrame.refl (a : Part) : PartFrame a a := rfl

theorem PartFrame.trans {a b c : Part} (h : PartFrame a b) (k : PartFrame b c) : PartFrame a c := by
  unfold PartFrame at k ⊢
  rw [h] at k
  exact k

theorem PartFrame.present {a b : Part} (f : PartFrame a b) : b.present = a.present := congrArg (·.present) f
theorem PartFrame.stopped {a b : Part} (f : PartFrame a b) : b.stopped = a.stopped := congrArg (·.stopped) f
theorem PartFrame.slice {a b : Part} (f : PartFrame a b) : b.slice = a.slice := congrArg (·.slice) f

theorem ServiceFrame.refl (s : State) : ServiceFrame s s := ⟨rfl, rfl, rfl⟩

theorem ServiceFrame.trans (h : ServiceFrame s t) (k : ServiceFrame t u) : ServiceFrame s u := by
  refine ⟨?_, k.owners.trans h.owners, k.mbox.trans h.mbox⟩
  have e := k.kettle
  rw [h.kettle] at e
  exact e

theorem ServiceFrame.running (f : ServiceFrame s t) : t.kettle.running = s.kettle.running := congrArg (·.running) f.kettle
theorem ServiceFrame.fenced (f : ServiceFrame s t) : t.kettle.fenced = s.kettle.fenced := congrArg (·.fenced) f.kettle

theorem WorkFrame.refl (s : State) : WorkFrame s s := ⟨.refl s, fun _ => .refl _⟩

theorem WorkFrame.trans (h : WorkFrame s t) (k : WorkFrame t u) : WorkFrame s u :=
  ⟨h.toServiceFrame.trans k.toServiceFrame, fun p => (h.parts p).trans (k.parts p)⟩

theorem PartVisit.refl (p : Nat) (s : State) : PartVisit p s s := ⟨.refl s, fun _ _ => .refl _⟩

theorem PartVisit.trans {p : Nat} (h : PartVisit p s t) (k : PartVisit p t u) : PartVisit p s u :=
  ⟨h.toServiceFrame.trans k.toServiceFrame, fun q hq => (h.others q hq).trans (k.others q hq)⟩

theorem WorkFrame.visit (f : WorkFrame s t) (p : Nat) : PartVisit p s t := ⟨f.toServiceFrame, fun q _ => f.parts q⟩

theorem PartVisit.updPart (s : State) (p : Nat) (f : Part → Part) : PartVisit p s (s.updPart p f) := by
  refine ⟨⟨rfl, rfl, rfl⟩, fun q hq => ?_⟩
  rw [State.part_updPart_ne s f hq]
  exact .refl _

theorem ServiceFrame.foldl {α : Type} {f : State → α → State} (hf : ∀ s a, ServiceFrame s (f s a)) (l : List α) (s : State) :
    ServiceFrame s (l.foldl f s) :=
  List.foldlRecOn l f (motive := ServiceFrame s) (.refl s) fun t h a _ => h.trans (hf t a)

theorem part_foldl_of_notMem {f : State → Nat → State} (hf : ∀ s p, PartVisit p s (f s p)) {p : Nat} {l : List Nat} (hl : p ∉ l) (s : State) :
    PartFrame (s.part p) ((l.foldl f s).part p) :=
  List.foldlRecOn l f (motive := fun t => PartFrame (s.part p) (t.part p)) (.refl _) fun t e a ha =>
    e.trans ((hf t a).others p (fun x => hl (x ▸ ha)))

/-- A fold that visits each partition once leaves a partition as its own visit does, but for what the work of the others changes. -/
theorem part_foldl_of_mem {f : State → Nat → State} (hf : ∀ s p, PartVisit p s (f s p)) {p : Nat} {l : List Nat} (hn : l.Nodup) (hl : p ∈ l) (s : State) :
    ∃ u, ServiceFrame s u ∧ PartFrame (s.part p) (u.part p) ∧ PartFrame ((f u p).part p) ((l.foldl f s).part p) := by
  obtain ⟨l₁, l₂, rfl⟩ := List.append_of_mem hl
  have h₁ : p ∉ l₁ := fun x => List.disjoint_of_nodup_append hn x (by simp)
  have h₂ : p ∉ l₂ := (List.nodup_cons.1 hn.of_append_right).1
  refine ⟨l₁.foldl f s, .foldl (fun s p => (hf s p).toServiceFrame) l₁ s, part_foldl_of_notMem hf h₁ s, ?_⟩
  rw [List.foldl_append, List.foldl_cons]
  exact part_foldl_of_notMem hf h₂ _

/-! ## Branches, folds and small changes -/

namespace WorkFrame

theorem ite {c : Prop} [Decidable c] {a b : State} (ha : WorkFrame s a) (hb : WorkFrame s b) : WorkFrame s (if c then a else b) := by
  split <;> assumption

theorem foldl {α : Type} {f : State → α → State} {l : List α} (h : WorkFrame s t) (hf : ∀ t a, WorkFrame s t → WorkFrame s (f t a)) :
    WorkFrame s (l.foldl f t) :=
  List.foldlRecOn l f h fun t h a _ => hf t a h

/-- A change of anything but what the frame speaks of. -/
theorem frame (h : WorkFrame s t) (kettle : u.kettle = t.kettle := by rfl) (owners : u.clusterOwner = t.clusterOwner := by rfl)
    (mbox : u.mbox = t.mbox := by rfl) (parts : u.parts = t.parts := by rfl) : WorkFrame s u := by
  refine h.trans ⟨⟨by rw [kettle], owners, mbox⟩, fun p => ?_⟩
  rw [show u.part p = t.part p from congrArg (Tbl.getD · p Part.reset) parts]
  exact .refl _

theorem heal {l : List Nat} (h : WorkFrame s t) : WorkFrame s { t with kettle := { t.kettle with healed := l } } :=
  h.trans ⟨⟨rfl, rfl, rfl⟩, fun _ => .refl _⟩

theorem updPart {p : Nat} {f : Part → Part} (h : WorkFrame s t) (hf : ∀ x, PartFrame x (f x)) : WorkFrame s (t.updPart p f) := by
  refine h.trans ⟨⟨rfl, rfl, rfl⟩, fun q => ?_⟩
  by_cases e : q = p
  · subst e
    rw [State.part_updPart_self]
    exact hf _
  · rw [State.part_updPart_ne t f e]
    exact .refl _

theorem schedule (h : WorkFrame s t) (f : ScheduleFrame t u) : WorkFrame s u :=
  h.frame (congrArg (·.kettle) f) (congrArg (·.clusterOwner) f) (congrArg (·.mbox) f) (congrArg (·.parts) f)

theorem pace (h : WorkFrame s t) (f : PaceFrame t u) : WorkFrame s u :=
  h.frame (congrArg (·.kettle) f) (congrArg (·.clusterOwner) f) (congrArg (·.mbox) f) (congrArg (·.parts) f)

theorem looked (h : WorkFrame s t) (f : LookedUp t u) : WorkFrame s u :=
  h.frame (congrArg (·.kettle) f.1) (congrArg (·.clusterOwner) f.1) (congrArg (·.mbox) f.1) (congrArg (·.parts) f.1)

theorem send (h : WorkFrame s t) (f : SendFrame t u) : WorkFrame s u :=
  h.frame (congrArg (·.kettle) f.frame) (congrArg (·.clusterOwner) f.frame) (congrArg (·.mbox) f.frame) (congrArg (·.parts) f.frame)

theorem updTeam {k : Nat} {f : Team → Team} (h : WorkFrame s t) : WorkFrame s (t.updTeam k f) := h.frame
theorem updWave {k : Nat} {f : Wave → Wave} (h : WorkFrame s t) : WorkFrame s (t.updWave k f) := h.frame
theorem updJob {k : Nat} {f : Job → Job} (h : WorkFrame s t) : WorkFrame s (t.updJob k f) := h.frame
theorem updCore {c : Nat} {f : Core → Core} (h : WorkFrame s t) : WorkFrame s (t.updCore c f) := h.frame
theorem dropReqs {o : ReqOwner} (h : WorkFrame s t) : WorkFrame s (t.dropReqs o) := h.frame
theorem withPoison {l : List Nat} (h : WorkFrame s t) : WorkFrame s { t with poison := l } := h.frame

theorem drawn (h : WorkFrame s t) : WorkFrame s t.drawn := h.frame

theorem rekey {lo hi : Nat} (h : WorkFrame s t) : WorkFrame s (t.rekey lo hi) := .ite h.frame h

theorem soonOnce {i : Instr} (h : WorkFrame s t) : WorkFrame s (t.soonOnce i) := h.schedule (soonOnce_schedule ..)

theorem raiseIrq {fn : HostFn} {vec : Nat} (h : WorkFrame s t) : WorkFrame s (t.raiseIrq fn vec) := by
  refine .ite ?_ h.frame
  cases fn <;> exact h.frame

/-! ## Writes of HBM -/

theorem putBytes {pa : Nat} {bs : List Byte} (h : WorkFrame s t) : WorkFrame s (t.putBytes pa bs) := by
  induction bs generalizing t pa with
  | nil => exact h
  | cons b bs ih => exact ih h.frame

theorem healLines {pa n : Nat} (h : WorkFrame s t) : WorkFrame s (t.healLines pa n) := .ite h.frame (.heal h.frame)

theorem wake {key : Nat} (h : WorkFrame s t) : WorkFrame s (t.wake key) := h.foldl fun _ _ h => .ite h.frame h

theorem storeHome {pa : Nat} {bs : List Byte} (h : WorkFrame s t) : WorkFrame s (t.storeHome pa bs) :=
  .ite (h.putBytes.healLines.foldl fun _ _ h => h.wake) h

theorem toFrame {p vf c off : Nat} {bs : List Byte} (h : WorkFrame s t) : WorkFrame s (t.toFrame p vf c off bs) := h.storeHome

theorem frameOpen {p vf c off n : Nat} (h : WorkFrame s t) : WorkFrame s (t.frameOpen p vf c off n) := .ite h.rekey.healLines h

/-! ## The end of work (R98, R149, R227, R228) -/

theorem sqRecord {p kind core issueId slot hq : Nat} {epc : DWord} {cause : Word} (h : WorkFrame s t) :
    WorkFrame s (t.sqRecord p kind core issueId slot hq epc cause) :=
  .ite (h.storeHome.updPart fun _ => by rfl).raiseIrq (h.updPart fun _ => rfl)

theorem sqWave {kind wid : Nat} (h : WorkFrame s t) : WorkFrame s (t.sqWave kind wid) := by
  unfold State.sqWave
  split
  · exact h
  · split
    · exact h
    · split
      · exact h
      · exact h.sqRecord

theorem nodeFail {hq slot code : Nat} (h : WorkFrame s t) : WorkFrame s (t.nodeFail hq slot code) := .ite h.frame h.frame.raiseIrq

theorem dropJob {j : Nat} (h : WorkFrame s t) : WorkFrame s (t.dropJob j) := by
  unfold State.dropJob
  split
  · exact h
  · next k _ =>
    have h1 : WorkFrame s (t.unround k) := .ite (h.updPart fun _ => rfl) h
    exact h1.frame

theorem freed {c : Nat} (h : WorkFrame s t) : WorkFrame s (t.freed c) := h.schedule (freed_schedule ..)

theorem lendLater {c : Nat} (h : WorkFrame s t) : WorkFrame s (t.lendLater c) := .ite h.soonOnce.soonOnce h

theorem lowerCarve {c : Nat} (h : WorkFrame s t) : WorkFrame s (t.lowerCarve c) := .ite h.frame h

theorem drainOf {g : Nat} (h : WorkFrame s t) : WorkFrame s (t.drainOf g) := by
  unfold State.drainOf
  split
  · exact h
  · exact .ite h.soonOnce h

theorem removeTeam {k : Nat} (h : WorkFrame s t) : WorkFrame s (t.removeTeam k) := by
  unfold State.removeTeam
  split
  · exact h
  · extract_lets s1 _ _ _ _ _ s2 s3 s4
    have h1 : WorkFrame s s1 := h.foldl fun _ _ h => h.dropJob
    have h2 : WorkFrame s s2 := h1.frame
    have h3 : WorkFrame s s3 := by
      unfold s3
      split
      · exact h2.frame
      · exact h2
    have h4 : WorkFrame s s4 := by
      unfold s4
      split
      · exact h3
      · exact .ite h3 h3.frame
    exact .ite h4 (.drainOf (.lendLater (.freed (.lowerCarve h4.frame))))

theorem forgetGrid {g : Nat} (h : WorkFrame s t) : WorkFrame s (t.forgetGrid g) := h.frame

theorem afterKill {root : Nat} (h : WorkFrame s t) : WorkFrame s (t.afterKill root) := by
  unfold State.afterKill
  split
  · exact h
  · exact .ite h.soonOnce h.nodeFail.forgetGrid

/-- What the kills of a launch share: its teams and its child grids go. -/
theorem removeTree {root : Nat} {ev : Nat × Nat × Nat × DWord × Word} {l : List (Nat × Grid)} (h : WorkFrame s t) : WorkFrame s
    (l.foldl (fun s e => if e.1 == root then s else s.forgetGrid e.1)
      ((t.updGrid root (fun k => { k with killed := true, children := 0, event := ev })).removeTeams root)) := by
  have h1 : WorkFrame s ((t.updGrid root (fun k => { k with killed := true, children := 0, event := ev })).removeTeams root) :=
    .foldl h.frame fun _ _ h => h.removeTeam
  exact h1.foldl fun _ _ h => .ite h h.forgetGrid

theorem killLaunch {wid : Nat} (h : WorkFrame s t) : WorkFrame s (t.killLaunch wid) := by
  unfold State.killLaunch
  split
  · exact h
  · split
    · exact h
    · split
      · exact h
      · exact h.sqWave.removeTree.afterKill

theorem killGrid {root : Nat} {kinds : List Nat} {ev : Nat × Nat × Nat × DWord × Word} (h : WorkFrame s t) :
    WorkFrame s (t.killGrid root kinds ev) := by
  unfold State.killGrid
  split
  · exact h
  · extract_lets s1
    have h1 : WorkFrame s s1 := .foldl h.frame fun _ _ h => h.sqRecord
    exact h1.removeTree.afterKill

theorem killTeam {k : Nat} (h : WorkFrame s t) : WorkFrame s (t.killTeam k) := by
  unfold State.killTeam
  split
  · exact h
  · split
    · exact .killLaunch h.frame
    · split
      · exact h
      · exact h.killGrid

theorem dropWork {p : Nat} (h : WorkFrame s t) : WorkFrame s (t.dropWork p) := by
  unfold State.dropWork
  extract_lets _ _ s1 s2 s3
  have h1 : WorkFrame s s1 := h.foldl fun _ _ h => h.removeTeam
  have h2 : WorkFrame s s2 := h1.foldl fun _ _ h => h.forgetGrid
  have h3 : WorkFrame s s3 := h2.foldl fun _ _ h => h.frame
  exact h3.frame

/-! ## Teams that are saved (R112, R124, R127) -/

theorem spillSlab {wid k : Nat} (h : WorkFrame s t) : WorkFrame s (t.spillSlab wid k) := by
  unfold State.spillSlab
  split
  · exact h
  · extract_lets
    split
    · exact h
    · split
      · exact h
      · split
        · exact h
        · exact h.toFrame.updWave

theorem spillTile {c tile : Nat} (h : WorkFrame s t) : WorkFrame s (t.spillTile c tile) := by
  unfold State.spillTile
  split
  · exact h
  · split
    · exact h
    · exact h.toFrame.updTeam

theorem spillAll {j : Nat} {k : Team} (h : WorkFrame s t) : WorkFrame s (t.spillAll j k) := by
  unfold State.spillAll
  extract_lets s1
  have h1 : WorkFrame s s1 := h.foldl fun _ _ h => .updWave (h.foldl fun _ _ h => h.spillSlab)
  exact .updCore (h1.foldl fun _ _ h => h.spillTile)

theorem homeSlab {wid k : Nat} (h : WorkFrame s t) : WorkFrame s (t.homeSlab wid k) := by
  unfold State.homeSlab
  split
  · exact h
  · split
    · exact h
    · exact h.updWave

theorem homeTile {j tile : Nat} (h : WorkFrame s t) : WorkFrame s (t.homeTile j tile) := by
  unfold State.homeTile
  split
  · exact h
  · split
    · exact h
    · exact h.updCore.updTeam

theorem homeAll {j : Nat} (h : WorkFrame s t) : WorkFrame s (t.homeAll j) := by
  unfold State.homeAll
  extract_lets s1
  have h1 : WorkFrame s s1 := h.foldl fun _ _ h => .ite h (h.foldl fun _ _ h => h.homeSlab)
  split
  · exact h1
  · exact .ite h1 (h1.foldl fun _ _ h => h.homeTile)

theorem drainPlace {p vf c : Nat} {w : Wave} {es : List (Nat × Nat × PcEntry)} (h : WorkFrame s t) : WorkFrame s (t.drainPlace p vf c w es) :=
  h.frameOpen.toFrame

theorem drainFrame {j : Nat} {k : Team} {tv : Tbl Word} (h : WorkFrame s t) : WorkFrame s (t.drainFrame j k tv) := by
  unfold State.drainFrame
  split
  · exact h
  · extract_lets put s1 s2 _ _ s3 _ s4
    have h1 : WorkFrame s s1 := by
      refine h.foldl fun _ _ h => ?_
      split
      · exact h
      · exact .drainPlace (h.foldl fun _ _ h => h.toFrame)
    have h2 : WorkFrame s s2 := h1.foldl fun _ _ h => h.toFrame
    have h3 : WorkFrame s s3 := h2.frameOpen.frameOpen.toFrame.toFrame.foldl fun _ _ h => h.toFrame
    have h4 : WorkFrame s s4 := h3.toFrame
    exact h4.withPoison

theorem takePcs {j : Nat} {k : Team} (h : WorkFrame s t) : WorkFrame s (t.takePcs j k) := h.updTeam.updCore

theorem saveTeam {j : Nat} (h : WorkFrame s t) : WorkFrame s (t.saveTeam j) := by
  unfold State.saveTeam
  split
  · exact h
  · split
    · exact h
    · extract_lets _ _ _ _ s1 _ _ s2 _ s3
      have h1 : WorkFrame s s1 := h.spillAll.homeAll.foldl fun _ _ h => .ite h h.updWave
      have h2 : WorkFrame s s2 := h1.drainFrame.takePcs.updTeam.foldl fun _ _ h => h.updJob
      have h3 : WorkFrame s s3 := h2.dropReqs.foldl fun _ _ h => h.updWave
      exact h3.lowerCarve.freed.lendLater.drainOf

theorem saveTeams {p : Nat} (h : WorkFrame s t) : WorkFrame s (t.saveTeams p) :=
  h.foldl fun _ _ h => .ite h (h.foldl fun _ _ h => h.saveTeam)

/-! ## Teams that move with their core (R112, R218, R370, R376) -/

theorem sendLease {l : LeaseReq} (h : WorkFrame s t) : WorkFrame s (t.sendLease l) := by
  have h1 : WorkFrame s (t.countFlits l.plane l.part l.cls 1) := h.send (noteFlits_sends ..)
  have h2 : WorkFrame s ((t.countFlits l.plane l.part l.cls 1).watch l.plane) := .ite h1 h1.frame
  exact h2.frame

theorem requestLease {die p : Nat} {cls : Cls} {chip page : Nat} {right : Right} (h : WorkFrame s t) :
    WorkFrame s (t.requestLease die p cls chip page right) := .ite h (.ite (.sendLease h.frame) h.frame)

theorem crossDie {j target : Nat} (h : WorkFrame s t) : WorkFrame s (t.crossDie j target) := by
  unfold State.crossDie
  extract_lets d _ _ s0 s1 s2 _ s3
  have h0 : WorkFrame s s0 := .ite h.frame h.frame
  have h1 : WorkFrame s s1 := h0.foldl fun _ _ h => h.frame
  have h2 : WorkFrame s s2 := h1.foldl fun _ _ h => h.frame
  have h3 : WorkFrame s s3 := by
    unfold s3
    refine .foldl h2.frame fun _ _ h4 => ?_
    split
    · exact h4
    · exact h4.requestLease
  exact h3.foldl fun _ _ h => h.requestLease

theorem carryOver {j old target : Nat} (h : WorkFrame s t) : WorkFrame s (t.carryOver j old target) := by
  unfold State.carryOver
  extract_lets _ _ _ _ _ s1 s2
  have h1 : WorkFrame s s1 := .foldl h.frame fun _ _ h => h.frame
  have h2 : WorkFrame s s2 := h1.frame
  exact .ite h2 h2.crossDie

theorem throttleMoved {j old new : Nat} (h : WorkFrame s t) : WorkFrame s (t.throttleMoved j old new) := by
  unfold State.throttleMoved State.throttleCause
  extract_lets
  split
  · exact h
  · refine .ite ?_ h
    split
    · exact h
    · exact h.frame

theorem moveBarriers {p : Nat} {old : List Nat} (h : WorkFrame s t) : WorkFrame s (t.moveBarriers p old) := by
  unfold State.moveBarriers
  extract_lets _ _ _ _ s1
  have h1 : WorkFrame s s1 := h.updPart fun _ => rfl
  exact h1.frame

theorem moveSaved {p : Nat} {old : List Nat} (h : WorkFrame s t) : WorkFrame s (t.moveSaved p old) := by
  unfold State.moveSaved
  extract_lets _ s1
  have h1 : WorkFrame s s1 := .ite h h.moveBarriers
  refine h1.foldl fun _ _ h2 => ?_
  split
  · exact h2
  · split
    · split
      · exact h2
      · exact .ite h2 (.throttleMoved h2.carryOver.frame)
    · exact h2

theorem flipPools {qs : List Nat} (h : WorkFrame s t) : WorkFrame s (t.flipPools qs) := by
  refine h.foldl fun _ _ h => .foldl h.frame fun _ _ h => ?_
  exact (h.frame.pace (noteThrottle_frame ..).frame).pace (settle_frame ..).frame

/-! ## Work that pauses or goes on (R86, R87, R399) -/

theorem pauseNodes {p : Nat} {on : Bool} (h : WorkFrame s t) : WorkFrame s (t.pauseNodes p on) :=
  h.foldl fun _ _ h => .ite h.frame (h.frame.schedule (kick_schedule ..))

theorem kickSlot {k : Nat} (h : WorkFrame s t) : WorkFrame s (t.kickSlot k) := by
  unfold State.kickSlot
  extract_lets
  split
  · exact .ite (.ite h h.frame) h
  · exact h.soonOnce
  · exact h.soonOnce
  · exact h.soonOnce
  · exact h.soonOnce
  · exact .ite h.soonOnce (h.schedule (kick_schedule ..))
  · exact h

theorem kickQueue {hq : Nat} (h : WorkFrame s t) : WorkFrame s (t.kickQueue hq) := by
  unfold State.kickQueue
  extract_lets s1
  have h1 : WorkFrame s s1 := h.foldl fun _ _ h => h.kickSlot
  have h2 : WorkFrame s s1.kickFetch := h1.foldl fun _ _ h => .ite h.soonOnce h
  have h3 : WorkFrame s (s1.kickFetch.kickPlace (s1.vdPart (s1.queue hq).vf)) := h2.foldl fun _ _ h => h.soonOnce
  exact .ite h3 h3.frame

end WorkFrame

end Sys2Proof.Machine
end

section
/-!
SUPPORT. The commands of the mailbox and SPDM (O52): what a write to a field of a register leaves of its bits, what the end of a command changes, and one
lemma for each command that says what Kettle answers.
-/

namespace Sys2Proof.Machine

/- Elaborated one after another: at one thread for each of so many short theorems, the stacks together would pass the memory limit. -/
set_option Elab.async false

variable {s t u : State}

/-! ## Fields of a register -/

/-- A number with bits [hi:lo] replaced, as its high part, the new field and its low part. -/
theorem replaced_eq (x lo n v : Nat) :
    x - x / 2 ^ lo % 2 ^ n * 2 ^ lo + v * 2 ^ lo = 2 ^ lo * (2 ^ n * (x / 2 ^ lo / 2 ^ n) + v) + x % 2 ^ lo := by
  have low := Nat.div_add_mod x (2 ^ lo)
  have high := congrArg (2 ^ lo * ·) (Nat.div_add_mod (x / 2 ^ lo) (2 ^ n))
  simp only [Nat.mul_add, Nat.mul_comm _ (2 ^ lo)] at high ⊢
  omega

theorem getLsbD_setField {w i : Nat} (x : BitVec w) (hi lo v : Nat) (hl : lo ≤ hi) (hw : i < w) :
    (setField x hi lo v).getLsbD i = if lo ≤ i ∧ i ≤ hi then v.testBit (i - lo) else x.getLsbD i := by
  have hr : x.toNat % 2 ^ lo < 2 ^ lo := Nat.mod_lt _ (by positivity)
  have hf : v % 2 ^ (hi + 1 - lo) < 2 ^ (hi + 1 - lo) := Nat.mod_lt _ (by positivity)
  rw [setField, bitsOf, replaced_eq, BitVec.getLsbD_ofNat, Nat.testBit_two_pow_mul_add _ hr, Nat.testBit_two_pow_mul_add _ hf]
  simp only [hw, decide_true, Bool.true_and, Nat.testBit_mod_two_pow, Nat.testBit_div_two_pow, BitVec.getLsbD]
  split
  · rw [if_neg (by omega)]
    simp [*]
  · split
    · rw [if_pos (by omega)]
      simp [*]
    · rw [if_neg (by omega)]
      congr 1
      omega

theorem fieldOf_bit {w : Nat} (x : BitVec w) (b : Nat) : fieldOf x b b = (x.getLsbD b).toNat := by
  rw [fieldOf, bitsOf, BitVec.getLsbD, Nat.toNat_testBit, Nat.add_sub_cancel_left, pow_one]

theorem fieldOf_setField_self {w hi lo : Nat} (x : BitVec w) (v : Nat) (hl : lo ≤ hi) (hw : hi < w) :
    fieldOf (setField x hi lo v) hi lo = v % 2 ^ (hi + 1 - lo) := by
  refine Nat.eq_of_testBit_eq fun i => ?_
  rw [fieldOf, bitsOf, Nat.testBit_mod_two_pow, Nat.testBit_mod_two_pow, Nat.testBit_div_two_pow]
  by_cases hi' : i < hi + 1 - lo
  · have e := getLsbD_setField x hi lo v hl (i := lo + i) (by omega)
    rw [if_pos (by omega), BitVec.getLsbD, Nat.add_sub_cancel_left] at e
    rw [Nat.add_comm i lo, e]
  · simp [hi']

/-! ## The end of a command (R83) -/

namespace State

/-- A command ends with its status and an interrupt of the physical function, which is sent or pends. -/
theorem answer_eq (s : State) (st : Nat) : ∃ m o, s.answer st = { s with mbox := { s.mbox with status := st }, pfMsix := m, outbox := o } := by
  unfold State.answer State.raiseIrq
  split <;> exact ⟨_, _, rfl⟩

@[simp] theorem answer_mbox (s : State) (st : Nat) : (s.answer st).mbox = { s.mbox with status := st } := by
  obtain ⟨m, o, e⟩ := answer_eq s st
  rw [e]

@[simp] theorem answer_kettle (s : State) (st : Nat) : (s.answer st).kettle = s.kettle := by
  obtain ⟨m, o, e⟩ := answer_eq s st
  rw [e]

@[simp] theorem answer_dev (s : State) (st : Nat) : (s.answer st).dev = s.dev := by
  obtain ⟨m, o, e⟩ := answer_eq s st
  rw [e]

@[simp] theorem answer_pkg (s : State) (st : Nat) : (s.answer st).pkg = s.pkg := by
  obtain ⟨m, o, e⟩ := answer_eq s st
  rw [e]

@[simp] theorem answer_part (s : State) (st p : Nat) : (s.answer st).part p = s.part p := by
  obtain ⟨m, o, e⟩ := answer_eq s st
  rw [e]
  rfl

@[simp] theorem answer_core (s : State) (st c : Nat) : (s.answer st).core c = s.core c := by
  obtain ⟨m, o, e⟩ := answer_eq s st
  rw [e]
  rfl

@[simp] theorem answer_due (s : State) (st : Nat) (i : Instr) : (s.answer st).due i = s.due i := by
  obtain ⟨m, o, e⟩ := answer_eq s st
  rw [e]
  rfl

end State

/-- A step of Kettle is made while it runs. -/
theorem of_kettleRuns {α : Type} {a b : α} (on : s.pkg.power = .on) (run : s.kettle.running = true) :
    (if s.pkg.power != .on || !s.kettle.running then a else b) = b := if_neg (by simp [on, run])

/-- Kettle serves the command that runs. -/
theorem of_commanded {α : Type} {n : Nat} {a b : α} (c : s.commanded n = true) : (if !s.commanded n then a else b) = b := if_neg (by simp [c])

/-! ## Service and test mode (R39, R45) -/

theorem execServiceReturn_unsigned (c : s.commanded 5 = true) (bad : Config.verifies 1 (s.bufBytes 0 4096) = false) :
    execServiceReturn s = .next (s.answer 7) := by
  rw [execServiceReturn, of_commanded c, if_pos (by simp [bad])]

theorem execServiceReturn_signed (c : s.commanded 5 = true) (good : Config.verifies 1 (s.bufBytes 0 4096) = true) :
    ∃ t, execServiceReturn s = .next t ∧ t.mbox.status = 0 ∧ fieldOf t.dev.health 8 8 = 0 ∧ fieldOf t.dev.health 7 4 = 0
      ∧ ∀ j, (j < 4 ∨ 8 < j) → t.dev.health.getLsbD j = s.dev.health.getLsbD j := by
  rw [execServiceReturn, of_commanded c, if_neg (by simp [good])]
  refine ⟨_, rfl, by simp, ?_, ?_, fun j hj => ?_⟩
  · rw [State.answer_dev, fieldOf_bit, getLsbD_setField _ _ _ _ (by omega) (by omega), if_neg (by omega),
      getLsbD_setField _ _ _ _ (by omega) (by omega), if_pos (by omega)]
    rfl
  · rw [State.answer_dev]
    exact fieldOf_setField_self _ 0 (by omega) (by omega)
  · by_cases hw : j < 32
    · rw [State.answer_dev, getLsbD_setField _ _ _ _ (by omega) hw, if_neg (by omega), getLsbD_setField _ _ _ _ (by omega) hw, if_neg (by omega)]
    · rw [BitVec.getLsbD_of_ge _ _ (by omega), BitVec.getLsbD_of_ge _ _ (by omega)]

/-- Some partition runs. -/
theorem partsRun_iff : (List.range 8).any (fun p => (s.part p).present && !(s.part p).stopped) = true
    ↔ ¬ ∀ p, p < 8 → (s.part p).present = true → (s.part p).stopped = true := by
  simp

theorem execTestMode_unsigned (c : s.commanded 8 = true) (bad : Config.verifies 2 (s.bufBytes 0 4096) = false) :
    execTestMode s = .next (s.answer 7) := by
  rw [execTestMode, of_commanded c, if_pos (by simp [bad])]

theorem execTestMode_running (c : s.commanded 8 = true) (good : Config.verifies 2 (s.bufBytes 0 4096) = true)
    (run : ¬ ∀ p, p < 8 → (s.part p).present = true → (s.part p).stopped = true) : execTestMode s = .next (s.answer 2) := by
  rw [execTestMode, of_commanded c, if_neg (by simp [good]), if_pos (partsRun_iff.2 run)]

theorem execTestMode_stopped (c : s.commanded 8 = true) (good : Config.verifies 2 (s.bufBytes 0 4096) = true)
    (stopped : ∀ p, p < 8 → (s.part p).present = true → (s.part p).stopped = true) :
    ∃ t, execTestMode s = .next t ∧ t.mbox.status = 0 ∧ t.dev.testMode = Config.wantsTest (s.bufBytes 0 4096)
      ∧ t.dev.health.getLsbD 12 = Config.wantsTest (s.bufBytes 0 4096)
      ∧ (Config.wantsTest (s.bufBytes 0 4096) = false → ∀ c, (t.core c).inject = 0) := by
  rw [execTestMode, of_commanded c, if_neg (by simp [good]), if_neg (fun run => partsRun_iff.1 run stopped)]
  refine ⟨_, rfl, by simp, by simp, ?_, fun off c => ?_⟩
  · rw [State.answer_dev, getLsbD_setField _ _ _ _ (by omega) (by omega), if_pos (by omega)]
    cases Config.wantsTest (s.bufBytes 0 4096) <;> rfl
  · rw [State.answer_core, off]
    exact congrArg Core.inject (Tbl.getD_map s.cores c .reset (fun k => { k with inject := 0 }) rfl)

/-! ## Provisioning (R46) -/

theorem execProvisionGenerate_unwanted (c : s.commanded 9 = true) (done : fieldOf s.dev.health 11 11 = 0) :
    execProvisionGenerate s = .next (s.answer 6) := by
  rw [execProvisionGenerate, of_commanded c, if_pos (by simp [done])]

theorem execProvisionGenerate_unsigned (c : s.commanded 9 = true) (wanted : fieldOf s.dev.health 11 11 = 1)
    (bad : Config.verifies 3 (s.bufBytes 1 4095) = false) : execProvisionGenerate s = .next (s.answer 7) := by
  rw [execProvisionGenerate, of_commanded c, if_neg (by simp [wanted]), if_pos (by simp [bad])]

theorem execProvisionGenerate_signed (c : s.commanded 9 = true) (wanted : fieldOf s.dev.health 11 11 = 1)
    (good : Config.verifies 3 (s.bufBytes 1 4095) = true) : ∃ t key, execProvisionGenerate s = .next t ∧ t.mbox.status = 0
      ∧ t.kettle.newIdentity = some key ∧ t.kettle.identity = s.kettle.identity := by
  rw [execProvisionGenerate, of_commanded c, if_neg (by simp [wanted]), if_neg (by simp [good])]
  refine ⟨_, Config.key s.fresh, rfl, by simp, ?_, ?_⟩
  · rw [State.answer_kettle]
    rfl
  · rw [State.answer_kettle]
    rfl

theorem execProvisionInstall_unwanted (c : s.commanded 9 = true) (done : fieldOf s.dev.health 11 11 = 0) :
    execProvisionInstall s = .next (s.answer 6) := by
  rw [execProvisionInstall, of_commanded c, if_pos (by simp [done])]

theorem execProvisionInstall_keyless (c : s.commanded 9 = true) (wanted : fieldOf s.dev.health 11 11 = 1) (none_ : s.kettle.newIdentity = none) :
    execProvisionInstall s = .next (s.answer 6) := by
  rw [execProvisionInstall, of_commanded c, if_neg (by simp [wanted]), none_]

theorem execProvisionInstall_unsigned {key : Nat} (c : s.commanded 9 = true) (wanted : fieldOf s.dev.health 11 11 = 1)
    (made : s.kettle.newIdentity = some key) (bad : Config.verifies 4 (s.bufBytes 1 4095) = false) :
    execProvisionInstall s = .next (s.answer 7) := by
  rw [execProvisionInstall, of_commanded c, if_neg (by simp [wanted]), made]
  exact if_pos (by simp [bad])

/-- Layout generation 0 defines no partition. The mailbox does not change with it. -/
theorem generationZero_clears (s : State) :
    s.generationZero.mbox = s.mbox ∧ s.generationZero.kettle.activeGen = 0 ∧ ∀ p, (s.generationZero.part p).present = false := by
  unfold State.generationZero
  extract_lets s1 _ _ s2
  have h1 : WorkFrame s s1 := .foldl (.refl s) fun _ _ h => .ite h.dropWork h
  have h2 : WorkFrame s2 (s2.flipPools [0]) := .flipPools (.refl s2)
  exact ⟨h2.mbox.trans h1.mbox, congrArg (·.activeGen) h2.kettle, fun p => (h2.parts p).present⟩

theorem execProvisionInstall_signed {key : Nat} (c : s.commanded 9 = true) (wanted : fieldOf s.dev.health 11 11 = 1)
    (made : s.kettle.newIdentity = some key) (good : Config.verifies 4 (s.bufBytes 1 4095) = true) :
    ∃ t, execProvisionInstall s = .next t ∧ t.mbox.status = 0 ∧ t.kettle.identity = some key ∧ t.kettle.newIdentity = none
      ∧ t.kettle.hvKey ≠ none ∧ fieldOf t.dev.health 11 11 = 0 ∧ t.kettle.chain = some (s.bufBytes 1 4095) ∧ t.kettle.activeGen = 0
      ∧ ∀ p, (t.part p).present = false := by
  rw [execProvisionInstall, of_commanded c, if_neg (by simp [wanted]), made]
  dsimp only
  rw [if_neg (by simp [good])]
  obtain ⟨mbox, gen, absent⟩ := generationZero_clears (s.rekey 0 hbmEnd)
  have buffer : (s.rekey 0 hbmEnd).generationZero.bufBytes 1 4095 = s.bufBytes 1 4095 := by
    rw [State.bufBytes, mbox, congrArg (·.mbox) (rekey_frame s 0 hbmEnd), State.bufBytes]
  generalize (s.rekey 0 hbmEnd).generationZero = z at gen absent buffer ⊢
  refine ⟨_, rfl, by simp, by simp, by simp, by simp, ?_, by simp [buffer], by simp [gen], fun p => ?_⟩
  · rw [State.answer_dev]
    exact fieldOf_setField_self _ 0 (by omega) (by omega)
  · rw [State.answer_part]
    exact absent p

/-! ## Codes that are not assigned (R83) and SPDM (R41) -/

theorem mboxRow_of_unassigned (h : s.mbox.cmd.toNat = 0 ∨ 9 < s.mbox.cmd.toNat) : s.mboxRow = .badCmd := by
  unfold State.mboxRow
  split
  iterate 9 omega
  rfl

theorem execBadCmd_of_unassigned {n : Nat} (c : s.commanded n = true) (h : s.mbox.cmd.toNat = 0 ∨ 9 < s.mbox.cmd.toNat) :
    execBadCmd s = .next (s.answer 6) := by
  simp only [State.commanded, Bool.and_eq_true] at c
  obtain ⟨⟨⟨on, run⟩, busy⟩, -⟩ := c
  rw [execBadCmd, if_pos (by simp [on, run, busy, mboxRow_of_unassigned h])]

theorem execSpdmRequest_measurement {i x : Nat} (on : s.pkg.power = .on) (run : s.kettle.running = true) (m : s.measurement i = some x) (viaI3c : Bool) :
    ∃ t sig, execSpdmRequest (.measurement i) viaI3c s = .next t ∧ t.outbox = s.outbox ++ [.spdm viaI3c i x sig]
      ∧ (sig.isSome ↔ s.kettle.identity.isSome) := by
  rw [execSpdmRequest, of_kettleRuns on run]
  simp only [m]
  exact ⟨_, s.kettle.identity.map fun _ => Config.signature s.fresh, rfl, rfl, by simp⟩

theorem execSpdmRequest_challenge (on : s.pkg.power = .on) (run : s.kettle.running = true) (i : Nat) (viaI3c : Bool) :
    ∃ t sig, execSpdmRequest (.challenge i) viaI3c s = .next t ∧ t.outbox = s.outbox ++ [.spdmChallenge viaI3c i sig]
      ∧ (sig.isSome ↔ s.kettle.identity.isSome) := by
  rw [execSpdmRequest, of_kettleRuns on run]
  exact ⟨_, s.kettle.identity.map fun _ => Config.signature s.fresh, rfl, rfl, by simp⟩

theorem execSpdmRequest_version (on : s.pkg.power = .on) (run : s.kettle.running = true) (viaI3c : Bool) :
    execSpdmRequest .version viaI3c s = .next { s with outbox := s.outbox ++ [.spdmVersion viaI3c [0x12, 0x13]] } := by
  rw [execSpdmRequest, of_kettleRuns on run]
  rfl

theorem execSpdmRequest_certificate {c : List Byte} (on : s.pkg.power = .on) (run : s.kettle.running = true) (chain : s.kettle.chain = some c)
    (viaI3c : Bool) : execSpdmRequest .certificate viaI3c s = .next { s with outbox := s.outbox ++ [.spdmChain viaI3c c] } := by
  rw [execSpdmRequest, of_kettleRuns on run]
  simp only [chain]
  rfl

/-- Settles O52: one lemma for each command and each way it can end; PROVISION_REQUIRED is a bit, so that it is 0 where it is not 1. -/
theorem mailboxCommands : Obligations.MailboxCommands := by
  intro s i viaI3c b stopped wanted
  have done : ¬ wanted → fieldOf s.dev.health 11 11 = 0 := fun h => by
    rw [fieldOf_bit]
    simpa [wanted, fieldOf_bit] using h
  refine ⟨fun c => ⟨execServiceReturn_unsigned c, execServiceReturn_signed c⟩,
    fun c => ⟨execTestMode_unsigned c, execTestMode_running c, execTestMode_stopped c⟩,
    fun c => ⟨fun h => ⟨execProvisionGenerate_unwanted c (done h), execProvisionInstall_unwanted c (done h)⟩, execProvisionGenerate_unsigned c,
      execProvisionGenerate_signed c, execProvisionInstall_keyless c,
      fun key want made => ⟨execProvisionInstall_unsigned c want made, execProvisionInstall_signed c want made⟩⟩,
    fun c => of_commanded c, fun n c e h => execBadCmd_of_unassigned c (by rwa [e]),
    fun on run => ⟨fun x m => execSpdmRequest_measurement on run m viaI3c, execSpdmRequest_version on run viaI3c,
      fun _ chain => execSpdmRequest_certificate on run chain viaI3c, execSpdmRequest_challenge on run i viaI3c⟩⟩

end Sys2Proof.Machine
end

section
/-!
SUPPORT. Kettle's images, row repairs, device health and alarms (O51). What a restarted Kettle does before it goes on — it reads the journal, takes up
repairs, throttles again or releases — changes neither its images nor the supply, and leaves the end of a trial on the agenda (`RecoverFrame`).
-/

namespace Sys2Proof.Machine

/- Elaborated one after another: at one thread for each of so many short theorems, the stacks together would pass the memory limit. -/
set_option Elab.async false

variable {s t u : State}

/-! ## A restarted Kettle (R22, R28, R32, R37) -/

/-- Kettle does not run, and its boot ROM is to start. -/
def KettleDown (t : State) : Prop :=
  t.kettle.running = false ∧ t.kettle.current = none ∧ t.kettle.confirmAt = none ∧ t.due .kettleBoot = true

theorem stopKettle_down (s : State) : KettleDown s.stopKettle := ⟨rfl, rfl, rfl, due_atTick_self ..⟩

theorem stopKettle_kettle (s : State) : s.stopKettle.kettle = { s.kettle with running := false, current := none, confirmAt := none } := rfl

theorem stopKettle_mbox (s : State) : s.stopKettle.mbox = s.mbox := rfl

/-- Of two states, the second has the same supply, the same Kettle but for the journal, and the end of a trial on the agenda where the first has it. -/
structure RecoverFrame (s t : State) : Prop where
  kettle : t.kettle = { s.kettle with
    journal := t.kettle.journal, shadow := t.kettle.shadow, arms := t.kettle.arms, lastOutcome := t.kettle.lastOutcome, lastMask := t.kettle.lastMask }
  pkg : t.pkg = s.pkg
  trial : s.due .confirmTimeout = true → t.due .confirmTimeout = true

theorem due_atTick_of {i : Instr} (h : s.due i = true) (n : Nat) (j : Instr) : (s.atTick n j).due i = true := by
  obtain ⟨m, hm⟩ := (due_iff i).1 h
  exact (due_iff i).2 ⟨m, (mem_insertBy ..).2 (.inr hm)⟩

theorem noteThrottle_agenda (s : State) (h : Nat) : (s.noteThrottle h).agenda = s.agenda := by
  unfold State.noteThrottle
  extract_lets now
  split
  · rfl
  · obtain ⟨ws, e⟩ := raiseThrottle_eq (s.updHob h fun k => { k with throttled := now }) h now
    rw [e]
    rfl

namespace RecoverFrame

theorem refl (s : State) : RecoverFrame s s := ⟨rfl, rfl, id⟩

theorem trans (h : RecoverFrame s t) (k : RecoverFrame t u) : RecoverFrame s u := by
  refine ⟨?_, k.pkg.trans h.pkg, fun d => k.trial (h.trial d)⟩
  have e := k.kettle
  rw [h.kettle] at e
  exact e

theorem ite {c : Prop} [Decidable c] {a b : State} (ha : RecoverFrame s a) (hb : RecoverFrame s b) : RecoverFrame s (if c then a else b) := by
  split <;> assumption

theorem foldl {α : Type} {f : State → α → State} {l : List α} (h : RecoverFrame s t) (hf : ∀ t a, RecoverFrame s t → RecoverFrame s (f t a)) :
    RecoverFrame s (l.foldl f t) :=
  List.foldlRecOn l f h fun t h a _ => hf t a h

theorem atTick {n : Nat} {i : Instr} (h : RecoverFrame s t) : RecoverFrame s (t.atTick n i) := h.trans ⟨rfl, rfl, fun d => due_atTick_of d ..⟩

theorem soonOnce {i : Instr} (h : RecoverFrame s t) : RecoverFrame s (t.soonOnce i) := .ite h (h.trans ⟨rfl, rfl, fun d => due_atTick_of d ..⟩)

theorem answer {n : Nat} (h : RecoverFrame s t) : RecoverFrame s (t.answer n) := h.trans ⟨by simp, by simp, by simp⟩

theorem pace (h : RecoverFrame s t) (f : PaceFrame t u) (trial : t.due .confirmTimeout = true → u.due .confirmTimeout = true) : RecoverFrame s u :=
  h.trans ⟨by rw [show u.kettle = t.kettle from congrArg (·.kettle) f], f.pkg, trial⟩

theorem armRepairs (h : RecoverFrame s t) : RecoverFrame s t.armRepairs := h.foldl fun _ _ h => .ite h h.atTick

theorem putBuf {off : Nat} {bs : List Byte} (h : RecoverFrame s t) : RecoverFrame s (t.putBuf off bs) := h.trans ⟨rfl, rfl, id⟩

theorem recover (h : RecoverFrame s t) : RecoverFrame s t.recover := by
  unfold State.recover
  extract_lets k closed prepared s1 s2
  have h1 : RecoverFrame s s1 := by
    refine .ite ?_ (.ite ?_ h)
    · have hc : RecoverFrame s closed := h.trans ⟨rfl, rfl, id⟩
      exact .ite hc.answer hc
    · have hp : RecoverFrame s prepared := h.trans ⟨rfl, rfl, id⟩
      exact .ite hp.putBuf.answer hp
  have h2 : RecoverFrame s s2 := .armRepairs (.ite h1.soonOnce h1)
  exact .ite h2.soonOnce h2

theorem haltReleases (h : RecoverFrame s t) : RecoverFrame s t.haltReleases :=
  h.pace (haltReleases_frame t) fun d => by
    obtain ⟨n, hn⟩ := (due_iff _).1 d
    exact (due_iff _).2 ⟨n, List.mem_filter.2 ⟨hn, rfl⟩⟩

theorem lowerCeil {j : Nat} (h : RecoverFrame s t) : RecoverFrame s (t.lowerCeil j) := by
  refine h.pace (lowerCeil_frame t j).frame fun d => ?_
  unfold State.lowerCeil
  split
  · exact d
  · rw [State.due, noteThrottle_agenda]
    exact d

theorem armRelease {j : Nat} (h : RecoverFrame s t) : RecoverFrame s (t.armRelease j) := by
  refine h.pace (armRelease_frame t j).frame fun d => ?_
  unfold State.armRelease
  split
  · exact due_atTick_of d ..
  · exact d

theorem resumeThrottle (h : RecoverFrame s t) : RecoverFrame s t.resumeThrottle :=
  .ite (.ite (h.haltReleases.foldl fun _ _ h => h.lowerCeil) h) (h.haltReleases.foldl fun _ _ h => h.armRelease)

theorem imgSlot (h : RecoverFrame s t) (c : Bool) : t.imgSlot c = s.imgSlot c := by
  unfold State.imgSlot
  rw [h.kettle]

end RecoverFrame

/-! ## The boot ROM (R35) -/

/-- The boot ROM starts while Kettle is down. -/
theorem of_down {α : Type} {a b : α} (on : s.pkg.power = .on) (down : s.kettle.running = false) :
    (if s.pkg.power != .on || s.kettle.running then a else b) = b := if_neg (by simp [on, down])

/-- The slots as the boot ROM finds them. -/
def State.slotsFound (s : State) : State := { s with kettle := { s.kettle with slotA := s.kettle.slotA.found, slotB := s.kettle.slotB.found } }

theorem execKettleBoot_holds (on : s.pkg.power = .on) (down : s.kettle.running = false)
    (choice : bootChoice s.kettle.slotA.found s.kettle.slotB.found s.kettle.fused = none) : execKettleBoot s = .next s.slotsFound.alerted := by
  rw [execKettleBoot, of_down on down]
  extract_lets s1
  split
  · rfl
  · next c e => cases choice.symm.trans e

theorem execKettleBoot_runs {c : Bool} (on : s.pkg.power = .on) (down : s.kettle.running = false)
    (choice : bootChoice s.kettle.slotA.found s.kettle.slotB.found s.kettle.fused = some c) :
    ∃ t, execKettleBoot s = .next t ∧ t.kettle.running = true ∧ t.kettle.current = some c ∧ t.pkg.coresHeld = (s.pkg.coresHeld && !s.pkg.inputOk)
      ∧ (t.imgSlot c).st = (if (s.slotsFound.imgSlot c).st = .trial then .testing else (s.slotsFound.imgSlot c).st)
      ∧ ((s.slotsFound.imgSlot c).st = .trial → t.kettle.confirmAt = some (s.reft + 10000000000) ∧ t.due .confirmTimeout = true) := by
  rw [execKettleBoot, of_down on down]
  extract_lets s1
  split
  · next e => cases choice.symm.trans e
  · next c' e =>
    obtain rfl : c = c' := Option.some.inj (choice.symm.trans e)
    extract_lets s2 _ tested _ s3
    have found : s2.imgSlot c = s.slotsFound.imgSlot c := rfl
    have r : RecoverFrame s3 s3.recover.resumeThrottle := .resumeThrottle (.recover (.refl s3))
    generalize s3.recover.resumeThrottle = t at r ⊢
    refine ⟨t, rfl, ?_⟩
    rw [r.imgSlot, r.pkg, congrArg (·.running) r.kettle, congrArg (·.current) r.kettle, congrArg (·.confirmAt) r.kettle]
    by_cases trial : (s.slotsFound.imgSlot c).st = .trial
    · have e3 : s3 = ({ tested with kettle := { tested.kettle with confirmAt := some (s.reft + 10000000000) } }).after 10000000000 .confirmTimeout :=
        if_pos (by simp [found, trial])
      have d : s3.due .confirmTimeout = true := by
        rw [e3]
        exact due_atTick_self ..
      clear_value s3
      subst e3
      rw [if_pos trial]
      cases c <;> exact ⟨rfl, rfl, rfl, rfl, fun _ => ⟨rfl, r.trial d⟩⟩
    · have e3 : s3 = s2 := if_neg (by simp [found, trial])
      clear_value s3
      subst e3
      rw [if_neg trial]
      exact ⟨rfl, rfl, rfl, rfl, fun x => absurd x trial⟩

/-! ## Trials and staged images (R36) -/

theorem execConfirm_confirms {c : Bool} {x : Nat} (cur : s.kettle.current = some c) (limit : s.kettle.confirmAt = some x) (on : s.pkg.power = .on)
    (run : s.kettle.running = true) : ∃ t, execConfirm s = .next t ∧ (t.imgSlot c).st = .active ∧ (t.imgSlot (!c)).st = .inactive
      ∧ t.kettle.confirmAt = none ∧ s.kettle.fused ≤ t.kettle.fused := by
  unfold execConfirm
  rw [cur, limit]
  dsimp only
  rw [of_kettleRuns on run]
  refine ⟨_, rfl, ?_⟩
  have keeps : ∀ (b : Bool) (n : Nat), s.kettle.fused ≤ if b then max s.kettle.fused n else s.kettle.fused := fun b n => by
    cases b <;> simp
  cases c <;> exact ⟨rfl, rfl, rfl, keeps _ _⟩

theorem execConfirmTimeout_stops {x : Nat} (limit : s.kettle.confirmAt = some x) (on : s.pkg.power = .on) (past : x ≤ s.reft) :
    execConfirmTimeout s = .next s.stopKettle := by
  unfold execConfirmTimeout
  rw [limit]
  exact if_neg (by simp [on, past])

/-- An image is staged into slot B: slot A is ACTIVE, or neither is and Kettle runs A. -/
def State.stagesB (s : State) : Bool := s.kettle.slotA.st == .active || (s.kettle.slotB.st != .active && s.kettle.current == some false)

theorem stagesB_iff : s.stagesB = true ↔ s.kettle.slotA.st = .active ∨ (s.kettle.slotB.st ≠ .active ∧ s.kettle.current = some false) := by
  simp [State.stagesB]

/-- The image that a piece of 4 KiB completes or goes on with. -/
def State.stagedImage (s : State) : List Byte := s.kettle.staging ++ s.bufBytes 0 4096

/-- A slot's content goes where the staged image goes, and no piece is staged any more. -/
def State.placeImage (s : State) (x : ImgSlot) : State := ({ s with kettle := { s.kettle with staging := [] } }).setSlot s.stagesB x

theorem placeImage_kettle (s : State) (x : ImgSlot) : (s.placeImage x).kettle.staging = [] ∧ (s.placeImage x).kettle.running = s.kettle.running
    ∧ (s.stagesB = true → (s.placeImage x).kettle.slotB = x ∧ (s.placeImage x).kettle.slotA = s.kettle.slotA)
    ∧ (s.stagesB ≠ true → (s.placeImage x).kettle.slotA = x ∧ (s.placeImage x).kettle.slotB = s.kettle.slotB) := by
  unfold State.placeImage State.setSlot
  split <;> simp [*]

theorem execFwStage_piece (c : s.commanded 4 = true) (more : Config.imageEnds s.stagedImage = false) :
    execFwStage s = .next (({ s with kettle := { s.kettle with staging := s.stagedImage } }).answer 0) := by
  rw [execFwStage, of_commanded c]
  exact if_pos (by simpa [State.stagedImage] using more)

theorem execFwStage_good (c : s.commanded 4 = true) (ends : Config.imageEnds s.stagedImage = true)
    (good : Config.verifies 0 s.stagedImage = true ∧ s.kettle.fused ≤ Config.imageVersion s.stagedImage) :
    execFwStage s = .next ((s.placeImage ⟨.trial, s.stagedImage⟩).answer 0).stopKettle := by
  rw [execFwStage, of_commanded c]
  exact (if_neg (by simpa [State.stagedImage] using ends)).trans (if_pos (by simpa [State.stagedImage] using good))

theorem execFwStage_bad (c : s.commanded 4 = true) (ends : Config.imageEnds s.stagedImage = true)
    (bad : ¬ (Config.verifies 0 s.stagedImage = true ∧ s.kettle.fused ≤ Config.imageVersion s.stagedImage)) :
    execFwStage s = .next ((s.placeImage ⟨.empty, []⟩).answer 7) := by
  rw [execFwStage, of_commanded c]
  exact (if_neg (by simpa [State.stagedImage] using ends)).trans (if_neg (by simpa [State.stagedImage] using bad))

/-! ## Row repairs (R37) -/

/-- An error in a row that has no repair is counted, or the row repaired. -/
theorem of_unrepaired {α : Type} {a b : α} (on : s.pkg.power = .on) (run : s.kettle.running = true) {stack bank row : Nat}
    (fresh : ∀ r ∈ s.kettle.repairs, ¬ (r.stack = stack ∧ r.bank = bank ∧ r.row = row)) :
    (if s.pkg.power != .on || !s.kettle.running || s.kettle.repairs.any (fun r => r.stack == stack && r.bank == bank && r.row == row) then a else b) = b := by
  refine if_neg ?_
  simpa [on, run, and_assoc] using fresh

theorem execRowRepair_counts {stack : Fin 8} {bank row : Nat} (on : s.pkg.power = .on) (run : s.kettle.running = true)
    (fresh : ∀ r ∈ s.kettle.repairs, ¬ (r.stack = stack.val ∧ r.bank = bank ∧ r.row = row)) (notDue : (stack.val, bank, row) ∉ s.kettle.repairDue)
    (few : s.rowErrors stack.val bank row < 3) : ∃ t, execRowRepair stack bank row s = .next t
      ∧ t = { s with kettle := { s.kettle with rowErrs := t.kettle.rowErrs } } ∧ t.rowErrors stack.val bank row = s.rowErrors stack.val bank row + 1 := by
  unfold execRowRepair
  dsimp only
  rw [of_unrepaired on run fresh, if_pos (by simp [notDue, few])]
  refine ⟨_, rfl, rfl, ?_⟩
  simp [State.rowErrors, List.filter_append, List.filter_filter, Bool.and_assoc]

/-- A row whose repair waits, or that has its fourth error, is repaired or waits for its stack. -/
theorem of_repairDue {α : Type} {a b : α} {stack bank row : Nat} (due : (stack, bank, row) ∈ s.kettle.repairDue ∨ 3 ≤ s.rowErrors stack bank row) :
    (if !s.kettle.repairDue.contains (stack, bank, row) && s.rowErrors stack bank row < 3 then a else b) = b := by
  refine if_neg ?_
  simp only [Bool.and_eq_true, Bool.not_eq_true', decide_eq_true_eq]
  rintro ⟨notDue, few⟩
  rcases due with due | due
  · simp [due] at notDue
  · omega

theorem execRowRepair_begins {stack : Fin 8} {bank row : Nat} (on : s.pkg.power = .on) (run : s.kettle.running = true)
    (fresh : ∀ r ∈ s.kettle.repairs, ¬ (r.stack = stack.val ∧ r.bank = bank ∧ r.row = row))
    (due : (stack.val, bank, row) ∈ s.kettle.repairDue ∨ 3 ≤ s.rowErrors stack.val bank row)
    (idle : ∀ x, Tbl.find s.kettle.lastRepair stack.val = some x → x + 10000000 ≤ s.reft) :
    execRowRepair stack bank row s = .next (s.beginRepair stack bank row) := by
  unfold execRowRepair
  dsimp only
  rw [of_unrepaired on run fresh, of_repairDue due]
  cases last : Tbl.find s.kettle.lastRepair stack.val with
  | none => rfl
  | some x => exact if_pos (idle x last)

theorem execRowRepair_waits {stack : Fin 8} {bank row : Nat} (on : s.pkg.power = .on) (run : s.kettle.running = true)
    (fresh : ∀ r ∈ s.kettle.repairs, ¬ (r.stack = stack.val ∧ r.bank = bank ∧ r.row = row))
    (due : (stack.val, bank, row) ∈ s.kettle.repairDue ∨ 3 ≤ s.rowErrors stack.val bank row)
    (busy : ¬ ∀ x, Tbl.find s.kettle.lastRepair stack.val = some x → x + 10000000 ≤ s.reft) : ∃ t, execRowRepair stack bank row s = .next t
      ∧ (stack.val, bank, row) ∈ t.kettle.repairDue ∧ t.due (.rowRepair stack bank row) = true ∧ t.kettle.repairs = s.kettle.repairs := by
  unfold execRowRepair
  dsimp only
  rw [of_unrepaired on run fresh, of_repairDue due]
  cases last : Tbl.find s.kettle.lastRepair stack.val with
  | none => simp [last] at busy
  | some x =>
    dsimp only
    rw [if_neg (fun past => busy fun y hy => by rw [last] at hy; cases hy; exact past)]
    have waits : (stack.val, bank, row) ∈ if s.kettle.repairDue.contains (stack.val, bank, row) then s.kettle.repairDue
        else s.kettle.repairDue ++ [(stack.val, bank, row)] := by
      split
      · next h => exact List.contains_iff_mem.1 h
      · simp
    refine ⟨_, rfl, ?_⟩
    generalize (if s.kettle.repairDue.contains (stack.val, bank, row) then _ else _) = l at waits ⊢
    split
    · next d => exact ⟨waits, d, rfl⟩
    · exact ⟨waits, due_atTick_self .., rfl⟩

theorem execRowRepairDone_takes (stack : Fin 8) (s : State) : execRowRepairDone stack s = .next { s with kettle := { s.kettle with
    repairs := s.kettle.repairs.map (fun r => if r.stack = stack.val then { r with copying := false } else r) } } := by
  simp [execRowRepairDone]

/-! ## Policies and health (R39, R43) -/

theorem bitsOf_lt (x hi lo : Nat) : bitsOf x hi lo < 2 ^ (hi + 1 - lo) := Nat.mod_lt _ (by positivity)

/-- A policy field takes the new value where it is defined and does not lower a locked policy (R43). -/
theorem policyField_eq (lock : Bool) (old new hi lo : Nat) : policyField lock old new hi lo =
    if bitsOf new hi lo = 3 ∨ (lock = true ∧ bitsOf new hi lo < bitsOf old hi lo) then bitsOf old hi lo else bitsOf new hi lo := by
  simp [policyField]

theorem policyField_lt (lock : Bool) (old new : Nat) {hi lo : Nat} (h : hi = lo + 1) : policyField lock old new hi lo < 4 := by
  have bound : ∀ x, bitsOf x hi lo < 4 := fun x => by
    have := bitsOf_lt x hi lo
    rwa [show hi + 1 - lo = 2 by omega] at this
  rw [policyField_eq]
  split <;> exact bound _

theorem bnat_le_one (b : Bool) : bnat b ≤ 1 := by cases b <;> decide

/-- Bit 31 and the four fields make up ALARM_POLICY after a write. -/
theorem alarmPolicyAfter_toNat (old new : Word) : let f := policyField (old.getLsbD 31) old.toNat new.toNat
    (alarmPolicyAfter old new).toNat = bnat (old.getLsbD 31 || new.getLsbD 31) * 2 ^ 31 + f 7 6 * 2 ^ 6 + f 5 4 * 2 ^ 4 + f 3 2 * 2 ^ 2 + f 1 0 * 2 ^ 0 := by
  intro f
  have bit : ∀ x : Word, (fieldOf x 31 31 == 1) = x.getLsbD 31 := fun x => by
    rw [fieldOf_bit]
    cases x.getLsbD 31 <;> rfl
  have hl := bnat_le_one (old.getLsbD 31 || new.getLsbD 31)
  have lt := fun {hi lo} => policyField_lt (old.getLsbD 31) old.toNat new.toNat (hi := hi) (lo := lo)
  have h0 := lt (show 1 = 0 + 1 from rfl)
  have h1 := lt (show 3 = 2 + 1 from rfl)
  have h2 := lt (show 5 = 4 + 1 from rfl)
  have h3 := lt (show 7 = 6 + 1 from rfl)
  rw [alarmPolicyAfter]
  simp only [bit, BitVec.toNat_ofNat]
  exact Nat.mod_eq_of_lt (by omega)

theorem alarmPolicyAfter_fields (old new : Word) : fieldOf (alarmPolicyAfter old new) 30 8 = 0
    ∧ (alarmPolicyAfter old new).getLsbD 31 = (old.getLsbD 31 || new.getLsbD 31)
    ∧ ∀ i, i < 4 → fieldOf (alarmPolicyAfter old new) (2 * i + 1) (2 * i) = policyField (old.getLsbD 31) old.toNat new.toNat (2 * i + 1) (2 * i) := by
  have e := alarmPolicyAfter_toNat old new
  have hl := bnat_le_one (old.getLsbD 31 || new.getLsbD 31)
  have lt : ∀ lo, policyField (old.getLsbD 31) old.toNat new.toNat (lo + 1) lo < 4 := fun lo => policyField_lt _ _ _ rfl
  generalize (old.getLsbD 31 || new.getLsbD 31) = b at e hl ⊢
  generalize policyField (old.getLsbD 31) old.toNat new.toNat = f at e lt ⊢
  have h0 := lt 0
  have h1 := lt 2
  have h2 := lt 4
  have h3 := lt 6
  dsimp only [Nat.reduceAdd] at e h0 h1 h2 h3
  refine ⟨?_, ?_, fun i hi => ?_⟩
  · rw [fieldOf, bitsOf]
    omega
  · have lock : (alarmPolicyAfter old new).toNat / 2 ^ 31 % 2 = bnat b := by omega
    rw [BitVec.getLsbD, Nat.testBit_eq_decide_div_mod_eq, lock]
    cases b <;> rfl
  · rw [fieldOf, bitsOf]
    interval_cases i <;> dsimp only [Nat.reduceMul, Nat.reduceAdd, Nat.reduceSub] <;> omega

theorem getLsbD_healthAfter (old new : Word) {i : Nat} (hi : i < 32) :
    (healthAfter old new).getLsbD i = (old.getLsbD i && !(new.getLsbD i && (i == 9 || i == 10))) := by
  have clear : ∀ (x : Word) (b : Nat), (if fieldOf new b b == 1 then setField x b b 0 else x).getLsbD i = (x.getLsbD i && !(new.getLsbD i && i == b)) := by
    intro x b
    rw [fieldOf_bit]
    by_cases e : i = b
    · subst e
      cases new.getLsbD i <;> simp [getLsbD_setField _ _ _ _ (le_refl i) hi]
    · cases new.getLsbD b <;> simp [getLsbD_setField _ _ _ _ (le_refl b) hi, e, show ¬ (b ≤ i ∧ i ≤ b) by omega]
  unfold healthAfter
  dsimp only
  rw [clear _ 9, clear old 10, Bool.and_assoc]
  cases old.getLsbD i <;> cases new.getLsbD i <;> cases i == 9 <;> cases i == 10 <;> rfl

/-! ## Alarms (R44) -/

/-- After new keys for all of HBM every byte is a free value. -/
theorem byteAt_rekey_all (s : State) {x : Nat} (hx : x < hbmEnd) : (s.rekey 0 hbmEnd).byteAt x = Config.rekeyed s.fresh x := by
  have e : (s.rekey 0 hbmEnd).staleAt x = some ⟨0, hbmEnd, s.fresh⟩ := by
    rw [State.rekey, if_pos (by decide), State.staleAt]
    exact List.find?_cons_of_pos (by simpa using hx)
  rw [State.byteAt, e]

theorem erase_erases (s : State) : s.erase.pkg.halted = true ∧ s.erase.kettle.identity = none ∧ s.erase.kettle.hvKey = none
    ∧ (∀ e ∈ s.erase.parts, e.2.key = none) ∧ fieldOf s.erase.dev.health 11 11 = 1 ∧ ∃ n, ∀ x, x < hbmEnd → s.erase.byteAt x = Config.rekeyed n x := by
  unfold State.erase
  extract_lets _ s1
  have f := rekey_frame s1 0 hbmEnd
  refine ⟨rfl, congrArg (·.kettle.identity) f, congrArg (·.kettle.hvKey) f, fun e he => ?_, fieldOf_setField_self _ 1 (by omega) (by omega),
    s1.fresh, fun x hx => byteAt_rekey_all s1 hx⟩
  have hp : (s1.rekey 0 hbmEnd).parts = s.parts.map fun e => (e.1, { e.2 with key := none }) := congrArg (·.parts) f
  obtain ⟨y, -, rfl⟩ := List.mem_map.1 (hp ▸ he)
  rfl

/-- What every alarm leaves: its record, its bit of DEV_HEALTH, ALERT#. -/
def State.alarmNoted (s : State) (src : AlarmSrc) : State := ((s.logged (.alarm src)).setHealth 10).alerted

theorem alarmNoted_policy (s : State) (src : AlarmSrc) : (s.alarmNoted src).dev.alarmPolicy = s.dev.alarmPolicy := by
  simp [State.alarmNoted]

/-- What an alarm does besides, by its policy: nothing, a halt or an erase. -/
def State.obey (s : State) : Nat → State
  | 0 => s
  | 1 => s.halt
  | _ => s.erase

theorem execAlarm_of_on (on : s.pkg.power = .on) (src : AlarmSrc) :
    execAlarm src s = .next ((s.alarmNoted src).obey (policyOf s.dev.alarmPolicy src)) := by
  rw [execAlarm, if_neg (by simp [on]), ← alarmNoted_policy s src]
  unfold State.alarmNoted State.obey
  rfl

/-- Settles O51: the boot, the trial, the staged image, the repair of a row and the alarm have a lemma for each way they can go; a policy and DEV_HEALTH are
read bit by bit. -/
theorem imagesRepairsAndAlarms : Obligations.ImagesRepairsAndAlarms := by
  intro s stack bank row v src k a b down image spare good noted
  refine ⟨fun on run => ⟨_, of_kettleRuns on run, stopKettle_down s⟩, fun on off => ⟨execKettleBoot_holds on off, fun c => execKettleBoot_runs on off⟩,
    fun c x cur limit on => ⟨execConfirm_confirms cur limit on, fun past => ⟨_, execConfirmTimeout_stops limit on past, stopKettle_down s⟩⟩,
    fun c => ⟨execFwStage_piece c, fun ends ok => ?_, fun ends bad => ?_⟩, fun on run fresh => ⟨fun due idle => ?_, execRowRepair_waits on run fresh,
      execRowRepair_counts on run fresh⟩, execRowRepairDone_takes stack s, ?_, ⟨_, rfl, fun i => getLsbD_healthAfter _ _⟩, fun on => ?_⟩
  · obtain ⟨staging, -, toB, toA⟩ := placeImage_kettle s ⟨.trial, image⟩
    refine ⟨_, execFwStage_good c ends ok, stopKettle_down _, ?_⟩
    simp only [stopKettle_kettle, stopKettle_mbox, State.answer_kettle, State.answer_mbox]
    exact ⟨trivial, staging, fun h => toB (stagesB_iff.2 h), fun h => toA (fun e => h (stagesB_iff.1 e))⟩
  · obtain ⟨-, running, toB, toA⟩ := placeImage_kettle s ⟨.empty, []⟩
    refine ⟨_, execFwStage_bad c ends bad, ?_⟩
    simp only [State.answer_kettle, State.answer_mbox]
    exact ⟨trivial, running, fun h => toB (stagesB_iff.2 h), fun h => toA (fun e => h (stagesB_iff.1 e))⟩
  · exact ⟨_, execRowRepair_begins on run fresh due idle, rfl, due_atTick_self ..⟩
  · obtain ⟨zero, lock, fields⟩ := alarmPolicyAfter_fields s.dev.alarmPolicy v
    exact ⟨_, rfl, zero, lock, fun i hi => (fields i hi).trans (policyField_eq ..)⟩
  · have e := execAlarm_of_on on src
    refine ⟨fun h => ?_, fun h => ?_, fun h => ⟨_, ?_, erase_erases (s.alarmNoted src)⟩⟩
    · rw [h] at e
      exact e
    · rw [h] at e
      exact e
    · obtain ⟨n, hn⟩ : ∃ n, policyOf s.dev.alarmPolicy src = n + 2 := ⟨_, (Nat.sub_add_cancel h).symm⟩
      rw [hn] at e
      exact e

end Sys2Proof.Machine
end

section
/-!
SUPPORT. Changes of layout, their flips, and the stops and starts of partitions (O50). A flip sets the fields of the partitions of its mask and the owners of
the clusters that change; what it does to their work, their saved teams and their pools is a `WorkFrame`. The stop and the start of a partition are visits
to it (`PartVisit`).
-/

namespace Sys2Proof.Machine

/- Elaborated one after another: at one thread for each of so many short theorems, the stacks together would pass the memory limit. -/
set_option Elab.async false

variable {s t u : State}

/-! ## The submission of a layout (R30, R31) -/

/-- No change is open. -/
def State.shut (s : State) : Prop := s.kettle.journal ≠ .writing ∧ s.kettle.journal ≠ .prepared

/-- A partition that a layout changes runs. -/
def State.busyFor (s : State) (l : List Byte) : Prop :=
  ∃ p, p < 8 ∧ Layout.changes l p = true ∧ (s.part p).present = true ∧ (s.part p).stopped = false

theorem shut_iff : (s.kettle.journal == .writing || s.kettle.journal == .prepared) = true ↔ ¬ s.shut := by
  simp [State.shut, or_iff_not_imp_left]

theorem busyFor_iff (l : List Byte) :
    (List.range 8).any (fun p => Layout.changes l p && (s.part p).present && !(s.part p).stopped) = true ↔ s.busyFor l := by
  simp [State.busyFor, and_assoc]

theorem due_congr (same : t.agenda = s.agenda) (i : Instr) : t.due i = s.due i := congrArg (fun l : List (Nat × Instr) => l.any fun e => e.2 == i) same

theorem execLayoutSubmit_open (c : s.commanded 1 = true) (opened : ¬ s.shut) : execLayoutSubmit s = .next (s.answer 8) := by
  rw [execLayoutSubmit, of_commanded c]
  exact if_pos (shut_iff.2 opened)

theorem execLayoutSubmit_running (c : s.commanded 1 = true) (shut : s.shut) (busy : s.busyFor (s.bufBytes 0 4096)) :
    execLayoutSubmit s = .next (s.answer 2) := by
  rw [execLayoutSubmit, of_commanded c]
  exact (if_neg fun h => shut_iff.1 h shut).trans (if_pos ((busyFor_iff _).2 busy))

theorem execLayoutSubmit_invalid (c : s.commanded 1 = true) (shut : s.shut) (idle : ¬ s.busyFor (s.bufBytes 0 4096))
    (bad : s.layoutOk (s.bufBytes 0 4096) = false) : execLayoutSubmit s = .next (s.answer 5) := by
  rw [execLayoutSubmit, of_commanded c]
  exact (if_neg fun h => shut_iff.1 h shut).trans ((if_neg fun h => idle ((busyFor_iff _).1 h)).trans (if_pos (by simp [bad])))

/-- LAYOUT_GO names a generation, and the command is answered. -/
theorem answered_go (s : State) (w : Word) (bs : List Byte) :
    let t := (({ s with dev := { s.dev with layoutGo := w } }).putBuf 0 bs).answer 0
    t.kettle = s.kettle ∧ t.dev.layoutGo = w ∧ t.mbox.status = 0 ∧ t.agenda = s.agenda := by
  obtain ⟨m, o, e⟩ := State.answer_eq (({ s with dev := { s.dev with layoutGo := w } }).putBuf 0 bs) 0
  rw [e]
  exact ⟨rfl, rfl, rfl, rfl⟩

theorem execLayoutSubmit_journals (c : s.commanded 1 = true) (shut : s.shut) (idle : ¬ s.busyFor (s.bufBytes 0 4096))
    (ok : s.layoutOk (s.bufBytes 0 4096) = true) : ∃ (t : State) (at_ : Nat), execLayoutSubmit s = .next t ∧ s.reft + 2000000 ≤ at_
      ∧ t.kettle.arms = some (s.kettle.activeGen + 1, at_) ∧ t.kettle.jGen = s.kettle.activeGen + 1 ∧ t.kettle.jTick = at_
      ∧ t.kettle.shadow = s.bufBytes 0 4096 ∧ t.due .layoutFlip = true
      ∧ ((t.kettle.journal = .prepared ∧ t.dev.layoutGo = BitVec.ofNat 32 (s.kettle.activeGen + 1) ∧ t.mbox.status = 0)
        ∨ (t.kettle.journal = .writing ∧ t.dev.layoutGo = s.dev.layoutGo ∧ t.due .layoutLate = true)) := by
  rw [execLayoutSubmit, of_commanded c]
  extract_lets l g at_ late s1 _ s2 s3
  rw [if_neg fun h => shut_iff.1 h shut, if_neg fun h => idle ((busyFor_iff _).1 h), if_neg (by simp [l, ok])]
  have arms : s3.kettle.arms = some (g, at_) ∧ s3.kettle.jGen = g ∧ s3.kettle.jTick = at_ ∧ s3.kettle.shadow = l := ⟨rfl, rfl, rfl, rfl⟩
  have journal : s3.kettle.journal = if late then .writing else .prepared := rfl
  have dev : s3.dev = s.dev := rfl
  have due : s3.due .layoutFlip = true := due_atTick_self ..
  have far : s.reft + 2000000 ≤ at_ := Nat.le_add_right ..
  obtain ⟨arms, gen, tick, shadow⟩ := arms
  clear_value s3 at_ late
  cases late with
  | true =>
    rw [if_pos rfl]
    exact ⟨_, at_, rfl, far, arms, gen, tick, shadow, due_atTick_of due _ _, .inr ⟨journal, congrArg Dev.layoutGo dev, due_atTick_self ..⟩⟩
  | false =>
    rw [if_neg Bool.false_ne_true]
    obtain ⟨kettle, go, status, agenda⟩ := answered_go s3 (BitVec.ofNat 32 g) (natBytes 8 g ++ natBytes 8 at_)
    exact ⟨_, at_, rfl, far, (congrArg (·.arms) kettle).trans arms, (congrArg (·.jGen) kettle).trans gen, (congrArg (·.jTick) kettle).trans tick,
      (congrArg (·.shadow) kettle).trans shadow, (due_congr agenda _).trans due, .inl ⟨(congrArg (·.journal) kettle).trans journal, go, status⟩⟩

theorem execLayoutLate_withdraws (writing : s.kettle.journal = .writing) (run : s.kettle.running = true) (past : s.kettle.jTick ≤ s.reft + 100000)
    (unnamed : s.dev.layoutGo.toNat ≠ s.kettle.jGen) : ∃ t, execLayoutLate s = .next t ∧ t.kettle.journal = .idle ∧ t.kettle.lastOutcome = 3
      ∧ t.kettle.arms = none ∧ (s.commanded 1 = true → t.mbox.status = 3) := by
  unfold execLayoutLate
  extract_lets k closed
  rw [if_neg (by simp [k, writing, run, unnamed, past])]
  refine ⟨_, rfl, ?_⟩
  split
  · rw [State.answer_kettle, State.answer_mbox]
    exact ⟨rfl, rfl, rfl, fun _ => rfl⟩
  · next h => exact ⟨rfl, rfl, rfl, fun c => absurd c h⟩

/-! ## The flip of a partition (R30, R31, R40) -/

theorem flipPart_visit (s : State) (l : List Byte) (missed : List FlipUnit) (p : Nat) : PartVisit p s (s.flipPart l missed p) := by
  unfold State.flipPart
  split
  · exact .refl p s
  · extract_lets _ _ _ s1 _ _ _ _ s2
    have h1 : WorkFrame s s1 := .ite (WorkFrame.refl s).dropWork.rekey (.refl s)
    have h2 : WorkFrame s s2 := .ite (.refl s) (WorkFrame.refl s).rekey.rekey.rekey.rekey
    split
    · exact (h1.visit p).trans (.updPart ..)
    · exact ((h2.visit p).trans (.updPart ..)).trans ((WorkFrame.refl _).drawn.visit p)

variable {l : List Byte} {p : Nat} {missed : List FlipUnit}

/-- A partition without clusters is gone. -/
theorem flipPart_removes (changed : Layout.changes l p = true) (none_ : Layout.owns l p = false) : ((s.flipPart l missed p).part p).present = false := by
  rw [State.flipPart, if_neg (by simp [changed])]
  extract_lets old lo hi s1 stale
  rw [if_pos (by simp [none_]), State.part_updPart_self]
  rfl

/-- What a layout makes of a partition: its registers are those of the image, and it is stopped. -/
def Layout.Defines (l : List Byte) (p : Nat) (x : Part) : Prop :=
  x.present = true ∧ x.stopped = true ∧ x.hbmBase = BitVec.ofNat 64 (Layout.field l p 0 8) ∧ x.hbmSize = BitVec.ofNat 64 (Layout.field l p 8 8)
    ∧ x.l2ways = BitVec.ofNat 64 (Layout.field l p 16 8) ∧ x.share = BitVec.ofNat 64 (Layout.field l p 24 8)

theorem PartFrame.defines {a b : Part} (f : PartFrame a b) (h : Layout.Defines l p a) : Layout.Defines l p b := by
  rw [f]
  exact h

theorem flipPart_defines (changed : Layout.changes l p = true) (owns : Layout.owns l p = true) (enc : missed.contains .encryption = false) :
    Layout.Defines l p ((s.flipPart l missed p).part p) := by
  rw [State.flipPart, if_neg (by simp [changed])]
  extract_lets _ _ _ _ _ _ _ enc'
  rw [if_neg (by simp [owns])]
  have e : ∀ v f, ((State.updPart v p f).drawn).part p = f (v.part p) := State.part_updPart_self (h := p)
  rw [e]
  have off : enc' = false := enc
  exact ⟨rfl, rfl, if_neg (by simp [off]), if_neg (by simp [off]), rfl, rfl⟩

/-! ## The flip (R31, R33) -/

/-- A fold leaves of a place what a visit to that place leaves of it, if the other visits leave it alone. -/
theorem foldl_reads_visit {β : Type} {f : State → Nat → State} {r : State → β} {k : Nat} {x : β} (others : ∀ s a, a ≠ k → r (f s a) = r s)
    (own : ∀ s, r (f s k) = x) {l : List Nat} (hl : k ∈ l) (s : State) : r (l.foldl f s) = x := by
  obtain ⟨l₁, l₂, rfl⟩ := List.append_of_mem hl
  rw [List.foldl_append, List.foldl_cons]
  refine List.foldlRecOn l₂ f (motive := fun t => r t = x) (own _) fun t h a _ => ?_
  by_cases e : a = k
  · rw [e, own]
  · rw [others t a e, h]

/-- The owner of a cluster after a layout. -/
def Layout.newOwner (l : List Byte) (c : Nat) : Option Nat := if Layout.owner l c < 8 then some (Layout.owner l c) else none

/-- The owner of a cluster after a flip: that of the layout, or, where the cluster missed the flip, its owner from before if that one is still there. -/
def State.ownerAfter (s : State) (l : List Byte) (missed : List FlipUnit) (c : Nat) : Option Nat :=
  if missed.contains (.cluster c) then (match s.ownerOf c with
    | none => none
    | some p => if (s.part p).present then some p else none)
  else Layout.newOwner l c

/-- The owners of the clusters once one of them has passed to its owner after a flip. -/
def State.ownersAfter (s : State) (l : List Byte) (missed : List FlipUnit) (c : Nat) : Tbl Nat :=
  match s.ownerAfter l missed c with
  | none => Tbl.del s.clusterOwner c
  | some p => Tbl.put s.clusterOwner c p

/-- A cluster passes to its owner after a flip, and its cores lose their caches. -/
def State.passCluster (s : State) (l : List Byte) (missed : List FlipUnit) (c : Nat) : State :=
  (List.range 48).foldl (fun s i => s.updCore (c * 48 + i) (fun k => { k with l1 := [], tlb := [], icache := [] }))
    { s with clusterOwner := s.ownersAfter l missed c }

theorem foldl_passCluster_same (cs : List Nat) (s : State) : (cs.foldl (fun s c => s.passCluster l missed c) s).kettle = s.kettle
    ∧ (cs.foldl (fun s c => s.passCluster l missed c) s).parts = s.parts :=
  List.foldlRecOn cs _ (motive := fun u : State => u.kettle = s.kettle ∧ u.parts = s.parts) ⟨rfl, rfl⟩ fun _ hu _ _ =>
    List.foldlRecOn (List.range 48) _ (motive := fun u : State => u.kettle = s.kettle ∧ u.parts = s.parts) hu fun _ hv _ _ => hv

theorem passCluster_owners (s : State) (l : List Byte) (missed : List FlipUnit) (c : Nat) :
    (s.passCluster l missed c).clusterOwner = s.ownersAfter l missed c :=
  List.foldlRecOn (List.range 48) _ (motive := fun u : State => u.clusterOwner = _) rfl fun _ h _ _ => h

theorem find_passCluster_self (s : State) (c : Nat) : Tbl.find (s.passCluster l missed c).clusterOwner c = s.ownerAfter l missed c := by
  rw [passCluster_owners, State.ownersAfter]
  cases s.ownerAfter l missed c with
  | none => exact Tbl.find_del_self _ _
  | some p => exact Tbl.find_put_self _ _ _

theorem find_passCluster_ne (s : State) {c d : Nat} (h : d ≠ c) :
    Tbl.find (s.passCluster l missed d).clusterOwner c = Tbl.find s.clusterOwner c := by
  rw [passCluster_owners, State.ownersAfter]
  cases s.ownerAfter l missed d with
  | none => exact Tbl.find_del_ne _ h.symm
  | some p => exact Tbl.find_put_ne _ _ h.symm

/-- What a flip leaves: the generation is in force, and where no unit missed it the clusters and the partitions are those of the layout. -/
theorem flip_spec (s : State) (g : Nat) : (s.flip g).kettle.activeGen = g ∧ (s.flip g).kettle.arms = none ∧ (s.flip g).kettle.layout = s.kettle.shadow
    ∧ (s.flip g).kettle.running = s.kettle.running
    ∧ (s.kettle.fenced = [] → (s.flip g).kettle.missed = [] →
      (∀ c, c < 8 → s.clusterChanges s.kettle.shadow c = true → Tbl.find (s.flip g).clusterOwner c = Layout.newOwner s.kettle.shadow c)
      ∧ ∀ p, p < 8 → Layout.changes s.kettle.shadow p = true →
        (Layout.owns s.kettle.shadow p = false → ((s.flip g).part p).present = false)
        ∧ (Layout.owns s.kettle.shadow p = true → Layout.Defines s.kettle.shadow p ((s.flip g).part p))) := by
  unfold State.flip
  extract_lets l failed missed s0 cs hs olds s1 s2 s3 s4 pools free s5
  have f1 : ServiceFrame s0 s1 := .foldl (fun u p => (flipPart_visit u l missed p).toServiceFrame) _ _
  have passed : s2 = cs.foldl (fun s c => s.passCluster l missed c) s1 := rfl
  obtain ⟨kettle, parts⟩ : s2.kettle = s1.kettle ∧ s2.parts = s1.parts := foldl_passCluster_same cs s1
  have f5 : WorkFrame s2 s5 := by
    have h3 : WorkFrame s2 s3 := (WorkFrame.refl s2).foldl fun _ _ h => h.frame
    have h4 : WorkFrame s2 s4 := h3.foldl fun _ _ h => .ite h.moveSaved h
    exact h4.flipPools
  have kept : s5.kettle.running = s.kettle.running := f5.running.trans ((congrArg (·.running) kettle).trans f1.running)
  refine ⟨rfl, rfl, rfl, kept, fun noFenced (noFailed : failed = []) => ?_⟩
  have noMissed : missed = [] := by
    unfold missed
    rw [noFailed, noFenced, List.nil_append]
  clear_value missed
  subst noMissed
  refine ⟨fun c hc changes => ?_, fun p hp changed => ?_⟩
  · have e : Tbl.find s2.clusterOwner c = Layout.newOwner l c := by
      rw [passed]
      exact foldl_reads_visit (r := fun t => Tbl.find t.clusterOwner c) (fun u d h => find_passCluster_ne u h) (fun u => find_passCluster_self u c)
        (List.mem_filter.2 ⟨List.mem_range.2 hc, changes⟩) s1
    exact (congrArg (Tbl.find · c) f5.owners).trans e
  · obtain ⟨v, -, -, visit⟩ := part_foldl_of_mem (fun u p => flipPart_visit u l [] p) List.nodup_range (List.mem_range.2 hp) s0
    have f := f5.parts p
    rw [show s2.part p = s1.part p from congrArg (Tbl.getD · p Part.reset) parts] at f
    have frame := visit.trans f
    refine ⟨fun none_ => ?_, fun owns => ?_⟩
    · exact frame.present.trans (flipPart_removes changed none_)
    · exact frame.defines (flipPart_defines changed owns rfl)

/-- LAYOUT_FLIP (R31): armed units flip at their tick where LAYOUT_GO names their generation, and disarm where it does not. -/
theorem execLayoutFlip_of_due {gen at_ : Nat} (armed : s.kettle.arms = some (gen, at_)) (due : at_ ≤ s.reft) (on : s.pkg.power = .on) :
    execLayoutFlip s = if s.dev.layoutGo != BitVec.ofNat 32 gen then .next { s with kettle := { s.kettle with arms := none } }
      else .next (if (s.flip gen).kettle.running then (s.flip gen).soonOnce .layoutCommit else s.flip gen) := by
  unfold execLayoutFlip
  rw [armed]
  exact if_neg (by simp [due, on])

theorem due_soonOnce_self (s : State) (i : Instr) : (s.soonOnce i).due i = true := by
  unfold State.soonOnce
  split
  · assumption
  · exact due_soon_self ..

theorem execLayoutFlip_flips {gen at_ : Nat} (armed : s.kettle.arms = some (gen, at_)) (due : at_ ≤ s.reft) (on : s.pkg.power = .on)
    (named : s.dev.layoutGo = BitVec.ofNat 32 gen) : ∃ t, execLayoutFlip s = .next t ∧ WorkFrame (s.flip gen) t
      ∧ (s.kettle.running = true → t.due .layoutCommit = true) := by
  rw [execLayoutFlip_of_due armed due on, if_neg (by simp [named])]
  obtain ⟨-, -, -, running, -⟩ := flip_spec s gen
  refine ⟨_, rfl, .ite (WorkFrame.refl _).soonOnce (.refl _), fun run => ?_⟩
  rw [if_pos (running.trans run)]
  exact due_soonOnce_self ..

/-! ## The commitment (R31, R32, R399) -/

theorem WorkFrame.fenceCore {c : Nat} (h : WorkFrame s t) : WorkFrame s (t.fenceCore c) := by
  unfold State.fenceCore
  extract_lets s1
  have h1 : WorkFrame s s1 := h.updCore
  exact h1.foldl fun _ _ h => h.killTeam

theorem WorkFrame.emptySlice {n : Nat} (h : WorkFrame s t) : WorkFrame s (t.emptySlice n) := by
  unfold State.emptySlice
  extract_lets s1
  have h1 : WorkFrame s s1 := h.foldl fun _ _ h => h.looked (l2Evict_lookedUp ..)
  exact h1.frame

/-- A unit that failed to flip joins those that stay out of service. -/
theorem fenceFlip_fenced (s : State) (x : FlipUnit) : (s.fenceFlip x).kettle.fenced = s.kettle.fenced ++ [x] := by
  unfold State.fenceFlip
  extract_lets s1 _ s2
  have fenced : s2.kettle.fenced = s.kettle.fenced ++ [x] := rfl
  clear_value s2
  rw [← fenced]
  cases x with
  | cluster c =>
    have h : WorkFrame s2 (s2.setHealth 0) := (WorkFrame.refl s2).frame
    have h' : WorkFrame s2 ((List.range 48).foldl (fun s i => s.fenceCore (c * 48 + i)) (s2.setHealth 0)) := h.foldl fun _ _ h => h.fenceCore
    dsimp only
    exact h'.fenced
  | port p => rfl
  | slice n => exact (WorkFrame.refl s2).emptySlice.fenced
  | sieve n => rfl
  | encryption => rfl

theorem foldl_fenceFlip_fenced (us : List FlipUnit) (s : State) : (us.foldl (fun s x => s.fenceFlip x) s).kettle.fenced = s.kettle.fenced ++ us := by
  induction us generalizing s with
  | nil => exact (List.append_nil _).symm
  | cons x us ih => rw [List.foldl_cons, ih, fenceFlip_fenced, List.append_assoc, List.singleton_append]

theorem execLayoutCommit_commits (run : s.kettle.running = true) (prepared : s.kettle.journal = .prepared) (past : s.kettle.jTick ≤ s.reft)
    (flipped : s.kettle.arms = none) : ∃ t, execLayoutCommit s = .next t ∧ t.kettle.journal = .committed ∧ t.kettle.lastOutcome = 0
      ∧ t.kettle.missed = [] ∧ t.kettle.fenced = s.kettle.fenced ++ s.kettle.missed ∧ (s.kettle.missed ≠ [] → fieldOf t.dev.health 9 9 = 1) := by
  unfold execLayoutCommit
  extract_lets k s1 s2
  rw [if_neg (by simp [k, run, prepared, past, flipped])]
  have fenced : s1.kettle.fenced = s.kettle.fenced ++ s.kettle.missed := foldl_fenceFlip_fenced _ _
  refine ⟨_, rfl, rfl, rfl, rfl, ?_, fun failed => ?_⟩
  · have e : s2.kettle = s1.kettle := by
      unfold s2
      split
      · rfl
      · exact State.setHealth_kettle s1 9
    exact (congrArg (·.fenced) e).trans fenced
  · have e : s2 = s1.setHealth 9 := if_neg (by simpa [k] using failed)
    have bit : fieldOf s2.dev.health 9 9 = 1 := by
      rw [e]
      exact fieldOf_setField_self _ 1 (by omega) (by omega)
    exact bit

/-! ## The stop of partitions (R399) -/

theorem stopPart_visit (s : State) (p : Nat) : PartVisit p s (s.stopPart p) := by
  unfold State.stopPart
  split
  · exact .refl p s
  · exact (PartVisit.updPart s p _).trans ((WorkFrame.refl _).pauseNodes.saveTeams.visit p)

theorem stopPart_stops (here : (s.part p).present = true) : ((s.stopPart p).part p).stopped = true := by
  unfold State.stopPart
  split
  · next h => simpa [here] using h
  · rw [((WorkFrame.refl _).pauseNodes.saveTeams.parts p).stopped, State.part_updPart_self]

/-- A visit to the partitions of a mask. -/
theorem PartVisit.mask {f : State → Nat → State} (hf : ∀ s p, PartVisit p s (f s p)) (m : Nat) (s : State) (p : Nat) :
    PartVisit p s (if bitOf m p then f s p else s) := by
  split
  · exact hf s p
  · exact .refl p s

/-- A visit to the partitions of a mask leaves each of them as its own visit does. -/
theorem part_foldl_mask {f : State → Nat → State} (hf : ∀ s p, PartVisit p s (f s p)) {m p : Nat} (hp : p < 8) (named : bitOf m p = true) (s : State) :
    ∃ u, PartFrame (s.part p) (u.part p)
      ∧ PartFrame ((f u p).part p) (((List.range 8).foldl (fun s p => if bitOf m p then f s p else s) s).part p) := by
  obtain ⟨u, -, before, after⟩ := part_foldl_of_mem (PartVisit.mask hf m) List.nodup_range (List.mem_range.2 hp) s
  rw [if_pos named] at after
  exact ⟨u, before, after⟩

theorem execPartitionStop_stops (c : s.commanded 6 = true) : ∃ t, execPartitionStop s = .next t ∧ t.due .partitionStopDone = true
    ∧ ∀ p, p < 8 → bitOf (Memory.get s.mbox.buf 0).toNat p = true → (s.part p).present = true → (t.part p).stopped = true := by
  rw [execPartitionStop, of_commanded c]
  refine ⟨_, rfl, due_soonOnce_self .., fun p hp named here => ?_⟩
  rw [((WorkFrame.refl _).soonOnce.parts p).stopped]
  obtain ⟨u, before, after⟩ := part_foldl_mask stopPart_visit hp named
    { s with kettle := { s.kettle with stopping := (Memory.get s.mbox.buf 0).toNat } }
  rw [after.stopped]
  exact stopPart_stops (before.present.trans here)

/-- Where every team is saved there is none to save. -/
theorem saveTeams_of_saved (saved : ∀ e ∈ s.teams, e.2.loc = .saved) (p : Nat) : s.saveTeams p = s := by
  refine List.foldlRecOn (s.clustersOf p) _ (motive := fun t => t = s) rfl fun t ht c _ => ?_
  subst ht
  split
  · rfl
  · rw [List.filter_eq_nil_iff.2 fun e he => by simp [saved e he]]
    rfl

theorem empty_of_saved (saved : ∀ e ∈ s.teams, e.2.loc = .saved) (claims : s.claims = []) (p : Nat) : s.empty p = true := by
  have unplaced : ∀ a b, (a, b) ∈ s.teams → ¬ b.loc = .saved → ¬ s.ownerOf (clusterOf b.core) = some p := fun a b h off => absurd (saved (a, b) h) off
  simpa [State.empty, claims] using unplaced

/-- The slice sequencer of a partition is idle. -/
def State.sliceIdle (s : State) (p : Nat) : State := (s.endYield p (((s.part p).slice.cur).getD 0)).updPart p (fun x => { x with slice := .reset })

theorem sliceIdle_visit (s : State) (p : Nat) : PartVisit p s (s.sliceIdle p) := by
  refine .trans ?_ (.updPart ..)
  unfold State.endYield
  extract_lets ts s1
  have h1 : WorkFrame s s1 := (WorkFrame.refl s).foldl fun _ _ h => h.updTeam.foldl fun _ _ h => .ite h.updWave h
  exact (h1.visit p).trans (.updPart ..)

theorem execPartitionStopDone_completes (c : s.commanded 6 = true) (saved : ∀ e ∈ s.teams, e.2.loc = .saved) (claims : s.claims = []) :
    ∃ t, execPartitionStopDone s = .next t ∧ t.mbox.status = 0
      ∧ ∀ p, p < 8 → bitOf s.kettle.stopping p = true → (s.part p).present = true → (t.part p).slice = .reset := by
  rw [execPartitionStopDone, of_commanded c]
  extract_lets ps s1 s2
  have none_ : s1 = s := List.foldlRecOn ps _ (motive := fun t => t = s) rfl fun t ht p _ => by
    rw [ht, saveTeams_of_saved saved]
  clear_value s1
  subst none_
  rw [if_neg (by simp [empty_of_saved saved claims])]
  refine ⟨_, rfl, by simp, fun p hp named here => ?_⟩
  rw [State.answer_part]
  have mem : p ∈ ps := List.mem_filter.2 ⟨List.mem_range.2 hp, by simp [named, here]⟩
  obtain ⟨u, -, -, after⟩ := part_foldl_of_mem sliceIdle_visit (List.nodup_range.filter _) mem s1
  refine after.slice.trans ?_
  rw [State.sliceIdle, State.part_updPart_self]

/-! ## The start of partitions (R399) -/

/-- The work of a stopped partition goes on once its registers say so. -/
theorem startPart_resumes (idle : ¬ (!(s.part p).present || !(s.part p).stopped) = true) :
    WorkFrame (s.updPart p (fun x => { x with stopped := false, slice := .reset })) (s.startPart p) := by
  rw [State.startPart, if_neg idle]
  extract_lets s1 s2
  have h2 : WorkFrame _ s2 := (WorkFrame.refl _).pauseNodes.frame
  exact h2.foldl fun _ _ h => h.kickQueue

theorem startPart_visit (s : State) (p : Nat) : PartVisit p s (s.startPart p) := by
  by_cases idle : (!(s.part p).present || !(s.part p).stopped) = true
  · rw [State.startPart, if_pos idle]
    exact .refl p s
  · exact (PartVisit.updPart s p _).trans ((startPart_resumes idle).visit p)

theorem startPart_starts (here : (s.part p).present = true) : ((s.startPart p).part p).stopped = false := by
  by_cases idle : (!(s.part p).present || !(s.part p).stopped) = true
  · rw [State.startPart, if_pos idle]
    simpa [here] using idle
  · rw [((startPart_resumes idle).parts p).stopped, State.part_updPart_self]

theorem execPartitionStart_absent (c : s.commanded 7 = true)
    (absent : ∃ p, p < 8 ∧ bitOf (Memory.get s.mbox.buf 0).toNat p = true ∧ (s.part p).present = false) :
    execPartitionStart s = .next (s.answer 5) := by
  rw [execPartitionStart, of_commanded c]
  exact if_pos (by simpa using absent)

theorem execPartitionStart_starts (c : s.commanded 7 = true)
    (here : ∀ p, p < 8 → bitOf (Memory.get s.mbox.buf 0).toNat p = true → (s.part p).present = true) : ∃ t, execPartitionStart s = .next t
      ∧ t.mbox.status = 0 ∧ ∀ p, p < 8 → bitOf (Memory.get s.mbox.buf 0).toNat p = true → (t.part p).stopped = false := by
  rw [execPartitionStart, of_commanded c]
  extract_lets m
  rw [if_neg (by simpa using here)]
  refine ⟨_, rfl, by simp, fun p hp named => ?_⟩
  obtain ⟨u, before, after⟩ := part_foldl_mask startPart_visit hp named s
  rw [State.answer_part, after.stopped]
  exact startPart_starts (before.present.trans (here p hp named))

/-- Settles O50: one lemma for each command and each tick. -/
theorem layoutChanges : Obligations.LayoutChanges := by
  intro s k image g m shut busy
  refine ⟨fun c => ⟨execLayoutSubmit_open c, execLayoutSubmit_running c, execLayoutSubmit_invalid c, execLayoutSubmit_journals c⟩,
    execLayoutLate_withdraws, fun gen at_ armed due on => ⟨fun other => ?_, fun named => ?_⟩, execLayoutCommit_commits, execPartitionStop_stops,
    execPartitionStopDone_completes, fun c => ⟨execPartitionStart_absent c, execPartitionStart_starts c⟩⟩
  · rw [show exec .layoutFlip s = execLayoutFlip s from rfl, execLayoutFlip_of_due armed due on]
    exact if_pos (by simpa using other)
  · obtain ⟨t, e, f, commit⟩ := execLayoutFlip_flips armed due on named
    obtain ⟨active, arms, layout, -, laid⟩ := flip_spec s gen
    refine ⟨t, e, (congrArg (·.activeGen) f.kettle).trans active, (congrArg (·.arms) f.kettle).trans arms,
      (congrArg (·.layout) f.kettle).trans layout, commit, fun fenced none_ => ?_⟩
    obtain ⟨owners, parts⟩ := laid fenced ((congrArg (·.missed) f.kettle).symm.trans none_)
    refine ⟨fun c hc changes => (congrArg (Tbl.find · c) f.owners).trans (owners c hc changes), fun p hp changed => ⟨fun gone => ?_, fun owns => ?_⟩⟩
    · exact (f.parts p).present.trans ((parts p hp changed).1 gone)
    · exact (f.parts p).defines ((parts p hp changed).2 owns)

end Sys2Proof.Machine
end

section
/-!
SUPPORT. The dead planes of the fabric (O54): the last live plane dies while it is marked as fenced out already.
-/

namespace Sys2Proof.Machine

/-- A chip in a domain whose one live plane is marked as fenced out, while PLANE_FENCED of DEV_HEALTH (R39) is 0. -/
def fencedWhileLive : State :=
  { State.reset with pkg := { State.reset.pkg with power := .on }, dev := { Dev.reset with fabId := 0x80000000, live := 1, fencedPlanes := 1 } }

/-- Only a plane that is not fenced out yet is noted as it is fenced out, so DEV_HEALTH stays as it is. -/
theorem reportDead_fencedWhileLive : fieldOf (fencedWhileLive.reportDead 0).dev.health 3 3 = 0 := by
  decide

/-- Refutes O54: where the last live plane dies, the statement asks for bit 3 of DEV_HEALTH in every state that has it to report. A plane that is
marked as fenced out is not fenced out again, so the bit stays as it was; in `fencedWhileLive` such a plane is live, and the bit is 0. The clause lacks
the premise that the bit is set while a plane is fenced out (R39). -/
theorem not_fabricQuiesce : ¬ Obligations.FabricQuiesce := by
  unfold Obligations.FabricQuiesce
  intro h
  obtain ⟨planes, -⟩ := h
  obtain ⟨-, -, -, -, -, -, -, -, dead, -⟩ := planes fencedWhileLive 0 0 0 0 0 [] [] (by decide)
  obtain ⟨last, -⟩ := dead (by decide)
  obtain ⟨-, -, -, noted⟩ := last (by decide)
  exact absurd (reportDead_fencedWhileLive.symm.trans noted) (by decide)

end Sys2Proof.Machine
end

section
/-!
SUPPORT. What a write at the home leaves (O53): the bytes that it writes read back and every other byte stays (R177), and beside HBM only the marks that a
write leaves change (`StoreFrame`).
-/

namespace Sys2Proof.Machine

/- Elaborated one after another: at one thread for each of so many short theorems, the stacks together would pass the memory limit. -/
set_option Elab.async false

variable {s t u : State}

/-! ## Bytes of HBM (R4, R40) -/

/-- An address that is taken out of the ranges of changed keys lies in none of them. -/
theorem find_unstale_self (l : List Stale) (a : Nat) : (State.unstale l a).find? (fun r => r.lo ≤ a && a < r.hi) = none := by
  rw [List.find?_eq_none]
  intro x hx
  obtain ⟨r, -, hr⟩ := List.mem_flatMap.1 hx
  split at hr
  · rcases List.mem_append.1 hr with hr | hr <;> split at hr <;> simp at hr <;> subst hr <;> simp
  · next out =>
    obtain rfl := List.mem_singleton.1 hr
    simpa using out

/-- What is left of one range, when an address is taken out of it, covers every other address that it covered. -/
theorem find_cut_ne (r : Stale) {a b : Nat} (ne : b ≠ a) :
    ((if r.lo ≤ a && a < r.hi then (if r.lo < a then [{ r with hi := a }] else []) ++ (if a + 1 < r.hi then [{ r with lo := a + 1 }] else [])
      else [r]).find? (fun r => r.lo ≤ b && b < r.hi)).map (·.draw) = if r.lo ≤ b ∧ b < r.hi then some r.draw else none := by
  have low : ((if r.lo < a then [{ r with hi := a }] else []).find? (fun r => r.lo ≤ b && b < r.hi)).map (·.draw)
      = if r.lo ≤ b ∧ b < a then some r.draw else none := by
    split <;> grind
  have high : ((if a + 1 < r.hi then [{ r with lo := a + 1 }] else []).find? (fun r => r.lo ≤ b && b < r.hi)).map (·.draw)
      = if a < b ∧ b < r.hi then some r.draw else none := by
    split <;> grind
  split
  · rw [List.find?_append, Option.map_or, low, high]
    grind
  · grind

/-- Taking out one address leaves every other in a range of the key that it had. -/
theorem find_unstale_ne (l : List Stale) {a b : Nat} (ne : b ≠ a) : ((State.unstale l a).find? (fun r => r.lo ≤ b && b < r.hi)).map (·.draw)
    = (l.find? (fun r => r.lo ≤ b && b < r.hi)).map (·.draw) := by
  induction l with
  | nil => rfl
  | cons r l ih =>
    rw [State.unstale, List.flatMap_cons, List.find?_append, Option.map_or, find_cut_ne r ne, ← State.unstale, ih]
    by_cases inside : r.lo ≤ b ∧ b < r.hi
    · rw [if_pos inside, List.find?_cons_of_pos (by simpa using inside)]
      rfl
    · rw [if_neg inside, List.find?_cons_of_neg (by simpa using inside)]
      rfl

@[simp] theorem byteAt_putByte_self (s : State) (a : Nat) (b : Byte) : (s.putByte a b).byteAt a = b := by
  have e : (s.putByte a b).staleAt a = none := find_unstale_self s.stale a
  rw [State.byteAt, e]
  exact Memory.get_put_self ..

theorem byteAt_eq (s : State) (a : Nat) : s.byteAt a = (((s.staleAt a).map (·.draw)).map fun d => Config.rekeyed d a).getD (Memory.get s.mem a) := by
  unfold State.byteAt
  cases s.staleAt a <;> rfl

theorem byteAt_putByte_ne (s : State) {a c : Nat} (b : Byte) (ne : c ≠ a) : (s.putByte a b).byteAt c = s.byteAt c := by
  rw [byteAt_eq, byteAt_eq, show (s.putByte a b).mem = Memory.put s.mem a b from rfl, Memory.get_put_ne _ _ ne]
  exact congrArg (fun o => (o.map fun d => Config.rekeyed d c).getD (Memory.get s.mem c)) (find_unstale_ne s.stale ne)

/-- A write of bytes leaves every byte outside its range alone. -/
theorem byteAt_putBytes_out (s : State) (a : Nat) (bs : List Byte) {c : Nat} (out : c < a ∨ a + bs.length ≤ c) :
    (s.putBytes a bs).byteAt c = s.byteAt c := by
  induction bs generalizing s a with
  | nil => rfl
  | cons b bs ih =>
    rw [List.length_cons] at out
    rw [State.putBytes, ih _ _ (by omega), byteAt_putByte_ne s b (by omega)]

/-- Bytes written read back. -/
theorem bytesAt_putBytes (s : State) (a : Nat) (bs : List Byte) : (s.putBytes a bs).bytesAt a bs.length = bs := by
  induction bs generalizing s a with
  | nil => rfl
  | cons b bs ih =>
    rw [State.putBytes, List.length_cons, State.bytesAt, byteAt_putBytes_out _ _ _ (.inl (Nat.lt_succ_self a)), byteAt_putByte_self, ih]

/-- The bytes of HBM are read from it and from the ranges of changed keys only. -/
theorem bytesAt_congr (mem : t.mem = s.mem) (stale : t.stale = s.stale) (a n : Nat) : t.bytesAt a n = s.bytesAt a n := by
  induction n generalizing a with
  | zero => rfl
  | succ n ih =>
    have e : t.byteAt a = s.byteAt a := by rw [byteAt_eq, byteAt_eq, State.staleAt, State.staleAt, mem, stale]
    rw [State.bytesAt, State.bytesAt, e, ih]

/-! ## Writes at the home (R177) -/

/-- Of two states, the second differs only in what a write at the home changes: HBM and what is known of it, the writes that crossed the bridge, the copies
that take the bytes, the waits on words that go on. Nothing leaves the agenda. -/
structure StoreFrame (s t : State) : Prop where
  frame : t = { s with mem := t.mem, stale := t.stale, poison := t.poison, kettle := t.kettle, sent := t.sent, applied := t.applied
                       peerWays := t.peerWays, agenda := t.agenda, fresh := t.fresh }
  agenda : ∀ e ∈ s.agenda, e ∈ t.agenda

/-- `StoreFrame` for an operation that does not write HBM. -/
structure WakeFrame (s t : State) : Prop extends StoreFrame s t where
  mem : t.mem = s.mem
  stale : t.stale = s.stale

theorem StoreFrame.refl (s : State) : StoreFrame s s := ⟨rfl, fun _ h => h⟩

theorem StoreFrame.trans (h : StoreFrame s t) (k : StoreFrame t u) : StoreFrame s u := by
  refine ⟨?_, fun e he => k.agenda e (h.agenda e he)⟩
  have e := k.frame
  rw [h.frame] at e
  exact e

theorem StoreFrame.outbox (f : StoreFrame s t) : t.outbox = s.outbox := congrArg (·.outbox) f.frame
theorem StoreFrame.fab (f : StoreFrame s t) : t.fab = s.fab := congrArg (·.fab) f.frame

theorem WakeFrame.refl (s : State) : WakeFrame s s := ⟨.refl s, rfl, rfl⟩

theorem WakeFrame.trans (h : WakeFrame s t) (k : WakeFrame t u) : WakeFrame s u :=
  ⟨h.toStoreFrame.trans k.toStoreFrame, k.mem.trans h.mem, k.stale.trans h.stale⟩

theorem WakeFrame.foldl {α : Type} {f : State → α → State} (hf : ∀ s a, WakeFrame s (f s a)) (l : List α) (s : State) : WakeFrame s (l.foldl f s) :=
  List.foldlRecOn l f (motive := WakeFrame s) (.refl s) fun t h a _ => h.trans (hf t a)

theorem WakeFrame.bytesAt (f : WakeFrame s t) (a n : Nat) : t.bytesAt a n = s.bytesAt a n := bytesAt_congr f.mem f.stale a n

theorem putBytes_stores (s : State) (a : Nat) (bs : List Byte) : StoreFrame s (s.putBytes a bs) := by
  induction bs generalizing s a with
  | nil => exact .refl s
  | cons b bs ih => exact StoreFrame.trans (t := s.putByte a b) ⟨rfl, fun _ h => h⟩ (ih ..)

theorem healLines_wakes (s : State) (a n : Nat) : WakeFrame s (s.healLines a n) := by
  unfold State.healLines
  extract_lets s1
  split <;> exact ⟨⟨rfl, fun _ h => h⟩, rfl, rfl⟩

theorem wake_wakes (s : State) (key : Nat) : WakeFrame s (s.wake key) := by
  refine .foldl (fun s e => ?_) _ s
  split
  · exact ⟨⟨rfl, fun _ h => (mem_insertBy ..).2 (.inr h)⟩, rfl, rfl⟩
  · exact .refl s

/-- Within HBM a write performed at the home is the write of its bytes, but for what goes on after it. -/
theorem storeHome_wakes {a : Nat} {bs : List Byte} (within : a + bs.length ≤ hbmEnd) : WakeFrame (s.putBytes a bs) (s.storeHome a bs) := by
  rw [State.storeHome, if_pos within]
  exact (healLines_wakes ..).trans (.foldl (fun s _ => wake_wakes s _) _ _)

theorem storeHome_stores (s : State) (a : Nat) (bs : List Byte) : StoreFrame s (s.storeHome a bs) := by
  by_cases within : a + bs.length ≤ hbmEnd
  · exact (putBytes_stores s a bs).trans (storeHome_wakes within).toStoreFrame
  · rw [State.storeHome, if_neg within]
    exact .refl s

theorem bytesAt_storeHome {a : Nat} {bs : List Byte} (within : a + bs.length ≤ hbmEnd) : (s.storeHome a bs).bytesAt a bs.length = bs := by
  rw [(storeHome_wakes within).bytesAt, bytesAt_putBytes]

theorem crossed_wakes (s : State) (die home : Nat) : WakeFrame s (s.crossed die home) := by
  unfold State.crossed
  split
  · exact .refl s
  · split <;> exact ⟨⟨rfl, fun _ h => h⟩, rfl, rfl⟩

/-- The copies that a request of another chip passes are those in the peer ways of its die. -/
theorem patchCopies_wakes (s : State) (r : FabReq) (a : Nat) (bs : List Byte) : WakeFrame s (s.patchCopies (State.fabAgent r) none a bs) :=
  ⟨⟨rfl, fun _ h => h⟩, rfl, rfl⟩

/-- A request of another chip writes for no launch and is not duplicated. -/
theorem writeHome_fabAgent (s : State) (r : FabReq) (a : Nat) (bs : List Byte) : s.writeHome (State.fabAgent r) false a bs
    = ((s.crossed (State.fabAgent r).die (homeDie a)).storeHome a bs).patchCopies (State.fabAgent r) none a bs := rfl

theorem writeHome_fabAgent_stores (s : State) (r : FabReq) (a : Nat) (bs : List Byte) : StoreFrame s (s.writeHome (State.fabAgent r) false a bs) :=
  ((crossed_wakes ..).toStoreFrame.trans (storeHome_stores ..)).trans (patchCopies_wakes ..).toStoreFrame

theorem bytesAt_writeHome_fabAgent (r : FabReq) {a : Nat} {bs : List Byte} (within : a + bs.length ≤ hbmEnd) :
    (s.writeHome (State.fabAgent r) false a bs).bytesAt a bs.length = bs := by
  rw [writeHome_fabAgent, (patchCopies_wakes ..).bytesAt, bytesAt_storeHome within]

end Sys2Proof.Machine
end

section
/-!
SUPPORT. What goes on where a lease has come (R57, O53): side-log entries are performed, jobs and teams go on, held requests leave. None of it changes the peer
translation caches, and no row leaves the agenda: `LeaseFrame`. There is one rule for each operation that a lease can set going, and its proof has the
shape of the operation.
-/

namespace Sys2Proof.Machine

/- Elaborated one after another: at one thread for each of so many short theorems, the stacks together would pass the memory limit. -/
set_option Elab.async false

variable {s t u : State}

/-- Of two states, the second has the same peer translations, and every row of the agenda that the first has. -/
structure LeaseFrame (s t : State) : Prop where
  ptc : t.fab.ptc = s.fab.ptc
  agenda : ∀ e ∈ s.agenda, e ∈ t.agenda

namespace LeaseFrame

theorem refl (s : State) : LeaseFrame s s := ⟨rfl, fun _ h => h⟩

theorem trans (h : LeaseFrame s t) (k : LeaseFrame t u) : LeaseFrame s u := ⟨k.ptc.trans h.ptc, fun e he => k.agenda e (h.agenda e he)⟩

theorem due (f : LeaseFrame s t) {i : Instr} (d : s.due i = true) : t.due i = true := by
  obtain ⟨n, hn⟩ := (due_iff i).1 d
  exact (due_iff i).2 ⟨n, f.agenda _ hn⟩

theorem ite {c : Prop} [Decidable c] {a b : State} (ha : LeaseFrame s a) (hb : LeaseFrame s b) : LeaseFrame s (if c then a else b) := by
  split <;> assumption

theorem foldl {α : Type} {f : State → α → State} {l : List α} (h : LeaseFrame s t) (hf : ∀ t a, LeaseFrame s t → LeaseFrame s (f t a)) :
    LeaseFrame s (l.foldl f t) :=
  List.foldlRecOn l f h fun t h a _ => hf t a h

/-- A change of anything but what the frame speaks of. -/
theorem frame (h : LeaseFrame s t) (ptc : u.fab.ptc = t.fab.ptc := by rfl) (agenda : u.agenda = t.agenda := by rfl) : LeaseFrame s u :=
  h.trans ⟨ptc, fun _ he => agenda ▸ he⟩

theorem store (h : LeaseFrame s t) (f : StoreFrame t u) : LeaseFrame s u := h.trans ⟨congrArg (·.ptc) f.fab, f.agenda⟩

theorem looked (h : LeaseFrame s t) (f : LookedUp t u) : LeaseFrame s u := h.frame (congrArg (·.fab.ptc) f.1) (congrArg (·.agenda) f.1)

/-! ## Rows of the agenda -/

theorem atTick {n : Nat} {i : Instr} (h : LeaseFrame s t) : LeaseFrame s (t.atTick n i) :=
  h.trans ⟨rfl, fun _ he => (mem_insertBy ..).2 (.inr he)⟩

theorem after {n : Nat} {i : Instr} (h : LeaseFrame s t) : LeaseFrame s (t.after n i) := h.atTick

theorem drawn (h : LeaseFrame s t) : LeaseFrame s t.drawn := h.frame

theorem soon {i : Instr} (h : LeaseFrame s t) : LeaseFrame s (t.soon i) := h.after.drawn

theorem soonOnce {i : Instr} (h : LeaseFrame s t) : LeaseFrame s (t.soonOnce i) := .ite h h.soon

theorem kick {j : Nat} (h : LeaseFrame s t) : LeaseFrame s (t.kick j) := by
  unfold State.kick
  split
  · exact h
  · split
    · exact h
    · exact .ite h h.soonOnce

theorem kickTeam {k : Nat} (h : LeaseFrame s t) : LeaseFrame s (t.kickTeam k) := by
  unfold State.kickTeam
  extract_lets s1
  have h1 : LeaseFrame s s1 := h.foldl fun _ _ h => .ite h.kick h
  split
  · exact h1
  · exact .ite h1 h1.soonOnce

/-! ## Parts of the state -/

theorem updWave {k : Nat} {f : Wave → Wave} (h : LeaseFrame s t) : LeaseFrame s (t.updWave k f) := h.frame
theorem updJob {k : Nat} {f : Job → Job} (h : LeaseFrame s t) : LeaseFrame s (t.updJob k f) := h.frame
theorem updCore {c : Nat} {f : Core → Core} (h : LeaseFrame s t) : LeaseFrame s (t.updCore c f) := h.frame
theorem updGrid {g : Nat} {f : Grid → Grid} (h : LeaseFrame s t) : LeaseFrame s (t.updGrid g f) := h.frame
theorem updPart {p : Nat} {f : Part → Part} (h : LeaseFrame s t) : LeaseFrame s (t.updPart p f) := h.frame
theorem updPool {p : Nat} {f : Pool → Pool} (h : LeaseFrame s t) : LeaseFrame s (t.updPool p f) := h.frame
theorem emit {o : Out} (h : LeaseFrame s t) : LeaseFrame s (t.emit o) := h.frame

theorem raiseIrq {fn : HostFn} {vec : Nat} (h : LeaseFrame s t) : LeaseFrame s (t.raiseIrq fn vec) := by
  refine .ite ?_ h.frame
  cases fn <;> exact h.frame

theorem comes {c : Nat} {p : Packet} {f : State → State} (h : LeaseFrame s t) (hf : ∀ t, LeaseFrame s t → LeaseFrame s (f t)) :
    LeaseFrame s (t.comes c p f) := .ite h.frame (hf _ h)

theorem pendCheck {wid id : Nat} (h : LeaseFrame s t) : LeaseFrame s (t.pendCheck wid id) := h.comes fun _ h => h.updWave

/-! ## Packets (R51, R62, R64) -/

theorem noteFlits {plane index n : Nat} (h : LeaseFrame s t) : LeaseFrame s (t.noteFlits plane index n) := .ite h.frame (.atTick h.frame)

theorem control {plane : Nat} {o : Out} (h : LeaseFrame s t) : LeaseFrame s (t.control plane o) := h.noteFlits.emit

theorem broadcast {o : Nat → Out} (h : LeaseFrame s t) : LeaseFrame s (t.broadcast o) := h.foldl fun _ _ h => h.control

/-- A request packet leaves: its flits are counted, and its plane is watched. -/
theorem packet {plane part : Nat} {cls : Cls} {n : Nat} {o : Out} (h : LeaseFrame s t) :
    LeaseFrame s (((t.countFlits plane part cls n).watch plane).emit o) := .emit (.ite h.noteFlits h.noteFlits.after)

theorem postWrite {ag : Agent} {chip : Nat} {page : Option Nat} {gen pa : Nat} {data : List Byte} {coll : Option CollMsg} {op : Option RmwOp}
    {wid : Option (Nat × Nat)} {job : Option Nat} {at_ : Origin} (h : LeaseFrame s t) :
    LeaseFrame s (t.postWrite ag chip page gen pa data coll op wid job at_) := by
  unfold State.postWrite
  extract_lets _ _ _ _ s1 _ s2
  have h1 : LeaseFrame s s1 := by
    unfold s1
    split
    · exact h.frame
    · exact .updCore h.frame
  have h2 : LeaseFrame s s2 := .ite (.after h1.frame) h1
  exact .ite h2 h2.packet

theorem requestLease {die p : Nat} {cls : Cls} {chip page : Nat} {right : Right} (h : LeaseFrame s t) :
    LeaseFrame s (t.requestLease die p cls chip page right) := .ite h (.ite (.packet h.frame) h.frame)

theorem renew {e : PtcEntry} {cls : Cls} {right : Right} (h : LeaseFrame s t) : LeaseFrame s (t.renew e cls right) := .ite h.requestLease h

theorem postRead {ag : Agent} {wid lane : Nat} {keep pre : Bool} {va : Nat} {e : PtcEntry} {pa : Nat} (h : LeaseFrame s t) :
    LeaseFrame s (t.postRead ag wid lane keep pre va e pa) := .ite h.frame (.packet h.frame)

theorem prfPeer {x : PrfReq} (h : LeaseFrame s t) : LeaseFrame s (t.prfPeer x) := by
  unfold State.prfPeer
  extract_lets _ s1
  have h1 : LeaseFrame s s1 := h.requestLease
  split
  · exact h
  · split
    · exact h1.frame
    · exact .ite h h.postRead.renew

theorem launchReq {x : Unacked ⊕ ReadReq} (h : LeaseFrame s t) : LeaseFrame s (t.launchReq x) := by
  cases x with
  | inl u => exact .packet h.frame
  | inr r => exact .packet h.frame

theorem pumpFrom {l : List (Unacked ⊕ ReadReq)} {full : List Nat} {stuck : List (Nat × Nat)} (h : LeaseFrame s t) :
    LeaseFrame s (t.pumpFrom l full stuck) := by
  induction l generalizing t full stuck with
  | nil => exact h
  | cons x l ih =>
    cases x with
    | inl u => exact .ite (ih h) (.ite (ih h) (ih h.launchReq))
    | inr r => exact .ite (ih h) (ih h.launchReq)

theorem pump (h : LeaseFrame s t) : LeaseFrame s t.pump := .ite h h.pumpFrom

theorem answerMaster {o : Nat → Out} {i : Instr} (h : LeaseFrame s t) : LeaseFrame s (t.answerMaster o i) := .ite h.soon h.broadcast

theorem stepDone (h : LeaseFrame s t) : LeaseFrame s t.stepDone :=
  .ite h (.ite (.answerMaster h.frame) (.ite (.answerMaster h.frame) h))

theorem stepAck {id : Nat} (h : LeaseFrame s t) : LeaseFrame s (t.stepAck id) := .ite (.stepDone h.frame) h

/-! ## Writes -/

theorem wake {key : Nat} (h : LeaseFrame s t) : LeaseFrame s (t.wake key) := h.store (wake_wakes t key).toStoreFrame

theorem storeHome {pa : Nat} {bs : List Byte} (h : LeaseFrame s t) : LeaseFrame s (t.storeHome pa bs) := h.store (storeHome_stores ..)

theorem duplicate {ag : Agent} {mirror : Bool} {pa : Nat} {bs : List Byte} (h : LeaseFrame s t) : LeaseFrame s (t.duplicate ag mirror pa bs) :=
  .ite (.ite (.after h.frame) h.postWrite) h

theorem duplicatePage {ag : Agent} {pa : Nat} (h : LeaseFrame s t) : LeaseFrame s (t.duplicatePage ag pa) := h.foldl fun _ _ h => h.duplicate

theorem snapshot {ag : Agent} {mirror : Bool} {pa : Nat} (h : LeaseFrame s t) : LeaseFrame s (t.snapshot ag mirror pa) := by
  unfold State.snapshot
  split
  · exact h
  · split
    · exact h
    · refine .ite h (.ite (.ite h.updGrid h) (.ite h (.ite h.updGrid ?_)))
      split
      · exact .ite (.duplicatePage h.frame) h.frame
      · exact h.updGrid

theorem noKeep {f : Nat → Nat → Nat → Bool} (h : LeaseFrame s t) : LeaseFrame s (t.noKeep f) := .ite h h.frame

theorem patchCopies {ag : Agent} {chip : Option Nat} {pa : Nat} {bs : List Byte} (h : LeaseFrame s t) :
    LeaseFrame s (t.patchCopies ag chip pa bs) := by
  unfold State.patchCopies
  extract_lets s1 s2
  have h1 : LeaseFrame s s1 := by
    unfold s1
    split
    · exact h
    · exact h.noKeep
  have h2 : LeaseFrame s s2 := by
    unfold s2
    split
    · exact h1
    · exact h1.updCore
  exact h2.frame

theorem writeHome {ag : Agent} {mirror : Bool} {pa : Nat} {bs : List Byte} (h : LeaseFrame s t) : LeaseFrame s (t.writeHome ag mirror pa bs) :=
  .duplicate (.patchCopies (.storeHome (h.snapshot.store (crossed_wakes ..).toStoreFrame)))

theorem stampLine {pa : Nat} {st : Nat × Nat} {rmw : Bool} (h : LeaseFrame s t) : LeaseFrame s (t.stampLine pa st rmw) := .ite h.frame h.frame

theorem readStamp {wid : Option Nat} {st : Nat × Nat} (h : LeaseFrame s t) : LeaseFrame s (t.readStamp wid st) := by
  unfold State.readStamp
  split
  · exact h
  · exact h.updWave

theorem raiseHwm {by_ : Option Nat} {c off n : Nat} (h : LeaseFrame s t) : LeaseFrame s (t.raiseHwm by_ c off n) := by
  unfold State.raiseHwm
  split
  · exact h
  · split
    · exact h
    · exact .ite h.frame h

theorem storeScratch {by_ : Option Nat} {c off : Nat} {bs : List Byte} (h : LeaseFrame s t) : LeaseFrame s (t.storeScratch by_ c off bs) :=
  .foldl h.raiseHwm.updCore fun _ _ h => h.wake

theorem storeAt {wid lane : Nat} {stamp : Option (Nat × Nat)} {g : Go} {bs : List Byte} (h : LeaseFrame s t) :
    LeaseFrame s (t.storeAt wid lane stamp g bs) := by
  unfold State.storeAt
  extract_lets
  split
  · extract_lets
    split
    · exact h.writeHome
    · exact h.writeHome.stampLine
  · exact .ite h.frame h.storeScratch
  · exact h.atTick
  · exact h.frame
  · exact h.postWrite.patchCopies.renew
  · exact h

theorem xaccAt {wid : Nat} {c : CellType} {x : Nat} {g : Go} (h : LeaseFrame s t) : LeaseFrame s (t.xaccAt wid c x g) := by
  unfold State.xaccAt
  split
  · extract_lets s1
    have h1 : LeaseFrame s s1 := h.readStamp.writeHome
    split
    · exact h1
    · exact h1.stampLine
  · exact h

/-! ## Teams that retire (R149) -/

theorem dropJob {j : Nat} (h : LeaseFrame s t) : LeaseFrame s (t.dropJob j) := by
  unfold State.dropJob
  split
  · exact h
  · next k _ =>
    have h1 : LeaseFrame s (t.unround k) := .ite h.updPart h
    exact h1.frame

theorem freed {c : Nat} (h : LeaseFrame s t) : LeaseFrame s (t.freed c) := .soonOnce (h.foldl fun _ _ h => .ite h.soonOnce h)

theorem lendLater {c : Nat} (h : LeaseFrame s t) : LeaseFrame s (t.lendLater c) := .ite h.soonOnce.soonOnce h

theorem lowerCarve {c : Nat} (h : LeaseFrame s t) : LeaseFrame s (t.lowerCarve c) := .ite h.frame h

theorem drainOf {g : Nat} (h : LeaseFrame s t) : LeaseFrame s (t.drainOf g) := by
  unfold State.drainOf
  split
  · exact h
  · exact .ite h.soonOnce h

theorem removeTeam {k : Nat} (h : LeaseFrame s t) : LeaseFrame s (t.removeTeam k) := by
  unfold State.removeTeam
  split
  · exact h
  · extract_lets s1 _ _ _ _ _ s2 s3 s4
    have h1 : LeaseFrame s s1 := h.foldl fun _ _ h => h.dropJob
    have h2 : LeaseFrame s s2 := h1.frame
    have h3 : LeaseFrame s s3 := by
      unfold s3
      split
      · exact h2.frame
      · exact h2
    have h4 : LeaseFrame s s4 := by
      unfold s4
      split
      · exact h3
      · exact .ite h3 h3.frame
    exact .ite h4 (.drainOf (.lendLater (.freed (.lowerCarve h4.frame))))

theorem noteThrottle {j : Nat} (h : LeaseFrame s t) : LeaseFrame s (t.noteThrottle j) := by
  unfold State.noteThrottle
  extract_lets now
  obtain ⟨ws, e⟩ := raiseThrottle_eq (t.updHob j fun k => { k with throttled := now }) j now
  rw [e]
  exact .ite h h.frame

theorem adoptOp {j cls : Nat} (h : LeaseFrame s t) : LeaseFrame s (t.adoptOp j cls) := by
  have h1 : LeaseFrame s ((t.updHob j fun k => { k with opStep := classStep cls (t.spent j) }).noteThrottle j) := .noteThrottle h.frame
  exact .after h1.frame

theorem boundary {c : Nat} (h : LeaseFrame s t) : LeaseFrame s (t.boundary c) :=
  .ite h.updPool (.ite h.updPool (.foldl h.updPool.updPool fun _ _ h => h.adoptOp))

theorem gridCheck {g : Nat} (h : LeaseFrame s t) : LeaseFrame s (t.gridCheck g) := by
  unfold State.gridCheck
  split
  · exact h
  · refine .ite ?_ h
    split <;> exact h.soonOnce

theorem checkTeam {k : Nat} (h : LeaseFrame s t) : LeaseFrame s (t.checkTeam k) := by
  unfold State.checkTeam
  split
  · exact h
  · exact .ite h.updGrid.removeTeam.boundary.gridCheck h

/-! ## The side log (R196, R199, R212) -/

theorem fqRecords {p : Nat} {rs : List FaultRec} (h : LeaseFrame s t) : LeaseFrame s (t.fqRecords p rs) := by
  unfold State.fqRecords
  extract_lets s1
  have h1 : LeaseFrame s s1 := h.foldl fun _ _ h => h.storeHome.updPart
  exact .ite h1 h1.raiseIrq

theorem entryFault {c : Nat} {e : SideEntry} {level : Nat} {chip : Option Nat} (h : LeaseFrame s t) :
    LeaseFrame s (t.entryFault c e level chip) := .ite h.fqRecords.drawn.updCore h.updCore

theorem refuseEntry {c : Nat} {e : SideEntry} (h : LeaseFrame s t) : LeaseFrame s (t.refuseEntry c e) := h.updCore.updWave

theorem keepTlb {c p : Nat} {cls : Cls} {asid va : Nat} (h : LeaseFrame s t) : LeaseFrame s (t.keepTlb c p cls asid va) := by
  unfold State.keepTlb
  extract_lets _ s1
  have h1 : LeaseFrame s s1 := .ite h (h.looked (walked_lookedUp ..))
  split
  · exact .ite h1 h1.frame
  · exact h1

theorem replayOp {wid : Nat} {go : Nat → Go} {o : LogOp} (h : LeaseFrame s t) : LeaseFrame s (t.replayOp wid go o) := by
  have touched {hint : Nat} {g : Go} : LeaseFrame s (t.replayTouch wid hint g) := by
    unfold State.replayTouch
    split
    · exact h.looked (l2Home_lookedUp ..)
    · exact h
  cases o with
  | store va bs st hint => exact touched.storeAt
  | xacc va c x => exact touched.xaccAt

theorem replayEntry {c : Nat} {e : SideEntry} (h : LeaseFrame s t) : LeaseFrame s (t.replayEntry c e) := by
  unfold State.replayEntry
  split
  · exact h.entryFault
  · exact h.requestLease.updCore
  · exact .ite h.updCore.pendCheck h.refuseEntry
  · refine .ite h (LeaseFrame.frame (t := List.foldl _ _ _) ?_)
    exact h.updCore.keepTlb.foldl fun _ _ h => h.replayOp

theorem sendMarkers {wid : Nat} (h : LeaseFrame s t) : LeaseFrame s (t.sendMarkers wid) := h.foldl fun _ _ h => h.foldl fun _ _ h => .packet h.frame

theorem releaseFabric {wid : Nat} {sc : Scope} {to_ : List (Nat × Nat)} (h : LeaseFrame s t) : LeaseFrame s (t.releaseFabric wid sc to_).2.2 := by
  unfold State.releaseFabric
  extract_lets
  split
  · exact h
  · split
    · exact h
    · split
      · split
        · exact h
        · split
          · exact h
          · exact h.sendMarkers
      · split
        · exact h.updCore
        · exact h

theorem releaseEntry {c : Nat} {e : SideEntry} {sc : Scope} (h : LeaseFrame s t) : LeaseFrame s (t.releaseEntry c e sc).2 := by
  unfold State.releaseEntry
  split
  · exact h
  · extract_lets s1
    have h1 : LeaseFrame s s1.2.2 := h.releaseFabric
    split <;> exact h1.updCore

theorem replayOne {c : Nat} {k : Nat × Nat × Nat} (h : LeaseFrame s t) : LeaseFrame s (t.replayOne c k) := by
  unfold State.replayOne
  split
  · exact h
  · split
    · exact .ite h h.replayEntry
    · extract_lets s1
      have h1 : LeaseFrame s s1.2 := h.releaseEntry
      split
      · exact h1.replayEntry
      · exact h1

theorem replayLog {c : Nat} {ks : List (Nat × Nat × Nat)} {held : List Nat} (h : LeaseFrame s t) : LeaseFrame s (t.replayLog c ks held) := by
  induction ks generalizing t held with
  | nil => exact h
  | cons k ks ih => exact .ite (ih h) (ih h.replayOne)

theorem drainLog {c : Nat} (h : LeaseFrame s t) : LeaseFrame s (t.drainLog c) := .ite h (h.replayLog.foldl fun _ _ h => h.kickTeam.checkTeam)

/-! ## Answers to a LEASE (R57, R60) -/

theorem entryAnswered {c chip : Nat} {why : LeaseAnswer} {e : SideEntry} (h : LeaseFrame s t) : LeaseFrame s (t.entryAnswered c chip why e) := by
  cases why with
  | granted => exact h.updCore
  | denied => exact h.refuseEntry
  | absent => exact h.updCore.entryFault

theorem leaseAt {c p chip page : Nat} {rs : List Right} {why : LeaseAnswer} (h : LeaseFrame s t) : LeaseFrame s (t.leaseAt c p chip page rs why) := by
  unfold State.leaseAt
  extract_lets _ s1 _ s2
  have h1 : LeaseFrame s s1 := h.foldl fun _ _ h => h.updWave
  have h2 : LeaseFrame s s2 := h1.foldl fun _ _ h => h.entryAnswered
  exact .ite h2 h2.drainLog

theorem leaseAnswer {die p chip page : Nat} {rs : List Right} {why : LeaseAnswer} (h : LeaseFrame s t) :
    LeaseFrame s (t.leaseAnswer die p chip page rs why) := h.foldl fun _ _ h => h.comes fun _ h => h.leaseAt

theorem leased {die p chip page : Nat} {rights : Rights} (h : LeaseFrame s t) : LeaseFrame s (t.leased die p chip page rights) := by
  unfold State.leased
  extract_lets _ s1 _ _ s2
  have h1 : LeaseFrame s s1 := .ite h (.foldl h.frame fun _ _ h => h.prfPeer)
  have h2 : LeaseFrame s s2 := .foldl h1.frame fun _ _ h => h.updJob.kick
  exact h2.leaseAnswer

theorem resendRejected {die part chip page pa gen : Nat} (h : LeaseFrame s t) : LeaseFrame s (t.resendRejected die part chip page pa gen) :=
  .pump h.frame

end LeaseFrame

end Sys2Proof.Machine
end

section
/-!
SUPPORT. The requests of other chips, leases and exports (O53): one lemma for each packet that comes and each way it can be answered. An answer that a quiesce
waited for changes nothing but the quiesce's step, the packets that go out and the agenda (`QuiesceFrame`).
-/

namespace Sys2Proof.Machine

/- Elaborated one after another: at one thread for each of so many short theorems, the stacks together would pass the memory limit. -/
set_option Elab.async false

variable {s t u : State}

/-! ## Packets that go out -/

/-- Of two states, the second differs only in what a quiesce that goes on changes: its step, what it waits for, the flits counted, the packets, the agenda. -/
structure QuiesceFrame (s t : State) : Prop where
  eq : t = { s with dev := { s.dev with qstate := t.dev.qstate }, fab := { s.fab with flits := t.fab.flits, waitAcks := t.fab.waitAcks }
                    outbox := t.outbox, agenda := t.agenda, fresh := t.fresh }

namespace QuiesceFrame

theorem refl (s : State) : QuiesceFrame s s := ⟨rfl⟩

theorem trans (h : QuiesceFrame s t) (k : QuiesceFrame t u) : QuiesceFrame s u := by
  have e := k.eq
  rw [h.eq] at e
  exact ⟨e⟩

theorem waves (f : QuiesceFrame s t) : t.waves = s.waves := congrArg (·.waves) f.eq
theorem reads (f : QuiesceFrame s t) : t.fab.reads = s.fab.reads := congrArg (·.fab.reads) f.eq
theorem ptc (f : QuiesceFrame s t) : t.fab.ptc = s.fab.ptc := congrArg (·.fab.ptc) f.eq
theorem recalled (f : QuiesceFrame s t) : t.fab.recalled = s.fab.recalled := congrArg (·.fab.recalled) f.eq

theorem ite {c : Prop} [Decidable c] {a b : State} (ha : QuiesceFrame s a) (hb : QuiesceFrame s b) : QuiesceFrame s (if c then a else b) := by
  split <;> assumption

theorem foldl {α : Type} {f : State → α → State} {l : List α} (h : QuiesceFrame s t) (hf : ∀ t a, QuiesceFrame s t → QuiesceFrame s (f t a)) :
    QuiesceFrame s (l.foldl f t) :=
  List.foldlRecOn l f h fun t h a _ => hf t a h

/-- A change that the frame allows. -/
theorem frame (h : QuiesceFrame s t) (k : QuiesceFrame t u := by exact ⟨rfl⟩) : QuiesceFrame s u := h.trans k

theorem noteFlits {plane index n : Nat} (h : QuiesceFrame s t) : QuiesceFrame s (t.noteFlits plane index n) := .ite h.frame h.frame

theorem emit {o : Out} (h : QuiesceFrame s t) : QuiesceFrame s (t.emit o) := h.frame

theorem answerMaster {o : Nat → Out} {i : Instr} (h : QuiesceFrame s t) : QuiesceFrame s (t.answerMaster o i) :=
  .ite h.frame (h.foldl fun _ _ h => h.noteFlits.emit)

theorem stepDone (h : QuiesceFrame s t) : QuiesceFrame s t.stepDone := .ite h (.ite (.answerMaster h.frame) (.ite (.answerMaster h.frame) h))

theorem stepAck {id : Nat} (h : QuiesceFrame s t) : QuiesceFrame s (t.stepAck id) := .ite (.stepDone h.frame) h

end QuiesceFrame

/-- Packets that go out one after another, of the states that only the outbox tells apart. -/
theorem foldl_outbox {α : Type} {f : State → α → State} {g : α → List Out} (hf : ∀ s a, f s a = { s with outbox := s.outbox ++ g a })
    (l : List α) (s : State) :
    l.foldl f s = { s with outbox := s.outbox ++ l.flatMap g } := by
  induction l generalizing s with
  | nil => simp
  | cons a l ih => rw [List.foldl_cons, hf, ih, List.flatMap_cons, List.append_assoc]

theorem foldl_emit (o : Nat → Out) (l : List Nat) (s : State) : l.foldl (fun s p => s.emit (o p)) s = { s with outbox := s.outbox ++ l.map o } := by
  rw [List.map_eq_flatMap]
  exact foldl_outbox (g := fun p => [o p]) (fun _ _ => rfl) l s

/-- Packets that go out to some chips, to each on some planes. -/
theorem foldl_foldl_emit (o : Nat → Nat → Out) (l k : List Nat) (s : State) : l.foldl (fun s c => k.foldl (fun s p => s.emit (o c p)) s) s
    = { s with outbox := s.outbox ++ l.flatMap (fun c => k.map (o c)) } := foldl_outbox (fun s c => foldl_emit (o c) k s) l s

@[simp] theorem countFlits_outbox (s : State) (plane part : Nat) (cls : Cls) (n : Nat) : (s.countFlits plane part cls n).outbox = s.outbox := by
  have same : ∀ i, (s.noteFlits plane i n).outbox = s.outbox := fun i => by
    unfold State.noteFlits
    extract_lets s1
    split <;> rfl
  exact same _

/-- Packets whose flits are counted as they go out. -/
theorem foldl_count_emit_outbox (part : Nat) (cls : Cls) (o : Nat → Out) (l : List Nat) (s : State) :
    (l.foldl (fun s p => (s.countFlits p part cls 1).emit (o p)) s).outbox = s.outbox ++ l.map o := by
  induction l generalizing s with
  | nil => simp
  | cons p l ih => rw [List.foldl_cons, ih, State.emit, countFlits_outbox, List.append_assoc, List.map_cons, List.singleton_append]

/-! ## READ (R51, R60, R246) -/

variable {r : FabReq} {len : Nat} {data : List Byte} {op : RmwOp}

theorem execFabricRead_of_may (joined : s.joined = true) (may : s.exportOk r .read = true) : execFabricRead r len s = .next
    ((s.l2Home (State.fabAgent r) r.pa 0 false).respond r (if s.poisoned r.pa len then .poisoned r.id else .data r.id (s.bytesAt r.pa len))) := by
  rw [execFabricRead, if_neg (by simp [joined]), if_neg (by simp [may])]

/-- A READ that is performed changes nothing but what its lookup in the L2 leaves, and is answered. -/
theorem execFabricRead_performs (joined : s.joined = true) (may : s.exportOk r .read = true) : ∃ t, execFabricRead r len s = .next t
    ∧ t.mem = s.mem ∧ t.waves = s.waves ∧ t.cores = s.cores ∧ t.fab = s.fab ∧ t.outbox = s.outbox ++ [.response r.src r.plane.val r.part r.cls
      (if s.poisoned r.pa len then .poisoned r.id else .data r.id (s.bytesAt r.pa len))] := by
  obtain ⟨f, -⟩ := l2Home_lookedUp s (State.fabAgent r) r.pa 0 false
  exact ⟨_, execFabricRead_of_may joined may, congrArg (·.mem) f, congrArg (·.waves) f, congrArg (·.cores) f, congrArg (·.fab) f,
    congrArg (fun x => x.outbox ++ _) f⟩

theorem execFabricRead_rejects (joined : s.joined = true) (may : ¬ s.exportOk r .read = true) :
    execFabricRead r len s = .next (s.respond r (.rejectedRead r.id)) := by
  rw [execFabricRead, if_neg (by simp [joined]), if_pos (by simpa using may)]

/-! ## WRITE and ATOMIC (R55, R60, R72) -/

/-- What a request of another chip that writes leaves: its bytes, its number in the window of its source, its answer. -/
def State.wrote (s : State) (r : FabReq) (bs : List Byte) (old : Option DWord) (x : FabResp) : State :=
  (((s.l2Home (State.fabAgent r) r.pa 0 true).writeHome (State.fabAgent r) false r.pa bs).noted r.src r.seq old).respond r x

theorem window_noted_recent (s : State) (src seq : Nat) (old : Option DWord) : ((s.noted src seq old).window src).recent
    = (seq :: (s.window src).recent).take 4096 := by
  simp only [State.noted, State.window, Tbl.getD_updD_self]

theorem window_noted_results (s : State) (src seq : Nat) (x : DWord) : ((s.noted src seq (some x)).window src).results
    = ((seq, x) :: (s.window src).results).take 64 := by
  simp only [State.noted, State.window, Tbl.getD_updD_self]

/-- A request of another chip that writes changes neither the fabric nor the ids and planes of this chip as it is performed. -/
theorem performed_frame (s : State) (r : FabReq) (bs : List Byte) :
    let t := (s.l2Home (State.fabAgent r) r.pa 0 true).writeHome (State.fabAgent r) false r.pa bs
    t.fab = s.fab ∧ t.dev = s.dev ∧ t.outbox = s.outbox := by
  obtain ⟨looked, -⟩ := l2Home_lookedUp s (State.fabAgent r) r.pa 0 true
  obtain ⟨f, -⟩ := writeHome_fabAgent_stores (s.l2Home (State.fabAgent r) r.pa 0 true) r r.pa bs
  exact ⟨(congrArg (·.fab) f).trans (congrArg (·.fab) looked), (congrArg (·.dev) f).trans (congrArg (·.dev) looked),
    (congrArg (·.outbox) f).trans (congrArg (·.outbox) looked)⟩

theorem wrote_outbox (s : State) (r : FabReq) (bs : List Byte) (old : Option DWord) (x : FabResp) :
    (s.wrote r bs old x).outbox = s.outbox ++ [.response r.src r.plane.val r.part r.cls x] := by
  obtain ⟨-, -, outbox⟩ := performed_frame s r bs
  exact congrArg (· ++ _) outbox

theorem wrote_window (s : State) (r : FabReq) (bs : List Byte) (old : Option DWord) (x : FabResp) :
    (s.wrote r bs old x).window r.src = (s.noted r.src r.seq old).window r.src := by
  obtain ⟨fab, -⟩ := performed_frame s r bs
  simp only [State.wrote, State.respond, State.emit, State.window, State.noted, fab]

theorem wrote_seen (s : State) (r : FabReq) (bs : List Byte) (old : Option DWord) (x : FabResp) :
    ((s.wrote r bs old x).window r.src).recent.contains r.seq = true := by
  rw [wrote_window, window_noted_recent]
  simp

theorem wrote_result (s : State) (r : FabReq) (bs : List Byte) (old : DWord) (x : FabResp) :
    ((s.wrote r bs (some old) x).window r.src).results.find? (fun e => e.1 == r.seq) = some (r.seq, old) := by
  rw [wrote_window, window_noted_results]
  simp

theorem wrote_bytes (s : State) (r : FabReq) {bs : List Byte} (old : Option DWord) (x : FabResp) (within : r.pa + bs.length ≤ hbmEnd) :
    (s.wrote r bs old x).bytesAt r.pa bs.length = bs :=
  (bytesAt_congr (t := s.wrote r bs old x) (s := (s.l2Home (State.fabAgent r) r.pa 0 true).writeHome (State.fabAgent r) false r.pa bs) rfl rfl ..).trans
    (bytesAt_writeHome_fabAgent r within)

theorem execFabricWrite_again (joined : s.joined = true) (seen : (s.window r.src).recent.contains r.seq = true) :
    execFabricWrite r data s = .next (s.respond r (.writeAck s.chipId r.seq)) := by
  rw [execFabricWrite, if_neg (by simp [joined]), if_pos seen]

theorem execFabricWrite_performs (joined : s.joined = true) (seen : ¬ (s.window r.src).recent.contains r.seq = true)
    (may : r.page = none ∨ s.exportOk r .write = true) : execFabricWrite r data s = .next (s.wrote r data none (.writeAck s.chipId r.seq)) := by
  rw [execFabricWrite, if_neg (by simp [joined]), if_neg seen, if_neg]
  · rfl
  · rcases may with none_ | ok
    · simp [none_]
    · simp [ok]

theorem execFabricWrite_rejects (joined : s.joined = true) (seen : ¬ (s.window r.src).recent.contains r.seq = true) (page : r.page ≠ none)
    (may : ¬ s.exportOk r .write = true) : execFabricWrite r data s = .next (s.respond r (.rejectedSeq s.chipId r.seq)) := by
  rw [execFabricWrite, if_neg (by simp [joined]), if_neg seen, if_pos]
  simpa [Option.isSome_iff_ne_none] using ⟨page, by simpa using may⟩

theorem execFabricAtomic_again (joined : s.joined = true) {x : Nat × DWord} (saved : (s.window r.src).results.find? (fun e => e.1 == r.seq) = some x) :
    execFabricAtomic r op s = .next (s.respond r (.atomicDone s.chipId r.seq x.2)) := by
  rw [execFabricAtomic, if_neg (by simp [joined]), saved]

theorem execFabricAtomic_first (joined : s.joined = true) (saved : (s.window r.src).results.find? (fun e => e.1 == r.seq) = none)
    (seen : ¬ (s.window r.src).recent.contains r.seq = true) {old : Nat} (value : old = s.natAt r.pa (rmwBytes op)) : execFabricAtomic r op s =
      if !s.exportOk r .atomic then .next (s.respond r (.rejectedSeq s.chipId r.seq))
      else if s.poisoned r.pa (rmwBytes op) then .next (s.respond r (.atomicPoisoned s.chipId r.seq))
      else .next (s.wrote r (natBytes (rmwBytes op) (rmwNew op old)) (some (BitVec.ofNat 64 old)) (.atomicDone s.chipId r.seq (BitVec.ofNat 64 old))) := by
  obtain ⟨-, dev, -⟩ := performed_frame s r (natBytes (rmwBytes op) (rmwNew op old))
  have chip := congrArg (fun d => fieldOf d.fabId 9 0) dev
  rw [execFabricAtomic, if_neg (by simp [joined]), saved]
  dsimp only
  rw [if_neg seen, ← value]
  simp only [State.chipId] at chip ⊢
  rw [State.wrote, State.noted, chip]

end Sys2Proof.Machine
end

section
/-!
SUPPORT. Leases, exports and answers (O53): one lemma for each packet that comes and each way it can be answered.
-/

namespace Sys2Proof.Machine

/- Elaborated one after another: at one thread for each of so many short theorems, the stacks together would pass the memory limit. -/
set_option Elab.async false

variable {s t u : State}

/-! ## LEASE (R57) -/

section
variable {src page id : Nat} {of_ : Charge} {right : Right} {e : Export}

theorem execLease_unknown (joined : s.joined = true) (unknown : Tbl.find s.fab.exports_ page = none) : execLease src of_ page right id s
    = .next (s.emit (.response src (s.livePlanes.headD 0) of_.part of_.cls (.leaseDenied id))) := by
  rw [execLease, if_neg (by simp [joined]), unknown]

theorem execLease_changing (joined : s.joined = true) (known : Tbl.find s.fab.exports_ page = some e) (changing : e.change.isSome = true) :
    execLease src of_ page right id s = .next (s.soon (.lease src of_ page right id)) := by
  rw [execLease, if_neg (by simp [joined]), known]
  exact if_pos changing

theorem execLease_denied (joined : s.joined = true) (known : Tbl.find s.fab.exports_ page = some e) (still : e.change = none)
    (denied : ¬ ((src, of_.part) ∈ e.entry.dests ∧ rightsAllow e.entry.rights right = true)) : execLease src of_ page right id s
    = .next (s.emit (.response src (s.livePlanes.headD 0) of_.part of_.cls (.leaseDenied id))) := by
  rw [execLease, if_neg (by simp [joined]), known]
  dsimp only
  rw [if_neg (by simp [still]), if_pos]
  rw [not_and_or] at denied
  simpa using denied

theorem execLease_allowed (joined : s.joined = true) (known : Tbl.find s.fab.exports_ page = some e) (still : e.change = none)
    (dest : (src, of_.part) ∈ e.entry.dests) (allowed : rightsAllow e.entry.rights right = true) :
    (e.entry.pa = none → execLease src of_ page right id s
      = .next (s.emit (.response src (s.livePlanes.headD 0) of_.part of_.cls (.notPresent id))))
    ∧ ∀ x, e.entry.pa = some x → ∃ t till, execLease src of_ page right id s = .next t ∧ s.reft ≤ till
      ∧ till ≤ s.reft + 1000000 * fieldOf s.dev.leaseMax 6 0
      ∧ t.outbox = s.outbox ++ [.leaseGrant src (s.livePlanes.headD 0) of_.part of_.cls page x e.entry.rights e.entry.gen till]
      ∧ ∃ f, Tbl.find t.fab.exports_ page = some f ∧ f.entry = e.entry ∧ (src, till, of_.part, of_.cls) ∈ f.holders := by
  have within : Config.delay s.fresh % (1000000 * fieldOf s.dev.leaseMax 6 0 + 1) < 1000000 * fieldOf s.dev.leaseMax 6 0 + 1 := Nat.mod_lt _ (by omega)
  rw [execLease, if_neg (by simp [joined]), known]
  dsimp only
  rw [if_neg (by simp [still]), if_neg (by simp [dest, allowed])]
  refine ⟨fun absent => by rw [absent], fun x present => ?_⟩
  rw [present]
  exact ⟨_, s.reft + Config.delay s.fresh % (1000000 * fieldOf s.dev.leaseMax 6 0 + 1), rfl, by omega, by omega, rfl, _, Tbl.find_put_self .., rfl,
    by simp⟩

end

/-! ## Changes of exports (R59) -/

section
variable {page chip gen : Nat} {entry : ExportEntry} {e : Export} {c : ExportEntry} {plane : Fin 8}

theorem execExportChange_unknown (unknown : Tbl.find s.fab.exports_ page = none) : execExportChange page entry s = .next (s.exported page entry) := by
  rw [execExportChange, unknown]

theorem execExportChange_free (known : Tbl.find s.fab.exports_ page = some e) (still : e.change = none)
    (free : e.holders.filter (fun h => s.reft < h.2.1) = []) : execExportChange page entry s = .next (s.exported page entry) := by
  rw [execExportChange, known]
  dsimp only
  rw [if_neg (by simp [still]), if_pos (by rw [free]; rfl)]

theorem execExportChange_noPlane (known : Tbl.find s.fab.exports_ page = some e) (still : e.change = none)
    (held : e.holders.filter (fun h => s.reft < h.2.1) ≠ []) (dark : s.livePlanes = []) :
    execExportChange page entry s = .next (s.exported page { entry with gen := (e.entry.gen + 1) % 65536 }) := by
  rw [execExportChange, known]
  dsimp only
  rw [if_neg (by simp [still]), if_neg (by simpa using held), if_pos (by simp [dark])]

theorem execExportChange_recalls (joined : s.joined = true) (known : Tbl.find s.fab.exports_ page = some e) (still : e.change = none)
    (held : e.holders.filter (fun h => s.reft < h.2.1) ≠ []) (lit : s.livePlanes ≠ []) :
    ∃ t f, execExportChange page entry s = .next t ∧ Tbl.find t.fab.exports_ page = some f
      ∧ f.entry = { e.entry with gen := (e.entry.gen + 1) % 65536 } ∧ f.change = some { entry with gen := (e.entry.gen + 1) % 65536 }
      ∧ t.due (.exportChangeTimeout page) = true
      ∧ ∀ h ∈ e.holders.filter (fun h => s.reft < h.2.1), ∀ p ∈ s.livePlanes,
        (h.1, p) ∈ f.missing ∧ ∃ q k, Out.recall h.1 p q k page ((e.entry.gen + 1) % 65536) ∈ t.outbox := by
  rw [execExportChange, known]
  dsimp only
  rw [if_neg (by simp [still]), if_neg (by simpa using held), if_neg (by simp [joined, lit])]
  rw [foldl_foldl_emit]
  refine ⟨_, _, rfl, Tbl.find_put_self .., rfl, rfl, due_atTick_self .., fun h holds p live => ⟨?_, ?_⟩⟩
  · simp only [List.mem_flatMap, mem_dedup, List.mem_map]
    exact ⟨h.1, ⟨h, holds, rfl⟩, p, live, rfl⟩
  · refine ⟨_, _, List.mem_append_right _ (List.mem_flatMap.2 ⟨h.1, ?_, List.mem_map.2 ⟨p, live, rfl⟩⟩)⟩
    exact (mem_dedup ..).2 (List.mem_map.2 ⟨h, holds, rfl⟩)

theorem execExportChangeTimeout_over (known : Tbl.find s.fab.exports_ page = some e) (changing : e.change = some c)
    (ended : ∀ h ∈ e.holders, h.2.1 + 64 < s.reft) : execExportChangeTimeout page s = .next (s.exported page c) := by
  unfold execExportChangeTimeout
  rw [known]
  dsimp only
  rw [changing]
  dsimp only
  rw [if_neg]
  simpa using ended

theorem execRecallAck_other (known : Tbl.find s.fab.exports_ page = some e) (changing : e.change = some c) (other : gen ≠ c.gen) :
    execRecallAck ⟨chip, gen⟩ page plane s = .next s := by
  rw [execRecallAck, known]
  dsimp only
  rw [if_neg (by simpa [changing] using other.symm)]

theorem execRecallAck_counts (known : Tbl.find s.fab.exports_ page = some e) (changing : e.change = some c) {left : List (Nat × Nat)}
    (others : left = e.missing.filter (fun x => x ≠ (chip, plane.val) ∧ s.dev.live.getLsbD x.2 = true)) : execRecallAck ⟨chip, c.gen⟩ page plane s
    = .next (if left = [] then s.exported page c
      else { s with fab := { s.fab with exports_ := Tbl.put s.fab.exports_ page { e with missing := left } } }) := by
  have same : e.missing.filter (fun x => some x != some (chip, plane.val) && s.dev.live.getLsbD x.2) = left := by
    rw [others]
    refine List.filter_congr fun x _ => ?_
    rw [Bool.eq_iff_iff]
    simp
  rw [execRecallAck, known]
  dsimp only
  rw [changing, if_pos (by simp), State.recount, changing]
  dsimp only
  rw [same]
  simp only [List.isEmpty_iff]

end

/-! ## The peer translation caches (R57 to R59) -/

/-- The page has a translation, and its expiry is on the agenda, whatever the grant sets going. -/
theorem execLeaseGrant_fills (joined : s.joined = true) (die : Fin 2) (part chip page pa : Nat) (rights : Rights) (gen expiry : Nat) :
    let asked := s.fab.leases.filter (fun l => l.die == die.val && l.part == part && l.chip == chip && l.page == page && rightsAllow rights l.right)
    ∃ t, execLeaseGrant die part chip page pa rights gen expiry s = .next t
      ∧ PtcEntry.mk die.val part ((asked.head?.map (fun l => l.cls)).getD .h) chip page pa rights gen expiry ∈ t.fab.ptc
      ∧ t.due (.leaseExpiry die part chip page) = true := by
  intro asked
  rw [execLeaseGrant, if_neg (by simp [joined])]
  extract_lets _ _ _ _ _ s1 s2
  refine ⟨_, rfl, ?_⟩
  have due : (s1.drawn.atTick (expiry - 64) (.leaseExpiry die part chip page)).due (.leaseExpiry die part chip page) = true := due_atTick_self ..
  have f : LeaseFrame (s1.drawn.atTick (expiry - 64) (.leaseExpiry die part chip page))
      (asked.foldl (fun s l => s.stepAck l.id) (s2.resendRejected die.val part chip page pa gen)) :=
    (LeaseFrame.refl _).leased.resendRejected.foldl fun _ _ h => h.stepAck
  refine ⟨?_, f.due due⟩
  rw [f.ptc]
  exact List.mem_append_right _ (.head _)

theorem execRecall_again {m : RecallMsg} {page : Nat} (seen : s.recallSeen m page = true) : execRecall m page s = .next s :=
  if_pos (by simp [seen])

theorem execRecall_follows {chip gen page : Nat} (joined : s.joined = true) (first : s.recallSeen ⟨chip, gen⟩ page = false) :
    ∃ t q k, execRecall ⟨chip, gen⟩ page s = .next t
      ∧ (∀ e, e ∈ t.fab.ptc ↔ e ∈ s.fab.ptc ∧ ¬ (e.chip = chip ∧ e.page = page ∧ e.gen ≠ gen)) ∧ t.recallSeen ⟨chip, gen⟩ page = true
      ∧ t.outbox = s.outbox ++ s.livePlanes.map (fun p => .recallAck chip p q k page gen) := by
  rw [execRecall, if_neg (by simp [joined, first])]
  extract_lets of_ _ s1
  have f : QuiesceFrame s1 (s1.livePlanes.foldl (fun s p => (s.countFlits p of_.1 of_.2 1).emit (.recallAck chip p of_.1 of_.2 page gen)) s1) :=
    (QuiesceFrame.refl s1).foldl fun _ _ h => h.noteFlits.emit
  refine ⟨_, of_.1, of_.2, rfl, fun e => ?_, ?_, foldl_count_emit_outbox ..⟩
  · rw [f.ptc, List.mem_filter]
    refine and_congr_right fun _ => ?_
    simp only [Bool.not_eq_true', ← Bool.not_eq_true, Bool.and_eq_true, beq_iff_eq, bne_iff_ne, ne_eq, and_assoc]
  · rw [State.recallSeen, f.recalled]
    have zero : (gen + 65536 - gen % 65536) % 65536 < 32768 := by omega
    simp [s1, zero]

/-! ## RESPONSE (R15, R52) -/

theorem execResponse_asleep {x : FabResp} {c : Nat} (joined : s.joined = true) (core : s.respCore x = some c) (asleep : s.asleep c = true) :
    execResponse x s = .next (s.toFifo c (.response x)) := by
  rw [execResponse, if_neg (by simp [joined]), core]
  exact congrArg _ (if_pos asleep)

theorem execResponse_awake {x : FabResp} (joined : s.joined = true) (awake : ∀ c, s.respCore x = some c → s.asleep c = false) :
    execResponse x s = .next (s.answered x) := by
  rw [execResponse, if_neg (by simp [joined])]
  split
  · rfl
  · next c core => rw [if_neg (by simp [awake c core])]

/-! ## The data of a READ (R175, R204) -/

theorem Pend.unask_unask {q : Option Nat × Nat} {note : Pend → Pend} (keeps : ∀ p, (note p).reqs = p.reqs) (p : Pend) :
    (p.unask q note).unask q note = p.unask q note := by
  by_cases asks : p.reqs.contains q = true
  · rw [Pend.unask, Pend.unask, if_pos asks, if_neg]
    simp [keeps]
  · rw [Pend.unask, Pend.unask, if_neg asks, if_neg asks]

/-- A change that is done to some waves, each once or more often, where once is as good as twice. -/
theorem find_foldl_updWave {f : Wave → Wave} (idem : ∀ x, f (f x) = f x) (l : List Nat) (w : Nat) (s : State) :
    Tbl.find (l.foldl (fun s x => s.updWave x f) s).waves w = if w ∈ l then (Tbl.find s.waves w).map f else Tbl.find s.waves w := by
  induction l generalizing s with
  | nil => rfl
  | cons x l ih =>
    rw [List.foldl_cons, ih]
    by_cases same : w = x
    · subst same
      rw [State.updWave_find_self, Option.map_map, show f ∘ f = f from funext idem]
      simp
    · rw [State.updWave_find_ne s f same]
      simp [same]

theorem Tbl.mem_of_find_self {α : Type} {t : Tbl α} {k : Nat} {v : α} (here : Tbl.find t k = some v) : (k, v) ∈ t := by
  induction t with
  | nil => cases here
  | cons e t ih =>
    obtain ⟨j, x⟩ := e
    rw [Tbl.find] at here
    split at here
    · next same =>
      cases here
      exact same ▸ .head _
    · exact .tail _ (ih here)

theorem Tbl.find_map_entries {α : Type} {f : Nat × α → Nat × α} (keys : ∀ e, (f e).1 = e.1) (t : Tbl α) (k : Nat) :
    Tbl.find (t.map f) k = (Tbl.find t k).map (fun x => (f (k, x)).2) := by
  induction t with
  | nil => rfl
  | cons e t ih =>
    obtain ⟨j, x⟩ := e
    rw [List.map_cons, show f (j, x) = (j, (f (j, x)).2) from Prod.ext (keys _) rfl, Tbl.find, ih]
    by_cases same : j = k
    · subst same
      simp [Tbl.find]
    · simp [Tbl.find, same]

/-- What an access holds of a line that has come again: it is not kept as a copy any more. -/
def Pend.outdated (chip line : Nat) (p : Pend) : Pend :=
  { p with lines := p.lines.map (fun l => if l.chip == chip && l.line == line then { l with keep := false } else l) }

theorem outdate_find {w : Nat} {x : Wave} (here : Tbl.find s.waves w = some x) (chip line : Nat) :
    Tbl.find (s.outdate (dieOf (s.coreOf w)) chip line).waves w = some (x.mapPends (Pend.outdated chip line)) := by
  rw [State.outdate, Tbl.find_map_entries (fun e => by split <;> rfl), here]
  simp only [Option.map_some, bne_self_eq_false, Bool.false_eq_true, if_false]
  rfl

theorem outdate_coreOf (s : State) (die chip line w : Nat) : (s.outdate die chip line).coreOf w = s.coreOf w := by
  rw [State.coreOf, State.outdate, Tbl.find_map_entries (fun e => by split <;> rfl), State.coreOf]
  cases Tbl.find s.waves w with
  | none => rfl
  | some x =>
    dsimp only [Option.map_some]
    split <;> rfl

/-- The data of a READ reach the access that asked for it. -/
def Pend.receives (id : Nat) (g : Got) (p : Pend) : Pend := p.unask (Option.none, id) (fun p => { p with lines := p.lines ++ [g] })

theorem Pend.receives_receives (id : Nat) (g : Got) (p : Pend) : (p.receives id g).receives id g = p.receives id g :=
  Pend.unask_unask (note := fun p => { p with lines := p.lines ++ [g] }) (fun _ => rfl) p

theorem Pend.receives_of_asks {id : Nat} {p : Pend} (asks : (Option.none, id) ∈ p.reqs) (g : Got) :
    p.receives id g = { p with reqs := p.reqs.filter (fun z => z ≠ (Option.none, id)), lines := p.lines ++ [g] } := by
  rw [Pend.receives, Pend.unask, if_pos (List.contains_iff_mem.2 asks)]
  simp only [ne_eq, decide_not, bne, beq_eq_decide]

theorem Pend.outdated_eq (chip line : Nat) (p : Pend) : p.outdated chip line
    = { p with lines := p.lines.map (fun l => if l.chip = chip ∧ l.line = line then { l with keep := false } else l) } := by
  simp only [Pend.outdated, Bool.and_eq_true, beq_iff_eq]

/-- A line of another chip as it comes with the data of a READ. -/
def ReadReq.got (r : ReadReq) (bs : List Byte) : Got := ⟨r.chip, r.pa / 128, bs, r.keep, false⟩

/-- A wave that waits for a READ receives its data once; what it holds of the line is not kept as a copy. -/
theorem dataToWave_find {r : ReadReq} {bs : List Byte} {w : Nat} {x : Wave} (fetch : r.pre = false) (here : Tbl.find s.waves w = some x)
    (asks : (none, r.id) ∈ x.pend.reqs) : Tbl.find (s.dataToWave r bs w).waves w
      = some ((x.mapPends (Pend.outdated r.chip (r.pa / 128))).mapPends (Pend.receives r.id (r.got bs))) := by
  have stays (t : State) : t.keepPre w r bs = t := if_pos (by simp [fetch])
  have idem (y : Wave) : (y.mapPends (Pend.receives r.id (r.got bs))).mapPends
      (Pend.receives r.id (r.got bs)) = y.mapPends (Pend.receives r.id (r.got bs)) := by
    simp only [Wave.mapPends, List.map_map, Function.comp_def, Pend.receives_receives]
  rw [State.dataToWave, stays, State.answerReaders]
  refine (find_foldl_updWave idem _ w _).trans ?_
  have found := outdate_find here r.chip (r.pa / 128)
  rw [if_pos, found]
  · rfl
  · refine List.mem_map.2 ⟨_, List.mem_filter.2 ⟨Tbl.mem_of_find_self found, ?_⟩, rfl⟩
    simp only [outdate_coreOf, beq_self_eq_true, Bool.true_and, List.any_cons, Bool.or_eq_true]
    exact .inl (List.contains_iff_mem.2 asks)

/-- A READ that is answered is forgotten; its data go to the wave that asked. -/
theorem gotData_wave {id : Nat} {r : ReadReq} {bs : List Byte} {w l : Nat} (known : s.fab.reads.find? (fun q => q.id == id) = some r)
    (wave : r.wid = some (w, l)) (noJob : r.job = none) : s.gotData id bs
      = ({ s with fab := { s.fab with reads := s.fab.reads.filter (fun x => x.id != id) } }.dataToWave r bs w).stepAck id := by
  rw [State.gotData, known]
  dsimp only
  rw [wave, noJob]

theorem dataToWave_reads {r : ReadReq} {bs : List Byte} {w : Nat} (fetch : r.pre = false) : (s.dataToWave r bs w).fab.reads = s.fab.reads := by
  rw [State.dataToWave, State.keepPre, if_pos (by simp [fetch])]
  exact List.foldlRecOn (motive := fun t : State => t.fab.reads = s.fab.reads) _ _ rfl fun _ h _ _ => h

theorem respCore_data {id : Nat} {r : ReadReq} {bs : List Byte} {w l c : Nat} (known : s.fab.reads.find? (fun q => q.id == id) = some r)
    (wave : r.wid = some (w, l)) (core : s.respCore (.data id bs) = some c) : c = s.coreOf w := by
  rw [State.respCore, known, Option.map_some, State.coreOfRead, wave] at core
  exact (Option.filter_eq_some_iff.1 core).1 |> Option.some.inj |>.symm

/-- The data of a READ reach the wave that asked for it, where its core does not relock. -/
theorem execResponse_data {id : Nat} {r : ReadReq} {bs : List Byte} {w l : Nat} {x : Wave} (joined : s.joined = true)
    (known : s.fab.reads.find? (fun q => q.id == id) = some r) (wave : r.wid = some (w, l)) (noJob : r.job = none) (fetch : r.pre = false)
    (here : Tbl.find s.waves w = some x) (awake : s.asleep (s.coreOf w) = false) (asks : (none, id) ∈ x.pend.reqs) :
    ∃ t y, execResponse (.data id bs) s = .next t ∧ (∀ z ∈ t.fab.reads, z.id ≠ id) ∧ Tbl.find t.waves w = some y
      ∧ y = { x with pend := y.pend, pends := y.pends }
      ∧ y.pend = { x.pend with reqs := x.pend.reqs.filter (fun z => z ≠ (none, id)), lines := y.pend.lines }
      ∧ y.pend.lines = x.pend.lines.map (fun g => if g.chip = r.chip ∧ g.line = r.pa / 128 then { g with keep := false } else g)
          ++ [r.got bs] := by
  obtain rfl : r.id = id := by simpa using List.find?_some known
  have f := (QuiesceFrame.refl ({ s with fab := { s.fab with reads := s.fab.reads.filter (fun x => x.id != r.id) } }.dataToWave r bs w)).stepAck (id := r.id)
  have pend := Pend.receives_of_asks (p := x.pend.outdated r.chip (r.pa / 128)) asks (r.got bs)
  rw [Pend.outdated_eq] at pend
  refine ⟨_, (x.mapPends (Pend.outdated r.chip (r.pa / 128))).mapPends (Pend.receives r.id (r.got bs)),
    execResponse_awake joined fun c core => ?_, ?_, ?_, rfl, ?_, ?_⟩
  · rw [respCore_data known wave core, awake]
  · rw [State.answered, gotData_wave known wave noJob, f.reads, dataToWave_reads fetch]
    simp
  · rw [State.answered, gotData_wave known wave noJob, f.waves]
    exact dataToWave_find fetch here asks
  · simp only [Wave.mapPends, Pend.outdated_eq, pend]
  · simp only [Wave.mapPends, Pend.outdated_eq, pend]

/-! ## The acknowledgement of a WRITE (R55, R73) -/

theorem relog_of_empty (empty : ∀ c ∈ s.cores, c.2.sideLog = []) : s.relog = s := by
  have none_ : ∀ l : List (Nat × Core), (∀ c ∈ l, c.2.sideLog = []) →
      l.foldl (fun s e => if e.2.sideLog.isEmpty then s else s.drainLog e.1) s = s := by
    intro l
    induction l with
    | nil => intro _; rfl
    | cons c l ih =>
      intro h
      rw [List.foldl_cons, if_pos (by simp [h c (.head _)])]
      exact ih fun d hd => h d (.tail _ hd)
  exact none_ s.cores empty

theorem pump_of_none (writes : s.fab.unacked = []) (reads : s.fab.reads = []) : s.pump = s := by
  unfold State.pump
  split
  · rfl
  · rw [writes, reads]
    rfl

/-- Where nothing is held, waits or is logged, nothing goes on. -/
theorem quiet_settles {id : Nat} (writes : s.fab.unacked = []) (reads : s.fab.reads = []) (acks : s.fab.waitAcks = [])
    (logs : ∀ c ∈ s.cores, c.2.sideLog = []) : (s.stepAck id).pump.relog = s := by
  rw [State.stepAck, if_neg (by simp [acks]), pump_of_none writes reads, relog_of_empty logs]

/-- The last request of the chip is acknowledged: nothing else was waiting. -/
theorem acked_last {u : Unacked} (only : s.fab.unacked = [u]) (held : u.held = false) (rejected : u.rejected = false) (noJob : u.job = none)
    (reads : s.fab.reads = []) (acks : s.fab.waitAcks = []) (logs : ∀ c ∈ s.cores, c.2.sideLog = []) : s.acked u.chip u.seq
      = { s with fab := { s.fab with
          unacked := []
          mirrorWait := s.fab.mirrorWait.filter (fun m => ¬ (m.1 = u.part ∧ m.2.1 = u.chip ∧ m.2.2.1 = u.seq)) } } := by
  have found : s.sentSeq u.chip u.seq = some u := by simp [State.sentSeq, only, held, rejected]
  have wait : s.fab.mirrorWait.filter (fun m => !(m.1 == u.part && m.2.1 == u.chip && m.2.2.1 == u.seq))
      = s.fab.mirrorWait.filter (fun m => ¬ (m.1 = u.part ∧ m.2.1 = u.chip ∧ m.2.2.1 = u.seq)) := by
    refine List.filter_congr fun m _ => ?_
    rw [Bool.eq_iff_iff]
    simp [or_assoc]
  have gone : [u].filter (fun x => x.ord != u.ord) = [] := by simp
  rw [State.acked, found]
  dsimp only
  rw [noJob, only, gone, wait]
  exact quiet_settles rfl reads acks logs

/-! ## The obligation -/

theorem length_natBytes (n x : Nat) : (natBytes n x).length = n := by
  induction n generalizing x with
  | zero => rfl
  | succ n ih => rw [natBytes, List.length_cons, ih]

/-- Settles O53: one lemma for each packet that comes and each way it can be answered. -/
theorem fabricRequests : Obligations.FabricRequests := by
  intro s r len src part chip page id pa gen expiry data op plane die right rights entry cls answer joined answers old may seen p0 exported sends
  refine ⟨fun ok sound => ?_, fun ok bad => ?_, fun no => execFabricRead_rejects joined no, fun again => execFabricWrite_again joined again,
    fun first ok => ⟨_, execFabricWrite_performs joined first ok, wrote_seen .., wrote_bytes s r _ _, wrote_outbox ..⟩,
    fun first page no => execFabricWrite_rejects joined first page no, fun x saved => execFabricAtomic_again joined saved,
    fun saved first => ?_, ?_, fun unknown => ?_, fun e known => ⟨fun still => ?_, fun c changing => ?_⟩,
    execLeaseGrant_fills joined die part chip page pa rights gen expiry, rfl, execRecall_follows joined, execRecall_again,
    fun c core asleep => execResponse_asleep joined core asleep,
    fun q w l x known wave noJob fetch here awake asks => execResponse_data joined known wave noJob fetch here awake asks,
    fun u only held rejected noJob reads acks logs => ?_⟩
  · obtain ⟨t, e, mem, waves, cores, fab, outbox⟩ := execFabricRead_performs (len := len) joined ok
    exact ⟨t, e, mem, waves, cores, fab, by simpa [sound] using outbox⟩
  · obtain ⟨t, e, mem, -, -, -, outbox⟩ := execFabricRead_performs (len := len) joined ok
    exact ⟨t, e, mem, by simpa [bad] using outbox⟩
  · have e := execFabricAtomic_first (op := op) joined saved first (old := old) rfl
    refine ⟨fun ok bad => ?_, fun ok sound => ?_, fun no => e.trans (if_pos (by simp [eq_false_of_ne_true no]))⟩
    · exact e.trans ((if_neg (by simpa using ok)).trans (if_pos bad))
    · refine ⟨_, e.trans ((if_neg (by simpa using ok)).trans (if_neg (by simp [sound]))), wrote_seen ..,
        wrote_result .., fun within => ?_, wrote_outbox ..⟩
      have length := length_natBytes (rmwBytes op) (rmwNew op old)
      have bytes := wrote_bytes s r (bs := natBytes (rmwBytes op) (rmwNew op old)) (some (BitVec.ofNat 64 old))
        (.atomicDone s.chipId r.seq (BitVec.ofNat 64 old)) (by rwa [length])
      rwa [length] at bytes
  · exact if_neg (by simp [joined])
  · exact ⟨execLease_unknown joined unknown, execExportChange_unknown unknown⟩
  · exact ⟨execLease_denied (of_ := ⟨part, cls⟩) joined known still, execLease_allowed (of_ := ⟨part, cls⟩) joined known still,
      execExportChange_free known still,
      execExportChange_noPlane known still, execExportChange_recalls joined known still⟩
  · exact ⟨execLease_changing joined known (by simp [changing]), execExportChangeTimeout_over known changing,
      fun last => (execRecallAck_counts known changing rfl).trans (congrArg _ (if_pos last)),
      fun more => (execRecallAck_counts known changing rfl).trans (congrArg _ (if_neg more)), execRecallAck_other known changing⟩
  · exact (execResponse_awake (x := .writeAck u.chip u.seq) joined fun _ core => by cases core).trans
      (congrArg _ (acked_last only held rejected noJob reads acks logs))

end Sys2Proof.Machine
end

section
/-!
SUPPORT. Loads through the peer window (O34): a line that came marked as poisoned for another wave of the instruction (R175, R246) stops a load that has a copy
of the line in its L1.
-/

namespace Sys2Proof.Machine

/-- The group of one thread, lane 1 of wave 32, at address 0. -/
def loneThread : Group := ⟨0, 0, 0, [(32, 1)]⟩

/-- A wave whose record b3 names page 4 of ASID 0 in the peer window, and whose lane 1 holds index 1 in v100. -/
def peerLoader : Wave :=
  { Wave.start bootGrid 1 0 0 [0, 1] [] with b := [(3, BitVec.ofNat 128 (3 * 2 ^ 110 + 7 * 2 ^ 107 + 2 * 2 ^ 100 + 2 * 2 ^ 52 + 65536 * 4))], v := [(128 + 100, 1)] }

/-- A second wave, which has taken up the same instruction: the line that it asked for has come marked as poisoned. -/
def poisonedPeer : Wave :=
  { peerLoader with w := 1, slot := 1, pend := { Pend.none with again := true, lines := [⟨7, 0x30000 / 128, natBytes 128 0, true, true⟩] } }

/-- The small machine in a domain, with page 4 of ASID 0 mapped to export page 5 of chip 7, a lease of that page, a sound copy of its first line in
the L1 of core 0, and the two waves. -/
def poisonBeside : State :=
  let s := (bootState .reset false []).putBytes 0x24020 (natBytes 8 (7 * 2 ^ 48 + 5 * 65536 + 0x2F))
  let s := s.updCore 0 (fun k => { k with l1 := [⟨some 7, 0x30000, natBytes 128 0, (0, 0), 0⟩] })
  { s with
    dev := { s.dev with fabId := 0x80000000, live := 3 }
    fab := { s.fab with ptc := [⟨0, 0, .g, 7, 5, 0x30000, ⟨true, true, true⟩, 1, 1000⟩] }
    cur := some loneThread
    waves := [(32, peerLoader), (33, poisonedPeer)] }

/-- A step after which a wave is gone. -/
def waveGone (o : Host.Outcome State Fault Refusal) (wid : Nat) : Bool :=
  match o with
  | .next t => (Tbl.find t.waves wid).isNone
  | _ => false

/-- The poison that came for the other wave is MACHINE_CHECK, and the domain has no handler, so the launch is killed (R223). -/
theorem ld_poisonBeside_kills : waveGone (exec (.ld .b32 0 127 3 100) poisonBeside) 32 = true := by decide +kernel

theorem peerHit_poisonBeside : ((poisonBeside.peerHit (poisonBeside.agentOf 32) 7 0x30004).isSome) = true := by decide +kernel

theorem plainWave_poisonBeside : PlainWave poisonBeside 32 := by
  refine ⟨fun w hw => ?_, by decide +kernel, by decide +kernel, by decide +kernel, by decide +kernel, by decide +kernel⟩
  obtain rfl : peerLoader = w := Option.some.inj hw
  rfl

theorem goes_poisonBeside : laneAddress (peerLoader.breg 3) (peerLoader.vreg 1 100).toNat 4 = .at_ 0x40004
    ∧ State.recAllows (peerLoader.breg 3) .read = true ∧ (Rcd.space (peerLoader.breg 3) = 0 ∨ Rcd.space (peerLoader.breg 3) = 3)
    ∧ poisonBeside.reach (some (poisonBeside.coreOf 32)) (poisonBeside.partOf 32) (State.asidOf peerLoader (peerLoader.breg 3)) 0x40004
      (Rcd.space (peerLoader.breg 3) == 3) .read = .peer 7 5 4 := by decide +kernel

/-- Refutes O34: a load of another chip's line that a copy serves is to give its bytes in every plain wave. Where another wave of the core
has taken up the same instruction and its line came marked as poisoned, the load is MACHINE_CHECK all the same (R246), so that in `poisonBeside`, whose
domain has no handler, the launch is killed. The clause lacks the premise of its neighbour, that no other wave has taken up the instruction. -/
theorem not_windowAccesses : ¬ Obligations.WindowAccesses := by
  unfold Obligations.WindowAccesses
  intro h
  obtain ⟨plain, -⟩ := h.1 .b32 0 127 100 3 poisonBeside loneThread 32 1 peerLoader 0x40004 4 7 5 ⟨0, 0, .g, 7, 5, 0x30000, ⟨true, true, true⟩, 1, 1000⟩
    rfl (by decide) (by decide +kernel) (by decide +kernel) (by decide +kernel) (by decide +kernel)
  obtain ⟨-, -, -, -, -, copied, -⟩ := plain plainWave_poisonBeside
  obtain ⟨-, gives⟩ := copied ⟨by decide, by decide +kernel⟩ ⟨goes_poisonBeside, by decide +kernel⟩ (by decide +kernel) rfl (by decide +kernel)
  obtain ⟨y, hit⟩ := Option.isSome_iff_exists.1 peerHit_poisonBeside
  obtain ⟨t, next, -, x, found, -⟩ := gives y hit
  have gone := ld_poisonBeside_kills
  rw [next, waveGone, found] at gone
  exact Bool.false_ne_true gone

end Sys2Proof.Machine
end

section
/-!
SUPPORT. What sets queues, nodes and host rings going (O55, O56, O60). The rows that a change of a slot, a queue or a ring puts on the agenda are all that it
leaves beside the change itself: `KickFrame`. There is one rule for each operation, with the shape of the operation.
-/

namespace Sys2Proof.Machine

/- Elaborated one after another: at one thread for each of so many short theorems, the stacks together would pass the memory limit. -/
set_option Elab.async false

variable {s t u : State}

/-- Of two states, the second differs only in rows that have come to the agenda and in the free values drawn for them. -/
structure KickFrame (s t : State) : Prop where
  frame : ScheduleFrame s t
  agenda : ∀ e ∈ s.agenda, e ∈ t.agenda

namespace KickFrame

theorem refl (s : State) : KickFrame s s := ⟨.refl s, fun _ h => h⟩

theorem trans (h : KickFrame s t) (k : KickFrame t u) : KickFrame s u := ⟨h.frame.trans k.frame, fun e he => k.agenda e (h.agenda e he)⟩

theorem due (f : KickFrame s t) {i : Instr} (d : s.due i = true) : t.due i = true := by
  obtain ⟨n, hn⟩ := (due_iff i).1 d
  exact (due_iff i).2 ⟨n, f.agenda _ hn⟩

theorem queues (f : KickFrame s t) : t.queues = s.queues := congrArg (·.queues) f.frame
theorem queue (f : KickFrame s t) (q : Nat) : t.queue q = s.queue q := congrArg (·.queue q) f.frame
theorem slot (f : KickFrame s t) (k : Nat) : t.slot k = s.slot k := congrArg (·.slot k) f.frame
theorem ring (f : KickFrame s t) (vf k : Nat) : t.ring vf k = s.ring vf k := congrArg (·.ring vf k) f.frame
theorem vd (f : KickFrame s t) (v : Nat) : t.vd v = s.vd v := congrArg (·.vd v) f.frame

theorem ite {c : Prop} [Decidable c] {a b : State} (ha : KickFrame s a) (hb : KickFrame s b) : KickFrame s (if c then a else b) := by
  split <;> assumption

theorem foldl {α : Type} {f : State → α → State} {l : List α} (h : KickFrame s t) (hf : ∀ t a, KickFrame s t → KickFrame s (f t a)) :
    KickFrame s (l.foldl f t) :=
  List.foldlRecOn l f h fun t h a _ => hf t a h

theorem atTick {n : Nat} {i : Instr} (h : KickFrame s t) : KickFrame s (t.atTick n i) :=
  h.trans ⟨rfl, fun _ he => (mem_insertBy ..).2 (.inr he)⟩

theorem drawn (h : KickFrame s t) : KickFrame s t.drawn := h.trans ⟨rfl, fun _ he => he⟩

theorem soonOnce {i : Instr} (h : KickFrame s t) : KickFrame s (t.soonOnce i) := .ite h h.atTick.drawn

theorem kick {j : Nat} (h : KickFrame s t) : KickFrame s (t.kick j) := h.trans ⟨kick_schedule t j, (LeaseFrame.refl t).kick.agenda⟩

theorem startSoon {hq k : Nat} (h : KickFrame s t) : KickFrame s (t.startSoon hq k) := .ite h h.atTick.drawn

theorem gainWork {p : Nat} (h : KickFrame s t) : KickFrame s (t.gainWork p) := .ite h h.atTick

theorem kickPlace {p : Nat} (h : KickFrame s t) : KickFrame s (t.kickPlace p) := h.foldl fun _ _ h => h.soonOnce

theorem kickFetch (h : KickFrame s t) : KickFrame s t.kickFetch := h.foldl fun _ _ h => .ite h.soonOnce h

theorem kickDrain {hq : Nat} (h : KickFrame s t) : KickFrame s (t.kickDrain hq) := .ite h.soonOnce h

theorem kickSlot {k : Nat} (h : KickFrame s t) : KickFrame s (t.kickSlot k) := by
  unfold State.kickSlot
  extract_lets
  split
  · exact .ite h.startSoon h
  · exact h.soonOnce
  · exact h.soonOnce
  · exact h.soonOnce
  · exact h.soonOnce
  · exact .ite h.soonOnce h.kick
  · exact h

theorem kickQueue {hq : Nat} (h : KickFrame s t) : KickFrame s (t.kickQueue hq) := by
  unfold State.kickQueue
  extract_lets s1
  have h1 : KickFrame s s1 := h.foldl fun _ _ h => h.kickSlot
  exact h1.kickFetch.kickPlace.gainWork

theorem kickRing {vf ring : Nat} (h : KickFrame s t) : KickFrame s (t.kickRing vf ring) := h.foldl fun _ _ h => h.kickSlot

theorem slotChanged {hq : Nat} (h : KickFrame s t) : KickFrame s (t.slotChanged hq) := by
  have h1 : KickFrame s (t.slots.foldl (fun s e => if e.2.st == .running && e.2.run == .condWait then s.soonOnce (.condRangeIdle e.2.hq e.1) else s) t) :=
    h.foldl fun _ _ h => .ite h.soonOnce h
  exact h1.kickFetch.kickDrain

theorem gridCheck {g : Nat} (h : KickFrame s t) : KickFrame s (t.gridCheck g) := by
  unfold State.gridCheck
  split
  · exact h
  · refine .ite ?_ h
    split <;> exact h.soonOnce

end KickFrame

/-- A pausing queue is looked at for whether it has drained (R87). -/
theorem due_kickDrain {hq : Nat} (off : (s.queue hq).enabled = false) (on : (s.queue hq).state = 1) : (s.kickDrain hq).due (.queuePauseDrained hq) = true := by
  rw [State.kickDrain, if_pos (by simp [off, on])]
  exact due_soonOnce_self ..

/-- An interrupt leaves a function's vectors or what goes out of the package (R96). -/
theorem raiseIrq_eq (s : State) (fn : HostFn) (vec : Nat) : ∃ v m o, s.raiseIrq fn vec = { s with vds := v, pfMsix := m, outbox := o } := by
  unfold State.raiseIrq
  split
  · cases fn <;> exact ⟨_, _, _, rfl⟩
  · exact ⟨_, _, _, rfl⟩

theorem queue_raiseIrq (s : State) (fn : HostFn) (vec q : Nat) : (s.raiseIrq fn vec).queue q = s.queue q := by
  obtain ⟨v, m, o, e⟩ := raiseIrq_eq s fn vec
  rw [e]
  rfl

theorem ring_raiseIrq (s : State) (fn : HostFn) (vec vf k : Nat) : (s.raiseIrq fn vec).ring vf k = s.ring vf k := by
  obtain ⟨v, m, o, e⟩ := raiseIrq_eq s fn vec
  rw [e]
  rfl

theorem State.slot_updSlot_self (s : State) (k : Nat) (f : Slot → Slot) : (s.updSlot k f).slot k = f (s.slot k) := Tbl.getD_putS_self ..
theorem State.slot_updSlot_ne (s : State) {k j : Nat} (f : Slot → Slot) (h : j ≠ k) : (s.updSlot k f).slot j = s.slot j := Tbl.getD_putS_ne _ _ _ h
theorem State.ring_updRing_self (s : State) (vf k : Nat) (f : Ring → Ring) : (s.updRing vf k f).ring vf k = f (s.ring vf k) := Tbl.getD_updD_self ..

end Sys2Proof.Machine
end

section
/-!
SUPPORT. Virtual devices, hardware queues and host rings (O56): what a write to a register of each leaves of its fields. Work that is dropped with a queue
changes no queue and no virtual device, and takes grids away only (`DropFrame`).
-/

namespace Sys2Proof.Machine

/- Elaborated one after another: at one thread for each of so many short theorems, the stacks together would pass the memory limit. -/
set_option Elab.async false

variable {s t u : State}

/-! ## Fields of a register -/

theorem fieldOf_congr {w hi lo : Nat} {x y : BitVec w} (h : ∀ i, lo ≤ i → i ≤ hi → x.getLsbD i = y.getLsbD i) : fieldOf x hi lo = fieldOf y hi lo := by
  refine Nat.eq_of_testBit_eq fun i => ?_
  simp only [fieldOf, bitsOf, Nat.testBit_mod_two_pow, Nat.testBit_div_two_pow]
  by_cases hi' : i < hi + 1 - lo
  · have e := h (lo + i) (by omega) (by omega)
    rw [BitVec.getLsbD, BitVec.getLsbD] at e
    rw [Nat.add_comm i lo, e]
  · simp [hi']

/-- A field keeps its value where bits beside it are replaced. -/
theorem fieldOf_setField_ne {w hi lo h l : Nat} (x : BitVec w) (v : Nat) (hl : lo ≤ hi) (hw : h < w) (beside : h < lo ∨ hi < l) :
    fieldOf (setField x hi lo v) h l = fieldOf x h l := by
  refine fieldOf_congr fun i _ _ => ?_
  rw [getLsbD_setField x hi lo v hl (by omega), if_neg (by omega)]

/-- A field of two bits. -/
theorem fieldOf_two_bits {w : Nat} (x : BitVec w) (b : Nat) : fieldOf x (b + 1) b = 2 * (x.getLsbD (b + 1)).toNat + (x.getLsbD b).toNat := by
  have high : x.toNat / 2 ^ (b + 1) = x.toNat / 2 ^ b / 2 := by rw [pow_succ, Nat.div_div_eq_div_mul]
  rw [fieldOf, bitsOf, BitVec.getLsbD, BitVec.getLsbD, Nat.toNat_testBit, Nat.toNat_testBit, high, show b + 1 + 1 - b = 2 by omega]
  omega

/-- A bit that a masked write does not reach stays. -/
theorem getLsbD_maskWrite_of_clear {w : Nat} (old v : BitVec w) {mask i : Nat} (hi : i < w) (clear : (BitVec.ofNat w mask).getLsbD i = false) :
    (maskWrite old v mask).getLsbD i = old.getLsbD i := by
  rw [maskWrite, BitVec.getLsbD_or, BitVec.getLsbD_and, BitVec.getLsbD_and, BitVec.getLsbD_not, clear]
  simp [hi]

theorem setState_state (q : Queue) {n : Nat} (h : n < 4) : (q.setState n).state = n :=
  (fieldOf_setField_self q.status n (by decide) (by decide)).trans (Nat.mod_eq_of_lt h)

theorem state_withCtl (q : Queue) (c : Word) : ({ q with ctl := c } : Queue).state = q.state := rfl
theorem enabled_withStatus (q : Queue) (st : Word) : ({ q with status := st } : Queue).enabled = q.enabled := rfl
theorem slotsFree_withCtl (s : State) (q : Queue) (c : Word) : s.slotsFree { q with ctl := c } = s.slotsFree q := rfl

/-! ## Work that is dropped (R98, R99, R149) -/

/-- Of two states, the second has the queues and the virtual devices of the first, and no grid that the first has not. -/
structure DropFrame (s t : State) : Prop where
  queues : t.queues = s.queues
  vds : t.vds = s.vds
  grids : ∀ e ∈ t.grids, e ∈ s.grids

namespace DropFrame

theorem refl (s : State) : DropFrame s s := ⟨rfl, rfl, fun _ h => h⟩

theorem trans (h : DropFrame s t) (k : DropFrame t u) : DropFrame s u := ⟨k.queues.trans h.queues, k.vds.trans h.vds, fun e he => h.grids e (k.grids e he)⟩

theorem queue (f : DropFrame s t) (q : Nat) : t.queue q = s.queue q := congrArg (Tbl.getD · q Queue.reset) f.queues

theorem ite {c : Prop} [Decidable c] {a b : State} (ha : DropFrame s a) (hb : DropFrame s b) : DropFrame s (if c then a else b) := by
  split <;> assumption

theorem foldl {α : Type} {f : State → α → State} {l : List α} (h : DropFrame s t) (hf : ∀ t a, DropFrame s t → DropFrame s (f t a)) :
    DropFrame s (l.foldl f t) :=
  List.foldlRecOn l f h fun t h a _ => hf t a h

/-- A change of anything but what the frame speaks of. -/
theorem frame (h : DropFrame s t) (queues : u.queues = t.queues := by rfl) (vds : u.vds = t.vds := by rfl) (grids : u.grids = t.grids := by rfl) :
    DropFrame s u := h.trans ⟨queues, vds, fun _ he => grids ▸ he⟩

theorem schedule (h : DropFrame s t) (f : ScheduleFrame t u) : DropFrame s u :=
  h.frame (congrArg (·.queues) f) (congrArg (·.vds) f) (congrArg (·.grids) f)

theorem dropJob {j : Nat} (h : DropFrame s t) : DropFrame s (t.dropJob j) := by
  unfold State.dropJob
  split
  · exact h
  · next k _ =>
    have h1 : DropFrame s (t.unround k) := .ite h.frame h
    exact h1.frame

theorem freed {c : Nat} (h : DropFrame s t) : DropFrame s (t.freed c) := h.schedule (freed_schedule ..)

theorem soonOnce {i : Instr} (h : DropFrame s t) : DropFrame s (t.soonOnce i) := h.schedule (soonOnce_schedule ..)

theorem lendLater {c : Nat} (h : DropFrame s t) : DropFrame s (t.lendLater c) := .ite h.soonOnce.soonOnce h

theorem lowerCarve {c : Nat} (h : DropFrame s t) : DropFrame s (t.lowerCarve c) := .ite h.frame h

theorem drainOf {g : Nat} (h : DropFrame s t) : DropFrame s (t.drainOf g) := by
  unfold State.drainOf
  split
  · exact h
  · exact .ite h.soonOnce h

theorem removeTeam {k : Nat} (h : DropFrame s t) : DropFrame s (t.removeTeam k) := by
  unfold State.removeTeam
  split
  · exact h
  · extract_lets s1 _ _ _ _ _ s2 s3 s4
    have h1 : DropFrame s s1 := h.foldl fun _ _ h => h.dropJob
    have h2 : DropFrame s s2 := h1.frame
    have h3 : DropFrame s s3 := by
      unfold s3
      split
      · exact h2.frame
      · exact h2
    have h4 : DropFrame s s4 := by
      unfold s4
      split
      · exact h3
      · exact .ite h3 h3.frame
    exact .ite h4 (.drainOf (.lendLater (.freed (.lowerCarve h4.frame))))

theorem removeTeams {root : Nat} (h : DropFrame s t) : DropFrame s (t.removeTeams root) := h.foldl fun _ _ h => h.removeTeam

theorem forgetGrid {g : Nat} (h : DropFrame s t) : DropFrame s (t.forgetGrid g) := h.trans ⟨rfl, rfl, fun _ he => List.mem_of_mem_filter he⟩

end DropFrame

/-- Of the grids that are forgotten in turn, none is left. -/
theorem grids_foldl_forgetGrid (l : List (Nat × Grid)) (s : State) {e : Nat × Grid} (he : e ∈ (l.foldl (fun s e => s.forgetGrid e.1) s).grids) :
    ∀ x ∈ l, x.1 ≠ e.1 := by
  induction l generalizing s with
  | nil => simp
  | cons x l ih =>
    have left : e ∈ (s.forgetGrid x.1).grids :=
      (DropFrame.foldl (l := l) (.refl (s.forgetGrid x.1)) fun _ _ h => h.forgetGrid).grids e he
    have first : e.1 ≠ x.1 := by simpa using (List.mem_filter.1 left).2
    exact List.forall_mem_cons.2 ⟨first.symm, ih _ he⟩

theorem dropLaunches_drops (s : State) (hq : Nat) : DropFrame s (s.dropLaunches hq) := by
  unfold State.dropLaunches
  extract_lets gs s1
  have h1 : DropFrame s s1 := (DropFrame.refl s).foldl fun _ _ h => h.removeTeams
  exact h1.foldl fun _ _ h => h.forgetGrid

theorem grids_dropLaunches (s : State) (hq : Nat) {e : Nat × Grid} (he : e ∈ (s.dropLaunches hq).grids) : e.2.hq ≠ hq := fun h =>
  grids_foldl_forgetGrid _ _ he e (List.mem_filter.2 ⟨(dropLaunches_drops s hq).grids e he, by simpa using h⟩) rfl

/-! ## The reset of a queue (R84, R99) -/

/-- A reset that begins sets the queue's STATE, drops its work and leaves its end on the agenda. -/
theorem resetQueue_begins {hq : Nat} (idle : (s.queue hq).state ≠ 3) :
    DropFrame (s.updQueue hq (fun q => q.setState 3)) (s.resetQueue hq) ∧ (s.resetQueue hq).due (.queueResetDone hq) = true
      ∧ ∀ e ∈ (s.resetQueue hq).grids, e.2.hq ≠ hq := by
  rw [State.resetQueue, if_neg (by simpa using idle)]
  extract_lets s1 s2 s3
  have h2 : DropFrame s1 s2 := dropLaunches_drops s1 hq
  have h3 : DropFrame s2 s3 := (DropFrame.refl s2).foldl fun _ _ h => h.dropJob
  exact ⟨(h2.trans h3).frame, due_atTick_self .., fun e he => grids_dropLaunches s1 hq (h3.grids e he)⟩

theorem resetQueue_resetting {hq : Nat} (h : (s.queue hq).state = 3) : s.resetQueue hq = s := if_pos (by simpa using h)

theorem state_resetQueue_self (s : State) (hq : Nat) : ((s.resetQueue hq).queue hq).state = 3 := by
  by_cases h : (s.queue hq).state = 3
  · rw [resetQueue_resetting h, h]
  · rw [(resetQueue_begins h).1.queue, State.queue_updQueue_self, setState_state _ (by decide)]

theorem queue_resetQueue_ne (s : State) {hq j : Nat} (ne : j ≠ hq) : (s.resetQueue hq).queue j = s.queue j := by
  by_cases h : (s.queue hq).state = 3
  · rw [resetQueue_resetting h]
  · rw [(resetQueue_begins h).1.queue, State.queue_updQueue_ne _ _ ne]

theorem vds_resetQueue (s : State) (hq : Nat) : (s.resetQueue hq).vds = s.vds := by
  by_cases h : (s.queue hq).state = 3
  · rw [resetQueue_resetting h]
  · exact (resetQueue_begins h).1.vds

theorem vds_foldl_resetQueue (l : Tbl Queue) (s : State) : (l.foldl (fun s e => s.resetQueue e.1) s).vds = s.vds :=
  List.foldlRecOn l _ (motive := fun t => t.vds = s.vds) rfl fun t h e _ => (vds_resetQueue t e.1).trans h

theorem state_foldl_resetQueue (l : Tbl Queue) (s : State) {j : Nat} (h : (s.queue j).state = 3 ∨ ∃ e ∈ l, e.1 = j) :
    ((l.foldl (fun s e => s.resetQueue e.1) s).queue j).state = 3 := by
  induction l generalizing s with
  | nil => simpa using h
  | cons e l ih =>
    refine ih _ ?_
    by_cases he : j = e.1
    · exact .inl (he ▸ state_resetQueue_self s e.1)
    · rw [queue_resetQueue_ne s he]
      exact h.imp_right fun ⟨x, hx, hj⟩ => ⟨x, (List.mem_cons.1 hx).resolve_left fun hxe => he (by rw [← hj, hxe]), hj⟩

/-! ## Queue errors (R98) -/

/-- A queue as an error leaves it. -/
def Queue.failed (q : Queue) (code slot : Nat) : Queue :=
  { q with status := setField (setField (setField q.status 31 30 2) 23 16 code) 14 0 slot }

theorem failed_fields (q : Queue) (code slot : Nat) : (q.failed code slot).state = 2 ∧ fieldOf (q.failed code slot).status 23 16 = code % 256
    ∧ (q.failed code slot).enabled = q.enabled := by
  refine ⟨?_, ?_, enabled_withStatus q _⟩
  · rw [Queue.state, Queue.failed, fieldOf_setField_ne _ _ (by decide) (by decide) (by decide),
      fieldOf_setField_ne _ _ (by decide) (by decide) (by decide), fieldOf_setField_self _ _ (by decide) (by decide)]
    rfl
  · rw [Queue.failed, fieldOf_setField_ne _ _ (by decide) (by decide) (by decide), fieldOf_setField_self _ _ (by decide) (by decide)]
    rfl

theorem queue_queueError {hq code slot : Nat} (ok : (s.queue hq).state < 2) :
    (s.queueError hq code slot).queue hq = (s.queue hq).failed code slot := by
  unfold State.queueError
  extract_lets q st
  rw [if_neg (by simp [q]; omega)]
  exact (queue_raiseIrq ..).trans (State.queue_updQueue_self ..)

/-! ## ENABLE, pause and tail of a queue (R86 to R88) -/

/-- A write to QUEUE_CTL leaves ENABLE to what follows it. -/
theorem enabled_ctlFields (s : State) (q : Queue) (v : Word) : ({ q with ctl := s.ctlFields q v } : Queue).enabled = q.enabled := by
  unfold Queue.enabled State.ctlFields
  rw [fieldOf_bit, fieldOf_bit, getLsbD_maskWrite_of_clear _ _ (by decide) (by split <;> decide)]

theorem execQueueEnable_named {vf : Fin 32} {n hq : Nat} {v : Word} (named : s.queueAt vf.val n = some hq) (r : v.getLsbD 30 = false) (on : v.getLsbD 31 = true) :
    execQueueEnable vf n v s = .next ((s.updQueue hq (fun q => { q with ctl := s.ctlFields (s.queue hq) v })).startQueue hq) := by
  have two : fieldOf v 31 30 = 2 := by rw [fieldOf_two_bits v 30, r, on]; rfl
  rw [execQueueEnable, if_pos (by simp [two]), State.ctlWrite, named]
  simp only [fieldOf_bit, r, on]
  rfl

theorem execQueuePause_named {vf : Fin 32} {n hq : Nat} {v : Word} (named : s.queueAt vf.val n = some hq) (r : v.getLsbD 30 = false) (off : v.getLsbD 31 = false) :
    execQueuePause vf n v s = .next ((s.updQueue hq (fun q => { q with ctl := s.ctlFields (s.queue hq) v })).pauseQueue hq) := by
  have two : fieldOf v 31 30 = 0 := by rw [fieldOf_two_bits v 30, r, off]; rfl
  rw [execQueuePause, if_pos (by simp [two]), State.ctlWrite, named]
  simp only [fieldOf_bit, r, off]
  rfl

theorem execQueueReset_named {vf : Fin 32} {n hq : Nat} {v : Word} (named : s.queueAt vf.val n = some hq) (r : v.getLsbD 30 = true) :
    execQueueReset vf n v s = .next ((s.updQueue hq (fun q => { q with ctl := s.ctlFields (s.queue hq) v })).resetQueue hq) := by
  have one : fieldOf v 30 30 = 1 := by rw [fieldOf_bit, r]; rfl
  rw [execQueueReset, if_pos (by simp [one]), State.ctlWrite, named]
  simp only [one]
  rfl

/-- A queue as it starts: its indices are cleared where none of its work is left (R86). -/
def Queue.started (s : State) (q : Queue) : Queue :=
  { q.setState 1 with
    ctl := setField q.ctl 31 31 1
    head := if q.head == q.tail && s.slotsFree q then 0 else q.head
    tail := if q.head == q.tail && s.slotsFree q then 0 else q.tail }

theorem startQueue_starts {hq : Nat} (off : (s.queue hq).enabled = false) (ok : (s.queue hq).state < 2) (size : fieldOf (s.queue hq).ctl 27 24 < 13)
    (valid : (s.queue hq).valid = true) : (s.startQueue hq).queue hq = (s.queue hq).started s := by
  rw [State.startQueue, if_neg (by simp [off]; omega), if_neg (by simp [valid]; omega)]
  extract_lets zero s1
  rw [(KickFrame.refl s1).kickQueue.queue, State.queue_updQueue_self]
  rfl

theorem startQueue_refused {hq : Nat} (off : (s.queue hq).enabled = false) (ok : (s.queue hq).state < 2)
    (bad : 13 ≤ fieldOf (s.queue hq).ctl 27 24 ∨ (s.queue hq).valid = false) : s.startQueue hq = s.queueError hq 0x09 0 := by
  rw [State.startQueue, if_neg (by simp [off]; omega), if_pos (by simpa using bad)]

theorem startQueue_enabled {hq : Nat} (on : (s.queue hq).enabled = true) : s.startQueue hq = s := if_pos (by simp [on])

theorem pauseQueue_pauses {hq : Nat} (ok : (s.queue hq).state ≠ 3) :
    (s.pauseQueue hq).queue hq = { s.queue hq with ctl := setField (s.queue hq).ctl 31 31 0 }
      ∧ ((s.queue hq).state = 1 → (s.pauseQueue hq).due (.queuePauseDrained hq) = true) := by
  have paused := State.queue_updQueue_self s hq fun q => { q with ctl := setField q.ctl 31 31 0 }
  have bit : fieldOf (setField (s.queue hq).ctl 31 31 0) 31 31 = 0 := fieldOf_setField_self _ _ (by decide) (by decide)
  rw [State.pauseQueue, if_neg (by simpa using ok), (KickFrame.refl _).kickDrain.queue, paused]
  refine ⟨rfl, fun one => due_kickDrain ?_ ?_⟩
  · rw [paused, Queue.enabled, bit]
    rfl
  · rw [paused, state_withCtl, one]

theorem execQueueTailWrite_fits {vf : Fin 32} {n hq : Nat} {v : Word} (named : s.queueAt vf.val n = some hq) (ok : (s.queue hq).state ≠ 3)
    (fits : (v - (s.queue hq).head).toNat ≤ (s.queue hq).ringSize) :
    ∃ t, execQueueTailWrite vf n v s = .next t ∧ t.queue hq = { s.queue hq with tail := v } := by
  refine ⟨_, rfl, ?_⟩
  rw [State.tailWrite, named]
  dsimp only
  rw [if_neg (by simpa using ok), if_pos fits, (KickFrame.refl _).kickFetch.queue, State.queue_updQueue_self]

theorem execQueueTailWrite_tooMany {vf : Fin 32} {n hq : Nat} {v : Word} (named : s.queueAt vf.val n = some hq) (ok : (s.queue hq).state ≠ 3)
    (many : (s.queue hq).ringSize < (v - (s.queue hq).head).toNat) : execQueueTailWrite vf n v s = .next (s.queueError hq 0x04 0) := by
  rw [execQueueTailWrite, State.tailWrite, named]
  dsimp only
  rw [if_neg (by simpa using ok), if_neg (by omega)]

/-! ## The rows that end a pause and a reset (R87, R99) -/

theorem execQueuePauseDrained_drained {hq : Nat} (off : (s.queue hq).enabled = false) (on : (s.queue hq).state = 1)
    (teams : ∀ t ∈ s.teams, t.2.loc = .saved) (nodes : ∀ e ∈ s.slots, e.2.st ≠ .running) :
    execQueuePauseDrained hq s = .next (s.updQueue hq (fun q => q.setState 0)) := by
  rw [execQueuePauseDrained, if_neg]
  simp only [Bool.or_eq_true, List.any_eq_true]
  rintro (((h | h) | ⟨e, he, h⟩) | ⟨e, he, h⟩)
  · simp [off] at h
  · simp [on] at h
  · simp [teams e he] at h
  · simp [nodes e he] at h

/-- A queue as it is after a reset. -/
def Queue.afterReset (q : Queue) : Queue :=
  { q.setState 0 with
    head := q.tail
    ctl := setField q.ctl 31 31 0
    status := setField (setField q.status 31 30 0) 23 16 0 }

theorem find_filter_out {α : Type} (t : Tbl α) (f : Nat × α → Bool) {k : Nat} (out : ∀ x, f (k, x) = false) : Tbl.find (t.filter f) k = none := by
  induction t with
  | nil => rfl
  | cons e t ih =>
    obtain ⟨j, x⟩ := e
    cases hf : f (j, x) with
    | false => simpa [hf] using ih
    | true =>
      have ne : j ≠ k := by
        rintro rfl
        exact absurd (out x) (by simp [hf])
      simpa [hf, Tbl.find, ne] using ih

theorem execQueueResetDone_resets {hq : Nat} (resetting : (s.queue hq).state = 3) :
    ∃ t, execQueueResetDone hq s = .next t ∧ t.queue hq = (s.queue hq).afterReset
      ∧ ∀ j, (s.queue hq).slotBase ≤ j → j < (s.queue hq).slotBase + (s.queue hq).slotCount → t.slot j = .reset := by
  rw [execQueueResetDone, if_neg (by simpa using resetting)]
  extract_lets s1 s2
  have kicked : KickFrame s2 (((List.range 16).foldl (fun s k => s.kickRing (s1.queue hq).vf k) s2).slotChanged hq) :=
    ((KickFrame.refl s2).foldl fun _ _ h => h.kickRing).slotChanged
  refine ⟨_, rfl, (kicked.queue hq).trans (State.queue_updQueue_self ..), fun j lo hi => (kicked.slot j).trans ?_⟩
  have gone : Tbl.find s1.slots j = none := find_filter_out _ _ fun x => by simpa using ⟨lo, hi⟩
  exact congrArg (Option.getD · Slot.reset) gone

/-! ## Virtual devices (R84) -/

/-- VD_CFG as a write to a disabled virtual device leaves it: its partition and its ENABLE. -/
theorem vdConfig_fields {p : Nat} (hp : p < 8) (on : Bool) :
    fieldOf (BitVec.ofNat 64 (p + 2 ^ 31 * bnat on)) 2 0 = p ∧ (fieldOf (BitVec.ofNat 64 (p + 2 ^ 31 * bnat on)) 31 31 == 1) = on := by
  interval_cases p <;> cases on <;> decide

theorem vdWrite_disabled {vf : Nat} (off : s.vdEnabled vf = false) (v : DWord) : (s.vdWrite vf v).vdPart vf = fieldOf v 2 0
    ∧ (s.vdWrite vf v).vdEnabled vf = (v.getLsbD 31 && (s.part (fieldOf v 2 0)).present) := by
  unfold State.vdWrite
  rw [if_neg (by simp [off])]
  extract_lets p on s1
  have kicked : KickFrame s1 (if on then (s1.queues.filter (fun e => e.2.vf == vf)).foldl (fun s e => s.kickQueue e.1) s1 else s1) :=
    .ite ((KickFrame.refl s1).foldl fun _ _ h => h.kickQueue) (.refl s1)
  have vd : s1.vd vf = { s.vd vf with cfg := BitVec.ofNat 64 (p + 2 ^ 31 * bnat on) } := State.vd_updVd_self ..
  obtain ⟨part, enabled⟩ := vdConfig_fields (show p < 8 from Nat.mod_lt _ (by decide)) on
  rw [State.vdPart, State.vdEnabled, kicked.vd, vd]
  refine ⟨part, enabled.trans ?_⟩
  unfold on
  rw [fieldOf_bit]
  cases v.getLsbD 31 <;> rfl

theorem vdWrite_disables {vf : Nat} {v : DWord} (on : s.vdEnabled vf = true) (disable : v.getLsbD 31 = false) :
    (s.vdWrite vf v).vdEnabled vf = false
      ∧ ∀ e ∈ s.queues, e.2.valid = true → e.2.vf = vf → ((s.vdWrite vf v).queue e.1).state = 3 := by
  have zero : fieldOf v 31 31 = 0 := by rw [fieldOf_bit, disable]; rfl
  have cleared : fieldOf (setField (s.vd vf).cfg 31 31 0) 31 31 = 0 := fieldOf_setField_self _ _ (by decide) (by decide)
  unfold State.vdWrite
  rw [if_pos on, if_neg (by simp [zero])]
  extract_lets s1
  have vd : s1.vd vf = { s.vd vf with cfg := setField (s.vd vf).cfg 31 31 0 } := State.vd_updVd_self ..
  refine ⟨?_, fun e he valid mine => state_foldl_resetQueue _ _ (.inr ⟨e, List.mem_filter.2 ⟨he, by simp [valid, mine]⟩, rfl⟩)⟩
  rw [State.vdEnabled, State.vd, vds_foldl_resetQueue, ← State.vd, vd, cleared]
  rfl

/-! ## Host rings (R94) -/

/-- A ring after a write to RING_CTL: its indices are cleared where ENABLE steps from 0 to 1. -/
def Ring.written (r : Ring) (v : Word) : Ring :=
  let on := fieldOf v 31 31 == 1 && (r.enabled || fieldOf v 30 27 < 13)
  let c := setField (setField v 2 0 0) 31 31 (bnat on)
  if on && !r.enabled then { r with ctl := c, prod := 0, cons := 0 } else { r with ctl := c }

theorem ring_ringTick (s : State) (vf k : Nat) : ∃ p, (s.ringTick vf k).ring vf k = { s.ring vf k with pend := p } := by
  unfold State.ringTick
  extract_lets r
  split
  · exact ⟨0, (ring_raiseIrq ..).trans (State.ring_updRing_self ..)⟩
  · exact ⟨_, rfl⟩

theorem armRing_schedule (s : State) (vf k : Nat) : ScheduleFrame s (s.armRing vf k) := .ite rfl rfl

theorem ring_ringCtlWrite (s : State) (vf k : Nat) (v : Word) : ∃ p, (s.ringCtlWrite vf k v).ring vf k = ({ s.ring vf k with pend := p } : Ring).written v := by
  obtain ⟨p, ticked⟩ := ring_ringTick s vf k
  refine ⟨p, ?_⟩
  unfold State.ringCtlWrite
  extract_lets s1 r on c s2
  have written : s2.ring vf k = r.written v := State.ring_updRing_self s1 vf k _
  rw [(KickFrame.refl _).kickRing.ring, congrArg (·.ring vf k) (armRing_schedule s2 vf k)]
  exact written.trans (congrArg (Ring.written · v) ticked)

theorem fieldOf_eq_one {w : Nat} (x : BitVec w) (b : Nat) : (fieldOf x b b == 1) = x.getLsbD b := by
  rw [fieldOf_bit]
  cases x.getLsbD b <;> rfl

theorem written_enabled (r : Ring) (v : Word) :
    (r.written v).enabled = decide (v.getLsbD 31 = true ∧ (r.enabled = true ∨ fieldOf v 30 27 < 13)) := by
  unfold Ring.written
  rw [fieldOf_eq_one]
  extract_lets on c
  have bit : fieldOf c 31 31 = bnat on % 2 := fieldOf_setField_self _ _ (by decide) (by decide)
  have enabled : (fieldOf c 31 31 == 1) = on := by
    rw [bit]
    cases on <;> rfl
  have said : on = decide (v.getLsbD 31 = true ∧ (r.enabled = true ∨ fieldOf v 30 27 < 13)) := by
    simp [on, Bool.decide_and, Bool.decide_or]
  rw [← said]
  split <;> exact enabled

theorem written_ctl (r : Ring) (v : Word) {i : Nat} (lo : 3 ≤ i) (hi : i < 31) : (r.written v).ctl.getLsbD i = v.getLsbD i := by
  unfold Ring.written
  extract_lets on c
  have kept : c.getLsbD i = v.getLsbD i := by
    rw [getLsbD_setField _ _ _ _ (by decide) (by omega), if_neg (by omega), getLsbD_setField _ _ _ _ (by decide) (by omega), if_neg (by omega)]
  split <;> exact kept

theorem written_cleared {r : Ring} {v : Word} (on : v.getLsbD 31 = true ∧ (r.enabled = true ∨ fieldOf v 30 27 < 13)) (off : r.enabled = false) :
    (r.written v).prod = 0 ∧ (r.written v).cons = 0 := by
  obtain ⟨bit, fits⟩ := on
  rw [off] at fits
  unfold Ring.written
  rw [fieldOf_eq_one, bit, if_pos (by simpa [off] using fits)]
  exact ⟨rfl, rfl⟩

theorem written_base (r : Ring) (v : Word) : (r.written v).base = r.base := by
  unfold Ring.written
  extract_lets
  split <;> rfl

theorem ring_ringConsWrite (s : State) (vf k : Nat) (v : Word) : (s.ringConsWrite vf k v).ring vf k = { s.ring vf k with cons := v } :=
  ((KickFrame.refl _).kickRing.ring vf k).trans (State.ring_updRing_self ..)

/-! ## The obligation -/

theorem execVdEnable_enabled {vf : Fin 32} {x : DWord} (enabled : s.vdEnabled vf.val = true) (on : x.getLsbD 31 = true) : execVdEnable vf x s = .next s := by
  rw [execVdEnable, if_pos (by rw [fieldOf_eq_one, on]), State.vdWrite, if_pos enabled, if_pos (by rw [fieldOf_eq_one, on])]

/-- A write that starts a queue: STATE, ENABLE and the ring as QUEUE_CTL gives them, the tail as R86 says. -/
theorem execQueueEnable_starts {vf : Fin 32} {n hq : Nat} {v : Word} (named : s.queueAt vf.val n = some hq) (r : v.getLsbD 30 = false)
    (on : v.getLsbD 31 = true) (off : (s.queue hq).enabled = false) (ok : (s.queue hq).state < 2)
    (size : fieldOf (s.ctlFields (s.queue hq) v) 27 24 < 13) (valid : (s.queue hq).valid = true) :
    ∃ t, execQueueEnable vf n v s = .next t ∧ t.queue hq = ({ s.queue hq with ctl := s.ctlFields (s.queue hq) v } : Queue).started s := by
  refine ⟨_, execQueueEnable_named named r on, ?_⟩
  have written := State.queue_updQueue_self s hq fun q => { q with ctl := s.ctlFields (s.queue hq) v }
  rw [startQueue_starts (by rw [written, enabled_ctlFields, off]) (by rw [written, state_withCtl]; exact ok) (by rw [written]; exact size)
    (by rw [written]; exact valid), written]
  rfl

theorem execQueueEnable_refused {vf : Fin 32} {n hq : Nat} {v : Word} (named : s.queueAt vf.val n = some hq) (r : v.getLsbD 30 = false)
    (on : v.getLsbD 31 = true) (off : (s.queue hq).enabled = false) (ok : (s.queue hq).state < 2)
    (bad : 13 ≤ fieldOf (s.ctlFields (s.queue hq) v) 27 24 ∨ (s.queue hq).valid = false) :
    ∃ t, execQueueEnable vf n v s = .next t ∧ (t.queue hq).state = 2 ∧ fieldOf (t.queue hq).status 23 16 = 0x09 ∧ (t.queue hq).enabled = false := by
  have written := State.queue_updQueue_self s hq fun q => { q with ctl := s.ctlFields (s.queue hq) v }
  have low : ((s.updQueue hq fun q => { q with ctl := s.ctlFields (s.queue hq) v }).queue hq).state < 2 := by
    rw [written, state_withCtl]
    exact ok
  refine ⟨_, execQueueEnable_named named r on, ?_⟩
  rw [startQueue_refused (by rw [written, enabled_ctlFields, off]) low (by rw [written]; exact bad), queue_queueError low, written]
  obtain ⟨state, code, enabled⟩ := failed_fields { s.queue hq with ctl := s.ctlFields (s.queue hq) v } 0x09 0
  exact ⟨state, code, by rw [enabled, enabled_ctlFields, off]⟩

/-- What is read of a queue that has started. -/
theorem started_fields (s : State) (q : Queue) : (q.started s).state = 1 ∧ (q.started s).enabled = true ∧ (q.started s).ringSize = q.ringSize
    ∧ (q.started s).cls = q.cls ∧ (q.started s).asid = q.asid
    ∧ (q.started s).tail = if q.head = q.tail ∧ s.slotsFree q = true then 0 else q.tail := by
  refine ⟨?_, ?_, ?_, ?_, ?_, ?_⟩
  · rw [Queue.state, Queue.started, Queue.setState, fieldOf_setField_self _ _ (by decide) (by decide)]
    rfl
  · rw [Queue.enabled, Queue.started, fieldOf_setField_self _ _ (by decide) (by decide)]
    rfl
  · rw [Queue.ringSize, Queue.started, fieldOf_setField_ne _ _ (by decide) (by decide) (by decide), Queue.ringSize]
  · rw [Queue.cls, Queue.started, fieldOf_setField_ne _ _ (by decide) (by decide) (by decide), Queue.cls]
  · rw [Queue.asid, Queue.started, fieldOf_setField_ne _ _ (by decide) (by decide) (by decide), Queue.asid]
  · simp only [Queue.started, Bool.and_eq_true, beq_iff_eq]

/-- What is read of a queue that has been reset. -/
theorem afterReset_fields (q : Queue) : q.afterReset.state = 0 ∧ q.afterReset.head = q.tail ∧ q.afterReset.enabled = false
    ∧ fieldOf q.afterReset.status 23 16 = 0 := by
  refine ⟨?_, rfl, ?_, fieldOf_setField_self _ _ (by decide) (by decide)⟩
  · rw [Queue.state, Queue.afterReset, fieldOf_setField_ne _ _ (by decide) (by decide) (by decide), fieldOf_setField_self _ _ (by decide) (by decide)]
    rfl
  · rw [Queue.enabled, Queue.afterReset, fieldOf_setField_self _ _ (by decide) (by decide)]
    rfl

/-- Settles O56: one lemma for each write to a register and for each row that ends what such a write began. -/
theorem virtualDevicesAndQueues : Obligations.VirtualDevicesAndQueues := by
  intro s vf x v n hq k q r c named
  refine ⟨fun on => ⟨fun enabled => execVdEnable_enabled enabled on, fun off => ?_⟩, fun off => ?_,
    fun at_ low on => ⟨fun off ok size valid => ?_, fun off ok bad => execQueueEnable_refused at_ low on off ok bad, fun enabled => ?_⟩,
    fun at_ low off ok => ?_, fun at_ high ok => ?_,
    fun at_ ok => ⟨execQueueTailWrite_fits at_ ok, execQueueTailWrite_tooMany at_ ok⟩, execQueuePauseDrained_drained, fun resetting => ?_, ?_,
    ⟨_, rfl, ring_ringConsWrite ..⟩⟩
  · obtain ⟨part, enabled⟩ := vdWrite_disabled off x
    exact ⟨_, if_pos (by rw [fieldOf_eq_one, on]), part, by rw [enabled, on, Bool.true_and]⟩
  · have zero : fieldOf x 31 31 = 0 := by rw [fieldOf_bit, off]; rfl
    refine ⟨_, if_pos (by simp [zero]), ?_, fun on e he _ valid mine => (vdWrite_disables on off).2 e he valid mine⟩
    cases on : s.vdEnabled vf.val with
    | false => rw [(vdWrite_disabled on x).2, off, Bool.false_and]
    | true => exact (vdWrite_disables on off).1
  · obtain ⟨t, next, queue⟩ := execQueueEnable_starts at_ low on off ok size valid
    refine ⟨t, next, ?_⟩
    rw [queue, ← slotsFree_withCtl s q c]
    exact started_fields s _
  · have written := State.queue_updQueue_self s hq fun q => { q with ctl := c }
    exact (execQueueEnable_named at_ low on).trans (congrArg _ (startQueue_enabled (by rw [written, enabled_ctlFields]; exact enabled)))
  · have written := State.queue_updQueue_self s hq fun q => { q with ctl := c }
    obtain ⟨queue, drain⟩ := pauseQueue_pauses (s := s.updQueue hq fun q => { q with ctl := c }) (by rw [written, state_withCtl]; exact ok)
    refine ⟨_, execQueuePause_named at_ low off, ?_⟩
    rw [queue, written]
    refine ⟨?_, by rw [state_withCtl, state_withCtl], fun one => drain (by rw [written, state_withCtl]; exact one)⟩
    rw [Queue.enabled, fieldOf_setField_self _ _ (by decide) (by decide)]
    rfl
  · have written := State.queue_updQueue_self s hq fun q => { q with ctl := c }
    obtain ⟨-, due, gone⟩ := resetQueue_begins (s := s.updQueue hq fun q => { q with ctl := c }) (by rw [written, state_withCtl]; exact ok)
    exact ⟨_, execQueueReset_named at_ high, state_resetQueue_self .., due, gone⟩
  · obtain ⟨t, next, queue, slots⟩ := execQueueResetDone_resets resetting
    obtain ⟨state, head, off, code⟩ := afterReset_fields (s.queue hq)
    exact ⟨t, next, queue ▸ state, queue ▸ head, queue ▸ off, queue ▸ code, slots⟩
  · obtain ⟨p, ring⟩ := ring_ringCtlWrite s vf.val k.val v
    refine ⟨_, rfl, ?_⟩
    rw [ring]
    exact ⟨written_enabled .., fun i lo hi => written_ctl _ v lo hi, fun on off => written_cleared on off, written_base ..⟩

end Sys2Proof.Machine
end

section
/-!
SUPPORT. Writes of agents that are no launch (O55, O60): the host's apertures and Whisk. Such a write is of no replayed launch, so nothing is copied before it
(R245); what follows it — copies that take its bytes, its stamp, its mirror duplicate — changes no memory: `TailFrame`. The bytes written read back.
-/

namespace Sys2Proof.Machine

/- Elaborated one after another: at one thread for each of so many short theorems, the stacks together would pass the memory limit. -/
set_option Elab.async false

variable {s t u : State}

/-- Of two states, the second differs only in what leaves with a write, or is marked for it, once it is performed at its home. -/
structure TailFrame (s t : State) : Prop where
  frame : t = { s with fab := t.fab, cores := t.cores, outbox := t.outbox, agenda := t.agenda, nextId := t.nextId, peerWays := t.peerWays
                       stamps := t.stamps, sliceStamps := t.sliceStamps }

namespace TailFrame

theorem refl (s : State) : TailFrame s s := ⟨rfl⟩

theorem trans (h : TailFrame s t) (k : TailFrame t u) : TailFrame s u := by
  have e := k.frame
  rw [h.frame] at e
  exact ⟨e⟩

theorem mem (f : TailFrame s t) : t.mem = s.mem := congrArg (·.mem) f.frame
theorem stale (f : TailFrame s t) : t.stale = s.stale := congrArg (·.stale) f.frame

theorem ite {c : Prop} [Decidable c] {a b : State} (ha : TailFrame s a) (hb : TailFrame s b) : TailFrame s (if c then a else b) := by
  split <;> assumption

theorem bytesAt (f : TailFrame s t) (a n : Nat) : t.bytesAt a n = s.bytesAt a n := bytesAt_congr f.mem f.stale a n

theorem byteAt (f : TailFrame s t) (a : Nat) : t.byteAt a = s.byteAt a := by
  rw [byteAt_eq, byteAt_eq, State.staleAt, State.staleAt, f.mem, f.stale]

theorem send (h : TailFrame s t) (f : SendFrame t u) : TailFrame s u := h.trans ⟨by rw [f.frame]⟩

/-- A request packet leaves: its flits are counted, and its plane is watched. -/
theorem packet {plane part : Nat} {cls : Cls} {n : Nat} {o : Out} (h : TailFrame s t) :
    TailFrame s (((t.countFlits plane part cls n).watch plane).emit o) := by
  have h1 : TailFrame s (t.countFlits plane part cls n) := h.send (noteFlits_sends ..)
  have h2 : TailFrame s ((t.countFlits plane part cls n).watch plane) := .ite h1 (h1.trans ⟨rfl⟩)
  exact h2.trans ⟨rfl⟩

theorem postWrite {ag : Agent} {chip : Nat} {page : Option Nat} {gen pa : Nat} {data : List Byte} {coll : Option CollMsg} {op : Option RmwOp}
    {wid : Option (Nat × Nat)} {job : Option Nat} {at_ : Origin} (h : TailFrame s t) :
    TailFrame s (t.postWrite ag chip page gen pa data coll op wid job at_) := by
  unfold State.postWrite
  extract_lets _ _ _ _ s1 _ s2
  have h1 : TailFrame s s1 := by
    unfold s1
    split
    · exact h.trans ⟨rfl⟩
    · exact h.trans ⟨rfl⟩
  have h2 : TailFrame s s2 := .ite (h1.trans ⟨rfl⟩) h1
  exact .ite h2 h2.packet

theorem duplicate {ag : Agent} {m : Bool} {pa : Nat} {bs : List Byte} (h : TailFrame s t) : TailFrame s (t.duplicate ag m pa bs) :=
  .ite (.ite (h.trans ⟨rfl⟩) h.postWrite) h

theorem duplicateAll {ag : Agent} {n pa : Nat} {bs : List Byte} (h : TailFrame s t) : TailFrame s (t.duplicateAll ag n pa bs) := by
  induction n generalizing t pa bs with
  | zero => exact h
  | succ n ih => exact .ite h (ih h.duplicate)

theorem stampLine {pa : Nat} {st : Nat × Nat} {rmw : Bool} (h : TailFrame s t) : TailFrame s (t.stampLine pa st rmw) :=
  .ite (h.trans ⟨rfl⟩) (h.trans ⟨rfl⟩)

/-- The copies that a write of no core passes are those in the peer ways of its die. -/
theorem patchCopies {ag : Agent} {pa : Nat} {bs : List Byte} (noCore : ag.core = none) (h : TailFrame s t) :
    TailFrame s (t.patchCopies ag none pa bs) := by
  unfold State.patchCopies
  rw [noCore]
  exact h.trans ⟨rfl⟩

end TailFrame

/-- A write of no launch has no page copied before it (R245). -/
theorem snapshot_noGrid {ag : Agent} (noGrid : ag.grid = none) (s : State) (m : Bool) (pa : Nat) : s.snapshot ag m pa = s := by
  unfold State.snapshot
  rw [noGrid]
  rfl

/-- A write of no core and no launch is a write at the home, with what follows it. -/
theorem writeHome_tail {ag : Agent} (noCore : ag.core = none) (noGrid : ag.grid = none) (s : State) (m : Bool) (pa : Nat) (bs : List Byte) :
    TailFrame ((s.crossed ag.die (homeDie pa)).storeHome pa bs) (s.writeHome ag m pa bs) := by
  rw [State.writeHome, snapshot_noGrid noGrid]
  exact ((TailFrame.refl _).patchCopies noCore).duplicate

/-- Beside the bytes at its range a write at the home leaves every byte as it is. -/
theorem byteAt_storeHome_out {a c : Nat} {bs : List Byte} (out : c < a ∨ a + bs.length ≤ c) : (s.storeHome a bs).byteAt c = s.byteAt c := by
  by_cases within : a + bs.length ≤ hbmEnd
  · have w := storeHome_wakes (s := s) within
    rw [byteAt_eq, State.staleAt, w.mem, w.stale, ← State.staleAt, ← byteAt_eq, byteAt_putBytes_out s a bs out]
  · rw [State.storeHome, if_neg within]

end Sys2Proof.Machine
end

section
/-!
SUPPORT. Graph nodes, launches and their completion (O60): what Whisk reads does not depend on slots, rings and interrupts (`WhiskView`), a slot that is armed
or decremented is the one that changes (`ArmFrame`), and one lemma for each row of a node, of a ring and of a grid.
-/

namespace Sys2Proof.Machine

/- Elaborated one after another: at one thread for each of so many short theorems, the stacks together would pass the memory limit. -/
set_option Elab.async false

variable {s t u : State}

/-! ## What Whisk reads (R82, R97) -/

/-- Two states agree in what the reads of Whisk depend on. -/
structure WhiskView (s t : State) : Prop where
  mem : t.mem = s.mem
  stale : t.stale = s.stale
  parts : t.parts = s.parts
  hostMem : t.hostMem = s.hostMem
  cfg : ∀ v, (t.vd v).cfg = (s.vd v).cfg

theorem WhiskView.trans (f : WhiskView s t) (g : WhiskView t u) : WhiskView s u :=
  ⟨g.mem.trans f.mem, g.stale.trans f.stale, g.parts.trans f.parts, g.hostMem.trans f.hostMem, fun v => (g.cfg v).trans (f.cfg v)⟩

theorem walkFrom_congr (mem : t.mem = s.mem) (stale : t.stale = s.stale) (va l table : Nat) : t.walkFrom va l table = s.walkFrom va l table := by
  induction l generalizing table with
  | zero =>
    simp only [State.walkFrom, State.natAt, bytesAt_congr mem stale]
    rfl
  | succ l ih =>
    simp only [State.walkFrom, State.natAt, bytesAt_congr mem stale, ih]
    rfl

theorem WhiskView.vdPart (f : WhiskView s t) (v : Nat) : t.vdPart v = s.vdPart v := congrArg (fieldOf · 2 0) (f.cfg v)

theorem WhiskView.walk (f : WhiskView s t) (p asid va : Nat) : t.walk p asid va = s.walk p asid va := by
  simp only [State.walk, State.part, State.natAt, bytesAt_congr f.mem f.stale, f.parts, walkFrom_congr f.mem f.stale]
  rfl

theorem WhiskView.whiskGo (f : WhiskView s t) (q : Queue) (asid va : Nat) (right : Right) : t.whiskGo q asid va right = s.whiskGo q asid va right := by
  simp only [State.whiskGo, State.reach, State.translate, f.vdPart, f.walk]

theorem WhiskView.whiskRead (f : WhiskView s t) (q : Queue) (asid va n : Nat) : t.whiskRead q asid va n = s.whiskRead q asid va n := by
  simp only [State.whiskRead, f.whiskGo, bytesAt_congr f.mem f.stale, State.hostBytes, f.hostMem]

theorem whiskTouch_lookedUp (s : State) (q : Queue) (asid va n : Nat) (right : Right) : LookedUp s (s.whiskTouch q asid va n right) := by
  refine .foldl _ _ (fun s p _ => ?_) s
  extract_lets s1
  have h1 : LookedUp s s1 := walked_lookedUp ..
  split
  · exact h1.trans (l2Home_lookedUp ..)
  · exact h1

theorem LookedUp.slot (f : LookedUp s t) (k : Nat) : t.slot k = s.slot k := congrArg (·.slot k) f.1
theorem LookedUp.queue (f : LookedUp s t) (q : Nat) : t.queue q = s.queue q := congrArg (·.queue q) f.1

/-- What the release of Whisk waits for is over: the requests of the partition before it are acknowledged, and no partner that was cut off owes it a
duplicate (R73, R91). -/
theorem whiskQuiet_iff (s : State) (p ord : Nat) : s.whiskQuiet p ord = true ↔ (∀ u ∈ s.fab.unacked, u.part = p → ord ≤ u.ord)
    ∧ (fieldOf (s.part p).mirror 30 30 = 1 ∨ ∀ m ∈ s.fab.mirrorWait, m.1 = p → m.2.2.1 ≠ 2 ^ 32) := by
  simp [State.whiskQuiet]

/-- A store of Whisk that leads to HBM puts its word there (R92, R103). -/
theorem whiskStore_hbm {q : Queue} {asid va pa : Nat} {m : Bool} (go : s.whiskGo q asid va .write = .hbm pa m) (within : pa + 8 ≤ hbmEnd) (scope : Nat)
    (st : Nat × Nat) (x : Nat) :
    ∃ t, s.whiskStore q asid va scope st x = some t ∧ t.bytesAt pa 8 = natBytes 8 x ∧ t.slots = s.slots := by
  unfold State.whiskStore
  rw [go]
  dsimp only
  refine ⟨_, rfl, ?_⟩
  have length : (natBytes 8 x).length = 8 := length_natBytes 8 x
  generalize hv : (s.whiskTouch q asid va 8 .write).crossed (s.whiskAgent q).die (homeDie pa) = v
  have slots : v.slots = s.slots := by
    rw [← hv]
    exact (congrArg (·.slots) (crossed_wakes ..).frame).trans (congrArg (·.slots) (whiskTouch_lookedUp ..).1)
  have tail := writeHome_tail (ag := s.whiskAgent q) rfl rfl (s.whiskTouch q asid va 8 .write) m pa (natBytes 8 x)
  rw [hv] at tail
  have stamped := TailFrame.ite (c := 4 ≤ scope) (tail.stampLine (pa := pa) (st := st) (rmw := false)) tail
  refine ⟨(stamped.bytesAt pa 8).trans ?_, (congrArg (·.slots) stamped.frame).trans ((congrArg (·.slots) (storeHome_stores v pa _).frame).trans slots)⟩
  have bytes := bytesAt_storeHome (s := v) (a := pa) (bs := natBytes 8 x) (by rwa [length])
  rwa [length] at bytes

/-! ## Slots (R90) -/

/-- Of two states, the second differs only in a slot, in the numbers drawn and in the agenda. -/
structure ArmFrame (k : Nat) (s t : State) : Prop where
  frame : t = { s with slots := t.slots, nextId := t.nextId, agenda := t.agenda, fresh := t.fresh }
  others : ∀ j, j ≠ k → t.slot j = s.slot j

theorem ArmFrame.updSlot (s : State) (k : Nat) (f : Slot → Slot) : ArmFrame k s (s.updSlot k f) := ⟨rfl, fun _ ne => State.slot_updSlot_ne s f ne⟩

theorem ArmFrame.trans {k : Nat} (h : ArmFrame k s t) (f : ArmFrame k t u) : ArmFrame k s u := by
  have e := f.frame
  rw [h.frame] at e
  exact ⟨e, fun j ne => (f.others j ne).trans (h.others j ne)⟩

theorem ArmFrame.queue {k : Nat} (h : ArmFrame k s t) (q : Nat) : t.queue q = s.queue q := congrArg (·.queue q) h.frame

theorem ArmFrame.kicked {k : Nat} (h : ArmFrame k s t) (f : KickFrame t u) : ArmFrame k s u := by
  refine ⟨?_, fun j ne => (f.slot j).trans (h.others j ne)⟩
  have slots : u.slots = t.slots := congrArg (·.slots) f.frame
  have ids : u.nextId = t.nextId := congrArg (·.nextId) f.frame
  have e := f.frame
  unfold ScheduleFrame at e
  rw [h.frame] at e
  rw [slots, ids]
  exact e

/-- An armed slot is READY at a counter of 0, else PENDING (R90). -/
theorem armSlot_arms (s : State) (k c : Nat) : ArmFrame k s (s.armSlot k c)
    ∧ ∃ o n, (s.armSlot k c).slot k = { s.slot k with st := if c = 0 then .ready else .pending, ctr := c, run := .none, order := o, runs := n } := by
  unfold State.armSlot
  split
  · next zero =>
    obtain rfl : c = 0 := by simpa using zero
    unfold State.makeReady
    extract_lets s1 s2 s3
    have h3 : KickFrame s2 s3 := (KickFrame.refl s2).kickSlot
    have h4 : KickFrame s2 (if Node.kind (s3.slot k).node == 1 then s3.gainWork (s3.vdPart (s3.queue (s3.slot k).hq).vf) else s3) := .ite h3.gainWork h3
    have h2 : ArmFrame k s s2 := ⟨rfl, fun j ne => (show s2.slot j = s1.slot j from rfl).trans (State.slot_updSlot_ne s _ ne)⟩
    refine ⟨h2.kicked h4, s.nextId, 0, (h4.slot k).trans ((show s2.slot k = s1.slot k from rfl).trans ((State.slot_updSlot_self s k _).trans ?_))⟩
    rw [if_pos rfl]
  · next pos =>
    have ne : c ≠ 0 := by simpa using pos
    refine ⟨.updSlot .., (s.slot k).order, (s.slot k).runs, (State.slot_updSlot_self ..).trans ?_⟩
    rw [if_neg ne]

/-- A record that is loaded counts from its PRED_INIT, less the decrements that came early (R90). -/
theorem loadNode_loads {hq k : Nat} {n : List Byte} (count : (s.slot k).ctr ≤ Node.predInit n) :
    ArmFrame k s (s.loadNode hq k n) ∧ ((s.loadNode hq k n).slot k).node = n ∧ ((s.loadNode hq k n).slot k).hq = hq
      ∧ ((s.loadNode hq k n).slot k).ctr = Node.predInit n - (s.slot k).ctr
      ∧ ((s.loadNode hq k n).slot k).st = if Node.predInit n = (s.slot k).ctr then .ready else .pending := by
  rw [State.loadNode, if_neg (by omega)]
  generalize hu : s.updSlot k (fun x => { x with node := n, hq := hq }) = u
  have slot : u.slot k = { s.slot k with node := n, hq := hq } := by rw [← hu, State.slot_updSlot_self]
  have f : ArmFrame k s u := hu ▸ .updSlot ..
  obtain ⟨armed, o, m, eq⟩ := armSlot_arms u k (Node.predInit n - (s.slot k).ctr)
  rw [eq, slot]
  exact ⟨f.trans armed, rfl, rfl, rfl, if_congr (by omega) rfl rfl⟩

theorem slot_raiseIrq (s : State) (fn : HostFn) (vec k : Nat) : (s.raiseIrq fn vec).slot k = s.slot k := by
  obtain ⟨v, m, o, e⟩ := raiseIrq_eq s fn vec
  rw [e]
  rfl

theorem slot_queueError (s : State) (hq code x k : Nat) : (s.queueError hq code x).slot k = s.slot k := by
  unfold State.queueError
  extract_lets q st
  split
  · rfl
  · exact slot_raiseIrq ..

theorem rearm_eq {hq k : Nat} (early : (s.slot k).st ≠ .done ∨ (s.slot k).ctr = 0) : s.rearm hq k = s.armSlot k (Node.predLoop (s.slot k).node) := by
  have none_ : (if (s.slot k).st == .done then (s.slot k).ctr else 0) = 0 := by
    rcases early with h | h <;> simp [h]
  unfold State.rearm
  simp only [none_]
  rfl

theorem slot_rearm_ne (s : State) {hq k j : Nat} (ne : j ≠ k) : (s.rearm hq k).slot j = s.slot j := by
  unfold State.rearm
  extract_lets
  split
  · exact slot_queueError ..
  · exact (armSlot_arms ..).1.others j ne

/-- Slots that are armed again one after another leave every other alone. -/
theorem slot_foldl_rearm (hq : Nat) {k : Nat} {l : List Nat} (out : k ∉ l) (s : State) :
    (l.foldl (fun s r => if (s.slot r).st == .pending || (s.slot r).st == .done then s.rearm hq r else s) s).slot k = s.slot k := by
  refine List.foldlRecOn l _ (motive := fun (t : State) => t.slot k = s.slot k) rfl fun t h r hr => ?_
  split
  · exact (slot_rearm_ne t fun e => out (by rwa [e])).trans h
  · exact h

theorem decrement_pending {hq k : Nat} (pending : (s.slot k).st = .pending) : s.decrement hq k = s.armSlot k ((s.slot k).ctr - 1) := by
  unfold State.decrement
  simp only [pending]

theorem decrement_early {hq k : Nat} (loaded : (s.slot k).st = .free ∨ (s.slot k).st = .done) :
    s.decrement hq k = s.updSlot k (fun x => { x with ctr := (x.ctr + 1) % 65536 }) := by
  unfold State.decrement
  rcases loaded with h | h <;> simp only [h]

theorem decrement_late {hq k : Nat} (late : (s.slot k).st = .ready ∨ (s.slot k).st = .running) :
    s.decrement hq k = s.queueError hq 0x03 (k - (s.queue hq).slotBase) := by
  unfold State.decrement
  rcases late with h | h <;> simp only [h]

theorem nodeEnded_ends {hq k : Nat} (running : (s.slot k).st = .running) :
    ((s.nodeEnded hq k).slot k).run = .ended ∧ ((s.nodeEnded hq k).slot k).st = .running ∧ (s.nodeEnded hq k).due (.nodeComplete hq k) = true := by
  have slot := ((KickFrame.refl _).soonOnce (i := .nodeComplete hq k)).slot k |>.trans (State.slot_updSlot_self s k fun x => { x with run := .ended })
  rw [State.nodeEnded, slot]
  exact ⟨rfl, running, due_soonOnce_self ..⟩

/-! ## Record fetch (R88 to R90) -/

section
variable {hq : Nat}

/-- The address of the record that is fetched next. -/
def nextRecord (q : Queue) : Nat := q.base.toNat + 64 * (q.head.toNat % q.ringSize)

/-- The state in which a record of a queue has been read and its head moved past it. -/
def headMoved (s : State) (hq : Nat) : State :=
  (s.whiskTouch (s.queue hq) (s.queue hq).asid (nextRecord (s.queue hq)) 64 .read).updQueue hq (fun q => { q with head := q.head + 1 })

theorem slot_headMoved (s : State) (hq k : Nat) : (headMoved s hq).slot k = s.slot k := (whiskTouch_lookedUp ..).slot k

theorem queue_nodeSaw (s : State) (k : Nat) (st : Nat × Nat) (q : Nat) : (s.nodeSaw k st).queue q = s.queue q := rfl

variable (on : s.whiskOn hq = true) (waits : (s.queue hq).head ≠ (s.queue hq).tail)
include on waits

theorem execRecordFetch_unread (bad : s.whiskRead (s.queue hq) (s.queue hq).asid (nextRecord (s.queue hq)) 64 = none) :
    execRecordFetch hq s = .next (s.queueError hq 0x05 0) := by
  rw [nextRecord] at bad
  rw [execRecordFetch, if_neg (by simp [on, waits])]
  dsimp only
  rw [bad]

variable {n : List Byte} (read : s.whiskRead (s.queue hq) (s.queue hq).asid (nextRecord (s.queue hq)) 64 = some n)
include read

theorem execRecordFetch_badSlot (out : (s.queue hq).slotCount ≤ Node.slot n) : execRecordFetch hq s = .next ((headMoved s hq).queueError hq 0x01 0) := by
  rw [nextRecord] at read
  rw [execRecordFetch, if_neg (by simp [on, waits])]
  dsimp only
  rw [read]
  have outside : decide (Node.slot n < (s.queue hq).slotCount) = false := by simpa using out
  simp only [outside]
  rfl

variable (inside : Node.slot n < (s.queue hq).slotCount) {k : Nat} (at_ : k = (s.queue hq).slotBase + Node.slot n)
include inside at_

theorem execRecordFetch_stalls (busy : (s.slot k).st = .pending ∨ (s.slot k).st = .ready ∨ (s.slot k).st = .running) :
    execRecordFetch hq s = .next s := by
  subst at_
  rw [nextRecord] at read
  rw [execRecordFetch, if_neg (by simp [on, waits])]
  dsimp only
  rw [read]
  dsimp only
  rw [if_pos]
  rcases busy with h | h | h <;> simp [inside, h]

variable (idle : (s.slot k).st = .free ∨ (s.slot k).st = .done)
include idle

theorem execRecordFetch_badNode (bad : Node.ok n (s.queue hq).slotCount = false) : execRecordFetch hq s = .next ((headMoved s hq).nodeFail hq k 0x01) := by
  subst at_
  rw [nextRecord] at read
  rw [execRecordFetch, if_neg (by simp [on, waits])]
  dsimp only
  rw [read]
  dsimp only
  rw [if_neg (by rcases idle with h | h <;> simp [h]), if_neg (by simpa using inside), if_pos (by simp [bad])]
  rfl

theorem execRecordFetch_eq (ok : Node.ok n (s.queue hq).slotCount = true) :
    execRecordFetch hq s
      = .next ((((headMoved s hq).nodeSaw k (s.whiskSaw (s.queue hq) (s.queue hq).asid (nextRecord (s.queue hq)) 64)).loadNode hq k n).slotChanged hq) := by
  subst at_
  rw [nextRecord] at read
  rw [execRecordFetch, if_neg (by simp [on, waits])]
  dsimp only
  rw [read]
  dsimp only
  rw [if_neg (by rcases idle with h | h <;> simp [h]), if_neg (by simpa using inside), if_neg (by simp [ok])]
  rfl

theorem execRecordFetch_loads (ok : Node.ok n (s.queue hq).slotCount = true) (count : (s.slot k).ctr ≤ Node.predInit n) :
    ∃ t, execRecordFetch hq s = .next t ∧ (t.queue hq).head = (s.queue hq).head + 1 ∧ (t.slot k).node = n ∧ (t.slot k).hq = hq
      ∧ (t.slot k).ctr = Node.predInit n - (s.slot k).ctr ∧ (t.slot k).st = if Node.predInit n = (s.slot k).ctr then .ready else .pending := by
  refine ⟨_, execRecordFetch_eq on waits read inside at_ idle ok, ?_⟩
  generalize s.whiskSaw (s.queue hq) (s.queue hq).asid _ 64 = st
  have queue : ((headMoved s hq).queue hq).head = (s.queue hq).head + 1 := by
    rw [headMoved, State.queue_updQueue_self, (whiskTouch_lookedUp ..).queue]
  have saw : ((headMoved s hq).nodeSaw k st).slot k = { s.slot k with stamp := stampMax (s.slot k).stamp st } :=
    (State.slot_updSlot_self ..).trans (by rw [slot_headMoved])
  have loaded := loadNode_loads (s := (headMoved s hq).nodeSaw k st) (hq := hq) (by rwa [saw])
  obtain ⟨f, node, hq_, ctr, state⟩ := loaded
  have changed := (KickFrame.refl (((headMoved s hq).nodeSaw k st).loadNode hq k n)).slotChanged (hq := hq)
  rw [changed.queue, changed.slot, f.queue, queue_nodeSaw]
  rw [saw] at ctr state
  exact ⟨queue, node, hq_, ctr, state⟩

end

end Sys2Proof.Machine
end

section
/-!
SUPPORT. The rows of nodes at work (O60): completion, WAIT, COND and HOSTPOST, with the decrements and the re-arming of slots.
-/

namespace Sys2Proof.Machine

/- Elaborated one after another: at one thread for each of so many short theorems, the stacks together would pass the memory limit. -/
set_option Elab.async false

variable {s t u : State} {hq k : Nat}

/-! ## Decrements (R90) -/

theorem decrement_counts (pending : (s.slot k).st = .pending) :
    ((s.decrement hq k).slot k).ctr = (s.slot k).ctr - 1
      ∧ ((s.decrement hq k).slot k).st = if (s.slot k).ctr - 1 = 0 then .ready else .pending := by
  obtain ⟨-, o, n, armed⟩ := armSlot_arms s k ((s.slot k).ctr - 1)
  rw [decrement_pending pending, armed]
  exact ⟨rfl, rfl⟩

/-! ## The end of a node's work (R91) -/

/-- A node without a successor decrements none: 0xFFFF names none (R89). -/
theorem foldl_noSucc {f : State → Nat → State} {l : List Nat} (alone : ∀ r ∈ l, r = 0xFFFF) (s : State) :
    l.foldl (fun s r => if r == 0xFFFF then s else f s r) s = s :=
  List.foldlRecOn l _ (motive := fun t : State => t = s) rfl fun _ e r hr => by rw [e, if_pos (by simp [alone r hr])]

section
variable (running : (s.slot k).st = .running) (mine : (s.slot k).hq = hq) (runs : s.nodeRuns hq 1 = true) (ended : (s.slot k).run = .ended)
include running mine runs ended

/-- A completion whose release is over frees or finishes its slot; without a successor no other slot changes it. -/
theorem execNodeComplete_frees (quiet : s.whiskQuiet (s.vdPart (s.queue hq).vf) ((s.slot k).fence.getD s.nextId) = true)
    (alone : ∀ r ∈ Node.succs (s.slot k).node, r = 0xFFFF) :
    ∃ t, execNodeComplete hq k s = .next t
      ∧ t.slot k = if Node.keep (s.slot k).node then
          { s.slot k with st := .done, ctr := 0, run := .none, runs := 0, fence := none, stamp := (0, 0) } else .reset := by
  unfold execNodeComplete
  simp only [ended]
  rw [if_neg (by simp [running, mine, runs]), if_neg (by simp [quiet]), foldl_noSucc alone]
  exact ⟨_, rfl, ((KickFrame.refl _).slotChanged.slot k).trans (State.slot_updSlot_self ..)⟩

theorem execNodeComplete_waits (busy : ¬ s.whiskQuiet (s.vdPart (s.queue hq).vf) ((s.slot k).fence.getD s.nextId) = true) :
    ∃ t, execNodeComplete hq k s = .next t ∧ t.slot k = { s.slot k with fence := some ((s.slot k).fence.getD s.nextId) }
      ∧ t.due (.nodeComplete hq k) = true := by
  unfold execNodeComplete
  simp only [ended]
  rw [if_neg (by simp [running, mine, runs]), if_pos (by simp [busy])]
  refine ⟨_, rfl, ((KickFrame.refl _).soonOnce.slot k).trans ?_, due_soonOnce_self ..⟩
  rw [State.slot_updSlot_self, ← ended]

end

/-! ## WAIT and COND (R92, R93) -/

theorem slot_nodeSaw (s : State) (k : Nat) (st : Nat × Nat) :
    (s.nodeSaw k st).slot k = { s.slot k with stamp := stampMax (s.slot k).stamp st } := State.slot_updSlot_self ..

theorem slot_nodeRead (s : State) (hq k : Nat) : (s.nodeRead hq k).slot k
    = { s.slot k with stamp := stampMax (s.slot k).stamp (s.whiskSaw (s.queue hq) (s.queue hq).asid (Node.va (s.slot k).node) 8) } := by
  rw [State.nodeRead]
  dsimp only
  rw [slot_nodeSaw, (whiskTouch_lookedUp ..).slot]

theorem runWait_unread (bad : s.nodeWord hq k = none) : s.runWait hq k = s.nodeFail hq k 0x08 := by
  rw [State.runWait, bad]

theorem runWait_holds {y : Nat} (word : s.nodeWord hq k = some y) (holds : Node.holds (s.slot k).node y = true) :
    s.runWait hq k = (s.nodeRead hq k).nodeEnded hq k := by
  rw [State.runWait, word]
  exact if_pos holds

theorem runWait_again {y : Nat} (word : s.nodeWord hq k = some y) (fails : Node.holds (s.slot k).node y = false) :
    (s.runWait hq k).slot k
        = { s.slot k with run := .waiting, stamp := stampMax (s.slot k).stamp (s.whiskSaw (s.queue hq) (s.queue hq).asid (Node.va (s.slot k).node) 8) }
      ∧ (s.runWait hq k).due (.waitPoll hq k) = true := by
  rw [State.runWait, word]
  dsimp only
  rw [if_neg (by simp [fails])]
  refine ⟨((KickFrame.refl _).atTick.drawn.slot k).trans ((State.slot_updSlot_self ..).trans (by rw [slot_nodeRead])), ?_⟩
  exact (KickFrame.refl _).drawn.due (due_atTick_self ..)

theorem execWaitPoll_eq (running : (s.slot k).st = .running) (mine : (s.slot k).hq = hq) (waits : (s.slot k).run = .waiting)
    (wait : Node.kind (s.slot k).node = 4) (runs : s.nodeRuns hq 4 = true) : execWaitPoll hq k s = .next (s.runWait hq k) := by
  unfold execWaitPoll
  dsimp only
  rw [wait, if_neg (by simp [running, mine, waits, runs])]
  rfl

/-- The slots of the range of a COND. -/
def condRange (s : State) (hq k : Nat) : List Nat :=
  (List.range (Node.last (s.slot k).node + 1 - Node.first (s.slot k).node)).map (fun i => (s.queue hq).slotBase + Node.first (s.slot k).node + i)

theorem execCondRangeIdle_rearms (running : (s.slot k).st = .running) (mine : (s.slot k).hq = hq) (waits : (s.slot k).run = .condWait)
    (runs : s.nodeRuns hq 6 = true) (idle : ∀ r ∈ condRange s hq k, (s.slot r).st ≠ .ready ∧ (s.slot r).st ≠ .running) :
    ∃ t, execCondRangeIdle hq k s = .next t ∧ (t.slot k).st = (if Node.predLoop (s.slot k).node = 0 then .ready else .pending)
      ∧ (t.slot k).ctr = Node.predLoop (s.slot k).node := by
  have quiet : (condRange s hq k).any (fun r => (s.slot r).st == .ready || (s.slot r).st == .running) = false := by
    simpa using idle
  have out : k ∉ condRange s hq k := fun h => (idle k h).2 running
  unfold execCondRangeIdle
  change ∃ t, (if (_ || (condRange s hq k).any _) = true then _ else Host.Outcome.next (State.slotChanged (State.rearm ((condRange s hq k).foldl _ s) hq k) hq)) = _ ∧ _
  rw [quiet, if_neg (by simp [running, mine, waits, runs])]
  generalize hv : (condRange s hq k).foldl (fun s r => if (s.slot r).st == .pending || (s.slot r).st == .done then s.rearm hq r else s) s = v
  have slot : v.slot k = s.slot k := hv ▸ slot_foldl_rearm hq out s
  obtain ⟨-, o, n, armed⟩ := armSlot_arms v k (Node.predLoop (v.slot k).node)
  refine ⟨_, rfl, ?_⟩
  rw [(KickFrame.refl _).slotChanged.slot, rearm_eq (.inl (by simp [slot, running])), armed, slot]
  exact ⟨rfl, rfl⟩

end Sys2Proof.Machine
end

section
/-!
SUPPORT. HOSTPOST (O60): the record and the producer index that one turn writes, which nothing of its interrupts changes (`PostView`).
-/

namespace Sys2Proof.Machine

/- Elaborated one after another: at one thread for each of so many short theorems, the stacks together would pass the memory limit. -/
set_option Elab.async false

variable {s t u : State} {hq k : Nat}

/-! ## What interrupts leave alone (R96) -/

/-- Two states agree in slots, rings and host memory. -/
structure PostView (s t : State) : Prop where
  slots : t.slots = s.slots
  rings : t.rings = s.rings
  hostMem : t.hostMem = s.hostMem

namespace PostView

theorem refl (s : State) : PostView s s := ⟨rfl, rfl, rfl⟩

theorem trans (f : PostView s t) (g : PostView t u) : PostView s u :=
  ⟨g.slots.trans f.slots, g.rings.trans f.rings, g.hostMem.trans f.hostMem⟩

theorem slot (f : PostView s t) (k : Nat) : t.slot k = s.slot k := congrArg (fun l => Tbl.getD l k Slot.reset) f.slots

theorem ring (f : PostView s t) (vf k : Nat) : t.ring vf k = s.ring vf k := congrArg (fun l => Tbl.getD l (vf * 16 + k) Ring.reset) f.rings

theorem raiseIrq (s : State) (fn : HostFn) (vec : Nat) : PostView s (s.raiseIrq fn vec) := by
  obtain ⟨v, m, o, e⟩ := raiseIrq_eq s fn vec
  rw [e]
  exact ⟨rfl, rfl, rfl⟩

theorem raiseIrqs {α : Type} (fn : HostFn) (vec : Nat) (l : List α) (s : State) : PostView s (l.foldl (fun s _ => s.raiseIrq fn vec) s) :=
  List.foldlRecOn l _ (motive := PostView s) (.refl s) fun _ h _ _ => h.trans (.raiseIrq ..)

theorem schedule (f : ScheduleFrame s t) : PostView s t := ⟨congrArg (·.slots) f, congrArg (·.rings) f, congrArg (·.hostMem) f⟩

theorem lookedUp (f : LookedUp s t) : PostView s t := ⟨congrArg (·.slots) f.1, congrArg (·.rings) f.1, congrArg (·.hostMem) f.1⟩

end PostView

theorem cfg_raiseIrq (s : State) (fn : HostFn) (vec v : Nat) : ((s.raiseIrq fn vec).vd v).cfg = (s.vd v).cfg := by
  unfold State.raiseIrq
  split
  · cases fn with
    | pf => rfl
    | vf j =>
      by_cases h : v = j.val
      · subst h
        exact congrArg (·.cfg) (State.vd_updVd_self ..)
      · exact congrArg (·.cfg) (State.vd_updVd_ne _ _ h)
  · rfl

theorem whiskView_raiseIrq (s : State) (fn : HostFn) (vec : Nat) : WhiskView s (s.raiseIrq fn vec) := by
  have cfg := cfg_raiseIrq s fn vec
  obtain ⟨v, m, o, e⟩ := raiseIrq_eq s fn vec
  rw [e] at cfg ⊢
  exact ⟨rfl, rfl, rfl, rfl, cfg⟩

theorem whiskView_ringTick (s : State) (vf k : Nat) : WhiskView s (s.ringTick vf k) := by
  unfold State.ringTick
  extract_lets r
  split
  · exact WhiskView.trans (t := s.updRing vf k (fun r => { r with pend := 0 })) ⟨rfl, rfl, rfl, rfl, fun _ => rfl⟩ (whiskView_raiseIrq ..)
  · exact ⟨rfl, rfl, rfl, rfl, fun _ => rfl⟩

/-- An interrupt of the timer that is due leaves slots and host memory. -/
theorem ringTick_keeps (s : State) (vf k : Nat) : (s.ringTick vf k).slots = s.slots ∧ (s.ringTick vf k).hostMem = s.hostMem := by
  unfold State.ringTick
  extract_lets r
  split
  · have f := PostView.raiseIrq (s.updRing vf k (fun r => { r with pend := 0 })) (.vf (Fin.ofNat 32 vf)) r.vec
    exact ⟨f.slots, f.hostMem⟩
  · exact ⟨rfl, rfl⟩

/-! ## One record (R95) -/

/-- Where a ring holds its next record. -/
def Ring.slotAt (r : Ring) : Nat := r.base.toNat / 4096 * 4096 + 64 * (r.prod.toNat % r.size)

theorem counted_fields (now : Nat) (r : Ring) :
    (Ring.counted now r).2.prod = r.prod ∧ (Ring.counted now r).2.paddr = r.paddr := by
  unfold Ring.counted
  extract_lets r1
  split <;> exact ⟨rfl, rfl⟩

theorem appendRecord_writes (s : State) (vf k : Nat) (bs : List Byte) :
    (s.appendRecord vf k bs).2.slots = s.slots ∧ (s.appendRecord vf k bs).2.hostMem = Memory.write s.hostMem (s.ring vf k).slotAt bs
      ∧ ((s.appendRecord vf k bs).2.ring vf k).prod = (s.ring vf k).prod + 1
      ∧ ((s.appendRecord vf k bs).2.ring vf k).paddr = (s.ring vf k).paddr := by
  obtain ⟨prod, paddr⟩ := counted_fields s.reft { s.ring vf k with prod := (s.ring vf k).prod + 1 }
  have ring : (s.appendRecord vf k bs).2.ring vf k = (Ring.counted s.reft { s.ring vf k with prod := (s.ring vf k).prod + 1 }).2 :=
    State.ring_updRing_self ..
  rw [ring]
  exact ⟨rfl, rfl, prod, paddr⟩

/-- The last record of a HOSTPOST, which can be read and for which the ring has room. -/
theorem appendGroup_one {q : Queue} {n bs : List Byte} {i : Nat} (room : (s.ring q.vf (Node.ring n)).room ≠ 0)
    (read : s.whiskRead q q.asid (Node.va n + 64 * i) 64 = some bs) :
    let a := (s.whiskTouch q q.asid (Node.va n + 64 * i) 64 .read).appendRecord q.vf (Node.ring n) bs
    s.appendGroup q n 1 i = (i + 1, true, bnat a.1, a.2) := by
  rw [State.appendGroup, if_neg (by simpa using room), read]
  rfl

theorem execHostpostAppend_eq {i : Nat} (running : (s.slot k).st = .running) (mine : (s.slot k).hq = hq) (runs : s.nodeRuns hq 7 = true)
    (posts : (s.slot k).run = .posted i) (turn : s.posterOn (s.queue hq).vf (Node.ring (s.slot k).node) = some k) :
    execHostpostAppend hq k s = .next (s.post hq k i) := by
  unfold execHostpostAppend
  simp only [posts]
  rw [if_neg (by simp [running, mine, runs, turn])]

/-- After a turn of a HOSTPOST that has written records: how many in all stands in its slot, and the producer index in host memory. -/
def indexWritten (s : State) (vf ring k i : Nat) : State :=
  (s.updSlot k (fun x => { x with run := .posted i })).putHost ((s.ring vf ring).paddr.toNat / 8 * 8) (natBytes 8 (s.ring vf ring).prod.toNat)

theorem slot_indexWritten (s : State) (vf ring k i : Nat) : (indexWritten s vf ring k i).slot k = { s.slot k with run := .posted i } :=
  State.slot_updSlot_self s k (fun x => { x with run := .posted i })

/-- Then the interrupts due are raised and the timer is set anew. -/
def turnOver (s : State) (vf ring k i irqs : Nat) : State :=
  ((List.range irqs).foldl (fun t _ => t.raiseIrq (.vf (Fin.ofNat 32 vf)) (s.ring vf ring).vec) (indexWritten s vf ring k i)).armRing vf ring

theorem turnOver_view (s : State) (vf ring k i irqs : Nat) : PostView (indexWritten s vf ring k i) (turnOver s vf ring k i irqs) :=
  (PostView.raiseIrqs ..).trans (.schedule (armRing_schedule ..))

section
variable {i : Nat} {bs : List Byte} (last : Node.count (s.slot k).node = i + 1)
  (enabled : (s.ring (s.queue hq).vf (Node.ring (s.slot k).node)).enabled = true)
  (room : (s.ring (s.queue hq).vf (Node.ring (s.slot k).node)).room ≠ 0)
  (read : s.whiskRead (s.queue hq) (s.queue hq).asid (Node.va (s.slot k).node + 64 * i) 64 = some bs)
include last enabled room read

/-- The turn that writes the last record (R95, R96): the record, then the index and the interrupts, then the end of the node. -/
theorem post_writes : ∃ a : State, ∃ irqs,
    s.post hq k i = ((turnOver a (s.queue hq).vf (Node.ring (s.slot k).node) k (i + 1) irqs).nodeEnded hq k).kickRing (s.queue hq).vf (Node.ring (s.slot k).node)
      ∧ a.slots = s.slots ∧ a.hostMem = Memory.write s.hostMem (s.ring (s.queue hq).vf (Node.ring (s.slot k).node)).slotAt bs
      ∧ (a.ring (s.queue hq).vf (Node.ring (s.slot k).node)).prod = (s.ring (s.queue hq).vf (Node.ring (s.slot k).node)).prod + 1
      ∧ (a.ring (s.queue hq).vf (Node.ring (s.slot k).node)).paddr = (s.ring (s.queue hq).vf (Node.ring (s.slot k).node)).paddr := by
  unfold State.post
  generalize s.queue hq = q at enabled room read ⊢
  generalize (s.slot k).node = n at enabled room read last ⊢
  dsimp only
  rw [if_neg (by simp [enabled])]
  have one : Node.count n - i = 1 := by omega
  -- the timer's interrupt, if one is due, leaves the ring's records and what Whisk reads
  obtain ⟨p, ticked⟩ := ring_ringTick s q.vf (Node.ring n)
  obtain ⟨slots1, host1⟩ := ringTick_keeps s q.vf (Node.ring n)
  have view := whiskView_ringTick s q.vf (Node.ring n)
  generalize s.ringTick q.vf (Node.ring n) = t at ticked slots1 host1 view ⊢
  rw [one, appendGroup_one (by rw [ticked]; exact room) ((view.whiskRead ..).trans read)]
  dsimp only
  have touched := PostView.lookedUp (whiskTouch_lookedUp t q q.asid (Node.va n + 64 * i) 64 .read)
  obtain ⟨slots2, host2, prod2, paddr2⟩ := appendRecord_writes (t.whiskTouch q q.asid (Node.va n + 64 * i) 64 .read) q.vf (Node.ring n) bs
  rw [touched.ring, ticked] at host2 prod2 paddr2
  rw [touched.slots, slots1] at slots2
  rw [touched.hostMem, host1] at host2
  generalize (t.whiskTouch q q.asid (Node.va n + 64 * i) 64 .read).appendRecord q.vf (Node.ring n) bs = a at slots2 host2 prod2 paddr2 ⊢
  rw [if_neg (by simp), if_pos (by omega), if_neg (by simp)]
  exact ⟨a.2, bnat a.1, rfl, slots2, host2, prod2, paddr2⟩

theorem post_last (running : (s.slot k).st = .running) :
    (((s.post hq k i).slot k).run = .ended ∧ ((s.post hq k i).slot k).st = .running ∧ (s.post hq k i).due (.nodeComplete hq k) = true)
      ∧ ((s.post hq k i).ring (s.queue hq).vf (Node.ring (s.slot k).node)).prod = (s.ring (s.queue hq).vf (Node.ring (s.slot k).node)).prod + 1
      ∧ (s.post hq k i).hostMem = Memory.write (Memory.write s.hostMem (s.ring (s.queue hq).vf (Node.ring (s.slot k).node)).slotAt bs)
          ((s.ring (s.queue hq).vf (Node.ring (s.slot k).node)).paddr.toNat / 8 * 8)
          (natBytes 8 ((s.ring (s.queue hq).vf (Node.ring (s.slot k).node)).prod + 1).toNat) := by
  obtain ⟨a, irqs, eq, slots, host, prod, paddr⟩ := post_writes last enabled room read
  rw [eq, ← host, ← prod, ← paddr]
  generalize (s.queue hq).vf = vf
  generalize Node.ring (s.slot k).node = ring
  have turned := turnOver_view a vf ring k (i + 1) irqs
  generalize turnOver a vf ring k (i + 1) irqs = v at turned ⊢
  have slot : v.slot k = { s.slot k with run := .posted (i + 1) } := by
    rw [turned.slot, slot_indexWritten, show s.slot k = a.slot k from congrArg (fun l => Tbl.getD l k Slot.reset) slots.symm]
  obtain ⟨run, st, due⟩ := nodeEnded_ends (s := v) (hq := hq) (k := k) (by rw [slot]; exact running)
  have kicked := (KickFrame.refl (v.nodeEnded hq k)).kickRing (vf := vf) (ring := ring)
  have ended : PostView (v.updSlot k (fun x => { x with run := .ended })) ((v.nodeEnded hq k).kickRing vf ring) :=
    (PostView.schedule (soonOnce_schedule _ (.nodeComplete hq k))).trans (.schedule kicked.frame)
  refine ⟨⟨by rw [kicked.slot, run], by rw [kicked.slot, st], kicked.due due⟩, ?_, ?_⟩
  · rw [ended.ring]
    exact congrArg (·.prod) (turned.ring vf ring)
  · rw [ended.hostMem]
    exact turned.hostMem

end

end Sys2Proof.Machine
end

section
/-!
SUPPORT. The start of a node and the ends of launches (O60), then the obligation itself.
-/

namespace Sys2Proof.Machine

/- Elaborated one after another: at one thread for each of so many short theorems, the stacks together would pass the memory limit. -/
set_option Elab.async false

variable {s t u : State} {hq k : Nat}

/-! ## The start of a node (R90, R92) -/

/-- The state in which a READY node starts. -/
def nodeStarted (s : State) (k : Nat) : State := s.updSlot k (fun x => { x with st := .running, run := .none })

theorem slot_nodeStarted (s : State) (k : Nat) : (nodeStarted s k).slot k = { s.slot k with st := .running, run := .none } :=
  State.slot_updSlot_self s k (fun x => { x with st := .running, run := .none })

theorem whiskView_nodeStarted (s : State) (k : Nat) : WhiskView s (nodeStarted s k) := ⟨rfl, rfl, rfl, rfl, fun _ => rfl⟩

/-- What a node that has started does, by its kind. -/
def nodeWork (s : State) (hq k : Nat) : Nat → State
  | 1 => s.startLaunch hq k
  | 2 | 3 => s.startNodeJob hq k
  | 4 => s.runWait hq k
  | 5 => s.runSignal hq k
  | 6 => s.runCond hq k
  | _ => s.startPost hq k

theorem execNodeStart_works (ready : (s.slot k).st = .ready) (mine : (s.slot k).hq = hq) (on : s.whiskOn hq = true) {n : Nat}
    (kind : Node.kind (s.slot k).node = n) : execNodeStart hq k s = .next (nodeWork (nodeStarted s k) hq k n) := by
  subst kind
  unfold execNodeStart
  rw [if_neg (by simp [ready, mine, on])]
  rfl

section
variable {pa : Nat} {m : Bool} (go : s.whiskGo (s.queue hq) (s.queue hq).asid (Node.va (s.slot k).node) .write = .hbm pa m)
include go

/-- A SIGNAL whose release is over stores its value (R92). -/
theorem runSignal_stores (running : (s.slot k).st = .running) (within : pa + 8 ≤ hbmEnd)
    (quiet : s.whiskQuiet (s.vdPart (s.queue hq).vf) ((s.slot k).fence.getD s.nextId) = true) :
    (s.runSignal hq k).bytesAt pa 8 = natBytes 8 (Node.value (s.slot k).node)
      ∧ ((s.runSignal hq k).slot k).run = .ended ∧ ((s.runSignal hq k).slot k).st = .running ∧ (s.runSignal hq k).due (.nodeComplete hq k) = true := by
  obtain ⟨t, stored, bytes, slots⟩ := whiskStore_hbm go within (Node.scope (s.slot k).node) (s.whiskStamp (s.queue hq) (s.slot k).stamp) (Node.value (s.slot k).node)
  have eq : s.runSignal hq k = (t.updSlot k (fun x => { x with fence := none })).nodeEnded hq k := by
    unfold State.runSignal
    dsimp only
    rw [go]
    dsimp only
    rw [if_neg (by simp), if_neg (by simp [quiet]), stored]
  have slot : (t.updSlot k (fun x => { x with fence := none })).slot k = { s.slot k with fence := none } := by
    rw [State.slot_updSlot_self, show t.slot k = s.slot k from congrArg (fun l => Tbl.getD l k Slot.reset) slots]
  rw [eq]
  refine ⟨?_, nodeEnded_ends (by rw [slot]; exact running)⟩
  have f := (KickFrame.refl ((t.updSlot k (fun x => { x with fence := none })).updSlot k (fun x => { x with run := .ended }))).soonOnce (i := .nodeComplete hq k)
  have same : ((t.updSlot k (fun x => { x with fence := none })).nodeEnded hq k).bytesAt pa 8 = t.bytesAt pa 8 :=
    bytesAt_congr (congrArg (·.mem) f.frame) (congrArg (·.stale) f.frame) pa 8
  exact same.trans bytes

/-- A SIGNAL whose release is not over looks again (R91, R92). -/
theorem runSignal_waits (busy : ¬ s.whiskQuiet (s.vdPart (s.queue hq).vf) ((s.slot k).fence.getD s.nextId) = true) :
    (s.runSignal hq k).due (.waitPoll hq k) = true
      ∧ (s.runSignal hq k).slot k = { s.slot k with run := .waiting, fence := some ((s.slot k).fence.getD s.nextId) } := by
  unfold State.runSignal
  dsimp only
  rw [go]
  dsimp only
  rw [if_neg (by simp), if_pos (by simp [busy])]
  exact ⟨due_soonOnce_self .., ((KickFrame.refl _).soonOnce.slot k).trans (State.slot_updSlot_self ..)⟩

end

/-! ## The timer of a ring (R96) -/

section
variable {vf : Fin 32} {r : Fin 16} (pend : (s.ring vf.val r.val).pend ≠ 0) (timer : (s.ring vf.val r.val).timer ≠ 0)
include pend timer

theorem execRingTimer_raises (passed : (s.ring vf.val r.val).timer ≤ s.reft - (s.ring vf.val r.val).t0) :
    execRingTimer vf r s = .next ((s.updRing vf.val r.val (fun r => { r with pend := 0 })).raiseIrq (.vf vf) (s.ring vf.val r.val).vec) := by
  have same : Fin.ofNat 32 vf.val = vf := Fin.ofNat_val_eq_self vf
  unfold execRingTimer State.ringTick
  rw [if_neg (by simp [pend, timer]), if_pos passed, if_pos (by simp [pend, timer, passed]), same]

theorem execRingTimer_again (early : s.reft - (s.ring vf.val r.val).t0 < (s.ring vf.val r.val).timer) :
    execRingTimer vf r s = .next (s.armRing vf.val r.val) := by
  unfold execRingTimer
  rw [if_neg (by simp [pend, timer]), if_neg (by omega)]

end

/-! ## The ends of launches and child grids (R103, R104, R247) -/

section
variable {g : Nat} {d : Grid}

/-- The completion word of a grid, where one is stored in HBM (R103). -/
theorem completion_stores {pa : Nat} {m : Bool} (word : d.lrec.cword ≠ 0) (go : s.whiskGo (s.queue d.hq) d.asid d.lrec.cword .write = .hbm pa m)
    (within : pa + 8 ≤ hbmEnd) (done : s.completion d = some u) : u.bytesAt pa 8 = natBytes 8 d.lrec.cvalue.toNat := by
  obtain ⟨t, stored, bytes, -⟩ := whiskStore_hbm go within d.lrec.cscope d.did d.lrec.cvalue.toNat
  rw [State.completion, if_neg (by simpa using word), stored] at done
  obtain rfl := Option.some.inj done
  exact bytes

variable (known : Tbl.find s.grids g = some d)
include known

/-- A release at a grid's completion that has to wait has begun, and looks again. -/
theorem doneLater_waits (row : Instr) :
    (s.doneLater g row).due row = true ∧ Tbl.find (s.doneLater g row).grids g = some { d with fence := some (d.fence.getD s.nextId) } := by
  refine ⟨due_soonOnce_self .., ?_⟩
  have same : (s.doneLater g row).grids = _ := congrArg (·.grids) (soonOnce_schedule ..)
  rw [same]
  exact (Tbl.find_upd_self ..).trans (by rw [known]; rfl)

variable (on : s.running = true)
include on

section
variable (gone : s.gridOver g d = true)
include gone

section
variable (root : d.parent = none)
include root

theorem execLaunchComplete_waits (busy : ¬ s.doneQuiet d = true) : execLaunchComplete g s = .next (s.doneLater g (.launchComplete g)) := by
  unfold execLaunchComplete
  rw [known]
  dsimp only
  rw [if_neg (by simp [root, gone, on]), if_pos (by simp [busy])]

variable (quiet : s.doneQuiet d = true)
include quiet

theorem execLaunchComplete_ends (sound : d.childFail = false) (done : s.completion d = some u) :
    execLaunchComplete g s = .next ((((u.forgetGrid g).updSlot d.slot (fun x => { x with stamp := stampMax x.stamp d.did })).nodeEnded d.hq d.slot).slotChanged d.hq) := by
  unfold execLaunchComplete
  rw [known]
  dsimp only
  rw [if_neg (by simp [root, gone, on]), if_neg (by simp [quiet]), if_neg (by simp [sound]), done]

theorem execLaunchComplete_fails (bad : d.childFail = true ∨ s.completion d = none) :
    execLaunchComplete g s = .next (((s.nodeFail d.hq d.slot 0x08).forgetGrid g).slotChanged d.hq) := by
  have none_ : (if d.childFail then none else s.completion d) = none := by
    split
    · rfl
    · exact bad.resolve_left ‹_›
  unfold execLaunchComplete
  rw [known]
  dsimp only
  rw [if_neg (by simp [root, gone, on]), if_neg (by simp [quiet]), none_]

end

section
variable (child : d.parent ≠ none)
include child

theorem execChildGridRetire_waits (busy : ¬ s.doneQuiet d = true) : execChildGridRetire g s = .next (s.doneLater g (.childGridRetire g)) := by
  unfold execChildGridRetire
  rw [known]
  dsimp only
  rw [if_neg (by simp [child, gone, on]), if_pos (by simp [busy])]

variable (quiet : s.doneQuiet d = true)
include quiet

theorem execChildGridRetire_ends (done : s.completion d = some u) : execChildGridRetire g s = .next ((u.forgetGrid g).childGone g d) := by
  unfold execChildGridRetire
  rw [known]
  dsimp only
  rw [if_neg (by simp [child, gone, on]), if_neg (by simp [quiet]), done]

theorem execChildGridRetire_fails (bad : s.completion d = none) :
    execChildGridRetire g s = .next (((s.updGrid d.root (fun r => { r with childFail := true })).forgetGrid g).childGone g d) := by
  unfold execChildGridRetire
  rw [known]
  dsimp only
  rw [if_neg (by simp [child, gone, on]), if_neg (by simp [quiet]), bad]

end
end

section
variable (killed : d.killed = true) (root : d.parent = none)
include killed root

theorem execLaunchReplay_fails (spent : d.unreplayable = true ∨ 3 ≤ (s.slot d.slot).runs) :
    execLaunchReplay g s = .next ((((s.sqGrid 3 d).nodeFail d.hq d.slot 0x06).forgetGrid g).slotChanged d.hq) := by
  unfold execLaunchReplay
  rw [known]
  dsimp only
  rw [if_neg (by simp [killed, root, on]), if_pos (by simpa using spent)]

theorem execLaunchReplay_again (able : d.unreplayable = false) (runs : (s.slot d.slot).runs < 3) :
    execLaunchReplay g s
      = .next (((d.snaps.foldl (fun s e => s.restorePage d e) (s.sqGrid 2 d)).forgetGrid g).startLaunch d.hq d.slot) := by
  unfold execLaunchReplay
  rw [known]
  dsimp only
  rw [if_neg (by simp [killed, root, on]), if_neg (by simp [able, runs])]

end
end

/-- Settles O60: each row by the lemma on it. -/
theorem graphNodes : Obligations.GraphNodes := by
  unfold Obligations.GraphNodes
  refine ⟨fun s hq k n => ?_, fun s vf k => ?_, fun s u g d known => ?_⟩
  · intro q x at_ forward ended runs quiet started range
    have over_ : ∀ f, quiet f ↔ s.whiskQuiet (s.vdPart q.vf) (f.getD s.nextId) = true := fun f => (whiskQuiet_iff ..).symm
    refine ⟨fun on waits => ⟨execRecordFetch_unread on waits, fun read => ⟨execRecordFetch_badSlot on waits read, fun inside place => ⟨?_, ?_, ?_⟩⟩⟩,
      fun ⟨running, mine, runs⟩ ends => ⟨fun still alone => ?_, fun busy => ?_⟩, fun pending many => ?_, fun pending one => ?_, fun loaded => ?_, decrement_late,
      fun ⟨running, mine, runs⟩ waits wait => ⟨fun bad => ?_, fun y word => ⟨fun holds => ?_, fun fails => ?_⟩⟩, fun ⟨running, mine, runs⟩ waits idle => ?_,
      fun i bs ⟨running, mine, runs⟩ posts turn last => ?_, fun ready mine on => ⟨execNodeStart_works ready mine on,
        fun kind => kind.elim (execNodeStart_works ready mine on) (execNodeStart_works ready mine on), execNodeStart_works ready mine on,
        execNodeStart_works ready mine on, execNodeStart_works ready mine on, fun pa m kind go within => ⟨fun still => ?_, fun busy => ?_⟩⟩⟩
    -- the fetch of a record for a slot in use, of a bad record, and of a good one
    · exact execRecordFetch_stalls on waits read inside place
    · exact execRecordFetch_badNode on waits read inside place
    · exact execRecordFetch_loads on waits read inside place
    -- a node's work has ended
    · exact execNodeComplete_frees running mine runs ends ((over_ _).1 still) alone
    · exact execNodeComplete_waits running mine runs ends (fun h => busy ((over_ _).2 h))
    -- decrements
    · obtain ⟨ctr, st⟩ := decrement_counts (hq := hq) pending
      exact ⟨ctr, st.trans (if_neg (Nat.sub_ne_zero_of_lt many))⟩
    · exact (decrement_counts pending).2.trans (if_pos (Nat.sub_eq_zero_of_le one.le))
    · rw [decrement_early loaded, State.slot_updSlot_self]
    -- WAIT and COND
    · exact (execWaitPoll_eq running mine waits wait runs).trans (by rw [runWait_unread bad])
    · refine ⟨_, execWaitPoll_eq running mine waits wait runs, ?_⟩
      rw [runWait_holds word holds]
      exact nodeEnded_ends (by rw [slot_nodeRead]; exact running)
    · refine ⟨_, execWaitPoll_eq running mine waits wait runs, ?_⟩
      obtain ⟨slot, due⟩ := runWait_again word fails
      exact ⟨by rw [slot, ← waits], due⟩
    · exact execCondRangeIdle_rearms running mine waits runs idle
    -- HOSTPOST
    · intro r enabled room read
      obtain ⟨ends, prod, host⟩ := post_last last enabled room read running
      exact ⟨_, execHostpostAppend_eq running mine runs posts turn, ends, prod, host⟩
    -- SIGNAL
    · refine ⟨_, execNodeStart_works ready mine on kind, ?_⟩
      have slot := slot_nodeStarted s k
      have stores := runSignal_stores (s := nodeStarted s k) (hq := hq) (k := k) (pa := pa) (m := m)
      rw [slot] at stores
      exact stores (((whiskView_nodeStarted s k).whiskGo ..).trans go) rfl within ((over_ _).1 still)
    · refine ⟨_, execNodeStart_works ready mine on kind, ?_⟩
      have slot := slot_nodeStarted s k
      have waits := runSignal_waits (s := nodeStarted s k) (hq := hq) (k := k) (pa := pa) (m := m)
      rw [slot] at waits
      exact waits (((whiskView_nodeStarted s k).whiskGo ..).trans go) (fun h => busy ((over_ _).2 h))
  · intro r pend timer
    exact ⟨execRingTimer_raises pend timer, execRingTimer_again pend timer⟩
  · intro back noted quiet waits
    have over_ : quiet ↔ s.doneQuiet d = true := (whiskQuiet_iff ..).symm
    refine ⟨fun pa m => completion_stores, fun on => ⟨fun root gone busy => ?_, fun child gone busy => ?_, fun root gone still => ?_,
      fun child gone still => ?_, fun killed root => ⟨execLaunchReplay_fails known on killed root, execLaunchReplay_again known on killed root⟩⟩⟩
    · exact ⟨_, execLaunchComplete_waits known on gone root fun h => busy (over_.2 h), doneLater_waits known _⟩
    · exact ⟨_, execChildGridRetire_waits known on gone child fun h => busy (over_.2 h), doneLater_waits known _⟩
    · exact ⟨execLaunchComplete_ends known on gone root (over_.1 still), execLaunchComplete_fails known on gone root (over_.1 still)⟩
    · exact ⟨execChildGridRetire_ends known on gone child (over_.1 still), execChildGridRetire_fails known on gone child (over_.1 still)⟩

end Sys2Proof.Machine
end

section
/-!
SUPPORT. What the host does (O55): one lemma for each register that a write reaches, by the array that holds it (`inArray_eq`, `inArray_out`), and the lemmas on
apertures, interrupts and the end of a load through the host window; then the obligation itself.
-/

namespace Sys2Proof.Machine

/- Elaborated one after another: at one thread for each of so many short theorems, the stacks together would pass the memory limit. -/
set_option Elab.async false

variable {s t u : State}

/-! ## Arrays of registers (R79, R80) -/

theorem inArray_eq {off base n size i j : Nat} (at_ : off = base + size * i + j) (hi : i < n) (hj : j < size) : State.inArray off base n size = some (i, j) := by
  subst at_
  have low : size * i + size ≤ n * size := by
    calc size * i + size = (i + 1) * size := by ring
      _ ≤ n * size := Nat.mul_le_mul_right size hi
  rw [State.inArray, if_pos (by simp; omega), Nat.add_assoc, Nat.add_sub_cancel_left, Nat.mul_add_div (by omega), Nat.mul_add_mod,
    Nat.div_eq_of_lt hj, Nat.mod_eq_of_lt hj, Nat.add_zero]

theorem inArray_out {off base n size : Nat} (out : off < base ∨ base + n * size ≤ off) : State.inArray off base n size = none := by
  rw [State.inArray, if_neg (by simp; omega)]

/-! ## A write of 32 bits to a register of the physical function (R80) -/

theorem pwrLimitOf_toNat (v : Word) : (pwrLimitOf v).toNat = max 500 (min 2300 (fieldOf v 11 0)) := by
  rw [pwrLimitOf, BitVec.toNat_ofNat]
  exact Nat.mod_eq_of_lt (by omega)

theorem leaseMaxOf_toNat (v : Word) : (leaseMaxOf v).toNat = max 1 (min 100 (fieldOf v 6 0)) := by
  rw [leaseMaxOf, BitVec.toNat_ofNat]
  exact Nat.mod_eq_of_lt (by omega)

theorem execRegisterWrite_misaligned {fn : HostFn} {bar : Fin 6} {off : Nat} {wide : Bool} {x : DWord} (misaligned : off % (if wide then 8 else 4) ≠ 0) :
    execRegisterWrite fn bar off wide x s = .next s := by
  unfold execRegisterWrite
  rw [if_pos (by simp [misaligned])]

theorem setWidth_narrow (v : Word) : (v.setWidth 64).setWidth 32 = v := by
  rw [BitVec.setWidth_setWidth_of_le v (by omega), BitVec.setWidth_eq]

section
variable {off : Nat} {v : Word} (on : s.pkg.power = .on)
include on

theorem execRegisterWrite_pf {wide : Bool} {x : DWord} (aligned : off % (if wide then 8 else 4) = 0) :
    execRegisterWrite .pf 0 off wide x s = .next (s.pfWrite off wide x) := by
  unfold execRegisterWrite
  rw [if_neg (by simp [on, aligned])]
  rfl

theorem execRegisterWrite_vf {vf : Fin 32} (aligned : off % 4 = 0) :
    execRegisterWrite (.vf vf) 0 off false (v.setWidth 64) s = .next (s.vfWrite vf.val off false (v.setWidth 64)) := by
  unfold execRegisterWrite
  rw [if_neg (by simp [on, aligned])]
  rfl

theorem execRegisterWrite_narrow (aligned : off % 4 = 0) (no64 : s.pfWrite64 off false (v.setWidth 64) = none) :
    execRegisterWrite .pf 0 off false (v.setWidth 64) s = .next (s.pfWrite32 off v) := by
  rw [execRegisterWrite_pf on (by simpa using aligned), State.pfWrite, no64]
  dsimp only
  rw [setWidth_narrow]
  rfl

theorem execRegisterWrite_broad {x : DWord} (aligned : off % 8 = 0) (to64 : s.pfWrite64 off true x = some t) :
    execRegisterWrite .pf 0 off true x s = .next t := by
  rw [execRegisterWrite_pf on (by simpa using aligned), State.pfWrite, to64]

end

theorem pfWrite64_device {off : Nat} (low : off < 0x80) (v : DWord) : s.pfWrite64 off false v = none := by
  unfold State.pfWrite64
  rw [if_neg (by simp; omega)]
  simp (disch := omega) only [inArray_out]
  rfl

section
variable (p : Fin 8) (v : Word) (x : DWord)

theorem pfWrite64_fqCtl : s.pfWrite64 (0x1010A08 + 64 * p.val) false x = none := by
  have bound := p.isLt
  have here : State.inArray (0x1010A08 + 64 * p.val) 0x1010A00 8 64 = some (p.val, 8) := inArray_eq (by omega) bound (by omega)
  unfold State.pfWrite64
  rw [if_neg (by simp; omega), here]
  simp (disch := omega) only [inArray_out]
  rfl

theorem pfWrite32_fqCtl : s.pfWrite32 (0x1010A08 + 64 * p.val) v = s.fqWrite p.val v := by
  have bound := p.isLt
  have here : State.inArray (0x1010A08 + 64 * p.val) 0x1010A00 8 64 = some (p.val, 8) := inArray_eq (by omega) bound (by omega)
  unfold State.pfWrite32
  split
  case h_8 =>
    rw [here]
    simp (disch := omega) only [inArray_out]
    rfl
  all_goals omega

theorem pfWrite64_sqCtl : s.pfWrite64 (0x1010D08 + 64 * p.val) false x = none := by
  have bound := p.isLt
  have here : State.inArray (0x1010D08 + 64 * p.val) 0x1010D00 8 64 = some (p.val, 8) := inArray_eq (by omega) bound (by omega)
  unfold State.pfWrite64
  rw [if_neg (by simp; omega), here]
  simp (disch := omega) only [inArray_out]
  rfl

theorem pfWrite32_sqCtl : s.pfWrite32 (0x1010D08 + 64 * p.val) v = s.sqWrite p.val v := by
  have bound := p.isLt
  have here : State.inArray (0x1010D08 + 64 * p.val) 0x1010D00 8 64 = some (p.val, 8) := inArray_eq (by omega) bound (by omega)
  unfold State.pfWrite32
  split
  case h_8 =>
    rw [here]
    simp (disch := omega) only [inArray_out]
    rfl
  all_goals omega

theorem pfWrite64_tlbInv : s.pfWrite64 (0x1010900 + 16 * p.val) true x = some (s.tlbWrite p.val x) := by
  have bound := p.isLt
  have here : State.inArray (0x1010900 + 16 * p.val) 0x1010900 8 16 = some (p.val, 0) := inArray_eq (by omega) bound (by omega)
  unfold State.pfWrite64
  rw [if_neg (by simp; omega), here]
  simp (disch := omega) only [inArray_out]
  rfl

theorem pfWrite64_fqResolve : s.pfWrite64 (0x1010A18 + 64 * p.val) true x = some (s.resolve p.val x) := by
  have bound := p.isLt
  have here : State.inArray (0x1010A18 + 64 * p.val) 0x1010A00 8 64 = some (p.val, 0x18) := inArray_eq (by omega) bound (by omega)
  unfold State.pfWrite64
  rw [if_neg (by simp; omega), here]
  simp (disch := omega) only [inArray_out]
  rfl

theorem pfWrite64_vdCfg (vf : Fin 32) : s.pfWrite64 (0x1010000 + 8 * vf.val) true x = some (s.vdWrite vf.val x) := by
  have bound := vf.isLt
  have here : State.inArray (0x1010000 + 8 * vf.val) 0x1010000 32 8 = some (vf.val, 0) := inArray_eq (by omega) bound (by omega)
  unfold State.pfWrite64
  rw [if_neg (by simp; omega), here]
  simp (disch := omega) only [inArray_out]
  rfl

end

/-! ## A write of 32 bits to the window of a virtual device (R79) -/

section
variable (vf : Nat) (v : Word)

theorem vfWrite_narrow {off : Nat} (no64 : s.vfWrite64 vf off false (v.setWidth 64) = none) :
    s.vfWrite vf off false (v.setWidth 64) = s.vfWrite32 vf off v := by
  rw [State.vfWrite, no64]
  dsimp only
  rw [setWidth_narrow]
  rfl

/-- A word of a queue's registers that is no half of its base. -/
theorem vfWrite_queue (q : Fin 1024) {j : Nat} (high : 8 ≤ j) (inside : j < 64) : s.vfWrite vf (0x10000 + 64 * q.val + j) false (v.setWidth 64)
    = s.vfWrite32 vf (0x10000 + 64 * q.val + j) v := by
  have bound := q.isLt
  refine vfWrite_narrow vf v ?_
  have here : State.inArray (0x10000 + 64 * q.val + j) 0x10000 1024 0x40 = some (q.val, j) := inArray_eq rfl bound inside
  unfold State.vfWrite64
  rw [if_neg (by omega), here]
  dsimp only
  rw [if_neg (by omega)]

/-- A word of a ring's registers that is no half of an address. -/
theorem vfWrite_ring (k : Fin 16) {j : Nat} (high : 16 ≤ j) (inside : j < 64) : s.vfWrite vf (0x20000 + 64 * k.val + j) false (v.setWidth 64)
    = s.vfWrite32 vf (0x20000 + 64 * k.val + j) v := by
  have bound := k.isLt
  refine vfWrite_narrow vf v ?_
  have here : State.inArray (0x20000 + 64 * k.val + j) 0x20000 16 0x40 = some (k.val, j) := inArray_eq rfl bound inside
  unfold State.vfWrite64
  rw [if_neg (by omega), here, inArray_out (by omega)]
  dsimp only
  rw [if_neg (by omega), if_neg (by omega)]

theorem vfWrite32_queueCtl (q : Fin 1024) : s.vfWrite32 vf (0x10000 + 64 * q.val + 8) v = s.ctlWrite vf q.val v := by
  have bound := q.isLt
  unfold State.vfWrite32
  rw [if_neg (by simp), if_neg (by simp; omega), inArray_eq rfl bound (by omega), inArray_out (by omega), inArray_out (by omega)]
  rfl

theorem vfWrite32_queueTail (q : Fin 1024) : s.vfWrite32 vf (0x10000 + 64 * q.val + 0x10) v = s.tailWrite vf q.val v := by
  have bound := q.isLt
  unfold State.vfWrite32
  rw [if_neg (by simp), if_neg (by simp; omega), inArray_eq rfl bound (by omega), inArray_out (by omega), inArray_out (by omega)]
  rfl

theorem vfWrite32_ringCtl (k : Fin 16) : s.vfWrite32 vf (0x20000 + 64 * k.val + 0x10) v = s.ringCtlWrite vf k.val v := by
  have bound := k.isLt
  unfold State.vfWrite32
  rw [if_neg (by simp), if_neg (by simp; omega), inArray_out (by omega), inArray_eq rfl bound (by omega), inArray_out (by omega)]
  rfl

theorem vfWrite32_ringCons (k : Fin 16) : s.vfWrite32 vf (0x20000 + 64 * k.val + 0x14) v = s.ringConsWrite vf k.val v := by
  have bound := k.isLt
  unfold State.vfWrite32
  rw [if_neg (by simp), if_neg (by simp; omega), inArray_out (by omega), inArray_eq rfl bound (by omega), inArray_out (by omega)]
  rfl

end

/-! ## Rows by a bit of what is written (R84, R86, R87, R99) -/

theorem execVd_eq (vf : Fin 32) (x : DWord) : (if x.getLsbD 31 then execVdEnable vf x s else execVdDisable vf x s) = .next (s.vdWrite vf.val x) := by
  unfold execVdEnable execVdDisable
  simp only [fieldOf_bit]
  cases x.getLsbD 31 <;> rfl

theorem execQueue_eq (vf : Fin 32) (q : Nat) (v : Word) : (if v.getLsbD 30 then execQueueReset vf q v s
    else if v.getLsbD 31 then execQueueEnable vf q v s else execQueuePause vf q v s) = .next (s.ctlWrite vf.val q v) := by
  unfold execQueueReset execQueueEnable execQueuePause
  simp only [fieldOf_bit, fieldOf_two_bits]
  cases v.getLsbD 30 <;> cases v.getLsbD 31 <;> rfl

/-! ## The writes of virtual devices, as rows -/

section
variable (on : s.pkg.power = .on) (vf : Fin 32) (v : Word)
include on

theorem execRegisterWrite_queueCtl (q : Fin 1024) :
    execRegisterWrite (.vf vf) 0 (0x10008 + 64 * q.val) false (v.setWidth 64) s = .next (s.ctlWrite vf.val q.val v) := by
  rw [execRegisterWrite_vf on (by omega), show 0x10008 + 64 * q.val = 0x10000 + 64 * q.val + 8 by omega,
    vfWrite_queue vf.val v q (by omega) (by omega), vfWrite32_queueCtl]

theorem execRegisterWrite_queueTail (q : Fin 1024) :
    execRegisterWrite (.vf vf) 0 (0x10010 + 64 * q.val) false (v.setWidth 64) s = .next (s.tailWrite vf.val q.val v) := by
  rw [execRegisterWrite_vf on (by omega), show 0x10010 + 64 * q.val = 0x10000 + 64 * q.val + 0x10 by omega,
    vfWrite_queue vf.val v q (by omega) (by omega), vfWrite32_queueTail]

theorem execRegisterWrite_ringCtl (k : Fin 16) :
    execRegisterWrite (.vf vf) 0 (0x20010 + 64 * k.val) false (v.setWidth 64) s = .next (s.ringCtlWrite vf.val k.val v) := by
  rw [execRegisterWrite_vf on (by omega), show 0x20010 + 64 * k.val = 0x20000 + 64 * k.val + 0x10 by omega,
    vfWrite_ring vf.val v k (by omega) (by omega), vfWrite32_ringCtl]

theorem execRegisterWrite_ringCons (k : Fin 16) :
    execRegisterWrite (.vf vf) 0 (0x20014 + 64 * k.val) false (v.setWidth 64) s = .next (s.ringConsWrite vf.val k.val v) := by
  rw [execRegisterWrite_vf on (by omega), show 0x20014 + 64 * k.val = 0x20000 + 64 * k.val + 0x14 by omega,
    vfWrite_ring vf.val v k (by omega) (by omega), vfWrite32_ringCons]

end

/-! ## The mailbox (R83) -/

/-- The state in which a command has been written. -/
def commandWritten (s : State) (v : Word) : State := { s with mbox := { s.mbox with cmd := v, status := 1 } }

theorem mailbox_busy {v : Word} (on : s.pkg.power = .on) (busy : s.mbox.status = 1) : execRegisterWrite .pf 2 0 false (v.setWidth 64) s = .next s := by
  have written : s.mailboxWrite 0 false (v.setWidth 64) = s := by
    rw [State.mailboxWrite, if_pos (by rfl), State.mboxWrite, if_pos (by simp [busy])]
  unfold execRegisterWrite
  rw [if_neg (by simp [on])]
  exact congrArg Host.Outcome.next written

theorem mailbox_starts {v : Word} {i : Instr} (on : s.pkg.power = .on) (idle : s.mbox.status ≠ 1) (row : (commandWritten s v).mboxRow = i) :
    ∃ t, execRegisterWrite .pf 2 0 false (v.setWidth 64) s = .next t ∧ t.mbox.status = 1 ∧ t.mbox.cmd = v ∧ t.due i = true := by
  have written : s.mailboxWrite 0 false (v.setWidth 64) = (commandWritten s v).soon i := by
    rw [State.mailboxWrite, if_pos (by rfl), setWidth_narrow, State.mboxWrite, if_neg (by simp [idle]), ← row]
    rfl
  refine ⟨(commandWritten s v).soon i, ?_, rfl, rfl, due_soon_self ..⟩
  unfold execRegisterWrite
  rw [if_neg (by simp [on])]
  exact congrArg Host.Outcome.next written

theorem mboxRow_commandWritten (s : State) {v : Word} {n : Nat} (code : v.toNat = n) : (commandWritten s v).mboxRow
    = ({ s with mbox := { s.mbox with cmd := BitVec.ofNat 32 n } } : State).mboxRow := by
  subst code
  rw [BitVec.ofNat_toNat, BitVec.setWidth_eq]
  rfl

theorem mboxRow_provision {v : Word} {phase : Byte} (code : v.toNat = 9) (buf : s.bufBytes 0 1 = [phase]) :
    (commandWritten s v).mboxRow = if phase = 0 then .provisionGenerate else if phase = 1 then .provisionInstall else .badCmd := by
  have first : Memory.get (commandWritten s v).mbox.buf 0 = phase := List.singleton_inj.1 buf
  have cmd : (commandWritten s v).mbox.cmd.toNat = 9 := code
  unfold State.mboxRow
  simp only [cmd, first]
  split
  case h_1 zero => rw [if_pos (BitVec.toNat_inj.1 zero)]
  case h_2 one => rw [if_neg (fun h => by simp [h] at one), if_pos (BitVec.toNat_inj.1 one)]
  case h_3 zero one => rw [if_neg (fun h => zero (by rw [h]; rfl)), if_neg (fun h => one (by rw [h]; rfl))]

theorem mboxRow_none {v : Word} (code : v.toNat = 0 ∨ 9 < v.toNat) : (commandWritten s v).mboxRow = .badCmd := by
  have cmd : (commandWritten s v).mbox.cmd.toNat = v.toNat := rfl
  unfold State.mboxRow
  rw [cmd]
  split
  case h_10 => rfl
  all_goals omega

/-! ## Apertures (R79, R81) -/

theorem pagesOf_one {a n : Nat} (some_ : 0 < n) (one : a / 65536 = (a + n - 1) / 65536) : State.pagesOf a n = [(a, n)] := by
  have count : (a + n + 65535) / 65536 - a / 65536 = 1 := by omega
  have low : max a ((a / 65536 + 0) * 65536) = a := by omega
  have high : min (a + n) ((a / 65536 + 0 + 1) * 65536) - a = n := by omega
  rw [State.pagesOf, count, List.range_one, List.map_singleton]
  dsimp only
  rw [low, high]

theorem aperture_pf {off n : Nat} (right : Right) (inside : off + n ≤ 2 ^ 36) (within : s.dev.apertureBase.toNat + off + n ≤ hbmEnd) :
    s.aperture .pf off n right = some [(s.dev.apertureBase.toNat + off, n, false)] := by
  rw [State.aperture]
  exact if_pos (by simp [within]; omega)

section
variable {vf : Fin 32}

theorem aperture_vf {off n pa : Nat} {right : Right} {m : Bool} (on : s.vdEnabled vf.val = true) (inside : off + n ≤ 2 ^ 34) (some_ : 0 < n)
    (one : ((s.vd vf.val).apVa.toNat + off) / 65536 = ((s.vd vf.val).apVa.toNat + off + n - 1) / 65536)
    (go : s.reach none (s.vdPart vf.val) (s.vd vf.val).apAsid.toNat ((s.vd vf.val).apVa.toNat + off) false right = .hbm pa m) :
    s.aperture (.vf vf) off n right = some [(pa, n, m)] := by
  rw [State.aperture]
  dsimp only
  rw [if_neg (by simp [on]; omega), pagesOf_one some_ one]
  simp [go]

theorem aperture_disabled (off n : Nat) (right : Right) (off_ : s.vdEnabled vf.val = false) : s.aperture (.vf vf) off n right = none := by
  rw [State.aperture]
  exact if_pos (by simp [off_])

end

/-- One range: a write at the home, with the duplicates that leave. -/
theorem storeRanges_one (s : State) {ag : Agent} (pa : Nat) (m : Bool) (bs : List Byte) :
    TailFrame (s.storeHome pa bs) (s.storeRanges ag [(pa, bs.length, m)] bs) := by
  unfold State.storeRanges
  rw [List.take_length]
  exact .ite (TailFrame.refl _).duplicateAll (.refl _)

section
variable {fn : HostFn} {off : Nat} (on : s.pkg.power = .on)
include on

theorem execHostApertureWrite_stores {pa : Nat} {m : Bool} {data : List Byte} (leads : s.aperture fn off data.length .write = some [(pa, data.length, m)])
    (within : pa + data.length ≤ hbmEnd) :
    ∃ t, execHostApertureWrite fn off data s = .next t ∧ t.bytesAt pa data.length = data
      ∧ ∀ a, (a < pa ∨ pa + data.length ≤ a) → t.byteAt a = s.byteAt a := by
  have f := storeRanges_one s (ag := s.hostAgent fn) pa m data
  refine ⟨_, ?_, (f.bytesAt ..).trans (bytesAt_storeHome within), fun a out => (f.byteAt a).trans (byteAt_storeHome_out out)⟩
  unfold execHostApertureWrite
  rw [if_neg (by simp [on]), leads]

theorem execHostApertureRead_reads {pa len : Nat} {m : Bool} (leads : s.aperture fn off len .read = some [(pa, len, m)]) :
    execHostApertureRead fn off len s = .next { s with outbox := s.outbox ++ [.hostData fn (s.bytesAt pa len)] } := by
  unfold execHostApertureRead
  rw [if_neg (by simp [on]), leads]
  simp only [List.flatMap_cons, List.flatMap_nil, List.append_nil]
  rfl

theorem execHostApertureWrite_aborts {data : List Byte} (nowhere : s.aperture fn off data.length .write = none) :
    execHostApertureWrite fn off data s = .next { s with outbox := s.outbox ++ [.hostAbort fn], log := s.log ++ [(s.reft, .hostAbort)] } := by
  unfold execHostApertureWrite
  rw [if_neg (by simp [on]), nowhere]
  rfl

theorem execHostApertureRead_aborts {len : Nat} (nowhere : s.aperture fn off len .read = none) :
    execHostApertureRead fn off len s = .next { s with outbox := s.outbox ++ [.hostAbort fn], log := s.log ++ [(s.reft, .hostAbort)] } := by
  unfold execHostApertureRead
  rw [if_neg (by simp [on]), nowhere]
  rfl

end

/-! ## Interrupts (R96) -/

theorem msix_setMsix (s : State) (fn : HostFn) (m : Msix) : (s.setMsix fn m).msix fn = m := by
  cases fn with
  | pf => rfl
  | vf k => exact congrArg (·.msix) (State.vd_updVd_self ..)

theorem outbox_setMsix (s : State) (fn : HostFn) (m : Msix) : (s.setMsix fn m).outbox = s.outbox := by
  cases fn <;> rfl

theorem msix_emit (s : State) (fn : HostFn) (o : Out) : (s.emit o).msix fn = s.msix fn := by
  cases fn <;> rfl

/-- The entries and pending bits of a function in which a vector has been unmasked. -/
def Msix.unmasked (m : Msix) (vec : Nat) : Msix := { m with tab := Tbl.put m.tab (4 * vec + 3) 0, pend := m.pend.filter (· != vec) }

theorem unmask_effect (s : State) (fn : HostFn) (vec : Nat) : (s.unmask fn vec).msix fn = (s.msix fn).unmasked vec
    ∧ (s.unmask fn vec).outbox = if vec ∈ (s.msix fn).pend then s.outbox ++ [.irq fn vec] else s.outbox := by
  have changed := msix_setMsix s fn ((s.msix fn).unmasked vec)
  have same := outbox_setMsix s fn ((s.msix fn).unmasked vec)
  by_cases pending : vec ∈ (s.msix fn).pend
  · have eq : s.unmask fn vec = (s.setMsix fn ((s.msix fn).unmasked vec)).emit (.irq fn vec) := if_pos (by simpa using pending)
    rw [eq, msix_emit, if_pos pending]
    exact ⟨changed, congrArg (· ++ [Out.irq fn vec]) same⟩
  · have eq : s.unmask fn vec = s.setMsix fn ((s.msix fn).unmasked vec) := if_neg (by simpa using pending)
    rw [eq, if_neg pending]
    exact ⟨changed, same⟩

theorem masked_of_unmasked {fn : HostFn} {vec : Nat} {m : Msix} (eq : t.msix fn = m.unmasked vec) : t.masked fn vec = false := by
  rw [State.masked, eq, Msix.unmasked, Tbl.getD_put_self]
  rfl

/-! ## The end of a load through the host window (R401) -/

theorem execHostWindowTimeout_traps {core slot wid : Nat} {w : Wave} {q : Pend} (wave : s.waveAt core slot = some (wid, w)) (on : s.running = true)
    (awake : s.asleep core = false) (waits : (w.pend :: w.pends).find? (fun q => decide (q.host ≠ [])) = some q) :
    execHostWindowTimeout core slot s
      = .next ((s.logged .hostAbort).takeTrap wid 0x01 (s.laneId wid (q.host.foldl min 31)) false (some q.pc) none) := by
  have same : (fun q : Pend => !q.host.isEmpty) = fun q => decide (q.host ≠ []) := funext fun q => by cases q.host <;> rfl
  unfold execHostWindowTimeout
  rw [wave]
  dsimp only
  rw [if_neg (by simp [on]), if_neg (by simp [awake]), same, waits]

/-! ## The obligation -/

/-- Settles O55: each register by the lemma on its array, each access by the lemma on where it leads. -/
theorem hostAccess : Obligations.HostAccess := by
  unfold Obligations.HostAccess
  refine ⟨fun s v x p vf k q fn bar off wide => ?_, fun s fn vf off len pa data m vec on => ?_, fun s core slot wid w q => execHostWindowTimeout_traps⟩
  · intro narrow broad wait
    refine ⟨⟨_, rfl, pwrLimitOf_toNat v⟩, ⟨_, rfl, leaseMaxOf_toNat v⟩, execRegisterWrite_misaligned, fun on => ?_⟩
    have device := fun off (low : off < 0x80) => pfWrite64_device (s := s) (off := off) low (v.setWidth 64)
    have starts := fun i => mailbox_starts (s := s) (v := v) (i := i) on
    refine ⟨execRegisterWrite_narrow on rfl (device 0x00 (by omega)), execRegisterWrite_narrow on rfl (device 0x08 (by omega)),
      execRegisterWrite_narrow on rfl (device 0x10 (by omega)), execRegisterWrite_narrow on rfl (device 0x60 (by omega)), ?_, ?_,
      execRegisterWrite_broad on (by omega) (pfWrite64_tlbInv p x), execRegisterWrite_broad on (by omega) (pfWrite64_fqResolve p x), ?_, ?_,
      execRegisterWrite_queueTail on vf v q, execRegisterWrite_ringCtl on vf v k, execRegisterWrite_ringCons on vf v k, mailbox_busy on, fun idle => ?_⟩
    -- the record queues of a partition
    · exact (execRegisterWrite_narrow on (by omega) (pfWrite64_fqCtl p _)).trans (congrArg _ (pfWrite32_fqCtl p v))
    · exact (execRegisterWrite_narrow on (by omega) (pfWrite64_sqCtl p _)).trans (congrArg _ (pfWrite32_sqCtl p v))
    -- a virtual device, and a queue of one
    · exact (execRegisterWrite_broad on (by omega) (pfWrite64_vdCfg x vf)).trans (execVd_eq vf x).symm
    · exact (execRegisterWrite_queueCtl on vf v q).trans (execQueue_eq vf q.val v).symm
    -- the mailbox
    · exact ⟨fun code => starts _ idle (mboxRow_commandWritten s code), fun code => starts _ idle (mboxRow_commandWritten s code),
        fun code => starts _ idle (mboxRow_commandWritten s code), fun code => starts _ idle (mboxRow_commandWritten s code),
        fun code => starts _ idle (mboxRow_commandWritten s code), fun code => starts _ idle (mboxRow_commandWritten s code),
        fun code => starts _ idle (mboxRow_commandWritten s code), fun code => starts _ idle (mboxRow_commandWritten s code),
        fun code phase buf => starts _ idle (mboxRow_provision code buf), fun code => starts _ idle (mboxRow_none code)⟩
  · intro d va leads base aborted
    refine ⟨fun inside within => execHostApertureWrite_stores on (aperture_pf _ inside within) within,
      fun inside within => execHostApertureRead_reads on (aperture_pf _ inside within), fun ⟨live, inside, some_, one, go⟩ within => ?_,
      fun ⟨live, inside, some_, one, go⟩ => ?_, fun disabled => ⟨?_, ?_⟩, fun known => ?_⟩
    · exact execHostApertureWrite_stores on (aperture_vf live inside some_ one go) within
    · exact execHostApertureRead_reads on (aperture_vf live inside some_ one go)
    · exact execHostApertureWrite_aborts on (aperture_disabled _ _ _ disabled)
    · exact execHostApertureRead_aborts on (aperture_disabled _ _ _ disabled)
    · obtain ⟨entry, out⟩ := unmask_effect s fn vec
      have vectors : vec < State.vectors fn := by
        cases fn with
        | pf => simpa [State.vectors] using known
        | vf j => simpa [State.vectors] using known
      refine ⟨_, if_pos vectors, masked_of_unmasked entry, fun k => ?_, out⟩
      rw [entry]
      simp [Msix.unmasked]

end Sys2Proof.Machine
end

section
/-!
SUPPORT. Lists in order (O58): what `leastBy` chooses, and that `sortBy` puts the same elements in the order of their keys.
-/

namespace Sys2Proof.Machine

section
variable {α : Type} {key : α → Nat}

theorem leastBy_eq_none {l : List α} : leastBy key l = none ↔ l = [] := by
  cases l with
  | nil => simp [leastBy]
  | cons x l =>
    unfold leastBy
    split
    · simp
    · split <;> simp

theorem leastBy_least {l : List α} {a : α} (least : leastBy key l = some a) : a ∈ l ∧ ∀ x ∈ l, key a ≤ key x := by
  induction l generalizing a with
  | nil => simp [leastBy] at least
  | cons x l ih =>
    unfold leastBy at least
    split at least
    · next none_ =>
      obtain rfl := Option.some.inj least
      simp [leastBy_eq_none.1 none_]
    · next y some_ =>
      obtain ⟨there, below⟩ := ih some_
      split at least <;> obtain rfl := Option.some.inj least
      · next le => exact ⟨.head _, fun z hz => (List.mem_cons.1 hz).elim (fun e => e ▸ Nat.le_refl _) fun hz => le.trans (below z hz)⟩
      · next gt => exact ⟨.tail _ there, fun z hz => (List.mem_cons.1 hz).elim (fun e => e ▸ Nat.le_of_not_le gt) (below z)⟩

theorem length_insertBy (a : α) (l : List α) : (insertBy key a l).length = l.length + 1 := by
  induction l with
  | nil => rfl
  | cons x l ih =>
    unfold insertBy
    split <;> simp [ih]

theorem pairwise_insertBy (a : α) {l : List α} (sorted : l.Pairwise (fun x y => key x ≤ key y)) :
    (insertBy key a l).Pairwise (fun x y => key x ≤ key y) := by
  induction l with
  | nil => simp [insertBy]
  | cons x l ih =>
    obtain ⟨first, rest⟩ := List.pairwise_cons.1 sorted
    unfold insertBy
    split
    · next le =>
      refine List.pairwise_cons.2 ⟨fun y hy => ?_, ih rest⟩
      rcases (mem_insertBy ..).1 hy with rfl | hy
      · exact le
      · exact first y hy
    · next gt =>
      refine List.pairwise_cons.2 ⟨fun y hy => ?_, sorted⟩
      rcases List.mem_cons.1 hy with rfl | hy
      · omega
      · have := first y hy
        omega

/-- What one insertion after the other keeps, `sortBy` keeps. -/
theorem sortBy_keeps {P : List α → List α → Prop} (start : P [] []) (step : ∀ a l acc, P l acc → P (l ++ [a]) (insertBy key a acc)) (l : List α) :
    P l (sortBy key l) := by
  induction l using List.reverseRecOn with
  | nil => exact start
  | append_singleton l a ih =>
    rw [sortBy, List.foldl_append]
    exact step a l _ ih

theorem mem_sortBy (l : List α) (x : α) : x ∈ sortBy key l ↔ x ∈ l :=
  sortBy_keeps (P := fun l acc => x ∈ acc ↔ x ∈ l) (by simp) (fun a l acc h => by simp [mem_insertBy, h, or_comm]) l

theorem length_sortBy (l : List α) : (sortBy key l).length = l.length :=
  sortBy_keeps (P := fun l acc => acc.length = l.length) rfl (fun a l acc h => by simp [length_insertBy, h]) l

theorem pairwise_sortBy (l : List α) : (sortBy key l).Pairwise (fun x y => key x ≤ key y) :=
  sortBy_keeps (P := fun _ acc => acc.Pairwise (fun x y => key x ≤ key y)) .nil (fun a _ _ h => pairwise_insertBy a h) l

end

/-- In a table that lists no key twice, every entry is found. -/
theorem Tbl.find_of_mem {α : Type} {t : Tbl α} (distinct : t.Pairwise (fun a b => a.1 ≠ b.1)) {e : Nat × α} (there : e ∈ t) :
    Tbl.find t e.1 = some e.2 := by
  induction t with
  | nil => cases there
  | cons x t ih =>
    obtain ⟨first, rest⟩ := List.pairwise_cons.1 distinct
    unfold Tbl.find
    rcases List.mem_cons.1 there with rfl | there
    · simp
    · rw [if_neg (first e there), ih rest there]

end Sys2Proof.Machine
end


section
/-!
SUPPORT. What the scheduler's operations leave alone (O58, O59). Teams that are placed, claim, lend, resume, move or are saved leave the time, the slices of the partitions and
what is charged to the virtual devices (`TimeFrame`); where no team is removed, every other team keeps its seat as well (`StayFrame`). There is one rule for each operation,
and its proof has the shape of the operation.
-/

namespace Sys2Proof.Machine

/- Elaborated one after another: at one thread for each of so many short theorems, the stacks together would pass the memory limit. -/
set_option Elab.async false

variable {s t u : State}

/-- Where a team is: its launch, its core, its scratchpad range, its tiles, whether it is resident, and its index, which a saved team has in its frame (R112). -/
def Team.seat (k : Team) : Nat × Nat × Nat × List Nat × Where × Nat :=
  (k.grid, k.core, k.start, k.tiles, k.loc, if k.loc = .saved then 0 else k.index)

/-- A row that no operation of the scheduler withdraws. -/
def lasting : Instr → Bool
  | .claimComplete _ _ | .gateTimeout _ _ | .gateAbortTimeout _ _ => false
  | _ => true

/-- Of two states, the second has the same time and power, the same slices, and the same virtual devices but for their interrupts. -/
structure TimeFrame (s t : State) : Prop where
  reft : t.reft = s.reft
  pkg : t.pkg = s.pkg
  slices : ∀ p, (t.part p).slice = (s.part p).slice
  vds : ∀ v, t.vd v = { s.vd v with msix := (t.vd v).msix }

/-- `TimeFrame` for an operation that leaves every team in its seat, the forwarding entries of every core, and the rows that last. -/
structure StayFrame (s t : State) : Prop extends TimeFrame s t where
  seats : ∀ id, (Tbl.find t.teams id).map Team.seat = (Tbl.find s.teams id).map Team.seat
  forwards : ∀ c, (t.core c).forwards = (s.core c).forwards
  rows : ∀ i, lasting i = true → s.due i = true → t.due i = true

namespace TimeFrame

theorem refl (s : State) : TimeFrame s s := ⟨rfl, rfl, fun _ => rfl, fun _ => rfl⟩

theorem trans (h : TimeFrame s t) (k : TimeFrame t u) : TimeFrame s u := by
  refine ⟨k.reft.trans h.reft, k.pkg.trans h.pkg, fun p => (k.slices p).trans (h.slices p), fun v => ?_⟩
  have e := k.vds v
  rw [h.vds v] at e
  exact e

theorem running (f : TimeFrame s t) : t.running = s.running := by
  rw [State.running, State.running, f.pkg]

theorem charge (f : TimeFrame s t) (v : Nat) : (t.vd v).charge = (s.vd v).charge := congrArg (·.charge) (f.vds v)

theorem vdPart (f : TimeFrame s t) (v : Nat) : t.vdPart v = s.vdPart v := by
  rw [State.vdPart, f.vds v]
  rfl

theorem ite {c : Prop} [Decidable c] {a b : State} (ha : TimeFrame s a) (hb : TimeFrame s b) : TimeFrame s (if c then a else b) := by
  split <;> assumption

theorem foldl {α : Type} {f : State → α → State} {l : List α} (h : TimeFrame s t) (hf : ∀ t a, TimeFrame s t → TimeFrame s (f t a)) :
    TimeFrame s (l.foldl f t) :=
  List.foldlRecOn l f h fun t h a _ => hf t a h

/-- A change of anything but what the frame speaks of. -/
theorem frame (h : TimeFrame s t) (reft : u.reft = t.reft := by rfl) (pkg : u.pkg = t.pkg := by rfl) (parts : u.parts = t.parts := by rfl)
    (vds : u.vds = t.vds := by rfl) : TimeFrame s u := by
  refine h.trans ⟨reft, pkg, fun p => ?_, fun v => ?_⟩
  · rw [show u.part p = t.part p from congrArg (Tbl.getD · p Part.reset) parts]
  · rw [show u.vd v = t.vd v from congrArg (Tbl.getD · v Vd.reset) vds]

theorem stay (h : TimeFrame s t) (f : StayFrame t u) : TimeFrame s u := h.trans f.toTimeFrame

end TimeFrame

namespace StayFrame

theorem refl (s : State) : StayFrame s s := ⟨.refl s, fun _ => rfl, fun _ => rfl, fun _ _ h => h⟩

theorem trans (h : StayFrame s t) (k : StayFrame t u) : StayFrame s u :=
  ⟨h.toTimeFrame.trans k.toTimeFrame, fun id => (k.seats id).trans (h.seats id), fun c => (k.forwards c).trans (h.forwards c),
    fun i l d => k.rows i l (h.rows i l d)⟩

/-- A team that was there is there, in its seat. -/
theorem find (f : StayFrame s t) {id : Nat} {k : Team} (there : Tbl.find s.teams id = some k) : ∃ y, Tbl.find t.teams id = some y ∧ y.seat = k.seat := by
  have e := f.seats id
  rw [there] at e
  exact Option.map_eq_some_iff.1 e

theorem ite {c : Prop} [Decidable c] {a b : State} (ha : StayFrame s a) (hb : StayFrame s b) : StayFrame s (if c then a else b) := by
  split <;> assumption

theorem foldl {α : Type} {f : State → α → State} {l : List α} (h : StayFrame s t) (hf : ∀ t a, StayFrame s t → StayFrame s (f t a)) :
    StayFrame s (l.foldl f t) :=
  List.foldlRecOn l f h fun t h a _ => hf t a h

/-- A change of anything but what the frame speaks of, and the agenda. -/
theorem frameDue (h : StayFrame s t) (rows : ∀ i, lasting i = true → t.due i = true → u.due i = true)
    (reft : u.reft = t.reft := by rfl) (pkg : u.pkg = t.pkg := by rfl) (parts : u.parts = t.parts := by rfl) (vds : u.vds = t.vds := by rfl)
    (teams : u.teams = t.teams := by rfl) (cores : u.cores = t.cores := by rfl) : StayFrame s u := by
  refine h.trans ⟨TimeFrame.frame (.refl t) reft pkg parts vds, fun id => ?_, fun c => ?_, rows⟩
  · rw [teams]
  · rw [show u.core c = t.core c from congrArg (Tbl.getD · c Core.reset) cores]

/-- A change of anything but what the frame speaks of. -/
theorem frame (h : StayFrame s t) (reft : u.reft = t.reft := by rfl) (pkg : u.pkg = t.pkg := by rfl) (parts : u.parts = t.parts := by rfl)
    (vds : u.vds = t.vds := by rfl) (teams : u.teams = t.teams := by rfl) (cores : u.cores = t.cores := by rfl) (agenda : u.agenda = t.agenda := by rfl) :
    StayFrame s u :=
  h.frameDue (fun _ _ d => by rw [State.due, agenda]; exact d) reft pkg parts vds teams cores

theorem rows_mono (agenda : ∀ e ∈ t.agenda, e ∈ u.agenda) (i : Instr) (_ : lasting i = true) (d : t.due i = true) : u.due i = true := by
  obtain ⟨n, hn⟩ := (due_iff _).1 d
  exact (due_iff _).2 ⟨n, agenda _ hn⟩

theorem store (h : StayFrame s t) (f : StoreFrame t u) : StayFrame s u :=
  h.frameDue (rows_mono f.agenda) (congrArg (·.reft) f.frame) (congrArg (·.pkg) f.frame) (congrArg (·.parts) f.frame) (congrArg (·.vds) f.frame)
    (congrArg (·.teams) f.frame) (congrArg (·.cores) f.frame)

theorem looked (h : StayFrame s t) (f : LookedUp t u) : StayFrame s u :=
  h.frame (congrArg (·.reft) f.1) (congrArg (·.pkg) f.1) (congrArg (·.parts) f.1) (congrArg (·.vds) f.1) (congrArg (·.teams) f.1) (congrArg (·.cores) f.1)
    (congrArg (·.agenda) f.1)

theorem kicked (h : StayFrame s t) (f : KickFrame t u) : StayFrame s u :=
  h.frameDue (rows_mono f.agenda) (congrArg (·.reft) f.frame) (congrArg (·.pkg) f.frame) (congrArg (·.parts) f.frame) (congrArg (·.vds) f.frame)
    (congrArg (·.teams) f.frame) (congrArg (·.cores) f.frame)

/-! ## Rows of the agenda -/

theorem atTick {n : Nat} {i : Instr} (h : StayFrame s t) : StayFrame s (t.atTick n i) := h.kicked (KickFrame.refl t).atTick
theorem after {n : Nat} {i : Instr} (h : StayFrame s t) : StayFrame s (t.after n i) := h.atTick
theorem drawn (h : StayFrame s t) : StayFrame s t.drawn := h.frame
theorem soon {i : Instr} (h : StayFrame s t) : StayFrame s (t.soon i) := h.after.drawn
theorem soonOnce {i : Instr} (h : StayFrame s t) : StayFrame s (t.soonOnce i) := h.kicked (KickFrame.refl t).soonOnce
theorem kick {j : Nat} (h : StayFrame s t) : StayFrame s (t.kick j) := h.kicked (KickFrame.refl t).kick

theorem kickTeam {k : Nat} (h : StayFrame s t) : StayFrame s (t.kickTeam k) := h.kicked ⟨kickTeam_schedule .., (LeaseFrame.refl t).kickTeam.agenda⟩
theorem freed {c : Nat} (h : StayFrame s t) : StayFrame s (t.freed c) := h.kicked ⟨freed_schedule .., (LeaseFrame.refl t).freed.agenda⟩

theorem kickPlace {p : Nat} (h : StayFrame s t) : StayFrame s (t.kickPlace p) := h.kicked (KickFrame.refl t).kickPlace
theorem gridCheck {g : Nat} (h : StayFrame s t) : StayFrame s (t.gridCheck g) := h.kicked (KickFrame.refl t).gridCheck
theorem lendLater {c : Nat} (h : StayFrame s t) : StayFrame s (t.lendLater c) := .ite h.soonOnce.soonOnce h

theorem drainOf {g : Nat} (h : StayFrame s t) : StayFrame s (t.drainOf g) := by
  unfold State.drainOf
  split
  · exact h
  · exact .ite h.soonOnce h

/-- A row that does not last is withdrawn. -/
theorem withdraw {i : Instr} (h : StayFrame s t) (passing : lasting i = false) : StayFrame s (t.withdraw i) := by
  refine h.frameDue fun j last d => ?_
  obtain ⟨n, hn⟩ := (due_iff _).1 d
  have other : j ≠ i := fun e => by simp [e, passing] at last
  exact (due_iff _).2 ⟨n, List.mem_filter.2 ⟨hn, by simpa using other⟩⟩

/-! ## Parts of the state -/

theorem updWave {k : Nat} {f : Wave → Wave} (h : StayFrame s t) : StayFrame s (t.updWave k f) := h.frame
theorem updJob {k : Nat} {f : Job → Job} (h : StayFrame s t) : StayFrame s (t.updJob k f) := h.frame
theorem updGrid {g : Nat} {f : Grid → Grid} (h : StayFrame s t) : StayFrame s (t.updGrid g f) := h.frame
theorem updPool {p : Nat} {f : Pool → Pool} (h : StayFrame s t) : StayFrame s (t.updPool p f) := h.frame
theorem updQueue {q : Nat} {f : Queue → Queue} (h : StayFrame s t) : StayFrame s (t.updQueue q f) := h.frame
theorem emit {o : Out} (h : StayFrame s t) : StayFrame s (t.emit o) := h.frame
theorem dropReqs {o : ReqOwner} (h : StayFrame s t) : StayFrame s (t.dropReqs o) := h.frame
theorem fileReq {p cls : Nat} {o : ReqOwner} (h : StayFrame s t) : StayFrame s (t.fileReq p o cls) := h.frame
theorem withPoison {l : List Nat} (h : StayFrame s t) : StayFrame s { t with poison := l } := h.frame

theorem withCtlb {l : Tbl (List TlbEntry)} (h : StayFrame s t) : StayFrame s { t.drawn with ctlb := l } := h.frame

theorem updCore {c : Nat} {f : Core → Core} (h : StayFrame s t) (hf : ∀ k, (f k).forwards = k.forwards := by intro _; rfl) : StayFrame s (t.updCore c f) := by
  refine h.trans ⟨TimeFrame.frame (.refl t), fun _ => rfl, fun d => ?_, fun _ _ h => h⟩
  by_cases e : d = c
  · rw [e, State.core_updCore_self, hf]
  · rw [State.core_updCore_ne _ _ e]

/-- A change of a team that keeps its seat. -/
theorem updTeamOf {k : Nat} {f : Team → Team} (h : StayFrame s t) (hf : ∀ y, Tbl.find t.teams k = some y → (f y).seat = y.seat) :
    StayFrame s (t.updTeam k f) := by
  refine h.trans ⟨TimeFrame.frame (.refl t), fun id => ?_, fun _ => rfl, fun _ _ h => h⟩
  by_cases e : id = k
  · subst e
    rw [State.updTeam_find_self, Option.map_map]
    cases there : Tbl.find t.teams id with
    | none => rfl
    | some y => exact congrArg some (hf y there)
  · rw [State.updTeam_find_ne _ _ e]

theorem updTeam {k : Nat} {f : Team → Team} (h : StayFrame s t) (hf : ∀ k, (f k).seat = k.seat := by intro _; rfl) : StayFrame s (t.updTeam k f) :=
  h.updTeamOf fun y _ => hf y

theorem updPart {p : Nat} {f : Part → Part} (h : StayFrame s t) (hf : ∀ x, (f x).slice = x.slice := by intro _; rfl) : StayFrame s (t.updPart p f) := by
  refine h.trans ⟨⟨rfl, rfl, fun q => ?_, fun _ => rfl⟩, fun _ => rfl, fun _ => rfl, fun _ _ h => h⟩
  by_cases e : q = p
  · rw [e, State.part_updPart_self, hf]
  · rw [State.part_updPart_ne _ _ e]


/-! ## Interrupts, packets and writes -/

theorem raiseIrq {fn : HostFn} {vec : Nat} (h : StayFrame s t) : StayFrame s (t.raiseIrq fn vec) := by
  have vds (v : Nat) (m : Msix) : StayFrame t (t.updVd v fun d => { d with msix := m }) := by
    refine ⟨⟨rfl, rfl, fun _ => rfl, fun w => ?_⟩, fun _ => rfl, fun _ => rfl, fun _ _ h => h⟩
    by_cases e : w = v
    · rw [e, State.vd_updVd_self]
    · rw [State.vd_updVd_ne _ _ e]
  refine .ite ?_ h.frame
  cases fn with
  | pf => exact h.frame
  | vf k => exact h.trans (vds _ _)

theorem comes {c : Nat} {p : Packet} {f : State → State} (h : StayFrame s t) (hf : ∀ t, StayFrame s t → StayFrame s (f t)) :
    StayFrame s (t.comes c p f) := .ite h.updCore (hf _ h)

theorem pendCheck {wid id : Nat} (h : StayFrame s t) : StayFrame s (t.pendCheck wid id) := h.comes fun _ h => h.updWave

theorem noteFlits {plane index n : Nat} (h : StayFrame s t) : StayFrame s (t.noteFlits plane index n) := .ite h.frame (.atTick h.frame)

/-- A request packet leaves: its flits are counted, and its plane is watched. -/
theorem packet {plane part : Nat} {cls : Cls} {n : Nat} {o : Out} (h : StayFrame s t) :
    StayFrame s (((t.countFlits plane part cls n).watch plane).emit o) := .emit (.ite h.noteFlits h.noteFlits.after)

theorem postWrite {ag : Agent} {chip : Nat} {page : Option Nat} {gen pa : Nat} {data : List Byte} {coll : Option CollMsg} {op : Option RmwOp}
    {wid : Option (Nat × Nat)} {job : Option Nat} {at_ : Origin} (h : StayFrame s t) :
    StayFrame s (t.postWrite ag chip page gen pa data coll op wid job at_) := by
  unfold State.postWrite
  extract_lets _ _ _ _ s1 _ s2
  have h1 : StayFrame s s1 := by
    unfold s1
    split
    · exact h.frame
    · exact h.frame.updCore
  have h2 : StayFrame s s2 := .ite (.after h1.frame) h1
  exact .ite h2 h2.packet

theorem requestLease {die p : Nat} {cls : Cls} {chip page : Nat} {right : Right} (h : StayFrame s t) :
    StayFrame s (t.requestLease die p cls chip page right) := .ite h (.ite (.packet h.frame) h.frame)

theorem renew {e : PtcEntry} {cls : Cls} {right : Right} (h : StayFrame s t) : StayFrame s (t.renew e cls right) := .ite h.requestLease h

theorem wake {key : Nat} (h : StayFrame s t) : StayFrame s (t.wake key) := h.store (wake_wakes t key).toStoreFrame
theorem storeHome {pa : Nat} {bs : List Byte} (h : StayFrame s t) : StayFrame s (t.storeHome pa bs) := h.store (storeHome_stores ..)
theorem toFrame {p vf c off : Nat} {bs : List Byte} (h : StayFrame s t) : StayFrame s (t.toFrame p vf c off bs) := h.storeHome
theorem rekey {lo hi : Nat} (h : StayFrame s t) : StayFrame s (t.rekey lo hi) := .ite h.frame h
theorem healLines {pa n : Nat} (h : StayFrame s t) : StayFrame s (t.healLines pa n) := h.store (healLines_wakes ..).toStoreFrame
theorem frameOpen {p vf c off n : Nat} (h : StayFrame s t) : StayFrame s (t.frameOpen p vf c off n) := .ite h.rekey.healLines h

theorem duplicate {ag : Agent} {mirror : Bool} {pa : Nat} {bs : List Byte} (h : StayFrame s t) : StayFrame s (t.duplicate ag mirror pa bs) :=
  .ite (.ite (.after h.frame) h.postWrite) h

theorem duplicatePage {ag : Agent} {pa : Nat} (h : StayFrame s t) : StayFrame s (t.duplicatePage ag pa) := h.foldl fun _ _ h => h.duplicate

theorem snapshot {ag : Agent} {mirror : Bool} {pa : Nat} (h : StayFrame s t) : StayFrame s (t.snapshot ag mirror pa) := by
  unfold State.snapshot
  split
  · exact h
  · split
    · exact h
    · refine .ite h (.ite (.ite h.updGrid h) (.ite h (.ite h.updGrid ?_)))
      split
      · exact .ite (.duplicatePage h.frame) h.frame
      · exact h.updGrid

theorem noKeep {f : Nat → Nat → Nat → Bool} (h : StayFrame s t) : StayFrame s (t.noKeep f) := .ite h h.frame
theorem dropL1 {c : Nat} (h : StayFrame s t) : StayFrame s (t.dropL1 c) := h.updCore
theorem dropCopies {f : Nat × Line → Bool} (h : StayFrame s t) : StayFrame s (t.dropCopies f) := h.frame

theorem patchCopies {ag : Agent} {chip : Option Nat} {pa : Nat} {bs : List Byte} (h : StayFrame s t) :
    StayFrame s (t.patchCopies ag chip pa bs) := by
  unfold State.patchCopies
  extract_lets s1 s2
  have h1 : StayFrame s s1 := by
    unfold s1
    split
    · exact h
    · exact h.noKeep
  have h2 : StayFrame s s2 := by
    unfold s2
    split
    · exact h1
    · exact h1.updCore
  exact h2.frame

theorem writeHome {ag : Agent} {mirror : Bool} {pa : Nat} {bs : List Byte} (h : StayFrame s t) : StayFrame s (t.writeHome ag mirror pa bs) :=
  .duplicate (.patchCopies (.storeHome (h.snapshot.store (crossed_wakes ..).toStoreFrame)))

theorem stampLine {pa : Nat} {st : Nat × Nat} {rmw : Bool} (h : StayFrame s t) : StayFrame s (t.stampLine pa st rmw) := .ite h.frame h.frame

theorem readStamp {wid : Option Nat} {st : Nat × Nat} (h : StayFrame s t) : StayFrame s (t.readStamp wid st) := by
  unfold State.readStamp
  split
  · exact h
  · exact h.updWave

theorem raiseHwm {by_ : Option Nat} {c off n : Nat} (h : StayFrame s t) : StayFrame s (t.raiseHwm by_ c off n) := by
  unfold State.raiseHwm
  split
  · exact h
  · split
    · exact h
    · exact .ite h.updTeam.updCore h

theorem storeScratch {by_ : Option Nat} {c off : Nat} {bs : List Byte} (h : StayFrame s t) : StayFrame s (t.storeScratch by_ c off bs) :=
  .foldl h.raiseHwm.updCore fun _ _ h => h.wake

theorem storeAt {wid lane : Nat} {stamp : Option (Nat × Nat)} {g : Go} {bs : List Byte} (h : StayFrame s t) :
    StayFrame s (t.storeAt wid lane stamp g bs) := by
  unfold State.storeAt
  extract_lets
  split
  · extract_lets
    split
    · exact h.writeHome
    · exact h.writeHome.stampLine
  · exact .ite h.updCore h.storeScratch
  · exact h.atTick
  · exact h.frame
  · exact h.postWrite.patchCopies.renew
  · exact h

theorem xaccAt {wid : Nat} {c : CellType} {x : Nat} {g : Go} (h : StayFrame s t) : StayFrame s (t.xaccAt wid c x g) := by
  unfold State.xaccAt
  split
  · extract_lets s1
    have h1 : StayFrame s s1 := h.readStamp.writeHome
    split
    · exact h1
    · exact h1.stampLine
  · exact h

/-! ## Operating classes (R375) -/

theorem noteThrottle {j : Nat} (h : StayFrame s t) : StayFrame s (t.noteThrottle j) := by
  unfold State.noteThrottle
  extract_lets now
  obtain ⟨ws, e⟩ := raiseThrottle_eq (t.updHob j fun k => { k with throttled := now }) j now
  rw [e]
  exact .ite h h.frame

theorem adoptOp {j cls : Nat} (h : StayFrame s t) : StayFrame s (t.adoptOp j cls) := by
  have h1 : StayFrame s ((t.updHob j fun k => { k with opStep := classStep cls (t.spent j) }).noteThrottle j) := .noteThrottle h.frame
  exact .after h1.frame

theorem boundary {c : Nat} (h : StayFrame s t) : StayFrame s (t.boundary c) :=
  .ite h.updPool (.ite h.updPool (.foldl h.updPool.updPool fun _ _ h => h.adoptOp))

theorem throttleMoved {j old new : Nat} (h : StayFrame s t) : StayFrame s (t.throttleMoved j old new) := by
  unfold State.throttleMoved State.throttleCause
  extract_lets
  split
  · exact h
  · refine .ite ?_ h
    split
    · exact h
    · exact h.frame

theorem noteRest {j : Nat} {k : Team} (h : StayFrame s t) : StayFrame s (t.noteRest j k) := h.foldl fun _ _ h => .ite h.updWave.after h

theorem fileAgain {j : Nat} (h : StayFrame s t) : StayFrame s (t.fileAgain j) := by
  unfold State.fileAgain
  split
  · exact h
  · split
    · exact h
    · exact h.fileReq

/-! ## The side log (R196, R199, R212) -/

theorem fqRecords {p : Nat} {rs : List FaultRec} (h : StayFrame s t) : StayFrame s (t.fqRecords p rs) := by
  unfold State.fqRecords
  extract_lets s1
  have h1 : StayFrame s s1 := h.foldl fun _ _ h => h.storeHome.updPart
  exact .ite h1 h1.raiseIrq

theorem entryFault {c : Nat} {e : SideEntry} {level : Nat} {chip : Option Nat} (h : StayFrame s t) :
    StayFrame s (t.entryFault c e level chip) := .ite h.fqRecords.drawn.updCore h.updCore

theorem refuseEntry {c : Nat} {e : SideEntry} (h : StayFrame s t) : StayFrame s (t.refuseEntry c e) := h.updCore.updWave

theorem keepTlb {c p : Nat} {cls : Cls} {asid va : Nat} (h : StayFrame s t) : StayFrame s (t.keepTlb c p cls asid va) := by
  unfold State.keepTlb
  extract_lets _ s1
  have h1 : StayFrame s s1 := .ite h (h.looked (walked_lookedUp ..))
  split
  · exact .ite h1 h1.updCore.withCtlb
  · exact h1

theorem replayOp {wid : Nat} {go : Nat → Go} {o : LogOp} (h : StayFrame s t) : StayFrame s (t.replayOp wid go o) := by
  have touched {hint : Nat} {g : Go} : StayFrame s (t.replayTouch wid hint g) := by
    unfold State.replayTouch
    split
    · exact h.looked (l2Home_lookedUp ..)
    · exact h
  cases o with
  | store va bs st hint => exact touched.storeAt
  | xacc va c x => exact touched.xaccAt

theorem replayEntry {c : Nat} {e : SideEntry} (h : StayFrame s t) : StayFrame s (t.replayEntry c e) := by
  unfold State.replayEntry
  split
  · exact h.entryFault
  · exact h.requestLease.updCore
  · exact .ite h.updCore.pendCheck h.refuseEntry
  · refine .ite h (StayFrame.frame (t := List.foldl _ _ _) ?_)
    exact h.updCore.keepTlb.foldl fun _ _ h => h.replayOp

theorem sendMarkers {wid : Nat} (h : StayFrame s t) : StayFrame s (t.sendMarkers wid) := h.foldl fun _ _ h => h.foldl fun _ _ h => .packet h.frame

theorem releaseFabric {wid : Nat} {sc : Scope} {to_ : List (Nat × Nat)} (h : StayFrame s t) : StayFrame s (t.releaseFabric wid sc to_).2.2 := by
  unfold State.releaseFabric
  extract_lets
  split
  · exact h
  · split
    · exact h
    · split
      · split
        · exact h
        · split
          · exact h
          · exact h.sendMarkers
      · split
        · exact h.updCore
        · exact h

theorem releaseEntry {c : Nat} {e : SideEntry} {sc : Scope} (h : StayFrame s t) : StayFrame s (t.releaseEntry c e sc).2 := by
  unfold State.releaseEntry
  split
  · exact h
  · extract_lets s1
    have h1 : StayFrame s s1.2.2 := h.releaseFabric
    split <;> exact h1.updCore

theorem replayOne {c : Nat} {k : Nat × Nat × Nat} (h : StayFrame s t) : StayFrame s (t.replayOne c k) := by
  unfold State.replayOne
  split
  · exact h
  · split
    · exact .ite h h.replayEntry
    · extract_lets s1
      have h1 : StayFrame s s1.2 := h.releaseEntry
      split
      · exact h1.replayEntry
      · exact h1

theorem replayLog {c : Nat} {ks : List (Nat × Nat × Nat)} {held : List Nat} (h : StayFrame s t) : StayFrame s (t.replayLog c ks held) := by
  induction ks generalizing t held with
  | nil => exact h
  | cons k ks ih => exact .ite (ih h) (ih h.replayOne)

end StayFrame
end Sys2Proof.Machine
end

section
/-!
SUPPORT. What the scheduler's operations leave alone, continued (O58, O59): claims and evictions, frames of saved teams, and the operations that remove or save a team.
-/

namespace Sys2Proof.Machine

/- Elaborated one after another: at one thread for each of so many short theorems, the stacks together would pass the memory limit. -/
set_option Elab.async false

variable {s t u : State}

namespace StayFrame

/-! ## Jobs that are cancelled -/

theorem cancelJob {j : Nat} (h : StayFrame s t) : StayFrame s (t.cancelJob j) := by
  unfold State.cancelJob
  split
  · exact h
  · next k _ =>
    have h1 : StayFrame s (t.unround k) := .ite h.updPart h
    unfold State.endJob
    split
    · exact h1
    · split
      · exact h1.frame
      · exact .frame (t := State.setTag _ _ _ _) h1.updTeam

/-! ## Claims and evictions (R117 to R121) -/

theorem endCalls {wid depth : Nat} (h : StayFrame s t) : StayFrame s (t.endCalls wid depth) := by
  unfold State.endCalls
  split
  · exact h
  · refine h.foldl fun u _ h => ?_
    have h1 : StayFrame s (u.refillAll wid) := by
      unfold State.refillAll
      split
      · exact h
      · exact h.foldl fun _ _ h => h.frame
    exact h1.frame

theorem restartRegion {wid : Nat} (h : StayFrame s t) : StayFrame s (t.restartRegion wid) := by
  unfold State.restartRegion
  split
  · exact h
  · split
    · exact h
    · extract_lets _ s1
      have h1 : StayFrame s s1 := .endCalls (h.foldl fun _ _ h => h.cancelJob)
      exact .ite h h1.updWave

theorem evict {wid : Nat} (h : StayFrame s t) : StayFrame s (t.evict wid) := by
  unfold State.evict
  split
  · exact h
  · exact .ite h (.updWave (.restartRegion h.frame))

theorem evictTeam {k : Nat} (h : StayFrame s t) : StayFrame s (t.evictTeam k) := by
  unfold State.evictTeam
  split
  · exact h
  · extract_lets _ s1
    have h1 : StayFrame s s1 := h.updTeam.foldl fun _ _ h => h.evict
    exact h1.foldl fun _ _ h => h.cancelJob

theorem evictAll {c : Nat} {ws ts : List Nat} (h : StayFrame s t) : StayFrame s (t.evictAll c ws ts) := by
  unfold State.evictAll
  extract_lets s1
  have h1 : StayFrame s s1 := h.foldl fun _ _ h => .ite h.evict h
  exact h1.foldl fun _ _ h => .ite h.evictTeam h

theorem armClaim {c side : Nat} (h : StayFrame s t) : StayFrame s (t.armClaim c side) := (h.withdraw rfl).after.drawn

theorem claimSide {c side k : Nat} (h : StayFrame s t) : StayFrame s (t.claimSide c side k) := .armClaim h.frame

theorem claimLater {c side k : Nat} {ws ts tiles : List Nat} (h : StayFrame s t) : StayFrame s (t.claimLater c side k ws ts tiles) := h.frame

theorem takeTiles {c : Nat} {tiles : List Nat} (h : StayFrame s t) : StayFrame s (t.takeTiles c tiles) := h.updCore

theorem rewake {wid : Nat} (h : StayFrame s t) : StayFrame s (t.rewake wid) := by
  unfold State.rewake
  split
  · exact h
  · extract_lets
    split
    · exact h.atTick
    · exact h.after.drawn
    · exact h

theorem armGate {wid : Nat} (h : StayFrame s t) : StayFrame s (t.armGate wid) := by
  unfold State.armGate
  split
  · exact h
  · extract_lets c arm
    have arms {v i bs} (passing : lasting i = false) (h : StayFrame s v) : StayFrame s (arm v i bs) := by
      unfold arm
      split
      · exact h.withdraw passing
      · exact (h.withdraw passing).after
    exact arms rfl (arms rfl h)

theorem waveBack {wid : Nat} (h : StayFrame s t) : StayFrame s (t.waveBack wid) := by
  unfold State.waveBack
  extract_lets _ s1
  have h1 : StayFrame s s1 := by
    unfold s1
    split
    · exact h
    · exact h.updCore
  exact h1.updWave.armGate.rewake

theorem tilesIn {c : Nat} {tiles : List Nat} {v : Tbl Word} (h : StayFrame s t) : StayFrame s (t.tilesIn c tiles v) := h.updCore

theorem tilesBack {k : Nat} (h : StayFrame s t) : StayFrame s (t.tilesBack k) := by
  unfold State.tilesBack
  split
  · exact h
  · split
    · exact h
    · exact h.tilesIn.updTeam.updCore

theorem reclaim {core wid : Nat} {w : Wave} (h : StayFrame s t) : StayFrame s (t.reclaim core wid w) :=
  .waveBack (.ite h.evictAll.updWave.tilesBack.kickTeam h.evictAll.updWave)

theorem claim {c k : Nat} {f : Fit} {cls : Cls} (h : StayFrame s t) : StayFrame s (t.claim c k f cls) := by
  unfold State.claim
  extract_lets _ _ _ _ _ s1 _ s2
  have h1 : StayFrame s s1 := .ite h (h.evictAll.foldl fun _ _ h => h.reclaim)
  have h2 : StayFrame s s2 := .ite h1 h1.takeTiles
  exact .ite h (h2.updTeam.foldl fun _ _ h => .ite h.claimLater h.claimSide)

theorem startClaims {c : Nat} (h : StayFrame s t) : StayFrame s (t.startClaims c) := by
  unfold State.startClaims
  extract_lets _ s0 _ s1
  have h0 : StayFrame s s0 := h.frame
  have h1 : StayFrame s s1 := h0.evictAll.foldl fun _ _ h => .ite (h.foldl fun _ _ h => h.reclaim) h
  exact h1.takeTiles.foldl fun _ _ h => h.armClaim

/-! ## The start of a team (R102, R115) -/

theorem raiseCarve {c carve : Nat} (h : StayFrame s t) : StayFrame s (t.raiseCarve c carve) := .ite h h.updCore
theorem freshI {c k g : Nat} (h : StayFrame s t) : StayFrame s (t.freshI c k g) := .ite h h.updCore
theorem startAcquire {c p : Nat} (h : StayFrame s t) : StayFrame s (t.startAcquire c p) := h.dropL1.noKeep.dropCopies
theorem lowerCarve {c : Nat} (h : StayFrame s t) : StayFrame s (t.lowerCarve c) := .ite h.updCore h
theorem notComing {c k : Nat} (h : StayFrame s t) : StayFrame s (t.notComing c k) := h.updCore

/-- Waves that take their places on a core leave its forwarding entries. -/
theorem takenBy_forwards (l : List (Nat × Wave)) (c : Core) : (l.foldl (fun x e => x.takenBy e.2) c).forwards = c.forwards :=
  List.foldlRecOn l _ (motive := fun x : Core => x.forwards = c.forwards) rfl fun _ h _ _ => h

theorem startCore {k : Nat} (h : StayFrame s t) : StayFrame s (t.startCore k) := by
  unfold State.startCore
  split
  · exact h
  · split
    · exact h
    · exact h.freshI.raiseCarve.startAcquire.updCore fun _ => takenBy_forwards ..

/-! ## The frame of a team (R112, R113, R118) -/

theorem spillSlab {wid k : Nat} (h : StayFrame s t) : StayFrame s (t.spillSlab wid k) := by
  unfold State.spillSlab
  split
  · exact h
  · extract_lets
    split
    · exact h
    · split
      · exact h
      · split
        · exact h
        · exact h.toFrame.updWave

theorem spillTile {c tile : Nat} (h : StayFrame s t) : StayFrame s (t.spillTile c tile) := by
  unfold State.spillTile
  split
  · exact h
  · split
    · exact h
    · exact h.toFrame.updTeam

theorem spillAll {j : Nat} {k : Team} (h : StayFrame s t) : StayFrame s (t.spillAll j k) := by
  unfold State.spillAll
  extract_lets s1
  have h1 : StayFrame s s1 := h.foldl fun _ _ h => .updWave (h.foldl fun _ _ h => h.spillSlab)
  exact (h1.foldl fun _ _ h => h.spillTile).updCore

theorem homeSlab {wid k : Nat} (h : StayFrame s t) : StayFrame s (t.homeSlab wid k) := by
  unfold State.homeSlab
  split
  · exact h
  · split
    · exact h
    · exact h.updWave

theorem homeTile {j tile : Nat} (h : StayFrame s t) : StayFrame s (t.homeTile j tile) := by
  unfold State.homeTile
  split
  · exact h
  · split
    · exact h
    · exact h.tilesIn.updTeam

theorem homeAll {j : Nat} (h : StayFrame s t) : StayFrame s (t.homeAll j) := by
  unfold State.homeAll
  extract_lets s1
  have h1 : StayFrame s s1 := h.foldl fun _ _ h => .ite h (h.foldl fun _ _ h => h.homeSlab)
  split
  · exact h1
  · exact .ite h1 (h1.foldl fun _ _ h => h.homeTile)

theorem drainPlace {p vf c : Nat} {w : Wave} {es : List (Nat × Nat × PcEntry)} (h : StayFrame s t) : StayFrame s (t.drainPlace p vf c w es) :=
  h.frameOpen.toFrame

theorem drainFrame {j : Nat} {k : Team} {tv : Tbl Word} (h : StayFrame s t) : StayFrame s (t.drainFrame j k tv) := by
  unfold State.drainFrame
  split
  · exact h
  · extract_lets put s1 s2 _ _ s3 _ s4
    have h1 : StayFrame s s1 := by
      refine h.foldl fun _ _ h => ?_
      split
      · exact h
      · exact .drainPlace (h.foldl fun _ _ h => h.toFrame)
    have h2 : StayFrame s s2 := h1.foldl fun _ _ h => h.toFrame
    have h3 : StayFrame s s3 := h2.frameOpen.frameOpen.toFrame.toFrame.foldl fun _ _ h => h.toFrame
    have h4 : StayFrame s s4 := h3.toFrame
    exact h4.withPoison

theorem takePcs {j : Nat} {k : Team} (h : StayFrame s t) : StayFrame s (t.takePcs j k) := h.updTeam.updCore

/-- PC table entries that come back leave the forwarding entries of the core. -/
theorem entriesBack_forwards (s : State) (l : List (Nat × Nat × PcEntry)) (c : Core) : (l.foldl (fun (c : Core) e =>
    if e.1 == 0 then { c with side0 := s.entryBack c.side0 e.2.1 e.2.2 } else { c with side1 := s.entryBack c.side1 e.2.1 e.2.2 }) c).forwards = c.forwards := by
  refine List.foldlRecOn l _ (motive := fun x : Core => x.forwards = c.forwards) rfl fun x h e _ => ?_
  split <;> exact h

theorem givePcs {j : Nat} (h : StayFrame s t) : StayFrame s (t.givePcs j) := by
  unfold State.givePcs
  split
  · exact h
  · exact h.updTeam.updCore fun _ => entriesBack_forwards ..

theorem seat_saved {k : Team} (saved : k.loc = .saved) : k.seat = (k.grid, k.core, k.start, k.tiles, k.loc, 0) := by
  rw [Team.seat, if_pos saved]

/-- What a saved team reads from its block leaves its seat. -/
theorem seat_ofBlock {k : Team} (saved : k.loc = .saved) (bs : List Byte) (pcs : List (Nat × Nat × PcEntry)) (tv : Option (Tbl Word)) (pos : Nat) :
    Team.seat { k.ofBlock bs with inShadow := true, pcSave := pcs, tileSave := tv, schedPos := pos } = k.seat :=
  (seat_saved (k := { k.ofBlock bs with inShadow := true, pcSave := pcs, tileSave := tv, schedPos := pos }) saved).trans (seat_saved saved).symm

theorem loadFrame {j : Nat} (h : StayFrame s t) : StayFrame s (t.loadFrame j) := by
  refine h.trans ?_
  unfold State.loadFrame
  split
  · exact .refl t
  next k there =>
  split
  · exact .refl t
  split
  · exact .refl t
  next saved =>
  extract_lets _ s1 _ _ s2
  have h1 : StayFrame t s1 := (refl t).foldl fun _ _ h => h.updWave
  have h2 : StayFrame t s2 := h1.foldl fun _ _ h => .ite h h.updJob.updTeam
  refine h2.updTeamOf fun y found => ?_
  have loc : y.loc = .saved := by
    obtain ⟨z, also, seat⟩ := h2.find there
    obtain rfl : z = y := Option.some.inj (also.symm.trans found)
    have e : z.loc = k.loc := congrArg (·.2.2.2.2.1) seat
    rw [e]
    exact (show k.loc = .saved ∧ k.inShadow = false by simpa using saved).1
  exact seat_ofBlock loc ..

theorem preloadCore {c : Nat} {v : Option Nat} (h : StayFrame s t) : StayFrame s (t.preloadCore c v) := by
  unfold State.preloadCore
  extract_lets _ s1
  have h1 : StayFrame s s1 := .ite h (h.foldl fun _ _ h => h.updTeam)
  exact (h1.foldl fun _ _ h => h.loadFrame).updCore

theorem preload {cores : List Nat} {v : Option Nat} (h : StayFrame s t) : StayFrame s (t.preload cores v) :=
  h.foldl fun _ _ h => .ite h h.preloadCore

/-! ## What goes with a team that moves (R112, R218) -/

theorem crossDie {j target : Nat} (h : StayFrame s t) : StayFrame s (t.crossDie j target) := by
  unfold State.crossDie
  extract_lets d _ _ s0 s1 s2 _ s3
  have h0 : StayFrame s s0 := h.dropCopies.noKeep
  have h1 : StayFrame s s1 := h0.foldl fun _ _ h => h.updWave
  have h2 : StayFrame s s2 := h1.foldl fun _ _ h => h.updJob
  have h3 : StayFrame s s3 := by
    unfold s3
    refine h2.updCore.foldl fun _ _ h4 => ?_
    split
    · exact h4
    · exact h4.requestLease
  exact h3.foldl fun _ _ h => h.requestLease

theorem carryOver {j old target : Nat} (h : StayFrame s t) : StayFrame s (t.carryOver j old target) := by
  unfold State.carryOver
  extract_lets _ _ _ _ _ s1 s2
  have h1 : StayFrame s s1 := h.updCore.updCore.foldl fun _ _ h => h.updJob
  have h2 : StayFrame s s2 := h1.frame
  exact .ite h2 h2.crossDie

end StayFrame

/-! ## Teams that are removed (R98, R149, R227) -/

namespace TimeFrame

theorem dropJob {j : Nat} (h : TimeFrame s t) : TimeFrame s (t.dropJob j) := by
  unfold State.dropJob
  split
  · exact h
  · next k _ =>
    have h1 : StayFrame t (t.unround k) := .ite (StayFrame.refl t).updPart (.refl t)
    exact (h.stay h1).frame

theorem removeTeam {k : Nat} (h : TimeFrame s t) : TimeFrame s (t.removeTeam k) := by
  unfold State.removeTeam
  split
  · exact h
  · extract_lets s1 _ _ _ _ _ s2 s3 s4
    have h1 : TimeFrame s s1 := h.foldl fun _ _ h => h.dropJob
    have h2 : TimeFrame s s2 := h1.frame
    have h3 : TimeFrame s s3 := by
      unfold s3
      split
      · exact h2.frame
      · exact h2
    have h4 : TimeFrame s s4 := by
      unfold s4
      split
      · exact h3
      · exact .ite h3 h3.frame
    have last {c g : Nat} {v : State} (hv : TimeFrame s v) : TimeFrame s ((((v.lowerCarve c).freed c).lendLater c).drainOf g) :=
      hv.stay (StayFrame.refl v).lowerCarve.freed.lendLater.drainOf
    exact .ite h4 (last h4.frame)

theorem forgetGrid {g : Nat} (h : TimeFrame s t) : TimeFrame s (t.forgetGrid g) := h.frame

theorem raiseIrq {fn : HostFn} {vec : Nat} (h : TimeFrame s t) : TimeFrame s (t.raiseIrq fn vec) := h.stay (StayFrame.refl t).raiseIrq

theorem nodeFail {hq slot code : Nat} (h : TimeFrame s t) : TimeFrame s (t.nodeFail hq slot code) := .ite h.frame (.raiseIrq h.frame)

theorem sqRecord {p kind core issueId slot hq : Nat} {epc : DWord} {cause : Word} (h : TimeFrame s t) :
    TimeFrame s (t.sqRecord p kind core issueId slot hq epc cause) :=
  h.stay (.ite (StayFrame.refl t).storeHome.updPart.raiseIrq (StayFrame.refl t).updPart)

theorem sqWave {kind wid : Nat} (h : TimeFrame s t) : TimeFrame s (t.sqWave kind wid) := by
  unfold State.sqWave
  split
  · exact h
  · split
    · exact h
    · split
      · exact h
      · exact h.sqRecord

theorem afterKill {root : Nat} (h : TimeFrame s t) : TimeFrame s (t.afterKill root) := by
  unfold State.afterKill
  split
  · exact h
  · exact .ite (h.stay (StayFrame.refl t).soonOnce) h.nodeFail.forgetGrid

/-- What the kills of a launch share: its teams and its child grids go. -/
theorem removeTree {root : Nat} {ev : Nat × Nat × Nat × DWord × Word} {l : List (Nat × Grid)} (h : TimeFrame s t) : TimeFrame s
    (l.foldl (fun s e => if e.1 == root then s else s.forgetGrid e.1)
      ((t.updGrid root (fun k => { k with killed := true, children := 0, event := ev })).removeTeams root)) := by
  have h1 : TimeFrame s ((t.updGrid root (fun k => { k with killed := true, children := 0, event := ev })).removeTeams root) :=
    .foldl h.frame fun _ _ h => h.removeTeam
  exact h1.foldl fun _ _ h => .ite h h.forgetGrid

theorem killLaunch {wid : Nat} (h : TimeFrame s t) : TimeFrame s (t.killLaunch wid) := by
  unfold State.killLaunch
  split
  · exact h
  · split
    · exact h
    · split
      · exact h
      · exact h.sqWave.removeTree.afterKill

theorem killGrid {root : Nat} {kinds : List Nat} {ev : Nat × Nat × Nat × DWord × Word} (h : TimeFrame s t) :
    TimeFrame s (t.killGrid root kinds ev) := by
  unfold State.killGrid
  split
  · exact h
  · extract_lets s1
    have h1 : TimeFrame s s1 := .foldl h.frame fun _ _ h => h.sqRecord
    exact h1.removeTree.afterKill

theorem killTeam {k : Nat} (h : TimeFrame s t) : TimeFrame s (t.killTeam k) := by
  unfold State.killTeam
  split
  · exact h
  · split
    · exact .killLaunch h.frame
    · split
      · exact h
      · exact h.killGrid

theorem checkTeam {k : Nat} (h : TimeFrame s t) : TimeFrame s (t.checkTeam k) := by
  unfold State.checkTeam
  split
  · exact h
  · refine .ite ?_ h
    have last {c g : Nat} {v : State} (hv : TimeFrame s v) : TimeFrame s ((v.boundary c).gridCheck g) := hv.stay (StayFrame.refl v).boundary.gridCheck
    exact last (.removeTeam h.frame)

theorem drainLog {c : Nat} (h : TimeFrame s t) : TimeFrame s (t.drainLog c) := by
  refine .ite h (.foldl (h.stay (StayFrame.refl t).replayLog) fun v _ h => ?_)
  exact .checkTeam (h.stay (StayFrame.refl v).kickTeam)

/-! ## Teams that resume (R127) -/

theorem resumeTeam {k : Nat} (h : TimeFrame s t) : TimeFrame s (t.resumeTeam k) := by
  unfold State.resumeTeam
  split
  · exact h
  · split
    · exact h
    · split
      · exact h.killTeam
      · split
        · exact h
        · extract_lets s0 _ _ s1 _ s2 s3 s4 s5 s6 s7 s8
          have h1 : TimeFrame s s1 := h.stay (StayFrame.refl t).loadFrame.freshI.raiseCarve
          have h2 : TimeFrame s s2 := h1.frame
          have h3 : TimeFrame s s3 := h2.foldl fun _ _ h => .ite h.frame h
          have h4 : TimeFrame s s4 := h3.frame
          have h5 : TimeFrame s s5 := .ite h4 (h4.stay (StayFrame.refl s4).tilesBack)
          have h6 : TimeFrame s s6 := h5.stay (StayFrame.refl s5).dropL1.noKeep.givePcs
          have h7 : TimeFrame s s7 := h6.foldl fun v _ h => .ite h (h.stay (StayFrame.refl v).waveBack)
          have h8 : TimeFrame s s8 := h7.foldl fun _ _ h => h.frame
          exact .drainLog (h8.stay (StayFrame.refl s8).fileAgain.kickTeam.freed)

theorem resumeSaved {p vf : Nat} (h : TimeFrame s t) : TimeFrame s (t.resumeSaved p vf) := h.foldl fun _ _ h => .ite h h.resumeTeam

end TimeFrame

end Sys2Proof.Machine
end

section
/-!
SUPPORT. The choice of a core (O58): how a team fits a core, the order of the cores, and the placement of a team (R102, R115, R116).
-/

namespace Sys2Proof.Machine

variable {s t u : State}

theorem lt_of_mem_coresOf {p c : Nat} (there : c ∈ s.coresOf p) : c < 384 := by
  obtain ⟨cl, hcl, hc⟩ := List.mem_flatMap.1 there
  have bound := List.mem_range.1 (List.mem_of_mem_filter hcl)
  obtain ⟨i, hi, rfl⟩ := List.mem_map.1 hc
  have := List.mem_range.1 hi
  omega

/-- Without a right to claim only what is free is taken. -/
theorem pickFrom_unclaimed {total n pick : Nat} {mine theirs : List (Nat × Nat)} {x : Pick} (picked : pickFrom total n pick mine theirs false = some x) :
    x.2 = [] := by
  unfold pickFrom at picked
  extract_lets free at picked
  split at picked
  · rw [← Option.some.inj picked]
  · cases picked

theorem fit_some {c p : Nat} {r : LaunchRec} {cls : Cls} {claim : Bool} {f : Fit} (fits : s.fit c p r cls claim = some f) :
    (s.core c).fenced = false ∧ (s.hob (hobOf c)).fenced = false ∧ (cls = .h → f.free = true) := by
  unfold State.fit at fits
  extract_lets share gScratch gTags limit taken tags tagsOk nOf claims pick evictedOn held start tl sl pl at fits
  split at fits
  · cases fits
  next open_ =>
  split at fits
  · cases fits
  split at fits
  next e0 e1 e2 e3 e4 e5 =>
    obtain rfl := Option.some.inj fits
    simp only [Bool.or_eq_true, not_or, Bool.not_eq_true] at open_
    obtain ⟨⟨⟨core, hob⟩, -⟩, -⟩ := open_
    refine ⟨core, hob, fun h => ?_⟩
    have none_ : claims = false := by simp [claims, h]
    simp only [tl, sl, pl, none_] at e1 e2 e3 e4 e5
    simp [Fit.free, pickFrom_unclaimed e1, pickFrom_unclaimed e2, pickFrom_unclaimed e3, pickFrom_unclaimed e4, pickFrom_unclaimed e5]
  · cases fits

section
variable {p : Nat} {r : LaunchRec} {cls : Cls}

theorem chooseCore_some {c : Nat} {f : Fit} (chosen : s.chooseCore p r cls = some (c, f)) : c ∈ s.coresOf p ∧ s.fit c p r cls true = some f
    ∧ ∀ d ∈ s.coresOf p, ∀ h, s.fit d p r cls true = some h → s.placeKey c r cls f ≤ s.placeKey d r cls h := by
  obtain ⟨there, below⟩ := leastBy_least chosen
  have listed {e : Nat × Fit} : e ∈ (s.coresOf p).filterMap (fun c => (s.fit c p r cls true).map (fun f => (c, f)))
      ↔ e.1 ∈ s.coresOf p ∧ s.fit e.1 p r cls true = some e.2 := by
    simp only [List.mem_filterMap, Option.map_eq_some_iff]
    constructor
    · rintro ⟨d, hd, h, fits, rfl⟩
      exact ⟨hd, fits⟩
    · exact fun ⟨hd, fits⟩ => ⟨e.1, hd, e.2, fits, rfl⟩
  exact ⟨(listed.1 there).1, (listed.1 there).2, fun d hd h fits => below (d, h) (listed.2 ⟨hd, fits⟩)⟩

theorem chooseCore_none (none_ : s.chooseCore p r cls = none) {d : Nat} (there : d ∈ s.coresOf p) : s.fit d p r cls true = none := by
  have empty := List.filterMap_eq_nil_iff.1 (leastBy_eq_none.1 none_) d there
  simpa using empty

end

/-- The key of a core is the order of R116: what is claimed, then the class of the pool, then the load, then the number. -/
theorem placeKey_le {c d a x k b y l : Nat} (hc : c < 1024) (hx : x < 4) (hy : y < 4) (hk : k < 1024) (hl : l < 1024)
    (le : ((a * 4 + x) * 2 ^ 10 + k) * 2 ^ 10 + c ≤ ((b * 4 + y) * 2 ^ 10 + l) * 2 ^ 10 + d) (hd : d < 1024) :
    a < b ∨ (a = b ∧ (x < y ∨ (x = y ∧ (k < l ∨ (k = l ∧ c ≤ d))))) := by
  omega

theorem chooseCore_first {p c : Nat} {r : LaunchRec} {cls : Cls} {f : Fit} (chosen : s.chooseCore p r cls = some (c, f)) {d : Nat} {h : Fit}
    (there : d ∈ s.coresOf p) (fits : s.fit d p r cls true = some h) :
    let claims := fun (f : Fit) => if f.free = true then 0 else 1 + f.claimedSlabs
    let rank := fun c => let pc := (s.pool (s.hob (hobOf c)).pool).cls
      if pc = r.opclass then 0 else if r.opclass < pc then 1 else 2
    let load := fun c => min 1023 ((s.coreWaves c).filter (fun e => s.clsOf e.1 == cls)).length
    claims f < claims h ∨ (claims f = claims h ∧ (rank c < rank d ∨ (rank c = rank d ∧ (load c < load d ∨ (load c = load d ∧ c ≤ d))))) := by
  intro claims rank load
  obtain ⟨mine, -, below⟩ := chooseCore_some chosen
  have rank_lt (e : Nat) : rank e < 4 := by simp only [rank]; split <;> [omega; (split <;> omega)]
  have load_lt (e : Nat) : load e < 1024 := by simp only [load]; omega
  have le := below d there h fits
  have hc := lt_of_mem_coresOf mine
  have hd := lt_of_mem_coresOf there
  have key (e : Nat) (x : Fit) : s.placeKey e r cls x = ((claims x * 4 + rank e) * 2 ^ 10 + load e) * 2 ^ 10 + e := by
    simp [State.placeKey, claims, rank, load]
  rw [key, key] at le
  exact placeKey_le (by omega) (rank_lt c) (rank_lt d) (load_lt c) (load_lt d) le (by omega)

theorem placeTeam_noCore {g : Nat} {k : Grid} (none_ : s.chooseCore k.part k.lrec k.cls = none) : s.placeTeam g k = none := by
  rw [State.placeTeam, none_]

/-! ## The placement of a team (R102, R116) -/

/-- A team starts: it is entered in the tables, then its core and its claims follow, which leave every team in its seat. -/
theorem startTeam_starts {gid index c : Nat} {f : Fit} {g : Grid} (there : Tbl.find s.grids gid = some g) : ∃ v : State,
    TimeFrame s v ∧ StayFrame v (s.startTeam gid index c f)
    ∧ ∃ y, Tbl.find v.teams s.nextId = some y ∧ y.seat = (gid, c, f.start, sortBy (fun x => x) f.tiles.1, .resident, index) := by
  unfold State.startTeam
  split
  · next none_ => simp [there] at none_
  next g' _ =>
  extract_lets id team s0 s1 s2 pl s3 s4
  have h1 : StayFrame s0 s1 := (StayFrame.refl s0).comes fun _ h => h.startCore
  have h3 : StayFrame s0 s3 := .ite h1.claim h1.claim.fileReq
  have h4 : StayFrame s0 s4 := .ite h3 h3.atTick
  exact ⟨s0, .frame (.refl s), h4.boundary, team, Tbl.find_put_self .., rfl⟩

theorem startTeam_time (s : State) (gid index c : Nat) (f : Fit) : TimeFrame s (s.startTeam gid index c f) := by
  cases there : Tbl.find s.grids gid with
  | none =>
    rw [State.startTeam, there]
    exact .refl s
  | some g =>
    obtain ⟨v, time, stay, -⟩ := startTeam_starts (index := index) (c := c) (f := f) there
    exact time.stay stay

/-- The state in which a grid has handed out the team at its head. -/
def State.handedOut (s : State) (g : Nat) (k : Grid) : State :=
  (s.updGrid g (fun x => if x.returned.contains (headIndex k) then { x with returned := x.returned.filter (· != headIndex k) }
    else { x with next := x.next + 1 })).drawn

/-- The state in which the placer of a cluster has committed a team. -/
def State.committed (s : State) (cluster : Nat) : State := { s with placed := Tbl.put s.placed cluster s.reft }

section
variable {g c : Nat} {k : Grid} {f : Fit} (chosen : s.chooseCore k.part k.lrec k.cls = some (c, f))
include chosen

theorem placeTeam_placerBusy (busy : s.placerFree (clusterOf c) = false) : s.placeTeam g k = none := by
  rw [State.placeTeam, chosen]
  exact if_pos (by simp [busy])

theorem placeTeam_eq (free : s.placerFree (clusterOf c) = true) :
    s.placeTeam g k = some (((s.handedOut g k).startTeam g (State.headIndex k) c f).committed (clusterOf c)) := by
  rw [State.placeTeam, chosen]
  exact if_neg (by simp [free])

theorem placeTeam_places (free : s.placerFree (clusterOf c) = true) (there : Tbl.find s.grids g = some k) :
    ∃ (t : State) (id : Nat) (y : Team), s.placeTeam g k = some t ∧ Tbl.find t.teams id = some y ∧ y.grid = g ∧ y.index = State.headIndex k ∧ y.core = c
      ∧ y.start = f.start ∧ y.tiles.length = f.tiles.1.length ∧ t.placerFree (clusterOf c) = false := by
  obtain ⟨k', grid⟩ : ∃ k', Tbl.find (s.handedOut g k).grids g = some k' := by
    simp only [State.handedOut, State.drawn, State.updGrid, Tbl.find_upd_self, there, Option.map_some, Option.some.injEq, exists_eq']
  obtain ⟨v, -, stay, team, entered, seat⟩ := startTeam_starts (index := State.headIndex k) (c := c) (f := f) grid
  obtain ⟨y, found, kept⟩ := stay.find entered
  rw [seat, Team.seat, Prod.mk.injEq, Prod.mk.injEq, Prod.mk.injEq, Prod.mk.injEq, Prod.mk.injEq] at kept
  obtain ⟨hgrid, hcore, hstart, htiles, hloc, hindex⟩ := kept
  refine ⟨_, _, y, placeTeam_eq chosen free, found, hgrid, ?_, hcore, hstart, ?_, ?_⟩
  · simpa [hloc] using hindex
  · rw [htiles, length_sortBy]
  · simp [State.placerFree, State.committed, Tbl.find_put_self]

end

theorem placeTeam_time {g : Nat} {k : Grid} (placed : s.placeTeam g k = some t) : TimeFrame s t := by
  cases chosen : s.chooseCore k.part k.lrec k.cls with
  | none => simp [placeTeam_noCore chosen] at placed
  | some e =>
    obtain ⟨c, f⟩ := e
    cases free : s.placerFree (clusterOf c) with
    | false => simp [placeTeam_placerBusy chosen free] at placed
    | true =>
      rw [placeTeam_eq chosen free] at placed
      obtain rfl := Option.some.inj placed
      have h : TimeFrame s ((s.handedOut g k).startTeam g (State.headIndex k) c f) := (TimeFrame.frame (.refl s)).trans (startTeam_time ..)
      exact h.frame

end Sys2Proof.Machine
end

section
/-!
SUPPORT. The service of queues (O58): the grid at the head of a queue, one queue's turn in a round, and a round (R106, R110, R111).
-/

namespace Sys2Proof.Machine

variable {s : State} {hq : Nat}

/-! ## The head of a queue (R111) -/

theorem headGrid_some {g : Nat} {k : Grid} (head : s.headGrid hq = some (g, k)) : (g, k) ∈ s.grids ∧ k.hq = hq ∧ State.unplaced k = true
    ∧ (k.parent = none → ∀ e ∈ s.grids, e.2.hq = hq → State.unplaced e.2 = true → e.2.parent = none ∧ (s.slot k.slot).order ≤ (s.slot e.2.slot).order) := by
  have listed {e : Nat × Grid} : e ∈ s.grids.filter (fun e => e.2.hq == hq && State.unplaced e.2) ↔ e ∈ s.grids ∧ e.2.hq = hq ∧ State.unplaced e.2 = true := by
    simp
  unfold State.headGrid at head
  extract_lets gs at head
  split at head
  · next e child =>
    obtain rfl := Option.some.inj head
    obtain ⟨there, mine, open_⟩ := listed.1 (List.mem_of_find?_eq_some child)
    have parent := List.find?_some child
    exact ⟨there, mine, open_, fun orphan => by simp [orphan] at parent⟩
  · next none_ =>
    obtain ⟨in_, below⟩ := leastBy_least head
    obtain ⟨there, mine, open_⟩ := listed.1 in_
    refine ⟨there, mine, open_, fun _ e he his unplaced => ?_⟩
    have also := listed.2 ⟨he, his, unplaced⟩
    exact ⟨by simpa using List.find?_eq_none.1 none_ e also, below e also⟩

theorem headGrid_none (none_ : s.headGrid hq = none) {e : Nat × Grid} (there : e ∈ s.grids) (mine : e.2.hq = hq) : State.unplaced e.2 = false := by
  unfold State.headGrid at none_
  extract_lets gs at none_
  split at none_
  · cases none_
  · have empty : gs = [] := leastBy_eq_none.1 none_
    have out : e ∉ gs := by simp [empty]
    simpa [gs, there, mine] using out

theorem headIndex_fresh {k : Grid} (none_ : k.returned = []) : State.headIndex k = k.next := by
  rw [State.headIndex, none_]
  rfl

theorem headIndex_returned {k : Grid} (some_ : k.returned ≠ []) : State.headIndex k ∈ k.returned ∧ ∀ i ∈ k.returned, State.headIndex k ≤ i := by
  rw [State.headIndex]
  cases least : leastBy id k.returned with
  | none => exact absurd (leastBy_eq_none.1 least) some_
  | some i => exact leastBy_least least

/-! ## One queue (R110, R111) -/

/-- A queue with more or less credit has the head that it had. -/
theorem headGrid_updQueue (s : State) (q hq : Nat) (f : Queue → Queue) : (s.updQueue q f).headGrid hq = s.headGrid hq := rfl

theorem serveQueue_noHead (none_ : s.headGrid hq = none) (n : Nat) : s.serveQueue hq n = (false, s) := by
  cases n with
  | zero => rfl
  | succ n => rw [State.serveQueue, none_]

section
variable {g : Nat} {k : Grid} (head : s.headGrid hq = some (g, k))
include head

theorem serveQueue_stops (stop : (s.queue hq).deficit < State.teamCost k ∨ s.placeTeam g k = none) (n : Nat) : s.serveQueue hq n = (false, s) := by
  cases n with
  | zero => rfl
  | succ n =>
    rw [State.serveQueue, head]
    dsimp only
    rcases stop with short | full
    · rw [if_pos short]
    · rw [full]
      exact ite_self _

theorem serveQueue_places (pays : State.teamCost k ≤ (s.queue hq).deficit) {t : State} (placed : s.placeTeam g k = some t) (n : Nat) :
    s.serveQueue hq (n + 1) = (true, ((t.updQueue hq (fun q => { q with deficit := q.deficit - State.teamCost k })).serveQueue hq n).2) := by
  rw [State.serveQueue, head]
  dsimp only
  rw [if_neg (by omega), placed]

end

/-- A team is placed where the deficit pays for the one at the head and a core is found for it. -/
theorem serveQueue_fst (s : State) (hq n : Nat) : (s.serveQueue hq (n + 1)).1 = true
    ↔ ∃ e, s.headGrid hq = some e ∧ State.teamCost e.2 ≤ (s.queue hq).deficit ∧ s.placeTeam e.1 e.2 ≠ none := by
  cases head : s.headGrid hq with
  | none => simp [serveQueue_noHead head]
  | some e =>
    obtain ⟨g, k⟩ := e
    simp only [Option.some.injEq, exists_eq_left']
    by_cases pays : State.teamCost k ≤ (s.queue hq).deficit
    · cases placed : s.placeTeam g k with
      | none => simp [serveQueue_stops head (.inr placed)]
      | some t => simp [serveQueue_places head pays placed, pays]
    · simp [serveQueue_stops head (.inl (Nat.lt_of_not_le pays)), pays]

/-- The credit with which a queue comes to its turn: its quantum more, up to a bound. -/
def State.creditOf (s : State) (hq : Nat) : Nat := min ((s.queue hq).deficit + s.quantum (s.queue hq)) (2 * s.quantum (s.queue hq) + 32)

/-- The queue at its turn, with that credit. -/
def State.credited (s : State) (hq : Nat) : State := s.updQueue hq (fun q => { q with deficit := s.creditOf hq })

theorem credited_deficit (s : State) (hq : Nat) : ((s.credited hq).queue hq).deficit = s.creditOf hq := by
  rw [State.credited, State.queue_updQueue_self]

theorem credited_eq (s : State) (hq : Nat) : s.credited hq
    = s.updQueue hq (fun k => { k with deficit := min (k.deficit + s.quantum (s.queue hq)) (2 * s.quantum (s.queue hq) + 32) }) := rfl

theorem serveQueue_time {t : State} (h : TimeFrame s t) (hq n : Nat) : TimeFrame s (t.serveQueue hq n).2 := by
  induction n generalizing t with
  | zero => exact h
  | succ n ih =>
    cases head : t.headGrid hq with
    | none =>
      rw [serveQueue_noHead head]
      exact h
    | some e =>
      obtain ⟨g, k⟩ := e
      by_cases pays : State.teamCost k ≤ (t.queue hq).deficit
      · cases placed : t.placeTeam g k with
        | none =>
          rw [serveQueue_stops head (.inr placed)]
          exact h
        | some u =>
          rw [serveQueue_places head pays placed]
          exact ih (h.trans (placeTeam_time placed)).frame
      · rw [serveQueue_stops head (.inl (Nat.lt_of_not_le pays))]
        exact h

theorem serveOne_idle (idle : s.headGrid hq = none ∨ s.queuePlaces (s.queue hq) = false) :
    s.serveOne hq = (false, s.updQueue hq (fun q => { q with deficit := 0 })) := by
  rw [State.serveOne]
  exact if_pos (by simpa using idle)

section
variable (head : s.headGrid hq ≠ none) (places : s.queuePlaces (s.queue hq) = true)
include head places

theorem serveOne_noQuantum (zero : s.quantum (s.queue hq) = 0) : s.serveOne hq = (false, s) := by
  rw [State.serveOne]
  dsimp only
  rw [if_neg (by simp [places, head]), if_pos (by simp [zero])]

theorem serveOne_serves (credit : s.quantum (s.queue hq) ≠ 0) : s.serveOne hq =
    (((s.credited hq).serveQueue hq 8).1, (if (((s.credited hq).serveQueue hq 8).2.headGrid hq).isNone
      then ((s.credited hq).serveQueue hq 8).2.updQueue hq (fun q => { q with deficit := 0 }) else ((s.credited hq).serveQueue hq 8).2).updPart
        (s.vdPart (s.queue hq).vf) (fun x => if (s.queue hq).cls = .g then { x with ptrG := (s.queue hq).loc + 1 } else { x with ptrH := (s.queue hq).loc + 1 })) := by
  have time : TimeFrame s ((s.credited hq).serveQueue hq 8).2 := serveQueue_time (.frame (.refl s)) hq 8
  have part : State.vdPart (if (((s.credited hq).serveQueue hq 8).2.headGrid hq).isNone then ((s.credited hq).serveQueue hq 8).2.updQueue hq (fun q => { q with deficit := 0 })
      else ((s.credited hq).serveQueue hq 8).2) (s.queue hq).vf = s.vdPart (s.queue hq).vf := (TimeFrame.ite time.frame time).vdPart _
  rw [State.serveOne]
  dsimp only
  rw [if_neg (by simp [places, head]), if_neg (by simp [credit]), ← credited_eq, part]
  simp only [beq_iff_eq]

end

theorem serveOne_fst (s : State) (hq : Nat) : (s.serveOne hq).1 = true ↔ s.queuePlaces (s.queue hq) = true ∧ s.quantum (s.queue hq) ≠ 0
    ∧ ∃ e, s.headGrid hq = some e ∧ State.teamCost e.2 ≤ s.creditOf hq ∧ (s.credited hq).placeTeam e.1 e.2 ≠ none := by
  by_cases head : s.headGrid hq = none
  · simp [serveOne_idle (.inl head), head]
  by_cases places : s.queuePlaces (s.queue hq) = true
  · by_cases zero : s.quantum (s.queue hq) = 0
    · simp [serveOne_noQuantum head places zero, zero]
    · rw [serveOne_serves head places zero, serveQueue_fst, credited_deficit]
      simp [places, zero, State.credited, headGrid_updQueue]
  · simp [serveOne_idle (.inr (by simpa using places)), places]

/-! ## A round (R106, R111) -/

theorem mem_roundOf (s : State) (p vf : Nat) (cls : Cls) (hq : Nat) :
    hq ∈ s.roundOf p vf cls ↔ ∃ q, (hq, q) ∈ s.queues ∧ q.valid = true ∧ q.vf = vf ∧ q.cls = cls := by
  simp [State.roundOf, mem_sortBy, and_assoc]

theorem pairwise_roundOf (s : State) (p vf : Nat) (cls : Cls) (distinct : s.queues.Pairwise (fun a b => a.1 ≠ b.1)) :
    let at_ := (if cls = .g then (s.part p).ptrG else (s.part p).ptrH) % 65536
    let turn := fun hq => ((s.queue hq).loc + 65536 - at_) % 65536
    (s.roundOf p vf cls).Pairwise (fun a b => turn a ≤ turn b) := by
  intro at_ turn
  have found {e : Nat × Queue} (there : e ∈ s.queues) : s.queue e.1 = e.2 := by
    rw [State.queue, Tbl.getD, Tbl.find_of_mem distinct there]
    rfl
  unfold State.roundOf
  extract_lets at0 qs
  have same : at0 % 65536 = at_ := by simp only [at0, at_, beq_iff_eq]
  refine List.pairwise_map.2 ((pairwise_sortBy (key := fun e : Nat × Queue => (e.2.loc + 65536 - at0 % 65536) % 65536) qs).imp_of_mem ?_)
  intro a b ha hb le
  have in_ {e : Nat × Queue} (he : e ∈ sortBy (fun e : Nat × Queue => (e.2.loc + 65536 - at0 % 65536) % 65536) qs) : e ∈ s.queues :=
    List.mem_of_mem_filter ((mem_sortBy ..).1 he)
  simp only [turn, found (in_ ha), found (in_ hb), ← same]
  exact le

theorem serveRound_first {x : Nat} {qs : List Nat} (placed : (s.serveOne x).1 = true) : s.serveRound (x :: qs) = s.serveOne x := by
  rw [State.serveRound]
  split
  · next e => exact e.symm
  · next e => simp [e] at placed

theorem serveRound_next {x : Nat} {qs : List Nat} (none_ : (s.serveOne x).1 = false) : s.serveRound (x :: qs) = (s.serveOne x).2.serveRound qs := by
  rw [State.serveRound]
  split
  · next e => simp [e] at none_
  · next e => rw [e]

/-- A round that has placed a team visits no later queue. -/
theorem serveRound_append (s : State) (qs rs : List Nat) (placed : (s.serveRound qs).1 = true) : s.serveRound (qs ++ rs) = s.serveRound qs := by
  induction qs generalizing s with
  | nil => simp [State.serveRound] at placed
  | cons x qs ih =>
    rw [List.cons_append]
    cases first : (s.serveOne x).1 with
    | true => rw [serveRound_first first, serveRound_first first]
    | false =>
      rw [serveRound_next first] at placed ⊢
      rw [serveRound_next first]
      exact ih _ placed

theorem serve_g {p vf : Nat} (placed : (s.serveRound (s.roundOf p vf .g)).1 = true) : s.serve p vf = (s.serveRound (s.roundOf p vf .g)).2 := by
  rw [State.serve]
  split
  · next e => rw [e]
  · next e => simp [e] at placed

theorem serve_h {p vf : Nat} (none_ : (s.serveRound (s.roundOf p vf .g)).1 = false) : s.serve p vf
    = ((s.serveRound (s.roundOf p vf .g)).2.serveRound ((s.serveRound (s.roundOf p vf .g)).2.roundOf p vf .h)).2 := by
  rw [State.serve]
  split
  · next e => simp [e] at none_
  · next e => rw [e]

end Sys2Proof.Machine
end


section
/-!
SUPPORT. Placement opportunities, claims, copies of the eviction area and re-admission (O58; R111, R116 to R119).
-/

namespace Sys2Proof.Machine

/- Elaborated one after another: at one thread for each of so many short theorems, the stacks together would pass the memory limit. -/
set_option Elab.async false

variable {s t u : State}

/-! ## Placement opportunities (R111, R116) -/

theorem execTeamPlacement_places {cluster : Fin 8} {p vf : Nat} (owner : s.ownerOf cluster.val = some p) (cur : (s.part p).slice.cur = some vf)
    (going : (s.part p).stopped = false) (still : (s.part p).slice.switching = false) (run : s.running = true) (before : s.reft < (s.part p).slice.stop) :
    let placed := (s.resumeSaved p vf).serve p vf
    execTeamPlacement cluster s = .next (if placed.placeLater vf = true ∧ placed.due (.teamPlacement cluster) = false
      then placed.after 16 (.teamPlacement cluster) else placed) := by
  intro placed
  rw [execTeamPlacement, owner]
  dsimp only
  rw [cur]
  dsimp only
  rw [if_neg (by simp [going, still, run, before])]
  simp [placed]

theorem execTeamPlacement_idle {cluster : Fin 8} (idle : s.ownerOf cluster.val = none ∨ ∃ p, s.ownerOf cluster.val = some p ∧
    ((s.part p).slice.cur = none ∨ (s.part p).slice.switching = true ∨ (s.part p).stopped = true ∨ s.running = false ∨ (s.part p).slice.stop ≤ s.reft)) :
    execTeamPlacement cluster s = .next s := by
  rcases idle with none_ | ⟨p, owner, off⟩
  · rw [execTeamPlacement, none_]
  · rw [execTeamPlacement, owner]
    dsimp only
    cases cur : (s.part p).slice.cur with
    | none => rfl
    | some vf => exact if_pos (by simpa [cur, or_assoc, or_left_comm] using off)

/-! ## Claims (R117) -/

/-- The claims on a side of a core. -/
def State.claimsOn (s : State) (core side : Nat) : List Claim := s.claims.filter (fun c => c.core == core && c.side == side)

/-- The teams of some claims whose last claim is over are ready. -/
def State.claimsOver (s : State) (mine : List Claim) : State :=
  mine.foldl (fun s c => if s.claims.any (fun d => d.team == c.team) then s else s.updTeam c.team (fun t => { t with ready := true })) s

theorem claims_claimsOver (s : State) (mine : List Claim) : (s.claimsOver mine).claims = s.claims :=
  List.foldlRecOn mine _ (motive := fun t : State => t.claims = s.claims) rfl fun t h c _ => by
    split <;> exact h

theorem ready_claimsOver {id : Nat} {k : Team} {mine : List Claim} (last : ∀ d ∈ s.claims, d.team ≠ id) (there : Tbl.find s.teams id = some k)
    (some_ : (∃ c ∈ mine, c.team = id) ∨ k.ready = true) : Tbl.find (s.claimsOver mine).teams id = some { k with ready := true } := by
  induction mine generalizing s k with
  | nil =>
    have ready : k.ready = true := by simpa using some_
    rw [show s.claimsOver [] = s from rfl, there, ← ready]
  | cons c mine ih =>
    rw [State.claimsOver, List.foldl_cons]
    by_cases mine' : c.team = id
    · have none_ : s.claims.any (fun d => d.team == c.team) = false := by simpa [mine'] using last
      rw [if_neg (by simp [none_]), mine']
      exact ih (k := { k with ready := true }) last (by rw [State.updTeam_find_self, there]; rfl) (.inr rfl)
    · have rest : (∃ c ∈ mine, c.team = id) ∨ k.ready = true := by simpa [mine'] using some_
      split
      · exact ih last there rest
      · exact ih last (by rw [State.updTeam_find_ne _ _ (Ne.symm mine'), there]) rest

section
variable {core : Nat} {side : Fin 2}

theorem execClaimComplete_none (none_ : s.claimsOn core side.val = []) : execClaimComplete core side s = .next s := by
  rw [execClaimComplete]
  exact if_pos (by rw [← State.claimsOn, none_]; rfl)

theorem execClaimComplete_held (some_ : s.claimsOn core side.val ≠ []) (held : s.coreRuns core = false ∨ s.moveAt core = true) :
    execClaimComplete core side s = .next (s.soon (.claimComplete core side)) := by
  rw [execClaimComplete]
  dsimp only
  rw [if_neg (by rw [← State.claimsOn]; simpa using some_), if_pos (by simpa using held)]

theorem execClaimComplete_eq (some_ : s.claimsOn core side.val ≠ []) (free : ¬ (s.coreRuns core = false ∨ s.moveAt core = true)) :
    execClaimComplete core side s = .next (State.claimsOver { s with claims := s.claims.filter (fun c => !(c.core == core && c.side == side.val)) }
      (s.claimsOn core side.val)) := by
  rw [execClaimComplete]
  dsimp only
  rw [if_neg (by rw [← State.claimsOn]; simpa using some_), if_neg (by simpa using free)]
  rfl

theorem execClaimComplete_ends (some_ : s.claimsOn core side.val ≠ []) (free : ¬ (s.coreRuns core = false ∨ s.moveAt core = true)) :
    ∃ t : State, execClaimComplete core side s = .next t ∧ (∀ c, c ∈ t.claims ↔ c ∈ s.claims ∧ c ∉ s.claimsOn core side.val)
      ∧ ∀ c ∈ s.claimsOn core side.val, (∀ d ∈ t.claims, d.team ≠ c.team) → ∀ k, Tbl.find s.teams c.team = some k →
        Tbl.find t.teams c.team = some { k with ready := true } := by
  refine ⟨_, execClaimComplete_eq some_ free, fun c => ?_, fun c mine last k there => ?_⟩
  · rw [claims_claimsOver, List.mem_filter, State.claimsOn, List.mem_filter]
    grind
  · rw [claims_claimsOver] at last
    exact ready_claimsOver (s := { s with claims := _ }) last there (.inl ⟨c, mine, rfl⟩)

end

/-! ## Copies to the eviction area and back (R118) -/

/-- The copy that ends leaves the list of its core. -/
def State.copyTaken (s : State) (core : Nat) (e : Nat × Spill) : State := s.updCore core (fun k => { k with spills := k.spills.erase e })

/-- What the end of a copy changes. -/
def State.copyEnded (s : State) (core : Nat) (e : Nat × Spill) : State :=
  let s := s.copyTaken core e
  match e.2 with
  | .home wid k => s.homeSlab wid k
  | .tileHome team t => s.homeTile team t
  | .slab wid k => (s.spillSlab wid k).updWave wid (fun w => { w with hown := w.hown.filter (· != k) })
  | .tile _ t => (s.spillTile core t).updCore core (fun k => { k with tileH := k.tileH.filter (· != t) })
  | .gate wid k d => s.spillGate wid k d
  | .back wid k => (match (Tbl.find s.waves wid).bind (fun (w : Wave) => w.refill.find? (fun (x : Nat × Nat × Nat × Nat) => x.1 == k)) with
    | none => s
    | some x => s.refillSlab wid x)

/-- The next copy on a side follows. -/
def State.nextCopy (s : State) (core : Nat) (side : Fin 2) : State :=
  if (s.core core).spills.any (fun e => e.1 == side.val) then s.soonOnce (.spillCopyDone core side) else s

theorem nextCopy_schedule (s : State) (core : Nat) (side : Fin 2) : ScheduleFrame s (s.nextCopy core side) := .ite (soonOnce_schedule ..) (.refl s)

/-! ### What a copy leaves of the other copies -/

/-- Of two states, the second has the same waves, and on every core the same copies. -/
structure CopyFrame (s t : State) : Prop where
  waves : t.waves = s.waves
  spills : ∀ c, (t.core c).spills = (s.core c).spills

namespace CopyFrame

theorem refl (s : State) : CopyFrame s s := ⟨rfl, fun _ => rfl⟩

theorem trans (h : CopyFrame s t) (k : CopyFrame t u) : CopyFrame s u := ⟨k.waves.trans h.waves, fun c => (k.spills c).trans (h.spills c)⟩

theorem ite {c : Prop} [Decidable c] {a b : State} (ha : CopyFrame s a) (hb : CopyFrame s b) : CopyFrame s (if c then a else b) := by
  split <;> assumption

theorem foldl {α : Type} {f : State → α → State} {l : List α} (h : CopyFrame s t) (hf : ∀ t a, CopyFrame s t → CopyFrame s (f t a)) :
    CopyFrame s (l.foldl f t) :=
  List.foldlRecOn l f h fun t h a _ => hf t a h

/-- A change of anything but waves and cores. -/
theorem frame (h : CopyFrame s t) (waves : u.waves = t.waves := by rfl) (cores : u.cores = t.cores := by rfl) : CopyFrame s u :=
  h.trans ⟨waves, fun c => by rw [show u.core c = t.core c from congrArg (Tbl.getD · c Core.reset) cores]⟩

theorem store (h : CopyFrame s t) (f : StoreFrame t u) : CopyFrame s u := h.frame (congrArg (·.waves) f.frame) (congrArg (·.cores) f.frame)

theorem updCore {c : Nat} {f : Core → Core} (h : CopyFrame s t) (hf : ∀ k, (f k).spills = k.spills := by intro _; rfl) : CopyFrame s (t.updCore c f) := by
  refine h.trans ⟨rfl, fun d => ?_⟩
  by_cases e : d = c
  · rw [e, State.core_updCore_self, hf]
  · rw [State.core_updCore_ne _ _ e]

theorem packet {plane part : Nat} {cls : Cls} {n : Nat} {o : Out} (h : CopyFrame s t) :
    CopyFrame s (((t.countFlits plane part cls n).watch plane).emit o) := by
  have h1 : CopyFrame s (t.countFlits plane part cls n) := .ite h.frame h.frame
  have h2 : CopyFrame s ((t.countFlits plane part cls n).watch plane) := .ite h1 h1.frame
  exact h2.frame

theorem postWrite {ag : Agent} {chip : Nat} {page : Option Nat} {gen pa : Nat} {data : List Byte} {coll : Option CollMsg} {op : Option RmwOp}
    {wid : Option (Nat × Nat)} {job : Option Nat} {at_ : Origin} (h : CopyFrame s t) :
    CopyFrame s (t.postWrite ag chip page gen pa data coll op wid job at_) := by
  unfold State.postWrite
  extract_lets _ _ _ _ s1 _ s2
  have h1 : CopyFrame s s1 := by
    unfold s1
    split
    · exact h.frame
    · exact h.frame.updCore
  have h2 : CopyFrame s s2 := .ite h1.frame h1
  exact .ite h2 h2.packet

theorem duplicate {ag : Agent} {mirror : Bool} {pa : Nat} {bs : List Byte} (h : CopyFrame s t) : CopyFrame s (t.duplicate ag mirror pa bs) :=
  .ite (.ite h.frame h.postWrite) h

theorem snapshot {ag : Agent} {mirror : Bool} {pa : Nat} (h : CopyFrame s t) : CopyFrame s (t.snapshot ag mirror pa) := by
  unfold State.snapshot
  split
  · exact h
  · split
    · exact h
    · refine .ite h (.ite (.ite h.frame h) (.ite h (.ite h.frame ?_)))
      split
      · exact .ite (.foldl h.frame fun _ _ h => h.duplicate) h.frame
      · exact h.frame

/-- A write at the home of an agent that is no core. -/
theorem writeHome {ag : Agent} {mirror : Bool} {pa : Nat} {bs : List Byte} (away : ag.core = none) (h : CopyFrame s t) :
    CopyFrame s (t.writeHome ag mirror pa bs) := by
  have h1 : CopyFrame s (((t.snapshot ag mirror pa).crossed ag.die (homeDie pa)).storeHome pa bs) :=
    (h.snapshot.store (crossed_wakes ..).toStoreFrame).store (storeHome_stores ..)
  have h2 : CopyFrame s ((((t.snapshot ag mirror pa).crossed ag.die (homeDie pa)).storeHome pa bs).patchCopies ag none pa bs) := by
    rw [State.patchCopies, away]
    exact h1.frame
  exact h2.duplicate

theorem toGateFrame {wid asid va : Nat} {bs : List Byte} (h : CopyFrame s t) : CopyFrame s (t.toGateFrame wid asid va bs) := by
  unfold State.toGateFrame
  split
  · exact h
  · exact h.foldl fun _ _ h => h.writeHome rfl

end CopyFrame

end Sys2Proof.Machine
end

section
/-!
SUPPORT. The end of a copy to the eviction area or back, and re-admission (O58; R118, R119, R236, R238).
-/

namespace Sys2Proof.Machine

/- Elaborated one after another: at one thread for each of so many short theorems, the stacks together would pass the memory limit. -/
set_option Elab.async false

variable {s t u : State}

/-! ## A slab that is copied to the eviction area (R118) -/

/-- A slab is 64 registers of 32 lanes of 4 bytes. -/
theorem length_slabBytes (w : Wave) (k : Nat) : (slabBytes w k).length = 8192 := by
  simp [slabBytes, slabBytesOf, List.length_flatMap, length_natBytes]

/-- Which of a wave's slabs a slab of its side is. -/
def Wave.slabIndex (w : Wave) (x : Nat) : Nat := (w.slabs.takeWhile (fun z => z ≠ x)).length

section
variable {i k x : Nat} {y : Wave} {o : Nat × Wave} {v : Team} {g : Grid}

theorem spillSlab_eq (there : Tbl.find s.waves i = some y) (slab : y.slabs[k]? = some x) (holds : s.occupant (s.placeOf y).1 y.side x = some o)
    (team : Tbl.find s.teams o.2.team = some v) (grid : s.gridOf v = some g) : s.spillSlab i k
      = (s.toFrame g.part g.vf (s.placeOf y).1 (State.slabAway y.side x) (slabBytes o.2 (o.2.slabIndex x))).updWave o.1
          (fun z => { z with away := z.away ++ [o.2.slabIndex x] }) := by
  have index : (o.2.slabs.takeWhile (fun z => z != x)).length = o.2.slabIndex x := by
    rw [Wave.slabIndex]
    congr 2
    funext z
    rw [bne, Bool.beq_eq_decide_eq, decide_not]
  rw [State.spillSlab, there]
  dsimp only
  rw [slab]
  dsimp only
  rw [holds]
  dsimp only
  rw [team, Option.bind_some, grid]
  dsimp only
  rw [index]
end

theorem toFrame_stores (s : State) (p vf c off : Nat) (bs : List Byte) : StoreFrame s (s.toFrame p vf c off bs) := storeHome_stores ..

theorem waves_toFrame (s : State) (p vf c off : Nat) (bs : List Byte) : (s.toFrame p vf c off bs).waves = s.waves :=
  congrArg (·.waves) (toFrame_stores s p vf c off bs).frame

theorem cores_toFrame (s : State) (p vf c off : Nat) (bs : List Byte) : (s.toFrame p vf c off bs).cores = s.cores :=
  congrArg (·.cores) (toFrame_stores s p vf c off bs).frame

theorem core_congr (same : t.cores = s.cores) (c : Nat) : t.core c = s.core c := by
  rw [State.core, State.core, same]

theorem bytesAt_toFrame {p vf c off : Nat} {bs : List Byte} (within : s.framePa p vf c + off + bs.length ≤ hbmEnd) :
    (s.toFrame p vf c off bs).bytesAt (s.framePa p vf c + off) bs.length = bs := bytesAt_storeHome within

/-- A copy of a slab changes of the waves only which slabs are away. -/
theorem find_spillSlab (i k : Nat) {id : Nat} {y : Wave} (there : Tbl.find s.waves id = some y) :
    ∃ a, Tbl.find (s.spillSlab i k).waves id = some { y with away := a } := by
  unfold State.spillSlab
  split
  · exact ⟨_, there⟩
  extract_lets
  split
  · exact ⟨_, there⟩
  split
  · exact ⟨_, there⟩
  next e _ =>
  split
  · exact ⟨_, there⟩
  next g _ =>
  extract_lets n
  by_cases same : id = e.1
  · subst same
    exact ⟨_, by rw [State.updWave_find_self, waves_toFrame, there]; rfl⟩
  · exact ⟨_, by rw [State.updWave_find_ne _ _ same, waves_toFrame, there]⟩

theorem core_spillSlab (s : State) (i k c : Nat) : (s.spillSlab i k).core c = s.core c := by
  unfold State.spillSlab
  split
  · rfl
  extract_lets
  split
  · rfl
  split
  · rfl
  split
  · rfl
  exact core_congr (by rw [State.updWave_cores, cores_toFrame]) c

theorem core_spillTile (s : State) (d tile c : Nat) : (s.spillTile d tile).core c = s.core c := by
  unfold State.spillTile
  split
  · rfl
  split
  · rfl
  exact core_congr (by rw [State.updTeam_cores, cores_toFrame]) c

theorem core_homeSlab (s : State) (i k c : Nat) : (s.homeSlab i k).core c = s.core c := by
  unfold State.homeSlab
  split
  · rfl
  split
  · rfl
  exact core_congr (State.updWave_cores ..) c

theorem spills_homeTile (s : State) (j tile c : Nat) : ((s.homeTile j tile).core c).spills = (s.core c).spills := by
  unfold State.homeTile
  split
  · rfl
  split
  · rfl
  rw [core_congr (State.updTeam_cores ..)]
  exact (CopyFrame.updCore (.refl s)).spills c

theorem spills_spillGate (s : State) (i k d c : Nat) : ((s.spillGate i k d).core c).spills = (s.core c).spills := by
  unfold State.spillGate
  split
  · rfl
  extract_lets
  split
  · rfl
  extract_lets
  split
  · rfl
  rw [core_congr (State.updWave_cores ..), (CopyFrame.refl s).toGateFrame.spills]

/-! ## The end of a copy -/

section
variable {core : Nat} {e : Nat × Spill}

theorem spills_copyTaken (s : State) (core : Nat) (e : Nat × Spill) : ((s.copyTaken core e).core core).spills = (s.core core).spills.erase e := by
  rw [State.copyTaken, State.core_updCore_self]

/-- A list of copies has no part in where an address of a frame leads, and in the bytes of HBM. -/
theorem view_copyTaken (s : State) (core : Nat) (e : Nat × Spill) : WhiskView s (s.copyTaken core e) := ⟨rfl, rfl, rfl, rfl, fun _ => rfl⟩

theorem copyEnded_eq_slab {i k : Nat} (e2 : e.2 = .slab i k) : s.copyEnded core e
    = ((s.copyTaken core e).spillSlab i k).updWave i (fun w => { w with hown := w.hown.filter (fun z => z ≠ k) }) := by
  rw [State.copyEnded, e2]
  simp only [bne, Bool.beq_eq_decide_eq, decide_not]

theorem copyEnded_eq_tile {i k : Nat} (e2 : e.2 = .tile i k) : s.copyEnded core e
    = ((s.copyTaken core e).spillTile core k).updCore core (fun c => { c with tileH := c.tileH.filter (fun z => z ≠ k) }) := by
  rw [State.copyEnded, e2]
  simp only [bne, Bool.beq_eq_decide_eq, decide_not]

theorem spills_copyEnded (s : State) (core : Nat) (e : Nat × Spill) : ((s.copyEnded core e).core core).spills = (s.core core).spills.erase e := by
  rw [← spills_copyTaken]
  unfold State.copyEnded
  extract_lets s1
  split
  · rw [core_homeSlab]
  · rw [spills_homeTile]
  · rw [core_congr (State.updWave_cores ..), core_spillSlab]
  · rw [State.core_updCore_self, core_spillTile]
  · rw [spills_spillGate]
  · split <;> rfl

/-- A slab that is copied: it is no longer the wave's to copy. -/
theorem copyEnded_slab {i k : Nat} {y : Wave} (e2 : e.2 = .slab i k) (there : Tbl.find s.waves i = some y) :
    ∃ z, Tbl.find (s.copyEnded core e).waves i = some { y with hown := y.hown.filter (fun z => z ≠ k), away := z } := by
  obtain ⟨a, found⟩ := find_spillSlab (s := s.copyTaken core e) i k there
  refine ⟨a, ?_⟩
  rw [copyEnded_eq_slab e2, State.updWave_find_self, found, Option.map_some]

section
variable {i k x : Nat} {y : Wave} {o : Nat × Wave} {v : Team} {g : Grid} (e2 : e.2 = .slab i k) (there : Tbl.find s.waves i = some y)
  (slab : y.slabs[k]? = some x) (holds : s.occupant (s.placeOf y).1 y.side x = some o) (team : Tbl.find s.teams o.2.team = some v)
  (grid : s.gridOf v = some g)
include e2 there slab holds team grid

/-- The bytes of the slab stand in the eviction area. -/
theorem copyEnded_slab_bytes (within : s.framePa g.part g.vf (s.placeOf y).1 + State.slabAway y.side x + 8192 ≤ hbmEnd) :
    (s.copyEnded core e).bytesAt (s.framePa g.part g.vf (s.placeOf y).1 + State.slabAway y.side x) 8192 = slabBytes o.2 (o.2.slabIndex x) := by
  have eq := spillSlab_eq (s := s.copyTaken core e) there slab holds team grid
  have copied := bytesAt_toFrame (s := s.copyTaken core e) (p := g.part) (vf := g.vf) (c := (s.placeOf y).1) (off := State.slabAway y.side x)
    (bs := slabBytes o.2 (o.2.slabIndex x)) (by rw [length_slabBytes]; exact within)
  rw [length_slabBytes] at copied
  rw [copyEnded_eq_slab e2, eq]
  rw [bytesAt_congr (State.updWave_mem ..) (State.updWave_stale ..), bytesAt_congr (State.updWave_mem ..) (State.updWave_stale ..)]
  exact copied

/-- The slab of the wave that held it is away. -/
theorem copyEnded_slab_away (holder : Tbl.find s.waves o.1 = some o.2) :
    ∃ z, Tbl.find (s.copyEnded core e).waves o.1 = some z ∧ o.2.slabIndex x ∈ z.away := by
  have eq := spillSlab_eq (s := s.copyTaken core e) there slab holds team grid
  have found : Tbl.find ((s.copyTaken core e).spillSlab i k).waves o.1 = some { o.2 with away := o.2.away ++ [o.2.slabIndex x] } := by
    rw [eq, State.updWave_find_self, waves_toFrame]
    exact congrArg (Option.map _) holder
  rw [copyEnded_eq_slab e2]
  by_cases same : o.1 = i
  · subst same
    exact ⟨_, by rw [State.updWave_find_self, found, Option.map_some], by simp⟩
  · exact ⟨_, by rw [State.updWave_find_ne _ _ same, found], by simp⟩

end

theorem copyEnded_home {i k : Nat} {y : Wave} {v : Team} {g : Grid} (e2 : e.2 = .home i k) (there : Tbl.find s.waves i = some y)
    (team : Tbl.find s.teams y.team = some v) (grid : s.gridOf v = some g) : Tbl.find (s.copyEnded core e).waves i = some
      { slabFrom y k (s.bytesAt (s.framePa g.part g.vf (s.placeOf y).1 + State.slabAway y.side (y.slabs.getD k 0)) 8192) with
        away := y.away.filter (fun z => z ≠ k) } := by
  have found : Tbl.find (s.copyTaken core e).waves i = some y := there
  have its : (Tbl.find (s.copyTaken core e).teams y.team).bind (s.copyTaken core e).gridOf = some g := by
    rw [show Tbl.find (s.copyTaken core e).teams y.team = some v from team]
    exact grid
  have bytes (a n : Nat) : (s.copyTaken core e).bytesAt a n = s.bytesAt a n :=
    bytesAt_congr (view_copyTaken ..).mem (view_copyTaken ..).stale a n
  rw [State.copyEnded, e2]
  dsimp only
  rw [State.homeSlab, found]
  dsimp only
  rw [its]
  dsimp only
  rw [State.updWave_find_self, found, Option.map_some, bytes]
  simp only [bne, Bool.beq_eq_decide_eq, decide_not]
  rfl

theorem copyEnded_tile {i k : Nat} (e2 : e.2 = .tile i k) :
    ((s.copyEnded core e).core core).tileH = (s.core core).tileH.filter (fun z => z ≠ k) := by
  rw [copyEnded_eq_tile e2, State.core_updCore_self, core_spillTile, State.copyTaken, State.core_updCore_self]

theorem copyEnded_gate {i k d : Nat} {y : Wave} {g : Gate} (e2 : e.2 = .gate i k d) (there : Tbl.find s.waves i = some y)
    (gate : y.gates[y.gates.length - d]? = some g) : ∃ z h, Tbl.find (s.copyEnded core e).waves i = some z
      ∧ z.gates = y.gates.set (y.gates.length - d) h ∧ h.owned = g.owned ++ [(k, (s.framePlace (s.partOf i) g.fasid (g.frame + k * 0x2000)).isSome)] := by
  have found : Tbl.find (s.copyTaken core e).waves i = some y := there
  have modified (f : Gate → Gate) : y.gates.modify (y.gates.length - d) f = y.gates.set (y.gates.length - d) (f g) := by
    rw [List.modify_eq_set_getElem?, gate]
    rfl
  have place : (s.copyTaken core e).framePlace ((s.copyTaken core e).partOf i) g.fasid (g.frame + k * 0x2000)
      = s.framePlace (s.partOf i) g.fasid (g.frame + k * 0x2000) := by
    rw [State.framePlace, State.framePlace, (view_copyTaken ..).walk]
    rfl
  rw [State.copyEnded, e2]
  dsimp only
  rw [State.spillGate, found]
  dsimp only
  rw [gate]
  dsimp only
  rw [place]
  cases s.framePlace (s.partOf i) g.fasid (g.frame + k * 0x2000) with
  | none =>
    rw [State.updWave_find_self, found, Option.map_some]
    exact ⟨_, _, rfl, modified _, rfl⟩
  | some pa =>
    rw [State.updWave_find_self, (CopyFrame.refl _).toGateFrame.waves, found, Option.map_some]
    exact ⟨_, _, rfl, modified _, rfl⟩

theorem copyEnded_back {i k : Nat} {y : Wave} (e2 : e.2 = .back i k) (there : Tbl.find s.waves i = some y) (some_ : ∃ r ∈ y.refill, r.1 = k) :
    ∃ z, Tbl.find (s.copyEnded core e).waves i = some z ∧ z.refill = y.refill.filter (fun r => r.1 ≠ k) := by
  have found : Tbl.find (s.copyTaken core e).waves i = some y := there
  obtain ⟨r, first⟩ : ∃ r, y.refill.find? (fun x => x.1 == k) = some r := by
    rw [← Option.isSome_iff_exists, List.find?_isSome]
    obtain ⟨r, there, eq⟩ := some_
    exact ⟨r, there, by simpa using eq⟩
  have key : r.1 = k := by simpa using List.find?_some first
  rw [State.copyEnded, e2]
  dsimp only
  rw [found, Option.bind_some, first]
  dsimp only
  rw [State.refillSlab]
  exact ⟨_, (State.updWave_find_self ..).trans (congrArg (Option.map _) found), by simp [key, bne, Bool.beq_eq_decide_eq]⟩

end

end Sys2Proof.Machine
end

section
/-!
SUPPORT. Spill copies, re-admission, lending and its end as steps of the machine (O58; R118 to R121).
-/

namespace Sys2Proof.Machine

/- Elaborated one after another: at one thread for each of so many short theorems, the stacks together would pass the memory limit. -/
set_option Elab.async false

variable {s t u : State}

/-! ## SPILL_COPY_DONE (R118) -/

section
variable {core : Nat} {side : Fin 2} {e : Nat × Spill}

theorem execSpillCopyDone_none (none_ : (s.core core).spills.find? (fun e => e.1 == side.val) = none ∨ s.running = false) :
    execSpillCopyDone core side s = .next s := by
  rw [execSpillCopyDone]
  cases found : (s.core core).spills.find? (fun e => e.1 == side.val) with
  | none => rfl
  | some e => exact if_pos (by simpa [found] using none_)

section
variable (found : (s.core core).spills.find? (fun e => e.1 == side.val) = some e) (run : s.running = true)
include found run

theorem execSpillCopyDone_asleep (asleep : s.asleep core = true) :
    execSpillCopyDone core side s = .next (s.atRelockEnd core (.spillCopyDone core side)) := by
  rw [execSpillCopyDone, found]
  dsimp only
  rw [if_neg (by simp [run]), if_pos asleep]

theorem execSpillCopyDone_ends (awake : s.asleep core = false) :
    execSpillCopyDone core side s = .next ((s.copyEnded core e).nextCopy core side) := by
  rw [execSpillCopyDone, found]
  dsimp only
  rw [if_neg (by simp [run]), if_neg (by simp [awake])]
  rfl

end

theorem waves_nextCopy (s : State) (core : Nat) (side : Fin 2) : (s.nextCopy core side).waves = s.waves := congrArg (·.waves) (nextCopy_schedule s core side)

theorem core_nextCopy (s : State) (core : Nat) (side : Fin 2) (c : Nat) : (s.nextCopy core side).core c = s.core c :=
  core_congr (congrArg (·.cores) (nextCopy_schedule s core side)) c

theorem bytesAt_nextCopy (s : State) (core : Nat) (side : Fin 2) (a n : Nat) : (s.nextCopy core side).bytesAt a n = s.bytesAt a n :=
  bytesAt_congr (congrArg (·.mem) (nextCopy_schedule s core side)) (congrArg (·.stale) (nextCopy_schedule s core side)) a n

end

/-! ## READMISSION (R119) -/

section
variable {core slot wid : Nat} {w : Wave}

theorem execReadmission_none (none_ : (s.evictedOn core (slot / 16 % 2)).head? = none) : execReadmission core slot s = .next s := by
  rw [execReadmission, List.head?_eq_none_iff.1 none_]

section
variable (oldest : (s.evictedOn core (slot / 16 % 2)).head? = some (wid, w))
include oldest

theorem execReadmission_eq : execReadmission core slot s = if !s.running || w.slot != slot || !s.thingsBack core wid w then .next s
    else if s.asleep core then .next (s.atRelockEnd core (.readmission core slot)) else .next ((s.readmit wid w).freed core) := by
  obtain ⟨rest, list⟩ : ∃ rest, s.evictedOn core (slot / 16 % 2) = (wid, w) :: rest := List.head?_eq_some_iff.1 oldest
  rw [execReadmission, list]

theorem execReadmission_waits (not_ : s.running = false ∨ w.slot ≠ slot ∨ s.thingsBack core wid w = false) : execReadmission core slot s = .next s := by
  rw [execReadmission_eq oldest, if_pos (by simpa [or_assoc] using not_)]

section
variable (run : s.running = true) (its : w.slot = slot) (back : s.thingsBack core wid w = true)
include run its back

theorem execReadmission_asleep (asleep : s.asleep core = true) : execReadmission core slot s = .next (s.atRelockEnd core (.readmission core slot)) := by
  rw [execReadmission_eq oldest, if_neg (by simp [run, its, back]), if_pos asleep]

theorem execReadmission_back (awake : s.asleep core = false) : execReadmission core slot s = .next ((s.readmit wid w).freed core) := by
  rw [execReadmission_eq oldest, if_neg (by simp [run, its, back]), if_neg (by simp [awake])]

end
end
end

/-! ## SLAB_LEND (R121) -/

/-- A wave may lend now: it has been parked long enough. -/
theorem lendIn_zero (s : State) (c : Nat) (w : Wave) : s.lendIn c w = some 0 ↔
    ((∃ a, w.park = .waitv a) ∨ (∃ t, w.park = .sleep t) ∨ w.park = .bar ∨ w.park = .cbar)
      ∧ ∃ a, w.parkClk = some a ∧ a + 4096 ≤ (s.hob (hobOf c)).clk := by
  have late : w.parkClk.map (fun x => x + 4096 - (s.hob (hobOf c)).clk) = some 0 ↔ ∃ a, w.parkClk = some a ∧ a + 4096 ≤ (s.hob (hobOf c)).clk := by
    simp [Option.map_eq_some_iff, Nat.sub_eq_zero_iff_le]
  unfold State.lendIn
  split
  · next e => simp [late, e]
  · next e => simp [late, e]
  · next e => simp [late, e]
  · next e => simp [late, e]
  · next e1 e2 e3 e4 =>
    refine ⟨nofun, fun h => ?_⟩
    obtain ⟨⟨a, e⟩ | ⟨t, e⟩ | e | e, -⟩ := h
    · exact (e1 a e).elim
    · exact (e2 t e).elim
    · exact (e3 e).elim
    · exact (e4 e).elim

/-- A maximum over a list is 0 where every value is. -/
theorem foldl_max_eq_zero {α : Type} (f : α → Nat) (l : List α) (n : Nat) : l.foldl (fun n e => max n (f e)) n = 0 ↔ n = 0 ∧ ∀ e ∈ l, f e = 0 := by
  induction l generalizing n with
  | nil => simp
  | cons e l ih => simp [ih, and_assoc]

theorem lendSoon_zero (s : State) (core side : Nat) : s.lendSoon core side = some 0 ↔ ∀ e ∈ s.coreWaves core, e.2.side = side → s.clsOf e.1 = .g →
    ((∃ a, e.2.park = .waitv a) ∨ (∃ t, e.2.park = .sleep t) ∨ e.2.park = .bar ∨ e.2.park = .cbar)
      ∧ ∃ a, e.2.parkClk = some a ∧ a + 4096 ≤ (s.hob (hobOf core)).clk := by
  have each : s.lendSoon core side = some 0 ↔ ∀ e ∈ s.gWaves core side, s.lendIn core e.2 = some 0 := by
    unfold State.lendSoon
    split
    · next parked =>
      rw [Option.some.injEq, foldl_max_eq_zero]
      have some_ (e) (he : e ∈ s.gWaves core side) : ∃ n, s.lendIn core e.2 = some n := Option.isSome_iff_exists.1 (List.all_eq_true.1 parked e he)
      refine ⟨fun h e he => ?_, fun h => ⟨rfl, fun e he => by rw [h e he]; rfl⟩⟩
      obtain ⟨n, hn⟩ := some_ e he
      have zero := h.2 e he
      rw [hn] at zero ⊢
      exact congrArg some zero
    · next unparked =>
      refine ⟨nofun, fun h => absurd ?_ unparked⟩
      exact List.all_eq_true.2 fun e he => by rw [h e he]; rfl
  rw [each]
  simp only [State.gWaves, List.mem_filter, Bool.and_eq_true, beq_iff_eq, lendIn_zero]
  exact ⟨fun h e he hs hg => h e ⟨he, hs, hg⟩, fun h e he => h e he.1 he.2.1 he.2.2⟩

section
variable {core : Nat} {side : Fin 2} {p : Nat}

theorem execSlabLend_none (none_ : s.ownerOf (clusterOf core) = none ∨ s.lendSoon core side.val = none ∨ s.evictedOn core side.val = [] ∨ s.running = false) :
    execSlabLend core side s = .next s := by
  unfold execSlabLend
  split
  · rfl
  · rfl
  · next owner soon =>
    have idle : s.evictedOn core side.val = [] ∨ s.running = false := by simpa [owner, soon] using none_
    refine if_pos ?_
    rcases idle with empty | off
    · simp [empty]
    · simp [off]

section
variable (owner : s.ownerOf (clusterOf core) = some p)
include owner

theorem execSlabLend_off (off : fieldOf (s.part p).schedNow 31 31 = 0) : execSlabLend core side s = .next s := by
  unfold execSlabLend
  split
  · rfl
  · rfl
  · next p' n owner' _ =>
    obtain rfl : p = p' := Option.some.inj (owner.symm.trans owner')
    exact if_pos (by simp [off])

section
variable (on : fieldOf (s.part p).schedNow 31 31 = 1) (some_ : s.evictedOn core side.val ≠ []) (run : s.running = true)
include on some_ run

theorem execSlabLend_eq {n : Nat} (soon : s.lendSoon core side.val = some n) : execSlabLend core side s =
    if n != 0 then .next (if s.due (.slabLend core side) then s else s.after (max 1 (s.ticksFor (hobOf core) n)) (.slabLend core side))
    else if !s.coreRuns core || s.moveAt core || s.claims.any (fun c => c.core == core && c.side == side.val) then .next (s.after 16 (.slabLend core side))
    else .next ((s.evictedOn core side.val).foldl (fun s e => s.lendTo core e) s) := by
  unfold execSlabLend
  rw [owner, soon]
  dsimp only
  rw [if_neg (by simp [on, some_, run])]

theorem execSlabLend_lends (soon : s.lendSoon core side.val = some 0) (free : ¬ (s.coreRuns core = false ∨ s.moveAt core = true))
    (none_ : s.claimsOn core side.val = []) : execSlabLend core side s = .next ((s.evictedOn core side.val).foldl (fun s e => s.lendTo core e) s) := by
  have unclaimed : s.claims.any (fun c => c.core == core && c.side == side.val) = false := by
    simpa [State.claimsOn] using none_
  rw [execSlabLend_eq owner on some_ run soon, if_neg (by simp), if_neg (by simpa [unclaimed] using free)]

theorem execSlabLend_held (soon : s.lendSoon core side.val = some 0) (held : (s.coreRuns core = false ∨ s.moveAt core = true) ∨ s.claimsOn core side.val ≠ []) :
    execSlabLend core side s = .next (s.after 16 (.slabLend core side)) := by
  have claimed : s.claimsOn core side.val ≠ [] ↔ s.claims.any (fun c => c.core == core && c.side == side.val) = true := by
    simp [State.claimsOn]
  rw [claimed] at held
  rw [execSlabLend_eq owner on some_ run soon, if_neg (by simp), if_pos (by simpa using held)]

theorem execSlabLend_later {n : Nat} (soon : s.lendSoon core side.val = some (n + 1)) (undue : s.due (.slabLend core side) = false) :
    execSlabLend core side s = .next (s.after (max 1 (s.ticksFor (hobOf core) (n + 1))) (.slabLend core side)) := by
  rw [execSlabLend_eq owner on some_ run soon, if_pos (by simp), if_neg (by simp [undue])]

end
end
end

end Sys2Proof.Machine
end

section
/-!
SUPPORT. The end of lending (O58; R121): a wave that claims back what it lent evicts the waves that hold it. Evictions leave a wave in its team, lend nothing, and what is evicted
stays evicted (`EvictFrame`).
-/

namespace Sys2Proof.Machine

/- Elaborated one after another: at one thread for each of so many short theorems, the stacks together would pass the memory limit. -/
set_option Elab.async false

variable {s t u : State}

/-! ## Changes of one wave -/

/-- Of two states, the second has the waves of the first but for one, which keeps its team. -/
structure WaveVisit (wid : Nat) (s t : State) : Prop where
  others : ∀ id, id ≠ wid → Tbl.find t.waves id = Tbl.find s.waves id
  team : ∀ w, Tbl.find s.waves wid = some w → ∃ y, Tbl.find t.waves wid = some y ∧ y.team = w.team

namespace WaveVisit

variable {wid : Nat}

theorem refl (wid : Nat) (s : State) : WaveVisit wid s s := ⟨fun _ _ => rfl, fun w h => ⟨w, h, rfl⟩⟩

theorem trans (h : WaveVisit wid s t) (k : WaveVisit wid t u) : WaveVisit wid s u := by
  refine ⟨fun id ne => (k.others id ne).trans (h.others id ne), fun w there => ?_⟩
  obtain ⟨y, found, team⟩ := h.team w there
  obtain ⟨z, found', team'⟩ := k.team y found
  exact ⟨z, found', team'.trans team⟩

/-- A change of anything but waves. -/
theorem frame (h : WaveVisit wid s t) (waves : u.waves = t.waves := by rfl) : WaveVisit wid s u :=
  h.trans ⟨fun _ _ => by rw [waves], fun w there => ⟨w, by rw [waves, there], rfl⟩⟩

theorem foldl {α : Type} {f : State → α → State} {l : List α} (h : WaveVisit wid s t) (hf : ∀ t a, WaveVisit wid s t → WaveVisit wid s (f t a)) :
    WaveVisit wid s (l.foldl f t) :=
  List.foldlRecOn l f h fun t h a _ => hf t a h

theorem updWave {f : Wave → Wave} (h : WaveVisit wid s t) (hf : ∀ w, (f w).team = w.team := by intro _; rfl) : WaveVisit wid s (t.updWave wid f) := by
  refine h.trans ⟨fun id ne => State.updWave_find_ne _ _ ne, fun w there => ⟨f w, ?_, hf w⟩⟩
  rw [State.updWave_find_self, there, Option.map_some]

end WaveVisit

theorem team_putPhysV (w : Wave) (l r : Nat) (x : Word) : (w.putPhysV l r x).team = w.team := by
  unfold Wave.putPhysV
  split <;> rfl

theorem team_popGate (w : Wave) : w.popGate.team = w.team := by
  unfold Wave.popGate
  split <;> rfl

/-- A slab that is refilled leaves a wave in its team. -/
theorem refillSlab_visit (s : State) (wid : Nat) (x : Nat × Nat × Nat × Nat) : WaveVisit wid s (s.refillSlab wid x) := by
  unfold State.refillSlab
  refine (WaveVisit.frame (.refl wid s)).updWave fun w => ?_
  refine List.foldlRecOn (motive := fun v : Wave => v.team = w.team) _ _ rfl fun v h r _ => ?_
  exact List.foldlRecOn (motive := fun v : Wave => v.team = w.team) _ _ h fun v h l _ => (team_putPhysV ..).trans h

theorem waves_cancelJob (s : State) (j : Nat) : (s.cancelJob j).waves = s.waves := by
  unfold State.cancelJob
  split
  · rfl
  next k _ =>
  have unrounded : (s.unround k).waves = s.waves := by
    unfold State.unround
    split <;> rfl
  rw [← unrounded]
  unfold State.endJob
  split
  · rfl
  split <;> rfl

theorem endCalls_visit (s : State) (wid depth : Nat) : WaveVisit wid s (s.endCalls wid depth) := by
  unfold State.endCalls
  split
  · exact .refl wid s
  refine (WaveVisit.refl wid s).foldl fun t _ h => ?_
  have refilled : WaveVisit wid t (t.refillAll wid) := by
    unfold State.refillAll
    split
    · exact .refl wid t
    · exact (WaveVisit.refl wid t).foldl fun v x h => h.trans (refillSlab_visit v wid x)
  exact ((h.trans refilled).updWave).updWave team_popGate

theorem restartRegion_visit (s : State) (wid : Nat) : WaveVisit wid s (s.restartRegion wid) := by
  unfold State.restartRegion
  split
  · exact .refl wid s
  split
  · exact .refl wid s
  next r _ =>
  extract_lets js s1
  have h1 : WaveVisit wid s s1 := by
    have cancelled : WaveVisit wid s (js.foldl (fun s e => s.cancelJob e.1) s) := (WaveVisit.refl wid s).foldl fun v e h => h.frame (waves_cancelJob v e.1)
    exact cancelled.trans (endCalls_visit ..)
  split
  · exact .refl wid s
  · refine h1.updWave fun w => ?_
    split <;> rfl

/-! ## Evictions -/

/-- Of two states, the second has every wave of the first, in its team; it lends nothing more, and it is evicted or just as it was in what makes it evictable. -/
def EvictFrame (s t : State) : Prop := ∀ id w, Tbl.find s.waves id = some w → ∃ y, Tbl.find t.waves id = some y ∧ y.team = w.team
  ∧ (y.lent = true → w.lent = true) ∧ (y.evicted ≠ none ∨ (w.evicted = none ∧ y.retired = w.retired))

namespace EvictFrame

theorem refl (s : State) : EvictFrame s s := by
  intro id w there
  refine ⟨w, there, rfl, fun h => h, ?_⟩
  by_cases out : w.evicted = none
  · exact .inr ⟨out, rfl⟩
  · exact .inl out

theorem trans (h : EvictFrame s t) (k : EvictFrame t u) : EvictFrame s u := by
  intro id w there
  obtain ⟨y, found, team, lent, state⟩ := h id w there
  obtain ⟨z, found', team', lent', state'⟩ := k id y found
  refine ⟨z, found', team'.trans team, fun l => lent (lent' l), ?_⟩
  rcases state' with out | ⟨in_, retired'⟩
  · exact .inl out
  rcases state with out | ⟨in', retired⟩
  · exact absurd in_ out
  · exact .inr ⟨in', retired'.trans retired⟩


theorem foldl {α : Type} {f : State → α → State} {l : List α} (h : EvictFrame s t) (hf : ∀ t a, EvictFrame s t → EvictFrame s (f t a)) :
    EvictFrame s (l.foldl f t) :=
  List.foldlRecOn l f h fun t h a _ => hf t a h

theorem ite {c : Prop} [Decidable c] {a b : State} (ha : EvictFrame s a) (hb : EvictFrame s b) : EvictFrame s (if c then a else b) := by
  split <;> assumption

/-- A change of anything but waves. -/
theorem frame (h : EvictFrame s t) (waves : u.waves = t.waves := by rfl) : EvictFrame s u := by
  refine h.trans fun id w there => ?_
  rw [waves]
  exact refl t id w there

theorem updWave {wid : Nat} {f : Wave → Wave} (h : EvictFrame s t) (team : ∀ w, (f w).team = w.team := by intro _; rfl)
    (lent : ∀ w, (f w).lent = true → w.lent = true := by exact fun _ h => h) (evicted : ∀ w, (f w).evicted = w.evicted := by intro _; rfl)
    (threads : ∀ w, (f w).threads = w.threads := by intro _; rfl) : EvictFrame s (t.updWave wid f) := by
  refine h.trans fun id w there => ?_
  by_cases same : id = wid
  · subst same
    refine ⟨f w, by rw [State.updWave_find_self, there, Option.map_some], team w, lent w, ?_⟩
    rw [evicted, Wave.retired, threads]
    by_cases out : w.evicted = none
    · exact .inr ⟨out, rfl⟩
    · exact .inl out
  · rw [State.updWave_find_ne _ _ same]
    exact refl t id w there

/-- A wave that is evicted: the others stay as they are. -/
theorem evict {wid : Nat} (h : EvictFrame s t) : EvictFrame s (t.evict wid) := by
  refine h.trans ?_
  unfold State.evict
  split
  · exact refl t
  split
  · exact refl t
  next w there _ =>
  extract_lets s1 clk
  have v : WaveVisit wid t s1 := (WaveVisit.frame (.refl wid t)).trans (restartRegion_visit ..)
  intro id y found
  by_cases same : id = wid
  · subst same
    obtain ⟨z, found', team⟩ := v.team y found
    rw [State.updWave_find_self, found', Option.map_some]
    exact ⟨_, rfl, team, by simp, .inl (by simp)⟩
  · rw [State.updWave_find_ne _ _ same, v.others id same]
    exact refl t id y found

theorem cancelJob {j : Nat} (h : EvictFrame s t) : EvictFrame s (t.cancelJob j) := h.frame (waves_cancelJob t j)

theorem evictTeam {k : Nat} (h : EvictFrame s t) : EvictFrame s (t.evictTeam k) := by
  unfold State.evictTeam
  split
  · exact h
  · extract_lets _ s1
    have h1 : EvictFrame s s1 := .foldl h.frame fun _ _ h => h.evict
    exact h1.foldl fun _ _ h => h.cancelJob

theorem evictAll {c : Nat} {ws ts : List Nat} (h : EvictFrame s t) : EvictFrame s (t.evictAll c ws ts) := by
  unfold State.evictAll
  extract_lets s1
  have h1 : EvictFrame s s1 := h.foldl fun _ _ h => .ite h.evict h
  exact h1.foldl fun _ _ h => .ite h.evictTeam h

theorem kicked (h : EvictFrame s t) (f : ScheduleFrame t u) : EvictFrame s u := h.frame (congrArg (·.waves) f)

theorem rewake {wid : Nat} (h : EvictFrame s t) : EvictFrame s (t.rewake wid) := by
  unfold State.rewake
  split
  · exact h
  · extract_lets
    split
    · exact h.frame
    · exact h.frame
    · exact h

theorem armGate {wid : Nat} (h : EvictFrame s t) : EvictFrame s (t.armGate wid) := by
  unfold State.armGate
  split
  · exact h
  · extract_lets c arm
    have arms {v i bs} (h : EvictFrame s v) : EvictFrame s (arm v i bs) := by
      unfold arm
      split <;> exact h.frame
    exact arms (arms h)

theorem waveBack {wid : Nat} (h : EvictFrame s t) : EvictFrame s (t.waveBack wid) := by
  unfold State.waveBack
  extract_lets _ s1
  have h1 : EvictFrame s s1 := by
    unfold s1
    split
    · exact h
    · exact h.frame
  exact h1.updWave.armGate.rewake

theorem tilesBack {k : Nat} (h : EvictFrame s t) : EvictFrame s (t.tilesBack k) := by
  unfold State.tilesBack
  split
  · exact h
  · split
    · exact h
    · exact h.frame

end EvictFrame

/-- A wave that has not exited is evicted, where it is there. -/
theorem evict_evicts {wid : Nat} {w : Wave} (there : Tbl.find s.waves wid = some w) (alive : w.evicted ≠ none ∨ w.retired = false) :
    ∃ y, Tbl.find (s.evict wid).waves wid = some y ∧ y.evicted ≠ none := by
  by_cases out : w.evicted = none
  · have live : w.retired = false := by simpa [out] using alive
    unfold State.evict
    split
    · next none_ => simp [there] at none_
    next w' there' =>
    obtain rfl : w = w' := Option.some.inj (there.symm.trans there')
    rw [if_neg (by simp [out, live])]
    extract_lets s1 clk
    have v : WaveVisit wid s s1 := (WaveVisit.frame (.refl wid s)).trans (restartRegion_visit ..)
    obtain ⟨z, found, -⟩ := v.team w there
    rw [State.updWave_find_self, found, Option.map_some]
    exact ⟨_, rfl, by simp⟩
  · obtain ⟨y, found, -, -, state⟩ := (EvictFrame.refl s).evict (wid := wid) wid w there
    exact ⟨y, found, state.resolve_right fun e => out e.1⟩

/-- Where a wave is depends on its team and on where that team is. -/
theorem StayFrame.place (f : StayFrame s t) {w y : Wave} (team : y.team = w.team) : (t.placeOf y).1 = (s.placeOf w).1 := by
  have seat := f.seats w.team
  have core := congrArg (Option.map (fun x => x.2.1)) seat
  rw [Option.map_map, Option.map_map] at core
  simp only [State.placeOf, team]
  exact congrArg (·.getD 0) core

/-- Each of the waves that are to be evicted from a core is, where it is there and has not exited. -/
theorem evictAll_evicts {c wid : Nat} {w : Wave} {ws ts : List Nat} (listed : wid ∈ ws) (there : Tbl.find s.waves wid = some w) (live : w.retired = false)
    (place : (s.placeOf w).1 = c) : ∃ y, Tbl.find (s.evictAll c ws ts).waves wid = some y ∧ y.evicted ≠ none := by
  have stays {t : State} (h : EvictFrame s t) (k : StayFrame s t) (l : List Nat) : EvictFrame s (l.foldl (fun s w =>
      if (Tbl.find s.waves w).any (fun x => (s.placeOf x).1 == c) then s.evict w else s) t) ∧ StayFrame s (l.foldl (fun s w =>
      if (Tbl.find s.waves w).any (fun x => (s.placeOf x).1 == c) then s.evict w else s) t) :=
    ⟨h.foldl fun _ _ h => .ite h.evict h, k.foldl fun _ _ h => .ite h.evict h⟩
  obtain ⟨l₁, l₂, rfl⟩ := List.append_of_mem listed
  unfold State.evictAll
  extract_lets s1
  obtain ⟨before, seats⟩ := stays (.refl s) (.refl s) l₁
  obtain ⟨y, found, team, -, state⟩ := before wid w there
  have out : ∃ z, Tbl.find s1.waves wid = some z ∧ z.evicted ≠ none := by
    unfold s1
    rw [List.foldl_append, List.foldl_cons, if_pos (by rw [found]; simpa using (seats.place team).trans place)]
    obtain ⟨z, found', out⟩ := evict_evicts found (state.imp id fun e => e.2.trans live)
    obtain ⟨x, found'', -, -, state'⟩ := (EvictFrame.refl _).foldl (l := l₂) (f := fun s w =>
      if (Tbl.find s.waves w).any (fun x => (s.placeOf x).1 == c) then s.evict w else s) (fun _ _ h => .ite h.evict h) wid z found'
    exact ⟨x, found'', state'.resolve_right fun e => out e.1⟩
  obtain ⟨z, found', out⟩ := out
  obtain ⟨x, found'', -, -, state'⟩ := (EvictFrame.refl s1).foldl (l := ts) (f := fun s t =>
    if (Tbl.find s.teams t).any (fun x => x.core == c && x.loc == .resident) then s.evictTeam t else s) (fun _ _ h => .ite h.evictTeam h) wid z found'
  exact ⟨x, found'', state'.resolve_right fun e => out e.1⟩

/-! ## A wave that claims back what it lent (R117, R121) -/

section
variable {core wid : Nat} {w y : Wave}

/-- What follows the evictions for a wave that claims back. -/
theorem reclaim_shape (s : State) (core wid : Nat) (w : Wave) : ∃ (hs ts held : List Nat) (v : State),
    EvictFrame ((s.evictAll core hs ts).updWave wid (fun w => { w with lent := false, hown := held })) v ∧ s.reclaim core wid w = v
    ∧ ∀ e ∈ s.coreWaves core, e.2.side = w.side → e.2.evicted = none → s.clsOf e.1 = .h → e.2.things.any w.things.contains = true → e.1 ∈ hs := by
  unfold State.reclaim
  extract_lets hs away ts s1 held s2
  have f2 : EvictFrame s2 s2 := .refl s2
  refine ⟨hs, ts, held, _, .waveBack (.ite ((EvictFrame.tilesBack f2).kicked (kickTeam_schedule ..)) f2), rfl, fun e there side in_ cls thing => ?_⟩
  refine List.mem_map.2 ⟨e, List.mem_filter.2 ⟨there, ?_⟩, rfl⟩
  obtain ⟨x, hx, hw⟩ := List.any_eq_true.1 thing
  have shared : (w.slabs ++ [16 + w.slot % 16]).any (e.2.slabs ++ [16 + e.2.slot % 16]).contains = true :=
    List.any_eq_true.2 ⟨x, by simpa [Wave.things] using hw, by simpa [Wave.things] using hx⟩
  simp [side, in_, cls, shared]

theorem reclaim_unlends (there : Tbl.find s.waves wid = some y) : ∃ z, Tbl.find (s.reclaim core wid w).waves wid = some z ∧ z.lent = false := by
  obtain ⟨hs, ts, held, v, f, eq, -⟩ := reclaim_shape s core wid w
  obtain ⟨x, found, -⟩ := (EvictFrame.refl s).evictAll (c := core) (ws := hs) (ts := ts) wid y there
  obtain ⟨z, found', -, lent, -⟩ := f wid { x with lent := false, hown := held } (by rw [State.updWave_find_self, found, Option.map_some])
  exact ⟨z, eq ▸ found', by simpa using lent⟩

theorem reclaim_evicts {e : Nat × Wave} (there : Tbl.find s.waves e.1 = some e.2) (live : e.2.retired = false) (other : e.1 ≠ wid)
    (listed : e ∈ s.coreWaves core) (side : e.2.side = w.side) (in_ : e.2.evicted = none) (cls : s.clsOf e.1 = .h)
    (thing : e.2.things.any w.things.contains = true) : ∃ z, Tbl.find (s.reclaim core wid w).waves e.1 = some z ∧ z.evicted ≠ none := by
  obtain ⟨hs, ts, held, v, f, eq, all⟩ := reclaim_shape s core wid w
  have place : (s.placeOf e.2).1 = core := by
    have its := (List.mem_filter.1 listed).2
    rw [State.placeOf]
    cases team : Tbl.find s.teams e.2.team with
    | none => simp [team] at its
    | some k => simp only [team, Bool.and_eq_true, beq_iff_eq] at its; exact its.2.1
  obtain ⟨x, found, out⟩ := evictAll_evicts (ts := ts) (all e listed side in_ cls thing) there live place
  obtain ⟨z, found', -, -, state⟩ := f e.1 x (by rw [State.updWave_find_ne _ _ other, found])
  exact ⟨z, eq ▸ found', state.resolve_right fun e => out e.1⟩

end

end Sys2Proof.Machine
end

section
/-!
SUPPORT and the proof of O58: LEND_RECLAIM as a step of the machine (R121), and the statement.
-/

namespace Sys2Proof.Machine

/- Elaborated one after another: at one thread for each of so many short theorems, the stacks together would pass the memory limit. -/
set_option Elab.async false

variable {s t u : State}

section
variable {core slot wid : Nat} {w : Wave}

theorem execLendReclaim_none (none_ : s.lentAt core slot = none) : execLendReclaim core slot s = .next s := by
  rw [execLendReclaim, none_]

section
variable (lent : s.lentAt core slot = some (wid, w))
include lent

theorem execLendReclaim_held (held : s.coreRuns core = false ∨ s.moveAt core = true) : execLendReclaim core slot s = .next (s.soon (.lendReclaim core slot)) := by
  rw [execLendReclaim, lent]
  exact if_pos (by simpa [or_comm] using held)

section
variable (free : ¬ (s.coreRuns core = false ∨ s.moveAt core = true))
include free

theorem execLendReclaim_eq : execLendReclaim core slot s =
    let t := if !s.lentReady w && w.watches then s.rereadWaitv core (wid, w) else s
    .next (match Tbl.find t.waves wid with
      | none => t
      | some w => if t.lentReady w then (t.reclaim core wid w).claimSide core w.side w.team else t) := by
  rw [execLendReclaim, lent]
  exact if_neg (by simpa [or_comm] using free)

theorem execLendReclaim_unready (there : Tbl.find s.waves wid = some w) (unready : s.lentReady w = false) (watches : w.watches = false) :
    execLendReclaim core slot s = .next s := by
  rw [execLendReclaim_eq lent free]
  simp only [unready, watches, there, Bool.not_false, Bool.and_false, Bool.false_eq_true, if_false]

theorem execLendReclaim_rereads {y : Wave} (unready : s.lentReady w = false) (watches : w.watches = true)
    (found : Tbl.find (s.rereadWaitv core (wid, w)).waves wid = some y) : execLendReclaim core slot s =
      .next (if (s.rereadWaitv core (wid, w)).lentReady y = true then ((s.rereadWaitv core (wid, w)).reclaim core wid y).claimSide core y.side y.team
        else s.rereadWaitv core (wid, w)) := by
  rw [execLendReclaim_eq lent free]
  simp only [unready, watches, found, Bool.not_false, Bool.and_true, if_true]

theorem execLendReclaim_claims (there : Tbl.find s.waves wid = some w) (ready : s.lentReady w = true) :
    execLendReclaim core slot s = .next ((s.reclaim core wid w).claimSide core w.side w.team) := by
  rw [execLendReclaim_eq lent free]
  simp only [ready, there, Bool.not_true, Bool.false_and, Bool.false_eq_true, if_false, if_true]

end
end

theorem due_claimSide (s : State) (core side team : Nat) : (s.claimSide core side team).due (.claimComplete core (Fin.ofNat 2 side)) = true := due_atTick_self ..

theorem mem_claimSide (s : State) (core side team : Nat) : ∃ c ∈ (s.claimSide core side team).claims, c.core = core ∧ c.side = side ∧ c.team = team :=
  ⟨_, List.mem_append_right _ (.head _), rfl, rfl, rfl⟩

theorem waves_claimSide (s : State) (core side team : Nat) : (s.claimSide core side team).waves = s.waves := rfl

/-- A wave that is ready claims back what it lent. -/
theorem claimBack_unlends (there : Tbl.find s.waves wid = some w) :
    ∃ y, Tbl.find ((s.reclaim core wid w).claimSide core w.side w.team).waves wid = some y ∧ y.lent = false := by
  rw [waves_claimSide]
  exact reclaim_unlends there

/-- The waves that hold it are evicted. -/
theorem claimBack_evicts {e : Nat × Wave} (holds : e ∈ (s.coreWaves core).filter (fun e => e.2.side == w.side && e.2.evicted.isNone && s.clsOf e.1 == .h
      && e.2.things.any w.things.contains)) (other : e.1 ≠ wid) (there : Tbl.find s.waves e.1 = some e.2) (live : e.2.retired = false) :
    ∃ y, Tbl.find ((s.reclaim core wid w).claimSide core w.side w.team).waves e.1 = some y ∧ y.evicted ≠ none := by
  obtain ⟨listed, its⟩ := List.mem_filter.1 holds
  simp only [Bool.and_eq_true, beq_iff_eq, Option.isNone_iff_eq_none] at its
  obtain ⟨⟨⟨side, in_⟩, cls⟩, thing⟩ := its
  rw [waves_claimSide]
  exact reclaim_evicts there live other listed side in_ cls thing

end

/-- Settles O58: the service of queues, the choice of a core and the placement of a team each by lemmas about their function, and each row by one lemma for
each way in which it can end. -/
theorem placementAndLending : Obligations.PlacementAndLending := by
  refine ⟨fun s hq g n k => ?_, fun s p vf cls qs rs x distinct => ?_, fun s p c g k r cls f => ?_, fun s cluster core slot p vf wid n side w => ?_⟩
  · intro q most fed none_ r u
    exact ⟨headGrid_some, fun none_ e => headGrid_none none_, headIndex_fresh, headIndex_returned, fun none_ => serveQueue_noHead none_ n,
      fun head stop => serveQueue_stops head stop n, fun head pays t placed => serveQueue_places head pays placed n, serveOne_idle,
      fun head places zero => serveOne_noQuantum head places zero,
      fun head places credit => ⟨credited_deficit s hq, serveOne_serves head places credit⟩, serveOne_fst s hq⟩
  · exact ⟨mem_roundOf s p vf cls, pairwise_roundOf s p vf cls distinct, serveRound_first, serveRound_next, rfl, serveRound_append s qs rs, serve_g, serve_h⟩
  · intro claims rank load first
    refine ⟨fun chosen => ⟨(chooseCore_some chosen).1, (chooseCore_some chosen).2.1, fun d there h fits => chooseCore_first chosen there fits⟩,
      fun none_ d => chooseCore_none none_, fit_some, placeTeam_noCore, placeTeam_placerBusy, placeTeam_places⟩
  · intro x placed mine oldest h held idle back
    refine ⟨execTeamPlacement_places, execTeamPlacement_idle, execClaimComplete_none, execClaimComplete_held, execClaimComplete_ends,
      execSpillCopyDone_none, fun e => execSpillCopyDone_asleep, fun e found run awake => ?_, execReadmission_back, execReadmission_asleep,
      execReadmission_waits, execReadmission_none, lendSoon_zero s core side.val, fun owner on some_ run => ?_, execSlabLend_none, execSlabLend_off,
      execLendReclaim_none, fun lent there => ?_⟩
    · refine ⟨_, execSpillCopyDone_ends found run awake, ?_⟩
      rw [core_nextCopy, waves_nextCopy]
      refine ⟨spills_copyEnded .., fun i k e2 y there => ⟨copyEnded_slab e2 there, fun x o u g slab holds team grid => ⟨fun within => ?_, ?_⟩⟩,
        fun i k e2 y u g => copyEnded_home e2, fun i k => copyEnded_tile, fun i k d e2 y g => copyEnded_gate e2, fun i k e2 y => copyEnded_back e2⟩
      · rw [bytesAt_nextCopy]
        exact copyEnded_slab_bytes e2 there slab holds team grid within
      · exact copyEnded_slab_away e2 there slab holds team grid
    · exact ⟨execSlabLend_lends owner on some_ run, execSlabLend_held owner on some_ run, execSlabLend_later owner on some_ run⟩
    · refine ⟨execLendReclaim_held lent, fun free => execLendReclaim_unready lent free there, fun free unready watches y => execLendReclaim_rereads lent free unready watches,
        fun free ready => ?_⟩
      exact ⟨_, execLendReclaim_claims lent free there ready, due_claimSide .., mem_claimSide .., rfl, claimBack_unlends there,
        fun e holds other found live => claimBack_evicts holds other found live⟩

end Sys2Proof.Machine
end

section
/-!
SUPPORT. Slices (O59; R107 to R109, R112, R124): the choice of a virtual device, the start of a slice, its end and the requests to yield.
-/

namespace Sys2Proof.Machine

/- Elaborated one after another: at one thread for each of so many short theorems, the stacks together would pass the memory limit. -/
set_option Elab.async false

variable {s t u : State}

/-! ## The choice of a virtual device (R108, R112) -/

theorem pickVd_eligible {a v : Nat} (picked : s.pickVd a = (some v, t)) : s.eligible a v = true ∧ s.noFrames a v = false := by
  have first : (s.picks a).1 = some v := congrArg Prod.fst picked
  unfold State.picks at first
  extract_lets at_ order pick at first
  have there : v ∈ order := List.mem_of_find?_eq_some first
  exact ⟨(List.mem_filter.1 there).2, by simpa using List.find?_some first⟩

/-- Of two states, the second has the same teams, waves and owners of clusters. -/
structure PickFrame (s t : State) : Prop where
  teams : t.teams = s.teams
  waves : t.waves = s.waves
  owners : t.clusterOwner = s.clusterOwner

namespace PickFrame

theorem refl (s : State) : PickFrame s s := ⟨rfl, rfl, rfl⟩

theorem trans (h : PickFrame s t) (k : PickFrame t u) : PickFrame s u := ⟨k.teams.trans h.teams, k.waves.trans h.waves, k.owners.trans h.owners⟩

theorem ite {c : Prop} [Decidable c] {a b : State} (ha : PickFrame s a) (hb : PickFrame s b) : PickFrame s (if c then a else b) := by
  split <;> assumption

theorem foldl {α : Type} {f : State → α → State} {l : List α} (h : PickFrame s t) (hf : ∀ t a, PickFrame s t → PickFrame s (f t a)) :
    PickFrame s (l.foldl f t) :=
  List.foldlRecOn l f h fun t h a _ => hf t a h

/-- A change of anything but what the frame speaks of. -/
theorem frame (h : PickFrame s t) (teams : u.teams = t.teams := by rfl) (waves : u.waves = t.waves := by rfl)
    (owners : u.clusterOwner = t.clusterOwner := by rfl) : PickFrame s u := h.trans ⟨teams, waves, owners⟩

theorem schedule (h : PickFrame s t) (f : ScheduleFrame t u) : PickFrame s u := h.frame (congrArg (·.teams) f) (congrArg (·.waves) f) (congrArg (·.clusterOwner) f)

theorem lendLater {c : Nat} (h : PickFrame s t) : PickFrame s (t.lendLater c) := by
  refine .ite ?_ h
  exact (h.schedule (soonOnce_schedule ..)).schedule (soonOnce_schedule ..)

theorem takeSched {p : Nat} (h : PickFrame s t) : PickFrame s (t.takeSched p) := by
  unfold State.takeSched
  extract_lets _ s1 s2
  have h1 : PickFrame s s1 := h.frame
  have h2 : PickFrame s s2 := .ite (h1.foldl fun _ _ h => h.lendLater) h1
  exact h2.foldl fun _ _ h => .ite h.frame h

theorem pickVd {p : Nat} (h : PickFrame s t) : PickFrame s (t.pickVd p).2 := h.foldl fun _ _ h => .ite h h.frame

theorem clustersOf (f : PickFrame s t) (p : Nat) : t.clustersOf p = s.clustersOf p := by
  simp only [State.clustersOf, State.ownerOf, f.owners]

end PickFrame

/-- What the sequencer has chosen in the partition's new schedule leaves teams, waves and owners. -/
theorem picked_frame {p : Nat} {o : Option Nat} (picked : (s.takeSched p).pickVd p = (o, u)) : PickFrame s u := by
  have f : PickFrame s ((s.takeSched p).pickVd p).2 := (PickFrame.refl s).takeSched.pickVd
  rw [picked] at f
  exact f

/-! ## The start of a slice (R107, R128) -/

/-- The slice with which a virtual device starts. -/
def State.newSlice (s : State) (p v : Nat) : Slice := { (s.part p).slice with
  cur := some v, start := s.reft, stop := s.reft + (1000 * fieldOf (s.vd v).sliceNow 15 0 - (s.vd v).charge)
  yielding := false, switching := false, next := none, choices := [], exchanged := [], late := [] }

/-- The partition with the new slice, whose charge is paid. -/
def State.sliceBegun (s : State) (p v : Nat) : State :=
  (s.updVd v (fun d => { d with charge := 0 })).updPart p (fun x => { x with slice := s.newSlice p v })

theorem slice_sliceBegun (s : State) (p v : Nat) : ((s.sliceBegun p v).part p).slice = s.newSlice p v := by
  rw [State.sliceBegun, State.part_updPart_self]

theorem vd_sliceBegun_self (s : State) (p v : Nat) : ((s.sliceBegun p v).vd v).charge = 0 :=
  congrArg (·.charge) (State.vd_updVd_self s v fun d => { d with charge := 0 })

theorem vd_sliceBegun_ne (s : State) (p : Nat) {v w : Nat} (other : w ≠ v) : (s.sliceBegun p v).vd w = s.vd w :=
  State.vd_updVd_ne s (fun d => { d with charge := 0 }) other

/-- What follows leaves the new slice, and both its rows are due. -/
theorem startSlice_frame (s : State) (p : Fin 8) (v : Nat) : TimeFrame (s.sliceBegun p.val v) (s.startSlice p.val v)
    ∧ (s.startSlice p.val v).due (.sliceBoundary p) = true ∧ (s.startSlice p.val v).due (.yieldRequest p) = true := by
  have index : Fin.ofNat 8 p.val = p := Fin.ofNat_val_eq_self p
  unfold State.startSlice
  extract_lets d stop s1 s2 s3 s4 s5
  have h3 : TimeFrame s2 s3 := (TimeFrame.refl s2).foldl fun _ _ h => h.frame
  have h4 : TimeFrame s2 s4 := h3.resumeSaved.stay (StayFrame.refl _).kickPlace
  have last : StayFrame s5 ((s5.preload (s5.coresOf p.val) (s5.picks p.val).1).atTick stop (.sliceBoundary (Fin.ofNat 8 p.val))) := (StayFrame.refl s5).preload.atTick
  have begun : s2 = s.sliceBegun p.val v := rfl
  rw [← begun]
  refine ⟨(h4.stay (StayFrame.refl s4).atTick).stay last, ?_, last.rows _ rfl ?_⟩
  · rw [index]
    exact due_atTick_self ..
  · unfold s5
    rw [index]
    exact due_atTick_self ..

theorem startSlice_starts (s : State) (p : Fin 8) (v : Nat) : let t := s.startSlice p.val v
    (t.part p.val).slice.cur = some v ∧ (t.part p.val).slice.start = s.reft ∧ (t.part p.val).slice.switching = false
      ∧ (t.part p.val).slice.stop = s.reft + (1000 * fieldOf (s.vd v).sliceNow 15 0 - (s.vd v).charge)
      ∧ (t.vd v).charge = 0 ∧ t.due (.sliceBoundary p) = true ∧ t.due (.yieldRequest p) = true := by
  intro t
  obtain ⟨f, boundary, yields⟩ := startSlice_frame s p v
  have slice : (t.part p.val).slice = s.newSlice p.val v := (f.slices _).trans (slice_sliceBegun ..)
  rw [slice]
  exact ⟨rfl, rfl, rfl, rfl, (f.charge v).trans (vd_sliceBegun_self ..), boundary, yields⟩

/-- The other virtual devices keep what is charged to them. -/
theorem charge_startSlice_ne (s : State) (p : Fin 8) {v w : Nat} (other : w ≠ v) : ((s.startSlice p.val v).vd w).charge = (s.vd w).charge := by
  rw [(startSlice_frame s p v).1.charge, vd_sliceBegun_ne s _ other]

/-! ## The end of a slice (R108, R125) -/

theorem foldl_atTick_parts (i : Nat → Instr) (l : List Nat) (s : State) : (l.foldl (fun s c => s.atTick s.reft (i c)) s).parts = s.parts :=
  List.foldlRecOn l _ (motive := fun t : State => t.parts = s.parts) rfl fun _ h _ _ => h

/-- Every row of a list that is scheduled is due. -/
theorem due_foldl_atTick (i : Nat → Instr) {l : List Nat} {c : Nat} (there : c ∈ l) (s : State) :
    (l.foldl (fun s c => s.atTick s.reft (i c)) s).due (i c) = true := by
  obtain ⟨l₁, l₂, rfl⟩ := List.append_of_mem there
  rw [List.foldl_append, List.foldl_cons]
  exact ((KickFrame.refl _).foldl fun _ _ h => h.atTick).due (due_atTick_self ..)

/-- The slice of a partition that switches. -/
def Slice.switched (x : Slice) (next : Option Nat) : Slice := { x with switching := true, next := next, choices := [], exchanged := [], late := [] }

theorem beginSwitch_eq (s : State) (p : Nat) (next : Option Nat) : s.beginSwitch p next
    = (s.clustersOf p).foldl (fun s c => s.atTick s.reft (.sliceEnd (Fin.ofNat 8 c))) (s.updPart p (fun x => { x with slice := x.slice.switched next })) := rfl

theorem slice_beginSwitch (s : State) (p : Nat) (next : Option Nat) : ((s.beginSwitch p next).part p).slice = (s.part p).slice.switched next := by
  rw [beginSwitch_eq, State.part, foldl_atTick_parts fun c => .sliceEnd (Fin.ofNat 8 c)]
  exact congrArg Part.slice (State.part_updPart_self ..)

theorem due_beginSwitch {p c : Nat} (next : Option Nat) (there : c ∈ s.clustersOf p) : (s.beginSwitch p next).due (.sliceEnd (Fin.ofNat 8 c)) = true := by
  rw [beginSwitch_eq]
  exact due_foldl_atTick (fun c => .sliceEnd (Fin.ofNat 8 c)) there _

theorem beginSwitch_frame (s : State) (p : Nat) (next : Option Nat) : PickFrame s (s.beginSwitch p next) :=
  (PickFrame.frame (.refl s)).foldl fun _ _ h => h.frame

section
variable {p : Fin 8} {cur : Nat} (present : (s.part p.val).present = true) (going : (s.part p.val).stopped = false)
  (still : (s.part p.val).slice.switching = false) (run : s.running = true)
include present going still run

section
variable (none_ : (s.part p.val).slice.cur = none)
include none_

theorem execSliceBoundary_idles (picked : (s.takeSched p.val).pickVd p.val = (none, u)) : execSliceBoundary p s = .next u := by
  simp only [execSliceBoundary, present, going, still, run, none_, picked, Bool.not_true, Bool.or_false, Bool.false_eq_true, if_false]

theorem execSliceBoundary_starts {v : Nat} (picked : (s.takeSched p.val).pickVd p.val = (some v, u)) :
    execSliceBoundary p s = .next (u.startSlice p.val v) := by
  simp only [execSliceBoundary, present, going, still, run, none_, picked, Bool.not_true, Bool.or_false, Bool.false_eq_true, if_false]

end

section
variable (some_ : (s.part p.val).slice.cur = some cur)
include some_

theorem execSliceBoundary_early (before : s.reft < (s.part p.val).slice.stop) : execSliceBoundary p s = .next s := by
  simp only [execSliceBoundary, present, going, still, run, some_, before, Bool.not_true, Bool.or_false, Bool.false_eq_true, if_false, if_true]

section
variable (late : (s.part p.val).slice.stop ≤ s.reft)
include late

theorem execSliceBoundary_open (open_ : s.yieldOpen p.val = true) : execSliceBoundary p s = .next (s.after 1 (.sliceBoundary p)) := by
  simp only [execSliceBoundary, present, going, still, run, some_, Nat.not_lt.2 late, open_, Bool.not_true, Bool.or_false, Bool.false_eq_true, if_false, if_true]

section
variable (closed : s.yieldOpen p.val = false)
include closed

theorem execSliceBoundary_none (picked : (s.takeSched p.val).pickVd p.val = (none, u)) : execSliceBoundary p s = .next (u.idle p.val cur) := by
  simp only [execSliceBoundary, present, going, still, run, some_, Nat.not_lt.2 late, closed, picked, Bool.not_true, Bool.or_false, Bool.false_eq_true, if_false]

theorem execSliceBoundary_again (picked : (s.takeSched p.val).pickVd p.val = (some cur, u)) :
    execSliceBoundary p s = .next ((u.endYield p.val cur).startSlice p.val cur) := by
  simp only [execSliceBoundary, present, going, still, run, some_, Nat.not_lt.2 late, closed, picked, beq_self_eq_true, Bool.not_true, Bool.or_false,
    Bool.false_eq_true, if_false, if_true]

theorem execSliceBoundary_switches {v : Nat} (picked : (s.takeSched p.val).pickVd p.val = (some v, u)) (other : v ≠ cur) :
    execSliceBoundary p s = .next (u.beginSwitch p.val (some v)) := by
  simp only [execSliceBoundary, present, going, still, run, some_, Nat.not_lt.2 late, closed, picked, beq_false_of_ne other, Bool.not_true, Bool.or_false,
    Bool.false_eq_true, if_false]

end
end
end
end

/-- A core of the partition is still in the cycle in which the slice ended, and a team on it has a yield request. -/
theorem yieldOpen_iff {p cur : Nat} (some_ : (s.part p).slice.cur = some cur) : s.yieldOpen p = true ↔ ∃ c ∈ s.clustersOf p, ∃ e ∈ s.outgoing p cur c,
    e.2.yieldBy ≠ none ∧ (s.hob (hobOf e.2.core)).relockEnd = none
      ∧ (s.reft - (s.part p).slice.stop) * (6 + (s.hob (hobOf e.2.core)).step) ≤ (s.hob (hobOf e.2.core)).phase := by
  simp only [State.yieldOpen, some_, Option.getD_some, List.any_eq_true, Bool.and_eq_true, decide_eq_true_eq, Option.isNone_iff_eq_none, Option.isSome_iff_ne_none,
    and_assoc]

section
variable {p cur : Nat}

theorem idle_switches (some_ : ∃ c ∈ s.clustersOf p, s.outgoing p cur c ≠ []) : s.idle p cur = s.beginSwitch p none :=
  if_pos (by simpa using some_)

theorem idle_stops (none_ : ∀ c ∈ s.clustersOf p, s.outgoing p cur c = []) : s.idle p cur = s.updPart p (fun x => { x with slice := { x.slice with cur := none } }) :=
  if_neg (by simpa using none_)

end

/-! ## Requests to yield (R124) -/

/-- Every team of a list receives a request with its deadline. -/
def State.yieldTo (s : State) (l : List (Nat × Team)) (stop : Nat) : State := l.foldl (fun s e => s.updTeam e.1 (fun t => { t with yieldBy := some stop })) s

theorem grids_yieldTo (s : State) (l : List (Nat × Team)) (stop : Nat) : (s.yieldTo l stop).grids = s.grids :=
  List.foldlRecOn l _ (motive := fun t : State => t.grids = s.grids) rfl fun _ h _ _ => h

theorem find_yieldTo {stop id : Nat} {k : Team} (l : List (Nat × Team)) (found : Tbl.find s.teams id = some k) :
    Tbl.find (s.yieldTo l stop).teams id = some (if l.any (fun e => e.1 == id) then { k with yieldBy := some stop } else k) := by
  induction l generalizing s k with
  | nil => exact found
  | cons e l ih =>
    rw [State.yieldTo, List.foldl_cons]
    by_cases same : e.1 = id
    · have there : Tbl.find (s.updTeam e.1 (fun t => { t with yieldBy := some stop })).teams id = some { k with yieldBy := some stop } := by
        rw [same, State.updTeam_find_self, found, Option.map_some]
      rw [← State.yieldTo, ih there]
      simp [same]
    · have there : Tbl.find (s.updTeam e.1 (fun t => { t with yieldBy := some stop })).teams id = some k := by
        rw [State.updTeam_find_ne _ _ (Ne.symm same), found]
      rw [← State.yieldTo, ih there, List.any_cons, beq_false_of_ne same, Bool.false_or]

/-- The requests go out to the teams of one cluster after the other. -/
def State.yieldAll (s : State) (p cur stop : Nat) (cs : List Nat) : State := cs.foldl (fun s c => s.yieldTo (s.outgoing p cur c) stop) s

section
variable {p cur stop id : Nat} {k : Team}

theorem grids_yieldAll (s : State) (p cur stop : Nat) (cs : List Nat) : (s.yieldAll p cur stop cs).grids = s.grids :=
  List.foldlRecOn cs _ (motive := fun t : State => t.grids = s.grids) rfl fun _ h _ _ => (grids_yieldTo ..).trans h

/-- A team has its request or none. -/
theorem find_yieldAll (cs : List Nat) (found : Tbl.find s.teams id = some k) :
    Tbl.find (s.yieldAll p cur stop cs).teams id = some k ∨ Tbl.find (s.yieldAll p cur stop cs).teams id = some { k with yieldBy := some stop } := by
  refine List.foldlRecOn cs _ (motive := fun t : State => Tbl.find t.teams id = some k ∨ Tbl.find t.teams id = some { k with yieldBy := some stop })
    (.inl found) fun t h c _ => ?_
  rcases h with h | h
  · rw [find_yieldTo _ h]
    split
    · exact .inr rfl
    · exact .inl rfl
  · rw [find_yieldTo _ h, ite_self]
    exact .inr rfl

/-- What makes a team one of those that go out is not its request. -/
theorem outgoing_yielded {t : State} {c : Nat} {y : Option Nat} (grids : t.grids = s.grids) (listed : (id, k) ∈ s.outgoing p cur c)
    (found : Tbl.find t.teams id = some { k with yieldBy := y }) : (id, { k with yieldBy := y }) ∈ t.outgoing p cur c := by
  refine List.mem_filter.2 ⟨Tbl.mem_of_find_self found, ?_⟩
  rw [grids]
  exact (List.mem_filter.1 listed).2

/-- Every team that goes out from one of the clusters has its request. -/
theorem yieldAll_requests {c : Nat} {cs : List Nat} (there : c ∈ cs) (listed : (id, k) ∈ s.outgoing p cur c) (found : Tbl.find s.teams id = some k) :
    Tbl.find (s.yieldAll p cur stop cs).teams id = some { k with yieldBy := some stop } := by
  obtain ⟨l₁, l₂, rfl⟩ := List.append_of_mem there
  rw [State.yieldAll, List.foldl_append, List.foldl_cons]
  have before := find_yieldAll (p := p) (cur := cur) (stop := stop) l₁ found
  have asked : Tbl.find (((s.yieldAll p cur stop l₁).yieldTo ((s.yieldAll p cur stop l₁).outgoing p cur c) stop)).teams id
      = some { k with yieldBy := some stop } := by
    rcases before with h | h
    · have out := outgoing_yielded (y := k.yieldBy) (grids_yieldAll ..) listed h
      rw [find_yieldTo _ h, if_pos (List.any_eq_true.2 ⟨_, out, by simp⟩)]
    · rw [find_yieldTo _ h, ite_self]
  rcases find_yieldAll (p := p) (cur := cur) (stop := stop) l₂ asked with h | h <;> exact h

end

theorem execYieldRequest_asks {p : Fin 8} {cur : Nat} (some_ : (s.part p.val).slice.cur = some cur) (still : (s.part p.val).slice.switching = false)
    (unasked : (s.part p.val).slice.yielding = false) (going : (s.part p.val).stopped = false) (before : s.reft < (s.part p.val).slice.stop)
    (near : (s.part p.val).slice.stop ≤ s.reft + 1000 * fieldOf (s.part p.val).schedNow 25 16) :
    execYieldRequest p s = .next ((s.updPart p.val (fun x => { x with slice := { x.slice with yielding := true } })).yieldAll p.val cur
      (s.part p.val).slice.stop (s.clustersOf p.val)) := by
  rw [execYieldRequest]
  dsimp only
  rw [some_]
  dsimp only
  rw [if_neg (by simp [still, unasked, going, before, near])]
  rfl

theorem part_yieldAll (s : State) (p cur stop : Nat) (cs : List Nat) (q : Nat) : (s.yieldAll p cur stop cs).part q = s.part q := by
  refine List.foldlRecOn cs _ (motive := fun t : State => t.part q = s.part q) rfl fun t h c _ => Eq.trans ?_ h
  exact List.foldlRecOn _ _ (motive := fun u : State => u.part q = t.part q) rfl fun _ h _ _ => h

theorem execYieldRequest_requests {p : Fin 8} {cur : Nat} (some_ : (s.part p.val).slice.cur = some cur) (still : (s.part p.val).slice.switching = false)
    (unasked : (s.part p.val).slice.yielding = false) (going : (s.part p.val).stopped = false) (before : s.reft < (s.part p.val).slice.stop)
    (near : (s.part p.val).slice.stop ≤ s.reft + 1000 * fieldOf (s.part p.val).schedNow 25 16) :
    ∃ t : State, execYieldRequest p s = .next t ∧ (t.part p.val).slice.yielding = true
      ∧ ∀ c ∈ s.clustersOf p.val, ∀ e ∈ s.outgoing p.val cur c, Tbl.find s.teams e.1 = some e.2 →
        Tbl.find t.teams e.1 = some { e.2 with yieldBy := some (s.part p.val).slice.stop } := by
  refine ⟨_, execYieldRequest_asks some_ still unasked going before near, ?_, fun c there e listed found => ?_⟩
  · rw [part_yieldAll, State.part_updPart_self]
  · exact yieldAll_requests (s := s.updPart p.val _) there listed found

end Sys2Proof.Machine
end

section
/-!
SUPPORT. Switches of a partition (O59; R125 to R129): what becomes of the outgoing teams, the exchange of the arrays, the end of the switch. A team that is saved stays saved
on its core (`SaveFrame`).
-/

namespace Sys2Proof.Machine

/- Elaborated one after another: at one thread for each of so many short theorems, the stacks together would pass the memory limit. -/
set_option Elab.async false

variable {s t u : State}

/-! ## Teams that are saved (R112, R127) -/

/-- Of two states, the second has every team of the first, on its core, where it was or saved. -/
structure SaveFrame (s t : State) : Prop where
  pkg : t.pkg = s.pkg
  teams : ∀ id k, Tbl.find s.teams id = some k → ∃ y, Tbl.find t.teams id = some y ∧ y.core = k.core ∧ (y.loc = k.loc ∨ y.loc = .saved)

namespace SaveFrame

theorem refl (s : State) : SaveFrame s s := ⟨rfl, fun _ k there => ⟨k, there, rfl, .inl rfl⟩⟩

theorem trans (h : SaveFrame s t) (k : SaveFrame t u) : SaveFrame s u := by
  refine ⟨k.pkg.trans h.pkg, fun id x there => ?_⟩
  obtain ⟨y, found, core, loc⟩ := h.teams id x there
  obtain ⟨z, found', core', loc'⟩ := k.teams id y found
  refine ⟨z, found', core'.trans core, ?_⟩
  rcases loc' with same | saved
  · exact loc.imp same.trans same.trans
  · exact .inr saved

theorem running (f : SaveFrame s t) : t.running = s.running := by
  rw [State.running, State.running, f.pkg]

theorem ite {c : Prop} [Decidable c] {a b : State} (ha : SaveFrame s a) (hb : SaveFrame s b) : SaveFrame s (if c then a else b) := by
  split <;> assumption

theorem foldl {α : Type} {f : State → α → State} {l : List α} (h : SaveFrame s t) (hf : ∀ t a, SaveFrame s t → SaveFrame s (f t a)) :
    SaveFrame s (l.foldl f t) :=
  List.foldlRecOn l f h fun t h a _ => hf t a h

/-- A change of anything but what the frame speaks of. -/
theorem frame (h : SaveFrame s t) (pkg : u.pkg = t.pkg := by rfl) (teams : u.teams = t.teams := by rfl) : SaveFrame s u := by
  refine h.trans ⟨pkg, fun id k there => ⟨k, ?_, rfl, .inl rfl⟩⟩
  rw [teams, there]

theorem stay (h : SaveFrame s t) (f : StayFrame t u) : SaveFrame s u := by
  refine h.trans ⟨f.pkg, fun id k there => ?_⟩
  obtain ⟨y, found, seat⟩ := f.find there
  exact ⟨y, found, congrArg (·.2.1) seat, .inl (congrArg (·.2.2.2.2.1) seat)⟩

/-- A team that is saved stays saved. -/
theorem saved (f : SaveFrame s t) {id : Nat} {k : Team} (there : Tbl.find s.teams id = some k) (out : k.loc = .saved) :
    ∃ y, Tbl.find t.teams id = some y ∧ y.loc = .saved ∧ y.core = k.core := by
  obtain ⟨y, found, core, loc⟩ := f.teams id k there
  exact ⟨y, found, loc.elim (fun e => e.trans out) (fun e => e), core⟩

end SaveFrame

/-- A save empties the team's arrays, marks the team as saved, and frees what it held; before and after the mark every team keeps its seat. -/
theorem saveTeam_shape {j : Nat} {k : Team} (there : Tbl.find s.teams j = some k) (resident : k.loc = .resident) (run : s.running = true) :
    ∃ (v : State) (f : Team → Team), StayFrame s v ∧ StayFrame (v.updTeam j f) (s.saveTeam j) ∧ ∀ y, (f y).loc = .saved ∧ (f y).core = y.core := by
  unfold State.saveTeam
  split
  · next none_ => simp [there] at none_
  next k' there' =>
  obtain rfl : k = k' := Option.some.inj (there.symm.trans there')
  rw [if_neg (by simp [resident, run])]
  extract_lets clk ran s1 tv s2 s3 s4 s5 s6 s7
  have h2 : StayFrame s s2 := (StayFrame.refl s).spillAll.homeAll.foldl fun _ _ h => .ite h h.updWave
  have h5 : StayFrame s4 s5 := (StayFrame.refl s4).foldl fun _ _ h => h.updJob
  have h7 : StayFrame s4 s7 := h5.dropReqs.foldl fun _ _ h => h.updWave
  exact ⟨s3, _, h2.drainFrame.takePcs, h7.lowerCarve.freed.lendLater.drainOf, fun y => ⟨rfl, rfl⟩⟩

/-- A team that is not resident, or whose device has stopped, is not saved. -/
theorem saveTeam_none {j : Nat} (none_ : ∀ k, Tbl.find s.teams j = some k → k.loc = .resident → s.running = false) : s.saveTeam j = s := by
  unfold State.saveTeam
  split
  · rfl
  next k there =>
  refine if_pos ?_
  by_cases resident : k.loc = .resident
  · simp [none_ k there resident]
  · simp [resident]

/-- Either a save changes nothing, or it has the shape of one. -/
theorem saveTeam_cases (s : State) (j : Nat) : s.saveTeam j = s ∨ ∃ k, Tbl.find s.teams j = some k ∧ k.loc = .resident ∧ s.running = true := by
  by_cases able : ∃ k, Tbl.find s.teams j = some k ∧ k.loc = .resident ∧ s.running = true
  · exact .inr able
  · refine .inl (saveTeam_none fun k there resident => ?_)
    by_contra run
    exact able ⟨k, there, resident, by simpa using run⟩

theorem TimeFrame.saveTeam {j : Nat} (h : TimeFrame s t) : TimeFrame s (t.saveTeam j) := by
  rcases saveTeam_cases t j with e | ⟨k, there, resident, run⟩
  · rw [e]
    exact h
  · obtain ⟨v, f, before, after, -⟩ := saveTeam_shape there resident run
    exact ((h.stay before).frame (u := v.updTeam j f)).stay after

theorem SaveFrame.saveTeam {j : Nat} (h : SaveFrame s t) : SaveFrame s (t.saveTeam j) := by
  rcases saveTeam_cases t j with e | ⟨k, there, resident, run⟩
  · rw [e]
    exact h
  · obtain ⟨v, f, before, after, saves⟩ := saveTeam_shape there resident run
    have marked : SaveFrame v (v.updTeam j f) := by
      refine ⟨rfl, fun id y found => ?_⟩
      by_cases same : id = j
      · subst same
        exact ⟨f y, by rw [State.updTeam_find_self, found, Option.map_some], (saves y).2, .inr (saves y).1⟩
      · exact ⟨y, by rw [State.updTeam_find_ne _ _ same, found], rfl, .inl rfl⟩
    exact ((h.stay before).trans marked).stay after

theorem saveTeam_saves {j : Nat} {k : Team} (there : Tbl.find s.teams j = some k) (here : k.loc = .resident ∨ k.loc = .saved) (run : s.running = true) :
    ∃ y, Tbl.find (s.saveTeam j).teams j = some y ∧ y.loc = .saved ∧ y.core = k.core := by
  rcases here with resident | saved
  · obtain ⟨v, f, before, after, saves⟩ := saveTeam_shape there resident run
    obtain ⟨x, found, seat⟩ := before.find there
    have marked : Tbl.find (v.updTeam j f).teams j = some (f x) := by rw [State.updTeam_find_self, found, Option.map_some]
    obtain ⟨y, found', seat'⟩ := after.find marked
    have loc : y.loc = (f x).loc := congrArg (·.2.2.2.2.1) seat'
    have core : y.core = (f x).core := congrArg (·.2.1) seat'
    exact ⟨y, found', loc.trans (saves x).1, (core.trans (saves x).2).trans (congrArg (·.2.1) seat)⟩
  · exact (SaveFrame.refl s).saveTeam.saved there saved

/-- Every resident team of a list is saved. -/
theorem saveAll_saves {l : List (Nat × Team)} (run : s.running = true) {e : Nat × Team} (listed : e ∈ l) (there : Tbl.find s.teams e.1 = some e.2)
    (resident : e.2.loc = .resident) : ∃ y, Tbl.find (l.foldl (fun s e => s.saveTeam e.1) s).teams e.1 = some y ∧ y.loc = .saved ∧ y.core = e.2.core := by
  obtain ⟨l₁, l₂, rfl⟩ := List.append_of_mem listed
  rw [List.foldl_append, List.foldl_cons]
  have before : SaveFrame s (l₁.foldl (fun s e => s.saveTeam e.1) s) := (SaveFrame.refl s).foldl fun _ _ h => h.saveTeam
  obtain ⟨x, found, core, loc⟩ := before.teams e.1 e.2 there
  obtain ⟨y, found', saved, core'⟩ := saveTeam_saves found (loc.imp_left (·.trans resident)) (before.running.trans run)
  obtain ⟨z, found'', saved', core''⟩ := ((SaveFrame.refl _).foldl (l := l₂) fun _ _ h => h.saveTeam).saved found' saved
  exact ⟨z, found'', saved', core''.trans (core'.trans core)⟩

/-! ## The choice of a cluster (R125, R126, R130) -/

/-- Where no move holds the choice of a cluster, its outgoing teams are resident. -/
theorem resident_of_outgoing {p vf cl : Nat} (free : s.choiceHeld cl = false) {e : Nat × Team} (there : e ∈ s.outgoing p vf cl) : e.2.loc = .resident := by
  obtain ⟨listed, its⟩ := List.mem_filter.1 there
  simp only [Bool.and_eq_true, bne_iff_ne, ne_eq, beq_iff_eq] at its
  obtain ⟨⟨unsaved, cluster⟩, -⟩ := its
  cases loc : e.2.loc with
  | resident => rfl
  | saved => exact absurd loc unsaved
  | moving d =>
    have core : cl * 48 + e.2.core % 48 = e.2.core := by
      rw [← cluster, clusterOf, Nat.mul_comm]
      exact Nat.div_add_mod ..
    have moves : s.moveAt (cl * 48 + e.2.core % 48) = true := by
      rw [core]
      exact List.any_eq_true.2 ⟨e, listed, by simp [loc]⟩
    have held : s.choiceHeld cl = true := by
      rw [State.choiceHeld, Bool.or_eq_true]
      exact .inr (List.any_eq_true.2 ⟨_, List.mem_range.2 (Nat.mod_lt _ (by omega)), moves⟩)
    simp [free] at held

/-- The teams of a cluster that can halt are saved, on their cores. -/
def HaltingSaved (s t : State) (p vf cl : Nat) : Prop := ∀ e ∈ s.halting p vf cl, Tbl.find s.teams e.1 = some e.2 →
  ∃ k, Tbl.find t.teams e.1 = some k ∧ k.loc = .saved ∧ k.core = e.2.core

theorem HaltingSaved.stay {p vf cl : Nat} (h : HaltingSaved s t p vf cl) (f : SaveFrame t u) : HaltingSaved s u p vf cl := by
  intro e halts there
  obtain ⟨k, found, saved, core⟩ := h e halts there
  obtain ⟨y, found', saved', core'⟩ := f.saved found saved
  exact ⟨y, found', saved', core'.trans core⟩

/-- A save or an overrun saves them. -/
theorem applyChoice_saves {p vf cl : Nat} {c : Choice} (free : s.choiceHeld cl = false) (run : s.running = true) (saves : c = .save ∨ c = .overrun)
    (same : t.teams = s.teams) (on : t.pkg = s.pkg) : HaltingSaved s (t.applyChoice (s.halting p vf cl) c) p vf cl := by
  intro e halts there
  have out : t.applyChoice (s.halting p vf cl) c = (s.halting p vf cl).foldl (fun s e => s.saveTeam e.1) t := by
    rcases saves with rfl | rfl <;> rfl
  have run' : t.running = true := by rw [State.running, on]; exact run
  rw [out]
  exact saveAll_saves run' halts (by rw [same, there]) (resident_of_outgoing free (List.mem_of_mem_filter halts))

theorem TimeFrame.discardTeam {e : Nat × Team} (h : TimeFrame s t) : TimeFrame s (t.discardTeam e) := .removeTeam h.frame

theorem TimeFrame.applyChoice {l : List (Nat × Team)} {c : Choice} (h : TimeFrame s t) : TimeFrame s (t.applyChoice l c) := by
  cases c with
  | drain => exact h
  | save => exact h.foldl fun _ _ h => h.saveTeam
  | overrun => exact h.foldl fun _ _ h => h.saveTeam
  | discard =>
    refine h.foldl fun t e h => ?_
    split
    · exact h
    · exact .ite h.discardTeam h.saveTeam

theorem SaveFrame.applySave {l : List (Nat × Team)} (h : SaveFrame s t) : SaveFrame s (t.applyChoice l .save) := h.foldl fun _ _ h => h.saveTeam

theorem applyChoice_nil (s : State) (c : Choice) : s.applyChoice [] c = s := by cases c <;> rfl

/-- The bytes that are to be saved whatever is discarded. -/
def State.mustSave (s : State) (ts : List (Nat × Team)) : Nat :=
  ((ts.filter (fun e => match Tbl.find s.grids e.2.grid with
    | none => true
    | some g => !(g.cls == .h && g.lrec.restartable))).map (fun e => e.2.hwm)).sum

section
variable {b : Nat} {ts : List (Nat × Team)}

/-- Every team drains within the budget. -/
def State.drains (s : State) (b : Nat) (ts : List (Nat × Team)) : Prop := ∀ e ∈ ts, ∃ n, s.drainEstimate e.2 = some n ∧ n ≤ b

/-- A drain estimate lies within the budget. -/
def inTime (b : Nat) : Option Nat → Bool
  | none => false
  | some n => n ≤ b

/-- The launch of a team is one that a discard may restart (R126). -/
def State.restarts (s : State) (k : Team) : Bool := match Tbl.find s.grids k.grid with
  | none => false
  | some g => g.cls == .h && g.lrec.restartable

theorem mustSave_eq (s : State) (ts : List (Nat × Team)) : s.mustSave ts = ((ts.filter (fun e => !s.restarts e.2)).map (fun e => e.2.hwm)).sum := by
  rw [State.mustSave]
  congr 2
  refine List.filter_congr fun e _ => ?_
  rw [State.restarts]
  cases Tbl.find s.grids e.2.grid <;> rfl

theorem sliceChoice_eq (s : State) (b : Nat) (ts : List (Nat × Team)) : s.sliceChoice b ts =
    if (ts.map (fun e => s.drainEstimate e.2)).all (inTime b) then .drain
    else if (ts.map (fun e => e.2.hwm)).sum ≤ 1000 * b then .save
    else if s.mustSave ts ≤ 1000 * b then .discard else .overrun := by
  rw [mustSave_eq]
  rfl

theorem all_drain_iff : (ts.map (fun e => s.drainEstimate e.2)).all (inTime b) = true ↔ s.drains b ts := by
  simp only [List.all_map, List.all_eq_true, Function.comp_apply, State.drains]
  refine forall₂_congr fun e _ => ?_
  cases s.drainEstimate e.2 <;> simp [inTime]

theorem sliceChoice_drain (d : s.drains b ts) : s.sliceChoice b ts = .drain := by
  rw [sliceChoice_eq, if_pos (all_drain_iff.2 d)]

section
variable (d : ¬ s.drains b ts)
include d

theorem sliceChoice_save (fits : (ts.map (fun e => e.2.hwm)).sum ≤ 1000 * b) : s.sliceChoice b ts = .save := by
  rw [sliceChoice_eq, if_neg (fun h => d (all_drain_iff.1 h)), if_pos fits]

theorem sliceChoice_discard (more : 1000 * b < (ts.map (fun e => e.2.hwm)).sum) (fits : s.mustSave ts ≤ 1000 * b) : s.sliceChoice b ts = .discard := by
  rw [sliceChoice_eq, if_neg (fun h => d (all_drain_iff.1 h)), if_neg (by omega), if_pos fits]

theorem sliceChoice_overrun (more : 1000 * b < s.mustSave ts) (part : s.mustSave ts ≤ (ts.map (fun e => e.2.hwm)).sum) : s.sliceChoice b ts = .overrun := by
  rw [sliceChoice_eq, if_neg (fun h => d (all_drain_iff.1 h)), if_neg (by omega), if_neg (by omega)]

end
end

end Sys2Proof.Machine
end

section
/-!
SUPPORT. The rows of a switch (O59; R125 to R129): SLICE_END, DRAIN_DEADLINE, SHADOW_EXCHANGE and SWITCH_COMPLETE, each by one lemma for each way in which it can end.
-/

namespace Sys2Proof.Machine

/- Elaborated one after another: at one thread for each of so many short theorems, the stacks together would pass the memory limit. -/
set_option Elab.async false

variable {s t u : State}

section
variable {cl : Fin 8} {p cur : Nat} (owner : s.ownerOf cl.val = some p) (some_ : (s.part p).slice.cur = some cur)
  (switching : (s.part p).slice.switching = true) (run : s.running = true) (free : s.choiceHeld cl.val = false)
include owner some_ switching run free

/-! ## SLICE_END (R125) -/

/-- A cluster has chosen. -/
def State.chosen (s : State) (p cl : Nat) (c : Choice) : State :=
  s.updPart p (fun x => { x with slice := { x.slice with choices := x.slice.choices ++ [(cl, c)] } })

theorem execSliceEnd_eq (unchosen : ∀ e ∈ (s.part p).slice.choices, e.1 ≠ cl.val) : let c := s.sliceChoice (State.switchTicks (s.part p)) (s.outgoing p cur cl.val)
    let u := (s.chosen p cl.val c).applyChoice (s.halting p cur cl.val) c
    execSliceEnd cl s = .next ((if c == .drain then u.atTick (max u.reft ((s.part p).slice.stop + State.switchTicks (s.part p))) (.drainDeadline cl) else u).soonOnce
      (.shadowExchange cl)) := by
  have none_ : (s.part p).slice.choices.any (fun e => e.1 == cl.val) = false := by simpa using unchosen
  unfold execSliceEnd
  rw [owner]
  dsimp only
  rw [some_]
  dsimp only
  rw [if_neg (by simp [switching, run, none_]), if_neg (by simp [free])]
  rfl

theorem execSliceEnd_chooses (unchosen : ∀ e ∈ (s.part p).slice.choices, e.1 ≠ cl.val) :
    let c := s.sliceChoice (State.switchTicks (s.part p)) (s.outgoing p cur cl.val)
    ∃ t : State, execSliceEnd cl s = .next t ∧ (t.part p).slice.choices = (s.part p).slice.choices ++ [(cl.val, c)] ∧ t.due (.shadowExchange cl) = true
      ∧ (c = .drain → t.due (.drainDeadline cl) = true) ∧ (c = .save ∨ c = .overrun → HaltingSaved s t p cur cl.val) := by
  intro c
  have applied : TimeFrame (s.chosen p cl.val c) ((s.chosen p cl.val c).applyChoice (s.halting p cur cl.val) c) := (TimeFrame.refl _).applyChoice
  have chosen : ((s.chosen p cl.val c).part p).slice.choices = (s.part p).slice.choices ++ [(cl.val, c)] := by
    rw [State.chosen, State.part_updPart_self]
  refine ⟨_, execSliceEnd_eq owner some_ switching run free unchosen, ?_, due_soonOnce_self .., fun drain => ?_, fun saves => ?_⟩
  · refine Eq.trans (congrArg (·.choices) (TimeFrame.slices ?_ p)) chosen
    exact (TimeFrame.ite applied.frame applied).stay (StayFrame.refl _).soonOnce
  · rw [show (c == Choice.drain) = true by simpa using drain, if_pos rfl]
    exact (KickFrame.refl _).soonOnce.due (due_atTick_self ..)
  · refine (applyChoice_saves (t := s.chosen p cl.val c) free run saves rfl rfl).stay ?_
    exact (SaveFrame.ite (SaveFrame.frame (.refl _)) (.refl _)).stay (StayFrame.refl _).soonOnce

/-! ## DRAIN_DEADLINE (R125) -/

theorem execDrainDeadline_saves (drains : (cl.val, Choice.drain) ∈ (s.part p).slice.choices)
    (late : (s.part p).slice.stop + State.switchTicks (s.part p) ≤ s.reft) :
    ∃ t : State, execDrainDeadline cl s = .next t ∧ t.due (.shadowExchange cl) = true ∧ HaltingSaved s t p cur cl.val := by
  have eq : execDrainDeadline cl s = .next (((s.updPart p (fun x => { x with slice := { x.slice with
      choices := x.slice.choices.map (fun e => if e.1 == cl.val then (e.1, .save) else e) } })).applyChoice (s.halting p cur cl.val) .save).soonOnce
        (.shadowExchange cl)) := by
    unfold execDrainDeadline
    rw [owner]
    dsimp only
    rw [some_]
    dsimp only
    rw [if_neg (by simp [switching, run, drains, Nat.not_lt.2 late]), if_neg (by simp [free])]
    rfl
  refine ⟨_, eq, due_soonOnce_self .., ?_⟩
  refine (applyChoice_saves (t := s.updPart p _) free run (.inl rfl) ?_ ?_).stay ((SaveFrame.refl _).stay (StayFrame.refl _).soonOnce)
  · rfl
  · rfl

end

/-! ## Preloads (R127) -/

/-- Of two states, the second differs only in teams, waves and jobs. -/
def LoadFrame (s t : State) : Prop := t = { s with teams := t.teams, waves := t.waves, jobs := t.jobs }

namespace LoadFrame

theorem refl (s : State) : LoadFrame s s := rfl

theorem trans (h : LoadFrame s t) (k : LoadFrame t u) : LoadFrame s u := by
  unfold LoadFrame at k ⊢
  rw [h] at k
  exact k

theorem foldl {α : Type} {f : State → α → State} {l : List α} (h : LoadFrame s t) (hf : ∀ t a, LoadFrame s t → LoadFrame s (f t a)) :
    LoadFrame s (l.foldl f t) :=
  List.foldlRecOn l f h fun t h a _ => hf t a h

theorem ite {c : Prop} [Decidable c] {a b : State} (ha : LoadFrame s a) (hb : LoadFrame s b) : LoadFrame s (if c then a else b) := by
  split <;> assumption

theorem loadFrame {j : Nat} (h : LoadFrame s t) : LoadFrame s (t.loadFrame j) := by
  unfold State.loadFrame
  split
  · exact h
  split
  · exact h
  split
  · exact h
  extract_lets _ s1 _ _ s2
  have h1 : LoadFrame s s1 := h.foldl fun _ _ h => h.trans rfl
  have h2 : LoadFrame s s2 := h1.foldl fun _ _ h => .ite h (h.trans rfl)
  exact h2.trans rfl

theorem hobs (f : LoadFrame s t) : t.hobs = s.hobs := congrArg (·.hobs) f
theorem core (f : LoadFrame s t) (c : Nat) : t.core c = s.core c := core_congr (congrArg (·.cores) f) c

end LoadFrame

/-- A core's shadow array is loaded before it is marked as holding the virtual device. -/
theorem preloadCore_shape (s : State) (c : Nat) (v : Option Nat) :
    ∃ w, LoadFrame s w ∧ s.preloadCore c v = w.updCore c (fun k => { k with preload := v }) := by
  unfold State.preloadCore
  extract_lets of_ s1
  have h1 : LoadFrame s s1 := .ite (.refl s) ((LoadFrame.refl s).foldl fun _ _ h => h.trans rfl)
  exact ⟨_, h1.foldl fun _ _ h => h.loadFrame, rfl⟩

/-- A preload leaves the hobs, and every other shadow array as it was. -/
structure PreloadFrame (v : Option Nat) (s t : State) : Prop where
  hobs : t.hobs = s.hobs
  preloads : ∀ c, (t.core c).preload = (s.core c).preload ∨ (t.core c).preload = v

theorem PreloadFrame.trans {v : Option Nat} (h : PreloadFrame v s t) (k : PreloadFrame v t u) : PreloadFrame v s u := by
  refine ⟨k.hobs.trans h.hobs, fun c => ?_⟩
  rcases k.preloads c with same | now
  · exact (h.preloads c).imp same.trans same.trans
  · exact .inr now

theorem PreloadFrame.refl (v : Option Nat) (s : State) : PreloadFrame v s s := ⟨rfl, fun _ => .inl rfl⟩

theorem preloadCore_frame (s : State) (c : Nat) (v : Option Nat) : PreloadFrame v s (s.preloadCore c v) ∧ ((s.preloadCore c v).core c).preload = v := by
  obtain ⟨w, f, e⟩ := preloadCore_shape s c v
  rw [e]
  refine ⟨⟨f.hobs, fun d => ?_⟩, by rw [State.core_updCore_self]⟩
  by_cases same : d = c
  · subst same
    exact .inr (by rw [State.core_updCore_self])
  · exact .inl (by rw [State.core_updCore_ne _ _ same, f.core])

theorem preload_frame (s : State) (l : List Nat) (v : Option Nat) : PreloadFrame v s (s.preload l v) :=
  List.foldlRecOn l _ (motive := PreloadFrame v s) (.refl v s) fun t h c _ => by
    split
    · exact h
    · exact h.trans (preloadCore_frame ..).1

/-- A core whose hob does not relock holds the virtual device then. -/
theorem preload_loads {l : List Nat} {c : Nat} (v : Option Nat) (listed : c ∈ l) (awake : s.asleep c = false) : ((s.preload l v).core c).preload = v := by
  obtain ⟨l₁, l₂, rfl⟩ := List.append_of_mem listed
  rw [State.preload, List.foldl_append, List.foldl_cons]
  have before := preload_frame s l₁ v
  have awake' : (s.preload l₁ v).asleep c = false := by rw [State.asleep, State.hob, before.hobs]; exact awake
  have at_ : ((if ((s.preload l₁ v).core c).preload == v || (s.preload l₁ v).asleep c then s.preload l₁ v else (s.preload l₁ v).preloadCore c v).core c).preload = v := by
    split
    · next same => simpa [awake'] using same
    · exact (preloadCore_frame ..).2
  exact ((preload_frame _ l₂ v).preloads c).elim (fun same => same.trans at_) (fun now => now)

/-! ## SHADOW_EXCHANGE (R127) -/

/-- The outgoing teams that a relock had held halt. -/
def State.haltAll (s : State) (p cur cl : Nat) (l : List (Nat × Choice)) : State :=
  l.foldl (fun s e => if e.1 == cl then s.applyChoice (s.halting p cur cl) e.2 else s) s

section
variable {p cur cl : Nat} {l : List (Nat × Choice)}

theorem haltAll_none (none_ : s.outgoing p cur cl = []) : s.haltAll p cur cl l = s :=
  List.foldlRecOn l _ (motive := fun t => t = s) rfl fun t h e _ => by
    rw [h, State.halting, none_, List.filter_nil, applyChoice_nil, ite_self]

theorem haltAll_drain (drain : ∀ e ∈ l, e.1 = cl → e.2 = .drain) : s.haltAll p cur cl l = s :=
  List.foldlRecOn l _ (motive := fun t => t = s) rfl fun t h e listed => by
    rw [h]
    by_cases its : e.1 = cl
    · rw [drain e listed its]
      exact ite_self _
    · exact if_neg (by simpa using its)

theorem haltAll_saves (run : s.running = true) (free : s.choiceHeld cl = false) (chose : ∃ e ∈ l, e.1 = cl) (save : ∀ e ∈ l, e.1 = cl → e.2 = .save) :
    HaltingSaved s (s.haltAll p cur cl l) p cur cl := by
  induction l with
  | nil => simp at chose
  | cons e l ih =>
    rw [State.haltAll, List.foldl_cons]
    by_cases its : e.1 = cl
    · rw [if_pos (by simpa using its), save e (.head _) its]
      refine (applyChoice_saves free run (.inl rfl) rfl rfl).stay ?_
      refine List.foldlRecOn l _ (motive := SaveFrame _) (.refl _) fun t h d listed => ?_
      by_cases its' : d.1 = cl
      · rw [if_pos (by simpa using its'), save d (.tail _ listed) its']
        exact h.applySave
      · rw [if_neg (by simpa using its')]
        exact h
    · rw [if_neg (by simpa using its)]
      exact ih (by simpa [its] using chose) fun d listed => save d (.tail _ listed)

end

/-- The exchange of a cluster's arrays. -/
def State.exchanged (s : State) (p cl : Nat) (x : Part) : State :=
  (s.preload ((List.range 48).map (cl * 48 + ·)) none).updPart p (fun y => { y with slice := { y.slice with
    exchanged := y.slice.exchanged ++ [cl]
    late := if x.slice.stop + State.switchTicks x < (s.preload ((List.range 48).map (cl * 48 + ·)) none).reft then y.slice.late ++ [cl] else y.slice.late } })

theorem SaveFrame.updPart {p : Nat} {f : Part → Part} (h : SaveFrame s t) : SaveFrame s (t.updPart p f) := h.frame

theorem SaveFrame.exchanged {p cl : Nat} {x : Part} (h : SaveFrame s t) : SaveFrame s (t.exchanged p cl x) :=
  .updPart (h.stay (StayFrame.refl t).preload)

section
variable {cl : Fin 8} {p cur : Nat} (owner : s.ownerOf cl.val = some p) (some_ : (s.part p).slice.cur = some cur)
  (switching : (s.part p).slice.switching = true) (run : s.running = true) (free : s.choiceHeld cl.val = false)
  (first : cl.val ∉ (s.part p).slice.exchanged) (chose : ∃ e ∈ (s.part p).slice.choices, e.1 = cl.val)
include owner some_ switching run free first chose

theorem execShadowExchange_eq : let v := s.haltAll p cur cl.val (s.part p).slice.choices
    execShadowExchange cl s = if !(v.outgoing p cur cl.val).isEmpty || v.haltHeld cl.val then .next (v.soon (.shadowExchange cl))
      else if (s.part p).slice.next.isSome && ((List.range 48).map (cl.val * 48 + ·)).any (fun c => (v.core c).preload != (s.part p).slice.next) then
        .next ((v.preload ((List.range 48).map (cl.val * 48 + ·)) (s.part p).slice.next).soon (.shadowExchange cl))
      else .next (if (v.exchanged p cl.val (s.part p)).due (.switchComplete (Fin.ofNat 8 p)) then v.exchanged p cl.val (s.part p)
        else (v.exchanged p cl.val (s.part p)).atTick (v.exchanged p cl.val (s.part p)).reft (.switchComplete (Fin.ofNat 8 p))) := by
  have some' : (s.part p).slice.choices.any (fun e => e.1 == cl.val) = true := by simpa using chose
  intro v
  unfold execShadowExchange
  rw [owner]
  dsimp only
  rw [some_]
  dsimp only
  refine (if_neg (by simp [switching, run, some', first])).trans ?_
  rw [if_neg (show ¬ s.choiceHeld cl.val = true by simp [free])]
  rfl

/-- A cluster that drains looks again while teams are left. -/
theorem execShadowExchange_drains (some' : s.outgoing p cur cl.val ≠ []) (drain : ∀ e ∈ (s.part p).slice.choices, e.1 = cl.val → e.2 = .drain) :
    execShadowExchange cl s = .next (s.soon (.shadowExchange cl)) := by
  rw [execShadowExchange_eq owner some_ switching run free first chose, haltAll_drain drain]
  exact if_pos (by simp [some'])

/-- A cluster that saves has saved what can halt, however far the exchange comes. -/
theorem execShadowExchange_saves (save : ∀ e ∈ (s.part p).slice.choices, e.1 = cl.val → e.2 = .save) :
    ∃ t : State, execShadowExchange cl s = .next t ∧ HaltingSaved s t p cur cl.val := by
  have saved := haltAll_saves (cur := cur) (p := p) run free chose save
  rw [execShadowExchange_eq owner some_ switching run free first chose]
  generalize s.haltAll p cur cl.val (s.part p).slice.choices = v at saved ⊢
  have f : SaveFrame v v := .refl v
  have exchanged : SaveFrame v (v.exchanged p cl.val (s.part p)) := f.exchanged
  split
  · exact ⟨_, rfl, saved.stay (f.stay (StayFrame.refl v).soon)⟩
  split
  · exact ⟨_, rfl, saved.stay (f.stay (StayFrame.refl v).preload.soon)⟩
  · exact ⟨_, rfl, saved.stay (.ite exchanged (exchanged.stay (StayFrame.refl _).atTick))⟩

section
variable (none_ : s.outgoing p cur cl.val = []) (settled : s.haltHeld cl.val = false)
include none_ settled

theorem execShadowExchange_empty : execShadowExchange cl s =
      if (s.part p).slice.next.isSome && ((List.range 48).map (cl.val * 48 + ·)).any (fun c => (s.core c).preload != (s.part p).slice.next) then
        .next ((s.preload ((List.range 48).map (cl.val * 48 + ·)) (s.part p).slice.next).soon (.shadowExchange cl))
      else .next (if (s.exchanged p cl.val (s.part p)).due (.switchComplete (Fin.ofNat 8 p)) then s.exchanged p cl.val (s.part p)
        else (s.exchanged p cl.val (s.part p)).atTick (s.exchanged p cl.val (s.part p)).reft (.switchComplete (Fin.ofNat 8 p))) := by
  rw [execShadowExchange_eq owner some_ switching run free first chose, haltAll_none none_]
  exact if_neg (by simp [none_, settled])

end
end

/-- Where no relock holds the halt of a cluster, none of its cores is asleep. -/
theorem awake_of_settled {cl i : Nat} (settled : s.haltHeld cl = false) (hi : i < 48) : s.asleep (cl * 48 + i) = false := by
  simp only [State.haltHeld, Bool.or_eq_false_iff, List.any_eq_false, List.mem_range] at settled
  have hob : hobOf (cl * 48 + i) = cl * 8 + i / 6 := by unfold hobOf; omega
  rw [State.asleep, hob]
  simpa using settled.2 (i / 6) (by omega)

/-- Every core of a cluster holds a virtual device in its shadow array. -/
def State.loaded (s : State) (cl : Nat) (v : Option Nat) : Prop := ∀ i, i < 48 → (s.core (cl * 48 + i)).preload = v

theorem State.loaded.congr {cl : Nat} {v : Option Nat} (h : s.loaded cl v) (same : t.cores = s.cores) : t.loaded cl v :=
  fun i hi => (congrArg (·.preload) (core_congr same _)).trans (h i hi)

theorem State.loaded.atTick {cl n : Nat} {v : Option Nat} {i : Instr} (h : s.loaded cl v) : (s.atTick n i).loaded cl v := h.congr rfl

theorem State.loaded.soon {cl : Nat} {v : Option Nat} {i : Instr} (h : s.loaded cl v) : (s.soon i).loaded cl v := h.congr rfl

theorem State.loaded.updPart {cl p : Nat} {v : Option Nat} {f : Part → Part} (h : s.loaded cl v) : (s.updPart p f).loaded cl v := h.congr rfl

theorem loaded_iff {cl : Nat} {v : Option Nat} : s.loaded cl v ↔ ((List.range 48).map (cl * 48 + ·)).any (fun c => (s.core c).preload != v) = false := by
  simp only [State.loaded, List.any_map, List.any_eq_false, List.mem_range, Function.comp_apply, bne_iff_ne, ne_eq, not_not]

theorem loaded_preload {cl : Nat} (settled : s.haltHeld cl = false) (v : Option Nat) : (s.preload ((List.range 48).map (cl * 48 + ·)) v).loaded cl v :=
  fun i hi => preload_loads v (List.mem_map.2 ⟨i, List.mem_range.2 hi, rfl⟩) (awake_of_settled settled hi)

section
variable {cl : Fin 8} {p cur : Nat} (owner : s.ownerOf cl.val = some p) (some_ : (s.part p).slice.cur = some cur)
  (switching : (s.part p).slice.switching = true) (run : s.running = true) (free : s.choiceHeld cl.val = false)
  (first : cl.val ∉ (s.part p).slice.exchanged) (chose : ∃ e ∈ (s.part p).slice.choices, e.1 = cl.val)
  (none_ : s.outgoing p cur cl.val = []) (settled : s.haltHeld cl.val = false)
include owner some_ switching run free first chose none_ settled

/-- The arrays exchange where the incoming context is loaded. -/
theorem execShadowExchange_exchanges (ready : (s.part p).slice.next = none ∨ s.loaded cl.val (s.part p).slice.next) : ∃ t : State,
    execShadowExchange cl s = .next t ∧ t.due (.switchComplete (Fin.ofNat 8 p)) = true
      ∧ (t.part p).slice.exchanged = (s.part p).slice.exchanged ++ [cl.val] ∧ t.loaded cl.val none := by
  have cond : ((s.part p).slice.next.isSome && ((List.range 48).map (cl.val * 48 + ·)).any (fun c => (s.core c).preload != (s.part p).slice.next)) = false := by
    rcases ready with none' | loaded
    · rw [none']
      rfl
    · rw [loaded_iff.1 loaded, Bool.and_false]
  have slice : ((s.exchanged p cl.val (s.part p)).part p).slice.exchanged = (s.part p).slice.exchanged ++ [cl.val] := by
    rw [State.exchanged, State.part_updPart_self]
    exact congrArg (fun x : Slice => x.exchanged ++ [cl.val]) ((StayFrame.refl s).preload.slices p)
  have loaded : (s.exchanged p cl.val (s.part p)).loaded cl.val none := (loaded_preload settled none).updPart
  rw [execShadowExchange_empty owner some_ switching run free first chose none_ settled, cond]
  generalize s.exchanged p cl.val (s.part p) = w at slice loaded ⊢
  refine ⟨_, if_neg Bool.false_ne_true, ?_⟩
  split
  · next due => exact ⟨due, slice, loaded⟩
  · exact ⟨due_atTick_self .., slice, loaded.atTick⟩

/-- Else the shadow arrays are loaded first. -/
theorem execShadowExchange_preloads (some' : (s.part p).slice.next ≠ none) (unready : ¬ s.loaded cl.val (s.part p).slice.next) : ∃ t : State,
    execShadowExchange cl s = .next t ∧ t.due (.shadowExchange cl) = true ∧ (t.part p).slice.exchanged = (s.part p).slice.exchanged
      ∧ t.loaded cl.val (s.part p).slice.next := by
  have cond : ((s.part p).slice.next.isSome && ((List.range 48).map (cl.val * 48 + ·)).any (fun c => (s.core c).preload != (s.part p).slice.next)) = true := by
    rw [Bool.and_eq_true, Option.isSome_iff_ne_none]
    exact ⟨some', by simpa [loaded_iff] using unready⟩
  rw [execShadowExchange_empty owner some_ switching run free first chose none_ settled, cond]
  exact ⟨_, if_pos rfl, due_soon_self .., congrArg (·.exchanged) ((StayFrame.refl s).preload.soon.slices p), (loaded_preload settled _).soon⟩

end

/-! ## SWITCH_COMPLETE (R128, R129) -/

theorem part_gainWork (s : State) (p q : Nat) : (s.gainWork p).part q = s.part q :=
  congrArg (·.part q) (KickFrame.refl s).gainWork.frame

section
variable {p : Fin 8} {cur : Nat} (some_ : (s.part p.val).slice.cur = some cur) (switching : (s.part p.val).slice.switching = true) (run : s.running = true)
  (all : ∀ c ∈ s.clustersOf p.val, c ∈ (s.part p.val).slice.exchanged)

/-- The ticks beyond the budget are charged. -/
def State.overrunCharged (s : State) (p cur : Nat) : State :=
  let excess := s.reft - ((s.part p).slice.stop + State.switchTicks (s.part p))
  if excess == 0 then s else (s.updVd cur (fun d => { d with charge := excess })).logged (.overrun p cur excess (s.part p).slice.late)

theorem overrunCharged_reft (s : State) (p cur : Nat) : (s.overrunCharged p cur).reft = s.reft := by
  unfold State.overrunCharged
  extract_lets excess
  split <;> rfl

theorem overrunCharged_charge {p : Nat} (over_ : (s.part p).slice.stop + State.switchTicks (s.part p) < s.reft) :
    ((s.overrunCharged p cur).vd cur).charge = s.reft - ((s.part p).slice.stop + State.switchTicks (s.part p)) := by
  rw [State.overrunCharged, if_neg (by simp; omega)]
  exact congrArg (·.charge) (State.vd_updVd_self s cur fun d => { d with charge := s.reft - ((s.part p).slice.stop + State.switchTicks (s.part p)) })

include some_ switching run all

theorem execSwitchComplete_next {v : Nat} (next_ : (s.part p.val).slice.next = some v) :
    execSwitchComplete p s = .next ((s.overrunCharged p.val cur).startSlice p.val v) := by
  unfold execSwitchComplete
  dsimp only
  rw [some_]
  dsimp only
  rw [if_neg (by simpa [switching, run] using all), next_]
  rfl

theorem execSwitchComplete_none (next_ : (s.part p.val).slice.next = none) : execSwitchComplete p s =
    .next (((s.overrunCharged p.val cur).updPart p.val (fun x => { x with slice := { Slice.reset with start := x.slice.start } })).gainWork p.val) := by
  unfold execSwitchComplete
  dsimp only
  rw [some_]
  dsimp only
  rw [if_neg (by simpa [switching, run] using all), next_]
  rfl

theorem execSwitchComplete_starts {v : Nat} (next_ : (s.part p.val).slice.next = some v) : ∃ t : State, execSwitchComplete p s = .next t
    ∧ (t.part p.val).slice.cur = some v ∧ (t.part p.val).slice.start = s.reft
    ∧ (v ≠ cur → (s.part p.val).slice.stop + State.switchTicks (s.part p.val) < s.reft →
      (t.vd cur).charge = s.reft - ((s.part p.val).slice.stop + State.switchTicks (s.part p.val))) := by
  refine ⟨_, execSwitchComplete_next some_ switching run all next_, ?_⟩
  obtain ⟨cur', start, -⟩ := startSlice_starts (s.overrunCharged p.val cur) p v
  refine ⟨cur', start.trans (overrunCharged_reft ..), fun other late => ?_⟩
  rw [charge_startSlice_ne _ p (Ne.symm other), overrunCharged_charge late]

theorem execSwitchComplete_idles (next_ : (s.part p.val).slice.next = none) : ∃ t : State, execSwitchComplete p s = .next t
    ∧ (t.part p.val).slice.cur = none := by
  refine ⟨_, execSwitchComplete_none some_ switching run all next_, ?_⟩
  rw [part_gainWork, State.part_updPart_self]
  rfl

end

end Sys2Proof.Machine
end

section
/-!
SUPPORT. Moves of a team to another core of its cluster (O59; R131, R132): its begin, its end at the target or where it was, and the end of the forwarding.
-/

namespace Sys2Proof.Machine

/- Elaborated one after another: at one thread for each of so many short theorems, the stacks together would pass the memory limit. -/
set_option Elab.async false

variable {s t u : State}

/-! ## The begin of a move (R131) -/

theorem moveFit_of_mayMove {j target : Nat} {k : Team} (may : s.mayMove j k target = true) : ∃ f, s.moveFit j k target = some f :=
  Option.isSome_iff_exists.1 (Bool.and_eq_true_iff.1 may).2

section
variable {team target : Nat} {k : Team} (there : Tbl.find s.teams team = some k)
include there

theorem execThermalMigration_stays (may : s.mayMove team k target = false) : execThermalMigration team target s = .next s := by
  unfold execThermalMigration
  rw [there]
  dsimp only
  rw [may]
  rfl

theorem execThermalMigration_begins (may : s.mayMove team k target = true) : ∃ t : State, execThermalMigration team target s = .next t
    ∧ Tbl.find t.teams team = some { k with loc := .moving target } ∧ t.due (.migrationComplete team) = true := by
  obtain ⟨f, fits⟩ := moveFit_of_mayMove may
  unfold execThermalMigration
  rw [there]
  dsimp only
  rw [may, fits, if_neg (by simp)]
  dsimp only
  refine ⟨_, rfl, ?_, due_atTick_self ..⟩
  refine List.foldlRecOn _ _ (motive := fun t : State => Tbl.find t.teams team = some { k with loc := .moving target }) ?_ fun _ h _ _ => h
  rw [State.updTeam_find_self]
  exact congrArg (Option.map _) there

end

/-! ## The end of a move (R132) -/

/-- A move first leaves every team in its seat; the old core forwards from then on; the team is marked as resident on its target; and every team keeps
its seat until the move is over. -/
theorem arrive_shape (s : State) (j : Nat) (k : Team) (target : Nat) (g : Grid) (f : Fit) : ∃ (v w x : State) (m : Team → Team) (n : Nat),
    StayFrame s v ∧ n = s.reft ∧ StayFrame (v.updCore k.core (fun c => { c with forwards := c.forwards ++ [⟨k.start, k.start + g.lrec.bytes, target, n + 64000⟩] })) w
      ∧ (∀ y, (m y).core = target ∧ (m y).loc = .resident ∧ (m y).start = y.start) ∧ StayFrame (w.updTeam j m) x
      ∧ StayFrame (x.after 64000 (.forwardingExpiry k.core)) (s.arrive j k target g f) := by
  unfold State.arrive
  extract_lets _ s0 _ _ _ _ s1 s2 _ s3 s4 s5 s6 s7 s8 s9 s10
  have h0 : StayFrame s s0 := (StayFrame.refl s).spillAll.homeAll.takePcs.notComing
  have h1 : StayFrame s s1 := h0.foldl fun _ _ h => h.updWave
  have h2 : StayFrame s s2 := h1.freshI.raiseCarve
  have h6 : StayFrame s3 s6 := (StayFrame.refl s3).updCore.dropL1.noKeep.dropReqs
  have h9 : StayFrame s7 s9 := (StayFrame.refl s7).tilesBack.givePcs.fileAgain.foldl fun _ _ h => h.updJob
  have h10 : StayFrame s7 s10 := h9.foldl fun _ _ h => .ite h h.waveBack
  refine ⟨_, s6, s10, _, s2.reft, h2.carryOver, h2.reft, h6, ?_, h10, (StayFrame.refl _).kickTeam.noteRest.throttleMoved.boundary.freed⟩
  exact fun _ => ⟨rfl, rfl, rfl⟩

section
variable {team target : Nat} {k : Team} {g : Grid} (there : Tbl.find s.teams team = some k) (launch : Tbl.find s.grids k.grid = some g)
  (moving : k.loc = .moving target) (run : s.running = true) (old : s.asleep k.core = false) (new : s.asleep target = false)

/-- A team whose move ends is resident again before anything else happens. -/
def State.moveEnded (s : State) (team : Nat) : State := s.updTeam team (fun k => { k with loc := .resident })

include there in
theorem find_moveEnded : Tbl.find (s.moveEnded team).teams team = some { k with loc := .resident } := by
  rw [State.moveEnded, State.updTeam_find_self]
  exact congrArg (Option.map _) there

section
include there launch moving run old new

theorem execMigrationComplete_none (none_ : (s.moveEnded team).moveFit team k target = none) : execMigrationComplete team s =
    .next ((((((s.moveEnded team).jobsOf team).foldl (fun (s : State) (e : Nat × Job) => s.updJob e.1 (fun j => { j with paused := false }))
      (s.moveEnded team)).kickTeam team).startClaims k.core).startClaims target) := by
  rw [State.moveEnded] at none_ ⊢
  unfold execMigrationComplete
  rw [there]
  dsimp only
  rw [moving, launch]
  dsimp only
  rw [if_neg (by simp [run]), if_neg (by simp [old]), if_neg (by simp [new]), none_]

theorem execMigrationComplete_some {f : Fit} (fits : (s.moveEnded team).moveFit team k target = some f) : execMigrationComplete team s =
    .next ((((s.moveEnded team).arrive team k target g f).startClaims k.core).startClaims target) := by
  rw [State.moveEnded] at fits ⊢
  unfold execMigrationComplete
  rw [there]
  dsimp only
  rw [moving, launch]
  dsimp only
  rw [if_neg (by simp [run]), if_neg (by simp [old]), if_neg (by simp [new]), fits]

/-- A team that no longer fits stays where it is. -/
theorem execMigrationComplete_stays (none_ : (s.moveEnded team).moveFit team k target = none) : ∃ (t : State) (y : Team), execMigrationComplete team s = .next t
    ∧ Tbl.find t.teams team = some y ∧ y.core = k.core ∧ y.loc = .resident ∧ y.start = k.start := by
  have jobs : StayFrame (s.moveEnded team) (((s.moveEnded team).jobsOf team).foldl (fun (s : State) (e : Nat × Job) =>
      s.updJob e.1 (fun j => { j with paused := false })) (s.moveEnded team)) := (StayFrame.refl _).foldl fun _ _ h => h.updJob
  obtain ⟨y, found, seat⟩ := jobs.kickTeam.startClaims.startClaims.find (find_moveEnded there)
  exact ⟨_, y, execMigrationComplete_none there launch moving run old new none_, found, congrArg (·.2.1) seat, congrArg (·.2.2.2.2.1) seat,
    congrArg (·.2.2.1) seat⟩

end

/-- A team that moves is on its target then, at its own offset. -/
theorem arrive_team {j target : Nat} {k x : Team} {g : Grid} {f : Fit} (there : Tbl.find s.teams j = some x) :
    ∃ y, Tbl.find (s.arrive j k target g f).teams j = some y ∧ y.core = target ∧ y.loc = .resident ∧ y.start = x.start := by
  obtain ⟨v, w, z, m, n, before, -, held, marks, after, last⟩ := arrive_shape s j k target g f
  obtain ⟨a, foundA, seatA⟩ := before.find there
  obtain ⟨b, foundB, seatB⟩ := held.find (id := j) (k := a) foundA
  have marked : Tbl.find (w.updTeam j m).teams j = some (m b) := by rw [State.updTeam_find_self, foundB, Option.map_some]
  obtain ⟨y, found, seat⟩ := (after.after.trans last).find marked
  obtain ⟨core, loc, start⟩ := marks b
  refine ⟨y, found, Eq.trans (congrArg (·.2.1) seat) core, Eq.trans (congrArg (·.2.2.2.2.1) seat) loc, Eq.trans (congrArg (·.2.2.1) seat) (start.trans ?_)⟩
  exact congrArg (·.2.2.1) (seatB.trans seatA)

/-- The core that it has left forwards for 64 µs. -/
theorem arrive_forwards (s : State) (j : Nat) (k : Team) (target : Nat) (g : Grid) (f : Fit) :
    (s.arrive j k target g f).due (.forwardingExpiry k.core) = true
      ∧ ⟨k.start, k.start + g.lrec.bytes, target, s.reft + 64000⟩ ∈ ((s.arrive j k target g f).core k.core).forwards := by
  obtain ⟨v, w, z, m, n, before, rfl, held, -, after, last⟩ := arrive_shape s j k target g f
  refine ⟨last.rows _ rfl (due_atTick_self ..), ?_⟩
  have same : ((s.arrive j k target g f).core k.core).forwards = (w.core k.core).forwards := (after.after.trans last).forwards k.core
  rw [same, held.forwards, State.core_updCore_self]
  exact List.mem_append_right _ (.head _)

include there launch moving run old new

theorem execMigrationComplete_moves {f : Fit} (fits : (s.moveEnded team).moveFit team k target = some f) :
    ∃ (t : State) (y : Team), execMigrationComplete team s = .next t ∧ Tbl.find t.teams team = some y ∧ y.core = target ∧ y.loc = .resident ∧ y.start = k.start
      ∧ t.due (.forwardingExpiry k.core) = true
      ∧ ∃ e ∈ (t.core k.core).forwards, e.lo = k.start ∧ e.hi = k.start + g.lrec.bytes ∧ e.till = s.reft + 64000 := by
  obtain ⟨x, foundX, core, loc, start⟩ := arrive_team (k := k) (target := target) (g := g) (f := f) (find_moveEnded there)
  obtain ⟨due, forwards⟩ := arrive_forwards (s.moveEnded team) team k target g f
  have claims (v : State) : StayFrame v ((v.startClaims k.core).startClaims target) := (StayFrame.refl v).startClaims.startClaims
  obtain ⟨y, found, seat⟩ := (claims _).find foundX
  refine ⟨_, y, execMigrationComplete_some there launch moving run old new fits, found, Eq.trans (congrArg (·.2.1) seat) core,
    Eq.trans (congrArg (·.2.2.2.2.1) seat) loc, Eq.trans (congrArg (·.2.2.1) seat) start, (claims _).rows _ rfl due, ?_⟩
  rw [(claims _).forwards]
  exact ⟨_, forwards, rfl, rfl, rfl⟩

end

/-! ## The end of the forwarding (R132) -/

theorem execForwardingExpiry_expires (s : State) (core : Nat) : ∃ t : State, execForwardingExpiry core s = .next t
    ∧ (t.core core).forwards = (s.core core).forwards.filter (fun f => decide (s.reft < f.till)) := by
  refine ⟨_, rfl, ?_⟩
  rw [(StayFrame.refl _).lowerCarve.freed.forwards, State.core_updCore_self]

end Sys2Proof.Machine
end

section
/-!
THE PROOF OF O59: its three parts, each put together from the lemmas on the rows it speaks of.
-/

namespace Sys2Proof.Machine

/- Elaborated one after another: at one thread for each of so many short theorems, the stacks together would pass the memory limit. -/
set_option Elab.async false

variable {s t u : State}

/-- The end of a slice at which no virtual device has work. -/
theorem idle_ends {p cur : Nat} : ((∃ c ∈ u.clustersOf p, u.outgoing p cur c ≠ []) → ((u.idle p cur).part p).slice.switching = true
      ∧ ((u.idle p cur).part p).slice.next = none ∧ ∀ c ∈ u.clustersOf p, (u.idle p cur).due (.sliceEnd (Fin.ofNat 8 c)) = true)
    ∧ ((∀ c ∈ u.clustersOf p, u.outgoing p cur c = []) → u.idle p cur = u.updPart p (fun y => { y with slice := { y.slice with cur := none } })) := by
  refine ⟨fun some_ => ?_, idle_stops⟩
  rw [idle_switches some_, slice_beginSwitch]
  exact ⟨rfl, rfl, fun c there => due_beginSwitch none there⟩

/-- The end of a slice at which another virtual device is picked. -/
theorem beginSwitch_picked {p v : Nat} {o : Option Nat} (picked : (s.takeSched p).pickVd p = (o, u)) : ((u.beginSwitch p (some v)).part p).slice.switching = true
    ∧ (u.beginSwitch p (some v)).teams = s.teams ∧ (u.beginSwitch p (some v)).waves = s.waves
    ∧ ((u.beginSwitch p (some v)).part p).slice.next = some v ∧ ∀ c ∈ s.clustersOf p, (u.beginSwitch p (some v)).due (.sliceEnd (Fin.ofNat 8 c)) = true := by
  have f : PickFrame s (u.beginSwitch p (some v)) := (picked_frame picked).trans (beginSwitch_frame u p (some v))
  rw [slice_beginSwitch]
  refine ⟨rfl, f.teams, f.waves, rfl, fun c there => due_beginSwitch (some v) ?_⟩
  rw [(picked_frame picked).clustersOf]
  exact there

/-- Settles O59: the end of a slice, a yield request, each row of a switch and each row of a move by one lemma for each way in which it can end. -/
theorem slicesAndMoves : Obligations.SlicesAndMoves := by
  refine ⟨fun s u p v cur => ?_, fun s cl p cur owner => ?_, fun s team target core k g there launch => ?_⟩
  · intro x idle pick sameCycle budget
    have open_iff (some_ : x.slice.cur = some cur) : s.yieldOpen p.val = true ↔ sameCycle := yieldOpen_iff some_
    refine ⟨fun a t => pickVd_eligible, startSlice_starts s p v, fun ⟨present, going, still, run⟩ none_ => ?_, fun ⟨present, going, still, run⟩ some_ before => ?_,
      fun ⟨present, going, still, run⟩ some_ late held => ?_, fun ⟨present, going, still, run⟩ some_ late past => ?_, execYieldRequest_requests,
      fun some_ switching run all => ?_⟩
    · exact ⟨execSliceBoundary_idles present going still run none_, execSliceBoundary_starts present going still run none_⟩
    · exact execSliceBoundary_early present going still run some_ before
    · exact execSliceBoundary_open present going still run some_ late ((open_iff some_).2 held)
    · have closed : s.yieldOpen p.val = false := Bool.eq_false_iff.2 fun h => past ((open_iff some_).1 h)
      exact ⟨fun picked => ⟨_, execSliceBoundary_none present going still run some_ late closed picked, idle_ends⟩,
        execSliceBoundary_again present going still run some_ late closed,
        fun picked other => ⟨_, execSliceBoundary_switches present going still run some_ late closed picked other, beginSwitch_picked picked⟩⟩
    · exact ⟨fun v next_ => execSwitchComplete_starts some_ switching run all next_, execSwitchComplete_idles some_ switching run all⟩
  · intro x switching free saved chose none_ loaded budget choice
    refine ⟨fun ⟨some_, sw, run⟩ free unchosen => execSliceEnd_chooses owner some_ sw run free unchosen, ?_,
      fun ⟨some_, sw, run⟩ free drains late => execDrainDeadline_saves owner some_ sw run free drains late, fun ⟨some_, sw, run⟩ free first => ⟨?_, ?_, ?_⟩⟩
    · exact ⟨sliceChoice_drain, sliceChoice_save, sliceChoice_discard, sliceChoice_overrun⟩
    · exact fun none_ settled chose => ⟨execShadowExchange_exchanges owner some_ sw run free first chose none_ settled,
        execShadowExchange_preloads owner some_ sw run free first chose none_ settled⟩
    · exact fun some' ⟨chose, drain⟩ => execShadowExchange_drains owner some_ sw run free first chose some' drain
    · exact fun ⟨chose, save⟩ => execShadowExchange_saves owner some_ sw run free first chose save
  · refine ⟨execThermalMigration_begins there, execThermalMigration_stays there, fun moving run old new => ⟨?_, fun f fits _ => ?_⟩,
      execForwardingExpiry_expires s core⟩
    · exact execMigrationComplete_stays there launch moving run old new
    · exact execMigrationComplete_moves there launch moving run old new fits

end Sys2Proof.Machine
end

section
/-!
THE PROOF OF O43: EXIT outside a gate is a lane instruction that ends threads, and the retirement of waves comes after it.
-/

namespace Sys2Proof.Machine

/- Elaborated one after another: at one thread for each of so many short theorems, the stacks together would pass the memory limit. -/
set_option Elab.async false

variable {s : State} {g : Group} {w : Wave}

/-! ## EXIT (R149, R237) -/

/-- A lane instruction that completes answers what it makes of its group. -/
theorem laneGroup_done {op : LaneOp} {f : Nat → Wave → Nat → LaneRes} {dst : List Nat} (ready : LaneReady s g op.regs dst)
    (clean : ∀ wid w l, (wid, l) ∈ g.mem → Tbl.find s.waves wid = some w → w.guardOn l = true → LaneClean dst w (f wid w l)) :
    LaneDone s (s.laneGroup op f g) g op.size f := by
  obtain ⟨t, answer, done⟩ := laneStep_done op f s g dst ready clean
  rw [laneStep, ready.1] at answer
  cases answer
  exact done

/-- Two instructions that do the same in the threads of the group leave the same. -/
theorem LaneDone.congr {t : State} {size : Nat} {e f : Nat → Wave → Nat → LaneRes} (done : LaneDone s t g size e)
    (same : ∀ wid w l, (wid, l) ∈ g.mem → Tbl.find s.waves wid = some w → e wid w = f wid w) : LaneDone s t g size f := by
  refine ⟨done.frame, done.others, fun wid w l member here => ?_⟩
  rw [← same wid w l member here]
  exact done.mine wid w l member here

theorem exitRes_outside (outside : w.gates = []) : exitRes w = { exits := true } := by
  simp [exitRes, Wave.depth, outside]

/-- EXIT raises no cause outside a gate, and writes no register. -/
theorem exitRes_clean (outside : w.gates = []) : LaneClean [] w (exitRes w) := by
  rw [exitRes_outside outside]
  refine ⟨rfl, by simp, by simp, ?_⟩
  simp [flagsTrap]

/-! ## The retirement of a wave (R149, R319) -/

theorem retired_iff : w.retired = true ↔ ∀ t ∈ w.threads, t.exited = true := by
  simp [Wave.retired]

theorem waveRetired_runs {wid : Nat} (here : Tbl.find s.waves wid = some w) (runs : ∃ t ∈ w.threads, t.exited = false) : s.waveRetired wid = s := by
  have stays : ¬ w.retired = true := by
    obtain ⟨t, member, going⟩ := runs
    intro ended
    rw [retired_iff.1 ended t member] at going
    cases going
  simp only [State.waveRetired, here, if_neg stays]

theorem waveRetired_retires {wid : Nat} (here : Tbl.find s.waves wid = some w) (ended : ∀ t ∈ w.threads, t.exited = true) : s.waveRetired wid =
    (((((s.passThrottle w.team wid).checkPhase w.team).freed (s.placeOf w).1).lendLater (s.placeOf w).1).rested w.team).checkTeam w.team := by
  simp only [State.waveRetired, here, if_pos (retired_iff.2 ended)]

/-- Settles O43: outside a gate `exitRes` raises no cause, so that the group is left as after a lane instruction; then each wave retires by the two lemmas on
`waveRetired`. -/
theorem threadExit : Obligations.ThreadExit := by
  intro s g ready outside
  have exits := laneGroup_done (op := ⟨[], 4⟩) (f := fun _ w _ => exitRes w) ready fun wid w l member here _ => exitRes_clean (outside (wid, l) member w here)
  refine ⟨_, exits.congr fun wid w l member here => funext fun _ => exitRes_outside (outside (wid, l) member w here), ?_, fun v wid w here => ?_⟩
  · change execExit s = _
    rw [execExit, ready.1]
  · exact ⟨waveRetired_runs here, waveRetired_retires here⟩

end Sys2Proof.Machine
end

section
/-!
THE PROOF OF O23: SRD of a number that R167 lists reads `State.srValue`, and of any other number it traps; sr.laneid is written thread by thread.
-/

namespace Sys2Proof.Machine

/- Elaborated one after another: at one thread for each of so many short theorems, the stacks together would pass the memory limit. -/
set_option Elab.async false

variable {s : State} {wid : Nat} {w : Wave} {d : SReg} {t : Team} {g : Grid}

/-! ## What is read, and what traps (R167, R168, R378) -/

theorem execSrd_number {n : Fin 512} {hi : Bool} (number : n.val ≠ 0) : exec (.srd n hi d) s =
    uniStep { sdst := [d.val] } (fun s wid w => if hi then .trap 0x10 none else srdRes n.val d.val s wid w) s := by
  change execSrd n hi d s = _
  rw [execSrd, if_neg (by simpa using number)]

theorem execSrd_value {n : Fin 512} {x : Nat} (ready : UniReady s wid w [d.val] [] []) (number : n.val ≠ 0) (value : s.srValue wid w n.val = some x)
    (allowed : srPrivileged n.val = false ∨ s.privileged wid = true) {y : DWord} (bits : BitVec.ofNat 64 x = y := by rfl) :
    exec (.srd n false d) s = .next (s.updWave wid (fun _ => (w.setS d.val y).pass 4)) := by
  subst bits
  have may : (srPrivileged n.val && !s.privileged wid) = false := by
    rcases allowed with h | h <;> simp [h]
  rw [execSrd_number number, uniStep_ready ready]
  simp only [Bool.false_eq_true, if_false, srdRes, value, may, State.updWave_updWave]
  rw [State.updWave_const ready.1.1.1]

theorem execSrd_privileged {n : Fin 512} {x : Nat} (ready : UniReady s wid w [d.val] [] []) (number : n.val ≠ 0) (value : s.srValue wid w n.val = some x)
    (kept : srPrivileged n.val = true) (user : s.privileged wid = false) : UniTraps (.srd n false d) s wid w 0x11 := by
  rw [UniTraps, execSrd_number number, uniStep_ready ready]
  simp [srdRes, value, kept, user, State.uniTrap]

theorem execSrd_reserved {n : Fin 512} (ready : UniReady s wid w [d.val] [] []) (number : n.val ≠ 0) (value : s.srValue wid w n.val = none) :
    UniTraps (.srd n false d) s wid w 0x10 := by
  rw [UniTraps, execSrd_number number, uniStep_ready ready]
  simp only [Bool.false_eq_true, if_false, srdRes, value, State.uniTrap]

/-- Only sr.laneid has a half to choose. -/
theorem execSrd_half {n : Fin 512} (ready : UniReady s wid w [d.val] [] []) (number : n.val ≠ 0) : UniTraps (.srd n true d) s wid w 0x10 := by
  rw [UniTraps, execSrd_number number, uniStep_ready ready]
  rfl

/-! ## The place of a wave -/

theorem coreOf_eq (wave : Tbl.find s.waves wid = some w) (team : Tbl.find s.teams w.team = some t) : s.coreOf wid = t.core := by
  simp [State.coreOf, State.placeOf, wave, team]

theorem gridIdOf_eq (wave : Tbl.find s.waves wid = some w) (team : Tbl.find s.teams w.team = some t) : s.gridIdOf wid = t.grid := by
  simp [State.gridIdOf, wave, team]

/-! ## Numbers of special registers (R167) -/

theorem srValue_core {n x : Nat} (wave : Tbl.find s.waves wid = some w) (team : Tbl.find s.teams w.team = some t) (value : s.srCore t.core n = some x) :
    s.srValue wid w n = some x := by
  rw [State.srValue, coreOf_eq wave team, value]
  rfl

/-- What the team and the grid give. -/
theorem srValue_team (wave : Tbl.find s.waves wid = some w) (team : Tbl.find s.teams w.team = some t) (grid : Tbl.find s.grids t.grid = some g) :
    let r := g.lrec
    s.srValue wid w 0x001 = some w.w ∧ s.srValue wid w 0x002 = some (packDim (t.index % r.gx) (t.index / r.gx % r.gy) (t.index / r.gx / r.gy))
      ∧ s.srValue wid w 0x003 = some (t.grid % 2 ^ 32) ∧ s.srValue wid w 0x004 = some (packDim (r.gx - 1) (r.gy - 1) (r.gz - 1))
      ∧ s.srValue wid w 0x005 = some r.waves ∧ s.srValue wid w 0x006 = some g.depth ∧ s.srValue wid w 0x020 = some (s.tagsOf wid w)
      ∧ s.srValue wid w 0x021 = some t.stage := by
  simp only [State.srValue, State.srTeam, team, gridIdOf_eq wave team, grid]
  exact ⟨rfl, rfl, rfl, rfl, rfl, rfl, rfl, rfl⟩

/-- The numbers of the team and the grid. -/
def srTeamNumbers : List Nat := [0x001, 0x002, 0x003, 0x004, 0x005, 0x006, 0x020, 0x021]

theorem srTeam_none {n : Nat} (h : n ∉ srTeamNumbers) : s.srTeam wid w n = none := by
  unfold State.srTeam
  split
  · extract_lets
    split
    case h_9 => rfl
    all_goals exact absurd (by decide) h
  · rfl

theorem srValue_wave {n : Nat} (core : s.srCore (s.coreOf wid) n = none) (team : n ∉ srTeamNumbers) :
    s.srValue wid w n = s.srWave wid w n := by
  simp [State.srValue, core, srTeam_none team]

theorem srValue_inject (test : s.dev.testMode = true) : s.srValue wid w 0x1F0 = some (s.core (s.coreOf wid)).inject.toNat := by
  rw [srValue_wave rfl (by decide), State.srWave, if_pos test]

theorem srValue_inject_none (live : s.dev.testMode = false) : s.srValue wid w 0x1F0 = none := by
  rw [srValue_wave rfl (by decide), State.srWave, if_neg (by simp [live])]

/-- The numbers that R167 lists, but that of sr.laneid. -/
def srNumbers : List Nat := [0x001, 0x002, 0x003, 0x004, 0x005, 0x006, 0x008, 0x009, 0x00A, 0x00B, 0x010, 0x011, 0x012, 0x018, 0x019, 0x01A,
  0x020, 0x021, 0x028, 0x029, 0x100, 0x101, 0x102, 0x1F0]

theorem srCore_reserved {c n : Nat} (h : n ∉ srNumbers) : s.srCore c n = none := by
  unfold State.srCore
  extract_lets
  split
  case h_11 => rfl
  all_goals exact absurd (by decide) h

theorem srWave_reserved {n : Nat} (h : n ∉ srNumbers) : s.srWave wid w n = none := by
  unfold State.srWave
  split
  case h_7 => rfl
  all_goals exact absurd (by decide) h

theorem srValue_reserved {n : Nat} (h : n ∉ srNumbers) : s.srValue wid w n = none := by
  rw [srValue_wave (srCore_reserved h), srWave_reserved h]
  exact fun member => h ((by decide : srTeamNumbers ⊆ srNumbers) member)

/-! ## Values -/

theorem packDim_bits (x y z : Nat) :
    BitVec.ofNat 64 (packDim x y z) = BitVec.ofNat 8 0 ++ BitVec.ofNat 16 z ++ BitVec.ofNat 16 y ++ BitVec.ofNat 24 x := by
  apply BitVec.eq_of_toNat_eq
  have hx := Nat.mod_lt x (Nat.two_pow_pos 24)
  have hy := Nat.mod_lt y (Nat.two_pow_pos 16)
  have hz := Nat.mod_lt z (Nat.two_pow_pos 16)
  simp only [packDim, BitVec.toNat_append, BitVec.toNat_ofNat]
  rw [← Nat.shiftLeft_add_eq_or_of_lt hz, ← Nat.shiftLeft_add_eq_or_of_lt hy, ← Nat.shiftLeft_add_eq_or_of_lt hx]
  simp only [Nat.shiftLeft_eq]
  omega

theorem chipId_bits : BitVec.ofNat 64 s.chipId = (s.dev.fabId.truncate 10).zeroExtend 64 := by
  apply BitVec.eq_of_toNat_eq
  simp [State.chipId, fieldOf, bitsOf]

theorem tagsOf_bits {r : LaunchRec} (launch : s.lrecOf wid = some r) :
    BitVec.ofNat 64 (s.tagsOf wid w) = bitsBy 64 (fun i => decide (r.tagBase ≤ i ∧ i < r.tagBase + r.tagCount) && s.tagOf w.team i == .set) := by
  simp only [State.tagsOf, launch, bitsBy, Bool.decide_and]

/-! ## sr.laneid (R148) -/

theorem mem_lanes {l : Nat} : l ∈ w.lanes ↔ (w.thread l).exited = false := by
  by_cases inside : l < w.threads.length <;> simp [Wave.lanes, Wave.thread, inside]

/-- One register, written in some lanes. -/
theorem foldl_setV {q : Nat} (hq : q < 128) (f : Nat → Word) (ls : List Nat) (w : Wave) :
    let x := ls.foldl (fun (x : Wave) l => x.setV l q (f l)) w
    x = { w with v := x.v } ∧ ∀ l r, r < 128 → x.vreg l r = if r = q ∧ l ∈ ls then f l else w.vreg l r := by
  induction ls generalizing w with
  | nil => simp
  | cons a ls ih =>
    obtain ⟨frame, value⟩ := ih (w.setV a q (f a))
    refine ⟨frame, fun l r hr => ?_⟩
    rw [List.foldl_cons, value l r hr, vreg_setV w a q (f a) l r hq hr]
    by_cases here : l = a
    · subst here
      by_cases reg : r = q <;> simp [reg]
    · simp [here]

/-- The wave with the numbers of its threads in a v register of those that have not exited. -/
def Wave.withIds (w : Wave) (s : State) (wid q : Nat) : Wave :=
  w.lanes.foldl (fun (x : Wave) l => x.setV l q (BitVec.ofNat 32 (s.laneId wid l))) w

theorem withIds_frame {q : Nat} (hq : q < 128) : w.withIds s wid q = { w with v := (w.withIds s wid q).v } := (foldl_setV hq _ w.lanes w).1

theorem vreg_withIds {l r q : Nat} (hq : q < 128) (hr : r < 128) : (w.withIds s wid q).vreg l r =
    if r = q ∧ (w.thread l).exited = false then BitVec.ofNat 32 (s.laneId wid l) else w.vreg l r := by
  simp only [Wave.withIds, (foldl_setV hq _ w.lanes w).2 l r hr, mem_lanes]

theorem execSrd_laneid {hi : Bool} (ready : UniReady s wid w [] [d.val + 64 * bnat hi] [d.val + 64 * bnat hi]) :
    exec (.srd 0 hi d) s = .next (s.updWave wid (fun _ => (w.withIds s wid (d.val + 64 * bnat hi)).pass 4)) := by
  change execSrd 0 hi d s = _
  rw [execSrd, if_pos (show ((0 : Fin 512).val == 0) = true from rfl), uniStep_ready ready]
  simp only [srdLane, State.updWave_updWave]
  rw [State.updWave_const ready.1.1.1]
  rfl

/-- Settles O23: a number that R167 lists reads what the lemmas on `srValue` say, any other has no value, and sr.laneid is written lane by lane. -/
theorem specialRegisterReads : Obligations.SpecialRegisterReads := by
  intro s wid w t g d hi team grid h r reads num dims
  refine ⟨fun ready => ?_, fun ready => ?_⟩
  · have wave := ready.1.1.1
    have core {n x : Nat} (value : s.srCore t.core n = some x) := srValue_core wave team value
    have launch : s.lrecOf wid = some g.lrec := by simp [State.lrecOf, gridIdOf_eq wave team, grid]
    obtain ⟨wv, index, id, counts, waves, depth, tags, stage⟩ := srValue_team wave team grid
    have ofWave {n : Nat} (core : s.srCore (s.coreOf wid) n = none := by rfl)
        (team : n ∉ srTeamNumbers := by decide) := srValue_wave (w := w) core team
    have read {n : Fin 512} {x : Nat} {y : DWord} (value : s.srValue wid w n.val = some x) (bits : BitVec.ofNat 64 x = y := by rfl)
        (number : n.val ≠ 0 := by decide) (plain : srPrivileged n.val = false := by decide) := execSrd_value ready number value (.inl plain) bits
    refine ⟨read wv, read index (packDim_bits ..), read id, read counts (packDim_bits ..), read waves, read depth, read (core rfl), read (core rfl),
      read (core rfl), read (core rfl) chipId_bits, read (core rfl), read (core rfl), read (core rfl), read ofWave (BitVec.ofNat_toNat ..),
      read ofWave (BitVec.ofNat_toNat ..), read ofWave (BitVec.ofNat_toNat ..), read tags (tagsOf_bits launch), read stage,
      read ofWave (BitVec.ofNat_toNat ..), read ofWave (BitVec.ofNat_toNat ..), fun system => ?_,
      fun user n listed test => ?_, fun live => execSrd_reserved ready (by decide) (srValue_inject_none live), fun n reserved => ?_,
      fun n number => execSrd_half ready (Fin.val_ne_iff.2 number)⟩
    · exact ⟨execSrd_value ready (by decide) (core rfl) (.inr system), execSrd_value ready (by decide) (core rfl) (.inr system),
        execSrd_value ready (by decide) (core rfl) (.inr system), fun test => execSrd_value ready (by decide) (srValue_inject test) (.inr system) (by
          rw [coreOf_eq wave team, BitVec.ofNat_toNat, BitVec.setWidth_eq])⟩
    · simp only [List.mem_cons, List.not_mem_nil, or_false] at listed
      rcases listed with rfl | rfl | rfl | rfl
      · exact execSrd_privileged ready (by decide) (core rfl) rfl user
      · exact execSrd_privileged ready (by decide) (core rfl) rfl user
      · exact execSrd_privileged ready (by decide) (core rfl) rfl user
      · exact execSrd_privileged ready (by decide) (srValue_inject (test rfl)) rfl user
    · have other (k : Nat) (listed : k ∈ 0 :: srNumbers) : n.val ≠ k := by
        rintro rfl
        exact reserved (Fin.ofNat_val_eq_self n ▸ (by decide : ∀ k ∈ 0 :: srNumbers, Fin.ofNat 512 k ∈ _) n.val listed)
      exact execSrd_reserved ready (other 0 (by decide)) (srValue_reserved fun member => other _ (List.mem_cons_of_mem _ member) rfl)
  · have register : d.val + 64 * bnat hi < 128 := by cases hi <;> simp [bnat] <;> omega
    refine ⟨(w.withIds s wid (d.val + 64 * bnat hi)).v, ?_, fun l q hq => ?_⟩
    · rw [← withIds_frame register]
      exact execSrd_laneid ready
    · rw [← withIds_frame register]
      exact vreg_withIds register hq

end Sys2Proof.Machine
end

section
/-!
THE PROOF OF O5: what a turn of a pipe selects is what `dispatch` runs; what the fetch of an instruction and the acceptance of its group leave; and how an
instruction whose waves have nothing else to take is a step.
-/

namespace Sys2Proof.Machine

/- Elaborated one after another: at one thread for each of so many short theorems, the stacks together would pass the memory limit. -/
set_option Elab.async false

variable {s t u : State} {g : Group}

/-! ## The threads of a lane group (R154) -/

theorem mem_readyLanes {c p : Nat} {e : Nat × Wave} {l : Nat} (member : l ∈ s.readyLanes c p e) : l ∈ e.2.lanes := by
  unfold State.readyLanes at member
  split at member <;> exact (List.mem_filter.1 member).1

theorem mem_readyThreads {c side : Nat} {r : Nat × Nat × Nat × Nat} (member : r ∈ s.readyThreads c side) :
    ∃ w, (r.1, w) ∈ s.waves ∧ w.pcOf r.2.1 = r.2.2.2 ∧ (w.thread r.2.1).exited = false := by
  obtain ⟨e, side, lanes⟩ := List.mem_flatMap.1 member
  obtain ⟨l, lane, rfl⟩ := List.mem_map.1 lanes
  exact ⟨e.2, (List.mem_filter.1 side).1, rfl, mem_lanes.1 (mem_readyLanes lane)⟩

/-- The members of a group are ready threads at its address. -/
theorem mem_groupOf {c side : Nat} {ready : List (Nat × Nat × Nat × Nat)} {e : PcEntry} {m : Nat × Nat} (member : m ∈ (s.groupOf c side ready e).mem) :
    ∃ r ∈ ready, (r.1, r.2.1) = m ∧ r.2.2.2 = e.pc := by
  unfold State.groupOf at member
  extract_lets at_ first shfl asid mem at member
  have all : ∀ m ∈ mem, ∃ r ∈ ready, (r.1, r.2.1) = m ∧ r.2.2.2 = e.pc := by
    refine List.foldlRecOn at_ _ (motive := fun l => ∀ m ∈ l, ∃ r ∈ ready, (r.1, r.2.1) = m ∧ r.2.2.2 = e.pc) (by simp) fun l before r there m member => ?_
    split at member
    · exact before m member
    · rcases List.mem_append.1 member with old | new
      · exact before m old
      · obtain ⟨listed, here⟩ := List.mem_filter.1 there
        simp only [Bool.and_eq_true, beq_iff_eq] at here
        exact ⟨r, listed, (List.mem_singleton.1 new).symm, here.2⟩
  exact all m member

theorem selectLane_group {c side : Nat} (picked : (s.selectLane c side).1 = some g) : ∃ e, g = s.groupOf c side (s.readyThreads c side) e := by
  unfold State.selectLane at picked
  extract_lets at picked
  split at picked
  · cases picked
  · exact ⟨_, (Option.some.inj picked).symm⟩

/-- Every member of the group that a lane pipe selects stands at the address of the group. -/
theorem LanePick.stands (pick : LanePick s u g) {m : Nat × Nat} (member : m ∈ g.mem) :
    ∃ w, (m.1, w) ∈ u.waves ∧ w.pcOf m.2 = g.pc ∧ (w.thread m.2).exited = false := by
  obtain ⟨-, -, picked, rfl⟩ := pick
  obtain ⟨e, rfl⟩ := selectLane_group picked
  obtain ⟨r, ready, rfl, pc⟩ := mem_groupOf member
  obtain ⟨w, here, at_, going⟩ := mem_readyThreads ready
  exact ⟨w, here, at_.trans pc, going⟩

/-! ## The fetch of an instruction (R189, R191) -/

/-- Of two states, the second has the same bytes, the same time, the same waves and the same issue counts. -/
structure FetchFrame (s t : State) : Prop where
  mem : t.mem = s.mem
  reft : t.reft = s.reft
  waves : t.waves = s.waves
  issued : ∀ c, (t.core c).issued = (s.core c).issued

namespace FetchFrame

theorem refl (s : State) : FetchFrame s s := ⟨rfl, rfl, rfl, fun _ => rfl⟩

theorem trans (h : FetchFrame s t) (k : FetchFrame t u) : FetchFrame s u :=
  ⟨k.mem.trans h.mem, k.reft.trans h.reft, k.waves.trans h.waves, fun c => (k.issued c).trans (h.issued c)⟩

theorem ite {c : Prop} [Decidable c] {a b : State} (ha : FetchFrame s a) (hb : FetchFrame s b) : FetchFrame s (if c then a else b) := by
  split <;> assumption

/-- A change of anything but what the frame speaks of. -/
theorem frame (h : FetchFrame s t) (mem : u.mem = t.mem := by rfl) (reft : u.reft = t.reft := by rfl) (waves : u.waves = t.waves := by rfl)
    (cores : u.cores = t.cores := by rfl) : FetchFrame s u :=
  h.trans ⟨mem, reft, waves, fun c => by rw [show u.core c = t.core c from congrArg (Tbl.getD · c Core.reset) cores]⟩

theorem looked (h : FetchFrame s t) (f : LookedUp t u) : FetchFrame s u :=
  h.frame (congrArg (·.mem) f.1) (congrArg (·.reft) f.1) (congrArg (·.waves) f.1) (congrArg (·.cores) f.1)

theorem updCore {c : Nat} {f : Core → Core} (h : FetchFrame s t) (hf : ∀ k, (f k).issued = k.issued := by intro _; rfl) :
    FetchFrame s (t.updCore c f) := by
  refine h.trans ⟨rfl, rfl, rfl, fun d => ?_⟩
  by_cases here : d = c
  · rw [here, State.core_updCore_self, hf]
  · rw [State.core_updCore_ne _ _ here]

theorem drawn (h : FetchFrame s t) : FetchFrame s t.drawn := h.frame

theorem withCtlb {l : Tbl (List TlbEntry)} (h : FetchFrame s t) : FetchFrame s { t.drawn with ctlb := l } := h.frame

theorem keepTlb {c p : Nat} {cls : Cls} {asid va : Nat} (h : FetchFrame s t) : FetchFrame s (t.keepTlb c p cls asid va) := by
  unfold State.keepTlb
  extract_lets _ s1
  have h1 : FetchFrame s s1 := .ite h (h.looked (walked_lookedUp ..))
  split
  · exact .ite h1 h1.updCore.withCtlb
  · exact h1

theorem fillI {c p : Nat} {cls : Cls} {asid pc : Nat} (h : FetchFrame s t) : FetchFrame s (t.fillI c p cls asid pc) := by
  unfold State.fillI
  split
  · exact h
  · refine .ite h ?_
    extract_lets s1
    have h1 : FetchFrame s s1 := h.looked (l2Touch_lookedUp ..)
    refine .ite h1.updCore ?_
    split
    · exact h1
    · exact h1.updCore.drawn

theorem fetched {c p : Nat} {cls : Cls} {asid pc n : Nat} (h : FetchFrame s t) : FetchFrame s (t.fetched c p cls asid pc n) :=
  .ite h.keepTlb.fillI.keepTlb.fillI h.keepTlb.fillI

end FetchFrame

/-! ## The acceptance of a group (R197) -/

/-- A wave whose instruction at an address is accepted as the `n`-th of its core. -/
def Wave.acceptedAt (pc n : Nat) (x : Wave) : Wave :=
  let id := if State.retried x pc then (x.pendFor pc).id else n
  let y := x.takeUp pc
  { y with
    pend := { y.pend with id := id, hold := none }
    issueId := id
    parkClk := none
    park := match x.park with | .poll _ => .no | p => p }

theorem quiet_takeUp (w : Wave) (pc : Nat) : (w.takeUp pc).quiet = w.quiet := by
  unfold Wave.takeUp
  split <;> rfl

theorem quiet_acceptedAt (w : Wave) (pc n : Nat) : (w.acceptedAt pc n).quiet = w.quiet := quiet_takeUp w pc

/-- Changes of waves that leave what issue does not change. -/
theorem foldl_updWave_quiet {f : Wave → Wave} (hf : ∀ w, (f w).quiet = w.quiet) (l : List Nat) (s : State) :
    let t := l.foldl (fun s k => s.updWave k f) s
    t = { s with waves := t.waves } ∧ ∀ k, (Tbl.find t.waves k).map Wave.quiet = (Tbl.find s.waves k).map Wave.quiet := by
  induction l generalizing s with
  | nil => exact ⟨rfl, fun _ => rfl⟩
  | cons a l ih =>
    obtain ⟨frame, waves⟩ := ih (s.updWave a f)
    refine ⟨frame, fun k => (waves k).trans ?_⟩
    by_cases here : k = a
    · subst here
      rw [State.updWave_find_self, Option.map_map, show Wave.quiet ∘ f = Wave.quiet from funext hf]
    · rw [State.updWave_find_ne s f here]

/-- Every wave of the group tries again an instruction that waited. -/
def State.allRetried (s : State) (g : Group) : Bool := g.waves.all (fun k => (Tbl.find s.waves k).any (fun x => State.retried x g.pc))

/-- The core counts an instruction that is not tried again. -/
def State.countedFor (s : State) (g : Group) : State := if s.allRetried g then s else s.counted g.core

theorem accept_eq (s : State) (g : Group) : s.accept g =
    g.waves.foldl (fun t k => t.updWave k (Wave.acceptedAt g.pc ((s.countedFor g).core g.core).issued.toNat)) { s.countedFor g with cur := some g } := rfl

theorem accept_cur (s : State) (g : Group) : (s.accept g).cur = some g := by
  rw [accept_eq, (foldl_updWave_quiet (quiet_acceptedAt · _ _) _ _).1]

theorem countedFor_fields (s : State) (g : Group) : (s.countedFor g).mem = s.mem ∧ (s.countedFor g).reft = s.reft ∧ (s.countedFor g).waves = s.waves
    ∧ ((s.countedFor g).core g.core).issued = (s.core g.core).issued + if s.allRetried g then 0 else 1 := by
  unfold State.countedFor
  split
  · exact ⟨rfl, rfl, rfl, (BitVec.add_zero _).symm⟩
  · exact ⟨rfl, rfl, rfl, congrArg Core.issued (State.core_updCore_self ..)⟩

/-- What the acceptance of a group leaves: the bytes, the time, the waves but for what issue changes, and the count of the core. -/
theorem accept_leaves (s : State) (g : Group) : (s.accept g).mem = s.mem ∧ (s.accept g).reft = s.reft
    ∧ (∀ k, (Tbl.find (s.accept g).waves k).map Wave.quiet = (Tbl.find s.waves k).map Wave.quiet)
    ∧ ((s.accept g).core g.core).issued = (s.core g.core).issued + if s.allRetried g then 0 else 1 := by
  obtain ⟨mem, reft, waves, issued⟩ := countedFor_fields s g
  obtain ⟨frame, quiet⟩ := foldl_updWave_quiet (quiet_acceptedAt · g.pc ((s.countedFor g).core g.core).issued.toNat) g.waves { s.countedFor g with cur := some g }
  rw [accept_eq]
  refine ⟨?_, ?_, fun k => (quiet k).trans (by rw [waves]), ?_⟩
  · rw [frame, mem]
  · rw [frame, reft]
  · rw [frame]
    exact issued

/-- The same once an instruction has been fetched. -/
theorem fetched_accept_leaves {c p : Nat} {cls : Cls} {asid pc n : Nat} (u : State) (g : Group) : let t := (u.fetched c p cls asid pc n).accept g
    t.mem = u.mem ∧ t.reft = u.reft ∧ (∀ k, (Tbl.find t.waves k).map Wave.quiet = (Tbl.find u.waves k).map Wave.quiet)
    ∧ (t.core g.core).issued = (u.core g.core).issued + if u.allRetried g then 0 else 1 := by
  have fetch : FetchFrame u (u.fetched c p cls asid pc n) := (FetchFrame.refl u).fetched
  obtain ⟨mem, reft, waves, issued⟩ := accept_leaves (u.fetched c p cls asid pc n) g
  rw [State.allRetried, fetch.waves] at issued
  rw [fetch.waves] at waves
  exact ⟨mem.trans fetch.mem, reft.trans fetch.reft, waves, issued.trans (by rw [fetch.issued]; rfl)⟩

/-! ## The plan of a step (R153 to R157) -/

theorem PipeTurn.plan (turn : PipeTurn s) : s.plan = s.visit := by
  unfold State.plan
  split
  · next tick i rest rows => rw [if_neg (Nat.not_le.2 (turn.agenda (tick, i) (by rw [rows]; rfl)))]
  · rfl

theorem PipeTurn.visit (turn : PipeTurn s) : s.visit =
    if s.cursor.uniform then s.turn.visitUniform s.cursor.core s.cursor.side else s.turn.visitLane s.cursor.core s.cursor.side := by
  obtain ⟨-, runs, causes, claims⟩ := turn
  unfold State.turn at runs causes claims
  simp only [State.visit, runs, causes, claims]
  rfl

theorem LanePick.plan (pick : LanePick s u g) : s.plan = u.dispatch g := by
  obtain ⟨turn, lane, picked, rfl⟩ := pick
  rw [turn.plan, turn.visit, if_neg (by simp [lane]), State.visitLane, picked]

theorem UniformPick.plan (pick : UniformPick s u g) : s.plan = u.dispatch g := by
  obtain ⟨turn, uniform, ⟨wid, w⟩, picked, lanes, rfl, rfl⟩ := pick
  rw [turn.plan, turn.visit, if_pos uniform, State.visitUniform, picked]
  simp only
  cases threads : w.lanes with
  | nil => exact absurd threads lanes
  | cons l ls => rfl

/-- What a pipe issues is the instruction at the head of its group. -/
theorem dispatch_eq {wid l : Nat} {w : Wave} (head : g.mem.head? = some (wid, l)) (wave : Tbl.find u.waves wid = some w) : u.dispatch g =
    (some (u.instrAt g.core (u.partOf wid) w.asid g.pc).1,
      (u.fetched g.core (u.partOf wid) (u.clsOf wid) w.asid g.pc (u.instrAt g.core (u.partOf wid) w.asid g.pc).2).accept g) := by
  obtain ⟨rest, members⟩ := List.head?_eq_some_iff.1 head
  simp only [State.dispatch, members, wave]

/-! ## The step -/

theorem step_of_plan {i : Instr} (plan : s.plan = (some i, t)) : step s = settleStep t (exec i t) := by
  rw [step, plan]

/-- Where a pipe has issued nothing, nothing is taken in place of what runs. -/
theorem settleStep_of_none (none_ : s.cur = none) (r : Host.Outcome State Fault Refusal) : settleStep s r = r := by
  simp [settleStep, State.overtaken, State.trapsEarly, none_]

/-- Where no wave of the group has a cause to take or an access that is not complete, the instruction is the step. -/
theorem settleStep_of_clear (issued : s.cur = some g) (clear : ∀ m ∈ g.mem, ∀ x, Tbl.find s.waves m.1 = some x →
    x.nextAsync = none ∧ x.pends.any (State.unfinished x) = false) (r : Host.Outcome State Fault Refusal) : settleStep s r = r := by
  have taken : s.overtaken r = none := by
    unfold State.overtaken
    split
    · next g' t cur =>
      rw [issued] at cur
      cases cur
      rw [List.findSome?_eq_none_iff]
      intro wid member
      obtain ⟨m, there, rfl⟩ := List.mem_map.1 ((mem_dedup _ _).1 member)
      split
      · rfl
      · next x here => rw [(clear m there x here).1]
    · rfl
  have early : s.trapsEarly r = false := by
    unfold State.trapsEarly
    split
    · next g' t cur =>
      rw [issued] at cur
      cases cur
      rw [List.any_eq_false]
      intro m there
      split
      · next x y here _ => simp [(clear m there x here).2]
      · simp
    · rfl
  simp [settleStep, taken, early]

/-- The step of a pipe that issues. -/
theorem step_of_pick {wid l : Nat} {w : Wave} (pick : LanePick s u g ∨ UniformPick s u g) (head : g.mem.head? = some (wid, l))
    (wave : Tbl.find u.waves wid = some w) {i : Instr} {n : Nat} (instr : u.instrAt g.core (u.partOf wid) w.asid g.pc = (i, n)) :
    let t := (u.fetched g.core (u.partOf wid) (u.clsOf wid) w.asid g.pc n).accept g
    step s = settleStep t (exec i t) := by
  refine step_of_plan ((pick.elim LanePick.plan UniformPick.plan).trans ?_)
  rw [dispatch_eq head wave, instr]

/-- Settles O5: the plan of a step is the dispatch of the group that is picked, and what `instrAt` finds there is the instruction of the bytes. -/
theorem stepRunsDecoded : Obligations.StepRunsDecoded := by
  refine ⟨fun s u g pick m member => pick.stands member, fun s u g wid l n w i bs pick head wave => ?_, fun s e rest rows due => ?_⟩
  · intro issued t
    have runs {j : Instr} {k : Nat} (instr : u.instrAt g.core (u.partOf wid) w.asid g.pc = (j, k)) := step_of_pick pick head wave instr
    refine ⟨fun fetch decode => ?_, fun r fetch decode => ?_, fun fetch => ?_⟩
    · have go : step s = settleStep t (exec i t) := runs (by simp only [State.instrAt, fetch, decode])
      have cur : t.cur = some g := accept_cur ..
      exact ⟨go, fun clear => go.trans (settleStep_of_clear cur clear _), cur, fetched_accept_leaves u g⟩
    · exact runs (by simp only [State.instrAt, fetch, decode])
    · exact runs (by simp only [State.instrAt, fetch])
  · have plan : s.plan = (some e.2, { s with agenda := rest, cur := none }) := by
      simp only [State.plan, rows, if_pos due]
    exact (step_of_plan plan).trans (settleStep_of_none rfl _)

end Sys2Proof.Machine
end

section
/-!
SUPPORT. Traps of lane instructions (O21): a conversion whose operand pair lies beyond the wave's slabs.
-/

namespace Sys2Proof.Machine

/-- The small machine whose wave, of two slabs, is in its handler, with a codebook in slot f1. -/
def codebookInHandler : State :=
  { Tests.st (fun w => { w with cause := 0x10000 }) with grids := [(1, { bootGrid with lrec := { bootRec with fslots := [0, 8] } })] }

/-- CVT of the pair at v127 into slot f1 there: v128 lies beyond the slabs, so that SECOND becomes 0x13 (R147, R222). -/
theorem cvt_pair_beyond_slabs_second :
    (match exec (.cvt (.toSlot 1 .f64) 0 127) codebookInHandler with
      | .next t => (Tbl.find t.waves 32).map (fun w => fieldOf w.cause 15 8)
      | _ => none) = some 0x13 := by decide +kernel

/-- Refutes O21: CVT into a codebook slot is to be FORMAT_SLOT in a wave whose slabs hold v0 to v127. The source of a pair of v127, which no well-formed word
has, takes in v128, which the two slabs of `codebookInHandler` do not hold, so that the lane raises REG_RANGE, the lower code; the clause lacks the premise that
the instruction is well-formed. In its handler the wave freezes with the code in SECOND (R226). -/
theorem not_wordsThatDoNotRun : ¬ Obligations.WordsThatDoNotRun := by
  unfold Obligations.WordsThatDoNotRun
  rintro ⟨-, h, -⟩
  obtain ⟨-, -, h⟩ := h false 0 0 0 127 1 .f64
  obtain ⟨ht, -⟩ := h codebookInHandler Tests.grp 32 { Tests.wv with cause := 0x10000 } 0 (by decide +kernel) (by decide +kernel)
    (by decide +kernel) (by decide +kernel) (by decide +kernel)
  have hs := cvt_pair_beyond_slabs_second
  rw [ht] at hs
  revert hs
  decide +kernel

end Sys2Proof.Machine
end

section
/-!
SUPPORT. Writes to scratchpads by waves of two teams (O30, O31): a rise of the one team's high-water mark zeroes what the other has written above it.
-/

namespace Sys2Proof.Machine

/-- The first wave, whose lane 0 holds 7 in v127 and index 0 in v100, with a record of two elements of the second team's allocation in cluster scratch. -/
def neighbourWriter : Wave := { Tests.wv with b := [(3, Tests.rcd 256 2 2 2 0)], v := [(127, 7)] }

/-- The second team's wave, whose lane 1 holds index 1. -/
def ownWriter : Wave := { neighbourWriter with team := 2, slot := 1, v := [(128 + 100, 1), (128 + 127, 9)] }

/-- Lane 0 of the first wave and lane 1 of the second. -/
def twoTeams : Group := ⟨0, 0, 0, [(32, 0), (33, 1)]⟩

/-- The small machine with two teams, each of one wave and of 256 bytes, whose high-water marks are 0. -/
def besideState : State :=
  { bootState .reset false [] with
    cur := some twoTeams
    grids := [(1, { bootGrid with lrec := { bootRec with bytes := 256 } })]
    teams := [(1, bootTeam 0 0), (2, { bootTeam 0 0 with start := 256, slot := 1 })]
    waves := [(32, neighbourWriter), (33, ownWriter)] }

theorem mem_twoTeams {m : Nat × Nat} {w : Wave} (hm : m ∈ twoTeams.mem) (hw : Tbl.find besideState.waves m.1 = some w) :
    (m = (32, 0) ∧ w = neighbourWriter) ∨ (m = (33, 1) ∧ w = ownWriter) := by
  rcases List.mem_cons.mp hm with rfl | hm
  · exact .inl ⟨rfl, (Option.some.inj hw).symm⟩
  · rcases List.mem_singleton.mp hm with rfl
    exact .inr ⟨rfl, (Option.some.inj hw).symm⟩

theorem quiet_besideState {m : Nat × Nat} (hm : m ∈ twoTeams.mem) : PlainWave besideState m.1 := by
  refine ⟨fun w hw => ?_, ?_⟩
  · rcases mem_twoTeams hm hw with ⟨-, rfl⟩ | ⟨-, rfl⟩ <;> rfl
  · revert m
    decide +kernel

theorem scratch_besideState (a : Nat) : besideState.scratchByte 0 a = 0 := by
  have h : (besideState.core 0).scratch = [] := by decide +kernel
  rw [State.scratchByte, h]
  rfl

theorem scratchZero_besideState {m : Nat × Nat} (hm : m ∈ twoTeams.mem) : ScratchZero besideState m.1 := by
  intro w k r hw hk hr
  obtain rfl : { bootRec with bytes := 256 } = r := by
    rcases mem_twoTeams hm hw with ⟨rfl, -⟩ | ⟨rfl, -⟩ <;> exact Option.some.inj hr
  rcases mem_twoTeams hm hw with ⟨-, rfl⟩ | ⟨-, rfl⟩ <;> obtain rfl := Option.some.inj hk <;>
    exact ⟨rfl, rfl, fun a _ _ => scratch_besideState _⟩

/-- The two waves stand at an access of 4 bytes through b3, which leads them to the bytes 256 and 260 of core 0's scratchpad. -/
theorem memReady_besideState {dst : List Nat} {reads : Bool} {spot : Nat → Wave → Nat → Option Spot} (hdst : dst = [] ∨ dst = [127])
    (h0 : spot 32 neighbourWriter 0 = some (.scratch 0 256)) (h1 : spot 33 ownWriter 1 = some (.scratch 0 260)) :
    MemReady besideState twoTeams (100 :: block 127 1) dst 4 100 reads spot := by
  refine ⟨by rcases hdst with rfl | rfl <;> decide +kernel, by decide, fun m hm => quiet_besideState hm, fun m hm w hw => ?_, fun m hm w hw _ => ?_⟩
  · rcases mem_twoTeams hm hw with ⟨rfl, rfl⟩ | ⟨rfl, rfl⟩ <;> rfl
  · have sound : besideState.asleep 0 = false ∧ besideState.scratchPoisoned 0 256 4 = false ∧ besideState.scratchPoisoned 0 260 4 = false := by
      decide +kernel
    rcases mem_twoTeams hm hw with ⟨rfl, rfl⟩ | ⟨rfl, rfl⟩
    · rw [show neighbourWriter.vreg (32, 0).2 100 = 0 from rfl]
      simp [h0, sound]
    · rw [show ownWriter.vreg (33, 1).2 100 = 1 from rfl]
      simp [h1, sound]

/-- The byte at a spot after a step that goes on. -/
def byteLeft (o : Host.Outcome State Fault Refusal) (p : Spot) : Option Byte :=
  match o with
  | .next t => some (t.byteOf p)
  | _ => none

/-- What the first wave's lane stores at byte 256 is zeroed as the second's raises its team's high-water mark to 256 (R113); the second's 9 stands. -/
theorem byteLeft_stc_besideState : byteLeft (exec (.stc .b32 127 3 100) besideState) (.scratch 0 256) = some 0
    ∧ byteLeft (exec (.stc .b32 127 3 100) besideState) (.scratch 0 260) = some 9 := by decide +kernel

theorem byteLeft_atom_besideState : byteLeft (exec (.atom .xchg false .wave 127 3 100) besideState) (.scratch 0 256) = some 0
    ∧ byteLeft (exec (.atom .xchg false .wave 127 3 100) besideState) (.scratch 0 260) = some 9 := by decide +kernel

theorem byteLeft_eq {o : Host.Outcome State Fault Refusal} {t : State} {p : Spot} {b : Byte} (ht : o = .next t) (hb : byteLeft o p = some b) :
    t.byteOf p = b := by
  subst ht
  exact Option.some.inj hb

/-- Refutes O30: what a lane stores is to stand, unless a higher lane stores there. In `besideState` the first wave's lane stores at byte 256 through cluster
scratch, above the high-water mark of the second wave's team, whose allocation this is; the second wave's lane then stores at byte 260, the mark rises
over both, and byte 256 becomes zero (R113), though all was zero before (`ScratchZero`). -/
theorem not_stores : ¬ Obligations.Stores := by
  unfold Obligations.Stores
  intro h
  obtain ⟨-, -, hstc, -⟩ := h .b32 0 false false .wave 127 100 3 besideState twoTeams
  obtain ⟨t, ht, -, hbytes⟩ := hstc (by decide) (memReady_besideState (.inl rfl) (by decide +kernel) (by decide +kernel))
    (fun _ m hm => scratchZero_besideState hm)
  have hleft := (hbytes (.scratch 0 256) (by simp)).symm.trans (byteLeft_eq ht byteLeft_stc_besideState.1)
  revert hleft
  decide +kernel

/-- Refutes O31, at the exchanges that do in `besideState` what the stores do of `not_stores`. -/
theorem not_atomics : ¬ Obligations.Atomics := by
  unfold Obligations.Atomics
  intro h
  obtain ⟨hatom, -⟩ := h .xchg false .f32 .wave 127 100 3 besideState twoTeams
  obtain ⟨t, ht, hbytes, -⟩ := hatom (by decide) (memReady_besideState (.inr rfl) (by decide +kernel) (by decide +kernel))
    (fun m hm => ⟨rfl, fun w hw => by rcases mem_twoTeams hm hw with ⟨-, rfl⟩ | ⟨-, rfl⟩ <;> rfl⟩) (fun m hm => scratchZero_besideState hm)
  have hleft := (hbytes (.scratch 0 256) (by simp)).symm.trans (byteLeft_eq ht byteLeft_atom_besideState.1)
  revert hleft
  decide +kernel

end Sys2Proof.Machine
end

section
/-!
SUPPORT. Copy jobs (O46): a multicast to no core, and a full window.
-/

namespace Sys2Proof.Machine

/-- A CPYM card that names no core: 64 bytes from local scratch to global address 0. -/
def noCoreCard : List Byte := Tests.cardOf 2 0 1 0 (Tests.reg 0 64 0 1 0) (Tests.reg 0 64 1 0 0)

/-- A mirror duplicate to chip 7 that is not acknowledged. -/
def duplicate : Unacked := Tests.wreq (fun u => { u with page := none })

/-- The small machine with a job of that card; its page 0 is mirrored on chip 7, whose window is full. -/
def fullWindow : State :=
  { (Tests.fabSt 0 (fun f => { f with unacked := List.replicate 4096 duplicate })).putBytes 0x24000 (natBytes 8 0x3001F) with
    parts := [(0, { bootPart with mirror := 0x80000007 })]
    jobs := [(7, Tests.job0 noCoreCard)] }

/-- How far a job is after a step that goes on. -/
def posLeft (o : Host.Outcome State Fault Refusal) (id : Nat) : Option Nat :=
  match o with
  | .next t => (Tbl.find t.jobs id).map (fun j => j.pos)
  | _ => none

/-- The job waits for room in the window, at the address to which it is to write nothing. -/
theorem posLeft_fullWindow : posLeft (exec (.copyChunkWritten 7) fullWindow) 7 = some 0 := by decide +kernel

theorem copySlice_noCore : State.copySlice (Tests.job0 noCoreCard) = 64 := by decide +kernel

theorem pieces_fullWindow : ∀ p ∈ piecesFrom (Card.sides noCoreCard).1 (Card.sides noCoreCard).2 64 0 64,
    (∃ c off, fullWindow.jobGo (Tests.job0 noCoreCard) (Card.sides noCoreCard).1.space p.src .read = .scratch c off ∧ fullWindow.asleep c = false)
    ∧ fullWindow.copyPoisoned (Tests.job0 noCoreCard) [p] = false := by
  have pieces : piecesFrom (Card.sides noCoreCard).1 (Card.sides noCoreCard).2 64 0 64 = [⟨0, 0, 64⟩] := by decide +kernel
  rw [pieces]
  rintro p hp
  obtain rfl := List.mem_singleton.mp hp
  exact ⟨⟨0, 0, by decide +kernel⟩, by decide +kernel⟩

/-- Refutes O46: the next bytes of a copy are to be written where every place to which they go is of this chip. The card of `fullWindow` is a CPYM that names
no core, so that it has no such place; the model asks whether the window of the mirror has room at the destination without a core's distance, which is a
mirrored page, and with 4096 requests to the mirror under way the job waits. -/
theorem not_jobProgress : ¬ Obligations.JobProgress := by
  unfold Obligations.JobProgress
  rintro ⟨h, -⟩
  obtain ⟨copies, -⟩ := h fullWindow 7 1 (Tests.job0 noCoreCard) (bootTeam 0 0) rfl rfl (by decide +kernel)
  obtain ⟨moves, -⟩ := copies (.inr (by decide +kernel))
  obtain ⟨u, v, hu, -, -, -, -, hj, -⟩ := moves (by decide +kernel) (by decide +kernel) (by decide +kernel) (by decide +kernel)
    (fun p hp => ⟨.inr (.inl (pieces_fullWindow p (copySlice_noCore ▸ hp)).1), (pieces_fullWindow p (copySlice_noCore ▸ hp)).2⟩)
    (fun p _ x hx => absurd hx (by rw [show Card.shares (Tests.job0 noCoreCard).card = [] by decide +kernel]; exact List.not_mem_nil))
    (by decide +kernel) (by decide +kernel)
  have hpos := posLeft_fullWindow
  rw [hu, posLeft, hj] at hpos
  revert hpos
  decide +kernel

end Sys2Proof.Machine
end

section
/-!
SUPPORT. Waits on copy tags (O39): the bits of masks and chunk maps, the causes of an instruction that names tags, when each wait is over, and what it leaves.
-/

namespace Sys2Proof.Machine

set_option Elab.async false

variable {s : State} {wid : Nat} {w : Wave}

/-! ## Bits -/

theorem bitOf_eq_testBit (x i : Nat) : bitOf x i = x.testBit i := by
  rw [Nat.testBit_eq_decide_div_mod_eq, bitOf]
  exact beq_eq_decide _ _

theorem bitOf_toNat {n : Nat} (x : BitVec n) (i : Nat) : bitOf x.toNat i = x.getLsbD i := bitOf_eq_testBit ..

theorem bitOf_two_pow (k i : Nat) : bitOf (2 ^ k) i = decide (k = i) := by rw [bitOf_eq_testBit, Nat.testBit_two_pow]

theorem testBit_bitsOf (x hi lo i : Nat) : (bitsOf x hi lo).testBit i = (decide (i < hi + 1 - lo) && bitOf x (lo + i)) := by
  rw [bitOf_eq_testBit, bitsOf, Nat.testBit_mod_two_pow, Nat.testBit_div_two_pow, Nat.add_comm i]

/-- Bits [b + c - 1 : b] of a window (R185). -/
theorem bitOf_window (b c i : Nat) : bitOf ((2 ^ c - 1) * 2 ^ b) i = decide (b ≤ i ∧ i < b + c) := by
  rw [bitOf_eq_testBit, Nat.testBit_mul_two_pow, Nat.testBit_two_pow_sub_one, Bool.eq_iff_iff]
  simp only [Bool.and_eq_true, decide_eq_true_eq]
  omega

/-- The sum of which `bitsBy` is made. -/
theorem testBit_sum_bits (f : Nat → Bool) (n i : Nat) :
    ((List.range n).map (fun k => if f k then 2 ^ k else 0)).sum.testBit i = (decide (i < n) && f i)
    ∧ ((List.range n).map (fun k => if f k then 2 ^ k else 0)).sum < 2 ^ n := by
  induction n with
  | zero => simp
  | succ n ih =>
    obtain ⟨bits, below⟩ := ih
    rw [List.range_succ, List.map_append, List.sum_append, List.map_singleton, List.sum_singleton]
    cases h : f n with
    | false =>
      refine ⟨?_, by simp only [Bool.false_eq_true, if_false]; omega⟩
      simp only [Bool.false_eq_true, if_false, Nat.add_zero, bits]
      by_cases e : i = n
      · simp [e, h]
      · rw [decide_eq_decide.mpr (show i < n ↔ i < n + 1 by omega)]
    | true =>
      refine ⟨?_, by simp only [if_true]; omega⟩
      rw [if_pos rfl, Nat.add_comm, ← Nat.mul_one (2 ^ n), Nat.testBit_two_pow_mul_add _ below, bits]
      rcases Nat.lt_trichotomy i n with lt | rfl | gt
      · simp [lt, Nat.lt_succ_of_lt lt]
      · simp [h]
      · have : ¬ i < n + 1 := by omega
        rw [if_neg (by omega), Nat.testBit_lt_two_pow (Nat.one_lt_two_pow (by omega))]
        simp [this]

theorem getLsbD_bitsBy (n : Nat) (f : Nat → Bool) (i : Nat) : (bitsBy n f).getLsbD i = (decide (i < n) && f i) := by
  rw [bitsBy, BitVec.getLsbD_ofNat, (testBit_sum_bits f n i).1, ← Bool.and_assoc, Bool.and_self]

theorem ofNat_eq_bitsBy {x : Nat} {f : Nat → Bool} (h : ∀ i < 64, x.testBit i = f i) : BitVec.ofNat 64 x = bitsBy 64 f := by
  refine BitVec.eq_of_getLsbD_eq fun i hi => ?_
  rw [getLsbD_bitsBy, BitVec.getLsbD_ofNat, h i hi]

theorem and_eq_mask {x : Nat} {m : DWord} {f : Nat → Bool} (h : ∀ i < 64, x.testBit i = f i) :
    x &&& m.toNat = m.toNat ↔ ∀ i < 64, m.getLsbD i = true → f i = true := by
  constructor
  · intro e i hi named
    have bit := congrArg (fun y => y.testBit i) e
    rw [← BitVec.testBit_toNat] at named
    simpa [Nat.testBit_and, named, h i hi] using bit
  · intro all
    refine Nat.eq_of_testBit_eq fun i => ?_
    rw [Nat.testBit_and, BitVec.testBit_toNat]
    by_cases hi : i < 64
    · cases named : m.getLsbD i with
      | false => simp
      | true => simp [h i hi, all i hi named]
    · simp [BitVec.getLsbD_of_ge m i (Nat.le_of_not_lt hi)]

theorem and_mask_ne_zero {x : Nat} {m : DWord} {f : Nat → Bool} (h : ∀ i < 64, x.testBit i = f i) :
    x &&& m.toNat ≠ 0 ↔ ∃ i < 64, m.getLsbD i = true ∧ f i = true := by
  constructor
  · intro ne
    obtain ⟨i, bit⟩ := Nat.exists_testBit_of_ne_zero ne
    rw [Nat.testBit_and, BitVec.testBit_toNat, Bool.and_eq_true] at bit
    have hi : i < 64 := BitVec.lt_of_getLsbD bit.2
    exact ⟨i, hi, bit.2, h i hi ▸ bit.1⟩
  · rintro ⟨i, hi, named, bit⟩ zero
    rw [← BitVec.testBit_toNat] at named
    have clear := congrArg (fun y => y.testBit i) zero
    simp [Nat.testBit_and, named, h i hi, bit] at clear

/-! ## Causes -/

/-- The mask names no tag outside the window of the launch. -/
def LaunchRec.holdsTags (r : LaunchRec) (mask : Nat) : Prop := ∀ i < 64, bitOf mask i = true → r.tagBase ≤ i ∧ i < r.tagBase + r.tagCount

theorem window_all {r : LaunchRec} {mask : Nat} :
    (List.range 64).all (fun i => !bitOf mask i || bitOf ((2 ^ r.tagCount - 1) * 2 ^ r.tagBase) i) = true ↔ r.holdsTags mask := by
  simp only [bitOf_window, List.all_eq_true, List.mem_range, Bool.or_eq_true, Bool.not_eq_true', decide_eq_true_eq, LaunchRec.holdsTags]
  exact forall_congr' fun i => forall_congr' fun _ => by cases bitOf mask i <;> simp

theorem tagCauses_gate {mask : Nat} (gate : w.gates ≠ []) (named : mask ≠ 0) : tagCauses mask s wid w = some 0x32 := by
  have deep : (w.depth != 0 && mask != 0) = true := by simp [Wave.depth, gate, named]
  rw [tagCauses, if_pos deep]
  generalize s.lrecOf wid = launch
  cases launch <;> dsimp only <;> split <;> rfl

theorem tagCauses_none {r : LaunchRec} {mask : Nat} (flat : w.gates = []) (launch : s.lrecOf wid = some r) (inside : r.holdsTags mask) :
    tagCauses mask s wid w = none := by
  simp only [tagCauses, launch]
  rw [if_pos (window_all.mpr inside)]
  simp [Wave.depth, flat, lowCode, leastBy]

theorem tagCauses_range {r : LaunchRec} {mask : Nat} (flat : w.gates = []) (launch : s.lrecOf wid = some r) (outside : ¬ r.holdsTags mask) :
    tagCauses mask s wid w = some 0x34 := by
  simp only [tagCauses, launch]
  rw [if_neg (mt window_all.mp outside)]
  simp [Wave.depth, flat, lowCode, leastBy]

theorem holdsTags_toNat {r : LaunchRec} {m : DWord} :
    r.holdsTags m.toNat ↔ ∀ i ∈ (List.range 64).filter (fun i => m.getLsbD i), r.tagBase ≤ i ∧ i < r.tagBase + r.tagCount := by
  simp [LaunchRec.holdsTags, bitOf_toNat]

theorem holdsTags_two_pow {r : LaunchRec} {k : Nat} (small : k < 64) : r.holdsTags (2 ^ k) ↔ r.tagBase ≤ k ∧ k < r.tagBase + r.tagCount := by
  simp only [LaunchRec.holdsTags, bitOf_two_pow, decide_eq_true_eq]
  exact ⟨fun h => h k small rfl, fun h i _ e => e ▸ h⟩

/-! ## Waits -/

theorem waitOver_tags (s : State) (wid : Nat) (w : Wave) (all : Bool) (m : DWord) :
    s.waitOver wid w (.tags all m.toNat) = true ↔
      (∀ i ∈ (List.range 64).filter (fun i => m.getLsbD i), s.tagOf w.team i ≠ .busy)
        ∨ (all = false ∧ ∃ i ∈ (List.range 64).filter (fun i => m.getLsbD i), s.tagOf w.team i = .set) := by
  have names : bitOf m.toNat = fun i => m.getLsbD i := funext (bitOf_toNat m)
  have none_ : (!((List.range 64).filter (fun i => m.getLsbD i)).any (fun t => s.tagOf w.team t == .busy)) = true
      ↔ ∀ i ∈ (List.range 64).filter (fun i => m.getLsbD i), s.tagOf w.team i ≠ .busy := by simp
  have some_ : ((List.range 64).filter (fun i => m.getLsbD i)).any (fun t => s.tagOf w.team t == .set) = true
      ↔ ∃ i ∈ (List.range 64).filter (fun i => m.getLsbD i), s.tagOf w.team i = .set := by simp [and_assoc]
  simp only [State.waitOver, State.waitEnds, names]
  cases all with
  | true => rw [if_pos rfl, none_]; simp
  | false => rw [if_neg Bool.false_ne_true, Bool.or_eq_true, none_, some_]; simp

/-- The chunk bit `i` of a word of a tag's map: none of a clear tag is set, all of a set one (R186). -/
def State.chunkSet (s : State) (team : Nat) (t : Team) (tag word i : Nat) : Bool :=
  match s.tagOf team tag with
  | .clear => false
  | .set => true
  | .busy => bitOf (Tbl.getD t.chunks tag 0) (64 * word + i)

theorem chunkSet_busy {team : Nat} {tag : Nat} (busy : s.tagOf team tag = .busy) (t : Team) (word : Nat) {i : Nat} (hi : i < 64) :
    (bitsOf (Tbl.getD t.chunks tag 0) (64 * word + 63) (64 * word)).testBit i = s.chunkSet team t tag word i := by
  rw [testBit_bitsOf, State.chunkSet, busy]
  simp [show i < 64 * word + 63 + 1 - 64 * word by omega]

/-- A wait on a chunk map is over once its tag is not busy, or its bits are as it asks (R186). -/
theorem waitOver_chunks {t : Team} (team : Tbl.find s.teams w.team = some t) (wid : Nat) (all : Bool) (tag word : Nat) (m : DWord) :
    s.waitOver wid w (.chunks all tag word m.toNat) = true ↔ s.tagOf w.team tag ≠ .busy
      ∨ (if all then ∀ i < 64, m.getLsbD i = true → s.chunkSet w.team t tag word i = true
        else m = 0 ∨ ∃ i < 64, m.getLsbD i = true ∧ s.chunkSet w.team t tag word i = true) := by
  by_cases busy : s.tagOf w.team tag = .busy
  · have bits := fun i hi => chunkSet_busy busy t word (i := i) hi
    have zero : m.toNat = 0 ↔ m = 0 := BitVec.toNat_eq (y := 0#64) |>.symm
    cases all with
    | true => simpa [State.waitOver, State.waitEnds, team, busy] using and_eq_mask bits
    | false => simpa [State.waitOver, State.waitEnds, team, busy, zero] using or_congr_right (and_mask_ne_zero bits)
  · simp [State.waitOver, State.waitEnds, busy]

theorem waitOver_consumed (s : State) (wid : Nat) (w : Wave) (tag n : Nat) :
    s.waitOver wid w (.consumed tag n) = true ↔ s.tagOf w.team tag ≠ .busy ∨ ∃ e ∈ s.jobs, e.2.team = some w.team ∧ e.2.tag = tag
      ∧ (Card.kind e.2.card = 1 ∨ Card.kind e.2.card = 2 ∨ ((Card.kind e.2.card = 3 ∨ Card.kind e.2.card = 4) ∧ n ≤ e.2.read)) := by
  have kinds : ∀ k r : Nat, (match k with | 1 | 2 => true | 3 | 4 => decide (n ≤ r) | _ => false) = true
      ↔ k = 1 ∨ k = 2 ∨ ((k = 3 ∨ k = 4) ∧ n ≤ r) := by
    intro k r
    split
    · simp
    · simp
    · simp
    · simp
    · next h1 h2 h3 h4 => exact iff_of_false Bool.false_ne_true (by tauto)
  simp only [State.waitOver, State.waitEnds, Bool.or_eq_true, bne_iff_ne, List.any_eq_true, Bool.and_eq_true, beq_iff_eq, and_assoc]
  exact or_congr_right (exists_congr fun e => and_congr_right fun _ => and_congr_right fun _ => and_congr_right fun _ => kinds _ _)

/-! ## Tags that become clear -/

theorem tagOf_setTag_clear (s : State) (t i k : Nat) : (s.setTag t i .clear).tagOf t k = if k = i then .clear else s.tagOf t k := by
  simp only [State.setTag, State.tagOf, State.updTeam_teams]
  cases team : Tbl.find s.teams t with
  | none => simp [Tbl.upd, team]
  | some x =>
    simp only [Tbl.find_upd_self, team, Option.map_some]
    by_cases e : k = i
    · simp [e]
    · simp [e, Tbl.getD_putS_ne _ _ _ e]

/-- Clearing tags of a team leaves the others, the waves and HBM. -/
theorem foldl_setTag_clear (t : Nat) (l : List Nat) (s : State) :
    let u := l.foldl (fun s i => s.setTag t i .clear) s
    u.waves = s.waves ∧ u.mem = s.mem ∧ ∀ k, u.tagOf t k = if k ∈ l then .clear else s.tagOf t k := by
  induction l generalizing s with
  | nil => simp
  | cons i l ih =>
    obtain ⟨waves, mem, tags⟩ := ih (s.setTag t i .clear)
    refine ⟨waves, mem, fun k => ?_⟩
    rw [List.foldl_cons, tags k, tagOf_setTag_clear]
    by_cases here : k ∈ l <;> by_cases e : k = i <;> simp [here, e]

/-! ## The instructions -/

section
variable {d a : SReg} {tag : Tag} {q : Fin 16} {r : LaunchRec} {t : Team} {sdst : List Nat} {f : State → Nat → Wave → UniRes}

/-- What an instruction that waits until `x` is over does, once it raises no cause: it goes on, or polls (R185). -/
theorem uniStep_waits (ready : UniReady s wid w sdst [] []) {x : Wait} {u : State}
    (eq : f s wid w = if s.waitOver wid w x then .done u else .wait s wid x) :
    (s.waitOver wid w x = true → uniStep { sdst := sdst } f s = .next (u.updWave wid (fun w => w.pass 4)))
    ∧ (¬ s.waitOver wid w x = true → uniStep { sdst := sdst } f s = .next (s.updWave wid (fun w => { w with park := .poll x }))) := by
  rw [uniStep_ready ready, eq]
  constructor <;> intro ended
  · rw [if_pos ended]
  · rw [if_neg ended]
    rfl

theorem uniStep_cause (ready : UniReady s wid w sdst [] []) {c : Nat} (eq : f s wid w = .trap c none) :
    uniStep { sdst := sdst } f s = .next (s.takeTrap wid c 0xFF false (some w.at_) none) := by
  rw [uniStep_ready ready, eq]
  rfl

theorem UniIssued.noOperands (issued : UniIssued s wid w) : UniReady s wid w [] [] [] :=
  ⟨issued, fun _ h => absurd h List.not_mem_nil, fun _ h => absurd h List.not_mem_nil,
    fun _ => ⟨fun _ h => absurd h List.not_mem_nil, fun _ h => absurd h List.not_mem_nil⟩⟩

theorem issued_find (ready : UniReady s wid w sdst [] []) : Tbl.find s.waves wid = some w := ready.1.1.1

/-- TWAIT (R335). -/
theorem twait_waits (ready : UniReady s wid w [] [] []) (all : Bool) (flat : w.gates = []) (launch : s.lrecOf wid = some r)
    (inside : r.holdsTags (w.sreg a.val).toNat) :
    let x := Wait.tags all (w.sreg a.val).toNat
    let run := uniStep {} (fun s wid w => twaitRes all (w.sreg a.val).toNat s wid w) s
    (s.waitOver wid w x = true → run = .next (s.updWave wid (fun _ => w.pass 4)))
    ∧ (¬ s.waitOver wid w x = true → run = .next (s.updWave wid (fun w => { w with park := .poll x }))) := by
  obtain ⟨goes, polls⟩ := uniStep_waits ready (f := fun s wid w => twaitRes all (w.sreg a.val).toNat s wid w)
    (x := .tags all (w.sreg a.val).toNat) (u := s) (by simp only [twaitRes, tagCauses_none flat launch inside])
  exact ⟨fun ended => (goes ended).trans (congrArg _ (State.updWave_const (issued_find ready) _)), polls⟩

/-- MWAIT (R354). -/
theorem mwait_waits (issued : UniIssued s wid w) (flat : w.gates = []) (launch : s.lrecOf wid = some r)
    (inside : r.tagBase ≤ tag.val ∧ tag.val < r.tagBase + r.tagCount) :
    let x := Wait.consumed tag.val (fieldOf (w.sreg a.val) 31 0)
    (s.waitOver wid w x = true → exec (.mwait tag a) s = .next (s.updWave wid (fun w => w.pass 4)))
    ∧ (¬ s.waitOver wid w x = true → exec (.mwait tag a) s = .next (s.updWave wid (fun w => { w with park := .poll x }))) := by
  refine uniStep_waits issued.noOperands ?_
  simp [mwaitRes, launch, inside, Wave.depth, flat, lowCode, leastBy]

theorem mwait_causes (issued : UniIssued s wid w) (launch : s.lrecOf wid = some r) :
    (w.gates ≠ [] → UniTraps (.mwait tag a) s wid w 0x32)
    ∧ (w.gates = [] → ¬ (r.tagBase ≤ tag.val ∧ tag.val < r.tagBase + r.tagCount) → UniTraps (.mwait tag a) s wid w 0x34) := by
  constructor
  · intro gate
    refine uniStep_cause issued.noOperands ?_
    by_cases inside : r.tagBase ≤ tag.val ∧ tag.val < r.tagBase + r.tagCount <;>
      simp [mwaitRes, launch, inside, Wave.depth, gate, lowCode, leastBy]
  · intro flat outside
    refine uniStep_cause issued.noOperands ?_
    simp [mwaitRes, launch, outside, Wave.depth, flat, lowCode, leastBy]

/-- The bits that CHWAIT returns (R186). -/
theorem chunkBits_eq (team : Tbl.find s.teams w.team = some t) (tag word : Nat) :
    BitVec.ofNat 64 (chunkBits s w tag word) = bitsBy 64 (s.chunkSet w.team t tag word) := by
  refine ofNat_eq_bitsBy fun i hi => ?_
  rw [chunkBits]
  cases st : s.tagOf w.team tag with
  | clear => simp [State.chunkSet, st]
  | set =>
    rw [Nat.testBit_two_pow_sub_one, State.chunkSet, st]
    exact decide_eq_true hi
  | busy =>
    simp only [team]
    exact chunkSet_busy st t word hi

/-- CHWAIT (R335). -/
theorem chwait_waits (ready : UniReady s wid w [d.val] [] []) (all : Bool) (flat : w.gates = []) (launch : s.lrecOf wid = some r)
    (inside : r.holdsTags (2 ^ tag.val)) :
    let x := Wait.chunks all tag.val q.val (w.sreg a.val).toNat
    let run := uniStep { sdst := [d.val] } (fun s wid w => chwaitRes all tag.val q.val d.val (w.sreg a.val).toNat s wid w) s
    (s.waitOver wid w x = true →
      run = .next (s.updWave wid (fun _ => (w.setS d.val (BitVec.ofNat 64 (chunkBits s w tag.val q.val))).pass 4)))
    ∧ (¬ s.waitOver wid w x = true → run = .next (s.updWave wid (fun w => { w with park := .poll x }))) := by
  obtain ⟨goes, polls⟩ := uniStep_waits ready (f := fun s wid w => chwaitRes all tag.val q.val d.val (w.sreg a.val).toNat s wid w)
    (x := .chunks all tag.val q.val (w.sreg a.val).toNat) (by simp only [chwaitRes, tagCauses_none flat launch inside]; rfl)
  refine ⟨fun ended => (goes ended).trans (congrArg _ ?_), polls⟩
  rw [State.updWave_updWave, State.updWave_const (issued_find ready)]

/-- TFIRST (R335). -/
theorem tfirst_moves (ready : UniReady s wid w [d.val] [] []) (flat : w.gates = []) (launch : s.lrecOf wid = some r)
    (inside : r.holdsTags (w.sreg a.val).toNat) :
    exec (.tfirst d a) s = .next (s.updWave wid (fun _ => (w.setS d.val (BitVec.ofNat 64
      ((((List.range 64).filter (fun i => (w.sreg a.val).getLsbD i)).find? (fun i => s.tagOf w.team i == .set)).getD 64))).pass 4)) := by
  refine (uniStep_ready ready _).trans (congrArg _ ?_)
  simp only [tagCauses_none flat launch inside, bitOf_toNat, State.updWave_updWave, List.find?_filter, Bool.decide_and, Bool.decide_eq_true]
  exact State.updWave_const (issued_find ready) _

/-- TCLR (R335). -/
theorem tclr_clears (ready : UniReady s wid w [] [] []) (flat : w.gates = []) (launch : s.lrecOf wid = some r)
    (inside : r.holdsTags (w.sreg a.val).toNat) :
    ∃ u, exec (.tclr a) s = .next u ∧ Tbl.find u.waves wid = some (w.pass 4) ∧ u.mem = s.mem
      ∧ ∀ i, u.tagOf w.team i = if i ∈ (List.range 64).filter (fun i => (w.sreg a.val).getLsbD i) ∧ s.tagOf w.team i = .set then .clear
        else s.tagOf w.team i := by
  refine ⟨_, uniStep_ready ready _, ?_⟩
  simp only [tagCauses_none flat launch inside, bitOf_toNat]
  obtain ⟨waves, mem, tags⟩ := foldl_setTag_clear w.team
    ((List.range 64).filter (fun i => (w.sreg a.val).getLsbD i && s.tagOf w.team i == .set)) s
  refine ⟨?_, mem, fun i => (tags i).trans ?_⟩
  · rw [State.updWave_find_self, waves, issued_find ready]
    rfl
  · simp [and_assoc]

/-- The causes of the instructions that name the tags of a mask: of a gate callee, and outside the window (R185, R237). -/
theorem mask_causes (ready : UniReady s wid w [d.val] [] []) {c : Nat} (cause : tagCauses (w.sreg a.val).toNat s wid w = some c) :
    ∀ i ∈ [Instr.twaitAll a, .twaitAny a, .tfirst d a, .tclr a], UniTraps i s wid w c := by
  have bare := UniIssued.noOperands ready.1
  simp only [List.mem_cons, List.not_mem_nil, or_false, forall_eq_or_imp, forall_eq]
  exact ⟨uniStep_cause bare (by rw [twaitRes, cause]), uniStep_cause bare (by rw [twaitRes, cause]), uniStep_cause ready (by simp only [cause]),
    uniStep_cause bare (by simp only [cause])⟩

theorem chunk_causes (ready : UniReady s wid w [d.val] [] []) {c : Nat} (cause : tagCauses (2 ^ tag.val) s wid w = some c) :
    ∀ i ∈ [Instr.chwaitAll tag q d a, .chwaitAny tag q d a], UniTraps i s wid w c := by
  simp only [List.mem_cons, List.not_mem_nil, or_false, forall_eq_or_imp, forall_eq]
  exact ⟨uniStep_cause ready (by rw [chwaitRes, cause]), uniStep_cause ready (by rw [chwaitRes, cause])⟩

end

/-- Settles O39: each wait goes on or polls by whether it is over, and what that means of tags, chunk bits and steps is said once for each kind of wait. -/
theorem tagAndMatrixWaits : Obligations.TagAndMatrixWaits := by
  unfold Obligations.TagAndMatrixWaits
  refine ⟨fun s wid w t r d a tag q ready team launch => ⟨fun flat _ inside => ?_, fun flat _ inside => ?_, fun flat _ outside => ?_, fun gate named => ?_,
    fun flat _ outside => ?_, fun gate => ?_⟩, fun s wid w r tag a issued launch gate => (mwait_causes issued launch).1 gate,
    fun s wid w r tag a issued launch flat => ⟨fun inside met => ?_, fun inside unmet => ?_, fun outside => (mwait_causes issued launch).2 flat outside⟩⟩
  · have holds := holdsTags_toNat.mpr inside
    have bare := UniIssued.noOperands ready.1
    obtain ⟨allGoes, allPolls⟩ := twait_waits bare true flat launch holds
    obtain ⟨anyGoes, anyPolls⟩ := twait_waits bare false flat launch holds
    rw [waitOver_tags] at allGoes allPolls anyGoes anyPolls
    refine ⟨fun none_ => allGoes (.inl none_), fun ⟨i, hi, busy⟩ => allPolls ?_, fun met => anyGoes (met.symm.imp id fun some_ => ⟨rfl, some_⟩),
      fun unset ⟨i, hi, busy⟩ => anyPolls ?_, tfirst_moves ready flat launch holds, tclr_clears bare flat launch holds⟩
    · rintro (none_ | ⟨any_, -⟩)
      · exact none_ i hi busy
      · cases any_
    · rintro (none_ | ⟨-, k, hk, set_⟩)
      · exact none_ i hi busy
      · exact unset k hk set_
  · have holds := (holdsTags_two_pow tag.isLt).mpr inside
    obtain ⟨allGoes, allPolls⟩ := chwait_waits (q := q) (a := a) ready true flat launch holds
    obtain ⟨anyGoes, anyPolls⟩ := chwait_waits (q := q) (a := a) ready false flat launch holds
    rw [waitOver_chunks team, if_pos rfl, chunkBits_eq team] at allGoes
    rw [waitOver_chunks team, if_pos rfl] at allPolls
    rw [waitOver_chunks team, if_neg Bool.false_ne_true, chunkBits_eq team] at anyGoes
    rw [waitOver_chunks team, if_neg Bool.false_ne_true] at anyPolls
    refine ⟨fun met => allGoes met, fun busy ⟨i, hi, named, unset⟩ => allPolls ?_, fun met => anyGoes met, fun busy some_ none_ => anyPolls ?_⟩
    · rintro (idle | met)
      · exact idle busy
      · exact Bool.false_ne_true (unset.symm.trans (met i hi named))
    · rintro (idle | zero | ⟨i, hi, named, met⟩)
      · exact idle busy
      · exact some_ zero
      · exact Bool.false_ne_true ((none_ i hi named).symm.trans met)
  · exact mask_causes ready (tagCauses_range flat launch (mt holdsTags_toNat.mp fun all => outside.elim fun i hi => hi.2 (all i hi.1)))
  · exact mask_causes ready (tagCauses_gate gate (fun zero => named (BitVec.eq_of_toNat_eq zero)))
  · exact chunk_causes ready (tagCauses_range flat launch (mt (holdsTags_two_pow tag.isLt).mp outside))
  · exact chunk_causes ready (tagCauses_gate gate (Nat.two_pow_pos _).ne')
  · exact (mwait_waits issued flat launch inside).1 ((waitOver_consumed ..).mpr met)
  · exact (mwait_waits issued flat launch inside).2 (mt (waitOver_consumed ..).mp unmet)

end Sys2Proof.Machine
end

section
/-!
SUPPORT. Translation control (O57): the control register of a record queue, what the TLBs keep, and FQ_RESOLVE at the wave it is looked at for: what its cores
and waves do for other waves leaves that one, and its own core does for it what it waits for.
-/

namespace Sys2Proof.Machine

set_option Elab.async false

variable {s t u : State} {wid p asid page : Nat} {w : Wave} {fail : Bool}

/-! ## TLB_INV (R193) -/

theorem core_dropTlb (s : State) (f : TlbEntry → Bool) (c : Nat) : ((s.dropTlb f).core c).tlb = (s.core c).tlb.filter (fun e => !f e) :=
  congrArg Core.tlb (Tbl.getD_map s.cores c Core.reset (fun k => { k with tlb := k.tlb.filter (fun x => !f x) }) rfl)

theorem Tbl.find_map {α : Type} (l : Tbl α) (f : α → α) (k : Nat) : Tbl.find (l.map fun e => (e.1, f e.2)) k = (Tbl.find l k).map f := by
  induction l with
  | nil => rfl
  | cons e l ih =>
    obtain ⟨j, x⟩ := e
    by_cases h : j = k <;> simp [Tbl.find, h, ih]

theorem find_dropTlb (s : State) (f : TlbEntry → Bool) (c : Nat) :
    Tbl.find (s.dropTlb f).ctlb c = (Tbl.find s.ctlb c).map (fun l => l.filter (fun e => !f e)) := Tbl.find_map ..

/-! ## The record queues (R198, R228) -/

/-- ENABLE after a write of the control register: a SIZE beyond 12 lets it not rise. -/
def RecQueue.onAfter (q : RecQueue) (v : Word) : Bool := v.getLsbD 31 && (q.enabled || decide (fieldOf v 30 27 < 13))

theorem writeCtl_eq (q : RecQueue) (v : Word) : q.writeCtl v
    = let c := setField (setField v 19 0 0) 31 31 (bnat (q.onAfter v))
      if q.onAfter v && !q.enabled then { q with ctl := c, tail := 0, head := 0, lost := 0 } else { q with ctl := c } := by
  rw [RecQueue.writeCtl, fieldOf_eq_one]
  rfl

theorem writeCtl_ctl (q : RecQueue) (v : Word) : (q.writeCtl v).ctl = setField (setField v 19 0 0) 31 31 (bnat (q.onAfter v)) := by
  rw [writeCtl_eq]
  dsimp only
  split <;> rfl

theorem writeCtl_base (q : RecQueue) (v : Word) : (q.writeCtl v).base = q.base := by
  rw [writeCtl_eq]
  dsimp only
  split <;> rfl

theorem writeCtl_enabled (q : RecQueue) (v : Word) : (q.writeCtl v).enabled = q.onAfter v := by
  rw [RecQueue.enabled, writeCtl_ctl, fieldOf_setField_self _ _ (by decide) (by decide)]
  cases q.onAfter v <;> rfl

theorem writeCtl_indices (q : RecQueue) (v : Word) : ((q.writeCtl v).tail, (q.writeCtl v).head, (q.writeCtl v).lost)
    = if (q.writeCtl v).enabled = true ∧ q.enabled = false then (0, 0, 0) else (q.tail, q.head, q.lost) := by
  rw [writeCtl_enabled, writeCtl_eq]
  dsimp only
  cases q.onAfter v <;> cases q.enabled <;> simp

theorem writeCtl_fields (q : RecQueue) (v : Word) :
    fieldOf (q.writeCtl v).ctl 30 20 = fieldOf v 30 20 ∧ fieldOf (q.writeCtl v).ctl 19 0 = 0 := by
  rw [writeCtl_ctl, fieldOf_setField_ne _ _ (by decide) (by decide) (by decide), fieldOf_setField_ne _ _ (by decide) (by decide) (by decide),
    fieldOf_setField_ne _ _ (by decide) (by decide) (by decide), fieldOf_setField_self _ _ (by decide) (by decide)]
  exact ⟨rfl, rfl⟩

/-- Where no entry of a side log waits, nothing goes on as a fault queue starts. -/
theorem drainLogs_of_empty (empty : ∀ c, (s.core c).sideLog = []) : s.drainLogs p = s := by
  unfold State.drainLogs
  induction s.coresOf p with
  | nil => rfl
  | cons c l ih => simpa [empty] using ih

/-! ## Records of the fault queue (R197, R198) -/

/-- What a record of the fault queue changes: HBM, with what is known of it and the waits on its words, the indices of fault queues, interrupts. -/
structure FaultFrame (s t : State) : Prop where
  frame : t = { s with mem := t.mem, stale := t.stale, poison := t.poison, kettle := t.kettle, sent := t.sent, applied := t.applied
                       peerWays := t.peerWays, agenda := t.agenda, fresh := t.fresh, parts := t.parts, vds := t.vds, pfMsix := t.pfMsix
                       outbox := t.outbox }
  parts : ∀ q, t.part q = { s.part q with fq := { (s.part q).fq with tail := (t.part q).fq.tail } }

theorem FaultFrame.refl (s : State) : FaultFrame s s := ⟨rfl, fun _ => rfl⟩

theorem FaultFrame.trans (h : FaultFrame s t) (k : FaultFrame t u) : FaultFrame s u := by
  refine ⟨?_, fun q => ?_⟩
  · have e := k.frame
    rw [h.frame] at e
    exact e
  · have e := k.parts q
    rw [h.parts q] at e
    exact e

theorem storeHome_faultFrame (s : State) (a : Nat) (bs : List Byte) : FaultFrame s (s.storeHome a bs) := by
  have f := (storeHome_stores s a bs).frame
  refine ⟨f.trans ?_, fun q => ?_⟩
  · rw [f]
  · have same : (s.storeHome a bs).parts = s.parts := congrArg (·.parts) f
    rw [State.part, State.part, same]

theorem advance_faultFrame (s : State) (p : Nat) :
    FaultFrame s (s.updPart p (fun x => { x with fq := { x.fq with tail := x.fq.tail + 1 } })) := by
  refine ⟨rfl, fun q => ?_⟩
  by_cases h : q = p
  · subst h
    rw [State.part_updPart_self]
  · rw [State.part_updPart_ne _ _ h]

theorem raiseIrq_faultFrame (s : State) (fn : HostFn) (vec : Nat) : FaultFrame s (s.raiseIrq fn vec) := by
  obtain ⟨v, m, o, e⟩ := raiseIrq_eq s fn vec
  rw [e]
  exact ⟨rfl, fun _ => rfl⟩

theorem fqRecords_faultFrame (s : State) (p : Nat) (rs : List FaultRec) : FaultFrame s (s.fqRecords p rs) := by
  unfold State.fqRecords
  extract_lets u
  have written : FaultFrame s u := List.foldlRecOn rs _ (motive := FaultFrame s) (.refl s) fun t h r _ =>
    (h.trans (storeHome_faultFrame t _ _)).trans (advance_faultFrame _ p)
  split
  · exact written
  · exact written.trans (raiseIrq_faultFrame ..)

/-! ## FQ_RESOLVE beside a wave (R199) -/

theorem Tbl.filter_put_ne {α : Type} (l : Tbl α) {k j : Nat} (v : α) (h : j ≠ k) :
    (Tbl.put l k v).filter (fun e => e.1 == j) = l.filter (fun e => e.1 == j) := by
  induction l with
  | nil => simp [Tbl.put, Ne.symm h]
  | cons e l ih =>
    obtain ⟨i, x⟩ := e
    simp only [Tbl.put]
    split
    · subst_vars
      simp [Ne.symm h]
    · split
      · simp [Ne.symm h]
      · simp [List.filter_cons, ih]

theorem Tbl.find_eq_filter {α : Type} (l : Tbl α) (k : Nat) : Tbl.find l k = (l.filter (fun e => e.1 == k)).head?.map (fun e => e.2) := by
  induction l with
  | nil => rfl
  | cons e l ih =>
    obtain ⟨i, x⟩ := e
    by_cases h : i = k <;> simp [Tbl.find, h, ih]

/-- What the resolution of a page changes in no case: where waves stand, what the clocks and the fabric do, the registers of the fault queues, and what
waits in the FIFO of a core. -/
structure ResolveFrame (s t : State) : Prop where
  teams : t.teams = s.teams
  grids : t.grids = s.grids
  hobs : t.hobs = s.hobs
  jobs : t.jobs = s.jobs
  fab : t.fab = s.fab
  fq : ∀ q, (t.part q).fq.ctl = (s.part q).fq.ctl
  logs : ∀ c, (t.core c).sideLog = (s.core c).sideLog
  inbound : ∀ c, ∀ x ∈ (s.core c).inbound, x ∈ (t.core c).inbound

/-- `ResolveFrame` for what leaves the rows of a wave. -/
structure BesideWave (wid : Nat) (s t : State) : Prop extends ResolveFrame s t where
  rows : t.waves.filter (fun e => e.1 == wid) = s.waves.filter (fun e => e.1 == wid)

theorem ResolveFrame.refl (s : State) : ResolveFrame s s := ⟨rfl, rfl, rfl, rfl, rfl, fun _ => rfl, fun _ => rfl, fun _ _ h => h⟩

theorem ResolveFrame.trans (h : ResolveFrame s t) (k : ResolveFrame t u) : ResolveFrame s u :=
  ⟨k.teams.trans h.teams, k.grids.trans h.grids, k.hobs.trans h.hobs, k.jobs.trans h.jobs, k.fab.trans h.fab, fun q => (k.fq q).trans (h.fq q),
    fun c => (k.logs c).trans (h.logs c), fun c x hx => k.inbound c x (h.inbound c x hx)⟩

theorem BesideWave.refl (s : State) : BesideWave wid s s := ⟨.refl s, rfl⟩

theorem BesideWave.trans (h : BesideWave wid s t) (k : BesideWave wid t u) : BesideWave wid s u := ⟨h.1.trans k.1, k.rows.trans h.rows⟩

theorem BesideWave.find (h : BesideWave wid s t) : Tbl.find t.waves wid = Tbl.find s.waves wid := by
  rw [Tbl.find_eq_filter, h.rows, ← Tbl.find_eq_filter]

theorem BesideWave.coreOf (h : BesideWave wid s t) : t.coreOf wid = s.coreOf wid := by
  simp only [State.coreOf, State.placeOf, h.find, h.teams]

theorem BesideWave.partOf (h : BesideWave wid s t) : t.partOf wid = s.partOf wid := by
  simp only [State.partOf, h.find, h.teams, h.grids]

theorem ResolveFrame.asleep (h : ResolveFrame s t) (c : Nat) : t.asleep c = s.asleep c := by rw [State.asleep, State.asleep, State.hob, h.hobs]; rfl

theorem ResolveFrame.updWave (s : State) (v : Nat) (f : Wave → Wave) : ResolveFrame s (s.updWave v f) :=
  ⟨rfl, rfl, rfl, rfl, rfl, fun _ => rfl, fun _ => rfl, fun _ _ h => h⟩

theorem BesideWave.updWave {v : Nat} (other : v ≠ wid) (s : State) (f : Wave → Wave) : BesideWave wid s (s.updWave v f) := by
  refine ⟨.updWave s v f, ?_⟩
  rw [State.updWave_waves, Tbl.upd]
  split
  · rfl
  · exact Tbl.filter_put_ne _ _ other.symm

theorem FaultFrame.besideWave (h : FaultFrame s t) : BesideWave wid s t := by
  have parts := h.parts
  have f := h.frame
  refine ⟨⟨?_, ?_, ?_, ?_, ?_, fun q => ?_, fun c => ?_, fun c x hx => ?_⟩, ?_⟩
  case refine_6 => rw [parts q]
  case refine_8 => rw [f]; exact hx
  all_goals rw [f]
  rfl

theorem recordAgain_faultFrame (s : State) (v : Nat) (x : Wave) (y : PageWait) (level : Nat) : FaultFrame s (s.recordAgain p v x y level) := by
  unfold State.recordAgain
  exact fqRecords_faultFrame ..

theorem resolveWait_beside {v : Nat} (other : v ≠ wid) (s : State) (x : Wave) (y : PageWait) : BesideWave wid s (s.resolveWait p v x y) := by
  unfold State.resolveWait
  split
  · exact (recordAgain_faultFrame ..).besideWave
  · exact .updWave other s _

theorem resolveWait_frame (s : State) (v : Nat) (x : Wave) (y : PageWait) : ResolveFrame s (s.resolveWait p v x y) := by
  unfold State.resolveWait
  split
  · exact ((recordAgain_faultFrame ..).besideWave (wid := v)).toResolveFrame
  · exact .updWave s v _

theorem resolveWave_frame (s : State) (v : Nat) (x : Wave) : ResolveFrame s (s.resolveWave p asid page fail v x) := by
  unfold State.resolveWave
  extract_lets on xs
  split
  · exact .refl s
  · split
    · exact .updWave s v _
    · exact List.foldlRecOn xs _ (motive := ResolveFrame s) (.refl s) fun t h y _ => h.trans (resolveWait_frame t v x y)

theorem BesideWave.foldl {α : Type} {f : State → α → State} {l : List α} (hf : ∀ s, ∀ a ∈ l, BesideWave wid s (f s a)) (s : State) :
    BesideWave wid s (l.foldl f s) :=
  List.foldlRecOn l f (motive := BesideWave wid s) (.refl s) fun t h a ha => h.trans (hf t a ha)

theorem resolveWave_beside {v : Nat} (other : v ≠ wid) (s : State) (x : Wave) : BesideWave wid s (s.resolveWave p asid page fail v x) := by
  unfold State.resolveWave
  extract_lets on xs
  split
  · exact .refl s
  · split
    · exact .updWave other s _
    · exact .foldl (fun s y _ => resolveWait_beside other s x y) s

/-! ## FQ_RESOLVE at a core -/

/-- The wave is there, and every row of it names the team. -/
def AtTeam (s : State) (wid : Nat) (x : Wave) (team : Nat) : Prop :=
  Tbl.find s.waves wid = some x ∧ ∀ e ∈ s.waves, e.1 = wid → e.2.team = team

theorem mem_of_find {α : Type} {l : Tbl α} {k : Nat} {x : α} (h : Tbl.find l k = some x) : (k, x) ∈ l := by
  induction l with
  | nil => cases h
  | cons e l ih =>
    obtain ⟨j, y⟩ := e
    rw [Tbl.find] at h
    split at h
    · cases h
      subst_vars
      exact .head _
    · exact .tail _ (ih h)

theorem AtTeam.team {x : Wave} {T : Nat} (h : AtTeam s wid x T) : x.team = T := h.2 (wid, x) (mem_of_find h.1) rfl

theorem AtTeam.beside {x : Wave} {T : Nat} (h : AtTeam s wid x T) (f : BesideWave wid s t) : AtTeam t wid x T := by
  refine ⟨f.find.trans h.1, fun e he same => h.2 e ?_ same⟩
  have row : e ∈ t.waves.filter (fun e => e.1 == wid) := List.mem_filter.mpr ⟨he, beq_iff_eq.mpr same⟩
  exact (List.mem_filter.mp (f.rows ▸ row)).1

theorem AtTeam.updWave {x : Wave} {T : Nat} (h : AtTeam s wid x T) {f : Wave → Wave} (keeps : (f x).team = T) : AtTeam (s.updWave wid f) wid (f x) T := by
  refine ⟨by rw [State.updWave_find_self, h.1]; rfl, fun e he same => ?_⟩
  rw [State.updWave_waves, Tbl.upd, h.1] at he
  rcases Tbl.mem_put _ _ _ _ he with rfl | there
  · exact keeps
  · exact h.2 e there same

variable {sel : Team → Bool} {c : Nat}

/-- The waves of a core, of the teams that `sel` names, at which a resolved page is looked at. -/
def State.resolved (s : State) (c p : Nat) (sel : Team → Bool) : List (Nat × Wave) :=
  s.waves.filter (fun e => s.partOf e.1 == p && s.coreOf e.1 == c && (Tbl.find s.teams e.2.team).any sel)

/-- Where no job and no side log waits, the waves alone are looked at. -/
theorem resolveAt_waves (noJobs : s.jobs = []) (noLogs : ∀ c, (s.core c).sideLog = []) :
    s.resolveAt c p asid page fail sel = (s.resolved c p sel).foldl (fun s e => s.resolveWave p asid page fail e.1 e.2) s := by
  unfold State.resolveAt
  extract_lets ours s1 s2 mine
  have f : ResolveFrame s s1 := List.foldlRecOn _ _ (motive := ResolveFrame s) (.refl s) fun t h e _ => h.trans (resolveWave_frame t e.1 e.2)
  have s2_eq : s2 = s1 := by
    simp only [s2]
    rw [show s1.jobs = [] from f.jobs.trans noJobs]
    rfl
  have none_ : mine = [] := by
    simp only [mine]
    rw [s2_eq, f.logs c, noLogs c]
    rfl
  rw [none_]
  exact s2_eq

/-- A core at which the wave does not stand, or teams that are not its team, leave it. -/
theorem resolveAt_beside {x : Wave} {T : Nat} (there : AtTeam s wid x T) (away : s.coreOf wid ≠ c ∨ (Tbl.find s.teams T).any sel = false)
    (noJobs : s.jobs = []) (noLogs : ∀ c, (s.core c).sideLog = []) : BesideWave wid s (s.resolveAt c p asid page fail sel) := by
  rw [resolveAt_waves noJobs noLogs]
  refine .foldl (fun t e he => ?_) s
  refine resolveWave_beside ?_ t e.2
  rintro rfl
  simp only [State.resolved, List.mem_filter, Bool.and_eq_true, beq_iff_eq] at he
  obtain ⟨row, ⟨-, core⟩, team⟩ := he
  rcases away with other | not_
  · exact other core
  · rw [there.2 e row rfl, not_] at team
    cases team

/-- At its core the wave is looked at once, as it is. -/
theorem resolveAt_visits (alone : s.waves.filter (fun e => e.1 == wid) = [(wid, w)]) (part : s.partOf wid = p) (core : s.coreOf wid = c)
    (named : (Tbl.find s.teams w.team).any sel = true) (noJobs : s.jobs = []) (noLogs : ∀ c, (s.core c).sideLog = []) :
    ∃ t, BesideWave wid s t ∧ BesideWave wid (t.resolveWave p asid page fail wid w) (s.resolveAt c p asid page fail sel) := by
  have row : (s.resolved c p sel).filter (fun e => e.1 == wid) = [(wid, w)] := by
    rw [State.resolved, List.filter_comm, alone]
    simp [part, core, named]
  obtain ⟨before, rest, split_, none_, -, none'⟩ := List.filter_eq_cons_iff.mp row
  rw [resolveAt_waves noJobs noLogs, split_, List.foldl_append, List.foldl_cons]
  refine ⟨_, .foldl (fun t e he => resolveWave_beside ?_ t e.2) s, .foldl (fun t e he => resolveWave_beside ?_ t e.2) _⟩
  · exact fun same => none_ e he (beq_iff_eq.mpr same)
  · exact fun same => List.filter_eq_nil_iff.mp none' e he (beq_iff_eq.mpr same)

/-! ## FQ_RESOLVE at the cores -/

/-- What a write of FQ_RESOLVE does at a core. -/
def State.resolveCore (s : State) (p asid page : Nat) (fail : Bool) (c : Nat) : State :=
  (s.comes c (.resolve p asid page fail) (fun s => s.resolveAt c p asid page fail (fun t => t.loc != .saved))).resolveAt c p asid page fail
    (fun t => t.loc == .saved)

theorem toFifo_beside (s : State) (c : Nat) (x : Packet) : BesideWave wid s (s.toFifo c x) := by
  have cores : ∀ k, (s.toFifo c x).core k = if k = c then { s.core c with inbound := (s.core c).inbound ++ [x] } else s.core k := by
    intro k
    split
    · next h =>
      subst h
      exact State.core_updCore_self ..
    · next h => exact State.core_updCore_ne _ _ h
  refine ⟨⟨rfl, rfl, rfl, rfl, rfl, fun _ => rfl, fun k => ?_, fun k y hy => ?_⟩, rfl⟩ <;> rw [cores]
  · split <;> simp_all
  · split <;> simp_all

/-- What stays as cores are told of a resolved page, and what was true of the state before. -/
structure Quiet (s : State) : Prop where
  jobs : s.jobs = []
  logs : ∀ c, (s.core c).sideLog = []

theorem Quiet.frame (h : Quiet s) (f : ResolveFrame s t) : Quiet t := ⟨f.jobs.trans h.jobs, fun c => (f.logs c).trans (h.logs c)⟩

theorem resolveCore_beside {x : Wave} {T : Nat} (there : AtTeam s wid x T) (away : s.coreOf wid ≠ c) (quiet : Quiet s) :
    BesideWave wid s (s.resolveCore p asid page fail c) := by
  have first : BesideWave wid s (s.comes c (.resolve p asid page fail) (fun s => s.resolveAt c p asid page fail (fun t => t.loc != .saved))) := by
    unfold State.comes
    split
    · exact toFifo_beside ..
    · exact resolveAt_beside there (.inl away) quiet.jobs quiet.logs
  have there' := there.beside first
  refine first.trans (resolveAt_beside there' (.inl ?_) (quiet.frame first.1).jobs (quiet.frame first.1).logs)
  rwa [first.coreOf]

theorem resolveCores_beside {x : Wave} {T : Nat} {l : List Nat} (there : AtTeam s wid x T) (away : s.coreOf wid ∉ l) (quiet : Quiet s) :
    BesideWave wid s (l.foldl (fun s c => s.resolveCore p asid page fail c) s) := by
  induction l generalizing s with
  | nil => exact .refl s
  | cons c l ih =>
    have first := resolveCore_beside (p := p) (asid := asid) (page := page) (fail := fail) there (fun e => away (e ▸ .head _)) quiet
    have there' := there.beside first
    refine first.trans (ih there' ?_ (quiet.frame first.1))
    rw [first.coreOf]
    exact fun h => away (.tail _ h)

/-- The core of a relocking hob: the packet waits, and the wave is as it was (R15). -/
theorem resolveCore_asleep {x : Wave} {T : Nat} {k : Team} (there : AtTeam s wid x T) (team : Tbl.find s.teams T = some k) (here : k.loc ≠ .saved)
    (asleep : s.asleep c = true) (quiet : Quiet s) :
    BesideWave wid s (s.resolveCore p asid page fail c) ∧ Packet.resolve p asid page fail ∈ ((s.resolveCore p asid page fail c).core c).inbound := by
  have first : BesideWave wid s (s.toFifo c (.resolve p asid page fail)) := toFifo_beside ..
  have second : BesideWave wid (s.toFifo c (.resolve p asid page fail)) (s.resolveCore p asid page fail c) := by
    rw [State.resolveCore, State.comes, if_pos asleep]
    refine resolveAt_beside (there.beside first) (.inr ?_) (quiet.frame first.1).jobs (quiet.frame first.1).logs
    rw [first.teams, team]
    simpa using here
  refine ⟨first.trans second, second.inbound _ _ ?_⟩
  rw [State.toFifo, State.core_updCore_self]
  exact List.mem_append_right _ (.head _)

/-- The wave's own core, awake: its wait is looked at once. -/
theorem resolveCore_visits {k : Team} (there : AtTeam s wid w w.team) (alone : s.waves.filter (fun e => e.1 == wid) = [(wid, w)]) (part : s.partOf wid = p)
    (team : Tbl.find s.teams w.team = some k) (awake : s.asleep (s.coreOf wid) = false) (quiet : Quiet s) :
    ∃ t, BesideWave wid s t ∧ ∀ x, AtTeam (t.resolveWave p asid page fail wid w) wid x w.team →
      BesideWave wid (t.resolveWave p asid page fail wid w) (s.resolveCore p asid page fail (s.coreOf wid)) := by
  have eq : s.resolveCore p asid page fail (s.coreOf wid) = (s.resolveAt (s.coreOf wid) p asid page fail (fun t => t.loc != .saved)).resolveAt
      (s.coreOf wid) p asid page fail (fun t => t.loc == .saved) := by
    rw [State.resolveCore, State.comes, if_neg (by simp [awake])]
  rw [eq]
  by_cases saved : k.loc = .saved
  · have first : BesideWave wid s (s.resolveAt (s.coreOf wid) p asid page fail (fun t => t.loc != .saved)) :=
      resolveAt_beside there (.inr (by simp [team, saved])) quiet.jobs quiet.logs
    obtain ⟨t, before, rest⟩ := resolveAt_visits (asid := asid) (page := page) (fail := fail) (sel := fun t => t.loc == .saved) (first.rows.trans alone)
      (first.partOf.trans part) first.coreOf (by simp [first.teams, team, saved]) (quiet.frame first.1).jobs (quiet.frame first.1).logs
    exact ⟨t, first.trans before, fun x _ => rest⟩
  · obtain ⟨t, before, rest⟩ := resolveAt_visits (asid := asid) (page := page) (fail := fail) (sel := fun t => t.loc != .saved) alone part rfl
      (by simp [team, saved]) quiet.jobs quiet.logs
    refine ⟨t, before, fun x there' => rest.trans ?_⟩
    have whole : ResolveFrame s _ := (before.1.trans (resolveWave_frame t wid w)).trans rest.1
    refine resolveAt_beside (there'.beside rest) (.inr ?_) (quiet.frame whole).jobs (quiet.frame whole).logs
    rw [whole.teams, team]
    simp [saved]

/-! ## What a resolved page does for its wave -/

/-- With FAIL the waits on the page are marked. -/
def Wave.failedOn (asid page : Nat) (w : Wave) : Wave :=
  w.mapPends (fun q => { q with pages := q.pages.map (fun y => if y.asid == asid && y.page == page then { y with failed := true } else y) })

/-- Without FAIL a wait is over: its page goes from what an access waits for. -/
def Pend.without (x : PageWait) (q : Pend) : Pend := if q.pages.contains x then { q with pages := q.pages.filter (fun y => y != x), absent := [] } else q

/-- The waits of a wave on a page. -/
def Wave.waitsOn (asid page : Nat) (w : Wave) : List PageWait :=
  ((w.pend :: w.pends).flatMap (fun q => q.pages)).filter (fun y => y.asid == asid && y.page == page)

theorem waitsOn_ne_nil (waits : ∃ q ∈ w.pend :: w.pends, ∃ y ∈ q.pages, y.asid = asid ∧ y.page = page) : (w.waitsOn asid page).isEmpty = false := by
  obtain ⟨q, hq, y, hy, mine⟩ := waits
  rw [List.isEmpty_eq_false_iff_exists_mem]
  exact ⟨y, List.mem_filter.mpr ⟨List.mem_flatMap.mpr ⟨q, hq, hy⟩, by simp [mine]⟩⟩

theorem resolveWave_fails {T : Nat} (there : AtTeam s wid w T) (some_ : (w.waitsOn asid page).isEmpty = false) :
    AtTeam (s.resolveWave p asid page true wid w) wid (w.failedOn asid page) T := by
  rw [State.resolveWave]
  dsimp only
  rw [if_neg (by rw [← Wave.waitsOn, some_]; exact Bool.false_ne_true), if_pos rfl]
  exact there.updWave there.team

/-- Where the fault queue takes no record, a wait that is translated again is over. -/
theorem foldl_resolveWait {T : Nat} (off : ∀ n, s.fqRoom p n = false) (xs : List PageWait) {x : Wave} (there : AtTeam s wid x T) :
    AtTeam (xs.foldl (fun s y => s.resolveWait p wid w y) s) wid (xs.foldl (fun x y => x.mapPends (Pend.without y)) x) T := by
  induction xs generalizing s x with
  | nil => exact there
  | cons y xs ih =>
    have none_ : s.faultsAgain p y = none := by simp [State.faultsAgain, off]
    have step : s.resolveWait p wid w y = s.updWave wid (fun w => w.mapPends (Pend.without y)) := by
      rw [State.resolveWait, none_]
      rfl
    rw [List.foldl_cons, List.foldl_cons, step]
    exact ih (s := s.updWave wid (fun w => w.mapPends (Pend.without y))) off (there.updWave (f := fun w => w.mapPends (Pend.without y)) there.team)

theorem foldl_mapPends (xs : List PageWait) (w : Wave) :
    xs.foldl (fun x y => x.mapPends (Pend.without y)) w = w.mapPends (fun q => xs.foldl (fun q y => q.without y) q) := by
  induction xs generalizing w with
  | nil => simp [Wave.mapPends]
  | cons y xs ih =>
    rw [List.foldl_cons, ih]
    simp [Wave.mapPends]

theorem foldl_without (xs : List PageWait) (q : Pend) : xs.foldl (fun q y => q.without y) q
    = if ∃ y ∈ q.pages, y ∈ xs then { q with pages := q.pages.filter (fun y => y ∉ xs), absent := [] } else q := by
  induction xs generalizing q with
  | nil => simp
  | cons x xs ih =>
    rw [List.foldl_cons, ih]
    by_cases here : x ∈ q.pages
    · have without : q.without x = { q with pages := q.pages.filter (fun y => y != x), absent := [] } := if_pos (List.contains_iff_mem.mpr here)
      refine Eq.trans ?_ (if_pos ⟨x, here, .head _⟩).symm
      rw [without]
      have pages : (q.pages.filter (fun y => y != x)).filter (fun y => y ∉ xs) = q.pages.filter (fun y => y ∉ x :: xs) := by
        rw [List.filter_filter]
        refine List.filter_congr fun y _ => ?_
        by_cases e : y = x <;> by_cases m : y ∈ xs <;> simp [e, m]
      split
      · rw [← pages]
      · next none_ =>
        have all : (q.pages.filter (fun y => y != x)).filter (fun y => y ∉ xs) = q.pages.filter (fun y => y != x) :=
          List.filter_eq_self.mpr fun y hy => decide_eq_true fun m => none_ ⟨y, hy, m⟩
        rw [← pages, all]
    · have without : q.without x = q := if_neg (by rw [List.contains_iff_mem]; exact here)
      rw [without]
      have same : ∀ y ∈ q.pages, y ∈ x :: xs ↔ y ∈ xs := fun y hy => by
        rw [List.mem_cons, or_iff_right]
        rintro rfl
        exact here hy
      rw [if_congr (exists_congr fun y => and_congr_right fun hy => (same y hy).symm) ?_ rfl]
      rw [List.filter_congr fun y hy => decide_eq_decide.mpr (not_congr (same y hy).symm)]

theorem mapPends_congr {f g : Pend → Pend} (h : ∀ q ∈ w.pend :: w.pends, f q = g q) : w.mapPends f = w.mapPends g := by
  simp only [Wave.mapPends, h w.pend (.head _), List.map_congr_left fun q hq => h q (.tail _ hq)]

/-- Without FAIL, where the fault queue is off, no wait on the page is left. -/
theorem resolveWave_retries {T : Nat} (there : AtTeam s wid w T) (some_ : (w.waitsOn asid page).isEmpty = false) (off : ∀ n, s.fqRoom p n = false) :
    AtTeam (s.resolveWave p asid page false wid w) wid (w.mapPends (fun q => if ∃ y ∈ q.pages, y.asid = asid ∧ y.page = page
      then { q with pages := q.pages.filter (fun y => ¬ (y.asid = asid ∧ y.page = page)), absent := [] } else q)) T := by
  have named : ∀ q ∈ w.pend :: w.pends, ∀ y ∈ q.pages, y ∈ w.waitsOn asid page ↔ y.asid = asid ∧ y.page = page := fun q hq y hy => by
    rw [Wave.waitsOn, List.mem_filter, and_iff_right (List.mem_flatMap.mpr ⟨q, hq, hy⟩)]
    simp
  have left : w.mapPends (fun q => (w.waitsOn asid page).foldl (fun q y => q.without y) q)
      = w.mapPends (fun q => if ∃ y ∈ q.pages, y.asid = asid ∧ y.page = page
        then { q with pages := q.pages.filter (fun y => ¬ (y.asid = asid ∧ y.page = page)), absent := [] } else q) := by
    refine mapPends_congr fun q hq => (foldl_without _ q).trans ?_
    rw [if_congr (exists_congr fun y => and_congr_right fun hy => named q hq y hy) ?_ rfl]
    rw [List.filter_congr fun y hy => decide_eq_decide.mpr (not_congr (named q hq y hy))]
  have done := foldl_resolveWait (p := p) (w := w) off (w.waitsOn asid page) there
  rw [foldl_mapPends, left] at done
  rw [State.resolveWave]
  dsimp only
  rw [if_neg (by rw [← Wave.waitsOn, some_]; exact Bool.false_ne_true), if_neg Bool.false_ne_true]
  exact done

/-! ## FQ_RESOLVE -/

theorem resolve_eq {p : Fin 8} {x : DWord} (present : (s.part p.val).present = true) (runs : s.pkg.halted = false) (quiet : Quiet s)
    (fine : ∀ u ∈ s.fab.unacked, u.faulted = false) {t : State}
    (cores : (s.resolveCores p.val (fieldOf x 11 0) (fieldOf x 51 16)).foldl
      (fun s c => s.resolveCore p.val (fieldOf x 11 0) (fieldOf x 51 16) (x.getLsbD 63) c) s = t) (frame : ResolveFrame s t) :
    exec (.fqResolve p x) s = .next t := by
  refine congrArg Host.Outcome.next ?_
  unfold State.resolve
  extract_lets asid page fail s1 s2
  rw [if_neg (by simp [present, runs])]
  have fails : fail = x.getLsbD 63 := fieldOf_eq_one x 63
  have told : s1 = t := by
    simp only [s1, fails]
    exact cores
  have noJobs : s2 = t := by
    simp only [s2]
    rw [told, frame.jobs, quiet.jobs]
    rfl
  have noWrites : (t.fab.unacked.filter (fun (u : Unacked) => u.faulted && u.part == p.val && u.at_.asid == asid && u.at_.va / 65536 == page)) = [] := by
    rw [frame.fab, List.filter_eq_nil_iff]
    intro u hu
    simp [fine u hu]
  rw [noJobs, noWrites]
  rfl

theorem filter_key_of_pairwise {l : List (Nat × Wave)} (once : l.Pairwise (fun a b => a.1 ≠ b.1)) (there : (wid, w) ∈ l) :
    l.filter (fun e => e.1 == wid) = [(wid, w)] := by
  obtain ⟨before, rest, rfl⟩ := List.append_of_mem there
  obtain ⟨-, tail, across⟩ := List.pairwise_append.mp once
  rw [List.filter_append, List.filter_cons_of_pos (by simp), List.filter_eq_nil_iff.mpr, List.filter_eq_nil_iff.mpr]
  · rfl
  · exact fun e he => by simpa using Ne.symm ((List.pairwise_cons.mp tail).1 e he)
  · exact fun e he => by simpa using across e he _ (.head _)

theorem mem_resolveCores (there : (wid, w) ∈ s.waves) (part : s.partOf wid = p)
    (waits : ∃ q ∈ w.pend :: w.pends, ∃ y ∈ q.pages, y.asid = asid ∧ y.page = page) : s.coreOf wid ∈ s.resolveCores p asid page := by
  obtain ⟨q, hq, y, hy, mine⟩ := waits
  rw [State.resolveCores, mem_dedup]
  refine List.mem_append_left _ (List.mem_append_left _ (List.mem_map.mpr ⟨(wid, w), List.mem_filter.mpr ⟨there, ?_⟩, rfl⟩))
  rw [part, beq_self_eq_true, Bool.true_and, List.any_eq_true]
  exact ⟨q, hq, List.any_eq_true.mpr ⟨y, hy, by simp [mine]⟩⟩

/-- The cores that are told of a page: those before the wave's, it, and those after. -/
theorem resolveCores_split (there : (wid, w) ∈ s.waves) (part : s.partOf wid = p)
    (waits : ∃ q ∈ w.pend :: w.pends, ∃ y ∈ q.pages, y.asid = asid ∧ y.page = page) :
    ∃ before after_, s.resolveCores p asid page = before ++ s.coreOf wid :: after_ ∧ s.coreOf wid ∉ before ∧ s.coreOf wid ∉ after_ := by
  obtain ⟨before, after_, e⟩ := List.append_of_mem (mem_resolveCores there part waits)
  have once : (before ++ s.coreOf wid :: after_).Nodup := e ▸ dedup_nodup _
  obtain ⟨-, tail, across⟩ := List.nodup_append.mp once
  exact ⟨before, after_, e, fun h => across _ h _ (.head _) rfl, (List.nodup_cons.mp tail).1⟩

/-- What a wave waits for on a page, in a state in which no job and no side log waits: the cores up to its own leave it as it is. -/
structure PageWaits (s : State) (wid p asid page : Nat) (w : Wave) (k : Team) : Prop where
  quiet : Quiet s
  alone : s.waves.filter (fun e => e.1 == wid) = [(wid, w)]
  part : s.partOf wid = p
  team : Tbl.find s.teams w.team = some k
  waits : ∃ q ∈ w.pend :: w.pends, ∃ y ∈ q.pages, y.asid = asid ∧ y.page = page

variable {k : Team}

theorem PageWaits.row (h : PageWaits s wid p asid page w k) : (wid, w) ∈ s.waves :=
  (List.mem_filter.mp (show (wid, w) ∈ s.waves.filter (fun e => e.1 == wid) from h.alone ▸ .head _)).1

theorem PageWaits.there (h : PageWaits s wid p asid page w k) : AtTeam s wid w w.team := by
  refine ⟨by rw [Tbl.find_eq_filter, h.alone]; rfl, fun e he same => ?_⟩
  have row : e ∈ s.waves.filter (fun e => e.1 == wid) := List.mem_filter.mpr ⟨he, beq_iff_eq.mpr same⟩
  rw [h.alone] at row
  rw [List.mem_singleton.mp row]

theorem PageWaits.beside (h : PageWaits s wid p asid page w k) (f : BesideWave wid s t) : PageWaits t wid p asid page w k :=
  ⟨h.quiet.frame f.1, f.rows.trans h.alone, f.partOf.trans h.part, by rw [f.teams, h.team], h.waits⟩

/-- FQ_RESOLVE, as far as a wave goes: something before it, then its own core, then what leaves it as it is. -/
theorem resolve_wave (h : PageWaits s wid p asid page w k) : ∃ u, BesideWave wid s u ∧ PageWaits u wid p asid page w k
    ∧ ∀ (v : State) (x : Wave), u.resolveCore p asid page fail (s.coreOf wid) = v → AtTeam v wid x w.team → ResolveFrame u v →
      BesideWave wid v ((s.resolveCores p asid page).foldl (fun s c => s.resolveCore p asid page fail c) s) := by
  obtain ⟨before, after_, split_, notBefore, notAfter⟩ := resolveCores_split h.row h.part h.waits
  have first := resolveCores_beside (p := p) (asid := asid) (page := page) (fail := fail) h.there notBefore h.quiet
  refine ⟨_, first, h.beside first, fun v x own there frame => ?_⟩
  rw [split_, List.foldl_append, List.foldl_cons, own]
  refine resolveCores_beside there ?_ ((h.quiet.frame first.1).frame frame)
  have core : v.coreOf wid = s.coreOf wid := by
    simp only [State.coreOf, State.placeOf, there.1, there.team, frame.teams, first.teams, h.there.1]
  rw [core]
  exact notAfter

/-- The core of the wave relocks: what it is told waits there. -/
theorem resolve_asleep (h : PageWaits s wid p asid page w k) (here : k.loc ≠ .saved) (asleep : s.asleep (s.coreOf wid) = true) :
    let t := (s.resolveCores p asid page).foldl (fun s c => s.resolveCore p asid page fail c) s
    ResolveFrame s t ∧ Tbl.find t.waves wid = some w ∧ Packet.resolve p asid page fail ∈ (t.core (s.coreOf wid)).inbound := by
  obtain ⟨u, before, h', rest⟩ := resolve_wave (fail := fail) h
  obtain ⟨own, told⟩ := resolveCore_asleep (p := p) (asid := asid) (page := page) (fail := fail) h'.there h'.team here
    ((before.asleep (s.coreOf wid)).trans asleep) h'.quiet
  have after_ := rest _ w rfl (h'.there.beside own) own.1
  have all := (before.trans own).trans after_
  exact ⟨all.1, all.find.trans h.there.1, after_.inbound _ _ told⟩

/-- The core of the wave runs: what is done for the wave is what `resolveWave` does. -/
theorem resolve_awake (h : PageWaits s wid p asid page w k) (awake : s.asleep (s.coreOf wid) = false) {x : Wave}
    (own : ∀ u, BesideWave wid s u → PageWaits u wid p asid page w k → AtTeam (u.resolveWave p asid page fail wid w) wid x w.team) :
    let t := (s.resolveCores p asid page).foldl (fun s c => s.resolveCore p asid page fail c) s
    ResolveFrame s t ∧ Tbl.find t.waves wid = some x := by
  obtain ⟨u, before, h', rest⟩ := resolve_wave (fail := fail) h
  obtain ⟨v, first, second⟩ := resolveCore_visits (asid := asid) (page := page) (fail := fail) h'.there h'.alone h'.part h'.team
    (by rw [before.coreOf, before.asleep, awake]) h'.quiet
  rw [before.coreOf] at second
  have visited := own v (before.trans first) (h'.beside first)
  have told := second x visited
  have frame := (first.1.trans (resolveWave_frame v wid w)).trans told.1
  have after_ := rest _ x rfl (visited.beside told) frame
  exact ⟨(before.1.trans frame).trans after_.1, after_.find.trans (visited.beside told).1⟩

/-! ## The registers -/

theorem sideLog_empty (empty : ∀ c ∈ s.cores, c.2.sideLog = []) (c : Nat) : (s.core c).sideLog = [] := by
  rw [State.core, Tbl.getD]
  cases h : Tbl.find s.cores c with
  | none => rfl
  | some x => exact empty _ (mem_of_find h)

theorem execTlbInv_busy {p : Fin 8} (x : DWord) (busy : (s.part p.val).tlbInv ≠ none) : exec (.tlbInv p x) s = .next s := by
  refine congrArg Host.Outcome.next (if_pos ?_)
  simp [Option.isSome_iff_ne_none.mpr busy]

/-- An invalidation begins (R193). -/
theorem execTlbInv_begins {p : Fin 8} (x : DWord) (present : (s.part p.val).present = true) (idle : (s.part p.val).tlbInv = none) :
    ∃ t : State, exec (.tlbInv p x) s = .next t ∧ (t.part p.val).tlbInv = some x ∧ t.due (.tlbInvDone p) = true := by
  refine ⟨_, congrArg Host.Outcome.next (if_neg (by simp [present, idle])), ?_, ?_⟩
  · exact congrArg Part.tlbInv (State.part_updPart_self s p.val (fun x_1 => { x_1 with tlbInv := some x }))
  · have same : Fin.ofNat 8 p.val = p := Fin.ext (Nat.mod_eq_of_lt p.isLt)
    rw [same]
    exact due_atTick_self ..

theorem execTlbInvDone_idle {p : Fin 8} (idle : (s.part p.val).tlbInv = none) : exec (.tlbInvDone p) s = .next s := by
  change execTlbInvDone p s = _
  rw [execTlbInvDone, idle]

/-- The end of an invalidation (R193). -/
theorem execTlbInvDone_ends {p : Fin 8} {y : DWord} (busy : (s.part p.val).tlbInv = some y) :
    ∃ t : State, exec (.tlbInvDone p) s = .next t
      ∧ (∀ c, (t.core c).tlb = (s.core c).tlb.filter (fun e => !State.tlbCovers p.val y e))
      ∧ (∀ c, Tbl.find t.ctlb c = (Tbl.find s.ctlb c).map (fun l => l.filter (fun e => !State.tlbCovers p.val y e)))
      ∧ (s.tlbUsed p.val y = false → t.part p.val = { s.part p.val with tlbInv := none })
      ∧ (s.tlbUsed p.val y = true → t.part p.val = s.part p.val ∧ t.due (.tlbInvDone p) = true) := by
  have run : exec (.tlbInvDone p) s = .next (if s.tlbUsed p.val y then (s.dropTlb (State.tlbCovers p.val y)).soonOnce (.tlbInvDone p)
      else (s.dropTlb (State.tlbCovers p.val y)).updPart p.val (fun x => { x with tlbInv := none })) := by
    change execTlbInvDone p s = _
    rw [execTlbInvDone, busy]
    rfl
  have cores := core_dropTlb s (State.tlbCovers p.val y)
  have ctlb := find_dropTlb s (State.tlbCovers p.val y)
  cases used : s.tlbUsed p.val y with
  | false =>
    rw [used, if_neg Bool.false_ne_true] at run
    exact ⟨_, run, cores, ctlb, fun _ => State.part_updPart_self .., fun h => Bool.noConfusion h⟩
  | true =>
    rw [used, if_pos rfl] at run
    have f := soonOnce_schedule (s.dropTlb (State.tlbCovers p.val y)) (.tlbInvDone p)
    refine ⟨_, run, fun c => ?_, fun c => ?_, fun h => Bool.noConfusion h, fun _ => ⟨?_, due_soonOnce_self ..⟩⟩
    · rw [← cores c, f]; rfl
    · rw [← ctlb c, f]
    · rw [f]; rfl

/-- The control register of a record queue after a write (R198, R228). -/
theorem writeCtl_made (q : RecQueue) (v : Word) : (q.writeCtl v).base = q.base
    ∧ (q.writeCtl v).enabled = (v.getLsbD 31 && (q.enabled || decide (fieldOf v 30 27 < 13)))
    ∧ fieldOf (q.writeCtl v).ctl 30 20 = fieldOf v 30 20 ∧ fieldOf (q.writeCtl v).ctl 19 0 = 0
    ∧ ((q.writeCtl v).tail, (q.writeCtl v).head, (q.writeCtl v).lost) = if (q.writeCtl v).enabled = true ∧ q.enabled = false then (0, 0, 0)
      else (q.tail, q.head, q.lost) :=
  ⟨writeCtl_base q v, writeCtl_enabled q v, (writeCtl_fields q v).1, (writeCtl_fields q v).2, writeCtl_indices q v⟩

theorem execSqEnable_writes {p : Fin 8} (v : Word) (present : (s.part p.val).present = true) :
    ∃ t : State, exec (.sqEnable p v) s = .next t ∧ (t.part p.val).sq = (s.part p.val).sq.writeCtl v := by
  refine ⟨_, congrArg Host.Outcome.next (if_pos present), ?_⟩
  rw [State.part_updPart_self]

theorem execFqEnable_writes {p : Fin 8} (v : Word) (present : (s.part p.val).present = true) (empty : ∀ c, (s.core c).sideLog = []) :
    ∃ t : State, exec (.fqEnable p v) s = .next t ∧ (t.part p.val).fq = (s.part p.val).fq.writeCtl v := by
  refine ⟨_, congrArg Host.Outcome.next (if_pos present), ?_⟩
  rw [drainLogs_of_empty (s := s.updPart p.val _) empty, State.part_updPart_self]

/-- Settles O57: the control registers field by field, and FQ_RESOLVE by following the one wave through the cores that are told of its page. -/
theorem translationControl : Obligations.TranslationControl := by
  unfold Obligations.TranslationControl
  intro s p x v wid w present part made mine
  refine ⟨fun idle => ?_, fun busy => ?_, fun idle => ?_, fun y busy => ?_, ?_, fun empty => ?_, fun halted => ?_,
    fun noJobs empty fine found once inPart waits runs k team => ?_⟩
  · exact execTlbInv_begins x present idle
  · exact execTlbInv_busy x busy
  · exact execTlbInvDone_idle idle
  · exact execTlbInvDone_ends busy
  · obtain ⟨t, run, eq⟩ := execSqEnable_writes v present
    exact ⟨t, run, by rw [eq]; exact writeCtl_made ..⟩
  · obtain ⟨t, run, eq⟩ := execFqEnable_writes v present (sideLog_empty empty)
    exact ⟨t, run, by rw [eq]; exact writeCtl_made ..⟩
  · exact congrArg Host.Outcome.next (if_pos (by simp [halted]))
  · have h : PageWaits s wid p.val (fieldOf x 11 0) (fieldOf x 51 16) w k :=
      ⟨⟨noJobs, sideLog_empty empty⟩, filter_key_of_pairwise once (mem_of_find found), inPart, team, waits⟩
    refine ⟨fun here asleep => ?_, fun awake fails => ?_, fun awake tries off => ?_⟩
    · obtain ⟨frame, same, told⟩ := resolve_asleep (fail := x.getLsbD 63) h here asleep
      exact ⟨_, resolve_eq present runs h.quiet fine rfl frame, same, told⟩
    · obtain ⟨frame, done⟩ := resolve_awake (fail := x.getLsbD 63) (x := w.failedOn (fieldOf x 11 0) (fieldOf x 51 16)) h awake fun u _ h' => by
        rw [fails]
        exact resolveWave_fails h'.there (waitsOn_ne_nil waits)
      refine ⟨_, resolve_eq present runs h.quiet fine rfl frame, done.trans ?_⟩
      simp [Wave.failedOn, mine]
    · obtain ⟨frame, done⟩ := resolve_awake (fail := x.getLsbD 63) h awake fun u f h' => by
        rw [tries]
        refine resolveWave_retries h'.there (waitsOn_ne_nil waits) fun n => ?_
        rw [State.fqRoom, RecQueue.enabled, f.fq]
        exact (congrArg (· && _) off)
      exact ⟨_, resolve_eq present runs h.quiet fine rfl frame, done⟩

end Sys2Proof.Machine
end

section
/-!
SUPPORT. Lane memory instructions (O29, O33): what each lane of a group meets, when a wave performs all its lanes, and `memStep` where every wave of the group
does.
-/

namespace Sys2Proof.Machine

set_option Elab.async false

variable {s t u : State} {g : Group} {wid : Nat} {w : Wave}

/-! ## Lists in lane order -/

theorem insertBy_perm {α : Type} (key : α → Nat) (a : α) (l : List α) : (insertBy key a l).Perm (a :: l) := by
  induction l with
  | nil => exact .refl _
  | cons x l ih =>
    unfold insertBy
    split
    · exact (ih.cons x).trans (.swap a x l)
    · exact .refl _

theorem sortBy_perm {α : Type} (key : α → Nat) (l : List α) : (sortBy key l).Perm l :=
  sortBy_keeps (P := fun l acc => acc.Perm l) (.refl _)
    (fun a _ acc h => ((insertBy_perm key a acc).trans (h.cons a)).trans (List.perm_append_singleton a _).symm) l

/-! ## Where the lanes of an instruction go -/

namespace State

/-- The lanes of a group in a wave whose guard is true, with where each goes. -/
def lanesGo (s : State) (op : MemOp) (bi o : Nat) (g : Group) (wid : Nat) (w : Wave) : List (Nat × Go) :=
  ((sortBy id (g.lanesOf wid)).filter w.guardOn).map (fun l => (l, s.laneGo op wid w bi (w.vreg l o).toNat))

/-- The lanes of a group in a wave whose guard is false. -/
def lanesOff (g : Group) (wid : Nat) (w : Wave) : List Nat :=
  (sortBy id (g.lanesOf wid)).filter (fun l => !((sortBy id (g.lanesOf wid)).filter w.guardOn).contains l)

end State

theorem mem_lanesGo {op : MemOp} {bi o : Nat} {e : Nat × Go} : e ∈ s.lanesGo op bi o g wid w ↔
    (wid, e.1) ∈ g.mem ∧ w.guardOn e.1 = true ∧ s.laneGo op wid w bi (w.vreg e.1 o).toNat = e.2 := by
  obtain ⟨l, go⟩ := e
  simp only [State.lanesGo, List.mem_map, List.mem_filter, mem_sortBy, mem_lanesOf, Prod.mk.injEq]
  constructor
  · rintro ⟨l', ⟨mem, on⟩, rfl, eq⟩
    exact ⟨mem, on, eq⟩
  · rintro ⟨mem, on, eq⟩
    exact ⟨l, ⟨mem, on⟩, rfl, eq⟩

/-- A lane that is neither a trap nor the end of a failed access, reads no poison, and is not held back. -/
structure GoesOn (s : State) (op : MemOp) (wid : Nat) (w : Wave) (e : Nat × Go) : Prop where
  trap : ∀ c a, e.2 ≠ .trap c a
  fatal : ∀ va, e.2 ≠ .fatal va
  poison : s.readsPoison op wid e.2 = none
  held : s.holdsBack op wid w e.1 e.2 = false

theorem loggedPage_none (log : s.logPending wid = false) (asid : Nat) (vas : List Nat) : s.loggedPage wid asid vas = none := by
  rw [State.loggedPage, List.findSome?_eq_none_iff]
  intro va _
  rw [Option.map_eq_none_iff, List.find?_eq_none]
  intro e he mine
  have other : (e.wid == wid) = false := by
    rw [State.logPending, List.any_eq_false] at log
    exact Bool.eq_false_iff.mpr (log e he)
  rw [State.holdsPage, State.holdsPhys, other] at mine
  simp at mine

/-- What must hold for a wave to perform all its lanes of a memory instruction. -/
structure MemGoes (s : State) (op : MemOp) (bi o : Nat) (regs : List Nat) (g : Group) (wid : Nat) (w : Wave) : Prop where
  found : Tbl.find s.waves wid = some w
  has : ∀ r ∈ regs, w.hasV r = true
  owns : ∀ r ∈ op.dst, w.ownsV r = true
  live : (w.guarded && op.dst.any w.liveV) = false
  atomic : op.atomic = false
  plain : (s.prot wid && !(op.loads && !op.rmw)) = false
  log : s.logPending wid = false
  lanes : ∀ e ∈ s.lanesGo op bi o g wid w, GoesOn s op wid w e

/-- A plain wave that can carry out the instruction, every lane of which goes on, performs them all. -/
theorem memGoes_of_ready {op : MemOp} {bi o l : Nat} {regs : List Nat} (ready : LaneReady s g regs op.dst) (mem : (wid, l) ∈ g.mem) (plain : PlainWave s wid)
    (found : Tbl.find s.waves wid = some w) (atomic : op.atomic = false) (lanes : ∀ e ∈ s.lanesGo op bi o g wid w, GoesOn s op wid w e) :
    MemGoes s op bi o regs g wid w := by
  obtain ⟨-, -, able⟩ := ready
  obtain ⟨-, log, -, prot, -, -⟩ := plain
  have ok := able _ mem
  simp only [laneOk, found, Bool.and_eq_true, decide_eq_true_eq, List.all_eq_true, Bool.not_eq_true'] at ok
  obtain ⟨⟨-, has⟩, dst⟩ := ok
  refine ⟨found, has, fun r hr => (dst r hr).2, ?_, atomic, by rw [prot]; rfl, log, lanes⟩
  cases guarded : w.guarded
  · rfl
  · rw [Bool.true_and, List.any_eq_false]
    intro r hr live
    have clear := (dst r hr).1
    rw [guarded, live] at clear
    cases clear

theorem ended_of_goesOn {op : MemOp} {l : List (Nat × Go)} (h : ∀ e ∈ l, GoesOn s op wid w e) : State.ended w l = l := by
  rw [State.ended, if_neg]
  rw [Bool.not_eq_true, List.any_eq_false]
  intro e he
  have none_ := (h e he).fatal
  cases hx : e.2 <;> simp_all

theorem memCauses_nil {op : MemOp} {bi o : Nat} {regs : List Nat} (h : MemGoes s op bi o regs g wid w) (lanes : List Nat) :
    s.memCauses op regs wid w lanes (s.lanesGo op bi o g wid w) = [] := by
  rw [State.memCauses, State.beyondSlabs_false h.has, h.live, h.atomic, Bool.and_false]
  simp only [Bool.false_eq_true, if_false, List.nil_append, List.append_nil, List.append_eq_nil_iff, List.filterMap_eq_nil_iff]
  refine ⟨fun e he => ?_, fun e he => ?_⟩
  · split
    · next c a trap => exact absurd trap ((h.lanes e he).trap c a)
    · rfl
  · rw [(h.lanes e he).poison]
    rfl

/-- The plan of a wave that performs all its lanes, where the side log has room for its entries and the fault queue for its records. -/
theorem memPlan_go {op : MemOp} {bi o recs used : Nat} {regs : List Nat} (h : MemGoes s op bi o regs g wid w)
    (log : used = 0 ∨ s.logUsed (s.coreOf wid) + used ≤ 64)
    (room : State.faultPages (s.lanesGo op bi o g wid w) = [] ∨ s.fqRoom (s.partOf wid) recs = true) :
    s.memPlan op bi o regs g wid recs used = .go (State.lanesOff g wid w) (s.lanesGo op bi o g wid w) := by
  have waits : s.memWaits op wid w (State.asidOf w (w.breg bi)) (State.lanesOff g wid w) (s.lanesGo op bi o g wid w) recs used
      = .go (State.lanesOff g wid w) (s.lanesGo op bi o g wid w) := by
    have free : (s.lanesGo op bi o g wid w).any (fun e => s.holdsBack op wid w e.1 e.2) = false := by
      rw [List.any_eq_false]
      intro e he
      rw [(h.lanes e he).held]
      exact Bool.false_ne_true
    have notFull : ¬ (used != 0 && decide (64 < s.logUsed (s.coreOf wid) + used)) = true := by
      simp only [Bool.and_eq_true, bne_iff_ne, decide_eq_true_eq]
      omega
    have copies : State.slabToCopy wid w (if (s.lanesGo op bi o g wid w).isEmpty then [] else op.dst) = none := by
      split
      · exact State.slabToCopy_none (by simp)
      · exact State.slabToCopy_none h.owns
    have space : ((State.faultPages (s.lanesGo op bi o g wid w)).isEmpty || s.fqRoom (s.partOf wid) recs) = true := by
      rcases room with none_ | some_
      · rw [none_]
        rfl
      · rw [some_, Bool.or_true]
    rw [State.memWaits, loggedPage_none h.log]
    dsimp only
    rw [free, if_neg Bool.false_ne_true, if_neg notFull, copies]
    exact if_pos space
  have all : State.ended w (s.lanesGo op bi o g wid w) = s.lanesGo op bi o g wid w := ended_of_goesOn h.lanes
  have back : (if ((sortBy id (g.lanesOf wid)).filter w.guardOn).isEmpty then none else State.slabBack wid w regs) = none := by
    rw [State.slabBack_none h.has, ite_self]
  rw [State.memPlan, h.found]
  dsimp only
  rw [back, h.plain]
  change (match leastBy _ (sortBy _ (s.memCauses op regs wid w _ (State.ended w (s.lanesGo op bi o g wid w)))) with
    | some c => _
    | none => s.memWaits op wid w (State.asidOf w (w.breg bi)) (State.lanesOff g wid w) (State.ended w (s.lanesGo op bi o g wid w)) recs used) = _
  rw [all, memCauses_nil h]
  exact waits

/-! ## An instruction that every wave of its group performs -/

section
variable {op : MemOp} {bi o : Nat} {regs : List Nat} {opOf : State → Nat → Wave → Nat → Nat → LogOp}
  {act : State → Nat → Wave → Nat → Go → Option VWrites × State} {off : Nat → List Nat} {on : Nat → List (Nat × Go)}

/-- The waves of a group with the lanes that do not act, and those that do. -/
def memShare (g : Group) (off : Nat → List Nat) (on : Nat → List (Nat × Go)) : List (Nat × List Nat × List (Nat × Go)) :=
  g.waves.map (fun wid => (wid, off wid, on wid))

/-- The lanes that act, in ascending order. -/
def memWork (g : Group) (on : Nat → List (Nat × Go)) : List (Nat × Nat × Go) :=
  sortBy (fun e => e.2.1) (g.waves.flatMap (fun wid => (on wid).map (fun e => (wid, e.1, e.2))))

/-- An instruction that is performed, up to its end in each wave: translations, writes into the L2, the lanes, lines that loads leave, fault records. -/
def memActed (op : MemOp) (bi : Nat) (act : State → Nat → Wave → Nat → Go → Option VWrites × State) (g : Group) (off : Nat → List Nat)
    (on : Nat → List (Nat × Go)) (s : State) : State :=
  let s := g.waves.foldl (fun s wid => s.keepTlbs bi wid (on wid)) s
  let s := (memWork g on).foldl (State.touchWrite op) s
  let s := (memWork g on).foldl (State.memLane op act) s
  ((memWork g on).foldl (State.touchRead op) s).recordFaults op bi (memShare g off on)

theorem memBegin_go (rel : op.rel = none) (ws : List Nat) (done : List (Nat × List Nat × List (Nat × Go))) :
    (ws.map (fun wid => (wid, State.MemPlan.go (off wid) (on wid)))).foldl (State.memBegin op bi opOf g) (s, done)
      = (s, done ++ ws.map (fun wid => (wid, off wid, on wid))) := by
  induction ws generalizing done with
  | nil => simp
  | cons wid ws ih =>
    have step : State.memBegin op bi opOf g (s, done) (wid, .go (off wid) (on wid)) = (s, done ++ [(wid, off wid, on wid)]) := by
      simp only [State.memBegin, State.memGo, rel]
    rw [List.map_cons, List.foldl_cons, step, ih]
    simp

theorem memHeld_go (ws : List Nat) (work : List (Nat × List Nat × List (Nat × Go))) :
    (ws.map (fun wid => (wid, State.MemPlan.go (off wid) (on wid)))).foldl (State.memHeld g work) s = s := by
  induction ws with
  | nil => rfl
  | cons wid ws ih => exact ih

/-- `memStep` of an instruction without a release where every wave of the group performs all its lanes, each for itself. -/
theorem memStep_goes (cur : s.cur = some g) (rel : op.rel = none) (own : ∀ wid ∈ g.waves, s.actors op wid (on wid) = on wid)
    (plans : s.memPlans op bi o regs g = g.waves.map (fun wid => (wid, .go (off wid) (on wid)))) :
    memStep op bi o regs opOf act s
      = .next (g.waves.foldl (fun s wid => State.memFinish op bi opOf g (off wid) (on wid) s wid) (memActed op bi act g off on s)) := by
  have begun := memBegin_go (bi := bi) (opOf := opOf) (g := g) (off := off) (on := on) (s := s) rel g.waves []
  have work : (g.waves.map (fun wid => (wid, off wid, on wid))).flatMap (fun x => (s.actors op x.1 x.2.2).map (fun e => (x.1, e.1, e.2)))
      = g.waves.flatMap (fun wid => (on wid).map (fun e => (wid, e.1, e.2))) := by
    rw [List.flatMap_map]
    exact List.flatMap_congr fun wid h => by rw [own wid h]
  rw [memStep, cur]
  dsimp only
  rw [plans, begun]
  dsimp only
  rw [memHeld_go, List.nil_append]
  rw [work, memActed, memShare, List.foldl_map, List.foldl_map]
  rfl

end

/-! ## Where waves run -/

/-- The same waves run in the same teams and grids. -/
structure SameSeats (s t : State) : Prop where
  waves : ∀ v, (Tbl.find t.waves v).map Wave.team = (Tbl.find s.waves v).map Wave.team
  teams : t.teams = s.teams
  grids : t.grids = s.grids

namespace SameSeats

theorem refl (s : State) : SameSeats s s := ⟨fun _ => rfl, rfl, rfl⟩

theorem trans (h : SameSeats s t) (k : SameSeats t u) : SameSeats s u :=
  ⟨fun v => (k.waves v).trans (h.waves v), k.teams.trans h.teams, k.grids.trans h.grids⟩

theorem of_eq (waves : t.waves = s.waves) (teams : t.teams = s.teams) (grids : t.grids = s.grids) : SameSeats s t :=
  ⟨fun _ => by rw [waves], teams, grids⟩

theorem updWave {f : Wave → Wave} (s : State) (k : Nat) (team : ∀ w, Tbl.find s.waves k = some w → (f w).team = w.team) : SameSeats s (s.updWave k f) := by
  refine ⟨fun v => ?_, rfl, rfl⟩
  by_cases h : v = k
  · subst h
    rw [State.updWave, Tbl.find_upd_self]
    cases hw : Tbl.find s.waves v with
    | none => rfl
    | some w => exact congrArg some (team w hw)
  · rw [State.updWave, Tbl.find_upd_ne _ _ h]

theorem coreOf (h : SameSeats s t) (v : Nat) : t.coreOf v = s.coreOf v := by
  have wave := h.waves v
  simp only [State.coreOf, State.placeOf, h.teams]
  cases hs : Tbl.find s.waves v <;> cases ht : Tbl.find t.waves v <;> simp_all

theorem gridIdOf (h : SameSeats s t) (v : Nat) : t.gridIdOf v = s.gridIdOf v := by
  have wave := h.waves v
  simp only [State.gridIdOf, h.teams]
  cases hs : Tbl.find s.waves v <;> cases ht : Tbl.find t.waves v <;> simp_all

theorem partOf (h : SameSeats s t) (v : Nat) : t.partOf v = s.partOf v := by
  have wave := h.waves v
  simp only [State.partOf, h.teams, h.grids]
  cases hs : Tbl.find s.waves v <;> cases ht : Tbl.find t.waves v <;> simp_all

theorem prot (h : SameSeats s t) (v : Nat) : t.prot v = s.prot v := by rw [State.prot, State.prot, h.gridIdOf, h.grids]

theorem laneId (h : SameSeats s t) (v l : Nat) : t.laneId v l = s.laneId v l := by rw [State.laneId, State.laneId, h.prot]

end SameSeats

/-! ## The end of an instruction in a wave -/

section
variable {op : MemOp} {bi : Nat} {opOf : State → Nat → Wave → Nat → Nat → LogOp} {off : List Nat} {go : List (Nat × Go)}

/-- A wave whose lanes `off` have moved past the instruction. -/
def passed (off : List Nat) (w : Wave) : Wave := off.foldl (fun (w : Wave) l => w.updThread l (fun t => t.advance 4 {})) w

/-- What follows once what faults waits or is in the side log: the acquire; an access of which nothing is left to wait for is over. -/
def memOver (op : MemOp) (g : Group) (go : List (Nat × Go)) (wid : Nat) (st : Nat × Nat) (s : State) : State :=
  let s := match op.acq with
    | none => s
    | some sc => s.acquire wid sc st
  let left := match Tbl.find s.waves wid with
    | none => false
    | some w => go.any (fun e => (w.thread e.1).pc == g.pc)
  s.updWave wid (fun w => { w with pend := if left then { w.pend with pc := g.pc, again := true } else .none })

theorem askLeases_none (asks : ∀ e ∈ go, ∀ va chip page, e.2 ≠ .lease va chip page) (s : State) : s.askLeases op wid go = s := by
  unfold State.askLeases
  induction go with
  | nil => rfl
  | cons e go ih =>
    rw [List.foldl_cons]
    split
    · next lease => exact absurd lease (asks e (.head _) _ _ _)
    · exact ih fun e he => asks e (.tail _ he)

theorem memFinish_eq (found : Tbl.find s.waves wid = some w) (asks : ∀ e ∈ go, ∀ va chip page, e.2 ≠ .lease va chip page)
    (ends : ∀ e ∈ go, ∀ va, e.2 ≠ .fatal va) :
    State.memFinish op bi opOf g off go s wid = memOver op g go wid w.rstamp (let s := s.updWave wid (passed off)
      if op.loads then s.updWave wid (fun w' => { w' with pend := { w'.pend with pages := s.waitPages op wid w' (State.asidOf w (w.breg bi)) go } })
      else s.logFaults op wid w (State.asidOf w (w.breg bi)) (Rcd.space (w.breg bi) == 3) opOf go) := by
  rw [State.memFinish, found]
  simp only [askLeases_none asks]
  split
  · next va fatal => exact absurd rfl (ends _ (List.mem_of_find?_eq_some fatal) va)
  · rfl

end

/-! ## One thread on a page that is not there (O33) -/

theorem LookedUp.waves (h : LookedUp s t) : t.waves = s.waves := congrArg (·.waves) h.1
theorem LookedUp.partOf (h : LookedUp s t) (wid : Nat) : t.partOf wid = s.partOf wid := congrArg (·.partOf wid) h.1
theorem LookedUp.coreOf (h : LookedUp s t) (wid : Nat) : t.coreOf wid = s.coreOf wid := congrArg (·.coreOf wid) h.1
theorem LookedUp.laneId (h : LookedUp s t) (wid l : Nat) : t.laneId wid l = s.laneId wid l := congrArg (·.laneId wid l) h.1
theorem LookedUp.part (h : LookedUp s t) (p : Nat) : t.part p = s.part p := congrArg (·.part p) h.1
theorem LookedUp.core (h : LookedUp s t) (c : Nat) : t.core c = s.core c := congrArg (·.core c) h.1

/-- The group of one thread. -/
theorem waves_one {l : Nat} (one : g.mem = [(wid, l)]) : g.waves = [wid] := by rw [Group.waves, one]; rfl

theorem lanesOf_one {l : Nat} (one : g.mem = [(wid, l)]) : g.lanesOf wid = [l] := by simp [Group.lanesOf, one]

section
variable {op : MemOp} {bi o l va level : Nat}

theorem lanesGo_one (one : g.mem = [(wid, l)]) (on : w.guardOn l = true) : s.lanesGo op bi o g wid w = [(l, s.laneGo op wid w bi (w.vreg l o).toNat)] := by
  simp [State.lanesGo, lanesOf_one one, sortBy, insertBy, on]

theorem lanesOff_one (one : g.mem = [(wid, l)]) (on : w.guardOn l = true) : State.lanesOff g wid w = [] := by
  simp [State.lanesOff, lanesOf_one one, sortBy, insertBy, on]

theorem translate_of_reach_fault {c : Option Nat} {p asid : Nat} {peer : Bool} {right : Right} (h : s.reach c p asid va peer right = .fault level) :
    s.translate c p asid va = .fault level := by
  unfold State.reach at h
  split at h
  · cases h
  · cases h
    assumption
  · split at h
    · cases h
    · split at h
      · split at h <;> cases h
      · split at h
        · cases h
        · split at h <;> cases h

/-- An access through the global space to a page without a valid entry (R173, R195). -/
structure PageGone (s : State) (op : MemOp) (wid : Nat) (w : Wave) (bi l o va level : Nat) : Prop where
  cell : op.cell = false
  leaf : op.leaf = op.right
  spaces : op.spaces.contains 0 = true
  address : laneAddress (w.breg bi) (w.vreg l o).toNat op.width = .at_ va
  allows : State.recAllows (w.breg bi) op.right = true
  space : Rcd.space (w.breg bi) = 0
  gone : s.reach (some (s.coreOf wid)) (s.partOf wid) (State.asidOf w (w.breg bi)) va false op.right = .fault level

theorem laneGo_fault (h : PageGone s op wid w bi l o va level) (quiet : w.pend.quiet) :
    s.laneGo op wid w bi (w.vreg l o).toNat = .fault va level none := by
  have noPages : w.pend.pages = [] := by
    rw [Pend.quiet] at quiet
    rw [quiet]
    rfl
  rw [State.laneGo, h.cell, if_neg Bool.false_ne_true, h.address]
  have there : s.reach (some (s.coreOf wid)) (s.partOf wid) (State.asidOf w (w.breg bi)) va ((0 : Nat) == 3) op.right = .fault level := h.gone
  simp only [State.goAt, h.space, h.spaces, h.allows, h.leaf, State.placeCodes, State.goGlobal, noPages]
  rw [there]
  simp [lowCode, leastBy]

theorem goesOn_fault {e : Nat × Go} (h : e.2 = .fault va level none) : GoesOn s op wid w e := by
  refine ⟨fun _ _ => ?_, fun _ => ?_, ?_, ?_⟩ <;> rw [h] <;> simp [State.readsPoison, State.holdsBack]

/-- What the lookup of a page that is not there leaves (R191). -/
theorem keepTlbs_fault (h : PageGone s op wid w bi l o va level) (found : Tbl.find s.waves wid = some w) :
    LookedUp s (s.keepTlbs bi wid [(l, .fault va level none)]) := by
  have gone := translate_of_reach_fault h.gone
  rw [State.keepTlbs, found]
  dsimp only [List.foldl_cons, List.foldl_nil, Go.va]
  unfold State.keepTlb
  rw [gone]
  dsimp only
  split
  · exact .refl s
  · exact walked_lookedUp ..

/-- The record of the thread's fault (R197). -/
theorem recordFaults_one (found : Tbl.find s.waves wid = some w) :
    s.recordFaults op bi [(wid, [], [(l, .fault va level none)])]
      = (s.fqRecords (s.partOf wid) [s.faultRec op wid w (State.asidOf w (w.breg bi)) (l, va, level, none)]).drawn := by
  have recs : s.faultRecs op bi [(wid, [], [(l, Go.fault va level none)])] = [s.faultRec op wid w (State.asidOf w (w.breg bi)) (l, va, level, none)] := by
    simp [State.faultRecs, found, State.faultPages, sortBy, insertBy]
  unfold State.recordFaults
  simp only [recs]

theorem FaultRec.bytes_length (r : FaultRec) : r.bytes.length = 32 := by simp [FaultRec.bytes, length_natBytes]

/-- A record stored at FQ_TAIL, which advances: what `fqRecords` does before it raises the interrupt. -/
def fqStored (s : State) (p : Nat) (r : FaultRec) : State :=
  (s.storeHome (s.part p).fq.slotPa r.bytes).updPart p (fun x => { x with fq := { x.fq with tail := x.fq.tail + 1 } })

theorem storeHome_part (s : State) (a : Nat) (bs : List Byte) (p : Nat) : (s.storeHome a bs).part p = s.part p := by
  have parts : (s.storeHome a bs).parts = s.parts := congrArg (·.parts) (storeHome_stores s a bs).frame
  rw [State.part, State.part, parts]

theorem fqStored_fq (s : State) (p : Nat) (r : FaultRec) : ((fqStored s p r).part p).fq = { (s.part p).fq with tail := (s.part p).fq.tail + 1 } := by
  rw [fqStored, State.part_updPart_self, storeHome_part]

theorem bytesAt_updPart (s : State) (p : Nat) (f : Part → Part) (a n : Nat) : (s.updPart p f).bytesAt a n = s.bytesAt a n :=
  bytesAt_congr (s := s) (t := s.updPart p f) rfl rfl a n

theorem fqStored_bytesAt {p a : Nat} {r : FaultRec} (slot : (s.part p).fq.slotPa = a) (within : a + r.bytes.length ≤ hbmEnd) :
    (fqStored s p r).bytesAt a r.bytes.length = r.bytes := by
  rw [fqStored, bytesAt_updPart, slot, bytesAt_storeHome within]

theorem fqRecords_singleton (s : State) (p : Nat) (r : FaultRec) :
    s.fqRecords p [r] = (fqStored s p r).raiseIrq .pf (fieldOf ((fqStored s p r).part p).fq.ctl 26 20) := by
  simp only [State.fqRecords, List.foldl_cons, List.foldl_nil, List.isEmpty_cons, fqStored, Bool.false_eq_true, if_false]

theorem raiseIrq_part (s : State) (fn : HostFn) (vec p : Nat) : (s.raiseIrq fn vec).part p = s.part p := by
  obtain ⟨v, m, out, e⟩ := raiseIrq_eq s fn vec
  rw [e]
  rfl

theorem raiseIrq_bytesAt (s : State) (fn : HostFn) (vec a n : Nat) : (s.raiseIrq fn vec).bytesAt a n = s.bytesAt a n := by
  obtain ⟨v, m, out, e⟩ := raiseIrq_eq s fn vec
  rw [e]
  exact bytesAt_congr (s := s) (t := { s with vds := v, pfMsix := m, outbox := out }) rfl rfl a n

/-- One record advances FQ_TAIL (R198). -/
theorem fqRecords_fq (s : State) (p : Nat) (r : FaultRec) :
    ((s.fqRecords p [r]).part p).fq = { (s.part p).fq with tail := (s.part p).fq.tail + 1 } := by
  rw [fqRecords_singleton, raiseIrq_part, fqStored_fq]

/-- One record stands where FQ_TAIL was (R197). -/
theorem fqRecords_bytesAt {p a : Nat} {r : FaultRec} (slot : (s.part p).fq.slotPa = a) (within : a + r.bytes.length ≤ hbmEnd) :
    (s.fqRecords p [r]).bytesAt a r.bytes.length = r.bytes := by
  rw [fqRecords_singleton, raiseIrq_bytesAt, fqStored_bytesAt slot within]

/-- The plan of the thread: its record and, of a store, its entry of the side log have room (R195, R196). -/
theorem memPlans_one {regs : List Nat} (one : g.mem = [(wid, l)]) (h : MemGoes s op bi o regs g wid w)
    (lanes : s.lanesGo op bi o g wid w = [(l, .fault va level none)]) (off : State.lanesOff g wid w = [])
    (log : op.loads = true ∨ s.logUsed (s.coreOf wid) < 64) (room : s.fqRoom (s.partOf wid) 1 = true) :
    s.memPlans op bi o regs g = g.waves.map (fun v => (v, .go [] [(l, .fault va level none)])) := by
  have plan : ∀ recs used : Nat, recs ≤ 1 → (used = 0 ∨ used = 1 ∧ op.loads = false) →
      s.memPlan op bi o regs g wid recs used = .go [] [(l, .fault va level none)] := by
    intro recs used few entries
    rw [memPlan_go h, lanes, off]
    · rcases entries with none_ | ⟨one_, stores⟩
      · exact .inl none_
      · rcases log with loads | free
        · rw [stores] at loads
          cases loads
        · right
          omega
    · right
      simp only [State.fqRoom, Bool.and_eq_true, decide_eq_true_eq] at room ⊢
      exact ⟨room.1, few.trans room.2⟩
  have used : (if op.loads then 0 else 1) = 0 ∨ (if op.loads then 0 else 1) = 1 ∧ op.loads = false := by
    cases op.loads <;> simp
  rw [State.memPlans, waves_one one]
  simp only [List.map_cons, List.map_nil, plan 0 0 (by omega) (.inl rfl), List.flatMap_cons, List.flatMap_nil, h.found, State.faultPages, List.foldl_cons,
    List.foldl_nil, List.any_nil, Bool.false_eq_true, if_false, List.nil_append, List.append_nil, List.length_singleton]
  rw [show (dedup [(State.asidOf w (w.breg bi), va / 65536)]).length = 1 from rfl, plan 1 _ (by omega) used]
  rfl

theorem drawn_part (s : State) (p : Nat) : s.drawn.part p = s.part p := rfl

theorem drawn_bytesAt (s : State) (a n : Nat) : s.drawn.bytesAt a n = s.bytesAt a n := bytesAt_congr (s := s) (t := s.drawn) rfl rfl a n

/-- One record stands at FQ_TAIL, which has advanced, and no wave, core, team or grid is touched (R197, R198). -/
structure Recorded (s t : State) (p : Nat) (r : FaultRec) : Prop where
  waves : t.waves = s.waves
  cores : t.cores = s.cores
  teams : t.teams = s.teams
  grids : t.grids = s.grids
  fq : (t.part p).fq = { (s.part p).fq with tail := (s.part p).fq.tail + 1 }
  bytes : ∀ a, (s.part p).fq.slotPa = a → a + r.bytes.length ≤ hbmEnd → t.bytesAt a r.bytes.length = r.bytes

theorem LookedUp.recorded (h : LookedUp s u) (p : Nat) (r : FaultRec) : Recorded s (u.fqRecords p [r]).drawn p r where
  waves := (congrArg (·.waves) (fqRecords_faultFrame u p [r]).frame).trans (congrArg (·.waves) h.1)
  cores := (congrArg (·.cores) (fqRecords_faultFrame u p [r]).frame).trans (congrArg (·.cores) h.1)
  teams := (congrArg (·.teams) (fqRecords_faultFrame u p [r]).frame).trans (congrArg (·.teams) h.1)
  grids := (congrArg (·.grids) (fqRecords_faultFrame u p [r]).frame).trans (congrArg (·.grids) h.1)
  fq := (congrArg Part.fq (drawn_part _ p)).trans ((fqRecords_fq u p r).trans (by rw [h.part p]))
  bytes a slot within := (drawn_bytesAt _ a _).trans (fqRecords_bytesAt (by rw [h.part p, slot]) within)

/-- A thread on a page that is not there leaves its record. -/
theorem memActed_one {act : State → Nat → Wave → Nat → Go → Option VWrites × State} (one : g.mem = [(wid, l)])
    (nothing : ∀ u v, act u wid v l (.fault va level none) = (none, u)) (h : PageGone s op wid w bi l o va level) (found : Tbl.find s.waves wid = some w) :
    Recorded s (memActed op bi act g (fun _ => []) (fun _ => [(l, .fault va level none)]) s) (s.partOf wid)
      (s.faultRec op wid w (State.asidOf w (w.breg bi)) (l, va, level, none)) := by
  have looked := keepTlbs_fault h found
  have found' : Tbl.find (s.keepTlbs bi wid [(l, .fault va level none)]).waves wid = some w := by rw [looked.waves, found]
  have work : memWork g (fun _ => [(l, Go.fault va level none)]) = [(wid, l, .fault va level none)] := by
    simp [memWork, waves_one one, sortBy, insertBy]
  have lane : State.memLane op act (s.keepTlbs bi wid [(l, .fault va level none)]) (wid, l, .fault va level none)
      = s.keepTlbs bi wid [(l, .fault va level none)] := by
    simp only [State.memLane, found', nothing]
  have read : State.touchRead op (s.keepTlbs bi wid [(l, .fault va level none)]) (wid, l, .fault va level none)
      = s.keepTlbs bi wid [(l, .fault va level none)] := by
    simp only [State.touchRead, ite_self]
  refine (congrArg (Recorded s · _ _) ?_).mpr (looked.recorded (s.partOf wid) (s.faultRec op wid w (State.asidOf w (w.breg bi)) (l, va, level, none)))
  rw [memActed, work, memShare, waves_one one]
  simp only [List.foldl_cons, List.foldl_nil, List.map_cons, List.map_nil]
  rw [show State.touchWrite op (s.keepTlbs bi wid [(l, .fault va level none)]) (wid, l, .fault va level none)
    = s.keepTlbs bi wid [(l, .fault va level none)] from rfl, lane, read, recordFaults_one found', looked.partOf]
  congr 2
  simp only [State.faultRec, looked.coreOf, looked.laneId, Option.isSome_none, Bool.false_eq_true, if_false]

theorem memOver_waits {go : List (Nat × Go)} {st : Nat × Nat} (acq : op.acq = none) (found : Tbl.find s.waves wid = some w)
    (left : go.any (fun e => (w.thread e.1).pc == g.pc) = true) :
    memOver op g go wid st s = s.updWave wid (fun w => { w with pend := { w.pend with pc := g.pc, again := true } }) := by
  simp only [memOver, acq, found, left, if_true]

theorem memOver_moved {go : List (Nat × Go)} {st : Nat × Nat} (acq : op.acq = none) (found : Tbl.find s.waves wid = some w)
    (moved : go.any (fun e => (w.thread e.1).pc == g.pc) = false) : memOver op g go wid st s = s.updWave wid (fun w => { w with pend := .none }) := by
  simp only [memOver, acq, found, moved, Bool.false_eq_true, if_false]

/-- The end of the load: the access waits for its page (R195). -/
theorem memFinish_faulting_load {opOf : State → Nat → Wave → Nat → Nat → LogOp} (found : Tbl.find s.waves wid = some w) (loads : op.loads = true)
    (acq : op.acq = none) (stands : (w.thread l).pc = g.pc) :
    ∃ f, State.memFinish op bi opOf g [] [(l, .fault va level none)] s wid = s.updWave wid f ∧ f w = { w with pend := { w.pend with
      pc := g.pc, again := true, pages := [⟨State.asidOf w (w.breg bi), va / 65536, s.laneId wid l, va, op.kind, w.issueId, false, false⟩] } } := by
  have seats : SameSeats s (s.updWave wid (passed [])) := .updWave s wid fun _ _ => rfl
  have pages : (s.updWave wid (passed [])).waitPages op wid w (State.asidOf w (w.breg bi)) [(l, .fault va level none)]
      = [⟨State.asidOf w (w.breg bi), va / 65536, s.laneId wid l, va, op.kind, w.issueId, false, false⟩] := by
    simp [State.waitPages, State.faultPages, seats.laneId]
  rw [memFinish_eq found (by simp) (by simp), loads]
  dsimp only
  rw [if_pos rfl, State.updWave_updWave]
  have there : ∀ f : Wave → Wave, Tbl.find (s.updWave wid f).waves wid = some (f w) := fun f => by rw [State.updWave, Tbl.find_upd_self, found]; rfl
  rw [memOver_waits acq (there _) (by simpa [Wave.thread, passed] using stands), State.updWave_updWave]
  refine ⟨_, rfl, ?_⟩
  rw [← pages]
  rfl

/-- The end of the store: its lane has retired into the side log (R196). -/
theorem memFinish_faulting_store {opOf : State → Nat → Wave → Nat → Nat → LogOp} (found : Tbl.find s.waves wid = some w) (stores : op.loads = false)
    (acq : op.acq = none) (prot : s.prot wid = false) (stands : (w.thread l).pc = g.pc) (there : l < w.threads.length) :
    ∃ f, State.memFinish op bi opOf g [] [(l, .fault va level none)] s wid = ((s.updWave wid (passed [])).updCore (s.coreOf wid) (fun k => { k with
        sideLog := k.sideLog ++ [⟨wid, State.asidOf w (w.breg bi), va / 65536, Rcd.space (w.breg bi) == 3, s.laneId wid l, va, w.depth, w.issueId, false,
          none, none, [], [opOf (s.updWave wid (passed [])) wid w l va]⟩] })).updWave wid f
      ∧ f w = { w.updThread l (fun t => t.advance 4 {}) with pend := .none } := by
  have seats : SameSeats s (s.updWave wid (passed [])) := .updWave s wid fun _ _ => rfl
  have past : (((w.updThread l (fun t => t.advance 4 {})).thread l).pc == g.pc) = false := by
    rw [thread_updThread, if_pos ⟨rfl, there⟩, ← stands]
    simp [Thread.advance]
  have logged : (s.updWave wid (passed [])).logFaults op wid w (State.asidOf w (w.breg bi)) (Rcd.space (w.breg bi) == 3) opOf [(l, .fault va level none)]
      = ((s.updWave wid (passed [])).updCore (s.coreOf wid) (fun k => { k with
        sideLog := k.sideLog ++ [⟨wid, State.asidOf w (w.breg bi), va / 65536, Rcd.space (w.breg bi) == 3, s.laneId wid l, va, w.depth, w.issueId, false,
          none, none, [], [opOf (s.updWave wid (passed [])) wid w l va]⟩] })).updWave wid (fun w => w.updThread l (fun t => t.advance 4 {})) := by
    simp [State.logFaults, State.faultPages, seats.laneId, seats.coreOf, State.actors, seats.prot, prot]
  rw [memFinish_eq found (by simp) (by simp), stores]
  dsimp only
  rw [if_neg Bool.false_ne_true, logged]
  have found' : ∀ (c : Nat) (k : Core → Core) (f : Wave → Wave), Tbl.find (((s.updWave wid (passed [])).updCore c k).updWave wid f).waves wid = some (f w) :=
    fun c k f => by
      have inner : ((s.updWave wid (passed [])).updCore c k).waves = Tbl.upd s.waves wid (passed []) := rfl
      rw [State.updWave, inner, Tbl.find_upd_self, Tbl.find_upd_self, found]
      rfl
  rw [memOver_moved acq (found' _ _ _) (by simpa using past), State.updWave_updWave]
  exact ⟨_, rfl, rfl⟩

/-- What one thread needs to meet a page that is not there at a memory instruction, with room for its record. -/
structure OneFault (s : State) (op : MemOp) (bi o : Nat) (regs : List Nat) (g : Group) (wid l : Nat) (w : Wave) (va level : Nat) : Prop where
  one : g.mem = [(wid, l)]
  ready : LaneReady s g regs op.dst
  found : Tbl.find s.waves wid = some w
  on : w.guardOn l = true
  stands : (w.thread l).pc = g.pc
  plain : PlainWave s wid
  gone : PageGone s op wid w bi l o va level
  room : s.fqRoom (s.partOf wid) 1 = true
  atomic : op.atomic = false
  rel : op.rel = none
  acq : op.acq = none

namespace OneFault

variable {regs : List Nat} {opOf : State → Nat → Wave → Nat → Nat → LogOp} {act : State → Nat → Wave → Nat → Go → Option VWrites × State}

/-- The instruction comes to its end in the wave, after the record. -/
theorem memStep (h : OneFault s op bi o regs g wid l w va level) (nothing : ∀ u v, act u wid v l (.fault va level none) = (none, u))
    (log : op.loads = true ∨ s.logUsed (s.coreOf wid) < 64) :
    ∃ u, Recorded s u (s.partOf wid) (s.faultRec op wid w (State.asidOf w (w.breg bi)) (l, va, level, none))
      ∧ Machine.memStep op bi o regs opOf act s = .next (State.memFinish op bi opOf g [] [(l, .fault va level none)] u wid) := by
  obtain ⟨one, ready, found, on, stands, plain, gone, room, atomic, rel, acq⟩ := h
  have lanes : s.lanesGo op bi o g wid w = [(l, .fault va level none)] := by rw [lanesGo_one one on, laneGo_fault gone (plain.1 w found)]
  have goes : MemGoes s op bi o regs g wid w := by
    refine memGoes_of_ready ready (by rw [one]; exact List.mem_singleton_self _) plain found atomic fun e he => ?_
    rw [lanes, List.mem_singleton] at he
    exact goesOn_fault (congrArg Prod.snd he)
  obtain ⟨-, -, -, prot, -, -⟩ := plain
  refine ⟨_, memActed_one one nothing gone found, ?_⟩
  rw [memStep_goes (off := fun _ => []) (on := fun _ => [(l, .fault va level none)]) ready.1 rel (fun v hv => ?_)
    (memPlans_one one goes lanes (lanesOff_one one on) log room), waves_one one]
  · rfl
  · rw [waves_one one, List.mem_singleton] at hv
    rw [hv, State.actors, prot]
    rfl

end OneFault

/-- The bytes of the record (R197). -/
theorem faultRec_bytes (asid : Nat) : (s.faultRec op wid w asid (l, va, level, none)).bytes = natBytes 8 (s.coreOf wid * 2 ^ 55 + w.issueId)
    ++ natBytes 8 va ++ natBytes 2 asid
    ++ [BitVec.ofNat 8 (s.laneId wid l), BitVec.ofNat 8 w.slot, BitVec.ofNat 8 op.kind, BitVec.ofNat 8 level] ++ natBytes 10 0 := by
  simp [State.faultRec, FaultRec.bytes, natBytes]

/-- The record stays through changes of waves and cores. -/
theorem Recorded.kept {p : Nat} {r : FaultRec} (h : Recorded s t p r) (parts : u.parts = t.parts) (mem : u.mem = t.mem) (stale : u.stale = t.stale) :
    (u.part p).fq = { (s.part p).fq with tail := (s.part p).fq.tail + 1 }
      ∧ ((s.part p).fq.slotPa + 32 ≤ hbmEnd → u.bytesAt (s.part p).fq.slotPa 32 = r.bytes) := by
  refine ⟨?_, fun within => ?_⟩
  · rw [State.part, parts]
    exact h.fq
  · have bytes := h.bytes _ rfl (by rw [r.bytes_length]; exact within)
    rw [r.bytes_length] at bytes
    exact (bytesAt_congr mem stale _ _).trans bytes

/-- A thread whose guard is true and which has no results moves on (R147). -/
theorem waveDone_passes (one : g.mem = [(wid, l)]) (on : w.guardOn l = true) (there : l < w.threads.length) :
    WaveDone g wid 4 (fun _ => {}) w (w.updThread l (fun t => t.advance 4 {})) := by
  have done := laneWaveOf_done ⟨[], 4⟩ (fun _ => {}) g (by simp [one]) wid w
    (fun l' mem => by
      rw [one, List.mem_singleton] at mem
      rw [(Prod.mk.inj mem).2]
      exact there)
    (fun _ _ => ⟨by simp, by simp⟩)
  have eq : laneWaveOf ⟨[], 4⟩ (fun _ => {}) (g.lanesOf wid) (onLanes g wid w) w = w.updThread l (fun t => t.advance 4 {}) := by
    simp [laneWaveOf, onLanes, lanesOf_one one, on, Wave.commit, raiseFlags_zero]
  rw [eq] at done
  exact done

end

/-- What a load is (R323, R324). -/
def loadOp (spaces : List Nat) (width : Nat) (hint : Option Nat) (scope acq : Option Scope) (d : VReg) : MemOp :=
  { spaces := spaces, right := .read, leaf := .read, width := width, loads := true, kind := 0, hint := hint, dst := blockOf d.val width, scope := scope
    acq := acq }

/-- A load of a lane: its register block. -/
def loadAct (op : MemOp) (d : VReg) (s : State) (wid : Nat) (_ : Wave) (l : Nat) (g : Go) : Option VWrites × State :=
  let r := s.loadAt op wid l g
  (r.1.map (loadBlock d.val op.width), r.2)

theorem exec_ld (W : Width) (hint : Fin 4) (d o : VReg) (n : BReg) (s : State) : exec (.ld W hint d n o) s
    = memStep (loadOp [0, 3] W.bytes (some hint.val) none none d) n.val o.val (o.val :: blockOf d.val W.bytes) noLog
        (loadAct (loadOp [0, 3] W.bytes (some hint.val) none none d) d) s := rfl

/-- What an ordinary store to the global space is (R323). -/
def stOp (width : Nat) (hint : Fin 4) (v : VReg) : MemOp :=
  { spaces := [0, 3], right := .write, leaf := .write, width := width, kind := 1, hint := some hint.val, src := blockOf v.val width }

/-- What a lane of it leaves in the side log (R196). -/
def stLog (width : Nat) (hint : Fin 4) (v : VReg) (_ : State) (_ : Nat) (w : Wave) (l va : Nat) : LogOp :=
  .store va (w.blockBytes l v.val width) none hint.val

/-- A store of a lane. -/
def stAct (width : Nat) (v : VReg) (s : State) (wid : Nat) (w : Wave) (l : Nat) (g : Go) : Option VWrites × State :=
  match g with
  | .lease _ _ _ | .fault _ _ _ => (none, s)
  | _ => (some [], s.storeAt wid l none g (w.blockBytes l v.val width))

theorem exec_st (W : Width) (hint : Fin 4) (v o : VReg) (n : BReg) (s : State) : exec (.st W hint v n o) s
    = memStep (stOp W.bytes hint v) n.val o.val (o.val :: blockOf v.val W.bytes) (stLog W.bytes hint v) (stAct W.bytes v) s := rfl

/-- Settles O33: the thread's plan is to perform its one lane, which on its page leaves the record and nothing else; the end of the instruction puts the
load's wave to wait for the page and takes the store into the side log. -/
theorem pageFaults : Obligations.PageFaults := by
  unfold Obligations.PageFaults
  intro W hint v o n s g wid l w va level
  dsimp only
  intro one found on stands plain enabled space
  have room : s.fqRoom (s.partOf wid) 1 = true := by
    rw [State.fqRoom, enabled]
    exact decide_eq_true space
  obtain ⟨-, -, -, prot, -, -⟩ := id plain
  refine ⟨fun _ ready ⟨address, allows, inHbm, gone⟩ => ?_, fun _ ready ⟨address, allows, inHbm, gone⟩ log => ?_⟩
  · have fault : OneFault s (loadOp [0, 3] W.bytes (some hint.val) none none v) n.val o.val (o.val :: blockOf v.val W.bytes) g wid l w va level :=
      ⟨one, ready, found, on, stands, plain, ⟨rfl, rfl, rfl, address, allows, inHbm, gone⟩, room, rfl, rfl, rfl⟩
    obtain ⟨u, recorded, run⟩ := fault.memStep (opOf := noLog) (act := loadAct (loadOp [0, 3] W.bytes (some hint.val) none none v) v)
      (fun _ _ => rfl) (.inl rfl)
    have found' : Tbl.find u.waves wid = some w := by rw [recorded.waves, found]
    obtain ⟨f, finish, waits⟩ := memFinish_faulting_load (op := loadOp [0, 3] W.bytes (some hint.val) none none v) (bi := n.val) (opOf := noLog) (va := va)
      (level := level) found' rfl rfl stands
    have seats : SameSeats s u := .of_eq recorded.waves recorded.teams recorded.grids
    obtain ⟨fq, bytes⟩ := recorded.kept (u := u.updWave wid f) rfl rfl rfl
    refine ⟨u.updWave wid f, by rw [exec_ld, run, finish], ⟨fq, fun within => ?_⟩, ?_⟩
    · rw [bytes within, faultRec_bytes]
      rfl
    · rw [State.updWave, Tbl.find_upd_self, found', Option.map_some, waits, seats.laneId]
      rfl
  · have fault : OneFault s (stOp W.bytes hint v) n.val o.val (o.val :: blockOf v.val W.bytes) g wid l w va level :=
      ⟨one, ready, found, on, stands, plain, ⟨rfl, rfl, rfl, address, allows, inHbm, gone⟩, room, rfl, rfl, rfl⟩
    obtain ⟨u, recorded, run⟩ := fault.memStep (opOf := stLog W.bytes hint v) (act := stAct W.bytes v) (fun _ _ => rfl) (.inr log)
    have found' : Tbl.find u.waves wid = some w := by rw [recorded.waves, found]
    have seats : SameSeats s u := .of_eq recorded.waves recorded.teams recorded.grids
    have there : l < w.threads.length := by
      have ok := ready.2.2 (wid, l) (by rw [one]; exact List.mem_singleton_self _)
      simp only [laneOk, found, Bool.and_eq_true, decide_eq_true_eq] at ok
      exact ok.1.1
    obtain ⟨f, finish, moves⟩ := memFinish_faulting_store (op := stOp W.bytes hint v) (bi := n.val) (opOf := stLog W.bytes hint v) (va := va)
      (level := level) found' rfl rfl (by rw [seats.prot, prot]) stands there
    rw [seats.coreOf, seats.laneId] at finish
    obtain ⟨fq, bytes⟩ := recorded.kept (u := State.memFinish (stOp W.bytes hint v) n.val (stLog W.bytes hint v) g [] [(l, .fault va level none)] u wid)
      (by rw [finish]; rfl) (by rw [finish]; rfl) (by rw [finish]; rfl)
    refine ⟨_, by rw [exec_st, run], ⟨fq, fun within => ?_⟩, ⟨{ w.updThread l (fun t => t.advance 4 {}) with pend := .none }, ?_,
      waveDone_passes (w := { w with pend := .none }) one on there⟩, ?_⟩
    · rw [bytes within, faultRec_bytes]
      rfl
    · rw [finish, State.updWave, Tbl.find_upd_self, ← moves]
      refine (congrArg (Option.map f) (?_ : _ = some w))
      exact (Tbl.find_upd_self ..).trans (by rw [found']; rfl)
    · have core : u.core (s.coreOf wid) = s.core (s.coreOf wid) := by rw [State.core, State.core, recorded.cores]
      have logged : ∀ k : Core → Core, (((u.updWave wid (passed [])).updCore (s.coreOf wid) k).updWave wid f).core (s.coreOf wid) = k (s.core (s.coreOf wid)) :=
        fun k => (State.core_updCore_self (u.updWave wid (passed [])) _ k).trans (congrArg k core)
      rw [finish, logged, inHbm]
      rfl

end Sys2Proof.Machine
end

section
/-!
SUPPORT. Loads and prefetches (O29): where the lanes of a load lead, what they leave in the caches, and what a load leaves in its waves.
-/

namespace Sys2Proof.Machine

set_option Elab.async false

variable {s t u : State} {g : Group} {wid : Nat} {w : Wave}

/-! ## Where the lanes of a load lead -/

/-- A lane leads to a spot. -/
inductive Leads : Spot → Go → Prop where
  | drop : Leads .drop .drop
  | hbm (pa va : Nat) (m : Bool) : Leads (.hbm pa) (.hbm va pa m)
  | scratch (c off : Nat) : Leads (.scratch c off) (.scratch c off)

theorem lowCode_nil : lowCode [] = none := rfl

section
variable {spaces window : List Nat} {width bi idx : Nat} {hint : Option Nat} {scope acq : Option Scope} {d : VReg} {sp : Spot}

theorem goAt_hbm {a pa : Nat} {m : Bool} (quiet : w.pend.quiet) (inWindow : window.contains 0 = true) (allows : State.recAllows (w.breg bi) .read = true)
    (space : Rcd.space (w.breg bi) = 0) (there : s.reach (some (s.coreOf wid)) (s.partOf wid) (State.asidOf w (w.breg bi)) a false .read = .hbm pa m) :
    s.goAt (loadOp window width hint scope acq d) wid w bi a = .hbm a pa m := by
  have noPages : w.pend.pages = [] := by
    rw [Pend.quiet] at quiet
    rw [quiet]
    rfl
  have there' : s.reach (some (s.coreOf wid)) (s.partOf wid) (State.asidOf w (w.breg bi)) a ((0 : Nat) == 3) .read = .hbm pa m := there
  simp only [State.goAt, loadOp, space, inWindow, allows]
  rw [there']
  simp [State.placeCodes, State.goGlobal, noPages, lowCode_nil]

theorem goAt_scratch {a : Nat} {x : Nat × Nat} (inWindow : window.contains (Rcd.space (w.breg bi)) = true)
    (allows : State.recAllows (w.breg bi) .read = true) (outside : ¬ (w.gates ≠ [] ∧ 2 ≤ bi))
    (there : (Rcd.space (w.breg bi) = 1 ∧ s.localTarget w a width = some x)
      ∨ (Rcd.space (w.breg bi) = 2 ∧ s.clusterTarget (s.coreOf wid) (s.partOf wid) a width = some x)) :
    s.goAt (loadOp window width hint scope acq d) wid w bi a = .scratch x.1 x.2 := by
  have free : (w.depth != 0 && decide (2 ≤ bi)) = false := by
    by_cases far : 2 ≤ bi
    · have flat : w.gates = [] := by_contra fun gated => outside ⟨gated, far⟩
      simp [Wave.depth, flat]
    · simp [far]
  rw [State.goAt]
  rcases there with ⟨space, target⟩ | ⟨space, target⟩
  · rw [space] at inWindow
    simp only [loadOp, space, inWindow, allows, free, target]
    rfl
  · rw [space] at inWindow
    simp only [loadOp, space, inWindow, allows, free, target]
    rfl

/-- A load whose access has a spot leads there (R172, R173, R178, R179). -/
theorem leads_of_spotOf (sub : ∀ x ∈ spaces, window.contains x = true) (quiet : w.pend.quiet) (spot : spotOf s spaces .read width bi wid w idx = some sp) :
    Leads sp (s.laneGo (loadOp window width hint scope acq d) wid w bi idx) := by
  unfold spotOf at spot
  dsimp only at spot
  have go : ∀ x, laneAddress (w.breg bi) idx width = x → s.laneGo (loadOp window width hint scope acq d) wid w bi idx = (match x with
      | .dropped => .drop
      | .trap c => .trap c none
      | .at_ a => s.goAt (loadOp window width hint scope acq d) wid w bi a) := by
    rintro x rfl
    rw [State.laneGo]
    rfl
  split at spot
  · next address =>
    cases spot
    rw [go _ address]
    exact .drop
  · cases spot
  · next a address =>
    split at spot
    · cases spot
    · next may =>
      rw [not_or, not_not, Bool.not_eq_false] at may
      obtain ⟨allows, space⟩ := may
      have inWindow := sub _ space
      split at spot
      · next zero =>
        split at spot
        · next pa m there =>
          cases spot
          rw [go _ address]
          dsimp only
          rw [goAt_hbm quiet (zero ▸ inWindow) allows zero there]
          exact .hbm pa a m
        · cases spot
      · next one =>
        split at spot
        · cases spot
        · next outside =>
          obtain ⟨x, target, rfl⟩ := Option.map_eq_some_iff.1 spot
          rw [go _ address]
          dsimp only
          rw [goAt_scratch inWindow allows outside (.inl ⟨one, target⟩)]
          exact .scratch x.1 x.2
      · next two =>
        split at spot
        · cases spot
        · next outside =>
          obtain ⟨x, target, rfl⟩ := Option.map_eq_some_iff.1 spot
          rw [go _ address]
          dsimp only
          rw [goAt_scratch inWindow allows outside (.inr ⟨two, target⟩)]
          exact .scratch x.1 x.2
      · cases spot

/-- What a load reads at a spot is not poisoned (R246). -/
def CleanSpot (s : State) (width : Nat) : Spot → Prop
  | .drop => True
  | .hbm pa => s.poisoned pa width = false
  | .scratch c off => s.scratchPoisoned c off width = false

theorem goesOn_of_leads {l : Nat} {go : Go} (leads : Leads sp go) (clean : CleanSpot s width sp) :
    GoesOn s (loadOp window width hint scope acq d) wid w (l, go) := by
  cases leads with
  | drop => exact ⟨by simp, by simp, rfl, rfl⟩
  | hbm pa va m =>
    refine ⟨by simp, by simp, ?_, ?_⟩
    · rw [CleanSpot] at clean
      simp [State.readsPoison, loadOp, clean]
    · simp [State.holdsBack, loadOp]
  | scratch c off =>
    refine ⟨by simp, by simp, ?_, rfl⟩
    rw [CleanSpot] at clean
    simp [State.readsPoison, loadOp, clean]

end

/-! ## What lookups and lines that come and go leave -/

/-- Of two states, the second differs only in the lines that caches of cores and dies hold, and in what goes with them (R176, R183, R184, R213). -/
structure LineFrame (s t : State) : Prop where
  frame : t = { s with cores := t.cores, l2 := t.l2, peerWays := t.peerWays, stamps := t.stamps, sliceStamps := t.sliceStamps, fresh := t.fresh }
  cores : ∀ c, t.core c = { s.core c with l1 := (t.core c).l1 }

namespace LineFrame

theorem refl (s : State) : LineFrame s s := ⟨rfl, fun _ => rfl⟩

theorem trans (h : LineFrame s t) (k : LineFrame t u) : LineFrame s u := by
  refine ⟨?_, fun c => ?_⟩
  · have e := k.frame
    rw [h.frame] at e
    exact e
  · have e := k.cores c
    rw [h.cores c] at e
    exact e

theorem ite {c : Prop} [Decidable c] {a b : State} (ha : LineFrame s a) (hb : LineFrame s b) : LineFrame s (if c then a else b) := by
  split <;> assumption

theorem foldl {α : Type} {f : State → α → State} {l : List α} (h : LineFrame s t) (hf : ∀ u, ∀ a ∈ l, LineFrame u (f u a)) :
    LineFrame s (l.foldl f t) :=
  List.foldlRecOn l f (motive := LineFrame s) h fun u hu a ha => hu.trans (hf u a ha)

theorem looked (h : LineFrame s t) (f : LookedUp t u) : LineFrame s u :=
  h.trans ⟨f.1.trans (by rw [f.1]), fun c => by rw [f.core c]⟩

theorem drawn (h : LineFrame s t) : LineFrame s t.drawn := h.trans ⟨rfl, fun _ => rfl⟩

theorem updCore {c : Nat} {f : Core → Core} (h : LineFrame s t) (hf : ∀ k, f k = { k with l1 := (f k).l1 } := by intro _; rfl) :
    LineFrame s (t.updCore c f) := by
  refine h.trans ⟨rfl, fun d => ?_⟩
  by_cases here : d = c
  · rw [here, State.core_updCore_self]
    exact hf _
  · rw [State.core_updCore_ne _ _ here]

/-- Other lines in the L2 and in the peer ways. -/
theorem withCopies {l : List L2Tag} {p : List (Nat × Line)} (h : LineFrame s t) : LineFrame s { t with l2 := l, peerWays := p } :=
  h.trans ⟨rfl, fun _ => rfl⟩

theorem l2Home {ag : Agent} {pa hint : Nat} {dirty : Bool} (h : LineFrame s t) : LineFrame s (t.l2Home ag pa hint dirty) := h.looked (l2Home_lookedUp ..)

theorem fillL1 {c : Nat} {l : Line} (h : LineFrame s t) : LineFrame s (t.fillL1 c l) := by
  unfold State.fillL1
  extract_lets set
  refine .ite ?_ h.updCore
  split
  · exact h
  · exact h.updCore.drawn

theorem keepCopy {ag : Agent} {hint : Nat} {l : Line} (h : LineFrame s t) : LineFrame s (t.keepCopy ag hint l) := by
  unfold State.keepCopy
  extract_lets mask s1
  have h1 : LineFrame s s1 := h.looked (l2Touch_lookedUp ..)
  exact .ite h (.ite h1.withCopies h1)

theorem keepHbm {ag : Agent} {hint pa : Nat} (h : LineFrame s t) : LineFrame s (t.keepHbm ag hint pa) := by
  unfold State.keepHbm
  split
  · exact h
  · extract_lets l s1 s2
    have h1 : LineFrame s s1 := .ite h h.l2Home
    have h2 : LineFrame s s2 := .ite h1 h1.keepCopy
    exact .ite h (.ite h2.fillL1 h2)

theorem dropL1 {c : Nat} (h : LineFrame s t) : LineFrame s (t.dropL1 c) := h.updCore

theorem dropCopies {f : Nat × Line → Bool} (h : LineFrame s t) : LineFrame s (t.dropCopies f) := h.withCopies

theorem forgetLine {ag : Agent} {chip : Option Nat} {pa : Nat} (h : LineFrame s t) : LineFrame s (t.forgetLine ag chip pa) := by
  unfold State.forgetLine
  extract_lets s1 s2
  have h1 : LineFrame s s1 := by
    unfold s1
    split
    · exact h
    · exact .ite h h.updCore
  exact .ite h1 h1.withCopies

/-- A load leaves its line (R176, R204). -/
theorem touchRead {op : MemOp} {x : Nat × Nat × Go} (plain : ∀ va asid e pa, x.2.2 ≠ .peer va asid e pa) (h : LineFrame s t) :
    LineFrame s (State.touchRead op t x) := by
  unfold State.touchRead
  refine .ite h (.ite ?_ ?_)
  · split
    · exact .ite h.forgetLine h
    · exact h
  · split
    · split
      · exact h.keepHbm
      · exact h.forgetLine.l2Home
    · next peer => exact absurd peer (plain _ _ _ _)
    · exact h

end LineFrame

/-- Of two states, the second differs in what lookups of translations leave (R191). -/
structure TlbFrame (s t : State) : Prop where
  frame : t = { s with cores := t.cores, ctlb := t.ctlb, l2 := t.l2, peerWays := t.peerWays, stamps := t.stamps, sliceStamps := t.sliceStamps, fresh := t.fresh }
  cores : ∀ c, t.core c = { s.core c with tlb := (t.core c).tlb }
  copies : ∀ x ∈ t.peerWays, x ∈ s.peerWays

namespace TlbFrame

theorem refl (s : State) : TlbFrame s s := ⟨rfl, fun _ => rfl, fun _ h => h⟩

theorem trans (h : TlbFrame s t) (k : TlbFrame t u) : TlbFrame s u := by
  refine ⟨?_, fun c => ?_, fun x hx => h.copies x (k.copies x hx)⟩
  · have e := k.frame
    rw [h.frame] at e
    exact e
  · have e := k.cores c
    rw [h.cores c] at e
    exact e

theorem looked (h : TlbFrame s t) (f : LookedUp t u) : TlbFrame s u :=
  h.trans ⟨f.1.trans (by rw [f.1]), fun c => by rw [f.core c], f.2⟩

theorem updCore {c : Nat} {f : Core → Core} (h : TlbFrame s t) (hf : ∀ k, f k = { k with tlb := (f k).tlb } := by intro _; rfl) :
    TlbFrame s (t.updCore c f) := by
  refine h.trans ⟨rfl, fun d => ?_, fun _ hx => hx⟩
  by_cases here : d = c
  · rw [here, State.core_updCore_self]
    exact hf _
  · rw [State.core_updCore_ne _ _ here]

theorem withCtlb {l : Tbl (List TlbEntry)} (h : TlbFrame s t) : TlbFrame s { t.drawn with ctlb := l } := h.trans ⟨rfl, fun _ => rfl, fun _ hx => hx⟩

theorem keepTlb {c p : Nat} {cls : Cls} {asid va : Nat} (h : TlbFrame s t) : TlbFrame s (t.keepTlb c p cls asid va) := by
  unfold State.keepTlb
  extract_lets cl s1
  have h1 : TlbFrame s s1 := by
    unfold s1
    split
    · exact h
    · exact h.looked (walked_lookedUp ..)
  split
  · extract_lets e
    split
    · exact h1
    · exact h1.updCore.withCtlb
  · exact h1

theorem keepTlbs {bi wid : Nat} {go : List (Nat × Go)} (h : TlbFrame s t) : TlbFrame s (t.keepTlbs bi wid go) := by
  unfold State.keepTlbs
  split
  · exact h
  · refine List.foldlRecOn go _ (motive := TlbFrame s) h fun u hu e _ => ?_
    split
    · exact hu
    · exact hu.keepTlb

end TlbFrame

/-- Of two states, the second differs in what a load leaves beside its results: lines, translations, which lines under way may be kept; and in its waves. -/
structure ReadFrame (s t : State) : Prop where
  frame : t = { s with waves := t.waves, cores := t.cores, ctlb := t.ctlb, l2 := t.l2, peerWays := t.peerWays, stamps := t.stamps
                       sliceStamps := t.sliceStamps, fresh := t.fresh, fab := { s.fab with reads := t.fab.reads } }
  cores : ∀ c, t.core c = { s.core c with l1 := (t.core c).l1, tlb := (t.core c).tlb }
  reads : t.fab.reads.map (fun r => { r with keep := false }) = s.fab.reads.map (fun r => { r with keep := false })

namespace ReadFrame

theorem refl (s : State) : ReadFrame s s := ⟨rfl, fun _ => rfl, rfl⟩

theorem trans (h : ReadFrame s t) (k : ReadFrame t u) : ReadFrame s u := by
  refine ⟨?_, fun c => ?_, k.reads.trans h.reads⟩
  · have e := k.frame
    rw [h.frame] at e
    exact e
  · have e := k.cores c
    rw [h.cores c] at e
    exact e

theorem lines (h : LineFrame s t) : ReadFrame s t :=
  ⟨h.frame.trans (by rw [h.frame]), fun c => (h.cores c).trans (by rw [h.cores c]), by rw [h.frame]⟩

theorem lookups (h : TlbFrame s t) : ReadFrame s t :=
  ⟨h.frame.trans (by rw [h.frame]), fun c => (h.cores c).trans (by rw [h.cores c]), by rw [h.frame]⟩

theorem withWaves {ws : Tbl Wave} (s : State) : ReadFrame s { s with waves := ws } := ⟨rfl, fun _ => rfl, rfl⟩

theorem noKeep (s : State) (f : Nat → Nat → Nat → Bool) : ReadFrame s (s.noKeep f) := by
  unfold State.noKeep
  extract_lets g
  split
  · exact .refl s
  · refine ⟨rfl, fun _ => rfl, ?_⟩
    dsimp only
    rw [List.map_map]
    refine List.map_congr_left fun r _ => ?_
    rw [Function.comp_apply]
    split
    · rfl
    · split <;> rfl

theorem byteAt (h : ReadFrame s t) (pa : Nat) : t.byteAt pa = s.byteAt pa := by
  have mem : t.mem = s.mem := congrArg (·.mem) h.frame
  have stale : t.stale = s.stale := congrArg (·.stale) h.frame
  rw [State.byteAt, State.byteAt, State.staleAt, State.staleAt, mem, stale]

theorem byteOf (h : ReadFrame s t) (p : Spot) : t.byteOf p = s.byteOf p := by
  cases p with
  | drop => rfl
  | hbm pa => exact h.byteAt pa
  | scratch c off => exact congrArg (fun k => Memory.get k.scratch off) (h.cores c)

end ReadFrame

/-! ## The end of a load in a wave -/

theorem unkept_mapPends {f : Wave → Pend → Pend} (drops : ∀ w p, { f w p with lines := (f w p).lines.map (fun l => { l with keep := false }) }
    = ({ p with lines := p.lines.map (fun l => { l with keep := false }) } : Pend)) (w : Wave) : (w.mapPends (f w)).unkept = w.unkept := by
  simp only [Wave.unkept, Wave.mapPends, List.map_map, drops]
  congr 1
  exact List.map_congr_left fun p _ => drops w p

/-- Of two states, the second has the same waves but for marks on lines under way, and no line more in an L1 that was empty. -/
structure MildFrame (s t : State) : Prop where
  frame : ReadFrame s t
  waves : ∀ v, (Tbl.find t.waves v).map Wave.unkept = (Tbl.find s.waves v).map Wave.unkept
  empty : ∀ c, (s.core c).l1 = [] → (t.core c).l1 = []

namespace MildFrame

theorem refl (s : State) : MildFrame s s := ⟨.refl s, fun _ => rfl, fun _ h => h⟩

theorem trans (h : MildFrame s t) (k : MildFrame t u) : MildFrame s u :=
  ⟨h.frame.trans k.frame, fun v => (k.waves v).trans (h.waves v), fun c e => k.empty c (h.empty c e)⟩

theorem seats (h : MildFrame s t) : SameSeats s t := by
  refine ⟨fun v => ?_, congrArg (·.teams) h.frame.frame, congrArg (·.grids) h.frame.frame⟩
  have same := congrArg (Option.map Wave.team) (h.waves v)
  rwa [Option.map_map, Option.map_map] at same

theorem noKeep (s : State) (f : Nat → Nat → Nat → Bool) : MildFrame s (s.noKeep f) := by
  refine ⟨.noKeep s f, fun v => ?_, ?_⟩ <;> unfold State.noKeep <;> extract_lets g <;> split
  · rfl
  · rw [Tbl.find_map s.waves (fun w => w.mapPends (g w)), Option.map_map]
    refine congrArg (Option.map · _) (funext fun w => unkept_mapPends (fun w p => ?_) w)
    simp only [g, List.map_map]
    congr 1
    refine List.map_congr_left fun l _ => ?_
    rw [Function.comp_apply]
    split <;> rfl
  · exact fun _ h => h
  · exact fun _ h => h

theorem dropL1 (s : State) (c : Nat) : MildFrame s (s.dropL1 c) := by
  refine ⟨.lines (LineFrame.refl s).dropL1, fun _ => rfl, fun d h => ?_⟩
  by_cases here : d = c
  · rw [here, State.dropL1, State.core_updCore_self]
  · rwa [State.dropL1, State.core_updCore_ne _ _ here]

theorem dropCopies (s : State) (f : Nat × Line → Bool) : MildFrame s (s.dropCopies f) :=
  ⟨.lines (LineFrame.refl s).dropCopies, fun _ => rfl, fun _ h => h⟩

end MildFrame

/-- What the end of a load leaves beside its wave; in that, its stamps and its access, which is `p`. -/
structure EndsIn (s t : State) (wid : Nat) (y : Wave) (p : Pend) : Prop where
  frame : ReadFrame s t
  others : ∀ v, v ≠ wid → (Tbl.find t.waves v).map Wave.unkept = (Tbl.find s.waves v).map Wave.unkept
  mine : ∃ x, Tbl.find t.waves wid = some x ∧ x.unkept = { y.unkept with rstamp := x.rstamp, seen := x.seen, pend := p }
  empty : ∀ c, (s.core c).l1 = [] → (t.core c).l1 = []

theorem MildFrame.endsIn {y : Wave} (h : MildFrame s t) (found : Tbl.find s.waves wid = some y) : EndsIn s t wid y y.unkept.pend := by
  refine ⟨h.frame, fun v _ => h.waves v, ?_, h.empty⟩
  have same := h.waves wid
  rw [found, Option.map_some, Option.map_eq_some_iff] at same
  obtain ⟨x, there, eq⟩ := same
  refine ⟨x, there, ?_⟩
  have rstamp : x.rstamp = y.unkept.rstamp := (congrArg Wave.rstamp eq : x.unkept.rstamp = y.unkept.rstamp)
  have seen : x.seen = y.unkept.seen := (congrArg Wave.seen eq : x.unkept.seen = y.unkept.seen)
  rw [eq, rstamp, seen]

theorem EndsIn.updWave {y : Wave} {p q : Pend} {f : Wave → Wave} (h : EndsIn s t wid y p)
    (hf : ∀ x : Wave, x.unkept.pend = p → (f x).unkept = { x.unkept with rstamp := (f x).rstamp, seen := (f x).seen, pend := q }) :
    EndsIn s (t.updWave wid f) wid y q := by
  refine ⟨h.frame.trans (.withWaves t), fun v other => ?_, ?_, h.empty⟩
  · rw [State.updWave, Tbl.find_upd_ne _ _ other]
    exact h.others v other
  · obtain ⟨x, there, eq⟩ := h.mine
    refine ⟨f x, by rw [State.updWave, Tbl.find_upd_self, there]; rfl, ?_⟩
    rw [hf x (congrArg Wave.pend eq), eq]

/-- An acquire, but for the stamps of its wave (R212). -/
def acquired (s : State) (wid : Nat) (sc : Scope) : State :=
  let c := s.coreOf wid
  let d := dieOf c
  let s := if 2 ≤ sc.code then (s.dropL1 c).noKeep (fun x _ _ => x == c || (4 ≤ sc.code && dieOf x == d)) else s
  if 4 ≤ sc.code then s.dropCopies (fun e => e.1 == d) else s

theorem acquire_eq (s : State) (wid : Nat) (sc : Scope) (st : Nat × Nat) : s.acquire wid sc st =
    if 4 ≤ sc.code then (acquired s wid sc).updWave wid (fun w => { w with seen := stampMax w.seen st, rstamp := (0, 0) }) else acquired s wid sc := rfl

theorem acquired_mild (s : State) (wid : Nat) (sc : Scope) : MildFrame s (acquired s wid sc) := by
  unfold acquired
  extract_lets c d s1
  have h1 : MildFrame s s1 := by
    unfold s1
    split
    · exact (MildFrame.dropL1 s c).trans (.noKeep ..)
    · exact .refl s
  split
  · exact h1.trans (.dropCopies ..)
  · exact h1

theorem acquired_l1 {sc : Scope} (wide : 2 ≤ sc.code) : ((acquired s wid sc).core (s.coreOf wid)).l1 = [] := by
  unfold acquired
  extract_lets c d s1
  have h1 : (s1.core c).l1 = [] := by
    unfold s1
    rw [if_pos wide]
    exact (MildFrame.noKeep (s.dropL1 c) _).empty c (by rw [State.dropL1, State.core_updCore_self])
  split
  · exact h1
  · exact h1

theorem acquire_endsIn {y : Wave} {sc : Scope} {st : Nat × Nat} (found : Tbl.find s.waves wid = some y) :
    EndsIn s (s.acquire wid sc st) wid y y.unkept.pend := by
  rw [acquire_eq]
  split
  · refine ((acquired_mild s wid sc).endsIn found).updWave fun x same => ?_
    rw [← same]
    rfl
  · exact (acquired_mild s wid sc).endsIn found

theorem acquire_l1 {sc : Scope} {st : Nat × Nat} (wide : 2 ≤ sc.code) : ((s.acquire wid sc st).core (s.coreOf wid)).l1 = [] := by
  rw [acquire_eq]
  split
  · exact acquired_l1 wide
  · exact acquired_l1 wide

section
variable {op : MemOp} {go : List (Nat × Go)} {st : Nat × Nat} {y : Wave}

theorem memOver_endsIn (found : Tbl.find s.waves wid = some y) (moved : go.any (fun e => (y.thread e.1).pc == g.pc) = false) :
    EndsIn s (memOver op g go wid st s) wid y .none := by
  unfold memOver
  extract_lets t left
  have ends : EndsIn s t wid y y.unkept.pend := by
    unfold t
    split
    · exact (MildFrame.refl s).endsIn found
    · exact acquire_endsIn found
  have done : left = false := by
    obtain ⟨x, there, eq⟩ := ends.mine
    have threads : x.threads = y.threads := by
      have same := congrArg Wave.threads eq
      exact same
    unfold left
    rw [there]
    simp only [Wave.thread, threads] at moved ⊢
    exact moved
  rw [done]
  exact ends.updWave fun x _ => rfl

theorem memOver_l1 {sc : Scope} (acq : op.acq = some sc) (wide : 2 ≤ sc.code) : ((memOver op g go wid st s).core (s.coreOf wid)).l1 = [] := by
  unfold memOver
  rw [acq]
  exact acquire_l1 wide

end

/-! ### The end in each wave of the group -/

theorem passed_unkept (off : List Nat) (w : Wave) : (passed off w).unkept = passed off w.unkept := by
  induction off generalizing w with
  | nil => rfl
  | cons l off ih => exact ih (w.updThread l _)

theorem passed_team (off : List Nat) (w : Wave) : (passed off w).team = w.team := by
  induction off generalizing w with
  | nil => rfl
  | cons l off ih => exact ih (w.updThread l _)

/-- None of some lanes is left at the instruction. -/
def AllMoved (g : Group) (off : List Nat) (go : List (Nat × Go)) (w : Wave) : Prop := go.any (fun e => ((passed off w).thread e.1).pc == g.pc) = false

theorem AllMoved.of_unkept {off : List Nat} {go : List (Nat × Go)} {x y : Wave} (h : AllMoved g off go x) (same : y.unkept = x.unkept) : AllMoved g off go y := by
  have threads : ∀ l, (passed off y).thread l = (passed off x).thread l := fun l => by
    change (passed off y).unkept.thread l = (passed off x).unkept.thread l
    rw [passed_unkept, passed_unkept, same]
  simpa only [AllMoved, threads] using h

/-- A lane that a load performs wholly: it waits for no page and no lease, and does not end. -/
def Plain (go : List (Nat × Go)) : Prop :=
  ∀ e ∈ go, (∀ va chip page, e.2 ≠ .lease va chip page) ∧ (∀ va, e.2 ≠ .fatal va) ∧ ∀ va l chip, e.2 ≠ .fault va l chip

theorem faultPages_nil {go : List (Nat × Go)} (plain : Plain go) : State.faultPages go = [] := by
  unfold State.faultPages
  refine List.foldlRecOn go _ (motive := fun acc => acc = []) rfl fun acc h e he => ?_
  split
  · next fault => exact absurd fault ((plain e he).2.2 _ _ _)
  · exact h

section
variable {op : MemOp} {bi : Nat} {opOf : State → Nat → Wave → Nat → Nat → LogOp} {off : List Nat} {go : List (Nat × Go)}

theorem memFinish_load (loads : op.loads = true) (plain : Plain go) (found : Tbl.find s.waves wid = some w) :
    ∃ f, State.memFinish op bi opOf g off go s wid = memOver op g go wid w.rstamp (s.updWave wid f)
      ∧ f w = { passed off w with pend := { (passed off w).pend with pages := [] } } := by
  rw [memFinish_eq found (fun e he => (plain e he).1) (fun e he => (plain e he).2.1), loads]
  dsimp only
  rw [if_pos rfl, State.updWave_updWave]
  refine ⟨_, rfl, ?_⟩
  rw [State.waitPages, faultPages_nil plain, List.map_nil]

theorem memFinish_endsIn (loads : op.loads = true) (plain : Plain go) (found : Tbl.find s.waves wid = some w) (moved : AllMoved g off go w) :
    EndsIn s (State.memFinish op bi opOf g off go s wid) wid (passed off w) .none := by
  obtain ⟨f, eq, value⟩ := memFinish_load (bi := bi) (opOf := opOf) (g := g) (off := off) loads plain found
  have there : Tbl.find (s.updWave wid f).waves wid = some (f w) := by rw [State.updWave, Tbl.find_upd_self, found]; rfl
  have ends : EndsIn (s.updWave wid f) _ wid (f w) .none := memOver_endsIn (op := op) (g := g) (go := go) (st := w.rstamp) there (by rw [value]; exact moved)
  rw [eq]
  refine ⟨.trans (.withWaves s) ends.frame, fun v other => ?_, ?_, ends.empty⟩
  · rw [ends.others v other, State.updWave, Tbl.find_upd_ne _ _ other]
  · obtain ⟨x, here, same⟩ := ends.mine
    refine ⟨x, here, ?_⟩
    rw [same, value]
    rfl

theorem memFinish_l1 {sc : Scope} (loads : op.loads = true) (plain : Plain go) (found : Tbl.find s.waves wid = some w) (acq : op.acq = some sc)
    (wide : 2 ≤ sc.code) : ((State.memFinish op bi opOf g off go s wid).core (s.coreOf wid)).l1 = [] := by
  obtain ⟨f, eq, value⟩ := memFinish_load (bi := bi) (opOf := opOf) (g := g) (off := off) loads plain found
  have seats : SameSeats s (s.updWave wid f) := .updWave s wid fun y hy => by
    rw [found] at hy
    cases hy
    rw [value]
    exact passed_team off w
  rw [eq, ← seats.coreOf]
  exact memOver_l1 acq wide

end

theorem EndsIn.seats {y : Wave} {p : Pend} (h : EndsIn s t wid y p) (found : Tbl.find s.waves wid = some w) (team : y.team = w.team) : SameSeats s t := by
  refine ⟨fun v => ?_, congrArg (·.teams) h.frame.frame, congrArg (·.grids) h.frame.frame⟩
  by_cases here : v = wid
  · subst here
    obtain ⟨x, there, same⟩ := h.mine
    have teams := congrArg Wave.team same
    rw [there, found]
    exact congrArg some (teams.trans team)
  · have same := congrArg (Option.map Wave.team) (h.others v here)
    rwa [Option.map_map, Option.map_map] at same

/-- The end of a load in several waves. -/
structure EndsAll (op : MemOp) (off : Nat → List Nat) (ws : List Nat) (s t : State) : Prop where
  frame : ReadFrame s t
  others : ∀ v, v ∉ ws → (Tbl.find t.waves v).map Wave.unkept = (Tbl.find s.waves v).map Wave.unkept
  mine : ∀ v ∈ ws, ∀ y, Tbl.find s.waves v = some y → ∃ x, Tbl.find t.waves v = some x
    ∧ x.unkept = { (passed (off v) y).unkept with rstamp := x.rstamp, seen := x.seen, pend := .none }
  empty : ∀ c, (s.core c).l1 = [] → (t.core c).l1 = []
  acquires : ∀ sc, op.acq = some sc → 2 ≤ sc.code → ∀ v ∈ ws, (t.core (s.coreOf v)).l1 = []

theorem find_of_unkept {x : Option Wave} (same : x.map Wave.unkept = some w.unkept) : ∃ y, x = some y ∧ y.unkept = w.unkept :=
  Option.map_eq_some_iff.1 same

theorem foldl_memFinish {op : MemOp} {bi : Nat} {opOf : State → Nat → Wave → Nat → Nat → LogOp} {off : Nat → List Nat} {on : Nat → List (Nat × Go)}
    {ws : List Nat} (loads : op.loads = true) (plain : ∀ v ∈ ws, Plain (on v)) (once : ws.Nodup)
    (there : ∀ v ∈ ws, ∃ y, Tbl.find s.waves v = some y ∧ AllMoved g (off v) (on v) y) :
    EndsAll op off ws s (ws.foldl (fun s wid => State.memFinish op bi opOf g (off wid) (on wid) s wid) s) := by
  induction ws generalizing s with
  | nil => exact ⟨.refl s, fun _ _ => rfl, by simp, fun _ h => h, by simp⟩
  | cons a ws ih =>
    obtain ⟨fresh, once⟩ := List.nodup_cons.1 once
    obtain ⟨w, found, moved⟩ := there a (.head _)
    have first : EndsIn s (State.memFinish op bi opOf g (off a) (on a) s a) a (passed (off a) w) .none :=
      memFinish_endsIn loads (plain a (.head _)) found moved
    have seats := first.seats found (passed_team _ w)
    have rest := ih (s := State.memFinish op bi opOf g (off a) (on a) s a) (fun v hv => plain v (.tail _ hv)) once fun v hv => by
      obtain ⟨y, here, moved⟩ := there v (.tail _ hv)
      have same := first.others v (fun e => fresh (e ▸ hv))
      rw [here] at same
      obtain ⟨y', here', eq⟩ := find_of_unkept same
      exact ⟨y', here', moved.of_unkept eq⟩
    rw [List.foldl_cons]
    refine ⟨first.frame.trans rest.frame, fun v hv => ?_, fun v hv y hy => ?_, fun c e => rest.empty c (first.empty c e), fun sc acq wide v hv => ?_⟩
    · obtain ⟨other, notIn⟩ : v ≠ a ∧ v ∉ ws := by simpa using hv
      exact (rest.others v notIn).trans (first.others v other)
    · rcases List.mem_cons.1 hv with rfl | hv
      · rw [found] at hy
        cases hy
        obtain ⟨x, here, eq⟩ := first.mine
        have same := rest.others v fresh
        rw [here] at same
        obtain ⟨x', here', eq'⟩ := find_of_unkept same
        have rstamp : x'.rstamp = x.rstamp := (congrArg Wave.rstamp eq' : x'.unkept.rstamp = x.unkept.rstamp)
        have seen : x'.seen = x.seen := (congrArg Wave.seen eq' : x'.unkept.seen = x.unkept.seen)
        exact ⟨x', here', by rw [eq', eq, rstamp, seen]⟩
      · have same := first.others v (fun e => fresh (e ▸ hv))
        rw [hy] at same
        obtain ⟨y', here', eq⟩ := find_of_unkept same
        obtain ⟨x, here, value⟩ := rest.mine v hv y' here'
        exact ⟨x, here, by rw [value, passed_unkept, eq, passed_unkept]⟩
    · rcases List.mem_cons.1 hv with rfl | hv
      · exact rest.empty _ (memFinish_l1 loads (plain v (.head _)) found acq wide)
      · rw [← seats.coreOf]
        exact rest.acquires sc acq wide v hv

/-! ## The lanes of a load -/

/-- A wave without what a load gives it: registers, flags, threads, the stamp of what it has read. -/
def Wave.bare (w : Wave) : Wave := { w with v := [], p := [], fmode := 0, threads := [], rstamp := (0, 0) }

theorem bare_commit (w : Wave) (size l : Nat) (r : LaneRes) : (w.commit size l r).bare = w.bare := by
  rw [commit_frame]
  rfl

theorem setVs_rstamp (x : VWrites) (w : Wave) (l : Nat) (st : Nat × Nat) :
    x.foldl (fun (w : Wave) e => w.setV l e.1 e.2) { w with rstamp := st } = { x.foldl (fun (w : Wave) e => w.setV l e.1 e.2) w with rstamp := st } := by
  induction x generalizing w with
  | nil => rfl
  | cons e x ih => exact ih (w.setV l e.1 e.2)

/-- The results of a lane that writes v registers, and the stamp of what was read, are written in either order. -/
theorem commit_rstamp (w : Wave) (size l : Nat) (x : VWrites) (st : Nat × Nat) :
    ({ w with rstamp := st } : Wave).commit size l (.ofV x) = { w.commit size l (.ofV x) with rstamp := st } := by
  simp only [Wave.commit, LaneRes.ofV, List.foldl_nil, setVs_rstamp, Wave.updThread]

/-- The results of some lanes written one after another. -/
def committed (e : Nat → VWrites) (on : List Nat) (w : Wave) : Wave := on.foldl (fun w l => w.commit 4 l (.ofV (e l))) w

theorem committed_rstamp (e : Nat → VWrites) (on : List Nat) (w : Wave) (st : Nat × Nat) :
    committed e on { w with rstamp := st } = { committed e on w with rstamp := st } := by
  induction on generalizing w with
  | nil => rfl
  | cons l on ih =>
    rw [committed, List.foldl_cons, commit_rstamp]
    exact ih _

/-- Of two states, the second differs in what its waves have been given by loads. -/
structure LanesFrame (s t : State) : Prop where
  frame : t = { s with waves := t.waves }
  waves : ∀ v, (Tbl.find t.waves v).map Wave.bare = (Tbl.find s.waves v).map Wave.bare

namespace LanesFrame

theorem refl (s : State) : LanesFrame s s := ⟨rfl, fun _ => rfl⟩

theorem updWave {k : Nat} {f : Wave → Wave} (h : LanesFrame s t) (hf : ∀ w, (f w).bare = w.bare) : LanesFrame s (t.updWave k f) := by
  refine ⟨?_, fun v => (?_ : _ = (Tbl.find t.waves v).map Wave.bare).trans (h.waves v)⟩
  · rw [State.updWave]
    rw [h.frame]
  · by_cases here : v = k
    · subst here
      rw [State.updWave, Tbl.find_upd_self, Option.map_map]
      exact congrArg (Option.map · _) (funext hf)
    · rw [State.updWave, Tbl.find_upd_ne _ _ here]

theorem seats (h : LanesFrame s t) : SameSeats s t := by
  refine ⟨fun v => ?_, congrArg (·.teams) h.frame, congrArg (·.grids) h.frame⟩
  have same := congrArg (Option.map Wave.team) (h.waves v)
  rwa [Option.map_map, Option.map_map] at same

theorem read (h : LanesFrame s t) : ReadFrame s t := by
  rw [h.frame]
  exact .withWaves s

end LanesFrame

/-- A lane of a load gets these bytes, whatever the lanes before it have got. -/
def LoadsAt (s : State) (op : MemOp) (wid l : Nat) (go : Go) (bs : List Byte) : Prop :=
  ∀ t, LanesFrame s t → t.loadAt op wid l go = (some bs, t) ∨ ∃ st, t.loadAt op wid l go = (some bs, t.readStamp (some wid) st)

theorem copyBack_home {l r : Nat} {x : Word} (found : Tbl.find s.waves wid = some w) (home : w.away.contains (r / 64) = false) : s.copyBack wid l r x = s := by
  rw [State.copyBack, found]
  dsimp only
  rw [home, Bool.not_false, Bool.or_true, if_pos rfl]

theorem copyBacks_home {l : Nat} {x : VWrites} (found : Tbl.find s.waves wid = some w) (home : ∀ y ∈ x, w.away.contains (y.1 / 64) = false) :
    x.foldl (fun t y => t.copyBack wid l y.1 y.2) s = s :=
  List.foldlRecOn x _ (motive := fun t => t = s) rfl fun t same y hy => by rw [same, copyBack_home found (home y hy)]

section
variable {op : MemOp} {d : VReg} {l : Nat} {go : Go} {bs : List Byte}

/-- One lane of a load: it takes its register block, and the wave the stamp. -/
theorem memLane_load (loads : op.loads = true) (rmw : op.rmw = false) (at_ : LoadsAt s op wid l go bs) (h : LanesFrame s t)
    (home : ∀ w, Tbl.find s.waves wid = some w → ∀ y ∈ loadBlock d.val op.width bs, w.away.contains (y.1 / 64) = false)
    (there : Tbl.find t.waves wid = some w) :
    ∃ st : Wave → Nat × Nat, State.memLane op (loadAct op d) t (wid, l, go)
      = t.updWave wid (fun w => ({ w with rstamp := st w } : Wave).commit 4 l (.ofV (loadBlock d.val op.width bs))) := by
  have sharers : t.sharers op wid l = [l] := by simp [State.sharers, loads, rmw]
  have given : ∃ st : Wave → Nat × Nat, (t.loadAt op wid l go).1 = some bs ∧ ((t.loadAt op wid l go).2.updWave wid
      (fun w => w.commit 4 l (.ofV (loadBlock d.val op.width bs))))
      = t.updWave wid (fun w => ({ w with rstamp := st w } : Wave).commit 4 l (.ofV (loadBlock d.val op.width bs))) := by
    rcases at_ t h with plain | ⟨st, stamped⟩
    · exact ⟨Wave.rstamp, by rw [plain], by rw [plain]⟩
    · exact ⟨fun w => stampMax w.rstamp st, by rw [stamped], by rw [stamped]; exact State.updWave_updWave ..⟩
  obtain ⟨st, value, state⟩ := given
  refine ⟨st, ?_⟩
  simp only [State.memLane, there, loadAct, value, Option.map_some, sharers, List.foldl_cons, List.foldl_nil]
  rw [state]
  have there' : Tbl.find (t.updWave wid (fun w => ({ w with rstamp := st w } : Wave).commit 4 l (.ofV (loadBlock d.val op.width bs)))).waves wid
      = some (({ w with rstamp := st w } : Wave).commit 4 l (.ofV (loadBlock d.val op.width bs))) := by
    rw [State.updWave, Tbl.find_upd_self, there]
    rfl
  refine copyBacks_home there' fun y hy => ?_
  have same := h.waves wid
  rw [there] at same
  obtain ⟨w', found, eq⟩ := Option.map_eq_some_iff.1 same.symm
  have away : w'.away = w.away := (congrArg Wave.away eq : w'.bare.away = w.bare.away)
  rw [commit_frame]
  exact away ▸ home w' found y hy

/-- The lanes of a wave in a list of lanes of several waves. -/
def lanesIn (v : Nat) (work : List (Nat × Nat × Go)) : List Nat := (work.filter (fun x => x.1 == v)).map (fun x => x.2.1)

/-- The lanes of a load, one after another. -/
theorem foldl_memLane {bytes : Nat → Nat → List Byte} {work : List (Nat × Nat × Go)} (loads : op.loads = true) (rmw : op.rmw = false)
    (at_ : ∀ x ∈ work, LoadsAt s op x.1 x.2.1 x.2.2 (bytes x.1 x.2.1))
    (home : ∀ x ∈ work, ∃ w, Tbl.find s.waves x.1 = some w ∧ ∀ y ∈ loadBlock d.val op.width (bytes x.1 x.2.1), w.away.contains (y.1 / 64) = false)
    (h : LanesFrame s t) : let u := work.foldl (State.memLane op (loadAct op d)) t
    LanesFrame s u ∧ (∀ v, (∀ x ∈ work, x.1 ≠ v) → Tbl.find u.waves v = Tbl.find t.waves v) ∧ ∀ v y, Tbl.find t.waves v = some y →
      ∃ st, Tbl.find u.waves v = some { committed (fun l => loadBlock d.val op.width (bytes v l)) (lanesIn v work) y with rstamp := st } := by
  induction work generalizing t with
  | nil => exact ⟨h, fun _ _ => rfl, fun v y there => ⟨y.rstamp, there⟩⟩
  | cons x work ih =>
    obtain ⟨wid, l, go⟩ := x
    obtain ⟨w, found, ok⟩ := home _ (.head _)
    have same := h.waves wid
    rw [found] at same
    obtain ⟨w', there, -⟩ := Option.map_eq_some_iff.1 same
    obtain ⟨st, eq⟩ := memLane_load (d := d) loads rmw (at_ _ (.head _)) h (fun w₁ h₁ y hy => by
      rw [found] at h₁
      cases h₁
      exact ok y hy) there
    have h1 : LanesFrame s (State.memLane op (loadAct op d) t (wid, l, go)) := by
      rw [eq]
      exact h.updWave fun w => bare_commit ..
    obtain ⟨frame, others, waves⟩ := ih (fun x hx => at_ x (.tail _ hx)) (fun x hx => home x (.tail _ hx)) h1
    refine ⟨frame, fun v apart => ?_, fun v y hy => ?_⟩
    · rw [List.foldl_cons, others v fun x hx => apart x (.tail _ hx), eq, State.updWave, Tbl.find_upd_ne _ _ (apart _ (.head _)).symm]
    by_cases here : v = wid
    · subst here
      have step : Tbl.find (State.memLane op (loadAct op d) t (v, l, go)).waves v
          = some (({ y with rstamp := st y } : Wave).commit 4 l (.ofV (loadBlock d.val op.width (bytes v l)))) := by
        rw [eq, State.updWave, Tbl.find_upd_self, hy]
        rfl
      obtain ⟨r, last⟩ := waves v _ step
      refine ⟨r, ?_⟩
      rw [List.foldl_cons, last, commit_rstamp, committed_rstamp]
      simp [lanesIn, committed]
    · have step : Tbl.find (State.memLane op (loadAct op d) t (wid, l, go)).waves v = some y := by
        rw [eq, State.updWave, Tbl.find_upd_ne _ _ here, hy]
      obtain ⟨r, last⟩ := waves v _ step
      refine ⟨r, ?_⟩
      rw [List.foldl_cons, last]
      simp [lanesIn, Ne.symm here]

end

/-! ## What the lanes of a load read -/

theorem natBytes_zero (n : Nat) : natBytes n 0 = List.replicate n 0 := by
  induction n with
  | zero => rfl
  | succ n ih => rw [natBytes, List.replicate_succ, Nat.zero_div, ih]; rfl

theorem bytesAt_eq_map (s : State) (pa n : Nat) : s.bytesAt pa n = (List.range n).map (fun i => s.byteAt (pa + i)) := by
  induction n generalizing pa with
  | zero => rfl
  | succ n ih =>
    rw [State.bytesAt, ih, List.range_succ_eq_map, List.map_cons, List.map_map]
    refine congrArg₂ List.cons rfl (List.map_congr_left fun i _ => ?_)
    rw [Function.comp_apply, Nat.succ_eq_add_one, Nat.add_right_comm, Nat.add_assoc]

theorem read_eq_map (m : List Host.Cell) (a n : Nat) : Memory.read m a n = (List.range n).map (fun i => Memory.get m (a + i)) := by
  induction n generalizing a with
  | zero => rfl
  | succ n ih =>
    rw [Memory.read, ih, List.range_succ_eq_map, List.map_cons, List.map_map]
    refine congrArg₂ List.cons rfl (List.map_congr_left fun i _ => ?_)
    rw [Function.comp_apply, Nat.succ_eq_add_one, Nat.add_right_comm, Nat.add_assoc]

theorem spotBytes_drop (s : State) (n : Nat) : s.spotBytes .drop n = natBytes n 0 := by
  rw [natBytes_zero, State.spotBytes]
  exact List.ext_getElem (by simp) fun i _ _ => by simp [State.byteOf, Spot.plus]

theorem spotBytes_hbm (s : State) (pa n : Nat) : s.spotBytes (.hbm pa) n = s.bytesAt pa n := (bytesAt_eq_map s pa n).symm

theorem spotBytes_scratch (s : State) (c off n : Nat) : s.spotBytes (.scratch c off) n = s.scratchBytes c off n := (read_eq_map _ off n).symm

/-- An access lies within its line (R172). -/
theorem bytesAt_of_line {pa n : Nat} (within : pa % 128 + n ≤ 128) : ((s.bytesAt (pa / 128 * 128) 128).drop (pa % 128)).take n = s.bytesAt pa n := by
  rw [bytesAt_eq_map, bytesAt_eq_map]
  refine List.ext_getElem ?_ fun i h1 h2 => ?_
  · simp only [List.length_take, List.length_drop, List.length_map, List.length_range]
    omega
  · simp only [List.getElem_take, List.getElem_drop, List.getElem_map, List.getElem_range]
    rw [← Nat.add_assoc, Nat.div_add_mod']

theorem within_line {pa n : Nat} (divides : n ∣ 128) (aligned : pa % n = 0) : pa % 128 + n ≤ 128 := by
  obtain ⟨k, hk⟩ := divides
  obtain ⟨q, hq⟩ : n ∣ pa % 128 := Nat.dvd_of_mod_eq_zero (by rw [Nat.mod_mod_of_dvd _ ⟨k, hk⟩, aligned])
  have below : n * q < n * k := by
    rw [← hq, ← hk]
    exact Nat.mod_lt _ (by decide)
  have next : n * (q + 1) ≤ n * k := Nat.mul_le_mul_left n (Nat.lt_of_mul_lt_mul_left below)
  rw [hq, hk]
  exact next

theorem lineIn_some {ls : List Line} {chip : Option Nat} {pa : Nat} {l : Line} (h : State.lineIn ls chip pa = some l) :
    l ∈ ls ∧ l.chip = chip ∧ l.pa / 128 = pa / 128 := by
  have mine := List.find?_some h
  simp only [Bool.and_eq_true, beq_iff_eq] at mine
  exact ⟨List.mem_of_find?_eq_some h, mine⟩

/-- A load sees the line of HBM as the home has it, in whichever copy it finds it (R177, R184). -/
theorem lineFor_bytes {pa : Nat} (looked : TlbFrame s u) (lanes : LanesFrame u t) (fresh : Fresh s wid pa) (seats : SameSeats s t) :
    (t.lineFor (t.agentOf wid) pa).bytes = s.bytesAt (pa / 128 * 128) 128 := by
  have l1 : (t.core (t.coreOf wid)).l1 = (s.core (s.coreOf wid)).l1 := by
    have cores : t.core (s.coreOf wid) = u.core (s.coreOf wid) := congrArg (·.core (s.coreOf wid)) lanes.frame
    rw [seats.coreOf, cores, looked.cores]
  have ways : t.peerWays = u.peerWays := congrArg (·.peerWays) lanes.frame
  unfold State.lineFor
  split
  · next l found =>
    obtain ⟨mem, chip, line⟩ := lineIn_some found
    rw [l1] at mem
    exact fresh l (List.mem_append_left _ mem) chip line
  · split
    · next l found =>
      split at found
      · cases found
      · obtain ⟨mem, chip, line⟩ := lineIn_some found
        obtain ⟨e, there, rfl⟩ := List.mem_map.1 mem
        obtain ⟨held, die⟩ := List.mem_filter.1 there
        rw [ways] at held
        refine fresh e.2 (List.mem_append_right _ (List.mem_map.2 ⟨e, List.mem_filter.2 ⟨looked.copies e held, ?_⟩, rfl⟩)) chip line
        rw [← seats.coreOf]
        exact die
    · have read : ReadFrame s t := (ReadFrame.lookups looked).trans lanes.read
      rw [bytesAt_eq_map, bytesAt_eq_map]
      exact List.map_congr_left fun i _ => read.byteAt _

section
variable {window : List Nat} {width l : Nat} {hint : Option Nat} {scope acq : Option Scope} {d : VReg} {sp : Spot} {go : Go}

/-- What a lane needs for its load to read its spot at once: it is aligned, and a copy that it may find is as the home; no core relocks (R15). -/
def ReadableAt (s : State) (wid width : Nat) (hint : Option Nat) : Spot → Prop
  | .drop => True
  | .hbm pa => pa % width = 0 ∧ (hint.isSome = true → Fresh s wid pa)
  | .scratch c _ => s.asleep c = false

/-- A lane of a load gets the bytes at its spot. -/
theorem loadsAt_of_leads (divides : width ∣ 128) (looked : TlbFrame s u) (leads : Leads sp go) (readable : ReadableAt s wid width hint sp)
    (found : Tbl.find s.waves wid = some w) (quiet : w.pend.quiet) :
    LoadsAt u (loadOp window width hint scope acq d) wid l go (s.spotBytes sp width) := by
  intro t lanes
  have same : u.waves = s.waves := congrArg (·.waves) looked.frame
  have seats : SameSeats s t := (SameSeats.of_eq same (congrArg (·.teams) looked.frame) (congrArg (·.grids) looked.frame)).trans lanes.seats
  have read : ReadFrame s t := (ReadFrame.lookups looked).trans lanes.read
  cases leads with
  | drop =>
    left
    rw [spotBytes_drop]
    rfl
  | hbm pa va m =>
    right
    obtain ⟨aligned, fresh⟩ := readable
    rw [spotBytes_hbm]
    cases hint with
    | none =>
      refine ⟨_, Prod.ext (congrArg some ?_) rfl⟩
      rw [bytesAt_eq_map, bytesAt_eq_map]
      exact List.map_congr_left fun i _ => read.byteAt _
    | some h =>
      refine ⟨_, Prod.ext (congrArg some ?_) rfl⟩
      change ((t.lineFor (t.agentOf wid) pa).bytes.drop (pa % 128)).take width = _
      rw [lineFor_bytes looked lanes (fresh rfl) seats, bytesAt_of_line (within_line divides aligned)]
  | scratch c off =>
    left
    have awake : t.asleep c = false := by
      rw [← readable]
      exact congrArg (·.asleep c) read.frame
    have nothing : t.scrOf wid l = none := by
      have bare := lanes.waves wid
      rw [same, found] at bare
      obtain ⟨y, there, eq⟩ := Option.map_eq_some_iff.1 bare
      have pend : y.pend = w.pend := (congrArg Wave.pend eq : y.bare.pend = w.bare.pend)
      rw [Pend.quiet] at quiet
      rw [State.scrOf, there, Option.bind_some, pend, quiet]
      rfl
    rw [spotBytes_scratch]
    simp only [State.loadAt, nothing, awake]
    refine Prod.ext (congrArg some ?_) rfl
    exact congrArg (fun k => Memory.read k.scratch off width) (read.cores c)

end

/-! ## The whole load -/

/-- The lanes of a wave that move past the instruction without acting, and those that act. -/
def State.offOf (s : State) (g : Group) (wid : Nat) : List Nat := ((Tbl.find s.waves wid).map (State.lanesOff g wid)).getD []

def State.onOf (s : State) (op : MemOp) (bi o : Nat) (g : Group) (wid : Nat) : List (Nat × Go) :=
  ((Tbl.find s.waves wid).map (s.lanesGo op bi o g wid)).getD []

theorem offOf_found (found : Tbl.find s.waves wid = some w) : s.offOf g wid = State.lanesOff g wid w := by rw [State.offOf, found]; rfl

theorem onOf_found {op : MemOp} {bi o : Nat} (found : Tbl.find s.waves wid = some w) : s.onOf op bi o g wid = s.lanesGo op bi o g wid w := by
  rw [State.onOf, found]
  rfl

section
variable {op : MemOp} {bi o : Nat} {regs : List Nat}

/-- The plans of a load no lane of which faults. -/
theorem memPlans_plain (goes : ∀ v ∈ g.waves, ∃ w, MemGoes s op bi o regs g v w) (plain : ∀ v ∈ g.waves, Plain (s.onOf op bi o g v)) :
    s.memPlans op bi o regs g = g.waves.map (fun v => (v, .go (s.offOf g v) (s.onOf op bi o g v))) := by
  have plan : ∀ v ∈ g.waves, s.memPlan op bi o regs g v 0 0 = .go (s.offOf g v) (s.onOf op bi o g v) := by
    intro v hv
    obtain ⟨w, h⟩ := goes v hv
    have pages := faultPages_nil (plain v hv)
    rw [onOf_found h.found] at pages ⊢
    rw [offOf_found h.found, memPlan_go h (.inl rfl) (.inl pages)]
  have first : (g.waves.map (fun v => (v, s.memPlan op bi o regs g v 0 0))) = g.waves.map (fun v => (v, .go (s.offOf g v) (s.onOf op bi o g v))) :=
    List.map_congr_left fun v hv => by rw [plan v hv]
  have held : State.memHeldIn (g.waves.map (fun v => (v, State.MemPlan.go (s.offOf g v) (s.onOf op bi o g v)))) = none := by
    rw [State.memHeldIn, Option.map_eq_none_iff, List.find?_eq_none]
    intro x hx
    obtain ⟨v, -, rfl⟩ := List.mem_map.1 hx
    exact Bool.false_ne_true
  unfold State.memPlans
  extract_lets first' pages plans
  have none_ : pages = [] := by
    refine List.flatMap_eq_nil_iff.2 fun x hx => ?_
    have there : x ∈ g.waves.map (fun v => (v, State.MemPlan.go (s.offOf g v) (s.onOf op bi o g v))) := first ▸ hx
    obtain ⟨v, hv, rfl⟩ := List.mem_map.1 there
    dsimp only
    split
    · next w go _ eq _ =>
      cases eq
      rw [faultPages_nil (plain v hv)]
      rfl
    · next eq _ => cases eq
    · rfl
  have all : plans = g.waves.map (fun v => (v, .go (s.offOf g v) (s.onOf op bi o g v))) := by
    unfold plans
    rw [none_]
    exact (List.map_congr_left fun v _ => by rw [List.length_nil, ite_self]; rfl).trans first
  rw [all, held]

theorem foldl_keepTlbs (ws : List Nat) (on : Nat → List (Nat × Go)) (s : State) :
    TlbFrame s (ws.foldl (fun s wid => s.keepTlbs bi wid (on wid)) s) :=
  List.foldlRecOn ws _ (motive := TlbFrame s) (.refl s) fun _ h _ _ => h.keepTlbs

theorem foldl_touchWrite (work : List (Nat × Nat × Go)) (loads : op.loads = true) (rmw : op.rmw = false) : work.foldl (State.touchWrite op) s = s := by
  refine List.foldlRecOn work _ (motive := fun t => t = s) rfl fun t same x _ => ?_
  rw [same, State.touchWrite]
  split
  · rw [loads, rmw]
    rfl
  · rfl

theorem recordFaults_plain {work : List (Nat × List Nat × List (Nat × Go))} (plain : ∀ x ∈ work, Plain x.2.2) : s.recordFaults op bi work = s := by
  have none_ : s.faultRecs op bi work = [] := by
    unfold State.faultRecs
    extract_lets l
    have empty : l = [] := by
      refine List.flatMap_eq_nil_iff.2 fun x hx => ?_
      split
      · rfl
      · rw [faultPages_nil (plain x hx)]
        rfl
    rw [empty]
    rfl
  unfold State.recordFaults
  rw [none_]

theorem mem_memWork {on : Nat → List (Nat × Go)} {x : Nat × Nat × Go} : x ∈ memWork g on ↔ x.1 ∈ g.waves ∧ x.2 ∈ on x.1 := by
  obtain ⟨v, l, go⟩ := x
  rw [memWork, (sortBy_perm _ _).mem_iff, List.mem_flatMap]
  constructor
  · rintro ⟨v', hv, mem⟩
    obtain ⟨e, he, eq⟩ := List.mem_map.1 mem
    cases eq
    exact ⟨hv, he⟩
  · exact fun ⟨hv, he⟩ => ⟨v, hv, List.mem_map.2 ⟨(l, go), he, rfl⟩⟩

/-- What the lanes of a load leave, before its end: the frame, the other waves, and the results in the waves of the group. -/
theorem memActed_load {d : VReg} {off : Nat → List Nat} {on : Nat → List (Nat × Go)} {bytes : Nat → Nat → List Byte} (loads : op.loads = true)
    (rmw : op.rmw = false) (plain : ∀ v ∈ g.waves, Plain (on v)) (here : ∀ v ∈ g.waves, ∀ e ∈ on v, ∀ va asid x pa, e.2 ≠ .peer va asid x pa)
    (at_ : ∀ u, TlbFrame s u → ∀ v ∈ g.waves, ∀ e ∈ on v, LoadsAt u op v e.1 e.2 (bytes v e.1))
    (home : ∀ v ∈ g.waves, ∀ e ∈ on v, ∃ w, Tbl.find s.waves v = some w
      ∧ ∀ y ∈ loadBlock d.val op.width (bytes v e.1), w.away.contains (y.1 / 64) = false) :
    let t := memActed op bi (loadAct op d) g off on s
    ReadFrame s t ∧ (∀ v, v ∉ g.waves → Tbl.find t.waves v = Tbl.find s.waves v) ∧ ∀ v y, Tbl.find s.waves v = some y →
      ∃ st, Tbl.find t.waves v = some { committed (fun l => loadBlock d.val op.width (bytes v l)) (lanesIn v (memWork g on)) y with rstamp := st } := by
  obtain ⟨u, kept, looked⟩ : ∃ u, g.waves.foldl (fun s wid => s.keepTlbs bi wid (on wid)) s = u ∧ TlbFrame s u := ⟨_, rfl, foldl_keepTlbs ..⟩
  have same : u.waves = s.waves := congrArg (·.waves) looked.frame
  obtain ⟨lanes, others, mine⟩ := foldl_memLane (d := d) (op := op) (bytes := bytes) (work := memWork g on) (t := u) loads rmw
    (fun x hx => at_ u looked x.1 (mem_memWork.1 hx).1 x.2 (mem_memWork.1 hx).2)
    (fun x hx => by
      rw [same]
      exact home x.1 (mem_memWork.1 hx).1 x.2 (mem_memWork.1 hx).2)
    (.refl u)
  rw [same] at others mine
  rw [memActed, kept, foldl_touchWrite _ loads rmw]
  have lines : LineFrame _ ((memWork g on).foldl (State.touchRead op) ((memWork g on).foldl (State.memLane op (loadAct op d)) u)) :=
    (LineFrame.refl _).foldl fun t x hx => (LineFrame.refl t).touchRead (here x.1 (mem_memWork.1 hx).1 x.2 (mem_memWork.1 hx).2)
  have waves := congrArg (·.waves) lines.frame
  dsimp only at waves ⊢
  rw [recordFaults_plain fun x hx => ?_, waves]
  · refine ⟨((ReadFrame.lookups looked).trans lanes.read).trans (.lines lines), fun v hv => ?_, mine⟩
    exact others v fun x hx e => hv (e ▸ (mem_memWork.1 hx).1)
  · obtain ⟨v, hv, rfl⟩ := List.mem_map.1 hx
    exact plain v hv

end

/-! ## What a load gives its waves -/

theorem mem_lanesIn {on : Nat → List (Nat × Go)} {v l : Nat} : l ∈ lanesIn v (memWork g on) ↔ v ∈ g.waves ∧ ∃ go, (l, go) ∈ on v := by
  simp only [lanesIn, List.mem_map, List.mem_filter, mem_memWork, beq_iff_eq]
  constructor
  · rintro ⟨⟨v', l', go⟩, ⟨⟨hv, mem⟩, rfl⟩, rfl⟩
    exact ⟨hv, go, mem⟩
  · rintro ⟨hv, go, mem⟩
    exact ⟨(v, l, go), ⟨⟨hv, mem⟩, rfl⟩, rfl⟩

theorem memWork_nodup {on : Nat → List (Nat × Go)} (once : ∀ v ∈ g.waves, (on v).Nodup) (waves : g.waves.Nodup) : (memWork g on).Nodup := by
  rw [memWork, (sortBy_perm _ _).nodup_iff, List.nodup_flatMap]
  refine ⟨fun v hv => (once v hv).map fun a b e => ?_, ?_⟩
  · cases a
    cases b
    cases e
    rfl
  · refine waves.imp fun {a b} other => ?_
    rw [Function.onFun, List.disjoint_left]
    intro x ha hb
    obtain ⟨_, _, rfl⟩ := List.mem_map.1 ha
    obtain ⟨_, _, eq⟩ := List.mem_map.1 hb
    exact other (congrArg Prod.fst eq).symm

theorem lanesIn_nodup {on : Nat → List (Nat × Go)} (once : ∀ v ∈ g.waves, ((on v).map Prod.fst).Nodup) (waves : g.waves.Nodup) (v : Nat) :
    (lanesIn v (memWork g on)).Nodup := by
  refine ((memWork_nodup (fun v hv => (once v hv).of_map) waves).filter _).map_on fun x hx y hy same => ?_
  obtain ⟨thereX, mine⟩ : x ∈ memWork g on ∧ x.1 = v := by simpa using hx
  subst mine
  obtain ⟨thereY, eq⟩ : y ∈ memWork g on ∧ y.1 = x.1 := by simpa using hy
  obtain ⟨hv, mx⟩ := mem_memWork.1 thereX
  have my := (mem_memWork.1 thereY).2
  rw [eq] at my
  have both := List.inj_on_of_nodup_map (once _ hv) mx my same
  exact Prod.ext eq.symm both

theorem lanesGo_fst_nodup {op : MemOp} {bi o : Nat} (once : g.mem.Nodup) : ((s.lanesGo op bi o g wid w).map Prod.fst).Nodup := by
  have lanes : ((sortBy id (g.lanesOf wid)).filter w.guardOn).Nodup := ((sortBy_perm id _).nodup_iff.2 (lanesOf_nodup once wid)).filter _
  rw [State.lanesGo, List.map_map]
  rwa [show (Prod.fst ∘ fun l => (l, s.laneGo op wid w bi (w.vreg l o).toNat)) = id from rfl, List.map_id]

theorem mem_lanesOff {l : Nat} : l ∈ State.lanesOff g wid w ↔ (wid, l) ∈ g.mem ∧ w.guardOn l = false := by
  simp only [State.lanesOff, List.mem_filter, mem_sortBy, mem_lanesOf, Bool.not_eq_true', List.contains_eq_mem, decide_eq_false_iff_not]
  cases w.guardOn l <;> simp

theorem lanesOff_nodup (once : g.mem.Nodup) : (State.lanesOff g wid w).Nodup := ((sortBy_perm id _).nodup_iff.2 (lanesOf_nodup once wid)).filter _

/-- The results of the lanes that act, and the lanes that move past the instruction, make the wave as it is to be (R147, R160, R295). -/
theorem waveDone_of_lanes {on off : List Nat} {x : Nat → VWrites} (onOnce : on.Nodup) (offOnce : off.Nodup)
    (mem_on : ∀ l, l ∈ on ↔ (wid, l) ∈ g.mem ∧ w.guardOn l = true) (mem_off : ∀ l, l ∈ off ↔ (wid, l) ∈ g.mem ∧ w.guardOn l = false)
    (there : ∀ l, (wid, l) ∈ g.mem → l < w.threads.length) (fits : ∀ l ∈ on, ∀ y ∈ x l, y.1 < 128) :
    WaveDone g wid 4 (fun l => .ofV (x l)) w (passed off (committed x on w)) := by
  obtain ⟨a1, a2, a3, a4, a5, a6⟩ := commits_spec 4 (fun l => .ofV (x l)) on onOnce w (fun l h => there l ((mem_on l).1 h).1) fits
    (fun _ _ _ h => nomatch h)
  change committed x on w = _ at a1
  obtain ⟨b1, b2, b3⟩ := passes_spec 4 off offOnce (committed x on w) (fun l h => (there l ((mem_off l).1 h).1).trans_eq a5.symm)
  change passed off (committed x on w) = _ at b1
  have noFlags : ∀ ls : List Nat, ls.foldl (fun a l => a ||| (LaneRes.ofV (x l)).flags) 0 = 0 := fun ls =>
    List.foldlRecOn ls _ (motive := fun a => a = 0) rfl fun a h l _ => by simp [h, LaneRes.ofV]
  refine ⟨?_, fun l r hr => ?_, fun l r hr => ?_, ?_, b2.trans a5, fun l => ?_⟩
  · rw [b1, a1]
  · have value := a2 l r hr
    simp only [mem_on] at value
    have same : (passed off (committed x on w)).vreg l r = (committed x on w).vreg l r := by
      rw [b1]
      rfl
    exact same.trans value
  · have value := a3 l r hr
    simp only [mem_on] at value
    have same : (passed off (committed x on w)).preg l r = (committed x on w).preg l r := by
      rw [b1]
      rfl
    exact same.trans value
  · rw [noFlags]
    rw [noFlags] at a4
    exact (congrArg Wave.fmode b1).trans a4
  · have after := b3 l
    change (passed off (committed x on w)).thread l = if l ∈ off then ((committed x on w).thread l).advance 4 {} else (committed x on w).thread l at after
    have during : (committed x on w).thread l = if l ∈ on then (w.thread l).advance 4 (.ofV (x l)) else w.thread l := a6 l
    rw [after, during]
    simp only [mem_on, mem_off]
    by_cases mine : (wid, l) ∈ g.mem
    · cases guard : w.guardOn l <;> simp [mine]
    · simp [mine]

/-- What a wave has besides its results may change with it. -/
theorem WaveDone.dressed {size : Nat} {e : Nat → LaneRes} {x : Wave} (h : WaveDone g wid size e w x) (rstamp seen : Nat × Nat) (p : Pend) (ps : List Pend) :
    WaveDone g wid size e { w with rstamp := rstamp, seen := seen, pend := p, pends := ps }
      { x with rstamp := rstamp, seen := seen, pend := p, pends := ps } := by
  refine ⟨?_, h.vregs, h.pregs, h.flags, h.count, h.threads⟩
  rw [h.frame]

/-! ## A group that loads -/

theorem loadBlock_eq {d width : Nat} {bs : List Byte} (short : bs.length ≤ width) : loadBlock d width bs = blockOfBytes d width bs := by
  rw [loadBlock, List.take_of_length_le short]
  rfl

theorem spotBytes_length (s : State) (sp : Spot) (n : Nat) : (s.spotBytes sp n).length = n := by rw [State.spotBytes, List.length_map, List.length_range]

/-- The bytes at the spot of a lane, none where it has no spot. -/
def State.laneBytes (s : State) (spaces : List Nat) (width bi o wid : Nat) (w : Wave) (l : Nat) : List Byte :=
  ((spotOf s spaces .read width bi wid w (w.vreg l o).toNat).map (fun sp => s.spotBytes sp width)).getD []

theorem laneBytes_length (s : State) (spaces : List Nat) (width bi o wid : Nat) (w : Wave) (l : Nat) :
    (s.laneBytes spaces width bi o wid w l).length ≤ width := by
  unfold State.laneBytes
  cases spotOf s spaces .read width bi wid w (w.vreg l o).toNat with
  | none => exact Nat.zero_le _
  | some sp => exact (spotBytes_length s sp width).le

section
variable {spaces window : List Nat} {width : Nat} {hint : Option Nat} {scope acq : Option Scope} {d o : VReg} {n : BReg}

/-- A group that loads: each lane that acts has a spot, in spaces that the instruction accepts, and an ordinary load finds no stale copy. -/
structure LoadReady (s : State) (g : Group) (spaces window : List Nat) (width : Nat) (hint : Option Nat) (d o : VReg) (n : BReg) : Prop where
  divides : width ∣ 128
  fits : d.val + regCount width ≤ 128
  sub : ∀ x ∈ spaces, window.contains x = true
  ready : MemReady s g (o.val :: blockOf d.val width) (blockOf d.val width) width o.val true (spotOf s spaces .read width n.val)
  fresh : hint.isSome = true → ∀ m ∈ actsOf s g, ∀ pa,
    spotOf s spaces .read width n.val m.1 m.2.2 (m.2.2.vreg m.2.1 o.val).toNat = some (.hbm pa) → Fresh s m.1 pa

namespace LoadReady

theorem wave {v l : Nat} (h : LoadReady s g spaces window width hint d o n) (mem : (v, l) ∈ g.mem) :
    ∃ w, Tbl.find s.waves v = some w ∧ l < w.threads.length ∧ (∀ r ∈ blockOf d.val width, w.hasV r = true) ∧ (w.thread l).pc = g.pc ∧ w.pend.quiet := by
  obtain ⟨⟨-, -, able⟩, -, plain, stands, -⟩ := h.ready
  have ok := able _ mem
  cases found : Tbl.find s.waves v with
  | none => simp [laneOk, found] at ok
  | some w =>
    simp only [laneOk, found, Bool.and_eq_true, decide_eq_true_eq, List.all_eq_true] at ok
    exact ⟨w, rfl, ok.1.1, fun r hr => ok.1.2 r (.tail _ hr), stands _ mem w found, (plain _ mem).1 w found⟩

theorem mem_actsOf {v l : Nat} (mem : (v, l) ∈ g.mem) (found : Tbl.find s.waves v = some w) (on : w.guardOn l = true) : (v, l, w) ∈ actsOf s g := by
  rw [actsOf, List.mem_filterMap]
  refine ⟨(v, l), (mem_sortBy _ _).2 mem, ?_⟩
  simp only [found, on, if_true]

/-- Where a lane that acts leads. -/
theorem spot {v l : Nat} (h : LoadReady s g spaces window width hint d o n) (mem : (v, l) ∈ g.mem) (found : Tbl.find s.waves v = some w)
    (on : w.guardOn l = true) : ∃ sp, spotOf s spaces .read width n.val v w (w.vreg l o.val).toNat = some sp ∧ CleanSpot s width sp
      ∧ ReadableAt s v width hint sp := by
  obtain ⟨-, -, -, -, at_⟩ := h.ready
  have here := at_ _ mem w found on
  cases eq : spotOf s spaces .read width n.val v w (w.vreg l o.val).toNat with
  | none => rw [eq] at here; exact here.elim
  | some sp =>
    rw [eq] at here
    refine ⟨sp, rfl, ?_⟩
    cases sp with
    | drop => exact ⟨trivial, trivial⟩
    | hbm pa => exact ⟨here.2 rfl, here.1, fun some_ => h.fresh some_ _ (mem_actsOf mem found on) pa eq⟩
    | scratch c off => exact ⟨here.2 rfl, here.1⟩

/-- What is known of a lane that acts. -/
theorem lane {v : Nat} {e : Nat × Go} (h : LoadReady s g spaces window width hint d o n)
    (mem : e ∈ s.onOf (loadOp window width hint scope acq d) n.val o.val g v) : ∃ w sp, Tbl.find s.waves v = some w ∧ (v, e.1) ∈ g.mem ∧ w.guardOn e.1 = true
      ∧ spotOf s spaces .read width n.val v w (w.vreg e.1 o.val).toNat = some sp ∧ CleanSpot s width sp ∧ ReadableAt s v width hint sp ∧ Leads sp e.2 := by
  cases found : Tbl.find s.waves v with
  | none => simp [State.onOf, found] at mem
  | some w =>
    rw [onOf_found found] at mem
    obtain ⟨member, on, go⟩ := mem_lanesGo.1 mem
    obtain ⟨sp, eq, clean, readable⟩ := h.spot member found on
    obtain ⟨w', found', -, -, -, quiet⟩ := h.wave member
    rw [found] at found'
    cases found'
    exact ⟨w, sp, rfl, member, on, eq, clean, readable, go ▸ leads_of_spotOf h.sub quiet eq⟩

theorem plain (h : LoadReady s g spaces window width hint d o n) (v : Nat) : Plain (s.onOf (loadOp window width hint scope acq d) n.val o.val g v) := by
  rintro ⟨l, go⟩ he
  obtain ⟨w, sp, -, -, -, -, -, -, leads⟩ := h.lane he
  cases leads <;> simp

theorem goes {v : Nat} (h : LoadReady s g spaces window width hint d o n) (hv : v ∈ g.waves) :
    ∃ w, MemGoes s (loadOp window width hint scope acq d) n.val o.val (o.val :: blockOf d.val width) g v w := by
  obtain ⟨l, mem⟩ := mem_waves.1 hv
  obtain ⟨w, found, -⟩ := h.wave mem
  obtain ⟨ready, -, plain, -⟩ := h.ready
  refine ⟨w, memGoes_of_ready ready mem (plain _ mem) found rfl fun e he => ?_⟩
  rw [← onOf_found found] at he
  obtain ⟨w', sp, found', -, -, -, clean, -, leads⟩ := h.lane he
  exact goesOn_of_leads leads clean

/-- The state that the load leaves. -/
def after (s : State) (g : Group) (window : List Nat) (width : Nat) (hint : Option Nat) (scope acq : Option Scope) (d o : VReg) (n : BReg) : State :=
  let op := loadOp window width hint scope acq d
  g.waves.foldl (fun t v => State.memFinish op n.val noLog g (s.offOf g v) (s.onOf op n.val o.val g v) t v)
    (memActed op n.val (loadAct op d) g (s.offOf g) (s.onOf op n.val o.val g) s)

theorem memStep (h : LoadReady s g spaces window width hint d o n) :
    Machine.memStep (loadOp window width hint scope acq d) n.val o.val (o.val :: blockOf d.val width) noLog (loadAct (loadOp window width hint scope acq d) d) s
      = .next (after s g window width hint scope acq d o n) := by
  refine memStep_goes h.ready.1.1 rfl (fun v _ => ?_) (memPlans_plain (fun v hv => h.goes hv) fun v _ => h.plain v)
  rw [State.actors, if_neg]
  simp [loadOp]

/-- The registers of the block are at home in the wave. -/
theorem home {v l : Nat} {bs : List Byte} (h : LoadReady s g spaces window width hint d o n) (mem : (v, l) ∈ g.mem) (found : Tbl.find s.waves v = some w) :
    ∀ y ∈ loadBlock d.val width bs, w.away.contains (y.1 / 64) = false := by
  intro y hy
  obtain ⟨w', found', -, has, -⟩ := h.wave mem
  rw [found] at found'
  cases found'
  obtain ⟨i, hi, rfl⟩ := List.mem_map.1 hy
  have mine := has (d.val + i) (List.mem_map.2 ⟨i, hi, rfl⟩)
  simp only [Wave.hasV, Bool.and_eq_true, Bool.not_eq_true'] at mine
  exact mine.2

/-- The results of a lane lie in its block. -/
theorem below {bs : List Byte} (h : LoadReady s g spaces window width hint d o n) : ∀ y ∈ loadBlock d.val width bs, y.1 < 128 := by
  intro y hy
  obtain ⟨i, hi, rfl⟩ := List.mem_map.1 hy
  have fits := h.fits
  rw [List.mem_range] at hi
  change d.val + i < 128
  omega

/-- A wave of the group when its lanes have acted and moved on. -/
def doneWave (s : State) (g : Group) (spaces window : List Nat) (width : Nat) (hint : Option Nat) (scope acq : Option Scope) (d o : VReg) (n : BReg) (v : Nat)
    (w : Wave) : Wave :=
  passed (State.lanesOff g v w) (committed (fun l => loadBlock d.val width (s.laneBytes spaces width n.val o.val v w l))
    (lanesIn v (memWork g (s.onOf (loadOp window width hint scope acq d) n.val o.val g))) w)

theorem doneWave_done {v : Nat} (h : LoadReady s g spaces window width hint d o n) (hv : v ∈ g.waves) (found : Tbl.find s.waves v = some w) :
    WaveDone g v 4 (fun l => .ofV (loadBlock d.val width (s.laneBytes spaces width n.val o.val v w l))) w
      (doneWave s g spaces window width hint scope acq d o n v w) := by
  have once := h.ready.1.2.1
  refine waveDone_of_lanes (lanesIn_nodup (fun v hv => ?_) (dedup_nodup _) v) (lanesOff_nodup once) (fun l => ?_) (fun l => mem_lanesOff) (fun l mem => ?_)
    fun l _ => h.below
  · obtain ⟨l, mem⟩ := mem_waves.1 hv
    obtain ⟨w, found, -⟩ := h.wave mem
    rw [onOf_found found]
    exact lanesGo_fst_nodup once
  · rw [mem_lanesIn, onOf_found found]
    constructor
    · rintro ⟨-, go, mem⟩
      obtain ⟨member, on, -⟩ := mem_lanesGo.1 mem
      exact ⟨member, on⟩
    · exact fun ⟨member, on⟩ => ⟨hv, s.laneGo (loadOp window width hint scope acq d) v w n.val (w.vreg l o.val).toNat, mem_lanesGo.2 ⟨member, on, rfl⟩⟩
  · obtain ⟨w', found', there, -⟩ := h.wave mem
    rw [found] at found'
    cases found'
    exact there

/-- What the lanes leave before the end of the load. -/
theorem acted (h : LoadReady s g spaces window width hint d o n) : let op := loadOp window width hint scope acq d
    let t := memActed op n.val (loadAct op d) g (s.offOf g) (s.onOf op n.val o.val g) s
    ReadFrame s t ∧ (∀ v, v ∉ g.waves → Tbl.find t.waves v = Tbl.find s.waves v) ∧ ∀ v w, Tbl.find s.waves v = some w →
      ∃ st, Tbl.find t.waves v = some { committed (fun l => loadBlock d.val width (s.laneBytes spaces width n.val o.val v w l))
        (lanesIn v (memWork g (s.onOf op n.val o.val g))) w with rstamp := st } := by
  intro op t
  have here : ∀ v ∈ g.waves, ∀ e ∈ s.onOf op n.val o.val g v, ∀ va asid x pa, e.2 ≠ .peer va asid x pa := by
    rintro v - ⟨l, go⟩ he
    obtain ⟨w, sp, -, -, -, -, -, -, leads⟩ := h.lane he
    cases leads <;> simp
  have at_ : ∀ u, TlbFrame s u → ∀ v ∈ g.waves, ∀ e ∈ s.onOf op n.val o.val g v,
      LoadsAt u op v e.1 e.2 (((Tbl.find s.waves v).map (fun w => s.laneBytes spaces width n.val o.val v w e.1)).getD []) := by
    intro u looked v _ e he
    obtain ⟨w, sp, found, member, -, eq, -, readable, leads⟩ := h.lane he
    obtain ⟨w', found', -, -, -, quiet⟩ := h.wave member
    rw [found] at found'
    cases found'
    rw [found, Option.map_some, Option.getD_some, State.laneBytes, eq]
    exact loadsAt_of_leads h.divides looked leads readable found quiet
  have home : ∀ v ∈ g.waves, ∀ e ∈ s.onOf op n.val o.val g v, ∃ w, Tbl.find s.waves v = some w ∧ ∀ y ∈ loadBlock d.val width
      (((Tbl.find s.waves v).map (fun w => s.laneBytes spaces width n.val o.val v w e.1)).getD []), w.away.contains (y.1 / 64) = false := by
    intro v _ e he
    obtain ⟨w, sp, found, member, -⟩ := h.lane he
    exact ⟨w, found, h.home member found⟩
  obtain ⟨frame, others, mine⟩ := memActed_load (s := s) (g := g) (op := op) (bi := n.val) (d := d) (off := s.offOf g) (on := s.onOf op n.val o.val g)
    (bytes := fun v l => ((Tbl.find s.waves v).map (fun w => s.laneBytes spaces width n.val o.val v w l)).getD []) rfl rfl (fun v _ => h.plain v) here at_ home
  refine ⟨frame, others, fun v w found => ?_⟩
  have value := mine v w found
  rw [found] at value
  exact value

theorem passed_rstamp (off : List Nat) (w : Wave) (st : Nat × Nat) : passed off { w with rstamp := st } = { passed off w with rstamp := st } := by
  induction off generalizing w with
  | nil => rfl
  | cons l off ih => exact ih (w.updThread l _)

/-- No thread of the wave stands at the instruction when it is done. -/
theorem moved {v : Nat} {st : Nat × Nat} (h : LoadReady s g spaces window width hint d o n) (hv : v ∈ g.waves) (found : Tbl.find s.waves v = some w) :
    AllMoved g (s.offOf g v) (s.onOf (loadOp window width hint scope acq d) n.val o.val g v)
      { committed (fun l => loadBlock d.val width (s.laneBytes spaces width n.val o.val v w l))
        (lanesIn v (memWork g (s.onOf (loadOp window width hint scope acq d) n.val o.val g))) w with rstamp := st } := by
  rw [AllMoved, List.any_eq_false]
  intro e he
  obtain ⟨w', sp, found', member, on, -⟩ := h.lane he
  rw [found] at found'
  cases found'
  obtain ⟨w', found', -, -, stands, -⟩ := h.wave member
  rw [found] at found'
  cases found'
  have thread := (h.doneWave_done (scope := scope) (acq := acq) hv found).threads e.1
  rw [if_pos member, if_pos on] at thread
  have pc : ((doneWave s g spaces window width hint scope acq d o n v w).thread e.1).pc = g.pc + 4 := by
    rw [thread, ← stands]
    rfl
  rw [offOf_found found, passed_rstamp]
  change ¬ (((doneWave s g spaces window width hint scope acq d o n v w).thread e.1).pc == g.pc) = true
  rw [pc, beq_iff_eq]
  omega

theorem committed_team (e : Nat → VWrites) (on : List Nat) (w : Wave) : (committed e on w).team = w.team := by
  induction on generalizing w with
  | nil => rfl
  | cons l on ih =>
    have same := congrArg Wave.team (bare_commit w 4 l (.ofV (e l)))
    exact (ih _).trans same

/-- Its waves run where they did. -/
theorem acted_seats (h : LoadReady s g spaces window width hint d o n) : let op := loadOp window width hint scope acq d
    SameSeats s (memActed op n.val (loadAct op d) g (s.offOf g) (s.onOf op n.val o.val g) s) := by
  intro op
  obtain ⟨frame, others, mine⟩ := h.acted (scope := scope) (acq := acq)
  refine ⟨fun v => ?_, congrArg (·.teams) frame.frame, congrArg (·.grids) frame.frame⟩
  by_cases hv : v ∈ g.waves
  · obtain ⟨l, mem⟩ := mem_waves.1 hv
    obtain ⟨w, found, -⟩ := h.wave mem
    obtain ⟨st, there⟩ := mine v w found
    rw [there, found]
    exact congrArg some (committed_team _ _ w)
  · rw [others v hv]

/-- The end of the load in each of its waves. -/
theorem ended (h : LoadReady s g spaces window width hint d o n) : let op := loadOp window width hint scope acq d
    EndsAll op (s.offOf g) g.waves (memActed op n.val (loadAct op d) g (s.offOf g) (s.onOf op n.val o.val g) s)
      (after s g window width hint scope acq d o n) := by
  intro op
  obtain ⟨-, -, mine⟩ := h.acted (scope := scope) (acq := acq)
  refine foldl_memFinish rfl (fun v _ => h.plain v) (dedup_nodup _) fun v hv => ?_
  obtain ⟨l, mem⟩ := mem_waves.1 hv
  obtain ⟨w, found, -⟩ := h.wave mem
  obtain ⟨st, there⟩ := mine v w found
  exact ⟨_, there, h.moved hv found⟩

theorem frame (h : LoadReady s g spaces window width hint d o n) : ReadFrame s (after s g window width hint scope acq d o n) :=
  h.acted.1.trans h.ended.frame

theorem wave_done {v : Nat} (h : LoadReady s g spaces window width hint d o n) (hv : v ∈ g.waves) (found : Tbl.find s.waves v = some w) :
    ∃ x, Tbl.find (after s g window width hint scope acq d o n).waves v = some x
      ∧ WaveDone g v 4 (fun l => .ofV (blockOfBytes d.val width (s.laneBytes spaces width n.val o.val v w l)))
        { w.unkept with rstamp := x.rstamp, seen := x.seen, pend := .none } x.unkept := by
  obtain ⟨st, there⟩ := h.acted.2.2 v w found
  obtain ⟨x, here, value⟩ := h.ended.mine v hv _ there
  refine ⟨x, here, ?_⟩
  have done := h.doneWave_done (scope := scope) (acq := acq) hv found
  simp only [loadBlock_eq (laneBytes_length ..)] at done
  have pends : w.unkept.pends = (doneWave s g spaces window width hint scope acq d o n v w).unkept.pends := by
    rw [done.frame]
    rfl
  have dressed := done.dressed x.rstamp x.seen .none w.unkept.pends
  have eq : ({ doneWave s g spaces window width hint scope acq d o n v w with rstamp := x.rstamp, seen := x.seen, pend := .none, pends := w.unkept.pends } : Wave)
      = x.unkept := by
    rw [value, offOf_found found, passed_rstamp, pends]
    rfl
  rw [eq] at dressed
  exact dressed

end LoadReady

end

/-- What a load leaves, in the shape in which memory instructions are stated. -/
theorem ReadFrame.memDone {e : Nat → Wave → Nat → LaneRes} (h : ReadFrame s t)
    (others : ∀ v, v ∉ g.waves → (Tbl.find t.waves v).map Wave.unkept = (Tbl.find s.waves v).map Wave.unkept)
    (mine : ∀ v ∈ g.waves, ∀ w, Tbl.find s.waves v = some w → ∃ x, Tbl.find t.waves v = some x
      ∧ WaveDone g v 4 (e v w) { w.unkept with rstamp := x.rstamp, seen := x.seen, pend := .none } x.unkept) : MemDone s t g e where
  frame := h.frame.trans (by rw [h.frame])
  reads := h.reads
  agenda x := by
    have same : t.agenda = s.agenda := congrArg (·.agenda) h.frame
    rw [same]
    exact ⟨id, .inl⟩
  teams k := by
    have same : t.teams = s.teams := congrArg (·.teams) h.frame
    rw [same]
  cores c := (h.cores c).trans (by rw [h.cores c])
  healed c l hl := by
    have same : (t.core c).scrBad = (s.core c).scrBad := by
      rw [h.cores c]
    rwa [same] at hl
  others v apart := others v fun hv => by
    obtain ⟨l, mem⟩ := mem_waves.1 hv
    exact apart l mem
  mine v w l mem found := mine v (mem_waves.2 ⟨l, mem⟩) w found

section
variable {spaces window : List Nat} {width : Nat} {hint : Option Nat} {scope acq : Option Scope} {d o : VReg} {n : BReg}

/-- A load by a group (R323, R324). -/
theorem LoadReady.done (h : LoadReady s g spaces window width hint d o n) :
    ∃ t, Machine.memStep (loadOp window width hint scope acq d) n.val o.val (o.val :: blockOf d.val width) noLog
        (loadAct (loadOp window width hint scope acq d) d) s = .next t
      ∧ MemDone s t g (fun v w l => .ofV (blockOfBytes d.val width (s.laneBytes spaces width n.val o.val v w l))) ∧ (∀ p, t.byteOf p = s.byteOf p)
      ∧ ∀ sc, acq = some sc → 2 ≤ sc.code → ∀ m ∈ g.mem, (t.core (s.coreOf m.1)).l1 = [] := by
  obtain ⟨-, others, -⟩ := h.acted (scope := scope) (acq := acq)
  have ends := h.ended (scope := scope) (acq := acq)
  refine ⟨_, h.memStep, h.frame.memDone (fun v hv => ?_) (fun v hv w found => h.wave_done hv found), h.frame.byteOf, fun sc some_ wide m mem => ?_⟩
  · rw [ends.others v hv, others v hv]
  · have mine := ends.acquires sc some_ wide m.1 (mem_waves.2 ⟨m.2, mem⟩)
    rw [h.acted_seats.coreOf] at mine
    exact mine

end

theorem exec_lds (W : Width) (d o : VReg) (n : BReg) (s : State) : exec (.lds W d n o) s
    = memStep (loadOp [1] W.bytes none none none d) n.val o.val (o.val :: blockOf d.val W.bytes) noLog (loadAct (loadOp [1] W.bytes none none none d) d) s := rfl

theorem exec_ldc (W : Width) (d o : VReg) (n : BReg) (s : State) : exec (.ldc W d n o) s
    = memStep (loadOp [2] W.bytes none none none d) n.val o.val (o.val :: blockOf d.val W.bytes) noLog (loadAct (loadOp [2] W.bytes none none none d) d) s := rfl

theorem exec_ldq (pair acq : Bool) (sc : Scope) (d o : VReg) (n : BReg) (s : State) : exec (.ldq pair acq sc d n o) s
    = memStep (loadOp [0, 3] (if pair then 8 else 4) none (some sc) (if acq then some sc else none) d) n.val o.val
        (o.val :: blockOf d.val (if pair then 8 else 4)) noLog
        (loadAct (loadOp [0, 3] (if pair then 8 else 4) none (some sc) (if acq then some sc else none) d) d) s := rfl

/-- A block that starts at a multiple of its length lies within the registers. -/
theorem fits_of_multiple {k : Nat} (d : VReg) (divides : k ∣ 128) (aligned : blockOk k d = true) : d.val + k ≤ 128 := by
  have fits := within_line divides (beq_iff_eq.1 aligned)
  rwa [Nat.mod_eq_of_lt d.isLt] at fits

theorem regCount_bytes (W : Width) : regCount W.bytes = W.regs := by cases W <;> rfl

theorem regs_divides (W : Width) : W.regs ∣ 128 := by cases W <;> decide

theorem block_fits (W : Width) (d : VReg) (aligned : blockOk W.regs d = true) : d.val + regCount W.bytes ≤ 128 := by
  rw [regCount_bytes]
  exact fits_of_multiple d (regs_divides W) aligned

theorem width_divides (W : Width) : W.bytes ∣ 128 := by cases W <;> decide

theorem laneBytes_eq (s : State) (spaces : List Nat) (width bi o wid : Nat) (w : Wave) (l : Nat) : s.laneBytes spaces width bi o wid w l
    = match spotOf s spaces .read width bi wid w (w.vreg l o).toNat with
      | some p => s.spotBytes p width
      | none => [] := by
  unfold State.laneBytes
  cases spotOf s spaces .read width bi wid w (w.vreg l o).toNat <;> rfl

/-! ## Prefetches (R325) -/

/-- Of two states, the second differs in what prefetches of lanes leave: lines, and what has been asked of other chips. -/
structure PostFrame (s t : State) : Prop where
  frame : t = { s with cores := t.cores, l2 := t.l2, peerWays := t.peerWays, stamps := t.stamps, sliceStamps := t.sliceStamps, fresh := t.fresh
                       nextId := t.nextId, outbox := t.outbox, agenda := t.agenda
                       fab := { s.fab with reads := t.fab.reads, leases := t.fab.leases, flits := t.fab.flits, prefetches := t.fab.prefetches } }
  cores : ∀ c, t.core c = { s.core c with l1 := (t.core c).l1 }

namespace PostFrame

theorem refl (s : State) : PostFrame s s := ⟨rfl, fun _ => rfl⟩

theorem trans (h : PostFrame s t) (k : PostFrame t u) : PostFrame s u := by
  refine ⟨?_, fun c => ?_⟩
  · have e := k.frame
    rw [h.frame] at e
    exact e
  · have e := k.cores c
    rw [h.cores c] at e
    exact e

theorem ite {c : Prop} [Decidable c] {a b : State} (ha : PostFrame s a) (hb : PostFrame s b) : PostFrame s (if c then a else b) := by
  split <;> assumption

theorem lines (h : PostFrame s t) (k : LineFrame t u) : PostFrame s u := h.trans ⟨k.frame.trans (by rw [k.frame]), k.cores⟩

/-- A packet of a request leaves: its flits are counted, and its plane is watched. -/
theorem packet {plane part : Nat} {cls : Cls} {n : Nat} {o : Out} (h : PostFrame s t) :
    PostFrame s (((t.countFlits plane part cls n).watch plane).emit o) := by
  have counted : PostFrame t (t.countFlits plane part cls n) := .ite ⟨rfl, fun _ => rfl⟩ ⟨rfl, fun _ => rfl⟩
  have watched : PostFrame (t.countFlits plane part cls n) ((t.countFlits plane part cls n).watch plane) := .ite (.refl _) ⟨rfl, fun _ => rfl⟩
  exact ((h.trans counted).trans watched).trans ⟨rfl, fun _ => rfl⟩

/-- A further number, and a request that is noted. -/
theorem noted {i : Nat} {r : List ReadReq} {l : List LeaseReq} {p : List PrfReq} (h : PostFrame s t) :
    PostFrame s { t with nextId := i, fab := { t.fab with reads := r, leases := l, prefetches := p } } := h.trans ⟨rfl, fun _ => rfl⟩

theorem requestLease {die p : Nat} {cls : Cls} {chip page : Nat} {right : Right} (h : PostFrame s t) :
    PostFrame s (t.requestLease die p cls chip page right) := .ite h (.ite h.noted.packet h.noted)

theorem renew {e : PtcEntry} {cls : Cls} {right : Right} (h : PostFrame s t) : PostFrame s (t.renew e cls right) := .ite h.requestLease h

theorem postRead {ag : Agent} {wid lane : Nat} {keep pre : Bool} {va : Nat} {e : PtcEntry} {pa : Nat} (h : PostFrame s t) :
    PostFrame s (t.postRead ag wid lane keep pre va e pa) := .ite h.noted h.noted.packet

theorem prfPeer {x : PrfReq} (h : PostFrame s t) : PostFrame s (t.prfPeer x) := by
  unfold State.prfPeer
  extract_lets ag s1
  have h1 : PostFrame s s1 := h.requestLease
  split
  · exact h
  · split
    · exact h1.noted
    · exact .ite h h.postRead.renew

end PostFrame

section
variable {l2 : Bool} {b : RecBits} {lane i : Nat}

theorem prfLane_posts (s : State) (wid : Nat) (w : Wave) : PostFrame s (s.prfLane l2 wid w b lane i) := by
  unfold State.prfLane
  extract_lets ag
  split
  · split
    · exact .refl s
    · split
      · exact (PostFrame.refl s).lines (LineFrame.refl s).l2Home
      · exact (PostFrame.refl s).lines (LineFrame.refl s).keepHbm
  · exact (PostFrame.refl s).prfPeer
  · exact .refl s

theorem reach_peer {c : Option Nat} {p asid va chip page off : Nat} {win : Bool} {right : Right}
    (h : s.reach c p asid va win right = .peer chip page off) : win = true := by
  unfold State.reach at h
  split at h
  · cases h
  · cases h
  · split at h
    · cases h
    · split at h
      · split at h
        · assumption
        · cases h
      · split at h
        · cases h
        · split at h <;> cases h

/-- Only the peer window leads to other chips. -/
theorem prfGo_peer {va chip page off : Nat} (go : s.prfGo wid w b i = some (va, .peer chip page off)) : Rcd.space b = 3 := by
  unfold State.prfGo at go
  split at go
  · split at go
    · next a may =>
      have reach := congrArg Prod.snd (Option.some.inj go)
      exact beq_iff_eq.1 (reach_peer reach)
    · cases go
  · cases go

theorem prfLane_lines (here : Rcd.space b ≠ 3) : LineFrame s (s.prfLane l2 wid w b lane i) := by
  unfold State.prfLane
  extract_lets ag
  split
  · split
    · exact .refl s
    · split
      · exact (LineFrame.refl s).l2Home
      · exact (LineFrame.refl s).keepHbm
  · next go => exact absurd (prfGo_peer go) here
  · exact .refl s

end

/-- Of two states, the second differs in what a prefetch leaves: as `PostFrame`, and in its waves. -/
structure PrfFrame (s t : State) : Prop where
  frame : t = { s with waves := t.waves, cores := t.cores, l2 := t.l2, peerWays := t.peerWays, stamps := t.stamps, sliceStamps := t.sliceStamps
                       fresh := t.fresh, nextId := t.nextId, outbox := t.outbox, agenda := t.agenda
                       fab := { s.fab with reads := t.fab.reads, leases := t.fab.leases, flits := t.fab.flits, prefetches := t.fab.prefetches } }
  cores : ∀ c, t.core c = { s.core c with l1 := (t.core c).l1 }

namespace PrfFrame

theorem refl (s : State) : PrfFrame s s := ⟨rfl, fun _ => rfl⟩

theorem trans (h : PrfFrame s t) (k : PrfFrame t u) : PrfFrame s u := by
  refine ⟨?_, fun c => ?_⟩
  · have e := k.frame
    rw [h.frame] at e
    exact e
  · have e := k.cores c
    rw [h.cores c] at e
    exact e

theorem posts (h : PostFrame s t) : PrfFrame s t := ⟨h.frame.trans (by rw [h.frame]), h.cores⟩

theorem withWaves {ws : Tbl Wave} (s : State) : PrfFrame s { s with waves := ws } := ⟨rfl, fun _ => rfl⟩

theorem byteOf (h : PrfFrame s t) (p : Spot) : t.byteOf p = s.byteOf p := by
  cases p with
  | drop => rfl
  | hbm pa =>
    have mem : t.mem = s.mem := congrArg (·.mem) h.frame
    have stale : t.stale = s.stale := congrArg (·.stale) h.frame
    change t.byteAt pa = s.byteAt pa
    rw [State.byteAt, State.byteAt, State.staleAt, State.staleAt, mem, stale]
  | scratch c off =>
    have scratch : (t.core c).scratch = (s.core c).scratch := by rw [h.cores c]
    change Memory.get (t.core c).scratch off = Memory.get (s.core c).scratch off
    rw [scratch]

end PrfFrame

/-- Nothing has been asked of other chips. -/
def NoneAsked (s t : State) : Prop := t.outbox = s.outbox ∧ t.agenda = s.agenda ∧ t.fab = s.fab ∧ t.nextId = s.nextId

theorem NoneAsked.trans (h : NoneAsked s t) (k : NoneAsked t u) : NoneAsked s u :=
  ⟨k.1.trans h.1, k.2.1.trans h.2.1, k.2.2.1.trans h.2.2.1, k.2.2.2.trans h.2.2.2⟩

theorem LineFrame.noneAsked (h : LineFrame s t) : NoneAsked s t :=
  ⟨congrArg (·.outbox) h.frame, congrArg (·.agenda) h.frame, congrArg (·.fab) h.frame, congrArg (·.nextId) h.frame⟩

section
variable {l2 : Bool} {n : BReg} {o : VReg}

/-- A wave that carries out a prefetch. -/
theorem prfWave_eq (found : Tbl.find s.waves wid = some w) (has : w.hasV o.val = true) : s.prfWave l2 n o g wid
    = ((onLanes g wid w).foldl (fun s l => s.prfLane l2 wid w (w.breg n.val) l (w.vreg l o.val).toNat) s).updWave wid (passed (g.lanesOf wid)) := by
  have back : (if (onLanes g wid w).isEmpty then none else State.slabBack wid w [o.val]) = none := by
    rw [State.slabBack_none (by simpa using has), ite_self]
  rw [State.prfWave, found]
  dsimp only
  rw [onLanes] at back
  rw [back]
  rfl

/-- What a prefetch in one wave leaves. -/
theorem prfWave_spec (found : Tbl.find s.waves wid = some w) (has : w.hasV o.val = true) : PrfFrame s (s.prfWave l2 n o g wid)
    ∧ (∀ v, v ≠ wid → Tbl.find (s.prfWave l2 n o g wid).waves v = Tbl.find s.waves v)
    ∧ Tbl.find (s.prfWave l2 n o g wid).waves wid = some (passed (g.lanesOf wid) w)
    ∧ ((onLanes g wid w ≠ [] → Rcd.space (w.breg n.val) ≠ 3) → NoneAsked s (s.prfWave l2 n o g wid)) := by
  have posts : PostFrame s ((onLanes g wid w).foldl (fun s l => s.prfLane l2 wid w (w.breg n.val) l (w.vreg l o.val).toNat) s) :=
    List.foldlRecOn (onLanes g wid w) _ (motive := PostFrame s) (.refl s) fun u h l _ => h.trans (prfLane_posts u wid w)
  have waves := congrArg (·.waves) posts.frame
  dsimp only at waves
  rw [prfWave_eq found has]
  refine ⟨(PrfFrame.posts posts).trans (.withWaves _), fun v other => ?_, ?_, fun here => ?_⟩
  · rw [State.updWave, Tbl.find_upd_ne _ _ other, waves]
  · rw [State.updWave, Tbl.find_upd_self, waves, found]
    rfl
  · have lines : LineFrame s ((onLanes g wid w).foldl (fun s l => s.prfLane l2 wid w (w.breg n.val) l (w.vreg l o.val).toNat) s) :=
      (LineFrame.refl s).foldl fun u l hl => prfLane_lines (here (List.ne_nil_of_mem hl))
    exact lines.noneAsked

/-- PRF in one wave of its group. -/
def prfStep (l2 : Bool) (n : BReg) (o : VReg) (g : Group) (s : State) (wid : Nat) : State :=
  match Tbl.find s.waves wid with
  | none => s
  | some w => if State.beyondSlabs w [o.val] then s.laneTrap wid 0x13 ((g.lanesOf wid).foldl min 31) g.pc none else s.prfWave l2 n o g wid

theorem exec_prf (cur : s.cur = some g) : exec (.prf l2 n o) s = .next (g.waves.foldl (prfStep l2 n o g) s) := by
  change execPrf l2 n o s = _
  rw [execPrf, cur]
  rfl

theorem prfStep_eq (found : Tbl.find s.waves wid = some w) (has : w.hasV o.val = true) : prfStep l2 n o g s wid = s.prfWave l2 n o g wid := by
  rw [prfStep, found]
  dsimp only
  rw [State.beyondSlabs_false (by simpa using has), if_neg Bool.false_ne_true]

/-- What a prefetch in several waves leaves. -/
structure PrfAll (g : Group) (n : BReg) (ws : List Nat) (s t : State) : Prop where
  frame : PrfFrame s t
  others : ∀ v, v ∉ ws → Tbl.find t.waves v = Tbl.find s.waves v
  mine : ∀ v ∈ ws, Tbl.find t.waves v = (Tbl.find s.waves v).map (passed (g.lanesOf v))
  asks : (∀ v ∈ ws, ∀ w, Tbl.find s.waves v = some w → onLanes g v w ≠ [] → Rcd.space (w.breg n.val) ≠ 3) → NoneAsked s t

theorem foldl_prfStep {ws : List Nat} (once : ws.Nodup) (there : ∀ v ∈ ws, ∃ w, Tbl.find s.waves v = some w ∧ w.hasV o.val = true) :
    PrfAll g n ws s (ws.foldl (prfStep l2 n o g) s) := by
  induction ws generalizing s with
  | nil => exact ⟨.refl s, fun _ _ => rfl, by simp, fun _ => ⟨rfl, rfl, rfl, rfl⟩⟩
  | cons a ws ih =>
    obtain ⟨fresh, once⟩ := List.nodup_cons.1 once
    obtain ⟨w, found, has⟩ := there a (.head _)
    obtain ⟨frame, others, mine, asks⟩ := prfWave_spec (l2 := l2) (n := n) (g := g) found has
    rw [← prfStep_eq found has] at frame others mine asks
    have rest := ih (s := prfStep l2 n o g s a) once fun v hv => by
      rw [others v (fun e => fresh (e ▸ hv))]
      exact there v (.tail _ hv)
    rw [List.foldl_cons]
    refine ⟨frame.trans rest.frame, fun v hv => ?_, fun v hv => ?_, fun here => ?_⟩
    · obtain ⟨other, notIn⟩ : v ≠ a ∧ v ∉ ws := by simpa using hv
      rw [rest.others v notIn, others v other]
    · rcases List.mem_cons.1 hv with rfl | hv
      · rw [rest.others v fresh, mine, found]
        rfl
      · rw [rest.mine v hv, others v (fun e => fresh (e ▸ hv))]
    · refine (asks (here a (.head _) w found)).trans (rest.asks fun v hv x hx => ?_)
      rw [others v (fun e => fresh (e ▸ hv))] at hx
      exact here v (.tail _ hv) x hx

end

/-- A wave in which nothing but its threads have moved (R147). -/
theorem waveDone_of_passed (once : g.mem.Nodup) (there : ∀ l, (wid, l) ∈ g.mem → l < w.threads.length) :
    WaveDone g wid 4 (fun _ => {}) w (passed (g.lanesOf wid) w) := by
  obtain ⟨b1, b2, b3⟩ := passes_spec 4 (g.lanesOf wid) (lanesOf_nodup once wid) w (fun l h => there l (mem_lanesOf.1 h))
  change passed (g.lanesOf wid) w = _ at b1
  have noFlags : ∀ ls : List Nat, ls.foldl (fun a _ => a ||| ({} : LaneRes).flags) 0 = 0 := fun ls =>
    List.foldlRecOn ls _ (motive := fun a => a = 0) rfl fun a h l _ => by simp [h]
  refine ⟨?_, fun l r _ => ?_, fun l r _ => ?_, ?_, b2, fun l => ?_⟩
  · rw [b1]
  · rw [b1]
    simp [wrote]
    rfl
  · rw [b1]
    simp [wrote]
    rfl
  · rw [noFlags, raiseFlags_zero, b1]
  · have after := b3 l
    change (passed (g.lanesOf wid) w).thread l = _ at after
    simp only [after, mem_lanesOf, ite_self]

/-- PRF by a group (R325). -/
theorem prf_done {l2 : Bool} {n : BReg} {o : VReg} (ready : LaneReady s g [o.val] []) :
    ∃ t, exec (.prf l2 n o) s = .next t ∧ (∀ p, t.byteOf p = s.byteOf p)
      ∧ (∀ wid w, Tbl.find s.waves wid = some w → ∃ x, Tbl.find t.waves wid = some x ∧ WaveDone g wid 4 (fun _ => {}) w x) ∧ PrfFrame s t
      ∧ ((∀ m ∈ actsOf s g, Rcd.space (m.2.2.breg n.val) ≠ 3) → NoneAsked s t) := by
  obtain ⟨cur, once, able⟩ := ready
  have wave : ∀ v l, (v, l) ∈ g.mem → ∃ w, Tbl.find s.waves v = some w ∧ l < w.threads.length ∧ w.hasV o.val = true := by
    intro v l mem
    have ok := able _ mem
    cases found : Tbl.find s.waves v with
    | none => simp [laneOk, found] at ok
    | some w =>
      simp only [laneOk, found, Bool.and_eq_true, decide_eq_true_eq, List.all_eq_true] at ok
      exact ⟨w, rfl, ok.1.1, ok.1.2 _ (.head _)⟩
  have all : PrfAll g n g.waves s (g.waves.foldl (prfStep l2 n o g) s) := foldl_prfStep (dedup_nodup _) fun v hv => by
    obtain ⟨l, mem⟩ := mem_waves.1 hv
    obtain ⟨w, found, -, has⟩ := wave v l mem
    exact ⟨w, found, has⟩
  refine ⟨_, exec_prf cur, all.frame.byteOf, fun v w found => ⟨passed (g.lanesOf v) w, ?_, waveDone_of_passed once fun l mem => ?_⟩, all.frame,
    fun here => ?_⟩
  · by_cases hv : v ∈ g.waves
    · rw [all.mine v hv, found]
      rfl
    · have none_ : g.lanesOf v = [] := List.eq_nil_iff_forall_not_mem.2 fun l hl => hv (mem_waves.2 ⟨l, mem_lanesOf.1 hl⟩)
      rw [all.others v hv, found, none_]
      rfl
  · obtain ⟨w', found', there, -⟩ := wave v l mem
    rw [found] at found'
    cases found'
    exact there
  · refine all.asks fun v hv w found some_ => ?_
    obtain ⟨l, hl⟩ := List.exists_mem_of_ne_nil _ some_
    obtain ⟨mem, on⟩ := List.mem_filter.1 hl
    exact here (v, l, w) (LoadReady.mem_actsOf (mem_lanesOf.1 mem) found on)

/-- Settles O29: every wave of a group that loads performs all its lanes, each of which reads what the home holds, in whatever copy it finds it; lookups, lines
that stay and acquires change no byte. A prefetch moves lines and asks other chips, and its threads move on. -/
theorem loadsAndPrefetch : Obligations.LoadsAndPrefetch := by
  unfold Obligations.LoadsAndPrefetch
  refine ⟨fun W hint pair acq sc d o n s g => ?_, fun l2 n o s g _ ready => ?_⟩
  · dsimp only
    refine ⟨fun wf ready fresh => ?_, fun wf ready fresh => ?_, fun wf ready fresh => ?_, fun wf ready fresh => ?_⟩
    · have load : LoadReady s g [0] [0, 3] W.bytes (some hint.val) d o n :=
        ⟨width_divides W, block_fits W d wf, by simp, ready, fun _ => fresh rfl⟩
      obtain ⟨t, run, done, bytes, -⟩ := load.done (scope := none) (acq := none)
      simp only [laneBytes_eq] at done
      exact ⟨t, (exec_ld ..).trans run, done, bytes, trivial⟩
    · have load : LoadReady s g [1] [1] W.bytes none d o n :=
        ⟨width_divides W, block_fits W d wf, by simp, ready, nofun⟩
      obtain ⟨t, run, done, bytes, -⟩ := load.done (scope := none) (acq := none)
      simp only [laneBytes_eq] at done
      exact ⟨t, (exec_lds ..).trans run, done, bytes, trivial⟩
    · have load : LoadReady s g [2] [2] W.bytes none d o n :=
        ⟨width_divides W, block_fits W d wf, by simp, ready, nofun⟩
      obtain ⟨t, run, done, bytes, -⟩ := load.done (scope := none) (acq := none)
      simp only [laneBytes_eq] at done
      exact ⟨t, (exec_ldc ..).trans run, done, bytes, trivial⟩
    · have divides : (if pair then 8 else 4) ∣ 128 := by cases pair <;> decide
      have count : d.val + regCount (if pair then 8 else 4) ≤ 128 := by
        cases pair with
        | false => exact d.isLt
        | true => exact fits_of_multiple (k := 2) d (by decide) wf
      have load : LoadReady s g [0] [0, 3] (if pair then 8 else 4) none d o n := ⟨divides, count, by simp, ready, nofun⟩
      obtain ⟨t, run, done, bytes, empty⟩ := load.done (scope := some sc) (acq := if acq then some sc else none)
      simp only [laneBytes_eq] at done
      exact ⟨t, (exec_ldq ..).trans run, done, bytes, fun acquires => empty sc (if_pos acquires)⟩
  · obtain ⟨t, run, bytes, waves, frame, asks⟩ := prf_done (l2 := l2) (n := n) ready
    exact ⟨t, run, bytes, waves, frame.frame, frame.cores, asks⟩

end Sys2Proof.Machine
end
